-- ==== Sys2Proof/Word.lean ====
section
/-! DEFINITION. The word types of the Peros 9400 and the plainest arithmetic on them. -/

namespace Sys2Proof

/-- One byte: the smallest unit of every store of the device. -/
abbrev Byte := BitVec 8

/-- A BAR0 register, a handle or a command word (R10: 32 bits, little-endian in memory). -/
abbrev Word := BitVec 32

/-- A ring word (R115) or an inbox word (R112). -/
abbrev DWord := BitVec 64

/-- An instant or a duration of the raw counter: its unit is 2^-16 ns (R13, R256). -/
abbrev Time := Nat

/-- A whole number of nanoseconds in raw-counter units (R13: 4 ns are 262,144 units). -/
abbrev ns (n : Nat) : Time := n * 65536

/-- A whole number of microseconds in raw-counter units. -/
abbrev us (n : Nat) : Time := n * 65536000

/-- A whole number of milliseconds in raw-counter units. -/
abbrev ms (n : Nat) : Time := n * 65536000000

/-- A whole number of seconds in raw-counter units. -/
abbrev sec (n : Nat) : Time := n * 65536000000000

end Sys2Proof
end

