-- ==== Sys2Proof/Machine/Tbl.lean ====
section
/-! DEFINITION. Sparse tables and byte memories as plain lists in one canonical form: keys strictly rising, and for a
memory no entry equal to what an unlisted address reads as. -/

namespace Sys2Proof.Machine

/-- A table from natural-number keys to values, listed by rising key. -/
abbrev Tbl (α : Type) := List (Nat × α)

/-- The value listed under a key. -/
def tget {α : Type} : Tbl α → Nat → Option α
  | [], _ => none
  | (a, x) :: r, k => if k = a then some x else tget r k

/-- Is a key listed? -/
def thas {α : Type} (m : Tbl α) (k : Nat) : Bool := (tget m k).isSome

/-- List a value under a key, in place of any earlier one. -/
def tput {α : Type} : Tbl α → Nat → α → Tbl α
  | [], k, v => [(k, v)]
  | (a, x) :: r, k, v =>
    if k < a then (k, v) :: (a, x) :: r
    else if k = a then (k, v) :: r
    else (a, x) :: tput r k v

/-- Remove a key. -/
def tdel {α : Type} (m : Tbl α) (k : Nat) : Tbl α := m.filter fun e => e.1 != k

/-- Replace the value under a listed key by `f` of it; an unlisted key stays unlisted. -/
def tmod {α : Type} (m : Tbl α) (k : Nat) (f : α → α) : Tbl α :=
  match tget m k with
  | some v => tput m k (f v)
  | none => m

/-- The keys rise strictly. -/
def sortedKeys {α : Type} : Tbl α → Bool
  | [] => true
  | [_] => true
  | a :: b :: r => decide (a.1 < b.1) && sortedKeys (b :: r)

/-- A byte memory: the bytes that differ from the value an unlisted address reads as. -/
abbrev Mem := Tbl Byte

/-- The byte at an address; `d` is what an unlisted address reads as. -/
def mget (d : Byte) (m : Mem) (a : Nat) : Byte := (tget m a).getD d

/-- Write one byte; a byte equal to `d` is unlisted again. -/
def mput (d : Byte) (m : Mem) (a : Nat) (v : Byte) : Mem := if v = d then tdel m a else tput m a v

/-- Canonical form: keys strictly rising, no entry equal to `d`. -/
def Mem.wf (d : Byte) (m : Mem) : Bool := sortedKeys m && m.all fun e => e.2 != d

/-- `n` bytes from an address on. -/
def mgets (d : Byte) (m : Mem) (a n : Nat) : List Byte := (List.range n).map fun i => mget d m (a + i)

/-- Write bytes from an address on. -/
def mputs (d : Byte) (m : Mem) (a : Nat) : List Byte → Mem
  | [] => m
  | b :: r => mputs d (mput d m a b) (a + 1) r

end Sys2Proof.Machine
end

