-- ==== Sys2Proof/Machine/Blocks.lean ====
section
/-! DEFINITION. The state of each block of the device as plain data: what the spec gives the block beside its registers.
Every field's default is its value at RESET. -/

namespace Sys2Proof.Machine

/-- The eight operating modes (R24). -/
inductive Mode where
  | reset
  | daybreak
  | load
  | configure
  | active
  | standby
  | hold
  | service
  deriving DecidableEq, Repr

/-- SYS.MODE's value of a mode (R24). -/
def Mode.code : Mode → Nat
  | .reset => 0
  | .daybreak => 1
  | .load => 2
  | .configure => 3
  | .active => 4
  | .standby => 5
  | .hold => 6
  | .service => 7

/-- A list of runs (first, count), taken from the head and returned to the tail: the pager's free list (R85) and the free
indices of a handle kind in release order (R48). -/
abbrev Segs := List (Nat × Nat)

/-- A SET_MODE to CONFIGURE whose CONFIGURE has not begun (R55): when its completion was posted, where it came from, and the
completion index the host must pass. -/
structure Gate where
  at_ : Time
  overMgt : Bool
  past : Nat
  deriving DecidableEq, Repr

/-- SYS: mode, reset, straps and pins (chapter 2). -/
structure Sys where
  mode : Mode := .reset
  prev : Mode := .reset
  transitions : Nat := 0
  /-- the mode HOLD was entered from (R40) -/
  heldFrom : Mode := .active
  /-- the sources of this RESET, as bits of SYS.RESET_CAUSE (R25) -/
  causes : Nat := 1
  boot : Nat := 0
  testEn : Bool := false
  /-- RST_N is held low (R422) -/
  rstLow : Bool := false
  perstLow : Bool := false
  /-- DAYBREAK halted (R33) -/
  halted : Bool := false
  /-- the configuration image has been applied (R59) -/
  applied : Bool := false
  /-- the instant the image's records stood complete, and the code and record of a refusal that came after it (R35, R318) -/
  placed : Option Time := none
  bad : Option (Nat × Nat) := none
  /-- outputs enabled at first light (R32 step 17) -/
  lit : Bool := false
  /-- end of RESET, from which the milestones count -/
  tEnd : Time := 0
  /-- entry to ACTIVE or return to it, from which first light and R41 count -/
  tActive : Time := 0
  gate : Option Gate := none
  /-- the die is at or above the trip point: RESET is held until below 115 °C (R25) -/
  tripped : Bool := false
  deriving DecidableEq, Repr

/-- A handle object (R47-R51): `state` 1 CREATED, 2 RUNNING, 3 STOPPED, 4 HELD, 0 for kinds that are not channels. -/
structure HObj where
  gen : Nat
  state : Nat
  cls : Nat
  prio : Nat
  /-- ledger charges: (line, amount) -/
  charges : List (Nat × Nat)
  /-- object keys this object refers to (R50) -/
  refs : List Nat
  /-- the earliest time of its first frame (R79) and the instant its START command started -/
  startAt : Nat
  startCmd : Time
  /-- it is to start once the device is ACTIVE (R51) -/
  auto : Bool := false
  deriving DecidableEq, Repr

/-- A destroyed handle whose charge and pages are not yet returned (R50). -/
structure Dying where
  handle : Word
  charges : List (Nat × Nat)
  deriving DecidableEq, Repr

/-- A management-host prefix (R370). -/
structure HostPrefix where
  ip : Nat
  len : Nat
  deriving DecidableEq, Repr

/-- HDL: handles, ledger, command interface and governor (chapter 3). -/
structure Hdl where
  objs : Tbl HObj := []
  /-- free indices of each kind in release order, where they differ from all free -/
  slots : Tbl Segs := []
  /-- generations that have advanced, by object key -/
  gens : Tbl Nat := []
  dying : List Dying := []
  /-- used charge of each ledger line -/
  used : Tbl Nat := []
  /-- instant of the last vector 0, and whether an advance is still owed one (R56) -/
  vec0Last : Option Time := none
  vec0Owed : Bool := false
  /-- governor: consecutive readings at or above 1.00 and 1.05 (R72 steps 7, 8), hold steps held, newest first -/
  okRelease : Nat := 0
  okRisk : Nat := 0
  heldSteps : List Nat := []
  /-- VCORE write waiting for its acknowledgement, mV; consecutive failures; VCORE_LIMIT posted in this entry -/
  avsWrite : Option Nat := none
  avsFails : Nat := 0
  hosts : List HostPrefix := []
  deriving DecidableEq, Repr

/-- A level-2 page-table entry with V set (R86). -/
structure Pte where
  ppn : Nat
  p : Bool
  d : Bool
  hw : Bool
  ck : Bool
  rt : Bool
  deriving DecidableEq, Repr

/-- PLN: the pager and the LPDDR4X controller (chapter 4). -/
structure Pln where
  free : Segs := []
  /-- entries by object key × 65536 + page of the handle-relative space; key below 2^20 for pages the device owns -/
  ptes : Tbl Pte := []
  /-- pages retired until the next RESET -/
  retired : List Nat := []
  /-- allocation stopped by a poisoned table word (R91) -/
  stopped : Bool := false
  /-- instant of the last POOL_EXHAUSTED -/
  poolPosted : Option Time := none
  /-- translation cache of demand-paged handles: per set, the entries held, most recently used first (R88) -/
  xlat : Tbl (List Nat) := []
  /-- dirty 64 KiB units of the system region (R90) -/
  sysDirty : List Nat := []
  /-- poisoned 64-bit words, by physical address ÷ 8 (R91) -/
  poisoned : List Nat := []
  /-- DQS oscillator readings and the corrections in force (R84) -/
  dqs : List Nat := []
  /-- instant the scrub pass began, time spent in HOLD during it, and whether SCRUB_OVERDUE was posted for it -/
  scrubFrom : Time := 0
  scrubHold : Time := 0
  overdue : Bool := false
  /-- instant HOLD was entered -/
  holdFrom : Time := 0
  deriving DecidableEq, Repr

/-- A task: its descriptor and state word (R107). -/
structure Task where
  flags : Nat
  mask : Nat
  level : Nat
  all : Bool
  grouped : Bool
  exec : Nat
  group : Nat
  owner : Word
  base : Nat
  limit : Nat
  head : Nat
  /-- inbox items, oldest first, with the stamp in [63:48] -/
  inbox : List Nat
  dispatches : Nat
  queued : Bool
  running : Bool
  groupWait : Bool
  /-- level given by SET_PRIORITY, taking effect at the next dispatch (R109) -/
  nextLevel : Nat
  deriving DecidableEq, Repr

/-- An order group (R111). -/
structure Group where
  issue : Nat := 0
  serve : Nat := 0
  busy : Bool := false
  members : List Nat := []
  deriving DecidableEq, Repr

/-- SCH: tasks, groups, ready lists, inboxes (chapter 5). -/
structure Sch where
  tasks : Tbl Task := []
  groups : Tbl Group := []
  /-- ready lists by engine × 16 + level, head first -/
  ready : Tbl (List Nat) := []
  /-- pushes that wait for room, by task, oldest first (R113) -/
  waits : Tbl (List Nat) := []
  /-- instant of the last INBOX_FULL of a task -/
  fullAt : Tbl Time := []
  /-- the item and flags handed to the executor of a running task -/
  handed : Tbl (Nat × Option Nat) := []
  deriving DecidableEq, Repr

/-- An item in a ring: its first word position and its words (R115). -/
structure RItem where
  pos : Nat
  words : List Nat
  deriving DecidableEq, Repr

/-- A ring (R114). -/
structure Ring where
  size : Nat
  hostWrite : Bool
  hostConsumer : Bool
  irqVec : Nat
  consumer : Nat
  irqDepth : Nat
  /-- unreleased items, oldest first; the first `read` of them have been read in full -/
  items : List RItem := []
  read : Nat := 0
  /-- words read of the item at the read position -/
  part : Nat := 0
  /-- next word position to write -/
  wpos : Nat := 0
  /-- mark, as an index into `items` (R120) -/
  mark : Option Nat := none
  /-- the item being read was overwritten (R123) -/
  cut : Bool := false
  lost : Nat := 0
  readLost : Nat := 0
  flushed : Nat := 0
  corr : Nat := 0
  vecLast : Option Time := none
  vecOwed : Bool := false
  deriving DecidableEq, Repr

/-- The host push port's open reservation (R116). -/
structure Resv where
  ring : Nat
  words : Nat
  staged : List Nat
  /-- voided by a flush of its ring, or by the ring's destruction -/
  flushed : Bool
  dead : Bool
  deriving DecidableEq, Repr

/-- QUE: rings and the host ports (chapter 5). -/
structure Que where
  rings : Tbl Ring := []
  resv : Option Resv := none
  dataLo : Nat := 0
  deriving DecidableEq, Repr

/-- A domain record (R260) with its profile defaults filled in. -/
structure DomRec where
  source : Nat := 0
  profile : Nat := 0
  ptpDomain : Nat := 0
  ports : Nat := 0
  role : Nat := 0
  oneStep : Bool := false
  priority1 : Nat := 0
  priority2 : Nat := 0
  clockClass : Nat := 248
  logAnnounce : Int := 0
  logSync : Int := 0
  logDelay : Int := 0
  annTimeout : Nat := 3
  tickRef : Nat := 0
  refNum : Nat := 0
  refDen : Nat := 0
  cableNs : Nat := 0
  lockEdges : Nat := 8
  edge : Nat := 0
  stepUs : Nat := 1000
  deriving DecidableEq, Repr

/-- The dataset a PTP master announces (R270): compared field by field, lower is better. -/
structure Dataset where
  priority1 : Nat
  clockClass : Nat
  clockAccuracy : Nat
  variance : Nat
  priority2 : Nat
  gmId : Nat
  steps : Nat
  srcClock : Nat
  srcPort : Nat
  deriving DecidableEq, Repr

/-- The PTP state of one fixture port in a domain: 0 LISTENING, 1 MASTER, 2 PASSIVE, 3 SLAVE; the masters heard; the
exchange in progress. -/
structure PtpPort where
  state : Nat := 0
  /-- masters heard: dataset, instant of the last Announce, Announces in a row -/
  foreign : List (Dataset × Time × Nat) := []
  /-- Sync waiting for its Follow_Up: sequence, ingress instant t2 in domain time, correction -/
  sync : Option (Nat × Int × Int) := none
  /-- the last t1 and t2 with the correction total C_s -/
  t1 : Int := 0
  t2 : Int := 0
  cs : Int := 0
  have12 : Bool := false
  /-- Delay_Req sent: sequence and t3 -/
  req : Option (Nat × Int) := none
  syncSeq : Nat := 0
  annSeq : Nat := 0
  reqSeq : Nat := 0
  syncAt : Option Time := none
  annAt : Option Time := none
  reqAt : Option Time := none
  deriving DecidableEq, Repr

/-- A time domain (R257, R260, R271, R276): `off` and `f` give device time `off + raw + ⌊f × raw ÷ 2^40⌋`. -/
structure Dom where
  rec_ : DomRec := {}
  off : Int := 0
  f : Int := 0
  servo : Nat := 0
  good : Nat := 0
  bad : Nat := 0
  lastOffset : Int := 0
  meanPath : Int := 0
  /-- frequency estimates while LOCKED: raw instant and value, newest first -/
  history : List (Time × Int) := []
  lockedFrom : Time := 0
  holdFrom : Option Time := none
  gm : Nat := 0
  ports : Tbl PtpPort := []
  /-- reference lock: 0 EPOCH, 1 ACQUIRING, 2 LOCKED, 3 DRIFT -/
  tick : Nat := 0
  /-- φ stood at `phi` at domain time `phiAt` and slews to `phiGoal` -/
  phi : Int := 0
  phiGoal : Int := 0
  phiAt : Int := 0
  /-- errors of consecutive edges that agree, newest first; consecutive edges far off, or near -/
  eps : List Int := []
  far : Nat := 0
  near : Nat := 0
  lastEdge : Option Time := none
  /-- valley reference: instant its reference was last heard -/
  valleyHeard : Time := 0
  deriving DecidableEq, Repr

/-- An installed schedule (R283): `next` is the next instant in the action's clock; for FRAME, `frame` is its frame number. -/
structure Sched where
  mode : Nat
  start : Int
  period : Int
  /-- instants left; none without end -/
  left : Option Nat
  next : Int
  frame : Int
  deriving DecidableEq, Repr

/-- A time action (R282). -/
structure Action where
  /-- held by the device: the syncs of a pace (a canvas, or 8 + a hosted universe), or the frame starts of a pixel port
  (65,536 + port) -/
  device : Option Nat := none
  target : Nat := 0
  pin : Nat := 0
  clock : Nat := 0
  seq : Nat := 0
  policy : Nat := 0
  invert : Bool := false
  canvas : Nat := 0
  width : Nat := 0
  sched : Option Sched := none
  fires : Nat := 0
  lateFires : Nat := 0
  lateNs : Nat := 0
  discards : Nat := 0
  /-- raw instant at which the pulse in progress ends -/
  pulse : Option Time := none
  deriving DecidableEq, Repr

/-- A captured edge: seconds, nanoseconds, falling (R287). -/
structure Stamp where
  s : Nat
  ns_ : Nat
  falling : Bool
  deriving DecidableEq, Repr

/-- An LTC decoder (R281): consecutive good frames, instant of the last one. -/
structure Ltc where
  run : Nat := 0
  last : Time := 0
  deriving DecidableEq, Repr

/-- TIM and EVT (chapter 11). -/
structure Tim where
  domA : Dom := {}
  domB : Dom := {}
  actions : Tbl Action := []
  /-- capture FIFOs by input, oldest first; entries a read of CAPi_S has returned are removed by CAPi_NS -/
  caps : Tbl (List Stamp) := []
  ltc0 : Ltc := {}
  ltc1 : Ltc := {}
  ltcOnCap3 : Bool := false
  /-- a conversion sequence in progress: action, fire count, first sample in the action's clock, channel mask -/
  adc : Option (Nat × Nat × Int × Nat) := none
  adcOwner : Option Nat := none
  /-- TRG_OUT pins taken by the PX7 mirror: pin, object key of the map (R75) -/
  mirrors : List (Nat × Nat) := []
  /-- pulses of destroyed actions still running: action, pin, idle level, raw instant of the end (R286) -/
  orphans : List (Nat × Nat × Bool × Time) := []
  /-- PPS_OUT is high until this raw instant -/
  pps : Option Time := none
  deriving DecidableEq, Repr

/-- An ingest stream (R127, R132): buffer roles (3: none), the frame being written, loss. -/
structure Stream where
  sampling : Nat
  depth : Nat
  width : Nat
  height : Nat
  color : Nat
  range : Nat
  transfer : Nat
  pt : Nat
  group : Nat
  source : Nat
  udpPort : Nat
  port : Nat
  vlan : Nat
  rateNum : Nat
  rateDen : Nat
  w : Nat := 0
  c : Nat := 3
  l : Nat := 3
  /-- tick at which L was last latched, canvas that latched it (R133) -/
  latchN : Option Int := none
  /-- C has been latched -/
  cLatched : Bool := false
  joined : Bool := false
  lost : Bool := false
  /-- RTP timestamp of the frame being written, and whether it is incomplete -/
  frame : Option (Nat × Bool) := none
  lastSeq : Option Nat := none
  /-- RTP timestamp of C -/
  cTime : Nat := 0
  /-- instant of the last accepted packet, HOLD excluded (R134) -/
  heard : Time := 0
  deriving DecidableEq, Repr

/-- Canvas timing (R135, R149), defaults filled in. -/
structure Timing where
  rateNum : Nat
  rateDen : Nat
  bands : Nat
  twilight : Nat
  lead : Nat
  tailUs : Nat
  blankSend : Bool
  deriving DecidableEq, Repr

/-- A layer state entry (R140). -/
structure LState where
  dx : Nat
  dy : Nat
  dw : Nat
  dh : Nat
  sx : Nat
  sy : Nat
  sw : Nat
  sh : Nat
  opacity : Nat
  blend : Nat
  z : Nat
  r : Nat
  g : Nat
  b : Nat
  deriving DecidableEq, Repr

/-- A layer (R139): its stream, its live state and the states staged for the next tick and for the one after (R147). -/
structure Layer where
  canvas : Nat
  source : Option Nat
  loss : Nat
  live : LState
  pend1 : Option LState := none
  pend2 : Option LState := none
  deriving DecidableEq, Repr

/-- A layer as a pass latched it: its stream with the latched buffer, whether it acts as CLEAR, its state. -/
structure PLayer where
  source : Option (Nat × Nat)
  clear : Bool
  st : LState
  deriving DecidableEq, Repr

/-- A raster pass (R136): the frame it produces, its latch tick, the next band, the state it latched. -/
structure Pass where
  frame : Int
  latch : Int
  band : Nat
  layers : List PLayer
  bg : Nat × Nat × Nat
  /-- the sample points it composes: index, X, Y -/
  points : List (Nat × Nat × Nat)
  fetched : Nat := 0
  saved : Nat := 0
  deriving DecidableEq, Repr

/-- A DOMAIN_SWITCH not yet made (R263): target domain, STEP, slew, the frame tick. -/
structure Switch where
  dest : Nat
  step : Bool
  ppm : Nat
  tick : Int
  deriving DecidableEq, Repr

/-- The ticks of a grid that a RETIME or a stepped switch has left: its timing, its next tick, the tick at which the blank begins, and
how far its ticks lie beside N × Tf in canvas time. -/
structure OldGrid where
  timing : Timing
  next : Int
  last : Int
  shift : Int
  deriving DecidableEq, Repr

/-- A RETIME or a stepped switch in progress (R150, R265). -/
structure Regrid where
  /-- new timing, none for a stepped switch -/
  timing : Option Timing
  /-- the old tick at which no pass starts -/
  boundary : Int
  /-- the boundary is still to come -/
  waiting : Bool := true
  /-- from the boundary on: the grid of the frames latched before it -/
  old : Option OldGrid := none
  /-- the first tick of the new grid -/
  first : Option Int := none
  /-- a stepped switch before the first tick of the new grid: its ticks stand off by the carry -/
  hop : Bool := false
  /-- new pixel-port timing records (R149 bytes 32–39) -/
  maps : List Byte := []
  deriving DecidableEq, Repr

/-- A canvas (R135). -/
structure Canvas where
  domain : Nat
  primaries : Nat
  timing : Timing
  width : Nat
  height : Nat
  samples : Nat
  bg : Nat × Nat × Nat
  /-- carry κ stood at `k0` at domain time `kAt` and slews to 0 at `ppm` (0: not slewing) (R262, R264) -/
  k0 : Int := 0
  kAt : Int := 0
  ppm : Nat := 0
  /-- SWITCH_DONE is owed when the carry reaches 0 -/
  switching : Bool := false
  switch : Option Switch := none
  regrid : Option Regrid := none
  /-- number of the next frame tick; φ of the tick before it, of it and of the three after it (R275) -/
  nextN : Int := 0
  phis : List Int := []
  blank : Bool := false
  pass : Option Pass := none
  /-- frame whose pass was aborted last -/
  aborted : Option Int := none
  pub : Nat := 0
  pubFrame : Option Int := none
  /-- free sample indices in release order (R137) -/
  free : Segs := []
  /-- points in use: X, Y, object key of the record that declares them -/
  points : Tbl (Nat × Nat × Nat) := []
  lastUnderrun : Option Time := none
  /-- states are staged for the next tick, for the one after -/
  pend1 : Bool := false
  pend2 : Bool := false
  deriving DecidableEq, Repr

/-- Video: streams, canvases, layers (chapter 6). -/
structure Vid where
  streams : Tbl Stream := []
  canvases : Tbl Canvas := []
  layers : Tbl Layer := []
  deriving DecidableEq, Repr

/-- What a queued frame is, for its queue row (R245), its guard and its lateness (R190-R192). -/
inductive TxTag where
  /-- E1.31 synchronization of frame N of a pace (a canvas, or 8 + a hosted universe), with T_N -/
  | sync (pace : Nat) (frame tick : Int)
  /-- show-class universe data: send key of the universe, its pace, frame N, SYNC mode, termination packet; O_N (or T_N in ARRIVAL
  mode), T_N and T_{N+1} in the pace's time -/
  | show_ (univ pace : Nat) (frame : Int) (sync term : Bool) (opens tick next : Int)
  /-- site-class universe data -/
  | site (univ : Nat)
  /-- PTP event message: domain, message type, sequence -/
  | event (dom msg seq : Nat)
  /-- PTP general messages, ARP, IGMP, ICMP, discovery -/
  | control
  /-- best effort -/
  | best
  deriving DecidableEq, Repr

/-- A frame in a transmit queue: destination to payload, without FCS. -/
structure TxFrame where
  tag : TxTag
  bytes : List Byte
  deriving DecidableEq, Repr

/-- The frame on the wire: when its present fragment started, when it will have ended, the bytes of it sent before, fragments. -/
structure Wire where
  frame : TxFrame
  express : Bool
  start : Time
  done : Time
  sent : Nat
  frags : Nat
  deriving DecidableEq, Repr

/-- A port record (R236), defaults filled in. -/
structure PortRec where
  mode : Nat := 0
  speed : Nat := 0
  pauseEn : Bool := false
  preempt : Bool := false
  an : Bool := false
  txInv : Bool := false
  rxInv : Bool := false
  mac : Nat := 0
  vlan : Nat := 0
  ipv4 : Nat := 0
  prefix_ : Nat := 0
  verifyMs : Nat := 10
  maxFrame : Nat := 1522
  gateway : Nat := 0
  rxBuffers : Nat := 1024
  deriving DecidableEq, Repr

/-- An ARP cache entry (R244): the address once resolved, the instant it was resolved, the instant of the last request. -/
structure ArpEntry where
  mac : Option Nat
  born : Time
  asked : Time
  deriving DecidableEq, Repr

/-- An IGMP report waiting (R253): the group, what it says (0 a join, 1 a leave, 2 the current state), source filter, VLAN word of
the joining channel, due instant. -/
structure IgmpDue where
  group : Nat
  kind : Nat
  source : Nat
  vlan : Nat
  due : Time
  deriving DecidableEq, Repr

/-- A network port: FXP0–FXP15 are 0–15, MGT is 16 (chapter 10). Link: 0 disabled, 1 ACQUIRING, 2 UP, 3 MISMATCH. Verify:
0 DISABLED, 1 INITIAL, 2 VERIFYING, 3 SUCCEEDED, 4 FAILED. -/
structure Port where
  rec_ : PortRec := {}
  link : Nat := 0
  verify : Nat := 0
  attempts : Nat := 0
  verifyAt : Time := 0
  pauseEnd : Option Time := none
  pauseFrom : Time := 0
  lpAbility : Nat := 0
  express : List TxFrame := []
  queue : List TxFrame := []
  wire : Option Wire := none
  /-- a preempted frame: bytes already sent, fragments so far -/
  held : Option (TxFrame × Nat × Nat) := none
  /-- earliest instant the next frame may start (inter-frame gap) -/
  ready : Time := 0
  /-- sequence number of the last sync sent, 511 before the first (its number is 0), and the frame of the last sync launched -/
  syncSeq : Nat := 511
  syncN : Option Int := none
  /-- syncs owed: pace, frame N, T_N; the slack of the last sync-mode packet of the frame, µs, 0 where it was late, none where nothing was sent -/
  syncFor : List (Nat × Int × Int) := []
  /-- the sync packet of a pace as the first universe of the frame that owes it spells it, its sequence number 0 -/
  syncPkt : Tbl (List Byte) := []
  slack : Option Nat := none
  arp : Tbl ArpEntry := []
  /-- joined groups with the channel that holds them: (group, object key) -/
  groups : List (Nat × Nat) := []
  igmp : List IgmpDue := []
  /-- receive ring positions and buffers in use -/
  dataPos : Nat := 0
  ctlPos : Nat := 0
  dataUsed : Nat := 0
  lastDrop : Option Time := none
  icmpFrom : Time := 0
  icmpCount : Nat := 0
  /-- instant of the last SEND_LATE, and of UNRESOLVED per destination -/
  lateAt : Option Time := none
  unresolvedAt : Tbl Time := []
  cnt : Tbl Nat := []
  snap : Tbl Nat := []
  hiLatch : Tbl Nat := []
  deriving DecidableEq, Repr

/-- An output identity (R182). -/
structure Ident where
  priority : Nat
  discovery : Bool
  cid : List Byte
  sourceIp : Nat
  name : List Byte
  /-- instant of the last universe discovery -/
  discAt : Option Time := none
  deriving DecidableEq, Repr

/-- An output universe (R184). -/
structure Univ where
  number : Nat
  ident : Nat
  canvas : Option Nat
  slots : Nat
  dest : Nat
  mode : Nat
  valley : Nat
  priority : Nat
  rate : Nat
  tagged : Bool
  unicast : Bool
  forceSync : Bool
  vid : Nat
  syncAddr : Nat
  destIp : Nat
  cls : Nat
  /-- the universe's handle, as the header of its valley packets names it -/
  handle : Word := 0
  /-- sequence number of the last packet sent, 511 before the first (its number is 0, R194) -/
  seq : Nat := 511
  /-- the frame its next dispatch computes (R176), the payload written last with its frame, and the payload before it -/
  frame : Int := 0
  latchAt : Time := 0
  payload : List Byte := []
  payFrame : Option Int := none
  prev : List Byte := []
  /-- N of the last frame sent -/
  lastSent : Int := 0
  /-- termination packets still to send (R196) -/
  terms : Nat := 0
  /-- number of its next site tick (R199) -/
  tickK : Nat := 0
  deriving DecidableEq, Repr

/-- A source entry of a lamp or parameter (R158): `wide` for 16-bit input slots. -/
structure SrcEntry where
  kind : Nat
  prio : Nat
  a : Nat
  b : Nat
  c : Nat
  wide : Bool
  /-- sample index of a canvas source -/
  sample : Nat := 0
  deriving DecidableEq, Repr

/-- A lamp entry (R157) with its stored matrix rows (R170): nine coefficients of M and three of q, in 2^-14. -/
structure Lamp where
  bins : List Nat
  merge : Nat
  dflt : Nat
  srcs : List SrcEntry
  m : List Int := []
  q : List Int := []
  scaled : Bool := false
  deriving DecidableEq, Repr

/-- A parameter entry (R157). -/
structure Param where
  slot : Nat
  width : Nat
  curve : Nat
  merge : Nat
  dflt : Nat
  srcs : List SrcEntry
  deriving DecidableEq, Repr

/-- A fixture (R156). -/
structure Fixture where
  univ : Nat
  canvas : Option Nat
  start : Nat
  footprint : Nat
  lampOffset : Nat
  layout : Nat
  intensityFirst : Bool
  order : Nat
  wide : Bool
  dither : Bool
  chroma : Bool
  lampCurve : Nat
  binTable : Nat
  ws : Nat
  master : Option Nat
  amber : Option Nat
  lamps : List Lamp
  params : List Param
  cls : Nat
  /-- the slot bytes written last, by universe slot, and the frame they were written for -/
  last : List (Nat × Byte) := []
  /-- those of the frame before -/
  prev : List (Nat × Byte) := []
  lastFrame : Option Int := none
  repeated : Bool := false
  staleAt : Option Time := none
  deriving DecidableEq, Repr

/-- A bin table (R168): target primaries, target luminance, entries (x, y, flux). -/
structure BinTable where
  primaries : Nat
  targetY : Nat
  entries : List (Nat × Nat × Nat)
  deriving DecidableEq, Repr

/-- A tracked E1.31 source (R162). -/
structure ESource where
  cid : Nat
  prio : Nat
  seq : Nat
  slots : List Byte
  heard : Time
  /-- acceptance order, for LTP -/
  order : Nat
  deriving DecidableEq, Repr

/-- An input universe (R160). State: 0 WAITING, 1 LIVE, 2 HOLDING, 3 RELEASED. -/
structure Input where
  uni : Nat
  ports : Nat
  merge : Nat
  loss : Nat
  holdMs : Nat
  rate : Nat
  join : Bool
  tagged : Bool
  vid : Nat
  st : Nat := 0
  srcs : Tbl ESource := []
  /-- merged slots 1–512: value and the instant it last changed; an unlisted slot is absent -/
  merged : Tbl (Nat × Time) := []
  winPrio : Nat := 0
  holdingFrom : Time := 0
  lastAt : Time := 0
  accepted : Nat := 0
  packets : Nat := 0
  seqDrops : Nat := 0
  losses : Nat := 0
  overflow : Nat := 0
  terminated : Nat := 0
  /-- the instant it was stopped, while its timers stand still -/
  frozen : Option Time := none
  deriving DecidableEq, Repr

/-- Output: identities, universes, fixtures, inputs, ports (chapters 7, 8, 10). -/
structure Outp where
  idents : Tbl Ident := []
  univs : Tbl Univ := []
  /-- destroyed universes that still owe termination packets, by send key (65,536 up) -/
  ghosts : Tbl (Univ × Ident) := []
  fixtures : Tbl Fixture := []
  inputs : Tbl Input := []
  bins : Tbl BinTable := []
  /-- curves 2–63: 4,097 entries each -/
  curves : Tbl (List Nat) := []
  ports : Tbl Port := []
  /-- fixture-engine work of the last millisecond: instant, units -/
  work : List (Time × Nat) := []
  deriving DecidableEq, Repr

end Sys2Proof.Machine
end

