-- ==== Sys2Proof/Machine/Blocks2.lean ====
section
/-! DEFINITION. The state of the site policy engine, of the DMX lines and of the pixel ports as plain data. -/

namespace Sys2Proof.Machine

/-- A level that moves linearly from `a` to `b` over `dur` from the instant `at_` (R300). -/
structure Ramp where
  a : Nat := 0
  b : Nat := 0
  at_ : Time := 0
  dur : Time := 0
  deriving DecidableEq, Repr

/-- A zone (R292-R303). Presence state: 0 VACANT, 1 OCCUPIED, 2 FADING. Illuminance in units of 1/16,000 lux. -/
structure Zone where
  occ : Nat
  vac : Nat
  holdS : Nat
  upMs : Nat
  downMs : Nat
  target : Nat
  gain : Nat
  cycleMs : Nat
  ovrInput : Option Nat
  ovrSlot : Nat
  ovrPrio : Nat
  st : Nat := 0
  /-- h, ms, and the instant the hold ends -/
  h : Nat := 0
  holdEnd : Option Time := none
  /-- the instant VACANT was entered; none once h has been reset for this stay -/
  vacantFrom : Option Time := none
  p : Ramp := {}
  /-- number of the next CYCLE instant, from the epoch of domain A -/
  nextCycle : Int := 0
  d : Ramp := { a := 65535, b := 65535 }
  /-- reports since the last CYCLE: sum and count; E as a quotient; instant of the last report; stale -/
  luxSum : Int := 0
  luxN : Nat := 0
  eNum : Int := 0
  eDen : Nat := 1
  luxAt : Option Time := none
  stale : Bool := false
  /-- the loop's trim in percent; settled; an episode runs: cycles so far, cycles with |e| ≤ 0.02 in a row, sign of the last e
  beyond 0.05 and whether it changed -/
  trim : Nat := 100
  episode : Bool := false
  cycles : Nat := 0
  small : Nat := 0
  sign : Int := 0
  flipped : Bool := false
  settle : Nat := 0
  /-- the override's level while it is active; the fade after it ended: from level, from instant, duration -/
  ovr : Option Nat := none
  back : Option (Nat × Time × Time) := none
  /-- instant of the last level change (R166) -/
  changed : Time := 0
  /-- Z of a held zone, which it keeps (R305) -/
  keep : Option Nat := none
  deriving DecidableEq, Repr

/-- A sensor (R293): its record, its token bucket (credit in rate × time), its last value. -/
structure Sensor where
  zone : Nat
  rdm : Bool
  daylight : Bool
  channel : Nat
  line : Nat
  ident : Nat
  rate : Nat
  scale : Int
  credit : Nat
  creditAt : Time
  value : Nat := 0
  heard : Option Time := none
  born : Time := 0
  /-- instant of the next RDM poll -/
  pollAt : Time := 0
  deriving DecidableEq, Repr

/-- SITE (chapter 12): the telemetry ports and the last sequence number of each source identifier are listed. -/
structure Site where
  zones : Tbl Zone := []
  sensors : Tbl Sensor := []
  seqs : Tbl Nat := []
  deriving DecidableEq, Repr

/-- An RDM request of a line: what it serves (0 mailbox, 1 sensor poll, 2 discovery, 3 a broadcast that awaits no response), destination, command class, parameter, data;
how often it has been sent; the instant its last byte ends; the packet. -/
structure RdmReq where
  serves : Nat
  sensor : Nat
  dest : Nat
  cc : Nat
  pid : Nat
  data : List Byte
  sent : Nat
  ends : Time
  deriving DecidableEq, Repr

/-- A full discovery in progress (R203): branches still to search, the responder to be muted, those found. `fresh` until the
un-mute that opens it has been sent. -/
structure Disc where
  fresh : Bool
  branches : List (Nat × Nat)
  mute : Option Nat
  found : List Nat
  deriving DecidableEq, Repr

/-- A DMX line (R200-R204). -/
structure Line where
  short : Bool := false
  /-- the last packet's slots and the instant of its break -/
  slots : List Byte := []
  lastBreak : Option Time := none
  /-- the break of the present tick waits for an RDM transaction; tick of the next break -/
  tick : Int := 0
  req : Option RdmReq := none
  /-- requests that failed and are to be repeated, by what they serve -/
  again : Tbl RdmReq := []
  /-- the host's request, not sent yet -/
  mailbox : Option RdmReq := none
  disc : Option Disc := none
  discFrom : Time := 0
  discDone : Bool := false
  kept : List Nat := []
  tn : Nat := 0
  deriving DecidableEq, Repr

/-- DMX (chapter 8). -/
structure Dmx where
  line0 : Line := {}
  line1 : Line := {}
  deriving DecidableEq, Repr

/-- A timing record of a pixel port (R212). -/
structure PxTiming where
  mode : Nat := 0
  ckDiv : Nat := 0
  s : Nat := 1
  g : Nat := 8
  r : Nat := 1
  glob : Nat := 0
  tLsb : Nat := 0
  blank : Nat := 0
  cb : Nat := 0
  t0h : Nat := 0
  t1h : Nat := 0
  tbit : Nat := 0
  resetUs : Nat := 0
  deriving DecidableEq, Repr

/-- A pixel of a map (R210, R211): its sample index and point, wire position, bins, DOT values, and the stored matrix. -/
structure Pixel where
  sample : Nat
  x : Nat
  y : Nat
  lane : Nat
  line : Nat
  col : Nat
  bins : List Nat
  dot : List Nat
  m : List Int
  q : List Int
  deriving DecidableEq, Repr

/-- Fault state of a channel or lamp (R228): 0 NEVER, 1 OK, 2 OPEN, 3 SHORT; DIM; held bypassed; frame of its last assessment. -/
structure Chan where
  st : Nat := 0
  dim : Bool := false
  ride : Bool := false
  frame : Int := 0
  deriving DecidableEq, Repr

/-- A pixel-port map (R209-R233). -/
structure PxMap where
  c : Nat
  order : Nat
  dither : Bool
  chroma : Bool
  calib : Bool
  mirror : Bool
  canvas : Nat
  curve : Nat
  binTable : Nat
  ws : Nat
  timing : PxTiming
  pixels : List Pixel
  /-- the frame its next dispatch computes (R176); payload written last with its frame, and the payload before it (R211, R178) -/
  frame : Int := 0
  drives : List Nat := []
  drivesFrame : Option Int := none
  prevDrives : List Nat := []
  /-- the fill in progress: frame and when it will be done; the half filled: frame, values and instant; the half being scanned -/
  fill : Option (Int × Time) := none
  filled : Option (Int × List Nat × Time) := none
  scan : Option (Int × List Nat) := none
  /-- frame scanned last; the frame whose time it is, once it has started; refresh reached, blank frame in progress -/
  lastN : Int := 0
  slotN : Option Int := none
  refresh : Nat := 0
  blank : Bool := false
  /-- DOT values to write in the next diagnostic slot; the line of a probe postponed or asked for; CLEAR owed at the next frame
  start -/
  cfgDue : Bool := true
  probeDue : Option Nat := none
  clearDue : Bool := false
  chans : Tbl Chan := []
  /-- strings waiting for a locate -/
  locate : List Nat := []
  /-- a retime's timing, in force from the frame after the blank -/
  nextTiming : Option PxTiming := none
  deriving DecidableEq, Repr

/-- A pixel port (chapter 9): disabled by a short, its map, items posted in the present second. -/
structure PxPort where
  disabled : Bool := false
  map : Option PxMap := none
  itemFrom : Time := 0
  items : Nat := 0
  /-- a zero frame is owed by a destroyed SERIAL-PIX map -/
  zeroDue : Bool := false
  deriving DecidableEq, Repr

/-- PXP. -/
structure Pxp where
  ports : Tbl PxPort := []
  deriving DecidableEq, Repr

end Sys2Proof.Machine
end

