-- ==== Sys2Proof/Machine/Blocks3.lean ====
section
/-! DEFINITION. What travels between devices of a valley, as data: a member's description, the part of the state that a checkpoint
carries beside its pages, and the messages whose bytes the spec does not lay out (log 14). -/

namespace Sys2Proof.Machine

/-- A member as its membership update describes it (R313); `doms` tells, for domains A and B, 1 PTP and LOCKED, 2 PTP and in
HOLDOVER, else 0 (R320). -/
structure MemberInfo where
  uid : Nat
  addr : Nat
  pinned : Bool
  major : Nat
  minor : Nat
  mode : Nat
  /-- its links in UP: link number, UID of the device at the far end -/
  links : List (Nat × Nat)
  doms : List Nat
  deriving DecidableEq, Repr

/-- The system-region content of a checkpoint (R345, row "Carried"). -/
structure Snapshot where
  objs : Tbl HObj
  slots : Tbl Segs
  gens : Tbl Nat
  used : Tbl Nat
  streams : Tbl Stream
  canvases : Tbl Canvas
  layers : Tbl Layer
  idents : Tbl Ident
  univs : Tbl Univ
  fixtures : Tbl Fixture
  inputs : Tbl Input
  pixels : Tbl PxPort
  zones : Tbl Zone
  sensors : Tbl Sensor
  actions : Tbl Action
  tasks : Tbl Task
  rings : Tbl Ring
  /-- check jobs by channel: algorithm, HOST_WRITE, buffer pages -/
  jobs : Tbl (Nat × Bool × Nat)
  /-- sync sequence numbers by port -/
  syncSeqs : Tbl Nat
  /-- the instant of the snapshot in domain A, and its raw value, from which the instants above count -/
  at_ : Int
  rawAt : Time
  deriving DecidableEq, Repr

/-- What an admission asks for (R318): a universe with its handle and identity, its rate, its canvas's domain and LEAD, the device that
sends it, and, for the copy of a migration, the device that computes it now with its handle there. -/
structure AdmitAsk where
  handle : Word
  univ : Univ
  ident : Ident
  rateNum : Nat
  rateDen : Nat
  domain : Nat
  lead : Nat
  sender : Nat
  from_ : Option (Nat × Word) := none
  old : Option Nat := none
  deriving DecidableEq, Repr

/-- What a migration copies to its target (R323, R327): the universe with its epoch, its identity, its fixtures with the levels their
tasks take, the canvas it must find there, and NEW_DEST with MOVE_PORT. -/
structure MigCopy where
  univ : Univ
  ident : Ident
  fixtures : List Fixture
  prio : Nat
  inbox : Nat
  canvas : Option (Nat × Nat × Timing)
  epoch : Nat
  newDest : Option Nat
  deriving DecidableEq, Repr

/-- The payload of a valley packet. -/
inductive VMsg where
  /-- the slots of a universe, a termination packet or not; HANDLE, FRAME, EPOCH and AUX stand in the header -/
  | payload (slots : List Byte) (term : Bool)
  | member (m : MemberInfo)
  /-- a device at address 0 asks the root; the root assigns -/
  | addrAsk (uid : Nat)
  | addrGive (uid addr : Nat)
  /-- admission (R318): `op` 0 request, 1 commit, 2 return, 3 a new rate (R149) -/
  | admitMsg (id op : Nat) (ask : AdmitAsk)
  | admitAns (id code : Nat) (data : List Byte)
  /-- valley time (R320): domain, reference's UID, origin time and correction in 2^-16 ns -/
  | time (dom uid : Nat) (origin corr : Int)
  | linkControl
  /-- firmware relay (R322) -/
  | relayAsk
  | relayOffer (length : Nat)
  | relayTake
  | relayRefuse (link : Nat)
  | relayData (off : Nat) (bytes : List Byte)
  /-- migration (R323-R327): the copy; the answer with the new handle; the switch at the sending device; the sequence number; the end of a
  copy -/
  | migCopy (id : Nat) (copy : MigCopy)
  | migAns (id code : Nat) (data : List Byte) (handle : Word)
  | migSwitch (old new : Word) (target : Nat) (ns : Int) (epoch : Nat)
  | migSeq (handle : Word) (seq : Nat)
  | migDrop (handle : Word)
  /-- a heartbeat: the word and RED.HEALTH (R335) -/
  | heartbeat (word health : Nat)
  /-- the witness (R343): answer 0 SILENT, 1 NOT_HOLDING, 2 HOLDING -/
  | witnessAsk (asker : Nat)
  | witnessAns (answer : Nat)
  | probe (asker : Nat)
  | probeAns (asker word : Nat)
  /-- handover (R351): `op` 0 START, 1 CANCEL, 2 the answer with its result, 3 the old active has released -/
  | handover (op : Nat) (force : Bool) (nh : Int) (code : Nat)
  /-- checkpoints (R346, R347) -/
  | chunk (num page part : Nat) (data : List Byte)
  | system (num : Nat) (snap : Snapshot)
  | trailer (num pages crc : Nat)
  | ckptAck (num : Nat)
  | ckptRefuse (num : Nat)
  deriving DecidableEq, Repr

/-- A valley packet as it is received or sent: the 32 header bytes (R311), how many payload bytes follow, whether the payload's
CRC-32C is right, and what the payload says. -/
structure VPkt where
  header : List Byte
  len : Nat
  crcOk : Bool
  body : VMsg
  deriving DecidableEq, Repr

end Sys2Proof.Machine
end

