-- ==== Sys2Proof/Syntax.lean ====
section
/-! DEFINITION. The commands of the block: one constructor of `Instr` for each row of spec/opcode_table.json, in the table's
order. Every constructor's first operand `t` is the raw-counter instant at which the command reaches the device (log 1). -/

namespace Sys2Proof

/-- Where a command entry came from (R53, R58). -/
inductive CmdSrc where
  | pcie
  | mgt (ip port : Nat)
  deriving DecidableEq, Repr

/-- What a command entry carries beside its opcode, handle and arguments (R56): its source, its SLOT (an MGT
entry's position in its datagram, modulo 16), FENCE, IRQ, TAG. -/
structure CmdHdr where
  src : CmdSrc
  slot : Nat
  fence : Bool
  irq : Bool
  tag : Word
  deriving DecidableEq, Repr

/-- The arguments of CREATE and ADMIT_CHECK (R59). -/
structure CreateArgs where
  kind : Nat
  cls : Nat
  prio : Nat
  anyIndex : Bool
  start : Bool
  index : Nat
  secs : Nat
  nanos : Nat
  recOff : Nat
  recLen : Nat
  deriving DecidableEq, Repr

/-- What DAYBREAK's items found (R32, R33, R83, R104): the boot header is read from the NOR by the device itself. -/
structure Daybreak where
  /-- calibration readings: item, instance, and the two readings as 32-bit two's complement in the item's unit × 100 (R387, R388) -/
  cal : List (Nat × Nat × Nat × Nat)
  /-- 0 when both channels train, else the failing step (1–6) and channel (R83) -/
  trainStep : Nat
  trainChannel : Nat
  /-- the density of the 8 GiB configuration is fitted (R80); two ranks per channel -/
  size8 : Bool
  ranks2 : Bool
  /-- newly failing columns of each scratchpad bank (R104) -/
  spmFail : List Nat
  /-- pixel-port channels (port, pin) found shorted to a neighbour, DMX lines found shorted (R32 step 7) -/
  pxpShort : List (Nat × Nat)
  dmxShort : List Nat
  deriving DecidableEq, Repr

/-- One ST 2110-20 packet after its RTP header and its sample-row-data headers (R130). -/
structure VideoPkt where
  /-- the ingest port and the destination group and UDP port it came on -/
  port : Nat
  group : Nat
  udpPort : Nat
  payloadType : Nat
  vlan : Option Nat
  seq : Nat
  rtpTime : Nat
  marker : Bool
  /-- sample-row-data segments: row, offset in pixels, field bit, the segment's bytes -/
  srd : List (Nat × Nat × Bool × List Byte)
  /-- the packet's inner lengths agree with its real length (R76) -/
  lenOk : Bool
  deriving DecidableEq, Repr

/-- What an E1.31 datagram is (R161). -/
inductive E131Kind where
  | data
  | sync
  | discovery
  | other
  deriving DecidableEq, Repr

/-- One E1.31 datagram after its root, framing and DMP layers (R161). -/
structure E131Pkt where
  kind : E131Kind
  /-- every inner length agrees, and a start code is present -/
  lenOk : Bool
  /-- the VID of the 802.1Q tag -/
  vlan : Option Nat
  cid : Nat
  srcIp : Nat
  priority : Nat
  syncAddress : Nat
  seq : Nat
  preview : Bool
  terminated : Bool
  uni : Nat
  startCode : Nat
  slots : List Byte
  deriving DecidableEq, Repr

/-- An RDM response as received on a line (R202): the response type, the parameter id and data. -/
structure RdmResp where
  checksumOk : Bool
  /-- the source UID of the responder -/
  uid : Nat
  /-- 0 ACK, 1 ACK_TIMER, 2 NACK_REASON, 3 ACK_OVERFLOW -/
  respType : Nat
  cc : Nat
  pid : Nat
  data : List Byte
  /-- the signal was a clean single discovery response -/
  collision : Bool
  deriving DecidableEq, Repr

/-- One received Ethernet frame, after reassembly (R249): `len` counts from the destination to the FCS; `tags` are the VIDs of
its 802.1Q tags; `fragments` is how many mPackets it came in. -/
structure EthFrame where
  codeError : Bool
  fcsOk : Bool
  /-- a continuation with a wrong count, or with no start -/
  assyError : Bool
  fragments : Nat
  len : Nat
  dst : Nat
  src : Nat
  tags : List Nat
  /-- an 0x88A8 tag is present -/
  sTag : Bool
  /-- the length or type field -/
  etherType : Nat
  payload : List Byte
  deriving DecidableEq, Repr

/-- One PTP message after its common header (R269, R270). -/
structure PtpMsg where
  port : Nat
  /-- 0 Sync, 1 Delay_Req, 8 Follow_Up, 9 Delay_Resp, 0xB Announce -/
  msgType : Nat
  domain : Nat
  seq : Nat
  twoStep : Bool
  /-- correctionField, in 2^-16 ns -/
  correction : Int
  srcClock : Nat
  srcPort : Nat
  /-- originTimestamp, preciseOriginTimestamp or receiveTimestamp, in ns -/
  timestamp : Nat
  /-- raw-counter instant captured in the PCS at ingress, c_rx (R266) -/
  ingress : Nat
  /-- sent to this device's own address: the sender's IPv4 and MAC addresses -/
  unicast : Option (Nat × Nat)
  /-- Announce: priority1, clockClass, clockAccuracy, variance, priority2, grandmaster, steps removed -/
  priority1 : Nat
  clockClass : Nat
  clockAccuracy : Nat
  variance : Nat
  priority2 : Nat
  gmId : Nat
  stepsRemoved : Nat
  utcOffset : Nat
  /-- Delay_Resp: the requesting port identity -/
  reqClock : Nat
  reqPort : Nat
  deriving DecidableEq, Repr

/-- A received valley HELLO (R310): UID, VALLEY_ID, valley protocol version, address, mode. -/
structure HelloMsg where
  uid : Nat
  valleyId : Nat
  major : Nat
  minor : Nat
  address : Nat
  mode : Nat
  deriving DecidableEq, Repr

/-- The commands of the block, one constructor for each row of the opcode table, in its order. -/
inductive Instr where
  /-- POWER_ON_RESET (R25). -/
  | powerOnReset (t : Time)
  /-- WARM_RESET (R25). -/
  | warmReset (t : Time)
  /-- SOFTWARE_RESET (R25). -/
  | softwareReset (t : Time) (value : Word)
  /-- WATCHDOG_EXPIRY (R25). -/
  | watchdogExpiry (t : Time) (core : Nat)
  /-- PCIE_FUNDAMENTAL_RESET (R27). -/
  | pcieFundamentalReset (t : Time)
  /-- JTAG_RESET (R25). -/
  | jtagReset (t : Time)
  /-- RESET_END (R26). -/
  | resetEnd (t : Time) (boot : Nat) (testEn : Bool)
  /-- DAYBREAK_END (R32). -/
  | daybreakEnd (t : Time) (report : Daybreak)
  /-- AUTHENTICATION_DONE (R363). -/
  | authenticationDone (t : Time)
  /-- CONFIGURE_END (R35). -/
  | configureEnd (t : Time) (claimWon : Bool)
  /-- FIRST_LIGHT (R32). -/
  | firstLight (t : Time)
  /-- CONFIGURE_BEGIN (R55). -/
  | configureBegin (t : Time)
  /-- VLOW_STOP (R397). -/
  | vlowStop (t : Time) (mv : Nat)
  /-- VLOW_STOP_CLEAR (R397). -/
  | vlowStopClear (t : Time) (mv : Nat)
  /-- VLOW_HOLD (R40). -/
  | vlowHold (t : Time) (mv : Nat)
  /-- VLOW_HOLD_CLEAR (R41). -/
  | vlowHoldClear (t : Time) (mv : Nat)
  /-- LIVENESS_TIMEOUT (R337). -/
  | livenessTimeout (t : Time)
  /-- CMD_DOORBELL (R53). -/
  | cmdDoorbell (t : Time) (value : Word)
  /-- CMP_HEAD_WRITE (R54). -/
  | cmpHeadWrite (t : Time) (value : Word)
  /-- MGT_COMMAND_DATAGRAM (R58). -/
  | mgtCommandDatagram (t : Time) (ip : Nat) (port : Nat) (bytes : List Byte)
  /-- COMPLETION_VECTOR_PACING (R56). -/
  | completionVectorPacing (t : Time)
  /-- NOP (R59). -/
  | nop (t : Time) (h : CmdHdr)
  /-- QUERY (R59). -/
  | query (t : Time) (h : CmdHdr) (handle : Word)
  /-- REG_READ (R63). -/
  | regRead (t : Time) (h : CmdHdr) (off : Nat) (count : Nat)
  /-- REG_WRITE (R63). -/
  | regWrite (t : Time) (h : CmdHdr) (off : Nat) (value : Word) (mask : Word)
  /-- SET_MODE (R38). -/
  | setMode (t : Time) (h : CmdHdr) (target : Nat)
  /-- LEDGER_READ (R59). -/
  | ledgerRead (t : Time) (h : CmdHdr) (line : Nat)
  /-- GOVERNOR_SET (R59). -/
  | governorSet (t : Time) (h : CmdHdr) (target : Nat)
  /-- CREATE (R61). -/
  | create (t : Time) (h : CmdHdr) (args : CreateArgs)
  /-- DESTROY (R50). -/
  | destroy (t : Time) (h : CmdHdr) (handle : Word)
  /-- MODIFY (R62). -/
  | modify (t : Time) (h : CmdHdr) (handle : Word) (off : Nat) (len : Nat)
  /-- START (R79). -/
  | start (t : Time) (h : CmdHdr) (handle : Word) (secs : Nat) (nanos : Nat) (now : Bool)
  /-- STOP (R49). -/
  | stop (t : Time) (h : CmdHdr) (handle : Word)
  /-- SET_PRIORITY (R62). -/
  | setPriority (t : Time) (h : CmdHdr) (handle : Word) (prio : Nat)
  /-- ADMIT_CHECK (R69). -/
  | admitCheck (t : Time) (h : CmdHdr) (args : CreateArgs)
  /-- LAYER_COMMIT (R146). -/
  | layerCommit (t : Time) (h : CmdHdr) (handle : Word) (args : List Byte)
  /-- RETIME (R149). -/
  | retime (t : Time) (h : CmdHdr) (handle : Word) (args : List Byte)
  /-- ACTION_ARM (R283). -/
  | actionArm (t : Time) (h : CmdHdr) (handle : Word) (args : List Byte)
  /-- ACTION_CANCEL (R283). -/
  | actionCancel (t : Time) (h : CmdHdr) (handle : Word)
  /-- DOMAIN_SWITCH (R263). -/
  | domainSwitch (t : Time) (h : CmdHdr) (handle : Word) (args : List Byte)
  /-- RING_FLUSH (R121). -/
  | ringFlush (t : Time) (h : CmdHdr) (handle : Word)
  /-- RING_MARK (R120). -/
  | ringMark (t : Time) (h : CmdHdr) (handle : Word)
  /-- RING_REWIND (R120). -/
  | ringRewind (t : Time) (h : CmdHdr) (handle : Word)
  /-- RING_RELEASE (R120). -/
  | ringRelease (t : Time) (h : CmdHdr) (handle : Word) (count : Nat) (allRead : Bool)
  /-- PXP_DIAG_STATUS (R233). -/
  | pxpDiagStatus (t : Time) (h : CmdHdr) (port : Nat)
  /-- PXP_DIAG_SHORT_TEST (R233). -/
  | pxpDiagShortTest (t : Time) (h : CmdHdr) (port : Nat) (shorts : List Nat)
  /-- PXP_DIAG_CLEAR (R233). -/
  | pxpDiagClear (t : Time) (h : CmdHdr) (port : Nat)
  /-- PXP_DIAG_PROBE_NOW (R233). -/
  | pxpDiagProbeNow (t : Time) (h : CmdHdr) (port : Nat)
  /-- MIGRATE_SWITCH (R324). -/
  | migrateSwitch (t : Time) (h : CmdHdr) (handle : Word) (frame : Nat)
  /-- MIGRATE_ABORT (R324). -/
  | migrateAbort (t : Time) (h : CmdHdr) (handle : Word)
  /-- HANDOVER_START (R351). -/
  | handoverStart (t : Time) (h : CmdHdr) (args : List Byte)
  /-- HANDOVER_CANCEL (R351). -/
  | handoverCancel (t : Time) (h : CmdHdr)
  /-- NOR_READ (R381). -/
  | norRead (t : Time) (h : CmdHdr) (off : Nat) (len : Nat) (arg : Nat)
  /-- NOR_ERASE (R381). -/
  | norErase (t : Time) (h : CmdHdr) (off : Nat) (sectors : Nat)
  /-- NOR_PROGRAM (R381). -/
  | norProgram (t : Time) (h : CmdHdr) (off : Nat) (len : Nat) (arg : Nat)
  /-- UPDATE_OPEN (R374). -/
  | updateOpen (t : Time) (h : CmdHdr) (args : List Byte)
  /-- UPDATE_REFRESH (R375). -/
  | updateRefresh (t : Time) (h : CmdHdr)
  /-- UPDATE_WRITE (R375). -/
  | updateWrite (t : Time) (h : CmdHdr) (args : List Byte)
  /-- UPDATE_VERIFY (R375). -/
  | updateVerify (t : Time) (h : CmdHdr)
  /-- UPDATE_ACTIVATE (R375). -/
  | updateActivate (t : Time) (h : CmdHdr)
  /-- UPDATE_CONFIRM (R378). -/
  | updateConfirm (t : Time) (h : CmdHdr)
  /-- UPDATE_CLOSE (R375). -/
  | updateClose (t : Time) (h : CmdHdr)
  /-- CHK_RUN (R393). -/
  | chkRun (t : Time) (h : CmdHdr) (handle : Word) (args : List Byte)
  /-- RECALIBRATE (R389). -/
  | recalibrate (t : Time) (h : CmdHdr) (item : Nat) (inst : Nat) (readings : List (Nat × Nat × Nat × Nat))
  /-- BIST_SPM (R390). -/
  | bistSpm (t : Time) (h : CmdHdr) (defects : List Nat)
  /-- BIST_PLAIN (R390). -/
  | bistPlain (t : Time) (h : CmdHdr) (failing : List Nat)
  /-- BIST_PINS (R390). -/
  | bistPins (t : Time) (h : CmdHdr) (shorts : List (Nat × Nat))
  /-- REGISTER_WRITE (R8). -/
  | registerWrite (t : Time) (off : Nat) (value : Word)
  /-- GOVERNOR_READING (R72). -/
  | governorReading (t : Time) (monitors : List Nat)
  /-- AVSBUS_TRANSACTION_DONE (R73). -/
  | avsbusTransactionDone (t : Time) (acked : Bool) (readMv : Nat)
  /-- MR4_READ (R84). -/
  | mr4Read (t : Time) (codeA : Nat) (codeB : Nat)
  /-- DQS_OSCILLATOR_READ (R84). -/
  | dqsOscillatorRead (t : Time) (readings : List Nat)
  /-- SCRUB_OVERDUE (R93). -/
  | scrubOverdue (t : Time)
  /-- HANDLE_RELEASE (R50). -/
  | handleRelease (t : Time) (handle : Word)
  /-- BAR2_WRITE (R97). -/
  | bar2Write (t : Time) (off : Nat) (bytes : List Byte)
  /-- BAR2_READ (R96). -/
  | bar2Read (t : Time) (off : Nat) (len : Nat) (bad : List Nat)
  /-- XLAT_ADDR_WRITE (R86). -/
  | xlatAddrWrite (t : Time) (value : Word)
  /-- INBOX_PUSH (R113). -/
  | inboxPush (t : Time) (task : Nat) (item : Nat)
  /-- PUSH_WAIT_GRANTED (R113). -/
  | pushWaitGranted (t : Time) (task : Nat)
  /-- TASK_DISPATCH (R110). -/
  | taskDispatch (t : Time) (engine : Nat) (lost : Bool) (tables : List Nat)
  /-- TASK_COMPLETE (R111). -/
  | taskComplete (t : Time) (task : Nat)
  /-- PUSH_RING_WRITE (R116). -/
  | pushRingWrite (t : Time) (value : Word)
  /-- PUSH_DATA_HI_WRITE (R116). -/
  | pushDataHiWrite (t : Time) (value : Word)
  /-- PUSH_COMMIT (R116). -/
  | pushCommit (t : Time) (value : Word)
  /-- POP_LO_READ (R118). -/
  | popLoRead (t : Time) (bad : Bool)
  /-- DROP_REST (R119). -/
  | dropRest (t : Time) (value : Word)
  /-- RING_VECTOR_PACING (R125). -/
  | ringVectorPacing (t : Time) (ring : Nat)
  /-- ST2110_PACKET_RX (R130). -/
  | st2110PacketRx (t : Time) (pkt : VideoPkt)
  /-- STREAM_LOST (R134). -/
  | streamLost (t : Time) (n : Nat)
  /-- FRAME_TICK (R275). -/
  | frameTick (t : Time) (c : Nat)
  /-- BAND_WRITTEN (R145). -/
  | bandWritten (t : Time) (c : Nat) (bad : Bool)
  /-- PASS_COMPLETE (R138). -/
  | passComplete (t : Time) (c : Nat)
  /-- UNDERRUN (R151). -/
  | underrun (t : Time) (c : Nat)
  /-- SWITCH_DONE (R264). -/
  | switchDone (t : Time) (c : Nat)
  /-- E131_PACKET_RX (R161). -/
  | e131PacketRx (t : Time) (port : Nat) (pkt : E131Pkt)
  /-- SOURCE_LOST (R164). -/
  | sourceLost (t : Time) (input : Nat) (src : Nat)
  /-- INPUT_RELEASED (R164). -/
  | inputReleased (t : Time) (input : Nat)
  /-- SYNC_LAUNCH (R190). -/
  | syncLaunch (t : Time) (port : Nat)
  /-- TX_FRAME_START (R245). -/
  | txFrameStart (t : Time) (port : Nat)
  /-- TX_FRAME_END (R254). -/
  | txFrameEnd (t : Time) (port : Nat)
  /-- REMOTE_LATE (R192). -/
  | remoteLate (t : Time) (univ : Nat)
  /-- DISCOVERY_SEND (R195). -/
  | discoverySend (t : Time) (ident : Nat)
  /-- SITE_TICK (R199). -/
  | siteTick (t : Time) (univ : Nat)
  /-- DMX_BREAK (R201). -/
  | dmxBreak (t : Time) (line : Nat)
  /-- RDM_REQUEST_START (R202). -/
  | rdmRequestStart (t : Time) (line : Nat)
  /-- RDM_RESPONSE_RX (R202). -/
  | rdmResponseRx (t : Time) (line : Nat) (resp : RdmResp)
  /-- RDM_TIMEOUT (R202). -/
  | rdmTimeout (t : Time) (line : Nat)
  /-- DISCOVERY_INTERVAL (R203). -/
  | discoveryInterval (t : Time) (line : Nat)
  /-- DISC_GO (R203). -/
  | discGo (t : Time) (line : Nat) (value : Word)
  /-- MAILBOX_GO (R204). -/
  | mailboxGo (t : Time) (line : Nat) (value : Word)
  /-- PXP_FRAME_START (R215). -/
  | pxpFrameStart (t : Time) (port : Nat) (diag : List Nat)
  /-- PXP_FILL_DONE (R214). -/
  | pxpFillDone (t : Time) (port : Nat)
  /-- REFRESH_START (R215). -/
  | refreshStart (t : Time) (port : Nat) (diag : List Nat)
  /-- DIAG_MIN_ON_WRITE (R232). -/
  | diagMinOnWrite (t : Time) (port : Nat) (value : Word)
  /-- PIN_READBACK (R230). -/
  | pinReadback (t : Time) (port : Nat) (mismatch : List Nat)
  /-- LINK_UP (R243). -/
  | linkUp (t : Time) (port : Nat)
  /-- LINK_DOWN (R243). -/
  | linkDown (t : Time) (port : Nat)
  /-- LINK_MISMATCH (R243). -/
  | linkMismatch (t : Time) (port : Nat)
  /-- AN_RESTART (R243). -/
  | anRestart (t : Time) (port : Nat) (value : Word)
  /-- VERIFY_RESTART (R247). -/
  | verifyRestart (t : Time) (port : Nat) (value : Word)
  /-- PAUSE_EN_WRITE (R248). -/
  | pauseEnWrite (t : Time) (port : Nat) (value : Word)
  /-- VERIFY_TIMEOUT (R247). -/
  | verifyTimeout (t : Time) (port : Nat)
  /-- MPACKET_RX (R247). -/
  | mpacketRx (t : Time) (port : Nat) (respond : Bool)
  /-- RX_FRAME (R249). -/
  | rxFrame (t : Time) (port : Nat) (frame : EthFrame)
  /-- PAUSE_END (R248). -/
  | pauseEnd (t : Time) (port : Nat)
  /-- ARP_REQUEST_RETRY (R244). -/
  | arpRequestRetry (t : Time) (port : Nat) (ip : Nat)
  /-- ARP_ENTRY_REFRESH (R244). -/
  | arpEntryRefresh (t : Time) (port : Nat) (ip : Nat)
  /-- ARP_ENTRY_EXPIRY (R244). -/
  | arpEntryExpiry (t : Time) (port : Nat) (ip : Nat)
  /-- IGMP_REPORT_SEND (R253). -/
  | igmpReportSend (t : Time) (port : Nat) (group : Nat)
  /-- SNAP_GO (R254). -/
  | snapGo (t : Time) (port : Nat) (value : Word)
  /-- SNAP_ALL (R254). -/
  | snapAll (t : Time) (value : Word)
  /-- CNT_LO_READ (R254). -/
  | cntLoRead (t : Time) (port : Nat) (ctr : Nat)
  /-- REF_LOST (R259). -/
  | refLost (t : Time)
  /-- SREF0_RETURN (R259). -/
  | sref0Return (t : Time)
  /-- TIM_LATCH (R258). -/
  | timLatch (t : Time) (value : Word)
  /-- PTP_MESSAGE_RX (R270). -/
  | ptpMessageRx (t : Time) (msg : PtpMsg)
  /-- PTP_SYNC_SEND (R270). -/
  | ptpSyncSend (t : Time) (port : Nat) (dom : Nat)
  /-- PTP_ANNOUNCE_SEND (R270). -/
  | ptpAnnounceSend (t : Time) (port : Nat) (dom : Nat)
  /-- PTP_DELAY_REQ_SEND (R269). -/
  | ptpDelayReqSend (t : Time) (port : Nat) (dom : Nat)
  /-- HOLDOVER_ENTER (R271). -/
  | holdoverEnter (t : Time) (dom : Nat)
  /-- TICK_REF_EDGE (R276). -/
  | tickRefEdge (t : Time) (dom : Nat)
  /-- TICK_LOST (R276). -/
  | tickLost (t : Time) (dom : Nat)
  /-- PPS_OUT_PULSE (R279). -/
  | ppsOutPulse (t : Time)
  /-- LTC_FRAME (R281). -/
  | ltcFrame (t : Time) (j : Nat) (frame : Option Nat)
  /-- LTC_LOST (R281). -/
  | ltcLost (t : Time) (j : Nat)
  /-- ACTION_FIRED (R284). -/
  | actionFired (t : Time) (act : Nat)
  /-- PULSE_END (R284). -/
  | pulseEnd (t : Time) (act : Nat)
  /-- CAPTURE (R287). -/
  | capture (t : Time) (input : Nat) (falling : Bool)
  /-- CAP_NS_READ (R287). -/
  | capNsRead (t : Time) (input : Nat)
  /-- ADC_RESULT (R289). -/
  | adcResult (t : Time) (volts : List Nat)
  /-- TELEMETRY_DATAGRAM_RX (R296). -/
  | telemetryDatagramRx (t : Time) (port : Nat) (ip : Nat) (bytes : List Byte)
  /-- ZONE_CYCLE (R298). -/
  | zoneCycle (t : Time) (z : Nat)
  /-- HOLD_EXPIRY (R298). -/
  | holdExpiry (t : Time) (z : Nat)
  /-- ZONE_VACANT (R299). -/
  | zoneVacant (t : Time) (z : Nat)
  /-- VALLEY_SIGNAL_DETECT (R310). -/
  | valleySignalDetect (t : Time) (l : Nat)
  /-- VALLEY_LINK_LOCK (R310). -/
  | valleyLinkLock (t : Time) (l : Nat)
  /-- VALLEY_HELLO_RX (R310). -/
  | valleyHelloRx (t : Time) (l : Nat) (hello : HelloMsg)
  /-- LINK_CONTROL_SEND (R310). -/
  | linkControlSend (t : Time) (l : Nat)
  /-- VALLEY_LINK_DOWN (R310). -/
  | valleyLinkDown (t : Time) (l : Nat)
  /-- VALLEY_PACKET_RX (R311). -/
  | valleyPacketRx (t : Time) (l : Nat) (pkt : Machine.VPkt)
  /-- MEMBERSHIP_UPDATE_SEND (R313). -/
  | membershipUpdateSend (t : Time)
  /-- MEMBER_LEAVE (R313). -/
  | memberLeave (t : Time) (uid : Nat)
  /-- REROUTE (R317). -/
  | reroute (t : Time)
  /-- ADMIT_TIMEOUT (R318). -/
  | admitTimeout (t : Time)
  /-- TIME_PACKET_SEND (R320). -/
  | timePacketSend (t : Time) (dom : Nat)
  /-- LINK_DELAY_EXCHANGE (R320). -/
  | linkDelayExchange (t : Time) (l : Nat) (t1 : Nat) (t2 : Nat) (t3 : Nat) (t4 : Nat)
  /-- RELAY_REQUEST_SEND (R322). -/
  | relayRequestSend (t : Time)
  /-- RELAY_STALL (R322). -/
  | relayStall (t : Time) (l : Nat)
  /-- HEARTBEAT_SEND (R335). -/
  | heartbeatSend (t : Time)
  /-- HEARTBEAT_RX (R336). -/
  | heartbeatRx (t : Time) (path : Nat) (word : Nat)
  /-- HEARTBEAT_MISS (R336). -/
  | heartbeatMiss (t : Time) (path : Nat)
  /-- PATH_DEGRADED (R336). -/
  | pathDegraded (t : Time) (path : Nat)
  /-- ILK_BREATH (R338). -/
  | ilkBreath (t : Time) (low : Bool)
  /-- ILK_LINE_CLASS (R339). -/
  | ilkLineClass (t : Time) (cls : Nat)
  /-- CLAIM_EVALUATION (R342). -/
  | claimEvaluation (t : Time)
  /-- CLAIM_RELEASE (R340). -/
  | claimRelease (t : Time)
  /-- CLAIM_SAMPLE (R340). -/
  | claimSample (t : Time) (high : Bool)
  /-- WITNESS_PROBE_TIMEOUT (R343). -/
  | witnessProbeTimeout (t : Time)
  /-- WITNESS_ANSWER_TIMEOUT (R343). -/
  | witnessAnswerTimeout (t : Time)
  /-- CHECKPOINT_TRAILER_RX (R347). -/
  | checkpointTrailerRx (t : Time) (bytes : List Byte)
  /-- CHECKPOINT_ACK_TIMEOUT (R347). -/
  | checkpointAckTimeout (t : Time)
  /-- HANDOVER_RELEASE (R352). -/
  | handoverRelease (t : Time)
  /-- HEALTH_REPORT (R353). -/
  | healthReport (t : Time) (fxpFail : Nat) (defects : Nat)
  /-- FW_CTRL_GO (R365). -/
  | fwCtrlGo (t : Time) (value : Word)
  /-- LOADER_DATAGRAM_RX (R366). -/
  | loaderDatagramRx (t : Time) (ip : Nat) (port : Nat) (bytes : List Byte)
  /-- LOADER_HELLO (R366). -/
  | loaderHello (t : Time)
  /-- LOADER_ACK (R366). -/
  | loaderAck (t : Time)
  /-- LOADER_SESSION_TIMEOUT (R366). -/
  | loaderSessionTimeout (t : Time)
  /-- REVOKE_WRITE (R364). -/
  | revokeWrite (t : Time) (value : Word)
  /-- JOURNAL_COPY_SECTOR (R377). -/
  | journalCopySector (t : Time) (readbackOk : Bool)
  /-- CONVERTED (R379). -/
  | converted (t : Time) (image : List Byte)
  /-- SESSION_EXPIRED (R374). -/
  | sessionExpired (t : Time)
  /-- NOR_TIMEOUT (R359). -/
  | norTimeout (t : Time)
  /-- PERSISTENT_LOG_WRITE (R382). -/
  | persistentLogWrite (t : Time)
  /-- CHK_SCAN_DONE (R393). -/
  | chkScanDone (t : Time) (n : Nat) (bad : Option Nat)
  /-- CHK_ABORT (R396). -/
  | chkAbort (t : Time) (n : Nat) (value : Word)
  /-- RAIL_READ (R399). -/
  | railRead (t : Time) (mvs : List Nat)
  /-- TEMP_READING (R400). -/
  | tempReading (t : Time) (x : Int)
  /-- EXTEST (R422). -/
  | extest (t : Time) (cells : List Bool)
  /-- IDCODE (R422). -/
  | idcode (t : Time)
  /-- SAMPLE_PRELOAD (R422). -/
  | samplePreload (t : Time) (cells : List Bool)
  /-- HIGHZ (R422). -/
  | highz (t : Time)
  /-- CLAMP (R422). -/
  | clamp (t : Time)
  /-- FUSE_READ (R422). -/
  | fuseRead (t : Time)
  /-- BYPASS (R422). -/
  | bypass (t : Time)
  /-- PCIE_RESET_END (R27). -/
  | pcieResetEnd (t : Time)
  /-- NOR_OPERATION_DONE (R359). -/
  | norOperationDone (t : Time)
  /-- CHECKPOINT_TICK (R345). -/
  | checkpointTick (t : Time)
  /-- VALLEY_TIME_HOLDOVER (R320). -/
  | valleyTimeHoldover (t : Time) (dom : Nat)
  /-- SCRUB_PASS_END (R93). -/
  | scrubPassEnd (t : Time)
  /-- PARTNER_ADVERTISEMENT_CHANGE (R243). -/
  | partnerAdvertisementChange (t : Time) (port : Nat) (word : Nat)
  /-- ZONE_HOLD_RESET (R299). -/
  | zoneHoldReset (t : Time) (z : Nat)
  deriving DecidableEq, Repr

end Sys2Proof
end

