-- ==== Sys2Proof/Decode.lean ====
section
/-! DEFINITION. The block's commands have no encoding of their own: no row of the opcode table gives bits, so no word spells a
command. (The 64-byte entries of R56 are data that the device fetches; Machine/Run.lean reads them.) -/

namespace Sys2Proof

/-- The command that a word spells by the table's bits: none, as no row gives bits. -/
def decodeTableWord (_nbits _w : Nat) : Option Instr := none

end Sys2Proof
end

