-- ==== Sys2Proof/Config.lean ====
section
/-! DEFINITION. What the spec leaves open: constants without a body (free values), each applied to the operands it depends on or
to the model's own counter of draws, so that no proof can use a particular value (log 8). -/

namespace Sys2Proof

/-- A fresh byte the spec calls undefined: draw number `n`. -/
opaque Config.freeByte : Nat → Byte

/-- A fresh 32-bit value the spec leaves open: draw number `n`. -/
opaque Config.freeWord : Nat → Word

/-- A fresh number the spec leaves open (a delay, a reading): draw number `n`. -/
opaque Config.freeNat : Nat → Nat

/-- Bits beyond 24 that the raster engine's arithmetic carries (R141: "at least 24 bits"). -/
opaque Config.rasterExtra : Nat

/-- The set, of 1,024, that the translation cache keeps a page in (R88 gives 4,096 entries, 4 ways, and no index). -/
opaque Config.xlatSet : Nat → Nat

/-- The key hash fused in a firmware key slot of this die (R384): 0 where the slot is empty. -/
opaque Config.keyHash : Nat → Nat

/-- The fuse baseline of a calibration instance, by item and instance, in the item's unit × 100 (R387). -/
opaque Config.calBaseline : Nat → Nat → Int

/-- The baseline trim code of a calibration instance (R387). -/
opaque Config.calBaseCode : Nat → Nat → Nat

/-- The trim code that corresponds to a mean reading, by item, instance and twice the mean (R387 gives no correspondence). -/
opaque Config.trimCode : Nat → Nat → Int → Nat

/-- The payload length of a valley message whose bytes the spec does not lay out, by packet type. -/
opaque Config.messageLen : Nat → Nat

/-- Progress of a best-effort scan that has run for a time (R395 gives no rate but an upper one). -/
opaque Config.scanPos : Nat → Nat

/-- The regulator's start-up value of VCORE, from which the governor's first request counts (R73). -/
opaque Config.startVcore : Nat

/-- Bytes that a class (0 show, 1 site, 2 best effort) moved in the last 1 ms before a raw instant, in MB/s (chapter 4): no command carries it (log 15). -/
opaque Config.bandwidth : Nat → Nat → Nat

/-- A bit sampled at a boundary cell, by the cell and draw number (R422). -/
opaque Config.sampleBit : Nat → Nat → Bool

end Sys2Proof
end

