-- ==== Sys2Proof/Machine/Blocks4.lean ====
section
/-! DEFINITION. What leaves the device, and the state of the valley fabric and of the redundant pair as plain data. -/

namespace Sys2Proof.Machine

/-- What leaves the device, as the model records it (log 7). -/
inductive Emit where
  /-- an MSI-X vector -/
  | msix (vector : Nat)
  /-- a UDP datagram leaving the management port: destination, source port, payload -/
  | mgt (ip port srcPort : Nat) (bytes : List Byte)
  /-- the answer to a BAR0 or BAR2 read -/
  | readData (bytes : List Byte)
  /-- a timing pin changes level: TRG_OUT0–3 are pins 0–3, PPS_OUT is pin 4 -/
  | pin (n : Nat) (high : Bool)
  /-- a frame leaves a network port -/
  | frame (port : Nat) (bytes : List Byte)
  /-- a verify (or respond) mPacket leaves a port -/
  | mpacket (port : Nat) (respond : Bool)
  /-- a DMX512 packet on a line: start code and slots -/
  | dmx (line : Nat) (slots : List Byte)
  /-- an RDM request on a line -/
  | rdm (line : Nat) (bytes : List Byte)
  /-- a VCORE write on AVSBus, mV -/
  | avs (mv : Nat)
  /-- a valley packet on a link -/
  | valley (link : Nat) (pkt : VPkt)
  /-- a HELLO on a link -/
  | hello (link : Nat)
  /-- a link control packet -/
  | linkControl (link : Nat)
  /-- a heartbeat on the wire path -/
  | heartbeat (word : Nat)
  /-- the interlock line is driven low, or released -/
  | ilk (low : Bool)
  /-- a pixel port's refresh: port, frame, refresh, values scanned, whether blanked -/
  | scan (port : Nat) (frame : Int) (refresh : Nat) (values : List Nat) (blanked : Bool)
  /-- bits shifted out on TDO, least significant first -/
  | tdo (bits : List Bool)
  /-- the boundary cells drive the pins; none: every covered pin floats -/
  | cells (bits : Option (List Bool))
  deriving DecidableEq, Repr

/-- A valley link (R310). State: 0 OFF, 1 DOWN, 2 TRAINING, 3 HELLO, 4 UP, 5 BLOCKED, 6 LOADING. -/
structure VLink where
  state : Nat := 1
  /-- the partner's last HELLO -/
  hello : Option HelloMsg := none
  since : Time := 0
  /-- instant of the last link control packet sent -/
  sentAt : Option Time := none
  /-- delay measurements, newest first, in 2^-16 ns × 2; instant of the last exchange -/
  delays : List Int := []
  delayAt : Option Time := none
  /-- relaying firmware to the partner -/
  serving : Bool := false
  /-- the image that the partner served failed authentication here (R322) -/
  failed : Bool := false
  deriving DecidableEq, Repr

/-- A member, the instant of its last update and that of its first one. -/
structure Member where
  info : MemberInfo
  heard : Time
  since : Time
  deriving DecidableEq, Repr

/-- A reservation held for another device (R318), by the asker's address × 65536 + its number: what is charged, the sending device, the
charge of the universe on a link, the hosted universe it sends here if this is the sending device, whether it is committed. -/
structure Reserve where
  charges : List (Nat × Nat)
  sender : Nat
  amount : Nat
  hosted : Option Nat
  committed : Bool
  deriving DecidableEq, Repr

/-- What a cross-valley admission of this device is for: a CREATE or ADMIT_CHECK (its opcode) of the universe that stands in its place with
the start time it asked for; a copy made here for a migration, whose answer goes to the device that asked for it; a universe of the
configuration image, with the number of its record; or a MODIFY of a universe, with its new record. -/
inductive Purpose where
  | create (h : CmdHdr) (op idx : Nat) (start : Option Nat)
  | copy (asker id idx : Nat)
  | image (idx record : Nat)
  | modify (h : CmdHdr) (idx : Nat) (record : List Byte)
  deriving DecidableEq, Repr

/-- A cross-valley admission in progress (R318): what it is for, what it asks, the devices asked and those that have not answered, when
it began. -/
structure Admission where
  purpose : Purpose
  ask : AdmitAsk
  asked : List Nat
  waits : List Nat
  began : Time
  deriving DecidableEq, Repr

/-- A universe computed elsewhere and sent from a port of this device (R198, R326): the computing device and its handle; the rate and
domain from which T_N follows here; its epoch; the switch of a migration: N_s, the new computing device and handle; the frame and
slots that have come; the frame sent last and its slots. -/
structure Hosted where
  asker : Nat
  handle : Word
  univ : Univ
  ident : Ident
  domain : Nat
  rateNum : Nat
  rateDen : Nat
  lead : Nat
  epoch : Nat := 0
  switch : Option (Int × Nat × Word) := none
  first : Option Int := none
  sent : Option Int := none
  deriving DecidableEq, Repr

/-- A migration (R323-R328). State: 0 the copy is being made, 1 PREPARED, 2 ARMED, 3 SWITCHED, 4 DONE, 5 ABORTED; the universe, its new
handle, N_s and epoch; the command that waits for the copy. -/
structure Mig where
  target : Nat
  movePort : Bool
  univ : Nat
  newDest : Nat
  state : Nat := 1
  epoch : Nat := 0
  ns : Int := 0
  handle : Word := 0
  waits : Option CmdHdr := none
  began : Time := 0
  deriving DecidableEq, Repr

/-- A copy made here for another device's migration, by universe: its fixtures, whether its identity was made for it, the switch. -/
structure Copy where
  asker : Nat
  id : Nat
  fixtures : List Nat
  ident : Option Nat
  ns : Option Int := none
  epoch : Nat := 0
  deriving DecidableEq, Repr

/-- VAL (chapter 13). -/
structure Val where
  links : Tbl VLink := []
  members : Tbl Member := []
  /-- UIDs kept out of a full valley -/
  barred : List Nat := []
  addr : Nat := 0
  pinned : Bool := false
  /-- the ADDRESS of the record -/
  want : Nat := 0
  recorded : Bool := false
  shut : Bool := false
  valleyId : Nat := 0
  mask : Nat := 15
  root : Nat := 0
  conflict : Bool := false
  full : Bool := false
  nextId : Nat := 1
  admissions : Tbl Admission := []
  reserves : Tbl Reserve := []
  hosted : Tbl Hosted := []
  migs : Tbl Mig := []
  copies : Tbl Copy := []
  /-- epoch of each local universe, where it is not 0 -/
  epochs : Tbl Nat := []
  /-- devices that hold reservations for a universe of this device, by its handle, and the admission's number -/
  uses : Tbl (List Nat × Nat) := []
  /-- passes in force: destination address, links of pass A and B, hops -/
  passes : Tbl (Option Nat × Option Nat × Nat) := []
  updated : Time := 0
  asked : Option Time := none
  /-- instants of the last time packets sent, by domain -/
  timeAt : Tbl Time := []
  /-- instants of the last packets received, by the address that sent them -/
  heardFrom : Tbl Time := []
  deriving DecidableEq, Repr

/-- One heartbeat path (R336). -/
structure Path where
  up : Bool := false
  seq : Option Nat := none
  /-- instant of the last valid heartbeat, of the last counted miss period, consecutive valid ones -/
  at_ : Time := 0
  missAt : Time := 0
  run : Nat := 0
  deriving DecidableEq, Repr

/-- A checkpoint being sent (R345-R347): its number, frame and tick; the pages it carries, as (key × 65536 + page); the trailer's
instant once sent. -/
structure CkptOut where
  num : Nat
  frame : Int
  tick : Time
  pages : List Nat
  trailer : Option Time
  deriving DecidableEq, Repr

/-- A checkpoint being received, or applied: number, frame, 4 KiB chunks in the order received, the system region. -/
structure CkptIn where
  num : Nat
  frame : Int
  chunks : List (Nat × Nat × Nat × List Byte)
  snap : Option Snapshot
  deriving DecidableEq, Repr

/-- A handover in progress (R351, R352): frame N_h, its step, the command that waits for the partner's answer;
is this unit the one handing over? -/
structure Handover where
  nh : Int
  step : Nat
  asked : Option CmdHdr
  giving : Bool
  deriving DecidableEq, Repr

/-- A claim pulse (R340): 1 driving, 2 released and waiting for its sample; the instant of the step; UNWITNESSED. -/
structure Claim where
  step : Nat
  at_ : Time
  unwitnessed : Bool
  deriving DecidableEq, Repr

/-- RED (chapter 14). -/
structure Red where
  paired : Bool := false
  role : Nat := 0
  partner : Nat := 0
  k : Nat := 4
  witness : Nat := 0
  valley : Path := {}
  wire : Path := {}
  word : Nat := 0
  partnerHealth : Nat := 0
  seq : Nat := 0
  /-- instant of the last heartbeat sent -/
  sentAt : Option Time := none
  /-- R337: heartbeats and interlock stopped until the watchdog resets the device -/
  silent : Bool := false
  ilk : Bool := false
  line : Nat := 1
  claim : Option Claim := none
  /-- posted once per entry: TAKEOVER_BLOCKED, ILK_STUCK, ILK_SEVERED, PARTNER_UNREACHABLE -/
  saidBlocked : Bool := false
  saidStuck : Bool := false
  saidSevered : Bool := false
  saidUnreachable : Bool := false
  /-- the witness asked, since when, and its answer; the witness service: askers waiting for the partner's reply -/
  asked : Option Time := none
  answer : Option Nat := none
  probes : List (Nat × Nat × Time) := []
  breathAt : Option Time := none
  ckptNum : Nat := 0
  ackNum : Nat := 0
  ackFrame : Int := 0
  full : Bool := true
  /-- the valley link that carries the checkpoint charge (R66, R75) -/
  link : Option Nat := none
  out : Option CkptOut := none
  stretchedAt : Option Time := none
  lastMs : Nat := 0
  stage : Option CkptIn := none
  applied : Option CkptIn := none
  offered : Bool := false
  cpBad : Bool := false
  capShort : Bool := false
  refused : Bool := false
  spmDefect : Bool := false
  health : Nat := 0
  healthAt : Time := 0
  handover : Option Handover := none
  deriving DecidableEq, Repr

end Sys2Proof.Machine
end

