-- ==== Sys2Proof/Machine/Crc.lean ====
section
/-! DEFINITION. The check-value algorithms (R392-R394). -/

namespace Sys2Proof.Machine

/-- The parameters of a CRC; init and final XOR are all ones or zero. -/
structure CrcAlg where
  width : Nat
  poly : Nat
  init : Nat
  refl : Bool
  xorOut : Nat
  deriving DecidableEq, Repr

/-- The low `n` bits of a number in reverse order. -/
def bitsRev : Nat → Nat → Nat
  | 0, _ => 0
  | n + 1, v => v % 2 * 2 ^ n + bitsRev n (v / 2)

/-- One bit of division. -/
def CrcAlg.shift (a : CrcAlg) (r : Nat) : Nat :=
  if 2 ^ (a.width - 1) ≤ r then (r * 2 % 2 ^ a.width) ^^^ a.poly else r * 2

/-- One byte. -/
def CrcAlg.byte (a : CrcAlg) (r : Nat) (b : Byte) : Nat :=
  let x := if a.refl then bitsRev 8 b.toNat else b.toNat
  let r := r ^^^ (x * 2 ^ (a.width - 8))
  a.shift (a.shift (a.shift (a.shift (a.shift (a.shift (a.shift (a.shift r)))))))

/-- A register in finished form: output reflection, then final XOR. -/
def CrcAlg.finish (a : CrcAlg) (r : Nat) : Nat := (if a.refl then bitsRev a.width r else r) ^^^ a.xorOut

/-- The register that a finished result stands for (R394). -/
def CrcAlg.resume (a : CrcAlg) (v : Nat) : Nat :=
  let r := (v % 2 ^ a.width) ^^^ a.xorOut
  if a.refl then bitsRev a.width r else r

/-- A CRC over bytes, from a seed or from Init. -/
def CrcAlg.run (a : CrcAlg) (seed : Option Nat) (bs : List Byte) : Nat :=
  a.finish (bs.foldl a.byte (match seed with | some v => a.resume v | none => a.init))

/-- CRC-32 (IEEE 802.3). -/
def crc32 : CrcAlg := ⟨32, 0x04C11DB7, 0xFFFFFFFF, true, 0xFFFFFFFF⟩

/-- CRC-32C. -/
def crc32cAlg : CrcAlg := ⟨32, 0x1EDC6F41, 0xFFFFFFFF, true, 0xFFFFFFFF⟩

/-- CRC-64/XZ. -/
def crc64 : CrcAlg := ⟨64, 0x42F0E1EBA9EA3693, 0xFFFFFFFFFFFFFFFF, true, 0xFFFFFFFFFFFFFFFF⟩

/-- CRC-16/CCITT-FALSE. -/
def crc16 : CrcAlg := ⟨16, 0x1021, 0xFFFF, false, 0⟩

/-- CRC-32C over bytes. -/
def crc32c (bs : List Byte) : Nat := crc32cAlg.run none bs

/-- The RDM additive sum. -/
def rdmSum (seed : Option Nat) (bs : List Byte) : Nat :=
  bs.foldl (fun a b => (a + b.toNat) % 65536) ((seed.getD 0) % 65536)

/-- The result of algorithm `code` (R392) over bytes, from a seed with CHAIN set. -/
def checkValue (code : Nat) (seed : Option Nat) (bs : List Byte) : Nat :=
  match code with
  | 0 => crc32.run seed bs
  | 1 => crc32cAlg.run seed bs
  | 2 => crc64.run seed bs
  | 3 => crc16.run seed bs
  | _ => rdmSum seed bs

end Sys2Proof.Machine
end

