-- ==== Sys2Proof/Machine/Blocks5.lean ====
section
/-! DEFINITION. The state of the command interface's waiting commands, of firmware intake, the update manager, the check units, the
calibration and identity fuses, and the test access port, as plain data. -/

namespace Sys2Proof.Machine

/-- An MGT datagram in service (R58): sender, sequence number, entries not yet started with their positions, positions started and
not answered, completions in completion order, and the count it carried. -/
structure MgtReq where
  ip : Nat
  port : Nat
  seq : Nat
  total : Nat
  todo : List (Nat × List Byte)
  open_ : List Nat
  done : List (List Byte)
  deriving DecidableEq, Repr

/-- Commands in service: those started and not completed, with their handles, and the MGT datagrams being answered. -/
structure Cmd where
  outst : List (CmdHdr × Word) := []
  mgt : List MgtReq := []
  deriving DecidableEq, Repr

/-- The boot header in force (R361). -/
structure BootHdr where
  rate : Nat
  sigRequired : Bool
  norMhz : Nat
  norMib : Nat
  progUs : Nat
  eraseMs : Nat
  key0 : List Byte
  key1 : List Byte
  deriving DecidableEq, Repr

/-- A loader session (R366): the offerer, its number, IMAGE_LEN, the next offset, the instants of the last DATA and ACK, the offset
last acknowledged, the bytes received (log 22). -/
structure Loader where
  ip : Nat
  port : Nat
  id : Nat
  len : Nat
  next : Nat
  dataAt : Time
  ackAt : Time
  acked : Nat
  data : List Byte
  deriving DecidableEq, Repr

/-- BOOT (chapter 15): the header; the complete images that wait for authentication in the order of their last bytes, the first in
progress (source 0 PCIe, 1 MGT, 2 valley; length); the loader; the valley source being taken (link, length), its bytes, the instant
of its last data; the links whose image failed, asked last (R322). -/
structure Boot where
  hdr : Option BootHdr := none
  auth : List (Nat × Nat) := []
  loader : Option Loader := none
  sessions : Nat := 0
  helloAt : Option Time := none
  taking : Option (Nat × Nat) := none
  taken : List Byte := []
  takeAt : Time := 0
  askedAt : Option Time := none
  deriving DecidableEq, Repr

/-- A journal record (R372). -/
structure Journal where
  seq : Nat := 0
  state : Nat := 1
  active : Nat := 0
  prevValid : Bool := false
  fellBack : Bool := false
  conversion : Bool := false
  starts : Nat := 0
  copied : Nat := 0
  aSerial : Nat := 0
  aIcrc : Nat := 0
  aCf : Nat := 0
  pCf : Nat := 0
  pSerial : Nat := 0
  pIcrc : Nat := 0
  sLen : Nat := 0
  sIcrc : Nat := 0
  sSerial : Nat := 0
  deriving DecidableEq, Repr

/-- One operation of the NOR: the erase of a sector, or the program of a page. -/
inductive NorStep where
  | erase (sector : Nat)
  | program (addr : Nat) (bytes : List Byte)
  deriving DecidableEq, Repr

/-- What the end of a NOR job brings: nothing more; a journal record in force with items to post (code, value); the next staging
offset; a persistent-log record. -/
inductive NorThen where
  | nothing
  | journal (j : Journal) (posts : List (Nat × Nat))
  | wrote (next : Nat)
  | logged
  deriving DecidableEq, Repr

/-- A NOR job: the operations left, the instant the first of them began (none: not begun, or suspended), the command to complete
(its header, opcode, DATA). -/
structure NorJob where
  steps : List NorStep
  began : Option Time
  reply : Option (CmdHdr × Nat)
  data : List Byte
  done : NorThen
  deriving DecidableEq, Repr

/-- The update session (R374). -/
structure Session where
  src : CmdSrc
  id : Nat
  till : Time
  deriving DecidableEq, Repr

/-- UPD (chapter 15): the newest record; the session, and the holder whose lease expired; the image length, next offset and sectors
erased of the download; NOR jobs, the first in progress; whether the sector being copied has failed its read-back once; the bank
the configuration runs from; lifetime counters, the SEQ and page of the newest log record, the instant of the last one, and the instant
from which the seconds count on. -/
structure Upd where
  j : Option Journal := none
  session : Option Session := none
  former : Option CmdSrc := none
  sessions : Nat := 0
  len : Nat := 0
  next : Nat := 0
  erased : Nat := 0
  jobs : List NorJob := []
  again : Bool := false
  bank : Nat := 0
  life : List Nat := [0, 0, 0, 0, 0, 0, 0, 0, 0, 0]
  lifeSeq : Nat := 0
  lifePage : Option Nat := none
  lifeAt : Time := 0
  secsAt : Time := 0
  deriving DecidableEq, Repr

/-- A scan of a check channel (R393): its command, source, target key, start, length, seed, and when it began. -/
structure Scan where
  h : CmdHdr
  handle : Word
  source : Nat
  target : Option Nat
  start : Nat
  len : Nat
  seed : Option Nat
  began : Time
  deriving DecidableEq, Repr

/-- A check job with its channel (R391). -/
structure ChkJob where
  alg : Nat
  hostWrite : Bool
  pages : Nat
  scan : Option Scan := none
  deriving DecidableEq, Repr

/-- What a channel shows of its current or last scan: source, bytes, result. -/
structure ChkShow where
  source : Nat := 0
  pos : Nat := 0
  result : Nat := 0
  deriving DecidableEq, Repr

/-- CHK (chapter 16). -/
structure Chk where
  jobs : Tbl ChkJob := []
  shows : Tbl ChkShow := []
  deriving DecidableEq, Repr

/-- A calibration instance (R387): its readings, the trim code in force, SUSPECT, and why. -/
structure CalInst where
  r1 : Int
  r2 : Int
  applied : Nat
  suspect : Bool
  differ : Bool
  outside : Bool
  deriving DecidableEq, Repr

/-- CAL: the instances measured, by item × 32 + instance. -/
structure Cal where
  insts : Tbl CalInst := []
  deriving DecidableEq, Repr

/-- The ASCII code of a lot character (R384). -/
def lotChar (c : Nat) : Nat :=
  [48, 49, 50, 51, 52, 53, 54, 55, 56, 57, 65, 66, 67, 68, 69, 70, 71, 72, 74, 75, 76, 77, 78, 80, 82, 83, 84, 85, 86, 87, 88, 89].getD c 0

/-- The low `w` bits of a signed number. -/
def lowBits (w : Nat) (x : Int) : Nat := (x % (2 ^ w : Nat)).toNat

/-- The unique identifier (R385). -/
def uidOf (lot : List Nat) (wafer : Nat) (x y : Int) : Nat :=
  lot.foldl (fun a c => a * 32 + c % 32) 0 * 2 ^ 24 + wafer % 32 * 2 ^ 19 + lowBits 8 x * 2 ^ 11 + lowBits 8 y * 2 ^ 3

/-- `n` bytes of a number, least significant first. -/
def fuseBytes (n v : Nat) : List Byte := (List.range n).map fun i => BitVec.ofNat 8 (v / 256 ^ i)

/-- CRC-32C over every fuse field but REVOKE (R384): the fields in the order of the table, least significant byte first (log 4). -/
def fuseCrc (lot : List Nat) (wafer : Nat) (x y : Int) (step : Nat) (hashes : List Nat) : Nat :=
  crc32c (lot.map (fun c => BitVec.ofNat 8 (lotChar c)) ++ fuseBytes 1 wafer ++ fuseBytes 1 (lowBits 8 x) ++ fuseBytes 1 (lowBits 8 y) ++
    fuseBytes 1 step ++ fuseBytes 8 (uidOf lot wafer x y) ++ hashes.flatMap (fuseBytes 48))

/-- The identity fuses (R384). Their content is the die's own; the model names the die of R385's example, with the four key hashes
as free constants (log 4). Each REVOKE bit is held in two fuses (R386). -/
structure Fuses where
  lot : List Nat := [12, 23, 11, 0, 4, 19, 7, 26]
  wafer : Nat := 17
  dieX : Int := -5
  dieY : Int := 12
  step : Nat := 0xB0
  hashes : List Nat := [Config.keyHash 0, Config.keyHash 1, Config.keyHash 2, Config.keyHash 3]
  crc : Nat := fuseCrc lot wafer dieX dieY step hashes
  revokeA : Nat := 0
  revokeB : Nat := 0
  deriving DecidableEq, Repr

/-- The test access port (R422): the instruction, the boundary cells. -/
structure Jtag where
  ir : Nat := 1
  cells : List Bool := []
  deriving DecidableEq, Repr

end Sys2Proof.Machine
end

