-- ==== Sys2Proof/Machine/Regs.lean ====
section
/-! DEFINITION. The BAR0 register map (R10): every register the spec tables, with its reset value and the
access code of each of its bits, and a name for each field that the meanings use. The rows are the spec's register tables,
one row a register name; an indexed register is one row with its counts and strides. -/

namespace Sys2Proof.Machine

/-- One register name of the spec's tables: address `base + i * s1 + j * s2` for `i < n1`, `j < n2`; the reset value of
the whole register; the bits with access RW, RWL, W1C and WO (every other bit is RO or reserved). -/
structure RegRow where
  base : Nat
  n1 : Nat
  s1 : Nat
  n2 : Nat
  s2 : Nat
  rst : Nat
  rw : Nat
  rwl : Nat
  w1c : Nat
  wo : Nat
  deriving DecidableEq, Repr

/-- A field of a register: the register's BAR0 offset, the field's lowest bit and its width. -/
structure Fld where
  off : Nat
  lo : Nat
  len : Nat
  deriving DecidableEq, Repr

/-- The registers of the block at BAR0 offset 0x00000. -/
def regRows00 : List RegRow :=
  [
    ⟨0, 1, 0, 1, 0, 0, 0, 0, 0, 0⟩, -- SYS_MODE
    ⟨0x4, 1, 0, 1, 0, 0x600, 0, 0, 0, 0⟩, -- SYS_STATUS
    ⟨0x8, 1, 0, 1, 0, 0x1, 0, 0, 0x1f, 0⟩, -- SYS_RESET_CAUSE
    ⟨0xc, 1, 0, 1, 0, 0, 0, 0, 0, 0⟩, -- SYS_STRAPS
    ⟨0x10, 1, 0, 1, 0, 0, 0, 0, 0, 0xffff0001⟩, -- SYS_RESET
    ⟨0x14, 1, 0, 1, 0, 0, 0, 0, 0, 0⟩, -- SYS_T_LOAD
    ⟨0x18, 1, 0, 1, 0, 0, 0, 0, 0, 0⟩, -- SYS_T_CONFIGURE
    ⟨0x1c, 1, 0, 1, 0, 0, 0, 0, 0, 0⟩, -- SYS_T_ACTIVE
    ⟨0x20, 1, 0, 1, 0, 0, 0, 0, 0, 0⟩, -- SYS_T_LIGHT
    ⟨0x24, 1, 0, 1, 0, 0, 0x3ffff, 0, 0, 0⟩, -- SYS_WINDOW
    ⟨0x28, 1, 0, 1, 0, 0, 0, 0, 0, 0⟩, -- SYS_CONFIG_RESULT
    ⟨0x2c, 1, 0, 1, 0, 0, 0, 0, 0x7f, 0⟩, -- SYS_FAULT
    ⟨0x30, 1, 0, 1, 0, 0x7f, 0x7f, 0, 0, 0⟩, -- SYS_FAULT_MASK
    ⟨0x34, 1, 0, 1, 0, 0, 0, 0, 0, 0⟩, -- SYS_HOLD_ENTRIES
    ⟨0x38, 1, 0, 1, 0, 0, 0, 0, 0, 0⟩] -- SYS_HOLD_DROPS
/-- The registers of the block at BAR0 offset 0x10000. -/
def regRows01 : List RegRow :=
  [
    ⟨0x10000, 1, 0, 1, 0, 0, 0, 0, 0, 0⟩, -- ID_LOT0
    ⟨0x10004, 1, 0, 1, 0, 0, 0, 0, 0, 0⟩, -- ID_LOT1
    ⟨0x10008, 1, 0, 1, 0, 0, 0, 0, 0, 0⟩, -- ID_WAFER
    ⟨0x1000c, 1, 0, 1, 0, 0, 0, 0, 0, 0⟩, -- ID_STEP
    ⟨0x10010, 1, 0, 1, 0, 0, 0, 0, 0, 0⟩, -- ID_UID_HI
    ⟨0x10014, 1, 0, 1, 0, 0, 0, 0, 0, 0⟩, -- ID_UID_LO
    ⟨0x10018, 1, 0, 1, 0, 0, 0, 0, 0, 0⟩, -- ID_FUSE_CRC
    ⟨0x1001c, 1, 0, 1, 0, 0, 0, 0, 0, 0⟩, -- ID_FUSE_STATUS
    ⟨0x10040, 4, 0x40, 12, 0x4, 0, 0, 0, 0, 0⟩] -- ID_KEYHASH
/-- The registers of the block at BAR0 offset 0x20000. -/
def regRows02 : List RegRow :=
  [
    ⟨0x20000, 1, 0, 1, 0, 0, 0xffff, 0, 0, 0⟩, -- CAL_SEL
    ⟨0x20004, 1, 0, 1, 0, 0, 0, 0, 0, 0⟩, -- CAL_READ1
    ⟨0x20008, 1, 0, 1, 0, 0, 0, 0, 0, 0⟩, -- CAL_READ2
    ⟨0x2000c, 1, 0, 1, 0, 0, 0, 0, 0, 0⟩, -- CAL_BASELINE
    ⟨0x20010, 1, 0, 1, 0, 0, 0, 0, 0, 0⟩, -- CAL_TRIM
    ⟨0x20014, 1, 0, 1, 0, 0, 0, 0, 0, 0⟩, -- CAL_SUMMARY
    ⟨0x20018, 1, 0, 1, 0, 0, 0, 0, 0, 0⟩] -- CAL_HALT
/-- The registers of the block at BAR0 offset 0x30000. -/
def regRows03 : List RegRow :=
  [
    ⟨0x30000, 1, 0, 1, 0, 0, 0, 0, 0, 0⟩, -- SUP_STATUS
    ⟨0x30004, 1, 0, 1, 0, 0x320, 0, 0x3ff, 0, 0⟩, -- SUP_VMON_STOP
    ⟨0x30008, 1, 0, 1, 0, 0x2f8, 0, 0x3ff, 0, 0⟩, -- SUP_VMON_HOLD
    ⟨0x30010, 9, 0x4, 1, 0, 0xffff0000, 0, 0, 0, 0⟩, -- SUP_RAIL
    ⟨0x30040, 1, 0, 1, 0, 0x80000000, 0, 0, 0, 0⟩, -- SUP_TEMP
    ⟨0x30044, 1, 0, 1, 0, 0x6e, 0xff, 0, 0, 0⟩, -- SUP_TEMP_WARN
    ⟨0x30048, 1, 0, 1, 0, 0x2, 0, 0x3, 0, 0⟩, -- SUP_AVS_CFG
    ⟨0x30050, 1, 0, 1, 0, 0, 0, 0, 0, 0⟩, -- SUP_AVS_ERRORS
    ⟨0x30054, 1, 0, 1, 0, 0, 0, 0, 0, 0⟩, -- SUP_STOP_EVENTS
    ⟨0x30058, 1, 0, 1, 0, 0, 0, 0, 0, 0⟩] -- SUP_HOLD_EVENTS
/-- The registers of the block at BAR0 offset 0x40000. -/
def regRows04 : List RegRow :=
  [
    ⟨0x40000, 1, 0, 1, 0, 0x1900, 0, 0, 0, 0⟩, -- BOOT_HDR
    ⟨0x40004, 1, 0, 1, 0, 0, 0, 0, 0, 0⟩, -- BOOT_KEYS
    ⟨0x40008, 1, 0, 1, 0, 0, 0, 0, 0, 0xffff000f⟩, -- BOOT_REVOKE
    ⟨0x4000c, 1, 0, 1, 0, 0, 0, 0, 0, 0⟩, -- BOOT_FW_BASE
    ⟨0x40010, 1, 0, 1, 0, 0, 0x1ffffff, 0, 0, 0⟩, -- BOOT_FW_LEN
    ⟨0x40014, 1, 0, 1, 0, 0, 0, 0, 0, 0x1⟩, -- BOOT_FW_CTRL
    ⟨0x40018, 1, 0, 1, 0, 0x30000, 0, 0, 0, 0⟩, -- BOOT_FW_STATUS
    ⟨0x4001c, 1, 0, 1, 0, 0, 0, 0, 0, 0⟩, -- BOOT_LOADER
    ⟨0x40020, 1, 0, 1, 0, 0, 0, 0, 0, 0⟩, -- BOOT_AUTH_FAILS
    ⟨0x40024, 1, 0, 1, 0, 0, 0, 0, 0, 0⟩] -- BOOT_LOADER_DROPS
/-- The registers of the block at BAR0 offset 0x50000. -/
def regRows05 : List RegRow :=
  [
    ⟨0x50000, 1, 0, 1, 0, 0, 0, 0, 0, 0⟩, -- UPD_JOURNAL
    ⟨0x50004, 1, 0, 1, 0, 0, 0, 0, 0, 0⟩, -- UPD_JOURNAL_SEQ_LO
    ⟨0x50008, 1, 0, 1, 0, 0, 0, 0, 0, 0⟩, -- UPD_JOURNAL_SEQ_HI
    ⟨0x5000c, 1, 0, 1, 0, 0, 0, 0, 0, 0⟩, -- UPD_SESSION
    ⟨0x50010, 1, 0, 1, 0, 0, 0, 0, 0, 0⟩, -- UPD_HOLDER
    ⟨0x50014, 1, 0, 1, 0, 0, 0, 0, 0, 0⟩, -- UPD_HOLDER_PORT
    ⟨0x50018, 1, 0, 1, 0, 0, 0, 0, 0, 0⟩, -- UPD_STAGED
    ⟨0x5001c, 1, 0, 1, 0, 0, 0, 0, 0, 0⟩, -- UPD_ACTIVE_SERIAL_LO
    ⟨0x50020, 1, 0, 1, 0, 0, 0, 0, 0, 0⟩, -- UPD_ACTIVE_SERIAL_HI
    ⟨0x50024, 1, 0, 1, 0, 0, 0, 0, 0, 0⟩, -- UPD_PREV_SERIAL_LO
    ⟨0x50028, 1, 0, 1, 0, 0, 0, 0, 0, 0⟩, -- UPD_PREV_SERIAL_HI
    ⟨0x5002c, 1, 0, 1, 0, 0, 0, 0, 0, 0⟩, -- UPD_CF
    ⟨0x50030, 1, 0, 1, 0, 0, 0xf, 0, 0, 0⟩, -- UPD_LIFE_SEL
    ⟨0x50034, 1, 0, 1, 0, 0, 0, 0, 0, 0⟩, -- UPD_LIFE_VALUE_LO
    ⟨0x50038, 1, 0, 1, 0, 0, 0, 0, 0, 0⟩, -- UPD_LIFE_VALUE_HI
    ⟨0x50040, 1, 0, 1, 0, 0, 0, 0, 0, 0⟩, -- UPD_SESSIONS
    ⟨0x50044, 1, 0, 1, 0, 0, 0, 0, 0, 0⟩, -- UPD_LEASES_EXPIRED
    ⟨0x50048, 1, 0, 1, 0, 0, 0, 0, 0, 0⟩, -- UPD_ACTIVATIONS
    ⟨0x5004c, 1, 0, 1, 0, 0, 0, 0, 0, 0⟩, -- UPD_FALLBACKS
    ⟨0x50050, 1, 0, 1, 0, 0, 0, 0, 0, 0⟩, -- UPD_NOR_ERASES
    ⟨0x50054, 1, 0, 1, 0, 0, 0, 0, 0, 0⟩, -- UPD_NOR_PROGRAMS
    ⟨0x50058, 1, 0, 1, 0, 0, 0, 0, 0, 0⟩] -- UPD_NOR_TIMEOUTS
/-- The registers of the block at BAR0 offset 0x60000. -/
def regRows06 : List RegRow :=
  [
    ⟨0x60000, 1, 0, 1, 0, 0, 0, 0, 0, 0⟩, -- HDL_CMD_BASE
    ⟨0x6000c, 1, 0, 1, 0, 0, 0, 0, 0, 0⟩, -- HDL_CMP_BASE
    ⟨0x60018, 1, 0, 1, 0, 0, 0, 0, 0, 0⟩, -- HDL_ARG_BASE
    ⟨0x60004, 1, 0, 1, 0, 0, 0xfff, 0, 0, 0⟩, -- HDL_CMD_TAIL
    ⟨0x60008, 1, 0, 1, 0, 0, 0, 0, 0, 0⟩, -- HDL_CMD_HEAD
    ⟨0x60010, 1, 0, 1, 0, 0x1000, 0, 0, 0, 0⟩, -- HDL_CMP_TAIL
    ⟨0x60014, 1, 0, 1, 0, 0, 0xfff, 0, 0, 0⟩, -- HDL_CMP_HEAD
    ⟨0x6001c, 1, 0, 1, 0, 0, 0x3, 0, 0, 0⟩, -- HDL_IRQ
    ⟨0x60020, 1, 0, 1, 0, 0, 0, 0, 0, 0⟩, -- HDL_SPEED
    ⟨0x60024, 1, 0, 1, 0, 0x11f, 0xffff, 0, 0, 0⟩, -- HDL_GOV_TARGET
    ⟨0x60028, 1, 0, 1, 0, 0, 0, 0, 0, 0⟩, -- HDL_VCORE
    ⟨0x6002c, 1, 0, 1, 0, 0, 0, 0, 0x10, 0⟩, -- HDL_STATUS
    ⟨0x60030, 1, 0, 1, 0, 0, 0, 0, 0, 0⟩, -- HDL_HELD
    ⟨0x60034, 1, 0, 1, 0, 0, 0x1f, 0, 0, 0⟩, -- HDL_LEDGER_SEL
    ⟨0x60038, 1, 0, 1, 0, 0, 0, 0, 0, 0⟩, -- HDL_LEDGER_CAP
    ⟨0x6003c, 1, 0, 1, 0, 0, 0, 0, 0, 0⟩, -- HDL_LEDGER_USED
    ⟨0x60040, 1, 0, 1, 0, 0, 0, 0, 0, 0⟩, -- HDL_AT_RISK_COUNT
    ⟨0x60044, 1, 0, 1, 0, 0, 0, 0, 0, 0⟩, -- HDL_BROKEN_COUNT
    ⟨0x60048, 1, 0, 1, 0, 0, 0, 0, 0, 0⟩, -- HDL_ADMIT_REFUSED
    ⟨0x6004c, 1, 0, 1, 0, 0, 0, 0, 0, 0⟩, -- HDL_CMD_DONE
    ⟨0x60050, 1, 0, 1, 0, 0, 0, 0, 0, 0⟩] -- HDL_MGT_DROPS
/-- The registers of the block at BAR0 offset 0x70000. -/
def regRows07 : List RegRow :=
  [
    ⟨0x70000, 1, 0, 1, 0, 0, 0, 0, 0, 0⟩, -- SCH_INBOX_WORDS
    ⟨0x70004, 1, 0, 1, 0, 0, 0xffff, 0, 0, 0⟩, -- SCH_TASK_SEL
    ⟨0x70008, 1, 0, 1, 0, 0, 0, 0, 0, 0⟩, -- SCH_TASK_STATE
    ⟨0x7000c, 1, 0, 1, 0, 0, 0, 0, 0, 0⟩, -- SCH_TASK_FLAGS
    ⟨0x70010, 1, 0, 1, 0, 0, 0, 0, 0, 0⟩, -- SCH_TASK_MASK
    ⟨0x70014, 1, 0, 1, 0, 0, 0, 0, 0, 0⟩, -- SCH_TASK_CFG
    ⟨0x70018, 1, 0, 1, 0, 0, 0, 0, 0, 0⟩, -- SCH_TASK_OWNER
    ⟨0x7001c, 1, 0, 1, 0, 0, 0, 0, 0, 0⟩, -- SCH_TASK_INBOX
    ⟨0x70020, 1, 0, 1, 0, 0, 0xff, 0, 0, 0⟩, -- SCH_EXEC_SEL
    ⟨0x70024, 1, 0, 1, 0, 0, 0, 0, 0, 0⟩, -- SCH_EXEC_READY
    ⟨0x70030, 1, 0, 1, 0, 0, 0, 0, 0, 0⟩, -- SCH_DISPATCHES
    ⟨0x70034, 1, 0, 1, 0, 0, 0, 0, 0, 0⟩, -- SCH_BP_WAITS
    ⟨0x70038, 1, 0, 1, 0, 0, 0, 0, 0, 0⟩] -- SCH_GROUP_WAITS
/-- The registers of the block at BAR0 offset 0x80000. -/
def regRows08 : List RegRow :=
  [
    ⟨0x80000, 1, 0, 1, 0, 0, 0x3ff, 0, 0, 0⟩, -- QUE_POP_RING
    ⟨0x80004, 1, 0, 1, 0, 0, 0, 0, 0, 0⟩, -- QUE_POP_LO
    ⟨0x80008, 1, 0, 1, 0, 0, 0, 0, 0, 0⟩, -- QUE_POP_HI
    ⟨0x8000c, 1, 0, 1, 0, 0, 0, 0, 0x20, 0⟩, -- QUE_POP_STATUS
    ⟨0x80010, 1, 0, 1, 0, 0, 0, 0, 0, 0x1⟩, -- QUE_POP_CTRL
    ⟨0x80020, 1, 0, 1, 0, 0, 0x1f03ff, 0, 0, 0⟩, -- QUE_PUSH_RING
    ⟨0x80024, 1, 0, 1, 0, 0, 0, 0, 0, 0xffffffff⟩, -- QUE_PUSH_DATA_LO
    ⟨0x80028, 1, 0, 1, 0, 0, 0, 0, 0, 0xffffffff⟩, -- QUE_PUSH_DATA_HI
    ⟨0x8002c, 1, 0, 1, 0, 0, 0, 0, 0, 0x1⟩, -- QUE_PUSH_COMMIT
    ⟨0x80030, 1, 0, 1, 0, 0, 0, 0, 0, 0⟩, -- QUE_PUSH_STATUS
    ⟨0x80040, 1, 0, 1, 0, 0, 0x3ff, 0, 0, 0⟩, -- QUE_STAT_SEL
    ⟨0x80044, 1, 0, 1, 0, 0, 0, 0, 0, 0⟩, -- QUE_STAT_CFG
    ⟨0x80048, 1, 0, 1, 0, 0, 0, 0, 0, 0⟩, -- QUE_STAT_SIZE
    ⟨0x8004c, 1, 0, 1, 0, 0, 0, 0, 0, 0⟩, -- QUE_STAT_DEPTH
    ⟨0x80050, 1, 0, 1, 0, 0, 0, 0, 0, 0⟩, -- QUE_STAT_WORDS
    ⟨0x80054, 1, 0, 1, 0, 0, 0, 0, 0, 0⟩, -- QUE_STAT_LOST
    ⟨0x80058, 1, 0, 1, 0, 0, 0, 0, 0, 0⟩, -- QUE_STAT_READ_LOST
    ⟨0x8005c, 1, 0, 1, 0, 0, 0, 0, 0, 0⟩, -- QUE_STAT_FLUSHED
    ⟨0x80060, 1, 0, 1, 0, 0, 0, 0, 0, 0⟩, -- QUE_STAT_CORR
    ⟨0x80070, 1, 0, 1, 0, 0x20000, 0, 0, 0, 0⟩, -- QUE_ONCHIP_FREE
    ⟨0x80074, 1, 0, 1, 0, 0, 0, 0, 0, 0⟩, -- QUE_ECC_UNCORR
    ⟨0x80078, 1, 0, 1, 0, 0, 0, 0, 0, 0⟩, -- QUE_UNROUTED
    ⟨0x80100, 48, 0x4, 1, 0, 0, 0, 0x83ff, 0, 0⟩] -- QUE_ROUTE
/-- The registers of the block at BAR0 offset 0x90000. -/
def regRows09 : List RegRow :=
  [
    ⟨0x90000, 1, 0, 1, 0, 0, 0, 0, 0, 0⟩, -- PLN_CONFIG
    ⟨0x90004, 1, 0, 1, 0, 0, 0, 0, 0, 0⟩, -- PLN_TRAIN
    ⟨0x90008, 1, 0, 1, 0, 0, 0, 0, 0, 0⟩, -- PLN_FREE_PAGES
    ⟨0x9000c, 1, 0, 1, 0, 0, 0, 0, 0, 0⟩, -- PLN_POOL
    ⟨0x90024, 1, 0, 1, 0, 0x40, 0xffff, 0, 0, 0⟩, -- PLN_SCRUB
    ⟨0x90028, 1, 0, 1, 0, 0, 0, 0, 0, 0⟩, -- PLN_SCRUB_AGE
    ⟨0x90020, 1, 0, 1, 0, 0, 0, 0, 0x80000000, 0⟩, -- PLN_ECC_ADDR
    ⟨0x90030, 1, 0, 1, 0, 0, 0, 0, 0, 0⟩, -- PLN_BW_SHOW
    ⟨0x90034, 1, 0, 1, 0, 0, 0, 0, 0, 0⟩, -- PLN_BW_SITE
    ⟨0x90038, 1, 0, 1, 0, 0, 0, 0, 0, 0⟩, -- PLN_BW_BE
    ⟨0x90048, 1, 0, 1, 0, 0, 0, 0, 0, 0⟩, -- PLN_DRAM_TEMP
    ⟨0x9004c, 1, 0, 1, 0, 0, 0xffffffff, 0, 0, 0⟩, -- PLN_XLAT_HANDLE
    ⟨0x90050, 1, 0, 1, 0, 0, 0xffffffff, 0, 0, 0⟩, -- PLN_XLAT_ADDR
    ⟨0x90054, 1, 0, 1, 0, 0, 0, 0, 0, 0⟩, -- PLN_XLAT_PTE_LO
    ⟨0x90058, 1, 0, 1, 0, 0, 0, 0, 0, 0⟩, -- PLN_XLAT_PTE_HI
    ⟨0x90018, 1, 0, 1, 0, 0, 0, 0, 0, 0⟩, -- PLN_ECC_CORR
    ⟨0x9001c, 1, 0, 1, 0, 0, 0, 0, 0, 0⟩, -- PLN_ECC_UNCORR
    ⟨0x90010, 1, 0, 1, 0, 0, 0, 0, 0, 0⟩, -- PLN_POOL_FAIL
    ⟨0x90014, 1, 0, 1, 0, 0, 0, 0, 0, 0⟩, -- PLN_RETIRED
    ⟨0x9002c, 1, 0, 1, 0, 0, 0, 0, 0, 0⟩, -- PLN_SCRUB_PASSES
    ⟨0x9003c, 1, 0, 1, 0, 0, 0, 0, 0, 0⟩, -- PLN_WIN_OOR
    ⟨0x90040, 1, 0, 1, 0, 0, 0, 0, 0, 0⟩, -- PLN_WIN_PROT_DROPS
    ⟨0x90044, 1, 0, 1, 0, 0, 0, 0, 0, 0⟩] -- PLN_XLAT_MISS
/-- The registers of the block at BAR0 offset 0xa0000. -/
def regRows0A : List RegRow :=
  [
    ⟨0xa0000, 1, 0, 1, 0, 0, 0, 0, 0, 0⟩, -- SPM_BIST
    ⟨0xa000c, 1, 0, 1, 0, 0, 0, 0, 0x80000000, 0⟩, -- SPM_ECC_ADDR
    ⟨0xa0040, 16, 0x4, 1, 0, 0x100, 0, 0, 0, 0⟩, -- SPM_BANK
    ⟨0xa0004, 1, 0, 1, 0, 0, 0, 0, 0, 0⟩, -- SPM_ECC_CORR
    ⟨0xa0008, 1, 0, 1, 0, 0, 0, 0, 0, 0⟩, -- SPM_ECC_UNCORR
    ⟨0xa0010, 1, 0, 1, 0, 0, 0, 0, 0, 0⟩, -- SPM_WAIT_SLOTS
    ⟨0xa0014, 1, 0, 1, 0, 0, 0, 0, 0, 0⟩] -- SPM_SPLIT_ACCESSES
/-- The registers of the block at BAR0 offset 0xb0000. -/
def regRows0B : List RegRow :=
  [
    ⟨0xb0000, 8, 0x20, 1, 0, 0, 0, 0, 0, 0⟩, -- CHK_CH_STATE
    ⟨0xb0004, 8, 0x20, 1, 0, 0, 0, 0, 0, 0⟩, -- CHK_CH_POS_LO
    ⟨0xb0008, 8, 0x20, 1, 0, 0, 0, 0, 0, 0⟩, -- CHK_CH_POS_HI
    ⟨0xb000c, 8, 0x20, 1, 0, 0, 0, 0, 0, 0⟩, -- CHK_CH_RESULT_LO
    ⟨0xb0010, 8, 0x20, 1, 0, 0, 0, 0, 0, 0⟩, -- CHK_CH_RESULT_HI
    ⟨0xb0014, 8, 0x20, 1, 0, 0, 0, 0, 0, 0x1⟩, -- CHK_CH_CTRL
    ⟨0xb0100, 1, 0, 1, 0, 0, 0, 0, 0, 0⟩, -- CHK_SCANS
    ⟨0xb0104, 1, 0, 1, 0, 0, 0, 0, 0, 0⟩] -- CHK_ABORTS
/-- The registers of the block at BAR0 offset 0xc0000. -/
def regRows0C : List RegRow :=
  [
    ⟨0xc0000, 1, 0, 1, 0, 0, 0, 0, 0x2, 0⟩, -- TIM_STATUS
    ⟨0xc0004, 1, 0, 1, 0, 0, 0, 0, 0, 0x1⟩, -- TIM_LATCH
    ⟨0xc0008, 1, 0, 1, 0, 0, 0, 0, 0, 0⟩, -- TIM_RAW0
    ⟨0xc000c, 1, 0, 1, 0, 0, 0, 0, 0, 0⟩, -- TIM_RAW1
    ⟨0xc0010, 1, 0, 1, 0, 0, 0, 0, 0, 0⟩, -- TIM_RAW2
    ⟨0xc0020, 2, 0x40, 1, 0, 0, 0, 0, 0, 0⟩, -- TIM_DOM_S_LO
    ⟨0xc0024, 2, 0x40, 1, 0, 0, 0, 0, 0, 0⟩, -- TIM_DOM_S_HI
    ⟨0xc0028, 2, 0x40, 1, 0, 0, 0, 0, 0, 0⟩, -- TIM_DOM_NS
    ⟨0xc002c, 2, 0x40, 1, 0, 0, 0, 0, 0, 0⟩, -- TIM_DOM_FRAC
    ⟨0xc0030, 2, 0x40, 1, 0, 0, 0, 0, 0, 0⟩, -- TIM_DOM_STATE
    ⟨0xc0034, 2, 0x40, 1, 0, 0, 0, 0, 0, 0⟩, -- TIM_DOM_OFFSET
    ⟨0xc0038, 2, 0x40, 1, 0, 0, 0, 0, 0, 0⟩, -- TIM_DOM_FREQ
    ⟨0xc003c, 2, 0x40, 1, 0, 0, 0, 0, 0, 0⟩, -- TIM_DOM_DELAY
    ⟨0xc0040, 2, 0x40, 1, 0, 0, 0, 0, 0, 0⟩, -- TIM_DOM_PHI
    ⟨0xc0044, 2, 0x40, 1, 0, 0, 0, 0, 0, 0⟩, -- TIM_DOM_GM_HI
    ⟨0xc0048, 2, 0x40, 1, 0, 0, 0, 0, 0, 0⟩, -- TIM_DOM_GM_LO
    ⟨0xc004c, 2, 0x40, 1, 0, 0, 0, 0, 0, 0⟩, -- TIM_DOM_STEPS
    ⟨0xc0050, 2, 0x40, 1, 0, 0, 0, 0, 0, 0⟩, -- TIM_DOM_LOCK_LOSSES
    ⟨0xc0054, 2, 0x40, 1, 0, 0, 0, 0, 0, 0⟩, -- TIM_DOM_HOLDOVERS
    ⟨0xc0058, 2, 0x40, 1, 0, 0, 0, 0, 0, 0⟩, -- TIM_DOM_GM_CHANGES
    ⟨0xc005c, 2, 0x40, 1, 0, 0, 0, 0, 0, 0⟩, -- TIM_DOM_HOLDOVER_S
    ⟨0xc0100, 16, 0x10, 1, 0, 0, 0xffffffff, 0, 0, 0⟩, -- TIM_PORT_ASYM
    ⟨0xc0104, 16, 0x10, 1, 0, 0, 0, 0xffffff, 0, 0⟩, -- TIM_PORT_TX_EXTRA
    ⟨0xc0108, 16, 0x10, 1, 0, 0, 0, 0xffffff, 0, 0⟩] -- TIM_PORT_RX_EXTRA
  ++ [
    ⟨0xc010c, 16, 0x10, 1, 0, 0, 0, 0, 0, 0⟩, -- TIM_PORT_LAT
    ⟨0xc0200, 8, 0x8, 1, 0, 0, 0, 0, 0, 0⟩, -- TIM_CARRY_LO
    ⟨0xc0204, 8, 0x8, 1, 0, 0, 0, 0, 0, 0⟩] -- TIM_CARRY_HI
/-- The registers of the block at BAR0 offset 0xd0000. -/
def regRows0D : List RegRow :=
  [
    ⟨0xd0000, 1, 0, 1, 0, 0, 0x1f, 0, 0, 0⟩, -- EVT_ACT_SEL
    ⟨0xd0004, 1, 0, 1, 0, 0, 0, 0, 0, 0⟩, -- EVT_ACT_STATE
    ⟨0xd0008, 1, 0, 1, 0, 0, 0, 0, 0, 0⟩, -- EVT_ACT_NEXT_S
    ⟨0xd000c, 1, 0, 1, 0, 0, 0, 0, 0, 0⟩, -- EVT_ACT_NEXT_NS
    ⟨0xd0010, 1, 0, 1, 0, 0, 0, 0, 0, 0⟩, -- EVT_ACT_LATE_NS
    ⟨0xd0014, 1, 0, 1, 0, 0, 0, 0, 0, 0⟩, -- EVT_ACT_FIRES
    ⟨0xd0018, 1, 0, 1, 0, 0, 0, 0, 0, 0⟩, -- EVT_ACT_LATE_FIRES
    ⟨0xd001c, 1, 0, 1, 0, 0, 0, 0, 0, 0⟩, -- EVT_ACT_DISCARDS
    ⟨0xd0020, 1, 0, 1, 0, 0, 0, 0, 0, 0⟩, -- EVT_ACT_USED
    ⟨0xd0100, 8, 0x10, 1, 0, 0x2, 0xff1f, 0, 0, 0⟩, -- EVT_CAP_CFG
    ⟨0xd0104, 8, 0x10, 1, 0, 0, 0, 0, 0, 0⟩, -- EVT_CAP_S
    ⟨0xd0108, 8, 0x10, 1, 0, 0, 0, 0, 0, 0⟩, -- EVT_CAP_NS
    ⟨0xd010c, 8, 0x10, 1, 0, 0, 0, 0, 0, 0⟩, -- EVT_CAP_OVF
    ⟨0xd0200, 2, 0x20, 1, 0, 0, 0x7, 0, 0, 0⟩, -- EVT_LTC_CFG
    ⟨0xd0204, 2, 0x20, 1, 0, 0, 0, 0, 0, 0⟩, -- EVT_LTC_TC
    ⟨0xd0208, 2, 0x20, 1, 0, 0, 0, 0, 0, 0⟩, -- EVT_LTC_USER
    ⟨0xd020c, 2, 0x20, 1, 0, 0, 0, 0, 0, 0⟩, -- EVT_LTC_STATUS
    ⟨0xd0210, 2, 0x20, 1, 0, 0, 0, 0, 0, 0⟩, -- EVT_LTC_TS_S
    ⟨0xd0214, 2, 0x20, 1, 0, 0, 0, 0, 0, 0⟩, -- EVT_LTC_TS_NS
    ⟨0xd0218, 2, 0x20, 1, 0, 0, 0, 0, 0, 0⟩, -- EVT_LTC_ERRORS
    ⟨0xd0300, 1, 0, 1, 0, 0, 0, 0, 0, 0⟩, -- EVT_ADC_STATE
    ⟨0xd0304, 1, 0, 1, 0, 0, 0, 0, 0, 0⟩, -- EVT_ADC_RESULT01
    ⟨0xd0308, 1, 0, 1, 0, 0, 0, 0, 0, 0⟩, -- EVT_ADC_RESULT23
    ⟨0xd030c, 1, 0, 1, 0, 0, 0, 0, 0, 0⟩] -- EVT_ADC_OVERRUN
  ++ [
    ⟨0xd0310, 1, 0, 1, 0, 0, 0, 0, 0, 0⟩] -- EVT_ADC_SEQS
/-- The registers of the block at BAR0 offset 0xe0000. -/
def regRows0E : List RegRow :=
  [
    ⟨0xe0000, 1, 0, 1, 0, 0, 0, 0, 0, 0⟩, -- RED_CFG
    ⟨0xe0004, 1, 0, 1, 0, 0, 0, 0, 0x80, 0⟩, -- RED_STATE
    ⟨0xe0008, 1, 0, 1, 0, 0, 0, 0, 0, 0⟩, -- RED_PARTNER_CP
    ⟨0xe000c, 1, 0, 1, 0, 0, 0, 0, 0, 0⟩, -- RED_CKPT_NUM_LO
    ⟨0xe0010, 1, 0, 1, 0, 0, 0, 0, 0, 0⟩, -- RED_CKPT_NUM_HI
    ⟨0xe0014, 1, 0, 1, 0, 0, 0, 0, 0, 0⟩, -- RED_CKPT_AGE
    ⟨0xe0018, 1, 0, 1, 0, 0, 0, 0, 0, 0⟩, -- RED_HEALTH
    ⟨0xe001c, 1, 0, 1, 0, 0, 0, 0, 0, 0⟩, -- RED_PARTNER_HEALTH
    ⟨0xe0040, 1, 0, 1, 0, 0, 0, 0, 0, 0⟩, -- RED_HB_MISS_V
    ⟨0xe0044, 1, 0, 1, 0, 0, 0, 0, 0, 0⟩, -- RED_HB_MISS_W
    ⟨0xe0048, 1, 0, 1, 0, 0, 0, 0, 0, 0⟩, -- RED_PATH_LOSSES
    ⟨0xe004c, 1, 0, 1, 0, 0, 0, 0, 0, 0⟩, -- RED_CLAIMS_WON
    ⟨0xe0050, 1, 0, 1, 0, 0, 0, 0, 0, 0⟩, -- RED_CLAIMS_LOST
    ⟨0xe0054, 1, 0, 1, 0, 0, 0, 0, 0, 0⟩, -- RED_TAKEOVERS
    ⟨0xe0058, 1, 0, 1, 0, 0, 0, 0, 0, 0⟩, -- RED_HANDOVERS
    ⟨0xe005c, 1, 0, 1, 0, 0, 0, 0, 0, 0⟩, -- RED_CKPT_DONE
    ⟨0xe0060, 1, 0, 1, 0, 0, 0, 0, 0, 0⟩, -- RED_CKPT_STRETCHED
    ⟨0xe0064, 1, 0, 1, 0, 0, 0, 0, 0, 0⟩, -- RED_CKPT_REFUSED
    ⟨0xe0068, 1, 0, 1, 0, 0, 0, 0, 0, 0⟩, -- RED_BREATH_LOW
    ⟨0xe006c, 1, 0, 1, 0, 0, 0, 0, 0, 0⟩, -- RED_WITNESS_QUERIES
    ⟨0xe0070, 1, 0, 1, 0, 0, 0, 0, 0, 0⟩, -- RED_WITNESS_SERVED
    ⟨0xe0074, 1, 0, 1, 0, 0, 0, 0, 0, 0⟩] -- RED_DUAL_ACTIVE
/-- The registers of the block at BAR0 offset 0xf0000. -/
def regRows0F : List RegRow :=
  [
    ⟨0xf0000, 1, 0, 1, 0, 0, 0, 0, 0, 0⟩, -- VAL_STATE
    ⟨0xf0004, 1, 0, 1, 0, 0, 0, 0, 0, 0⟩, -- VAL_ROOT_UID_HI
    ⟨0xf0008, 1, 0, 1, 0, 0, 0, 0, 0, 0⟩, -- VAL_ROOT_UID_LO
    ⟨0xf000c, 1, 0, 1, 0, 0, 0, 0, 0, 0⟩, -- VAL_VP
    ⟨0xf0010, 1, 0, 1, 0, 0, 0, 0, 0x4, 0⟩, -- VAL_STATUS
    ⟨0xf0014, 1, 0, 1, 0, 0x1, 0x1, 0, 0, 0⟩, -- VAL_RELAY
    ⟨0xf0018, 1, 0, 1, 0, 0, 0, 0, 0, 0⟩, -- VAL_LAST_REFUSAL
    ⟨0xf0020, 1, 0, 1, 0, 0, 0xff, 0, 0, 0⟩, -- VAL_PASS_SEL
    ⟨0xf0024, 1, 0, 1, 0, 0, 0, 0, 0, 0⟩, -- VAL_PASS
    ⟨0xf0030, 1, 0, 1, 0, 0, 0x3f, 0, 0, 0⟩, -- VAL_MIG_SEL
    ⟨0xf0034, 1, 0, 1, 0, 0, 0, 0, 0, 0⟩, -- VAL_MIG_STATE
    ⟨0xf0038, 1, 0, 1, 0, 0, 0, 0, 0, 0⟩, -- VAL_MIG_FRAME_LO
    ⟨0xf003c, 1, 0, 1, 0, 0, 0, 0, 0, 0⟩, -- VAL_MIG_FRAME_HI
    ⟨0xf0100, 4, 0x20, 1, 0, 0, 0, 0, 0, 0⟩, -- VAL_LINK_STATE
    ⟨0xf0104, 4, 0x20, 1, 0, 0, 0, 0, 0, 0⟩, -- VAL_LINK_PARTNER_HI
    ⟨0xf0108, 4, 0x20, 1, 0, 0, 0, 0, 0, 0⟩, -- VAL_LINK_PARTNER_LO
    ⟨0xf010c, 4, 0x20, 1, 0, 0, 0xffffffff, 0, 0, 0⟩, -- VAL_LINK_ASYM
    ⟨0xf0110, 4, 0x20, 1, 0, 0, 0, 0, 0, 0⟩, -- VAL_LINK_DELAY
    ⟨0xf0200, 1, 0, 1, 0, 0, 0, 0, 0, 0⟩, -- VAL_HCRC_DROPS
    ⟨0xf0204, 1, 0, 1, 0, 0, 0, 0, 0, 0⟩, -- VAL_LEN_DROPS
    ⟨0xf0208, 1, 0, 1, 0, 0, 0, 0, 0, 0⟩, -- VAL_PCRC_DROPS
    ⟨0xf020c, 1, 0, 1, 0, 0, 0, 0, 0, 0⟩, -- VAL_BAD_DROPS
    ⟨0xf0210, 1, 0, 1, 0, 0, 0, 0, 0, 0⟩, -- VAL_HOP_DROPS
    ⟨0xf0214, 1, 0, 1, 0, 0, 0, 0, 0, 0⟩] -- VAL_UNREACH_DROPS
  ++ [
    ⟨0xf0218, 1, 0, 1, 0, 0, 0, 0, 0, 0⟩, -- VAL_EPOCH_DROPS
    ⟨0xf021c, 1, 0, 1, 0, 0, 0, 0, 0, 0⟩, -- VAL_REROUTES
    ⟨0xf0220, 1, 0, 1, 0, 0, 0, 0, 0, 0⟩, -- VAL_FEC_CORR
    ⟨0xf0224, 1, 0, 1, 0, 0, 0, 0, 0, 0⟩, -- VAL_FEC_UNCORR
    ⟨0xf0228, 1, 0, 1, 0, 0, 0, 0, 0, 0⟩] -- VAL_RELAYS_SERVED
/-- The registers of the block at BAR0 offset 0x100000. -/
def regRows10 : List RegRow :=
  [
    ⟨0x100000, 17, 0x10000, 1, 0, 0, 0, 0, 0, 0⟩, -- MAC_CFG
    ⟨0x100004, 17, 0x10000, 1, 0, 0, 0x1, 0, 0, 0x6⟩, -- MAC_CTRL
    ⟨0x100008, 17, 0x10000, 1, 0, 0, 0, 0, 0, 0⟩, -- MAC_STATUS
    ⟨0x10000c, 17, 0x10000, 1, 0, 0, 0, 0, 0, 0⟩, -- MAC_ADDR_HI
    ⟨0x100010, 17, 0x10000, 1, 0, 0, 0, 0, 0, 0⟩, -- MAC_ADDR_LO
    ⟨0x100014, 17, 0x10000, 1, 0, 0, 0, 0, 0, 0⟩, -- MAC_IPV4
    ⟨0x10001c, 17, 0x10000, 1, 0, 0, 0, 0, 0, 0⟩, -- MAC_GATEWAY
    ⟨0x100018, 17, 0x10000, 1, 0, 0, 0, 0, 0, 0⟩, -- MAC_IP_CFG
    ⟨0x100020, 17, 0x10000, 1, 0, 0, 0, 0, 0, 0⟩, -- MAC_RX_RING
    ⟨0x100024, 17, 0x10000, 1, 0, 0xa, 0, 0, 0, 0⟩, -- MAC_PREEMPT
    ⟨0x100028, 17, 0x10000, 1, 0, 0, 0, 0, 0, 0⟩, -- MAC_PAUSE_LEFT
    ⟨0x10002c, 17, 0x10000, 1, 0, 0, 0, 0, 0, 0⟩, -- MAC_GROUPS
    ⟨0x100030, 17, 0x10000, 1, 0, 0, 0, 0, 0, 0x3⟩, -- MAC_SNAP
    ⟨0x100034, 17, 0x10000, 1, 0, 0, 0, 0, 0, 0⟩, -- MAC_SNAP_S
    ⟨0x100038, 17, 0x10000, 1, 0, 0, 0, 0, 0, 0⟩, -- MAC_SNAP_NS
    ⟨0x100100, 17, 0x10000, 38, 0x8, 0, 0, 0, 0, 0⟩, -- MAC_CNT_LO
    ⟨0x100104, 17, 0x10000, 38, 0x8, 0, 0, 0, 0, 0⟩, -- MAC_CNT_HI
    ⟨0x100400, 17, 0x10000, 38, 0x8, 0, 0, 0, 0, 0⟩, -- MAC_SNAP_LO
    ⟨0x100404, 17, 0x10000, 38, 0x8, 0, 0, 0, 0, 0⟩] -- MAC_SNAP_HI
/-- The registers of the block at BAR0 offset 0x210000. -/
def regRows21 : List RegRow :=
  [
    ⟨0x210100, 16, 0x20, 1, 0, 0x1e0, 0, 0, 0, 0⟩, -- PKT_ING_STATE
    ⟨0x210104, 16, 0x20, 1, 0, 0, 0, 0, 0, 0⟩, -- PKT_ING_FRAMES
    ⟨0x210108, 16, 0x20, 1, 0, 0, 0, 0, 0, 0⟩, -- PKT_ING_INCOMPLETE
    ⟨0x21010c, 16, 0x20, 1, 0, 0, 0, 0, 0, 0⟩, -- PKT_ING_SKIPPED
    ⟨0x210110, 16, 0x20, 1, 0, 0, 0, 0, 0, 0⟩, -- PKT_ING_REPEATS
    ⟨0x210114, 16, 0x20, 1, 0, 0, 0, 0, 0, 0⟩, -- PKT_ING_FORMAT_DROPS
    ⟨0x210118, 16, 0x20, 1, 0, 0, 0, 0, 0, 0⟩, -- PKT_ING_LEN_DROPS
    ⟨0x21011c, 16, 0x20, 1, 0, 0, 0, 0, 0, 0⟩, -- PKT_ING_SEQ_GAPS
    ⟨0x210400, 1, 0, 1, 0, 0, 0x30fff, 0, 0, 0⟩, -- PKT_IN_SEL
    ⟨0x210404, 1, 0, 1, 0, 0, 0, 0, 0, 0⟩, -- PKT_IN_STATE
    ⟨0x210408, 1, 0, 1, 0, 0, 0, 0, 0, 0⟩, -- PKT_IN_SRC_INFO
    ⟨0x21040c, 1, 0, 1, 0, 0, 0, 0, 0, 0⟩, -- PKT_IN_SRC_AGE
    ⟨0x210410, 4, 0x4, 1, 0, 0, 0, 0, 0, 0⟩, -- PKT_IN_SRC_CID
    ⟨0x210420, 1, 0, 1, 0, 0, 0, 0, 0, 0⟩, -- PKT_IN_PACKETS
    ⟨0x210424, 1, 0, 1, 0, 0, 0, 0, 0, 0⟩, -- PKT_IN_SEQ_DROPS
    ⟨0x210428, 1, 0, 1, 0, 0, 0, 0, 0, 0⟩, -- PKT_IN_SRC_LOSSES
    ⟨0x21042c, 1, 0, 1, 0, 0, 0, 0, 0, 0⟩, -- PKT_IN_SRC_OVERFLOW
    ⟨0x210430, 1, 0, 1, 0, 0, 0, 0, 0, 0⟩, -- PKT_IN_TERMINATED
    ⟨0x210440, 1, 0, 1, 0, 0, 0, 0, 0, 0⟩, -- PKT_RX_LEN_DROPS
    ⟨0x210444, 1, 0, 1, 0, 0, 0, 0, 0, 0⟩, -- PKT_RX_IGNORED
    ⟨0x210448, 1, 0, 1, 0, 0, 0, 0, 0, 0⟩, -- PKT_RX_UNMATCHED
    ⟨0x21044c, 1, 0, 1, 0, 0, 0, 0, 0, 0⟩, -- PKT_RX_PRIO_DROPS
    ⟨0x210450, 1, 0, 1, 0, 0, 0, 0, 0, 0⟩, -- PKT_RX_PREVIEW
    ⟨0x210454, 1, 0, 1, 0, 0, 0, 0, 0, 0⟩] -- PKT_RX_OTHER_SC
  ++ [
    ⟨0x210800, 1, 0, 1, 0, 0x101018, 0, 0xff3f3f, 0, 0⟩, -- PKT_TX_CFG
    ⟨0x210804, 1, 0, 1, 0, 0, 0x7fff, 0, 0, 0⟩, -- PKT_TX_SEL
    ⟨0x210808, 1, 0, 1, 0, 0, 0, 0, 0, 0⟩, -- PKT_TX_STATE
    ⟨0x21080c, 1, 0, 1, 0, 0, 0, 0, 0, 0⟩, -- PKT_TX_DEST
    ⟨0x210810, 1, 0, 1, 0, 0, 0, 0, 0, 0⟩, -- PKT_TX_LAST
    ⟨0x210b00, 16, 0x4, 1, 0, 0xffff0000, 0, 0, 0, 0⟩, -- PKT_TXP_SLACK
    ⟨0x210900, 16, 0x20, 1, 0, 0, 0, 0, 0, 0⟩, -- PKT_TXP_PACKETS
    ⟨0x210904, 16, 0x20, 1, 0, 0, 0, 0, 0, 0⟩, -- PKT_TXP_SYNCS
    ⟨0x210908, 16, 0x20, 1, 0, 0, 0, 0, 0, 0⟩, -- PKT_TXP_LATE
    ⟨0x21090c, 16, 0x20, 1, 0, 0, 0, 0, 0, 0⟩, -- PKT_TXP_LATE_DROPS
    ⟨0x210910, 16, 0x20, 1, 0, 0, 0, 0, 0, 0⟩, -- PKT_TXP_REMOTE_LATE
    ⟨0x210914, 16, 0x20, 1, 0, 0, 0, 0, 0, 0⟩, -- PKT_TXP_UNRESOLVED
    ⟨0x210918, 16, 0x20, 1, 0, 0, 0, 0, 0, 0⟩, -- PKT_TXP_DISCOVERY
    ⟨0x21091c, 16, 0x20, 1, 0, 0, 0, 0, 0, 0⟩] -- PKT_TXP_TERMINATED
/-- The registers of the block at BAR0 offset 0x220000. -/
def regRows22 : List RegRow :=
  [
    ⟨0x220000, 1, 0, 1, 0, 0, 0, 0, 0xff, 0⟩, -- RAS_COMMIT
    ⟨0x220100, 8, 0x40, 1, 0, 0, 0, 0, 0, 0⟩, -- RAS_CANVAS_STATE
    ⟨0x220104, 8, 0x40, 1, 0, 0, 0, 0, 0, 0⟩, -- RAS_CANVAS_RATE
    ⟨0x220108, 8, 0x40, 1, 0, 0, 0, 0, 0, 0⟩, -- RAS_CANVAS_TIMING
    ⟨0x22010c, 8, 0x40, 1, 0, 0, 0, 0, 0, 0⟩, -- RAS_CANVAS_TAIL
    ⟨0x220110, 8, 0x40, 1, 0, 0, 0, 0, 0, 0⟩, -- RAS_CANVAS_SAMPLES
    ⟨0x220114, 8, 0x40, 1, 0, 0xffff0000, 0, 0, 0, 0⟩, -- RAS_CANVAS_MARGIN
    ⟨0x220118, 8, 0x40, 1, 0, 0, 0, 0, 0, 0⟩, -- RAS_CANVAS_FETCH_BYTES
    ⟨0x22011c, 8, 0x40, 1, 0, 0, 0, 0, 0, 0⟩, -- RAS_CANVAS_SAVED_BYTES
    ⟨0x220120, 8, 0x40, 1, 0, 0, 0, 0, 0, 0⟩, -- RAS_CANVAS_PASSES
    ⟨0x220124, 8, 0x40, 1, 0, 0, 0, 0, 0, 0⟩, -- RAS_CANVAS_ABORTS
    ⟨0x220128, 8, 0x40, 1, 0, 0, 0, 0, 0, 0⟩, -- RAS_CANVAS_COMMITS
    ⟨0x22012c, 8, 0x40, 1, 0, 0, 0, 0, 0, 0⟩, -- RAS_CANVAS_LATE_COMMITS
    ⟨0x220130, 8, 0x40, 1, 0, 0, 0, 0, 0, 0⟩] -- RAS_CANVAS_POISON
/-- The registers of the block at BAR0 offset 0x230000. -/
def regRows23 : List RegRow :=
  [
    ⟨0x230000, 1, 0, 1, 0, 0, 0, 0, 0, 0⟩, -- FIX_LOAD
    ⟨0x230004, 1, 0, 1, 0, 0, 0x1ffff, 0, 0, 0⟩, -- FIX_SEL
    ⟨0x230008, 1, 0, 1, 0, 0, 0, 0, 0, 0⟩, -- FIX_FIX_STATE
    ⟨0x23000c, 1, 0, 1, 0, 0, 0, 0, 0, 0⟩, -- FIX_FIX_UNIV
    ⟨0x230010, 1, 0, 1, 0, 0, 0xff, 0, 0, 0⟩, -- FIX_LAMP_SEL
    ⟨0x230014, 6, 0x4, 1, 0, 0, 0, 0, 0, 0⟩, -- FIX_MATRIX
    ⟨0x23002c, 1, 0, 1, 0, 0, 0, 0, 0, 0⟩, -- FIX_TABLES
    ⟨0x230030, 1, 0, 1, 0, 0x3, 0, 0, 0, 0⟩, -- FIX_CURVES_LO
    ⟨0x230034, 1, 0, 1, 0, 0, 0, 0, 0, 0⟩, -- FIX_CURVES_HI
    ⟨0x230040, 1, 0, 1, 0, 0, 0, 0, 0, 0⟩, -- FIX_STALE_FRAMES
    ⟨0x230044, 1, 0, 1, 0, 0, 0, 0, 0, 0⟩, -- FIX_POISON
    ⟨0x230048, 1, 0, 1, 0, 0, 0, 0, 0, 0⟩, -- FIX_CLAMPS
    ⟨0x23004c, 1, 0, 1, 0, 0, 0, 0, 0, 0⟩, -- FIX_MATRIX_SCALED
    ⟨0x230050, 1, 0, 1, 0, 0, 0, 0, 0, 0⟩] -- FIX_DEFAULTS
/-- The registers of the block at BAR0 offset 0x240000. -/
def regRows24 : List RegRow :=
  [
    ⟨0x240000, 8, 0x1000, 1, 0, 0, 0, 0, 0xc0, 0⟩, -- PXP_STATE
    ⟨0x240004, 8, 0x1000, 1, 0, 0, 0, 0, 0, 0⟩, -- PXP_SCAN
    ⟨0x240008, 8, 0x1000, 1, 0, 0, 0, 0, 0, 0⟩, -- PXP_CYCLE
    ⟨0x24000c, 8, 0x1000, 1, 0, 0, 0, 0, 0, 0⟩, -- PXP_START_ERR
    ⟨0x240010, 8, 0x1000, 1, 0, 0x3e8, 0xffff, 0, 0, 0⟩, -- PXP_DIAG_MIN_ON
    ⟨0x240014, 8, 0x1000, 1, 0, 0x40, 0xffff, 0, 0, 0⟩, -- PXP_PROBE_EVERY
    ⟨0x240018, 8, 0x1000, 1, 0, 0, 0, 0, 0, 0⟩, -- PXP_SHORT
    ⟨0x24001c, 8, 0x1000, 1, 0, 0, 0, 0, 0, 0⟩, -- PXP_ROTATION
    ⟨0x240020, 8, 0x1000, 1, 0, 0, 0x3ffff, 0, 0, 0⟩, -- PXP_FAULT_SEL
    ⟨0x240024, 8, 0x1000, 1, 0, 0, 0, 0, 0, 0⟩, -- PXP_FAULT_INFO
    ⟨0x240028, 8, 0x1000, 1, 0, 0, 0, 0, 0, 0⟩, -- PXP_OPEN_NOW
    ⟨0x24002c, 8, 0x1000, 1, 0, 0, 0, 0, 0, 0⟩, -- PXP_SHORT_NOW
    ⟨0x240030, 8, 0x1000, 1, 0, 0, 0, 0, 0, 0⟩, -- PXP_DIM_NOW
    ⟨0x240040, 8, 0x1000, 1, 0, 0, 0, 0, 0, 0⟩, -- PXP_FRAMES
    ⟨0x240044, 8, 0x1000, 1, 0, 0, 0, 0, 0, 0⟩, -- PXP_REPEATS
    ⟨0x240048, 8, 0x1000, 1, 0, 0, 0, 0, 0, 0⟩, -- PXP_FILL_LATE
    ⟨0x24004c, 8, 0x1000, 1, 0, 0, 0, 0, 0, 0⟩, -- PXP_BLANKS
    ⟨0x240050, 8, 0x1000, 1, 0, 0, 0, 0, 0, 0⟩, -- PXP_READBACKS
    ⟨0x240054, 8, 0x1000, 1, 0, 0, 0, 0, 0, 0⟩, -- PXP_PROBES
    ⟨0x240058, 8, 0x1000, 1, 0, 0, 0, 0, 0, 0⟩, -- PXP_LOCATES
    ⟨0x24005c, 8, 0x1000, 1, 0, 0, 0, 0, 0, 0⟩, -- PXP_INTERMITTENT
    ⟨0x240060, 8, 0x1000, 1, 0, 0, 0, 0, 0, 0⟩, -- PXP_START_LATE
    ⟨0x240064, 8, 0x1000, 1, 0, 0, 0, 0, 0, 0⟩] -- PXP_ITEMS_SUPPRESSED
/-- The registers of the block at BAR0 offset 0x250000. -/
def regRows25 : List RegRow :=
  [
    ⟨0x250800, 1, 0, 1, 0, 0, 0, 0xffffffff, 0, 0⟩, -- DMX_UID_MFR
    ⟨0x250804, 1, 0, 1, 0, 0, 0, 0xffffffff, 0, 0⟩, -- DMX_UID_DEV
    ⟨0x250000, 2, 0x400, 1, 0, 0, 0, 0, 0, 0⟩, -- DMX_LINE_STATE
    ⟨0x250004, 2, 0x400, 1, 0, 0x40b0, 0xfffffff, 0, 0, 0⟩, -- DMX_LINE_TIMING
    ⟨0x250008, 2, 0x400, 1, 0, 0, 0, 0, 0, 0⟩, -- DMX_LINE_PERIOD
    ⟨0x25000c, 2, 0x400, 1, 0, 0x3c, 0xffff, 0, 0, 0x10000⟩, -- DMX_LINE_DISC
    ⟨0x250010, 2, 0x400, 1, 0, 0, 0xffffffff, 0, 0, 0⟩, -- DMX_LINE_MB_UID_HI
    ⟨0x250014, 2, 0x400, 1, 0, 0, 0xffffffff, 0, 0, 0⟩, -- DMX_LINE_MB_UID_LO
    ⟨0x250018, 2, 0x400, 1, 0, 0x20, 0xffffffff, 0, 0, 0⟩, -- DMX_LINE_MB_REQ
    ⟨0x25001c, 2, 0x400, 1, 0, 0, 0, 0, 0x4, 0x1⟩, -- DMX_LINE_MB_CTRL
    ⟨0x250040, 2, 0x400, 58, 0x4, 0, 0xffffffff, 0, 0, 0⟩, -- DMX_LINE_MB_DATA
    ⟨0x250020, 2, 0x400, 1, 0, 0, 0, 0, 0, 0⟩, -- DMX_LINE_PACKETS
    ⟨0x250024, 2, 0x400, 1, 0, 0, 0, 0, 0, 0⟩, -- DMX_LINE_RDM_REQUESTS
    ⟨0x250028, 2, 0x400, 1, 0, 0, 0, 0, 0, 0⟩, -- DMX_LINE_RDM_TIMEOUTS
    ⟨0x25002c, 2, 0x400, 1, 0, 0, 0, 0, 0, 0⟩, -- DMX_LINE_RDM_CHECKSUM
    ⟨0x250030, 2, 0x400, 1, 0, 0, 0, 0, 0, 0⟩] -- DMX_LINE_DISC_OVERFLOW
/-- The registers of the block at BAR0 offset 0x260000. -/
def regRows26 : List RegRow :=
  [
    ⟨0x260000, 1, 0, 1, 0, 0, 0, 0, 0, 0⟩, -- SITE_TEL_PORTS
    ⟨0x260004, 1, 0, 1, 0, 0, 0xfff, 0, 0, 0⟩, -- SITE_ZONE_SEL
    ⟨0x260008, 1, 0, 1, 0, 0, 0, 0, 0, 0⟩, -- SITE_ZONE_STATE
    ⟨0x26000c, 1, 0, 1, 0, 0, 0, 0, 0, 0⟩, -- SITE_ZONE_HOLD
    ⟨0x260010, 1, 0, 1, 0, 0x640000, 0, 0, 0, 0⟩, -- SITE_ZONE_DAY
    ⟨0x260014, 1, 0, 1, 0, 0xffff, 0, 0, 0, 0⟩, -- SITE_ZONE_DLEVEL
    ⟨0x260020, 1, 0, 1, 0, 0, 0xffff, 0, 0, 0⟩, -- SITE_SENSOR_SEL
    ⟨0x260024, 1, 0, 1, 0, 0, 0, 0, 0, 0⟩, -- SITE_SENSOR_STATE
    ⟨0x260028, 1, 0, 1, 0, 0, 0, 0, 0, 0⟩, -- SITE_SENSOR_VALUE
    ⟨0x260040, 1, 0, 1, 0, 0, 0, 0, 0, 0⟩, -- SITE_TEL_REPORTS
    ⟨0x260044, 1, 0, 1, 0, 0, 0, 0, 0, 0⟩, -- SITE_TEL_LEN_DROPS
    ⟨0x260048, 1, 0, 1, 0, 0, 0, 0, 0, 0⟩, -- SITE_TEL_BAD
    ⟨0x26004c, 1, 0, 1, 0, 0, 0, 0, 0, 0⟩, -- SITE_TEL_SEQ_DROPS
    ⟨0x260050, 1, 0, 1, 0, 0, 0, 0, 0, 0⟩, -- SITE_TEL_UNMATCHED
    ⟨0x260054, 1, 0, 1, 0, 0, 0, 0, 0, 0⟩, -- SITE_TEL_RATE_DROPS
    ⟨0x260058, 1, 0, 1, 0, 0, 0, 0, 0, 0⟩, -- SITE_HOLD_EXTENSIONS
    ⟨0x26005c, 1, 0, 1, 0, 0, 0, 0, 0, 0⟩] -- SITE_RDM_POLL_FAILS
/-- The registers of the block at BAR0 offset 0x270000. -/
def regRows27 : List RegRow :=
  [
    ⟨0x270000, 1, 0, 1, 0, 0, 0, 0, 0, 0⟩, -- CTL_FW_VERSION
    ⟨0x270004, 1, 0, 1, 0, 0, 0, 0, 0, 0⟩, -- CTL_FW_PROTO
    ⟨0x270008, 1, 0, 1, 0, 0, 0, 0, 0, 0⟩, -- CTL_CF_NATIVE
    ⟨0x27000c, 4, 0x4, 1, 0, 0, 0, 0, 0, 0⟩, -- CTL_CF_LIST
    ⟨0x27001c, 1, 0, 1, 0, 0, 0, 0, 0, 0⟩, -- CTL_CORES
    ⟨0x270020, 12, 0x4, 1, 0, 0, 0, 0, 0, 0⟩] -- CTL_FW_DIGEST

/-- The rows of the block an offset lies in (the MAC blocks repeat every 0x1_0000, R236). -/
def regBlock (off : Nat) : List RegRow :=
  match off / 0x10000 with
  | 0x0 => regRows00
  | 0x1 => regRows01
  | 0x2 => regRows02
  | 0x3 => regRows03
  | 0x4 => regRows04
  | 0x5 => regRows05
  | 0x6 => regRows06
  | 0x7 => regRows07
  | 0x8 => regRows08
  | 0x9 => regRows09
  | 0xa => regRows0A
  | 0xb => regRows0B
  | 0xc => regRows0C
  | 0xd => regRows0D
  | 0xe => regRows0E
  | 0xf => regRows0F
  | 0x21 => regRows21
  | 0x22 => regRows22
  | 0x23 => regRows23
  | 0x24 => regRows24
  | 0x25 => regRows25
  | 0x26 => regRows26
  | 0x27 => regRows27
  | k => if 0x10 ≤ k ∧ k ≤ 0x20 then regRows10 else []

/-- Is an offset one of a row's addresses? -/
def RegRow.covers (r : RegRow) (off : Nat) : Bool :=
  decide (r.base ≤ off) &&
    (List.range r.n2).any fun j =>
      let d := off - r.base - j * r.s2
      decide (j * r.s2 ≤ off - r.base) &&
        (if r.s1 = 0 then d == 0 else (d % r.s1 == 0 && decide (d / r.s1 < r.n1)))

/-- The row of an offset, if a register stands there. -/
def findReg (off : Nat) : Option RegRow := (regBlock off).find? (·.covers off)

/-- The reset value of the register at an offset (0 where no register stands). -/
def resetWord (off : Nat) : Word :=
  match findReg off with
  | some r => BitVec.ofNat 32 r.rst
  | none => 0

/-! Names of the registers (R) and of their fields (F), in the order of the spec. -/

abbrev R.SYS_MODE : Nat := 0x0
abbrev F.SYS_MODE_MODE : Fld := ⟨0x0, 0, 4⟩
abbrev F.SYS_MODE_PREV : Fld := ⟨0x0, 4, 4⟩
abbrev F.SYS_MODE_TRANSITIONS : Fld := ⟨0x0, 16, 16⟩
abbrev R.SYS_STATUS : Nat := 0x4
abbrev F.SYS_STATUS_HDR_VALID : Fld := ⟨0x4, 0, 1⟩
abbrev F.SYS_STATUS_STRAP_BAD : Fld := ⟨0x4, 1, 1⟩
abbrev F.SYS_STATUS_DB_FAIL : Fld := ⟨0x4, 2, 1⟩
abbrev F.SYS_STATUS_AUTH_FAIL : Fld := ⟨0x4, 3, 1⟩
abbrev F.SYS_STATUS_CFG_REFUSED : Fld := ⟨0x4, 4, 1⟩
abbrev F.SYS_STATUS_VLOW_STOP : Fld := ⟨0x4, 5, 1⟩
abbrev F.SYS_STATUS_VLOW_HOLD : Fld := ⟨0x4, 6, 1⟩
abbrev F.SYS_STATUS_PAIRED : Fld := ⟨0x4, 7, 1⟩
abbrev F.SYS_STATUS_ILK_HELD : Fld := ⟨0x4, 8, 1⟩
abbrev F.SYS_STATUS_FW_SOURCE : Fld := ⟨0x4, 9, 2⟩
abbrev R.SYS_RESET_CAUSE : Nat := 0x8
abbrev F.SYS_RESET_CAUSE_POR : Fld := ⟨0x8, 0, 1⟩
abbrev F.SYS_RESET_CAUSE_PIN : Fld := ⟨0x8, 1, 1⟩
abbrev F.SYS_RESET_CAUSE_SOFT : Fld := ⟨0x8, 2, 1⟩
abbrev F.SYS_RESET_CAUSE_WDOG : Fld := ⟨0x8, 3, 1⟩
abbrev F.SYS_RESET_CAUSE_THERM : Fld := ⟨0x8, 4, 1⟩
abbrev R.SYS_STRAPS : Nat := 0xc
abbrev F.SYS_STRAPS_BOOT : Fld := ⟨0xc, 0, 3⟩
abbrev F.SYS_STRAPS_TEST_EN : Fld := ⟨0xc, 3, 1⟩
abbrev R.SYS_RESET : Nat := 0x10
abbrev F.SYS_RESET_GO : Fld := ⟨0x10, 0, 1⟩
abbrev F.SYS_RESET_KEY : Fld := ⟨0x10, 16, 16⟩
abbrev R.SYS_T_LOAD : Nat := 0x14
abbrev F.SYS_T_LOAD_US : Fld := ⟨0x14, 0, 32⟩
abbrev R.SYS_T_CONFIGURE : Nat := 0x18
abbrev F.SYS_T_CONFIGURE_US : Fld := ⟨0x18, 0, 32⟩
abbrev R.SYS_T_ACTIVE : Nat := 0x1c
abbrev F.SYS_T_ACTIVE_US : Fld := ⟨0x1c, 0, 32⟩
abbrev R.SYS_T_LIGHT : Nat := 0x20
abbrev F.SYS_T_LIGHT_US : Fld := ⟨0x20, 0, 32⟩
abbrev R.SYS_WINDOW : Nat := 0x24
abbrev F.SYS_WINDOW_BASE : Fld := ⟨0x24, 0, 18⟩
abbrev R.SYS_CONFIG_RESULT : Nat := 0x28
abbrev F.SYS_CONFIG_RESULT_RESULT_CODE : Fld := ⟨0x28, 0, 8⟩
abbrev F.SYS_CONFIG_RESULT_RECORD : Fld := ⟨0x28, 8, 24⟩
abbrev R.SYS_FAULT : Nat := 0x2c
abbrev F.SYS_FAULT_DAYBREAK : Fld := ⟨0x2c, 0, 1⟩
abbrev F.SYS_FAULT_CONFIG : Fld := ⟨0x2c, 1, 1⟩
abbrev F.SYS_FAULT_GUARANTEE : Fld := ⟨0x2c, 2, 1⟩
abbrev F.SYS_FAULT_ECC_UNCORR : Fld := ⟨0x2c, 3, 1⟩
abbrev F.SYS_FAULT_WDOG : Fld := ⟨0x2c, 4, 1⟩
abbrev F.SYS_FAULT_THERM : Fld := ⟨0x2c, 5, 1⟩
abbrev F.SYS_FAULT_HOLD : Fld := ⟨0x2c, 6, 1⟩
abbrev R.SYS_FAULT_MASK : Nat := 0x30
abbrev F.SYS_FAULT_MASK_EN : Fld := ⟨0x30, 0, 7⟩
abbrev R.SYS_HOLD_ENTRIES : Nat := 0x34
abbrev F.SYS_HOLD_ENTRIES_COUNT : Fld := ⟨0x34, 0, 32⟩
abbrev R.SYS_HOLD_DROPS : Nat := 0x38
abbrev F.SYS_HOLD_DROPS_COUNT : Fld := ⟨0x38, 0, 32⟩
abbrev R.HDL_CMD_BASE : Nat := 0x60000
abbrev F.HDL_CMD_BASE_BASE : Fld := ⟨0x60000, 0, 18⟩
abbrev R.HDL_CMP_BASE : Nat := 0x6000c
abbrev F.HDL_CMP_BASE_BASE : Fld := ⟨0x6000c, 0, 18⟩
abbrev R.HDL_ARG_BASE : Nat := 0x60018
abbrev F.HDL_ARG_BASE_BASE : Fld := ⟨0x60018, 0, 18⟩
abbrev R.HDL_CMD_TAIL : Nat := 0x60004
abbrev F.HDL_CMD_TAIL_TAIL : Fld := ⟨0x60004, 0, 12⟩
abbrev R.HDL_CMD_HEAD : Nat := 0x60008
abbrev F.HDL_CMD_HEAD_HEAD : Fld := ⟨0x60008, 0, 12⟩
abbrev R.HDL_CMP_TAIL : Nat := 0x60010
abbrev F.HDL_CMP_TAIL_TAIL : Fld := ⟨0x60010, 0, 12⟩
abbrev F.HDL_CMP_TAIL_PHASE : Fld := ⟨0x60010, 12, 1⟩
abbrev R.HDL_CMP_HEAD : Nat := 0x60014
abbrev F.HDL_CMP_HEAD_HEAD : Fld := ⟨0x60014, 0, 12⟩
abbrev R.HDL_IRQ : Nat := 0x6001c
abbrev F.HDL_IRQ_CMP_EN : Fld := ⟨0x6001c, 0, 1⟩
abbrev F.HDL_IRQ_GOV_EN : Fld := ⟨0x6001c, 1, 1⟩
abbrev R.HDL_SPEED : Nat := 0x60020
abbrev F.HDL_SPEED_INDEX : Fld := ⟨0x60020, 0, 16⟩
abbrev F.HDL_SPEED_MIN_MON : Fld := ⟨0x60020, 16, 6⟩
abbrev R.HDL_GOV_TARGET : Nat := 0x60024
abbrev F.HDL_GOV_TARGET_TARGET : Fld := ⟨0x60024, 0, 16⟩
abbrev R.HDL_VCORE : Nat := 0x60028
abbrev F.HDL_VCORE_SET_MV : Fld := ⟨0x60028, 0, 10⟩
abbrev F.HDL_VCORE_READ_MV : Fld := ⟨0x60028, 16, 10⟩
abbrev R.HDL_STATUS : Nat := 0x6002c
abbrev F.HDL_STATUS_AT_RISK : Fld := ⟨0x6002c, 0, 1⟩
abbrev F.HDL_STATUS_BROKEN : Fld := ⟨0x6002c, 1, 1⟩
abbrev F.HDL_STATUS_VLIMIT_HI : Fld := ⟨0x6002c, 2, 1⟩
abbrev F.HDL_STATUS_VLIMIT_LO : Fld := ⟨0x6002c, 3, 1⟩
abbrev F.HDL_STATUS_AVS_FAIL : Fld := ⟨0x6002c, 4, 1⟩
abbrev F.HDL_STATUS_CMP_FULL : Fld := ⟨0x6002c, 5, 1⟩
abbrev R.HDL_HELD : Nat := 0x60030
abbrev F.HDL_HELD_SHOW : Fld := ⟨0x60030, 0, 16⟩
abbrev F.HDL_HELD_SITE : Fld := ⟨0x60030, 16, 16⟩
abbrev R.HDL_LEDGER_SEL : Nat := 0x60034
abbrev F.HDL_LEDGER_SEL_LINE : Fld := ⟨0x60034, 0, 5⟩
abbrev R.HDL_LEDGER_CAP : Nat := 0x60038
abbrev F.HDL_LEDGER_CAP_VALUE : Fld := ⟨0x60038, 0, 32⟩
abbrev R.HDL_LEDGER_USED : Nat := 0x6003c
abbrev F.HDL_LEDGER_USED_VALUE : Fld := ⟨0x6003c, 0, 32⟩
abbrev R.HDL_AT_RISK_COUNT : Nat := 0x60040
abbrev F.HDL_AT_RISK_COUNT_COUNT : Fld := ⟨0x60040, 0, 32⟩
abbrev R.HDL_BROKEN_COUNT : Nat := 0x60044
abbrev F.HDL_BROKEN_COUNT_COUNT : Fld := ⟨0x60044, 0, 32⟩
abbrev R.HDL_ADMIT_REFUSED : Nat := 0x60048
abbrev F.HDL_ADMIT_REFUSED_COUNT : Fld := ⟨0x60048, 0, 32⟩
abbrev R.HDL_CMD_DONE : Nat := 0x6004c
abbrev F.HDL_CMD_DONE_COUNT : Fld := ⟨0x6004c, 0, 32⟩
abbrev R.HDL_MGT_DROPS : Nat := 0x60050
abbrev F.HDL_MGT_DROPS_COUNT : Fld := ⟨0x60050, 0, 32⟩
abbrev R.PLN_CONFIG : Nat := 0x90000
abbrev F.PLN_CONFIG_RATE : Fld := ⟨0x90000, 0, 2⟩
abbrev F.PLN_CONFIG_SIZE : Fld := ⟨0x90000, 2, 1⟩
abbrev F.PLN_CONFIG_RANKS : Fld := ⟨0x90000, 3, 1⟩
abbrev R.PLN_TRAIN : Nat := 0x90004
abbrev F.PLN_TRAIN_CHA_OK : Fld := ⟨0x90004, 0, 1⟩
abbrev F.PLN_TRAIN_CHB_OK : Fld := ⟨0x90004, 1, 1⟩
abbrev F.PLN_TRAIN_FAIL_STEP : Fld := ⟨0x90004, 2, 3⟩
abbrev F.PLN_TRAIN_FAIL_CH : Fld := ⟨0x90004, 5, 1⟩
abbrev R.PLN_FREE_PAGES : Nat := 0x90008
abbrev F.PLN_FREE_PAGES_COUNT : Fld := ⟨0x90008, 0, 18⟩
abbrev R.PLN_POOL : Nat := 0x9000c
abbrev F.PLN_POOL_USED : Fld := ⟨0x9000c, 0, 13⟩
abbrev F.PLN_POOL_PEAK : Fld := ⟨0x9000c, 16, 13⟩
abbrev R.PLN_SCRUB : Nat := 0x90024
abbrev F.PLN_SCRUB_RATE_MBS : Fld := ⟨0x90024, 0, 16⟩
abbrev R.PLN_SCRUB_AGE : Nat := 0x90028
abbrev F.PLN_SCRUB_AGE_S : Fld := ⟨0x90028, 0, 32⟩
abbrev R.PLN_ECC_ADDR : Nat := 0x90020
abbrev F.PLN_ECC_ADDR_WORD : Fld := ⟨0x90020, 0, 31⟩
abbrev F.PLN_ECC_ADDR_VALID : Fld := ⟨0x90020, 31, 1⟩
abbrev R.PLN_BW_SHOW : Nat := 0x90030
abbrev F.PLN_BW_SHOW_MBS : Fld := ⟨0x90030, 0, 16⟩
abbrev R.PLN_BW_SITE : Nat := 0x90034
abbrev F.PLN_BW_SITE_MBS : Fld := ⟨0x90034, 0, 16⟩
abbrev R.PLN_BW_BE : Nat := 0x90038
abbrev F.PLN_BW_BE_MBS : Fld := ⟨0x90038, 0, 16⟩
abbrev R.PLN_DRAM_TEMP : Nat := 0x90048
abbrev F.PLN_DRAM_TEMP_CHA_MR4 : Fld := ⟨0x90048, 0, 3⟩
abbrev F.PLN_DRAM_TEMP_CHB_MR4 : Fld := ⟨0x90048, 4, 3⟩
abbrev F.PLN_DRAM_TEMP_DERATED : Fld := ⟨0x90048, 8, 1⟩
abbrev R.PLN_XLAT_HANDLE : Nat := 0x9004c
abbrev F.PLN_XLAT_HANDLE_HANDLE : Fld := ⟨0x9004c, 0, 32⟩
abbrev R.PLN_XLAT_ADDR : Nat := 0x90050
abbrev F.PLN_XLAT_ADDR_ADDR : Fld := ⟨0x90050, 0, 32⟩
abbrev R.PLN_XLAT_PTE_LO : Nat := 0x90054
abbrev F.PLN_XLAT_PTE_LO_VALUE : Fld := ⟨0x90054, 0, 32⟩
abbrev R.PLN_XLAT_PTE_HI : Nat := 0x90058
abbrev F.PLN_XLAT_PTE_HI_VALUE : Fld := ⟨0x90058, 0, 32⟩
abbrev R.PLN_ECC_CORR : Nat := 0x90018
abbrev F.PLN_ECC_CORR_COUNT : Fld := ⟨0x90018, 0, 32⟩
abbrev R.PLN_ECC_UNCORR : Nat := 0x9001c
abbrev F.PLN_ECC_UNCORR_COUNT : Fld := ⟨0x9001c, 0, 32⟩
abbrev R.PLN_POOL_FAIL : Nat := 0x90010
abbrev F.PLN_POOL_FAIL_COUNT : Fld := ⟨0x90010, 0, 32⟩
abbrev R.PLN_RETIRED : Nat := 0x90014
abbrev F.PLN_RETIRED_COUNT : Fld := ⟨0x90014, 0, 32⟩
abbrev R.PLN_SCRUB_PASSES : Nat := 0x9002c
abbrev F.PLN_SCRUB_PASSES_COUNT : Fld := ⟨0x9002c, 0, 32⟩
abbrev R.PLN_WIN_OOR : Nat := 0x9003c
abbrev F.PLN_WIN_OOR_COUNT : Fld := ⟨0x9003c, 0, 32⟩
abbrev R.PLN_WIN_PROT_DROPS : Nat := 0x90040
abbrev F.PLN_WIN_PROT_DROPS_COUNT : Fld := ⟨0x90040, 0, 32⟩
abbrev R.PLN_XLAT_MISS : Nat := 0x90044
abbrev F.PLN_XLAT_MISS_COUNT : Fld := ⟨0x90044, 0, 32⟩
abbrev R.SPM_BIST : Nat := 0xa0000
abbrev F.SPM_BIST_BANK_PASS : Fld := ⟨0xa0000, 0, 16⟩
abbrev F.SPM_BIST_DONE : Fld := ⟨0xa0000, 16, 1⟩
abbrev R.SPM_ECC_ADDR : Nat := 0xa000c
abbrev F.SPM_ECC_ADDR_WORD : Fld := ⟨0xa000c, 0, 20⟩
abbrev F.SPM_ECC_ADDR_VALID : Fld := ⟨0xa000c, 31, 1⟩
abbrev R.SPM_BANK (i : Nat) : Nat := 0xa0040 + 0x4 * i
abbrev F.SPM_BANK_FUSED (i : Nat) : Fld := ⟨0xa0040 + 0x4 * i, 0, 3⟩
abbrev F.SPM_BANK_SOFT (i : Nat) : Fld := ⟨0xa0040 + 0x4 * i, 3, 3⟩
abbrev F.SPM_BANK_SPARE_LEFT (i : Nat) : Fld := ⟨0xa0040 + 0x4 * i, 6, 3⟩
abbrev F.SPM_BANK_UNREPAIRED (i : Nat) : Fld := ⟨0xa0040 + 0x4 * i, 9, 1⟩
abbrev R.SPM_ECC_CORR : Nat := 0xa0004
abbrev F.SPM_ECC_CORR_COUNT : Fld := ⟨0xa0004, 0, 32⟩
abbrev R.SPM_ECC_UNCORR : Nat := 0xa0008
abbrev F.SPM_ECC_UNCORR_COUNT : Fld := ⟨0xa0008, 0, 32⟩
abbrev R.SPM_WAIT_SLOTS : Nat := 0xa0010
abbrev F.SPM_WAIT_SLOTS_COUNT : Fld := ⟨0xa0010, 0, 32⟩
abbrev R.SPM_SPLIT_ACCESSES : Nat := 0xa0014
abbrev F.SPM_SPLIT_ACCESSES_COUNT : Fld := ⟨0xa0014, 0, 32⟩
abbrev R.SCH_INBOX_WORDS : Nat := 0x70000
abbrev F.SCH_INBOX_WORDS_USED : Fld := ⟨0x70000, 0, 23⟩
abbrev R.SCH_TASK_SEL : Nat := 0x70004
abbrev F.SCH_TASK_SEL_TASK : Fld := ⟨0x70004, 0, 16⟩
abbrev R.SCH_TASK_STATE : Nat := 0x70008
abbrev F.SCH_TASK_STATE_EXISTS : Fld := ⟨0x70008, 0, 1⟩
abbrev F.SCH_TASK_STATE_QUEUED : Fld := ⟨0x70008, 1, 1⟩
abbrev F.SCH_TASK_STATE_RUNNING : Fld := ⟨0x70008, 2, 1⟩
abbrev F.SCH_TASK_STATE_GROUP_WAIT : Fld := ⟨0x70008, 3, 1⟩
abbrev F.SCH_TASK_STATE_COUNT : Fld := ⟨0x70008, 4, 11⟩
abbrev R.SCH_TASK_FLAGS : Nat := 0x7000c
abbrev F.SCH_TASK_FLAGS_VALUE : Fld := ⟨0x7000c, 0, 32⟩
abbrev R.SCH_TASK_MASK : Nat := 0x70010
abbrev F.SCH_TASK_MASK_VALUE : Fld := ⟨0x70010, 0, 32⟩
abbrev R.SCH_TASK_CFG : Nat := 0x70014
abbrev F.SCH_TASK_CFG_LEVEL : Fld := ⟨0x70014, 0, 4⟩
abbrev F.SCH_TASK_CFG_ALL : Fld := ⟨0x70014, 4, 1⟩
abbrev F.SCH_TASK_CFG_GROUPED : Fld := ⟨0x70014, 5, 1⟩
abbrev F.SCH_TASK_CFG_EXEC : Fld := ⟨0x70014, 8, 8⟩
abbrev F.SCH_TASK_CFG_GROUP : Fld := ⟨0x70014, 16, 14⟩
abbrev R.SCH_TASK_OWNER : Nat := 0x70018
abbrev F.SCH_TASK_OWNER_HANDLE : Fld := ⟨0x70018, 0, 32⟩
abbrev R.SCH_TASK_INBOX : Nat := 0x7001c
abbrev F.SCH_TASK_INBOX_LIMIT : Fld := ⟨0x7001c, 0, 11⟩
abbrev F.SCH_TASK_INBOX_HEAD : Fld := ⟨0x7001c, 16, 10⟩
abbrev R.SCH_EXEC_SEL : Nat := 0x70020
abbrev F.SCH_EXEC_SEL_EXEC : Fld := ⟨0x70020, 0, 8⟩
abbrev R.SCH_EXEC_READY : Nat := 0x70024
abbrev F.SCH_EXEC_READY_LEVELS : Fld := ⟨0x70024, 0, 16⟩
abbrev F.SCH_EXEC_READY_RUNNING : Fld := ⟨0x70024, 16, 16⟩
abbrev R.SCH_DISPATCHES : Nat := 0x70030
abbrev F.SCH_DISPATCHES_COUNT : Fld := ⟨0x70030, 0, 32⟩
abbrev R.SCH_BP_WAITS : Nat := 0x70034
abbrev F.SCH_BP_WAITS_COUNT : Fld := ⟨0x70034, 0, 32⟩
abbrev R.SCH_GROUP_WAITS : Nat := 0x70038
abbrev F.SCH_GROUP_WAITS_COUNT : Fld := ⟨0x70038, 0, 32⟩
abbrev R.QUE_POP_RING : Nat := 0x80000
abbrev F.QUE_POP_RING_RING : Fld := ⟨0x80000, 0, 10⟩
abbrev R.QUE_POP_LO : Nat := 0x80004
abbrev F.QUE_POP_LO_WORD_LO : Fld := ⟨0x80004, 0, 32⟩
abbrev R.QUE_POP_HI : Nat := 0x80008
abbrev F.QUE_POP_HI_WORD_HI : Fld := ⟨0x80008, 0, 32⟩
abbrev R.QUE_POP_STATUS : Nat := 0x8000c
abbrev F.QUE_POP_STATUS_LEFT : Fld := ⟨0x8000c, 0, 4⟩
abbrev F.QUE_POP_STATUS_IDLE : Fld := ⟨0x8000c, 4, 1⟩
abbrev F.QUE_POP_STATUS_CUT : Fld := ⟨0x8000c, 5, 1⟩
abbrev F.QUE_POP_STATUS_DENIED : Fld := ⟨0x8000c, 6, 1⟩
abbrev R.QUE_POP_CTRL : Nat := 0x80010
abbrev F.QUE_POP_CTRL_DROP_REST : Fld := ⟨0x80010, 0, 1⟩
abbrev R.QUE_PUSH_RING : Nat := 0x80020
abbrev F.QUE_PUSH_RING_RING : Fld := ⟨0x80020, 0, 10⟩
abbrev F.QUE_PUSH_RING_WORDS : Fld := ⟨0x80020, 16, 5⟩
abbrev R.QUE_PUSH_DATA_LO : Nat := 0x80024
abbrev F.QUE_PUSH_DATA_LO_HALF : Fld := ⟨0x80024, 0, 32⟩
abbrev R.QUE_PUSH_DATA_HI : Nat := 0x80028
abbrev F.QUE_PUSH_DATA_HI_HALF : Fld := ⟨0x80028, 0, 32⟩
abbrev R.QUE_PUSH_COMMIT : Nat := 0x8002c
abbrev F.QUE_PUSH_COMMIT_GO : Fld := ⟨0x8002c, 0, 1⟩
abbrev R.QUE_PUSH_STATUS : Nat := 0x80030
abbrev F.QUE_PUSH_STATUS_RESULT : Fld := ⟨0x80030, 0, 8⟩
abbrev F.QUE_PUSH_STATUS_WRITTEN : Fld := ⟨0x80030, 8, 5⟩
abbrev F.QUE_PUSH_STATUS_OPEN : Fld := ⟨0x80030, 13, 1⟩
abbrev R.QUE_STAT_SEL : Nat := 0x80040
abbrev F.QUE_STAT_SEL_RING : Fld := ⟨0x80040, 0, 10⟩
abbrev R.QUE_STAT_CFG : Nat := 0x80044
abbrev F.QUE_STAT_CFG_EXISTS : Fld := ⟨0x80044, 0, 1⟩
abbrev F.QUE_STAT_CFG_PLAIN : Fld := ⟨0x80044, 1, 1⟩
abbrev F.QUE_STAT_CFG_HOST_WRITE : Fld := ⟨0x80044, 2, 1⟩
abbrev F.QUE_STAT_CFG_HOST_CONSUMER : Fld := ⟨0x80044, 3, 1⟩
abbrev F.QUE_STAT_CFG_MARK_VALID : Fld := ⟨0x80044, 4, 1⟩
abbrev F.QUE_STAT_CFG_CONSUMER : Fld := ⟨0x80044, 8, 8⟩
abbrev F.QUE_STAT_CFG_IRQ_VEC : Fld := ⟨0x80044, 16, 6⟩
abbrev R.QUE_STAT_SIZE : Nat := 0x80048
abbrev F.QUE_STAT_SIZE_VALUE : Fld := ⟨0x80048, 0, 25⟩
abbrev R.QUE_STAT_DEPTH : Nat := 0x8004c
abbrev F.QUE_STAT_DEPTH_VALUE : Fld := ⟨0x8004c, 0, 25⟩
abbrev R.QUE_STAT_WORDS : Nat := 0x80050
abbrev F.QUE_STAT_WORDS_VALUE : Fld := ⟨0x80050, 0, 25⟩
abbrev R.QUE_STAT_LOST : Nat := 0x80054
abbrev F.QUE_STAT_LOST_COUNT : Fld := ⟨0x80054, 0, 32⟩
abbrev R.QUE_STAT_READ_LOST : Nat := 0x80058
abbrev F.QUE_STAT_READ_LOST_COUNT : Fld := ⟨0x80058, 0, 32⟩
abbrev R.QUE_STAT_FLUSHED : Nat := 0x8005c
abbrev F.QUE_STAT_FLUSHED_COUNT : Fld := ⟨0x8005c, 0, 32⟩
abbrev R.QUE_STAT_CORR : Nat := 0x80060
abbrev F.QUE_STAT_CORR_COUNT : Fld := ⟨0x80060, 0, 32⟩
abbrev R.QUE_ONCHIP_FREE : Nat := 0x80070
abbrev F.QUE_ONCHIP_FREE_WORDS : Fld := ⟨0x80070, 0, 18⟩
abbrev R.QUE_ECC_UNCORR : Nat := 0x80074
abbrev F.QUE_ECC_UNCORR_COUNT : Fld := ⟨0x80074, 0, 32⟩
abbrev R.QUE_UNROUTED : Nat := 0x80078
abbrev F.QUE_UNROUTED_COUNT : Fld := ⟨0x80078, 0, 32⟩
abbrev R.QUE_ROUTE (i : Nat) : Nat := 0x80100 + 0x4 * i
abbrev F.QUE_ROUTE_RING (i : Nat) : Fld := ⟨0x80100 + 0x4 * i, 0, 10⟩
abbrev F.QUE_ROUTE_EN (i : Nat) : Fld := ⟨0x80100 + 0x4 * i, 15, 1⟩
abbrev R.PKT_ING_STATE (n : Nat) : Nat := 0x210100 + 0x20 * n
abbrev F.PKT_ING_STATE_EXISTS (n : Nat) : Fld := ⟨0x210100 + 0x20 * n, 0, 1⟩
abbrev F.PKT_ING_STATE_JOINED (n : Nat) : Fld := ⟨0x210100 + 0x20 * n, 1, 1⟩
abbrev F.PKT_ING_STATE_LOST (n : Nat) : Fld := ⟨0x210100 + 0x20 * n, 2, 1⟩
abbrev F.PKT_ING_STATE_W (n : Nat) : Fld := ⟨0x210100 + 0x20 * n, 3, 2⟩
abbrev F.PKT_ING_STATE_C (n : Nat) : Fld := ⟨0x210100 + 0x20 * n, 5, 2⟩
abbrev F.PKT_ING_STATE_L (n : Nat) : Fld := ⟨0x210100 + 0x20 * n, 7, 2⟩
abbrev R.PKT_ING_FRAMES (n : Nat) : Nat := 0x210104 + 0x20 * n
abbrev F.PKT_ING_FRAMES_COUNT (n : Nat) : Fld := ⟨0x210104 + 0x20 * n, 0, 32⟩
abbrev R.PKT_ING_INCOMPLETE (n : Nat) : Nat := 0x210108 + 0x20 * n
abbrev F.PKT_ING_INCOMPLETE_COUNT (n : Nat) : Fld := ⟨0x210108 + 0x20 * n, 0, 32⟩
abbrev R.PKT_ING_SKIPPED (n : Nat) : Nat := 0x21010c + 0x20 * n
abbrev F.PKT_ING_SKIPPED_COUNT (n : Nat) : Fld := ⟨0x21010c + 0x20 * n, 0, 32⟩
abbrev R.PKT_ING_REPEATS (n : Nat) : Nat := 0x210110 + 0x20 * n
abbrev F.PKT_ING_REPEATS_COUNT (n : Nat) : Fld := ⟨0x210110 + 0x20 * n, 0, 32⟩
abbrev R.PKT_ING_FORMAT_DROPS (n : Nat) : Nat := 0x210114 + 0x20 * n
abbrev F.PKT_ING_FORMAT_DROPS_COUNT (n : Nat) : Fld := ⟨0x210114 + 0x20 * n, 0, 32⟩
abbrev R.PKT_ING_LEN_DROPS (n : Nat) : Nat := 0x210118 + 0x20 * n
abbrev F.PKT_ING_LEN_DROPS_COUNT (n : Nat) : Fld := ⟨0x210118 + 0x20 * n, 0, 32⟩
abbrev R.PKT_ING_SEQ_GAPS (n : Nat) : Nat := 0x21011c + 0x20 * n
abbrev F.PKT_ING_SEQ_GAPS_COUNT (n : Nat) : Fld := ⟨0x21011c + 0x20 * n, 0, 32⟩
abbrev R.RAS_COMMIT : Nat := 0x220000
abbrev F.RAS_COMMIT_LATE : Fld := ⟨0x220000, 0, 8⟩
abbrev F.RAS_COMMIT_PENDING1 : Fld := ⟨0x220000, 8, 8⟩
abbrev F.RAS_COMMIT_PENDING2 : Fld := ⟨0x220000, 16, 8⟩
abbrev R.RAS_CANVAS_STATE (n : Nat) : Nat := 0x220100 + 0x40 * n
abbrev F.RAS_CANVAS_STATE_EXISTS (n : Nat) : Fld := ⟨0x220100 + 0x40 * n, 0, 1⟩
abbrev F.RAS_CANVAS_STATE_PASS (n : Nat) : Fld := ⟨0x220100 + 0x40 * n, 1, 1⟩
abbrev F.RAS_CANVAS_STATE_PUB (n : Nat) : Fld := ⟨0x220100 + 0x40 * n, 2, 1⟩
abbrev F.RAS_CANVAS_STATE_RETIME_PENDING (n : Nat) : Fld := ⟨0x220100 + 0x40 * n, 3, 1⟩
abbrev F.RAS_CANVAS_STATE_BLANK (n : Nat) : Fld := ⟨0x220100 + 0x40 * n, 4, 1⟩
abbrev F.RAS_CANVAS_STATE_FRAME (n : Nat) : Fld := ⟨0x220100 + 0x40 * n, 16, 16⟩
abbrev R.RAS_CANVAS_RATE (n : Nat) : Nat := 0x220104 + 0x40 * n
abbrev F.RAS_CANVAS_RATE_NUM (n : Nat) : Fld := ⟨0x220104 + 0x40 * n, 0, 32⟩
abbrev R.RAS_CANVAS_TIMING (n : Nat) : Nat := 0x220108 + 0x40 * n
abbrev F.RAS_CANVAS_TIMING_BANDS (n : Nat) : Fld := ⟨0x220108 + 0x40 * n, 0, 11⟩
abbrev F.RAS_CANVAS_TIMING_TWILIGHT (n : Nat) : Fld := ⟨0x220108 + 0x40 * n, 16, 5⟩
abbrev F.RAS_CANVAS_TIMING_LEAD (n : Nat) : Fld := ⟨0x220108 + 0x40 * n, 21, 3⟩
abbrev F.RAS_CANVAS_TIMING_BLANK_SEND (n : Nat) : Fld := ⟨0x220108 + 0x40 * n, 24, 1⟩
abbrev F.RAS_CANVAS_TIMING_DOMAIN (n : Nat) : Fld := ⟨0x220108 + 0x40 * n, 25, 1⟩
abbrev F.RAS_CANVAS_TIMING_PRIMARIES (n : Nat) : Fld := ⟨0x220108 + 0x40 * n, 26, 1⟩
abbrev F.RAS_CANVAS_TIMING_DEN_1001 (n : Nat) : Fld := ⟨0x220108 + 0x40 * n, 27, 1⟩
abbrev R.RAS_CANVAS_TAIL (n : Nat) : Nat := 0x22010c + 0x40 * n
abbrev F.RAS_CANVAS_TAIL_TAIL_US (n : Nat) : Fld := ⟨0x22010c + 0x40 * n, 0, 16⟩
abbrev F.RAS_CANVAS_TAIL_TW_US (n : Nat) : Fld := ⟨0x22010c + 0x40 * n, 16, 16⟩
abbrev R.RAS_CANVAS_SAMPLES (n : Nat) : Nat := 0x220110 + 0x40 * n
abbrev F.RAS_CANVAS_SAMPLES_USED (n : Nat) : Fld := ⟨0x220110 + 0x40 * n, 0, 23⟩
abbrev R.RAS_CANVAS_MARGIN (n : Nat) : Nat := 0x220114 + 0x40 * n
abbrev F.RAS_CANVAS_MARGIN_LAST_US (n : Nat) : Fld := ⟨0x220114 + 0x40 * n, 0, 16⟩
abbrev F.RAS_CANVAS_MARGIN_MIN_US (n : Nat) : Fld := ⟨0x220114 + 0x40 * n, 16, 16⟩
abbrev R.RAS_CANVAS_FETCH_BYTES (n : Nat) : Nat := 0x220118 + 0x40 * n
abbrev F.RAS_CANVAS_FETCH_BYTES_BYTES (n : Nat) : Fld := ⟨0x220118 + 0x40 * n, 0, 32⟩
abbrev R.RAS_CANVAS_SAVED_BYTES (n : Nat) : Nat := 0x22011c + 0x40 * n
abbrev F.RAS_CANVAS_SAVED_BYTES_BYTES (n : Nat) : Fld := ⟨0x22011c + 0x40 * n, 0, 32⟩
abbrev R.RAS_CANVAS_PASSES (n : Nat) : Nat := 0x220120 + 0x40 * n
abbrev F.RAS_CANVAS_PASSES_COUNT (n : Nat) : Fld := ⟨0x220120 + 0x40 * n, 0, 32⟩
abbrev R.RAS_CANVAS_ABORTS (n : Nat) : Nat := 0x220124 + 0x40 * n
abbrev F.RAS_CANVAS_ABORTS_COUNT (n : Nat) : Fld := ⟨0x220124 + 0x40 * n, 0, 32⟩
abbrev R.RAS_CANVAS_COMMITS (n : Nat) : Nat := 0x220128 + 0x40 * n
abbrev F.RAS_CANVAS_COMMITS_COUNT (n : Nat) : Fld := ⟨0x220128 + 0x40 * n, 0, 32⟩
abbrev R.RAS_CANVAS_LATE_COMMITS (n : Nat) : Nat := 0x22012c + 0x40 * n
abbrev F.RAS_CANVAS_LATE_COMMITS_COUNT (n : Nat) : Fld := ⟨0x22012c + 0x40 * n, 0, 32⟩
abbrev R.RAS_CANVAS_POISON (n : Nat) : Nat := 0x220130 + 0x40 * n
abbrev F.RAS_CANVAS_POISON_COUNT (n : Nat) : Fld := ⟨0x220130 + 0x40 * n, 0, 32⟩
abbrev R.PKT_IN_SEL : Nat := 0x210400
abbrev F.PKT_IN_SEL_INDEX : Fld := ⟨0x210400, 0, 12⟩
abbrev F.PKT_IN_SEL_SRC : Fld := ⟨0x210400, 16, 2⟩
abbrev R.PKT_IN_STATE : Nat := 0x210404
abbrev F.PKT_IN_STATE_EXISTS : Fld := ⟨0x210404, 0, 1⟩
abbrev F.PKT_IN_STATE_STATE : Fld := ⟨0x210404, 1, 2⟩
abbrev F.PKT_IN_STATE_SOURCES : Fld := ⟨0x210404, 3, 3⟩
abbrev F.PKT_IN_STATE_WIN_PRIO : Fld := ⟨0x210404, 8, 8⟩
abbrev F.PKT_IN_STATE_UNIVERSE : Fld := ⟨0x210404, 16, 16⟩
abbrev R.PKT_IN_SRC_INFO : Nat := 0x210408
abbrev F.PKT_IN_SRC_INFO_VALID : Fld := ⟨0x210408, 0, 1⟩
abbrev F.PKT_IN_SRC_INFO_WINNER : Fld := ⟨0x210408, 1, 1⟩
abbrev F.PKT_IN_SRC_INFO_PRIORITY : Fld := ⟨0x210408, 8, 8⟩
abbrev F.PKT_IN_SRC_INFO_SEQ : Fld := ⟨0x210408, 16, 8⟩
abbrev R.PKT_IN_SRC_AGE : Nat := 0x21040c
abbrev F.PKT_IN_SRC_AGE_MS : Fld := ⟨0x21040c, 0, 16⟩
abbrev R.PKT_IN_SRC_CID (i : Nat) : Nat := 0x210410 + 0x4 * i
abbrev F.PKT_IN_SRC_CID_BYTES (i : Nat) : Fld := ⟨0x210410 + 0x4 * i, 0, 32⟩
abbrev R.PKT_IN_PACKETS : Nat := 0x210420
abbrev F.PKT_IN_PACKETS_COUNT : Fld := ⟨0x210420, 0, 32⟩
abbrev R.PKT_IN_SEQ_DROPS : Nat := 0x210424
abbrev F.PKT_IN_SEQ_DROPS_COUNT : Fld := ⟨0x210424, 0, 32⟩
abbrev R.PKT_IN_SRC_LOSSES : Nat := 0x210428
abbrev F.PKT_IN_SRC_LOSSES_COUNT : Fld := ⟨0x210428, 0, 32⟩
abbrev R.PKT_IN_SRC_OVERFLOW : Nat := 0x21042c
abbrev F.PKT_IN_SRC_OVERFLOW_COUNT : Fld := ⟨0x21042c, 0, 32⟩
abbrev R.PKT_IN_TERMINATED : Nat := 0x210430
abbrev F.PKT_IN_TERMINATED_COUNT : Fld := ⟨0x210430, 0, 32⟩
abbrev R.PKT_RX_LEN_DROPS : Nat := 0x210440
abbrev F.PKT_RX_LEN_DROPS_COUNT : Fld := ⟨0x210440, 0, 32⟩
abbrev R.PKT_RX_IGNORED : Nat := 0x210444
abbrev F.PKT_RX_IGNORED_COUNT : Fld := ⟨0x210444, 0, 32⟩
abbrev R.PKT_RX_UNMATCHED : Nat := 0x210448
abbrev F.PKT_RX_UNMATCHED_COUNT : Fld := ⟨0x210448, 0, 32⟩
abbrev R.PKT_RX_PRIO_DROPS : Nat := 0x21044c
abbrev F.PKT_RX_PRIO_DROPS_COUNT : Fld := ⟨0x21044c, 0, 32⟩
abbrev R.PKT_RX_PREVIEW : Nat := 0x210450
abbrev F.PKT_RX_PREVIEW_COUNT : Fld := ⟨0x210450, 0, 32⟩
abbrev R.PKT_RX_OTHER_SC : Nat := 0x210454
abbrev F.PKT_RX_OTHER_SC_COUNT : Fld := ⟨0x210454, 0, 32⟩
abbrev R.FIX_LOAD : Nat := 0x230000
abbrev F.FIX_LOAD_KUNITS : Fld := ⟨0x230000, 0, 16⟩
abbrev R.FIX_SEL : Nat := 0x230004
abbrev F.FIX_SEL_INDEX : Fld := ⟨0x230004, 0, 17⟩
abbrev R.FIX_FIX_STATE : Nat := 0x230008
abbrev F.FIX_FIX_STATE_EXISTS : Fld := ⟨0x230008, 0, 1⟩
abbrev F.FIX_FIX_STATE_CLASS : Fld := ⟨0x230008, 1, 1⟩
abbrev F.FIX_FIX_STATE_SCALED : Fld := ⟨0x230008, 2, 1⟩
abbrev F.FIX_FIX_STATE_REPEATED : Fld := ⟨0x230008, 3, 1⟩
abbrev F.FIX_FIX_STATE_LAMPS : Fld := ⟨0x230008, 16, 8⟩
abbrev R.FIX_FIX_UNIV : Nat := 0x23000c
abbrev F.FIX_FIX_UNIV_HANDLE : Fld := ⟨0x23000c, 0, 32⟩
abbrev R.FIX_LAMP_SEL : Nat := 0x230010
abbrev F.FIX_LAMP_SEL_LAMP : Fld := ⟨0x230010, 0, 8⟩
abbrev R.FIX_MATRIX (i : Nat) : Nat := 0x230014 + 0x4 * i
abbrev F.FIX_MATRIX_LO (i : Nat) : Fld := ⟨0x230014 + 0x4 * i, 0, 16⟩
abbrev F.FIX_MATRIX_HI (i : Nat) : Fld := ⟨0x230014 + 0x4 * i, 16, 16⟩
abbrev R.FIX_TABLES : Nat := 0x23002c
abbrev F.FIX_TABLES_BIN : Fld := ⟨0x23002c, 0, 16⟩
abbrev R.FIX_CURVES_LO : Nat := 0x230030
abbrev F.FIX_CURVES_LO_MAP : Fld := ⟨0x230030, 0, 32⟩
abbrev R.FIX_CURVES_HI : Nat := 0x230034
abbrev F.FIX_CURVES_HI_MAP : Fld := ⟨0x230034, 0, 32⟩
abbrev R.FIX_STALE_FRAMES : Nat := 0x230040
abbrev F.FIX_STALE_FRAMES_COUNT : Fld := ⟨0x230040, 0, 32⟩
abbrev R.FIX_POISON : Nat := 0x230044
abbrev F.FIX_POISON_COUNT : Fld := ⟨0x230044, 0, 32⟩
abbrev R.FIX_CLAMPS : Nat := 0x230048
abbrev F.FIX_CLAMPS_COUNT : Fld := ⟨0x230048, 0, 32⟩
abbrev R.FIX_MATRIX_SCALED : Nat := 0x23004c
abbrev F.FIX_MATRIX_SCALED_COUNT : Fld := ⟨0x23004c, 0, 32⟩
abbrev R.FIX_DEFAULTS : Nat := 0x230050
abbrev F.FIX_DEFAULTS_COUNT : Fld := ⟨0x230050, 0, 32⟩
abbrev R.PKT_TX_CFG : Nat := 0x210800
abbrev F.PKT_TX_CFG_DSCP_SHOW : Fld := ⟨0x210800, 0, 6⟩
abbrev F.PKT_TX_CFG_DSCP_SITE : Fld := ⟨0x210800, 8, 6⟩
abbrev F.PKT_TX_CFG_TTL : Fld := ⟨0x210800, 16, 8⟩
abbrev R.PKT_TX_SEL : Nat := 0x210804
abbrev F.PKT_TX_SEL_INDEX : Fld := ⟨0x210804, 0, 15⟩
abbrev R.PKT_TX_STATE : Nat := 0x210808
abbrev F.PKT_TX_STATE_EXISTS : Fld := ⟨0x210808, 0, 1⟩
abbrev F.PKT_TX_STATE_STATE : Fld := ⟨0x210808, 1, 2⟩
abbrev F.PKT_TX_STATE_MODE : Fld := ⟨0x210808, 3, 1⟩
abbrev F.PKT_TX_STATE_CLASS : Fld := ⟨0x210808, 4, 1⟩
abbrev F.PKT_TX_STATE_REMOTE : Fld := ⟨0x210808, 5, 1⟩
abbrev F.PKT_TX_STATE_SEQ : Fld := ⟨0x210808, 8, 8⟩
abbrev F.PKT_TX_STATE_NUMBER : Fld := ⟨0x210808, 16, 16⟩
abbrev R.PKT_TX_DEST : Nat := 0x21080c
abbrev F.PKT_TX_DEST_DEST : Fld := ⟨0x21080c, 0, 5⟩
abbrev F.PKT_TX_DEST_VALLEY : Fld := ⟨0x21080c, 8, 8⟩
abbrev F.PKT_TX_DEST_SYNC_ADDR : Fld := ⟨0x21080c, 16, 16⟩
abbrev R.PKT_TX_LAST : Nat := 0x210810
abbrev F.PKT_TX_LAST_FRAME : Fld := ⟨0x210810, 0, 32⟩
abbrev R.PKT_TXP_SLACK (p : Nat) : Nat := 0x210b00 + 0x4 * p
abbrev F.PKT_TXP_SLACK_LAST_US (p : Nat) : Fld := ⟨0x210b00 + 0x4 * p, 0, 16⟩
abbrev F.PKT_TXP_SLACK_MIN_US (p : Nat) : Fld := ⟨0x210b00 + 0x4 * p, 16, 16⟩
abbrev R.PKT_TXP_PACKETS (p : Nat) : Nat := 0x210900 + 0x20 * p
abbrev F.PKT_TXP_PACKETS_COUNT (p : Nat) : Fld := ⟨0x210900 + 0x20 * p, 0, 32⟩
abbrev R.PKT_TXP_SYNCS (p : Nat) : Nat := 0x210904 + 0x20 * p
abbrev F.PKT_TXP_SYNCS_COUNT (p : Nat) : Fld := ⟨0x210904 + 0x20 * p, 0, 32⟩
abbrev R.PKT_TXP_LATE (p : Nat) : Nat := 0x210908 + 0x20 * p
abbrev F.PKT_TXP_LATE_COUNT (p : Nat) : Fld := ⟨0x210908 + 0x20 * p, 0, 32⟩
abbrev R.PKT_TXP_LATE_DROPS (p : Nat) : Nat := 0x21090c + 0x20 * p
abbrev F.PKT_TXP_LATE_DROPS_COUNT (p : Nat) : Fld := ⟨0x21090c + 0x20 * p, 0, 32⟩
abbrev R.PKT_TXP_REMOTE_LATE (p : Nat) : Nat := 0x210910 + 0x20 * p
abbrev F.PKT_TXP_REMOTE_LATE_COUNT (p : Nat) : Fld := ⟨0x210910 + 0x20 * p, 0, 32⟩
abbrev R.PKT_TXP_UNRESOLVED (p : Nat) : Nat := 0x210914 + 0x20 * p
abbrev F.PKT_TXP_UNRESOLVED_COUNT (p : Nat) : Fld := ⟨0x210914 + 0x20 * p, 0, 32⟩
abbrev R.PKT_TXP_DISCOVERY (p : Nat) : Nat := 0x210918 + 0x20 * p
abbrev F.PKT_TXP_DISCOVERY_COUNT (p : Nat) : Fld := ⟨0x210918 + 0x20 * p, 0, 32⟩
abbrev R.PKT_TXP_TERMINATED (p : Nat) : Nat := 0x21091c + 0x20 * p
abbrev F.PKT_TXP_TERMINATED_COUNT (p : Nat) : Fld := ⟨0x21091c + 0x20 * p, 0, 32⟩
abbrev R.DMX_UID_MFR : Nat := 0x250800
abbrev F.DMX_UID_MFR_VALUE : Fld := ⟨0x250800, 0, 32⟩
abbrev R.DMX_UID_DEV : Nat := 0x250804
abbrev F.DMX_UID_DEV_VALUE : Fld := ⟨0x250804, 0, 32⟩
abbrev R.DMX_LINE_STATE (n : Nat) : Nat := 0x250000 + 0x400 * n
abbrev F.DMX_LINE_STATE_EXISTS (n : Nat) : Fld := ⟨0x250000 + 0x400 * n, 0, 1⟩
abbrev F.DMX_LINE_STATE_SENDING (n : Nat) : Fld := ⟨0x250000 + 0x400 * n, 1, 1⟩
abbrev F.DMX_LINE_STATE_SHORT (n : Nat) : Fld := ⟨0x250000 + 0x400 * n, 2, 1⟩
abbrev F.DMX_LINE_STATE_RDM_BUSY (n : Nat) : Fld := ⟨0x250000 + 0x400 * n, 3, 1⟩
abbrev F.DMX_LINE_STATE_RESPONDERS (n : Nat) : Fld := ⟨0x250000 + 0x400 * n, 16, 10⟩
abbrev R.DMX_LINE_TIMING (n : Nat) : Nat := 0x250004 + 0x400 * n
abbrev F.DMX_LINE_TIMING_BREAK_US (n : Nat) : Fld := ⟨0x250004 + 0x400 * n, 0, 10⟩
abbrev F.DMX_LINE_TIMING_MAB_US (n : Nat) : Fld := ⟨0x250004 + 0x400 * n, 10, 10⟩
abbrev F.DMX_LINE_TIMING_MBS_US (n : Nat) : Fld := ⟨0x250004 + 0x400 * n, 20, 8⟩
abbrev R.DMX_LINE_PERIOD (n : Nat) : Nat := 0x250008 + 0x400 * n
abbrev F.DMX_LINE_PERIOD_LAST_US (n : Nat) : Fld := ⟨0x250008 + 0x400 * n, 0, 16⟩
abbrev F.DMX_LINE_PERIOD_MAX_US (n : Nat) : Fld := ⟨0x250008 + 0x400 * n, 16, 16⟩
abbrev R.DMX_LINE_DISC (n : Nat) : Nat := 0x25000c + 0x400 * n
abbrev F.DMX_LINE_DISC_INTERVAL_S (n : Nat) : Fld := ⟨0x25000c + 0x400 * n, 0, 16⟩
abbrev F.DMX_LINE_DISC_GO (n : Nat) : Fld := ⟨0x25000c + 0x400 * n, 16, 1⟩
abbrev R.DMX_LINE_MB_UID_HI (n : Nat) : Nat := 0x250010 + 0x400 * n
abbrev F.DMX_LINE_MB_UID_HI_VALUE (n : Nat) : Fld := ⟨0x250010 + 0x400 * n, 0, 32⟩
abbrev R.DMX_LINE_MB_UID_LO (n : Nat) : Nat := 0x250014 + 0x400 * n
abbrev F.DMX_LINE_MB_UID_LO_VALUE (n : Nat) : Fld := ⟨0x250014 + 0x400 * n, 0, 32⟩
abbrev R.DMX_LINE_MB_REQ (n : Nat) : Nat := 0x250018 + 0x400 * n
abbrev F.DMX_LINE_MB_REQ_CC (n : Nat) : Fld := ⟨0x250018 + 0x400 * n, 0, 8⟩
abbrev F.DMX_LINE_MB_REQ_PID (n : Nat) : Fld := ⟨0x250018 + 0x400 * n, 8, 16⟩
abbrev F.DMX_LINE_MB_REQ_PDL (n : Nat) : Fld := ⟨0x250018 + 0x400 * n, 24, 8⟩
abbrev R.DMX_LINE_MB_CTRL (n : Nat) : Nat := 0x25001c + 0x400 * n
abbrev F.DMX_LINE_MB_CTRL_GO (n : Nat) : Fld := ⟨0x25001c + 0x400 * n, 0, 1⟩
abbrev F.DMX_LINE_MB_CTRL_BUSY (n : Nat) : Fld := ⟨0x25001c + 0x400 * n, 1, 1⟩
abbrev F.DMX_LINE_MB_CTRL_DONE (n : Nat) : Fld := ⟨0x25001c + 0x400 * n, 2, 1⟩
abbrev F.DMX_LINE_MB_CTRL_STATUS (n : Nat) : Fld := ⟨0x25001c + 0x400 * n, 4, 4⟩
abbrev F.DMX_LINE_MB_CTRL_RESP_PDL (n : Nat) : Fld := ⟨0x25001c + 0x400 * n, 8, 8⟩
abbrev F.DMX_LINE_MB_CTRL_DETAIL (n : Nat) : Fld := ⟨0x25001c + 0x400 * n, 16, 16⟩
abbrev R.DMX_LINE_MB_DATA (n : Nat) (i : Nat) : Nat := 0x250040 + 0x400 * n + 0x4 * i
abbrev F.DMX_LINE_MB_DATA_BYTES (n : Nat) (i : Nat) : Fld := ⟨0x250040 + 0x400 * n + 0x4 * i, 0, 32⟩
abbrev R.DMX_LINE_PACKETS (n : Nat) : Nat := 0x250020 + 0x400 * n
abbrev F.DMX_LINE_PACKETS_COUNT (n : Nat) : Fld := ⟨0x250020 + 0x400 * n, 0, 32⟩
abbrev R.DMX_LINE_RDM_REQUESTS (n : Nat) : Nat := 0x250024 + 0x400 * n
abbrev F.DMX_LINE_RDM_REQUESTS_COUNT (n : Nat) : Fld := ⟨0x250024 + 0x400 * n, 0, 32⟩
abbrev R.DMX_LINE_RDM_TIMEOUTS (n : Nat) : Nat := 0x250028 + 0x400 * n
abbrev F.DMX_LINE_RDM_TIMEOUTS_COUNT (n : Nat) : Fld := ⟨0x250028 + 0x400 * n, 0, 32⟩
abbrev R.DMX_LINE_RDM_CHECKSUM (n : Nat) : Nat := 0x25002c + 0x400 * n
abbrev F.DMX_LINE_RDM_CHECKSUM_COUNT (n : Nat) : Fld := ⟨0x25002c + 0x400 * n, 0, 32⟩
abbrev R.DMX_LINE_DISC_OVERFLOW (n : Nat) : Nat := 0x250030 + 0x400 * n
abbrev F.DMX_LINE_DISC_OVERFLOW_COUNT (n : Nat) : Fld := ⟨0x250030 + 0x400 * n, 0, 32⟩
abbrev R.PXP_STATE (n : Nat) : Nat := 0x240000 + 0x1000 * n
abbrev F.PXP_STATE_EXISTS (n : Nat) : Fld := ⟨0x240000 + 0x1000 * n, 0, 1⟩
abbrev F.PXP_STATE_MODE (n : Nat) : Fld := ⟨0x240000 + 0x1000 * n, 1, 2⟩
abbrev F.PXP_STATE_SCANNING (n : Nat) : Fld := ⟨0x240000 + 0x1000 * n, 3, 1⟩
abbrev F.PXP_STATE_BLANK (n : Nat) : Fld := ⟨0x240000 + 0x1000 * n, 4, 1⟩
abbrev F.PXP_STATE_DISABLED (n : Nat) : Fld := ⟨0x240000 + 0x1000 * n, 5, 1⟩
abbrev F.PXP_STATE_PIN_FAULT (n : Nat) : Fld := ⟨0x240000 + 0x1000 * n, 6, 1⟩
abbrev F.PXP_STATE_MIN_ON_REFUSED (n : Nat) : Fld := ⟨0x240000 + 0x1000 * n, 7, 1⟩
abbrev F.PXP_STATE_FRAME (n : Nat) : Fld := ⟨0x240000 + 0x1000 * n, 16, 16⟩
abbrev R.PXP_SCAN (n : Nat) : Nat := 0x240004 + 0x1000 * n
abbrev F.PXP_SCAN_S (n : Nat) : Fld := ⟨0x240004 + 0x1000 * n, 0, 8⟩
abbrev F.PXP_SCAN_G (n : Nat) : Fld := ⟨0x240004 + 0x1000 * n, 8, 5⟩
abbrev F.PXP_SCAN_R (n : Nat) : Fld := ⟨0x240004 + 0x1000 * n, 16, 7⟩
abbrev F.PXP_SCAN_CK_DIV (n : Nat) : Fld := ⟨0x240004 + 0x1000 * n, 24, 8⟩
abbrev R.PXP_CYCLE (n : Nat) : Nat := 0x240008 + 0x1000 * n
abbrev F.PXP_CYCLE_CYCLE_US (n : Nat) : Fld := ⟨0x240008 + 0x1000 * n, 0, 16⟩
abbrev F.PXP_CYCLE_SLACK_US (n : Nat) : Fld := ⟨0x240008 + 0x1000 * n, 16, 16⟩
abbrev R.PXP_START_ERR (n : Nat) : Nat := 0x24000c + 0x1000 * n
abbrev F.PXP_START_ERR_LAST_NS (n : Nat) : Fld := ⟨0x24000c + 0x1000 * n, 0, 16⟩
abbrev F.PXP_START_ERR_MAX_NS (n : Nat) : Fld := ⟨0x24000c + 0x1000 * n, 16, 16⟩
abbrev R.PXP_DIAG_MIN_ON (n : Nat) : Nat := 0x240010 + 0x1000 * n
abbrev F.PXP_DIAG_MIN_ON_NS (n : Nat) : Fld := ⟨0x240010 + 0x1000 * n, 0, 16⟩
abbrev R.PXP_PROBE_EVERY (n : Nat) : Nat := 0x240014 + 0x1000 * n
abbrev F.PXP_PROBE_EVERY_FRAMES (n : Nat) : Fld := ⟨0x240014 + 0x1000 * n, 0, 16⟩
abbrev R.PXP_SHORT (n : Nat) : Nat := 0x240018 + 0x1000 * n
abbrev F.PXP_SHORT_PINS (n : Nat) : Fld := ⟨0x240018 + 0x1000 * n, 0, 10⟩
abbrev F.PXP_SHORT_NEXT (n : Nat) : Fld := ⟨0x240018 + 0x1000 * n, 10, 1⟩
abbrev F.PXP_SHORT_DONE (n : Nat) : Fld := ⟨0x240018 + 0x1000 * n, 11, 1⟩
abbrev R.PXP_ROTATION (n : Nat) : Nat := 0x24001c + 0x1000 * n
abbrev F.PXP_ROTATION_RB_LINE (n : Nat) : Fld := ⟨0x24001c + 0x1000 * n, 0, 6⟩
abbrev F.PXP_ROTATION_RB_LANE (n : Nat) : Fld := ⟨0x24001c + 0x1000 * n, 6, 2⟩
abbrev F.PXP_ROTATION_PROBE_LINE (n : Nat) : Fld := ⟨0x24001c + 0x1000 * n, 8, 6⟩
abbrev R.PXP_FAULT_SEL (n : Nat) : Nat := 0x240020 + 0x1000 * n
abbrev F.PXP_FAULT_SEL_PIXEL (n : Nat) : Fld := ⟨0x240020 + 0x1000 * n, 0, 16⟩
abbrev F.PXP_FAULT_SEL_CHANNEL (n : Nat) : Fld := ⟨0x240020 + 0x1000 * n, 16, 2⟩
abbrev R.PXP_FAULT_INFO (n : Nat) : Nat := 0x240024 + 0x1000 * n
abbrev F.PXP_FAULT_INFO_STATE (n : Nat) : Fld := ⟨0x240024 + 0x1000 * n, 0, 2⟩
abbrev F.PXP_FAULT_INFO_DIM (n : Nat) : Fld := ⟨0x240024 + 0x1000 * n, 2, 1⟩
abbrev F.PXP_FAULT_INFO_RIDE (n : Nat) : Fld := ⟨0x240024 + 0x1000 * n, 3, 1⟩
abbrev F.PXP_FAULT_INFO_AGE (n : Nat) : Fld := ⟨0x240024 + 0x1000 * n, 16, 16⟩
abbrev R.PXP_OPEN_NOW (n : Nat) : Nat := 0x240028 + 0x1000 * n
abbrev F.PXP_OPEN_NOW_COUNT (n : Nat) : Fld := ⟨0x240028 + 0x1000 * n, 0, 19⟩
abbrev R.PXP_SHORT_NOW (n : Nat) : Nat := 0x24002c + 0x1000 * n
abbrev F.PXP_SHORT_NOW_COUNT (n : Nat) : Fld := ⟨0x24002c + 0x1000 * n, 0, 19⟩
abbrev R.PXP_DIM_NOW (n : Nat) : Nat := 0x240030 + 0x1000 * n
abbrev F.PXP_DIM_NOW_COUNT (n : Nat) : Fld := ⟨0x240030 + 0x1000 * n, 0, 19⟩
abbrev R.PXP_FRAMES (n : Nat) : Nat := 0x240040 + 0x1000 * n
abbrev F.PXP_FRAMES_COUNT (n : Nat) : Fld := ⟨0x240040 + 0x1000 * n, 0, 32⟩
abbrev R.PXP_REPEATS (n : Nat) : Nat := 0x240044 + 0x1000 * n
abbrev F.PXP_REPEATS_COUNT (n : Nat) : Fld := ⟨0x240044 + 0x1000 * n, 0, 32⟩
abbrev R.PXP_FILL_LATE (n : Nat) : Nat := 0x240048 + 0x1000 * n
abbrev F.PXP_FILL_LATE_COUNT (n : Nat) : Fld := ⟨0x240048 + 0x1000 * n, 0, 32⟩
abbrev R.PXP_BLANKS (n : Nat) : Nat := 0x24004c + 0x1000 * n
abbrev F.PXP_BLANKS_COUNT (n : Nat) : Fld := ⟨0x24004c + 0x1000 * n, 0, 32⟩
abbrev R.PXP_READBACKS (n : Nat) : Nat := 0x240050 + 0x1000 * n
abbrev F.PXP_READBACKS_COUNT (n : Nat) : Fld := ⟨0x240050 + 0x1000 * n, 0, 32⟩
abbrev R.PXP_PROBES (n : Nat) : Nat := 0x240054 + 0x1000 * n
abbrev F.PXP_PROBES_COUNT (n : Nat) : Fld := ⟨0x240054 + 0x1000 * n, 0, 32⟩
abbrev R.PXP_LOCATES (n : Nat) : Nat := 0x240058 + 0x1000 * n
abbrev F.PXP_LOCATES_COUNT (n : Nat) : Fld := ⟨0x240058 + 0x1000 * n, 0, 32⟩
abbrev R.PXP_INTERMITTENT (n : Nat) : Nat := 0x24005c + 0x1000 * n
abbrev F.PXP_INTERMITTENT_COUNT (n : Nat) : Fld := ⟨0x24005c + 0x1000 * n, 0, 32⟩
abbrev R.PXP_START_LATE (n : Nat) : Nat := 0x240060 + 0x1000 * n
abbrev F.PXP_START_LATE_COUNT (n : Nat) : Fld := ⟨0x240060 + 0x1000 * n, 0, 32⟩
abbrev R.PXP_ITEMS_SUPPRESSED (n : Nat) : Nat := 0x240064 + 0x1000 * n
abbrev F.PXP_ITEMS_SUPPRESSED_COUNT (n : Nat) : Fld := ⟨0x240064 + 0x1000 * n, 0, 32⟩
abbrev R.MAC_CFG (n : Nat) : Nat := 0x100000 + 0x10000 * n
abbrev F.MAC_CFG_MODE (n : Nat) : Fld := ⟨0x100000 + 0x10000 * n, 0, 3⟩
abbrev F.MAC_CFG_SPEED (n : Nat) : Fld := ⟨0x100000 + 0x10000 * n, 3, 2⟩
abbrev F.MAC_CFG_PREEMPT (n : Nat) : Fld := ⟨0x100000 + 0x10000 * n, 5, 1⟩
abbrev F.MAC_CFG_AN (n : Nat) : Fld := ⟨0x100000 + 0x10000 * n, 6, 1⟩
abbrev F.MAC_CFG_TX_INV (n : Nat) : Fld := ⟨0x100000 + 0x10000 * n, 7, 1⟩
abbrev F.MAC_CFG_RX_INV (n : Nat) : Fld := ⟨0x100000 + 0x10000 * n, 8, 1⟩
abbrev F.MAC_CFG_MAX_FRAME (n : Nat) : Fld := ⟨0x100000 + 0x10000 * n, 16, 14⟩
abbrev R.MAC_CTRL (n : Nat) : Nat := 0x100004 + 0x10000 * n
abbrev F.MAC_CTRL_PAUSE_EN (n : Nat) : Fld := ⟨0x100004 + 0x10000 * n, 0, 1⟩
abbrev F.MAC_CTRL_VERIFY_RESTART (n : Nat) : Fld := ⟨0x100004 + 0x10000 * n, 1, 1⟩
abbrev F.MAC_CTRL_AN_RESTART (n : Nat) : Fld := ⟨0x100004 + 0x10000 * n, 2, 1⟩
abbrev R.MAC_STATUS (n : Nat) : Nat := 0x100008 + 0x10000 * n
abbrev F.MAC_STATUS_LINK (n : Nat) : Fld := ⟨0x100008 + 0x10000 * n, 0, 2⟩
abbrev F.MAC_STATUS_VERIFY (n : Nat) : Fld := ⟨0x100008 + 0x10000 * n, 2, 3⟩
abbrev F.MAC_STATUS_PAUSED (n : Nat) : Fld := ⟨0x100008 + 0x10000 * n, 5, 1⟩
abbrev F.MAC_STATUS_RF_RX (n : Nat) : Fld := ⟨0x100008 + 0x10000 * n, 6, 1⟩
abbrev F.MAC_STATUS_LOOP_TEST (n : Nat) : Fld := ⟨0x100008 + 0x10000 * n, 7, 1⟩
abbrev F.MAC_STATUS_LP_ABILITY (n : Nat) : Fld := ⟨0x100008 + 0x10000 * n, 16, 16⟩
abbrev R.MAC_ADDR_HI (n : Nat) : Nat := 0x10000c + 0x10000 * n
abbrev F.MAC_ADDR_HI_BYTES (n : Nat) : Fld := ⟨0x10000c + 0x10000 * n, 0, 32⟩
abbrev R.MAC_ADDR_LO (n : Nat) : Nat := 0x100010 + 0x10000 * n
abbrev F.MAC_ADDR_LO_BYTES (n : Nat) : Fld := ⟨0x100010 + 0x10000 * n, 0, 32⟩
abbrev R.MAC_IPV4 (n : Nat) : Nat := 0x100014 + 0x10000 * n
abbrev F.MAC_IPV4_ADDR (n : Nat) : Fld := ⟨0x100014 + 0x10000 * n, 0, 32⟩
abbrev R.MAC_GATEWAY (n : Nat) : Nat := 0x10001c + 0x10000 * n
abbrev F.MAC_GATEWAY_ADDR (n : Nat) : Fld := ⟨0x10001c + 0x10000 * n, 0, 32⟩
abbrev R.MAC_IP_CFG (n : Nat) : Nat := 0x100018 + 0x10000 * n
abbrev F.MAC_IP_CFG_PREFIX (n : Nat) : Fld := ⟨0x100018 + 0x10000 * n, 0, 5⟩
abbrev F.MAC_IP_CFG_VID (n : Nat) : Fld := ⟨0x100018 + 0x10000 * n, 16, 12⟩
abbrev F.MAC_IP_CFG_TAGGED (n : Nat) : Fld := ⟨0x100018 + 0x10000 * n, 31, 1⟩
abbrev R.MAC_RX_RING (n : Nat) : Nat := 0x100020 + 0x10000 * n
abbrev F.MAC_RX_RING_BUFFERS (n : Nat) : Fld := ⟨0x100020 + 0x10000 * n, 0, 14⟩
abbrev F.MAC_RX_RING_FREE (n : Nat) : Fld := ⟨0x100020 + 0x10000 * n, 16, 14⟩
abbrev R.MAC_PREEMPT (n : Nat) : Nat := 0x100024 + 0x10000 * n
abbrev F.MAC_PREEMPT_VERIFY_MS (n : Nat) : Fld := ⟨0x100024 + 0x10000 * n, 0, 8⟩
abbrev F.MAC_PREEMPT_ATTEMPTS (n : Nat) : Fld := ⟨0x100024 + 0x10000 * n, 8, 3⟩
abbrev R.MAC_PAUSE_LEFT (n : Nat) : Nat := 0x100028 + 0x10000 * n
abbrev F.MAC_PAUSE_LEFT_QUANTA (n : Nat) : Fld := ⟨0x100028 + 0x10000 * n, 0, 16⟩
abbrev R.MAC_GROUPS (n : Nat) : Nat := 0x10002c + 0x10000 * n
abbrev F.MAC_GROUPS_USED (n : Nat) : Fld := ⟨0x10002c + 0x10000 * n, 0, 13⟩
abbrev R.MAC_SNAP (n : Nat) : Nat := 0x100030 + 0x10000 * n
abbrev F.MAC_SNAP_GO (n : Nat) : Fld := ⟨0x100030 + 0x10000 * n, 0, 1⟩
abbrev F.MAC_SNAP_ALL (n : Nat) : Fld := ⟨0x100030 + 0x10000 * n, 1, 1⟩
abbrev F.MAC_SNAP_DONE (n : Nat) : Fld := ⟨0x100030 + 0x10000 * n, 2, 1⟩
abbrev R.MAC_SNAP_S (n : Nat) : Nat := 0x100034 + 0x10000 * n
abbrev F.MAC_SNAP_S_VALUE (n : Nat) : Fld := ⟨0x100034 + 0x10000 * n, 0, 32⟩
abbrev R.MAC_SNAP_NS (n : Nat) : Nat := 0x100038 + 0x10000 * n
abbrev F.MAC_SNAP_NS_VALUE (n : Nat) : Fld := ⟨0x100038 + 0x10000 * n, 0, 32⟩
abbrev R.MAC_CNT_LO (n : Nat) (i : Nat) : Nat := 0x100100 + 0x10000 * n + 0x8 * i
abbrev F.MAC_CNT_LO_COUNT (n : Nat) (i : Nat) : Fld := ⟨0x100100 + 0x10000 * n + 0x8 * i, 0, 32⟩
abbrev R.MAC_CNT_HI (n : Nat) (i : Nat) : Nat := 0x100104 + 0x10000 * n + 0x8 * i
abbrev F.MAC_CNT_HI_COUNT (n : Nat) (i : Nat) : Fld := ⟨0x100104 + 0x10000 * n + 0x8 * i, 0, 32⟩
abbrev R.MAC_SNAP_LO (n : Nat) (i : Nat) : Nat := 0x100400 + 0x10000 * n + 0x8 * i
abbrev F.MAC_SNAP_LO_COUNT (n : Nat) (i : Nat) : Fld := ⟨0x100400 + 0x10000 * n + 0x8 * i, 0, 32⟩
abbrev R.MAC_SNAP_HI (n : Nat) (i : Nat) : Nat := 0x100404 + 0x10000 * n + 0x8 * i
abbrev F.MAC_SNAP_HI_COUNT (n : Nat) (i : Nat) : Fld := ⟨0x100404 + 0x10000 * n + 0x8 * i, 0, 32⟩
abbrev R.TIM_STATUS : Nat := 0xc0000
abbrev F.TIM_STATUS_SREF_LOST : Fld := ⟨0xc0000, 0, 1⟩
abbrev F.TIM_STATUS_SREF_EVENT : Fld := ⟨0xc0000, 1, 1⟩
abbrev R.TIM_LATCH : Nat := 0xc0004
abbrev F.TIM_LATCH_GO : Fld := ⟨0xc0004, 0, 1⟩
abbrev R.TIM_RAW0 : Nat := 0xc0008
abbrev F.TIM_RAW0_VALUE : Fld := ⟨0xc0008, 0, 32⟩
abbrev R.TIM_RAW1 : Nat := 0xc000c
abbrev F.TIM_RAW1_VALUE : Fld := ⟨0xc000c, 0, 32⟩
abbrev R.TIM_RAW2 : Nat := 0xc0010
abbrev F.TIM_RAW2_VALUE : Fld := ⟨0xc0010, 0, 32⟩
abbrev R.TIM_DOM_S_LO (d : Nat) : Nat := 0xc0020 + 0x40 * d
abbrev F.TIM_DOM_S_LO_VALUE (d : Nat) : Fld := ⟨0xc0020 + 0x40 * d, 0, 32⟩
abbrev R.TIM_DOM_S_HI (d : Nat) : Nat := 0xc0024 + 0x40 * d
abbrev F.TIM_DOM_S_HI_VALUE (d : Nat) : Fld := ⟨0xc0024 + 0x40 * d, 0, 32⟩
abbrev R.TIM_DOM_NS (d : Nat) : Nat := 0xc0028 + 0x40 * d
abbrev F.TIM_DOM_NS_VALUE (d : Nat) : Fld := ⟨0xc0028 + 0x40 * d, 0, 32⟩
abbrev R.TIM_DOM_FRAC (d : Nat) : Nat := 0xc002c + 0x40 * d
abbrev F.TIM_DOM_FRAC_VALUE (d : Nat) : Fld := ⟨0xc002c + 0x40 * d, 0, 32⟩
abbrev R.TIM_DOM_STATE (d : Nat) : Nat := 0xc0030 + 0x40 * d
abbrev F.TIM_DOM_STATE_SOURCE (d : Nat) : Fld := ⟨0xc0030 + 0x40 * d, 0, 2⟩
abbrev F.TIM_DOM_STATE_SERVO (d : Nat) : Fld := ⟨0xc0030 + 0x40 * d, 2, 2⟩
abbrev F.TIM_DOM_STATE_SLAVE_PORT (d : Nat) : Fld := ⟨0xc0030 + 0x40 * d, 4, 4⟩
abbrev F.TIM_DOM_STATE_SLAVE_VALID (d : Nat) : Fld := ⟨0xc0030 + 0x40 * d, 8, 1⟩
abbrev F.TIM_DOM_STATE_TICK (d : Nat) : Fld := ⟨0xc0030 + 0x40 * d, 9, 3⟩
abbrev R.TIM_DOM_OFFSET (d : Nat) : Nat := 0xc0034 + 0x40 * d
abbrev F.TIM_DOM_OFFSET_VALUE (d : Nat) : Fld := ⟨0xc0034 + 0x40 * d, 0, 32⟩
abbrev R.TIM_DOM_FREQ (d : Nat) : Nat := 0xc0038 + 0x40 * d
abbrev F.TIM_DOM_FREQ_VALUE (d : Nat) : Fld := ⟨0xc0038 + 0x40 * d, 0, 32⟩
abbrev R.TIM_DOM_DELAY (d : Nat) : Nat := 0xc003c + 0x40 * d
abbrev F.TIM_DOM_DELAY_VALUE (d : Nat) : Fld := ⟨0xc003c + 0x40 * d, 0, 32⟩
abbrev R.TIM_DOM_PHI (d : Nat) : Nat := 0xc0040 + 0x40 * d
abbrev F.TIM_DOM_PHI_VALUE (d : Nat) : Fld := ⟨0xc0040 + 0x40 * d, 0, 32⟩
abbrev R.TIM_DOM_GM_HI (d : Nat) : Nat := 0xc0044 + 0x40 * d
abbrev F.TIM_DOM_GM_HI_VALUE (d : Nat) : Fld := ⟨0xc0044 + 0x40 * d, 0, 32⟩
abbrev R.TIM_DOM_GM_LO (d : Nat) : Nat := 0xc0048 + 0x40 * d
abbrev F.TIM_DOM_GM_LO_VALUE (d : Nat) : Fld := ⟨0xc0048 + 0x40 * d, 0, 32⟩
abbrev R.TIM_DOM_STEPS (d : Nat) : Nat := 0xc004c + 0x40 * d
abbrev F.TIM_DOM_STEPS_COUNT (d : Nat) : Fld := ⟨0xc004c + 0x40 * d, 0, 32⟩
abbrev R.TIM_DOM_LOCK_LOSSES (d : Nat) : Nat := 0xc0050 + 0x40 * d
abbrev F.TIM_DOM_LOCK_LOSSES_COUNT (d : Nat) : Fld := ⟨0xc0050 + 0x40 * d, 0, 32⟩
abbrev R.TIM_DOM_HOLDOVERS (d : Nat) : Nat := 0xc0054 + 0x40 * d
abbrev F.TIM_DOM_HOLDOVERS_COUNT (d : Nat) : Fld := ⟨0xc0054 + 0x40 * d, 0, 32⟩
abbrev R.TIM_DOM_GM_CHANGES (d : Nat) : Nat := 0xc0058 + 0x40 * d
abbrev F.TIM_DOM_GM_CHANGES_COUNT (d : Nat) : Fld := ⟨0xc0058 + 0x40 * d, 0, 32⟩
abbrev R.TIM_DOM_HOLDOVER_S (d : Nat) : Nat := 0xc005c + 0x40 * d
abbrev F.TIM_DOM_HOLDOVER_S_COUNT (d : Nat) : Fld := ⟨0xc005c + 0x40 * d, 0, 32⟩
abbrev R.TIM_PORT_ASYM (p : Nat) : Nat := 0xc0100 + 0x10 * p
abbrev F.TIM_PORT_ASYM_PS (p : Nat) : Fld := ⟨0xc0100 + 0x10 * p, 0, 32⟩
abbrev R.TIM_PORT_TX_EXTRA (p : Nat) : Nat := 0xc0104 + 0x10 * p
abbrev F.TIM_PORT_TX_EXTRA_PS (p : Nat) : Fld := ⟨0xc0104 + 0x10 * p, 0, 24⟩
abbrev R.TIM_PORT_RX_EXTRA (p : Nat) : Nat := 0xc0108 + 0x10 * p
abbrev F.TIM_PORT_RX_EXTRA_PS (p : Nat) : Fld := ⟨0xc0108 + 0x10 * p, 0, 24⟩
abbrev R.TIM_PORT_LAT (p : Nat) : Nat := 0xc010c + 0x10 * p
abbrev F.TIM_PORT_LAT_TX_LAT (p : Nat) : Fld := ⟨0xc010c + 0x10 * p, 0, 16⟩
abbrev F.TIM_PORT_LAT_RX_LAT (p : Nat) : Fld := ⟨0xc010c + 0x10 * p, 16, 16⟩
abbrev R.TIM_CARRY_LO (c : Nat) : Nat := 0xc0200 + 0x8 * c
abbrev F.TIM_CARRY_LO_NS (c : Nat) : Fld := ⟨0xc0200 + 0x8 * c, 0, 32⟩
abbrev R.TIM_CARRY_HI (c : Nat) : Nat := 0xc0204 + 0x8 * c
abbrev F.TIM_CARRY_HI_NS (c : Nat) : Fld := ⟨0xc0204 + 0x8 * c, 0, 32⟩
abbrev R.EVT_ACT_SEL : Nat := 0xd0000
abbrev F.EVT_ACT_SEL_ACTION : Fld := ⟨0xd0000, 0, 5⟩
abbrev R.EVT_ACT_STATE : Nat := 0xd0004
abbrev F.EVT_ACT_STATE_EXISTS : Fld := ⟨0xd0004, 0, 1⟩
abbrev F.EVT_ACT_STATE_DEVICE : Fld := ⟨0xd0004, 1, 1⟩
abbrev F.EVT_ACT_STATE_ARMED : Fld := ⟨0xd0004, 2, 1⟩
abbrev F.EVT_ACT_STATE_TARGET : Fld := ⟨0xd0004, 3, 2⟩
abbrev F.EVT_ACT_STATE_PIN : Fld := ⟨0xd0004, 5, 2⟩
abbrev F.EVT_ACT_STATE_POLICY : Fld := ⟨0xd0004, 7, 1⟩
abbrev F.EVT_ACT_STATE_CLOCK : Fld := ⟨0xd0004, 8, 2⟩
abbrev F.EVT_ACT_STATE_CANVAS : Fld := ⟨0xd0004, 10, 3⟩
abbrev F.EVT_ACT_STATE_MODE : Fld := ⟨0xd0004, 13, 2⟩
abbrev R.EVT_ACT_NEXT_S : Nat := 0xd0008
abbrev F.EVT_ACT_NEXT_S_VALUE : Fld := ⟨0xd0008, 0, 32⟩
abbrev R.EVT_ACT_NEXT_NS : Nat := 0xd000c
abbrev F.EVT_ACT_NEXT_NS_VALUE : Fld := ⟨0xd000c, 0, 32⟩
abbrev R.EVT_ACT_LATE_NS : Nat := 0xd0010
abbrev F.EVT_ACT_LATE_NS_NS : Fld := ⟨0xd0010, 0, 32⟩
abbrev R.EVT_ACT_FIRES : Nat := 0xd0014
abbrev F.EVT_ACT_FIRES_COUNT : Fld := ⟨0xd0014, 0, 32⟩
abbrev R.EVT_ACT_LATE_FIRES : Nat := 0xd0018
abbrev F.EVT_ACT_LATE_FIRES_COUNT : Fld := ⟨0xd0018, 0, 32⟩
abbrev R.EVT_ACT_DISCARDS : Nat := 0xd001c
abbrev F.EVT_ACT_DISCARDS_COUNT : Fld := ⟨0xd001c, 0, 32⟩
abbrev R.EVT_ACT_USED : Nat := 0xd0020
abbrev F.EVT_ACT_USED_MAP : Fld := ⟨0xd0020, 0, 32⟩
abbrev R.EVT_CAP_CFG (i : Nat) : Nat := 0xd0100 + 0x10 * i
abbrev F.EVT_CAP_CFG_EN (i : Nat) : Fld := ⟨0xd0100 + 0x10 * i, 0, 1⟩
abbrev F.EVT_CAP_CFG_EDGE (i : Nat) : Fld := ⟨0xd0100 + 0x10 * i, 1, 2⟩
abbrev F.EVT_CAP_CFG_DOMAIN (i : Nat) : Fld := ⟨0xd0100 + 0x10 * i, 3, 1⟩
abbrev F.EVT_CAP_CFG_POST (i : Nat) : Fld := ⟨0xd0100 + 0x10 * i, 4, 1⟩
abbrev F.EVT_CAP_CFG_OWNED_LTC (i : Nat) : Fld := ⟨0xd0100 + 0x10 * i, 5, 1⟩
abbrev F.EVT_CAP_CFG_FILTER (i : Nat) : Fld := ⟨0xd0100 + 0x10 * i, 8, 8⟩
abbrev F.EVT_CAP_CFG_LEVEL (i : Nat) : Fld := ⟨0xd0100 + 0x10 * i, 16, 5⟩
abbrev R.EVT_CAP_S (i : Nat) : Nat := 0xd0104 + 0x10 * i
abbrev F.EVT_CAP_S_S (i : Nat) : Fld := ⟨0xd0104 + 0x10 * i, 0, 32⟩
abbrev R.EVT_CAP_NS (i : Nat) : Nat := 0xd0108 + 0x10 * i
abbrev F.EVT_CAP_NS_NS (i : Nat) : Fld := ⟨0xd0108 + 0x10 * i, 0, 30⟩
abbrev F.EVT_CAP_NS_FALLING (i : Nat) : Fld := ⟨0xd0108 + 0x10 * i, 30, 1⟩
abbrev F.EVT_CAP_NS_VALID (i : Nat) : Fld := ⟨0xd0108 + 0x10 * i, 31, 1⟩
abbrev R.EVT_CAP_OVF (i : Nat) : Nat := 0xd010c + 0x10 * i
abbrev F.EVT_CAP_OVF_COUNT (i : Nat) : Fld := ⟨0xd010c + 0x10 * i, 0, 32⟩
abbrev R.EVT_LTC_CFG (j : Nat) : Nat := 0xd0200 + 0x20 * j
abbrev F.EVT_LTC_CFG_EN (j : Nat) : Fld := ⟨0xd0200 + 0x20 * j, 0, 1⟩
abbrev F.EVT_LTC_CFG_DOMAIN (j : Nat) : Fld := ⟨0xd0200 + 0x20 * j, 1, 1⟩
abbrev F.EVT_LTC_CFG_POST (j : Nat) : Fld := ⟨0xd0200 + 0x20 * j, 2, 1⟩
abbrev R.EVT_LTC_TC (j : Nat) : Nat := 0xd0204 + 0x20 * j
abbrev F.EVT_LTC_TC_VALUE (j : Nat) : Fld := ⟨0xd0204 + 0x20 * j, 0, 32⟩
abbrev R.EVT_LTC_USER (j : Nat) : Nat := 0xd0208 + 0x20 * j
abbrev F.EVT_LTC_USER_VALUE (j : Nat) : Fld := ⟨0xd0208 + 0x20 * j, 0, 32⟩
abbrev R.EVT_LTC_STATUS (j : Nat) : Nat := 0xd020c + 0x20 * j
abbrev F.EVT_LTC_STATUS_LOCKED (j : Nat) : Fld := ⟨0xd020c + 0x20 * j, 0, 1⟩
abbrev F.EVT_LTC_STATUS_REVERSE (j : Nat) : Fld := ⟨0xd020c + 0x20 * j, 1, 1⟩
abbrev F.EVT_LTC_STATUS_DF (j : Nat) : Fld := ⟨0xd020c + 0x20 * j, 2, 1⟩
abbrev F.EVT_LTC_STATUS_RATE (j : Nat) : Fld := ⟨0xd020c + 0x20 * j, 3, 2⟩
abbrev F.EVT_LTC_STATUS_PERIOD_US (j : Nat) : Fld := ⟨0xd020c + 0x20 * j, 16, 16⟩
abbrev R.EVT_LTC_TS_S (j : Nat) : Nat := 0xd0210 + 0x20 * j
abbrev F.EVT_LTC_TS_S_VALUE (j : Nat) : Fld := ⟨0xd0210 + 0x20 * j, 0, 32⟩
abbrev R.EVT_LTC_TS_NS (j : Nat) : Nat := 0xd0214 + 0x20 * j
abbrev F.EVT_LTC_TS_NS_VALUE (j : Nat) : Fld := ⟨0xd0214 + 0x20 * j, 0, 32⟩
abbrev R.EVT_LTC_ERRORS (j : Nat) : Nat := 0xd0218 + 0x20 * j
abbrev F.EVT_LTC_ERRORS_COUNT (j : Nat) : Fld := ⟨0xd0218 + 0x20 * j, 0, 32⟩
abbrev R.EVT_ADC_STATE : Nat := 0xd0300
abbrev F.EVT_ADC_STATE_OWNED : Fld := ⟨0xd0300, 0, 1⟩
abbrev F.EVT_ADC_STATE_BUSY : Fld := ⟨0xd0300, 1, 1⟩
abbrev F.EVT_ADC_STATE_OWNER : Fld := ⟨0xd0300, 8, 5⟩
abbrev R.EVT_ADC_RESULT01 : Nat := 0xd0304
abbrev F.EVT_ADC_RESULT01_LO : Fld := ⟨0xd0304, 0, 12⟩
abbrev F.EVT_ADC_RESULT01_HI : Fld := ⟨0xd0304, 16, 12⟩
abbrev R.EVT_ADC_RESULT23 : Nat := 0xd0308
abbrev F.EVT_ADC_RESULT23_LO : Fld := ⟨0xd0308, 0, 12⟩
abbrev F.EVT_ADC_RESULT23_HI : Fld := ⟨0xd0308, 16, 12⟩
abbrev R.EVT_ADC_OVERRUN : Nat := 0xd030c
abbrev F.EVT_ADC_OVERRUN_COUNT : Fld := ⟨0xd030c, 0, 32⟩
abbrev R.EVT_ADC_SEQS : Nat := 0xd0310
abbrev F.EVT_ADC_SEQS_COUNT : Fld := ⟨0xd0310, 0, 32⟩
abbrev R.SITE_TEL_PORTS : Nat := 0x260000
abbrev F.SITE_TEL_PORTS_PORTS : Fld := ⟨0x260000, 0, 16⟩
abbrev R.SITE_ZONE_SEL : Nat := 0x260004
abbrev F.SITE_ZONE_SEL_INDEX : Fld := ⟨0x260004, 0, 12⟩
abbrev R.SITE_ZONE_STATE : Nat := 0x260008
abbrev F.SITE_ZONE_STATE_EXISTS : Fld := ⟨0x260008, 0, 1⟩
abbrev F.SITE_ZONE_STATE_PSTATE : Fld := ⟨0x260008, 1, 2⟩
abbrev F.SITE_ZONE_STATE_OVERRIDE : Fld := ⟨0x260008, 3, 1⟩
abbrev F.SITE_ZONE_STATE_LOOP : Fld := ⟨0x260008, 4, 1⟩
abbrev F.SITE_ZONE_STATE_LEVEL : Fld := ⟨0x260008, 16, 16⟩
abbrev R.SITE_ZONE_HOLD : Nat := 0x26000c
abbrev F.SITE_ZONE_HOLD_HOLD_S : Fld := ⟨0x26000c, 0, 16⟩
abbrev F.SITE_ZONE_HOLD_REMAIN_S : Fld := ⟨0x26000c, 16, 16⟩
abbrev R.SITE_ZONE_DAY : Nat := 0x260010
abbrev F.SITE_ZONE_DAY_LUX : Fld := ⟨0x260010, 0, 16⟩
abbrev F.SITE_ZONE_DAY_TRIM : Fld := ⟨0x260010, 16, 7⟩
abbrev F.SITE_ZONE_DAY_SETTLE : Fld := ⟨0x260010, 24, 8⟩
abbrev R.SITE_ZONE_DLEVEL : Nat := 0x260014
abbrev F.SITE_ZONE_DLEVEL_D : Fld := ⟨0x260014, 0, 16⟩
abbrev F.SITE_ZONE_DLEVEL_P : Fld := ⟨0x260014, 16, 16⟩
abbrev R.SITE_SENSOR_SEL : Nat := 0x260020
abbrev F.SITE_SENSOR_SEL_INDEX : Fld := ⟨0x260020, 0, 16⟩
abbrev R.SITE_SENSOR_STATE : Nat := 0x260024
abbrev F.SITE_SENSOR_STATE_EXISTS : Fld := ⟨0x260024, 0, 1⟩
abbrev F.SITE_SENSOR_STATE_SOURCE : Fld := ⟨0x260024, 1, 1⟩
abbrev F.SITE_SENSOR_STATE_FUNCTION : Fld := ⟨0x260024, 2, 1⟩
abbrev F.SITE_SENSOR_STATE_STALE : Fld := ⟨0x260024, 3, 1⟩
abbrev F.SITE_SENSOR_STATE_AGE : Fld := ⟨0x260024, 16, 16⟩
abbrev R.SITE_SENSOR_VALUE : Nat := 0x260028
abbrev F.SITE_SENSOR_VALUE_VALUE : Fld := ⟨0x260028, 0, 32⟩
abbrev R.SITE_TEL_REPORTS : Nat := 0x260040
abbrev F.SITE_TEL_REPORTS_COUNT : Fld := ⟨0x260040, 0, 32⟩
abbrev R.SITE_TEL_LEN_DROPS : Nat := 0x260044
abbrev F.SITE_TEL_LEN_DROPS_COUNT : Fld := ⟨0x260044, 0, 32⟩
abbrev R.SITE_TEL_BAD : Nat := 0x260048
abbrev F.SITE_TEL_BAD_COUNT : Fld := ⟨0x260048, 0, 32⟩
abbrev R.SITE_TEL_SEQ_DROPS : Nat := 0x26004c
abbrev F.SITE_TEL_SEQ_DROPS_COUNT : Fld := ⟨0x26004c, 0, 32⟩
abbrev R.SITE_TEL_UNMATCHED : Nat := 0x260050
abbrev F.SITE_TEL_UNMATCHED_COUNT : Fld := ⟨0x260050, 0, 32⟩
abbrev R.SITE_TEL_RATE_DROPS : Nat := 0x260054
abbrev F.SITE_TEL_RATE_DROPS_COUNT : Fld := ⟨0x260054, 0, 32⟩
abbrev R.SITE_HOLD_EXTENSIONS : Nat := 0x260058
abbrev F.SITE_HOLD_EXTENSIONS_COUNT : Fld := ⟨0x260058, 0, 32⟩
abbrev R.SITE_RDM_POLL_FAILS : Nat := 0x26005c
abbrev F.SITE_RDM_POLL_FAILS_COUNT : Fld := ⟨0x26005c, 0, 32⟩
abbrev R.VAL_STATE : Nat := 0xf0000
abbrev F.VAL_STATE_ADDRESS : Fld := ⟨0xf0000, 0, 8⟩
abbrev F.VAL_STATE_PINNED : Fld := ⟨0xf0000, 8, 1⟩
abbrev F.VAL_STATE_ROOT : Fld := ⟨0xf0000, 9, 1⟩
abbrev F.VAL_STATE_MEMBER : Fld := ⟨0xf0000, 10, 1⟩
abbrev F.VAL_STATE_MEMBERS : Fld := ⟨0xf0000, 16, 8⟩
abbrev R.VAL_ROOT_UID_HI : Nat := 0xf0004
abbrev F.VAL_ROOT_UID_HI_VALUE : Fld := ⟨0xf0004, 0, 32⟩
abbrev R.VAL_ROOT_UID_LO : Nat := 0xf0008
abbrev F.VAL_ROOT_UID_LO_VALUE : Fld := ⟨0xf0008, 0, 32⟩
abbrev R.VAL_VP : Nat := 0xf000c
abbrev F.VAL_VP_OWN_MINOR : Fld := ⟨0xf000c, 0, 8⟩
abbrev F.VAL_VP_OWN_MAJOR : Fld := ⟨0xf000c, 8, 8⟩
abbrev F.VAL_VP_IN_USE_MINOR : Fld := ⟨0xf000c, 16, 8⟩
abbrev R.VAL_STATUS : Nat := 0xf0010
abbrev F.VAL_STATUS_ADDR_CONFLICT : Fld := ⟨0xf0010, 0, 1⟩
abbrev F.VAL_STATUS_FULL : Fld := ⟨0xf0010, 1, 1⟩
abbrev F.VAL_STATUS_OVERCOMMIT : Fld := ⟨0xf0010, 2, 1⟩
abbrev F.VAL_STATUS_OVERCOMMIT_NOW : Fld := ⟨0xf0010, 3, 1⟩
abbrev R.VAL_RELAY : Nat := 0xf0014
abbrev F.VAL_RELAY_EN : Fld := ⟨0xf0014, 0, 1⟩
abbrev F.VAL_RELAY_SERVING : Fld := ⟨0xf0014, 1, 4⟩
abbrev R.VAL_LAST_REFUSAL : Nat := 0xf0018
abbrev F.VAL_LAST_REFUSAL_ADDRESS : Fld := ⟨0xf0018, 0, 8⟩
abbrev F.VAL_LAST_REFUSAL_LINE : Fld := ⟨0xf0018, 8, 5⟩
abbrev R.VAL_PASS_SEL : Nat := 0xf0020
abbrev F.VAL_PASS_SEL_DEST : Fld := ⟨0xf0020, 0, 8⟩
abbrev R.VAL_PASS : Nat := 0xf0024
abbrev F.VAL_PASS_LINK_A : Fld := ⟨0xf0024, 0, 2⟩
abbrev F.VAL_PASS_A_VALID : Fld := ⟨0xf0024, 2, 1⟩
abbrev F.VAL_PASS_LINK_B : Fld := ⟨0xf0024, 3, 2⟩
abbrev F.VAL_PASS_B_VALID : Fld := ⟨0xf0024, 5, 1⟩
abbrev F.VAL_PASS_HOPS : Fld := ⟨0xf0024, 8, 4⟩
abbrev R.VAL_MIG_SEL : Nat := 0xf0030
abbrev F.VAL_MIG_SEL_INDEX : Fld := ⟨0xf0030, 0, 6⟩
abbrev R.VAL_MIG_STATE : Nat := 0xf0034
abbrev F.VAL_MIG_STATE_STATE : Fld := ⟨0xf0034, 0, 3⟩
abbrev F.VAL_MIG_STATE_EPOCH : Fld := ⟨0xf0034, 8, 8⟩
abbrev F.VAL_MIG_STATE_TARGET : Fld := ⟨0xf0034, 16, 8⟩
abbrev R.VAL_MIG_FRAME_LO : Nat := 0xf0038
abbrev F.VAL_MIG_FRAME_LO_VALUE : Fld := ⟨0xf0038, 0, 32⟩
abbrev R.VAL_MIG_FRAME_HI : Nat := 0xf003c
abbrev F.VAL_MIG_FRAME_HI_VALUE : Fld := ⟨0xf003c, 0, 32⟩
abbrev R.VAL_LINK_STATE (l : Nat) : Nat := 0xf0100 + 0x20 * l
abbrev F.VAL_LINK_STATE_STATE (l : Nat) : Fld := ⟨0xf0100 + 0x20 * l, 0, 3⟩
abbrev F.VAL_LINK_STATE_PARTNER (l : Nat) : Fld := ⟨0xf0100 + 0x20 * l, 8, 8⟩
abbrev R.VAL_LINK_PARTNER_HI (l : Nat) : Nat := 0xf0104 + 0x20 * l
abbrev F.VAL_LINK_PARTNER_HI_VALUE (l : Nat) : Fld := ⟨0xf0104 + 0x20 * l, 0, 32⟩
abbrev R.VAL_LINK_PARTNER_LO (l : Nat) : Nat := 0xf0108 + 0x20 * l
abbrev F.VAL_LINK_PARTNER_LO_VALUE (l : Nat) : Fld := ⟨0xf0108 + 0x20 * l, 0, 32⟩
abbrev R.VAL_LINK_ASYM (l : Nat) : Nat := 0xf010c + 0x20 * l
abbrev F.VAL_LINK_ASYM_PS (l : Nat) : Fld := ⟨0xf010c + 0x20 * l, 0, 32⟩
abbrev R.VAL_LINK_DELAY (l : Nat) : Nat := 0xf0110 + 0x20 * l
abbrev F.VAL_LINK_DELAY_PS (l : Nat) : Fld := ⟨0xf0110 + 0x20 * l, 0, 32⟩
abbrev R.VAL_HCRC_DROPS : Nat := 0xf0200
abbrev F.VAL_HCRC_DROPS_COUNT : Fld := ⟨0xf0200, 0, 32⟩
abbrev R.VAL_LEN_DROPS : Nat := 0xf0204
abbrev F.VAL_LEN_DROPS_COUNT : Fld := ⟨0xf0204, 0, 32⟩
abbrev R.VAL_PCRC_DROPS : Nat := 0xf0208
abbrev F.VAL_PCRC_DROPS_COUNT : Fld := ⟨0xf0208, 0, 32⟩
abbrev R.VAL_BAD_DROPS : Nat := 0xf020c
abbrev F.VAL_BAD_DROPS_COUNT : Fld := ⟨0xf020c, 0, 32⟩
abbrev R.VAL_HOP_DROPS : Nat := 0xf0210
abbrev F.VAL_HOP_DROPS_COUNT : Fld := ⟨0xf0210, 0, 32⟩
abbrev R.VAL_UNREACH_DROPS : Nat := 0xf0214
abbrev F.VAL_UNREACH_DROPS_COUNT : Fld := ⟨0xf0214, 0, 32⟩
abbrev R.VAL_EPOCH_DROPS : Nat := 0xf0218
abbrev F.VAL_EPOCH_DROPS_COUNT : Fld := ⟨0xf0218, 0, 32⟩
abbrev R.VAL_REROUTES : Nat := 0xf021c
abbrev F.VAL_REROUTES_COUNT : Fld := ⟨0xf021c, 0, 32⟩
abbrev R.VAL_FEC_CORR : Nat := 0xf0220
abbrev F.VAL_FEC_CORR_COUNT : Fld := ⟨0xf0220, 0, 32⟩
abbrev R.VAL_FEC_UNCORR : Nat := 0xf0224
abbrev F.VAL_FEC_UNCORR_COUNT : Fld := ⟨0xf0224, 0, 32⟩
abbrev R.VAL_RELAYS_SERVED : Nat := 0xf0228
abbrev F.VAL_RELAYS_SERVED_COUNT : Fld := ⟨0xf0228, 0, 32⟩
abbrev R.RED_CFG : Nat := 0xe0000
abbrev F.RED_CFG_PAIRED : Fld := ⟨0xe0000, 0, 1⟩
abbrev F.RED_CFG_ROLE : Fld := ⟨0xe0000, 1, 1⟩
abbrev F.RED_CFG_WITNESS : Fld := ⟨0xe0000, 2, 2⟩
abbrev F.RED_CFG_K : Fld := ⟨0xe0000, 4, 7⟩
abbrev F.RED_CFG_PARTNER : Fld := ⟨0xe0000, 16, 8⟩
abbrev R.RED_STATE : Nat := 0xe0004
abbrev F.RED_STATE_VPATH_UP : Fld := ⟨0xe0004, 0, 1⟩
abbrev F.RED_STATE_WPATH_UP : Fld := ⟨0xe0004, 1, 1⟩
abbrev F.RED_STATE_LINE : Fld := ⟨0xe0004, 2, 2⟩
abbrev F.RED_STATE_CLAIMING : Fld := ⟨0xe0004, 4, 1⟩
abbrev F.RED_STATE_CKPT_VALID : Fld := ⟨0xe0004, 5, 1⟩
abbrev F.RED_STATE_BLOCKED : Fld := ⟨0xe0004, 6, 1⟩
abbrev F.RED_STATE_SEVERED : Fld := ⟨0xe0004, 7, 1⟩
abbrev F.RED_STATE_PARTNER_MODE : Fld := ⟨0xe0004, 8, 4⟩
abbrev F.RED_STATE_PARTNER_HOLDS : Fld := ⟨0xe0004, 12, 1⟩
abbrev F.RED_STATE_PARTNER_HEALTH_OK : Fld := ⟨0xe0004, 13, 1⟩
abbrev F.RED_STATE_HANDOVER : Fld := ⟨0xe0004, 14, 1⟩
abbrev R.RED_PARTNER_CP : Nat := 0xe0008
abbrev F.RED_PARTNER_CP_MINOR : Fld := ⟨0xe0008, 0, 8⟩
abbrev F.RED_PARTNER_CP_MAJOR : Fld := ⟨0xe0008, 8, 8⟩
abbrev F.RED_PARTNER_CP_OWN_MINOR : Fld := ⟨0xe0008, 16, 8⟩
abbrev F.RED_PARTNER_CP_OWN_MAJOR : Fld := ⟨0xe0008, 24, 8⟩
abbrev R.RED_CKPT_NUM_LO : Nat := 0xe000c
abbrev F.RED_CKPT_NUM_LO_VALUE : Fld := ⟨0xe000c, 0, 32⟩
abbrev R.RED_CKPT_NUM_HI : Nat := 0xe0010
abbrev F.RED_CKPT_NUM_HI_VALUE : Fld := ⟨0xe0010, 0, 32⟩
abbrev R.RED_CKPT_AGE : Nat := 0xe0014
abbrev F.RED_CKPT_AGE_FRAMES : Fld := ⟨0xe0014, 0, 16⟩
abbrev F.RED_CKPT_AGE_LAST_MS : Fld := ⟨0xe0014, 16, 16⟩
abbrev R.RED_HEALTH : Nat := 0xe0018
abbrev F.RED_HEALTH_FXP_FAIL : Fld := ⟨0xe0018, 0, 16⟩
abbrev F.RED_HEALTH_PXP_FAIL : Fld := ⟨0xe0018, 16, 8⟩
abbrev F.RED_HEALTH_SPM_DEFECT : Fld := ⟨0xe0018, 24, 1⟩
abbrev F.RED_HEALTH_CKPT_FAIL : Fld := ⟨0xe0018, 25, 1⟩
abbrev F.RED_HEALTH_CP_BAD : Fld := ⟨0xe0018, 26, 1⟩
abbrev F.RED_HEALTH_CAP_SHORT : Fld := ⟨0xe0018, 27, 1⟩
abbrev R.RED_PARTNER_HEALTH : Nat := 0xe001c
abbrev F.RED_PARTNER_HEALTH_FXP_FAIL : Fld := ⟨0xe001c, 0, 16⟩
abbrev F.RED_PARTNER_HEALTH_PXP_FAIL : Fld := ⟨0xe001c, 16, 8⟩
abbrev F.RED_PARTNER_HEALTH_SPM_DEFECT : Fld := ⟨0xe001c, 24, 1⟩
abbrev F.RED_PARTNER_HEALTH_CKPT_FAIL : Fld := ⟨0xe001c, 25, 1⟩
abbrev F.RED_PARTNER_HEALTH_CP_BAD : Fld := ⟨0xe001c, 26, 1⟩
abbrev F.RED_PARTNER_HEALTH_CAP_SHORT : Fld := ⟨0xe001c, 27, 1⟩
abbrev R.RED_HB_MISS_V : Nat := 0xe0040
abbrev F.RED_HB_MISS_V_COUNT : Fld := ⟨0xe0040, 0, 32⟩
abbrev R.RED_HB_MISS_W : Nat := 0xe0044
abbrev F.RED_HB_MISS_W_COUNT : Fld := ⟨0xe0044, 0, 32⟩
abbrev R.RED_PATH_LOSSES : Nat := 0xe0048
abbrev F.RED_PATH_LOSSES_COUNT : Fld := ⟨0xe0048, 0, 32⟩
abbrev R.RED_CLAIMS_WON : Nat := 0xe004c
abbrev F.RED_CLAIMS_WON_COUNT : Fld := ⟨0xe004c, 0, 32⟩
abbrev R.RED_CLAIMS_LOST : Nat := 0xe0050
abbrev F.RED_CLAIMS_LOST_COUNT : Fld := ⟨0xe0050, 0, 32⟩
abbrev R.RED_TAKEOVERS : Nat := 0xe0054
abbrev F.RED_TAKEOVERS_COUNT : Fld := ⟨0xe0054, 0, 32⟩
abbrev R.RED_HANDOVERS : Nat := 0xe0058
abbrev F.RED_HANDOVERS_COUNT : Fld := ⟨0xe0058, 0, 32⟩
abbrev R.RED_CKPT_DONE : Nat := 0xe005c
abbrev F.RED_CKPT_DONE_COUNT : Fld := ⟨0xe005c, 0, 32⟩
abbrev R.RED_CKPT_STRETCHED : Nat := 0xe0060
abbrev F.RED_CKPT_STRETCHED_COUNT : Fld := ⟨0xe0060, 0, 32⟩
abbrev R.RED_CKPT_REFUSED : Nat := 0xe0064
abbrev F.RED_CKPT_REFUSED_COUNT : Fld := ⟨0xe0064, 0, 32⟩
abbrev R.RED_BREATH_LOW : Nat := 0xe0068
abbrev F.RED_BREATH_LOW_COUNT : Fld := ⟨0xe0068, 0, 32⟩
abbrev R.RED_WITNESS_QUERIES : Nat := 0xe006c
abbrev F.RED_WITNESS_QUERIES_COUNT : Fld := ⟨0xe006c, 0, 32⟩
abbrev R.RED_WITNESS_SERVED : Nat := 0xe0070
abbrev F.RED_WITNESS_SERVED_COUNT : Fld := ⟨0xe0070, 0, 32⟩
abbrev R.RED_DUAL_ACTIVE : Nat := 0xe0074
abbrev F.RED_DUAL_ACTIVE_COUNT : Fld := ⟨0xe0074, 0, 32⟩
abbrev R.BOOT_HDR : Nat := 0x40000
abbrev F.BOOT_HDR_VALID : Fld := ⟨0x40000, 0, 1⟩
abbrev F.BOOT_HDR_DDR_RATE : Fld := ⟨0x40000, 1, 2⟩
abbrev F.BOOT_HDR_SIG_REQUIRED : Fld := ⟨0x40000, 3, 1⟩
abbrev F.BOOT_HDR_NOR_MHZ : Fld := ⟨0x40000, 8, 8⟩
abbrev F.BOOT_HDR_NOR_MIB : Fld := ⟨0x40000, 16, 16⟩
abbrev R.BOOT_KEYS : Nat := 0x40004
abbrev F.BOOT_KEYS_EMPTY : Fld := ⟨0x40004, 0, 4⟩
abbrev F.BOOT_KEYS_REVOKED : Fld := ⟨0x40004, 4, 4⟩
abbrev F.BOOT_KEYS_FW_SLOT : Fld := ⟨0x40004, 8, 2⟩
abbrev F.BOOT_KEYS_FW_VALID : Fld := ⟨0x40004, 10, 1⟩
abbrev F.BOOT_KEYS_REVOKE_RESULT : Fld := ⟨0x40004, 16, 8⟩
abbrev R.BOOT_REVOKE : Nat := 0x40008
abbrev F.BOOT_REVOKE_SLOTS : Fld := ⟨0x40008, 0, 4⟩
abbrev F.BOOT_REVOKE_KEY : Fld := ⟨0x40008, 16, 16⟩
abbrev R.BOOT_FW_BASE : Nat := 0x4000c
abbrev F.BOOT_FW_BASE_BASE : Fld := ⟨0x4000c, 0, 18⟩
abbrev R.BOOT_FW_LEN : Nat := 0x40010
abbrev F.BOOT_FW_LEN_LEN : Fld := ⟨0x40010, 0, 25⟩
abbrev R.BOOT_FW_CTRL : Nat := 0x40014
abbrev F.BOOT_FW_CTRL_GO : Fld := ⟨0x40014, 0, 1⟩
abbrev R.BOOT_FW_STATUS : Nat := 0x40018
abbrev F.BOOT_FW_STATUS_STATE : Fld := ⟨0x40018, 0, 3⟩
abbrev F.BOOT_FW_STATUS_RESULT : Fld := ⟨0x40018, 8, 8⟩
abbrev F.BOOT_FW_STATUS_WINNER : Fld := ⟨0x40018, 16, 2⟩
abbrev R.BOOT_LOADER : Nat := 0x4001c
abbrev F.BOOT_LOADER_STATE : Fld := ⟨0x4001c, 0, 3⟩
abbrev F.BOOT_LOADER_RECEIVED : Fld := ⟨0x4001c, 8, 24⟩
abbrev R.BOOT_AUTH_FAILS : Nat := 0x40020
abbrev F.BOOT_AUTH_FAILS_COUNT : Fld := ⟨0x40020, 0, 32⟩
abbrev R.BOOT_LOADER_DROPS : Nat := 0x40024
abbrev F.BOOT_LOADER_DROPS_COUNT : Fld := ⟨0x40024, 0, 32⟩
abbrev R.UPD_JOURNAL : Nat := 0x50000
abbrev F.UPD_JOURNAL_STATE : Fld := ⟨0x50000, 0, 4⟩
abbrev F.UPD_JOURNAL_ACTIVE : Fld := ⟨0x50000, 4, 1⟩
abbrev F.UPD_JOURNAL_PREV_VALID : Fld := ⟨0x50000, 5, 1⟩
abbrev F.UPD_JOURNAL_FELL_BACK : Fld := ⟨0x50000, 6, 1⟩
abbrev F.UPD_JOURNAL_CONVERSION : Fld := ⟨0x50000, 7, 1⟩
abbrev F.UPD_JOURNAL_STARTS : Fld := ⟨0x50000, 8, 2⟩
abbrev F.UPD_JOURNAL_COPIED : Fld := ⟨0x50000, 16, 8⟩
abbrev R.UPD_JOURNAL_SEQ_LO : Nat := 0x50004
abbrev F.UPD_JOURNAL_SEQ_LO_VALUE : Fld := ⟨0x50004, 0, 32⟩
abbrev R.UPD_JOURNAL_SEQ_HI : Nat := 0x50008
abbrev F.UPD_JOURNAL_SEQ_HI_VALUE : Fld := ⟨0x50008, 0, 32⟩
abbrev R.UPD_SESSION : Nat := 0x5000c
abbrev F.UPD_SESSION_OPEN : Fld := ⟨0x5000c, 0, 1⟩
abbrev F.UPD_SESSION_TRANSPORT : Fld := ⟨0x5000c, 1, 1⟩
abbrev F.UPD_SESSION_LEASE_S : Fld := ⟨0x5000c, 8, 8⟩
abbrev F.UPD_SESSION_ID : Fld := ⟨0x5000c, 16, 16⟩
abbrev R.UPD_HOLDER : Nat := 0x50010
abbrev F.UPD_HOLDER_IPV4 : Fld := ⟨0x50010, 0, 32⟩
abbrev R.UPD_HOLDER_PORT : Nat := 0x50014
abbrev F.UPD_HOLDER_PORT_PORT : Fld := ⟨0x50014, 0, 16⟩
abbrev R.UPD_STAGED : Nat := 0x50018
abbrev F.UPD_STAGED_BYTES : Fld := ⟨0x50018, 0, 24⟩
abbrev R.UPD_ACTIVE_SERIAL_LO : Nat := 0x5001c
abbrev F.UPD_ACTIVE_SERIAL_LO_VALUE : Fld := ⟨0x5001c, 0, 32⟩
abbrev R.UPD_ACTIVE_SERIAL_HI : Nat := 0x50020
abbrev F.UPD_ACTIVE_SERIAL_HI_VALUE : Fld := ⟨0x50020, 0, 32⟩
abbrev R.UPD_PREV_SERIAL_LO : Nat := 0x50024
abbrev F.UPD_PREV_SERIAL_LO_VALUE : Fld := ⟨0x50024, 0, 32⟩
abbrev R.UPD_PREV_SERIAL_HI : Nat := 0x50028
abbrev F.UPD_PREV_SERIAL_HI_VALUE : Fld := ⟨0x50028, 0, 32⟩
abbrev R.UPD_CF : Nat := 0x5002c
abbrev F.UPD_CF_ACTIVE : Fld := ⟨0x5002c, 0, 16⟩
abbrev F.UPD_CF_PREV : Fld := ⟨0x5002c, 16, 16⟩
abbrev R.UPD_LIFE_SEL : Nat := 0x50030
abbrev F.UPD_LIFE_SEL_INDEX : Fld := ⟨0x50030, 0, 4⟩
abbrev R.UPD_LIFE_VALUE_LO : Nat := 0x50034
abbrev F.UPD_LIFE_VALUE_LO_VALUE : Fld := ⟨0x50034, 0, 32⟩
abbrev R.UPD_LIFE_VALUE_HI : Nat := 0x50038
abbrev F.UPD_LIFE_VALUE_HI_VALUE : Fld := ⟨0x50038, 0, 32⟩
abbrev R.UPD_SESSIONS : Nat := 0x50040
abbrev F.UPD_SESSIONS_COUNT : Fld := ⟨0x50040, 0, 32⟩
abbrev R.UPD_LEASES_EXPIRED : Nat := 0x50044
abbrev F.UPD_LEASES_EXPIRED_COUNT : Fld := ⟨0x50044, 0, 32⟩
abbrev R.UPD_ACTIVATIONS : Nat := 0x50048
abbrev F.UPD_ACTIVATIONS_COUNT : Fld := ⟨0x50048, 0, 32⟩
abbrev R.UPD_FALLBACKS : Nat := 0x5004c
abbrev F.UPD_FALLBACKS_COUNT : Fld := ⟨0x5004c, 0, 32⟩
abbrev R.UPD_NOR_ERASES : Nat := 0x50050
abbrev F.UPD_NOR_ERASES_COUNT : Fld := ⟨0x50050, 0, 32⟩
abbrev R.UPD_NOR_PROGRAMS : Nat := 0x50054
abbrev F.UPD_NOR_PROGRAMS_COUNT : Fld := ⟨0x50054, 0, 32⟩
abbrev R.UPD_NOR_TIMEOUTS : Nat := 0x50058
abbrev F.UPD_NOR_TIMEOUTS_COUNT : Fld := ⟨0x50058, 0, 32⟩
abbrev R.CTL_FW_VERSION : Nat := 0x270000
abbrev F.CTL_FW_VERSION_PATCH : Fld := ⟨0x270000, 0, 16⟩
abbrev F.CTL_FW_VERSION_MINOR : Fld := ⟨0x270000, 16, 8⟩
abbrev F.CTL_FW_VERSION_MAJOR : Fld := ⟨0x270000, 24, 8⟩
abbrev R.CTL_FW_PROTO : Nat := 0x270004
abbrev F.CTL_FW_PROTO_VP_MINOR : Fld := ⟨0x270004, 0, 8⟩
abbrev F.CTL_FW_PROTO_VP_MAJOR : Fld := ⟨0x270004, 8, 8⟩
abbrev F.CTL_FW_PROTO_CP_MINOR : Fld := ⟨0x270004, 16, 8⟩
abbrev F.CTL_FW_PROTO_CP_MAJOR : Fld := ⟨0x270004, 24, 8⟩
abbrev R.CTL_CF_NATIVE : Nat := 0x270008
abbrev F.CTL_CF_NATIVE_CF : Fld := ⟨0x270008, 0, 16⟩
abbrev F.CTL_CF_NATIVE_COUNT : Fld := ⟨0x270008, 16, 4⟩
abbrev R.CTL_CF_LIST (i : Nat) : Nat := 0x27000c + 0x4 * i
abbrev F.CTL_CF_LIST_LO (i : Nat) : Fld := ⟨0x27000c + 0x4 * i, 0, 16⟩
abbrev F.CTL_CF_LIST_HI (i : Nat) : Fld := ⟨0x27000c + 0x4 * i, 16, 16⟩
abbrev R.CTL_CORES : Nat := 0x27001c
abbrev F.CTL_CORES_RUNNING : Fld := ⟨0x27001c, 0, 4⟩
abbrev R.CTL_FW_DIGEST (i : Nat) : Nat := 0x270020 + 0x4 * i
abbrev F.CTL_FW_DIGEST_BYTES (i : Nat) : Fld := ⟨0x270020 + 0x4 * i, 0, 32⟩
abbrev R.ID_LOT0 : Nat := 0x10000
abbrev F.ID_LOT0_CHARS : Fld := ⟨0x10000, 0, 32⟩
abbrev R.ID_LOT1 : Nat := 0x10004
abbrev F.ID_LOT1_CHARS : Fld := ⟨0x10004, 0, 32⟩
abbrev R.ID_WAFER : Nat := 0x10008
abbrev F.ID_WAFER_WAFER : Fld := ⟨0x10008, 0, 5⟩
abbrev F.ID_WAFER_DIE_X : Fld := ⟨0x10008, 8, 8⟩
abbrev F.ID_WAFER_DIE_Y : Fld := ⟨0x10008, 16, 8⟩
abbrev R.ID_STEP : Nat := 0x1000c
abbrev F.ID_STEP_STEP : Fld := ⟨0x1000c, 0, 8⟩
abbrev R.ID_UID_HI : Nat := 0x10010
abbrev F.ID_UID_HI_VALUE : Fld := ⟨0x10010, 0, 32⟩
abbrev R.ID_UID_LO : Nat := 0x10014
abbrev F.ID_UID_LO_VALUE : Fld := ⟨0x10014, 0, 32⟩
abbrev R.ID_FUSE_CRC : Nat := 0x10018
abbrev F.ID_FUSE_CRC_CRC : Fld := ⟨0x10018, 0, 32⟩
abbrev R.ID_FUSE_STATUS : Nat := 0x1001c
abbrev F.ID_FUSE_STATUS_READ : Fld := ⟨0x1001c, 0, 1⟩
abbrev F.ID_FUSE_STATUS_CRC_OK : Fld := ⟨0x1001c, 1, 1⟩
abbrev R.ID_KEYHASH (k : Nat) (i : Nat) : Nat := 0x10040 + 0x40 * k + 0x4 * i
abbrev F.ID_KEYHASH_BYTES (k : Nat) (i : Nat) : Fld := ⟨0x10040 + 0x40 * k + 0x4 * i, 0, 32⟩
abbrev R.CAL_SEL : Nat := 0x20000
abbrev F.CAL_SEL_ITEM : Fld := ⟨0x20000, 0, 8⟩
abbrev F.CAL_SEL_INSTANCE : Fld := ⟨0x20000, 8, 8⟩
abbrev R.CAL_READ1 : Nat := 0x20004
abbrev F.CAL_READ1_VALUE : Fld := ⟨0x20004, 0, 32⟩
abbrev R.CAL_READ2 : Nat := 0x20008
abbrev F.CAL_READ2_VALUE : Fld := ⟨0x20008, 0, 32⟩
abbrev R.CAL_BASELINE : Nat := 0x2000c
abbrev F.CAL_BASELINE_VALUE : Fld := ⟨0x2000c, 0, 32⟩
abbrev R.CAL_TRIM : Nat := 0x20010
abbrev F.CAL_TRIM_APPLIED : Fld := ⟨0x20010, 0, 8⟩
abbrev F.CAL_TRIM_BASE_CODE : Fld := ⟨0x20010, 8, 8⟩
abbrev F.CAL_TRIM_SUSPECT : Fld := ⟨0x20010, 16, 1⟩
abbrev F.CAL_TRIM_DIFFER : Fld := ⟨0x20010, 17, 1⟩
abbrev F.CAL_TRIM_OUTSIDE : Fld := ⟨0x20010, 18, 1⟩
abbrev R.CAL_SUMMARY : Nat := 0x20014
abbrev F.CAL_SUMMARY_SUSPECT_ITEMS : Fld := ⟨0x20014, 0, 9⟩
abbrev F.CAL_SUMMARY_SUSPECT_COUNT : Fld := ⟨0x20014, 16, 6⟩
abbrev R.CAL_HALT : Nat := 0x20018
abbrev F.CAL_HALT_CAUSE : Fld := ⟨0x20018, 0, 2⟩
abbrev R.CHK_CH_STATE (n : Nat) : Nat := 0xb0000 + 0x20 * n
abbrev F.CHK_CH_STATE_EXISTS (n : Nat) : Fld := ⟨0xb0000 + 0x20 * n, 0, 1⟩
abbrev F.CHK_CH_STATE_RUNNING (n : Nat) : Fld := ⟨0xb0000 + 0x20 * n, 1, 1⟩
abbrev F.CHK_CH_STATE_PAUSED (n : Nat) : Fld := ⟨0xb0000 + 0x20 * n, 2, 1⟩
abbrev F.CHK_CH_STATE_ALGORITHM (n : Nat) : Fld := ⟨0xb0000 + 0x20 * n, 3, 3⟩
abbrev F.CHK_CH_STATE_SOURCE (n : Nat) : Fld := ⟨0xb0000 + 0x20 * n, 6, 2⟩
abbrev R.CHK_CH_POS_LO (n : Nat) : Nat := 0xb0004 + 0x20 * n
abbrev F.CHK_CH_POS_LO_VALUE (n : Nat) : Fld := ⟨0xb0004 + 0x20 * n, 0, 32⟩
abbrev R.CHK_CH_POS_HI (n : Nat) : Nat := 0xb0008 + 0x20 * n
abbrev F.CHK_CH_POS_HI_VALUE (n : Nat) : Fld := ⟨0xb0008 + 0x20 * n, 0, 32⟩
abbrev R.CHK_CH_RESULT_LO (n : Nat) : Nat := 0xb000c + 0x20 * n
abbrev F.CHK_CH_RESULT_LO_VALUE (n : Nat) : Fld := ⟨0xb000c + 0x20 * n, 0, 32⟩
abbrev R.CHK_CH_RESULT_HI (n : Nat) : Nat := 0xb0010 + 0x20 * n
abbrev F.CHK_CH_RESULT_HI_VALUE (n : Nat) : Fld := ⟨0xb0010 + 0x20 * n, 0, 32⟩
abbrev R.CHK_CH_CTRL (n : Nat) : Nat := 0xb0014 + 0x20 * n
abbrev F.CHK_CH_CTRL_ABORT (n : Nat) : Fld := ⟨0xb0014 + 0x20 * n, 0, 1⟩
abbrev R.CHK_SCANS : Nat := 0xb0100
abbrev F.CHK_SCANS_COUNT : Fld := ⟨0xb0100, 0, 32⟩
abbrev R.CHK_ABORTS : Nat := 0xb0104
abbrev F.CHK_ABORTS_COUNT : Fld := ⟨0xb0104, 0, 32⟩
abbrev R.SUP_STATUS : Nat := 0x30000
abbrev F.SUP_STATUS_STOP : Fld := ⟨0x30000, 0, 1⟩
abbrev F.SUP_STATUS_HOLD : Fld := ⟨0x30000, 1, 1⟩
abbrev F.SUP_STATUS_TEMP_HIGH : Fld := ⟨0x30000, 2, 1⟩
abbrev R.SUP_VMON_STOP : Nat := 0x30004
abbrev F.SUP_VMON_STOP_MV : Fld := ⟨0x30004, 0, 10⟩
abbrev R.SUP_VMON_HOLD : Nat := 0x30008
abbrev F.SUP_VMON_HOLD_MV : Fld := ⟨0x30008, 0, 10⟩
abbrev R.SUP_RAIL (i : Nat) : Nat := 0x30010 + 0x4 * i
abbrev F.SUP_RAIL_MV (i : Nat) : Fld := ⟨0x30010 + 0x4 * i, 0, 16⟩
abbrev F.SUP_RAIL_MIN_MV (i : Nat) : Fld := ⟨0x30010 + 0x4 * i, 16, 16⟩
abbrev R.SUP_TEMP : Nat := 0x30040
abbrev F.SUP_TEMP_NOW : Fld := ⟨0x30040, 0, 16⟩
abbrev F.SUP_TEMP_MAX : Fld := ⟨0x30040, 16, 16⟩
abbrev R.SUP_TEMP_WARN : Nat := 0x30044
abbrev F.SUP_TEMP_WARN_C : Fld := ⟨0x30044, 0, 8⟩
abbrev R.SUP_AVS_CFG : Nat := 0x30048
abbrev F.SUP_AVS_CFG_CLK : Fld := ⟨0x30048, 0, 2⟩
abbrev R.SUP_AVS_ERRORS : Nat := 0x30050
abbrev F.SUP_AVS_ERRORS_COUNT : Fld := ⟨0x30050, 0, 32⟩
abbrev R.SUP_STOP_EVENTS : Nat := 0x30054
abbrev F.SUP_STOP_EVENTS_COUNT : Fld := ⟨0x30054, 0, 32⟩
abbrev R.SUP_HOLD_EVENTS : Nat := 0x30058
abbrev F.SUP_HOLD_EVENTS_COUNT : Fld := ⟨0x30058, 0, 32⟩

end Sys2Proof.Machine
end

