-- ==== Sys2Proof/Machine/State.lean ====
section
/-! DEFINITION. The state of the device: every register, queue, table, store and mode the spec gives it, as plain data. -/

namespace Sys2Proof.Machine

/-- The device: all of its state but the queue of commands. -/
structure Dev where
  /-- the raw counter, unit 2^-16 ns (R256) -/
  raw : Time := 0
  /-- how many free values have been drawn (log 8) -/
  free : Nat := 0
  /-- what left the device, newest first (log 7) -/
  out : List Emit := []
  /-- BAR0 registers that differ from their reset value -/
  regs : Tbl Word := []
  /-- the Plain's page store by physical address (R82) -/
  plain : Mem := []
  /-- the NOR by byte offset (R360) -/
  nor : Mem := []
  sys : Sys := {}
  hdl : Hdl := {}
  pln : Pln := {}
  sch : Sch := {}
  que : Que := {}
  tim : Tim := {}
  vid : Vid := {}
  outp : Outp := {}
  site : Site := {}
  dmx : Dmx := {}
  pxp : Pxp := {}
  val : Val := {}
  red : Red := {}
  cmd : Cmd := {}
  boot : Boot := {}
  upd : Upd := {}
  chk : Chk := {}
  cal : Cal := {}
  fuses : Fuses := {}
  jtag : Jtag := {}
  deriving DecidableEq, Repr

/-- The state of the model: the device, and the commands that wait for it, first in first out. -/
structure State extends Dev where
  pending : List Instr := []
  deriving DecidableEq, Repr

/-- Why the device model stops. Raised by the rows REGISTER_WRITE, BAR2_READ and BAR2_WRITE alone. -/
inductive Fault where
  /-- An access outside BAR0's 16 MiB (R9, R10 give no meaning to a larger offset). Safe: the model stops where the spec
  gives the device no address. Raised by REGISTER_WRITE. -/
  | outsideBar0
  /-- An access outside the 256 MiB of BAR2 (R96). Safe, as above. Raised by BAR2_READ and BAR2_WRITE. -/
  | outsideBar2
  deriving DecidableEq, Repr

/-- Why a command has no meaning. -/
inductive Refusal where
  /-- The command has no meaning in this model yet. Safe. Raised by `exec` alone. -/
  | notModelled (mnemonic : String)
  deriving DecidableEq, Repr

/-- The device held in RESET by power-on: every register at the reset value of its table, SYS.RESET_CAUSE.POR set, the
stores empty (log 4, log 5). -/
def Dev.reset : Dev := {}

/-- The machine right after reset: the device in RESET, and no command waiting. -/
def State.reset : State := {}

/-- A meaning acts on the device; the queue stays as it is. -/
def onDev (f : Dev → Host.Outcome Dev Fault Refusal) (s : State) : Host.Outcome State Fault Refusal :=
  match f s.toDev with
  | .next d => .next { s with toDev := d }
  | .fault r => .fault r
  | .refused r => .refused r

end Sys2Proof.Machine
end

