-- ==== Sys2Proof/Machine/Ops.lean ====
section
/-! DEFINITION. The shared operations over the state: time, registers, counters, output, free values, bytes, the Plain, the
pager, handles and the ledger. -/

namespace Sys2Proof.Machine

/-! Time, output and free values -/

/-- Time reaches instant `t`; it never runs back. -/
def upTo (t : Time) (s : Dev) : Dev := { s with raw := max s.raw t }

/-- Record what leaves the device. -/
def emit (e : Emit) (s : Dev) : Dev := { s with out := e :: s.out }

/-- Count one drawn free value. -/
def drawn (s : Dev) : Dev := { s with free := s.free + 1 }

/-! Registers -/

/-- The stored value of the register at a BAR0 offset. -/
def rg (s : Dev) (off : Nat) : Word := (tget s.regs off).getD (resetWord off)

/-- Store a register; a value equal to the reset value is unlisted. -/
def setRg (off : Nat) (v : Word) (s : Dev) : Dev :=
  { s with regs := if v = resetWord off then tdel s.regs off else tput s.regs off v }

/-- A field's value inside a word. -/
def Fld.of (f : Fld) (w : Word) : Nat := w.toNat / 2 ^ f.lo % 2 ^ f.len

/-- A word with one field replaced (the value is cut to the field's width). -/
def Fld.into (f : Fld) (w : Word) (v : Nat) : Word :=
  let m : Word := BitVec.ofNat 32 ((2 ^ f.len - 1) * 2 ^ f.lo)
  (w &&& ~~~m) ||| (BitVec.ofNat 32 (v * 2 ^ f.lo) &&& m)

/-- Read a field. -/
def fld (s : Dev) (f : Fld) : Nat := f.of (rg s f.off)

/-- Is a one-bit field set? -/
def bitOf (s : Dev) (f : Fld) : Bool := fld s f != 0

/-- Write a field. -/
def setFld (f : Fld) (v : Nat) (s : Dev) : Dev := setRg f.off (f.into (rg s f.off) v) s

/-- Write a one-bit field. -/
def setBit (f : Fld) (b : Bool) (s : Dev) : Dev := setFld f (if b then 1 else 0) s

/-- Add to a 32-bit counter register, saturating (the counters' tables). -/
def bumpBy (off n : Nat) (s : Dev) : Dev :=
  setRg off (BitVec.ofNat 32 (min ((rg s off).toNat + n) 0xFFFFFFFF)) s

/-- Add 1 to a counter register. -/
def bump (off : Nat) (s : Dev) : Dev := bumpBy off 1 s

/-- Add 1 to a counter field, saturating at its width. -/
def bumpFld (f : Fld) (s : Dev) : Dev := setFld f (min (fld s f + 1) (2 ^ f.len - 1)) s

/-- A write of a register as its access codes give it (R8): RW bits take the value, RWL bits only in CONFIGURE, W1C bits that the
value sets are cleared, every other bit keeps its value. -/
def storeReg (off : Nat) (v : Word) (s : Dev) : Dev :=
  match findReg off with
  | none => s
  | some r =>
    let m : Word := BitVec.ofNat 32 (r.rw ||| (if s.sys.mode = .configure then r.rwl else 0))
    let old := rg s off
    setRg off (((old &&& ~~~m) ||| (v &&& m)) &&& ~~~(v &&& BitVec.ofNat 32 r.w1c)) s

/-- Add 1 to a lifetime counter (R382). -/
def lifeUp (i : Nat) (s : Dev) : Dev :=
  { s with upd.life := (s.upd.life.take i) ++ [s.upd.life.getD i 0 + 1] ++ s.upd.life.drop (i + 1) }

/-! Bytes -/

/-- `n` bytes of a number, least significant first (R10). -/
def leBytes (n v : Nat) : List Byte := (List.range n).map fun i => BitVec.ofNat 8 (v / 256 ^ i)

/-- `n` bytes of a number, most significant first (network order, R10). -/
def beBytes (n v : Nat) : List Byte := (leBytes n v).reverse

/-- The number that bytes spell, least significant first. -/
def leNat : List Byte → Nat
  | [] => 0
  | b :: r => b.toNat + 256 * leNat r

/-- The number that bytes spell, most significant first. -/
def beNat (l : List Byte) : Nat := leNat l.reverse

/-- The little-endian number in bytes [off, off + n) of a record; bytes past its end count as 0. -/
def at_ (l : List Byte) (off n : Nat) : Nat := leNat ((l.drop off).take n)

/-- The network-order number in bytes [off, off + n). -/
def beAt (l : List Byte) (off n : Nat) : Nat := beNat ((l.drop off).take n)

/-- A byte list cut or filled with zeros to `n` bytes. -/
def fit (n : Nat) (l : List Byte) : List Byte := (l ++ List.replicate (n - l.length) 0).take n

/-- A two's-complement number of `w` bits. -/
def sgn (w v : Nat) : Int := if v % 2 ^ w < 2 ^ (w - 1) then (v % 2 ^ w : Nat) else (v % 2 ^ w : Nat) - (2 ^ w : Nat)

/-- A number as `w` bits of two's complement. -/
def unsgn (w : Nat) (x : Int) : Nat := (x % (2 ^ w : Nat)).toNat

/-- Bit `i` of a number. -/
def bit (v i : Nat) : Bool := v / 2 ^ i % 2 == 1

/-- Division rounded up. -/
def cdiv (a b : Nat) : Nat := (a + b - 1) / b

/-! The Plain (chapter 4) -/

/-- Bytes of a page, 64 KiB (R85). -/
def pageBytes : Nat := 65536

/-- Pages of the page store (R80): 65,536, or 131,072 in the 8 GiB configuration. -/
def storePages (s : Dev) : Nat := if bitOf s F.PLN_CONFIG_SIZE then 131072 else 65536

/-- The byte of the Plain at a physical address. -/
def plainByte (s : Dev) (a : Nat) : Byte := mget 0 s.plain a

/-- Bytes of the Plain from a physical address on. -/
def plainBytes (s : Dev) (a n : Nat) : List Byte := mgets 0 s.plain a n

/-- Does a physical 64-bit word lie in a range of `n` bytes from `a`? -/
def wordsOf (a n : Nat) (w : Nat) : Bool := decide (a ≤ 8 * w ∧ 8 * w + 8 ≤ a + n)

/-- Write bytes of the Plain; a word written whole is poisoned no longer (R91). -/
def plainWrite (a : Nat) (bs : List Byte) (s : Dev) : Dev :=
  { s with plain := mputs 0 s.plain a bs
           pln := { s.pln with poisoned := s.pln.poisoned.filter fun w => !wordsOf a bs.length w } }

/-! Runs of numbers -/

/-- How many numbers the runs hold. -/
def segCount (l : Segs) : Nat := (l.map (·.2)).sum

/-- Take the number at the head. -/
def segTake : Segs → Option (Nat × Segs)
  | [] => none
  | (a, n) :: r => if n = 0 then segTake r else if n = 1 then some (a, r) else some (a, (a + 1, n - 1) :: r)

/-- Is a number among the runs? -/
def segHas (l : Segs) (x : Nat) : Bool := l.any fun e => decide (e.1 ≤ x ∧ x < e.1 + e.2)

/-- Take one named number out of the runs, keeping the order of the rest. -/
def segPick (l : Segs) (x : Nat) : Segs :=
  l.flatMap fun e =>
    if e.1 ≤ x ∧ x < e.1 + e.2 then
      (if e.1 < x then [(e.1, x - e.1)] else []) ++ (if x + 1 < e.1 + e.2 then [(x + 1, e.1 + e.2 - (x + 1))] else [])
    else [e]

/-- Return a number to the tail. -/
def segGive (l : Segs) (x : Nat) : Segs :=
  match l.getLast? with
  | some (a, n) => if a + n = x then l.dropLast ++ [(a, n + 1)] else l ++ [(x, 1)]
  | none => [(x, 1)]

/-! Handles (R47, R48) -/

/-- The kind of a handle. -/
def hKind (h : Word) : Nat := h.toNat / 2 ^ 28

/-- The generation of a handle. -/
def hGen (h : Word) : Nat := h.toNat / 2 ^ 20 % 256

/-- The index of a handle. -/
def hIndex (h : Word) : Nat := h.toNat % 2 ^ 20

/-- The object key of a kind and an index. -/
def okey (kind index : Nat) : Nat := kind * 2 ^ 20 + index

/-- The object key of a handle: the handle without its generation. -/
def hKey (h : Word) : Nat := okey (hKind h) (hIndex h)

/-- A handle of kind, generation and index. -/
def mkHandle (kind gen index : Nat) : Word := BitVec.ofNat 32 (kind * 2 ^ 28 + gen % 256 * 2 ^ 20 + index)

/-- The number of objects of a kind (R47). -/
def kindLimit : Nat → Nat
  | 1 => 131072
  | 2 => 32768
  | 3 => 4096
  | 4 => 16
  | 5 => 8
  | 6 => 32
  | 7 => 8
  | 8 => 4096
  | 9 => 65536
  | 0xA => 1024
  | 0xB => 32
  | 0xC => 8
  | 0xD => 64
  | 0xE => 4096
  | _ => 0

/-- The object under a key. -/
def objAt (s : Dev) (k : Nat) : Option HObj := tget s.hdl.objs k

/-- The object a handle names, if the handle is valid (R48). -/
def objOf (s : Dev) (h : Word) : Option HObj :=
  match objAt s (hKey h) with
  | some o => if o.gen = hGen h then some o else none
  | none => none

/-- The handle of an object in use. -/
def handleOf (s : Dev) (k : Nat) : Word :=
  match objAt s k with
  | some o => mkHandle (k / 2 ^ 20) o.gen (k % 2 ^ 20)
  | none => 0

/-- Replace an object. -/
def setObj (k : Nat) (o : HObj) (s : Dev) : Dev := { s with hdl.objs := tput s.hdl.objs k o }

/-- Change an object in use. -/
def modObj (k : Nat) (f : HObj → HObj) (s : Dev) : Dev := { s with hdl.objs := tmod s.hdl.objs k f }

/-- Is a channel RUNNING? -/
def isRunning (s : Dev) (k : Nat) : Bool :=
  match objAt s k with
  | some o => o.state == 2
  | none => false

/-- Is a channel RUNNING or HELD? -/
def isLive (s : Dev) (k : Nat) : Bool :=
  match objAt s k with
  | some o => o.state == 2 || o.state == 4
  | none => false

/-- The free indices of a kind, in release order. -/
def freeIdx (s : Dev) (kind : Nat) : Segs := (tget s.hdl.slots kind).getD [(0, kindLimit kind)]

/-- The current generation of an index. -/
def genOf (s : Dev) (k : Nat) : Nat := (tget s.hdl.gens k).getD 0

/-- Release an index: its generation advances and it joins the tail of its kind's free indices (R48). -/
def releaseIdx (k : Nat) (s : Dev) : Dev :=
  { s with
    hdl.objs := tdel s.hdl.objs k
    hdl.gens := tput s.hdl.gens k ((genOf s k + 1) % 256)
    hdl.slots := tput s.hdl.slots (k / 2 ^ 20) (segGive (freeIdx s (k / 2 ^ 20)) (k % 2 ^ 20)) }

/-! The ledger (R65-R68) -/

/-- The used charge of a line. -/
def usedOf (s : Dev) (line : Nat) : Nat := (tget s.hdl.used line).getD 0

/-- Line rate of a fixture port in bit/s, from MACn.CTRL's configured rate (chapter 10). -/
def rateBits : Nat → Nat
  | 0 => 1000000000
  | 1 => 2500000000
  | _ => 10000000000

/-- The charge on one line of a list of charges. -/
def chargeOn (l : List (Nat × Nat)) (line : Nat) : Nat := ((l.filter (·.1 == line)).map (·.2)).sum

/-- Charge a list of charges to the ledger. -/
def chargeAll (l : List (Nat × Nat)) (s : Dev) : Dev :=
  { s with hdl.used := l.foldl (fun u e => tput u e.1 ((tget u e.1).getD 0 + e.2)) s.hdl.used }

/-- Credit a list of charges. -/
def creditAll (l : List (Nat × Nat)) (s : Dev) : Dev :=
  { s with hdl.used := l.foldl (fun u e => tput u e.1 ((tget u e.1).getD 0 - e.2)) s.hdl.used }

/-! The pager (R85-R92) -/

/-- The page-table entry of a page of a key's handle-relative space. -/
def pteAt (s : Dev) (k page : Nat) : Option Pte := tget s.pln.ptes (k * 65536 + page)

/-- Keys of the pages the device itself owns (R86): the firmware image, the command rings with the argument area, the
checkpoint receive area, and the receive rings of port `n`. -/
def fwKey : Nat := 0
def ringKey : Nat := 1
def ckptKey : Nat := 2
def rxKey (n : Nat) : Nat := 16 + n

/-- Take one page from the head of the free list and map it; the state is unchanged where there is none. -/
def mapPage (k page : Nat) (pinned hw ck : Bool) (s : Dev) : Dev :=
  match segTake s.pln.free with
  | some (ppn, rest) =>
    { s with
      pln.free := rest
      pln.ptes := tput s.pln.ptes (k * 65536 + page) { ppn := ppn, p := pinned, d := false, hw := hw, ck := ck, rt := false } }
  | none => s

/-- Map pages [from, from + n) of a key. -/
def mapPages (k first : Nat) (pinned hw ck : Bool) : Nat → Dev → Dev
  | 0, s => s
  | n + 1, s => mapPages k (first + 1) pinned hw ck n (mapPage k first pinned hw ck s)

/-- The entries of a key, as (page, entry). -/
def ptesOf (s : Dev) (k : Nat) : List (Nat × Pte) :=
  (s.pln.ptes.filter fun e => e.1 / 65536 == k).map fun e => (e.1 % 65536, e.2)

/-- Pages a key has pinned. -/
def pinnedOf (s : Dev) (k : Nat) : Nat := ((ptesOf s k).filter (·.2.p)).length

/-- Demand-paged pool pages in use: entries with P clear, rings only (R85, R88). -/
def poolUsed (s : Dev) : Nat := (s.pln.ptes.filter fun e => !e.2.p).length

/-- Demand-paged pages the pool holds (R85). -/
def poolPages : Nat := 4096

/-- An access of a demand-paged page goes through the translation cache; a miss counts in PLN.XLAT_MISS (R88). -/
def xlatTouch (k page : Nat) (s : Dev) : Dev :=
  let key := k * 65536 + page
  let set := Config.xlatSet key % 1024
  let ways := (tget s.pln.xlat set).getD []
  let s' := { s with pln.xlat := tput s.pln.xlat set ((key :: ways.filter (· != key)).take 4) }
  if ways.contains key then s' else bump R.PLN_XLAT_MISS s'

/-- The first write to an unmapped page of a demand-paged handle takes a page from the pool and zeroes it; a write that finds
the pool empty is discarded and counted (R88). True: the page is mapped. -/
def demandPage (k page : Nat) (hw : Bool) (s : Dev) : Dev × Bool :=
  if (pteAt s k page).isSome then (xlatTouch k page s, true)
  else if s.pln.stopped || decide (poolPages ≤ poolUsed s) || (segTake s.pln.free).isNone then
    (bump R.PLN_POOL_FAIL (xlatTouch k page s), false)
  else
    let s := mapPage k page false hw false (xlatTouch k page s)
    let s := match pteAt s k page with
      | some p => { s with plain := s.plain.filter fun e => e.1 / pageBytes != p.ppn }
      | none => s
    (setFld F.PLN_POOL_PEAK (max (fld s F.PLN_POOL_PEAK) (poolUsed s)) s, true)

/-- Write bytes at a handle-relative address whose page is mapped; the page becomes dirty (R86). -/
def relWrite (k addr : Nat) (bs : List Byte) (s : Dev) : Dev :=
  match pteAt s k (addr / pageBytes) with
  | some p =>
    plainWrite (p.ppn * pageBytes + addr % pageBytes) bs
      { s with pln.ptes := tput s.pln.ptes (k * 65536 + addr / pageBytes) { p with d := true } }
  | none => s

/-- Read bytes at a handle-relative address inside one page; an unmapped page reads zeros (R88). -/
def relRead (s : Dev) (k addr n : Nat) : List Byte :=
  match pteAt s k (addr / pageBytes) with
  | some p => plainBytes s (p.ppn * pageBytes + addr % pageBytes) n
  | none => List.replicate n 0

/-- Is the 64-bit word of a handle-relative address poisoned (R91)? -/
def relPoisoned (s : Dev) (k addr : Nat) : Bool :=
  match pteAt s k (addr / pageBytes) with
  | some p => s.pln.poisoned.contains ((p.ppn * pageBytes + addr % pageBytes) / 8)
  | none => false

/-! Identity (chapter 3) -/

/-- The unique identifier that the fuses give (R82). -/
def fuseUid (f : Fuses) : Nat := uidOf f.lot f.wafer f.dieX f.dieY

/-! Which register blocks answer (R9, R38) -/

/-- The blocks that answer in DAYBREAK and LOAD: SYS, ID, CAL, BOOT, PLN and SPM. -/
def earlyBlock (off : Nat) : Bool := [0, 1, 2, 4, 9, 10].contains (off / 0x10000)

/-- Does the block of a BAR0 offset answer reads in the present mode? -/
def bar0Up (s : Dev) (off : Nat) : Bool :=
  match s.sys.mode with
  | .reset => false
  | .daybreak => earlyBlock off
  | .load => earlyBlock off
  | _ => true

/-- Does it accept writes? CAL, PLN and SPM ignore them until CONFIGURE begins. -/
def bar0Writable (s : Dev) (off : Nat) : Bool :=
  bar0Up s off &&
    match s.sys.mode with
    | .daybreak => [0, 1, 4].contains (off / 0x10000)
    | .load => [0, 1, 4].contains (off / 0x10000)
    | _ => true

/-- Does a PCIe access reach the device at all? Not in RESET and not while PERST_N is low (R25, R27). -/
def pcieUp (s : Dev) : Bool := s.sys.mode != .reset && !s.sys.perstLow

end Sys2Proof.Machine
end

