-- ==== Sys2Proof/Machine/Que.lean ====
section
/-! DEFINITION. Rings and the host ports of QUE (chapter 5, R114-R126), and the posting of items by every block. -/

namespace Sys2Proof.Machine

/-- The object key of a ring number. -/
def ringObj (n : Nat) : Nat := okey 0xA n

/-- On-chip rings hold 16 to 4,096 words; larger rings lie in the Plain (R114). -/
def Ring.plain (r : Ring) : Bool := decide (8192 ≤ r.size)

/-- Words of every unreleased item. -/
def Ring.used (r : Ring) : Nat := (r.items.map fun i => i.words.length).sum

/-- Committed items not yet read in full (R118). -/
def Ring.depth (r : Ring) : Nat := r.items.length - r.read

/-- The oldest item leaves to make room: a read, unreleased item counts in READ_LOST, an unread one in LOST; an item being
read is cut (R117, R123). -/
def Ring.overwrite (r : Ring) : Ring :=
  let mark := match r.mark with
    | some (m + 1) => some m
    | _ => none
  if r.read > 0 then { r with items := r.items.tail, read := r.read - 1, readLost := min (r.readLost + 1) 0xFFFFFFFF, mark := mark }
  else { r with items := r.items.tail, lost := min (r.lost + 1) 0xFFFFFFFF, mark := mark
                cut := r.cut || decide (r.part > 0), part := 0 }

/-- Overwrite the oldest items, one at a time, until `need` words are free. -/
def Ring.makeRoom (need : Nat) : Nat → Ring → Ring
  | 0, r => r
  | fuel + 1, r => if r.used + need ≤ r.size ∨ r.items = [] then r else Ring.makeRoom need fuel r.overwrite

/-- Write one word of a Plain ring; false where the pool has no page. -/
def ringWord (n : Nat) (r : Ring) (pos v : Nat) (s : Dev) : Dev × Bool :=
  let a := 8 * (pos % r.size)
  let (s, ok) := demandPage (ringObj n) (a / pageBytes) r.hostWrite s
  if ok then (relWrite (ringObj n) a (leBytes 8 v) s, true) else (s, false)

/-- Write the words of an item of a Plain ring. -/
def ringStore (n : Nat) (r : Ring) (pos : Nat) : List Nat → Dev → Dev × Bool
  | [], s => (s, true)
  | w :: ws, s =>
    let (s, ok) := ringWord n r pos w s
    if ok then ringStore n r (pos + 1) ws s else (s, false)

/-- The ring's vector: sent when the depth rises to IRQ_DEPTH from below, at most once per 10 µs (R125). -/
def ringIrq (n before : Nat) (s : Dev) : Dev :=
  match tget s.que.rings n with
  | none => s
  | some r =>
    if r.irqVec ≠ 0 ∧ before < r.irqDepth ∧ r.irqDepth ≤ r.depth then
      if (match r.vecLast with | some v => decide (v + us 10 ≤ s.raw) | none => true) then
        emit (.msix r.irqVec) { s with que.rings := tput s.que.rings n { r with vecLast := some s.raw, vecOwed := false } }
      else { s with que.rings := tput s.que.rings n { r with vecOwed := true } }
    else s

/-- A commit granted by the ring's arbiter: room is made by overwriting, then the item enters (R117). -/
def ringCommit (n : Nat) (words : List Nat) (s : Dev) : Dev × Bool :=
  match tget s.que.rings n with
  | none => (s, true)
  | some r =>
    let r := r.makeRoom words.length (r.items.length + 1)
    let (s, ok) := if r.plain then ringStore n r r.wpos words s else (s, true)
    let r' := if ok then
        { r with items := r.items ++ [⟨r.wpos, words⟩], wpos := (r.wpos + words.length) % r.size }
      else { r with lost := min (r.lost + 1) 0xFFFFFFFF }
    (ringIrq n r.depth { s with que.rings := tput s.que.rings n r' }, ok)

/-- A header word (R115). -/
def itemHead (typ src data len : Nat) : Nat := typ * 2 ^ 60 + len * 2 ^ 56 + src * 2 ^ 48 + data % 2 ^ 48

/-- Route an item by its source code (R125): discarded and counted where the route is disabled or its ring is gone. -/
def routeItem (src : Nat) (words : List Nat) (s : Dev) : Dev × Bool :=
  let n := fld s (F.QUE_ROUTE_RING src)
  if bitOf s (F.QUE_ROUTE_EN src) && (tget s.que.rings n).isSome then ringCommit n words s
  else (bump R.QUE_UNROUTED s, true)

/-- POOL_EXHAUSTED is posted at most once per second (R88). -/
def postPool (s : Dev) : Dev :=
  if (match s.pln.poolPosted with | some v => decide (v + sec 1 ≤ s.raw) | none => true) then
    (routeItem 0x09 [itemHead 2 0x09 (0x02 * 2 ^ 40) 0] { s with pln.poolPosted := some s.raw }).1
  else s

/-- A block posts an item: type, source code, data of the header and payload words. -/
def post (src typ data : Nat) (payload : List Nat) (s : Dev) : Dev :=
  let (s, ok) := routeItem src (itemHead typ src data payload.length :: payload) s
  if ok then s else postPool s

/-- An item whose header carries an event code in [47:40] and other data below it. -/
def postCode (src typ code low : Nat) (s : Dev) : Dev := post src typ (code * 2 ^ 40 + low) [] s

/-! Uncorrectable words (R91, R102) -/

/-- A double-bit error in a 64-bit word of the Plain: counted, kept in PLN.ECC_ADDR, posted; the word is poisoned until it is
written, and its page will be retired. -/
def plnUncorr (w : Nat) (s : Dev) : Dev :=
  let s := setBit F.PLN_ECC_ADDR_VALID true <| setFld F.PLN_ECC_ADDR_WORD w <| setBit F.SYS_FAULT_ECC_UNCORR true <|
    bump R.PLN_ECC_UNCORR
      { s with
        pln.poisoned := w :: s.pln.poisoned.filter (· != w)
        pln.ptes := s.pln.ptes.map fun e => if e.2.ppn = w / 8192 then (e.1, { e.2 with rt := true }) else e }
  postCode 0x09 2 0x01 (w % 2 ^ 31) (lifeUp 9 s)

/-- A double-bit error in a 64-bit word of the scratchpad (R102). -/
def spmUncorr (w : Nat) (s : Dev) : Dev :=
  let s := setBit F.SPM_ECC_ADDR_VALID true <| setFld F.SPM_ECC_ADDR_WORD w <| setBit F.SYS_FAULT_ECC_UNCORR true <|
    bump R.SPM_ECC_UNCORR s
  postCode 0x0A 2 0x01 (w % 2 ^ 20) (lifeUp 9 s)

/-- A scratchpad word whose place inside a region the spec does not give: a free value inside the region's words. -/
def spmLost (first words : Nat) (s : Dev) : Dev := spmUncorr (first + Config.freeNat s.free % words) (drawn s)

/-! The host push port (R116) -/

/-- Result codes (R64). -/
abbrev rcDone : Nat := 0x00
abbrev rcBusy : Nat := 0x01
abbrev rcNoSpace : Nat := 0x02
abbrev rcNoCapacity : Nat := 0x03
abbrev rcBadHandle : Nat := 0x04
abbrev rcOutOfRange : Nat := 0x05
abbrev rcConflict : Nat := 0x06
abbrev rcWrongMode : Nat := 0x07
abbrev rcNotAuthentic : Nat := 0x08
abbrev rcIncompatible : Nat := 0x09
abbrev rcLate : Nat := 0x0A
abbrev rcAborted : Nat := 0x0B
abbrev rcNotOwner : Nat := 0x0C
abbrev rcMediaError : Nat := 0x0D
abbrev rcUnsupported : Nat := 0x0E

/-- Show a result in QUE.PUSH_STATUS. -/
def pushResult (rc : Nat) (s : Dev) : Dev := setFld F.QUE_PUSH_STATUS_RESULT rc s

/-- A write of QUE.PUSH_RING (R116). With a reservation open nothing but the result changes. -/
def pushRing (v : Word) (s : Dev) : Dev :=
  let n := F.QUE_PUSH_RING_RING.of v
  let w := F.QUE_PUSH_RING_WORDS.of v
  match s.que.resv with
  | some _ => pushResult rcConflict s
  | none =>
    let s := setRg R.QUE_PUSH_RING (v &&& 0x001F03FF) s
    match tget s.que.rings n with
    | none => pushResult rcNotOwner s
    | some r =>
      if !r.hostWrite then pushResult rcNotOwner s
      else if w > 16 ∨ w > r.size then pushResult rcOutOfRange s
      else if w = 0 then pushResult rcDone s
      else
        pushResult rcDone <| setFld F.QUE_PUSH_STATUS_WRITTEN 0 <| setFld F.QUE_PUSH_STATUS_OPEN 1
          { s with que.resv := some ⟨n, w, [], false, false⟩ }

/-- A write of QUE.PUSH_DATA_HI appends the word formed with the last QUE.PUSH_DATA_LO; with no reservation open, or after 31
words (WRITTEN's field), it changes nothing. -/
def pushHi (v : Word) (s : Dev) : Dev :=
  match s.que.resv with
  | none => s
  | some q =>
    if 31 ≤ q.staged.length then s
    else
      setFld F.QUE_PUSH_STATUS_WRITTEN (q.staged.length + 1)
        { s with que.resv := some { q with staged := q.staged ++ [v.toNat * 2 ^ 32 + s.que.dataLo] } }

/-- Is an item well formed at commit (R115)? -/
def itemOk (words reserved : Nat) (head : Nat) : Bool :=
  let ty := head / 2 ^ 60
  decide (ty ≠ 0 ∧ ty < 0xD) && head / 2 ^ 56 % 16 == words - 1 && words == reserved

/-- A write of QUE.PUSH_COMMIT.GO (R116, R121). -/
def pushCommitGo (s : Dev) : Dev :=
  match s.que.resv with
  | none => s
  | some q =>
    let s := setFld F.QUE_PUSH_STATUS_WRITTEN 0 <| setFld F.QUE_PUSH_STATUS_OPEN 0 { s with que.resv := none }
    if q.dead then pushResult rcAborted s
    else if q.flushed then
      pushResult rcAborted
        { s with que.rings := tmod s.que.rings q.ring fun r => { r with flushed := min (r.flushed + 1) 0xFFFFFFFF } }
    else
      match q.staged with
      | h :: _ =>
        if itemOk q.staged.length q.words h then
          let (s, ok) := ringCommit q.ring q.staged (pushResult rcDone s)
          if ok then s else postPool s
        else pushResult rcOutOfRange s
      | [] => pushResult rcOutOfRange s

/-! The host pop port (R118, R119) -/

/-- Word `i` of an item: from the scratchpad on an on-chip ring, from the Plain (as it stands now) on a Plain ring. -/
def itemWord (s : Dev) (n : Nat) (r : Ring) (it : RItem) (i : Nat) : Nat :=
  if r.plain then leNat (relRead s (ringObj n) (8 * ((it.pos + i) % r.size)) 8) else it.words.getD i 0

/-- The item at the read position has been read in full: freed on an on-chip ring, kept unreleased on a Plain ring. -/
def Ring.finish (r : Ring) : Ring :=
  if r.plain then { r with read := r.read + 1, part := 0 } else { r with items := r.items.tail, part := 0 }

/-- A read of QUE.POP_LO: the next word of the selected ring, its high half latched. -/
def popLo (s : Dev) : Dev × Word :=
  let n := fld s F.QUE_POP_RING_RING
  let show_ (lo hi idle denied cut : Nat) (s : Dev) : Dev × Word :=
    (setFld F.QUE_POP_STATUS_IDLE idle <| setFld F.QUE_POP_STATUS_DENIED denied <|
      setFld F.QUE_POP_STATUS_CUT (max cut (fld s F.QUE_POP_STATUS_CUT)) <| setRg R.QUE_POP_HI (BitVec.ofNat 32 hi) s,
      BitVec.ofNat 32 lo)
  match tget s.que.rings n with
  | none => show_ 0 0 0 1 0 s
  | some r =>
    if !r.hostConsumer then show_ 0 0 0 1 0 s
    else
      let cut := if r.cut then 1 else 0
      match r.items[r.read]? with
      | none => show_ 0 0 1 0 cut { s with que.rings := tput s.que.rings n { r with cut := false } }
      | some it =>
        let w := itemWord s n r it r.part
        let left := it.words.length - (r.part + 1)
        let r' := if left = 0 then r.finish else { r with part := r.part + 1 }
        let s := if r.plain then xlatTouch (ringObj n) (8 * ((it.pos + r.part) % r.size) / pageBytes) s else s
        show_ (w % 2 ^ 32) (w / 2 ^ 32) 0 0 cut { s with que.rings := tput s.que.rings n { r' with cut := false } }

/-- The word at the read position of the selected ring cannot be corrected (R124): a payload word loses its item, a header word
every item up to the write position. -/
def ringUncorr (s : Dev) : Dev :=
  let n := fld s F.QUE_POP_RING_RING
  match tget s.que.rings n with
  | none => s
  | some r =>
    match r.items[r.read]? with
    | none => s
    | some it =>
      let a := 8 * ((it.pos + r.part) % r.size)
      let s := if r.plain then
          match pteAt s (ringObj n) (a / pageBytes) with
          | some p => plnUncorr ((p.ppn * pageBytes + a % pageBytes) / 8) s
          | none => s
        else spmLost 0x50000 131072 s
      let k := if r.part = 0 then r.items.length - r.read else 1
      let r' := { r with items := r.items.take r.read ++ r.items.drop (r.read + k), part := 0, cut := true,
                         lost := min (r.lost + k) 0xFFFFFFFF }
      let code := if r.part = 0 then 0x02 else 0x01
      postCode 0x08 2 code n (bump R.QUE_ECC_UNCORR { s with que.rings := tput s.que.rings n r' })

/-- Is a word there to be read at the pop port? -/
def popAny (s : Dev) : Bool :=
  match tget s.que.rings (fld s F.QUE_POP_RING_RING) with
  | some r => r.hostConsumer && decide (r.read < r.items.length)
  | none => false

/-- The words left of the item at the read position of the selected ring. -/
def popLeft (s : Dev) : Nat :=
  match tget s.que.rings (fld s F.QUE_POP_RING_RING) with
  | some r => if r.part = 0 then 0 else ((r.items[r.read]?).map fun i => i.words.length).getD 0 - r.part
  | none => 0

/-- A write of QUE.POP_CTRL.DROP_REST discards the rest of the current item of an on-chip ring. -/
def dropRestGo (s : Dev) : Dev :=
  let n := fld s F.QUE_POP_RING_RING
  match tget s.que.rings n with
  | none => s
  | some r =>
    if r.plain || !r.hostConsumer || popLeft s == 0 then s
    else { s with que.rings := tput s.que.rings n r.finish }

/-! Derived registers -/

/-- Words of the on-chip ring region not allocated. -/
def onchipFree (s : Dev) : Nat := 131072 - ((s.que.rings.filter fun e => !e.2.plain).map fun e => e.2.size).sum

/-- QUE's registers that show the selected ring. -/
def queView (s : Dev) (off : Nat) : Option Word :=
  let r := tget s.que.rings (fld s F.QUE_STAT_SEL_RING)
  let num (f : Ring → Nat) : Word := BitVec.ofNat 32 ((r.map f).getD 0)
  let b (x : Bool) : Nat := if x then 1 else 0
  if off = R.QUE_POP_STATUS then some (F.QUE_POP_STATUS_LEFT.into (rg s off) (popLeft s))
  else if off = R.QUE_STAT_CFG then
    some (num fun r => 1 + 2 * b r.plain + 4 * b r.hostWrite + 8 * b r.hostConsumer + 16 * b r.mark.isSome +
      256 * r.consumer + 65536 * r.irqVec)
  else if off = R.QUE_STAT_SIZE then some (num (·.size))
  else if off = R.QUE_STAT_DEPTH then some (num (·.depth))
  else if off = R.QUE_STAT_WORDS then some (num (·.used))
  else if off = R.QUE_STAT_LOST then some (num (·.lost))
  else if off = R.QUE_STAT_READ_LOST then some (num (·.readLost))
  else if off = R.QUE_STAT_FLUSHED then some (num (·.flushed))
  else if off = R.QUE_STAT_CORR then some (num (·.corr))
  else if off = R.QUE_ONCHIP_FREE then some (BitVec.ofNat 32 (onchipFree s))
  else none

/-! The ring commands (R120, R121) -/

/-- RING_FLUSH: every item and the mark go, and an open reservation on the ring is voided. Answers items and reservations. -/
def flushRing (n : Nat) (s : Dev) : Dev × Nat × Nat :=
  match tget s.que.rings n with
  | none => (s, 0, 0)
  | some r =>
    let k := r.items.length
    let hit := match s.que.resv with
      | some q => decide (q.ring = n) && !q.flushed && !q.dead
      | none => false
    ({ s with
        que.rings := tput s.que.rings n
          { r with items := [], read := 0, part := 0, mark := none, cut := false, flushed := min (r.flushed + k) 0xFFFFFFFF }
        que.resv := if hit then s.que.resv.map fun q => { q with flushed := true } else s.que.resv },
      k, if hit then 1 else 0)

/-- RING_MARK on a Plain ring: the mark stands at the item being read. -/
def markRing (n : Nat) (s : Dev) : Dev × Nat :=
  match tget s.que.rings n with
  | none => (s, 0)
  | some r => ({ s with que.rings := tput s.que.rings n { r with mark := some r.read } }, r.read)

/-- RING_REWIND on a Plain ring: back to the mark, or to the release position without one; answers the items made unread and
whether the mark was invalid. -/
def rewindRing (n : Nat) (s : Dev) : Dev × Nat × Bool :=
  match tget s.que.rings n with
  | none => (s, 0, true)
  | some r =>
    let goal := min (r.mark.getD 0) r.read
    (ringIrq n r.depth { s with que.rings := tput s.que.rings n { r with read := goal, part := 0 } },
      r.read - goal, r.mark.isNone)

/-- RING_RELEASE on a Plain ring: the oldest `k` read items are freed; answers the words freed. -/
def releaseRing (n k : Nat) (s : Dev) : Dev × Nat :=
  match tget s.que.rings n with
  | none => (s, 0)
  | some r =>
    let words := ((r.items.take k).map fun i => i.words.length).sum
    let mark := match r.mark with
      | some m => if m < k then none else some (m - k)
      | none => none
    ({ s with que.rings := tput s.que.rings n { r with items := r.items.drop k, read := r.read - k, mark := mark } }, words)

/-! The commands of this block -/

/-- PUSH_RING_WRITE (R116). -/
def runPushRingWrite (t : Time) (v : Word) (s : Dev) : Host.Outcome Dev Fault Refusal :=
  let s := upTo t s
  .next (if pcieUp s && bar0Writable s R.QUE_PUSH_RING then pushRing v s else s)

/-- PUSH_DATA_HI_WRITE (R116). -/
def runPushDataHiWrite (t : Time) (v : Word) (s : Dev) : Host.Outcome Dev Fault Refusal :=
  let s := upTo t s
  .next (if pcieUp s && bar0Writable s R.QUE_PUSH_DATA_HI then pushHi v s else s)

/-- PUSH_COMMIT (R116): a write with GO clear does nothing. -/
def runPushCommit (t : Time) (v : Word) (s : Dev) : Host.Outcome Dev Fault Refusal :=
  let s := upTo t s
  .next (if pcieUp s && bar0Writable s R.QUE_PUSH_COMMIT && bit v.toNat 0 then pushCommitGo s else s)

/-- POP_LO_READ (R118): the read is answered with bits [31:0]; a block that does not answer yet reads 0 (R38). `bad`: the word at
the read position cannot be corrected (R124), so its item is gone before the read is answered. -/
def runPopLoRead (t : Time) (bad : Bool) (s : Dev) : Host.Outcome Dev Fault Refusal :=
  let s := upTo t s
  .next (if !pcieUp s then s
    else if bar0Up s R.QUE_POP_LO then
      let (s, w) := popLo (if bad && popAny s then ringUncorr s else s)
      emit (.readData (leBytes 4 w.toNat)) s
    else emit (.readData (leBytes 4 0)) s)

/-- DROP_REST (R119): a write with DROP_REST clear does nothing. -/
def runDropRest (t : Time) (v : Word) (s : Dev) : Host.Outcome Dev Fault Refusal :=
  let s := upTo t s
  .next (if pcieUp s && bar0Writable s R.QUE_POP_CTRL && bit v.toNat 0 then dropRestGo s else s)

/-- RING_VECTOR_PACING (R125): the owed vector goes out 10 µs after the ring's last one, if the depth still stands. -/
def runRingVectorPacing (t : Time) (n : Nat) (s : Dev) : Host.Outcome Dev Fault Refusal :=
  let s := upTo t s
  .next (match tget s.que.rings n with
    | some r =>
      if r.vecOwed && (match r.vecLast with | some v => decide (v + us 10 ≤ s.raw) | none => true) then
        if r.irqDepth ≤ r.depth then
          emit (.msix r.irqVec) { s with que.rings := tput s.que.rings n { r with vecLast := some s.raw, vecOwed := false } }
        else { s with que.rings := tput s.que.rings n { r with vecOwed := false } }
      else s
    | none => s)

end Sys2Proof.Machine
end

