-- ==== Sys2Proof/Machine/Sch.lean ====
section
/-! DEFINITION. The scheduler (chapter 5, R106-R113): tasks, readiness, levels, order groups and inboxes. -/

namespace Sys2Proof.Machine

/-- The level of a task from its owner's class and priority (R109). -/
def levelOf (cls prio : Nat) : Nat := if cls = 0 then 8 + prio / 2 else 4 + prio / 4

/-- Does the task meet its mask (R108)? -/
def Task.ready (t : Task) : Bool :=
  t.mask != 0 && (if t.all then t.flags &&& t.mask == t.mask else t.flags &&& t.mask != 0)

/-- Flag 0 is 1 while the inbox holds an item. -/
def Task.sync (t : Task) : Task :=
  { t with flags := t.flags / 2 * 2 + (if t.inbox = [] then 0 else 1) }

/-- The group state of a group number. -/
def groupAt (s : Dev) (g : Nat) : Group := (tget s.sch.groups g).getD {}

/-- May a grouped task go: the group is not BUSY and its oldest item, if it has one, carries SERVE (R111, log 10). -/
def groupOk (s : Dev) (t : Task) : Bool :=
  !t.grouped ||
    (let g := groupAt s t.group
     !g.busy && match t.inbox with
       | i :: _ => i / 2 ^ 48 == g.serve
       | [] => true)

/-- Replace a task. -/
def setTask (n : Nat) (t : Task) (s : Dev) : Dev := { s with sch.tasks := tput s.sch.tasks n t }

/-- The ready list of an engine and level. -/
def readyAt (s : Dev) (engine level : Nat) : List Nat := (tget s.sch.ready (engine * 16 + level)).getD []

/-- Replace a ready list. -/
def setReady (engine level : Nat) (l : List Nat) (s : Dev) : Dev :=
  { s with sch.ready := if l = [] then tdel s.sch.ready (engine * 16 + level)
                        else tput s.sch.ready (engine * 16 + level) l }

/-- Put a task on its ready list if it is ready, not RUNNING and not there already; a ready grouped task that its group holds
sets GROUP_WAIT instead (R110, R111). -/
def makeReady (n : Nat) (s : Dev) : Dev :=
  match tget s.sch.tasks n with
  | none => s
  | some t =>
    if t.queued || t.running || !t.ready then s
    else if groupOk s t then
      setReady t.exec t.level (readyAt s t.exec t.level ++ [n]) (setTask n { t with queued := true, groupWait := false } s)
    else if t.groupWait then s
    else bump R.SCH_GROUP_WAITS (setTask n { t with groupWait := true } s)

/-- Post event flags to a task; a post to flag 0 is ignored (R108). -/
def postFlags (n flags : Nat) (s : Dev) : Dev :=
  match tget s.sch.tasks n with
  | none => s
  | some t => makeReady n (setTask n { t with flags := t.flags ||| flags / 2 * 2 } s)

/-- Is there room for a push: COUNT below LIMIT and, in a group, fewer than 65,535 stamped items outstanding (R113)? -/
def pushRoom (s : Dev) (t : Task) : Bool :=
  decide (t.inbox.length < t.limit) &&
    (!t.grouped || (let g := groupAt s t.group; (g.issue + 65536 - g.serve) % 65536 != 65535))

/-- A granted push: the item is stamped in a group, stored, and flag 0 set (R111, R112). -/
def grantPush (n item : Nat) (s : Dev) : Dev :=
  match tget s.sch.tasks n with
  | none => s
  | some t =>
    let g := groupAt s t.group
    let stamp := if t.grouped then g.issue else 0
    let s := if t.grouped then
        { s with sch.groups := tput s.sch.groups t.group { g with issue := (g.issue + 1) % 65536 } } else s
    makeReady n (setTask n { t with inbox := t.inbox ++ [item % 2 ^ 48 + stamp * 2 ^ 48] }.sync s)

/-- The pushes that wait on a task. -/
def waitsAt (s : Dev) (n : Nat) : List Nat := (tget s.sch.waits n).getD []

/-- Replace the pushes that wait on a task. -/
def setWaits (n : Nat) (l : List Nat) (s : Dev) : Dev :=
  { s with sch.waits := if l = [] then tdel s.sch.waits n else tput s.sch.waits n l }

/-- A producer pushes an item: granted, or it waits behind the pushes that wait already; no item is dropped (R113). -/
def pushItem (n item : Nat) (s : Dev) : Dev :=
  match tget s.sch.tasks n with
  | none => s
  | some t =>
    if pushRoom s t && waitsAt s n == [] then grantPush n item s
    else
      let s := bump R.SCH_BP_WAITS (setWaits n (waitsAt s n ++ [item]) s)
      if (match tget s.sch.fullAt n with | some v => decide (v + sec 1 ≤ s.raw) | none => true) then
        postCode 0x07 0xB 1 n { s with sch.fullAt := tput s.sch.fullAt n s.raw }
      else s

/-- The oldest waiting push is granted once there is room. -/
def grantWaiting (n : Nat) (s : Dev) : Dev :=
  match tget s.sch.tasks n, waitsAt s n with
  | some t, w :: ws => if pushRoom s t then grantPush n w (setWaits n ws s) else s
  | _, _ => s

/-- The highest non-empty level of an engine, searched from level `l - 1` down. -/
def topLevel (s : Dev) (engine : Nat) : Nat → Option Nat
  | 0 => none
  | l + 1 => if readyAt s engine l = [] then topLevel s engine l else some l

/-- Hand a task to an executor (R110): flags, oldest item, BUSY of its group. -/
def dispatchTask (n : Nat) (t : Task) (s : Dev) : Dev :=
  let seen := t.flags &&& t.mask
  let takes := bit t.mask 0 && t.inbox != []
  let item := if takes then t.inbox.head? else none
  let t' : Task :=
    { t with
      flags := t.flags - (seen / 2 * 2)
      inbox := (if takes then t.inbox.tail else t.inbox)
      head := (if takes then (t.head + 1) % t.limit else t.head)
      queued := false
      running := true
      level := t.nextLevel
      dispatches := (t.dispatches + 1) % 2 ^ 32 }
  let s := if t.grouped then
      { s with sch.groups := tput s.sch.groups t.group { groupAt s t.group with busy := true } } else s
  bump R.SCH_DISPATCHES (setTask n t'.sync { s with sch.handed := tput s.sch.handed n (seen, item) })

/-- An executor of an engine is free: the head task of the highest non-empty level goes; a grouped task that its group now
holds leaves the list for GROUP_WAIT and the next is tried. -/
def dispatchNext (engine : Nat) : Nat → Dev → Dev
  | 0, s => s
  | fuel + 1, s =>
    match topLevel s engine 16 with
    | none => s
    | some l =>
      match readyAt s engine l with
      | [] => s
      | n :: rest =>
        let s := setReady engine l rest s
        match tget s.sch.tasks n with
        | none => dispatchNext engine fuel s
        | some t =>
          if groupOk s t then dispatchTask n t s
          else
            dispatchNext engine fuel
              (bump R.SCH_GROUP_WAITS (setTask n { t with queued := false, groupWait := true } s))

/-- The scheduler's side of a completion (R110, R111): BUSY clears, SERVE advances past the item served, every member is
checked again, and the task returns to its list if it is still ready. -/
def schComplete (n : Nat) (s : Dev) : Dev :=
  match tget s.sch.tasks n with
  | none => s
  | some t =>
    if !t.running then s
    else
      let took := match tget s.sch.handed n with
        | some (_, some _) => true
        | _ => false
      let s := setTask n { t with running := false } { s with sch.handed := tdel s.sch.handed n }
      if t.grouped then
        let g := groupAt s t.group
        let s := { s with
          sch.groups := tput s.sch.groups t.group { g with busy := false, serve := if took then (g.serve + 1) % 65536 else g.serve } }
        makeReady n (g.members.foldl (fun s m => if m = n then s else makeReady m s) s)
      else makeReady n s

/-- The lowest place in the inbox store that takes `len` words between the runs in use (sorted by base). -/
def inboxFit (len : Nat) : Nat → List (Nat × Nat) → Option Nat
  | at', [] => if at' + len ≤ 4194304 then some at' else none
  | at', (b, l) :: r => if at' + len ≤ b then some at' else inboxFit len (max at' (b + l)) r

/-- The inbox runs in use, by base. -/
def inboxRuns (s : Dev) : List (Nat × Nat) :=
  (s.sch.tasks.foldl (fun m e => tput m e.2.base e.2.limit) ([] : Tbl Nat))

/-- Create a task with its inbox; none where the inbox does not fit (R112). -/
def createTask (n exec mask : Nat) (all grouped : Bool) (owner : Word) (level limit : Nat) (s : Dev) : Option Dev :=
  match inboxFit limit 0 (inboxRuns s) with
  | none => none
  | some base =>
    let g := n / 4
    let s := if grouped then
        { s with sch.groups := tput s.sch.groups g { groupAt s g with members := (groupAt s g).members ++ [n] } } else s
    some (setTask n
      { flags := 0, mask := mask, level := level, all := all, grouped := grouped, exec := exec,
        group := if grouped then g else 0, owner := owner, base := base, limit := limit, head := 0, inbox := [],
        dispatches := 0, queued := false, running := false, groupWait := false, nextLevel := level } s)

/-- Close the gaps that removed stamps leave in a group's order: an item moves down by the removed stamps before it. -/
def restamp (serve : Nat) (gone : List Nat) (item : Nat) : Nat :=
  let age (x : Nat) : Nat := (x + 65536 - serve) % 65536
  let st := item / 2 ^ 48
  item % 2 ^ 48 + (st + 65536 - (gone.filter fun d => decide (age d < age st)).length) % 65536 * 2 ^ 48

/-- Remove a task: its items, its place on a ready list, its waiting pushes and its group membership. The stamps of its
items leave its group's order, so that the other members are not held by items that no longer exist (log 11). -/
def destroyTask (n : Nat) (s : Dev) : Dev :=
  match tget s.sch.tasks n with
  | none => s
  | some t =>
    let s := setReady t.exec t.level ((readyAt s t.exec t.level).filter (· != n)) (setWaits n [] s)
    let took := match tget s.sch.handed n with
      | some (_, some _) => true
      | _ => false
    let s := { s with sch.tasks := tdel s.sch.tasks n, sch.handed := tdel s.sch.handed n, sch.fullAt := tdel s.sch.fullAt n }
    if t.grouped then
      let g := groupAt s t.group
      let serve := if t.running && took then (g.serve + 1) % 65536 else g.serve
      let gone := t.inbox.map (· / 2 ^ 48)
      let members := g.members.filter (· != n)
      let s := { s with
        sch.groups := tput s.sch.groups t.group
          { issue := (g.issue + 65536 - gone.length) % 65536, serve := serve, busy := g.busy && !t.running,
            members := members } }
      members.foldl (fun s m =>
        match tget s.sch.tasks m with
        | some u => makeReady m (setTask m { u with inbox := u.inbox.map (restamp serve gone) } s)
        | none => s) s
    else s

/-- Change the mask of a task (its owner's record fixes it). -/
def setMask (n mask : Nat) (s : Dev) : Dev :=
  match tget s.sch.tasks n with
  | none => s
  | some t => makeReady n (setTask n { t with mask := mask } s)

/-- SCH's registers that show the selected task or engine. -/
def schView (s : Dev) (off : Nat) : Option Word :=
  let t := tget s.sch.tasks (fld s F.SCH_TASK_SEL_TASK)
  let num (f : Task → Nat) : Word := BitVec.ofNat 32 ((t.map f).getD 0)
  let b (x : Bool) : Nat := if x then 1 else 0
  let e := fld s F.SCH_EXEC_SEL_EXEC
  if off = R.SCH_INBOX_WORDS then some (BitVec.ofNat 32 ((s.sch.tasks.map fun e => e.2.limit).sum))
  else if off = R.SCH_TASK_STATE then
    some (num fun t => 1 + 2 * b t.queued + 4 * b t.running + 8 * b t.groupWait + 16 * t.inbox.length)
  else if off = R.SCH_TASK_FLAGS then some (num (·.flags))
  else if off = R.SCH_TASK_MASK then some (num (·.mask))
  else if off = R.SCH_TASK_CFG then
    some (num fun t => t.level + 16 * b t.all + 32 * b t.grouped + 256 * t.exec + 65536 * t.group)
  else if off = R.SCH_TASK_OWNER then some ((t.map (·.owner)).getD 0)
  else if off = R.SCH_TASK_INBOX then some (num fun t => t.limit + 65536 * t.head)
  else if off = R.SCH_EXEC_READY then
    some (BitVec.ofNat 32 (((List.range 16).map fun l => if readyAt s e l = [] then 0 else 2 ^ l).sum +
      65536 * (s.sch.tasks.filter fun x => x.2.exec == e && x.2.running).length))
  else none

/-! The commands of this block; TASK_DISPATCH and TASK_COMPLETE stand with the engines' work. -/

/-- INBOX_PUSH (R113). -/
def runInboxPush (t : Time) (n item : Nat) (s : Dev) : Host.Outcome Dev Fault Refusal :=
  .next (pushItem n item (upTo t s))

/-- PUSH_WAIT_GRANTED (R113). -/
def runPushWaitGranted (t : Time) (n : Nat) (s : Dev) : Host.Outcome Dev Fault Refusal :=
  .next (grantWaiting n (upTo t s))

end Sys2Proof.Machine
end

