-- ==== Sys2Proof/Machine/Tim.lean ====
section
/-! DEFINITION. The time unit (chapter 11): domain time, canvas time, frame ticks, and the reference lock. -/

namespace Sys2Proof.Machine

/-- Units of 2^-16 ns in one second. -/
def unitsPerSec : Int := 65536000000000

/-- A time in 2^-16 ns from seconds and nanoseconds. -/
def timeOf (secs nanos : Nat) : Int := (secs : Int) * unitsPerSec + (nanos : Int) * 65536

/-- Whole seconds of a time. -/
def secsOf (x : Int) : Int := x / unitsPerSec

/-- Nanoseconds within the second. -/
def nanosOf (x : Int) : Nat := (x % unitsPerSec / 65536).toNat

/-- 12 bytes: 64-bit seconds and 32-bit nanoseconds of a time. -/
def timeBytes (x : Int) : List Byte := leBytes 8 (unsgn 64 (secsOf x)) ++ leBytes 4 (nanosOf x)

/-- A signed count saturating to 32 bits, as a 32-bit field. -/
def sat32 (x : Int) : Nat := unsgn 32 (max (-2147483648) (min 2147483647 x))

/-- A time difference as signed, saturating nanoseconds. -/
def nsSat (x : Int) : Nat := sat32 (x / 65536)

/-- Domain 0 is A, 1 is B. -/
def domAt (s : Dev) (d : Nat) : Dom := if d = 0 then s.tim.domA else s.tim.domB

/-- Replace a domain. -/
def setDom (d : Nat) (x : Dom) (s : Dev) : Dev :=
  if d = 0 then { s with tim.domA := x } else { s with tim.domB := x }

/-- Device time of a domain at a raw value (R257): the product is rounded down. -/
def Dom.timeAt (x : Dom) (raw : Time) : Int := x.off + (raw : Int) + x.f * (raw : Int) / 2 ^ 40

/-- Device time of domain `d` now. -/
def domTime (s : Dev) (d : Nat) : Int := (domAt s d).timeAt s.raw

/-- A new rate takes effect at a raw value; the offset keeps the time continuous there (R257). -/
def Dom.setRate (x : Dom) (raw : Time) (f : Int) : Dom :=
  let f := max (-549755814) (min 549755814 f)
  let t := x.timeAt raw
  { x with f := f, off := t - (raw : Int) - f * (raw : Int) / 2 ^ 40 }

/-- The phase φ of a domain at a domain time: it slews to its goal at 10^-5 (R276). -/
def Dom.phiNow (x : Dom) (t : Int) : Int :=
  let can := (t - x.phiAt) / 100000
  if x.phi ≤ x.phiGoal then min x.phiGoal (x.phi + can) else max x.phiGoal (x.phi - can)

/-- The carry κ of a canvas at a domain time: it slews to 0 at `ppm` × 10^-6, never past it (R264). -/
def Canvas.carry (c : Canvas) (t : Int) : Int :=
  let moved := (t - c.kAt) * (c.ppm : Int) / 1000000
  if 0 ≤ c.k0 then max 0 (c.k0 - moved) else min 0 (c.k0 + moved)

/-- The carry of a canvas now. -/
def carryNow (s : Dev) (c : Canvas) : Int := c.carry (domTime s c.domain)

/-- Canvas time now: domain time plus the carry (R262). -/
def canvasTime (s : Dev) (c : Canvas) : Int := domTime s c.domain + carryNow s c

/-- N × Tf in 2^-16 ns, computed exactly and rounded down (R274). -/
def Timing.at_ (g : Timing) (n : Int) : Int := n * ((g.rateDen : Int) * unitsPerSec) / (g.rateNum : Int)

/-- A duration of `n` frame periods, rounded down. -/
def Timing.frames (g : Timing) (n : Nat) : Int := g.at_ n

/-- The number of the first tick strictly after a canvas time, on the grid with phase `phi`. -/
def Timing.after (g : Timing) (phi t : Int) : Int :=
  let n := (t - phi) * (g.rateNum : Int) / ((g.rateDen : Int) * unitsPerSec)
  if t < g.at_ n + phi then n else if t < g.at_ (n + 1) + phi then n + 1 else n + 2

/-- The number of the first tick at or after a canvas time. -/
def Timing.from (g : Timing) (phi t : Int) : Int := g.after phi (t - 1)

/-- φ now, in the canvas's domain. -/
def phiOf (s : Dev) (c : Canvas) : Int := (domAt s c.domain).phiNow (domTime s c.domain)

/-- φ of tick `n`: fixed for the last tick and the next four, as it stands now for later ones (R275). -/
def Canvas.phiAt (c : Canvas) (now : Int) (n : Int) : Int :=
  if n < c.nextN then c.phis.headD now else c.phis.getD (n + 1 - c.nextN).toNat now

/-- The canvas-time instant of tick `n` of the grid in force. -/
def tickAt (s : Dev) (c : Canvas) (n : Int) : Int :=
  c.timing.at_ n + c.phiAt (phiOf s c) n + (if c.regrid.any (·.hop) then carryNow s c else 0)

/-- The canvas-time instant of tick `n` of a grid that has been left. -/
def OldGrid.at_ (o : OldGrid) (n : Int) : Int := o.timing.at_ n + o.shift

/-- Has frame `n` been latched by a tick of the new grid? -/
def Canvas.newFrame (c : Canvas) (n : Int) : Bool :=
  (c.regrid.bind (·.first)).any fun a => decide (a + (c.timing.lead : Int) ≤ n ∧ n < c.nextN + (c.timing.lead : Int))

/-- The grid on which frame `n` is presented, where it is one that a RETIME or a stepped switch has left (R150, log 32). A number that
both grids use is the new grid's once a tick of that has latched it. -/
def Canvas.leftGrid (c : Canvas) (n : Int) : Option OldGrid :=
  (c.regrid.bind (·.old)).filter fun o => !c.newFrame n && decide (o.last - 6 ≤ n ∧ n < o.last)

/-- T_N of a presented frame. -/
def shownAt (s : Dev) (c : Canvas) (n : Int) : Int :=
  match c.leftGrid n with
  | some o => o.at_ n
  | none => tickAt s c n

/-- Tf on the grid of a presented frame. -/
def Canvas.shownTiming (c : Canvas) (n : Int) : Timing := ((c.leftGrid n).map (·.timing)).getD c.timing

/-- The ticks of the old grid that still come, up to the blank. -/
def Canvas.pendingGrid (c : Canvas) : Option OldGrid := (c.regrid.bind (·.old)).filter fun o => decide (o.next ≤ o.last)

/-- Is frame `n` a blank one (R150 steps 4 to 6)? -/
def Canvas.blanks (c : Canvas) (n : Int) : Bool :=
  match c.regrid with
  | none => c.blank
  | some r =>
    if r.first.any fun a => a + (c.timing.lead : Int) == n then false
    else c.blank || (match c.pendingGrid with | some o => o.last == n | none => false)

/-- A canvas by index. -/
def canvasAt (s : Dev) (i : Nat) : Option Canvas := tget s.vid.canvases i

/-- Replace a canvas. -/
def setCanvas (i : Nat) (c : Canvas) (s : Dev) : Dev := { s with vid.canvases := tput s.vid.canvases i c }

/-- Start a canvas's ticks: the next tick is the first after now, φ as it stands. -/
def Canvas.regrid_ (c : Canvas) (now phi : Int) : Canvas :=
  { c with nextN := c.timing.after phi now, phis := List.replicate 5 phi }

/-- Is a canvas commensurate with its domain's reference (R278)? -/
def commensurate (d : DomRec) (rateNum rateDen : Nat) : Bool :=
  d.tickRef == 0 ||
    (let a := rateDen * d.refNum
     let b := rateNum * d.refDen
     (b != 0 && a % b == 0) || (a != 0 && b % a == 0))

/-- TIM and EVT posts (R290): number in [39:32], value in [31:0]. -/
def postTim (typ code num value : Nat) (s : Dev) : Dev := postCode 0x0C typ code (num % 256 * 2 ^ 32 + value % 2 ^ 32) s
def postEvt (typ code num value : Nat) (s : Dev) : Dev := postCode 0x0D typ code (num % 256 * 2 ^ 32 + value % 2 ^ 32) s

/-- Counter registers of a domain. -/
def domBase (d : Nat) : Nat := 0x40 * d

/-! Schedules of time actions -/

/-- The time of an action's clock now. -/
def clockNow (s : Dev) (a : Action) : Int :=
  if a.clock = 2 then
    match canvasAt s a.canvas with
    | some c => canvasTime s c
    | none => domTime s 0
  else domTime s a.clock

/-- Move a schedule past its next instant; none when it has run out. -/
def Sched.advance (s : Dev) (a : Action) (x : Sched) : Option Sched :=
  let left := x.left.map (· - 1)
  if x.mode = 0 ∨ left = some 0 then none
  else if x.mode = 1 then some { x with next := x.next + x.period, left := left }
  else
    match canvasAt s a.canvas with
    | some c => some { x with frame := x.frame + 1, next := tickAt s c (x.frame + 1) + x.period, left := left }
    | none => none

/-- Saturating count. -/
def sat (n : Nat) : Nat := min n 0xFFFFFFFF

/-- Replace an action. -/
def setAction (i : Nat) (a : Action) (s : Dev) : Dev := { s with tim.actions := tput s.tim.actions i a }

/-- Drive a pin to a level. -/
def drivePin (n : Nat) (high : Bool) (s : Dev) : Dev := emit (.pin n high) s

/-- May PIN actions drive their pins: not in STANDBY, nor in HOLD entered from it (R284). -/
def pinsLive (s : Dev) : Bool :=
  match s.sys.mode with
  | .configure => true
  | .active => true
  | .hold => s.sys.heldFrom == .active
  | _ => false

/-- Do actions run: in CONFIGURE, ACTIVE, STANDBY and HOLD (R284). -/
def actionsRun (s : Dev) : Bool :=
  match s.sys.mode with
  | .configure => true
  | .active => true
  | .standby => true
  | .hold => true
  | _ => false

/-- The channel mask of an action's sequence and the time of its first sample enter the ADC; a fire while a sequence runs is
discarded and counted (R289). -/
def startAdc (i : Nat) (a : Action) (at' : Int) (s : Dev) : Dev :=
  match s.tim.adc with
  | some _ => bump R.EVT_ADC_OVERRUN s
  | none => { s with tim.adc := some (i, a.fires, at', a.seq) }

/-- What a fire of an action does (R284): pin, sense ADC or item. The action's count has been advanced. -/
def fireEffect (i : Nat) (a : Action) (at' : Int) (s : Dev) : Dev :=
  if a.target = 0 then
    let s := setAction i { a with pulse := some (s.raw + ns a.width) } s
    if pinsLive s then drivePin a.pin (!a.invert) s else s
  else if a.target = 1 then startAdc i a at' (setAction i a s)
  else if a.target = 2 then postEvt 3 0x01 i (a.fires % 2 ^ 32) (setAction i a s)
  else setAction i a s

/-- One fire: the count, the schedule, the effect. -/
def fireAction (i : Nat) (s : Dev) : Dev :=
  match tget s.tim.actions i with
  | none => s
  | some a =>
    match a.sched with
    | none => s
    | some x => fireEffect i { a with fires := sat (a.fires + 1), sched := x.advance s a } x.next s

/-- How many instants of a schedule lie before a time, and the schedule from its first instant at or after it. FRAME is walked
by frame number, the others by period. -/
def Sched.skip (s : Dev) (a : Action) (now : Int) : Nat → Sched → Nat × Option Sched
  | 0, x => (0, some x)
  | fuel + 1, x =>
    if now ≤ x.next then (0, some x)
    else
      match x.mode with
      | 1 =>
        let k := ((now - x.next + x.period - 1) / x.period).toNat
        match x.left with
        | some l => if l ≤ k then (l, none) else (k, some { x with next := x.next + k * x.period, left := some (l - k) })
        | none => (k, some { x with next := x.next + k * x.period })
      | 2 =>
        match x.advance s a with
        | some y => let (n, z) := Sched.skip s a now fuel y; (n + 1, z)
        | none => (1, none)
      | _ => (1, none)

/-- A FRAME schedule that starts far in the past is taken at once to the frames around the next tick: eight frames before it, T_N and an offset
below Tf have passed. Answers the instants passed over. -/
def Sched.leap (s : Dev) (a : Action) (x : Sched) : Nat × Option Sched :=
  match canvasAt s a.canvas with
  | none => (0, some x)
  | some c =>
    let k := (c.nextN - 8 - x.frame).toNat
    if x.mode ≠ 2 ∨ k = 0 then (0, some x)
    else
      let y := { x with frame := x.frame + k, next := tickAt s c (x.frame + k) + x.period }
      match x.left with
      | some l => if l ≤ k then (l, none) else (k, some { y with left := some (l - k) })
      | none => (k, some y)

/-- Every instant of a schedule that lies before a time, and the schedule from its first instant at or after it. -/
def Sched.pass (s : Dev) (a : Action) (now : Int) (x : Sched) : Nat × Option Sched :=
  if now ≤ x.next then (0, some x)
  else
    match x.leap s a with
    | (n, none) => (n, none)
    | (n, some y) => let (m, z) := y.skip s a now 4096; (n + m, z)

/-- Instants that are past (R285): POLICY FIRE_NOW fires once for all of them, DISCARD counts them. Answers the lateness in ns
of a late fire (0 for none) and the instants missed. -/
def missed (i : Nat) (x : Sched) (s : Dev) : Dev × Nat × Nat :=
  match tget s.tim.actions i with
  | none => (s, 0, 0)
  | some a =>
    let now := clockNow s a
    let (n, y) := x.pass s a now
    let late := ((now - x.next) / 65536).toNat
    if n = 0 then (setAction i { a with sched := some x } s, 0, 0)
    else if a.policy = 0 then
      let a := { a with fires := sat (a.fires + 1), lateFires := sat (a.lateFires + 1),
                        lateNs := max a.lateNs (sat late), sched := y }
      (postEvt 3 0x02 i (sat late) (fireEffect i a now s), sat late, n)
    else
      (postEvt 3 0x02 i (sat n) (setAction i { a with discards := sat (a.discards + n), sched := y } s), 0, n)

/-- After a step of domain `d`, every schedule of that domain is tested against the new time (R285, R286). A backward step moves
no instant. -/
def stepActions (d : Nat) (s : Dev) : Dev :=
  s.tim.actions.foldl (fun s e =>
    match e.2.sched with
    | some x => if e.2.clock = d ∧ e.2.device = none ∧ x.next < domTime s d then (missed e.1 x s).1 else s
    | none => s) s

/-- A step of a domain by S (R272): the time steps, STEPS counts, every canvas of the domain takes −S into its carry and slews it
out at 10 ppm, TIME_STEP carries S. -/
def stepDomain (d : Nat) (S : Int) (s : Dev) : Dev :=
  let x := domAt s d
  let s := s.vid.canvases.foldl (fun s e =>
    if e.2.domain = d then
      setCanvas e.1 { e.2 with k0 := carryNow s e.2 - S, kAt := domTime s d + S, ppm := 10 } s
    else s) s
  let s := setDom d { x with off := x.off + S, phiAt := x.phiAt + S } s
  stepActions d (postTim 3 0x05 d (nsSat S) (bump (R.TIM_DOM_STEPS d) s))

/-! Reference lock (R276) -/

/-- The reference period in 2^-16 ns. -/
def pRef (r : DomRec) : Int := if r.refNum = 0 then 1 else (r.refDen : Int) * unitsPerSec / r.refNum

/-- Is a canvas of the domain RUNNING or HELD? -/
def domBusy (s : Dev) (d : Nat) : Bool :=
  s.vid.canvases.any fun e => e.2.domain == d && isLive s (okey 5 e.1)

/-- Do errors agree within ±1 µs of their mean? -/
def agree (l : List Int) : Bool :=
  let m := l.sum / (l.length : Int)
  l.all fun e => decide (m - 65536000 ≤ e ∧ e ≤ m + 65536000)

/-- An active reference edge of a domain. -/
def refEdge (d : Nat) (s : Dev) : Dev :=
  let x := domAt s d
  let r := x.rec_
  if r.tickRef = 0 ∨ x.tick = 0 then s
  else
    let now := domTime s d
    let e := now - (r.cableNs : Int) * 65536
    let phi := x.phiNow now
    let p := pRef r
    let eps := (e - phi + p / 2) % p - p / 2
    let x := { x with lastEdge := some s.raw }
    if x.tick = 1 then
      let run := (eps :: x.eps).take r.lockEdges
      let run := if agree run then run else [eps]
      if run.length < r.lockEdges then setDom d { x with eps := run } s
      else
        let mean := run.sum / (run.length : Int)
        let x := { x with tick := 2, eps := [], far := 0, near := 0, phiAt := now,
                          phi := if domBusy s d then phi else phi + mean, phiGoal := phi + mean }
        postTim 3 0x08 d (nsSat (phi + mean)) (setDom d x s)
    else
      let x := { x with phi := phi, phiAt := now, phiGoal := phi + eps }
      let off := decide (50 * 65536000 < eps.natAbs)
      let good := decide (eps.natAbs ≤ 65536000)
      if x.tick = 2 then
        let far := if off then x.far + 1 else 0
        if 16 ≤ far then postTim 3 0x09 d (nsSat eps) (setDom d { x with tick := 3, far := 0, near := 0 } s)
        else setDom d { x with far := far } s
      else
        let near := if good then x.near + 1 else 0
        if r.lockEdges ≤ near then postTim 3 0x08 d (nsSat phi) (setDom d { x with tick := 2, far := 0, near := 0 } s)
        else setDom d { x with near := near } s

/-- No reference edge for 4 × P_ref or 100 ms, whichever is longer: φ is held. -/
def refLost (d : Nat) (s : Dev) : Dev :=
  let x := domAt s d
  let wait := max (ms 100) (4 * (pRef x.rec_)).toNat
  if x.tick ≤ 1 then s
  else if (match x.lastEdge with | some e => decide (e + wait ≤ s.raw) | none => true) then
    let phi := x.phiNow (domTime s d)
    postTim 3 0x0A d 0 (setDom d { x with tick := 1, eps := [], far := 0, near := 0, phi := phi, phiGoal := phi } s)
  else s

/-! Derived registers -/

/-- Seconds a domain has spent in HOLDOVER: those counted and those of the episode in progress. -/
def holdoverSecs (s : Dev) (d : Nat) : Nat :=
  (rg s (R.TIM_DOM_HOLDOVER_S d)).toNat +
    match (domAt s d).holdFrom with
    | some t => (s.raw - t) / sec 1
    | none => 0

/-- The port in SLAVE, if any. -/
def slavePort (x : Dom) : Option Nat := (x.ports.find? fun e => e.2.state == 3).map (·.1)

/-- TIM's registers that show live values. -/
def timView (s : Dev) (off : Nat) : Option Word :=
  let dom (d : Nat) : Option Word :=
    let x := domAt s d
    let n (v : Nat) : Option Word := some (BitVec.ofNat 32 v)
    if off = R.TIM_DOM_STATE d then
      n (x.rec_.source + 4 * x.servo + 16 * (slavePort x).getD 0 + (if (slavePort x).isSome then 256 else 0) + 512 * x.tick)
    else if off = R.TIM_DOM_OFFSET d then n (nsSat x.lastOffset)
    else if off = R.TIM_DOM_FREQ d then n (sat32 (x.f * 1000000000 / 2 ^ 40))
    else if off = R.TIM_DOM_DELAY d then n (nsSat x.meanPath)
    else if off = R.TIM_DOM_PHI d then n (nsSat (x.phiNow (domTime s d)))
    else if off = R.TIM_DOM_GM_HI d then n (x.gm / 2 ^ 32)
    else if off = R.TIM_DOM_GM_LO d then n (x.gm % 2 ^ 32)
    else if off = R.TIM_DOM_HOLDOVER_S d then n (sat (holdoverSecs s d))
    else none
  if 0xC0200 ≤ off ∧ off < 0xC0240 then
    let c := (off - 0xC0200) / 8
    let k := (canvasAt s c).map (carryNow s)
    let v := unsgn 64 ((k.getD 0) / 65536)
    some (BitVec.ofNat 32 (if off % 8 = 0 then v % 2 ^ 32 else v / 2 ^ 32))
  else if off < 0xC0060 then dom 0
  else if off < 0xC00A0 then dom 1
  else none

/-! The commands of this block -/

/-- Copy raw and both domains at one instant (R258). -/
def latchTime (s : Dev) : Dev :=
  let dom (d : Nat) (s : Dev) : Dev :=
    let x := domTime s d
    let secs := unsgn 64 (secsOf x)
    setRg (R.TIM_DOM_S_LO d) (BitVec.ofNat 32 (secs % 2 ^ 32)) <| setRg (R.TIM_DOM_S_HI d) (BitVec.ofNat 32 (secs / 2 ^ 32)) <|
      setRg (R.TIM_DOM_NS d) (BitVec.ofNat 32 (nanosOf x)) <| setRg (R.TIM_DOM_FRAC d) (BitVec.ofNat 32 (unsgn 16 x)) s
  dom 1 <| dom 0 <| setRg R.TIM_RAW0 (BitVec.ofNat 32 s.raw) <| setRg R.TIM_RAW1 (BitVec.ofNat 32 (s.raw / 2 ^ 32)) <|
    setRg R.TIM_RAW2 (BitVec.ofNat 32 (s.raw / 2 ^ 64)) s

/-- TIM_LATCH (R258): a write with GO clear does nothing. -/
def runTimLatch (t : Time) (v : Word) (s : Dev) : Host.Outcome Dev Fault Refusal :=
  let s := upTo t s
  .next (if pcieUp s && bar0Writable s R.TIM_LATCH && bit v.toNat 0 then latchTime s else s)

/-- The raw counter runs in every mode but RESET (R256). -/
def awake (s : Dev) : Bool := s.sys.mode != .reset

/-- REF_LOST (R259). -/
def runRefLost (t : Time) (s : Dev) : Host.Outcome Dev Fault Refusal :=
  let s := upTo t s
  .next (if awake s && !bitOf s F.TIM_STATUS_SREF_LOST then
      postTim 2 0x07 0 0 (setBit F.TIM_STATUS_SREF_EVENT true (setBit F.TIM_STATUS_SREF_LOST true s))
    else s)

/-- SREF0_RETURN (R259). -/
def runSref0Return (t : Time) (s : Dev) : Host.Outcome Dev Fault Refusal :=
  let s := upTo t s
  .next (if awake s then setBit F.TIM_STATUS_SREF_LOST false s else s)

/-- TICK_REF_EDGE (R276). -/
def runTickRefEdge (t : Time) (d : Nat) (s : Dev) : Host.Outcome Dev Fault Refusal :=
  .next (if d < 2 then refEdge d (upTo t s) else upTo t s)

/-- TICK_LOST (R276). -/
def runTickLost (t : Time) (d : Nat) (s : Dev) : Host.Outcome Dev Fault Refusal :=
  .next (if d < 2 then refLost d (upTo t s) else upTo t s)

/-- Do the time domains run: in every mode from CONFIGURE onward. -/
def timeRuns (s : Dev) : Bool :=
  match s.sys.mode with
  | .reset => false
  | .daybreak => false
  | .load => false
  | _ => true

/-- PPS_OUT_PULSE (R279): PPS_OUT rises at a whole second of domain A; its fall 100 ms later belongs to the same pulse. -/
def runPpsOutPulse (t : Time) (s : Dev) : Host.Outcome Dev Fault Refusal :=
  let s := upTo t s
  .next (if timeRuns s then drivePin 4 true { s with tim.pps := some (s.raw + ms 100) } else s)

end Sys2Proof.Machine
end

