-- ==== Sys2Proof/Machine/Plan.lean ====
section
/-! DEFINITION. How a record becomes an object: what a record's check answers, and the rule for its index field. -/

namespace Sys2Proof.Machine

/-- A refusal: a result code (R64) and the completion's DATA bytes. -/
structure Refuse where
  code : Nat
  data : List Byte := []
  deriving DecidableEq, Repr

/-- How a record came: in an image, by CREATE or ADMIT_CHECK with or without a requested index, or by MODIFY. -/
inductive How where
  | image
  | create (want : Option Nat)
  | modify
  deriving DecidableEq, Repr

/-- What a record's check knows: how the record came, the index resolved for it, class and priority. -/
structure Ctx where
  how : How
  idx : Nat
  cls : Nat
  prio : Nat
  deriving DecidableEq, Repr

/-- What a record that passes its checks asks for: ledger charges, the object keys it refers to, and how it is installed once
admitted (its handle is given; none: an inbox, a sample index or pages do not fit, NO_SPACE). -/
structure Plan where
  charges : List (Nat × Nat)
  refs : List Nat
  install : Word → Dev → Option Dev

/-- A record's check. -/
abbrev Check := Except Refuse Plan

/-- A bare refusal. -/
def refuse {α : Type} (code : Nat) : Except Refuse α := .error { code := code }

/-- A refusal that names a handle in DATA bytes 16–19 (R50, R75). -/
def refuseBy {α : Type} (code : Nat) (h : Word) : Except Refuse α := .error { code := code, data := leBytes 4 h.toNat }

/-- The rule for the index field of a record (R114): in an image it names the index; in CREATE it holds `any`, or the requested
index; in MODIFY the channel's own index or `any` (R62). -/
def indexOk (c : Ctx) (field any : Nat) : Bool :=
  match c.how with
  | .image => field == c.idx
  | .create none => field == any
  | .create (some w) => field == any || field == w
  | .modify => field == any || field == c.idx

/-- A chain of field checks: the first one that fails refuses with its code. -/
def require (ok : Bool) (code : Nat) : Except Refuse Unit := if ok then .ok () else refuse code

/-- An inbox limit (R112): 0 means 64, else 16–1,024. -/
def inboxLimit (v : Nat) : Nat := if v = 0 then 64 else v

/-- Is an inbox field in range? -/
def inboxOk (v : Nat) : Bool := v == 0 || (decide (16 ≤ v) && decide (v ≤ 1024))

/-- A channel on a disabled port is refused (R238, and by the same check in CREATE and MODIFY: DEDUCED, log 38): `ports` is a mask of
fixture ports. -/
def fxpsOn (s : Dev) (ports : Nat) : Bool :=
  (List.range 16).all fun p => !bit ports p || ((tget s.outp.ports p).getD {}).rec_.mode != 0

/-- Map `n` pinned pages for a key from page `first` on; none where the free list is too short (R92). -/
def pinPages (k first n : Nat) (ck : Bool) (s : Dev) : Option Dev :=
  if s.pln.stopped ∨ segCount s.pln.free < n then none else some (mapPages k first true false ck n s)

end Sys2Proof.Machine
end

