-- ==== Sys2Proof/Machine/Evt.lean ====
section
/-! DEFINITION. The event and trigger unit (chapter 11, R279-R291): time actions, capture inputs, LTC decoders, the sense ADC. -/

namespace Sys2Proof.Machine

/-- The owner of a TRG_OUT pin: an action, or the PX7 mirror. -/
def pinOwner (s : Dev) (pin : Nat) : Option Word :=
  match s.tim.actions.find? fun e => e.2.device.isNone && e.2.target == 0 && e.2.pin == pin with
  | some e => some (handleOf s (okey 0xB e.1))
  | none => (s.tim.mirrors.find? (·.1 == pin)).map fun e => handleOf s e.2

/-- The check of a time action record (R282). -/
def actionPlan (s : Dev) (c : Ctx) (r : List Byte) : Check := do
  let target := at_ r 2 1
  let pin := at_ r 3 1
  let clock := at_ r 4 1
  let seq := at_ r 5 1
  let policy := at_ r 6 1
  let flags := at_ r 7 1
  let canvas : Word := BitVec.ofNat 32 (at_ r 8 4)
  let width := at_ r 12 4
  require (indexOk c (at_ r 0 2) 0xFFFF) rcOutOfRange
  require (decide (target ≤ 2 ∧ clock ≤ 2 ∧ policy ≤ 1 ∧ flags ≤ 1)) rcOutOfRange
  require (if target = 0 then decide (pin ≤ 3) else pin == 0) rcOutOfRange
  require (if target = 1 then decide (0 < seq ∧ seq < 16) else seq == 0) rcOutOfRange
  require (if target = 0 then decide (8 ≤ width ∧ width ≤ 1000000000) else width == 0) rcOutOfRange
  if clock = 2 then
    require (hKind canvas == 5 && (objOf s canvas).isSome) rcBadHandle
  else require (canvas == 0) rcOutOfRange
  if target = 0 then
    match pinOwner s pin with
    | some h => refuseBy rcConflict h
    | none => pure ()
  if target = 1 then
    match s.tim.adcOwner with
    | some a => refuseBy rcConflict (handleOf s (okey 0xB a))
    | none => pure ()
  let a : Action := { target := target, pin := pin, clock := clock, seq := seq, policy := policy, invert := flags == 1,
                      canvas := hIndex canvas, width := (width + 2) / 4 * 4 }
  pure { charges := [], refs := if clock = 2 then [hKey canvas] else []
         install := fun _ s =>
           let s := setAction c.idx a (if target = 1 then { s with tim.adcOwner := some c.idx } else s)
           some (if target = 0 then drivePin pin a.invert s else s) }

/-- A destroyed action: its pulse completes by its own PULSE_END, its pin then stays idle; the ADC is free (R286). -/
def dropAction (i : Nat) (s : Dev) : Dev :=
  let s := if s.tim.adcOwner = some i then { s with tim.adcOwner := none } else s
  let orphans := match tget s.tim.actions i with
    | some a =>
      match a.pulse with
      | some e => s.tim.orphans ++ [(i, a.pin, a.invert, e)]
      | none => s.tim.orphans
    | none => s.tim.orphans
  { s with tim.actions := tdel s.tim.actions i, tim.orphans := orphans }

/-- The highest free action index is taken for the device's own use (R282). -/
def takeAction (use clock canvas : Nat) (s : Dev) : Option (Nat × Dev) :=
  match (List.range 32).reverse.find? fun i => !thas s.tim.actions i with
  | none => none
  | some i =>
    some (i, setAction i { device := some use, target := 3, clock := clock, canvas := canvas,
                           sched := some { mode := 2, start := 0, period := 0, left := none, next := 0, frame := 0 } } s)

/-- The action the device holds for a use. -/
def heldAction (s : Dev) (use : Nat) : Option Nat := (s.tim.actions.find? fun e => e.2.device == some use).map (·.1)

/-- Give back the action held for a use. -/
def giveAction (use : Nat) (s : Dev) : Dev :=
  match heldAction s use with
  | some i => { s with tim.actions := tdel s.tim.actions i }
  | none => s

/-- A device-held action has fired. -/
def countHeld (use : Nat) (s : Dev) : Dev :=
  match heldAction s use with
  | some i => { s with tim.actions := tmod s.tim.actions i fun a => { a with fires := sat (a.fires + 1) } }
  | none => s

/-- The next instant of an action: a device-held one follows the next tick of its canvas. -/
def nextOf (s : Dev) (a : Action) : Int :=
  match a.device, a.sched with
  | some _, x =>
    match canvasAt s a.canvas with
    | some c => if a.clock = 2 then tickAt s c c.nextN else (x.map (·.next)).getD 0
    | none => (x.map (·.next)).getD 0
  | none, some x => x.next
  | none, none => 0

/-- The schedule ACTION_ARM's arguments spell (R283), checked; `b` is the command's ARGS area from byte 16. -/
def armSched (s : Dev) (a : Action) (b : List Byte) : Except Refuse Sched := do
  let mode := at_ b 0 1
  require (decide (mode ≤ 2) && (mode != 2 || a.clock == 2)) rcOutOfRange
  let start := timeOf (at_ b 8 8) (at_ b 16 4) + (at_ b 2 2 : Int)
  let count := at_ b 4 4
  let left := if mode = 0 then some 1 else if count = 0 then none else some count
  let need : Int := if a.target = 0 then ((a.width : Int) + 16) * 65536
    else if a.target = 1 then (((List.range 4).filter (bit a.seq)).length : Int) * 65536000 else 1
  if mode = 0 then pure { mode := 0, start := start, period := 0, left := left, next := start, frame := 0 }
  else if mode = 1 then
    let period := (at_ b 20 8 : Int) * 65536 + (at_ b 28 2 : Int)
    require (decide (need ≤ period)) rcOutOfRange
    pure { mode := 1, start := start, period := period, left := left, next := start, frame := 0 }
  else
    match canvasAt s a.canvas with
    | none => refuse rcBadHandle
    | some c =>
      let off := sgn 64 (at_ b 20 8) * 65536
      require (decide (off.natAbs < (c.timing.frames 1).natAbs) && decide (need ≤ c.timing.frames 1)) rcOutOfRange
      let n := c.timing.from (phiOf s c) (start - off)
      pure { mode := 2, start := start, period := off, left := left, next := tickAt s c n + off, frame := n }

/-- ACTION_ARM on action `i`: answers the DATA bytes, or the refusal. -/
def armAction (i : Nat) (b : List Byte) (s : Dev) : Dev × Except Refuse (List Byte) :=
  match tget s.tim.actions i with
  | none => (s, refuse rcBadHandle)
  | some a =>
    match armSched s a b with
    | .error e => (s, .error e)
    | .ok x =>
      let data := timeBytes x.next
      let keep := s
      let (s, late, n) := missed i x s
      if 0 < n ∧ a.policy = 1 then
        let s := if x.mode = 0 then
            { s with tim.actions := tmod s.tim.actions i fun y => { y with sched := (tget keep.tim.actions i).bind (·.sched) } } else s
        (s, .error { code := rcLate, data := data ++ leBytes 4 late })
      else (s, .ok (data ++ leBytes 4 late))

/-- ACTION_CANCEL on action `i`: answers its fires. -/
def cancelAction (i : Nat) (s : Dev) : Dev × Nat :=
  match tget s.tim.actions i with
  | none => (s, 0)
  | some a => (setAction i { a with sched := none } s, a.fires)

/-! Derived registers -/

/-- The capture FIFO of an input. -/
def capsOf (s : Dev) (i : Nat) : List Stamp := (tget s.tim.caps i).getD []

/-- The word a read of EVT.CAPi_NS returns. -/
def capNsWord (s : Dev) (i : Nat) : Word :=
  match capsOf s i with
  | [] => 0
  | c :: _ => BitVec.ofNat 32 (c.ns_ % 2 ^ 30 + (if c.falling then 2 ^ 30 else 0) + 2 ^ 31)

/-- EVT's registers that show the selected action, the FIFOs and the ADC's owner. -/
def evtView (s : Dev) (off : Nat) : Option Word :=
  let i := fld s F.EVT_ACT_SEL_ACTION
  let a := tget s.tim.actions i
  let num (f : Action → Nat) : Word := BitVec.ofNat 32 ((a.map f).getD 0)
  let b (x : Bool) : Nat := if x then 1 else 0
  if off = R.EVT_ACT_STATE then
    some (num fun a => 1 + 2 * b a.device.isSome + 4 * b a.sched.isSome + 8 * a.target + 32 * a.pin + 128 * a.policy +
      256 * a.clock + 1024 * (if a.clock = 2 then a.canvas else 0) + 8192 * ((a.sched.map (·.mode)).getD 0))
  else if off = R.EVT_ACT_NEXT_S then some (num fun a => unsgn 32 (secsOf (nextOf s a)))
  else if off = R.EVT_ACT_NEXT_NS then some (num fun a => nanosOf (nextOf s a))
  else if off = R.EVT_ACT_LATE_NS then some (num (·.lateNs))
  else if off = R.EVT_ACT_FIRES then some (num (·.fires))
  else if off = R.EVT_ACT_LATE_FIRES then some (num (·.lateFires))
  else if off = R.EVT_ACT_DISCARDS then some (num (·.discards))
  else if off = R.EVT_ACT_USED then some (BitVec.ofNat 32 (s.tim.actions.map fun e => 2 ^ e.1).sum)
  else if off = R.EVT_ADC_STATE then
    some (BitVec.ofNat 32 (b s.tim.adcOwner.isSome + 2 * b s.tim.adc.isSome + 256 * s.tim.adcOwner.getD 0))
  else if 0xD0100 ≤ off ∧ off < 0xD0180 then
    let i := (off - 0xD0100) / 16
    if off = R.EVT_CAP_CFG i then
      if i = 3 ∧ s.tim.ltcOnCap3 then some 32
      else some (F.EVT_CAP_CFG_LEVEL i |>.into (rg s off) (capsOf s i).length)
    else if off = R.EVT_CAP_S i then some (BitVec.ofNat 32 (((capsOf s i).head?.map (·.s)).getD 0))
    else if off = R.EVT_CAP_NS i then some (capNsWord s i)
    else none
  else none

/-! The commands of this block -/

/-- ACTION_FIRED (R284): the action's next instant has come, to within 5 ns. -/
def runActionFired (t : Time) (i : Nat) (s : Dev) : Host.Outcome Dev Fault Refusal :=
  let s := upTo t s
  .next (match tget s.tim.actions i with
    | some a =>
      match a.sched with
      | some x => if a.device.isNone && actionsRun s && decide (x.next ≤ clockNow s a + 5 * 65536) then fireAction i s else s
      | none => s
    | none => s)

/-- The pulse of an action, or of a destroyed action of that index, has reached its width: the pin is idle again. -/
def pulseEnd (i : Nat) (s : Dev) : Dev :=
  match (tget s.tim.actions i).bind fun a => a.pulse.map fun e => (a, e) with
  | some (a, e) => if e ≤ s.raw then drivePin a.pin a.invert (setAction i { a with pulse := none } s) else s
  | none =>
    match s.tim.orphans.find? fun o => o.1 == i && decide (o.2.2.2 ≤ s.raw) with
    | some o => drivePin o.2.1 o.2.2.1 { s with tim.orphans := s.tim.orphans.erase o }
    | none => s

/-- PULSE_END (R284). -/
def runPulseEnd (t : Time) (i : Nat) (s : Dev) : Host.Outcome Dev Fault Refusal :=
  .next (pulseEnd i (upTo t s))

/-- Do the timing inputs work: in every mode from CONFIGURE onward (R38, the EVT block answers then). -/
def captureEdge (i : Nat) (falling : Bool) (s : Dev) : Dev :=
  let e := fld s (F.EVT_CAP_CFG_EDGE i)
  let wanted := e == 3 || (e == 1 && !falling) || (e == 2 && falling)
  if !timeRuns s || decide (8 ≤ i) || !bitOf s (F.EVT_CAP_CFG_EN i) || !wanted || (i == 3 && s.tim.ltcOnCap3) then s
  else
    let x := domTime s (fld s (F.EVT_CAP_CFG_DOMAIN i))
    let q := capsOf s i
    if 16 ≤ q.length then bump (R.EVT_CAP_OVF i) s
    else
      let s := { s with tim.caps := tput s.tim.caps i (q ++ [⟨unsgn 32 (secsOf x), nanosOf x, falling⟩]) }
      if bitOf s (F.EVT_CAP_CFG_POST i) then postEvt 3 0x03 i (nanosOf x) s else s

/-- CAPTURE (R287): an edge that outlasts the filter. -/
def runCapture (t : Time) (i : Nat) (falling : Bool) (s : Dev) : Host.Outcome Dev Fault Refusal :=
  .next (captureEdge i falling (upTo t s))

/-- A read of EVT.CAPi_NS: returns the oldest entry and removes it. -/
def capNsRead (i : Nat) (s : Dev) : Dev × Word :=
  ({ s with tim.caps := if (capsOf s i).length ≤ 1 then tdel s.tim.caps i else tput s.tim.caps i (capsOf s i).tail },
    capNsWord s i)

/-- CAP_NS_READ (R287). -/
def runCapNsRead (t : Time) (i : Nat) (s : Dev) : Host.Outcome Dev Fault Refusal :=
  let s := upTo t s
  .next (if !pcieUp s || decide (8 ≤ i) then s
    else if bar0Up s (R.EVT_CAP_NS i) then let (s, w) := capNsRead i s; emit (.readData (leBytes 4 w.toNat)) s
    else emit (.readData (leBytes 4 0)) s)

/-- Replace a decoder. -/
def setLtc (j : Nat) (x : Ltc) (s : Dev) : Dev := if j = 0 then { s with tim.ltc0 := x } else { s with tim.ltc1 := x }

/-- Is a decoder on: EN, and for decoder 1 the CAP_IN3 pin (R280). -/
def ltcOn (s : Dev) (j : Nat) : Bool :=
  timeRuns s && bitOf s (F.EVT_LTC_CFG_EN j) && decide (j < 2) && (j == 0 || s.tim.ltcOnCap3)

/-- The time address of an 80-bit ST 12-1 frame (bit 0 of the frame is bit 0 of the number): frames, seconds, minutes and
hours in BCD. -/
def ltcAddress (f : Nat) : Nat :=
  let d (lo n : Nat) : Nat := f / 2 ^ lo % 2 ^ n
  (d 0 4 + 16 * d 8 2) + 256 * (d 16 4 + 16 * d 24 3) + 65536 * (d 32 4 + 16 * d 40 3) + 16777216 * (d 48 4 + 16 * d 56 2)

/-- The user bits: binary groups 1–8. -/
def ltcUser (f : Nat) : Nat := ((List.range 8).map fun i => f / 2 ^ (8 * i + 4) % 16 * 16 ^ i).sum

/-- The RATE code nearest to a measured frame period in µs. -/
def ltcRate (p : Nat) : Nat := if 40833 ≤ p then 0 else if 36683 ≤ p then 1 else if 33350 ≤ p then 2 else 3

/-- A frame on decoder `j` (R281). The operand is the 80 bits, bit 80 for reverse play, the measured period in µs from bit 96 and
from bit 128 the age in ns of bit 0's edge; none: the sync word or the bit timing failed. -/
def ltcFrame (j : Nat) (f : Option Nat) (s : Dev) : Dev :=
  if !ltcOn s j then s
  else
    let x := if j = 0 then s.tim.ltc0 else s.tim.ltc1
    match f with
    | none => bump (R.EVT_LTC_ERRORS j) (setLtc j { x with run := 0 } s)
    | some v =>
      if v / 2 ^ 64 % 2 ^ 16 ≠ 0xBFFC then bump (R.EVT_LTC_ERRORS j) (setLtc j { x with run := 0 } s)
      else
        let tc := ltcAddress v
        let period := v / 2 ^ 96 % 2 ^ 16
        let age : Nat := v / 2 ^ 128 % 2 ^ 32
        let ts := domTime s (fld s (F.EVT_LTC_CFG_DOMAIN j)) - (age : Int) * 65536
        let was := bitOf s (F.EVT_LTC_STATUS_LOCKED j)
        let run := min (x.run + 1) 2
        let s := setLtc j { run := run, last := s.raw } s
        let s := setRg (R.EVT_LTC_TC j) (BitVec.ofNat 32 tc) <| setRg (R.EVT_LTC_USER j) (BitVec.ofNat 32 (ltcUser v)) <|
          setRg (R.EVT_LTC_TS_S j) (BitVec.ofNat 32 (unsgn 32 (secsOf ts))) <|
          setRg (R.EVT_LTC_TS_NS j) (BitVec.ofNat 32 (nanosOf ts)) <|
          setBit (F.EVT_LTC_STATUS_REVERSE j) (bit v 80) <| setBit (F.EVT_LTC_STATUS_DF j) (bit v 10) <|
          setFld (F.EVT_LTC_STATUS_RATE j) (ltcRate period) <| setFld (F.EVT_LTC_STATUS_PERIOD_US j) period s
        let s := if run = 2 ∧ !was then postEvt 1 0x04 j tc (setBit (F.EVT_LTC_STATUS_LOCKED j) true s) else s
        if bitOf s (F.EVT_LTC_CFG_POST j) then
          post 0x0D 3 (0x06 * 2 ^ 40 + j * 2 ^ 32 + tc) [unsgn 32 (secsOf ts) * 2 ^ 32 + nanosOf ts] s
        else s

/-- LTC_FRAME (R281). -/
def runLtcFrame (t : Time) (j : Nat) (f : Option Nat) (s : Dev) : Host.Outcome Dev Fault Refusal :=
  .next (ltcFrame j f (upTo t s))

/-- LTC_LOST (R281): 100 ms without a good frame. -/
def runLtcLost (t : Time) (j : Nat) (s : Dev) : Host.Outcome Dev Fault Refusal :=
  let s := upTo t s
  let x := if j = 0 then s.tim.ltc0 else s.tim.ltc1
  .next (if ltcOn s j && bitOf s (F.EVT_LTC_STATUS_LOCKED j) && decide (x.last + ms 100 ≤ s.raw) then
      postEvt 1 0x05 j 0 (setBit (F.EVT_LTC_STATUS_LOCKED j) false (setLtc j { x with run := 0 } s))
    else s)

/-- The sequence of the sense ADC has ended (R289): `volts` are the conversion results of SNS0–SNS3. -/
def adcDone (volts : List Nat) (s : Dev) : Dev :=
  match s.tim.adc with
  | none => s
  | some (_, fires, first, seq) =>
    let v (n : Nat) : Nat := if bit seq n then min (volts.getD n 0) 4095 else 0
    let s := setRg R.EVT_ADC_RESULT01 (BitVec.ofNat 32 (v 0 + 65536 * v 1)) <|
      setRg R.EVT_ADC_RESULT23 (BitVec.ofNat 32 (v 2 + 65536 * v 3)) <| bump R.EVT_ADC_SEQS { s with tim.adc := none }
    post 0x0D 5 (0x10 * 2 ^ 40 + seq * 2 ^ 32 + fires % 2 ^ 32)
      [unsgn 32 (secsOf first) * 2 ^ 32 + nanosOf first, v 0 + v 1 * 2 ^ 16 + v 2 * 2 ^ 32 + v 3 * 2 ^ 48] s

/-- ADC_RESULT (R289). -/
def runAdcResult (t : Time) (volts : List Nat) (s : Dev) : Host.Outcome Dev Fault Refusal :=
  .next (adcDone volts (upTo t s))

end Sys2Proof.Machine
end

