-- ==== Sys2Proof/Machine/Vid.lean ====
section
/-! DEFINITION. Video ingest, canvases, layers and the raster engine (chapter 6, R127-R155). -/

namespace Sys2Proof.Machine

/-- `n` per frame at a rate, in a unit per second, rounded up (R65, R67). -/
def perSec (n num den unit : Nat) : Nat := cdiv (n * num) (den * unit)

/-- Replace a stream. -/
def setStream (i : Nat) (x : Stream) (s : Dev) : Dev := { s with vid.streams := tput s.vid.streams i x }

/-- Ingest and raster posts (R154): index in [39:32], value in [31:0]. -/
def postIng (code i : Nat) (s : Dev) : Dev := postCode 0x21 1 code (i * 2 ^ 32) s
def postRas (code i value : Nat) (s : Dev) : Dev := postCode 0x22 3 code (i * 2 ^ 32 + value % 2 ^ 32) s

/-! Streams -/

/-- Bits per pixel B of a sampling and depth (R67). -/
def bitsPerPixel (sampling depth : Nat) : Nat :=
  match sampling with
  | 0 => 2 * depth
  | 1 => depth * 3 / 2
  | _ => 3 * depth

/-- Pages of one frame buffer, BP (R131). -/
def bufPages (w h b : Nat) : Nat := cdiv (cdiv (w * h * b) 8) 65536

/-- The ledger charges of a stream (R67). -/
def streamCharges (w h b num den : Nat) : List (Nat × Nat) :=
  [(0, perSec (w * h * b) num den 8000000), (1, 3 * bufPages w h b), (6, perSec (w * h * b) num den 1000000)]

/-- The stream a record describes (R127). -/
def streamOf (r : List Byte) : Stream :=
  { sampling := at_ r 2 1, depth := at_ r 3 1, width := at_ r 4 2, height := at_ r 6 2, color := at_ r 8 1,
    range := at_ r 9 1, transfer := at_ r 10 1, pt := at_ r 11 1, group := at_ r 12 4, source := at_ r 16 4,
    udpPort := at_ r 20 2, port := at_ r 22 1, vlan := at_ r 24 2, rateNum := at_ r 26 2, rateDen := at_ r 28 2 }

/-- Is every field of a stream in its range (R127)? -/
def Stream.ok (x : Stream) : Bool :=
  decide (x.sampling ≤ 2) && (x.depth == 8 || x.depth == 10) &&
    x.width % 8 == 0 && decide (16 ≤ x.width ∧ x.width ≤ 3840) &&
    x.height % 2 == 0 && decide (16 ≤ x.height ∧ x.height ≤ 2160) &&
    decide (x.color ≤ 1 ∧ x.range ≤ 1 ∧ x.transfer ≤ 1) && decide (96 ≤ x.pt ∧ x.pt ≤ 127) &&
    decide (0xE0000000 ≤ x.group ∧ x.group < 0xF0000000) && decide (1 ≤ x.udpPort ∧ x.port ≤ 15) &&
    x.vlan / 4096 % 8 == 0 && (x.rateDen == 1000 || x.rateDen == 1001) &&
    decide (x.rateDen ≤ x.rateNum ∧ x.rateNum ≤ 60 * x.rateDen)

/-- Bits of one frame. -/
def Stream.b (x : Stream) : Nat := bitsPerPixel x.sampling x.depth

/-- Pages of one of a stream's buffers. -/
def Stream.bp (x : Stream) : Nat := bufPages x.width x.height x.b

/-- Counters of a stream, cleared when it is created. -/
def clearIng (n : Nat) (s : Dev) : Dev :=
  [1, 2, 3, 4, 5, 6, 7].foldl (fun s k => setRg (R.PKT_ING_STATE n + 4 * k) 0 s) s

/-- The check of a stream record. -/
def streamPlan (s : Dev) (c : Ctx) (r : List Byte) : Check := do
  let x := streamOf r
  require (indexOk c (at_ r 0 2) 0xFFFF) rcOutOfRange
  require (x.ok && at_ r 23 1 == 0 && inboxOk (at_ r 30 2) && fxpsOn s (2 ^ x.port)) rcOutOfRange
  pure { charges := streamCharges x.width x.height x.b x.rateNum x.rateDen, refs := []
         install := fun h s => do
           let s ← createTask (40960 + c.idx) 0x21 1 false false h (levelOf 0 c.prio) (inboxLimit (at_ r 30 2)) s
           let s ← pinPages (okey 4 c.idx) 0 (3 * x.bp) false s
           pure (clearIng c.idx (setStream c.idx x s)) }

/-- A frame completes in W (R132). -/
def Stream.complete (x : Stream) (rtp : Nat) : Stream × Bool :=
  let freeC := x.c ≠ 3 ∧ x.c ≠ x.l
  let w' := if freeC then x.c else ([0, 1, 2].find? fun b => b != x.w && b != x.l).getD 0
  ({ x with c := x.w, w := w', cLatched := false, cTime := rtp, frame := none }, x.c != 3 && !x.cLatched)

/-- The latch instant of a canvas that follows the stream (R132); canvases that share the tick latch once. -/
def latchStream (i : Nat) (n : Int) (s : Dev) : Dev :=
  match tget s.vid.streams i with
  | none => s
  | some x =>
    if x.c = 3 ∨ x.latchN = some n then s
    else if x.l = x.c then bump (R.PKT_ING_REPEATS i) (setStream i { x with latchN := some n } s)
    else setStream i { x with l := x.c, cLatched := true, latchN := some n } s

/-- Component bit addresses of a plane (R131): the bit address of component `k` of pixel (u, v): 0 Y or R, 1 Cb or G, 2 Cr or B. -/
def Stream.bitAddr (x : Stream) (k u v : Nat) : Nat :=
  let d := x.depth
  let plane1 := x.width * x.height * d
  match x.sampling with
  | 2 => (v * x.width + u) * (3 * d) + k * d
  | smp =>
    if k = 0 then (v * x.width + u) * d
    else plane1 + ((if smp = 0 then v else v / 2) * (x.width / 2) + u / 2) * (2 * d) + (k - 1) * d

/-- Posts STREAM_LOST once and sets LOST (R134). -/
def loseStream (n : Nat) (s : Dev) : Dev :=
  match tget s.vid.streams n with
  | some x => if x.lost then s else postIng 0x10 n (setStream n { x with lost := true } s)
  | none => s

/-- Handle-relative byte of a buffer. -/
def Stream.bufAt (x : Stream) (b : Nat) : Nat := b * x.bp * 65536

/-- Write one byte at a handle-relative address. -/
def relPut (k a : Nat) (v : Byte) (s : Dev) : Dev := relWrite k a [v] s

/-- Read one component of a stream's buffer. -/
def component (s : Dev) (i : Nat) (x : Stream) (buf k u v : Nat) : Nat :=
  let a := x.bitAddr k u v
  let n := (a % 8 + x.depth + 7) / 8
  let base := x.bufAt buf + a / 8
  leNat ((List.range n).flatMap fun j => relRead s (okey 4 i) (base + j) 1) / 2 ^ (a % 8) % 2 ^ x.depth

/-- Write one component of the write buffer. -/
def putComponent (i : Nat) (x : Stream) (k u v val : Nat) (s : Dev) : Dev :=
  let a := x.bitAddr k u v
  let n := (a % 8 + x.depth + 7) / 8
  let base := x.bufAt x.w + a / 8
  let old := leNat ((List.range n).flatMap fun j => relRead s (okey 4 i) (base + j) 1)
  let cleared := old - (old / 2 ^ (a % 8) % 2 ^ x.depth) * 2 ^ (a % 8)
  let new := leBytes n (cleared + val % 2 ^ x.depth * 2 ^ (a % 8))
  ((List.range n).zip new).foldl (fun s e => relPut (okey 4 i) (base + e.1) e.2 s) s

/-- Octets and pixels across of a pixel group of ST 2110-20, and the components it carries in order: component, pixel offset,
row offset (log 12). -/
def pgroup (sampling depth : Nat) : Nat × Nat × List (Nat × Nat × Nat) :=
  let quad (u : Nat) : List (Nat × Nat × Nat) := [(0, u, 0), (0, u + 1, 0), (0, u, 1), (0, u + 1, 1), (1, u, 0), (2, u, 0)]
  match sampling, depth with
  | 0, 8 => (4, 2, [(1, 0, 0), (0, 0, 0), (2, 0, 0), (0, 1, 0)])
  | 0, _ => (5, 2, [(1, 0, 0), (0, 0, 0), (2, 0, 0), (0, 1, 0)])
  | 1, 8 => (6, 2, quad 0)
  | 1, _ => (15, 4, quad 0 ++ quad 2)
  | _, 8 => (3, 1, [(0, 0, 0), (1, 0, 0), (2, 0, 0)])
  | _, _ => (15, 4, (List.range 4).flatMap fun u => [(0, u, 0), (1, u, 0), (2, u, 0)])

/-- Is a sample-row-data segment inside the frame and a whole number of pixel groups (R130)? -/
def srdOk (x : Stream) (g : Nat × Nat × Bool × List Byte) : Bool :=
  let (row, off, field, bs) := g
  let (oct, px, _) := pgroup x.sampling x.depth
  !field && decide (row < (if x.sampling = 1 then x.height / 2 else x.height)) && bs.length % oct == 0 && off % px == 0 &&
    decide (off + bs.length / oct * px ≤ x.width)

/-- Write the pixel groups of one segment: components packed most significant bit first. -/
def writeSrd (i : Nat) (x : Stream) (g : Nat × Nat × Bool × List Byte) (s : Dev) : Dev :=
  let (row, off, _, bs) := g
  let (oct, px, comps) := pgroup x.sampling x.depth
  let v0 := if x.sampling = 1 then 2 * row else row
  (List.range (bs.length / oct)).foldl (fun s n =>
    let word := beNat ((bs.drop (n * oct)).take oct)
    ((List.range comps.length).zip comps).foldl (fun s e =>
      let (j, k, du, dv) := e
      putComponent i x k (off + n * px + du) (v0 + dv) (word / 2 ^ (oct * 8 - (j + 1) * x.depth)) s) s) s

/-- Do destination, UDP port and receiving port match a stream that receives? -/
def streamMatch (p : VideoPkt) (x : Stream) : Bool :=
  x.joined && x.group == p.group && x.udpPort == p.udpPort && x.port == p.port

/-- The packet's VLAN state and payload type agree with the record (R129); VID 0 counts as untagged (R252). -/
def formatMatch (p : VideoPkt) (x : Stream) : Bool :=
  x.pt == p.payloadType && (match p.vlan.filter (· != 0) with
    | some v => bit x.vlan 15 && v == x.vlan % 4096
    | none => !bit x.vlan 15)

/-- A packet of a stream (R130): sequence, frame boundaries, data, completion. -/
def streamPacket (i : Nat) (x : Stream) (p : VideoPkt) (s : Dev) : Dev :=
  let lenBad := !p.lenOk || decide (3 < p.srd.length)
  let fmtBad := !lenBad && !p.srd.all (srdOk x)
  let gap := match x.lastSeq with
    | some q => (p.seq + 2 ^ 32 - q - 1) % 2 ^ 32
    | none => 0
  let s := if lenBad then bump (R.PKT_ING_LEN_DROPS i) s else if fmtBad then bump (R.PKT_ING_FORMAT_DROPS i) s else s
  let s := if gap = 0 then s else bumpBy (R.PKT_ING_SEQ_GAPS i) gap s
  let starts := match p.srd with
    | (0, 0, _, _) :: _ => true
    | _ => false
  -- the frame this packet belongs to
  let (s, bad) := match x.frame with
    | some (ts, bad) => if ts = p.rtpTime then (s, bad) else (bump (R.PKT_ING_INCOMPLETE i) s, !starts)
    | none => (s, !starts)
  let bad := bad || lenBad || fmtBad || gap != 0
  let x := { x with lastSeq := some p.seq, frame := some (p.rtpTime, bad), heard := if lenBad || fmtBad then x.heard else s.raw }
  let s := if lenBad || fmtBad then setStream i x s
    else p.srd.foldl (fun s g => writeSrd i x g s) (setStream i x s)
  if !p.marker then s
  else if bad then bump (R.PKT_ING_INCOMPLETE i) (setStream i { x with frame := none } s)
  else
    let (y, skipped) := x.complete p.rtpTime
    let s := bump (R.PKT_ING_FRAMES i) s
    let s := if skipped then bump (R.PKT_ING_SKIPPED i) s else s
    if y.lost then postIng 0x11 i (setStream i { y with lost := false } s) else setStream i y s

/-- An ST 2110-20 packet: each stream it matches takes it; in HOLD a whole frame counts as dropped at its last packet (R40). -/
def videoRx (p : VideoPkt) (s : Dev) : Dev :=
  s.vid.streams.foldl (fun s e =>
    if !streamMatch p e.2 then s
    else if s.sys.mode = .hold then
      (if formatMatch p e.2 && p.marker then bump R.SYS_HOLD_DROPS s else s)
    else if formatMatch p e.2 then streamPacket e.1 e.2 p s
    else bump (R.PKT_ING_FORMAT_DROPS e.1) s) s

/-- ST2110_PACKET_RX (R130). -/
def runSt2110PacketRx (t : Time) (p : VideoPkt) (s : Dev) : Host.Outcome Dev Fault Refusal :=
  .next (videoRx p (upTo t s))

/-- STREAM_LOST (R134): 500 ms without an accepted packet; the timer stands still in HOLD. -/
def runStreamLost (t : Time) (n : Nat) (s : Dev) : Host.Outcome Dev Fault Refusal :=
  let s := upTo t s
  .next (match tget s.vid.streams n with
    | some x => if x.joined && s.sys.mode != .hold && decide (x.heard + ms 500 ≤ s.raw) then loseStream n s else s
    | none => s)

/-! Canvases -/

/-- The TAIL a record value stands for (R135): 0xFFFF is min(2,000, ⌊Tf ÷ 5⌋). -/
def tailOf (num den v : Nat) : Nat := if v = 0xFFFF then min 2000 (den * 1000000 / (5 * num)) else v

/-- The timing a record spells, defaults filled in. -/
def timingOf (num den bands twilight lead tail flags : Nat) : Timing :=
  { rateNum := num, rateDen := den, bands := bands, twilight := if twilight = 0 then 2 else twilight,
    lead := if lead = 0 then 1 else lead, tailUs := tailOf num den tail, blankSend := bit flags 0 }

/-- Is timing in the ranges of R135? -/
def Timing.ok (g : Timing) (height flags : Nat) : Bool :=
  (g.rateDen == 1000 || g.rateDen == 1001) && decide (23 * g.rateDen ≤ g.rateNum ∧ g.rateNum ≤ 240 * g.rateDen) &&
    decide (1 ≤ g.bands ∧ g.bands ≤ 1024 ∧ g.bands ≤ height) && decide (g.twilight ≤ 16 ∧ g.lead ≤ 4) &&
    decide (g.tailUs ≤ g.rateDen * 1000000 / (5 * g.rateNum)) && decide (flags ≤ 1)

/-- TAIL as a duration. -/
def Timing.tail (g : Timing) : Int := (us g.tailUs : Nat)

/-- Tb × n (R136). -/
def Timing.bandsOf (g : Timing) (n : Nat) : Int := (g.frames 1 - g.tail) * n / g.bands

/-- Tw (R147). -/
def Timing.tw (g : Timing) : Int := max (min (g.tail + g.bandsOf g.twilight) (g.frames 1 / 2)) (us 250 : Nat)

/-- The ledger charges of a canvas (R67). -/
def canvasCharges (samples num den : Nat) : List (Nat × Nat) :=
  [(0, perSec (16 * samples) num den 1000000), (1, cdiv (samples * 16) 65536)]

/-- Pages of one sample buffer (R138). -/
def samplePages (samples : Nat) : Nat := cdiv (samples * 8) 65536

/-- The canvas a record describes. -/
def canvasOf (r : List Byte) : Canvas :=
  { domain := at_ r 2 1, primaries := at_ r 3 1
    timing := timingOf (at_ r 4 4) (at_ r 30 2) (at_ r 12 2) (at_ r 14 1) (at_ r 15 1) (at_ r 16 2) (at_ r 18 1)
    width := at_ r 8 2, height := at_ r 10 2, samples := at_ r 20 4
    bg := (at_ r 24 2, at_ r 26 2, at_ r 28 2), free := [(0, at_ r 20 4)] }

/-- Counters and margins of a canvas, cleared when it is created. -/
def clearRas (n : Nat) (s : Dev) : Dev :=
  [0x14, 0x18, 0x1C, 0x20, 0x24, 0x28, 0x2C, 0x30].foldl
    (fun s k => setRg (R.RAS_CANVAS_STATE n + k) (resetWord (R.RAS_CANVAS_STATE n + k)) s) s

/-- The fields of a canvas record that do not depend on how it came are in range. -/
def canvasOk (r : List Byte) : Bool :=
  let x := canvasOf r
  decide (x.domain ≤ 1 ∧ x.primaries ≤ 1) && decide (1 ≤ x.width ∧ x.width ≤ 16384 ∧ 1 ≤ x.height ∧ x.height ≤ 16384) &&
    decide (x.timing.rateNum ≠ 0) && x.timing.ok x.height (at_ r 18 1) && decide (at_ r 19 1 ≤ 63) &&
    decide (1 ≤ x.samples ∧ x.samples ≤ 4194304)

/-- The check of a canvas record (R135, R278). -/
def canvasPlan (s : Dev) (c : Ctx) (r : List Byte) : Check := do
  let x := canvasOf r
  require (indexOk c (at_ r 0 2) 0xFFFF) rcOutOfRange
  require (canvasOk r) rcOutOfRange
  require (commensurate (domAt s x.domain).rec_ x.timing.rateNum x.timing.rateDen) rcConflict
  pure { charges := canvasCharges x.samples x.timing.rateNum x.timing.rateDen, refs := []
         install := fun h s => do
           let s ← createTask (40976 + c.idx) 0x22 1 false false h (levelOf 0 c.prio) (16 * (at_ r 19 1 + 1)) s
           let s ← pinPages (okey 5 c.idx) 0 (samplePages x.samples) true s
           let s ← pinPages (okey 5 c.idx) 512 (samplePages x.samples) true s
           let x := { x with kAt := domTime s x.domain }
           pure (clearRas c.idx (setCanvas c.idx (x.regrid_ (domTime s x.domain) (phiOf s x)) s)) }

/-- MODIFY of a canvas changes BG only: every other field must equal its value in force (R135). -/
def canvasModify (x : Canvas) (r : List Byte) : Option Canvas :=
  let y := canvasOf r
  if y.domain = x.domain ∧ y.primaries = x.primaries ∧ y.timing = x.timing ∧ y.width = x.width ∧ y.height = x.height ∧
      y.samples = x.samples then some { x with bg := y.bg }
  else none

/-! Sample points (R137) -/

/-- Take a sample index for each point; none where they do not fit. -/
def takePoints (owner : Nat) : List (Nat × Nat) → Canvas → Option (List Nat × Canvas)
  | [], c => some ([], c)
  | (x, y) :: r, c => do
    let (i, free) ← segTake c.free
    let (l, c) ← takePoints owner r { c with free := free, points := tput c.points i (x, y, owner) }
    pure (i :: l, c)

/-- Return the sample indices of an owner, in ascending order. -/
def givePoints (owner : Nat) (c : Canvas) : Canvas :=
  let mine := (c.points.filter fun e => e.2.2.2 == owner).map (·.1)
  { c with points := c.points.filter fun e => e.2.2.2 != owner, free := mine.foldl segGive c.free }

/-- Does a point lie on the canvas? -/
def pointOk (c : Canvas) (p : Nat × Nat) : Bool := decide (p.1 < 4 * c.width ∧ p.2 < 4 * c.height)

/-- The band of a point (R137). -/
def bandOf (c : Canvas) (y : Nat) : Nat := y / 4 / cdiv c.height c.timing.bands

/-- Handle-relative byte of a sample (R138). -/
def sampleAt (buf i : Nat) : Nat := buf * 0x2000000 + 8 * i

/-- A sample of a canvas: R, G, B, FRAME. -/
def readSample (s : Dev) (c buf i : Nat) : Nat × Nat × Nat × Nat :=
  let v := leNat (relRead s (okey 5 c) (sampleAt buf i) 8)
  (v % 65536, v / 65536 % 65536, v / 2 ^ 32 % 65536, v / 2 ^ 48 % 65536)

/-! Layers -/

/-- A layer state entry (R140). -/
def lstateOf (e : List Byte) : LState :=
  { dx := at_ e 4 2, dy := at_ e 6 2, dw := at_ e 8 2, dh := at_ e 10 2, sx := at_ e 12 2, sy := at_ e 14 2,
    sw := at_ e 16 2, sh := at_ e 18 2, opacity := at_ e 20 2, blend := at_ e 22 1, z := at_ e 23 1,
    r := at_ e 24 2, g := at_ e 26 2, b := at_ e 28 2 }

/-- Is a layer state in range, with its stream's size if it has one? -/
def LState.ok (x : LState) (size : Option (Nat × Nat)) : Bool :=
  decide (1 ≤ x.dw ∧ x.dw ≤ 16384 ∧ 1 ≤ x.dh ∧ x.dh ≤ 16384 ∧ x.dx + x.dw ≤ 16384 ∧ x.dy + x.dh ≤ 16384) &&
    decide (x.blend ≤ 2 ∧ x.z ≤ 31) &&
    match size with
    | some (w, h) => decide (1 ≤ x.sw ∧ 1 ≤ x.sh ∧ x.sx + x.sw ≤ w ∧ x.sy + x.sh ≤ h)
    | none => true

/-- The size of the stream a layer follows. -/
def streamSize (s : Dev) (src : Option Nat) : Option (Nat × Nat) :=
  src.bind fun i => (tget s.vid.streams i).map fun x => (x.width, x.height)

/-- The layers of a canvas, with their indices. -/
def layersOf (s : Dev) (c : Nat) : List (Nat × Layer) := s.vid.layers.filter fun e => e.2.canvas == c

/-- R133: every layer that follows stream `i` lies on a canvas of this rate and domain (layer `but` left out). -/
def sameGrid (s : Dev) (i but : Nat) (c : Canvas) : Bool :=
  s.vid.layers.all fun e =>
    e.1 == but || e.2.source != some i ||
      match canvasAt s e.2.canvas with
      | some d => d.domain == c.domain && d.timing.rateNum == c.timing.rateNum && d.timing.rateDen == c.timing.rateDen
      | none => true

/-- Fetch bytes of a layer per frame, R144. -/
def fetchBytes (x : Stream) (bands : Nat) : Nat :=
  let plane (rows rb : Nat) : Nat := (rows + bands - 1) * (cdiv rb 64 + 1) * 64
  let d := x.depth
  match x.sampling with
  | 2 => plane x.height (x.width * 3 * d / 8)
  | 1 => plane x.height (x.width * d / 8) + plane (x.height / 2) (x.width * d / 8)
  | _ => plane x.height (x.width * d / 8) + plane x.height (x.width * d / 8)

/-- The ledger charges of a layer on a canvas of these figures (R67, R144). -/
def layerCharges (s : Dev) (samples : Nat) (src : Option Nat) (g : Timing) : List (Nat × Nat) :=
  (match src.bind fun i => tget s.vid.streams i with
    | some x => [(0, perSec (fetchBytes x g.bands) g.rateNum g.rateDen 1000000)]
    | none => []) ++ [(3, perSec samples g.rateNum g.rateDen 1)]

/-- The Z values a layer holds, live or staged. -/
def Layer.zs (l : Layer) : List Nat := l.live.z :: ((l.pend1.map (·.z)).toList ++ (l.pend2.map (·.z)).toList)

/-- The check of a layer record (R139). -/
def layerPlan (s : Dev) (c : Ctx) (r : List Byte) : Check := do
  let ch : Word := BitVec.ofNat 32 (at_ r 0 4)
  let src : Word := BitVec.ofNat 32 (at_ r 4 4)
  let loss := at_ r 8 1
  let lf : Word := BitVec.ofNat 32 (at_ r 12 4)
  let named := hKind lf == 6 && hIndex lf == c.idx
  require (match c.how with
    | .image => lf == mkHandle 6 0 c.idx
    | .create none => lf == 0xFFFFFFFF
    | .create (some _) => lf == 0xFFFFFFFF || named
    | .modify => lf == 0xFFFFFFFF || lf == handleOf s (okey 6 c.idx)) rcOutOfRange
  require (hKind ch == 5 && (objOf s ch).isSome) rcBadHandle
  require (src == 0 || (hKind src == 4 && (objOf s src).isSome)) rcBadHandle
  require (decide (loss ≤ 1)) rcOutOfRange
  match canvasAt s (hIndex ch) with
  | none => refuse rcBadHandle
  | some cv =>
    let source := if src = 0 then none else some (hIndex src)
    let st := lstateOf ((r.drop 12).take 32)
    let others := (layersOf s (hIndex ch)).filter (·.1 != c.idx)
    require (st.ok (streamSize s source)) rcOutOfRange
    require (match source with | some i => sameGrid s i c.idx cv | none => true) rcConflict
    require (!(others.any fun e => e.2.zs.contains st.z)) rcConflict
    pure { charges := layerCharges s cv.samples source cv.timing
           refs := hKey ch :: (if src = 0 then [] else [hKey src])
           install := fun _ s =>
             some { s with vid.layers := tput s.vid.layers c.idx { canvas := hIndex ch, source := source, loss := loss, live := st } } }

/-! The raster engine (R141-R145) -/

/-- Fraction bits of the engine's arithmetic. -/
def rasBits : Nat := 24 + Config.rasterExtra

/-- One in the engine's fixed point. -/
def rasOne : Int := (2 ^ rasBits : Nat)

/-- The quotient a ÷ b in fixed point, rounded to nearest with halves up. -/
def rasQuot (a b : Int) : Int := (2 * a * rasOne + b) / (2 * b)

/-- The product of two fixed-point numbers, rounded to nearest with halves up. -/
def rasMul (a b : Int) : Int := (2 * a * b + rasOne) / (2 * rasOne)

/-- Clamp to [0, 1]. -/
def unit01 (x : Int) : Int := max 0 (min rasOne x)

/-- The largest r below 2^n with r^5 ≤ q, found bit by bit. -/
def root5 (q : Nat) : Nat → Nat → Nat
  | 0, r => r
  | n + 1, r => if (r + 2 ^ n) ^ 5 ≤ q then root5 q n (r + 2 ^ n) else root5 q n r

/-- E'^2.4 in fixed point, rounded to nearest (R141 step 3): y with 2y within 1 of the fifth root of 32 × e^12 ÷ 2^(7P). -/
def pow24 (e : Int) : Int := ((root5 (32 * e.toNat ^ 12 / 2 ^ (7 * rasBits)) (rasBits + 2) 0 + 1) / 2 : Nat)

/-- R' G' B' of a pixel of a stream's buffer (steps 1 and 2). The clamp stands between steps: G' follows from R' and B' as step 2
gives them, before it (DEDUCED, log 36). -/
def pixelPrime (s : Dev) (i : Nat) (x : Stream) (buf u v : Nat) : Int × Int × Int :=
  let d := x.depth
  let m : Int := (2 ^ (d - 8) : Nat)
  let full : Int := (2 ^ d - 1 : Nat)
  let luma (c : Nat) : Int := unit01 (if x.range = 0 then rasQuot (c - 16 * m) (219 * m) else rasQuot c full)
  let half := rasOne / 2
  let chroma (c : Nat) : Int :=
    max (-half) (min half (if x.range = 0 then rasQuot (c - 128 * m) (224 * m) else rasQuot c full - half))
  let k (n : Nat) : Nat := component s i x buf n u v
  if x.sampling = 2 then (luma (k 0), luma (k 1), luma (k 2))
  else
    let (kr, kb) : Int × Int := if x.color = 0 then (2126, 722) else (2627, 593)
    let kg := 10000 - kr - kb
    let y := luma (k 0)
    let cb := chroma (k 1)
    let cr := chroma (k 2)
    let r := y + (2 * (20000 - 2 * kr) * cr + 10000) / 20000
    let b := y + (2 * (20000 - 2 * kb) * cb + 10000) / 20000
    let g := (2 * (10000 * y - kr * r - kb * b) + kg) / (2 * kg)
    (unit01 r, unit01 g, unit01 b)

/-- One row of a primaries matrix, entries × 10^4, rounded and clamped. -/
def primRow (a b c : Int) (p : Int × Int × Int) : Int := unit01 ((2 * (a * p.1 + b * p.2.1 + c * p.2.2) + 10000) / 20000)

/-- Step 4: the conversion between primaries. -/
def primaries (src dst : Nat) (p : Int × Int × Int) : Int × Int × Int :=
  if src = dst then p
  else if src = 0 then (primRow 6274 3293 433 p, primRow 691 9195 114 p, primRow 164 880 8956 p)
  else (primRow 16605 (-5876) (-728) p, primRow (-1246) 11329 (-83) p, primRow (-182) (-1006) 11187 p)

/-- Step 5: a linear component as a multiple of 1 ÷ 65,535. -/
def to16 (x : Int) : Nat := ((2 * x * 65535 + rasOne) / (2 * rasOne)).toNat

/-- The colour a layer gives a point it covers, as three 16-bit linear components. -/
def layerColor (s : Dev) (prim : Nat) (l : PLayer) (px py : Nat) : Nat × Nat × Nat :=
  match l.source with
  | none => (l.st.r, l.st.g, l.st.b)
  | some (i, buf) =>
    match tget s.vid.streams i with
    | none => (0, 0, 0)
    | some x =>
      let u := l.st.sx + (px - 4 * l.st.dx) * l.st.sw / (4 * l.st.dw)
      let v := l.st.sy + (py - 4 * l.st.dy) * l.st.sh / (4 * l.st.dh)
      let (r, g, b) := pixelPrime s i x buf u v
      let lin (e : Int) : Int := if x.transfer = 0 then unit01 (pow24 e) else e
      let (r, g, b) := primaries x.color prim (lin r, lin g, lin b)
      (to16 r, to16 g, to16 b)

/-- Does a layer cover a point (R141)? -/
def covers (l : PLayer) (px py : Nat) : Bool :=
  decide (4 * l.st.dx ≤ px ∧ px < 4 * (l.st.dx + l.st.dw) ∧ 4 * l.st.dy ≤ py ∧ py < 4 * (l.st.dy + l.st.dh))

/-- One component under one layer (R142). -/
def blend1 (mode opacity : Nat) (c cl : Int) : Int :=
  let a := rasQuot opacity 65535
  match mode with
  | 0 => unit01 (c + rasMul a (cl - c))
  | 1 => min rasOne (c + rasMul a cl)
  | _ => unit01 (rasMul c (rasOne - a + rasMul a cl))

/-- Is a layer opaque at the points it covers (R143)? -/
def PLayer.opaque_ (l : PLayer) : Bool := l.st.blend == 0 && l.st.opacity == 65535 && !l.clear

/-- The layers that contribute at a point, lowest Z first: those from the highest opaque one up (R143). -/
def contributing (ls : List PLayer) (px py : Nat) : List PLayer :=
  let hit := ls.filter fun l => covers l px py && !l.clear && decide (0 < l.st.opacity)
  let keep := (hit.reverse.span fun l => !l.opaque_)
  (keep.1 ++ keep.2.take 1).reverse

/-- Does a layer read a poisoned plane word at a point (R152)? -/
def planePoisoned (s : Dev) (l : PLayer) (px py : Nat) : Bool :=
  !s.pln.poisoned.isEmpty && match l.source with
    | none => false
    | some (i, buf) =>
      match tget s.vid.streams i with
      | none => false
      | some x =>
        let u := l.st.sx + (px - 4 * l.st.dx) * l.st.sw / (4 * l.st.dw)
        let v := l.st.sy + (py - 4 * l.st.dy) * l.st.sh / (4 * l.st.dh)
        [0, 1, 2].any fun k =>
          let a := x.bitAddr k u v
          relPoisoned s (okey 4 i) (x.bufAt buf + a / 8) || relPoisoned s (okey 4 i) (x.bufAt buf + (a + x.depth - 1) / 8)

/-- The layers of a pass as they act at a point: one that reads a poisoned word has no opacity there (R152). -/
def cleanLayers (s : Dev) (ls : List PLayer) (px py : Nat) : List PLayer :=
  ls.filter fun l => !(covers l px py && planePoisoned s l px py)

/-- Is a point one that a poisoned word affects? -/
def pointPoisoned (s : Dev) (p : Pass) (px py : Nat) : Bool :=
  (contributing p.layers px py).any fun l => planePoisoned s l px py

/-- The colour of a sample point (R142). -/
def compose (s : Dev) (prim : Nat) (p : Pass) (px py : Nat) : Nat × Nat × Nat :=
  let start (v : Nat) : Int := rasQuot v 65535
  let c := (contributing (cleanLayers s p.layers px py) px py).foldl (fun (c : Int × Int × Int) l =>
    let (r, g, b) := layerColor s prim l px py
    (blend1 l.st.blend l.st.opacity c.1 (start r), blend1 l.st.blend l.st.opacity c.2.1 (start g),
      blend1 l.st.blend l.st.opacity c.2.2 (start b))) (start p.bg.1, start p.bg.2.1, start p.bg.2.2)
  (to16 c.1, to16 c.2.1, to16 c.2.2)

/-- The granules of the latched planes a layer reads at a point: (stream, granule). -/
def granules (s : Dev) (l : PLayer) (px py : Nat) : List (Nat × Nat) :=
  match l.source with
  | none => []
  | some (i, _) =>
    match tget s.vid.streams i with
    | none => []
    | some x =>
      let u := l.st.sx + (px - 4 * l.st.dx) * l.st.sw / (4 * l.st.dw)
      let v := l.st.sy + (py - 4 * l.st.dy) * l.st.sh / (4 * l.st.dh)
      [0, 1, 2].flatMap fun k =>
        let a := x.bitAddr k u v
        [(i, a / 512), (i, (a + x.depth - 1) / 512)]

/-- Bytes one layer fetches in a band: its granules at the points given, each once. -/
def granuleBytes (s : Dev) (l : PLayer) (pts : List (Nat × Nat × Nat)) : Nat :=
  64 * ((pts.flatMap fun e => granules s l e.2.1 e.2.2).eraseDups).length

/-- The buffer that holds the samples of frame `n`: the one being written while its pass runs, whose bands are read as soon as they
stand there (R138). -/
def Canvas.readBuf (c : Canvas) (n : Int) : Nat := if c.pass.any fun p => p.frame == n then 1 - c.pub else c.pub

/-- The engine finishes the next band of a canvas's pass (R138, R145): its samples are written, and the fetch counted. -/
def writeBand (i : Nat) (c : Canvas) (p : Pass) (s : Dev) : Dev :=
  let pts := p.points.filter fun e => bandOf c e.2.2 == p.band
  let buf := 1 - c.pub
  let frame := unsgn 16 p.frame
  let s' := pts.foldl (fun s' e =>
    let (r, g, b) := compose s c.primaries p e.2.1 e.2.2
    relWrite (okey 5 i) (sampleAt buf e.1) (leBytes 2 r ++ leBytes 2 g ++ leBytes 2 b ++ leBytes 2 frame) s') s
  let s' := bumpBy (R.RAS_CANVAS_POISON i) (pts.filter fun e => pointPoisoned s p e.2.1 e.2.2).length s'
  let shown := p.layers.filter fun l => !l.clear && decide (0 < l.st.opacity)
  let fetch := (shown.map fun l =>
    granuleBytes s l (pts.filter fun e => (contributing p.layers e.2.1 e.2.2).contains l)).sum
  let all := (shown.map fun l => granuleBytes s l (pts.filter fun e => covers l e.2.1 e.2.2)).sum
  setCanvas i { c with pass := some { p with band := p.band + 1, fetched := p.fetched + fetch, saved := p.saved + (all - fetch) } } s'

/-- Pass deadline in canvas time (R136): the latch tick + Tf − TAIL. -/
def deadline (s : Dev) (c : Canvas) (p : Pass) : Int := tickAt s c p.latch + c.timing.frames 1 - c.timing.tail

/-- The last band is written in time: the buffer is published (R138). -/
def publish (i : Nat) (c : Canvas) (p : Pass) (s : Dev) : Dev :=
  let us_ := ((deadline s c p - canvasTime s c) / 65536000).toNat
  let s := setFld (F.RAS_CANVAS_MARGIN_LAST_US i) us_ s
  let s := setFld (F.RAS_CANVAS_MARGIN_MIN_US i) (min us_ (fld s (F.RAS_CANVAS_MARGIN_MIN_US i))) s
  let s := setRg (R.RAS_CANVAS_FETCH_BYTES i) (BitVec.ofNat 32 p.fetched) <|
    setRg (R.RAS_CANVAS_SAVED_BYTES i) (BitVec.ofNat 32 p.saved) s
  bump (R.RAS_CANVAS_PASSES i)
    (setCanvas i { c with pass := none, pub := 1 - c.pub, pubFrame := some p.frame } s)

/-- PASS_COMPLETE (R138). -/
def runPassComplete (t : Time) (i : Nat) (s : Dev) : Host.Outcome Dev Fault Refusal :=
  let s := upTo t s
  .next (match canvasAt s i with
    | some c =>
      match c.pass with
      | some p => if c.timing.bands ≤ p.band ∧ canvasTime s c ≤ deadline s c p then publish i c p s else s
      | none => s
    | none => s)

/-- An aborted pass (R151): nothing is published, UNDERRUN at most once per second. -/
def abortPass (i : Nat) (c : Canvas) (p : Pass) (s : Dev) : Dev :=
  let due := match c.lastUnderrun with
    | some v => decide (v + sec 1 ≤ s.raw)
    | none => true
  let s := bump (R.RAS_CANVAS_ABORTS i)
    (setCanvas i { c with pass := none, aborted := some p.frame, lastUnderrun := if due then some s.raw else c.lastUnderrun } s)
  if due then postRas 0x02 i (unsgn 32 p.frame) s else s

/-- The task of the universe or map that declares a sample point. -/
def pointTask (s : Dev) (owner : Nat) : Option Nat :=
  if owner / 2 ^ 20 = 1 then (tget s.outp.fixtures (owner % 2 ^ 20)).map (·.univ)
  else if owner / 2 ^ 20 = 7 then some (40984 + owner % 2 ^ 20) else none

/-- The last band holding a point of a task's fixtures or map; none without points on the canvas. -/
def lastBand (s : Dev) (c : Canvas) (task : Nat) : Option Nat :=
  (c.points.filter fun e => pointTask s e.2.2.2 == some task).foldl
    (fun (b : Option Nat) e => some (max (b.getD 0) (bandOf c e.2.2.1))) none

/-- The tasks of the show-class universes and the maps of a canvas. -/
def consumers (s : Dev) (i : Nat) : List Nat :=
  ((s.outp.univs.filter fun e => e.2.canvas == some i && e.2.cls == 0).map (·.1)) ++
    ((s.pxp.ports.filter fun e => e.2.map.any fun m => m.canvas == i).map fun e => 40984 + e.1)

/-- BANDS_READY (R176) goes to the tasks of a canvas that have their LATCH and whose last band is `b` or an earlier one; none: to all
of them, the pass being over. -/
def postBands (i : Nat) (b : Option Nat) (s : Dev) : Dev :=
  match canvasAt s i with
  | none => s
  | some c =>
    (consumers s i).foldl (fun s n =>
      match tget s.sch.tasks n with
      | some t =>
        if bit t.flags 1 && !bit t.flags 2 && (match b, lastBand s c n with | some b, some k => decide (k ≤ b) | _, _ => true) then
          postFlags n 4 s
        else s
      | none => s) s

/-- UNDERRUN (R151): the pass deadline has gone by without the last band. -/
def runUnderrun (t : Time) (i : Nat) (s : Dev) : Host.Outcome Dev Fault Refusal :=
  let s := upTo t s
  .next (match canvasAt s i with
    | some c =>
      match c.pass with
      | some p => if deadline s c p < canvasTime s c then postBands i none (abortPass i c p s) else s
      | none => s
    | none => s)

/-! The latch (R136, R147) -/

/-- A layer as the pass sees it: it acts as CLEAR while its stream has no latched buffer, or is lost with LOSS CLEAR. -/
def passLayer (s : Dev) (l : Layer) : PLayer :=
  match l.source with
  | none => { source := none, clear := false, st := l.live }
  | some i =>
    match tget s.vid.streams i with
    | some x =>
      if x.l = 3 then { source := none, clear := true, st := l.live }
      else { source := some (i, x.l), clear := x.lost && l.loss == 1, st := l.live }
    | none => { source := none, clear := true, st := l.live }

/-- Insert by Z, lowest first. -/
def insertZ (l : PLayer) : List PLayer → List PLayer
  | [] => [l]
  | x :: r => if l.st.z ≤ x.st.z then l :: x :: r else x :: insertZ l r

/-- Live layer states of a canvas step to the states staged for this tick. -/
def stepLayers (c : Nat) (s : Dev) : Dev :=
  { s with
    vid.layers := s.vid.layers.map fun e =>
      if e.2.canvas = c then (e.1, { e.2 with live := e.2.pend1.getD e.2.live, pend1 := e.2.pend2, pend2 := none }) else e }

/-- At a tick at which no pass starts, what is staged stays staged for the first pass afterwards (R148). -/
def keepLayers (c : Nat) (s : Dev) : Dev :=
  { s with
    vid.layers := s.vid.layers.map fun e =>
      if e.2.canvas = c then (e.1, { e.2 with pend1 := e.2.pend2 <|> e.2.pend1, pend2 := none }) else e }

/-- Does a layer take part in the pass that latches at tick `n`: HELD, or RUNNING with its first frame reached (R49, R79; DEDUCED, log 27)? -/
def layerShows (s : Dev) (c : Canvas) (i : Nat) (n : Int) : Bool :=
  match objAt s (okey 6 i) with
  | some o => o.state == 4 || (o.state == 2 && decide ((o.startAt : Int) ≤ tickAt s c (n + c.timing.lead) ∧ o.startCmd ≤ s.raw))
  | none => false

/-- A pass latches at tick `n` for frame `n + LEAD`: states, streams, background, points (R136, R137). -/
def startPass (i : Nat) (n : Int) (s : Dev) : Dev :=
  match canvasAt s i with
  | none => s
  | some c =>
    let s := setCanvas i { c with pend1 := c.pend2, pend2 := false } (stepLayers i s)
    let s := ((layersOf s i).filterMap fun e => e.2.source).eraseDups.foldl (fun s k => latchStream k n s) s
    let ls := ((layersOf s i).filter fun e => layerShows s c e.1 n).foldl (fun l e => insertZ (passLayer s e.2) l) []
    let p : Pass := { frame := n + c.timing.lead, latch := n, band := 0, layers := ls, bg := c.bg,
                      points := c.points.map fun e => (e.1, e.2.1, e.2.2.1) }
    match canvasAt s i with
    | some c => setCanvas i { c with pass := some p } s
    | none => s

/-- A tick at which no pass starts. -/
def skipPass (i : Nat) (s : Dev) : Dev :=
  match canvasAt s i with
  | some c => setCanvas i { c with pend1 := c.pend1 || c.pend2, pend2 := false } (keepLayers i s)
  | none => s

/-! LAYER_COMMIT (R146-R148) -/

/-- The Z of a layer once everything staged for it has been latched. -/
def Layer.lastZ (l : Layer) : Nat := ((l.pend2 <|> l.pend1).getD l.live).z

/-- Are the numbers of a list pairwise different? -/
def distinct (l : List Nat) : Bool := l.eraseDups.length == l.length

/-- The check of a commit's entries on a canvas. -/
def commitOk (s : Dev) (c : Nat) (es : List (List Byte)) : Except Refuse (List (Nat × LState)) := do
  let hs : List Word := es.map fun e => BitVec.ofNat 32 (at_ e 0 4)
  require (hs.all fun h => hKind h == 6 && (objOf s h).isSome) rcBadHandle
  let ids := hs.map hIndex
  require (ids.all fun i => match tget s.vid.layers i with | some l => l.canvas == c | none => false) rcOutOfRange
  require (distinct ids) rcOutOfRange
  let sts := es.map lstateOf
  require ((ids.zip sts).all fun e =>
    e.2.ok (streamSize s ((tget s.vid.layers e.1).bind (·.source)))) rcOutOfRange
  let zs := (layersOf s c).map fun e =>
    match (ids.zip sts).find? (·.1 == e.1) with
    | some x => x.2.z
    | none => e.2.lastZ
  require (distinct zs) rcConflict
  pure (ids.zip sts)

/-- Place a commit (R147): the tick it is latched at, and whether it fell in twilight. A canvas that starts no passes latches it at
its first pass. -/
def commitPlace (s : Dev) (i : Nat) (c : Canvas) : Int × Bool :=
  if !isRunning s (okey 5 i) || c.regrid.isSome then (c.nextN, false)
  else if canvasTime s c < tickAt s c c.nextN - c.timing.tw then (c.nextN, false)
  else (c.nextN + 1, true)

/-- LAYER_COMMIT: stage entries; answers the latch tick's time and LATE. -/
def commitLayers (i : Nat) (es : List (List Byte)) (s : Dev) : Dev × Except Refuse (List Byte) :=
  match canvasAt s i with
  | none => (s, refuse rcBadHandle)
  | some c =>
    match commitOk s i es with
    | .error e => (s, .error e)
    | .ok l =>
      let (n, late) := commitPlace s i c
      let data := timeBytes (tickAt s c n) ++ [if late then 1 else 0]
      let s := l.foldl (fun s e =>
        { s with
          vid.layers := tmod s.vid.layers e.1 fun y =>
            if late then { y with pend2 := some e.2 } else { y with pend1 := some e.2 } }) s
      let s := bump (R.RAS_CANVAS_COMMITS i)
        (setCanvas i (if late then { c with pend2 := true } else { c with pend1 := true }) s)
      let s := if late then
          postRas 0x01 i (unsgn 32 (n + c.timing.lead)) <| bump (R.RAS_CANVAS_LATE_COMMITS i) <|
            setFld F.RAS_COMMIT_LATE (fld s F.RAS_COMMIT_LATE ||| 2 ^ i) s
        else s
      (s, .ok data)

/-- A removed layer leaves its canvas; its staged entry is discarded (R148). -/
def dropLayer (i : Nat) (s : Dev) : Dev := { s with vid.layers := tdel s.vid.layers i }

/-- MODIFY of a layer (R139): SOURCE and LOSS. -/
def layerModify (s : Dev) (i : Nat) (l : Layer) (r : List Byte) : Except Refuse Layer := do
  let ch : Word := BitVec.ofNat 32 (at_ r 0 4)
  let src : Word := BitVec.ofNat 32 (at_ r 4 4)
  let lf : Word := BitVec.ofNat 32 (at_ r 12 4)
  require (lf == 0xFFFFFFFF || lf == handleOf s (okey 6 i)) rcOutOfRange
  require (ch == handleOf s (okey 5 l.canvas)) rcOutOfRange
  require (decide (at_ r 8 1 ≤ 1)) rcOutOfRange
  if src = 0 then pure { l with source := none, loss := at_ r 8 1 }
  else
    require (hKind src == 4 && (objOf s src).isSome) rcBadHandle
    match canvasAt s l.canvas with
    | none => refuse rcBadHandle
    | some c =>
      require (sameGrid s (hIndex src) i c) rcConflict
      let size := streamSize s (some (hIndex src))
      require ((l.live :: (l.pend1.toList ++ l.pend2.toList)).all fun x => x.ok size) rcOutOfRange
      pure { l with source := some (hIndex src), loss := at_ r 8 1 }

/-! Queries and derived registers (R155) -/

/-- Kind-specific bytes of QUERY for streams, canvases and layers. -/
def vidQuery (s : Dev) (kind i : Nat) : List Byte :=
  match kind with
  | 4 =>
    match tget s.vid.streams i with
    | some x => leBytes 1 (x.c + 4 * x.l) ++ leBytes 1 (if x.lost then 1 else 0) ++ [0, 0] ++ leBytes 4 x.cTime
    | none => []
  | 5 =>
    match canvasAt s i with
    | some c => leBytes 4 (unsgn 32 (c.pubFrame.getD 0)) ++ leBytes 1 (c.pub + (if c.blank then 2 else 0)) ++ [0, 0, 0]
    | none => []
  | _ =>
    match tget s.vid.layers i with
    | some l => leBytes 1 l.live.z ++ leBytes 1 (if (passLayer s l).clear then 1 else 0) ++ leBytes 2 l.live.opacity
    | none => []

/-- PKT's ingest state and RAS's state registers. -/
def vidView (s : Dev) (off : Nat) : Option Word :=
  let b (x : Bool) : Nat := if x then 1 else 0
  let w (n : Nat) : Option Word := some (BitVec.ofNat 32 n)
  if 0x210100 ≤ off ∧ off < 0x210300 ∧ off % 0x20 = 0 then
    match tget s.vid.streams ((off - 0x210100) / 0x20) with
    | some x => w (1 + 2 * b x.joined + 4 * b x.lost + 8 * x.w + 32 * x.c + 128 * x.l)
    | none => none
  else if off = R.RAS_COMMIT then
    let bits (f : Canvas → Bool) : Nat := (s.vid.canvases.map fun e => if f e.2 then 2 ^ e.1 else 0).sum
    w (fld s F.RAS_COMMIT_LATE + 256 * bits (·.pend1) + 65536 * bits (·.pend2))
  else if 0x220100 ≤ off ∧ off < 0x220300 then
    let i := (off - 0x220100) / 0x40
    match canvasAt s i with
    | none => none
    | some c =>
      let g := c.timing
      let retime := match c.regrid with
        | some r => r.timing.isSome
        | none => false
      match off % 0x40 with
      | 0x00 => w (1 + 2 * b c.pass.isSome + 4 * c.pub + 8 * b retime + 16 * b c.blank + 65536 * unsgn 16 (c.pubFrame.getD 0))
      | 0x04 => w g.rateNum
      | 0x08 => w (g.bands + 65536 * g.twilight + 2 ^ 21 * g.lead + 2 ^ 24 * b g.blankSend + 2 ^ 25 * c.domain +
          2 ^ 26 * c.primaries + 2 ^ 27 * b (g.rateDen == 1001))
      | 0x0C => w (g.tailUs + 65536 * ((g.tw + 65535999) / 65536000).toNat)
      | 0x10 => w c.points.length
      | _ => none
  else none

end Sys2Proof.Machine
end

