-- ==== Sys2Proof/Machine/Packets.lean ====
section
/-! DEFINITION. The bytes of the packets the device builds: Ethernet, IPv4, UDP, ARP, ICMP, IGMPv3, E1.31-2018 and PTP. The layouts
are those of the standards the spec names (log 12). -/

namespace Sys2Proof.Machine

/-- An Ethernet header: destination, source, 802.1Q tag (PCP and VID), EtherType. -/
def ethHead (dst src : Nat) (tag : Option (Nat × Nat)) (type : Nat) : List Byte :=
  beBytes 6 dst ++ beBytes 6 src ++
    (match tag with
      | some (pcp, vid) => beBytes 2 0x8100 ++ beBytes 2 (pcp * 8192 + vid % 4096)
      | none => []) ++ beBytes 2 type

/-- The broadcast address. -/
def macAll : Nat := 0xFFFFFFFFFFFF

/-- 01-00-5E followed by the low 23 bits of a group (R193). -/
def macOfGroup (ip : Nat) : Nat := 0x01005E000000 + ip % 2 ^ 23

/-- The sum of the 16-bit words of a byte list. -/
def sum16 : List Byte → Nat
  | a :: b :: r => a.toNat * 256 + b.toNat + sum16 r
  | [a] => a.toNat * 256
  | [] => 0

/-- Fold carries into 16 bits. -/
def fold16 (n : Nat) : Nat :=
  let f (x : Nat) : Nat := x / 65536 + x % 65536
  f (f (f n))

/-- The Internet checksum. -/
def checksum (l : List Byte) : Nat := 0xFFFF - fold16 (sum16 l)

/-- An IPv4 packet: source, destination, TTL, DSCP, protocol, options, payload. -/
def ipv4 (src dst ttl dscp proto : Nat) (opts payload : List Byte) : List Byte :=
  let head (sum : Nat) : List Byte :=
    [BitVec.ofNat 8 (0x45 + opts.length / 4), BitVec.ofNat 8 (4 * dscp)] ++ beBytes 2 (20 + opts.length + payload.length) ++
      beBytes 2 0 ++ beBytes 2 0 ++ [BitVec.ofNat 8 ttl, BitVec.ofNat 8 proto] ++ beBytes 2 sum ++ beBytes 4 src ++ beBytes 4 dst ++ opts
  head (checksum (head 0)) ++ payload

/-- A UDP datagram, its checksum field 0 (log 12). -/
def udp (sport dport : Nat) (payload : List Byte) : List Byte :=
  beBytes 2 sport ++ beBytes 2 dport ++ beBytes 2 (8 + payload.length) ++ beBytes 2 0 ++ payload

/-- An ARP packet: operation, sender, target. -/
def arp (op sha spa tha tpa : Nat) : List Byte :=
  beBytes 2 1 ++ beBytes 2 0x0800 ++ [6, 4] ++ beBytes 2 op ++ beBytes 6 sha ++ beBytes 4 spa ++ beBytes 6 tha ++ beBytes 4 tpa

/-- An IGMPv3 report with one group record. -/
def igmpReport (kind group : Nat) (sources : List Nat) : List Byte :=
  let body (sum : Nat) : List Byte :=
    [0x22, 0] ++ beBytes 2 sum ++ beBytes 2 0 ++ beBytes 2 1 ++ [BitVec.ofNat 8 kind, 0] ++ beBytes 2 sources.length ++
      beBytes 4 group ++ sources.flatMap (beBytes 4)
  body (checksum (body 0))

/-- An ICMP echo reply to the ICMP bytes of a request. -/
def echoReply (req : List Byte) : List Byte :=
  let body (sum : Nat) : List Byte := [0, 0] ++ beBytes 2 sum ++ req.drop 4
  body (checksum (body 0))

/-- A flags-and-length field of E1.31. -/
def flen (n : Nat) : List Byte := beBytes 2 (0x7000 + n % 4096)

/-- The E1.31 root layer around a framing layer. -/
def e131Root (vector : Nat) (cid framing : List Byte) : List Byte :=
  beBytes 2 0x0010 ++ beBytes 2 0 ++
    [0x41, 0x53, 0x43, 0x2D, 0x45, 0x31, 0x2E, 0x31, 0x37, 0, 0, 0] ++ flen (22 + framing.length) ++ beBytes 4 vector ++
    fit 16 cid ++ framing

/-- An E1.31 data packet (R193). -/
def e131Data (cid name : List Byte) (prio sync seq options univ : Nat) (slots : List Byte) : List Byte :=
  let dmp := flen (11 + slots.length) ++ [0x02, 0xA1] ++ beBytes 2 0 ++ beBytes 2 1 ++ beBytes 2 (slots.length + 1) ++ [0] ++ slots
  e131Root 4 cid
    (flen (77 + dmp.length) ++ beBytes 4 2 ++ fit 64 name ++ [BitVec.ofNat 8 prio] ++ beBytes 2 sync ++
      [BitVec.ofNat 8 seq, BitVec.ofNat 8 options] ++ beBytes 2 univ ++ dmp)

/-- An E1.31 synchronization packet. -/
def e131Sync (cid : List Byte) (seq sync : Nat) : List Byte :=
  e131Root 8 cid (flen 11 ++ beBytes 4 1 ++ [BitVec.ofNat 8 seq] ++ beBytes 2 sync ++ beBytes 2 0)

/-- An E1.31 universe discovery packet. -/
def e131Discovery (cid name : List Byte) (page last : Nat) (univs : List Nat) : List Byte :=
  let d := flen (8 + 2 * univs.length) ++ beBytes 4 1 ++ [BitVec.ofNat 8 page, BitVec.ofNat 8 last] ++ univs.flatMap (beBytes 2)
  e131Root 8 cid (flen (74 + d.length) ++ beBytes 4 2 ++ fit 64 name ++ beBytes 4 0 ++ d)

/-- The UDP payload byte that holds an E1.31 data packet's sequence number, and the one that holds its options. -/
def seqAt : Nat := 111
def optAt : Nat := 112

/-- A PTP message (IEEE 1588-2019): type, domain, flags, correction in 2^-16 ns, source identity and port, sequence, control, log
interval, body. -/
def ptpMsg (type dom flags : Nat) (correction : Int) (clock port seq control : Nat) (logInt : Int) (body : List Byte) : List Byte :=
  [BitVec.ofNat 8 type, 0x02] ++ beBytes 2 (34 + body.length) ++ [BitVec.ofNat 8 dom, 0] ++ beBytes 2 flags ++
    beBytes 8 (unsgn 64 correction) ++ beBytes 4 0 ++ beBytes 8 clock ++ beBytes 2 port ++ beBytes 2 seq ++
    [BitVec.ofNat 8 control, BitVec.ofNat 8 (unsgn 8 logInt)] ++ body

/-- A PTP timestamp: 48-bit seconds and 32-bit nanoseconds. -/
def ptpTime (x : Int) : List Byte := beBytes 6 (unsgn 48 (secsOf x)) ++ beBytes 4 (nanosOf x)

end Sys2Proof.Machine
end

