-- ==== Sys2Proof/Machine/Mac.lean ====
section
/-! DEFINITION. The network ports (chapter 10): records, link state, queues, preemption, PAUSE, reception, ARP, IGMP, counters. -/

namespace Sys2Proof.Machine

/-- A port. -/
def portAt (s : Dev) (n : Nat) : Port := (tget s.outp.ports n).getD {}

/-- Replace a port. -/
def setPort (n : Nat) (p : Port) (s : Dev) : Dev := { s with outp.ports := tput s.outp.ports n p }

/-- Change a port. -/
def modPort (n : Nat) (f : Port → Port) (s : Dev) : Dev := setPort n (f (portAt s n)) s

/-- Indices of the counters of R254. -/
abbrev cTxFrames : Nat := 0
abbrev cTxBytes : Nat := 1
abbrev cTxExpress : Nat := 2
abbrev cTxPreempted : Nat := 3
abbrev cTxLinkDrop : Nat := 4
abbrev cRxFrames : Nat := 5
abbrev cRxBytes : Nat := 6
abbrev cRxUcast : Nat := 7
abbrev cRxFcs : Nat := 10
abbrev cRxRunt : Nat := 11
abbrev cRxOversize : Nat := 12
abbrev cRxCode : Nat := 13
abbrev cRxLen : Nat := 14
abbrev cRxFilter : Nat := 15
abbrev cRxVlan : Nat := 16
abbrev cRxOvf : Nat := 17
abbrev cRxNobuf : Nat := 18
abbrev cRxCtlNobuf : Nat := 19
abbrev cRxPause : Nat := 20
abbrev cRxCtrl : Nat := 21
abbrev cRxAssy : Nat := 22
abbrev cRxReassembled : Nat := 23
abbrev cRxIpErr : Nat := 24
abbrev cRxIpFrag : Nat := 25
abbrev cRxUnsupported : Nat := 26
abbrev cPauseNs : Nat := 27
abbrev cLinkDowns : Nat := 35
abbrev cVerifyFails : Nat := 36
abbrev cIcmpIgnored : Nat := 37

/-- A counter of a port. -/
def Port.count (p : Port) (i : Nat) : Nat := (tget p.cnt i).getD 0

/-- Add to a 64-bit counter, which wraps. -/
def Port.add (p : Port) (i k : Nat) : Port := { p with cnt := tput p.cnt i ((p.count i + k) % 2 ^ 64) }

/-- Add to a counter of port `n`. -/
def cntAdd (n i k : Nat) (s : Dev) : Dev := modPort n (fun p => p.add i k) s

/-- Ports post with source code 0x10 + n, MGT with 0x20: the same sum (R255). -/
def postPort (n typ code low : Nat) (s : Dev) : Dev := postCode (0x10 + n) typ code low s

/-! Records (R236-R240) -/

/-- The port a record describes, defaults filled in. -/
def portRecOf (r : List Byte) : PortRec :=
  let d (v x : Nat) : Nat := if v = 0 then x else v
  let f := at_ r 3 1
  { mode := at_ r 1 1, speed := at_ r 2 1, pauseEn := bit f 0, preempt := bit f 1, an := bit f 2, txInv := bit f 3,
    rxInv := bit f 4, mac := beAt r 4 6, vlan := at_ r 10 2, ipv4 := at_ r 12 4, prefix_ := at_ r 16 1,
    verifyMs := d (at_ r 17 1) 10, maxFrame := d (at_ r 18 2) 1522, gateway := at_ r 20 4, rxBuffers := d (at_ r 24 2) 1024 }

/-- Are the fields of a port record in range (R236, R238)? -/
def portRecOk (r : List Byte) : Bool :=
  let x := portRecOf r
  let n := at_ r 0 1
  decide (n ≤ 16 ∧ x.mode ≤ 5) && (n != 16 || (decide (x.mode ≤ 2) && !x.preempt)) &&
    (if x.mode = 5 then decide (x.speed ≤ 3) else x.speed == 0) && decide (at_ r 3 1 < 32) &&
    x.mac != 0 && x.mac / 2 ^ 40 % 2 == 0 && x.vlan / 4096 % 8 == 0 && decide (8 ≤ x.prefix_ ∧ x.prefix_ ≤ 30) &&
    decide (x.verifyMs ≤ 128) && decide (1522 ≤ x.maxFrame ∧ x.maxFrame ≤ 9216) &&
    decide (256 ≤ x.rxBuffers ∧ x.rxBuffers ≤ 8192) && at_ r 26 6 == 0

/-- Line rate in bit/s (R237); 0 for a disabled port. -/
def PortRec.rate (r : PortRec) : Nat :=
  match r.mode with
  | 0 => 0
  | 1 => 1000000000
  | 2 => 1000000000
  | 3 => 2500000000
  | 4 => 10000000000
  | _ =>
    match r.speed with
    | 0 => 10000000000
    | 1 => 5000000000
    | 2 => 2500000000
    | _ => 1000000000

/-- The duration of `k` bytes on a port's line; 0 on a disabled port. -/
def PortRec.bytes (r : PortRec) (k : Nat) : Time := k * 8 * 65536 * 1000000000 / r.rate

/-- Is the port enabled? -/
def portOn (s : Dev) (n : Nat) : Bool := (portAt s n).rec_.mode != 0

/-- Data pages of a port's receive rings, beside the 4 pages of the control ring (R239). -/
def rxPages (r : PortRec) : Nat := cdiv (r.rxBuffers * 2048) 65536

/-- Apply a port record: registers, rings, the link starts to acquire (R32 step 13, R239). -/
def applyPort (n : Nat) (x : PortRec) (s : Dev) : Dev :=
  let s := modPort n (fun p => { p with rec_ := x, link := if x.mode = 0 then 0 else 1, verify := if x.preempt then 1 else 0 }) s
  let s := setBit (F.MAC_CTRL_PAUSE_EN n) x.pauseEn s
  if x.mode = 0 then s
  else
    let s := mapPages (rxKey n) (pinnedOf s (rxKey n)) true false false (rxPages x + 4 - pinnedOf s (rxKey n)) s
    chargeAll [(1, rxPages x + 4)] s

/-! Queues (R243, R245) -/

/-- The queue row of a frame (R245). -/
def TxTag.row : TxTag → Nat
  | .sync _ _ _ => 1
  | .event _ _ _ => 2
  | .show_ _ _ _ _ _ _ _ _ => 3
  | .control => 4
  | .site _ => 5
  | .best => 6

/-- Queue a frame; on a port that is not UP it is discarded and counted. The sync goes to the head of the express queue. MGT has
one queue. -/
def queueFrame (n : Nat) (f : TxFrame) (s : Dev) : Dev :=
  let p := portAt s n
  if p.link != 2 then cntAdd n cTxLinkDrop 1 s
  else if n = 16 then setPort n { p with queue := p.queue ++ [f] } s
  else
    match f.tag with
    | .sync _ _ _ => setPort n { p with express := f :: p.express } s
    | .event _ _ _ => setPort n { p with express := p.express ++ [f] } s
    | _ => setPort n { p with queue := p.queue ++ [f] } s

/-- The port's own VLAN state as a tag with a PCP. -/
def PortRec.tag (r : PortRec) (pcp : Nat) : Option (Nat × Nat) := if bit r.vlan 15 then some (pcp, r.vlan % 4096) else none

/-- A VLAN word (bit 15 TAGGED, [11:0] VID) as a tag. -/
def vlanTag (w pcp : Nat) : Option (Nat × Nat) := if bit w 15 then some (pcp, w % 4096) else none

/-! Addresses (R244) -/

/-- The addresses a port answers for: its own, and the SOURCE_IP of every identity that sends on it. -/
def ownIps (s : Dev) (n : Nat) : List Nat :=
  (portAt s n).rec_.ipv4 ::
    (s.outp.univs.filterMap fun e =>
      if e.2.dest = n ∧ e.2.valley = 0 then
        match tget s.outp.idents e.2.ident with
        | some i => if i.sourceIp = 0 then none else some i.sourceIp
        | none => none
      else none).eraseDups

/-- Queue an ARP frame. -/
def sendArp (n op dst spa tha tpa : Nat) (s : Dev) : Dev :=
  let r := (portAt s n).rec_
  queueFrame n ⟨.control, ethHead dst r.mac (r.tag 0) 0x0806 ++ arp op r.mac spa tha tpa⟩ s

/-- A gratuitous ARP for each of the port's addresses. -/
def gratuitous (n : Nat) (s : Dev) : Dev :=
  (ownIps s n).foldl (fun s ip => if ip = 0 then s else sendArp n 1 macAll ip 0 ip s) s

/-- Ask for an address. -/
def askArp (n ip : Nat) (s : Dev) : Dev :=
  sendArp n 1 macAll (portAt s n).rec_.ipv4 0 ip
    (modPort n (fun p => { p with arp := tmod p.arp ip fun e => { e with asked := s.raw } }) s)

/-- The address that a destination is resolved through: itself inside the prefix, else the gateway; 0 where there is none. -/
def PortRec.hop (r : PortRec) (ip : Nat) : Nat :=
  if ip / 2 ^ (32 - r.prefix_) = r.ipv4 / 2 ^ (32 - r.prefix_) then ip else r.gateway

/-- Room in the cache of 256 entries: the entry asked longest ago leaves (log 13). -/
def arpRoom (l : Tbl ArpEntry) : Tbl ArpEntry :=
  if l.length < 256 then l
  else
    match l with
    | [] => []
    | e :: r => tdel l (r.foldl (fun b x => if x.2.asked < b.2.asked then x else b) e).1

/-- Resolve a unicast destination; an unknown one is asked for. -/
def resolve (n ip : Nat) (s : Dev) : Dev × Option Nat :=
  let p := portAt s n
  let h := p.rec_.hop ip
  if h = 0 then (s, none)
  else
    match tget p.arp h with
    | some e =>
      match e.mac with
      | some m => if s.raw < e.born + sec 300 then (s, some m) else (s, none)
      | none => (s, none)
    | none =>
      (askArp n h (setPort n { p with arp := tput (arpRoom p.arp) h { mac := none, born := s.raw, asked := s.raw } } s), none)

/-- An ARP answer resolves an entry of the cache. -/
def learnArp (n ip mac : Nat) (s : Dev) : Dev :=
  modPort n (fun p => { p with arp := tmod p.arp ip fun e => { e with mac := some mac, born := s.raw } }) s

/-- ARP_REQUEST_RETRY (R244): an unresolved destination is requested once per second. -/
def runArpRequestRetry (t : Time) (n ip : Nat) (s : Dev) : Host.Outcome Dev Fault Refusal :=
  let s := upTo t s
  .next (match tget (portAt s n).arp ip with
    | some e => if e.mac.isNone && decide (e.asked + sec 1 ≤ s.raw) then askArp n ip s else s
    | none => s)

/-- ARP_ENTRY_REFRESH (R244): an entry is requested again at 270 s. -/
def runArpEntryRefresh (t : Time) (n ip : Nat) (s : Dev) : Host.Outcome Dev Fault Refusal :=
  let s := upTo t s
  .next (match tget (portAt s n).arp ip with
    | some e =>
      if e.mac.isSome && decide (e.born + sec 270 ≤ s.raw) && decide (e.asked < e.born + sec 270) then askArp n ip s else s
    | none => s)

/-- ARP_ENTRY_EXPIRY (R244): an entry lives 300 s. -/
def runArpEntryExpiry (t : Time) (n ip : Nat) (s : Dev) : Host.Outcome Dev Fault Refusal :=
  let s := upTo t s
  .next (match tget (portAt s n).arp ip with
    | some e =>
      if e.mac.isSome && decide (e.born + sec 300 ≤ s.raw) then modPort n (fun p => { p with arp := tdel p.arp ip }) s else s
    | none => s)

/-! Groups (R253) -/

/-- Send an IGMPv3 report of a record type for a group. -/
def sendIgmp (n kind group source vlan : Nat) (s : Dev) : Dev :=
  let r := (portAt s n).rec_
  let typ := match kind, source with
    | 0, 0 => 4
    | 0, _ => 3
    | 1, 0 => 3
    | 1, _ => 3
    | _, 0 => 2
    | _, _ => 1
  let sources := if kind = 1 ∨ source = 0 then [] else [source]
  queueFrame n ⟨.control, ethHead (macOfGroup 0xE0000016) r.mac (vlanTag vlan 0) 0x0800 ++
    ipv4 r.ipv4 0xE0000016 1 0 2 [0x94, 0x04, 0, 0] (igmpReport typ group sources)⟩ s

/-- A state-change report: sent now and again 1 s later. -/
def reportChange (n kind group source vlan : Nat) (s : Dev) : Dev :=
  sendIgmp n kind group source vlan
    (modPort n (fun p => { p with igmp := p.igmp ++ [⟨group, kind, source, vlan, s.raw + sec 1⟩] }) s)

/-- A channel joins a group on a port. -/
def joinGroup (n group key source vlan : Nat) (s : Dev) : Dev :=
  reportChange n 0 group source vlan (modPort n (fun p => { p with groups := p.groups ++ [(group, key)] }) s)

/-- A channel leaves a group; the report goes once no other channel of the port holds it (log 13). -/
def leaveGroup (n group key vlan : Nat) (s : Dev) : Dev :=
  if (portAt s n).groups.contains (group, key) then
    let s := modPort n (fun p => { p with groups := p.groups.erase (group, key) }) s
    if (portAt s n).groups.any (·.1 == group) then s else reportChange n 1 group 0 vlan s
  else s

/-- The multicast group of an E1.31 universe. -/
def e131Group (u : Nat) : Nat := 0xEFFF0000 + u % 65536

/-- The source filter and VLAN word under which a channel holds its group. -/
def groupInfo (s : Dev) (key : Nat) : Nat × Nat :=
  if key / 2 ^ 20 = 4 then
    match tget s.vid.streams (key % 2 ^ 20) with
    | some x => (x.source, x.vlan)
    | none => (0, 0)
  else
    match tget s.outp.inputs (key % 2 ^ 20) with
    | some x => (0, if x.tagged then 0x8000 + x.vid else 0)
    | none => (0, 0)

/-- IGMP_REPORT_SEND (R253): a report waiting for a group falls due. -/
def runIgmpReportSend (t : Time) (n group : Nat) (s : Dev) : Host.Outcome Dev Fault Refusal :=
  let s := upTo t s
  .next (match (portAt s n).igmp.find? fun d => d.group == group && decide (d.due ≤ s.raw) with
    | some d => sendIgmp n d.kind d.group d.source d.vlan (modPort n (fun p => { p with igmp := p.igmp.erase d }) s)
    | none => s)

/-- A query is answered after a random delay within its maximum response time, a free value (R253). -/
def igmpQuery (n group maxResp : Nat) (s : Dev) : Dev :=
  let gs := ((portAt s n).groups.map (·.1)).eraseDups
  let gs := if group = 0 then gs else gs.filter (· == group)
  gs.foldl (fun s g =>
    match (portAt s n).groups.find? (·.1 == g) with
    | none => s
    | some e =>
      let (src, vlan) := groupInfo s e.2
      let due := s.raw + Config.freeNat s.free % (maxResp + 1)
      drawn (modPort n (fun p => { p with igmp := p.igmp ++ [⟨g, 2, src, vlan, due⟩] }) s)) s

/-- The maximum response time of a query: version 1 has none and means 10 s; version 2 and 3 in tenths of a second. -/
def maxRespOf (b : List Byte) : Time :=
  let c := at_ b 1 1
  let tenths := if c = 0 then 100 else if b.length < 12 ∨ c < 128 then c else (c % 16 + 16) * 2 ^ (c / 16 % 8 + 3)
  ms (100 * tenths)

/-! PAUSE (R248) -/

/-- A pause in force ends at `e`: PAUSE_NS takes the time it held the port. -/
def endPause (n e : Nat) (s : Dev) : Dev :=
  let p := portAt s n
  match p.pauseEnd with
  | none => s
  | some _ => setPort n (({ p with pauseEnd := none } : Port).add cPauseNs ((e - p.pauseFrom) / 65536)) s

/-- The instant at which the port could next start a frame. -/
def Port.nextStart (p : Port) (now : Time) : Time :=
  match p.wire with
  | some w => w.done + p.rec_.bytes 12
  | none => max now p.ready

/-- A received PAUSE of `q` quanta that is acted on. -/
def pauseRx (n q : Nat) (s : Dev) : Dev :=
  if q = 0 then endPause n s.raw s
  else
    modPort n (fun p =>
      { p with
        pauseEnd := some (s.raw + p.rec_.bytes (64 * q))
        pauseFrom := (if p.pauseEnd.isSome then p.pauseFrom else p.nextStart s.raw) }) s

/-- PAUSE_END (R248). -/
def runPauseEnd (t : Time) (n : Nat) (s : Dev) : Host.Outcome Dev Fault Refusal :=
  let s := upTo t s
  .next (match (portAt s n).pauseEnd with
    | some e => if e ≤ s.raw then endPause n e s else s
    | none => s)

/-- A write of MACn.CTRL.PAUSE_EN; clearing it ends a pause at once. -/
def writePauseEn (n : Nat) (on : Bool) (s : Dev) : Dev :=
  let s := setBit (F.MAC_CTRL_PAUSE_EN n) on s
  if on then s else endPause n s.raw s

/-! Link state and verification (R243, R247) -/

/-- Verification starts: a verify mPacket goes out. -/
def startVerify (n : Nat) (s : Dev) : Dev :=
  emit (.mpacket n false) (modPort n (fun p => { p with verify := 2, attempts := 1, verifyAt := s.raw }) s)

/-- The link of a port comes UP. -/
def linkUp (n : Nat) (s : Dev) : Dev :=
  let s := postPort n 4 0x01 0 (modPort n (fun p => { p with link := 2, ready := s.raw }) s)
  let s := gratuitous n s
  let s := ((portAt s n).groups.map (·.1)).eraseDups.foldl (fun s g =>
    match (portAt s n).groups.find? (·.1 == g) with
    | some e => let (src, vlan) := groupInfo s e.2; sendIgmp n 2 g src vlan s
    | none => s) s
  if (portAt s n).rec_.preempt then startVerify n s else s

/-- Frames waiting or on the wire. -/
def Port.waiting (p : Port) : Nat :=
  p.express.length + p.queue.length + (if p.wire.isSome then 1 else 0) + (if p.held.isSome then 1 else 0)

/-- Queues discarded and counted, the pause ended, preemption INITIAL, the link ACQUIRING. -/
def dropLink (n : Nat) (s : Dev) : Dev :=
  let s := endPause n s.raw s
  modPort n (fun p =>
    ({ p with express := [], queue := [], wire := none, held := none, link := 1,
              verify := if p.rec_.preempt then 1 else 0, attempts := 0 } : Port).add cTxLinkDrop p.waiting) s

/-- Do the ports acquire: from CONFIGURE on (R32 step 13, R24), and in LOAD, where MGT alone may be enabled (R366). -/
def portsRun (s : Dev) : Bool := timeRuns s || s.sys.mode == .load

/-- LINK_UP (R243). -/
def runLinkUp (t : Time) (n : Nat) (s : Dev) : Host.Outcome Dev Fault Refusal :=
  let s := upTo t s
  .next (if portsRun s && (portAt s n).link == 1 then linkUp n s else s)

/-- LINK_DOWN (R243). -/
def runLinkDown (t : Time) (n : Nat) (s : Dev) : Host.Outcome Dev Fault Refusal :=
  let s := upTo t s
  .next (if (portAt s n).link == 2 then postPort n 4 0x02 0 (cntAdd n cLinkDowns 1 (dropLink n s)) else s)

/-- LINK_MISMATCH (R241, R243). -/
def runLinkMismatch (t : Time) (n : Nat) (s : Dev) : Host.Outcome Dev Fault Refusal :=
  let s := upTo t s
  .next (if portsRun s && (portAt s n).link == 1 then postPort n 4 0x03 0 (modPort n (fun p => { p with link := 3 }) s) else s)

/-- Autonegotiation restarts: MISMATCH goes back to ACQUIRING. -/
def restartAn (n : Nat) (s : Dev) : Dev :=
  modPort n (fun p => if p.link = 3 then { p with link := 1 } else p) s

/-- PARTNER_ADVERTISEMENT_CHANGE (R243): the partner's word, kept in the modes that negotiate. -/
def runPartnerAdvertisementChange (t : Time) (n w : Nat) (s : Dev) : Host.Outcome Dev Fault Refusal :=
  let s := upTo t s
  .next (if portsRun s && portOn s n then
      restartAn n (modPort n (fun p =>
        { p with
          lpAbility := (if (p.rec_.mode = 1 ∧ p.rec_.an) ∨ p.rec_.mode = 2 ∨ p.rec_.mode = 5 then w % 65536 else 0) }) s)
    else s)

/-- Verification restarts from FAILED or SUCCEEDED: INITIAL, then as on link UP. -/
def restartVerify (n : Nat) (s : Dev) : Dev :=
  let p := portAt s n
  if p.verify = 3 ∨ p.verify = 4 then
    if p.link = 2 then startVerify n s else modPort n (fun p => { p with verify := 1, attempts := 0 }) s
  else s

/-- A write of MACn.CTRL: PAUSE_EN (R248), VERIFY_RESTART (R247), AN_RESTART (R243). -/
def writeMacCtrl (n : Nat) (v : Word) (s : Dev) : Dev :=
  let s := writePauseEn n (bit v.toNat 0) s
  let s := if bit v.toNat 1 then restartVerify n s else s
  if bit v.toNat 2 then restartAn n s else s

/-- May a PCIe write of a register take effect now? -/
def canWrite (s : Dev) (off : Nat) : Bool := pcieUp s && bar0Writable s off

/-- PAUSE_EN_WRITE (R248): a write of MACn.CTRL. -/
def runPauseEnWrite (t : Time) (n : Nat) (v : Word) (s : Dev) : Host.Outcome Dev Fault Refusal :=
  let s := upTo t s
  .next (if n < 17 ∧ canWrite s (R.MAC_CTRL n) then writeMacCtrl n v s else s)

/-- AN_RESTART (R243): a write of MACn.CTRL. -/
def runAnRestart (t : Time) (n : Nat) (v : Word) (s : Dev) : Host.Outcome Dev Fault Refusal :=
  let s := upTo t s
  .next (if n < 17 ∧ canWrite s (R.MAC_CTRL n) then writeMacCtrl n v s else s)

/-- VERIFY_RESTART (R247): a write of MACn.CTRL. -/
def runVerifyRestart (t : Time) (n : Nat) (v : Word) (s : Dev) : Host.Outcome Dev Fault Refusal :=
  let s := upTo t s
  .next (if n < 17 ∧ canWrite s (R.MAC_CTRL n) then writeMacCtrl n v s else s)

/-- VERIFY_TIMEOUT (R247): VERIFY_MS without a respond mPacket. -/
def runVerifyTimeout (t : Time) (n : Nat) (s : Dev) : Host.Outcome Dev Fault Refusal :=
  let s := upTo t s
  let p := portAt s n
  .next (if p.verify = 2 ∧ p.verifyAt + ms p.rec_.verifyMs ≤ s.raw then
      if p.attempts < 3 then
        emit (.mpacket n false) (setPort n { p with attempts := p.attempts + 1, verifyAt := s.raw } s)
      else postPort n 4 0x05 0 (cntAdd n cVerifyFails 1 (setPort n { p with verify := 4 } s))
    else s)

/-- MPACKET_RX (R247): a verify is answered in every state but DISABLED; a respond completes VERIFYING. -/
def runMpacketRx (t : Time) (n : Nat) (respond : Bool) (s : Dev) : Host.Outcome Dev Fault Refusal :=
  let s := upTo t s
  let p := portAt s n
  .next (if p.link ≠ 2 ∨ p.verify = 0 then s
    else if respond then
      if p.verify = 2 then postPort n 4 0x04 0 (setPort n { p with verify := 3 } s) else s
    else emit (.mpacket n true) s)

/-! Counter reads and snapshots (R254) -/

/-- Copy every counter of a port at one instant; the bank is complete at once in the model. -/
def snapPort (n : Nat) (s : Dev) : Dev :=
  let t := domTime s 0
  setBit (F.MAC_SNAP_DONE n) true <| setRg (R.MAC_SNAP_S n) (BitVec.ofNat 32 (unsgn 32 (secsOf t))) <|
    setRg (R.MAC_SNAP_NS n) (BitVec.ofNat 32 (nanosOf t)) (modPort n (fun p => { p with snap := p.cnt }) s)

/-- Every port at one instant. -/
def snapAll (s : Dev) : Dev := (List.range 17).foldl (fun s n => snapPort n s) s

/-- A write of MACn.SNAP: ALL, in MAC0 only, takes every port. -/
def writeSnap (n : Nat) (v : Word) (s : Dev) : Dev :=
  if n = 0 ∧ bit v.toNat 1 then snapAll s else if bit v.toNat 0 then snapPort n s else s

/-- SNAP_GO (R254): a write of MACn.SNAP. -/
def runSnapGo (t : Time) (n : Nat) (v : Word) (s : Dev) : Host.Outcome Dev Fault Refusal :=
  let s := upTo t s
  .next (if n < 17 ∧ canWrite s (R.MAC_SNAP n) then writeSnap n v s else s)

/-- SNAP_ALL (R254): a write of MAC0.SNAP. -/
def runSnapAll (t : Time) (v : Word) (s : Dev) : Host.Outcome Dev Fault Refusal :=
  let s := upTo t s
  .next (if canWrite s (R.MAC_SNAP 0) then writeSnap 0 v s else s)

/-- A read of the LO half of a live counter latches its HI half. -/
def cntLoRead (n i : Nat) (s : Dev) : Dev × Word :=
  let v := (portAt s n).count i
  (modPort n (fun p => { p with hiLatch := tput p.hiLatch i (v / 2 ^ 32) }) s, BitVec.ofNat 32 (v % 2 ^ 32))

/-- CNT_LO_READ (R254). -/
def runCntLoRead (t : Time) (n i : Nat) (s : Dev) : Host.Outcome Dev Fault Refusal :=
  let s := upTo t s
  .next (if !pcieUp s || decide (17 ≤ n) || decide (38 ≤ i) then s
    else if bar0Up s (R.MAC_CNT_LO n i) then let (s, w) := cntLoRead n i s; emit (.readData (leBytes 4 w.toNat)) s
    else emit (.readData (leBytes 4 0)) s)

/-! Reception (R249-R252) -/

/-- The VID of a frame for the VLAN check: a priority tag counts as none. -/
def frameVid (f : EthFrame) : Option Nat :=
  match f.tags with
  | v :: _ => if v = 0 then none else some v
  | [] => none

/-- The VIDs a port knows (R252). -/
def knownVid (s : Dev) (n v : Nat) : Bool :=
  let r := (portAt s n).rec_
  (bit r.vlan 15 && r.vlan % 4096 == v) ||
    (s.vid.streams.any fun e => e.2.port == n && bit e.2.vlan 15 && e.2.vlan % 4096 == v) ||
    (s.outp.inputs.any fun e => bit e.2.ports n && e.2.tagged && e.2.vid == v)

/-- Does the destination pass the port's filter? -/
def dstOk (s : Dev) (n : Nat) (f : EthFrame) : Bool :=
  let p := portAt s n
  f.dst == p.rec_.mac || f.dst == macAll ||
    ([0xE0000001, 0xE0000016, 0xE0000181].map macOfGroup).contains f.dst || (p.groups.any fun g => macOfGroup g.1 == f.dst)

/-- Total length of the IPv4 packet in a frame. -/
def ipLen (b : List Byte) : Nat := beAt b 2 2

/-- Header length of an IPv4 packet. -/
def ipHead (b : List Byte) : Nat := 4 * (at_ b 0 1 % 16)

/-- The transport payload of an IPv4 packet, padding cut off. -/
def ipBody (b : List Byte) : List Byte := (b.take (ipLen b)).drop (ipHead b)

/-- Do version, header, lengths and checksums of an IPv4 packet hold? -/
def ipOk (b : List Byte) : Bool :=
  let hl := ipHead b
  let body := ipBody b
  at_ b 0 1 / 16 == 4 && decide (20 ≤ hl) && decide (hl ≤ ipLen b ∧ ipLen b ≤ b.length) && fold16 (sum16 (b.take hl)) == 0xFFFF &&
    (at_ b 9 1 != 17 || decide (beAt b 6 2 % 0x4000 ≠ 0) ||
      (decide (8 ≤ body.length) && beAt body 4 2 == body.length &&
        (beAt body 6 2 == 0 ||
          fold16 (sum16 ((b.drop 12).take 8 ++ beBytes 2 17 ++ beBytes 2 body.length ++ body)) == 0xFFFF)))

/-- What a port does with a received frame (R249): dropped into a counter, a MAC control frame, or accepted for the control ring
(true) or the data ring (false). -/
inductive RxVerdict where
  | drop (counter : Nat)
  | macControl
  | accept (control : Bool)
  deriving DecidableEq, Repr

/-- Is an accepted frame one for the control ring (R250)? -/
def controlFrame (f : EthFrame) : Bool :=
  f.etherType == 0x0806 || at_ f.payload 9 1 == 1 || at_ f.payload 9 1 == 2 ||
    (at_ f.payload 9 1 == 17 && (beAt (ipBody f.payload) 2 2 == 319 || beAt (ipBody f.payload) 2 2 == 320))

/-- On MGT the data ring takes only UDP to the port's address on ports 49730 and 49731; PTP is not received there (R250). -/
def mgtTakes (s : Dev) (f : EthFrame) : Bool :=
  f.etherType == 0x0806 || at_ f.payload 9 1 == 1 || at_ f.payload 9 1 == 2 ||
    (at_ f.payload 9 1 == 17 && beAt f.payload 16 4 == (portAt s 16).rec_.ipv4 &&
      (beAt (ipBody f.payload) 2 2 == 49730 || beAt (ipBody f.payload) 2 2 == 49731))

/-- The checks of R249 in their order. -/
def rxVerdict (s : Dev) (n : Nat) (f : EthFrame) : RxVerdict :=
  let p := portAt s n
  if f.codeError then .drop cRxCode
  else if !f.fcsOk then .drop cRxFcs
  else if f.len < 64 then .drop cRxRunt
  else if p.rec_.maxFrame < f.len then .drop cRxOversize
  else if f.etherType = 0x8808 then .macControl
  else if !dstOk s n f then .drop cRxFilter
  else if 2 ≤ f.tags.length ∨ f.sTag then .drop cRxUnsupported
  else if (match frameVid f with | some v => !knownVid s n v | none => false) then .drop cRxVlan
  else if f.etherType < 1536 ∧ f.payload.length < f.etherType then .drop cRxLen
  else if f.etherType ≠ 0x0800 ∧ f.etherType ≠ 0x0806 then .drop cRxUnsupported
  else if f.etherType = 0x0800 ∧ !ipOk f.payload then .drop cRxIpErr
  else if f.etherType = 0x0800 ∧ beAt f.payload 6 2 % 0x4000 ≠ 0 then .drop cRxIpFrag
  else if n = 16 ∧ !mgtTakes s f then .drop cRxFilter
  else .accept (controlFrame f)

/-- The size bin of a length (R254); a runt has none. -/
def sizeBin (len : Nat) : Option Nat :=
  if len < 64 then none
  else some (if len = 64 then 28 else if len ≤ 127 then 29 else if len ≤ 255 then 30 else if len ≤ 511 then 31
    else if len ≤ 1023 then 32 else if len ≤ 1518 then 33 else 34)

/-- The bytes of a frame as stored: destination address up to the FCS. -/
def frameStored (f : EthFrame) : List Byte :=
  beBytes 6 f.dst ++ beBytes 6 f.src ++
    f.tags.flatMap (fun v => beBytes 2 0x8100 ++ beBytes 2 v) ++ beBytes 2 f.etherType ++ f.payload

/-- Write a frame into ring buffers from position `pos` on: `base` is the ring's first byte, `size` its buffers. -/
def rxStore (n base size : Nat) (pos : Nat) (l : List Byte) : Nat → Dev → Dev
  | 0, s => s
  | k + 1, s =>
    rxStore n base size (pos + 1) (l.drop 2048) k (relWrite (rxKey n) (base + 2048 * (pos % size)) (l.take 2048) s)

/-- Is a packet-engine task's producer waiting: the data ring is then not emptied (R113, R250). -/
def packetWait (s : Dev) : Bool :=
  s.sch.waits.any fun e => (decide (32768 ≤ e.1) && decide (e.1 < 36864)) || (decide (40960 ≤ e.1) && decide (e.1 < 40976))

/-- The first drop of a port in any second posts RX_DROPPING (R251). -/
def rxDropping (n : Nat) (s : Dev) : Dev :=
  let p := portAt s n
  if (match p.lastDrop with | some v => decide (v + sec 1 ≤ s.raw) | none => true) then
    postPort n 0xB 0x06 ((p.count cRxNobuf + p.count cRxCtlNobuf + p.count cRxOvf) % 2 ^ 32)
      (setPort n { p with lastDrop := some s.raw } s)
  else setPort n { p with lastDrop := some s.raw } s

/-- The control cores take a frame from the control ring (R244, R253). -/
def controlRx (n : Nat) (f : EthFrame) (s : Dev) : Dev :=
  let p := portAt s n
  if f.etherType = 0x0806 then
    let op := beAt f.payload 6 2
    let spa := beAt f.payload 14 4
    let tpa := beAt f.payload 24 4
    let sha := beAt f.payload 8 6
    let s := if op = 2 then learnArp n spa sha s else s
    if op = 1 ∧ tpa ≠ 0 ∧ (ownIps s n).contains tpa then sendArp n 2 sha tpa sha spa s else s
  else
    let b := ipBody f.payload
    let src := beAt f.payload 12 4
    if at_ f.payload 9 1 = 1 then
      if at_ b 0 1 = 8 ∧ beAt f.payload 16 4 = p.rec_.ipv4 then
        let p := if p.icmpFrom + sec 1 ≤ s.raw ∨ p.icmpCount = 0 then { p with icmpFrom := s.raw, icmpCount := 0 } else p
        if p.icmpCount < 100 then
          let p := { p with icmpCount := p.icmpCount + 1 }
          queueFrame n ⟨.control, ethHead f.src p.rec_.mac (p.rec_.tag 0) 0x0800 ++
            ipv4 p.rec_.ipv4 src (fld s F.PKT_TX_CFG_TTL) 0 1 [] (echoReply b)⟩ (setPort n p s)
        else setPort n (p.add cIcmpIgnored 1) s
      else s
    else if at_ f.payload 9 1 = 2 ∧ at_ b 0 1 = 0x11 then igmpQuery n (beAt b 4 4) (maxRespOf b) s
    else s

/-- An accepted frame goes to its ring; one that finds no buffers is dropped whole (R250, R251). -/
def rxAccept (n : Nat) (control : Bool) (f : EthFrame) (s : Dev) : Dev :=
  let p := portAt s n
  let bufs := cdiv (f.len - 4) 2048
  let cast := if f.dst = macAll then 2 else if f.dst / 2 ^ 40 % 2 = 1 then 1 else 0
  let p' := ((p.add cRxFrames 1).add cRxBytes f.len).add (cRxUcast + cast) 1
  if control then
    controlRx n f (rxStore n 0 128 p.ctlPos (frameStored f) bufs (setPort n { p' with ctlPos := (p.ctlPos + bufs) % 128 } s))
  else
    let used := if packetWait s then p.dataUsed else 0
    if p.rec_.rxBuffers < used + bufs then rxDropping n (setPort n (p.add cRxNobuf 1) s)
    else
      rxStore n 262144 p.rec_.rxBuffers p.dataPos (frameStored f) bufs
        (setPort n { p' with dataPos := (p.dataPos + bufs) % p.rec_.rxBuffers
                             dataUsed := if packetWait s then used + bufs else 0 } s)

/-- A MAC control frame (R248). -/
def macControlRx (n : Nat) (f : EthFrame) (s : Dev) : Dev :=
  if beAt f.payload 0 2 = 1 ∧ (f.dst = 0x0180C2000001 ∨ f.dst = (portAt s n).rec_.mac) then
    let s := cntAdd n cRxPause 1 s
    if bitOf s (F.MAC_CTRL_PAUSE_EN n) then pauseRx n (beAt f.payload 2 2) s else s
  else cntAdd n cRxCtrl 1 s

/-- A received frame. -/
def rxFrame (n : Nat) (f : EthFrame) (s : Dev) : Dev :=
  let p := portAt s n
  if p.link ≠ 2 then s
  else if 1 < f.fragments ∧ p.verify = 0 then cntAdd n cRxAssy f.fragments s
  else if f.assyError then cntAdd n cRxAssy 1 s
  else
    let s := match sizeBin f.len with
      | some i => cntAdd n i 1 s
      | none => s
    let s := if 1 < f.fragments then cntAdd n cRxReassembled 1 s else s
    match rxVerdict s n f with
    | .drop i => cntAdd n i 1 s
    | .macControl => macControlRx n f s
    | .accept control => rxAccept n control f s

/-- RX_FRAME (R249). -/
def runRxFrame (t : Time) (n : Nat) (f : EthFrame) (s : Dev) : Host.Outcome Dev Fault Refusal :=
  .next (rxFrame n f (upTo t s))

/-! Derived registers -/

/-- MACn's registers that show records, link, pause, rings and counters. -/
def macView (s : Dev) (off : Nat) : Option Word :=
  if off < 0x100000 ∨ 0x210000 ≤ off then none
  else
    let n := (off - 0x100000) / 0x10000
    let p := portAt s n
    let r := p.rec_
    let b (x : Bool) : Nat := if x then 1 else 0
    let w (v : Nat) : Option Word := some (BitVec.ofNat 32 v)
    let on (v : Nat) : Option Word := some (if r.mac = 0 then 0 else BitVec.ofNat 32 v)
    let o := off % 0x10000
    if o = 0x00 then
      on (r.mode + 8 * r.speed + 32 * b r.preempt + 64 * b r.an + 128 * b r.txInv + 256 * b r.rxInv + 65536 * r.maxFrame)
    else if o = 0x08 then
      w (p.link + 4 * p.verify + 32 * b p.pauseEnd.isSome + 128 * b (s.sys.mode == .standby && portOn s n && n != 16) + 65536 * p.lpAbility)
    else if o = 0x0C then on (r.mac / 2 ^ 32)
    else if o = 0x10 then on r.mac
    else if o = 0x14 then on r.ipv4
    else if o = 0x18 then on (r.prefix_ + 65536 * (r.vlan % 4096) + 2 ^ 31 * b (bit r.vlan 15))
    else if o = 0x1C then on r.gateway
    else if o = 0x20 then on (r.rxBuffers + 65536 * (r.rxBuffers - (if packetWait s then p.dataUsed else 0)))
    else if o = 0x24 then w (r.verifyMs + 256 * p.attempts)
    else if o = 0x28 then
      w (match p.pauseEnd with
        | some e => cdiv (e - s.raw) (r.bytes 64)
        | none => 0)
    else if o = 0x2C then w ((p.groups.map (·.1)).eraseDups.length)
    else if 0x100 ≤ o ∧ o < 0x230 then
      let i := (o - 0x100) / 8
      if o % 8 = 0 then w (p.count i % 2 ^ 32) else w ((tget p.hiLatch i).getD 0)
    else if 0x400 ≤ o ∧ o < 0x530 then
      let v := (tget p.snap ((o - 0x400) / 8)).getD 0
      if o % 8 = 0 then w (v % 2 ^ 32) else w (v / 2 ^ 32)
    else none

end Sys2Proof.Machine
end

