-- ==== Sys2Proof/Machine/Inp.lean ====
section
/-! DEFINITION. Input universes: E1.31 reception and merge (chapter 7, R160-R167). -/

namespace Sys2Proof.Machine

/-- An input universe. -/
def inputAt (s : Dev) (i : Nat) : Option Input := tget s.outp.inputs i

/-- Replace an input universe. -/
def setInput (i : Nat) (u : Input) (s : Dev) : Dev := { s with outp.inputs := tput s.outp.inputs i u }

/-- The input universe a record describes (R160). -/
def inputOf (r : List Byte) : Input :=
  { uni := at_ r 2 2, ports := at_ r 4 2, merge := at_ r 6 1, loss := at_ r 7 1, holdMs := at_ r 8 2,
    rate := if at_ r 10 1 = 0 then 60 else at_ r 10 1, join := bit (at_ r 11 1) 0, tagged := bit (at_ r 11 1) 1,
    vid := at_ r 12 2 }

/-- Are the fields of an input universe in range? -/
def Input.ok (u : Input) (flags : Nat) : Bool :=
  decide (1 ≤ u.uni ∧ u.uni ≤ 63999) && u.ports != 0 && decide (u.merge ≤ 1 ∧ u.loss ≤ 1 ∧ 1 ≤ u.rate ∧ u.rate ≤ 240) &&
    decide (flags ≤ 3) && decide (u.vid ≤ 4095)

/-- Joins and leaves of an input universe with JOIN set: it holds its group from its creation to its DESTROY, so that R164 can count
what reaches it in CREATED and STOPPED (DEDUCED, log 37). -/
def joinInput (i : Nat) (on : Bool) (s : Dev) : Dev :=
  match inputAt s i with
  | none => s
  | some u =>
    if !u.join then s
    else
      (List.range 16).foldl (fun s p =>
        if !bit u.ports p then s
        else if on then joinGroup p (e131Group u.uni) (okey 3 i) 0 (if u.tagged then 0x8000 + u.vid else 0) s
        else leaveGroup p (e131Group u.uni) (okey 3 i) (if u.tagged then 0x8000 + u.vid else 0) s) s

/-- The check of an input universe record. -/
def inputPlan (s : Dev) (c : Ctx) (r : List Byte) : Check := do
  let u := inputOf r
  require (indexOk c (at_ r 0 2) 0xFFFF) rcOutOfRange
  require (u.ok (at_ r 11 1) && inboxOk (at_ r 14 2) && fxpsOn s u.ports) rcOutOfRange
  require (!(s.outp.inputs.any fun e => e.1 != c.idx && e.2.uni == u.uni)) rcConflict
  pure { charges := [(0, cdiv (640 * u.rate) 1000000)], refs := []
         install := fun h s => do
           let s ← createTask (32768 + c.idx) 0x21 1 false false h (levelOf c.cls c.prio) (inboxLimit (at_ r 14 2)) s
           pure (joinInput c.idx true (setInput c.idx u s)) }

/-- The instant an input universe's timers stand at: they stand still while it is stopped and while the device is in HOLD. -/
def inNow (s : Dev) (u : Input) : Time :=
  match u.frozen with
  | some t => t
  | none => if s.sys.mode = .hold then s.pln.holdFrom else s.raw

/-- Input items (R179). -/
def postIn (code i src : Nat) (s : Dev) : Dev := postCode 0x21 1 code (i + 65536 * src) s

/-- Sources at the winning priority (R163). -/
def Input.winners (u : Input) : List ESource :=
  let w := (u.srcs.map (·.2.prio)).foldl max 0
  (u.srcs.filter fun e => e.2.prio == w).map (·.2)

/-- The merged value of a slot; none where no winning source carries it. -/
def Input.slot (u : Input) (k : Nat) : Option Nat :=
  let l := u.winners.filter fun e => decide (1 ≤ k ∧ k ≤ e.slots.length)
  let v (e : ESource) : Nat := (e.slots.getD (k - 1) 0).toNat
  match l with
  | [] => none
  | e :: r =>
    if u.merge = 0 then some (r.foldl (fun b x => max b (v x)) (v e))
    else some (v (r.foldl (fun b x => if b.order < x.order then x else b) e))

/-- The merge recomputed; a slot keeps its change time while its value stays. -/
def Input.remerge (u : Input) (now : Time) : Input :=
  { u with
    winPrio := (u.srcs.map (·.2.prio)).foldl max 0
    merged := (List.range 512).filterMap fun j =>
      (u.slot (j + 1)).map fun v =>
        match tget u.merged (j + 1) with
        | some (old, t) => (j + 1, v, if old = v then t else now)
        | none => (j + 1, v, now) }

/-- HOLDING to RELEASED (R164). -/
def releaseInput (i : Nat) (s : Dev) : Dev :=
  match inputAt s i with
  | some u => postIn 0x22 i 0xFF (setInput i { u with st := 3, merged := [], winPrio := 0 } s)
  | none => s

/-- Is the release of a HOLDING universe due? -/
def releaseDue (s : Dev) (u : Input) : Bool :=
  u.st == 2 && u.loss == 1 && decide (u.holdingFrom + ms u.holdMs ≤ inNow s u)

/-- A source is lost (R164): its position is freed and the merge recomputed; the last one takes the universe to HOLDING. -/
def loseSource (i pos : Nat) (s : Dev) : Dev :=
  match inputAt s i with
  | none => s
  | some u =>
    let u := { u with srcs := tdel u.srcs pos, losses := sat (u.losses + 1) }
    let u := if u.srcs = [] then { u with st := 2, holdingFrom := inNow s u } else u.remerge s.raw
    let s := postIn 0x21 i pos (setInput i u s)
    if u.st = 2 ∧ u.loss = 1 ∧ u.holdMs = 0 then releaseInput i s else s

/-- The input universe that receives a packet of a port: number, port, VLAN state and VID, in RUNNING or HELD from its start time on
(R79). VID 0 counts as untagged (R252). -/
def inputFor (s : Dev) (port : Nat) (p : E131Pkt) : Option (Nat × Input) :=
  s.outp.inputs.find? fun e =>
    e.2.uni == p.uni && bit e.2.ports port && isLive s (okey 3 e.1) && e.2.frozen.isNone &&
      match p.vlan.filter (· != 0) with
      | some v => e.2.tagged && e.2.vid == v
      | none => !e.2.tagged

/-- The position of a tracked CID. -/
def Input.posOf (u : Input) (cid : Nat) : Option Nat := (u.srcs.find? fun e => e.2.cid == cid).map (·.1)

/-- The lowest free source position. -/
def Input.freePos (u : Input) : Option Nat := (List.range 4).find? fun k => !thas u.srcs k

/-- The 8-bit signed difference of two sequence numbers. -/
def seqDiff (a b : Nat) : Int := sgn 8 (a + 256 - b % 256)

/-- An accepted packet (R161-R164). -/
def acceptE131 (i pos : Nat) (p : E131Pkt) (s : Dev) : Dev :=
  match inputAt s i with
  | none => s
  | some u =>
    let e : ESource := { cid := p.cid, prio := p.priority, seq := p.seq, slots := p.slots.take 512, heard := inNow s u,
                         order := u.accepted }
    let live := u.st == 1
    let u := { u with srcs := tput u.srcs pos e, accepted := u.accepted + 1, packets := sat (u.packets + 1), lastAt := inNow s u, st := 1 }
    let s := setInput i (u.remerge s.raw) s
    if live then s else postIn 0x20 i 0xFF s

/-- An E1.31 datagram on a fixture port, tested against the rows of R161 in order. -/
def e131Rx (port : Nat) (p : E131Pkt) (s : Dev) : Dev :=
  if !p.lenOk then bump R.PKT_RX_LEN_DROPS s
  else if p.kind != .data then bump R.PKT_RX_IGNORED s
  else
    match inputFor s port p with
    | none => bump R.PKT_RX_UNMATCHED s
    | some (i, u) =>
      if 200 < p.priority then bump R.PKT_RX_PRIO_DROPS s
      else if p.preview then bump R.PKT_RX_PREVIEW s
      else if p.terminated then
        let s := setInput i { u with terminated := sat (u.terminated + 1) } s
        match u.posOf p.cid with
        | some pos => loseSource i pos s
        | none => s
      else if p.startCode ≠ 0 then bump R.PKT_RX_OTHER_SC s
      else
        let take (pos : Nat) : Dev := if s.sys.mode = .hold then bump R.SYS_HOLD_DROPS s else acceptE131 i pos p s
        match u.posOf p.cid with
        | none =>
          match u.freePos with
          | none => setInput i { u with overflow := sat (u.overflow + 1) } s
          | some pos => take pos
        | some pos =>
          let d := seqDiff p.seq (((tget u.srcs pos).map (·.seq)).getD 0)
          if -19 ≤ d ∧ d ≤ 0 then setInput i { u with seqDrops := sat (u.seqDrops + 1) } s else take pos

/-- Shift the instants an input universe's timers run from. -/
def Input.shift (u : Input) (d : Time) : Input :=
  { u with srcs := u.srcs.map fun e => (e.1, { e.2 with heard := e.2.heard + d }),
           holdingFrom := u.holdingFrom + d, lastAt := u.lastAt + d }

/-- START of an input universe: its timers run on from where they stood. -/
def startInput (i : Nat) (s : Dev) : Dev :=
  match inputAt s i with
  | none => s
  | some u =>
    let d := match u.frozen with
      | some t => s.raw - t
      | none => 0
    setInput i { u.shift d with frozen := none } s

/-- STOP of an input universe: every timer stands still. -/
def stopInput (i : Nat) (s : Dev) : Dev :=
  match inputAt s i with
  | none => s
  | some u => setInput i { u with frozen := some (inNow s u) } s

/-- MODIFY of an input universe: the new record with the state it had; a release already due happens at once. -/
def modifyInput (i : Nat) (v : Input) (s : Dev) : Dev :=
  match inputAt s i with
  | none => s
  | some u =>
    let rejoin := decide ((u.ports, u.uni, u.join, u.tagged, u.vid) ≠ (v.ports, v.uni, v.join, v.tagged, v.vid))
    let s := if rejoin then joinInput i false s else s
    let w := { u with uni := v.uni, ports := v.ports, merge := v.merge, loss := v.loss, holdMs := v.holdMs, rate := v.rate,
                      join := v.join, tagged := v.tagged, vid := v.vid }
    let w := if w.st = 1 then w.remerge s.raw else w
    let s := setInput i w s
    let s := if rejoin then joinInput i true s else s
    if releaseDue s w then releaseInput i s else s

/-- Milliseconds since an instant, saturating at `w` bits. -/
def msSince (now t w : Nat) : Nat := min ((now - t) / ms 1) (2 ^ w - 1)

/-- Kind-specific bytes of QUERY for an input universe (R180). -/
def inputQuery (s : Dev) (i : Nat) : List Byte :=
  match inputAt s i with
  | none => []
  | some u =>
    [BitVec.ofNat 8 u.st, BitVec.ofNat 8 u.srcs.length, BitVec.ofNat 8 u.winPrio, 0] ++
      leBytes 4 (if u.accepted = 0 then 0xFFFFFFFF else msSince (inNow s u) u.lastAt 32)

/-- PKT's registers that show the selected input universe and source. -/
def inView (s : Dev) (off : Nat) : Option Word :=
  let u := inputAt s (fld s F.PKT_IN_SEL_INDEX)
  let e := u.bind fun u => tget u.srcs (fld s F.PKT_IN_SEL_SRC)
  let num (f : Input → Nat) : Option Word := some (BitVec.ofNat 32 ((u.map f).getD 0))
  let b (x : Bool) : Nat := if x then 1 else 0
  if off = R.PKT_IN_STATE then num fun u => 1 + 2 * u.st + 8 * u.srcs.length + 256 * u.winPrio + 65536 * u.uni
  else if off = R.PKT_IN_SRC_INFO then
    some (match u, e with
      | some u, some e => BitVec.ofNat 32 (1 + 2 * b (e.prio == u.winPrio) + 256 * e.prio + 65536 * e.seq)
      | _, _ => 0)
  else if off = R.PKT_IN_SRC_AGE then
    some (match u, e with
      | some u, some e => BitVec.ofNat 32 (msSince (inNow s u) e.heard 16)
      | _, _ => 0)
  else if R.PKT_IN_SRC_CID 0 ≤ off ∧ off < R.PKT_IN_SRC_CID 4 then
    some (match e with
      | some e => BitVec.ofNat 32 (leNat (((beBytes 16 e.cid).drop (off - R.PKT_IN_SRC_CID 0)).take 4))
      | none => 0)
  else if off = R.PKT_IN_PACKETS then num (·.packets)
  else if off = R.PKT_IN_SEQ_DROPS then num (·.seqDrops)
  else if off = R.PKT_IN_SRC_LOSSES then num (·.losses)
  else if off = R.PKT_IN_SRC_OVERFLOW then num (·.overflow)
  else if off = R.PKT_IN_TERMINATED then num (·.terminated)
  else none

end Sys2Proof.Machine
end

