-- ==== Sys2Proof/Machine/Zone.lean ====
section
/-! DEFINITION. The level of a zone as a function of time (chapter 12, R300, R301, R303). -/

namespace Sys2Proof.Machine

/-- The instant the site engine's timers stand at: they stop in HOLD (R40). -/
def siteNow (s : Dev) : Time := if s.sys.mode = .hold then s.pln.holdFrom else s.raw

/-- The level a linear fade from `a` to `b` over `dur` has reached after `e`, to the nearest whole level, halves up (DEDUCED, log 39). -/
def fadeLevel (a b : Nat) (e dur : Time) : Nat :=
  ((2 * ((a : Int) * (dur : Int) + ((b : Int) - (a : Int)) * (e : Int)) + (dur : Int)) / (2 * (dur : Int))).toNat

/-- The level of a ramp at an instant (R300). -/
def Ramp.level (r : Ramp) (t : Time) : Nat := if t < r.at_ + r.dur then fadeLevel r.a r.b (t - r.at_) r.dur else r.b

/-- Does a zone run a daylight loop: TARGET_LUX not 0 and at least one DAYLIGHT sensor. -/
def hasLoop (s : Dev) (z : Nat) (x : Zone) : Bool :=
  x.target != 0 && s.site.sensors.any fun e => e.2.zone == z && e.2.daylight

/-- The level a zone computes, without an override. -/
def zoneComputed (s : Dev) (z : Nat) (x : Zone) (t : Time) : Nat :=
  if hasLoop s z x then min (x.p.level t) (x.d.level t) else x.p.level t

/-- The zone level Z (R303, R305). -/
def zoneZ (s : Dev) (z : Nat) (x : Zone) (t : Time) : Nat :=
  match x.keep, x.ovr with
  | some v, _ => v
  | none, some v => v
  | none, none =>
    let c := zoneComputed s z x t
    match x.back with
    | some (z0, at', dur) =>
      if t < at' + dur then fadeLevel z0 c (t - at') dur else c
    | none => c

/-- The level and change time of a zone as a fixture sees them. -/
def zoneSeen (s : Dev) (z : Nat) : Nat × Time :=
  match tget s.site.zones z with
  | some x => (zoneZ s z x (siteNow s), x.changed)
  | none => (0, 0)

end Sys2Proof.Machine
end

