-- ==== Sys2Proof/Machine/Fix.lean ====
section
/-! DEFINITION. Fixtures: records, colour correction, merge, curves, dither, and the fixture engine's work (chapter 7). -/

namespace Sys2Proof.Machine

/-- FIX posts (R179): fixture in [16:0], lamp in [31:24]. -/
def postFix (typ code i lamp : Nat) (s : Dev) : Dev := postCode 0x23 typ code (i % 2 ^ 17 + lamp * 2 ^ 24) s

/-! Bin tables and curves (R168, R172) -/

/-- A bin table record; none where it is out of range. -/
def binTableOf (r : List Byte) : Option (Nat × BinTable) :=
  let n := at_ r 2 2
  let es := (List.range n).map fun i => (at_ r (8 + 8 * i) 2, at_ r (10 + 8 * i) 2, at_ r (12 + 8 * i) 4)
  if at_ r 0 1 ≤ 15 ∧ at_ r 1 1 ≤ 1 ∧ 1 ≤ n ∧ n ≤ 256 ∧ r.length = 8 + 8 * n ∧ es.all (fun e => e.2.1 != 0) then
    some (at_ r 0 1, { primaries := at_ r 1 1, targetY := at_ r 4 4, entries := es })
  else none

/-- A curve record; none where it is out of range. -/
def curveOf (r : List Byte) : Option (Nat × List Nat) :=
  if 2 ≤ at_ r 0 1 ∧ at_ r 0 1 ≤ 63 ∧ at_ r 1 1 = 0 ∧ r.length = 8196 then
    some (at_ r 0 1, (List.range 4097).map fun i => at_ r (2 + 2 * i) 2)
  else none

/-- Is a curve defined? -/
def curveDefined (s : Dev) (k : Nat) : Bool := decide (k ≤ 1) || thas s.outp.curves k

/-- The largest r below 2^n with r^e ≤ q, found bit by bit. -/
def rootOf (e q : Nat) : Nat → Nat → Nat
  | 0, r => r
  | n + 1, r => if (r + 2 ^ n) ^ e ≤ q then rootOf e q n (r + 2 ^ n) else rootOf e q n r

/-- Curve 1: 65,535 × (v ÷ 65,535)^(1 ÷ 2.2), rounded to nearest. -/
def curve1 (v : Nat) : Nat := (rootOf 11 (2 ^ 11 * v ^ 5 * 65535 ^ 6) 18 0 + 1) / 2

/-- A curve's value. -/
def curveAt (s : Dev) (k v : Nat) : Nat :=
  match k with
  | 0 => v
  | 1 => curve1 v
  | _ =>
    let e := (tget s.outp.curves k).getD []
    let a : Int := (e.getD (v / 16) 0 : Nat)
    let b : Int := (e.getD (v / 16 + 1) 0 : Nat)
    (a + ((b - a) * ((v % 16 : Nat) : Int) + 8) / 16).toNat

/-! Colour correction (R169, R170) -/

/-- A column of three exact numbers. -/
structure V3 where
  x : Rat
  y : Rat
  z : Rat

/-- The determinant of three columns. -/
def det3 (a b c : V3) : Rat :=
  a.x * (b.y * c.z - b.z * c.y) - b.x * (a.y * c.z - a.z * c.y) + c.x * (a.y * b.z - a.z * b.y)

/-- The solution of [a b c] v = w by Cramer's rule. -/
def solve3 (a b c w : V3) : V3 :=
  let d := det3 a b c
  ⟨det3 w b c / d, det3 a w c / d, det3 a b w / d⟩

/-- A column scaled. -/
def V3.scale (v : V3) (k : Rat) : V3 := ⟨v.x * k, v.y * k, v.z * k⟩

/-- XYZ of chromaticity x, y and luminance f. -/
def xyz (x y f : Rat) : V3 := ⟨x / y * f, f, (1 - x - y) / y * f⟩

/-- XYZ of an entry of a bin table. -/
def BinTable.emitter (b : BinTable) (code : Nat) : V3 :=
  let e := b.entries.getD code (0, 1, 0)
  xyz ((e.1 : Rat) / 65536) ((e.2.1 : Rat) / 65536) ((e.2.2 : Rat) / 65536)

/-- The columns of T. -/
def BinTable.columns (b : BinTable) : V3 × V3 × V3 :=
  let (r, g, bl) : V3 × V3 × V3 :=
    if b.primaries = 0 then (xyz (640 / 1000) (330 / 1000) 1, xyz (300 / 1000) (600 / 1000) 1, xyz (150 / 1000) (60 / 1000) 1)
    else (xyz (708 / 1000) (292 / 1000) 1, xyz (170 / 1000) (797 / 1000) 1, xyz (131 / 1000) (46 / 1000) 1)
  let k := solve3 r g bl (xyz (3127 / 10000) (3290 / 10000) ((b.targetY : Rat) / 65536))
  (r.scale k.x, g.scale k.y, bl.scale k.z)

/-- Round to nearest, halves away from zero, in units of 2^-14. -/
def s114 (x : Rat) : Int :=
  let y := x * 16384
  if 0 ≤ y then (y + 1 / 2).floor else -((-y + 1 / 2).floor)

/-- May a coefficient be stored (R170)? -/
def coefOk (x : Rat) : Bool := decide (-2 ≤ x ∧ x ≤ (32767 : Rat) / 16384)

/-- The stored matrix of a lamp: nine coefficients by rows, three of q, SCALED; none where it is refused. -/
def lampMatrix (b : BinTable) (four : Bool) (bins : List Nat) : Option (List Int × List Int × Bool) :=
  let e (k : Nat) : V3 := b.emitter (bins.getD k 0)
  let (t0, t1, t2) := b.columns
  if det3 (e 0) (e 1) (e 2) = 0 then none
  else
    let inv := solve3 (e 0) (e 1) (e 2)
    let c0 := inv t0
    let c1 := inv t1
    let c2 := inv t2
    let q := if four then inv (e 3) else ⟨0, 0, 0⟩
    let pos (a b c : Rat) : Rat := max a 0 + max b 0 + max c 0
    let s := max (max (pos c0.x c1.x c2.x) (pos c0.y c1.y c2.y)) (pos c0.z c1.z c2.z)
    let k : Rat := if 1 < s then 1 / s else 1
    let m := [c0.x * k, c1.x * k, c2.x * k, c0.y * k, c1.y * k, c2.y * k, c0.z * k, c1.z * k, c2.z * k]
    let ql := [q.x, q.y, q.z]
    if (m ++ ql).all coefOk then some (m.map s114, ql.map s114, decide (1 < s)) else none

/-- The identity matrix and q = (1, 1, 1), used with CHROMA clear. -/
def plainMatrix : List Int × List Int × Bool := ([16384, 0, 0, 0, 16384, 0, 0, 0, 16384], [16384, 16384, 16384], false)

/-! Records (R156-R159) -/

/-- A source entry. -/
def srcOf (e : List Byte) : SrcEntry :=
  let k := at_ e 0 1
  { kind := k, prio := at_ e 1 1, a := at_ e 2 2, b := at_ e 4 2, c := at_ e 6 2, wide := k == 2 && bit (at_ e 6 1) 0 }

/-- The four source entries of a lamp or parameter entry. -/
def srcsOf (e : List Byte) : List SrcEntry := (List.range 4).map fun i => srcOf ((e.drop (8 + 8 * i)).take 8)

/-- Are the bytes of a source entry in range? `param`: of a parameter. -/
def SrcEntry.ok (x : SrcEntry) (param : Bool) : Bool :=
  match x.kind with
  | 0 => x.prio == 0 && x.a == 0 && x.b == 0 && x.c == 0
  | 1 => !param && x.prio != 255 && x.c == 0
  | 2 =>
    decide (1 ≤ x.b ∧ x.b ≤ 512) && decide (x.c ≤ 1) &&
      decide (x.b + (if param then (if x.wide then 1 else 0) else if x.wide then 5 else 2) ≤ 512)
  | 3 => x.prio != 255 && x.b == 0 && x.c == 0
  | 4 => x.prio != 255 && (!param || (x.b == 0 && x.c == 0))
  | _ => false

/-- The channel count of a layout. -/
def channelsOf (layout : Nat) : Nat := if layout = 0 then 3 else if layout = 3 then 5 else 4

/-- The stride of a fixture's lamps (R174). -/
def Fixture.stride (f : Fixture) : Nat :=
  (channelsOf f.layout + (if f.intensityFirst then 1 else 0)) * (if f.wide then 2 else 1)

/-- A lamp entry. -/
def lampOf (e : List Byte) : Lamp :=
  { bins := (List.range 4).map fun i => at_ e i 1, merge := at_ e 4 1, dflt := at_ e 6 2, srcs := srcsOf e }

/-- A parameter entry. -/
def paramOf (e : List Byte) : Param :=
  { slot := at_ e 0 2, width := at_ e 2 1, curve := at_ e 3 1, merge := at_ e 4 1, dflt := at_ e 6 2, srcs := srcsOf e }

/-- The fixture a record describes; handles stand as indices. -/
def fixtureOf (r : List Byte) : Fixture :=
  let nl := at_ r 16 2
  let np := at_ r 30 2
  let canvas := at_ r 8 4
  let opt (v : Nat) : Option Nat := if v = 0xFFFF then none else some v
  { univ := at_ r 4 4 % 2 ^ 20, canvas := if canvas = 0 then none else some (canvas % 2 ^ 20), start := at_ r 12 2,
    footprint := at_ r 14 2, lampOffset := at_ r 18 2, layout := at_ r 20 1 % 4, intensityFirst := bit (at_ r 20 1) 2,
    order := at_ r 21 1, wide := bit (at_ r 22 1) 0, dither := bit (at_ r 22 1) 1, chroma := bit (at_ r 22 1) 2,
    lampCurve := at_ r 23 1, binTable := at_ r 24 1, ws := at_ r 25 1, master := opt (at_ r 26 2), amber := opt (at_ r 28 2),
    cls := at_ r 32 1
    lamps := (List.range nl).map fun i => lampOf ((r.drop (40 + 40 * i)).take 40)
    params := (List.range np).map fun i => paramOf ((r.drop (40 + 40 * (nl + i))).take 40) }

/-- The slot groups of a fixture inside its footprint: (offset, length). -/
def Fixture.groups (f : Fixture) : List (Nat × Nat) :=
  (if f.lamps = [] then [] else [(f.lampOffset, f.lamps.length * f.stride)]) ++
    (f.params.filter (·.width != 0)).map fun p => (p.slot, p.width)

/-- No two slot groups overlap. -/
def apart : List (Nat × Nat) → Bool
  | [] => true
  | g :: r => (r.all fun h => decide (g.1 + g.2 ≤ h.1 ∨ h.1 + h.2 ≤ g.1)) && apart r

/-- Every source entry of a fixture. -/
def Fixture.sources (f : Fixture) : List SrcEntry := f.lamps.flatMap (·.srcs) ++ f.params.flatMap (·.srcs)

/-- The range checks that need no other object (R156-R159). -/
def fixtureRange (r : List Byte) (f : Fixture) : Bool :=
  decide (r.length = 40 + 40 * (f.lamps.length + f.params.length)) && decide (at_ r 16 2 ≤ 170 ∧ at_ r 30 2 ≤ 512) &&
    decide (1 ≤ f.start ∧ f.start ≤ 512 ∧ 1 ≤ f.footprint ∧ f.footprint ≤ 512) && decide (at_ r 20 1 ≤ 7 ∧ f.order ≤ 5) &&
    decide (at_ r 22 1 ≤ 7 ∧ f.lampCurve ≤ 63) && (!f.chroma || decide (f.binTable ≤ 15)) && decide (f.cls ≤ 1) &&
    at_ r 34 6 == 0 && decide (at_ r 33 1 ≤ 15) &&
    decide (f.start + f.footprint ≤ 513) && decide (f.lampOffset + f.lamps.length * f.stride ≤ f.footprint) &&
    (f.params.all fun p => decide (p.width ≤ 2 ∧ p.curve ≤ 63 ∧ p.merge ≤ 2) &&
      (p.width == 0 || decide (p.slot + p.width ≤ f.footprint))) &&
    apart f.groups && (match f.master with | some m => decide (m < f.params.length) | none => true) &&
    (match f.amber with | some m => decide (m < f.params.length) && f.layout == 3 | none => true) &&
    (f.lamps.all fun l => decide (l.merge ≤ 2) && l.srcs.all (·.ok false)) && (f.params.all fun p => p.srcs.all (·.ok true)) &&
    (f.canvas.isSome || !(f.sources.any (·.kind == 1))) && (f.cls == 0 || !(f.sources.any (·.kind == 1)))

/-- Reserved bytes of the lamp and parameter entries. -/
def entriesClean (r : List Byte) : Bool :=
  (List.range ((r.length - 40) / 40)).all fun i => at_ r (40 + 40 * i + 5) 1 == 0

/-- The object keys that a fixture's sources name. -/
def Fixture.inputs (f : Fixture) : List Nat :=
  (f.sources.filterMap fun x => if x.kind = 2 then some (okey 3 x.a) else if x.kind = 3 then some (okey 8 x.a) else none).eraseDups

/-- The matrices of a fixture, lamp by lamp; none where one is refused (R170). -/
def fixtureMatrices (s : Dev) (f : Fixture) : Option (List Lamp) :=
  if !f.chroma then some (f.lamps.map fun l => { l with m := plainMatrix.1, q := plainMatrix.2.1 })
  else
    match tget s.outp.bins f.binTable with
    | none => none
    | some b =>
      f.lamps.mapM fun l =>
        if (l.bins.take (if f.layout = 0 then 3 else 4)).all fun c => decide (c < b.entries.length) then
          (lampMatrix b (f.layout != 0) l.bins).map fun x => { l with m := x.1, q := x.2.1, scaled := x.2.2 }
        else none

/-- The rate of a universe: that of its pacing canvas, or RATE (R184). -/
def univRate (s : Dev) (u : Univ) : Nat × Nat :=
  match u.canvas.bind (canvasAt s) with
  | some c => (c.timing.rateNum, c.timing.rateDen)
  | none => (u.rate, 1)

/-- The charges of a fixture (R67). -/
def fixtureCharges (f : Fixture) (rate : Nat × Nat) : List (Nat × Nat) :=
  let so := (f.params.map (·.width)).sum
  let lc := (f.lamps.filter fun l => l.srcs.any (·.kind == 1)).length
  let per (n unit : Nat) : Nat := perSec n rate.1 rate.2 unit
  [(0, per 64 1000000), (2, per (f.lamps.length + cdiv so 4) 1), (4, per lc 1), (5, lc)]

/-- The fixture that owns a slot of a universe. -/
def slotOwner (s : Dev) (univ but : Nat) (first n : Nat) : Option Nat :=
  (s.outp.fixtures.find? fun e =>
    e.1 != but && e.2.univ == univ && decide (first < e.2.start + e.2.footprint ∧ e.2.start < first + n)).map (·.1)

/-- The points a fixture declares, in lamp and source order. -/
def Fixture.points (f : Fixture) : List (Nat × Nat) :=
  f.lamps.flatMap fun l => (l.srcs.filter (·.kind == 1)).map fun x => (x.a, x.b)

/-- Hand out sample indices to the canvas sources of source entries. -/
def giveSamples : List SrcEntry → List Nat → List SrcEntry × List Nat
  | [], l => ([], l)
  | x :: r, l =>
    if x.kind = 1 then
      let (r', l') := giveSamples r l.tail
      ({ x with sample := l.headD 0 } :: r', l')
    else
      let (r', l') := giveSamples r l
      (x :: r', l')

/-- Hand out sample indices to lamps. -/
def sampleLamps : List Lamp → List Nat → List Lamp
  | [], _ => []
  | l :: r, is =>
    let (srcs, rest) := giveSamples l.srcs is
    { l with srcs := srcs } :: sampleLamps r rest

/-- Take the sample points of a fixture on its canvas and store it; none where they do not fit. -/
def installFixture (i : Nat) (f : Fixture) (s : Dev) : Option Dev :=
  match f.canvas with
  | none => some { s with outp.fixtures := tput s.outp.fixtures i f }
  | some ci =>
    match canvasAt s ci with
    | none => none
    | some c =>
      match takePoints (okey 1 i) f.points c with
      | none => none
      | some (idx, c) =>
        some { setCanvas ci c s with outp.fixtures := tput s.outp.fixtures i { f with lamps := sampleLamps f.lamps idx } }

/-- Return a fixture's sample points. -/
def dropPoints (key canvas : Nat) (s : Dev) : Dev :=
  match canvasAt s canvas with
  | some c => setCanvas canvas (givePoints key c) s
  | none => s

/-- SCALED lamps are counted and posted (R169 step 5). -/
def postScaled (i : Nat) (f : Fixture) (s : Dev) : Dev :=
  ((List.range f.lamps.length).zip f.lamps).foldl (fun s e =>
    if e.2.scaled then postFix 0xB 0x01 i e.1 (bump R.FIX_MATRIX_SCALED s) else s) s

/-- The checks of R159 on a fixture as an object (`but`: the fixture it replaces). Answers it with its matrices, its charges and the
objects it refers to. -/
def fixtureIn (s : Dev) (but : Nat) (f : Fixture) : Except Refuse (Fixture × List (Nat × Nat) × List Nat) := do
  require (f.inputs.all fun k => (objAt s k).isSome && decide (k % 2 ^ 20 < kindLimit (k / 2 ^ 20))) rcBadHandle
  match tget s.outp.univs f.univ with
  | none => refuse rcBadHandle
  | some u =>
    require (decide (f.start + f.footprint ≤ u.slots + 1) && f.cls == u.cls) rcOutOfRange
    require (f.canvas.isNone || f.canvas == u.canvas) rcConflict
    match f.canvas.bind (canvasAt s), tget s.outp.bins f.binTable with
    | some cv, some b => require (!f.chroma || b.primaries == cv.primaries) rcConflict
    | _, _ => pure ()
    require ((match f.canvas.bind (canvasAt s) with
      | some cv => f.points.all (pointOk cv)
      | none => true) && curveDefined s f.lampCurve && f.params.all fun p => curveDefined s p.curve) rcOutOfRange
    match slotOwner s f.univ but f.start f.footprint with
    | some o => refuseBy rcConflict (handleOf s (okey 1 o))
    | none => pure ()
    match fixtureMatrices s f with
    | none => refuse rcOutOfRange
    | some ls =>
      let rate := match f.canvas.bind (canvasAt s) with
        | some cv => (cv.timing.rateNum, cv.timing.rateDen)
        | none => univRate s u
      pure ({ f with lamps := ls }, fixtureCharges f rate,
        okey 2 f.univ :: ((f.canvas.map fun k => okey 5 k).toList ++ f.inputs))

/-- The check of a fixture record; `c.cls` is the class in force. -/
def fixtureCheck (s : Dev) (c : Ctx) (r : List Byte) : Except Refuse (Fixture × List (Nat × Nat) × List Nat) := do
  let f0 := fixtureOf r
  let f := { f0 with cls := c.cls }
  let uh : Word := BitVec.ofNat 32 (at_ r 4 4)
  let ch : Word := BitVec.ofNat 32 (at_ r 8 4)
  require (indexOk c (at_ r 0 4) 0xFFFFFFFF) rcOutOfRange
  require (fixtureRange r f && entriesClean r) rcOutOfRange
  require (hKind uh == 2 && (objOf s uh).isSome) rcBadHandle
  require (ch == 0 || (hKind ch == 5 && (objOf s ch).isSome)) rcBadHandle
  fixtureIn s (if c.how = .modify then c.idx else 2 ^ 20) f

/-- The check of a fixture record as CREATE and the image make it. -/
def fixturePlan (s : Dev) (c : Ctx) (r : List Byte) : Check := do
  let (f, charges, refs) ← fixtureCheck s c r
  pure { charges := charges, refs := refs
         install := fun _ s => (installFixture c.idx f s).map (postScaled c.idx f) }

/-! Merge (R165, R166) -/

/-- A present source: position, its value as a list of components, change instant (doubled, odd for a canvas), priority. -/
structure Present where
  value : List Nat
  changed : Int
  prio : Nat
  deriving DecidableEq, Repr

/-- The merged slot of an input universe. -/
def mergedSlot (u : Input) (k : Nat) : Option (Nat × Time) := tget u.merged k

/-- A source of a lamp (three components) or of a parameter (one); `n` is the frame being mapped, `latch` its latch instant. -/
def present (s : Dev) (canvas : Option Nat) (n : Int) (latch : Time) (param : Bool) (x : SrcEntry) : Option Present :=
  match x.kind with
  | 1 =>
    match canvas with
    | some c =>
      let buf := match canvasAt s c with
        | some cv => cv.readBuf n
        | none => 0
      let (r, g, b, _) := readSample s c buf x.sample
      some ⟨[r, g, b], 2 * latch + 1, x.prio⟩
    | none => none
  | 2 =>
    match inputAt s x.a with
    | none => none
    | some u =>
      let n := (if param then 1 else 3) * (if x.wide then 2 else 1)
      match (List.range n).mapM fun j => mergedSlot u (x.b + j) with
      | none => none
      | some l =>
        let v := if x.wide then
            (List.range (n / 2)).map fun j => 256 * (l.getD (2 * j) (0, 0)).1 + (l.getD (2 * j + 1) (0, 0)).1
          else l.map fun e => e.1 * 257
        some ⟨v, 2 * ((l.map (·.2)).foldl max 0 : Nat), if x.prio = 255 then u.winPrio else x.prio⟩
  | 3 =>
    let (z, t) := zoneSeen s x.a
    some ⟨if param then [z] else [z, z, z], 2 * (t : Int), x.prio⟩
  | 4 => some ⟨if param then [x.a] else [x.a, x.b, x.c], -1, x.prio⟩
  | _ => none

/-- The present sources merged; ties go to the lower position. None: every source is absent. -/
def mergePresent (mode : Nat) (l : List Present) : Option (List Nat) :=
  match l with
  | [] => none
  | p :: r =>
    match mode with
    | 0 => some (r.foldl (fun v x => List.zipWith max v x.value) p.value)
    | 1 => some (r.foldl (fun b x => if b.changed < x.changed then x else b) p).value
    | _ => some (r.foldl (fun b x => if b.prio < x.prio then x else b) p).value

/-! The fixture engine (R171-R176) -/

/-- The quotient rounded to nearest, halves up. -/
def roundDiv (a : Int) (b : Nat) : Int := (2 * a + b) / (2 * b)

/-- Clamp to 16 bits; the count grows where the value changes. -/
def clamp16 (x : Int) (n : Nat) : Nat × Nat :=
  if x < 0 then (0, n + 1) else if 65535 < x then (65535, n + 1) else (x.toNat, n)

/-- Steps 3 and 4 of R171: drives R, G, B, and that of the fourth emitter; with the clamps made. -/
def drivesOf (m q : List Int) (four : Bool) (ws : Nat) (c : List Nat) (clamps : Nat) : List Nat × Nat × Nat :=
  let row (i : Nat) : Int :=
    roundDiv ((m.getD (3 * i) 0) * (c.getD 0 0 : Nat) + (m.getD (3 * i + 1) 0) * (c.getD 1 0 : Nat) +
      (m.getD (3 * i + 2) 0) * (c.getD 2 0 : Nat)) 16384
  let (r, n) := clamp16 (row 0) clamps
  let (g, n) := clamp16 (row 1) n
  let (b, n) := clamp16 (row 2) n
  let d := [r, g, b]
  if !four then (d, 0, n)
  else
    let xs := ((List.range 3).filter fun i => decide (0 < q.getD i 0)).map fun i =>
      (roundDiv (ws * (d.getD i 0) * 16384 : Nat) (255 * (q.getD i 1).toNat)).toNat
    let x : Nat := match xs with
      | [] => 0
      | a :: r => min 65535 (r.foldl min a)
    let sub (i : Nat) : Int := (d.getD i 0 : Nat) - roundDiv ((x : Int) * q.getD i 0) 16384
    let (r, n) := clamp16 (sub 0) n
    let (g, n) := clamp16 (sub 1) n
    let (b, n) := clamp16 (sub 2) n
    ([r, g, b], x, n)

/-- The order of R, G and B slots. -/
def orderOf : Nat → List Nat
  | 0 => [0, 1, 2]
  | 1 => [0, 2, 1]
  | 2 => [1, 0, 2]
  | 3 => [1, 2, 0]
  | 4 => [2, 0, 1]
  | _ => [2, 1, 0]

/-- The 8 bits of a number in reverse order. -/
def bitrev8 (v : Nat) : Nat := ((List.range 8).map fun i => v / 2 ^ i % 2 * 2 ^ (7 - i)).sum

/-- The dither term of a slot number in frame `n` (R173). -/
def ditherOf (on : Bool) (n : Int) (k : Nat) : Nat := if on then bitrev8 ((n + 37 * (k : Int)) % 256).toNat else 128

/-- The bytes of a 16-bit result from universe slot `k` on. -/
def slotBytes (wide dither : Bool) (n : Int) (k v : Nat) : List (Nat × Byte) :=
  if wide then [(k, BitVec.ofNat 8 (v / 256)), (k + 1, BitVec.ofNat 8 v)]
  else [(k, BitVec.ofNat 8 (min 255 ((v + ditherOf dither n k) / 256)))]

/-- What the engine makes of a fixture: its slots, the defaults taken, the clamps made. -/
structure FixOut where
  slots : List (Nat × Byte)
  defaults : Nat
  clamps : Nat
  deriving DecidableEq, Repr

/-- Merged values of the parameters, with the defaults taken. -/
def paramValues (s : Dev) (f : Fixture) (n : Int) (latch : Time) : List Nat × Nat :=
  f.params.foldl (fun (l, k) p =>
    match mergePresent p.merge (p.srcs.filterMap (present s f.canvas n latch true)) with
    | some v => (l ++ [v.headD 0], k)
    | none => (l ++ [p.dflt], k + 1)) ([], 0)

/-- The slots of one lamp. -/
def lampSlots (s : Dev) (f : Fixture) (n : Int) (latch : Time) (params : List Nat) (i : Nat) (l : Lamp) (o : FixOut) : FixOut :=
  let merged := mergePresent l.merge (l.srcs.filterMap (present s f.canvas n latch false))
  let c := merged.getD [l.dflt, l.dflt, l.dflt]
  let c := match f.master with
    | some m => c.map fun v => (roundDiv (v * params.getD m 0 : Nat) 65535).toNat
    | none => c
  let (d, x, clamps) := drivesOf l.m l.q (f.layout != 0) f.ws c o.clamps
  let amber := match f.amber with
    | some m => params.getD m 0
    | none => 0
  let chans := (orderOf f.order).map (fun k => d.getD k 0) ++
    (match f.layout with
      | 0 => []
      | 3 => [x, amber]
      | _ => [x])
  let top := chans.foldl max 0
  let vals := if f.intensityFirst then
      curveAt s f.lampCurve top :: chans.map fun v => if top = 0 then 0 else (roundDiv (v * 65535 : Nat) top).toNat
    else chans.map (curveAt s f.lampCurve)
  let first := f.start + f.lampOffset + i * f.stride
  let w := if f.wide then 2 else 1
  { slots := o.slots ++ ((List.range vals.length).zip vals).flatMap fun e => slotBytes f.wide f.dither n (first + e.1 * w) e.2
    defaults := if merged.isNone then o.defaults + 1 else o.defaults
    clamps := clamps }

/-- The whole fixture for frame `n`. -/
def fixtureSlots (s : Dev) (f : Fixture) (n : Int) (latch : Time) : FixOut :=
  let (params, defaults) := paramValues s f n latch
  let o := ((List.range f.lamps.length).zip f.lamps).foldl (fun o e => lampSlots s f n latch params e.1 e.2 o)
    ⟨[], defaults, 0⟩
  { o with
    slots := o.slots ++ ((f.params.zip params).filter (·.1.width != 0)).flatMap fun e =>
      slotBytes (e.1.width == 2) f.dither n (f.start + e.1.slot) (curveAt s e.1.curve e.2) }

/-- Samples a fixture reads: canvas and index. -/
def Fixture.samples (f : Fixture) : List Nat := f.lamps.flatMap fun l => (l.srcs.filter (·.kind == 1)).map (·.sample)

/-- Why a fixture of frame `n` takes its previous payload (R178): 1 a stale sample or an aborted pass, 2 a poisoned word. -/
def fixtureFault (s : Dev) (f : Fixture) (n : Int) : Nat :=
  match f.canvas.bind fun c => (canvasAt s c).map fun x => (c, x) with
  | none => 0
  | some (c, x) =>
    let at' (i : Nat) : Nat := sampleAt (x.readBuf n) i
    if f.samples.any fun i => relPoisoned s (okey 5 c) (at' i) then 2
    else if f.samples ≠ [] ∧ (x.aborted = some n ∨ f.samples.any fun i => (readSample s c (x.readBuf n) i).2.2.2 != unsgn 16 n) then 1
    else 0

/-- Record slots written for a frame. -/
def keepFixture (i : Nat) (f : Fixture) (s : Dev) : Dev := { s with outp.fixtures := tput s.outp.fixtures i f }

/-- One fixture of a universe for frame `n` (R176, R178): the slots it writes, and the state after. `tick` is T_N, `latch` the
instant the frame was latched; a fixture whose first frame comes later (R79) counts as not yet started. -/
def runFixture (i : Nat) (f : Fixture) (n tick : Int) (latch : Time) (s : Dev) : Dev × List (Nat × Byte) :=
  match objAt s (okey 1 i) with
  | none => (s, [])
  | some o =>
    if o.state = 1 ∨ (o.state = 2 ∧ f.lastFrame = none ∧ (latch < o.startCmd ∨ tick < o.startAt)) then (s, [])
    else if o.state ≠ 2 then (s, f.last)
    else
      match fixtureFault s f n with
      | 0 =>
        let r := fixtureSlots s f n latch
        let f := { f with last := r.slots, prev := f.last, lastFrame := some n, repeated := false }
        (keepFixture i f (bumpBy R.FIX_DEFAULTS r.defaults (bumpBy R.FIX_CLAMPS r.clamps s)), r.slots)
      | why =>
        let stale := decide (why = 1) && (match f.canvas.bind (canvasAt s) with | some c => c.aborted != some n | none => false)
        let due := stale && (match f.staleAt with | some v => decide (v + sec 1 ≤ s.raw) | none => true)
        let f := { f with prev := f.last, lastFrame := some n, repeated := true, staleAt := if due then some s.raw else f.staleAt }
        let s := keepFixture i f (bump (if why = 2 then R.FIX_POISON else R.FIX_STALE_FRAMES) s)
        (if due then postFix 3 0x02 i 0xFF s else s, f.last)

/-- Work units of a fixture. -/
def Fixture.units (f : Fixture) : Nat := f.lamps.length + cdiv (f.params.map (·.width)).sum 4

/-- The engine completes work: the units of the last millisecond are kept. -/
def workDone (units : Nat) (s : Dev) : Dev :=
  { s with outp.work := (s.raw, units) :: s.outp.work.filter fun e => decide (s.raw < e.1 + ms 1) }

/-- Slots 1 to `n` of a universe from the slots its fixtures write; a slot that no fixture owns carries 0. -/
def gatherSlots (n : Nat) (l : List (Nat × Byte)) : List Byte :=
  let table := l.foldl (fun m e => tput m e.1 e.2) ([] : Tbl Byte)
  (List.range n).map fun k => (tget table (k + 1)).getD 0

/-- The fixtures of a universe, in ascending order. -/
def fixturesOf (s : Dev) (i : Nat) : List (Nat × Fixture) := s.outp.fixtures.filter fun e => e.2.univ == i

/-- A universe's slots for frame `frame`, its fixtures taken in ascending order (R176). -/
def runUniverse (i n : Nat) (frame tick : Int) (latch : Time) (s : Dev) : Dev × List Byte :=
  let mine := fixturesOf s i
  let (s, l) := mine.foldl (fun (s, l) e =>
    let (s, x) := runFixture e.1 e.2 frame tick latch s
    (s, l ++ x)) (s, ([] : List (Nat × Byte)))
  (workDone (mine.map fun e => e.2.units).sum s, gatherSlots n l)

/-! Queries and derived registers -/

/-- Kind-specific bytes of QUERY for a fixture (R180). -/
def fixtureQuery (s : Dev) (i : Nat) : List Byte :=
  match tget s.outp.fixtures i with
  | none => []
  | some f =>
    let band := match f.canvas.bind (canvasAt s) with
      | some c =>
        match f.points.map fun p => bandOf c p.2 with
        | [] => 0xFFFF
        | b :: r => r.foldl max b
      | none => 0xFFFF
    [BitVec.ofNat 8 ((if f.lamps.any (·.scaled) then 1 else 0) + (if f.repeated then 2 else 0)), BitVec.ofNat 8 f.lamps.length] ++
      leBytes 2 band ++ leBytes 4 (unsgn 32 (f.lastFrame.getD 0))

/-- FIX's registers that show load, tables and the selected fixture. -/
def fixView (s : Dev) (off : Nat) : Option Word :=
  let f := tget s.outp.fixtures (fld s F.FIX_SEL_INDEX)
  let w (n : Nat) : Option Word := some (BitVec.ofNat 32 n)
  let b (x : Bool) : Nat := if x then 1 else 0
  if off = R.FIX_LOAD then
    w (min 65535 (((s.outp.work.filter fun e => decide (s.raw < e.1 + ms 1)).map (·.2)).sum / 1000))
  else if off = R.FIX_FIX_STATE then
    w (match f with
      | some f => 1 + 2 * f.cls + 4 * b (f.lamps.any (·.scaled)) + 8 * b f.repeated + 65536 * f.lamps.length
      | none => 0)
  else if off = R.FIX_FIX_UNIV then some (match f with | some f => handleOf s (okey 2 f.univ) | none => 0)
  else if R.FIX_MATRIX 0 ≤ off ∧ off < R.FIX_MATRIX 6 then
    let r := (off - R.FIX_MATRIX 0) / 4
    match f.bind fun f => f.lamps[fld s F.FIX_LAMP_SEL_LAMP]? with
    | some l =>
      let lo := l.m.getD (3 * (r / 2) + (if r % 2 = 0 then 0 else 2)) 0
      let hi := if r % 2 = 0 then l.m.getD (3 * (r / 2) + 1) 0 else l.q.getD (r / 2) 0
      w (unsgn 16 lo + 65536 * unsgn 16 hi)
    | none => w 0
  else if off = R.FIX_TABLES then w (s.outp.bins.map fun e => 2 ^ e.1).sum
  else if off = R.FIX_CURVES_LO then w (3 + (s.outp.curves.map fun e => if e.1 < 32 then 2 ^ e.1 else 0).sum)
  else if off = R.FIX_CURVES_HI then w (s.outp.curves.map fun e => if 32 ≤ e.1 then 2 ^ (e.1 - 32) else 0).sum
  else none

end Sys2Proof.Machine
end

