-- ==== Sys2Proof/Machine/Fab.lean ====
section
/-! DEFINITION. Packets of the valley fabric and the passes they take (chapter 13, R309-R311, R316). -/

namespace Sys2Proof.Machine

/-- A valley link; every link is DOWN from DAYBREAK until something arrives on it. -/
def linkAt (s : Dev) (l : Nat) : VLink := (tget s.val.links l).getD {}

/-- Replace a link. -/
def setLink (l : Nat) (x : VLink) (s : Dev) : Dev := { s with val.links := tput s.val.links l x }

/-- Change a link. -/
def modLink (l : Nat) (f : VLink → VLink) (s : Dev) : Dev := setLink l (f (linkAt s l)) s

/-- VAL posts (R331): link or address in [39:32], value in [31:0]. -/
def postVal (typ code who value : Nat) (s : Dev) : Dev := postCode 0x0F typ code (who % 256 * 2 ^ 32 + value % 2 ^ 32) s

/-- The 32 header bytes of a packet (R311). -/
def vHead (typ cls dst src hops epoch len handle frame aux : Nat) : List Byte :=
  let h := leBytes 1 typ ++ leBytes 1 cls ++ leBytes 1 dst ++ leBytes 1 src ++ leBytes 1 hops ++ leBytes 1 epoch ++ leBytes 2 len ++
    leBytes 4 handle ++ leBytes 8 frame ++ leBytes 4 aux ++ [0, 0, 0, 0]
  h ++ leBytes 4 (crc32c h)

/-- A header with one hop less. -/
def vForward (h : List Byte) : List Byte :=
  let g := h.take 4 ++ leBytes 1 (at_ h 4 1 - 1) ++ (h.drop 5).take 23
  g ++ leBytes 4 (crc32c g)

/-- Payload bytes of a message: free where the spec does not lay it out (log 14). -/
def vLen (typ : Nat) : VMsg → Nat
  | .payload b _ => b.length
  | .relayData _ b => b.length
  | .chunk _ _ _ b => b.length + 16
  | .heartbeat _ _ => 16
  | .trailer _ _ _ => 32
  | _ => Config.messageLen typ % 8193

/-- Links in UP, in order, with the partner's UID. -/
def upLinks (s : Dev) : List (Nat × Nat) :=
  (s.val.links.filter fun e => e.2.state == 4).map fun e => (e.1, (e.2.hello.map (·.uid)).getD 0)

/-- The links that passes A and B to an address leave through. -/
def passLinks (s : Dev) (addr : Nat) : Option (Option Nat × Option Nat) := (tget s.val.passes addr).map fun p => (p.1, p.2.1)

/-- The egress links of the passes to an address, each once. -/
def egressLinks (s : Dev) (addr : Nat) : List Nat :=
  match passLinks s addr with
  | some (a, b) => (a.toList ++ b.toList).eraseDups
  | none => []

/-- The link that a packet to an address takes: pass B for odd universe indices where there is one (R316). -/
def passLink (s : Dev) (addr : Nat) (odd : Bool) : Option Nat :=
  match passLinks s addr with
  | some (a, b) => if odd && b.isSome then b else a
  | none => none

/-- A packet goes out on a link; one sent on a link that is not UP is lost. -/
def vOut (l : Nat) (p : VPkt) (s : Dev) : Dev := if (linkAt s l).state = 4 then emit (.valley l p) s else s

/-- Send a message to a device. -/
def valSend (typ cls dst epoch handle frame aux : Nat) (odd : Bool) (m : VMsg) (s : Dev) : Dev :=
  match passLink s dst odd with
  | some l => vOut l ⟨vHead typ cls dst s.val.addr 15 epoch (vLen typ m) handle frame aux, vLen typ m, true, m⟩ s
  | none => s

/-- Send a control message to a device. -/
def valTell (typ dst : Nat) (m : VMsg) (s : Dev) : Dev := valSend typ 4 dst 0 0 0 0 false m s

/-- Send a message to every neighbour on a link in UP, to be passed on (R313). -/
def valFlood (typ cls : Nat) (m : VMsg) (s : Dev) : Dev :=
  (upLinks s).foldl (fun s e => vOut e.1 ⟨vHead typ cls 255 s.val.addr 15 0 (vLen typ m) 0 0 0, vLen typ m, true, m⟩ s) s

/-- The domains' part of an update (R320). -/
def domNotes (s : Dev) : List Nat :=
  (List.range 2).map fun d =>
    let x := domAt s d
    if x.rec_.source != 1 then 0 else if x.servo = 2 then 1 else if x.servo = 3 then 2 else 0

/-- What the device says of itself (R313). -/
def ownInfo (s : Dev) : MemberInfo :=
  { uid := fuseUid s.fuses, addr := s.val.addr, pinned := s.val.pinned, major := fld s F.CTL_FW_PROTO_VP_MAJOR,
    minor := fld s F.CTL_FW_PROTO_VP_MINOR, mode := s.sys.mode.code, links := upLinks s, doms := domNotes s }

/-- Charges of a universe on the links this device sends it over (R318). -/
def linkCharges (s : Dev) (u : Univ) (rate : Nat × Nat) (addr : Nat) : List (Nat × Nat) :=
  (egressLinks s addr).map fun l => (25 + l, perSec (u.slots + 64) rate.1 rate.2 1)

/-- This device has sent frame `n` of universe `i` under a sequence number: before a switch it passes the next one to the target (R327). -/
def passSeq (i : Nat) (n : Int) (seq : Nat) (s : Dev) : Dev :=
  match s.val.migs.find? fun e => e.2.univ == i && (e.2.state == 2 || e.2.state == 3) && e.2.ns - 1 == n with
  | some e => valTell 8 e.2.target (.migSeq e.2.handle ((seq + 1) % 256)) s
  | none => s

/-- The other devices give back what they hold for a universe. -/
def releaseUses (u : Univ) (s : Dev) : Dev :=
  match tget s.val.uses u.handle.toNat with
  | none => s
  | some (l, id) =>
    let ask : AdmitAsk := { handle := u.handle, univ := u, ident := ⟨0, false, [], 0, [], none⟩, rateNum := 0, rateDen := 0, domain := 0,
                            lead := 0, sender := u.valley }
    l.foldl (fun s a => valTell 7 a (.admitMsg id 2 ask) s) { s with val.uses := tdel s.val.uses u.handle.toNat }

end Sys2Proof.Machine
end

