-- ==== Sys2Proof/Machine/Pln.lean ====
section
/-! DEFINITION. The Plain's own commands (chapter 4): the host window, the diagnostic walk, the DRAM's tracking and the scrubber. -/

namespace Sys2Proof.Machine

/-- The page-table entry that maps a physical page. -/
def pteOfPage (s : Dev) (ppn : Nat) : Option (Nat × Pte) := s.pln.ptes.find? fun e => e.2.ppn == ppn

/-- First byte of the BAR2 window. -/
def windowBase (s : Dev) : Nat := fld s F.SYS_WINDOW_BASE * pageBytes

/-- The pieces of an access that lie each in one page: physical address and length. -/
def pieces : Nat → Nat → Nat → List (Nat × Nat)
  | 0, _, _ => []
  | fuel + 1, a, n =>
    if n = 0 then []
    else
      let k := min n (pageBytes - a % pageBytes)
      (a, k) :: pieces fuel (a + k) (n - k)

/-- May a window write land in a page: HW is set in its entry; in LOAD, it is a page of the firmware image (R97, R365). -/
def windowTakes (s : Dev) (ppn : Nat) : Bool :=
  match pteOfPage s ppn with
  | some (k, p) => if s.sys.mode = .load then k / 65536 == fwKey else p.hw
  | none => false

/-- Write the pieces of a window access; each piece that finds no writable page counts. -/
def windowWrite : List (Nat × Nat) → List Byte → Dev → Dev
  | [], _, s => s
  | (a, n) :: r, bs, s =>
    let s := if storePages s * pageBytes ≤ a then bump R.PLN_WIN_OOR s
      else if windowTakes s (a / pageBytes) then
        plainWrite a (bs.take n)
          { s with
            pln.ptes := s.pln.ptes.map fun e => if e.2.ppn = a / pageBytes then (e.1, { e.2 with d := true }) else e }
      else bump R.PLN_WIN_PROT_DROPS s
    windowWrite r (bs.drop n) s

/-- Does the window reach the page store at all: once the Plain has been trained. -/
def windowUp (s : Dev) : Bool :=
  pcieUp s && match s.sys.mode with
    | .daybreak => false
    | _ => true

/-- BAR2_WRITE (R96, R97): byte-granular; a write is a tier of traffic whose pace the model leaves out. -/
def runBar2Write (t : Time) (off : Nat) (bytes : List Byte) (s : Dev) : Host.Outcome Dev Fault Refusal :=
  if 0x10000000 < off + bytes.length then .fault .outsideBar2
  else
    let s := upTo t s
    let a := windowBase s + off
    .next (if windowUp s then windowWrite (pieces (bytes.length / pageBytes + 2) a bytes.length) bytes s else s)

/-- Poisoned words read as free values: the spec says only that they are marked. -/
def poisonedBytes (s : Dev) (a n : Nat) (bs : List Byte) : List Byte :=
  ((List.range n).zip bs).map fun e => if s.pln.poisoned.contains ((a + e.1) / 8) then Config.freeByte (s.free + e.1) else e.2

/-- The bytes of the pieces of a window read: zeros above the page store, counted. -/
def windowRead : List (Nat × Nat) → Dev → Dev × List Byte
  | [], s => (s, [])
  | (a, n) :: r, s =>
    let (s, bs) :=
      if storePages s * pageBytes ≤ a then (bump R.PLN_WIN_OOR s, List.replicate n 0)
      else
        let bs := poisonedBytes s a n (plainBytes s a n)
        (if s.pln.poisoned.any fun w => decide (a / 8 ≤ w ∧ w ≤ (a + n - 1) / 8) then { s with free := s.free + n } else s, bs)
    let (s, rest) := windowRead r s
    (s, bs ++ rest)

/-- BAR2_READ (R96, R91): `bad` are the 64-bit words, by physical address ÷ 8, found with double-bit errors; a word found so
before and not written since is found so again. -/
def runBar2Read (t : Time) (off len : Nat) (bad : List Nat) (s : Dev) : Host.Outcome Dev Fault Refusal :=
  if 0x10000000 < off + len then .fault .outsideBar2
  else
    let s := upTo t s
    .next (if windowUp s then
      let a := windowBase s + off
      let hit := ((bad ++ s.pln.poisoned).eraseDups).filter fun w =>
        decide (len ≠ 0 ∧ a / 8 ≤ w ∧ w ≤ (a + len - 1) / 8 ∧ 8 * w < storePages s * pageBytes)
      let (s, bs) := windowRead (pieces (len / pageBytes + 2) a len) (hit.foldl (fun s w => plnUncorr w s) s)
      emit (.readData bs) s
    else s)

/-- The 64 bits of a page-table entry (R86). -/
def Pte.word (p : Pte) : Nat :=
  let b (x : Bool) : Nat := if x then 1 else 0
  1 + 2 * b p.p + 4 * b p.d + 16 * b p.hw + 32 * b p.ck + 64 * b p.rt + 65536 * p.ppn

/-- A walk of the table of PLN.XLAT_HANDLE at an address: 0 for an unmapped page, an invalid handle or one without pages. -/
def walk (s : Dev) (h : Word) (addr : Nat) : Nat :=
  match objOf s h, pteAt s (hKey h) (addr / pageBytes) with
  | some _, some p => p.word
  | _, _ => 0

/-- The diagnostic walk. -/
def xlatWalk (v : Word) (s : Dev) : Dev :=
  let w := walk s (rg s R.PLN_XLAT_HANDLE) v.toNat
  setRg R.PLN_XLAT_PTE_HI (BitVec.ofNat 32 (w / 2 ^ 32)) <| setRg R.PLN_XLAT_PTE_LO (BitVec.ofNat 32 w) <|
    setRg R.PLN_XLAT_ADDR v s

/-- XLAT_ADDR_WRITE (R86). -/
def runXlatAddrWrite (t : Time) (v : Word) (s : Dev) : Host.Outcome Dev Fault Refusal :=
  let s := upTo t s
  .next (if pcieUp s && bar0Writable s R.PLN_XLAT_ADDR then xlatWalk v s else s)

/-- MR4 read (R84): the refresh-rate codes of both channels. Codes 4 to 7 ask for more than the nominal rate (log 15). -/
def mr4Read (a b : Nat) (s : Dev) : Dev :=
  let hot := decide (4 ≤ a % 8) || decide (4 ≤ b % 8)
  let was := bitOf s F.PLN_DRAM_TEMP_DERATED
  let s := setBit F.PLN_DRAM_TEMP_DERATED hot <| setFld F.PLN_DRAM_TEMP_CHB_MR4 (b % 8) <|
    setFld F.PLN_DRAM_TEMP_CHA_MR4 (a % 8) s
  if hot && !was then postCode 0x09 0xB 0x04 0 s else s

/-- MR4_READ (R84). -/
def runMr4Read (t : Time) (a b : Nat) (s : Dev) : Host.Outcome Dev Fault Refusal :=
  let s := upTo t s
  .next (if timeRuns s then mr4Read a b s else s)

/-- DQS_OSCILLATOR_READ (R84): the readings of every die, from which the write DQS delays are corrected. -/
def runDqsOscillatorRead (t : Time) (readings : List Nat) (s : Dev) : Host.Outcome Dev Fault Refusal :=
  let s := upTo t s
  .next (if timeRuns s then { s with pln.dqs := readings } else s)

/-- Time the present scrub pass has run, HOLD excluded (R93). -/
def scrubAge (s : Dev) : Time :=
  (if s.sys.mode = .hold then s.pln.holdFrom else s.raw) - s.pln.scrubFrom - s.pln.scrubHold

/-- SCRUB_OVERDUE (R93): 24 h, once per pass. -/
def runScrubOverdue (t : Time) (s : Dev) : Host.Outcome Dev Fault Refusal :=
  let s := upTo t s
  .next (if timeRuns s && !s.pln.overdue && decide (sec 86400 ≤ scrubAge s) then
      postCode 0x09 2 0x05 0 { s with pln.overdue := true }
    else s)

/-- SCRUB_PASS_END (R93): the next pass begins. The scrubber stands still in HOLD. -/
def runScrubPassEnd (t : Time) (s : Dev) : Host.Outcome Dev Fault Refusal :=
  let s := upTo t s
  .next (if timeRuns s && s.sys.mode != .hold then
      bump R.PLN_SCRUB_PASSES { s with pln.scrubFrom := s.raw, pln.scrubHold := 0, pln.overdue := false }
    else s)

/-- PLN's registers that show live values. The bytes moved in the last millisecond are free values (log 15). -/
def plnView (s : Dev) (off : Nat) : Option Word :=
  let w (n : Nat) : Option Word := some (BitVec.ofNat 32 n)
  if off = R.PLN_FREE_PAGES then w (segCount s.pln.free)
  else if off = R.PLN_POOL then w (poolUsed s + 65536 * fld s F.PLN_POOL_PEAK)
  else if off = R.PLN_BW_SHOW then w (Config.bandwidth 0 s.raw % 65536)
  else if off = R.PLN_BW_SITE then w (Config.bandwidth 1 s.raw % 65536)
  else if off = R.PLN_BW_BE then w (Config.bandwidth 2 s.raw % 65536)
  else if off = R.PLN_SCRUB_AGE then w (if timeRuns s then min (scrubAge s / sec 1) 0xFFFFFFFF else 0)
  else none

end Sys2Proof.Machine
end

