-- ==== Sys2Proof/Machine/Outp.lean ====
section
/-! DEFINITION. Output identities and universes, the packets they queue, and what each frame carries (chapter 8, R181-R199). -/

namespace Sys2Proof.Machine

/-! Identities (R182) -/

/-- The identity a record describes. -/
def identOf (r : List Byte) : Ident :=
  { priority := at_ r 2 1, discovery := bit (at_ r 3 1) 0, cid := (r.drop 4).take 16, sourceIp := at_ r 20 4,
    name := (r.drop 24).take 64 }

/-- The check of an output identity record. -/
def identPlan (s : Dev) (c : Ctx) (r : List Byte) : Check := do
  let x := identOf r
  require (indexOk c (at_ r 0 2) 0xFFFF) rcOutOfRange
  require (decide (x.priority ≤ 200 ∧ at_ r 3 1 ≤ 1) && x.cid.any (· != 0)) rcOutOfRange
  match s.outp.idents.find? fun e => e.1 != c.idx && e.2.cid == x.cid with
  | some e => refuseBy rcConflict (handleOf s (okey 0xE e.1))
  | none => pure ()
  pure { charges := [], refs := []
         install := fun _ s => some { s with outp.idents := tput s.outp.idents c.idx x } }

/-! Universes (R184, R185) -/

/-- The universe a record describes; handles stand as indices. -/
def univOf (r : List Byte) : Univ :=
  let canvas := at_ r 8 4
  { number := at_ r 2 2, ident := at_ r 4 4 % 2 ^ 20, canvas := if canvas = 0 then none else some (canvas % 2 ^ 20),
    slots := at_ r 12 2, dest := at_ r 14 1, mode := at_ r 15 1, valley := at_ r 16 1, priority := at_ r 17 1,
    rate := at_ r 18 1, tagged := bit (at_ r 19 1) 0, unicast := bit (at_ r 19 1) 1, forceSync := bit (at_ r 19 1) 2,
    vid := at_ r 20 2, syncAddr := at_ r 22 2, destIp := at_ r 24 4, cls := at_ r 30 1 }

/-- Is a universe on a DMX line? -/
def Univ.dmx (u : Univ) : Bool := decide (16 ≤ u.dest)

/-- Is a universe sent from another device? -/
def Univ.remote (u : Univ) : Bool := u.valley != 0

/-- The ranges of R184 and R185 that need no other object. A universe on a DMX line has no port line, so it cannot be sent from
another device (log 16). -/
def univRange (r : List Byte) (u : Univ) : Bool :=
  decide (u.dest ≤ 17 ∧ u.mode ≤ 1 ∧ u.cls ≤ 1) && decide (1 ≤ u.slots ∧ u.slots ≤ 512) && decide (at_ r 19 1 ≤ 7) &&
    decide (u.vid ≤ 4095) && (u.priority == 255 || decide (u.priority ≤ 200)) && decide (at_ r 31 1 ≤ 15) && inboxOk (at_ r 28 2) &&
    (u.dmx || decide (1 ≤ u.number ∧ u.number ≤ 63999)) &&
    (if u.mode = 0 then decide (1 ≤ u.syncAddr ∧ u.syncAddr ≤ 63999) else u.syncAddr == 0) &&
    (u.unicast || u.destIp == 0) &&
    (if u.cls = 0 then at_ r 8 4 != 0 && u.rate == 0 && !u.dmx
     else at_ r 8 4 == 0 && u.mode == 1 && decide (1 ≤ u.rate ∧ u.rate ≤ if u.dmx then 44 else 60)) &&
    (!u.dmx || (at_ r 4 4 == 0 && !u.remote))

/-- t_pkt of a DMX line with `n` slots, µs (R200). -/
def dmxPacketUs (s : Dev) (line n : Nat) : Nat :=
  fld s (F.DMX_LINE_TIMING_BREAK_US line) + fld s (F.DMX_LINE_TIMING_MAB_US line) +
    (n + 1) * (44 + fld s (F.DMX_LINE_TIMING_MBS_US line))

/-- The DMX frame check: t_pkt + 3,400 µs within the period. -/
def dmxFits (s : Dev) (u : Univ) : Bool :=
  !u.dmx || decide ((dmxPacketUs s (u.dest - 16) u.slots + 3400) * u.rate ≤ 1000000)

/-- Is a valley address that of a device present in the valley? -/
def valleyHas (s : Dev) (addr : Nat) : Bool := s.val.members.any fun e => e.2.info.addr == addr

/-- Do two universes send from the same port? -/
def Univ.samePort (u v : Univ) : Bool := u.dest == v.dest && u.valley == v.valley

/-- The universe that clashes with another, by R185's last three rows. -/
def univClash (s : Dev) (idx : Nat) (u : Univ) : Option Nat :=
  (s.outp.univs.find? fun e =>
    e.1 != idx && e.2.samePort u &&
      (u.dmx || (e.2.number == u.number && e.2.ident == u.ident) ||
        (u.mode == 0 && e.2.mode == 0 &&
          (e.2.canvas != u.canvas || e.2.syncAddr != u.syncAddr || e.2.ident != u.ident)))).map (·.1)

/-- A hosted universe that sends in SYNC mode on this port keeps it from another canvas's sync. -/
def hostedClash (s : Dev) (u : Univ) : Bool :=
  !u.remote && u.mode == 0 && s.val.hosted.any fun e => e.2.univ.dest == u.dest && e.2.univ.mode == 0

/-- Does the port of a universe already carry a sync-mode universe, itself left out? -/
def portSyncs (s : Dev) (idx : Nat) (u : Univ) : Bool :=
  (s.outp.univs.any fun e => e.1 != idx && e.2.samePort u && e.2.mode == 0) ||
    (!u.remote && s.val.hosted.any fun e => e.2.univ.dest == u.dest && e.2.univ.mode == 0)

/-- Bytes of one packet of a universe on the wire (R67). -/
def Univ.wire (u : Univ) : Nat := u.slots + (if u.tagged then 196 else 192)

/-- The PORT charges of a universe: its packets, and the port's sync packet on the first sync-mode universe. -/
def portCharges (u : Univ) (first : Bool) (rate : Nat × Nat) : List (Nat × Nat) :=
  if u.dmx then []
  else
    (9 + u.dest, perSec u.wire rate.1 rate.2 1) ::
      (if u.mode = 0 ∧ first then [(9 + u.dest, perSec 120 rate.1 rate.2 1)] else [])

/-- The charges of a universe on this device (R67): the PORT line of a universe sent from another device is charged there. -/
def univCharges (s : Dev) (idx : Nat) (u : Univ) (rate : Nat × Nat) : List (Nat × Nat) :=
  [(7, perSec 1 rate.1 rate.2 1), (0, perSec (2 * (u.slots + 196)) rate.1 rate.2 1000000)] ++
    (if u.remote then linkCharges s u rate u.valley else portCharges u (!portSyncs s idx u) rate)

/-- A universe enters the tables with its task; a sync-mode universe sent here needs a time action for its canvas (R190). -/
def installUniv (idx : Nat) (u : Univ) (h : Word) (level limit : Nat) (s : Dev) : Option Dev := do
  let s ← createTask idx 0x23 6 true true h level limit s
  let s := { s with outp.univs := tput s.outp.univs idx { u with handle := h } }
  match u.canvas with
  | some c =>
    if u.mode = 0 ∧ !u.remote ∧ (heldAction s c).isNone then (takeAction c 2 c s).map (·.2) else some s
  | none => some s

/-- The checks of R185 on a universe; `c.cls` is the class in force. -/
def univCheck (s : Dev) (c : Ctx) (r : List Byte) : Except Refuse Univ := do
  let u := { univOf r with cls := c.cls }
  let u := if u.valley = s.val.addr then { u with valley := 0 } else u
  let ih : Word := BitVec.ofNat 32 (at_ r 4 4)
  let ch : Word := BitVec.ofNat 32 (at_ r 8 4)
  require (indexOk c (at_ r 0 2) 0xFFFF) rcOutOfRange
  require (univRange r u) rcOutOfRange
  require (if u.remote then valleyHas s u.valley else u.dmx || portOn s u.dest) rcOutOfRange
  require (dmxFits s u) rcOutOfRange
  require (u.cls == 1 || (hKind ch == 5 && (objOf s ch).isSome)) rcBadHandle
  require (u.dmx || (hKind ih == 0xE && (objOf s ih).isSome)) rcBadHandle
  match univClash s c.idx u with
  | some o => refuseBy rcConflict (handleOf s (okey 2 o))
  | none => require (!hostedClash s u) rcConflict
  pure u

/-- The check of an output universe record. -/
def univPlan (s : Dev) (c : Ctx) (r : List Byte) : Check := do
  let u ← univCheck s c r
  pure { charges := univCharges s c.idx u (univRate s u)
         refs := (u.canvas.map fun k => okey 5 k).toList ++ (if u.dmx then [] else [okey 0xE u.ident])
         install := fun h s => installUniv c.idx u h (levelOf c.cls c.prio) (inboxLimit (at_ r 28 2)) s }

/-! Pace: a canvas of this device, or 8 + the number of a hosted universe -/

/-- The time of a pace now. -/
def paceNow (s : Dev) (k : Nat) : Int :=
  if k < 8 then ((canvasAt s k).map (canvasTime s)).getD 0
  else domTime s (((tget s.val.hosted (k - 8)).map (·.domain)).getD 0)

/-- The universe and identity behind a send key: below 32,768 of this device, below 65,536 hosted, above of one destroyed. -/
def sender (s : Dev) (k : Nat) : Option (Univ × Ident) :=
  if k < 32768 then
    (tget s.outp.univs k).bind fun u => (tget s.outp.idents u.ident).map fun i => (u, i)
  else if k < 65536 then (tget s.val.hosted (k - 32768)).map fun h => (h.univ, h.ident)
  else tget s.outp.ghosts k

/-- Change the universe behind a send key. -/
def modSender (k : Nat) (f : Univ → Univ) (s : Dev) : Dev :=
  if k < 32768 then { s with outp.univs := tmod s.outp.univs k f }
  else if k < 65536 then { s with val.hosted := tmod s.val.hosted (k - 32768) fun h => { h with univ := f h.univ } }
  else { s with outp.ghosts := tmod s.outp.ghosts k fun g => (f g.1, g.2) }

/-! Packets (R193) -/

/-- Do the outputs of the device drive: in ACTIVE, and in HOLD entered from it (R24, R40). -/
def outputsOn (s : Dev) : Bool :=
  match s.sys.mode with
  | .active => true
  | .hold => s.sys.heldFrom == .active
  | _ => false

/-- The source address of an identity's packets on a port. -/
def srcIp (s : Dev) (port : Nat) (i : Ident) : Nat := if i.sourceIp = 0 then (portAt s port).rec_.ipv4 else i.sourceIp

/-- The last data sequence number sent, 0 before the first packet. -/
def Univ.lastSeq (u : Univ) : Nat := if u.seq < 256 then u.seq else 0

/-- The IPv4 destination of a universe. -/
def Univ.dst (u : Univ) : Nat := if u.unicast then u.destIp else e131Group u.number

/-- Post UNRESOLVED once per 10 s per destination, and count the packet. -/
def unresolved (port univ ip : Nat) (s : Dev) : Dev :=
  let s := bump (R.PKT_TXP_UNRESOLVED port) s
  let p := portAt s port
  if (match tget p.unresolvedAt ip with | some v => decide (v + sec 10 ≤ s.raw) | none => true) then
    postCode 0x21 4 0x32 (port * 2 ^ 32 + univ % 32768)
      (setPort port { p with unresolvedAt := tput p.unresolvedAt ip s.raw } s)
  else s

/-- The frame of a universe's data packet; its sequence number is written when it starts. -/
def dataFrame (s : Dev) (port : Nat) (u : Univ) (i : Ident) (mac : Nat) (term : Bool) (slots : List Byte) : List Byte :=
  let show_ := u.cls == 0
  let options := (if term then 0x40 else 0) + (if u.forceSync then 0x20 else 0)
  let prio := if u.priority = 255 then i.priority else u.priority
  ethHead mac (portAt s port).rec_.mac (if u.tagged then some (if show_ then 5 else 3, u.vid) else none) 0x0800 ++
    ipv4 (srcIp s port i) u.dst (fld s F.PKT_TX_CFG_TTL) (if show_ then fld s F.PKT_TX_CFG_DSCP_SHOW else fld s F.PKT_TX_CFG_DSCP_SITE)
      17 [] (udp 5568 5568 (e131Data i.cid i.name prio u.syncAddr 0 options u.number (fit u.slots slots)))

/-- Byte of a frame at which its UDP payload begins. -/
def udpAt (tagged : Bool) : Nat := if tagged then 46 else 42

/-- Queue a data packet of the universe behind a send key. -/
def queuePacket (key : Nat) (tag : TxTag) (term : Bool) (slots : List Byte) (s : Dev) : Dev :=
  match sender s key with
  | none => s
  | some (u, i) =>
    if u.unicast then
      match resolve u.dest u.destIp s with
      | (s, some mac) => queueFrame u.dest ⟨tag, dataFrame s u.dest u i mac term slots⟩ s
      | (s, none) => unresolved u.dest key u.destIp s
    else queueFrame u.dest ⟨tag, dataFrame s u.dest u i (macOfGroup u.dst) term slots⟩ s

/-- The sync packet of a sync-mode universe's port, with sequence number 0. -/
def syncPacket (s : Dev) (u : Univ) (i : Ident) : List Byte :=
  let dst := e131Group u.syncAddr
  ethHead (macOfGroup dst) (portAt s u.dest).rec_.mac (if u.tagged then some (6, u.vid) else none) 0x0800 ++
    ipv4 (srcIp s u.dest i) dst (fld s F.PKT_TX_CFG_TTL) (fld s F.PKT_TX_CFG_DSCP_SHOW) 17 []
      (udp 5568 5568 (e131Sync i.cid 0 u.syncAddr))

/-- The port of a sync-mode universe owes a sync for frame `n`. -/
def oweSync (u : Univ) (i : Ident) (pace : Nat) (n tick : Int) (s : Dev) : Dev :=
  let pkt := syncPacket s u i
  modPort u.dest (fun p =>
    if p.syncFor.contains (pace, n, tick) then p
    else { p with syncFor := p.syncFor ++ [(pace, n, tick)], syncPkt := tput p.syncPkt pace pkt }) s

/-- A payload of a universe sent from another device goes over its pass (R198, R316, R326): the sequence number it is to be sent with
stands in AUX; a device at address 0 sends none (R314). FRAME is 0 for a site-class universe. -/
def sendPayload (key : Nat) (frame : Int) (term : Bool) (slots : List Byte) (s : Dev) : Dev :=
  match sender s key with
  | none => s
  | some (u, _) =>
    if !outputsOn s || s.val.addr == 0 then s
    else
      let seq := (u.seq + 1) % 256
      let s := passSeq key (if u.cls = 0 then frame else (u.tickK : Int) - 1) seq (modSender key (fun u => { u with seq := seq }) s)
      valSend 1 (if u.cls = 0 then 1 else 3) u.valley ((tget s.val.epochs key).getD 0) u.handle.toNat
        (if u.cls = 0 then unsgn 64 frame else 0) seq (hIndex u.handle % 2 == 1) (.payload (fit u.slots slots) term) s

/-- Queue the show-class data of frame `n` of a universe sent from this device: T_{N-1}, T_N and T_{N+1} in its pace's time. -/
def sendShow (key pace : Nat) (n before tick next : Int) (term : Bool) (slots : List Byte) (s : Dev) : Dev :=
  match sender s key with
  | none => s
  | some (u, i) =>
    if !outputsOn s then s
    else
      let sync := u.mode == 0
      let opens : Int := if sync then before + (us 2 : Nat) else tick
      let s := if sync && !term then oweSync u i pace n tick s else s
      queuePacket key (.show_ key pace n sync term opens tick next) term slots s

/-- T_{N-1}, T_N and T_{N+1} of a canvas's frame. -/
def ticksOf (s : Dev) (c : Canvas) (n : Int) : Int × Int × Int :=
  match c.leftGrid n with
  | some o => (o.at_ (n - 1), o.at_ n, o.at_ (n + 1))
  | none => (tickAt s c (n - 1), tickAt s c n, tickAt s c (n + 1))

/-- Send frame `n` of the show-class universe behind a send key, paced by canvas `k`: from its own port, or over the valley. -/
def sendFrame (key k : Nat) (u : Univ) (n : Int) (term : Bool) (slots : List Byte) (s : Dev) : Dev :=
  if u.remote then sendPayload key n term slots s
  else
    match canvasAt s k with
    | some c => let (a, b, d) := ticksOf s c n; sendShow key k n a b d term slots s
    | none => s

/-- Send frame `n` of a show-class universe of this device. -/
def sendLocal (i : Nat) (n : Int) (term : Bool) (slots : List Byte) (s : Dev) : Dev :=
  match tget s.outp.univs i with
  | some u =>
    match u.canvas with
    | some k => sendFrame i k u n term slots s
    | none => s
  | none => s

/-! Termination (R196, R197) -/

/-- Frames of a send key that a predicate on the frame number picks leave the port's queue. -/
def dropQueued (port : Nat) (f : TxTag → Bool) (s : Dev) : Dev :=
  modPort port (fun p => { p with queue := p.queue.filter fun x => !f x.tag }) s

/-- Is a tag the show data of a send key after frame `n`? -/
def TxTag.later (key : Nat) (n : Int) : TxTag → Bool
  | .show_ k _ m _ _ _ _ _ => k == key && decide (n < m)
  | _ => false

/-- The tag renamed to another send key. -/
def TxTag.rename (old new : Nat) : TxTag → TxTag
  | .show_ k p m a b o t x => .show_ (if k = old then new else k) p m a b o t x
  | .site k => .site (if k = old then new else k)
  | t => t

/-- A queued frame under another send key. -/
def TxFrame.rename (old new : Nat) (f : TxFrame) : TxFrame := { f with tag := f.tag.rename old new }

/-- A universe that was sending has stopped: the frame in the send window goes out whole, then three termination packets. -/
def endUniv (i : Nat) (s : Dev) : Dev :=
  match tget s.outp.univs i with
  | none => s
  | some u =>
    let s := match u.canvas.bind (canvasAt s) with
      | some c => dropQueued u.dest (TxTag.later i c.nextN) s
      | none => s
    if u.dmx then s else { s with outp.univs := tput s.outp.univs i { u with terms := 3 } }

/-- The lowest send key of a destroyed universe that is free. -/
def ghostKey (s : Dev) : Nat := ((List.range 40000).find? fun k => !thas s.outp.ghosts (65536 + k)).getD 0 + 65536

/-- A universe leaves the tables; one that owes termination packets, or has data queued, is kept under a send key of its own. -/
def removeUniv (i : Nat) (s : Dev) : Dev :=
  match tget s.outp.univs i with
  | none => s
  | some u =>
    let s := match tget s.outp.idents u.ident with
      | some x =>
        if u.dmx then s
        else if u.remote ∧ u.terms = 0 then releaseUses u s
        else
          let k := ghostKey s
          modPort u.dest (fun p => { p with queue := p.queue.map (TxFrame.rename i k) })
            { s with outp.ghosts := tput s.outp.ghosts k (u, x) }
      | none => s
    let s := destroyTask i { s with outp.univs := tdel s.outp.univs i }
    match u.canvas with
    | some c =>
      if u.mode = 0 ∧ !u.remote ∧ !(s.outp.univs.any fun e => e.2.canvas == some c && e.2.mode == 0 && !e.2.remote) then giveAction c s
      else s
    | none => s

/-- Every universe and ghost owes its next termination packet at tick `n` of canvas `c` (R196): it goes out in frame `n + 1`. -/
def sendTerms (c : Nat) (n : Int) (s : Dev) : Dev :=
  let mine (l : List (Nat × Univ)) : List (Nat × Univ) := l.filter fun e => e.2.canvas == some c && e.2.terms != 0
  let one (s : Dev) (e : Nat × Univ) : Dev :=
    sendFrame e.1 c e.2 (n + 1) true e.2.payload (modSender e.1 (fun u => { u with terms := u.terms - 1 }) s)
  let own := (mine s.outp.univs).filter fun e => !isLive s (okey 2 e.1)
  (mine (s.outp.ghosts.map fun e => (e.1, e.2.1))).foldl one (own.foldl one s)

/-- Is a frame of a send key queued or on the wire? -/
def inFlight (s : Dev) (key : Nat) (u : Univ) : Bool :=
  let p := portAt s u.dest
  let of (t : TxTag) : Bool :=
    match t with
    | .show_ k _ _ _ _ _ _ _ => k == key
    | .site k => k == key
    | _ => false
  (p.queue.any fun f => of f.tag) || (p.wire.any fun w => of w.frame.tag) || (p.held.any fun h => of h.1.tag)

/-- Ghosts with nothing left to send are forgotten; what other devices hold for one is given back. -/
def clearGhosts (s : Dev) : Dev :=
  let stays (e : Nat × Univ × Ident) : Bool := e.2.1.terms != 0 || (!e.2.1.remote && inFlight s e.1 e.2.1)
  (s.outp.ghosts.filter fun e => !stays e && e.2.1.remote).foldl (fun s e => releaseUses e.2.1 s)
    { s with outp.ghosts := s.outp.ghosts.filter stays }

/-- Every output stops at once (R24, R196): no universe data, no sync, no termination from the next packet on. A frame on the wire
completes. -/
def outputsOff (s : Dev) : Dev :=
  let keep (f : TxFrame) : Bool :=
    match f.tag with
    | .show_ _ _ _ _ _ _ _ _ => false
    | .site _ => false
    | .sync _ _ _ => false
    | _ => true
  let s := (s.outp.ghosts.filter fun e => e.2.1.remote).foldl (fun s e => releaseUses e.2.1 s) s
  { s with
    outp.ports := s.outp.ports.map fun e =>
      (e.1, { e.2 with queue := e.2.queue.filter keep, express := e.2.express.filter keep, syncFor := [], syncPkt := [] })
    outp.ghosts := []
    outp.univs := s.outp.univs.map fun e => (e.1, { e.2 with terms := 0 }) }

/-! The sync packet (R190, R193, R194) -/

/-- The slack of the frame just closed is recorded: the last end before C_N, 0 where that was late or nothing was sent. A frame in
which nothing was sent leaves the least one as it is (log 16). -/
def closeSlack (port : Nat) (s : Dev) : Dev :=
  let s := match (portAt s port).slack with
    | some v => setFld (F.PKT_TXP_SLACK_MIN_US port) (min v (fld s (F.PKT_TXP_SLACK_MIN_US port))) (setFld (F.PKT_TXP_SLACK_LAST_US port) v s)
    | none => setFld (F.PKT_TXP_SLACK_LAST_US port) 0 s
  modPort port (fun p => { p with slack := none }) s

/-- The sync a port owes whose T_N has come, to within 1 µs. -/
def syncDue (s : Dev) (port : Nat) : Option (Nat × Int × Int) :=
  (portAt s port).syncFor.find? fun e => decide ((e.2.2 - paceNow s e.1).natAbs ≤ us 1)

/-- The time action places the sync of a port at the head of its express queue. -/
def launchSync (port pace : Nat) (n tick : Int) (s : Dev) : Dev :=
  let p := portAt s port
  let owed := p.syncFor.filter fun e => e != (pace, n, tick)
  let s := setPort port { p with syncFor := owed, syncN := some n, syncSeq := (p.syncSeq + 1) % 256 } s
  let s := closeSlack port s
  match tget p.syncPkt pace with
  | some b =>
    let at' := udpAt (beAt b 12 2 == 0x8100) + 44
    queueFrame port ⟨.sync pace n tick, b.set at' (BitVec.ofNat 8 ((p.syncSeq + 1) % 256)) ⟩ s
  | none => s

/-- SYNC_LAUNCH (R190). -/
def runSyncLaunch (t : Time) (port : Nat) (s : Dev) : Host.Outcome Dev Fault Refusal :=
  let s := upTo t s
  .next (match syncDue s port with
    | some (k, n, tick) => if outputsOn s && decide (port < 16) then launchSync port k n tick s else s
    | none => s)

/-! Universe discovery (R195) -/

/-- The E1.31 numbers sent under an identity on a port, ascending. -/
def sentNumbers (s : Dev) (ident port : Nat) : List Nat :=
  let l := s.outp.univs.filter fun e => e.2.ident == ident && e.2.dest == port && !e.2.remote && isLive s (okey 2 e.1)
  ((l.foldl (fun m e => tput m e.2.number ()) ([] : Tbl Unit))).map (·.1)

/-- The pages of a list, 512 entries each. -/
def pagesOf (l : List Nat) : List (List Nat) :=
  (List.range (cdiv l.length 512)).map fun k => (l.drop (512 * k)).take 512

/-- Discovery packets of an identity on a port. -/
def discover (x : Ident) (ident port : Nat) (s : Dev) : Dev :=
  let ps := pagesOf (sentNumbers s ident port)
  let dst := 0xEFFFFAD6
  ((List.range ps.length).zip ps).foldl (fun s e =>
    let r := (portAt s port).rec_
    bump (R.PKT_TXP_DISCOVERY port)
      (queueFrame port ⟨.control, ethHead (macOfGroup dst) r.mac (r.tag 0) 0x0800 ++
        ipv4 (srcIp s port x) dst (fld s F.PKT_TX_CFG_TTL) (fld s F.PKT_TX_CFG_DSCP_SITE) 17 []
          (udp 5568 5568 (e131Discovery x.cid x.name e.1 (ps.length - 1) e.2))⟩ s)) s

/-- DISCOVERY_SEND (R195): every 10 s, to within half a second. -/
def runDiscoverySend (t : Time) (i : Nat) (s : Dev) : Host.Outcome Dev Fault Refusal :=
  let s := upTo t s
  .next (match tget s.outp.idents i with
    | some x =>
      if outputsOn s && x.discovery && (match x.discAt with | some v => decide (v + ms 9500 ≤ s.raw) | none => true) then
        (List.range 16).foldl (fun s p => discover x i p s)
          { s with outp.idents := tput s.outp.idents i { x with discAt := some s.raw } }
      else s
    | none => s)

/-! Site-class universes (R199) -/

/-- T of site tick `k` of a universe: k ÷ RATE seconds from the epoch of domain A. -/
def siteTickAt (u : Univ) (k : Nat) : Int := (k : Int) * unitsPerSec / (u.rate : Int)

/-- The number of the first site tick after a time. -/
def siteTickAfter (u : Univ) (t : Int) : Nat := ((t * (u.rate : Int)) / unitsPerSec + 1).toNat

/-- The payload of a site universe goes out: on a port in ARRIVAL form, on a DMX line at its next break. -/
def sendSite (i : Nat) (u : Univ) (term : Bool) (slots : List Byte) (s : Dev) : Dev :=
  if u.dmx || !outputsOn s then s
  else if u.remote then sendPayload i 0 term slots s
  else queuePacket i (.site i) term slots s

/-! Charges and widths for the send-window check (R186, R187) -/

/-- B_p: bytes per frame of the show-class universes that leave a port, sync included. -/
def portBytes (s : Dev) (port : Nat) : Nat :=
  let l := (s.outp.univs.filter fun e => e.2.cls == 0 && e.2.dest == port && !e.2.remote).map (·.2) ++
    (s.val.hosted.filter fun e => e.2.univ.cls == 0 && e.2.univ.dest == port).map (·.2.univ)
  (l.map Univ.wire).sum + (if l.any (·.mode == 0) then 120 else 0)

/-- W_p in 2^-16 ns: B_p bytes at line rate and 20 µs. -/
def arrivalWidth (s : Dev) (port : Nat) : Time := (portAt s port).rec_.bytes (portBytes s port) + us 20

/-! Queries and derived registers (R206) -/

/-- Kind-specific bytes of QUERY for universes and identities. -/
def univQuery (s : Dev) (i : Nat) : List Byte :=
  match tget s.outp.univs i with
  | some u =>
    [BitVec.ofNat 8 (u.mode + (if u.remote then 2 else 0)), BitVec.ofNat 8 u.lastSeq, BitVec.ofNat 8 u.dest, BitVec.ofNat 8 u.valley] ++
      leBytes 4 (unsgn 32 u.lastSent)
  | none => []

def identQuery (s : Dev) (i : Nat) : List Byte :=
  let l := s.outp.univs.filter fun e => !e.2.dmx && e.2.ident == i
  leBytes 4 l.length ++
    leBytes 2 ((List.range 16).map fun p => if l.any fun e => e.2.dest == p && !e.2.remote then 2 ^ p else 0).sum ++ [0, 0]

/-- PKT's registers that show the selected output universe. -/
def txView (s : Dev) (off : Nat) : Option Word :=
  let i := fld s F.PKT_TX_SEL_INDEX
  let w (f : Univ → Nat) : Option Word := some (BitVec.ofNat 32 (((tget s.outp.univs i).map f).getD 0))
  let b (x : Bool) : Nat := if x then 1 else 0
  let st : Nat := match objAt s (okey 2 i) with
    | some o => o.state - 1
    | none => 0
  if off = R.PKT_TX_STATE then
    w fun u => 1 + 2 * st + 8 * u.mode + 16 * u.cls + 32 * b u.remote + 256 * u.lastSeq + 65536 * u.number
  else if off = R.PKT_TX_DEST then w fun u => u.dest + 256 * u.valley + 65536 * u.syncAddr
  else if off = R.PKT_TX_LAST then w fun u => unsgn 32 u.lastSent
  else none

end Sys2Proof.Machine
end

