-- ==== Sys2Proof/Machine/Ptp.lean ====
section
/-! DEFINITION. Time domains and PTP (chapter 11, R260, R261, R266-R272). -/

namespace Sys2Proof.Machine

/-! Records -/

/-- The domain record (R260), profile defaults filled in. -/
def domRecOf (r : List Byte) : DomRec :=
  let st := at_ r 2 1 == 0
  let log (off : Nat) (d : Int) : Int := if at_ r off 1 = 0x7F then d else sgn 8 (at_ r off 1)
  let d (v x : Nat) : Nat := if v = 0 then x else v
  { source := at_ r 1 1, profile := at_ r 2 1, ptpDomain := at_ r 3 1, ports := at_ r 4 2, role := at_ r 6 1,
    oneStep := bit (at_ r 7 1) 0, priority1 := at_ r 8 1, priority2 := at_ r 9 1, clockClass := d (at_ r 10 1) 248,
    logAnnounce := log 11 (if st then -2 else 1), logSync := log 12 (if st then -3 else 0), logDelay := log 13 (if st then -3 else 0),
    annTimeout := d (at_ r 14 1) 3, tickRef := at_ r 15 1, refNum := at_ r 16 4, refDen := at_ r 20 2, cableNs := at_ r 22 2,
    lockEdges := d (at_ r 24 1) 8, edge := at_ r 25 1, stepUs := d (at_ r 26 2) 1000 }

/-- Are the fields of a domain record in range; the reference fields only where they are read? -/
def domRecOk (s : Dev) (r : List Byte) : Bool :=
  let x := domRecOf r
  let lg (off : Nat) (lo hi : Int) : Bool := at_ r off 1 == 0x7F || decide (lo ≤ sgn 8 (at_ r off 1) ∧ sgn 8 (at_ r off 1) ≤ hi)
  decide (at_ r 0 1 ≤ 1 ∧ x.source ≤ 2 ∧ x.profile ≤ 1 ∧ x.ptpDomain ≤ 127 ∧ x.role ≤ 2 ∧ at_ r 7 1 ≤ 1 ∧ x.tickRef ≤ 2) &&
    lg 11 (-3) 3 && lg 12 (-7) 1 && lg 13 (-7) 5 && decide (2 ≤ x.annTimeout ∧ x.annTimeout ≤ 10) &&
    (x.tickRef == 0 || decide (1 ≤ x.refNum ∧ x.refNum ≤ 192000 ∧ 1 ≤ x.refDen ∧ x.refDen ≤ 1001 ∧ 2 ≤ x.lockEdges ∧
      x.lockEdges ≤ 64 ∧ x.edge ≤ 1)) &&
    at_ r 28 4 == 0 && (x.source != 0 || x.ports == 0) && (List.range 16).all fun p => !bit x.ports p || portOn s p

/-- Do two PTP domains clash on a port (R261)? -/
def domClash (a b : DomRec) : Bool :=
  a.source == 1 && b.source == 1 && a.ptpDomain == b.ptpDomain && (a.ports &&& b.ports) != 0

/-- Does a domain run its ports as master only? -/
def DomRec.masterOnly (r : DomRec) : Bool := r.source == 2 || r.role == 1

/-- The domain that a record sets up: its ports MASTER or LISTENING, its reference ACQUIRING with φ = 0 (R277). -/
def applyDomain (d : Nat) (x : DomRec) (s : Dev) : Dev :=
  let ps := (List.range 16).filter (bit x.ports)
  setDom d { domAt s d with
             rec_ := x, tick := (if x.tickRef = 0 then 0 else 1), phi := 0, phiGoal := 0
             ports := ps.map fun p => (p, { state := if x.masterOnly then 1 else 0 }) } s

/-- The port timing record (R267). -/
def applyPortTiming (r : List Byte) (s : Dev) : Dev :=
  let p := at_ r 0 1
  setRg (R.TIM_PORT_TX_EXTRA p) (BitVec.ofNat 32 (at_ r 4 4)) <| setRg (R.TIM_PORT_RX_EXTRA p) (BitVec.ofNat 32 (at_ r 8 4)) <|
    setRg (R.TIM_PORT_ASYM p) (BitVec.ofNat 32 (at_ r 12 4)) s

/-- Is a port timing record in range? -/
def portTimingOk (r : List Byte) : Bool :=
  decide (at_ r 0 1 ≤ 15) && at_ r 1 3 == 0 && decide (at_ r 4 4 ≤ 16777215 ∧ at_ r 8 4 ≤ 16777215)

/-! Timestamps (R266) -/

/-- TX_LAT and RX_LAT of a port's mode, in 10 ps. -/
def latOf (r : PortRec) : Nat × Nat :=
  match r.mode with
  | 0 => (0, 0)
  | 1 => (11200, 17600)
  | 2 => (11200, 17600)
  | 3 => (4480, 7040)
  | 4 => (3840, 5280)
  | _ =>
    match r.speed with
    | 0 => (4160, 5760)
    | 1 => (6080, 8320)
    | 2 => (9920, 13440)
    | _ => (21440, 28800)

/-- Raw units of a number of ps. -/
def psUnits (x : Int) : Int := x * 65536 / 1000

/-- The egress timestamp of a port in a domain for the instant its PCS captured. -/
def egress (s : Dev) (p d : Nat) (c : Time) : Int :=
  let r := (portAt s p).rec_
  (domAt s d).timeAt (c + (latOf r).1 * 65536 / 100 + (psUnits (fld s (F.TIM_PORT_TX_EXTRA_PS p))).toNat)

/-- The ingress timestamp. -/
def ingress (s : Dev) (p d : Nat) (c : Time) : Int :=
  let r := (portAt s p).rec_
  (domAt s d).timeAt (c - (latOf r).2 * 65536 / 100 - (psUnits (fld s (F.TIM_PORT_RX_EXTRA_PS p))).toNat)

/-- ASYM of a port. -/
def asymOf (s : Dev) (p : Nat) : Int := psUnits (sgn 32 (rg s (R.TIM_PORT_ASYM p)).toNat)

/-! The best master clock algorithm (R270; IEEE 1588-2019, log 17) -/

/-- The device's own clock identity: its UID. -/
def ownUid (s : Dev) : Nat := fuseUid s.fuses

/-- The dataset the device offers as master of a domain. -/
def ownDataset (s : Dev) (x : Dom) : Dataset :=
  { priority1 := x.rec_.priority1, clockClass := x.rec_.clockClass, clockAccuracy := 0xFE, variance := 0xFFFF,
    priority2 := x.rec_.priority2, gmId := ownUid s, steps := 0, srcClock := ownUid s, srcPort := 0 }

/-- Compare two lists of fields, the first difference deciding. -/
def lexLt : List Nat → List Nat → Bool
  | a :: r, b :: t => decide (a < b) || (a == b && lexLt r t)
  | _, _ => false

/-- Is a dataset better than another? -/
def Dataset.better (a b : Dataset) : Bool :=
  if a.gmId = b.gmId then
    decide (a.steps < b.steps) || (a.steps == b.steps && lexLt [a.srcClock, a.srcPort] [b.srcClock, b.srcPort])
  else
    lexLt [a.priority1, a.clockClass, a.clockAccuracy, a.variance, a.priority2, a.gmId]
      [b.priority1, b.clockClass, b.clockAccuracy, b.variance, b.priority2, b.gmId]

/-- A log2 interval as a duration. -/
def logTime (l : Int) : Time := if 0 ≤ l then sec 1 * 2 ^ l.toNat else sec 1 / 2 ^ (-l).toNat

/-- The interval after which a silent master is dropped. -/
def annTimeout (r : DomRec) : Time := r.annTimeout * logTime r.logAnnounce

/-- The best qualified master of a port: heard twice within four intervals, and lately. -/
def PtpPort.best (p : PtpPort) (r : DomRec) (now : Time) : Option Dataset :=
  (p.foreign.filter fun e => decide (2 ≤ e.2.2) && decide (now < e.2.1 + annTimeout r)).foldl (fun b e =>
    match b with
    | some x => if e.1.better x then some e.1 else b
    | none => some e.1) none

/-- The best master of a domain and the port it is heard on. -/
def bestMaster (x : Dom) (now : Time) : Option (Nat × Dataset) :=
  x.ports.foldl (fun b e =>
    match e.2.best x.rec_ now, b with
    | some a, some c => if a.better c.2 then some (e.1, a) else b
    | some a, none => some (e.1, a)
    | none, _ => b) none

/-- The states of a domain's ports (R270). -/
def decideStates (s : Dev) (x : Dom) : Dom :=
  if x.rec_.masterOnly then { x with ports := x.ports.map fun e => (e.1, { e.2 with state := 1 }) }
  else
    let best := bestMaster x s.raw
    let d0 := ownDataset s x
    let st (e : Nat × PtpPort) : Nat :=
      let here := e.2.best x.rec_ s.raw
      if x.rec_.role = 0 then (if best.map (·.1) = some e.1 then 3 else 0)
      else if d0.clockClass ≤ 127 then
        (match here with
          | some h => if d0.better h then 1 else 2
          | none => 1)
      else
        match best with
        | none => 1
        | some (r, b) =>
          if d0.better b then 1
          else if r = e.1 then 3
          else
            match here with
            | some h => if h.gmId = b.gmId ∧ b.better h then 2 else 1
            | none => 1
    { x with ports := x.ports.map fun e => (e.1, { e.2 with state := st e }) }

/-- The master selected after an Announce; a change of master while the servo runs is counted and posted (R271). -/
def selectMaster (d : Nat) (s : Dev) : Dev :=
  let x := decideStates s (domAt s d)
  let gm := match slavePort x with
    | some p => ((tget x.ports p).bind fun q => q.best x.rec_ s.raw).map (·.gmId)
    | none => none
  match gm with
  | none => setDom d x s
  | some g =>
    if g = x.gm then setDom d x s
    else if x.servo = 1 ∨ x.servo = 2 then
      postTim 1 0x06 d g (bump (R.TIM_DOM_GM_CHANGES d) (setDom d { x with gm := g, servo := 1, good := 0, bad := 0 } s))
    else setDom d { x with gm := g } s

/-! The servo (R271, R272) -/

/-- A slave's new rate: the frequency estimate and the slew are a free value within ±500 ppm (log 8). -/
def retune (d : Nat) (s : Dev) : Dev :=
  let f : Int := (Config.freeNat s.free % 1099511629 : Nat) - (549755814 : Int)
  let x := (domAt s d).setRate s.raw f
  let h := if x.servo = 2 then (s.raw, x.f) :: x.history else x.history
  setDom d { x with history := h } (drawn s)

/-- The mean of the rate over the last 64 s spent in LOCKED, or its last value where there are fewer (R271). Entries are newest
first; each rate held from its instant to the one before it in the list. -/
def meanRate (last : Int) : Time → Int → Time → List (Time × Int) → Int
  | got, acc, later, (at', f) :: r =>
    let dt := later - at'
    if sec 64 ≤ got + dt then (acc + f * ((sec 64 - got : Nat) : Int)) / ((sec 64 : Nat) : Int)
    else meanRate last (got + dt) (acc + f * (dt : Int)) at' r
  | _, _, _, [] => last

/-- HOLDOVER is entered: the rate is frozen at its mean. -/
def enterHoldover (d : Nat) (s : Dev) : Dev :=
  let x := domAt s d
  let upto_ := if x.servo = 2 then s.raw else (x.history.head?.map (·.1)).getD s.raw
  let x := x.setRate s.raw (meanRate x.f 0 0 upto_ x.history)
  postTim 1 0x03 d 0 (bump (R.TIM_DOM_HOLDOVERS d) (setDom d { x with servo := 3, holdFrom := some s.raw, good := 0, bad := 0 } s))

/-- HOLDOVER ends: its seconds are counted and posted. -/
def leaveHoldover (d : Nat) (s : Dev) : Dev :=
  let x := domAt s d
  let secs := match x.holdFrom with
    | some t => (s.raw - t) / sec 1
    | none => 0
  postTim 1 0x04 d (sat secs) (bumpBy (R.TIM_DOM_HOLDOVER_S d) secs (setDom d { x with servo := 1, holdFrom := none } s))

/-- One measured offset: a step beyond STEP_US, else a new rate; the states of R271 follow. -/
def servoOffset (near far : Time) (d : Nat) (off : Int) (s : Dev) : Dev :=
  let s := if (domAt s d).servo = 3 then leaveHoldover d s else s
  let x := domAt s d
  let s := setDom d { x with lastOffset := off } s
  if x.servo = 0 then
    let s := stepDomain d (-off) s
    setDom d { domAt s d with servo := 1, good := 0, bad := 0 } s
  else
    let s := if (us x.rec_.stepUs : Nat) < off.natAbs then stepDomain d (-off) s else retune d s
    let x := domAt s d
    let good := if off.natAbs ≤ near then x.good + 1 else 0
    let bad := if far < off.natAbs then x.bad + 1 else 0
    if x.servo = 1 ∧ 16 ≤ good then
      postTim 1 0x01 d 0 (setDom d { x with servo := 2, good := 0, bad := 0, lockedFrom := s.raw, history := [(s.raw, x.f)] } s)
    else if x.servo = 2 ∧ 4 ≤ bad then
      postTim 1 0x02 d (nsSat off) (bump (R.TIM_DOM_LOCK_LOSSES d)
        (setDom d { x with servo := 1, good := 0, bad := 0, history := (s.raw, x.f) :: x.history } s))
    else setDom d { x with good := good, bad := bad } s

/-- Replace the PTP state of a port of a domain. -/
def setPtp (d p : Nat) (q : PtpPort) (s : Dev) : Dev := setDom d { domAt s d with ports := tput (domAt s d).ports p q } s

/-- A Sync with its origin time and correction total is complete on the slave port (R268). -/
def syncDone (d p : Nat) (t1 t2 cs : Int) (s : Dev) : Dev :=
  let x := domAt s d
  match tget x.ports p with
  | none => s
  | some q =>
    let s := setPtp d p { q with t1 := t1, t2 := t2, cs := cs, have12 := true, sync := none } s
    servoOffset (ns 100) (us 1) d (t2 - t1 - cs - (if x.servo = 0 then 0 else x.meanPath + asymOf s p)) s

/-! Messages -/

/-- A PTP frame of a port: event messages to UDP port 319, the others to 320; TTL 1 and DSCP 0 (log 17). -/
def ptpFrame (s : Dev) (p : Nat) (event : Bool) (dst : Option (Nat × Nat)) (msg : List Byte) : List Byte :=
  let r := (portAt s p).rec_
  let (ip, mac) := dst.getD (0xE0000181, macOfGroup 0xE0000181)
  let port := if event then 319 else 320
  ethHead mac r.mac (r.tag 7) 0x0800 ++ ipv4 r.ipv4 ip 1 0 17 [] (udp port port msg)

/-- Does the message come from the master its port follows? -/
def fromMaster (s : Dev) (x : Dom) (q : PtpPort) (m : PtpMsg) : Bool :=
  match q.best x.rec_ s.raw with
  | some b => b.srcClock == m.srcClock && b.srcPort == m.srcPort
  | none => false

/-- An Announce: the sender's dataset is kept, and the algorithm runs. -/
def announceRx (d : Nat) (q : PtpPort) (m : PtpMsg) (s : Dev) : Dev :=
  let x := domAt s d
  let a : Dataset := { priority1 := m.priority1, clockClass := m.clockClass, clockAccuracy := m.clockAccuracy, variance := m.variance,
                       priority2 := m.priority2, gmId := m.gmId, steps := m.stepsRemoved, srcClock := m.srcClock, srcPort := m.srcPort }
  let mine (e : Dataset × Time × Nat) : Bool := e.1.srcClock == a.srcClock && e.1.srcPort == a.srcPort
  let run := match q.foreign.find? mine with
    | some e => if s.raw ≤ e.2.1 + 4 * logTime x.rec_.logAnnounce then e.2.2 + 1 else 1
    | none => 1
  selectMaster d (setPtp d m.port { q with foreign := (a, s.raw, min run 2) :: q.foreign.filter fun e => !mine e } s)

/-- A Delay_Req at a master port is answered in the cast it came in. -/
def delayReqRx (d : Nat) (m : PtpMsg) (s : Dev) : Dev :=
  let x := domAt s d
  let body := ptpTime (ingress s m.port d m.ingress) ++ beBytes 8 m.srcClock ++ beBytes 2 m.srcPort
  queueFrame m.port ⟨.control, ptpFrame s m.port false m.unicast
    (ptpMsg 9 x.rec_.ptpDomain 0 m.correction (ownUid s) (m.port + 1) m.seq 3 x.rec_.logDelay body)⟩ s

/-- A PTP message in domain `d` (R268-R271). -/
def ptpRx (d : Nat) (m : PtpMsg) (s : Dev) : Dev :=
  let x := domAt s d
  match tget x.ports m.port with
  | none => s
  | some q =>
    if (x.rec_.source ≠ 1 ∧ x.rec_.source ≠ 2) ∨ m.domain ≠ x.rec_.ptpDomain then s
    else if m.msgType = 0xB then (if x.rec_.masterOnly then s else announceRx d q m s)
    else if m.msgType = 1 then (if q.state = 1 then delayReqRx d m s else s)
    else if q.state ≠ 3 then s
    else if m.msgType = 0 then
      if !fromMaster s x q m then s
      else
        let t2 := ingress s m.port d m.ingress
        if m.twoStep then setPtp d m.port { q with sync := some (m.seq, t2, m.correction) } s
        else syncDone d m.port ((m.timestamp : Int) * 65536) t2 m.correction s
    else if m.msgType = 8 then
      match q.sync with
      | some (seq, t2, c) =>
        if seq = m.seq ∧ fromMaster s x q m then syncDone d m.port ((m.timestamp : Int) * 65536) t2 (c + m.correction) s else s
      | none => s
    else if m.msgType = 9 then
      match q.req with
      | some (seq, t3) =>
        if seq = m.seq ∧ m.reqClock = ownUid s ∧ m.reqPort = m.port + 1 ∧ q.have12 then
          let path := ((q.t2 - q.t1) + ((m.timestamp : Int) * 65536 - t3) - q.cs - m.correction) / 2
          setPtp d m.port { q with req := none } (setDom d { domAt s d with meanPath := path } s)
        else s
      | none => s
    else s

/-- PTP_MESSAGE_RX (R269-R272): each domain that runs PTP on the port takes a message of its number. -/
def runPtpMessageRx (t : Time) (m : PtpMsg) (s : Dev) : Host.Outcome Dev Fault Refusal :=
  let s := upTo t s
  .next (if timeRuns s && (portAt s m.port).link == 2 then ptpRx 1 m (ptpRx 0 m s) else s)

/-- Has an interval gone by since an instant? -/
def elapsed (s : Dev) (l : Option Time) (d : Time) : Bool :=
  match l with
  | some v => decide (v + d ≤ s.raw)
  | none => true

/-- The port of a domain in a state, if its link is UP. -/
def ptpIn (s : Dev) (p d st : Nat) : Option PtpPort :=
  match tget (domAt s d).ports p with
  | some q => if timeRuns s && decide (d < 2) && q.state == st && (portAt s p).link == 2 then some q else none
  | none => none

/-- A Sync enters the express queue; its origin time, or its Follow_Up, is made at egress. -/
def sendSync (p d : Nat) (q : PtpPort) (s : Dev) : Dev :=
  let r := (domAt s d).rec_
  let seq := (q.syncSeq + 1) % 65536
  let flags := if r.oneStep then 0 else 0x0200
  queueFrame p ⟨.event d 0 seq, ptpFrame s p true none
      (ptpMsg 0 r.ptpDomain flags 0 (ownUid s) (p + 1) seq 0 r.logSync (List.replicate 10 0))⟩
    (setPtp d p { q with syncSeq := seq, syncAt := some s.raw } s)

/-- PTP_SYNC_SEND (R270). -/
def runPtpSyncSend (t : Time) (p d : Nat) (s : Dev) : Host.Outcome Dev Fault Refusal :=
  let s := upTo t s
  .next (match ptpIn s p d 1 with
    | some q => if elapsed s q.syncAt (logTime (domAt s d).rec_.logSync) then sendSync p d q s else s
    | none => s)

/-- The dataset a domain announces: its own, or that of the master it follows one step further. -/
def announced (s : Dev) (x : Dom) : Dataset :=
  match slavePort x with
  | some p =>
    match (tget x.ports p).bind fun q => q.best x.rec_ s.raw with
    | some b => { b with steps := b.steps + 1 }
    | none => ownDataset s x
  | none => ownDataset s x

/-- An Announce is queued. -/
def sendAnnounce (p d : Nat) (q : PtpPort) (s : Dev) : Dev :=
  let x := domAt s d
  let a := announced s x
  let seq := (q.annSeq + 1) % 65536
  let body := List.replicate 10 (0 : Byte) ++ beBytes 2 0 ++ [0, BitVec.ofNat 8 a.priority1, BitVec.ofNat 8 a.clockClass,
    BitVec.ofNat 8 a.clockAccuracy] ++ beBytes 2 a.variance ++ [BitVec.ofNat 8 a.priority2] ++ beBytes 8 a.gmId ++ beBytes 2 a.steps ++ [0xA0]
  queueFrame p ⟨.control, ptpFrame s p false none (ptpMsg 0xB x.rec_.ptpDomain 0x0008 0 (ownUid s) (p + 1) seq 5 x.rec_.logAnnounce body)⟩
    (setPtp d p { q with annSeq := seq, annAt := some s.raw } s)

/-- PTP_ANNOUNCE_SEND (R270). -/
def runPtpAnnounceSend (t : Time) (p d : Nat) (s : Dev) : Host.Outcome Dev Fault Refusal :=
  let s := upTo t s
  .next (match ptpIn s p d 1 with
    | some q => if elapsed s q.annAt (logTime (domAt s d).rec_.logAnnounce) then sendAnnounce p d q s else s
    | none => s)

/-- A Delay_Req is queued by multicast; t3 is taken at egress. -/
def sendDelayReq (p d : Nat) (q : PtpPort) (s : Dev) : Dev :=
  let r := (domAt s d).rec_
  let seq := (q.reqSeq + 1) % 65536
  queueFrame p ⟨.event d 1 seq, ptpFrame s p true none
      (ptpMsg 1 r.ptpDomain 0 0 (ownUid s) (p + 1) seq 1 0x7F (List.replicate 10 0))⟩
    (setPtp d p { q with reqSeq := seq, reqAt := some s.raw } s)

/-- PTP_DELAY_REQ_SEND (R269). -/
def runPtpDelayReqSend (t : Time) (p d : Nat) (s : Dev) : Host.Outcome Dev Fault Refusal :=
  let s := upTo t s
  .next (match ptpIn s p d 3 with
    | some q => if elapsed s q.reqAt (logTime (domAt s d).rec_.logDelay) then sendDelayReq p d q s else s
    | none => s)

/-- HOLDOVER_ENTER (R271): no qualified master is heard any longer. -/
def runHoldoverEnter (t : Time) (d : Nat) (s : Dev) : Host.Outcome Dev Fault Refusal :=
  let s := upTo t s
  let x := domAt s d
  .next (if d < 2 ∧ x.rec_.source = 1 ∧ (x.servo = 1 ∨ x.servo = 2) ∧ (bestMaster x s.raw).isNone then
      selectMaster d (enterHoldover d s)
    else s)

/-- What egress at the captured instant `c` makes of a PTP event message (R266, R270): a two-step Sync sends its Follow_Up, a Delay_Req keeps t3. Answers the
message's bytes as sent: a one-step Sync carries its origin time. -/
def eventEgress (p d msg seq : Nat) (c : Time) (bytes : List Byte) (s : Dev) : Dev × List Byte :=
  let r := (domAt s d).rec_
  let t := egress s p d c
  if msg = 0 then
    if r.oneStep then
      let at' := udpAt (bit (portAt s p).rec_.vlan 15) + 34
      (s, bytes.take at' ++ ptpTime t ++ bytes.drop (at' + 10))
    else
      (queueFrame p ⟨.control, ptpFrame s p false none
        (ptpMsg 8 r.ptpDomain 0 (t % 65536) (ownUid s) (p + 1) seq 2 r.logSync (ptpTime t))⟩ s, bytes)
  else
    match tget (domAt s d).ports p with
    | some q => (setPtp d p { q with req := some (seq, t) } s, bytes)
    | none => (s, bytes)

/-- TIM's port constants. -/
def latView (s : Dev) (off : Nat) : Option Word :=
  if 0xC0100 ≤ off ∧ off < 0xC0200 ∧ off % 16 = 12 then
    let l := latOf (portAt s ((off - 0xC0100) / 16)).rec_
    some (BitVec.ofNat 32 (l.1 + 65536 * l.2))
  else none

end Sys2Proof.Machine
end

