-- ==== Sys2Proof/Machine/Tx.lean ====
section
/-! DEFINITION. How a port sends: what may start when, preemption, the guard of a sync, and what an ended frame counts (R189-R194,
R245, R246). -/

namespace Sys2Proof.Machine

/-- Bytes of a frame from destination to FCS. -/
def TxFrame.len (f : TxFrame) : Nat := max 60 f.bytes.length + 4

/-- Is a pause in force (R248)? -/
def Port.paused (p : Port) (now : Time) : Bool :=
  match p.pauseEnd with
  | some e => decide (now < e)
  | none => false

/-- The syncs that a port still owes for frames whose C_N is past: the guard of R190 is in force for them. -/
def guards (s : Dev) (port : Nat) : List (Nat × Int × Int) :=
  (portAt s port).syncFor.filter fun e => decide (e.2.2 - (us 50 : Nat) ≤ paceNow s e.1)

/-- Is a launched sync still waiting? -/
def syncWaits (p : Port) : Bool :=
  p.express.any fun f =>
    match f.tag with
    | .sync _ _ _ => true
    | _ => false

/-- May a preemptable frame (or remainder) of `k` bytes start: its last byte leaves by T_N − 0.1 µs of every guarded frame, and no
launched sync waits. -/
def guardOk (s : Dev) (port k : Nat) : Bool :=
  let d := (portAt s port).rec_.bytes (k + 8)
  !syncWaits (portAt s port) && (guards s port).all fun e => decide (paceNow s e.1 + (d : Int) ≤ e.2.2 - (ns 100 : Nat))

/-- May an express frame start: a launched sync may; another not in the 2 µs before a sync, nor while it waits. -/
def expressOk (s : Dev) (port : Nat) (f : TxFrame) : Bool :=
  match f.tag with
  | .sync _ _ _ => true
  | _ => (portAt s port).syncFor.all fun e => decide (paceNow s e.1 < e.2.2 - (us 2 : Nat))

/-- Has a show frame's window come? -/
def opened (s : Dev) (f : TxFrame) : Bool :=
  match f.tag with
  | .show_ _ k _ _ _ o _ _ => decide (o ≤ paceNow s k)
  | _ => true

/-- Is it too late to start a show frame (R192)? -/
def expired (s : Dev) (f : TxFrame) : Bool :=
  match f.tag with
  | .show_ _ k _ sync _ _ tick next => if sync then decide (tick ≤ paceNow s k) else decide (next ≤ paceNow s k)
  | _ => false

/-- Frames that can no longer start are discarded and counted. -/
def dropLate (port : Nat) (s : Dev) : Dev :=
  let p := portAt s port
  let n := (p.queue.filter (expired s)).length
  if n = 0 then s
  else bumpBy (R.PKT_TXP_LATE_DROPS port) n (setPort port { p with queue := p.queue.filter fun f => !expired s f } s)

/-- The frame of the preemptable queue that starts: the heads of rows 3 to 6 are offered in order (R245). -/
def pickQueued (s : Dev) (port : Nat) : Option TxFrame :=
  let q := (portAt s port).queue.filter (opened s)
  ([3, 4, 5, 6].filterMap fun r => q.find? fun f => f.tag.row == r).find? fun f => guardOk s port f.len

/-- The sequence number and PTP timestamp of a frame as it starts (R194, R266). -/
def stamp (port : Nat) (f : TxFrame) (start : Time) (s : Dev) : Dev × TxFrame :=
  let sfd := start + (portAt s port).rec_.bytes 8
  let data (key : Nat) : Dev × TxFrame :=
    match sender s key with
    | some (u, _) =>
      let seq := (u.seq + 1) % 256
      (modSender key (fun u => { u with seq := seq }) s, { f with bytes := f.bytes.set (udpAt u.tagged + seqAt) (BitVec.ofNat 8 seq) })
    | none => (s, f)
  match f.tag with
  | .show_ key _ n _ _ _ _ _ =>
    let (s, f) := data key
    (passSeq key n (((sender s key).map (·.1.seq)).getD 0) s, f)
  | .site key =>
    let (s, f) := data key
    match sender s key with
    | some (u, _) => (passSeq key ((u.tickK : Int) - 1) u.seq s, f)
    | none => (s, f)
  | .event d m q =>
    let (s, b) := eventEgress port d m q sfd f.bytes s
    (s, { f with bytes := b })
  | _ => (s, f)

/-- A frame goes on the wire at an instant. -/
def startFrame (port : Nat) (f : TxFrame) (express : Bool) (start : Time) (s : Dev) : Dev :=
  let (s, f) := stamp port f start s
  modPort port (fun p =>
    { p with wire := some { frame := f, express := express, start := start, done := start + p.rec_.bytes (8 + f.len), sent := 0,
                            frags := 0 } }) s

/-- The express frame that may start now. -/
def expressHead (s : Dev) (port : Nat) : Option TxFrame :=
  match (portAt s port).express with
  | f :: _ => if expressOk s port f then some f else none
  | [] => none

/-- The frame on the wire may be preempted now (R246): 60 bytes of its fragment have gone out, 64 are still to go. Answers the bytes
of the fragment sent. -/
def splitAt (s : Dev) (port : Nat) (w : Wire) : Option Nat :=
  let p := portAt s port
  let gone := (s.raw - w.start) * p.rec_.rate / (8 * 65536 * 1000000000) - 8
  if p.verify = 3 ∧ !w.express ∧ !p.paused s.raw ∧ 60 ≤ gone ∧ w.sent + gone + 64 ≤ w.frame.len then some gone else none

/-- The remainder of a preempted frame goes on. -/
def resumeFrame (port : Nat) (f : TxFrame) (sent frags : Nat) (s : Dev) : Dev :=
  modPort port (fun p =>
    { p with held := none, wire := some { frame := f, express := false, start := s.raw, sent := sent, frags := frags,
                                          done := s.raw + p.rec_.bytes (8 + f.len - sent) } }) s

/-- What starts on an idle port: an express frame, or, with the express queue empty, the held remainder or the preemptable queue. A PTP
event message that R190 holds back stays in the express queue, so nothing preemptable starts before it (log 33). -/
def startNext (port : Nat) (s : Dev) : Dev :=
  match expressHead s port with
  | some f => startFrame port f true s.raw (modPort port (fun p => { p with express := p.express.tail }) s)
  | none =>
    if (portAt s port).express ≠ [] then s else
    match (portAt s port).held with
    | some (f, sent, frags) => if guardOk s port (f.len - sent) then resumeFrame port f sent frags s else s
    | none =>
      match pickQueued s port with
      | some f => startFrame port f false s.raw (modPort port (fun p => { p with queue := p.queue.erase f }) s)
      | none => s

/-- A frame starts on a port (R245). On a busy port an express frame preempts the one on the wire where R246 allows it; it starts
after the mCRC and the inter-frame gap. -/
def txStart (port : Nat) (s : Dev) : Dev :=
  let s := dropLate port s
  let p := portAt s port
  if p.link ≠ 2 ∨ p.paused s.raw then s
  else
    match p.wire with
    | none => if p.ready ≤ s.raw then startNext port s else s
    | some w =>
      match expressHead s port, splitAt s port w with
      | some f, some gone =>
        startFrame port f true (s.raw + p.rec_.bytes 16)
          (setPort port { p with express := p.express.tail, wire := none, held := some (w.frame, w.sent + gone, w.frags + 1) } s)
      | _, _ => s

/-- TX_FRAME_START (R189-R191, R245). -/
def runTxFrameStart (t : Time) (port : Nat) (s : Dev) : Host.Outcome Dev Fault Refusal :=
  let s := upTo t s
  .next (if timeRuns s && decide (port < 17) then txStart port s else s)

/-- SEND_LATE at most once per 1 s per port. -/
def postLate (port univ : Nat) (s : Dev) : Dev :=
  let p := portAt s port
  if (match p.lateAt with | some v => decide (v + sec 1 ≤ s.raw) | none => true) then
    postCode 0x21 3 0x30 (port * 2 ^ 32 + univ % 32768) (setPort port { p with lateAt := some s.raw } s)
  else s

/-- Lateness and slack of a sync-mode packet that has ended (R192). -/
def judgeSync (port key pace : Nat) (tick : Int) (s : Dev) : Dev :=
  let left := tick - (us 50 : Nat) - paceNow s pace
  if left < 0 then postLate port key (bump (R.PKT_TXP_LATE port) (modPort port (fun p => { p with slack := some 0 }) s))
  else modPort port (fun p => { p with slack := some (min 0xFFFF (left / ((us 1 : Nat) : Int)).toNat) }) s

/-- What an ended frame counts in PKT. -/
def countSent (port : Nat) (w : Wire) (s : Dev) : Dev :=
  match w.frame.tag with
  | .show_ key pace n sync term _ tick _ =>
    let s := bump (R.PKT_TXP_PACKETS port) (modSender key (fun u => { u with lastSent := n }) s)
    let s := if term then bump (R.PKT_TXP_TERMINATED port) s else s
    clearGhosts (if sync then judgeSync port key pace tick s else s)
  | .site key =>
    let term := bit ((w.frame.bytes.getD (udpAt (((sender s key).map (·.1.tagged)).getD false) + optAt) 0).toNat) 6
    let s := bump (R.PKT_TXP_PACKETS port) s
    clearGhosts (if term then bump (R.PKT_TXP_TERMINATED port) s else s)
  | .sync pace _ tick =>
    let ago : Int := ((s.raw - w.start : Nat) : Int)
    let s := bump (R.PKT_TXP_SYNCS port) s
    if tick + (us 1 : Nat) < paceNow s pace - ago then bump (R.PKT_TXP_LATE port) s else s
  | _ => s

/-- The frame on the wire has ended (R254). -/
def txEnd (port : Nat) (s : Dev) : Dev :=
  let p := portAt s port
  match p.wire with
  | none => s
  | some w =>
    if s.raw < w.done then s
    else
      let p := ((p.add cTxFrames 1).add cTxBytes w.frame.len)
      let p := if w.express then p.add cTxExpress 1 else p
      let p := if 0 < w.frags then p.add cTxPreempted 1 else p
      let s := setPort port { p with wire := none, ready := w.done + p.rec_.bytes 12 } s
      countSent port w (emit (.frame port w.frame.bytes) s)

/-- TX_FRAME_END (R254). -/
def runTxFrameEnd (t : Time) (port : Nat) (s : Dev) : Host.Outcome Dev Fault Refusal :=
  let s := upTo t s
  .next (if decide (port < 17) then txEnd port s else s)

end Sys2Proof.Machine
end

