-- ==== Sys2Proof/Machine/Site.lean ====
section
/-! DEFINITION. The site policy engine (chapter 12, R292-R307): zones, sensors, telemetry, and the ticks of site universes. Input
events stand here too, since each may turn a zone's override on or off (R303). -/

namespace Sys2Proof.Machine

/-- SITE posts (R306): zone in [11:0], sensor in [31:16], 0xFFFF for none. -/
def postSite (typ code z sensor : Nat) (s : Dev) : Dev := postCode 0x26 typ code (z + 65536 * sensor) s

/-- A zone. -/
def zoneAt (s : Dev) (z : Nat) : Option Zone := tget s.site.zones z

/-- Replace a zone. -/
def setZone (z : Nat) (x : Zone) (s : Dev) : Dev := { s with site.zones := tput s.site.zones z x }

/-! Records (R292-R294) -/

/-- The zone a record describes. -/
def zoneOf (r : List Byte) : Zone :=
  { occ := at_ r 2 2, vac := at_ r 4 2, holdS := at_ r 6 2, upMs := at_ r 8 2, downMs := at_ r 10 2, target := at_ r 12 2,
    gain := at_ r 14 2, cycleMs := (if at_ r 16 2 = 0 then 100 else at_ r 16 2),
    ovrInput := (if at_ r 20 2 = 0xFFFF then none else some (at_ r 20 2)), ovrSlot := at_ r 22 2, ovrPrio := at_ r 24 1 }

/-- The ranges of a zone record. -/
def zoneRange (r : List Byte) (x : Zone) : Bool :=
  decide (x.vac ≤ x.occ ∧ 1 ≤ x.holdS ∧ 1 ≤ x.gain ∧ x.gain ≤ 0x400 ∧ 10 ≤ x.cycleMs ∧ x.cycleMs ≤ 1000 ∧ at_ r 18 1 ≤ 15 ∧
    at_ r 19 1 ≤ 1 ∧ x.ovrPrio ≤ 200) && at_ r 25 1 == 0 && at_ r 28 4 == 0 && inboxOk (at_ r 26 2) &&
    (match x.ovrInput with
      | some _ => decide (1 ≤ x.ovrSlot ∧ x.ovrSlot ≤ 512)
      | none => x.ovrSlot == 0)

/-- Number of the first CYCLE instant after now: every C ms from the epoch of domain A (R298). -/
def cycleAfter (s : Dev) (c : Nat) : Int := domTime s 0 / (ms c : Nat) + 1

/-- A zone at its creation (R299, R302): in OCCUPIED at OCC_LEVEL with a full hold, or in VACANT at VAC_LEVEL; a TARGET_LUX
starts the loop's first episode. -/
def Zone.born (x : Zone) (s : Dev) (occupied : Bool) : Zone :=
  let lvl := if occupied then x.occ else x.vac
  { x with
    st := (if occupied then 1 else 0)
    h := x.holdS * 1000
    holdEnd := (if occupied then some (siteNow s + sec x.holdS) else none)
    p := { a := lvl, b := lvl, at_ := siteNow s, dur := 0 }
    nextCycle := cycleAfter s x.cycleMs
    luxAt := some (siteNow s)
    episode := x.target != 0
    changed := siteNow s }

/-- The new record of a zone in force (MODIFY): presence, hold, level and loop go on; a changed TARGET_LUX starts an episode
(R302). -/
def Zone.renew (y x : Zone) (s : Dev) : Zone :=
  let y' : Zone :=
    { y with occ := x.occ, vac := x.vac, holdS := x.holdS, upMs := x.upMs, downMs := x.downMs, target := x.target, gain := x.gain,
             cycleMs := x.cycleMs, ovrInput := x.ovrInput, ovrSlot := x.ovrSlot, ovrPrio := x.ovrPrio }
  let y' := if y.cycleMs = x.cycleMs then y' else { y' with nextCycle := cycleAfter s x.cycleMs }
  if y.target = x.target then y' else { y' with episode := x.target != 0, cycles := 0, small := 0, sign := 0, flipped := false }

/-- The check of a zone record. -/
def zonePlan (s : Dev) (c : Ctx) (r : List Byte) : Check := do
  let x := zoneOf r
  require (indexOk c (at_ r 0 2) 0xFFFF) rcOutOfRange
  require (zoneRange r x) rcOutOfRange
  require (match x.ovrInput with | some i => thas s.outp.inputs i | none => true) rcOutOfRange
  pure { charges := [(8, cdiv 1000 x.cycleMs)], refs := (x.ovrInput.map (okey 3)).toList
         install := fun h s => do
           let s ← createTask (36864 + c.idx) 0x26 0 false false h (levelOf c.cls c.prio) (inboxLimit (at_ r 26 2)) s
           pure (setZone c.idx (x.born s (at_ r 19 1 == 1)) s) }

/-- The sensor a record describes. -/
def sensorOf (r : List Byte) (now : Time) : Sensor :=
  let rate := if at_ r 20 2 = 0 then 2 else at_ r 20 2
  { zone := at_ r 4 4 % 2 ^ 20, rdm := at_ r 8 1 == 1, daylight := at_ r 9 1 == 1, channel := at_ r 10 1, line := at_ r 11 1,
    ident := at_ r 12 8, rate := rate, scale := sgn 8 (at_ r 22 1), credit := 4 * sec 1, creditAt := now, born := now,
    pollAt := now }

/-- The ranges of a sensor record. -/
def sensorRange (r : List Byte) (x : Sensor) : Bool :=
  decide (at_ r 8 1 ≤ 1 ∧ at_ r 9 1 ≤ 1 ∧ 1 ≤ x.rate ∧ x.rate ≤ 1000 ∧ at_ r 23 1 = 0) &&
    (if x.rdm then decide (x.channel ≤ 254 ∧ x.line ≤ 1 ∧ x.ident < 2 ^ 48) else decide (x.channel ≤ 3 ∧ x.line = 0)) &&
    (if x.rdm && x.daylight then decide (-3 ≤ x.scale ∧ x.scale ≤ 3) else decide (x.scale = 0))

/-- Is a site universe assigned to a DMX line? -/
def lineUniv (s : Dev) (line : Nat) : Option (Nat × Univ) := s.outp.univs.find? fun e => e.2.dest == 16 + line

/-- The check of a sensor record. -/
def sensorPlan (s : Dev) (c : Ctx) (r : List Byte) : Check := do
  let x := sensorOf r s.raw
  let zh : Word := BitVec.ofNat 32 (at_ r 4 4)
  require (indexOk c (at_ r 0 4) 0xFFFFFFFF) rcOutOfRange
  require (sensorRange r x) rcOutOfRange
  require (hKind zh == 8 && (objOf s zh).isSome) rcBadHandle
  require (!x.rdm || (lineUniv s x.line).isSome) rcOutOfRange
  match s.site.sensors.find? fun e =>
      e.1 != c.idx && e.2.rdm == x.rdm && e.2.ident == x.ident && e.2.channel == x.channel && e.2.line == x.line with
  | some e => refuseBy rcConflict (handleOf s (okey 9 e.1))
  | none => pure ()
  pure { charges := [(8, x.rate)], refs := [okey 8 x.zone]
         install := fun _ s => some { s with site.sensors := tput s.site.sensors c.idx x } }

/-- The site record (R294); false: it names a disabled port. -/
def siteRecord (r : List Byte) (s : Dev) : Dev × Bool :=
  let ports := at_ r 0 2
  if r.length = 8 ∧ at_ r 2 6 = 0 ∧ (List.range 16).all (fun p => !bit ports p || portOn s p) then
    (setFld F.SITE_TEL_PORTS_PORTS ports s, true)
  else (s, false)

/-! Levels (R299, R300, R303) -/

/-- The duration of a fade between two levels (R300). -/
def Zone.fade (x : Zone) (a b : Nat) : Time :=
  if x.occ = x.vac then 0
  else if a ≤ b then ms x.upMs * (b - a) / (x.occ - x.vac)
  else ms x.downMs * (a - b) / (x.occ - x.vac)

/-- P begins a fade to a level; the change time is the start of the fade. -/
def Zone.fadeTo (x : Zone) (now : Time) (b : Nat) : Zone :=
  let a := x.p.level now
  { x with p := { a := a, b := b, at_ := now, dur := x.fade a b }, changed := now }

/-- The override's level while it is active (R303). -/
def ovrNow (s : Dev) (x : Zone) : Option Nat :=
  (x.ovrInput.bind (inputAt s)).bind fun u =>
    if u.winPrio < x.ovrPrio then none else (tget u.merged x.ovrSlot).map fun e => e.1 * 257

/-- The override of a RUNNING zone is evaluated: each change is posted; at its end Z fades back to the computed level. -/
def zoneOverride (z : Nat) (s : Dev) : Dev :=
  match zoneAt s z with
  | none => s
  | some x =>
    if !isRunning s (okey 8 z) || x.keep.isSome then s
    else
      let now := siteNow s
      match x.ovr, ovrNow s x with
      | none, none => s
      | none, some v => postSite 1 0x04 z 0xFFFF (setZone z { x with ovr := some v, back := none, changed := now } s)
      | some a, some v => if a = v then s else setZone z { x with ovr := some v, changed := now } s
      | some a, none =>
        let b := zoneComputed s z x now
        postSite 1 0x05 z 0xFFFF (setZone z { x with ovr := none, back := some (a, now, x.fade a b), changed := now } s)

/-- Every zone's override. -/
def allOverrides (s : Dev) : Dev := s.site.zones.foldl (fun s e => zoneOverride e.1 s) s

/-- Z of a zone stands still from now on: it is held (R305) or stopped. -/
def freezeZone (z : Nat) (s : Dev) : Dev :=
  match zoneAt s z with
  | some x =>
    setMask (36864 + z) 0
      (setZone z { x with keep := some (match x.keep with | some v => v | none => zoneZ s z x (siteNow s)) } s)
  | none => s

/-! The zone's work (R298-R302) -/

/-- A presence trigger. -/
def zoneTrigger (z sensor : Nat) (s : Dev) : Dev :=
  match zoneAt s z with
  | none => s
  | some x =>
    let now := siteNow s
    match x.st with
    | 0 =>
      let x := { x.fadeTo now x.occ with st := 1, holdEnd := some (now + ms x.h), vacantFrom := none }
      postSite 1 0x01 z sensor (setZone z x s)
    | 1 => setZone z { x with holdEnd := some (now + ms x.h) } s
    | _ =>
      let h := min (x.h * 3 / 2) (4 * (x.holdS * 1000))
      let x := { x.fadeTo now x.occ with st := 1, h := h, holdEnd := some (now + ms h) }
      postSite 1 0x03 z sensor (bump R.SITE_HOLD_EXTENSIONS (setZone z x s))

/-- Illuminance of a report in units of 1/16,000 lux: telemetry counts sixteenths, RDM value × 10^SCALE lux. -/
def Sensor.lux (x : Sensor) (v : Nat) : Int :=
  if x.rdm then sgn 32 v * 16 * (10 ^ (x.scale + 3).toNat : Nat) else (v : Int) * 1000

/-- A report reaches the zone. -/
def zoneReport (z sensor v : Nat) (s : Dev) : Dev :=
  match tget s.site.sensors sensor with
  | none => s
  | some e =>
    if e.daylight then
      match zoneAt s z with
      | some x =>
        setZone z { x with luxSum := x.luxSum + e.lux v, luxN := x.luxN + 1, luxAt := some (siteNow s), stale := false } s
      | none => s
    else if v = 0 then s
    else zoneTrigger z sensor s

/-- EXPIRY: an OCCUPIED zone whose hold has ended begins to fade down. -/
def zoneExpiry (z : Nat) (s : Dev) : Dev :=
  match zoneAt s z with
  | some x =>
    if x.st == 1 && (match x.holdEnd with | some e => decide (e ≤ siteNow s) | none => false) then
      setZone z { x.fadeTo (siteNow s) x.vac with st := 2, holdEnd := none } s
    else s
  | none => s

/-- |num ÷ den| compared with a percentage. -/
def within (num : Int) (den percent : Nat) : Bool := decide (num.natAbs * 100 ≤ den * percent)

/-- The trim at the end of an episode of `n` cycles (R302). -/
def trimNext (trim n : Nat) (flipped : Bool) : Nat :=
  let t := if flipped then trim - 5 else if 5 < n then trim + 5 else if n < 5 then trim - 5 else trim
  max 75 (min 125 t)

/-- The settling episode sees one run with error num ÷ den (R302). -/
def zoneEpisode (z : Nat) (x : Zone) (num : Int) (den : Nat) (s : Dev) : Dev :=
  if !x.episode then
    if within num den 10 then setZone z x s
    else setZone z { x with episode := true, cycles := 0, small := 0, sign := num.sign, flipped := false } s
  else
    let big := !within num den 5
    let x := { x with cycles := x.cycles + 1, small := (if within num den 2 then x.small + 1 else 0),
                      flipped := x.flipped || (big && x.sign != 0 && x.sign != num.sign),
                      sign := (if big then num.sign else x.sign) }
    if x.small < 2 then setZone z x s
    else
      let n := x.cycles - 1
      let trim := trimNext x.trim n x.flipped
      let s := setZone z { x with episode := false, trim := trim, settle := min n 255 } s
      if trim ≠ x.trim ∧ (trim = 75 ∨ trim = 125) then postSite 0xB 0x07 z 0xFFFF s else s

/-- The daylight loop at a CYCLE (R301). -/
def zoneLoop (z : Nat) (s : Dev) : Dev :=
  match zoneAt s z with
  | none => s
  | some x =>
    if !hasLoop s z x then s
    else
      let now := siteNow s
      let x := if x.luxN = 0 then x else { x with eNum := x.luxSum, eDen := x.luxN, luxSum := 0, luxN := 0 }
      if x.stale then setZone z x s
      else if (match x.luxAt with | some v => decide (v + ms (10 * x.cycleMs) ≤ now) | none => true) then
        postSite 0xB 0x06 z 0xFFFF (setZone z { x with stale := true, d := { a := 65535, b := 65535, at_ := now, dur := 0 }, changed := now } s)
      else if x.st = 0 then setZone z x s
      else
        let den := x.target * 16000 * x.eDen
        let num := max (-(den : Int)) (min (den : Int) ((den : Int) - x.eNum))
        let step := roundDiv ((x.trim * x.gain * 65535 : Nat) * num) (25600 * den)
        let d := (max 0 (min 65535 ((x.d.b : Int) + step))).toNat
        zoneEpisode z { x with d := { a := x.d.level now, b := d, at_ := now, dur := ms x.cycleMs } } num den s

/-- What a dispatch of a zone's task does: the item, then EXPIRY, then CYCLE (R298). -/
def zoneWork (z seen : Nat) (item : Option Nat) (s : Dev) : Dev :=
  let s := match item with
    | some i => zoneReport z (i / 2 ^ 32 % 65536) (i % 2 ^ 32) s
    | none => s
  let s := if bit seen 2 then zoneExpiry z s else s
  if bit seen 1 then zoneLoop z s else s

/-! The commands that drive a zone -/

/-- Does the site engine run: from CONFIGURE on, but not in STANDBY and not in HOLD (R305). -/
def siteRuns (s : Dev) : Bool := timeRuns s && s.sys.mode != .standby && s.sys.mode != .hold

/-- A CYCLE instant of a RUNNING zone: from its first one (R79) its task runs; the flag is posted. -/
def zoneCycle (z : Nat) (s : Dev) : Dev :=
  match zoneAt s z, objAt s (okey 8 z) with
  | some x, some o =>
    let at' := x.nextCycle * (ms x.cycleMs : Nat)
    let next := cycleAfter s x.cycleMs
    if domTime s 0 < at' then setZone z { x with nextCycle := min x.nextCycle next } s
    else
      let s := setZone z { x with nextCycle := next } s
      if o.state = 2 ∧ (o.startAt : Int) ≤ at' then
        let s := if x.keep.isSome then setZone z { x with nextCycle := next, keep := none } s else s
        postFlags (36864 + z) 2 (setMask (36864 + z) 7 (zoneOverride z s))
      else s
  | _, _ => s

/-- ZONE_CYCLE (R298). -/
def runZoneCycle (t : Time) (z : Nat) (s : Dev) : Host.Outcome Dev Fault Refusal :=
  let s := upTo t s
  .next (if siteRuns s then zoneCycle z s else s)

/-- HOLD_EXPIRY (R298). -/
def runHoldExpiry (t : Time) (z : Nat) (s : Dev) : Host.Outcome Dev Fault Refusal :=
  let s := upTo t s
  .next (match zoneAt s z with
    | some x =>
      if siteRuns s && x.st == 1 && (match x.holdEnd with | some e => decide (e ≤ s.raw) | none => false) then
        postFlags (36864 + z) 4 s
      else s
    | none => s)

/-- ZONE_VACANT (R299). -/
def runZoneVacant (t : Time) (z : Nat) (s : Dev) : Host.Outcome Dev Fault Refusal :=
  let s := upTo t s
  .next (match zoneAt s z with
    | some x =>
      if siteRuns s && x.st == 2 && decide (x.p.at_ + x.p.dur ≤ s.raw) then
        postSite 1 0x02 z 0xFFFF (setZone z { x with st := 0, vacantFrom := some (x.p.at_ + x.p.dur) } s)
      else s
    | none => s)

/-- ZONE_HOLD_RESET (R299). -/
def runZoneHoldReset (t : Time) (z : Nat) (s : Dev) : Host.Outcome Dev Fault Refusal :=
  let s := upTo t s
  .next (match zoneAt s z with
    | some x =>
      if siteRuns s && x.st == 0 && (match x.vacantFrom with | some v => decide (v + sec x.holdS ≤ s.raw) | none => false) then
        setZone z { x with h := x.holdS * 1000, vacantFrom := none } s
      else s
    | none => s)

/-! Telemetry (R295, R296) -/

/-- Credit of a sensor's token bucket now: RATE per second, depth 4, in rate × time. -/
def Sensor.tokens (x : Sensor) (now : Time) : Nat := min (4 * sec 1) (x.credit + x.rate * (now - x.creditAt))

/-- An accepted value: kept as the sensor's last value and pushed to its zone's inbox. -/
def sensorAccept (i : Nat) (x : Sensor) (v : Nat) (s : Dev) : Dev :=
  pushItem (36864 + x.zone) (i * 2 ^ 32 + v % 2 ^ 32)
    { s with site.sensors := tput s.site.sensors i { x with value := v % 2 ^ 32, heard := some s.raw } }

/-- One report. A sensor and its zone must be RUNNING or HELD to be matched. -/
def telReport (source typ channel v : Nat) (s : Dev) : Dev :=
  match s.site.sensors.find? fun e =>
      !e.2.rdm && e.2.ident == source && e.2.channel == channel && isLive s (okey 9 e.1) && isLive s (okey 8 e.2.zone) with
  | none => bump R.SITE_TEL_UNMATCHED s
  | some (i, x) =>
    if typ ≠ (if x.daylight then 2 else 1) then bump R.SITE_TEL_UNMATCHED s
    else if x.tokens s.raw < sec 1 then bump R.SITE_TEL_RATE_DROPS s
    else
      bump R.SITE_TEL_REPORTS (sensorAccept i { x with credit := x.tokens s.raw - sec 1, creditAt := s.raw } v s)

/-- A telemetry datagram against the rows of R296. -/
def telDatagram (b : List Byte) (s : Dev) : Dev :=
  let n := at_ b 1 1
  let seq := at_ b 2 2
  let source := at_ b 4 8
  if b.length ≠ 12 + 8 * n ∨ n = 0 then bump R.SITE_TEL_LEN_DROPS s
  else if at_ b 0 1 ≠ 1 then bump R.SITE_TEL_BAD s
  else if (match tget s.site.seqs source with
      | some last => decide (-32 ≤ sgn 16 (seq + 65536 - last) ∧ sgn 16 (seq + 65536 - last) ≤ 0)
      | none => false) then bump R.SITE_TEL_SEQ_DROPS s
  else
    (List.range n).foldl (fun s i => telReport source (at_ b (12 + 8 * i) 1) (at_ b (13 + 8 * i) 1) (at_ b (16 + 8 * i) 4) s)
      { s with site.seqs := tput s.site.seqs source seq }

/-- TELEMETRY_DATAGRAM_RX (R296): `ip` is the datagram's destination address. -/
def runTelemetryDatagramRx (t : Time) (port ip : Nat) (bytes : List Byte) (s : Dev) : Host.Outcome Dev Fault Refusal :=
  let s := upTo t s
  .next (if port < 16 ∧ bit (fld s F.SITE_TEL_PORTS_PORTS) port ∧ ip = (portAt s port).rec_.ipv4 then
      (if s.sys.mode = .hold then bump R.SYS_HOLD_DROPS s else if siteRuns s then telDatagram bytes s else s)
    else s)

/-! Input events -/

/-- E131_PACKET_RX (R161). -/
def runE131PacketRx (t : Time) (port : Nat) (p : E131Pkt) (s : Dev) : Host.Outcome Dev Fault Refusal :=
  let s := upTo t s
  .next (if timeRuns s && decide (port < 16) then allOverrides (e131Rx port p s) else s)

/-- SOURCE_LOST (R164): 2.5 s since the last accepted packet of a source. -/
def runSourceLost (t : Time) (i pos : Nat) (s : Dev) : Host.Outcome Dev Fault Refusal :=
  let s := upTo t s
  .next (match inputAt s i with
    | some u =>
      match tget u.srcs pos with
      | some e => if e.heard + ms 2500 ≤ inNow s u then allOverrides (loseSource i pos s) else s
      | none => s
    | none => s)

/-- INPUT_RELEASED (R164). -/
def runInputReleased (t : Time) (i : Nat) (s : Dev) : Host.Outcome Dev Fault Refusal :=
  let s := upTo t s
  .next (match inputAt s i with
    | some u => if releaseDue s u then allOverrides (releaseInput i s) else s
    | none => s)

/-! Site-class universes (R199) -/

/-- The dispatch of a site universe's task: its fixtures are computed for its tick and the payload goes out. -/
def siteUnivWork (i : Nat) (s : Dev) : Dev :=
  match tget s.outp.univs i with
  | none => s
  | some u =>
    let (s, slots) := runUniverse i u.slots u.frame (siteTickAt u u.frame.toNat) u.latchAt s
    let s := { s with outp.univs := tmod s.outp.univs i fun u =>
      { u with prev := u.payload, payload := slots, payFrame := some u.frame } }
    sendSite i u false slots s

/-- A site tick of a universe of this device: a RUNNING one that has started is dispatched; a HELD one, or one in HOLD, repeats its
last payload; a stopped one sends a termination packet it owes. -/
def siteTick (i : Nat) (u : Univ) (s : Dev) : Dev :=
  let k := u.tickK
  let s := { s with outp.univs := tput s.outp.univs i { u with tickK := siteTickAfter u (domTime s 0) } }
  match objAt s (okey 2 i) with
  | none => s
  | some o =>
    if o.state = 4 ∨ (o.state = 2 ∧ s.sys.mode = .hold) then
      (if u.payFrame.isSome then sendSite i u false u.payload s else s)
    else if o.state = 2 ∧ (o.startAt : Int) ≤ siteTickAt u k ∧ siteRuns s then
      let s := { s with outp.univs := tmod s.outp.univs i fun u => { u with frame := k, latchAt := s.raw } }
      let s := postFlags i 6 s
      match tget s.sch.tasks i with
      | some tk =>
        if tk.queued && groupOk s tk then
          siteUnivWork i (dispatchTask i tk (setReady tk.exec tk.level ((readyAt s tk.exec tk.level).filter (· != i)) s))
        else s
      | none => s
    else if o.state = 3 ∧ u.terms ≠ 0 then
      sendSite i u true u.payload { s with outp.univs := tmod s.outp.univs i fun u => { u with terms := u.terms - 1 } }
    else s

/-- A site tick of a destroyed universe that owes termination packets. -/
def ghostTick (k : Nat) (u : Univ) (s : Dev) : Dev :=
  let s := modSender k (fun u => { u with tickK := siteTickAfter u (domTime s 0), terms := u.terms - 1 }) s
  clearGhosts (sendSite k u true u.payload s)

/-! The control-cycle chain (R304) -/

/-- Zones that the fixtures of a universe read. -/
def zonesOf (s : Dev) (i : Nat) : List Nat :=
  ((s.outp.fixtures.filter fun e => e.2.univ == i).flatMap fun e =>
    (e.2.sources.filter (·.kind == 3)).map (·.a)).eraseDups

/-- The delay chain of a universe in µs, rounded up. -/
def chainUs (s : Dev) (u : Univ) : Nat :=
  match u.canvas.bind (canvasAt s) with
  | some c => 2000 + cdiv ((c.timing.lead + 1) * c.timing.rateDen * 1000000) c.timing.rateNum
  | none =>
    if u.dmx then 3000 + cdiv 1000000 u.rate + 11400 + dmxPacketUs s (u.dest - 16) u.slots
    else 5000 + cdiv 1000000 u.rate

/-- The largest excess in µs of a universe's chain over the cycles of the zones it carries; none where it fits. -/
def chainExcess (s : Dev) (i : Nat) : Option Nat :=
  match tget s.outp.univs i with
  | none => none
  | some u =>
    let l := (zonesOf s i).filterMap fun z => (zoneAt s z).bind fun x =>
      if chainUs s u ≤ x.cycleMs * 1000 then none else some (chainUs s u - x.cycleMs * 1000)
    if l = [] then none else some (l.foldl max 0)

/-! Queries and derived registers (R307) -/

/-- Does a zone's loop run now? -/
def loopRuns (s : Dev) (z : Nat) (x : Zone) : Bool := hasLoop s z x && x.st != 0 && !x.stale

/-- Has a sensor been silent for 10 cycles of its zone? -/
def Sensor.stale (x : Sensor) (s : Dev) : Bool :=
  let c := ((zoneAt s x.zone).map (·.cycleMs)).getD 100
  decide ((x.heard.getD x.born) + ms (10 * c) ≤ siteNow s)

/-- Kind-specific bytes of QUERY for zones and sensors. -/
def zoneQuery (s : Dev) (z : Nat) : List Byte :=
  match zoneAt s z with
  | some x =>
    [BitVec.ofNat 8 x.st, BitVec.ofNat 8 ((if x.ovr.isSome then 1 else 0) + (if loopRuns s z x then 2 else 0))] ++
      leBytes 2 (zoneZ s z x (siteNow s)) ++ leBytes 2 (min 65535 (x.h / 1000)) ++ [BitVec.ofNat 8 x.trim, 0]
  | none => []

def sensorQuery (s : Dev) (i : Nat) : List Byte :=
  match tget s.site.sensors i with
  | some x => [if x.stale s then 1 else 0, 0, 0, 0] ++ leBytes 4 x.value
  | none => []

/-- SITE's registers that show the selected zone and sensor. -/
def siteView (s : Dev) (off : Nat) : Option Word :=
  let z := fld s F.SITE_ZONE_SEL_INDEX
  let x := zoneAt s z
  let e := tget s.site.sensors (fld s F.SITE_SENSOR_SEL_INDEX)
  let now := siteNow s
  let b (x : Bool) : Nat := if x then 1 else 0
  let zn (f : Zone → Nat) : Option Word := x.map fun x => BitVec.ofNat 32 (f x)
  let se (f : Sensor → Nat) : Option Word := e.map fun e => BitVec.ofNat 32 (f e)
  if off = R.SITE_ZONE_STATE then
    zn fun x => 1 + 2 * x.st + 8 * b x.ovr.isSome + 16 * b (loopRuns s z x) + 65536 * zoneZ s z x now
  else if off = R.SITE_ZONE_HOLD then
    zn fun x => min 65535 (x.h / 1000) +
      65536 * (match x.holdEnd with | some v => if x.st = 1 then min 65535 ((v - now) / sec 1) else 0 | none => 0)
  else if off = R.SITE_ZONE_DAY then
    zn fun x => (min 65535 (x.eNum / (16000 * (x.eDen : Int))).toNat) + 65536 * x.trim + 2 ^ 24 * x.settle
  else if off = R.SITE_ZONE_DLEVEL then zn fun x => x.d.level now + 65536 * x.p.level now
  else if off = R.SITE_SENSOR_STATE then
    se fun e => 1 + 2 * b e.rdm + 4 * b e.daylight + 8 * b (e.stale s) +
      65536 * (match e.heard with | some v => min 65535 ((now - v) / ms 100) | none => 65535)
  else if off = R.SITE_SENSOR_VALUE then se (·.value)
  else none

end Sys2Proof.Machine
end

