-- ==== Sys2Proof/Machine/Dmx.lean ====
section
/-! DEFINITION. The DMX512 lines and their RDM controllers (chapter 8, R200-R204; R297). -/

namespace Sys2Proof.Machine

/-- A line. -/
def lineAt (s : Dev) (n : Nat) : Line := if n = 0 then s.dmx.line0 else s.dmx.line1

/-- Replace a line. -/
def setLine (n : Nat) (l : Line) (s : Dev) : Dev := if n = 0 then { s with dmx.line0 := l } else { s with dmx.line1 := l }

/-- Change a line. -/
def modLine (n : Nat) (f : Line → Line) (s : Dev) : Dev := setLine n (f (lineAt s n)) s

/-- DMX posts (R205): line in [39:32], the responder count in [15:0]. -/
def postDmx (typ code n : Nat) (payload : List Nat) (s : Dev) : Dev :=
  post 0x25 typ (code * 2 ^ 40 + n * 2 ^ 32 + (lineAt s n).kept.length) payload s

/-- Does a line send packets: a site universe in RUNNING or HELD, outputs on, no short. -/
def lineSends (s : Dev) (n : Nat) : Bool :=
  !(lineAt s n).short && outputsOn s && (match lineUniv s n with | some (i, _) => isLive s (okey 2 i) | none => false)

/-- Is an RDM transaction in progress? A broadcast ends with its last byte. -/
def lineBusy (s : Dev) (n : Nat) : Bool :=
  match (lineAt s n).req with
  | some r => r.serves != 3 || decide (s.raw < r.ends)
  | none => false

/-! Packets (R200, R201) -/

/-- A packet starts: the line's universe, its break-to-break measured. -/
def dmxSend (n i : Nat) (u : Univ) (s : Dev) : Dev :=
  let l := lineAt s n
  let s := match l.lastBreak with
    | some b =>
      let p := min 65535 ((s.raw - b) / us 1)
      setFld (F.DMX_LINE_PERIOD_LAST_US n) p (setFld (F.DMX_LINE_PERIOD_MAX_US n) (max p (fld s (F.DMX_LINE_PERIOD_MAX_US n))) s)
    | none => s
  let s := setLine n { l with slots := fit u.slots u.payload, lastBreak := some s.raw, tick := (u.tickK : Int) } s
  let s := { s with outp.univs := tmod s.outp.univs i fun u => { u with lastSent := (u.tickK : Int) - 1 } }
  emit (.dmx n (fit u.slots u.payload)) (bump (R.DMX_LINE_PACKETS n) s)

/-- May the break of a line start: its tick has come, the packet before is over, break-to-break is at least 1,204 µs. -/
def breakDue (s : Dev) (n : Nat) (u : Univ) : Bool :=
  let l := lineAt s n
  decide (l.tick < (u.tickK : Int)) && u.payFrame.isSome && !lineBusy s n &&
    match l.lastBreak with
    | some b => decide (b + us 1204 ≤ s.raw) && decide (b + us (dmxPacketUs s n l.slots.length) ≤ s.raw)
    | none => true

/-- DMX_BREAK (R201). -/
def runDmxBreak (t : Time) (n : Nat) (s : Dev) : Host.Outcome Dev Fault Refusal :=
  let s := upTo t s
  .next (match lineUniv s n with
    | some (i, u) => if n < 2 ∧ lineSends s n ∧ breakDue s n u then dmxSend n i u s else s
    | none => s)

/-! RDM requests (R202); the packet's layout is E1.20's (log 18) -/

/-- The controller's UID. -/
def rdmUid (s : Dev) : Nat := (rg s R.DMX_UID_MFR).toNat % 65536 * 2 ^ 32 + (rg s R.DMX_UID_DEV).toNat

/-- The broadcast UID. -/
def rdmAll : Nat := 0xFFFFFFFFFFFF

/-- The bytes of an RDM request, start code to checksum. -/
def rdmBytes (s : Dev) (tn : Nat) (r : RdmReq) : List Byte :=
  let b := [0xCC, 0x01, BitVec.ofNat 8 (24 + r.data.length)] ++ beBytes 6 r.dest ++ beBytes 6 (rdmUid s) ++
    [BitVec.ofNat 8 tn, 1, 0, 0, 0, BitVec.ofNat 8 r.cc] ++ beBytes 2 r.pid ++ [BitVec.ofNat 8 r.data.length] ++ r.data
  b ++ beBytes 2 (rdmSum none b)

/-- The time a request takes on the line, µs. -/
def rdmUs (s : Dev) (n : Nat) (r : RdmReq) : Nat := dmxPacketUs s n (25 + r.data.length)

/-- The host's request completes (R204). -/
def mailboxDone (n status detail : Nat) (data : List Byte) (s : Dev) : Dev :=
  let s := (List.range (cdiv data.length 4)).foldl (fun s i =>
    setRg (R.DMX_LINE_MB_DATA n i) (BitVec.ofNat 32 (at_ data (4 * i) 4)) s) s
  let s := setBit (F.DMX_LINE_MB_CTRL_BUSY n) false <| setBit (F.DMX_LINE_MB_CTRL_DONE n) true <|
    setFld (F.DMX_LINE_MB_CTRL_STATUS n) status <| setFld (F.DMX_LINE_MB_CTRL_RESP_PDL n) data.length <|
    setFld (F.DMX_LINE_MB_CTRL_DETAIL n) detail s
  postDmx 1 0x03 n [] s

/-- The request that discovery sends next (R203): the un-mute that opens it, a mute, or the branch at hand. -/
def discReq (d : Disc) : Option RdmReq :=
  let r : RdmReq := { serves := 2, sensor := 0, dest := rdmAll, cc := 0x10, pid := 1, data := [], sent := 0, ends := 0 }
  if d.fresh then some { r with serves := 3, pid := 3 }
  else
    match d.mute, d.branches with
    | some u, _ => some { r with dest := u, pid := 2 }
    | none, (a, b) :: _ => some { r with data := beBytes 6 a ++ beBytes 6 b }
    | none, [] => none

/-- The RDM sensor of a line whose poll is due, the earliest first. -/
def pollDue (s : Dev) (n : Nat) : Option (Nat × Sensor) :=
  (s.site.sensors.filter fun e =>
      e.2.rdm && e.2.line == n && decide (e.2.pollAt ≤ s.raw) && isLive s (okey 9 e.1) && isLive s (okey 8 e.2.zone)).foldl
    (fun m e => match m with
      | some x => if e.2.pollAt < x.2.pollAt then some e else m
      | none => some e) none

/-- The next request of a line, in the order of R202; a request that is to be repeated comes first of its kind. -/
def rdmNext (s : Dev) (n : Nat) : Option RdmReq :=
  let l := lineAt s n
  let again (k : Nat) : Option RdmReq := tget l.again k
  match again 0, l.mailbox with
  | some r, _ => some r
  | none, some r => some r
  | none, none =>
    match again 1, pollDue s n with
    | some r, _ => some r
    | none, some (i, x) =>
      some { serves := 1, sensor := i, dest := x.ident, cc := 0x20, pid := 0x0200, data := [BitVec.ofNat 8 x.channel], sent := 0,
             ends := 0 }
    | none, none =>
      match again 2 with
      | some r => some r
      | none => l.disc.bind discReq

/-- What starting a request consumes: the mailbox, the poll instant, the un-mute. -/
def rdmTaken (n : Nat) (r : RdmReq) (s : Dev) : Dev :=
  let s := modLine n (fun l => { l with again := tdel l.again r.serves }) s
  if r.serves = 0 then modLine n (fun l => { l with mailbox := none }) s
  else if r.serves = 1 then
    if r.sent = 0 then
      { s with site.sensors := tmod s.site.sensors r.sensor fun x => { x with pollAt := max (x.pollAt + sec 1 / x.rate) s.raw } }
    else s
  else if r.serves = 3 then modLine n (fun l => { l with disc := l.disc.map fun d => { d with fresh := false } }) s
  else s

/-- A request starts. A broadcast of the host completes with ACK when its last byte is sent; the model posts it at once (log 35). -/
def rdmStart (n : Nat) (r : RdmReq) (s : Dev) : Dev :=
  let l := lineAt s n
  let tn := (l.tn + 1) % 256
  let s := bump (R.DMX_LINE_RDM_REQUESTS n) (emit (.rdm n (rdmBytes s tn r)) (rdmTaken n r s))
  let all := decide (r.dest = rdmAll ∧ r.serves = 0)
  let s := modLine n (fun l =>
    { l with tn := tn, req := some { r with sent := r.sent + 1, ends := s.raw + us (rdmUs s n r), serves := if all then 3 else r.serves } }) s
  if all then mailboxDone n 0 0 [] s else s

/-- Does a request fit: the packet is over, and the request time and 3,000 µs end before the next tick. -/
def rdmFits (s : Dev) (n : Nat) (u : Univ) (r : RdmReq) : Bool :=
  let l := lineAt s n
  (match l.lastBreak with
    | some b => decide (b + us (dmxPacketUs s n l.slots.length) ≤ s.raw)
    | none => true) &&
    decide (domTime s 0 + (us (rdmUs s n r + 3000) : Nat) ≤ siteTickAt u u.tickK)

/-- RDM_REQUEST_START (R202): none starts in HOLD (R201). -/
def runRdmRequestStart (t : Time) (n : Nat) (s : Dev) : Host.Outcome Dev Fault Refusal :=
  let s := upTo t s
  .next (match lineUniv s n, rdmNext s n with
    | some (_, u), some r =>
      if n < 2 ∧ s.sys.mode = .active ∧ lineSends s n ∧ !lineBusy s n ∧ rdmFits s n u r then rdmStart n r s else s
    | _, _ => s)

/-! Discovery (R203) -/

/-- A full discovery starts; one in progress goes on. -/
def discStart (n : Nat) (s : Dev) : Dev :=
  modLine n (fun l =>
    if l.disc.isSome then l
    else { l with disc := some { fresh := true, branches := [(0, 0xFFFFFFFFFFFE)], mute := none, found := [] }, discFrom := s.raw,
                  discDone := true }) s

/-- A discovery with no branch left is complete: the responders kept, those lost, the overflow. -/
def discEnd (n : Nat) (s : Dev) : Dev :=
  let l := lineAt s n
  match l.disc with
  | none => s
  | some d =>
    if d.fresh || d.mute.isSome || d.branches != [] then s
    else
      let lost := l.kept.filter fun u => !d.found.contains u
      let s := setLine n { l with disc := none, kept := d.found.take 512 } s
      let s := bumpBy (R.DMX_LINE_DISC_OVERFLOW n) (d.found.length - 512) s
      postDmx 1 0x01 n [] (lost.foldl (fun s u => postDmx 0xB 0x02 n [u] s) s)

/-- Change the discovery in progress, and end it when nothing is left. -/
def modDisc (n : Nat) (f : Disc → Disc) (s : Dev) : Dev := discEnd n (modLine n (fun l => { l with disc := l.disc.map f }) s)

/-- The branch at hand is empty. -/
def Disc.drop (d : Disc) : Disc := { d with mute := none, branches := d.branches.tail }

/-- More than one responder answers in the branch: it is split. -/
def Disc.split (d : Disc) : Disc :=
  match d.branches with
  | (a, b) :: r =>
    if a < b then { d with mute := none, branches := (a, (a + b) / 2) :: ((a + b) / 2 + 1, b) :: r } else d.drop
  | [] => { d with mute := none }

/-! Outcomes -/

/-- A request fails after its repeats: 4 a timeout, 5 a checksum. -/
def rdmFailed (n : Nat) (r : RdmReq) (why : Nat) (s : Dev) : Dev :=
  match r.serves with
  | 0 => mailboxDone n why 0 [] s
  | 1 => bump R.SITE_RDM_POLL_FAILS s
  | _ => modDisc n (fun d => if d.mute.isSome then d.split else d.drop) s

/-- A request is repeated twice more, then reported as failed. -/
def rdmRetry (n : Nat) (r : RdmReq) (why : Nat) (s : Dev) : Dev :=
  let s := modLine n (fun l => { l with req := none }) s
  if r.sent < 3 then modLine n (fun l => { l with again := tput l.again r.serves r }) s else rdmFailed n r why s

/-- A sensor's present value: two bytes, signed, after the sensor number. In HOLD it is discarded (R40). -/
def rdmSensor (r : RdmReq) (x : RdmResp) (s : Dev) : Dev :=
  if x.respType ≠ 0 then bump R.SITE_RDM_POLL_FAILS s
  else if s.sys.mode = .hold then bump R.SYS_HOLD_DROPS s
  else
    match tget s.site.sensors r.sensor with
    | some e => sensorAccept r.sensor e (unsgn 32 (sgn 16 (beAt x.data 1 2))) s
    | none => s

/-- What a checked response brings. -/
def rdmAnswer (n : Nat) (r : RdmReq) (x : RdmResp) (s : Dev) : Dev :=
  let s := modLine n (fun l => { l with req := none }) s
  match r.serves with
  | 0 => mailboxDone n x.respType (if x.respType = 1 ∨ x.respType = 2 then beAt x.data 0 2 else 0) (x.data.take 231) s
  | 1 => rdmSensor r x s
  | _ =>
    modDisc n (fun d =>
      match d.mute with
      | some u => { d with mute := none, found := if d.found.contains u then d.found else d.found ++ [u] }
      | none => { d with mute := some x.uid }) s

/-- RDM_RESPONSE_RX (R202). A collision of discovery responses splits the branch. -/
def runRdmResponseRx (t : Time) (n : Nat) (x : RdmResp) (s : Dev) : Host.Outcome Dev Fault Refusal :=
  let s := upTo t s
  .next (match (lineAt s n).req with
    | some r =>
      if n < 2 ∧ r.serves ≠ 3 then
        if r.serves = 2 ∧ r.pid = 1 ∧ x.collision then modDisc n Disc.split (modLine n (fun l => { l with req := none }) s)
        else if !x.checksumOk then rdmRetry n r 5 (bump (R.DMX_LINE_RDM_CHECKSUM n) s)
        else rdmAnswer n r x s
      else s
    | none => s)

/-- RDM_TIMEOUT (R202). -/
def runRdmTimeout (t : Time) (n : Nat) (s : Dev) : Host.Outcome Dev Fault Refusal :=
  let s := upTo t s
  .next (match (lineAt s n).req with
    | some r =>
      if n < 2 ∧ r.serves ≠ 3 ∧ r.ends + us 2800 ≤ s.raw then rdmRetry n r 4 (bump (R.DMX_LINE_RDM_TIMEOUTS n) s) else s
    | none => s)

/-- DISCOVERY_INTERVAL (R203). -/
def runDiscoveryInterval (t : Time) (n : Nat) (s : Dev) : Host.Outcome Dev Fault Refusal :=
  let s := upTo t s
  let every := fld s (F.DMX_LINE_DISC_INTERVAL_S n)
  .next (if n < 2 ∧ s.sys.mode = .active ∧ every ≠ 0 ∧ (lineAt s n).discDone ∧ (lineAt s n).discFrom + sec every ≤ s.raw then discStart n s
    else s)

/-! Register writes -/

/-- A write of DMX.LINEn_DISC. -/
def writeDisc (n : Nat) (v : Word) (s : Dev) : Dev :=
  let s := storeReg (R.DMX_LINE_DISC n) v s
  if bit v.toNat 16 then discStart n s else s

/-- A write of DMX.LINEn_MB_CTRL (R204): a GO while BUSY is ignored. -/
def writeMailbox (n : Nat) (v : Word) (s : Dev) : Dev :=
  let s := storeReg (R.DMX_LINE_MB_CTRL n) v s
  if !bit v.toNat 0 || bitOf s (F.DMX_LINE_MB_CTRL_BUSY n) then s
  else
    let cc := fld s (F.DMX_LINE_MB_REQ_CC n)
    let pdl := fld s (F.DMX_LINE_MB_REQ_PDL n)
    if (cc ≠ 0x20 ∧ cc ≠ 0x30) ∨ 231 < pdl then mailboxDone n 7 0 [] s
    else if !lineSends s n then mailboxDone n 6 0 [] s
    else
      let data := ((List.range 58).flatMap fun i => leBytes 4 (rg s (R.DMX_LINE_MB_DATA n i)).toNat).take pdl
      let dest := (rg s (R.DMX_LINE_MB_UID_HI n)).toNat % 65536 * 2 ^ 32 + (rg s (R.DMX_LINE_MB_UID_LO n)).toNat
      let r : RdmReq := { serves := 0, sensor := 0, dest := dest, cc := cc, pid := fld s (F.DMX_LINE_MB_REQ_PID n), data := data,
                          sent := 0, ends := 0 }
      modLine n (fun l => { l with mailbox := some r }) (setBit (F.DMX_LINE_MB_CTRL_BUSY n) true s)

/-- A write of DMX.LINEn_TIMING with a field out of range is ignored. -/
def writeLineTiming (n : Nat) (v : Word) (s : Dev) : Dev :=
  let brk := v.toNat % 1024
  let mab := v.toNat / 1024 % 1024
  if 88 ≤ brk ∧ brk ≤ 1000 ∧ 12 ≤ mab ∧ mab ≤ 1000 then storeReg (R.DMX_LINE_TIMING n) v s else s

/-- DISC_GO (R203): a write of DMX.LINEn_DISC. -/
def runDiscGo (t : Time) (n : Nat) (v : Word) (s : Dev) : Host.Outcome Dev Fault Refusal :=
  let s := upTo t s
  .next (if n < 2 ∧ canWrite s (R.DMX_LINE_DISC n) then writeDisc n v s else s)

/-- MAILBOX_GO (R204): a write of DMX.LINEn_MB_CTRL. -/
def runMailboxGo (t : Time) (n : Nat) (v : Word) (s : Dev) : Host.Outcome Dev Fault Refusal :=
  let s := upTo t s
  .next (if n < 2 ∧ canWrite s (R.DMX_LINE_MB_CTRL n) then writeMailbox n v s else s)

/-! Modes and registers -/

/-- The outputs of a line fall silent: a transaction is given up, and the host's request completes as not sent. -/
def lineOff (n : Nat) (s : Dev) : Dev :=
  let l := lineAt s n
  let mine := l.mailbox.isSome || thas l.again 0 || (match l.req with | some r => r.serves == 0 | none => false)
  let s := setLine n { l with req := none, again := [], mailbox := none, lastBreak := none,
                              disc := l.disc.map fun d => { d with fresh := true, branches := [(0, 0xFFFFFFFFFFFE)], mute := none, found := [] } } s
  if mine then mailboxDone n 6 0 [] s else s

/-- Both lines fall silent. -/
def linesOff (s : Dev) : Dev := lineOff 1 (lineOff 0 s)

/-- A line that enters ACTIVE for the first time runs a full discovery. -/
def linesActive (s : Dev) : Dev :=
  (List.range 2).foldl (fun s n => if (lineAt s n).discDone || (lineUniv s n).isNone then s else discStart n s) s

/-- A site universe starts: its ticks run from the first after now, and its line waits for it. -/
def startSiteUniv (i : Nat) (s : Dev) : Dev :=
  match tget s.outp.univs i with
  | some u =>
    if u.cls = 1 then
      let k := siteTickAfter u (domTime s 0)
      let s := { s with outp.univs := tput s.outp.univs i { u with tickK := k } }
      if u.dmx then modLine (u.dest - 16) (fun l => { l with tick := k }) s else s
    else s
  | none => s

/-- DMX's registers that show live state. -/
def dmxView (s : Dev) (off : Nat) : Option Word :=
  let b (x : Bool) : Nat := if x then 1 else 0
  let st (n : Nat) : Option Word :=
    some (BitVec.ofNat 32 (b (lineUniv s n).isSome + 2 * b (lineSends s n) + 4 * b (lineAt s n).short + 8 * b (lineBusy s n) +
      65536 * (lineAt s n).kept.length))
  if off = R.DMX_LINE_STATE 0 then st 0 else if off = R.DMX_LINE_STATE 1 then st 1 else none

end Sys2Proof.Machine
end

