-- ==== Sys2Proof/Machine/Pxp.lean ====
section
/-! DEFINITION. Pixel ports: maps, the scan store, frame starts, refreshes and diagnostics (chapter 9, R207-R235). -/

namespace Sys2Proof.Machine

/-- A pixel port. -/
def pxAt (s : Dev) (n : Nat) : PxPort := (tget s.pxp.ports n).getD {}

/-- Replace a pixel port. -/
def setPx (n : Nat) (p : PxPort) (s : Dev) : Dev := { s with pxp.ports := tput s.pxp.ports n p }

/-- The map of a port. -/
def mapAt (s : Dev) (n : Nat) : Option PxMap := (pxAt s n).map

/-- Change the map of a port. -/
def modMap (n : Nat) (f : PxMap → PxMap) (s : Dev) : Dev := setPx n { pxAt s n with map := (mapAt s n).map f } s

/-- Post an item of a port (R234): at most 100 in a second, those beyond counted. -/
def postPx (n typ code chan pixel : Nat) (s : Dev) : Dev :=
  let p := pxAt s n
  let p := if p.itemFrom + sec 1 ≤ s.raw then { p with itemFrom := s.raw, items := 0 } else p
  if 100 ≤ p.items then bump (R.PXP_ITEMS_SUPPRESSED n) (setPx n p s)
  else postCode (0x28 + n) typ code (chan % 256 * 2 ^ 32 + pixel % 65536) (setPx n { p with items := p.items + 1 } s)

/-! Timing records (R212) -/

/-- The timing record in 32 bytes. -/
def pxTimingOf (r : List Byte) : PxTiming :=
  { mode := at_ r 1 1, ckDiv := at_ r 2 2, s := at_ r 4 1, g := at_ r 5 1, r := at_ r 6 1, glob := at_ r 7 1, tLsb := at_ r 8 2,
    blank := at_ r 10 2, cb := at_ r 12 2, t0h := at_ r 16 2, t1h := at_ r 18 2, tbit := at_ r 20 2, resetUs := at_ r 22 2 }

/-- Is a timing record of port `n` in range? -/
def pxTimingOk (n : Nat) (r : List Byte) : Bool :=
  let t := pxTimingOf r
  at_ r 0 1 == n && at_ r 14 2 == 0 && at_ r 24 8 == 0 &&
    match t.mode with
    | 0 =>
      t.ckDiv == 0 && t.s == 1 && (t.g == 8 || t.g == 16) && t.r == 1 && t.glob == 0 && t.tLsb == 0 && t.blank == 0 && t.cb == 0 &&
        decide (100 ≤ t.tbit ∧ t.tbit ≤ 2500 ∧ t.t0h < t.t1h ∧ t.t1h < t.tbit ∧ 50 ≤ t.resetUs ∧ t.resetUs ≤ 1000)
    | 1 =>
      decide (5 ≤ t.ckDiv ∧ t.ckDiv ≤ 250 ∧ 1 ≤ t.s ∧ t.s ≤ 64 ∧ 8 ≤ t.g ∧ t.g ≤ 16 ∧ 1 ≤ t.r ∧ t.r ≤ 64 ∧ 1 ≤ t.tLsb ∧ 25 ≤ t.blank ∧
        16 ≤ t.cb ∧ t.cb ≤ 4096 ∧ t.cb % 16 = 0) && at_ r 16 8 == 0
    | 2 =>
      decide (5 ≤ t.ckDiv ∧ t.ckDiv ≤ 250 ∧ t.s = 1 ∧ t.g = 12 ∧ 16 ≤ t.r ∧ t.r ≤ 64 ∧ t.glob = 0 ∧ 1 ≤ t.tLsb ∧ 25 ≤ t.blank ∧
        1 ≤ t.cb ∧ t.cb ≤ 128) && at_ r 16 8 == 0
    | _ => false

/-- T_ck, ns. -/
def PxTiming.tck (t : PxTiming) : Nat := 4 * t.ckDiv

/-- t_sh, ns (R221, R223). -/
def PxTiming.tsh (t : PxTiming) : Nat := (t.cb + 4) * t.tck

/-- w_k, ns. -/
def PxTiming.w (t : PxTiming) (k : Nat) : Nat := 2 ^ k * (4 * t.tLsb)

/-- The planes' slots of one line. -/
def PxTiming.planes (t : PxTiming) : Nat := ((List.range t.g).map fun k => max t.tsh (t.w k)).sum

/-- t_cycle, ns, in the scan modes. -/
def PxTiming.cycle (t : PxTiming) : Nat :=
  if t.mode = 1 then t.tsh + t.s * (t.planes + 20 * t.tck + 4 * t.blank) else t.tsh + t.planes + 4 * t.blank

/-- The longest insertion of a frame, ns: readback, probe or configuration; locate or probe. -/
def PxTiming.slot (t : PxTiming) (minOn : Nat) : Nat :=
  if t.mode = 1 then
    max ((2 * t.cb + 20) * t.tck + t.tsh)
      (max (2 * t.tsh + 20 * t.tck + minOn + 4 * ((2 * t.cb + 20) * t.tck)) ((7 * t.cb + 20) * t.tck + t.tsh))
  else max (8 * (t.tsh + 2000 + 10 * t.tck) + t.tsh) (2 * t.tsh + minOn + 10 * t.tck)

/-- Pixels of the longest lane (R217). -/
def laneLen (ps : List Pixel) : Nat := (ps.map fun p => p.col + 1).foldl max 0

/-- t_pre, ns (R216, R217): 0 in the scan modes. -/
def preNs (t : PxTiming) (c : Nat) (ps : List Pixel) : Nat :=
  if t.mode = 0 then t.resetUs * 1000 + laneLen ps * c * t.g * (4 * t.tbit) else 0

/-- What the scan-fit check compares with Tf ÷ R, ns (R218, R221, R223). -/
def fitNs (t : PxTiming) (c : Nat) (ps : List Pixel) (minOn : Nat) : Nat :=
  if t.mode = 0 then preNs t c ps + 2000 else t.cycle + t.slot minOn + 1000

/-- By how many ns the scan does not fit; 0 where it fits. -/
def fitExcess (t : PxTiming) (c : Nat) (ps : List Pixel) (minOn num den : Nat) : Nat :=
  let need := fitNs t c ps minOn * num * t.r
  if need ≤ den * 1000000000 then 0 else cdiv (need - den * 1000000000) (num * t.r)

/-- The fit of a map in force, with another threshold. -/
def mapFit (s : Dev) (m : PxMap) (minOn : Nat) : Nat :=
  match canvasAt s m.canvas with
  | some c => fitExcess m.timing m.c m.pixels minOn c.timing.rateNum c.timing.rateDen
  | none => 0

/-- t_fill in 2^-16 ns (R214): P × 2C bytes at 4 GB/s and 5 µs. -/
def fillTime (m : PxMap) : Time := m.pixels.length * 2 * m.c * 16384 + us 5

/-! Map records (R209-R213) -/

/-- A signed step in quarter units from a point. -/
def stepped (x d : Nat) (i : Nat) : Int := (x : Int) + sgn 16 d * (i : Int)

/-- The pixels of a run: point and wire position. None: a point left of or above the canvas. -/
def runPixels (e : List Byte) : Option (List Pixel) :=
  (List.range (at_ e 8 2)).mapM fun i =>
    let x := stepped (at_ e 0 2) (at_ e 4 2) i
    let y := stepped (at_ e 2 2) (at_ e 6 2) i
    if x < 0 ∨ y < 0 then none
    else some { sample := 0, x := x.toNat, y := y.toNat, lane := at_ e 10 1, line := at_ e 12 2, col := at_ e 14 2 + i, bins := [],
                dot := [63, 63, 63, 63], m := plainMatrix.1, q := plainMatrix.2.1 }

/-- Give pixels their calibration entries. -/
def calibrate (r : List Byte) (at' : Nat) : Nat → List Pixel → List Pixel
  | _, [] => []
  | i, p :: rest =>
    { p with bins := (List.range 4).map fun k => at_ r (at' + 8 * i + k) 1,
             dot := (List.range 4).map fun k => at_ r (at' + 8 * i + 4 + k) 1 } :: calibrate r at' (i + 1) rest

/-- A wire position as one number. -/
def Pixel.place (p : Pixel) : Nat := (p.lane * 65536 + p.line) * 131072 + p.col

/-- No two pixels share a wire position. -/
def placesApart (ps : List Pixel) : Bool :=
  (ps.foldl (fun (m : Tbl Unit) p => tput m p.place ()) []).length == ps.length

/-- Is a pixel's wire position inside the mode's range? -/
def Pixel.fits (p : Pixel) (c : Nat) (t : PxTiming) : Bool :=
  match t.mode with
  | 0 => decide (p.lane ≤ 7 ∧ p.line = 0 ∧ p.col < 640)
  | 1 => decide (p.lane ≤ 3 ∧ p.line < t.s ∧ p.col < t.cb / c)
  | _ => decide (p.lane < 4 / c ∧ p.line = 0 ∧ p.col < t.cb)

/-- The matrices of the pixels with CHROMA; none where one is refused. -/
def pixelMatrices (s : Dev) (m : PxMap) : Option (List Pixel) :=
  if !m.chroma then some m.pixels
  else
    match tget s.outp.bins m.binTable with
    | none => none
    | some b =>
      m.pixels.mapM fun p =>
        if (p.bins.take m.c).all fun k => decide (k < b.entries.length) then
          (lampMatrix b (m.c == 4) p.bins).map fun x => { p with m := x.1, q := x.2.1 }
        else none

/-- The map a record describes, without matrices and samples; none where its length or a run is wrong. -/
def mapOf (r : List Byte) : Option PxMap :=
  let runs := at_ r 12 2
  let count := at_ r 8 4
  let calib := bit (at_ r 3 1) 2
  if r.length ≠ 64 + 16 * runs + (if calib then 8 * count else 0) then none
  else do
    let ls ← (List.range runs).mapM fun i => runPixels ((r.drop (64 + 16 * i)).take 16)
    let ps := ls.flatten
    if ps.length = count ∧ (List.range runs).all (fun i => at_ r (64 + 16 * i + 11) 1 == 0 && at_ r (64 + 16 * i + 8) 2 != 0) then
      some { c := at_ r 1 1, order := at_ r 2 1, dither := bit (at_ r 3 1) 0, chroma := bit (at_ r 3 1) 1, calib := calib,
             mirror := bit (at_ r 3 1) 3, canvas := at_ r 4 4 % 2 ^ 20, curve := at_ r 14 1, binTable := at_ r 15 1, ws := at_ r 16 1,
             timing := pxTimingOf ((r.drop 32).take 32),
             pixels := if calib then calibrate r (64 + 16 * runs) 0 ps else ps }
    else none

/-- The ranges of a map record. -/
def mapRange (r : List Byte) (m : PxMap) : Bool :=
  let n := at_ r 0 1
  decide (n ≤ 7) && (m.c == 1 || m.c == 3 || m.c == 4) && decide (m.order ≤ 5 ∧ at_ r 3 1 ≤ 15) &&
    decide (1 ≤ at_ r 8 4 ∧ at_ r 8 4 ≤ 65536 ∧ 1 ≤ at_ r 12 2 ∧ at_ r 12 2 ≤ 4096) && decide (m.curve ≤ 63 ∧ at_ r 17 1 ≤ 15) &&
    (!m.chroma || (m.calib && m.c != 1 && decide (m.binTable ≤ 15))) && (!m.mirror || n == 7) && inboxOk (at_ r 18 2) &&
    at_ r 20 12 == 0 && pxTimingOk n ((r.drop 32).take 32) && (m.pixels.all fun p => p.dot.all fun d => decide (d ≤ 63)) &&
    placesApart m.pixels && (m.pixels.all fun p => p.fits m.c m.timing) &&
    (m.timing.mode != 2 || decide (m.pixels.length ≤ 4 / m.c * m.timing.cb)) &&
    decide (m.pixels.length * m.c * m.timing.g ≤ 1572864)

/-- The charges of a map (R67). -/
def mapCharges (m : PxMap) (g : Timing) : List (Nat × Nat) :=
  let p := m.pixels.length
  let per (n unit : Nat) : Nat := perSec n g.rateNum g.rateDen unit
  [(0, per (4 * m.c * p) 1000000), (2, per p 1), (4, per p 1), (5, p)]

/-- Hand out sample indices to pixels. -/
def samplePixels : List Pixel → List Nat → List Pixel
  | [], _ => []
  | p :: r, l => { p with sample := l.headD 0 } :: samplePixels r l.tail

/-- A map takes its sample points on its canvas. -/
def placeMap (n : Nat) (m : PxMap) (s : Dev) : Option Dev :=
  match canvasAt s m.canvas with
  | none => none
  | some c =>
    match takePoints (okey 7 n) (m.pixels.map fun p => (p.x, p.y)) c with
    | none => none
    | some (idx, c) => some (setPx n { pxAt s n with map := some { m with pixels := samplePixels m.pixels idx } } (setCanvas m.canvas c s))

/-- The counters of a map, cleared when it is created. -/
def clearPx (n : Nat) (s : Dev) : Dev :=
  (List.range 10).foldl (fun s i => setRg (R.PXP_FRAMES n + 4 * i) 0 s) (setRg (R.PXP_START_ERR n) 0 s)

/-- The checks of R213 on a map; matrices filled in. -/
def mapCheck (s : Dev) (c : Ctx) (r : List Byte) : Except Refuse (PxMap × Timing) := do
  let n := at_ r 0 1
  require (c.idx == n) rcOutOfRange
  match mapOf r with
  | none => refuse rcOutOfRange
  | some m =>
    let ch : Word := BitVec.ofNat 32 (at_ r 4 4)
    require (mapRange r m && curveDefined s m.curve) rcOutOfRange
    match objOf s ch, canvasAt s m.canvas with
    | some _, some cv =>
      require (hKind ch == 5) rcBadHandle
      require (m.pixels.all fun p => pointOk cv (p.x, p.y)) rcOutOfRange
      require (!m.chroma || (match tget s.outp.bins m.binTable with | some b => b.primaries == cv.primaries | none => true)) rcConflict
      match pixelMatrices s m with
      | none => refuse rcOutOfRange
      | some ps =>
        let m := { m with pixels := ps }
        let excess := fitExcess m.timing m.c ps (fld s (F.PXP_DIAG_MIN_ON_NS n)) cv.timing.rateNum cv.timing.rateDen
        if excess ≠ 0 then .error { code := rcOutOfRange, data := leBytes 4 excess }
        else pure (m, cv.timing)
    | _, _ => refuse rcBadHandle

/-- The check of a map record: a mirror needs both pins, the frame start a time action (R215). -/
def mapPlan (s : Dev) (c : Ctx) (r : List Byte) : Check := do
  let n := c.idx
  let (m, g) ← mapCheck s c r
  if m.mirror then
    match pinOwner s 2, pinOwner s 3 with
    | some h, _ => refuseBy rcConflict h
    | none, some h => refuseBy rcConflict h
    | none, none => pure ()
  pure { charges := mapCharges m g, refs := [okey 5 m.canvas]
         install := fun h s => do
           let s ← createTask (40984 + n) 0x23 6 true false h (levelOf 0 c.prio) (inboxLimit (at_ r 18 2)) s
           let s ← placeMap n m s
           let (_, s) ← takeAction (65536 + n) 2 m.canvas s
           let s := clearPx n (setPx n { pxAt s n with zeroDue := false } s)
           pure (if m.mirror then { s with tim.mirrors := s.tim.mirrors ++ [(2, okey 7 n), (3, okey 7 n)] } else s) }

/-- MODIFY of a map changes runs, calibration, CURVE, BIN_TABLE and WS only (R212). Its drives and fault states restart. -/
def mapModify (old m : PxMap) : Option PxMap :=
  if old.timing = m.timing ∧ old.c = m.c ∧ old.order = m.order ∧ old.dither = m.dither ∧ old.chroma = m.chroma ∧ old.mirror = m.mirror ∧
      old.canvas = m.canvas then
    some { old with calib := m.calib, curve := m.curve, binTable := m.binTable, ws := m.ws, pixels := m.pixels, cfgDue := true,
                    chans := if old.pixels.length = m.pixels.length then old.chans else [] }
  else none

/-- A map is destroyed: its points, its action, its task and its pins are free; SERIAL-PIX owes a zero frame. -/
def dropMap (n : Nat) (s : Dev) : Dev :=
  match mapAt s n with
  | none => s
  | some m =>
    let s := destroyTask (40984 + n) (giveAction (65536 + n) (dropPoints (okey 7 n) m.canvas s))
    let s := { s with tim.mirrors := s.tim.mirrors.filter fun e => e.2 != okey 7 n }
    setPx n { pxAt s n with map := none, zeroDue := decide (m.timing.mode = 0) && m.scan.isSome } s

/-! The fixture engine's work on a map (R211) -/

/-- The luminance of a sample in the primaries of its canvas. -/
def luminance (primaries : Nat) (r g b : Nat) : Nat :=
  let (kr, kb) : Nat × Nat := if primaries = 0 then (2126, 722) else (2627, 593)
  (roundDiv (kr * r + (10000 - kr - kb) * g + kb * b : Nat) 10000).toNat

/-- The drives of a pixel in wire order. -/
def pixelDrives (s : Dev) (m : PxMap) (cv : Canvas) (n : Int) (p : Pixel) : List Nat :=
  let (r, g, b, _) := readSample s m.canvas (cv.readBuf n) p.sample
  let ds :=
    if m.c = 1 then [luminance cv.primaries r g b]
    else
      let (d, x, _) := drivesOf p.m p.q (m.c == 4) m.ws [r, g, b] 0
      (orderOf m.order).map (fun k => d.getD k 0) ++ (if m.c = 4 then [x] else [])
  let ds := ds.map (curveAt s m.curve)
  if m.timing.mode = 1 then ds else (List.zip ds p.dot).map fun e => e.1 * (e.2 + 1) / 64

/-- The dispatch of a map's task for frame `n`: its payload is written and the fill begins; a stale, aborted or poisoned frame takes
the previous payload (R178, R231). -/
def mapWork (port : Nat) (n : Int) (s : Dev) : Dev :=
  match mapAt s port with
  | none => s
  | some m =>
    match canvasAt s m.canvas with
    | none => s
    | some cv =>
      let lost := m.pixels.any fun p => relPoisoned s (okey 5 m.canvas) (sampleAt (cv.readBuf n) p.sample)
      let stale := cv.aborted == some n || m.pixels.any fun p => (readSample s m.canvas (cv.readBuf n) p.sample).2.2.2 != unsgn 16 n
      let drives := if lost || stale then m.drives else m.pixels.flatMap (pixelDrives s m cv n)
      let s := workDone m.pixels.length
        (if lost then bump R.FIX_POISON s else if stale then bump R.FIX_STALE_FRAMES s else s)
      modMap port (fun m =>
        { m with prevDrives := m.drives, drives := drives, drivesFrame := some n, fill := some (n, s.raw + fillTime m) }) s

/-- A drive reduced to G bits (R214). -/
def reduce (m : PxMap) (t : PxTiming) (n : Int) (k v : Nat) : Nat :=
  if t.g = 16 then v
  else min (2 ^ t.g - 1) ((v + ditherOf m.dither n k * 2 ^ (16 - t.g) / 256) / 2 ^ (16 - t.g))

/-- The half filled for a frame. -/
def fillValues (m : PxMap) (t : PxTiming) (n : Int) : List Nat :=
  ((List.range m.drives.length).zip m.drives).map fun e => reduce m t n (4 * (e.1 / m.c) + e.1 % m.c) e.2

/-- PXP_FILL_DONE (R214). -/
def runPxpFillDone (t : Time) (n : Nat) (s : Dev) : Host.Outcome Dev Fault Refusal :=
  let s := upTo t s
  .next (match mapAt s n with
    | some m =>
      match m.fill with
      | some (k, due) =>
        if due ≤ s.raw then
          modMap n (fun m => { m with fill := none, filled := some (k, fillValues m (m.nextTiming.getD m.timing) k, s.raw) }) s
        else s
      | none => s
    | none => s)

/-! Diagnostics (R224-R228) -/

/-- A channel of a map, keyed by pixel × 4 + wire channel. -/
def PxMap.chan (m : PxMap) (k : Nat) : Chan := (tget m.chans k).getD {}

/-- Every channel key of a map. -/
def PxMap.keys (m : PxMap) : List Nat := (List.range m.pixels.length).flatMap fun p => (List.range m.c).map fun w => 4 * p + w

/-- The value a channel is scanned with. -/
def PxMap.value (m : PxMap) (k : Nat) : Nat :=
  match m.scan with
  | some (_, vs) => vs.getD (k / 4 * m.c + k % 4) 0
  | none => 0

/-- The longest lit period of a channel in a frame, ns: the weight of its highest set bit (R224). -/
def PxMap.onNs (m : PxMap) (k : Nat) : Nat := if m.value k = 0 then 0 else m.timing.w (Nat.log2 (m.value k))

/-- The pixel of a channel. -/
def PxMap.px (m : PxMap) (k : Nat) : Pixel :=
  m.pixels.getD (k / 4) { sample := 0, x := 0, y := 0, lane := 0, line := 0, col := 0, bins := [], dot := [], m := [], q := [] }

/-- The string of a channel (R222). -/
def PxMap.string (m : PxMap) (k : Nat) : Nat := (m.px k).lane * m.c + k % 4

/-- A channel is assessed: its flags are [0] open, [1] short; a change of state is posted. -/
def assess (n : Nat) (frame : Int) (k flags : Nat) (s : Dev) : Dev :=
  match mapAt s n with
  | none => s
  | some m =>
    let st := if bit flags 0 then 2 else if bit flags 1 then 3 else 1
    let old := m.chan k
    let s := modMap n (fun m => { m with chans := tput m.chans k { old with st := st, dim := false, frame := frame } }) s
    if st = old.st ∨ st = 1 then s else postPx n 0xB (if st = 2 then 0x02 else 0x03) (k % 4) (k / 4) s

/-- A channel was not assessed at its chance. -/
def missedChan (n k : Nat) (s : Dev) : Dev :=
  modMap n (fun m => { m with chans := tput m.chans k { m.chan k with dim := true } }) s

/-- The flags that a readback brought for a channel: the operand lists channel × 4 + flags. -/
def flagsOf (diag : List Nat) (k : Nat) : Nat := ((diag.find? fun v => v / 4 == k).getD 0) % 4

/-- The probe line of frame `n`, where one is due by PROBE_EVERY (R225). -/
def probeLine (s : Dev) (port : Nat) (m : PxMap) (n : Int) : Option Nat :=
  let e := fld s (F.PXP_PROBE_EVERY_FRAMES port)
  if e = 0 ∨ n % (e : Int) ≠ 0 then none else some ((n / (e : Int)) % (m.timing.s : Int)).toNat

/-- The diagnostic slot of SCAN-LINEAR in frame `n`: a configuration write, a probe, or a readback. -/
def linearSlot (port : Nat) (n : Int) (diag : List Nat) (s : Dev) : Dev :=
  match mapAt s port with
  | none => s
  | some m =>
    let probe := match m.probeDue with
      | some l => some l
      | none => probeLine s port m n
    if m.cfgDue ∨ n % 1024 = 1 then modMap port (fun m => { m with cfgDue := false, probeDue := probe }) s
    else
      match probe with
      | some l =>
        let s := bump (R.PXP_PROBES port) (modMap port (fun m => { m with probeDue := none }) s)
        (m.keys.filter fun k => (m.px k).line == l && (m.chan k).dim).foldl (fun s k => assess port n k (flagsOf diag k) s) s
      | none =>
        let line := ((n / 4) % (m.timing.s : Int)).toNat
        let lane := (n % 4).toNat
        let minOn := fld s (F.PXP_DIAG_MIN_ON_NS port)
        (m.keys.filter fun k => (m.px k).line == line && (m.px k).lane == lane).foldl (fun s k =>
            if minOn ≤ m.onNs k then assess port n k (flagsOf diag k) s else missedChan port k s)
          (bump (R.PXP_READBACKS port) s)

/-- Is a lamp lit in plane `k` of a bypass string: its bit is set and it is not held bypassed. -/
def PxMap.lit (m : PxMap) (key k : Nat) : Bool := bit (m.value key) k && !(m.chan key).ride

/-- A string has failed: it waits for a locate. -/
def queueLocate (port st : Nat) (s : Dev) : Dev :=
  modMap port (fun m => if m.locate.contains st then m else { m with locate := m.locate ++ [st] }) s

/-- String status of one refresh of SCAN-BYPASS (R226): the operand lists string × 16 + plane for each sample without current. -/
def bypassSamples (port : Nat) (n : Int) (diag : List Nat) (s : Dev) : Dev :=
  match mapAt s port with
  | none => s
  | some m =>
    let minOn := fld s (F.PXP_DIAG_MIN_ON_NS port)
    let planes := (List.range m.timing.g).filter fun k => decide (minOn ≤ m.timing.w k)
    let s := m.keys.foldl (fun s key =>
      if planes.any fun k => m.lit key k && !diag.contains (m.string key * 16 + k) then
        (if (m.chan key).st = 2 then s else assess port n key 0 s)
      else missedChan port key s) s
    (List.range 4).foldl (fun s st => if planes.any fun k => diag.contains (st * 16 + k) then queueLocate port st s else s) s

/-- The halves that steps 1–7 of a locate keep (R227): the operand lists 64 + step for each step without current. -/
def locateHalve (diag : List Nat) : List Nat → List Nat → List Nat
  | [], l => l
  | i :: r, l =>
    if l.length ≤ 1 then l
    else
      let h := (l.length + 1) / 2
      locateHalve diag r (if diag.contains (64 + i) then l.take h else l.drop h)

/-- A locate on the string that has waited longest. -/
def runLocate (port : Nat) (n : Int) (diag : List Nat) (s : Dev) : Dev :=
  match mapAt s port with
  | none => s
  | some m =>
    match m.locate with
    | [] => s
    | st :: rest =>
      let s := bump (R.PXP_LOCATES port) (modMap port (fun m => { m with locate := rest }) s)
      if !diag.contains 64 then postPx port 0xB 0x05 st 0 (bump (R.PXP_INTERMITTENT port) s)
      else
        let lamps := (List.range m.timing.cb).filter fun col =>
          match m.keys.find? fun k => m.string k == st && (m.px k).col == col with
          | some k => (m.chan k).st != 2
          | none => true
        match locateHalve diag [1, 2, 3, 4, 5, 6, 7] lamps with
        | col :: _ =>
          match m.keys.find? fun k => m.string k == st && (m.px k).col == col with
          | some k =>
            postPx port 0xB 0x04 st (k / 4) (modMap port (fun m =>
              { m with chans := tput m.chans k { st := 2, dim := false, ride := true, frame := n } }) s)
          | none => s
        | [] => s

/-- A probe of SCAN-BYPASS: the operand lists 128 + string for each string without current. -/
def bypassProbe (port : Nat) (n : Int) (diag : List Nat) (s : Dev) : Dev :=
  match mapAt s port with
  | none => s
  | some m =>
    let s := bump (R.PXP_PROBES port) (modMap port (fun m => { m with probeDue := none }) s)
    (List.range 4).foldl (fun s st =>
      let dims := m.keys.filter fun k => m.string k == st && (m.chan k).dim && !(m.chan k).ride
      if diag.contains (128 + st) then queueLocate port st s else dims.foldl (fun s k => assess port n k 0 s) s) s

/-- What the refresh that has just ended showed. -/
def endRefresh (port : Nat) (diag : List Nat) (s : Dev) : Dev :=
  match mapAt s port with
  | none => s
  | some m =>
    match m.slotN with
    | none => s
    | some n =>
      if m.blank ∨ m.scan = none then s
      else if m.timing.mode = 1 then (if m.refresh = 0 then linearSlot port n diag s else s)
      else if m.timing.mode = 2 then
        let s := bypassSamples port n diag (runLocate port n diag s)
        if m.refresh = 0 ∧ (m.probeDue.isSome ∨ (probeLine s port m n).isSome) then bypassProbe port n diag s else s
      else s

/-! Frame starts and refreshes (R215, R231) -/

/-- Do pixel ports scan: in ACTIVE, and in HOLD entered from it. -/
def pxRuns (s : Dev) : Bool := outputsOn s

/-- The frame whose T_N has come, to within 100 ns, with T_N in canvas time. -/
def frameNow (s : Dev) (c : Canvas) : Int × Int :=
  let now := canvasTime s c + (ns 100 : Nat)
  match c.pendingGrid with
  | some o => if o.at_ o.next ≤ now then (o.next, o.at_ o.next) else (o.next - 1, o.at_ (o.next - 1))
  | none => if tickAt s c c.nextN ≤ now then (c.nextN, tickAt s c c.nextN) else (c.nextN - 1, tickAt s c (c.nextN - 1))

/-- The error of a frame start is recorded. -/
def startError (port : Nat) (err : Int) (s : Dev) : Dev :=
  let e := max (-32768) (min 32767 (err / 65536))
  let s := setFld (F.PXP_START_ERR_LAST_NS port) (unsgn 16 e) s
  let s := setFld (F.PXP_START_ERR_MAX_NS port) (max (fld s (F.PXP_START_ERR_MAX_NS port)) e.natAbs) s
  if 100 < e.natAbs then bump (R.PXP_START_LATE port) s else s

/-- The port shows a half, or stays dark. -/
def emitScan (port : Nat) (s : Dev) : Dev :=
  match mapAt s port with
  | some m =>
    match m.scan with
    | some (n, vs) => emit (.scan port n m.refresh vs m.blank) s
    | none => s
  | none => s

/-- Frame N's half is taken, or the frame before is scanned again (R214, R231). -/
def takeHalf (port : Nat) (n : Int) (running : Bool) (m : PxMap) (deadline : Time) (s : Dev) : Dev :=
  if running then
    match m.filled with
    | some (k, vs, at') =>
      if k = n ∧ at' ≤ deadline then
        bump (R.PXP_FRAMES port) (modMap port (fun m => { m with scan := some (n, vs), lastN := n, filled := none }) s)
      else postPx port 3 0x06 0 0 (bump (R.PXP_REPEATS port) (bump (R.PXP_FILL_LATE port) (modMap port (fun m => { m with fill := none, filled := none }) s)))
    | none => postPx port 3 0x06 0 0 (bump (R.PXP_REPEATS port) (bump (R.PXP_FILL_LATE port) (modMap port (fun m => { m with fill := none }) s)))
  else s

/-- The start of frame `n` on a port with a map in RUNNING, HELD or STOPPED. -/
def frameStart (port : Nat) (n tick : Int) (m : PxMap) (o : HObj) (cv : Canvas) (s : Dev) : Dev :=
  let started := decide ((o.startAt : Int) ≤ tick) && o.state == 2
  let held := o.state == 4 || s.sys.mode == .hold
  let late : Nat := (max 0 (canvasTime s cv - tick)).toNat
  let deadline := s.raw - late - ns (preNs m.timing m.c m.pixels)
  let s := if m.clearDue then modMap port (fun m => { m with chans := [], clearDue := false }) s else s
  let dark := cv.blanks n
  let s := modMap port (fun m => { m with slotN := some n, refresh := 0, blank := dark,
                                          timing := (if dark || cv.pendingGrid.isSome then m.timing else m.nextTiming.getD m.timing),
                                          nextTiming := (if dark || cv.pendingGrid.isSome then m.nextTiming else none) }) s
  let s := countHeld (65536 + port) s
  let s :=
    if dark then
      modMap port (fun m => if m.timing.mode = 0 then { m with scan := some (n, List.replicate (m.pixels.length * m.c) 0) } else m)
        (bump (R.PXP_BLANKS port) s)
    else if held ∧ (o.state = 4 ∨ o.state = 2) then bump (R.PXP_REPEATS port) s
    else takeHalf port n started m deadline s
  let s := startError port (canvasTime s cv - tick) s
  let s := if m.mirror then drivePin 2 true s else s
  emitScan port s

/-- PXP_FRAME_START (R215): the operand brings what the last refresh of the frame before showed. -/
def runPxpFrameStart (t : Time) (port : Nat) (diag : List Nat) (s : Dev) : Host.Outcome Dev Fault Refusal :=
  let s := upTo t s
  let p := pxAt s port
  .next (match p.map with
    | some m =>
      match objAt s (okey 7 port), canvasAt s m.canvas with
      | some o, some cv =>
        let (n, tick) := frameNow s cv
        if pxRuns s ∧ !p.disabled ∧ o.state ≠ 1 ∧ m.slotN ≠ some n ∧ (m.scan.isSome ∨ (o.startAt : Int) ≤ tick) then
          frameStart port n tick m o cv (endRefresh port diag s)
        else s
      | _, _ => s
    | none =>
      if p.zeroDue then emit (.scan port 0 0 [] true) (setPx port { p with zeroDue := false } s) else s)

/-- REFRESH_START (R215): refresh r starts at T_N + r × Tf ÷ R; the operand brings what the refresh before showed. -/
def runRefreshStart (t : Time) (port : Nat) (diag : List Nat) (s : Dev) : Host.Outcome Dev Fault Refusal :=
  let s := upTo t s
  .next (match mapAt s port with
    | some m =>
      match m.slotN, canvasAt s m.canvas with
      | some n, some cv =>
        let due := shownAt s cv n + (cv.shownTiming n).frames (m.refresh + 1) / (m.timing.r : Int)
        if pxRuns s ∧ !(pxAt s port).disabled ∧ m.scan ≠ none ∧ m.refresh + 1 < m.timing.r ∧ due ≤ canvasTime s cv + (ns 100 : Nat) then
          emitScan port (modMap port (fun m => { m with refresh := m.refresh + 1 }) (endRefresh port diag s))
        else s
      | _, _ => s
    | none => s)

/-- A map whose scan has ended. -/
def PxMap.quiet (m : PxMap) : PxMap :=
  { m with scan := none, filled := none, fill := none, slotN := none, blank := false, locate := [] }

/-- A port whose scan has ended; SERIAL-PIX owes a zero frame (R231). -/
def PxPort.quiet (p : PxPort) : PxPort :=
  { p with
    map := p.map.map PxMap.quiet
    zeroDue := p.zeroDue || (match p.map with | some m => decide (m.timing.mode = 0) && m.scan.isSome | none => false) }

/-- The scan of every port ends: the ports blank, and the next start is as new (R208, R231). -/
def pixelsOff (s : Dev) : Dev := { s with pxp.ports := s.pxp.ports.map fun e => (e.1, e.2.quiet) }

/-! Registers -/

/-- A write of PXPn.DIAG_MIN_ON (R232): out of range it is ignored; one that breaks the fit is ignored and marked. -/
def writeMinOn (n : Nat) (v : Word) (s : Dev) : Dev :=
  let x := v.toNat % 65536
  if x < 100 then s
  else
    match mapAt s n with
    | some m => if mapFit s m x = 0 then storeReg (R.PXP_DIAG_MIN_ON n) v s else setBit (F.PXP_STATE_MIN_ON_REFUSED n) true s
    | none => storeReg (R.PXP_DIAG_MIN_ON n) v s

/-- DIAG_MIN_ON_WRITE (R232). -/
def runDiagMinOnWrite (t : Time) (n : Nat) (v : Word) (s : Dev) : Host.Outcome Dev Fault Refusal :=
  let s := upTo t s
  .next (if n < 8 ∧ canWrite s (R.PXP_DIAG_MIN_ON n) then writeMinOn n v s else s)

/-- PIN_READBACK (R230): in STANDBY; the operand lists the pins that differ. -/
def runPinReadback (t : Time) (n : Nat) (mismatch : List Nat) (s : Dev) : Host.Outcome Dev Fault Refusal :=
  let s := upTo t s
  .next (if n < 8 ∧ s.sys.mode = .standby ∧ mismatch ≠ [] ∧ !(pxAt s n).disabled then
      (if bitOf s (F.PXP_STATE_PIN_FAULT n) then s else postPx n 2 0x07 0 0 (setBit (F.PXP_STATE_PIN_FAULT n) true s))
    else s)

/-- The short test of a port (R229): pins 0–9 shorted, 10 for PXn_AUX to the next port's D0 (never on PX7). -/
def shortTest (n : Nat) (pins : List Nat) (s : Dev) : Dev :=
  let bits := ((List.range 11).map fun i => if pins.contains i ∧ ¬(i = 10 ∧ n = 7) then 2 ^ i else 0).sum
  let s := setRg (R.PXP_SHORT n) (BitVec.ofNat 32 (bits + 2048)) s
  if bits = 0 then s else setPx n { pxAt s n with disabled := true } s

/-- Channels of a port in a condition. -/
def chanCount (s : Dev) (n : Nat) (f : Chan → Bool) : Nat :=
  match mapAt s n with
  | some m => (m.chans.filter fun e => f e.2).length
  | none => 0

/-- DATA of PXP_DIAG STATUS. -/
def pxStatus (s : Dev) (n : Nat) : List Byte :=
  leBytes 4 (chanCount s n fun c => c.st == 2) ++ leBytes 4 (chanCount s n fun c => c.st == 3) ++ leBytes 4 (chanCount s n (·.dim)) ++
    leBytes 2 (rg s (R.PXP_SHORT n)).toNat

/-- PXP_DIAG CLEAR: every state to NEVER; during a locate it applies at the next frame start. -/
def pxClear (n : Nat) (s : Dev) : Dev :=
  modMap n (fun m => if m.locate = [] then { m with chans := [] } else { m with clearDue := true }) s

/-- Kind-specific bytes of QUERY for a map (R235). -/
def mapQuery (s : Dev) (n : Nat) : List Byte :=
  match mapAt s n with
  | some m =>
    [BitVec.ofNat 8 m.timing.mode, BitVec.ofNat 8 ((if (pxAt s n).disabled then 1 else 0) + (if m.blank then 2 else 0))] ++
      leBytes 2 (min 65535 (chanCount s n fun c => c.st == 2 || c.st == 3)) ++ leBytes 4 (unsgn 32 m.lastN)
  | none => []

/-- PXP's registers that show live state. -/
def pxView (s : Dev) (off : Nat) : Option Word :=
  let n := (off - 0x240000) / 0x1000
  let k := off % 0x1000
  let p := pxAt s n
  let b (x : Bool) : Nat := if x then 1 else 0
  let w (x : Nat) : Option Word := some (BitVec.ofNat 32 x)
  match k with
  | 0x000 =>
    w (match p.map with
      | some m => 1 + 2 * m.timing.mode + 8 * b (m.slotN.isSome && m.scan.isSome) + 16 * b m.blank + 65536 * unsgn 16 m.lastN
      | none => 0) |>.map fun v => v ||| BitVec.ofNat 32 (32 * b p.disabled) ||| rg s off
  | 0x004 => p.map.map fun m => BitVec.ofNat 32 (m.timing.s + 256 * m.timing.g + 65536 * m.timing.r + 2 ^ 24 * min 255 m.timing.ckDiv)
  | 0x008 =>
    p.map.bind fun m => (canvasAt s m.canvas).map fun c =>
      let cyc := if m.timing.mode = 0 then preNs m.timing m.c m.pixels else m.timing.cycle
      let room := c.timing.rateDen * 1000000000 / (c.timing.rateNum * m.timing.r)
      let slack := room - fitNs m.timing m.c m.pixels (fld s (F.PXP_DIAG_MIN_ON_NS n))
      BitVec.ofNat 32 (min 65535 (cdiv cyc 1000) + 65536 * min 65535 (slack / 1000))
  | 0x01C =>
    p.map.map fun m =>
      let next := (m.slotN.getD 0) + 1
      let e := fld s (F.PXP_PROBE_EVERY_FRAMES n)
      BitVec.ofNat 32 (((next / 4) % (m.timing.s : Int)).toNat + 64 * (next % 4).toNat +
        256 * (match m.probeDue with
          | some l => l
          | none => if e = 0 then 0 else (((next + e - 1) / (e : Int)) % (m.timing.s : Int)).toNat))
  | 0x024 =>
    p.map.map fun m =>
      let c := m.chan (4 * fld s (F.PXP_FAULT_SEL_PIXEL n) + fld s (F.PXP_FAULT_SEL_CHANNEL n))
      BitVec.ofNat 32 (c.st + 4 * b c.dim + 8 * b c.ride +
        65536 * (if c.st = 0 then 0 else min 65535 ((m.slotN.getD m.lastN) - c.frame).toNat))
  | 0x028 => w (chanCount s n fun c => c.st == 2)
  | 0x02C => w (chanCount s n fun c => c.st == 3)
  | 0x030 => w (chanCount s n (·.dim))
  | _ => none

end Sys2Proof.Machine
end

