-- ==== Sys2Proof/Machine/Cal.lean ====
section
/-! DEFINITION. Calibration and the identity fuses (chapter 16, R384-R389). -/

namespace Sys2Proof.Machine

/-- The rows of R388: item, instances, tolerance × 100, window × 100 (PLL: bands), trim bits. -/
def calItems : List (Nat × Nat × Nat × Nat × Nat) :=
  [(0, 1, 100, 1200, 6), (1, 2, 100, 1000, 6), (2, 1, 50, 400, 6), (3, 2, 100, 1600, 8), (4, 17, 100, 600, 5), (5, 4, 100, 600, 5),
   (6, 2, 100, 600, 5), (7, 3, 0, 2, 4), (8, 2, 150, 800, 5)]

/-- Instances of an item. -/
def calCount (item : Nat) : Nat := ((calItems.find? fun r => r.1 == item).map fun r => r.2.1).getD 0

/-- The key of an instance. -/
def calKey (item inst : Nat) : Nat := item * 32 + inst

/-- An instance measured (R387). -/
def calibrated (item inst : Nat) (r1 r2 : Int) : CalInst :=
  match calItems.find? fun r => r.1 == item with
  | none => ⟨r1, r2, 0, true, true, true⟩
  | some (_, _, tol, win, bits) =>
    let differ := decide (tol < (r1 - r2).natAbs)
    let outside := decide (2 * win < (r1 + r2 - 2 * Config.calBaseline item inst).natAbs)
    let suspect := differ || outside
    let code := if suspect then Config.calBaseCode item inst else Config.trimCode item inst (r1 + r2)
    ⟨r1, r2, code % 2 ^ bits, suspect, differ, outside⟩

/-- The two readings of an instance: those given, or free values where none is given (log 8). -/
def calReading (rs : List (Nat × Nat × Nat × Nat)) (item inst : Nat) (s : Dev) : Dev × Int × Int :=
  match rs.find? fun r => r.1 == item && r.2.1 == inst with
  | some r => (s, sgn 32 r.2.2.1, sgn 32 r.2.2.2)
  | none => (drawn (drawn s), sgn 32 (Config.freeNat s.free), sgn 32 (Config.freeNat (s.free + 1)))

/-- Measure one instance. -/
def calMeasure (rs : List (Nat × Nat × Nat × Nat)) (item inst : Nat) (s : Dev) : Dev :=
  let (s, r1, r2) := calReading rs item inst s
  { s with cal.insts := tput s.cal.insts (calKey item inst) (calibrated item inst r1 r2) }

/-- Every instance. -/
def calAll : List (Nat × Nat) := calItems.flatMap fun r => (List.range r.2.1).map fun i => (r.1, i)

/-- Instances marked SUSPECT. -/
def suspects (s : Dev) : Nat := (s.cal.insts.filter fun e => e.2.suspect).length

/-- CAL_SUMMARY (R388): once after CONFIGURE, if any instance is SUSPECT. -/
def postSummary (s : Dev) : Dev := if suspects s = 0 then s else postCode 0x02 9 0x02 (suspects s) s

/-- The instances that a RECALIBRATE names; none where one lies outside the table. -/
def calPick (item inst : Nat) : Option (List (Nat × Nat)) :=
  if item = 0xFF then
    if inst = 0xFF then some calAll else none
  else if calCount item = 0 then none
  else if inst = 0xFF then some (calAll.filter (·.1 == item))
  else if inst < calCount item then some [(item, inst)]
  else none

/-- Measure an instance again in SERVICE: one that becomes SUSPECT is posted. -/
def calRepeat (rs : List (Nat × Nat × Nat × Nat)) (e : Nat × Nat) (s : Dev) : Dev :=
  let was := (tget s.cal.insts (calKey e.1 e.2)).any (·.suspect)
  let s := calMeasure rs e.1 e.2 s
  if !was && (tget s.cal.insts (calKey e.1 e.2)).any (·.suspect) then postCode 0x02 9 0x01 (e.1 * 256 + e.2) s else s

/-- The fixture ports and MGT whose lanes a measurement takes down (R389). -/
def calPorts (e : Nat × Nat) : List Nat :=
  if e.1 = 4 then [e.2] else if e = (7, 0) then List.range 17 else []

/-- The valley links whose lanes it takes down. -/
def calLinks (e : Nat × Nat) : List Nat :=
  if e.1 = 5 then [e.2] else if e = (7, 2) then List.range 4 else []

/-! Identity (R384-R386) -/

/-- The slots whose key is revoked: either fuse of a bit is blown. -/
def revoked (s : Dev) : Nat := s.fuses.revokeA ||| s.fuses.revokeB

/-- The slots that hold no key hash. -/
def emptySlots (s : Dev) : Nat := ((List.range 4).map fun k => if s.fuses.hashes.getD k 0 = 0 then 2 ^ k else 0).sum

/-- Do the fuses read back with the CRC fused? -/
def fuseOk (f : Fuses) : Bool := fuseCrc f.lot f.wafer f.dieX f.dieY f.step f.hashes == f.crc

/-- Four lot characters as a word. -/
def lotWord (f : Fuses) (i : Nat) : Nat := leNat ((f.lot.drop (4 * i)).take 4 |>.map fun c => BitVec.ofNat 8 (lotChar c))

/-- ID's registers. -/
def idView (s : Dev) (off : Nat) : Option Word :=
  let f := s.fuses
  let w (n : Nat) : Option Word := some (BitVec.ofNat 32 n)
  if off = R.ID_LOT0 then w (lotWord f 0)
  else if off = R.ID_LOT1 then w (lotWord f 1)
  else if off = R.ID_WAFER then w (f.wafer + 256 * lowBits 8 f.dieX + 65536 * lowBits 8 f.dieY)
  else if off = R.ID_STEP then w f.step
  else if off = R.ID_UID_HI then w (fuseUid f / 2 ^ 32)
  else if off = R.ID_UID_LO then w (fuseUid f)
  else if off = R.ID_FUSE_CRC then w f.crc
  else if 0x10040 ≤ off ∧ off < 0x10140 ∧ (off - 0x10040) % 0x40 < 48 then
    w (f.hashes.getD ((off - 0x10040) / 0x40) 0 / 2 ^ (352 - (off - 0x10040) % 0x40 * 8))
  else none

/-- CAL's registers. -/
def calView (s : Dev) (off : Nat) : Option Word :=
  let item := fld s F.CAL_SEL_ITEM
  let inst := fld s F.CAL_SEL_INSTANCE
  let known := decide (inst < calCount item)
  let x := if known then tget s.cal.insts (calKey item inst) else none
  let b (v : Bool) : Nat := if v then 1 else 0
  let w (n : Nat) : Option Word := some (BitVec.ofNat 32 n)
  let bits := ((calItems.find? fun r => r.1 == item).map fun r => r.2.2.2.2).getD 0
  if off = R.CAL_READ1 then w ((x.map fun c => unsgn 32 c.r1).getD 0)
  else if off = R.CAL_READ2 then w ((x.map fun c => unsgn 32 c.r2).getD 0)
  else if off = R.CAL_BASELINE then w (if known then unsgn 32 (Config.calBaseline item inst) else 0)
  else if off = R.CAL_TRIM then
    w (((x.map fun c => c.applied + 65536 * b c.suspect + 131072 * b c.differ + 262144 * b c.outside).getD 0) +
      256 * (if known then Config.calBaseCode item inst % 2 ^ bits else 0))
  else if off = R.CAL_SUMMARY then
    w (((List.range 9).map fun i => if s.cal.insts.any fun e => e.2.suspect && e.1 / 32 == i then 2 ^ i else 0).sum +
      65536 * suspects s)
  else none

end Sys2Proof.Machine
end

