-- ==== Sys2Proof/Machine/Crypto.lean ====
section
/-! DEFINITION. SHA-384 and the ECDSA check over P-384 that authenticate firmware and configuration images (R363, R371). The spec
names the algorithms; their definitions are those of FIPS 180-4 and FIPS 186-5 (log 9, PRESUMED). -/

namespace Sys2Proof.Machine

/-! SHA-384 -/

/-- Rotate a 64-bit word right. -/
def ror64 (n x : Nat) : Nat := (x / 2 ^ n) ||| (x * 2 ^ (64 - n) % 2 ^ 64)

/-- The initial hash value. -/
def shaInit : List Nat :=
  [
    0xcbbb9d5dc1059ed8, 0x629a292a367cd507, 0x9159015a3070dd17, 0x152fecd8f70e5939,
    0x67332667ffc00b31, 0x8eb44a8768581511, 0xdb0c2e0d64f98fa7, 0x47b5481dbefa4fa4]

/-- The eighty constants. -/
def shaK : List Nat :=
  [
    0x428a2f98d728ae22, 0x7137449123ef65cd, 0xb5c0fbcfec4d3b2f, 0xe9b5dba58189dbbc,
    0x3956c25bf348b538, 0x59f111f1b605d019, 0x923f82a4af194f9b, 0xab1c5ed5da6d8118,
    0xd807aa98a3030242, 0x12835b0145706fbe, 0x243185be4ee4b28c, 0x550c7dc3d5ffb4e2,
    0x72be5d74f27b896f, 0x80deb1fe3b1696b1, 0x9bdc06a725c71235, 0xc19bf174cf692694,
    0xe49b69c19ef14ad2, 0xefbe4786384f25e3, 0xfc19dc68b8cd5b5, 0x240ca1cc77ac9c65,
    0x2de92c6f592b0275, 0x4a7484aa6ea6e483, 0x5cb0a9dcbd41fbd4, 0x76f988da831153b5,
    0x983e5152ee66dfab, 0xa831c66d2db43210, 0xb00327c898fb213f, 0xbf597fc7beef0ee4,
    0xc6e00bf33da88fc2, 0xd5a79147930aa725, 0x6ca6351e003826f, 0x142929670a0e6e70,
    0x27b70a8546d22ffc, 0x2e1b21385c26c926, 0x4d2c6dfc5ac42aed, 0x53380d139d95b3df,
    0x650a73548baf63de, 0x766a0abb3c77b2a8, 0x81c2c92e47edaee6, 0x92722c851482353b] ++
  [
    0xa2bfe8a14cf10364, 0xa81a664bbc423001, 0xc24b8b70d0f89791, 0xc76c51a30654be30,
    0xd192e819d6ef5218, 0xd69906245565a910, 0xf40e35855771202a, 0x106aa07032bbd1b8,
    0x19a4c116b8d2d0c8, 0x1e376c085141ab53, 0x2748774cdf8eeb99, 0x34b0bcb5e19b48a8,
    0x391c0cb3c5c95a63, 0x4ed8aa4ae3418acb, 0x5b9cca4f7763e373, 0x682e6ff3d6b2b8a3,
    0x748f82ee5defb2fc, 0x78a5636f43172f60, 0x84c87814a1f0ab72, 0x8cc702081a6439ec,
    0x90befffa23631e28, 0xa4506cebde82bde9, 0xbef9a3f7b2c67915, 0xc67178f2e372532b,
    0xca273eceea26619c, 0xd186b8c721c0c207, 0xeada7dd6cde0eb1e, 0xf57d4f7fee6ed178,
    0x6f067aa72176fba, 0xa637dc5a2c898a6, 0x113f9804bef90dae, 0x1b710b35131c471b,
    0x28db77f523047d84, 0x32caab7b40c72493, 0x3c9ebe0a15c9bebc, 0x431d67c49c100d4c,
    0x4cc5d4becb3e42b6, 0x597f299cfc657e2a, 0x5fcb6fab3ad6faec, 0x6c44198c4a475817]

/-- The next word of the message schedule, from the sixteen before it (oldest first). -/
def shaNext (w : List Nat) : Nat :=
  let x := w.getD 1 0
  let y := w.getD 14 0
  let s0 := ror64 1 x ^^^ ror64 8 x ^^^ (x / 2 ^ 7)
  let s1 := ror64 19 y ^^^ ror64 61 y ^^^ (y / 2 ^ 6)
  (w.getD 0 0 + s0 + w.getD 9 0 + s1) % 2 ^ 64

/-- One round for each constant; `w` holds the words of this round and the fifteen after it. -/
def shaRounds : List Nat → List Nat → List Nat → List Nat
  | [], _, v => v
  | k :: ks, w, v =>
    match v with
    | [a, b, c, d, e, f, g, h] =>
      let t1 := (h + (ror64 14 e ^^^ ror64 18 e ^^^ ror64 41 e) + ((e &&& f) ^^^ ((2 ^ 64 - 1 - e) &&& g)) + k + w.getD 0 0) % 2 ^ 64
      let t2 := ((ror64 28 a ^^^ ror64 34 a ^^^ ror64 39 a) + ((a &&& b) ^^^ (a &&& c) ^^^ (b &&& c))) % 2 ^ 64
      shaRounds ks (w.tail ++ [shaNext w]) [(t1 + t2) % 2 ^ 64, a, b, c, (d + t1) % 2 ^ 64, e, f, g]
    | _ => v

/-- The 64-bit words of a block of 128 bytes. -/
def shaWords (b : List Byte) : List Nat := (List.range 16).map fun i => beAt b (8 * i) 8

/-- One block. -/
def shaBlock (h : List Nat) (b : List Byte) : List Nat :=
  (h.zip (shaRounds shaK (shaWords b) h)).map fun e => (e.1 + e.2) % 2 ^ 64

/-- The padding of a message of `n` bytes. -/
def shaPad (n : Nat) : List Byte := [0x80] ++ List.replicate ((239 - n % 128) % 128) 0 ++ beBytes 16 (8 * n)

/-- The SHA-384 digest of a byte list. -/
def sha384 (m : List Byte) : List Byte :=
  let p := m ++ shaPad m.length
  ((((List.range (p.length / 128)).foldl (fun h i => shaBlock h ((p.drop (128 * i)).take 128)) shaInit).take 6).flatMap (beBytes 8))

/-! P-384 -/

/-- The field's prime. -/
def ecP : Nat := 2 ^ 384 - 2 ^ 128 - 2 ^ 96 + 2 ^ 32 - 1

/-- The group's order. -/
def ecN : Nat := 0xffffffffffffffffffffffffffffffffffffffffffffffffc7634d81f4372ddf581a0db248b0a77aecec196accc52973

/-- The curve's b; a is −3. -/
def ecB : Nat := 0xb3312fa7e23ee7e4988e056be3f82d19181d9c6efe8141120314088f5013875ac656398d8a2ed19d2a85c8edd3ec2aef

/-- The base point. -/
def ecG : Nat × Nat :=
  (0xaa87ca22be8b05378eb1c71ef320ad746e1d3b628ba79b9859f741e082542a385502f25dbf55296c3a545e3872760ab7,
   0x3617de4a96262c6f5d9e98bf9292dc29f8f41dbd289a147ce9da3113b5f0b8c00a60b1ce1d7e819d7a431d7c90ea0e5f)

/-- A power modulo a number, from the low `n` bits of the exponent. -/
def powMod (m : Nat) : Nat → Nat → Nat → Nat
  | 0, _, _ => 1 % m
  | n + 1, b, e => (if e % 2 = 1 then b else 1) * powMod m n (b * b % m) (e / 2) % m

/-- The inverse modulo a prime. -/
def invMod (m a : Nat) : Nat := powMod m 384 (a % m) (m - 2)

/-- Subtraction in the field. -/
def ecSub (a b : Nat) : Nat := (a + ecP - b % ecP) % ecP

/-- The chord or tangent through two points with slope `l`. -/
def ecLine (l : Nat) (p q : Nat × Nat) : Nat × Nat :=
  let x := ecSub (ecSub (l * l) p.1) q.1
  (x, ecSub (l * ecSub p.1 x) p.2)

/-- Addition of points; none is the point at infinity. -/
def ecAdd : Option (Nat × Nat) → Option (Nat × Nat) → Option (Nat × Nat)
  | none, q => q
  | p, none => p
  | some p, some q =>
    if p.1 = q.1 then
      if (p.2 + q.2) % ecP = 0 then none
      else some (ecLine (ecSub (3 * p.1 * p.1) 3 * invMod ecP (2 * p.2) % ecP) p q)
    else some (ecLine (ecSub q.2 p.2 * invMod ecP (ecSub q.1 p.1) % ecP) p q)

/-- The multiple of a point by the low `n` bits of a number. -/
def ecMul : Nat → Nat → Option (Nat × Nat) → Option (Nat × Nat)
  | 0, _, _ => none
  | n + 1, k, p => ecAdd (if k % 2 = 1 then p else none) (ecMul n (k / 2) (ecAdd p p))

/-- The point of an uncompressed public key; none where it is not one of the curve. -/
def ecKey (k : List Byte) : Option (Nat × Nat) :=
  let x := beAt k 1 48
  let y := beAt k 49 48
  if k.length = 97 ∧ at_ k 0 1 = 4 ∧ x < ecP ∧ y < ecP ∧ y * y % ecP = (x * x * x + (ecP - 3) * x + ecB) % ecP then some (x, y)
  else none

/-- Is `sig` (r then s, 48 bytes each, big-endian) a signature by a public key over a digest? -/
def ecdsaOk (key digest sig : List Byte) : Bool :=
  let r := beAt sig 0 48
  let v := beAt sig 48 48
  match ecKey key with
  | none => false
  | some q =>
    decide (0 < r ∧ r < ecN ∧ 0 < v ∧ v < ecN) &&
      (let w := invMod ecN v
       match ecAdd (ecMul 384 (beNat digest * w % ecN) (some ecG)) (ecMul 384 (r * w % ecN) (some q)) with
       | some p => p.1 % ecN == r
       | none => false)

end Sys2Proof.Machine
end

