-- ==== Sys2Proof/Machine/Boot.lean ====
section
/-! DEFINITION. The NOR as boot logic reads it, firmware images and their sources (chapter 15, R360-R366), and the reset of the
device (R25-R29). -/

namespace Sys2Proof.Machine

/-! The NOR (R360) -/

/-- Bytes of the NOR. -/
def norBytes (s : Dev) (a n : Nat) : List Byte := mgets 0xFF s.nor a n

/-- First byte of a bank: 0 A, 1 B. -/
def bankBase (b : Nat) : Nat := 0x30000 + b * 0x800000

/-- First byte of the staging area. -/
def stagingBase : Nat := 0x1030000

/-- First byte of the persistent log. -/
def logBase : Nat := 0x1830000

/-- The size of the NOR in bytes: NOR_MIB of the header in force, or 32 MiB (R359) without one. -/
def norSize (s : Dev) : Nat := ((s.boot.hdr.map (·.norMib)).getD 32) * 1048576

/-- The boot header (R361); none where it is not valid. -/
def bootHdrOf (b : List Byte) : Option BootHdr :=
  let ok := b.take 4 == [0x43, 0x50, 0x42, 0x48] && at_ b 4 2 == 1 && at_ b 508 4 == crc32c (b.take 508) &&
    decide (at_ b 6 1 ≤ 2 ∧ at_ b 7 1 ≤ 1 ∧ 25 ≤ at_ b 8 1 ∧ at_ b 8 1 ≤ 100 ∧ 32 ≤ at_ b 12 2 ∧ at_ b 12 2 ≤ 128 ∧
      1 ≤ at_ b 14 2 ∧ 1 ≤ at_ b 16 2)
  if ok then
    some { rate := at_ b 6 1, sigRequired := at_ b 7 1 == 1, norMhz := at_ b 8 1, norMib := at_ b 12 2, progUs := at_ b 14 2,
           eraseMs := at_ b 16 2, key0 := (b.drop 64).take 97, key1 := (b.drop 161).take 97 }
  else none

/-! Configuration images as stored (R367, R368) -/

/-- Padded payload length. -/
def pad8 (n : Nat) : Nat := cdiv n 8 * 8

/-- Does an image header with the right MAGIC and HCRC stand at an address? -/
def imageHead (s : Dev) (a : Nat) : Bool :=
  let h := norBytes s a 32
  h.take 4 == [0x43, 0x50, 0x43, 0x46] && at_ h 28 4 == crc32c (h.take 28)

/-- The payload of the port record with PORT 16 among at most `n` records from `pos` on, before `stop` (R366). -/
def findMgt (s : Dev) (stop : Nat) : Nat → Nat → Option (List Byte)
  | 0, _ => none
  | n + 1, pos =>
    if stop < pos + 8 then none
    else
      let h := norBytes s pos 8
      let len := at_ h 2 4
      if stop < pos + 8 + pad8 len then none
      else
        let r := norBytes s (pos + 8) 32
        if at_ h 0 2 = 0x1001 ∧ len = 32 ∧ at_ r 0 1 = 16 then some r else findMgt s stop n (pos + 8 + pad8 len)

/-- The MGT record of a bank. -/
def bankMgt (s : Dev) (b : Nat) : Option (List Byte) :=
  let a := bankBase b
  if imageHead s a then
    let len := leNat (norBytes s (a + 8) 4)
    if 144 ≤ len ∧ len ≤ 8388608 then findMgt s (a + len - 112) (leNat (norBytes s (a + 12) 4)) (a + 32) else none
  else none

/-- A journal record as 256 bytes spell it (R372). -/
def journalOf (b : List Byte) : Option Journal :=
  if b.take 4 = [0x43, 0x50, 0x4A, 0x52] ∧ at_ b 252 4 = crc32c (b.take 252) then
    some { seq := at_ b 4 8, state := at_ b 12 1, active := at_ b 13 1, prevValid := bit (at_ b 14 1) 0, fellBack := bit (at_ b 14 1) 1,
           conversion := bit (at_ b 14 1) 2, starts := at_ b 15 1, copied := at_ b 16 2, aSerial := at_ b 24 8, aIcrc := at_ b 32 4,
           aCf := at_ b 36 2, pCf := at_ b 38 2, pSerial := at_ b 40 8, pIcrc := at_ b 48 4, sLen := at_ b 52 4, sIcrc := at_ b 56 4,
           sSerial := at_ b 60 8 }
  else none

/-- The 256-byte pages of a range of the NOR that hold a byte other than 0xFF, numbered from its start, ascending. -/
def usedPages (s : Dev) (a n : Nat) : List Nat :=
  ((s.nor.filter fun e => decide (a ≤ e.1 ∧ e.1 < a + n)).map fun e => (e.1 - a) / 256).eraseDups

/-- The newest valid record of the two journal sectors and its page, 0–511. -/
def newestJournal (s : Dev) : Option (Journal × Nat) :=
  (usedPages s 0x10000 0x20000).foldl (fun best i =>
    match journalOf (norBytes s (0x10000 + 256 * i) 256), best with
    | some j, some (k, p) => if k.seq < j.seq then some (j, i) else some (k, p)
    | some j, none => some (j, i)
    | none, _ => best) none

/-- The port record MGT runs from before an image is applied (R240, R366), in the form it takes there; none: no usable one. -/
def mgtRecord (s : Dev) : Option PortRec :=
  let r := match newestJournal s with
    | some (j, _) => bankMgt s j.active
    | none => (bankMgt s 0).orElse fun _ => bankMgt s 1
  match r with
  | some b => if portRecOk b && decide ((portRecOf b).mode ≠ 0) then some { portRecOf b with pauseEn := false, rxBuffers := 1024 } else none
  | none => none

/-- MGT starts on that record, charging nothing. -/
def startMgt (x : PortRec) (s : Dev) : Dev := { applyPort 16 x s with hdl.used := s.hdl.used }

/-! Firmware images (R362, R363) -/

/-- Is an image authentic on this device? -/
def authentic (s : Dev) (b : List Byte) : Bool :=
  let slot := at_ b 40 1
  let key := (b.drop 48).take 97
  b.take 4 == [0x43, 0x50, 0x46, 0x57] && at_ b 4 4 == b.length && decide (4096 ≤ b.length ∧ slot ≤ 3) &&
    !bit (emptySlots s) slot && !bit (revoked s) slot && beNat (sha384 key) == s.fuses.hashes.getD slot 0 &&
    ecdsaOk key (sha384 (b.take (b.length - 96))) (b.drop (b.length - 96))

/-- The accepted image's registers. -/
def showFirmware (src : Nat) (b : List Byte) (s : Dev) : Dev :=
  let d := sha384 b
  let s := (List.range 12).foldl (fun s i => setRg (R.CTL_FW_DIGEST i) (BitVec.ofNat 32 (beAt d (4 * i) 4)) s) s
  let count := at_ b 22 1
  let cf (i : Nat) : Nat := if i < count then at_ b (24 + 2 * i) 2 else 0
  let s := (List.range 4).foldl (fun s i => setRg (R.CTL_CF_LIST i) (BitVec.ofNat 32 (cf (2 * i) + 65536 * cf (2 * i + 1))) s) s
  let s := setRg R.CTL_FW_VERSION (BitVec.ofNat 32 (at_ b 14 2 + 65536 * at_ b 13 1 + 2 ^ 24 * at_ b 12 1)) s
  let s := setRg R.CTL_FW_PROTO
    (BitVec.ofNat 32 (at_ b 17 1 + 256 * at_ b 16 1 + 65536 * at_ b 19 1 + 2 ^ 24 * at_ b 18 1)) s
  let s := setRg R.CTL_CF_NATIVE (BitVec.ofNat 32 (at_ b 20 2 + 65536 * (count % 16))) s
  setFld F.SYS_STATUS_FW_SOURCE src <| setFld F.BOOT_KEYS_FW_SLOT (at_ b 40 1) <| setBit F.BOOT_KEYS_FW_VALID true <|
    setFld F.BOOT_FW_STATUS_WINNER src <| setRg R.CTL_CORES 15 s

/-- The formats the running firmware reads. -/
def cfList (s : Dev) : List Nat :=
  (List.range (fld s F.CTL_CF_NATIVE_COUNT)).map fun i => (rg s (R.CTL_CF_LIST (i / 2))).toNat / (if i % 2 = 0 then 1 else 65536) % 65536

/-- The bytes of the firmware pages. -/
def fwBytes (s : Dev) (len : Nat) : List Byte :=
  (pieces 258 0 len).flatMap fun e => relRead s fwKey e.1 e.2

/-- Put an image into the firmware pages. -/
def fwStore (b : List Byte) (s : Dev) : Dev :=
  ((pieces 258 0 b.length).foldl (fun (a : Dev × List Byte) e => (relWrite fwKey e.1 (a.2.take e.2) a.1, a.2.drop e.2)) (s, b)).1

/-- Does the strap select a source: 0 PCIe, 1 MGT, 2 a neighbour (R28, R30)? -/
def sourceOn (s : Dev) (src : Nat) : Bool := fld s F.SYS_STRAPS_BOOT == src || fld s F.SYS_STRAPS_BOOT == 3

/-- A write of BOOT.FW_CTRL with GO (R365). -/
def fwGo (s : Dev) : Dev :=
  let len := fld s F.BOOT_FW_LEN_LEN
  if fld s F.BOOT_FW_STATUS_WINNER = 1 ∨ fld s F.BOOT_FW_STATUS_WINNER = 2 then setFld F.BOOT_FW_STATUS_RESULT rcBusy s
  else if s.sys.mode ≠ .load ∨ !sourceOn s 0 then s
  else if len < 4096 ∨ 16777216 < len then setFld F.BOOT_FW_STATUS_RESULT rcOutOfRange s
  else if s.boot.auth.any (·.1 == 0) then s
  else setFld F.BOOT_FW_STATUS_STATE 1 { s with boot.auth := s.boot.auth ++ [(0, len)] }

/-- FW_CTRL_GO (R365). -/
def runFwCtrlGo (t : Time) (v : Word) (s : Dev) : Host.Outcome Dev Fault Refusal :=
  let s := upTo t s
  .next (if pcieUp s && bar0Writable s R.BOOT_FW_CTRL && bit v.toNat 0 then fwGo s else s)

/-- A write of BOOT.REVOKE (R364). -/
def revoke (v : Word) (s : Dev) : Dev :=
  let slots := v.toNat % 16
  if v.toNat / 65536 ≠ 0xC5A1 then s
  else if s.sys.mode ≠ .service then setFld F.BOOT_KEYS_REVOKE_RESULT rcWrongMode s
  else if (bitOf s F.BOOT_KEYS_FW_VALID && bit slots (fld s F.BOOT_KEYS_FW_SLOT)) ||
      (List.range 4).all (fun k => bit (emptySlots s) k || bit (revoked s) k || bit slots k) then
    setFld F.BOOT_KEYS_REVOKE_RESULT rcConflict s
  else
    setFld F.BOOT_KEYS_REVOKE_RESULT rcDone
      { s with fuses.revokeA := s.fuses.revokeA ||| slots, fuses.revokeB := s.fuses.revokeB ||| slots }

/-- REVOKE_WRITE (R364). -/
def runRevokeWrite (t : Time) (v : Word) (s : Dev) : Host.Outcome Dev Fault Refusal :=
  let s := upTo t s
  .next (if pcieUp s && bar0Writable s R.BOOT_REVOKE then revoke v s else s)

/-! The loader (R366) -/

/-- A loader datagram: OP, SESSION, ARG. -/
def loaderSend (ip port op session arg : Nat) (payload : List Byte) (s : Dev) : Dev :=
  emit (.mgt ip port 49730 (leBytes 1 op ++ [0] ++ leBytes 2 session ++ leBytes 4 arg ++ payload)) s

/-- ACK of the open session. -/
def loaderAck (l : Loader) (s : Dev) : Dev :=
  loaderSend l.ip l.port 5 l.id l.next [] { s with boot.loader := some { l with ackAt := s.raw, acked := l.next } }

/-- A loader datagram for port 49730 (R366, R30). -/
def loaderRx (ip port : Nat) (b : List Byte) (s : Dev) : Dev :=
  let op := at_ b 0 1
  let arg := at_ b 4 4
  let n := b.length - 8
  if b.length < 8 ∨ (op ≠ 2 ∧ op ≠ 4) ∨ (op = 2 ∧ n ≠ 0) ∨ (op = 4 ∧ (n = 0 ∨ 1400 < n)) then bump R.BOOT_LOADER_DROPS s
  else if op = 2 then
    match s.boot.loader with
    | some l =>
      if l.ip = ip ∧ l.port = port then loaderSend ip port 3 l.id 0 [] s else loaderSend ip port 7 0 rcBusy [] s
    | none =>
      if s.sys.mode ≠ .load then loaderSend ip port 7 0 rcBusy [] s
      else if arg < 4096 ∨ 16777216 < arg then loaderSend ip port 7 0 rcOutOfRange [] s
      else
        let id := (s.boot.sessions + 1) % 65536
        setFld F.BOOT_LOADER_RECEIVED 0 <| loaderSend ip port 3 id 0 []
          { s with
            boot.sessions := s.boot.sessions + 1
            boot.loader := some { ip := ip, port := port, id := id, len := arg, next := 0, dataAt := s.raw, ackAt := s.raw,
                                  acked := 0, data := [] } }
  else
    match s.boot.loader with
    | none => s
    | some l =>
      if at_ b 2 2 ≠ l.id then s
      else if arg ≠ l.next ∨ l.next = l.len then loaderAck { l with dataAt := s.raw } s
      else if l.len < arg + n then bump R.BOOT_LOADER_DROPS s
      else
        let l := { l with next := arg + n, dataAt := s.raw, data := l.data ++ b.drop 8 }
        let s := setFld F.BOOT_LOADER_RECEIVED (l.next / 1024) { s with boot.loader := some l }
        let s := if l.acked + 65536 ≤ l.next then loaderAck l s else s
        if l.next = l.len then { s with boot.auth := s.boot.auth ++ [(1, l.len)] } else s

/-- Does the loader run: MGT is up, and selected as a source; in LOAD, or in a later mode to refuse offers. -/
def loaderUp (s : Dev) : Bool :=
  sourceOn s 1 && (portAt s 16).link == 2 && (s.sys.mode == .load || timeRuns s)

/-- LOADER_DATAGRAM_RX (R366). -/
def runLoaderDatagramRx (t : Time) (ip port : Nat) (b : List Byte) (s : Dev) : Host.Outcome Dev Fault Refusal :=
  let s := upTo t s
  .next (if loaderUp s then loaderRx ip port b s else s)

/-- The directed broadcast address of MGT's prefix. -/
def mgtBroadcast (s : Dev) : Nat :=
  let r := (portAt s 16).rec_
  let span := 2 ^ (32 - r.prefix_)
  r.ipv4 / span * span + (span - 1)

/-- LOADER_HELLO (R366): every 1 s while no session is open. -/
def runLoaderHello (t : Time) (s : Dev) : Host.Outcome Dev Fault Refusal :=
  let s := upTo t s
  let due := match s.boot.helloAt with
    | some v => decide (v + sec 1 ≤ s.raw)
    | none => true
  .next (if loaderUp s && s.sys.mode == .load && s.boot.loader.isNone && due then
      loaderSend (mgtBroadcast s) 49730 1 0 0
        (leBytes 8 (fuseUid s.fuses) ++ leBytes 1 s.fuses.step ++ leBytes 1 (fld s F.SYS_STRAPS_BOOT) ++ List.replicate 6 0)
        { s with boot.helloAt := some s.raw }
    else s)

/-- LOADER_ACK (R366): 10 ms after the last one; the one after 64 KiB goes out with the datagram that completes them. -/
def runLoaderAck (t : Time) (s : Dev) : Host.Outcome Dev Fault Refusal :=
  let s := upTo t s
  .next (match s.boot.loader with
    | some l => if s.sys.mode = .load ∧ l.ackAt + ms 10 ≤ s.raw then loaderAck l s else s
    | none => s)

/-- LOADER_SESSION_TIMEOUT (R366): a session whose image is not complete yet receives no DATA for 1 s. -/
def runLoaderSessionTimeout (t : Time) (s : Dev) : Host.Outcome Dev Fault Refusal :=
  let s := upTo t s
  .next (match s.boot.loader with
    | some l =>
      if s.sys.mode = .load ∧ l.next < l.len ∧ l.dataAt + sec 1 ≤ s.raw then
        setFld F.BOOT_LOADER_RECEIVED 0 { s with boot.loader := none }
      else s
    | none => s)

/-- BOOT's registers that show live state. -/
def bootView (s : Dev) (off : Nat) : Option Word :=
  let w (n : Nat) : Option Word := some (BitVec.ofNat 32 n)
  if off = R.BOOT_KEYS then
    some (F.BOOT_KEYS_REVOKED.into (F.BOOT_KEYS_EMPTY.into (rg s off) (emptySlots s)) (revoked s))
  else if off = R.BOOT_LOADER then
    let st : Nat :=
      if !sourceOn s 1 then 0
      else if s.sys.mode = .load then
        if !portOn s 16 then 1
        else
          match s.boot.loader with
          | some l => if l.next = l.len then 5 else 4
          | none => if (portAt s 16).link = 2 then 3 else 2
      else if fld s F.SYS_STATUS_FW_SOURCE = 1 then 5 else 0
    w (st + 256 * fld s F.BOOT_LOADER_RECEIVED)
  else none

/-! Modes (R24, R37) -/

/-- The device enters a mode. -/
def enterMode (m : Mode) (s : Dev) : Dev :=
  { s with sys.mode := m, sys.prev := s.sys.mode, sys.transitions := min (s.sys.transitions + 1) 65535 }

/-- Microseconds since the end of RESET, for a milestone. -/
def milestone (off : Nat) (s : Dev) : Dev := setRg off (BitVec.ofNat 32 ((s.raw - s.sys.tEnd) / us 1)) s

/-! Reset (R25, R26, R28) -/

/-- The bytes that an operation of the NOR can have touched when it is cut short: each holds a free value between what it held and
what it would hold (R44, log 24). -/
def tornBytes (s : Dev) (x : NorStep) : List (Nat × Byte) :=
  match x with
  | .erase n => (List.range 65536).map fun i =>
      (65536 * n + i, mget 0xFF s.nor (65536 * n + i) ||| Config.freeByte (s.free + i))
  | .program a b => ((List.range b.length).zip b).map fun e =>
      (a + e.1, mget 0xFF s.nor (a + e.1) &&& (e.2 ||| Config.freeByte (s.free + e.1)))

/-- The NOR once the device goes to RESET: the operation in progress is cut short. -/
def tornNor (s : Dev) : Mem × Nat :=
  match s.upd.jobs.head?.bind fun j => j.steps.head? with
  | some x => ((tornBytes s x).foldl (fun m e => mput 0xFF m e.1 e.2) s.nor, s.free + (tornBytes s x).length)
  | none => (s.nor, s.free)

/-- The device in RESET for a source, a bit of SYS.RESET_CAUSE: what it keeps is the NOR, the fuses, the pins, the test access
port, the commands that wait, and the straps, which only the end of POR_N or RST_N latches again. POR clears the other causes; a
reset by RST_N leaves PIN and the causes of sources still active (DEDUCED, log 23). -/
def resetBy (cause : Nat) (s : Dev) : Dev :=
  let active := s.sys.mode = .reset
  let causes := (if active then s.sys.causes else 0) ||| cause
  let old := (rg s R.SYS_RESET_CAUSE).toNat
  let shown := if cause = 1 then 1 else if cause = 2 ∧ ¬active then 2 else old ||| cause
  let r : Dev :=
    { raw := s.raw, free := (tornNor s).2, out := s.out, nor := (tornNor s).1, fuses := s.fuses, jtag := s.jtag,
      sys := { causes := causes, boot := s.sys.boot, testEn := s.sys.testEn, rstLow := s.sys.rstLow || cause == 2,
               perstLow := s.sys.perstLow, tripped := s.sys.tripped } }
  setRg R.SYS_RESET_CAUSE (BitVec.ofNat 32 shown) (setRg R.SYS_STRAPS (rg s R.SYS_STRAPS) r)

/-- POWER_ON_RESET (R25). -/
def runPowerOnReset (t : Time) (s : Dev) : Host.Outcome Dev Fault Refusal := .next (resetBy 1 (upTo t s))

/-- WARM_RESET (R25). -/
def runWarmReset (t : Time) (s : Dev) : Host.Outcome Dev Fault Refusal := .next (resetBy 2 (upTo t s))

/-- A write of SYS.RESET: GO with the key, any other write is ignored. -/
def writeReset (v : Word) (s : Dev) : Dev :=
  if bit v.toNat 0 ∧ v.toNat / 65536 = 0xC5A1 then resetBy 4 s else s

/-- SOFTWARE_RESET (R25). -/
def runSoftwareReset (t : Time) (v : Word) (s : Dev) : Host.Outcome Dev Fault Refusal :=
  let s := upTo t s
  .next (if pcieUp s && bar0Writable s R.SYS_RESET then writeReset v s else s)

/-- WATCHDOG_EXPIRY (R25): a control core that runs fails to refresh its watchdog. -/
def runWatchdogExpiry (t : Time) (core : Nat) (s : Dev) : Host.Outcome Dev Fault Refusal :=
  let s := upTo t s
  .next (if timeRuns s ∧ core < 4 then resetBy 8 s else s)

/-- JTAG_RESET (R25): the test access port alone, which then holds IDCODE (R422). -/
def runJtagReset (t : Time) (s : Dev) : Host.Outcome Dev Fault Refusal := .next { upTo t s with jtag := {} }

/-- The straps are latched where POR_N or RST_N was among the sources (R28); those two have ended. -/
def latchStraps (boot : Nat) (testEn : Bool) (s : Dev) : Dev :=
  if s.sys.causes % 4 ≠ 0 then
    setFld F.SYS_STRAPS_BOOT boot <| setBit F.SYS_STRAPS_TEST_EN testEn
      { s with sys.boot := boot % 8, sys.testEn := testEn, sys.rstLow := false }
  else { s with sys.rstLow := false }

/-- DAYBREAK begins: the raw counter counts from here, and a watchdog or a thermal trip among the causes is a fault. -/
def leaveReset (s : Dev) : Dev :=
  let cause := (rg s R.SYS_RESET_CAUSE).toNat
  enterMode .daybreak
    (setBit F.SYS_FAULT_WDOG (bit cause 3) (setBit F.SYS_FAULT_THERM (bit cause 4) { s with raw := 0 }))

/-- RESET_END (R26, R28, R29, R46): the last source has ended; with TEST_EN latched high the device stays in RESET. -/
def runResetEnd (t : Time) (boot : Nat) (testEn : Bool) (s : Dev) : Host.Outcome Dev Fault Refusal :=
  let s := upTo t s
  .next (if s.sys.mode = .reset ∧ !s.sys.tripped then
      let s := latchStraps boot testEn s
      if s.sys.testEn then s else leaveReset s
    else s)

/-- PCIE_FUNDAMENTAL_RESET (R27): in LOAD the partial image from PCIe is discarded. -/
def runPcieFundamentalReset (t : Time) (s : Dev) : Host.Outcome Dev Fault Refusal :=
  let s := upTo t s
  let s := { s with sys.perstLow := true }
  .next (if s.sys.mode = .load ∧ sourceOn s 0 ∧ !(s.boot.auth.any (·.1 == 0)) then
      (ptesOf s fwKey).foldl (fun s e => { s with plain := s.plain.filter fun x => x.1 / pageBytes != e.2.ppn }) s
    else s)

/-- PCIE_RESET_END (R27). -/
def runPcieResetEnd (t : Time) (s : Dev) : Host.Outcome Dev Fault Refusal := .next { upTo t s with sys.perstLow := false }

/-! DAYBREAK (R32-R34) -/

/-- The boot header is read (step 2). -/
def readBootHdr (s : Dev) : Dev :=
  let h := bootHdrOf (norBytes s 0 512)
  let v := match h with
    | some h => 1 + 2 * h.rate + (if h.sigRequired then 8 else 0) + 256 * h.norMhz + 65536 * h.norMib
    | none => 0x1900
  setRg R.BOOT_HDR (BitVec.ofNat 32 v) (setBit F.SYS_STATUS_HDR_VALID h.isSome { s with boot.hdr := h })

/-- DAYBREAK halts (R33). -/
def haltDaybreak (cause : Nat) (s : Dev) : Dev :=
  setFld F.CAL_HALT_CAUSE cause <| setBit F.SYS_FAULT_DAYBREAK true <| setBit F.SYS_STATUS_DB_FAIL true
    { s with sys.halted := true }

/-- PLN.TRAIN after training (step 5). -/
def showTraining (r : Daybreak) (s : Dev) : Dev :=
  let ok (ch : Nat) : Bool := r.trainStep == 0 || r.trainChannel != ch
  setBit F.PLN_TRAIN_CHA_OK (ok 0) <| setBit F.PLN_TRAIN_CHB_OK (ok 1) <| setFld F.PLN_TRAIN_FAIL_STEP r.trainStep <|
    setFld F.PLN_TRAIN_FAIL_CH (if r.trainStep = 0 then 0 else r.trainChannel) s

/-- PLN.CONFIG after training: the rate of the boot header, the size and the ranks found. -/
def showPlain (r : Daybreak) (s : Dev) : Dev :=
  let rate := match (s.boot.hdr.map (·.rate)).getD 0 with
    | 0 => 0
    | 1 => 1
    | _ => 2
  setFld F.PLN_CONFIG_RATE rate <| setBit F.PLN_CONFIG_SIZE r.size8 <| setBit F.PLN_CONFIG_RANKS r.ranks2 s

/-- The pages of the store are free. -/
def freeStore (s : Dev) : Dev := { s with pln.free := [(0, storePages s)] }

/-- Training (step 5). -/
def trainPlain (r : Daybreak) (s : Dev) : Dev := freeStore (showPlain r (showTraining r s))

/-- A bank of the scratchpad after its march (step 6): soft repairs while spares last (R104). -/
def spmBank (n fails : Nat) (s : Dev) : Dev :=
  let spare := fld s (F.SPM_BANK_SPARE_LEFT n)
  setFld (F.SPM_BANK_SOFT n) (min fails spare) <| setFld (F.SPM_BANK_SPARE_LEFT n) (spare - fails) <|
    setBit (F.SPM_BANK_UNREPAIRED n) (decide (spare < fails)) s

/-- The scratchpad BIST. -/
def spmTest (fails : List Nat) (s : Dev) : Dev :=
  let s := (List.range 16).foldl (fun s n => spmBank n (fails.getD n 0) s) s
  setBit F.SPM_BIST_DONE true <|
    setFld F.SPM_BIST_BANK_PASS (((List.range 16).map fun n => if bitOf s (F.SPM_BANK_UNREPAIRED n) then 0 else 2 ^ n).sum) s

/-- Entry into LOAD (step 8): the firmware pages are allocated (R85), and MGT starts where it is a source (R366). -/
def enterLoad (s : Dev) : Dev :=
  let s := mapPages fwKey 0 true false false 256 (milestone R.SYS_T_LOAD (enterMode .load s))
  let s := setFld F.BOOT_FW_BASE_BASE (((pteAt s fwKey 0).map (·.ppn)).getD 0) s
  let s := setBit F.SYS_STATUS_STRAP_BAD (decide (4 ≤ fld s F.SYS_STRAPS_BOOT)) s
  if sourceOn s 1 then
    match mgtRecord s with
    | some x => startMgt x s
    | none => s
  else s

/-- DAYBREAK's items in their order; the first halting fault ends them. -/
def daybreak (r : Daybreak) (s : Dev) : Dev :=
  let s := readBootHdr (setBit F.ID_FUSE_STATUS_CRC_OK (fuseOk s.fuses) (setBit F.ID_FUSE_STATUS_READ true s))
  if !fuseOk s.fuses then haltDaybreak 1 s
  else
    let s := calAll.foldl (fun s e => calMeasure r.cal e.1 e.2 s) s
    let s := trainPlain r s
    if r.trainStep ≠ 0 then haltDaybreak 2 s
    else
      let s := spmTest r.spmFail s
      if (List.range 16).any fun n => bitOf s (F.SPM_BANK_UNREPAIRED n) then haltDaybreak 3 s
      else
        let s := (List.range 8).foldl (fun s n => shortTest n ((r.pxpShort.filter (·.1 == n)).map (·.2)) s) s
        let s := (List.range 2).foldl (fun s n => modLine n (fun l => { l with short := r.dmxShort.contains n }) s) s
        enterLoad s

/-- DAYBREAK_END (R32, R33). -/
def runDaybreakEnd (t : Time) (r : Daybreak) (s : Dev) : Host.Outcome Dev Fault Refusal :=
  let s := upTo t s
  .next (if s.sys.mode = .daybreak ∧ !s.sys.halted then daybreak r s else s)

end Sys2Proof.Machine
end

