-- ==== Sys2Proof/Machine/Comp.lean ====
section
/-! DEFINITION. Completions, the argument area, and what decides whether a command is served (chapter 3, R52-R60). -/

namespace Sys2Proof.Machine

/-- What a command answers: its completion, nothing yet, or nothing at all because it reset the device (R25). -/
inductive Reply where
  | now (code : Nat) (handle : Word) (data : List Byte)
  | later
  | silent
  deriving DecidableEq, Repr

/-- DONE with DATA bytes. -/
def done (h : Word) (data : List Byte) : Reply := .now rcDone h data

/-- A refusal. -/
def failed (h : Word) (e : Refuse) : Reply := .now e.code h e.data

/-- A bare refusal. -/
def fails (h : Word) (code : Nat) : Reply := .now code h []

/-! The argument area (R52, R57): pages 6–21 of the ring key -/

/-- Bytes of the argument area. -/
def argBytes : Nat := 1048576

/-- Runs that stay inside one 64 KiB page. -/
def argPieces (off n : Nat) : List (Nat × Nat) := pieces (off / 65536 + n / 65536 + 2) off n

/-- Read `n` bytes of the argument area. -/
def argRead (s : Dev) (off n : Nat) : List Byte :=
  (argPieces off n).flatMap fun e => relRead s ringKey (6 * pageBytes + e.1) e.2

/-- Write a run of pieces. -/
def argPut : List (Nat × Nat) → List Byte → Dev → Dev
  | [], _, s => s
  | (a, n) :: r, bs, s => argPut r (bs.drop n) (relWrite ringKey (6 * pageBytes + a) (bs.take n) s)

/-- Write bytes of the argument area. -/
def argWrite (off : Nat) (bs : List Byte) (s : Dev) : Dev := argPut (argPieces off bs.length) bs s

/-! Completions (R54, R56, R58) -/

/-- Completions in the ring that the host has not read. -/
def cmpHeld (s : Dev) : Nat := (fld s F.HDL_CMP_TAIL_TAIL + 4096 - fld s F.HDL_CMP_HEAD_HEAD) % 4096

/-- Is there room for the completion of one more PCIe command? -/
def cmpRoom (s : Dev) : Bool :=
  decide (cmpHeld s + (s.cmd.outst.filter fun e => e.1.src == .pcie).length < 4095)

/-- HDL.STATUS.CMP_FULL follows the ring. -/
def cmpFull (s : Dev) : Dev := setBit F.HDL_STATUS_CMP_FULL (decide (4095 ≤ cmpHeld s)) s

/-- Vector 0 for an advance of the completion ring. -/
def cmpVector (irq : Bool) (s : Dev) : Dev :=
  let paced := match s.hdl.vec0Last with
    | some v => decide (v + us 10 ≤ s.raw)
    | none => true
  if irq || (bitOf s F.HDL_IRQ_CMP_EN && paced) then emit (.msix 0) { s with hdl.vec0Last := some s.raw, hdl.vec0Owed := false }
  else if bitOf s F.HDL_IRQ_CMP_EN then { s with hdl.vec0Owed := true }
  else s

/-- The 32 bytes of a completion. -/
def cmpEntry (code phase op : Nat) (h : CmdHdr) (handle : Word) (data : List Byte) : List Byte :=
  leBytes 1 code ++ leBytes 1 phase ++ leBytes 2 op ++ leBytes 4 h.tag.toNat ++ leBytes 4 handle.toNat ++ leBytes 2 h.slot ++ [0, 0] ++
    fit 16 data

/-- The reply datagram of a request whose entries have all been answered. -/
def mgtReply (m : MgtReq) (s : Dev) : Dev :=
  emit (.mgt m.ip m.port 49731 ([1] ++ leBytes 1 m.done.length ++ leBytes 2 m.seq ++ m.done.flatten)) s

/-- An MGT completion joins the reply of its datagram; the last one sends it. A command that stands in no datagram is answered
alone (log 19). -/
def mgtComplete (ip port : Nat) (slot : Nat) (entry : List Byte) (s : Dev) : Dev :=
  match s.cmd.mgt.find? fun m => m.ip == ip && m.port == port && m.open_.contains slot with
  | none => mgtReply { ip := ip, port := port, seq := 0, total := 1, todo := [], open_ := [], done := [entry] } s
  | some m =>
    let m' := { m with open_ := m.open_.filter (· != slot), done := m.done ++ [entry] }
    if m'.todo = [] ∧ m'.open_ = [] then mgtReply m' { s with cmd.mgt := s.cmd.mgt.filter (· != m) }
    else { s with cmd.mgt := s.cmd.mgt.map fun x => if x = m then m' else x }

/-- Post a completion. -/
def complete (h : CmdHdr) (op code : Nat) (handle : Word) (data : List Byte) (s : Dev) : Dev :=
  let s := bump R.HDL_CMD_DONE { s with cmd.outst := s.cmd.outst.filter fun e => e.1 != h }
  match h.src with
  | .pcie =>
    let tail := fld s F.HDL_CMP_TAIL_TAIL
    let phase := fld s F.HDL_CMP_TAIL_PHASE
    let s := relWrite ringKey (4 * pageBytes + 32 * tail) (cmpEntry code phase op h handle data) s
    let s := setFld F.HDL_CMP_TAIL_TAIL ((tail + 1) % 4096) s
    let s := if tail = 4095 then setFld F.HDL_CMP_TAIL_PHASE (1 - phase) s else s
    cmpVector h.irq (cmpFull s)
  | .mgt ip port => mgtComplete ip port h.slot (cmpEntry code 0 op { h with slot := h.slot % 16 } handle data) s

/-! Which commands are served -/

/-- The modes of a row of R59's table. "All" is CONFIGURE, ACTIVE, STANDBY, HOLD and SERVICE. -/
def opModes (op : Nat) (m : Mode) : Bool :=
  let active := m == .active
  let standby := m == .standby
  let service := m == .service
  if op ≤ 2 ∨ op = 5 then true
  else if op = 3 ∨ op = 4 then active || standby || service
  else if op = 6 ∨ op = 0x16 then active || standby
  else if (0x12 ≤ op ∧ op ≤ 0x15) ∨ op = 0x100 ∨ op = 0x101 ∨ op = 0x500 then active
  else if 0x200 ≤ op ∧ op ≤ 0x202 then active || standby
  else if 0x300 ≤ op ∧ op ≤ 0x303 then active || standby || service
  else if op = 0x400 then active || service
  else if op = 0x600 then active || standby
  else if 0x700 ≤ op ∧ op ≤ 0x702 then service
  else if (0x703 ≤ op ∧ op ≤ 0x709) ∨ op = 0x800 then active || standby || service
  else if op = 0x801 ∨ op = 0x802 then service
  else true

/-- The modes in which CREATE and DESTROY of a kind are accepted (R60). -/
def kindModes (kind : Nat) (m : Mode) : Bool :=
  m == .active || ((kind == 0xA || kind == 0xB || kind == 0xC || kind == 0xE) && (m == .standby || m == .service))

/-- Is the command interface there: from the beginning of CONFIGURE on (R32 step 12)? -/
def cmdUp (s : Dev) : Bool :=
  match s.sys.mode with
  | .reset => false
  | .daybreak => false
  | .load => false
  | _ => true

/-- Does a prefix cover an address? -/
def HostPrefix.covers (p : HostPrefix) (ip : Nat) : Bool := p.ip / 2 ^ (32 - p.len) == ip / 2 ^ (32 - p.len)

/-- Does the device take MGT commands from a host (R58)? -/
def mgtHost (s : Dev) (ip : Nat) : Bool :=
  if s.sys.mode = .service ∧ !s.sys.applied then true else s.hdl.hosts.any (·.covers ip)

/-- Can a command start now: nothing is fetched once a SET_MODE to CONFIGURE is completed (R55); a FENCE waits for every earlier
command, and a handle's commands go in order (R56). -/
def cmdFree (s : Dev) (h : CmdHdr) (handle : Word) : Bool :=
  cmdUp s && s.sys.gate.isNone && (!h.fence || s.cmd.outst.isEmpty) && (handle == 0 || !(s.cmd.outst.any fun e => e.2 == handle))

/-- Does a source's next command wait for nothing else: room in the completion ring (R54), a host that may command (R58)? -/
def srcMay (s : Dev) (src : CmdSrc) : Bool :=
  match src with
  | .pcie => cmpRoom s
  | .mgt ip _ => mgtHost s ip

/-- Can a command that has just come from a source start? -/
def cmdMayStart (s : Dev) (h : CmdHdr) (handle : Word) : Bool := cmdFree s h handle && srcMay s h.src

/-- The code that turns a command away before its own checks: its mode, and in CONFIGURE before the image is applied everything
but NOP, QUERY, REG_READ and LEDGER_READ (R59). -/
def opBarred (s : Dev) (op : Nat) : Bool :=
  !opModes op s.sys.mode || (s.sys.mode == .configure && !s.sys.applied && !(op ≤ 2 || op == 5))

/-- Serve a command: the mode check, its meaning, its completion. -/
def serve (h : CmdHdr) (op : Nat) (handle : Word) (body : Dev → Dev × Reply) (s : Dev) : Dev :=
  if opBarred s op then complete h op rcWrongMode handle [] s
  else
    match body s with
    | (s, .now code hd data) => complete h op code hd data s
    | (s, .later) => { s with cmd.outst := s.cmd.outst ++ [(h, handle)] }
    | (s, .silent) => s

/-- A command row: the command starts, or nothing happens where it cannot start now (log 3). -/
def command (h : CmdHdr) (op : Nat) (handle : Word) (body : Dev → Dev × Reply) (s : Dev) : Dev :=
  if cmdMayStart s h handle then serve h op handle body s else s

end Sys2Proof.Machine
end

