-- ==== Sys2Proof/Machine/Admit.lean ====
section
/-! DEFINITION. Admission (chapter 3, R65-R69), the send-window check (R186-R188) and the ready check of maps (R216). -/

namespace Sys2Proof.Machine

/-- The capacity of a ledger line (R65, R94); 0 for 29–31. -/
def capOf (s : Dev) (line : Nat) : Nat :=
  match line with
  | 0 =>
    match fld s F.PLN_CONFIG_RATE with
    | 0 => 15000
    | 1 => 17500
    | _ => 20000
  | 1 => storePages s - 4352
  | 2 => 320000000
  | 3 => 1280000000
  | 4 => 251658240
  | 5 => 4194304
  | 6 => 40000
  | 7 => 1966080
  | 8 => 409600
  | n => if n ≤ 24 then (portAt s (n - 9)).rec_.rate * 9 / 80 else if n ≤ 28 then 2812500000 else 0

/-- The lines a list of charges takes above capacity, with the shortfall of each. -/
def shortLines (s : Dev) (l : List (Nat × Nat)) : List (Nat × Nat) :=
  (List.range 29).filterMap fun n =>
    let need := usedOf s n + chargeOn l n
    if capOf s n < need then some (n, need - capOf s n) else none

/-- The refusal that short lines make (R68): the first line, its shortfall, the mask of all. -/
def noCapacity (l : List (Nat × Nat)) : Refuse :=
  { code := rcNoCapacity
    data := leBytes 4 ((l.headD (0, 0)).1) ++ leBytes 4 ((l.headD (0, 0)).2) ++ leBytes 4 (l.map fun e => 2 ^ e.1).sum }

/-- A refused request is counted when it would have charged the ledger (R68). -/
def countRefusal (e : Refuse) (s : Dev) : Dev := if e.code = rcNoCapacity then bump R.HDL_ADMIT_REFUSED s else s

/-- Objects charged on a line, those whose release is still owed included. -/
def chargedOn (s : Dev) (line : Nat) : Nat :=
  (s.hdl.objs.filter fun e => chargeOn e.2.charges line != 0).length + (s.hdl.dying.filter fun d => chargeOn d.charges line != 0).length

/-! The send-window check -/

/-- Tf in µs. -/
def Timing.tfUs (g : Timing) : Rat := (g.rateDen * 1000000 : Nat) / (g.rateNum : Nat)

/-- Tb in µs. -/
def Timing.tbUs (g : Timing) : Rat := (g.tfUs - g.tailUs) / (g.bands : Nat)

/-- The highest band among points of a canvas. -/
def topBand (c : Canvas) (l : List (Nat × Nat)) : Option Nat :=
  match l.map fun p => bandOf c p.2 with
  | [] => none
  | b :: r => some (r.foldl max b)

/-- The points that a universe's fixtures declare on its canvas. -/
def univPoints (s : Dev) (i : Nat) : List (Nat × Nat) := (fixturesOf s i).flatMap fun e => e.2.points

/-- Every release by a band (R176): canvas, band, work units. Universes without canvas points are released at the latch. -/
def releases (s : Dev) : List (Nat × Nat × Nat) :=
  (s.outp.univs.filterMap fun e =>
    e.2.canvas.bind fun k => (canvasAt s k).bind fun c =>
      (topBand c (univPoints s e.1)).map fun b => (k, b, ((fixturesOf s e.1).map fun f => f.2.units).sum)) ++
  (s.pxp.ports.filterMap fun e =>
    e.2.map.bind fun m => (canvasAt s m.canvas).bind fun c =>
      (topBand c (m.pixels.map fun p => (p.x, p.y))).map fun b => (m.canvas, b, m.pixels.length))

/-- Does a release of band `b` of canvas `o` fall in [d_k, D] of some pass of canvas `c` (R186)? Frame ticks of one domain keep their
places to one another; across domains every release may fall there (log 20). -/
def fallsIn (c o : Canvas) (same : Bool) (b k : Nat) : Bool :=
  if same then decide (k ≤ b)
  else if c.domain ≠ o.domain then true
  else
    let g : Rat := (Nat.gcd (c.timing.rateDen * o.timing.rateNum) (o.timing.rateDen * c.timing.rateNum) * 1000000 : Nat) /
      (c.timing.rateNum * o.timing.rateNum : Nat)
    let rel := ((b + 1 : Nat) : Rat) * o.timing.tbUs
    let lo := ((k + 1 : Nat) : Rat) * c.timing.tbUs
    decide (rel + (((lo - rel) / g).ceil : Rat) * g ≤ c.timing.tfUs - (c.timing.tailUs : Nat))

/-- a_c in µs (R186). -/
def allowance (s : Dev) (i : Nat) (c : Canvas) : Rat :=
  let rs := releases s
  (List.range c.timing.bands).foldl (fun a k =>
    let w := (rs.map fun r =>
      match canvasAt s r.1 with
      | some o => if fallsIn c o (decide (r.1 = i)) r.2.1 k then r.2.2 else 0
      | none => 0).sum
    max a ((w : Rat) / 320 + 20 - ((c.timing.bands - 1 - k : Nat) : Rat) * c.timing.tbUs)) 20

/-- TAIL + (LEAD − 1) × Tf in µs. -/
def Timing.budget (g : Timing) : Rat := (g.tailUs : Nat) + ((g.lead : Rat) - 1) * g.tfUs

/-- The hops of the passes to a device. -/
def hopsTo (s : Dev) (addr : Nat) : Nat := ((tget s.val.passes addr).map fun p => p.2.2).getD 0

/-- v_p in µs of a port of another device (R187): the universes this device sends there. -/
def valleyTerm (s : Dev) (valley dest : Nat) : Rat :=
  if valley = 0 then 0
  else
    let bx := ((s.outp.univs.filter fun e => e.2.valley == valley && e.2.dest == dest).map fun e => e.2.slots + 64).sum
    ((hopsTo s valley : Nat) : Rat) * 3 / 2 + ((bx * 8 : Nat) : Rat) / 22500

/-- B_p of a port and its line rate; of a port on another device what this device sends there, at 10 Gb/s (log 20). -/
def portLoad (s : Dev) (valley dest : Nat) : Nat × Nat :=
  if valley = 0 then (portBytes s dest, (portAt s dest).rec_.rate)
  else
    let l := (s.outp.univs.filter fun e => e.2.cls == 0 && e.2.dest == dest && e.2.valley == valley).map (·.2)
    ((l.map Univ.wire).sum + (if l.any (·.mode == 0) then 120 else 0), 10000000000)

/-- By how many bytes a port fails the check for canvas `i`; none where it passes (R188). -/
def portShort (s : Dev) (i : Nat) (c : Canvas) (a : Rat) (valley dest : Nat) : Option Nat :=
  let us' := s.outp.univs.filter fun e => e.2.canvas == some i && e.2.dest == dest && e.2.valley == valley
  let (b, rate) := portLoad s valley dest
  let free := c.timing.budget - a - valleyTerm s valley dest
  if rate = 0 then none
  else if (us'.any fun e => e.2.mode == 1) && decide (free < 0) then some b
  else if (us'.any fun e => e.2.mode == 0) && decide (free < ((b * 8000000 : Nat) : Rat) / (rate : Nat) + 70) then
    some (b - ((free - 70) * (rate : Nat) / 8000000).floor.toNat)
  else none

/-- The ports, as (valley, port), that carry universes of a canvas, in line order. -/
def canvasPorts (s : Dev) (i : Nat) : List (Nat × Nat) :=
  let l := (s.outp.univs.filter fun e => e.2.canvas == some i && !e.2.dmx).map fun e => (e.2.dest, e.2.valley)
  ((List.range 16).flatMap fun p => ((l.filter fun e => e.1 == p).eraseDups.map fun e => (e.2, p)))

/-- The check of R188 for every port that carries universes of a canvas: the failing PORT lines with their shortfalls. -/
def windowShort (s : Dev) (i : Nat) : List (Nat × Nat) :=
  match canvasAt s i with
  | none => []
  | some c =>
    let a := allowance s i c
    (canvasPorts s i).filterMap fun e => (portShort s i c a e.1 e.2).map fun n => (9 + e.2, n)

/-- The ready check of a map: its excess in ns, 0 where it passes (R216). -/
def readyExcess (s : Dev) (m : PxMap) : Nat :=
  match canvasAt s m.canvas with
  | none => 0
  | some c =>
    let need := allowance s m.canvas c + ((fillTime m : Nat) : Rat) / 65536000 + ((preNs m.timing m.c m.pixels : Nat) : Rat) / 1000
    if need ≤ c.timing.budget then 0 else ((need - c.timing.budget) * 1000).ceil.toNat

/-! What a record must still meet once it is in place -/

/-- The canvas whose send windows an object's record can change. -/
def pacedBy (s : Dev) (kind i : Nat) : Option Nat :=
  match kind with
  | 1 => ((tget s.outp.fixtures i).bind fun f => tget s.outp.univs f.univ).bind (·.canvas)
  | 2 => (tget s.outp.univs i).bind (·.canvas)
  | 7 => (mapAt s i).map (·.canvas)
  | _ => none

/-- The universes whose control-cycle chain an object's record can change (R304). -/
def chainOf (s : Dev) (kind i : Nat) : List Nat :=
  match kind with
  | 1 => ((tget s.outp.fixtures i).map (·.univ)).toList
  | 2 => [i]
  | 8 => (s.outp.univs.filter fun e => (zonesOf s e.1).contains i).map (·.1)
  | _ => []

/-- The checks that need the object in its place: the chain, the ready check (OUT_OF_RANGE with the excess). -/
def placedCheck (s : Dev) (kind i : Nat) : Except Refuse Unit :=
  match (chainOf s kind i).filterMap (chainExcess s) with
  | e :: r => .error { code := rcOutOfRange, data := leBytes 4 (r.foldl max e) }
  | [] =>
    match if kind = 7 then mapAt s i else none with
    | some m => if readyExcess s m = 0 then .ok () else .error { code := rcOutOfRange, data := leBytes 4 (readyExcess s m) }
    | none => .ok ()

/-- The send windows with the object in its place. -/
def placedWindow (s : Dev) (kind i : Nat) : List (Nat × Nat) := ((pacedBy s kind i).map (windowShort s)).getD []

end Sys2Proof.Machine
end

