-- ==== Sys2Proof/Machine/Objects.lean ====
section
/-! DEFINITION. The life of the objects of this device (chapter 3, R47-R51, R60-R62, R75, R79): records, creation, start, stop,
modification, destruction, release. -/

namespace Sys2Proof.Machine

/-! Records (R61, R368, R369) -/

/-- The record type that creates a kind. -/
def recTypeOf : Nat → Nat
  | 1 => 0x0101
  | 2 => 0x0201
  | 3 => 0x0301
  | 4 => 0x0401
  | 5 => 0x0501
  | 6 => 0x0601
  | 7 => 0x0701
  | 8 => 0x0801
  | 9 => 0x0901
  | 0xA => 0x0A01
  | 0xB => 0x0B01
  | 0xC => 0x0C03
  | 0xD => 0x0D01
  | 0xE => 0x0E01
  | _ => 0

/-- The size of a record of a kind with a fixed size; none for fixtures and maps. -/
def recSizeOf : Nat → Option Nat
  | 1 => none
  | 7 => none
  | 6 => some 48
  | 9 => some 24
  | 0xE => some 88
  | 0xC => some 8
  | 3 => some 16
  | 0xA => some 16
  | 0xB => some 16
  | 0xD => some 16
  | _ => some 32

/-- The class of a kind whose class is fixed. -/
def kindClass (kind : Nat) : Option Nat :=
  if kind = 1 ∨ kind = 2 then none else if kind = 8 ∨ kind = 9 then some 1 else some 0

/-- The payload of a record that CREATE or MODIFY carries as `len` bytes at `off` of the argument area, checked for type and
length. -/
def carried (s : Dev) (kind off len : Nat) : Except Refuse (List Byte) := do
  require (decide (off + len ≤ argBytes ∧ 8 ≤ len)) rcOutOfRange
  let b := argRead s off len
  let n := at_ b 2 4
  require (at_ b 0 2 == recTypeOf kind && at_ b 6 2 == 0) rcOutOfRange
  require (len == 8 + n || len == 8 + cdiv n 8 * 8) rcOutOfRange
  require (match recSizeOf kind with | some k => n == k | none => true) rcOutOfRange
  pure ((b.drop 8).take n)

/-- The check of a ring record (R114). -/
def ringPlan (s : Dev) (c : Ctx) (r : List Byte) : Check := do
  let _ := s
  let flags := at_ r 2 2
  let size := at_ r 4 4
  let vec := at_ r 8 1
  let depth := at_ r 12 4
  let onchip := size % 16 == 0 && decide (16 ≤ size ∧ size ≤ 4096)
  require (indexOk c (at_ r 0 2) 0xFFFF) rcOutOfRange
  require (decide (flags ≤ 3) && (onchip || (size % 8192 == 0 && decide (8192 ≤ size ∧ size ≤ 16777216)))) rcOutOfRange
  require ((vec == 0 || (decide (2 ≤ vec ∧ vec ≤ 63) && depth != 0)) && (!bit flags 1 || at_ r 9 1 == 0) && at_ r 10 2 == 0) rcOutOfRange
  pure { charges := [], refs := []
         install := fun _ s =>
           if onchip && decide (onchipFree s < size) then none
           else
             some { s with
               que.rings := tput s.que.rings c.idx
                 { size := size, hostWrite := bit flags 0, hostConsumer := bit flags 1, irqVec := vec, consumer := at_ r 9 1, irqDepth := depth } } }

/-- Zero the page behind an entry. -/
def zeroPage (ppn : Nat) (s : Dev) : Dev := { s with plain := s.plain.filter fun e => e.1 / pageBytes != ppn }

/-- The check of a check-job record (R391). -/
def jobPlan (s : Dev) (c : Ctx) (r : List Byte) : Check := do
  let _ := s
  let n := at_ r 4 2
  require (indexOk c (at_ r 0 2) 0xFFFF) rcOutOfRange
  require (decide (at_ r 2 1 ≤ 4 ∧ at_ r 3 1 ≤ 1 ∧ n ≤ 256 ∧ at_ r 6 2 = 0)) rcOutOfRange
  pure { charges := [], refs := []
         install := fun _ s =>
           if s.pln.stopped ∨ poolPages < poolUsed s + n ∨ segCount s.pln.free < n then none
           else
             let k := okey 0xC c.idx
             let s := mapPages k 0 false (at_ r 3 1 == 1) false n s
             let s := (ptesOf s k).foldl (fun s e => zeroPage e.2.ppn s) s
             let s := setFld F.PLN_POOL_PEAK (max (fld s F.PLN_POOL_PEAK) (poolUsed s)) s
             some { s with chk.jobs := tput s.chk.jobs c.idx { alg := at_ r 2 1, hostWrite := at_ r 3 1 == 1, pages := n } } }

/-- The check of a record of a kind; a migration record stands with the valley. -/
def planOf (s : Dev) (c : Ctx) (kind : Nat) (r : List Byte) : Check :=
  match kind with
  | 1 => fixturePlan s c r
  | 2 => univPlan s c r
  | 3 => inputPlan s c r
  | 4 => streamPlan s c r
  | 5 => canvasPlan s c r
  | 6 => layerPlan s c r
  | 7 => mapPlan s c r
  | 8 => zonePlan s c r
  | 9 => sensorPlan s c r
  | 0xA => ringPlan s c r
  | 0xB => actionPlan s c r
  | 0xC => jobPlan s c r
  | 0xE => identPlan s c r
  | _ => refuse rcOutOfRange

/-! Creation -/

/-- The index of a new object (R48, R61, R209): `want` is the requested one, and the record's fields are checked before its use
(log 4). -/
def pickIndex (s : Dev) (kind : Nat) (want : Option Nat) (r : List Byte) : Except Refuse Nat :=
  let named (i : Nat) : Except Refuse Nat :=
    if kindLimit kind ≤ i then refuse rcOutOfRange else .ok i
  match want with
  | some i => named i
  | none =>
    if kind = 7 then named (at_ r 0 1)
    else
      match segTake (freeIdx s kind) with
      | some (i, _) => .ok i
      | none => refuse rcNoSpace

/-- An index in use is a conflict (R61). -/
def indexFree (s : Dev) (kind i : Nat) : Except Refuse Unit := require (segHas (freeIdx s kind) i) rcConflict

/-- The object a plan makes in its place, nothing charged yet; none where an inbox, a sample index, pages or an action lack. -/
def installPlan (c : Ctx) (kind : Nat) (p : Plan) (s : Dev) : Option Dev :=
  let k := okey kind c.idx
  let o : HObj := { gen := genOf s k, state := if kind ≤ 9 then 1 else 0, cls := c.cls, prio := c.prio, charges := p.charges,
                    refs := p.refs, startAt := 0, startCmd := 0 }
  p.install (mkHandle kind (genOf s k) c.idx)
    (setObj k o { s with hdl.slots := tput s.hdl.slots kind (segPick (freeIdx s kind) c.idx) })

/-- Admission of a plan (R68, R185, R213): the checks that need the object in its place, the ledger, room, the send windows. -/
def admitPlan (c : Ctx) (kind : Nat) (p : Plan) (s : Dev) : Except Refuse Dev := do
  let placed := installPlan c kind p s
  match placed with
  | some s1 => placedCheck s1 kind c.idx
  | none => pure ()
  match shortLines s p.charges with
  | [] => pure ()
  | l => .error (noCapacity l)
  match placed with
  | none => refuse rcNoSpace
  | some s1 =>
    match placedWindow s1 kind c.idx with
    | [] => pure (chargeAll p.charges s1)
    | l => .error (noCapacity l)

/-! START and STOP (R49, R79) -/

/-- Is a level held by the governor (R72)? -/
def levelHeld (s : Dev) (cls prio : Nat) : Bool := bit (fld s (if cls = 0 then F.HDL_HELD_SHOW else F.HDL_HELD_SITE)) prio

/-- A stream joins its group (R129): its loss timer starts. -/
def joinStream (i : Nat) (s : Dev) : Dev :=
  match tget s.vid.streams i with
  | some x =>
    joinGroup x.port x.group (okey 4 i) x.source x.vlan
      (setStream i { x with joined := true, frame := none, lastSeq := none, heard := s.raw } s)
  | none => s

/-- A stream leaves its group: the frame it was writing is given up. -/
def leaveStream (i : Nat) (s : Dev) : Dev :=
  match tget s.vid.streams i with
  | some x => if x.joined then leaveGroup x.port x.group (okey 4 i) x.vlan (setStream i { x with joined := false, frame := none } s) else s
  | none => s

/-- Streams and input universes whose start time has come begin to receive (R79). -/
def startDue (s : Dev) : Dev :=
  let due (k : Nat) : Bool :=
    match objAt s k with
    | some o => (o.state == 2 || o.state == 4) && decide ((o.startAt : Int) ≤ domTime s 0)
    | none => false
  let s1 := (s.vid.streams.filter fun e => !e.2.joined && due (okey 4 e.1)).foldl (fun s e => joinStream e.1 s) s
  (s.outp.inputs.filter fun e => e.2.frozen.isSome && due (okey 3 e.1)).foldl (fun s e => startInput e.1 s) s1

/-- A channel that has stopped, or whose level is held, is in the state the governor leaves it in. -/
def holdObj (k : Nat) (held : Bool) (s : Dev) : Dev :=
  match objAt s k with
  | some o =>
    if held ∧ o.state = 2 then
      let s := setObj k { o with state := 4 } s
      if k / 2 ^ 20 = 8 then freezeZone (k % 2 ^ 20) s else s
    else if !held ∧ o.state = 4 then setObj k { o with state := 2 } s
    else s
  | none => s

/-- START of a channel: `at_` is the start time, 0 for NOW. -/
def startObj (k at_ : Nat) (s : Dev) : Dev :=
  match objAt s k with
  | some o =>
    if o.state = 1 ∨ o.state = 3 then
      let i := k % 2 ^ 20
      let s := setObj k { o with state := 2, startAt := at_, startCmd := s.raw } s
      let s := match k / 2 ^ 20 with
        | 2 => startSiteUniv i s
        | 3 => { s with outp.inputs := tmod s.outp.inputs i fun u => { u with frozen := u.frozen <|> some s.raw } }
        | 8 => zoneOverride i s
        | _ => s
      startDue (holdObj k (levelHeld s o.cls o.prio) s)
    else s
  | none => s

/-- STOP of a channel. -/
def stopObj (k : Nat) (s : Dev) : Dev :=
  match objAt s k with
  | some o =>
    if o.state = 2 ∨ o.state = 4 then
      let i := k % 2 ^ 20
      let s := setObj k { o with state := 3 } s
      match k / 2 ^ 20 with
      | 2 => endUniv i s
      | 3 => if (inputAt s i).any (·.frozen.isNone) then stopInput i s else s
      | 4 => leaveStream i (loseStream i s)
      | 8 => freezeZone i s
      | _ => s
    else s
  | none => s

/-! DESTROY (R50) -/

/-- An object that refers to a key, itself left out. -/
def referrer (s : Dev) (k : Nat) : Option Nat := (s.hdl.objs.find? fun e => e.1 != k && e.2.refs.contains k).map (·.1)

/-- The sync charge of a port passes to the lowest sync-mode universe that remains there when the one that carried it goes. -/
def moveSync (i : Nat) (s : Dev) : Dev :=
  match tget s.outp.univs i, objAt s (okey 2 i) with
  | some u, some o =>
    let line := 9 + u.dest
    let mine := o.charges.filter fun e => e.1 == line
    if u.remote ∨ u.dmx ∨ mine.length < 2 then s
    else
      match s.outp.univs.find? fun e => e.1 != i && e.2.samePort u && e.2.mode == 0 with
      | none => s
      | some e =>
        let sync := mine.getLastD (line, 0)
        let s := setObj (okey 2 i) { o with charges := (o.charges.filter fun c => c.1 != line) ++ mine.dropLast } s
        modObj (okey 2 e.1) (fun o => { o with charges := o.charges ++ [sync] }) s
  | _, _ => s

/-- What an object holds in its block goes. -/
def dropObj (kind i : Nat) (s : Dev) : Dev :=
  match kind with
  | 1 =>
    let s := match (tget s.outp.fixtures i).bind (·.canvas) with
      | some c => dropPoints (okey 1 i) c s
      | none => s
    { s with outp.fixtures := tdel s.outp.fixtures i }
  | 2 => removeUniv i (moveSync i s)
  | 3 =>
    let s := joinInput i false s
    destroyTask (32768 + i) { s with outp.inputs := tdel s.outp.inputs i }
  | 4 => destroyTask (40960 + i) { s with vid.streams := tdel s.vid.streams i }
  | 5 => destroyTask (40976 + i) { s with vid.canvases := tdel s.vid.canvases i }
  | 6 => dropLayer i s
  | 7 => dropMap i s
  | 8 => destroyTask (36864 + i) { s with site.zones := tdel s.site.zones i }
  | 9 => { s with site.sensors := tdel s.site.sensors i }
  | 0xA =>
    { s with
      que.rings := tdel s.que.rings i
      que.resv := s.que.resv.map fun q => if q.ring = i then { q with dead := true } else q }
  | 0xB => dropAction i s
  | 0xC => { s with chk.jobs := tdel s.chk.jobs i, chk.shows := tdel s.chk.shows i }
  | 0xD => { s with val.migs := tdel s.val.migs i }
  | 0xE => { s with outp.idents := tdel s.outp.idents i }
  | _ => s

/-- A page leaves its owner: to the tail of the free list, or retired where it was marked (R92). -/
def freePage (p : Pte) (s : Dev) : Dev :=
  if p.rt then
    postCode 0x09 0xB 0x03 (p.ppn * 8192) (bump R.PLN_RETIRED { s with pln.retired := s.pln.retired ++ [p.ppn] })
  else { s with pln.free := segGive s.pln.free p.ppn }

/-- Every page of a key is freed. -/
def freePages (k : Nat) (s : Dev) : Dev :=
  let ps := ptesOf s k
  let s := { s with
    pln.ptes := s.pln.ptes.filter fun e => e.1 / 65536 != k
    pln.xlat := (s.pln.xlat.map fun e => (e.1, e.2.filter fun x => x / 65536 != k)).filter fun e => e.2 != [] }
  ps.foldl (fun s e => freePage e.2 s) s

/-- The charge and the pages of a destroyed handle are returned and its index is free (R48, R50). -/
def releaseObj (d : Dying) (s : Dev) : Dev :=
  let s := { s with hdl.dying := s.hdl.dying.filter (· != d) }
  releaseIdx (hKey d.handle) (freePages (hKey d.handle) (creditAll d.charges s))

/-- DESTROY: as STOP, then the object leaves its block, and its handle is no longer valid. A kind without frames is released at
once (log 21). -/
def destroyObj (k : Nat) (s : Dev) : Dev :=
  let h := handleOf s k
  let s := stopObj k s
  let s := dropObj (k / 2 ^ 20) (k % 2 ^ 20) s
  match objAt s k with
  | some o =>
    let d : Dying := ⟨h, o.charges⟩
    let s := { s with hdl.objs := tdel s.hdl.objs k, hdl.dying := s.hdl.dying ++ [d] }
    if k / 2 ^ 20 ≤ 9 then s else releaseObj d s
  | none => s

/-- HANDLE_RELEASE (R50): the frame in progress at the DESTROY has completed. -/
def runHandleRelease (t : Time) (h : Word) (s : Dev) : Host.Outcome Dev Fault Refusal :=
  let s := upTo t s
  .next (match s.hdl.dying.find? fun d => d.handle == h with
    | some d => releaseObj d s
    | none => s)

/-! SET_PRIORITY and MODIFY (R62) -/

/-- The task of a channel. -/
def taskOf (kind i : Nat) : Option Nat :=
  match kind with
  | 2 => some i
  | 3 => some (32768 + i)
  | 4 => some (40960 + i)
  | 5 => some (40976 + i)
  | 7 => some (40984 + i)
  | 8 => some (36864 + i)
  | _ => none

/-- A channel takes a priority: its shedding level at once, its task's level at the next dispatch (R109). -/
def setPrio (k p : Nat) (s : Dev) : Dev :=
  match objAt s k with
  | none => s
  | some o =>
    let s := setObj k { o with prio := p } s
    let s := match taskOf (k / 2 ^ 20) (k % 2 ^ 20) with
      | some n => { s with sch.tasks := tmod s.sch.tasks n fun t => { t with nextLevel := levelOf o.cls p } }
      | none => s
    holdObj k (levelHeld s o.cls p) s

/-- The new record of an object in its place, with its charges and references. -/
structure Renewed where
  state : Dev
  charges : List (Nat × Nat)
  refs : List Nat

/-- A fixture under a new record: its points are taken anew, what it has written stays. -/
def renewFixture (s : Dev) (c : Ctx) (r : List Byte) : Except Refuse Renewed := do
  let old := tget s.outp.fixtures c.idx
  let s0 := match old.bind (·.canvas) with
    | some k => dropPoints (okey 1 c.idx) k s
    | none => s
  let (f, charges, refs) ← fixtureCheck s c r
  let f := match old with
    | some g => { f with last := g.last, prev := g.prev, lastFrame := g.lastFrame, repeated := g.repeated, staleAt := g.staleAt }
    | none => f
  match installFixture c.idx f s0 with
  | some s1 => pure ⟨postScaled c.idx f s1, charges, refs⟩
  | none => refuse rcNoSpace

/-- A universe under a new record keeps its numbers and payloads; its fixtures' canvas must stay the canvas that paces it (R159). -/
def renewUniv (s : Dev) (c : Ctx) (r : List Byte) : Except Refuse Renewed := do
  let u ← univCheck s c r
  require ((fixturesOf s c.idx).all fun e => e.2.canvas.isNone || e.2.canvas == u.canvas) rcConflict
  match tget s.outp.univs c.idx with
  | none => refuse rcBadHandle
  | some old =>
    let v := { u with handle := old.handle, seq := old.seq, frame := old.frame, latchAt := old.latchAt, payload := old.payload, payFrame := old.payFrame,
                      prev := old.prev, lastSent := old.lastSent, terms := old.terms, tickK := old.tickK }
    let charges := univCharges s c.idx v (univRate s v)
    let s1 := { s with outp.univs := tput s.outp.univs c.idx v }
    let syncs (s : Dev) (k : Nat) : Bool := s.outp.univs.any fun e => e.2.canvas == some k && e.2.mode == 0 && !e.2.remote
    let s1 := match old.canvas with
      | some k => if syncs s1 k then s1 else giveAction k s1
      | none => s1
    let s2 := match v.canvas with
      | some k => if syncs s1 k && (heldAction s1 k).isNone then (takeAction k 2 k s1).map (·.2) else some s1
      | none => some s1
    match s2 with
    | none => refuse rcNoSpace
    | some s2 =>
      let s2 := if v.cls = 1 ∧ v.rate ≠ old.rate then startSiteUniv c.idx s2 else s2
      pure ⟨s2, charges, (v.canvas.map fun k => okey 5 k).toList ++ (if v.dmx then [] else [okey 0xE v.ident])⟩

/-- A stream under a new record: its buffers are pinned anew where their size changes, and it joins anew (R129). -/
def renewStream (s : Dev) (c : Ctx) (r : List Byte) (p : Plan) : Except Refuse Renewed := do
  let x := streamOf r
  match tget s.vid.streams c.idx with
  | none => refuse rcBadHandle
  | some old =>
    let layers := s.vid.layers.filter fun e => e.2.source == some c.idx
    require (layers.all fun e =>
      (e.2.live :: (e.2.pend1.toList ++ e.2.pend2.toList)).all fun l => l.ok (some (x.width, x.height))) rcOutOfRange
    let s0 := leaveStream c.idx s
    let size := pinnedOf s0 (okey 4 c.idx)
    let s1 := if size = 3 * x.bp then some s0 else pinPages (okey 4 c.idx) 0 (3 * x.bp) false (freePages (okey 4 c.idx) s0)
    match s1 with
    | none => refuse rcNoSpace
    | some s1 =>
      let s2 := setStream c.idx { x with lost := old.lost } s1
      pure ⟨if old.joined then joinStream c.idx s2 else s2, p.charges, p.refs⟩

/-- The state with an object's new record in force. -/
def renew (s : Dev) (c : Ctx) (kind : Nat) (r : List Byte) : Except Refuse Renewed :=
  let i := c.idx
  match kind with
  | 1 => renewFixture s c r
  | 2 => renewUniv s c r
  | 5 =>
    match canvasAt s i, objAt s (okey 5 i) with
    | some x, some o =>
      if indexOk c (at_ r 0 2) 0xFFFF && canvasOk r then
        match canvasModify x r with
        | some y => .ok ⟨setCanvas i y s, o.charges, o.refs⟩
        | none => refuse rcOutOfRange
      else refuse rcOutOfRange
    | _, _ => refuse rcBadHandle
  | 6 =>
    match tget s.vid.layers i with
    | none => refuse rcBadHandle
    | some l => do
      let y ← layerModify s i l r
      match canvasAt s l.canvas with
      | none => refuse rcBadHandle
      | some cv =>
        pure ⟨{ s with vid.layers := tput s.vid.layers i y }, layerCharges s cv.samples y.source cv.timing,
          okey 5 l.canvas :: (y.source.map (okey 4)).toList⟩
  | 7 =>
    match mapAt s i with
    | none => refuse rcBadHandle
    | some old => do
      let (m, g) ← mapCheck s c r
      match mapModify old m with
      | none => refuse rcOutOfRange
      | some m =>
        match placeMap i m (dropPoints (okey 7 i) m.canvas s) with
        | some s1 => pure ⟨s1, mapCharges m g, [okey 5 m.canvas]⟩
        | none => refuse rcNoSpace
  | 3 => do
    let p ← inputPlan s c r
    pure ⟨allOverrides (modifyInput i (inputOf r) s), p.charges, p.refs⟩
  | 4 => do
    let p ← streamPlan s c r
    renewStream s c r p
  | 8 => do
    let p ← zonePlan s c r
    match zoneAt s i with
    | some y => pure ⟨zoneOverride i (setZone i (y.renew (zoneOf r) s) s), p.charges, p.refs⟩
    | none => refuse rcBadHandle
  | 9 => do
    let p ← sensorPlan s c r
    match tget s.site.sensors i with
    | some y =>
      let x := { sensorOf r s.raw with value := y.value, heard := y.heard, born := y.born }
      pure ⟨{ s with site.sensors := tput s.site.sensors i x }, p.charges, p.refs⟩
    | none => refuse rcBadHandle
  | _ => refuse rcBadHandle

/-- The increase of each line between two lists of charges. -/
def increase (old new : List (Nat × Nat)) : List (Nat × Nat) :=
  (List.range 29).filterMap fun n => if chargeOn old n < chargeOn new n then some (n, chargeOn new n - chargeOn old n) else none

/-- MODIFY of a channel of this device with a record (R62): an increase is admitted, else it applies without admission. -/
def modifyObj (k : Nat) (r : List Byte) (s : Dev) : Except Refuse Dev :=
  let s := if k / 2 ^ 20 = 2 then moveSync (k % 2 ^ 20) s else s
  match objAt s k with
  | none => refuse rcBadHandle
  | some o => do
    let kind := k / 2 ^ 20
    let c : Ctx := { how := .modify, idx := k % 2 ^ 20, cls := o.cls, prio := o.prio }
    require (match kind with
      | 1 => at_ r 32 1 == o.cls
      | 2 => at_ r 30 1 == o.cls
      | _ => true) rcOutOfRange
    let n ← renew s c kind r
    placedCheck n.state kind c.idx
    let up := increase o.charges n.charges
    match if up = [] then [] else shortLines s up with
    | [] => pure ()
    | l => .error (noCapacity l)
    match placedWindow n.state kind c.idx with
    | [] =>
      pure (modObj k (fun o => { o with charges := n.charges, refs := n.refs }) (chargeAll n.charges (creditAll o.charges n.state)))
    | l => .error (noCapacity l)

end Sys2Proof.Machine
end

