-- ==== Sys2Proof/Machine/Upd.lean ====
section
/-! DEFINITION. The NOR's operations, the journal and the update session (chapter 15, R359, R372-R382). -/

namespace Sys2Proof.Machine

/-! Operations of the NOR -/

/-- The NOR after an operation: an erase sets bits, a program clears them. -/
def norStep (x : NorStep) (m : Mem) : Mem :=
  match x with
  | .erase n => m.filter fun e => e.1 / 65536 != n
  | .program a b => mputs 0xFF m a (((List.range b.length).zip b).map fun e => mget 0xFF m (a + e.1) &&& e.2)

/-- An operation completes, counted. -/
def norApply (x : NorStep) (s : Dev) : Dev :=
  let s := { s with nor := norStep x s.nor }
  match x with
  | .erase _ => bump R.UPD_NOR_ERASES s
  | .program _ _ => bump R.UPD_NOR_PROGRAMS s

/-- The page programs that write bytes from an address on. -/
def norPages : Nat → Nat → List Byte → List NorStep
  | 0, _, _ => []
  | n + 1, a, b =>
    if b = [] then []
    else
      let k := 256 - a % 256
      .program a (b.take k) :: norPages n (a + k) (b.drop k)

/-- The page programs that write a byte list. -/
def norWrites (a : Nat) (b : List Byte) : List NorStep := norPages (b.length / 256 + 2) a b

/-- May an operation of the NOR start now: not below VMON_STOP, not in HOLD (R40, R42). -/
def norFree (s : Dev) : Bool := !bitOf s F.SYS_STATUS_VLOW_STOP && s.sys.mode != .hold

/-- Below VMON_STOP an erase in progress is suspended; it begins again when the supply is back (log 24). -/
def norSuspend (s : Dev) : Dev :=
  match s.upd.jobs with
  | j :: r =>
    match j.steps with
    | .erase _ :: _ => { s with upd.jobs := { j with began := none } :: r }
    | _ => s
  | [] => s

/-- The longest time of an operation (R359): without a valid header, the longest the header could name. -/
def norLimit (s : Dev) (x : NorStep) : Time :=
  match x with
  | .erase _ => ms ((s.boot.hdr.map (·.eraseMs)).getD 65535)
  | .program _ _ => us ((s.boot.hdr.map (·.progUs)).getD 65535)

/-! The journal (R372, R373) -/

/-- The 256 bytes of a record. -/
def journalBytes (j : Journal) : List Byte :=
  let b (x : Bool) : Nat := if x then 1 else 0
  let r := [0x43, 0x50, 0x4A, 0x52] ++ leBytes 8 j.seq ++ leBytes 1 j.state ++ leBytes 1 j.active ++
    leBytes 1 (b j.prevValid + 2 * b j.fellBack + 4 * b j.conversion) ++ leBytes 1 j.starts ++ leBytes 2 j.copied ++
    List.replicate 6 0 ++ leBytes 8 j.aSerial ++ leBytes 4 j.aIcrc ++ leBytes 2 j.aCf ++ leBytes 2 j.pCf ++ leBytes 8 j.pSerial ++
    leBytes 4 j.pIcrc ++ leBytes 4 j.sLen ++ leBytes 4 j.sIcrc ++ leBytes 8 j.sSerial ++ List.replicate 184 0
  r ++ leBytes 4 (crc32c r)

/-- The first blank page of a sector from page `i` on. -/
def blankPage (s : Dev) (sector i : Nat) : Option Nat :=
  let used := usedPages s (65536 * sector) 65536
  (List.range 256).find? fun k => decide (i ≤ k) && !used.contains k

/-- The operations that write the next record: the first blank page after the newest, else the other sector, erased. -/
def journalSteps (s : Dev) (b : List Byte) : List NorStep :=
  let (sector, next) := match newestJournal s with
    | some (_, p) => (p / 256, p % 256 + 1)
    | none => (0, 0)
  match blankPage s (sector + 1) next with
  | some i => [.program (65536 * (sector + 1) + 256 * i) b]
  | none =>
    let other := if (newestJournal s).isNone then sector else 1 - sector
    [.erase (other + 1), .program (65536 * (other + 1)) b]

/-- The journal as it stands: the newest record, or an empty one before any. -/
def journalNow (s : Dev) : Journal := s.upd.j.getD {}

/-- The record that follows the newest. -/
def journalNext (s : Dev) (j : Journal) : Journal := { j with seq := (journalNow s).seq + 1 }

/-- UPD items (R383). -/
def postUpd (code value : Nat) (s : Dev) : Dev := postCode 0x05 8 code (value % 2 ^ 32) s

/-- A record is in force; its items are posted. -/
def journalIn (j : Journal) (posts : List (Nat × Nat)) (s : Dev) : Dev :=
  posts.foldl (fun s (e : Nat × Nat) => postUpd e.1 e.2 s) { s with upd.j := some j }

/-- A record is written at once, in the course of a start or of a copied sector. -/
def journalWrite (j : Journal) (posts : List (Nat × Nat)) (s : Dev) : Dev :=
  let j := journalNext s j
  journalIn j posts ((journalSteps s (journalBytes j)).foldl (fun s x => norApply x s) s)

/-- A job as it begins: a journal record takes its SEQ and its page then. -/
def jobReady (j : NorJob) (s : Dev) : NorJob :=
  match j.done with
  | .journal x posts =>
    if j.steps = [] then
      { j with steps := journalSteps s (journalBytes (journalNext s x)), done := .journal (journalNext s x) posts }
    else j
  | _ => j

/-- The first job begins, where it has not. -/
def norBegin (s : Dev) : Dev :=
  match s.upd.jobs with
  | j :: r => if j.began.isNone ∧ norFree s then { s with upd.jobs := { jobReady j s with began := some s.raw } :: r } else s
  | [] => s

/-- Queue a job. -/
def norQueue (j : NorJob) (s : Dev) : Dev := norBegin { s with upd.jobs := s.upd.jobs ++ [j] }

/-- A record is written by a job; a command may wait for it. -/
def journalQueue (j : Journal) (posts : List (Nat × Nat)) (reply : Option (CmdHdr × Nat)) (data : List Byte) (s : Dev) : Dev :=
  norQueue { steps := [], began := none, reply := reply, data := data, done := .journal j posts } s

/-- Does an image with a valid trailer stand at an address (R371)? -/
def trailerOk (s : Dev) (a : Nat) : Bool :=
  let len := leNat (norBytes s (a + 8) 4)
  let t := norBytes s (a + len - 112) 112
  decide (144 ≤ len ∧ len ≤ 8388608) && t.take 4 == [0x43, 0x50, 0x54, 0x52] &&
    at_ t 8 4 == crc32c (norBytes s a (len - 104))

/-- SERIAL, ICRC and FORMAT of the image at an address. -/
def imageIds (s : Dev) (a : Nat) : Nat × Nat × Nat :=
  let len := leNat (norBytes s (a + 8) 4)
  (leNat (norBytes s (a + 16) 8), leNat (norBytes s (a + len - 104) 4), leNat (norBytes s (a + 4) 2))

/-- The journal where no record is valid: bank A if it has a valid trailer, else bank B (R372). -/
def journalEmpty (s : Dev) : Journal :=
  let b := if trailerOk s (bankBase 0) then 0 else 1
  if trailerOk s (bankBase b) then
    let (serial, icrc, cf) := imageIds s (bankBase b)
    { active := b, aSerial := serial, aIcrc := icrc, aCf := cf }
  else { active := b }

/-- ACTIVE goes to the other bank, and with it the figures of the two images. -/
def Journal.switch (j : Journal) : Journal :=
  { j with active := 1 - j.active, aSerial := j.pSerial, aIcrc := j.pIcrc, aCf := j.pCf, pSerial := j.aSerial, pIcrc := j.aIcrc,
           pCf := j.aCf }

/-- A staged image is voided. -/
def Journal.void (j : Journal) : Journal := { j with state := 1, sLen := 0, sIcrc := 0, sSerial := 0 }

/-- What a start does to the journal (R373): the sessions end, the journal is read, and moves as tabled. Without a valid record the
IDLE record of R372 is written once the image has been read, after the walk of R240 (log 31). -/
def journalStart (s : Dev) : Dev :=
  let newest : Option Journal := (newestJournal s).map fun e => e.1
  let s := { s with upd.session := none, upd.former := none, upd.again := false, upd.j := newest }
  match s.upd.j with
  | none => journalIn (journalEmpty s) [] s
  | some j =>
    match j.state with
    | 2 => journalWrite j.void [] s
    | 3 => journalWrite j.void [] s
    | 4 => journalWrite { j with state := 5, copied := 0 } [] s
    | 6 =>
      if j.starts < 3 then journalWrite { j with starts := j.starts + 1 } [] s
      else
        let k := { j.switch with state := 1, fellBack := true, conversion := false, starts := 0 }
        journalWrite k [(0x07, k.aIcrc)] (lifeUp 8 (bump R.UPD_FALLBACKS s))
    | 8 => journalWrite { j.switch with state := 6, conversion := true, prevValid := true, fellBack := false, starts := 1 } [] s
    | _ => s

/-- The IDLE record that CONFIGURE writes where the journal holds none (R372). -/
def journalFirst (s : Dev) : Dev := if (newestJournal s).isNone then journalWrite (journalEmpty s) [] s else s

/-- Sectors of the staged image. -/
def Journal.sectors (j : Journal) : Nat := cdiv j.sLen 65536

/-- Is a copy into the other bank in progress? -/
def copying (s : Dev) : Bool := s.upd.j.any fun j => j.state == 5

/-- The end of a copy (R373): the bank's ICRC decides. -/
def copyEnd (j : Journal) (s : Dev) : Dev :=
  let a := bankBase (1 - j.active)
  let (serial, icrc, cf) := imageIds s a
  if trailerOk s a ∧ icrc = j.sIcrc then
    journalWrite { j with state := 6, active := 1 - j.active, prevValid := true, fellBack := false, conversion := false, starts := 1,
                          pSerial := j.aSerial, pIcrc := j.aIcrc, pCf := j.aCf, aSerial := serial, aIcrc := icrc, aCf := cf }
      [(0x05, icrc)] s
  else journalWrite { j with state := 1, prevValid := false } [(0x08, rcMediaError)] s

/-- One sector of a copy (R377): erase, 256 page programs, read-back. -/
def copySector (ok : Bool) (j : Journal) (s : Dev) : Dev :=
  let n := min j.copied (j.sectors - 1)
  let a := bankBase (1 - j.active) + 65536 * n
  let src := norBytes s (stagingBase + 65536 * n) 65536
  let s := (NorStep.erase (a / 65536) :: norWrites a src).foldl (fun s x => norApply x s) s
  if ok then
    let k := { j with copied := n + 1 }
    let s := journalWrite k [] { s with upd.again := false }
    if n + 1 < j.sectors then s else copyEnd (journalNow s) s
  else if s.upd.again then journalWrite { j with state := 1, prevValid := false } [(0x08, rcMediaError)] { s with upd.again := false }
  else { s with upd.again := true }

/-- JOURNAL_COPY_SECTOR (R377): in CONFIGURE, while the supply lets the NOR be written. -/
def runJournalCopySector (t : Time) (ok : Bool) (s : Dev) : Host.Outcome Dev Fault Refusal :=
  let s := upTo t s
  .next (match s.upd.j with
    | some j => if s.sys.mode = .configure ∧ j.state = 5 ∧ norFree s then copySector ok j s else s
    | none => s)

/-- Conversion begins (R379): in IDLE, from ACTIVE or STANDBY, where the running firmware reads ACTIVE_CF and it is not its own. -/
def startConversion (s : Dev) : Dev :=
  match s.upd.j with
  | some j =>
    if (s.sys.mode = .active ∨ s.sys.mode = .standby) ∧ j.state = 1 ∧ s.upd.bank = j.active ∧
        (cfList s).contains j.aCf ∧ j.aCf ≠ fld s F.CTL_CF_NATIVE_CF then
      journalQueue { j with state := 7, prevValid := false } [] none [] s
    else s
  | none => s

/-- CONVERTED (R379): the native-format copy, the operand, has been written into the other bank and checked. -/
def runConverted (t : Time) (image : List Byte) (s : Dev) : Host.Outcome Dev Fault Refusal :=
  let s := upTo t s
  .next (match s.upd.j with
    | some j =>
      let a := bankBase (1 - j.active)
      let steps := (List.range (cdiv image.length 65536)).map (fun i => NorStep.erase (a / 65536 + i)) ++ norWrites a image
      let s' := steps.foldl (fun s x => norApply x s) s
      let (serial, icrc, cf) := imageIds s' a
      if (s.sys.mode = .active ∨ s.sys.mode = .standby) ∧ j.state = 7 ∧ norFree s ∧ image.length ≤ 8388608 ∧ imageHead s' a ∧
          trailerOk s' a ∧ at_ image 8 4 = image.length ∧ cf = fld s F.CTL_CF_NATIVE_CF then
        journalWrite { j with state := 8, pSerial := serial, pIcrc := icrc, pCf := cf } [(0x09, cf)] s'
      else s
    | none => s)

/-! The session (R374-R376) -/

/-- Does a party hold the session? -/
def holds (s : Dev) (h : CmdHdr) : Bool := s.upd.session.any fun x => x.src == h.src

/-- The lease runs from now for 60 s. -/
def refresh (h : CmdHdr) (s : Dev) : Dev :=
  if holds s h then { s with upd.session := s.upd.session.map fun x => { x with till := s.raw + sec 60 } } else s

/-- Is a session command of an opcode? -/
def sessionOp (op : Nat) : Bool := decide (0x703 ≤ op ∧ op ≤ 0x709)

/-- DATA of a BUSY that names the holder. -/
def holderData (s : Dev) (x : Session) : List Byte :=
  let left := cdiv (x.till - s.raw) (sec 1)
  match x.src with
  | .pcie => [0, 0, 0, 0] ++ leBytes 4 0 ++ leBytes 2 0 ++ leBytes 2 left
  | .mgt ip port => [1, 0, 0, 0] ++ leBytes 4 ip ++ leBytes 2 port ++ leBytes 2 left

/-- A session command of the holder; others are turned away: the former holder once with ABORTED. -/
def inSession (h : CmdHdr) (body : Dev → Dev × Reply) (s : Dev) : Dev × Reply :=
  if holds s h then body (refresh h s)
  else if s.upd.former = some h.src then ({ s with upd.former := none }, fails 0 rcAborted)
  else (s, fails 0 rcNotOwner)

/-- A command that writes the NOR: BUSY below VMON_STOP. -/
def norGate (body : Dev → Dev × Reply) (s : Dev) : Dev × Reply :=
  if bitOf s F.SYS_STATUS_VLOW_STOP then (s, fails 0 rcBusy) else body s

/-- UPDATE_OPEN. `b`: the arguments from byte 16. -/
def updOpen (h : CmdHdr) (b : List Byte) (s : Dev) : Dev × Reply :=
  let len := at_ b 4 4
  let j := journalNow s
  match s.upd.session.filter fun x => x.src != h.src with
  | some x => (s, .now rcBusy 0 (holderData s x))
  | none =>
    if len = 0 ∨ 8388608 < len then (refresh h s, fails 0 rcOutOfRange)
    else if 5 ≤ j.state ∨ (j.state = 4 ∧ !bit (at_ b 0 1) 0) then (refresh h s, fails 0 rcConflict)
    else
      norGate (fun s =>
        let id := (s.upd.sessions + 1) % 65536
        let s := bump R.UPD_SESSIONS
          { s with
            upd.session := some ⟨h.src, id, s.raw + sec 60⟩
            upd.former := if s.upd.former = some h.src then none else s.upd.former
            upd.sessions := s.upd.sessions + 1
            upd.len := len
            upd.next := 0
            upd.erased := 0 }
        (journalQueue { j.void with state := 2 } [(0x01, id)] (some (h, 0x703)) (leBytes 4 id) s, .later)) (refresh h s)

/-- UPDATE_REFRESH. -/
def updRefresh (h : CmdHdr) (s : Dev) : Dev × Reply :=
  inSession h (fun s => (s, done 0 (leBytes 4 60000))) s

/-- The next staging offset once the writes in progress have ended. -/
def nextOffset (s : Dev) : Nat :=
  s.upd.jobs.foldl (fun n j => match j.done with | .wrote k => k | _ => n) s.upd.next

/-- Staging sectors erased once the writes in progress have ended. -/
def erasedAfter (s : Dev) : Nat := max s.upd.erased (cdiv (nextOffset s) 65536)

/-- UPDATE_WRITE. -/
def updWrite (h : CmdHdr) (b : List Byte) (s : Dev) : Dev × Reply :=
  inSession h (fun s =>
    let off := at_ b 0 4
    let len := at_ b 4 4
    let ind := bit (at_ b 8 1) 0
    let arg := at_ b 12 4
    let bad : Reply := .now rcOutOfRange 0 (leBytes 4 (nextOffset s))
    if ind ∧ h.src ≠ .pcie then (s, fails 0 rcUnsupported)
    else if len = 0 ∨ (if ind then 65536 else 32) < len ∨ (ind ∧ argBytes < arg + len) then (s, bad)
    else if (journalNow s).state ≠ 2 ∨ off ≠ nextOffset s ∨ s.upd.len < off + len then (s, bad)
    else
      norGate (fun s =>
        let bytes := if ind then argRead s arg len else (b.drop 16).take len
        let from_ := erasedAfter s
        let erases := (List.range (cdiv (off + len) 65536 - from_)).map fun i => NorStep.erase (stagingBase / 65536 + from_ + i)
        (norQueue { steps := erases ++ norWrites (stagingBase + off) bytes, began := none, reply := some (h, 0x705),
                    data := leBytes 4 (off + len), done := .wrote (off + len) } s, .later)) s) s

/-- UPDATE_ACTIVATE. -/
def updActivate (h : CmdHdr) (s : Dev) : Dev × Reply :=
  inSession h (fun s =>
    let j := journalNow s
    if j.state ≠ 3 then (s, fails 0 rcWrongMode)
    else
      norGate (fun s =>
        (journalQueue { j with state := 4 } [(0x04, j.sIcrc)] (some (h, 0x707)) [] (lifeUp 7 (bump R.UPD_ACTIVATIONS s)), .later)) s) s

/-- UPDATE_CONFIRM (R375, R378). -/
def updConfirm (h : CmdHdr) (s : Dev) : Dev × Reply :=
  let j := journalNow s
  if s.upd.session.any fun x => x.src != h.src then (s, fails 0 rcBusy)
  else if j.state ≠ 6 then (refresh h s, done 0 [])
  else norGate (fun s => (journalQueue { j with state := 1 } [(0x06, j.aIcrc)] (some (h, 0x708)) [] s, .later)) (refresh h s)

/-- UPDATE_CLOSE. -/
def updClose (h : CmdHdr) (s : Dev) : Dev × Reply :=
  inSession h (fun s =>
    let j := journalNow s
    if j.state = 2 ∨ j.state = 3 then
      norGate (fun s => (journalQueue j.void [] (some (h, 0x709)) [] { s with upd.session := none }, .later)) s
    else ({ s with upd.session := none }, done 0 [])) s

/-- The lease expires (R374): not while a session command of the holder is in progress. -/
def sessionExpire (s : Dev) : Dev :=
  match s.upd.session with
  | some x =>
    if x.till ≤ s.raw ∧ !(s.upd.jobs.any fun j => j.reply.any fun r => sessionOp r.2 && r.1.src == x.src) then
      let j := journalNow s
      let s := bump R.UPD_LEASES_EXPIRED { s with upd.session := none, upd.former := some x.src }
      if j.state = 2 ∨ j.state = 3 then journalQueue j.void [(0x02, x.id)] none [] s else postUpd 0x02 x.id s
    else s
  | none => s

/-- SESSION_EXPIRED (R374). -/
def runSessionExpired (t : Time) (s : Dev) : Host.Outcome Dev Fault Refusal := .next (sessionExpire (upTo t s))

/-! NOR commands in SERVICE (R381) -/

/-- NOR_READ. -/
def norRead (h : CmdHdr) (off len arg : Nat) (s : Dev) : Dev × Reply :=
  if h.src ≠ .pcie then (s, fails 0 rcUnsupported)
  else if norSize s < off + len ∨ 1048576 < len ∨ argBytes < arg + len then (s, fails 0 rcOutOfRange)
  else (argWrite arg (norBytes s off len) s, done 0 [])

/-- Does a range touch the boot header sector without leave (R39)? -/
def headerBarred (s : Dev) (h : CmdHdr) (off len : Nat) : Bool :=
  decide (off < 65536 ∧ len ≠ 0) && bitOf s F.SYS_STATUS_HDR_VALID && !holds s h

/-- NOR_ERASE. -/
def norErase (h : CmdHdr) (off sectors : Nat) (s : Dev) : Dev × Reply :=
  if off % 65536 ≠ 0 ∨ norSize s < off + 65536 * sectors then (s, fails 0 rcOutOfRange)
  else if headerBarred s h off sectors then (s, fails 0 rcNotOwner)
  else if sectors = 0 then (s, done 0 (leBytes 4 0))
  else
    norGate (fun s =>
      (norQueue { steps := (List.range sectors).map fun i => .erase (off / 65536 + i), began := none, reply := some (h, 0x701),
                  data := leBytes 4 sectors, done := .nothing } s, .later)) s

/-- NOR_PROGRAM. -/
def norProgram (h : CmdHdr) (off len arg : Nat) (s : Dev) : Dev × Reply :=
  if h.src ≠ .pcie then (s, fails 0 rcUnsupported)
  else if norSize s < off + len ∨ 1048576 < len ∨ argBytes < arg + len then (s, fails 0 rcOutOfRange)
  else if headerBarred s h off len then (s, fails 0 rcNotOwner)
  else if len = 0 then (s, done 0 [])
  else
    norGate (fun s =>
      (norQueue { steps := norWrites off (argRead s arg len), began := none, reply := some (h, 0x702), data := [],
                  done := .nothing } s, .later)) s

/-! The persistent log (R382) -/

/-- The lifetime counters now: the seconds run on in CONFIGURE and later modes. -/
def lifeNow (s : Dev) : List Nat :=
  match s.upd.life with
  | n :: r => (if timeRuns s then n + (s.raw - s.upd.secsAt) / sec 1 else n) :: r
  | [] => []

/-- A record of the log. -/
def logBytes (seq : Nat) (l : List Nat) : List Byte :=
  let r := [0x43, 0x50, 0x4C, 0x47] ++ leBytes 8 seq ++ l.flatMap (leBytes 8) ++ List.replicate 160 0
  r ++ leBytes 4 (crc32c r)

/-- The newest valid record: SEQ, page, counters. -/
def newestLog (s : Dev) : Option (Nat × Nat × List Nat) :=
  (usedPages s logBase (norSize s - logBase)).foldl (fun (best : Option (Nat × Nat × List Nat)) i =>
    let b := norBytes s (logBase + 256 * i) 256
    if b.take 4 == [0x43, 0x50, 0x4C, 0x47] && at_ b 252 4 == crc32c (b.take 252) &&
        (match best with | some (q, _) => decide (q < at_ b 4 8) | none => true) then
      some (at_ b 4 8, i, (List.range 10).map fun k => at_ b (12 + 8 * k) 8)
    else best) none

/-- A start counts (R382): at the first one after RESET the newest record is loaded, and the causes of the reset count. -/
def lifeStart (first : Bool) (s : Dev) : Dev :=
  let s := if first then
      let s := match newestLog s with
        | some (q, i, l) =>
          let sum : List Nat := List.zipWith (· + ·) s.upd.life l
          { s with upd.life := sum, upd.lifeSeq := q, upd.lifePage := some i }
        | none => s
      let s := { s with upd.secsAt := s.raw, upd.lifeAt := s.raw }
      let s := if bit s.sys.causes 4 then lifeUp 5 s else s
      if bit s.sys.causes 3 then lifeUp 6 s else s
    else s
  lifeUp 1 s

/-- The operations that append a record: the page after the newest; a sector that is entered and not blank is erased. -/
def logSteps (s : Dev) (b : List Byte) : List NorStep :=
  let pages := (norSize s - logBase) / 256
  let i := match s.upd.lifePage with
    | some p => (p + 1) % pages
    | none => 0
  let a := logBase + 256 * i
  (if i % 256 = 0 ∧ usedPages s a 65536 ≠ [] then [.erase (a / 65536)] else []) ++ [.program a b]

/-- PERSISTENT_LOG_WRITE (R382): 10 minutes after the last one; AT_RISK and HOLD postpone it. -/
def runPersistentLogWrite (t : Time) (s : Dev) : Host.Outcome Dev Fault Refusal :=
  let s := upTo t s
  .next (if timeRuns s && !bitOf s F.HDL_STATUS_AT_RISK && s.sys.mode != .hold && decide (s.upd.lifeAt + sec 600 ≤ s.raw) &&
        !(s.upd.jobs.any fun j => j.done == .logged) then
      norQueue { steps := logSteps s (logBytes (s.upd.lifeSeq + 1) (lifeNow s)), began := none, reply := none, data := [],
                 done := .logged } { s with upd.lifeAt := s.raw }
    else s)

/-! The end of operations and jobs -/

/-- A job has ended well. -/
def jobDone (j : NorJob) (s : Dev) : Dev :=
  let s := match j.done with
    | .nothing => s
    | .journal x posts => journalIn x posts s
    | .wrote n => { s with upd.next := n, upd.erased := max s.upd.erased (cdiv n 65536) }
    | .logged =>
      { s with
        upd.lifeSeq := s.upd.lifeSeq + 1
        upd.lifePage := some (match s.upd.lifePage with | some p => (p + 1) % ((norSize s - logBase) / 256) | none => 0) }
  match j.reply with
  | some (h, op) => complete h op rcDone 0 j.data (refresh h s)
  | none => s

/-- A job has failed: its command answers MEDIA_ERROR, and downloads that would follow it are refused. -/
def jobFail (j : NorJob) (s : Dev) : Dev :=
  let s := match j.reply with
    | some (h, op) => complete h op rcMediaError 0 (if op = 0x701 then [] else j.data) (refresh h s)
    | none => s
  match j.done with
  | .wrote _ =>
    let late := s.upd.jobs.filter fun x => match x.done with | .wrote _ => true | _ => false
    let s := { s with upd.jobs := s.upd.jobs.filter fun x => match x.done with | .wrote _ => false | _ => true }
    late.foldl (fun s x => match x.reply with
      | some (h, op) => complete h op rcOutOfRange 0 (leBytes 4 s.upd.next) (refresh h s)
      | none => s) s
  | _ => s

/-- The operation in progress completes within its time (R359): a page program also below VMON_STOP, where no further one starts. -/
def norOpDone (s : Dev) : Dev :=
  match s.upd.jobs with
  | [] => s
  | j :: r =>
    match j.began, j.steps with
    | some b, x :: xs =>
      if s.raw ≤ b + norLimit s x then
        let s := norApply x s
        if xs = [] then norBegin (jobDone j { s with upd.jobs := r })
        else norBegin { s with upd.jobs := { j with steps := xs, began := none } :: r }
      else s
    | _, _ => s

/-- The operation in progress exceeds its time. -/
def norOpTimeout (s : Dev) : Dev :=
  match s.upd.jobs with
  | [] => s
  | j :: r =>
    match j.began, j.steps with
    | some b, x :: _ =>
      if b + norLimit s x ≤ s.raw then norBegin (jobFail j (bump R.UPD_NOR_TIMEOUTS { s with upd.jobs := r })) else s
    | _, _ => s

/-- UPD's registers. -/
def updView (s : Dev) (off : Nat) : Option Word :=
  let j := journalNow s
  let b (x : Bool) : Nat := if x then 1 else 0
  let w (n : Nat) : Option Word := some (BitVec.ofNat 32 n)
  let x := s.upd.session
  let sel := fld s F.UPD_LIFE_SEL_INDEX
  if off = R.UPD_JOURNAL then
    w (if s.upd.j.isNone then 0
      else j.state + 16 * j.active + 32 * b j.prevValid + 64 * b j.fellBack + 128 * b j.conversion + 256 * j.starts + 65536 * j.copied)
  else if off = R.UPD_JOURNAL_SEQ_LO then w j.seq
  else if off = R.UPD_JOURNAL_SEQ_HI then w (j.seq / 2 ^ 32)
  else if off = R.UPD_SESSION then
    w ((x.map fun y => 1 + 2 * b (y.src != .pcie) + 256 * cdiv (y.till - s.raw) (sec 1) + 65536 * y.id).getD 0)
  else if off = R.UPD_HOLDER then w ((x.map fun y => match y.src with | .mgt ip _ => ip | .pcie => 0).getD 0)
  else if off = R.UPD_HOLDER_PORT then w ((x.map fun y => match y.src with | .mgt _ p => p | .pcie => 0).getD 0)
  else if off = R.UPD_STAGED then w s.upd.next
  else if off = R.UPD_ACTIVE_SERIAL_LO then w j.aSerial
  else if off = R.UPD_ACTIVE_SERIAL_HI then w (j.aSerial / 2 ^ 32)
  else if off = R.UPD_PREV_SERIAL_LO then w j.pSerial
  else if off = R.UPD_PREV_SERIAL_HI then w (j.pSerial / 2 ^ 32)
  else if off = R.UPD_CF then w (j.aCf + 65536 * j.pCf)
  else if off = R.UPD_LIFE_VALUE_LO then w ((lifeNow s).getD sel 0)
  else if off = R.UPD_LIFE_VALUE_HI then w ((lifeNow s).getD sel 0 / 2 ^ 32)
  else none

end Sys2Proof.Machine
end

