-- ==== Sys2Proof/Machine/Valley.lean ====
section
/-! DEFINITION. The links of the valley, its members, their addresses and the passes between them; valley time; the firmware relay (chapter
13, R308-R317, R319, R320, R322, R329). -/

namespace Sys2Proof.Machine

/-! Members (R313, R315) -/

/-- Is the device a member: in CONFIGURE or later, with a link in UP, and admitted? -/
def isMember (s : Dev) : Bool := cmdUp s && s.val.recorded && !s.val.shut && !s.val.full && upLinks s != []

/-- The members, this device first. -/
def infos (s : Dev) : List MemberInfo := (if isMember s then [ownInfo s] else []) ++ s.val.members.map (·.2.info)

/-- The UID of this device. -/
def uidNow (s : Dev) : Nat := fuseUid s.fuses

/-- The root: the member with the lowest UID; none where there is no valley. -/
def rootOf_ (s : Dev) : Option MemberInfo :=
  (infos s).foldl (fun (b : Option MemberInfo) m =>
    match b with
    | some x => if m.uid < x.uid then some m else b
    | none => some m) none

/-- Is this device root? -/
def isRoot (s : Dev) : Bool := isMember s && (rootOf_ s).any (·.uid == uidNow s)

/-- Tell every neighbour how the device stands. -/
def sendUpdate (s : Dev) : Dev :=
  if isMember s then valFlood 4 4 (.member (ownInfo s)) { s with val.updated := s.raw } else s

/-! Passes (R316) -/

/-- The devices at the far ends of a member's links. -/
def farEnds (l : List MemberInfo) (uid : Nat) : List Nat :=
  match l.find? fun m => m.uid == uid with
  | some m => m.links.map (·.2)
  | none => []

/-- The hop counts from a start, found level by level up to 15 hops. -/
def spread (l : List MemberInfo) : Nat → List Nat → Nat → Tbl Nat → Tbl Nat
  | 0, _, _, seen => seen
  | n + 1, front, d, seen =>
    let next := ((front.flatMap (farEnds l)).eraseDups).filter fun u => !thas seen u && l.any fun m => m.uid == u
    if next = [] then seen else spread l n next (d + 1) (next.foldl (fun t u => tput t u (d + 1)) seen)

/-- Hop counts from a device. -/
def hopsFrom (l : List MemberInfo) (uid : Nat) : Tbl Nat := spread l 15 [uid] 0 [(uid, 0)]

/-- The address of a device in a list of members. -/
def addrOf (l : List MemberInfo) (uid : Nat) : Nat := ((l.find? fun m => m.uid == uid).map (·.addr)).getD 0

/-- The lowest of some devices by address, then by UID. -/
def lowestAddr (l : List MemberInfo) (us : List Nat) : Option Nat :=
  us.foldl (fun (b : Option Nat) u =>
    match b with
    | some x => if addrOf l u < addrOf l x ∨ (addrOf l u = addrOf l x ∧ u < x) then some u else b
    | none => some u) none

/-- The neighbour through which a device's pass A towards `root` leaves. -/
def parentTo (l : List MemberInfo) (root uid : Nat) : Option Nat :=
  let d := hopsFrom l root
  match tget d uid with
  | some n => lowestAddr l ((farEnds l uid).eraseDups.filter fun u => tget d u == some (n - 1) && n != 0)
  | none => none

/-- This device's neighbours, each with its lowest link. -/
def neighbours (s : Dev) : List (Nat × Nat) :=
  (upLinks s).foldl (fun (l : List (Nat × Nat)) e => if l.any fun x => x.2 == e.2 then l else l ++ [e]) []

/-- The links to the neighbours whose passes A towards `root` lead through this device, and its own link towards it. -/
def childLinks (s : Dev) (root : Nat) : List Nat :=
  let l := infos s
  (neighbours s).filterMap fun e => if parentTo l root e.2 == some (uidNow s) then some e.1 else none

def rootLink (s : Dev) (root : Nat) : Option Nat :=
  (parentTo (infos s) root (uidNow s)).bind fun u => ((neighbours s).find? fun e => e.2 == u).map (·.1)

/-- The links of the neighbours that lie on a shortest path to a device, by the neighbours' addresses, and the hops. -/
def pathsTo (l : List MemberInfo) (hops : List (Nat × Nat × Tbl Nat)) (uid : Nat) : Option (Option Nat × Option Nat × Nat) :=
  let c := hops.filterMap fun e => (tget e.2.2 uid).map fun d => (e.1, e.2.1, d)
  match c.map fun e => e.2.2 with
  | [] => none
  | d :: r =>
    let best := r.foldl min d
    if 15 ≤ best then none
    else
      let us := (c.filter fun e => e.2.2 == best)
      let a := lowestAddr l (us.map fun e => e.2.1)
      let b := lowestAddr l ((us.map fun e => e.2.1).filter fun u => some u != a)
      let linkOf (u : Nat) : Option Nat := (us.find? fun e => e.2.1 == u).map (·.1)
      some (a.bind linkOf, b.bind linkOf, best + 1)

/-- The pass table that the members' updates give. -/
def passesNow (s : Dev) : Tbl (Option Nat × Option Nat × Nat) :=
  let me := uidNow s
  let l := infos s
  let others := l.filter fun m => m.uid != me
  let hops := (neighbours s).map fun e => (e.1, e.2, hopsFrom others e.2)
  others.foldl (fun t m =>
    if m.addr = 0 then t
    else
      match pathsTo l hops m.uid with
      | some p => if thas t m.addr then t else tput t m.addr p
      | none => t) []

/-! The charges of passes (R319) -/

/-- Lines over capacity now. -/
def overLines (s : Dev) : List Nat := [25, 26, 27, 28].filter fun n => decide (capOf s n < usedOf s n)

/-- Charges of a universe moved to the links towards a device. -/
def movedTo (s : Dev) (dest amount : Nat) (l : List (Nat × Nat)) : List (Nat × Nat) :=
  l.filter (fun e => !(25 ≤ e.1 && e.1 ≤ 28)) ++ (egressLinks s dest).map fun k => (25 + k, amount)

/-- The charge of a universe on a link. -/
def linkAmount (s : Dev) (u : Univ) : Nat := perSec (u.slots + 64) (univRate s u).1 (univRate s u).2 1

/-- One universe of this device, then one reservation, moves its charges to the passes in force. -/
def moveUniv (i : Nat) (s : Dev) : Dev :=
  match tget s.outp.univs i, objAt s (okey 2 i) with
  | some u, some o =>
    if u.remote then
      let l := movedTo s u.valley (linkAmount s u) o.charges
      modObj (okey 2 i) (fun o => { o with charges := l }) (chargeAll l (creditAll o.charges s))
    else s
  | _, _ => s

def moveReserve (k : Nat) (s : Dev) : Dev :=
  match tget s.val.reserves k with
  | some r =>
    if r.sender = s.val.addr then s
    else
      let l := movedTo s r.sender r.amount r.charges
      chargeAll l (creditAll r.charges { s with val.reserves := tput s.val.reserves k { r with charges := l } })
  | none => s

/-- The charge of a pair's checkpoint path on a link (R66). -/
def pairCharge : Nat := 1500000000

/-- The charge of the checkpoint path stands on the link of pass A to the partner (R75, R319). -/
def movePair (s : Dev) : Dev :=
  let l := if s.red.paired then passLink s s.red.partner false else none
  let on (x : Option Nat) : List (Nat × Nat) := x.toList.map fun k => (25 + k, pairCharge)
  if l = s.red.link then s else chargeAll (on l) (creditAll (on s.red.link) { s with red.link := l })

/-- The charges follow the passes without admission; a line that this takes above its capacity is posted. -/
def moveCharges (s : Dev) : Dev :=
  let before := overLines s
  let s := s.outp.univs.foldl (fun s e => moveUniv e.1 s) s
  let s := movePair (s.val.reserves.foldl (fun s e => moveReserve e.1 s) s)
  ((overLines s).filter fun n => !before.contains n).foldl (fun s n => postVal 2 0x0B (n - 25) n (setBit F.VAL_STATUS_OVERCOMMIT true s)) s

/-- New passes, and shorter ones, are in force at once; what is lost waits for the reroute. -/
def gainPasses (s : Dev) : Dev :=
  let new := passesNow s
  let keep := s.val.passes.filter fun e => !thas new e.1
  let merged := new.foldl (fun t e =>
    match tget s.val.passes e.1 with
    | some p => tput t e.1 (if p.2.2 < e.2.2.2 then p else e.2)
    | none => tput t e.1 e.2) keep
  if merged = s.val.passes then s else moveCharges { s with val.passes := merged }

/-! Addresses (R314) -/

/-- Does a holder of an address keep it against another: pinned before assigned, then the lower UID. -/
def MemberInfo.beats (a b : MemberInfo) : Bool := (a.pinned && !b.pinned) || (a.pinned == b.pinned && decide (a.uid < b.uid))

/-- HELLO again on every link that has sent one: the device's address or mode has changed. -/
def helloAll (s : Dev) : Dev :=
  (s.val.links.filter fun e => decide (3 ≤ e.2.state)).foldl (fun s e => emit (.hello e.1) s) s

/-- The highest address that no member holds or pins. -/
def freeAddr (s : Dev) : Nat :=
  (((List.range 254).map fun k => 254 - k).find? fun a => a != s.val.addr && !(infos s).any fun m => m.addr == a).getD 0

/-- The device takes an address. -/
def takeAddr (a : Nat) (pinned : Bool) (s : Dev) : Dev :=
  let s := { s with val.addr := a, val.pinned := pinned, val.conflict := false }
  sendUpdate (helloAll (if pinned then s else postVal 7 0x07 a a s))

/-- A device at address 0 with none of its own asks the root; the root gives itself one. -/
def askAddr (s : Dev) : Dev :=
  if !isMember s || s.val.addr != 0 || s.val.want != 0 then s
  else if isRoot s then takeAddr (freeAddr s) false s
  else valFlood 4 4 (.addrAsk (uidNow s)) { s with val.asked := some s.raw }

/-- The root gives a member an address. -/
def giveAddr (uid : Nat) (s : Dev) : Dev :=
  if isRoot s then
    match tget s.val.members uid with
    | some m =>
      let a := freeAddr s
      valFlood 4 4 (.addrGive uid a) { s with val.members := tput s.val.members uid { m with info := { m.info with addr := a } } }
    | none => s
  else s

/-- The device's own address after a change of the membership: lost to a better holder, or tried for again. -/
def settleAddr (s : Dev) : Dev :=
  let a := s.val.addr
  if a = 0 then
    if s.val.want != 0 && isMember s && !(s.val.members.any fun e => e.2.info.addr == s.val.want) then takeAddr s.val.want true s
    else askAddr s
  else if s.val.members.any fun e => e.2.info.addr == a && e.2.info.beats (ownInfo s) then
    let s := postVal 2 0x08 a a { s with val.addr := 0, val.pinned := false, val.conflict := true }
    askAddr (sendUpdate (helloAll s))
  else s

/-- After a change of the membership: the root, the address, the minor version in use, the passes gained. -/
def membersChanged (s : Dev) : Dev :=
  let r := rootOf_ s
  let uid := (r.map (·.uid)).getD 0
  let s := if uid = s.val.root then s
    else if uid = 0 then { s with val.root := 0 }
    else postVal 7 0x06 ((r.map (·.addr)).getD 0) uid { s with val.root := uid }
  gainPasses (settleAddr s)

/-- Members to leave out of 254 where one more joins (R315): the joiner of a valley stays out; where two valleys meet, those of the valley
whose root has the higher UID, the highest UIDs first. A member heard for less than 300 ms counts to the valley that joins. -/
def excluded (s : Dev) (x : MemberInfo) : List Nat :=
  let new := x.uid :: (s.val.members.filter fun e => decide (s.raw < e.2.since + ms 300)).map (·.1)
  let old := uidNow s :: (s.val.members.filter fun e => decide (e.2.since + ms 300 ≤ s.raw)).map (·.1)
  let surplus := new.length + old.length - 254
  let least (l : List Nat) : Nat := l.foldl min (l.headD 0)
  let lose := if old.length = 1 then old else if new.length = 1 then new else if least old < least new then new else old
  ((lose.mergeSort fun a b => decide (b ≤ a)).take surplus)

/-- A member joins, unless the valley is full. -/
def joinMember (m : MemberInfo) (s : Dev) : Dev :=
  if s.val.members.length + 2 ≤ 254 then
    let s := { s with val.members := tput s.val.members m.uid ⟨m, s.raw, s.raw⟩ }
    membersChanged (postVal 7 0x04 m.addr m.uid s)
  else
    let out := excluded s m
    let s := { s with val.barred := s.val.barred ++ out, val.members := s.val.members.filter fun e => !out.contains e.1 }
    let s := if out.contains (uidNow s) ∧ !s.val.full then postVal 2 0x09 s.val.addr 0 { s with val.full := true } else s
    if out.contains m.uid then membersChanged s
    else membersChanged (postVal 7 0x04 m.addr m.uid { s with val.members := tput s.val.members m.uid ⟨m, s.raw, s.raw⟩ })

/-- A membership update is heard. -/
def hearMember (m : MemberInfo) (s : Dev) : Dev :=
  if m.uid = uidNow s ∨ s.val.barred.contains m.uid then s
  else
    match tget s.val.members m.uid with
    | some x =>
      let s := { s with val.members := tput s.val.members m.uid { x with info := m, heard := s.raw } }
      if x.info = m then s else membersChanged s
    | none => joinMember m s

/-- Does a member count as gone: unheard for 300 ms, or reached by no pass. -/
def memberGone (s : Dev) (m : Member) : Bool :=
  decide (m.heard + ms 300 ≤ s.raw) || !(thas (hopsFrom (ownInfo s :: s.val.members.map (·.2.info)) (uidNow s)) m.info.uid)

/-- A member has left. -/
def dropMember (uid : Nat) (s : Dev) : Dev :=
  match tget s.val.members uid with
  | some m =>
    let s := postVal 7 0x05 m.info.addr uid { s with val.members := tdel s.val.members uid, val.barred := [], val.full := false }
    membersChanged s
  | none => s

/-! Links (R309, R310) -/

/-- Is a link enabled: every one until the record is applied, then those of LINKS; none once the fabric is shut. -/
def linkOn (s : Dev) (l : Nat) : Bool := decide (l < 4) && !s.val.shut && bit s.val.mask l

/-- VALLEY_SIGNAL_DETECT (R310): the links run from DAYBREAK onward. -/
def runValleySignalDetect (t : Time) (l : Nat) (s : Dev) : Host.Outcome Dev Fault Refusal :=
  let s := upTo t s
  .next (if s.sys.mode ≠ .reset ∧ linkOn s l ∧ (linkAt s l).state = 1 then setLink l { state := 2, since := s.raw } s else s)

/-- VALLEY_LINK_LOCK (R310): both locks have held for 1 ms. -/
def runValleyLinkLock (t : Time) (l : Nat) (s : Dev) : Host.Outcome Dev Fault Refusal :=
  let s := upTo t s
  let x := linkAt s l
  .next (if linkOn s l ∧ x.state = 2 ∧ x.since + ms 1 ≤ s.raw then emit (.hello l) (setLink l { x with state := 3 } s) else s)

/-- Is the device itself still where links carry link control and relay only, because it is in DAYBREAK or LOAD? -/
def loadingSelf (s : Dev) : Bool := s.sys.mode == .daybreak || s.sys.mode == .load

/-- A link with its partner's HELLO is examined. -/
def examine (l : Nat) (h : HelloMsg) (s : Dev) : Dev :=
  if loadingSelf s || h.mode ≤ 2 then modLink l (fun x => { x with state := 6 }) s
  else if !s.val.recorded then modLink l (fun x => { x with state := 3 }) s
  else if h.major ≠ fld s F.CTL_FW_PROTO_VP_MAJOR ∨ h.valleyId ≠ s.val.valleyId then
    let s' := modLink l (fun x => { x with state := 5 }) s
    if (linkAt s l).state = 5 then s' else postVal 7 0x03 l (h.major % 256 * 256 + h.minor % 256) s'
  else
    membersChanged (sendUpdate (postVal 7 0x01 l h.address (modLink l (fun x => { x with state := 4 }) s)))

/-- Every link with a HELLO is examined again: the record is in force, or the device's mode has changed. -/
def examineAll (s : Dev) : Dev :=
  [0, 1, 2, 3].foldl (fun s l =>
    let x := linkAt s l
    match x.hello with
    | some h => if linkOn s l && (x.state == 3 || x.state == 5 || x.state == 6) then examine l h s else s
    | none => s) s

/-- A HELLO is received. -/
def helloRx (l : Nat) (h : HelloMsg) (s : Dev) : Dev :=
  let x := linkAt s l
  let s' := setLink l { x with hello := some h } s
  if !linkOn s l then s
  else if x.state = 3 then examine l h s'
  else if x.state = 5 ∨ x.state = 6 then if x.hello = some h then s else examine l h (modLink l (fun x => { x with state := 3 }) s')
  else if x.state = 4 then s'
  else s

/-- VALLEY_HELLO_RX (R310). -/
def runValleyHelloRx (t : Time) (l : Nat) (h : HelloMsg) (s : Dev) : Host.Outcome Dev Fault Refusal :=
  .next (helloRx l h (upTo t s))

/-- LINK_CONTROL_SEND (R310): every 10 µs on a link in HELLO or UP. -/
def runLinkControlSend (t : Time) (l : Nat) (s : Dev) : Host.Outcome Dev Fault Refusal :=
  let s := upTo t s
  let x := linkAt s l
  .next (if (x.state = 3 ∨ x.state = 4) ∧ elapsed s x.sentAt (us 10) then
      emit (.linkControl l) (setLink l { x with sentAt := some s.raw } s)
    else s)

/-- A transfer from a link is abandoned: nothing of it is kept (R322). -/
def relayAbandon (l : Nat) (s : Dev) : Dev :=
  if (s.boot.taking.map (·.1)) = some l then { s with boot.taking := none, boot.taken := [], boot.askedAt := none } else s

/-- A link has failed. -/
def linkFail (l : Nat) (s : Dev) : Dev :=
  let x := linkAt s l
  if 3 ≤ x.state then
    let s := relayAbandon l (postVal 7 0x02 l 0 (setLink l { state := 1, failed := x.failed } s))
    if x.state = 4 then membersChanged (sendUpdate s) else s
  else if x.state = 2 then setLink l { state := 1 } s
  else s

/-- VALLEY_LINK_DOWN (R310). -/
def runValleyLinkDown (t : Time) (l : Nat) (s : Dev) : Host.Outcome Dev Fault Refusal :=
  let s := upTo t s
  .next (if 3 ≤ (linkAt s l).state then linkFail l s else s)

/-- A link's lane is powered down (R308, R309). -/
def linkOff (l : Nat) (s : Dev) : Dev := setLink l { state := 0 } (linkFail l s)

/-- MEMBERSHIP_UPDATE_SEND (R313): every 100 ms. -/
def runMembershipUpdateSend (t : Time) (s : Dev) : Host.Outcome Dev Fault Refusal :=
  let s := upTo t s
  .next (if s.val.updated + ms 100 ≤ s.raw then sendUpdate s else s)

/-- REROUTE (R317): the new table is installed as one step where it differs. -/
def runReroute (t : Time) (s : Dev) : Host.Outcome Dev Fault Refusal :=
  let s := upTo t s
  let new := passesNow s
  .next (if new = s.val.passes then s
    else
      let s := bump R.VAL_REROUTES { s with val.passes := new }
      moveCharges (postVal 7 0x0A 0 (rg s R.VAL_REROUTES).toNat s))

/-! Valley time (R320) -/

/-- The asymmetry of a link in 2^-16 ns. -/
def linkAsym (s : Dev) (l : Nat) : Int := sgn 32 (rg s (R.VAL_LINK_ASYM l)).toNat * 65536 / 1000

/-- The delay d_l of a link in 2^-16 ns: the mean over up to 16 exchanges. -/
def linkDelay (s : Dev) (l : Nat) : Int :=
  let d := (linkAt s l).delays
  if d = [] then 0 else (d.foldl (· + ·) 0) / (2 * (d.length : Int))

/-- LINK_DELAY_EXCHANGE (R320): the four timestamps of a two-way exchange, in 2^-16 ns. -/
def runLinkDelayExchange (t : Time) (l t1 t2 t3 t4 : Nat) (s : Dev) : Host.Outcome Dev Fault Refusal :=
  let s := upTo t s
  let x := linkAt s l
  let twice : Int := ((t2 : Int) - t1) + ((t4 : Int) - t3) - 2 * linkAsym s l
  .next (if x.state = 4 ∧ elapsed s x.delayAt (ms 10) then
      setLink l { x with delays := (twice :: x.delays).take 16, delayAt := some s.raw } s
    else s)

/-- The reference of a domain's letter: the lowest-UID member whose domain is PTP and LOCKED, else such a one in HOLDOVER, else the root. -/
def timeRef (s : Dev) (d : Nat) : Option Nat :=
  let l := infos s
  let of (v : Nat) : Option Nat :=
    ((l.filter fun m => m.doms.getD d 0 == v).map (·.uid)).foldl (fun (b : Option Nat) u => some ((b.map (min u)).getD u)) none
  (of 1) <|> (of 2) <|> (rootOf_ s).map (·.uid)

/-- A time packet leaves on the links of the tree rooted at a reference. -/
def sendTime (root d : Nat) (origin corr : Int) (s : Dev) : Dev :=
  (childLinks s root).foldl (fun s l =>
    let m : VMsg := .time d root origin corr
    vOut l ⟨vHead 5 0 255 s.val.addr 15 0 (vLen 5 m) 0 0 0, vLen 5 m, true, m⟩ s) s

/-- TIME_PACKET_SEND (R320): the reference sends each 1 ms. -/
def runTimePacketSend (t : Time) (d : Nat) (s : Dev) : Host.Outcome Dev Fault Refusal :=
  let s := upTo t s
  .next (if d < 2 ∧ isMember s ∧ timeRef s d = some (uidNow s) ∧
      elapsed s (tget s.val.timeAt d) (ms 1) then
      sendTime (uidNow s) d (domTime s d) 0 { s with val.timeAt := tput s.val.timeAt d s.raw }
    else s)

/-- A time packet is received: passed on down the tree, and followed by a VALLEY domain where it comes from its reference. -/
def timeRx (l d uid : Nat) (origin corr : Int) (s : Dev) : Dev :=
  let corr := corr + linkDelay s l + linkAsym s l
  let s := sendTime uid d origin corr s
  if d < 2 ∧ (domAt s d).rec_.source = 2 ∧ timeRef s d = some uid then
    servoOffset (ns 20) (ns 200) d (domTime s d - origin - corr) (setDom d { domAt s d with valleyHeard := s.raw } s)
  else s

/-- VALLEY_TIME_HOLDOVER (R320): the reference has been unreachable for 10 ms. -/
def runValleyTimeHoldover (t : Time) (d : Nat) (s : Dev) : Host.Outcome Dev Fault Refusal :=
  let s := upTo t s
  let x := domAt s d
  .next (if d < 2 ∧ x.rec_.source = 2 ∧ (x.servo = 1 ∨ x.servo = 2) ∧ x.valleyHeard + ms 10 ≤ s.raw ∧ timeRuns s then enterHoldover d s
    else s)

/-! The firmware relay (R322) -/

/-- A relay message to the neighbour of a link. -/
def relayOut (l : Nat) (m : VMsg) (s : Dev) : Dev :=
  emit (.valley l ⟨vHead 6 4 0 s.val.addr 15 0 (vLen 6 m) 0 0 0, vLen 6 m, true, m⟩) s

/-- The links on which a request goes out: those that served a failed image only where there are no others. -/
def relayLinks (s : Dev) : List Nat :=
  let l := [0, 1, 2, 3].filter fun l => (linkAt s l).state == 6
  let good := l.filter fun l => !(linkAt s l).failed
  if good = [] then l else good

/-- RELAY_REQUEST_SEND (R322): every 100 ms in LOAD with a strap that selects the relay. -/
def runRelayRequestSend (t : Time) (s : Dev) : Host.Outcome Dev Fault Refusal :=
  let s := upTo t s
  .next (if s.sys.mode = .load ∧ sourceOn s 2 ∧ s.boot.taking = none ∧
      elapsed s s.boot.askedAt (ms 100) then
      (relayLinks s).foldl (fun s l => relayOut l .relayAsk s) { s with boot.askedAt := some s.raw }
    else s)

/-- Does the device serve relay requests: it holds firmware, in a mode that serves, with EN set. -/
def relayServes (s : Dev) : Bool :=
  (s.sys.mode == .active || s.sys.mode == .standby || s.sys.mode == .hold || s.sys.mode == .service) && bitOf s F.VAL_RELAY_EN

/-- The length of the firmware image held. -/
def fwLength (s : Dev) : Nat := at_ (fwBytes s 8) 4 4

/-- The image's data packets of 8,192 bytes, all sent at once: the pace of the transfer is left out. -/
def relaySend (l : Nat) (s : Dev) : Dev :=
  let b := fwBytes s (fwLength s)
  let s := (List.range (cdiv b.length 8192)).foldl (fun s i => relayOut l (.relayData (8192 * i) ((b.drop (8192 * i)).take 8192)) s) s
  bump R.VAL_RELAYS_SERVED (modLink l (fun x => { x with serving := false }) s)

/-- Relay messages. -/
def relayRx (l : Nat) (m : VMsg) (s : Dev) : Dev :=
  let loading := (linkAt s l).state == 6
  match m with
  | .relayAsk =>
    if loading && relayServes s && !(linkAt s l).serving then
      relayOut l (.relayOffer (fwLength s)) (modLink l (fun x => { x with serving := true }) s)
    else s
  | .relayOffer n =>
    if loading && s.sys.mode == .load && sourceOn s 2 then
      match s.boot.taking with
      | none => relayOut l .relayTake { s with boot.taking := some (l, n), boot.taken := [], boot.takeAt := s.raw }
      | some (k, _) => if k = l then s else relayOut l (.relayRefuse k) s
    else s
  | .relayTake => if loading && relayServes s then relaySend l s else s
  | .relayRefuse _ => modLink l (fun x => { x with serving := false }) s
  | .relayData off b =>
    match s.boot.taking with
    | some (k, n) =>
      if k = l ∧ off = s.boot.taken.length ∧ s.sys.mode = .load then
        let d := s.boot.taken ++ b
        let s := { s with boot.taken := d, boot.takeAt := s.raw }
        if n ≤ d.length ∧ !(s.boot.auth.any fun e => e.1 == 2) then { s with boot.auth := s.boot.auth ++ [(2, n)] } else s
      else s
    | none => s
  | _ => s

/-- RELAY_STALL (R322): no data for 1 s; the requester asks again on all links. -/
def runRelayStall (t : Time) (l : Nat) (s : Dev) : Host.Outcome Dev Fault Refusal :=
  let s := upTo t s
  .next (if (s.boot.taking.map (·.1)) = some l ∧ s.boot.takeAt + sec 1 ≤ s.raw ∧ !(s.boot.auth.any fun e => e.1 == 2) then relayAbandon l s
    else s)

/-! Registers -/

/-- VAL's registers that show live state. -/
def valView (s : Dev) (off : Nat) : Option Word :=
  let b (x : Bool) : Nat := if x then 1 else 0
  let w (n : Nat) : Option Word := some (BitVec.ofNat 32 n)
  let root := s.val.root
  let minor := (infos s).foldl (fun m i => min m i.minor) (fld s F.CTL_FW_PROTO_VP_MINOR)
  let mig := tget s.val.migs (fld s F.VAL_MIG_SEL_INDEX)
  let pass := tget s.val.passes (fld s F.VAL_PASS_SEL_DEST)
  let l := (off - R.VAL_LINK_STATE 0) / 0x20
  let x := linkAt s l
  let uid := (x.hello.map (·.uid)).getD 0
  if off = R.VAL_STATE then
    w (s.val.addr + 256 * b s.val.pinned + 512 * b (isRoot s) + 1024 * b (isMember s) + 65536 * (infos s).length)
  else if off = R.VAL_ROOT_UID_HI then w (root / 2 ^ 32)
  else if off = R.VAL_ROOT_UID_LO then w root
  else if off = R.VAL_VP then
    w (fld s F.CTL_FW_PROTO_VP_MINOR + 256 * fld s F.CTL_FW_PROTO_VP_MAJOR + 65536 * (if isMember s then minor else 0))
  else if off = R.VAL_STATUS then
    some ((rg s off &&& 4) ||| BitVec.ofNat 32 (b s.val.conflict + 2 * b s.val.full + 8 * b (overLines s != [])))
  else if off = R.VAL_RELAY then
    some ((rg s off &&& 1) ||| BitVec.ofNat 32 (((List.range 4).map fun l => if (linkAt s l).serving then 2 ^ (l + 1) else 0).sum))
  else if off = R.VAL_PASS then
    w ((pass.map fun p => (p.1.getD 0 + 4 * b p.1.isSome + 8 * p.2.1.getD 0 + 32 * b p.2.1.isSome + 256 * p.2.2)).getD 0)
  else if off = R.VAL_MIG_STATE then w ((mig.map fun m => m.state + 256 * m.epoch + 65536 * m.target).getD 0)
  else if off = R.VAL_MIG_FRAME_LO then w ((mig.map fun m => unsgn 64 m.ns).getD 0)
  else if off = R.VAL_MIG_FRAME_HI then w (((mig.map fun m => unsgn 64 m.ns).getD 0) / 2 ^ 32)
  else if R.VAL_LINK_STATE 0 ≤ off ∧ l < 4 then
    if off = R.VAL_LINK_STATE l then w ((if s.sys.mode = .reset then 0 else x.state) + 256 * ((x.hello.map (·.address)).getD 0))
    else if off = R.VAL_LINK_PARTNER_HI l then w (uid / 2 ^ 32)
    else if off = R.VAL_LINK_PARTNER_LO l then w uid
    else if off = R.VAL_LINK_DELAY l then w (sat32 (linkDelay s l * 1000 / 65536))
    else none
  else none

end Sys2Proof.Machine
end

