-- ==== Sys2Proof/Machine/Mig.lean ====
section
/-! DEFINITION. Admission across the valley, universes sent for other devices, and migration (chapter 8, R192, R198; chapter 13, R318,
R323-R328, R332). -/

namespace Sys2Proof.Machine

/-! The devices a universe uses (R316, R318) -/

/-- The neighbours of a device on shortest paths towards another, by their addresses. -/
def nextHops (l : List MemberInfo) (dest uid : Nat) : List Nat :=
  let d := hopsFrom l dest
  match tget d uid with
  | some n =>
    (((farEnds l uid).eraseDups.filter fun u => n != 0 && tget d u == some (n - 1))).mergeSort fun a b =>
      decide (addrOf l a < addrOf l b ∨ (addrOf l a = addrOf l b ∧ a ≤ b))
  | none => []

/-- The devices on the way by passes A, or by passes B where they exist. -/
def walkTo (l : List MemberInfo) (dest : Nat) (odd : Bool) : Nat → Nat → List Nat
  | 0, _ => []
  | n + 1, uid =>
    match nextHops l dest uid with
    | [] => []
    | a :: r => let u := if odd then r.headD a else a; u :: walkTo l dest odd n u

/-- The addresses of the devices that a universe sent from another device is admitted on, beside this one. -/
def pathDevices (s : Dev) (addr : Nat) : List Nat :=
  let l := infos s
  match l.find? fun m => m.addr == addr with
  | none => [addr]
  | some m =>
    let us := walkTo l m.uid false 15 (uidNow s) ++ walkTo l m.uid true 15 (uidNow s)
    ((us.map (addrOf l)).filter fun a => a != 0 && a != s.val.addr).eraseDups

/-! What a request asks of this device (R318) -/

/-- The charge of a universe on a link. -/
def AdmitAsk.amount (q : AdmitAsk) : Nat := perSec (q.univ.slots + 64) q.rateNum q.rateDen 1

/-- Does the hosted universe `h` stand for the same universe as a request: the one that a migration moves? -/
def AdmitAsk.moves (q : AdmitAsk) (h : Hosted) : Bool :=
  match q.from_ with
  | some (a, hd) => h.asker == a && h.handle == hd
  | none => false

/-- Does a request move a universe that this device computes and sends itself? -/
def AdmitAsk.movesOwn (q : AdmitAsk) (s : Dev) : Option Nat :=
  match q.from_ with
  | some (a, hd) => if a = s.val.addr ∧ (objOf s hd).isSome ∧ hKind hd = 2 then some (hIndex hd) else none
  | none => none

/-- Is the port of a request already used by a universe that it cannot stand beside (R185)? -/
def hostedBusy (s : Dev) (q : AdmitAsk) : Bool :=
  let u := q.univ
  let same (number : Nat) (cid : List Byte) : Bool := number == u.number && cid == q.ident.cid
  (s.outp.univs.any fun e =>
    q.movesOwn s != some e.1 && e.2.dest == u.dest && !e.2.remote && !e.2.dmx &&
      (same e.2.number (((tget s.outp.idents e.2.ident).map (·.cid)).getD []) || (u.mode == 0 && e.2.mode == 0))) ||
  (s.val.hosted.any fun e =>
    !q.moves e.2 && e.2.univ.dest == u.dest &&
      (same e.2.univ.number e.2.ident.cid ||
        (u.mode == 0 && e.2.univ.mode == 0 &&
          (e.2.ident.cid != q.ident.cid || e.2.univ.syncAddr != u.syncAddr || e.2.univ.canvas != u.canvas))))

/-- What the sending device charges. -/
def hostCharges (s : Dev) (q : AdmitAsk) : List (Nat × Nat) :=
  let u := q.univ
  let syncs := (s.outp.univs.any fun e => !e.2.remote && e.2.dest == u.dest && e.2.mode == 0) ||
    s.val.hosted.any fun e => e.2.univ.dest == u.dest && e.2.univ.mode == 0
  let rate := (q.rateNum, q.rateDen)
  [(7, perSec 1 rate.1 rate.2 1), (0, perSec (2 * (u.slots + 196)) rate.1 rate.2 1000000)] ++ portCharges u (!syncs) rate

/-- The hosted universe that leads the sync of its canvas: the lowest one of the same computing device and canvas. -/
def leadOf (s : Dev) (k : Nat) : Nat :=
  match tget s.val.hosted k with
  | some h =>
    ((s.val.hosted.find? fun e => e.2.asker == h.asker && e.2.univ.canvas == h.univ.canvas && e.2.univ.mode == h.univ.mode).map (·.1)).getD k
  | none => k

/-- A time action for the sync of a hosted universe (R198); none where there is no action left. -/
def hostAction (k : Nat) (s : Dev) : Option Dev :=
  match tget s.val.hosted k with
  | some h =>
    if h.univ.mode ≠ 0 ∨ (heldAction s (8 + leadOf s k)).isSome then some s
    else (takeAction (8 + leadOf s k) h.domain 0 s).map (·.2)
  | none => some s

/-- A hosted universe goes; where others of its canvas stay, the next one leads. -/
def dropHosted (k : Nat) (s : Dev) : Dev :=
  let led := leadOf s k == k
  let rest := s.val.hosted.filter fun e => e.1 != k && leadOf s e.1 == k
  let s := { s with val.hosted := tdel s.val.hosted k }
  if !led then s
  else
    match rest with
    | [] => giveAction (8 + k) s
    | e :: _ => ((hostAction e.1 (giveAction (8 + k) s))).getD s

/-- The lowest free number of a hosted universe. -/
def freeHosted (s : Dev) : Nat := ((List.range 32768).find? fun k => !thas s.val.hosted k).getD 0

/-- Key of a reservation. -/
def reserveKey (src id : Nat) : Nat := src * 65536 + id

/-- A universe under a new record keeps what it has sent. -/
def AdmitAsk.renewed (q : AdmitAsk) (h : Hosted) : Hosted :=
  let u := h.univ
  let v : Univ := { q.univ with seq := u.seq, payload := u.payload, payFrame := u.payFrame, prev := u.prev, lastSent := u.lastSent,
                                terms := u.terms, frame := u.frame }
  { h with univ := v, ident := q.ident, rateNum := q.rateNum, rateDen := q.rateDen, domain := q.domain, lead := q.lead, handle := q.handle }

/-- What a request charges here once a universe's new record is in force, the hosted universe `k` left out. -/
def renewCharges (s : Dev) (q : AdmitAsk) (k : Option Nat) : List (Nat × Nat) :=
  if q.sender = s.val.addr then hostCharges (match k with | some k => { s with val.hosted := tdel s.val.hosted k } | none => s) q
  else (egressLinks s q.sender).map fun l => (25 + l, q.amount)

/-- A request for a new record of a universe that this device has admitted before, as `r0`: the increase is reserved beside it. -/
def growReserve (src id : Nat) (q : AdmitAsk) (r0 : Reserve) (s : Dev) : Except Refuse Dev := do
  let here := q.sender == s.val.addr
  let rest := match r0.hosted with
    | some k => { s with val.hosted := tdel s.val.hosted k }
    | none => s
  require (!here || (decide (q.univ.dest ≤ 15) && portOn s q.univ.dest)) rcOutOfRange
  require (!here || !hostedBusy rest q) rcConflict
  let new := renewCharges s q r0.hosted
  let up := (List.range 29).filterMap fun n =>
    if chargeOn r0.charges n < chargeOn new n then some (n, chargeOn new n - chargeOn r0.charges n) else none
  match if up = [] then [] else shortLines s up with
  | [] => pure ()
  | l => .error (noCapacity l)
  let put (k : Option Nat) (s : Dev) : Dev :=
    chargeAll up { s with val.reserves := tput s.val.reserves (reserveKey src id) ⟨up, q.sender, q.amount, k, false⟩ }
  if here && r0.hosted.isNone then
    let k := freeHosted s
    let h : Hosted := { asker := src, handle := q.handle, univ := q.univ, ident := q.ident, domain := q.domain, rateNum := q.rateNum,
                        rateDen := q.rateDen, lead := q.lead }
    match hostAction k { s with val.hosted := tput s.val.hosted k h } with
    | none => refuse rcNoSpace
    | some s => pure (put (some k) s)
  else pure (put (if here then r0.hosted else none) s)

/-- The new record of a universe is in force: what it charges here takes the place of the charges before, `r0` under key `k0`. -/
def commitGrown (src id k0 : Nat) (q : AdmitAsk) (r0 : Reserve) (s : Dev) : Dev :=
  match tget s.val.reserves (reserveKey src id) with
  | none => s
  | some r =>
    let s := creditAll r.charges (creditAll r0.charges { s with val.reserves := tdel s.val.reserves k0 })
    let s := match r0.hosted with
      | some k => if r.hosted = some k then { s with val.hosted := tmod s.val.hosted k q.renewed } else dropHosted k s
      | none => s
    let new := renewCharges s q r.hosted
    chargeAll new { s with
      val.reserves := tput s.val.reserves (reserveKey src id) { r with charges := new, amount := q.amount, committed := true } }

/-- The admission that a request renews. -/
def AdmitAsk.before (q : AdmitAsk) (src : Nat) (s : Dev) : Option (Nat × Reserve) :=
  q.old.bind fun o => (tget s.val.reserves (reserveKey src o)).map fun r => (reserveKey src o, r)

/-- A request is admitted here and held reserved, or refused. -/
def takeReserve (src id : Nat) (q : AdmitAsk) (s : Dev) : Except Refuse Dev := do
  if q.sender = s.val.addr then
    let own := q.movesOwn s
    let moved := s.val.hosted.find? fun e => q.moves e.2
    require (decide (q.univ.dest ≤ 15) && portOn s q.univ.dest) rcOutOfRange
    require (!hostedBusy s q) rcConflict
    let charges := if own.isSome || moved.isSome then [] else hostCharges s q
    match shortLines s charges with
    | [] => pure ()
    | l => .error (noCapacity l)
    match moved with
    | some e =>
      pure { s with val.reserves := tput s.val.reserves (reserveKey src id) ⟨[], q.sender, q.amount, some e.1, false⟩ }
    | none =>
      let k := freeHosted s
      let epoch := match own with
        | some i => (((tget s.val.epochs i).getD 0) + 1) % 256
        | none => 0
      let h : Hosted := { asker := src, handle := q.handle, univ := q.univ, ident := q.ident, domain := q.domain, rateNum := q.rateNum,
                          rateDen := q.rateDen, lead := q.lead, epoch := epoch }
      let s1 := { s with val.hosted := tput s.val.hosted k h }
      match hostAction k s1 with
      | none => refuse rcNoSpace
      | some s2 =>
        pure (chargeAll charges
          { s2 with val.reserves := tput s2.val.reserves (reserveKey src id) ⟨charges, q.sender, q.amount, some k, false⟩ })
  else
    let charges := (egressLinks s q.sender).map fun l => (25 + l, q.amount)
    match shortLines s charges with
    | [] => pure (chargeAll charges { s with val.reserves := tput s.val.reserves (reserveKey src id) ⟨charges, q.sender, q.amount, none, false⟩ })
    | l => .error (noCapacity l)

/-- A reservation is returned. A hosted universe that a migration has switched away passes, with its charges, to the reservation of the
device that computes it now. -/
def giveReserve (key : Nat) (s : Dev) : Dev :=
  match tget s.val.reserves key with
  | none => s
  | some r =>
    let s := { s with val.reserves := tdel s.val.reserves key }
    match r.hosted.bind fun k => (tget s.val.hosted k).map fun h => (k, h) with
    | none => creditAll r.charges s
    | some (k, h) =>
      let heir := (s.val.reserves.find? fun e => e.2.hosted == some k).map (·.1)
      match heir, h.switch with
      | some e, some (_, a, hd) =>
        { s with
          val.hosted := tput s.val.hosted k { h with asker := a, handle := hd, epoch := (h.epoch + 1) % 256, switch := none }
          val.reserves := tmod s.val.reserves e fun x => { x with charges := r.charges } }
      | some _, none => creditAll r.charges s
      | none, _ => dropHosted k (creditAll r.charges s)

/-- A new rate of a universe after a RETIME (R149): the charges follow it without admission. -/
def rerate (key : Nat) (q : AdmitAsk) (s : Dev) : Dev :=
  match tget s.val.reserves key with
  | none => s
  | some r =>
    let s := creditAll r.charges s
    let s := match r.hosted with
      | some k => { s with val.hosted := tmod s.val.hosted k fun h => { h with rateNum := q.rateNum, rateDen := q.rateDen, lead := q.lead } }
      | none => s
    let l := match r.hosted with
      | some k => hostCharges { s with val.hosted := tdel s.val.hosted k } q
      | none => (egressLinks s q.sender).map fun l => (25 + l, q.amount)
    chargeAll l { s with val.reserves := tput s.val.reserves key { r with charges := l, amount := q.amount } }

/-- An admission message of another device. -/
def admitRx (src id op : Nat) (q : AdmitAsk) (s : Dev) : Dev :=
  let key := reserveKey src id
  match op with
  | 0 =>
    match (match q.before src s with | some (_, r0) => growReserve src id q r0 s | none => takeReserve src id q s) with
    | .ok s => valTell 7 src (.admitAns id rcDone []) s
    | .error e => valTell 7 src (.admitAns id e.code e.data) (countRefusal e s)
  | 1 =>
    match q.before src s with
    | some (k0, r0) => commitGrown src id k0 q r0 s
    | none => { s with val.reserves := tmod s.val.reserves key fun r => { r with committed := true } }
  | 2 => giveReserve key s
  | _ => rerate key q s

/-! Asking (R318) -/

/-- What this device asks for a universe of its own. -/
def askFor (s : Dev) (u : Univ) (from_ : Option (Nat × Word)) : AdmitAsk :=
  let c := u.canvas.bind (canvasAt s)
  let rate := univRate s u
  { handle := u.handle, univ := u, ident := (tget s.outp.idents u.ident).getD ⟨0, false, [], 0, [], none⟩, rateNum := rate.1,
    rateDen := rate.2, domain := (c.map (·.domain)).getD 0, lead := (c.map (·.timing.lead)).getD 0, sender := u.valley, from_ := from_ }

/-- A request goes to every device that the universe uses. -/
def startAdmission (p : Purpose) (q : AdmitAsk) (s : Dev) : Dev :=
  let id := s.val.nextId
  let l := pathDevices s q.sender
  let a : Admission := { purpose := p, ask := q, asked := l, waits := l, began := s.raw }
  l.foldl (fun s d => valTell 7 d (.admitMsg id 0 q) s)
    { s with val.nextId := (id + 1) % 65536, val.admissions := tput s.val.admissions id a }

/-- An object that stands in its place for an admission goes again: its index returns to the head of the free ones, its generation as it
was. -/
def unplace (kind i : Nat) (s : Dev) : Dev :=
  match objAt s (okey kind i) with
  | none => s
  | some o =>
    let s := creditAll o.charges (dropObj kind i s)
    { s with hdl.objs := tdel s.hdl.objs (okey kind i), hdl.slots := tput s.hdl.slots kind ((i, 1) :: freeIdx s kind) }

/-- The line among those charged whose headroom is least relative to its capacity, its headroom and that in parts per million (R69); the
charges are counted in `s`. -/
def leastRoom (s : Dev) (charges : List (Nat × Nat)) : List Byte :=
  let lines := (List.range 29).filter fun n => chargeOn charges n != 0
  let room (n : Nat) : Nat := capOf s n - usedOf s n
  match lines with
  | [] => []
  | a :: r =>
    let n := r.foldl (fun b n => if room n * capOf s b < room b * capOf s n then n else b) a
    leBytes 4 n ++ leBytes 4 (room n) ++ leBytes 4 (room n * 1000000 / capOf s n)

/-- Every device gives back what it holds for an admission. -/
def returnAll (id : Nat) (a : Admission) (s : Dev) : Dev :=
  a.asked.foldl (fun s d => valTell 7 d (.admitMsg id 2 a.ask) s) { s with val.admissions := tdel s.val.admissions id }

/-- The objects that a copy made here holds go (R325). -/
def dropCopy (idx : Nat) (s : Dev) : Dev :=
  match tget s.val.copies idx with
  | none => s
  | some c =>
    let s := c.fixtures.foldl (fun s f => unplace 1 f s) s
    let s := match tget s.outp.univs idx with
      | some u => releaseUses u s
      | none => s
    let s := unplace 2 idx s
    let s := match c.ident with
      | some i => unplace 0xE i s
      | none => s
    { s with val.copies := tdel s.val.copies idx }

/-- An admission is refused: everything is returned, and the command, or the device that waits for a copy, gets the refusal. -/
def refuseAdmission (id : Nat) (a : Admission) (e : Refuse) (s : Dev) : Dev :=
  let s := returnAll id a s
  match a.purpose with
  | .create h op idx _ => complete h op e.code 0 e.data (countRefusal { e with code := if op = 0x10 then e.code else 0 } (unplace 2 idx s))
  | .copy asker mig idx => valTell 8 asker (.migAns mig e.code e.data 0) (dropCopy idx s)
  | .image _ n => { s with sys.bad := s.sys.bad <|> some (e.code, n) }
  | .modify h idx _ => complete h 0x12 e.code (handleOf s (okey 2 idx)) e.data (countRefusal e s)

/-- Every device has admitted the universe: the reservations are committed. -/
def finishAdmission (id : Nat) (a : Admission) (s : Dev) : Dev :=
  match a.purpose with
  | .create h op idx start =>
    if op = 0x10 then
      let hd := handleOf s (okey 2 idx)
      let s := a.asked.foldl (fun s d => valTell 7 d (.admitMsg id 1 a.ask) s)
        { s with val.admissions := tdel s.val.admissions id, val.uses := tput s.val.uses hd.toNat (a.asked, id) }
      let s := match start with
        | some v => startObj (okey 2 idx) v s
        | none => s
      complete h op rcDone hd [] s
    else
      let data := leastRoom s (((objAt s (okey 2 idx)).map (·.charges)).getD [])
      complete h op rcDone 0 data (unplace 2 idx (returnAll id a s))
  | .copy asker mig idx =>
    let hd := handleOf s (okey 2 idx)
    let s := a.asked.foldl (fun s d => valTell 7 d (.admitMsg id 1 a.ask) s)
      { s with val.admissions := tdel s.val.admissions id, val.uses := tput s.val.uses hd.toNat (a.asked, id) }
    valTell 8 asker (.migAns mig rcDone [] hd) s
  | .image idx _ =>
    a.asked.foldl (fun s d => valTell 7 d (.admitMsg id 1 a.ask) s)
      { s with val.admissions := tdel s.val.admissions id
               val.uses := tput s.val.uses (handleOf s (okey 2 idx)).toNat (a.asked, id) }
  | .modify h idx r =>
    let hd := handleOf s (okey 2 idx)
    match modifyObj (okey 2 idx) r s with
    | .error e => complete h 0x12 e.code hd e.data (countRefusal e (returnAll id a s))
    | .ok s =>
      let gone := match tget s.val.uses hd.toNat with
        | some (l, k) => (l.filter fun d => !a.asked.contains d).map fun d => (d, k)
        | none => []
      let s := gone.foldl (fun s e => valTell 7 e.1 (.admitMsg e.2 2 a.ask) s) s
      let s := a.asked.foldl (fun s d => valTell 7 d (.admitMsg id 1 a.ask) s)
        { s with val.admissions := tdel s.val.admissions id, val.uses := tput s.val.uses hd.toNat (a.asked, id) }
      complete h 0x12 rcDone hd [] s

/-- An answer to a request of this device. -/
def admitAnsRx (src id code : Nat) (data : List Byte) (s : Dev) : Dev :=
  match tget s.val.admissions id with
  | none => s
  | some a =>
    if !a.waits.contains src then s
    else if code ≠ rcDone then
      let s := setFld F.VAL_LAST_REFUSAL_LINE (if code = rcNoCapacity then at_ data 0 4 else 0) (setFld F.VAL_LAST_REFUSAL_ADDRESS src s)
      refuseAdmission id a { code := code, data := data } s
    else
      let a := { a with waits := a.waits.filter (· != src) }
      let s := { s with val.admissions := tput s.val.admissions id a }
      if a.waits = [] then finishAdmission id a s else s

/-- Requests without every answer for 10 ms are refused; so is a copy that its target does not answer (log 26: NO_CAPACITY). -/
def admitTimeouts (f : Nat → Mig → Refuse → Dev → Dev) (s : Dev) : Dev :=
  let e : Refuse := { code := rcNoCapacity }
  let s := (s.val.admissions.filter fun a => decide (a.2.began + ms 10 ≤ s.raw)).foldl (fun s a => refuseAdmission a.1 a.2 e s) s
  (s.val.migs.filter fun m => m.2.state == 0 && decide (m.2.began + ms 10 ≤ s.raw)).foldl (fun s m => f m.1 m.2 e s) s

/-! Universes sent for other devices (R192, R198, R326) -/

/-- T_n of a hosted universe, in its domain's time. -/
def hostTick (s : Dev) (h : Hosted) (n : Int) : Int :=
  if h.rateNum = 0 then 0
  else n * (h.rateDen : Int) * unitsPerSec / (h.rateNum : Int) + (domAt s h.domain).phiNow (domTime s h.domain)

/-- Is the site tick `k` of a hosted universe past? -/
def siteReached (s : Dev) (h : Hosted) (k : Int) : Bool :=
  decide (0 < h.univ.rate) && decide (k * unitsPerSec / (h.univ.rate : Int) ≤ domTime s 0)

/-- Is a packet the one the merge point takes (R326)? -/
def mergeOk (s : Dev) (h : Hosted) (src : Nat) (handle : Word) (epoch : Nat) (n : Int) : Bool :=
  let old := src == h.asker && handle == h.handle && epoch == h.epoch
  match h.switch with
  | none => old
  | some (ns, a, hd) =>
    let past := if h.univ.cls = 1 then siteReached s h ns else decide (ns ≤ n)
    if past then src == a && handle == hd && epoch == (h.epoch + 1) % 256 else old

/-- Frame `n` of a hosted show universe is sent from its port. -/
def sendHosted (k : Nat) (h : Hosted) (n : Int) (term : Bool) (slots : List Byte) (s : Dev) : Dev :=
  sendShow (32768 + k) (8 + leadOf s k) n (hostTick s h (n - 1)) (hostTick s h n) (hostTick s h (n + 1)) term slots s

/-- A payload for a hosted universe. -/
def hostedRx (k : Nat) (h : Hosted) (n : Int) (seq : Nat) (term : Bool) (slots : List Byte) (s : Dev) : Dev :=
  let u := if inFlight s (32768 + k) h.univ then h.univ else { h.univ with seq := (seq + 255) % 256 }
  let late := h.univ.cls == 0 && h.sent.any fun m => decide (n ≤ m)
  if late then s
  else
    let h := { h with univ := { u with payload := slots }, first := h.first <|> some n, sent := if term then none else some n }
    let s := { s with val.hosted := tput s.val.hosted k h }
    if h.univ.cls = 1 then (if outputsOn s then queuePacket (32768 + k) (.site (32768 + k)) term slots s else s)
    else sendHosted k h n term slots s

/-- A payload packet for this device: of a universe it sends, by its handle; any other epoch is discarded and counted. -/
def payloadRx (src : Nat) (handle : Word) (epoch : Nat) (frame aux : Nat) (term : Bool) (slots : List Byte) (s : Dev) : Dev :=
  let mine (h : Hosted) : Bool :=
    (h.asker == src && h.handle == handle) || (h.switch.any fun w => w.2.1 == src && w.2.2 == handle)
  match s.val.hosted.find? fun e => mine e.2 with
  | none => s
  | some (k, h) =>
    let n := sgn 64 frame
    if mergeOk s h src handle epoch n then hostedRx k h n (aux % 256) term slots s else bump R.VAL_EPOCH_DROPS s

/-- REMOTE_LATE (R192): the payload of the next frame is not there at C_N − W_p; that of the frame before is sent in its place. -/
def runRemoteLate (t : Time) (k : Nat) (s : Dev) : Host.Outcome Dev Fault Refusal :=
  let s := upTo t s
  .next (match tget s.val.hosted k with
    | none => s
    | some h =>
      match h.sent with
      | none => s
      | some m =>
        let n := m + 1
        let last := hostTick s h n - (us 50 : Nat) - (arrivalWidth s h.univ.dest : Nat)
        if h.univ.cls = 0 ∧ last ≤ domTime s h.domain ∧ outputsOn s then
          let p := h.univ.dest
          let s := bump (R.PKT_TXP_REMOTE_LATE p) { s with val.hosted := tput s.val.hosted k { h with sent := some n } }
          sendHosted k h n false h.univ.payload (postCode 0x21 3 0x31 (p * 2 ^ 32 + hIndex h.handle) s)
        else s)

/-! Migration: this device computes the universe (R323-R328) -/

/-- The migration of a universe that is not over. -/
def migOf (s : Dev) (i : Nat) : Option (Nat × Mig) := s.val.migs.find? fun e => e.2.univ == i && decide (e.2.state ≤ 3)

/-- Put a migration. -/
def setMig (k : Nat) (m : Mig) (s : Dev) : Dev := { s with val.migs := tput s.val.migs k m }

/-- The copy that goes to the target. -/
def copyOf (s : Dev) (m : Mig) (u : Univ) : MigCopy :=
  let tk := tget s.sch.tasks m.univ
  { univ := u, ident := (tget s.outp.idents u.ident).getD ⟨0, false, [], 0, [], none⟩, fixtures := (fixturesOf s m.univ).map (·.2),
    prio := ((objAt s (okey 2 m.univ)).map (·.prio)).getD 0, inbox := (tk.map (·.limit)).getD 64,
    canvas := u.canvas.bind fun k => (canvasAt s k).map fun c => (k, c.domain, c.timing), epoch := (tget s.val.epochs m.univ).getD 0,
    newDest := if m.movePort then some m.newDest else none }

/-- The check of a migration record, in the order of R323's table. -/
def migCheck (s : Dev) (want : Option Nat) (r : List Byte) : Except Refuse Mig := do
  let c : Ctx := { how := .create want, idx := 0, cls := 0, prio := 0 }
  let target := at_ r 2 1
  let flags := at_ r 3 1
  let uh : Word := BitVec.ofNat 32 (at_ r 4 4)
  require (indexOk c (at_ r 0 2) 0xFFFF && decide (flags ≤ 1) && (r.drop 9).all (· == 0)) rcOutOfRange
  require (decide (1 ≤ target ∧ target ≤ 254) && target != s.val.addr && (if flags = 1 then decide (at_ r 8 1 ≤ 17) else at_ r 8 1 == 0))
    rcOutOfRange
  require (valleyHas s target) rcOutOfRange
  require (hKind uh == 2 && (objOf s uh).isSome) rcBadHandle
  require ((migOf s (hIndex uh)).isNone) rcConflict
  pure { target := target, movePort := flags == 1, univ := hIndex uh, newDest := at_ r 8 1, state := 0, began := s.raw }

/-- CREATE of a migration: the copy goes to the target, and the command waits for its answer. -/
def startMig (h : CmdHdr) (k : Nat) (m : Mig) (s : Dev) : Dev :=
  match tget s.outp.univs m.univ with
  | none => s
  | some u =>
    let o : HObj := { gen := genOf s (okey 0xD k), state := 0, cls := 0, prio := 0, charges := [], refs := [okey 2 m.univ], startAt := 0,
                      startCmd := 0 }
    let s := setObj (okey 0xD k) o { s with hdl.slots := tput s.hdl.slots 0xD (segPick (freeIdx s 0xD) k) }
    valTell 8 m.target (.migCopy k (copyOf s m u)) (setMig k { m with waits := some h } s)

/-- The command of a migration whose copy is refused is refused. -/
def refuseMig (k : Nat) (m : Mig) (e : Refuse) (s : Dev) : Dev :=
  let s := unplace 0xD k s
  match m.waits with
  | some h => complete h 0x10 e.code 0 e.data (countRefusal e s)
  | none => s

/-- The target's answer. -/
def migAnsRx (src k code : Nat) (data : List Byte) (handle : Word) (s : Dev) : Dev :=
  match tget s.val.migs k with
  | none => if code = rcDone then valTell 8 src (.migDrop handle) s else s
  | some m =>
    if m.state ≠ 0 ∨ m.target ≠ src then (if code = rcDone then valTell 8 src (.migDrop handle) s else s)
    else if code ≠ rcDone then refuseMig k m { code := code, data := data } s
    else
      let s := setMig k { m with state := 1, handle := handle, waits := none } s
      match m.waits with
      | some h => complete h 0x10 rcDone (handleOf s (okey 0xD k)) [] s
      | none => s

/-- The frame in progress of a universe, and the LEAD that a switch keeps: a site universe counts its ticks. -/
def migFloor (s : Dev) (u : Univ) : Int :=
  match u.canvas.bind (canvasAt s) with
  | some c => c.nextN - 1 + (c.timing.lead : Int) + 2
  | none => (u.tickK : Int) - 1 + 2

/-- The device that sends a universe. -/
def senderOf (s : Dev) (u : Univ) : Nat := if u.remote then u.valley else s.val.addr

/-- MIGRATE SWITCH. -/
def migSwitch (k : Nat) (frame : Nat) (s : Dev) : Dev × Except Refuse (List Byte) :=
  match tget s.val.migs k with
  | none => (s, refuse rcBadHandle)
  | some m =>
    match tget s.outp.univs m.univ with
    | none => (s, refuse rcWrongMode)
    | some u =>
      if m.state ≠ 1 then (s, refuse rcWrongMode)
      else
        let ns := max (sgn 64 frame) (migFloor s u)
        let epoch := (((tget s.val.epochs m.univ).getD 0) + 1) % 256
        let s := setMig k { m with state := 2, ns := ns, epoch := epoch } s
        let msg : VMsg := .migSwitch u.handle m.handle m.target ns epoch
        let s := valTell 8 m.target msg s
        let s := if u.remote ∧ !m.movePort ∧ u.valley ≠ m.target then valTell 8 u.valley msg s else s
        (s, .ok (leBytes 8 (unsgn 64 ns) ++ leBytes 1 epoch))

/-- A migration that has not switched is aborted: the copy on the target goes. -/
def abortMig (k : Nat) (m : Mig) (s : Dev) : Dev :=
  if m.state = 0 then refuseMig k m { code := rcAborted } s
  else if m.state ≤ 2 then
    let s := valTell 8 m.target (.migDrop m.handle) s
    let s := match tget s.outp.univs m.univ with
      | some u => if u.remote ∧ m.state = 2 then valTell 8 u.valley (.migDrop u.handle) s else s
      | none => s
    let s := modObj (okey 0xD k) (fun o => { o with refs := [] }) (setMig k { m with state := 5 } s)
    postVal 7 0x0D m.target k s
  else s

/-- Every migration that a predicate picks is aborted, where it has not switched. -/
def abortMigs (f : Mig → Bool) (s : Dev) : Dev := (s.val.migs.filter fun e => f e.2).foldl (fun s e => abortMig e.1 e.2 s) s

/-- MIGRATE ABORT. -/
def migAbort (k : Nat) (s : Dev) : Dev × Except Refuse (List Byte) :=
  match tget s.val.migs k with
  | none => (s, refuse rcBadHandle)
  | some m =>
    if m.state = 1 ∨ m.state = 2 then (abortMig k m s, .ok [])
    else if m.state = 5 then (s, refuse rcWrongMode)
    else (s, refuse rcLate)

/-- Is frame (or site tick) `n` of a universe computed elsewhere, a migration having switched it? -/
def migGone (s : Dev) (i : Nat) (n : Int) : Bool :=
  s.val.migs.any fun e => e.2.univ == i && (e.2.state == 2 || e.2.state == 3) && decide (e.2.ns ≤ n)

/-- This device's copy of a switched universe goes: its charges are credited. What it sends on for the target is charged as a sending
device. -/
def migDone (k : Nat) (m : Mig) (s : Dev) : Dev :=
  let s := (fixturesOf s m.univ).foldl (fun s e =>
    let d : Dying := ⟨handleOf s (okey 1 e.1), ((objAt s (okey 1 e.1)).map (·.charges)).getD []⟩
    let s := dropObj 1 e.1 s
    releaseObj d { s with hdl.objs := tdel s.hdl.objs (okey 1 e.1) }) s
  let u := tget s.outp.univs m.univ
  let d : Dying := ⟨handleOf s (okey 2 m.univ), ((objAt s (okey 2 m.univ)).map (·.charges)).getD []⟩
  let s := dropObj 2 m.univ s
  let s := releaseObj d { s with hdl.objs := tdel s.hdl.objs (okey 2 m.univ), val.epochs := tdel s.val.epochs m.univ }
  let heir := s.val.hosted.find? fun e => e.2.asker == m.target && e.2.handle == m.handle
  let s := match u, heir with
    | some u, some (hk, h) =>
      match if u.remote then none else s.val.reserves.find? fun e => e.2.hosted == some hk with
      | some (rk, r) =>
        let l := hostCharges { s with val.hosted := tdel s.val.hosted hk }
          { handle := h.handle, univ := h.univ, ident := h.ident, rateNum := h.rateNum, rateDen := h.rateDen, domain := h.domain,
            lead := h.lead, sender := s.val.addr }
        chargeAll l { s with val.reserves := tput s.val.reserves rk { r with charges := l } }
      | none => s
    | _, _ => s
  let s := modObj (okey 0xD k) (fun o => { o with refs := [] }) (setMig k { m with state := 4 } s)
  postVal 7 0x0C m.target (unsgn 64 m.ns) s

/-- A tick of a universe's pace that latches frame `latch` and presents frame `n`: migrations of it move on (R325). -/
def migTick (i : Nat) (latch n : Int) (s : Dev) : Dev :=
  let s := match migOf s i with
    | some (k, m) => if m.state = 2 ∧ m.ns ≤ latch then setMig k { m with state := 3 } s else s
    | none => s
  match migOf s i with
  | some (k, m) => if m.state = 3 ∧ m.ns ≤ n then migDone k m s else s
  | none => s

/-! Migration: this device is the target, or sends the universe -/

/-- The identity of a copy: the one with the same values, or a new one. -/
def copyIdent (c : MigCopy) (s : Dev) : Except Refuse (Nat × Option Nat × Dev) :=
  let same (x : Ident) : Bool :=
    x.cid == c.ident.cid && x.name == c.ident.name && x.sourceIp == c.ident.sourceIp && x.priority == c.ident.priority
  match s.outp.idents.find? fun e => same e.2 with
  | some e => .ok (e.1, none, s)
  | none =>
    match s.outp.idents.find? fun e => e.2.cid == c.ident.cid with
    | some e => refuseBy rcConflict (handleOf s (okey 0xE e.1))
    | none =>
      match segTake (freeIdx s 0xE) with
      | none => refuse rcNoSpace
      | some (i, _) =>
        let o : HObj := { gen := genOf s (okey 0xE i), state := 0, cls := 0, prio := 0, charges := [], refs := [], startAt := 0, startCmd := 0 }
        let s := setObj (okey 0xE i) o { s with hdl.slots := tput s.hdl.slots 0xE (segPick (freeIdx s 0xE) i) }
        .ok (i, some i, { s with outp.idents := tput s.outp.idents i { c.ident with discAt := none } })

/-- The fixtures of a copy, one after the other. -/
def copyFixtures (univ prio : Nat) : List Fixture → Dev → Except Refuse (Dev × List Nat)
  | [], s => .ok (s, [])
  | f :: r, s => do
    let (i, _) ← match segTake (freeIdx s 1) with
      | some x => Except.ok x
      | none => refuse rcNoSpace
    let f := { f with univ := univ, last := [], prev := [], lastFrame := none, repeated := false, staleAt := none }
    let (f, charges, refs) ← fixtureIn s (2 ^ 20) f
    let c : Ctx := { how := .create none, idx := i, cls := f.cls, prio := prio }
    let s ← admitPlan c 1 { charges := charges, refs := refs, install := fun _ s => installFixture i f s } s
    let (s, l) ← copyFixtures univ prio r s
    pure (s, i :: l)

/-- Does the target's canvas match (R323)? -/
def canvasMatch (s : Dev) (c : MigCopy) : Bool :=
  match c.canvas with
  | none => true
  | some (k, d, g) =>
    match canvasAt s k with
    | some x =>
      x.domain == d && x.timing.rateNum == g.rateNum && x.timing.rateDen == g.rateDen && x.timing.bands == g.bands &&
        x.timing.lead == g.lead && x.timing.tailUs == g.tailUs
    | none => false

/-- The copy of a universe is made here, complete and computing nothing; answers its index. -/
def makeCopy (src mig : Nat) (c : MigCopy) (s : Dev) : Except Refuse (Dev × Nat) := do
  require (s.sys.mode == .active) rcWrongMode
  require (canvasMatch s c) rcConflict
  require (c.fixtures.all fun f => f.inputs.all fun k => (objAt s k).isSome) rcBadHandle
  let from_ := if c.univ.valley = 0 then src else c.univ.valley
  let valley := if c.newDest.isSome ∨ from_ = s.val.addr then 0 else from_
  let u0 := { c.univ with valley := valley, dest := c.newDest.getD c.univ.dest, terms := 0, payload := [], prev := [], payFrame := none,
                          frame := 0, tickK := 0 }
  require (if u0.remote then !u0.dmx && valleyHas s u0.valley else u0.dmx || portOn s u0.dest) rcOutOfRange
  require (dmxFits s u0) rcOutOfRange
  let (ident, made, s) ← if u0.dmx then Except.ok (0, none, s) else copyIdent c s
  let u := { u0 with ident := ident }
  let (i, _) ← match segTake (freeIdx s 2) with
    | some x => Except.ok x
    | none => refuse rcNoSpace
  match univClash s i u with
  | some o => refuseBy rcConflict (handleOf s (okey 2 o))
  | none => pure ()
  let sent := { s with val.hosted := s.val.hosted.filter fun e => !(e.2.asker == src && e.2.handle == c.univ.handle) }
  require (!hostedClash sent u) rcConflict
  let refs := (u.canvas.map fun k => okey 5 k).toList ++ (if u.dmx then [] else [okey 0xE u.ident])
  let x : Ctx := { how := .create none, idx := i, cls := u.cls, prio := c.prio }
  let s ← admitPlan x 2
    { charges := univCharges s i u (univRate s u), refs := refs, install := fun h s => installUniv i u h (levelOf u.cls c.prio) c.inbox s } s
  let (s, fs) ← copyFixtures i c.prio c.fixtures s
  pure ({ s with
    val.copies := tput s.val.copies i { asker := src, id := mig, fixtures := fs, ident := made, epoch := (c.epoch + 1) % 256 } }, i)

/-- A copy arrives at its target. Where another device sends the universe, its admission follows before the answer. -/
def migCopyRx (src mig : Nat) (c : MigCopy) (s : Dev) : Dev :=
  match makeCopy src mig c s with
  | .error e => valTell 8 src (.migAns mig e.code e.data 0) (countRefusal e s)
  | .ok (s, i) =>
    match tget s.outp.univs i with
    | some u =>
      if u.remote then startAdmission (.copy src mig i) (askFor s u (some (src, c.univ.handle))) s
      else valTell 8 src (.migAns mig rcDone [] u.handle) s
    | none => s

/-- The switch is told: the sending device keeps it for its merge; the target starts its copy at T of the frame. -/
def migSwitchRx (old new : Word) (target : Nat) (ns : Int) (epoch : Nat) (s : Dev) : Dev :=
  if target = s.val.addr then
    let i := hIndex new
    match tget s.val.copies i, tget s.outp.univs i with
    | some c, some u =>
      let at' : Int := match u.canvas.bind (canvasAt s) with
        | some cv => tickAt s cv ns
        | none => if u.rate = 0 then 0 else ns * unitsPerSec / (u.rate : Int)
      startObj (okey 2 i) at'.toNat
        { s with val.copies := tput s.val.copies i { c with ns := some ns, epoch := epoch }, val.epochs := tput s.val.epochs i epoch }
    | _, _ => s
  else
    match s.val.hosted.find? fun e => e.2.handle == old with
    | some (k, h) => { s with val.hosted := tput s.val.hosted k { h with switch := some (ns, target, new) } }
    | none => s

/-- The sequence number from which the target goes on (R327); a SOURCE_IP that it now answers for is announced. -/
def migSeqRx (handle : Word) (seq : Nat) (s : Dev) : Dev :=
  let i := hIndex handle
  match tget s.outp.univs i with
  | some u =>
    let s := { s with outp.univs := tput s.outp.univs i { u with seq := (seq + 255) % 256 } }
    let ip := ((tget s.outp.idents u.ident).map (·.sourceIp)).getD 0
    if !u.remote && !u.dmx && ip != 0 then gratuitous u.dest s else s
  | none => s

/-- A migration is aborted: the target drops the copy, the sending device forgets the switch. -/
def migDropRx (handle : Word) (s : Dev) : Dev :=
  let i := hIndex handle
  match tget s.val.copies i with
  | some _ => if handleOf s (okey 2 i) = handle then dropCopy i s else s
  | none =>
    match s.val.hosted.find? fun e => e.2.handle == handle with
    | some (k, h) => { s with val.hosted := tput s.val.hosted k { h with switch := none } }
    | none => s

/-! Members that leave -/

/-- A member has left (R313, R325): migrations to it are aborted. What is reserved for it stays reserved (log 25). -/
def memberLeft (uid : Nat) (s : Dev) : Dev :=
  match tget s.val.members uid with
  | none => s
  | some m => abortMigs (fun x => x.target == m.info.addr) (dropMember uid s)

/-- MEMBER_LEAVE (R313). -/
def runMemberLeave (t : Time) (uid : Nat) (s : Dev) : Host.Outcome Dev Fault Refusal :=
  let s := upTo t s
  .next (match tget s.val.members uid with
    | some m => if memberGone s m then memberLeft uid s else s
    | none => s)

/-! Site ticks, which migrations move too -/

/-- SITE_TICK (R199): `i` is a universe, or the send key of a destroyed one. -/
def runSiteTick (t : Time) (i : Nat) (s : Dev) : Host.Outcome Dev Fault Refusal :=
  let s := upTo t s
  .next (match sender s i, tget s.outp.univs i with
    | _, some u =>
      if u.cls = 1 ∧ timeRuns s ∧ siteTickAt u u.tickK ≤ domTime s 0 + (ns 5 : Nat) then
        let s := migTick i u.tickK u.tickK s
        match tget s.outp.univs i with
        | some u => siteTick i u s
        | none => s
      else s
    | some (u, _), none =>
      if u.cls = 1 ∧ u.terms ≠ 0 ∧ siteTickAt u u.tickK ≤ domTime s 0 + (ns 5 : Nat) then ghostTick i u s else s
    | none, none => s)

/-- Kind-specific bytes of QUERY for a migration (R332). -/
def migQuery (s : Dev) (k : Nat) : List Byte :=
  match tget s.val.migs k with
  | some m => leBytes 1 m.state ++ leBytes 1 m.epoch ++ leBytes 1 m.target ++ [0] ++ leBytes 4 m.handle.toNat
  | none => []

end Sys2Proof.Machine
end

