-- ==== Sys2Proof/Machine/Chk.lean ====
section
/-! DEFINITION. The check-value channels (chapter 16, R391-R396). -/

namespace Sys2Proof.Machine

/-- Bytes of the system region (R82). -/
def sysRegion : Nat := 268435456

/-- The size of a scan source (R393). -/
def scanSize (s : Dev) (source : Nat) : Nat :=
  match source with
  | 0 => storePages s * pageBytes + sysRegion
  | 1 => 2 ^ 32
  | 2 => 8388608
  | _ => norSize s

/-- The bits of a result. -/
def scanWidth (alg : Nat) : Nat :=
  match alg with
  | 0 => 32
  | 1 => 32
  | 2 => 64
  | _ => 16

/-- Handle-relative bytes of a key; unmapped pages read as zeros. -/
def keyBytes (s : Dev) (k a n : Nat) : List Byte := (pieces (n / 65536 + 2) a n).flatMap fun e => relRead s k e.1 e.2

/-- Physical address ÷ 8 of the word at offset `i` of a scan, where it has one. -/
def scanWord (s : Dev) (x : Scan) (i : Nat) : Option Nat :=
  match x.source with
  | 0 => some ((x.start + i) / 8)
  | 1 => x.target.bind fun k => (pteAt s k ((x.start + i) / pageBytes)).map fun p => (p.ppn * pageBytes + (x.start + i) % pageBytes) / 8
  | _ => none

/-- The offset of the first poisoned word in the range of a scan. -/
def scanPoison (s : Dev) (x : Scan) : Option Nat :=
  if s.pln.poisoned = [] ∨ 1 < x.source then none
  else
    ((List.range (x.len / 8 + 2)).map fun i => 8 * i - (if i = 0 then 0 else x.start % 8)).find? fun i =>
      decide (i < x.len) && (scanWord s x i).any fun w => s.pln.poisoned.contains w

/-- The result over the first `n` bytes of a scan as its source stands. The scratchpad and the system region hold bytes that the spec
does not lay out: a result over them is a free value (log 8). -/
def scanValue (s : Dev) (alg : Nat) (x : Scan) (n : Nat) : Dev × Nat :=
  let free := x.source == 2 || (x.source == 0 && decide (storePages s * pageBytes < x.start + n))
  if free then (drawn s, Config.freeNat s.free % 2 ^ scanWidth alg)
  else
    let bs :=
      match x.source with
      | 0 => plainBytes s x.start n
      | 1 => (x.target.map fun k => keyBytes s k x.start n).getD []
      | _ => norBytes s x.start n
    (s, checkValue alg x.seed bs)

/-- Does best-effort work stand still: AT_RISK, or HOLD (R395)? -/
def chkPaused (s : Dev) : Bool := bitOf s F.HDL_STATUS_AT_RISK || s.sys.mode == .hold

/-- CHK_RUN with the job named in HANDLE (R393); `b`: the arguments from byte 16. -/
def chkRun (h : CmdHdr) (handle : Word) (b : List Byte) (s : Dev) : Dev × Reply :=
  let src := at_ b 0 1
  let flags := at_ b 1 1
  let target : Word := BitVec.ofNat 32 (at_ b 4 4)
  let start := at_ b 8 8
  let len := at_ b 16 8
  let seed := if bit flags 0 then some (at_ b 24 8) else none
  if hKind handle ≠ 0xC ∨ (objOf s handle).isNone then (s, fails handle rcBadHandle)
  else
    match tget s.chk.jobs (hIndex handle) with
    | none => (s, fails handle rcBadHandle)
    | some j =>
      let key := if target = 0 then okey 0xC (hIndex handle) else hKey target
      if 3 < src ∨ 1 < flags ∨ at_ b 2 2 ≠ 0 then (s, fails handle rcOutOfRange)
      else if src = 1 ∧ ((target ≠ 0 ∧ (objOf s target).isNone) ∨ ptesOf s key = []) then (s, fails handle rcBadHandle)
      else if scanSize s src < start + len then (s, fails handle rcOutOfRange)
      else if len = 0 then
        let v := match seed with
          | some v => v % 2 ^ scanWidth j.alg
          | none => checkValue j.alg none []
        let s := { s with chk.shows := tput s.chk.shows (hIndex handle) { source := src, pos := 0, result := v } }
        (bump R.CHK_SCANS s, done handle (leBytes 8 v ++ leBytes 8 0))
      else
        let x : Scan := { h := h, handle := handle, source := src, target := if src = 1 then some key else none, start := start, len := len,
                          seed := seed, began := s.raw }
        let old := (tget s.chk.shows (hIndex handle)).getD {}
        ({ s with
           chk.jobs := tput s.chk.jobs (hIndex handle) { j with scan := some x }
           chk.shows := tput s.chk.shows (hIndex handle) { old with source := src, pos := 0 } }, .later)

/-- How far a scan has come: a free value within its length, the spec giving only the highest rate. -/
def scanDone (s : Dev) (x : Scan) : Nat := min x.len (Config.scanPos (s.raw - x.began))

/-- A scan ends: its command completes, and the counters follow. -/
def chkEnd (n code : Nat) (pos : Nat) (result : Option Nat) (data : List Byte) (s : Dev) : Dev :=
  match tget s.chk.jobs n with
  | none => s
  | some j =>
    match j.scan with
    | none => s
    | some x =>
      let old := (tget s.chk.shows n).getD {}
      let s := { s with
        chk.jobs := tput s.chk.jobs n { j with scan := none }
        chk.shows := tput s.chk.shows n { old with pos := pos, result := result.getD old.result } }
      complete x.h 0x800 code x.handle data (bump (if code = rcDone then R.CHK_SCANS else R.CHK_ABORTS) s)

/-- The scan of a channel ends before its end: DATA bytes 24–31 carry the bytes scanned. -/
def chkCut (n code : Nat) (s : Dev) : Dev :=
  match (tget s.chk.jobs n).bind (·.scan) with
  | some x => chkEnd n code (scanDone s x) none (leBytes 8 0 ++ leBytes 8 (scanDone s x)) s
  | none => s

/-- An object goes: the scan of a job that is destroyed is aborted, and scans of its pages end (R396). -/
def chkGone (k : Nat) (s : Dev) : Dev :=
  let s := if k / 2 ^ 20 = 0xC then chkCut (k % 2 ^ 20) rcAborted s else s
  (s.chk.jobs.filter fun e => e.2.scan.any fun x => x.target == some k).foldl (fun s e => chkCut e.1 rcBadHandle s) s

/-- Is a NOR program in progress, for which a scan of the NOR waits? -/
def norPrograms (s : Dev) : Bool :=
  match s.upd.jobs with
  | j :: _ =>
    j.began.isSome &&
      (match j.steps with
       | .program _ _ :: _ => true
       | _ => false)
  | [] => false

/-- A scan has read its range: at most 1 GB/s. `bad` is the offset of a word found uncorrectable. -/
def scanEnd (n : Nat) (bad : Option Nat) (s : Dev) : Dev :=
  match tget s.chk.jobs n with
  | none => s
  | some j =>
    match j.scan with
    | none => s
    | some x =>
      let stop := match bad.filter (fun i => decide (i < x.len)), scanPoison s x with
        | some a, some b => some (min a b)
        | some a, none => some a
        | none, p => p
      if chkPaused s || (x.source == 3 && norPrograms s) then s
      else
        match stop with
        | none =>
          if s.raw < x.began + ns x.len then s
          else
            let (s, v) := scanValue s j.alg x x.len
            chkEnd n rcDone x.len (some v) (leBytes 8 v ++ leBytes 8 x.len) s
        | some i =>
          let (s, v) := scanValue s j.alg x i
          let fresh := (scanWord s x i).filter fun w => !s.pln.poisoned.contains w
          let s := match fresh with
            | some w => plnUncorr w s
            | none => if x.source = 2 then spmUncorr ((x.start + i) / 8) s else s
          chkEnd n rcMediaError i none (leBytes 8 v ++ leBytes 8 i) s

/-- CHK's registers that show live state. -/
def chkView (s : Dev) (off : Nat) : Option Word :=
  let n := (off - 0xB0000) / 0x20
  let at' := (off - 0xB0000) % 0x20
  if off < 0xB0000 ∨ 8 ≤ n ∨ 0x14 ≤ at' then none
  else
    let j := tget s.chk.jobs n
    let x := j.bind (·.scan)
    let sh := (tget s.chk.shows n).getD {}
    let pos := match x with
      | some x => scanDone s x
      | none => sh.pos
    let b (v : Bool) : Nat := if v then 1 else 0
    let w (v : Nat) : Option Word := some (BitVec.ofNat 32 v)
    if at' = 0 then
      w (b j.isSome + 2 * b x.isSome + 4 * b (x.isSome && chkPaused s) + 8 * ((j.map (·.alg)).getD 0) + 64 * sh.source)
    else if at' = 4 then w pos
    else if at' = 8 then w (pos / 2 ^ 32)
    else if at' = 0xC then w sh.result
    else w (sh.result / 2 ^ 32)

end Sys2Proof.Machine
end

