-- ==== Sys2Proof/Machine/Gov.lean ====
section
/-! DEFINITION. The capacity governor (chapter 3, R72-R74; R401) and the test access port (chapter 17, R422). -/

namespace Sys2Proof.Machine

/-- VCORE as the governor knows it: the last value acknowledged, at first the regulator's start-up value in 720–850 mV. -/
def vcore (s : Dev) : Nat :=
  let v := fld s F.HDL_VCORE_SET_MV
  if v = 0 then 720 + Config.startVcore % 131 else v

/-- A governor item (R74): step concerned, VCORE and S; codes 1, 3, 5 and 7 also send vector 1. -/
def postGov (typ code step : Nat) (s : Dev) : Dev :=
  let s := post 0x06 typ (code * 2 ^ 40 + step % 256 * 2 ^ 32 + vcore s % 65536 * 2 ^ 16 + fld s F.HDL_SPEED_INDEX) [] s
  if code % 2 = 1 ∧ bitOf s F.HDL_IRQ_GOV_EN then emit (.msix 1) s else s

/-- The next VCORE that steps 2–4 ask for. -/
def vcoreWant (s : Dev) (x : Nat) : Nat :=
  let v := vcore s
  let goal := fld s F.HDL_GOV_TARGET_TARGET
  if x < 0x10A then max v (min 850 (v + 20))
  else if x < goal then max v (min 850 (v + 5))
  else if goal + 5 < x then min v (max 650 (v - 5))
  else v

/-- Steps 2–4: at most one write per reading, none while one waits for its acknowledgement; the limits are shown. -/
def govSupply (x : Nat) (s : Dev) : Dev :=
  let goal := fld s F.HDL_GOV_TARGET_TARGET
  let hi := decide (850 ≤ vcore s ∧ x < goal)
  let lo := decide (vcore s ≤ 650 ∧ goal + 5 < x)
  let was := bitOf s F.HDL_STATUS_VLIMIT_HI
  let s := setBit F.HDL_STATUS_VLIMIT_HI hi (setBit F.HDL_STATUS_VLIMIT_LO lo s)
  let s := if hi && !was then postGov 2 0x05 0xFF s else s
  let want := vcoreWant s x
  if s.hdl.avsWrite.isSome || want == vcore s then s else emit (.avs want) { s with hdl.avsWrite := some want }

/-- Hold or release every channel of a hold step: level k ÷ 2, site class first. -/
def holdStep (k : Nat) (held : Bool) (s : Dev) : Dev :=
  let cls := if k % 2 = 0 then 1 else 0
  let f := if cls = 1 then F.HDL_HELD_SITE else F.HDL_HELD_SHOW
  let b := fld s f % 65536
  let s := setFld f (if held then b ||| 2 ^ (k / 2) else b - (if bit b (k / 2) then 2 ^ (k / 2) else 0)) s
  (s.hdl.objs.filter fun e => decide (e.1 / 2 ^ 20 ≤ 9) && e.2.cls == cls && e.2.prio == k / 2).foldl (fun s e => holdObj e.1 held s) s

/-- Steps 5 and 8: AT_RISK. -/
def govRisk (x : Nat) (s : Dev) : Dev :=
  let s := { s with hdl.okRisk := if 0x10D ≤ x then s.hdl.okRisk + 1 else 0 }
  if !bitOf s F.HDL_STATUS_AT_RISK then
    if x < 0x10A then postGov 1 0x01 0xFF (bump R.HDL_AT_RISK_COUNT (setBit F.HDL_STATUS_AT_RISK true s)) else s
  else if 10 ≤ s.hdl.okRisk then postGov 1 0x02 0xFF (setBit F.HDL_STATUS_AT_RISK false s)
  else s

/-- Step 6: the next step of the hold order. -/
def govHold (s : Dev) : Dev :=
  let k := s.hdl.heldSteps.length
  if 32 ≤ k then s
  else
    let s := holdStep k true { s with hdl.heldSteps := k :: s.hdl.heldSteps }
    let s := setBit F.HDL_STATUS_BROKEN true s
    let s := if k = 0 then
        postGov 2 0x03 k (lifeUp 4 (bump R.HDL_BROKEN_COUNT (setBit F.SYS_FAULT_GUARANTEE true s)))
      else s
    postGov 1 0x06 k s

/-- Step 7: the step held last is released after 10 good readings in a row. -/
def govRelease (s : Dev) : Dev :=
  match s.hdl.heldSteps with
  | [] => s
  | k :: r =>
    if s.hdl.okRelease < 10 then s
    else
      let s := holdStep k false { s with hdl.heldSteps := r, hdl.okRelease := 0 }
      let s := postGov 1 0x06 (128 + k) s
      if r = [] then postGov 1 0x04 0xFF (setBit F.HDL_STATUS_BROKEN false s) else s

/-- GOVERNOR_READING (R72): the 64 monitors; the lowest, and the lowest-numbered of those, gives S. The governor acts from CONFIGURE on. -/
def govReading (monitors : List Nat) (s : Dev) : Dev :=
  let l := (List.range monitors.length).zip monitors
  let m := l.foldl (fun (b : Nat × Nat) e => if e.2 < b.2 then e else b) (l.headD (0, 0))
  let x := m.2 % 65536
  let s := setFld F.HDL_SPEED_INDEX x (setFld F.HDL_SPEED_MIN_MON m.1 s)
  let s := govRisk x (govSupply x s)
  let s := { s with hdl.okRelease := if x < 0x100 ∨ s.hdl.heldSteps = [] then 0 else s.hdl.okRelease + 1 }
  if x < 0x100 then govHold s else govRelease s

/-- GOVERNOR_READING (R72): a reading brings all 64 monitors. -/
def runGovernorReading (t : Time) (monitors : List Nat) (s : Dev) : Host.Outcome Dev Fault Refusal :=
  let s := upTo t s
  .next (if timeRuns s && monitors.length == 64 then govReading monitors s else s)

/-- An AVSBus transaction ends (R73, R401): a write takes force when acknowledged; three failures in a row are an AVS_FAIL. -/
def avsDone (acked : Bool) (mv : Nat) (s : Dev) : Dev :=
  let w := s.hdl.avsWrite
  let s := { s with hdl.avsWrite := none }
  if acked then
    let s := match w with
      | some v => setFld F.HDL_VCORE_SET_MV v s
      | none => s
    setFld F.HDL_VCORE_READ_MV mv { s with hdl.avsFails := 0 }
  else
    let n := s.hdl.avsFails + 1
    let s := bump R.SUP_AVS_ERRORS { s with hdl.avsFails := n }
    if n = 3 then postGov 2 0x07 0xFF (setBit F.HDL_STATUS_AVS_FAIL true s) else s

/-- AVSBUS_TRANSACTION_DONE (R73). -/
def runAvsbusTransactionDone (t : Time) (acked : Bool) (mv : Nat) (s : Dev) : Host.Outcome Dev Fault Refusal :=
  let s := upTo t s
  .next (if timeRuns s then avsDone acked mv s else s)

/-! The test access port -/

/-- The pins are the port's: in RESET, held there by RST_N or by TEST_EN latched high. -/
def tapTakes (s : Dev) : Bool := s.sys.mode == .reset && (s.sys.rstLow || s.sys.testEn)

/-- Bits of a number, least significant first. -/
def bitsOf (n v : Nat) : List Bool := (List.range n).map (bit v)

/-- What the boundary cells sample: the levels of the pins, free values (log 8). -/
def sampled (n : Nat) (s : Dev) : Dev × List Bool := (drawn s, (List.range n).map fun i => Config.sampleBit i s.free)

/-- The bypass register: one bit, captured 0. -/
def tapBypass (s : Dev) : Dev := emit (.tdo [false]) { s with jtag.ir := 0xFF }

/-- The boundary register is shifted: it captures the pins and takes new values. -/
def tapScan (ir : Nat) (cells : List Bool) (s : Dev) : Dev :=
  let (s, b) := sampled cells.length s
  emit (.tdo b) { s with jtag.ir := ir, jtag.cells := cells }

/-- EXTEST (R422): the cells drive the pins. -/
def runExtest (t : Time) (cells : List Bool) (s : Dev) : Host.Outcome Dev Fault Refusal :=
  let s := upTo t s
  .next (if tapTakes s then emit (.cells (some cells)) (tapScan 0 cells s) else tapBypass s)

/-- IDCODE (R422). -/
def runIdcode (t : Time) (s : Dev) : Host.Outcome Dev Fault Refusal :=
  .next (emit (.tdo (bitsOf 32 0xB9400C5B)) { upTo t s with jtag.ir := 1 })

/-- SAMPLE/PRELOAD (R422). -/
def runSamplePreload (t : Time) (cells : List Bool) (s : Dev) : Host.Outcome Dev Fault Refusal :=
  .next (tapScan 2 cells (upTo t s))

/-- HIGHZ (R422): every covered pin floats. -/
def runHighz (t : Time) (s : Dev) : Host.Outcome Dev Fault Refusal :=
  let s := upTo t s
  .next (if tapTakes s then emit (.tdo [false]) (emit (.cells none) { s with jtag.ir := 4 }) else tapBypass s)

/-- CLAMP (R422): the pins hold what the cells were loaded with. -/
def runClamp (t : Time) (s : Dev) : Host.Outcome Dev Fault Refusal :=
  let s := upTo t s
  .next (if tapTakes s then emit (.tdo [false]) (emit (.cells (some s.jtag.cells)) { s with jtag.ir := 5 }) else tapBypass s)

/-- The 192 bits of FUSE_READ. -/
def fuseBits (f : Fuses) : List Bool :=
  bitsOf 64 (fuseUid f) ++ f.lot.flatMap (fun c => bitsOf 8 (lotChar c)) ++ bitsOf 8 f.step ++ bitsOf 5 f.wafer ++ bitsOf 3 0 ++
    bitsOf 8 (lowBits 8 f.dieX) ++ bitsOf 8 (lowBits 8 f.dieY) ++ bitsOf 32 f.crc

/-- FUSE_READ (R422). -/
def runFuseRead (t : Time) (s : Dev) : Host.Outcome Dev Fault Refusal :=
  .next (emit (.tdo (fuseBits s.fuses)) { upTo t s with jtag.ir := 0x30 })

/-- BYPASS (R422), and every unlisted code. -/
def runBypass (t : Time) (s : Dev) : Host.Outcome Dev Fault Refusal := .next (tapBypass (upTo t s))

end Sys2Proof.Machine
end

