-- ==== Sys2Proof/Machine/Modes.lean ====
section
/-! DEFINITION. The moves between the operating modes from CONFIGURE on (chapter 2, R37-R41): the interlock's driver, STANDBY,
ACTIVE, HOLD and SERVICE. -/

namespace Sys2Proof.Machine

/-- The interlock is released (R338). -/
def ilkRelease (s : Dev) : Dev := if s.red.ilk then emit (.ilk false) { s with red.ilk := false } else s

/-- The interlock is driven low and held. -/
def ilkHold (s : Dev) : Dev := emit (.ilk true) { s with red.ilk := true }

/-- Every output stops at once (R24). -/
def silence (s : Dev) : Dev := linesOff (pixelsOff (outputsOff s))

/-- The device enters a mode, and its neighbours are told by HELLO (R310). -/
def toMode (m : Mode) (s : Dev) : Dev := examineAll (helloAll (enterMode m s))

/-- A checkpoint that is being sent is given up: its pages are dirty again (R347). -/
def ckptAbandon (s : Dev) : Dev :=
  match s.red.out with
  | some o =>
    { s with
      red.out := none
      pln.ptes := o.pages.foldl (fun t k => tmod t k fun p => { p with d := true }) s.pln.ptes }
  | none => s

/-- Event flags, ready lists and group waits of the tasks of some executors are cleared; items stay. -/
def clearTasks (p : Nat → Bool) (s : Dev) : Dev :=
  let rest (t : Task) : Task := { t with flags := t.flags % 2, queued := false, groupWait := false }
  { s with
    sch.tasks := s.sch.tasks.map fun e => if p e.2.exec then (e.1, rest e.2) else e
    sch.ready := s.sch.ready.filter fun e => !p (e.1 / 16) }

/-- The passes in progress end without publishing. -/
def dropPasses (s : Dev) : Dev := 
  let still (c : Canvas) : Canvas := { c with pass := none }
  { s with vid.canvases := s.vid.canvases.map fun e => (e.1, still e.2) }

/-- The pins of PIN actions stand at their idle levels (R284). -/
def pinsIdle (s : Dev) : Dev :=
  (s.tim.actions.filter fun e => e.2.target == 0 && e.2.device.isNone && e.2.pulse.isSome).foldl
    (fun s e => drivePin e.2.pin e.2.invert s) s

/-! STANDBY and ACTIVE -/

/-- STANDBY (R37, R345): outputs off, engines halted; scheduler state and items do not survive it; what the unit knew of checkpoints
belongs to the stay before. -/
def enterStandby (s : Dev) : Dev :=
  let s := pinsIdle (dropPasses (abortMigs (fun _ => true) (ckptAbandon (silence (ilkRelease s)))))
  let s := clearTasks (fun e => e != 0x21) s
  let bare (t : Task) : Task := { t with inbox := [], flags := 0 }
  let idle (g : Group) : Group := { g with busy := false }
  let tasks : Tbl Task := s.sch.tasks.map fun e => if e.2.exec = 0x21 then e else (e.1, bare e.2)
  let groups : Tbl Group := s.sch.groups.map fun e => (e.1, idle e.2)
  let s := { s with sch.waits := [], sch.tasks := tasks, sch.groups := groups, sys.lit := false }
  let red : Red := { s.red with
    offered := false, cpBad := false, capShort := false, refused := false, applied := none, stage := none, handover := none,
    saidBlocked := false, saidStuck := false, saidSevered := false, saidUnreachable := false, claim := none, asked := none,
    answer := none, healthAt := s.raw }
  startConversion (toMode .standby { s with red := red })

/-- First light (R32 step 17): the first T_N of a canvas with T_N − LEAD × Tf at or after now, as the wait from now. -/
def lightWait (s : Dev) (c : Canvas) : Int :=
  let now := canvasTime s c
  let g := c.timing
  let n := g.from (c.phiAt (phiOf s c) c.nextN) (now + g.frames g.lead)
  tickAt s c n - now

/-- The wait until the first canvas shows its first light; none without a canvas. -/
def firstLight (s : Dev) : Option Int :=
  s.vid.canvases.foldl (fun (b : Option Int) e =>
    match b with
    | some w => some (min w (lightWait s e.2))
    | none => some (lightWait s e.2)) none

/-- Is a kind paced by a canvas (R79); universes and fixtures of the site class are not? -/
def canvasPaced (k : Nat) (o : HObj) : Bool :=
  match k / 2 ^ 20 with
  | 5 => true
  | 6 => true
  | 7 => true
  | 1 => o.cls == 0
  | 2 => o.cls == 0
  | _ => false

/-- The channels of the image that are not marked "not started" start (R51): those paced by a canvas at the first frame latched from
now on, the others at first light. -/
def startImage (s : Dev) : Dev :=
  let light := (domTime s 0 + (firstLight s).getD 0).toNat
  (s.hdl.objs.filter fun e => e.2.auto).foldl (fun s e =>
    modObj e.1 (fun o => { o with auto := false }) (startObj e.1 (if canvasPaced e.1 e.2 then 0 else light) s)) s

/-- ACTIVE, from CONFIGURE or by a takeover or a handover. -/
def goActive (s : Dev) : Dev :=
  let s := toMode .active { s with sys.tActive := s.raw, red.claim := none, red.full := true }
  linesActive (startConversion (startImage s))

/-! HOLD (R40, R41) -/

/-- A universe whose frame has been latched and not been computed sends its last payload for it. -/
def repeatLatched (s : Dev) : Dev :=
  (s.outp.univs.filter fun e => e.2.canvas.isSome && e.2.payFrame.isSome && e.2.payFrame != some e.2.frame).foldl (fun s e =>
    if isRunning s (okey 2 e.1) then sendLocal e.1 e.2.frame false e.2.payload s else s) s

/-- HOLD is entered: from ACTIVE, the frames latched already carry the last completed one. -/
def enterHold (s : Dev) : Dev :=
  let was := s.sys.mode
  let s := abortMigs (fun _ => true) (ckptAbandon s)
  let s := if was = .active then clearTasks (fun e => e != 0x21 && e != 0x26) (dropPasses (repeatLatched s)) else s
  toMode .hold (lifeUp 2 (setBit F.SYS_FAULT_HOLD true (bump R.SYS_HOLD_ENTRIES { s with sys.heldFrom := was, pln.holdFrom := s.raw })))

/-- A ramp whose start moves. -/
def Ramp.move (f : Time → Time) (r : Ramp) : Ramp := { r with at_ := f r.at_ }

/-- A zone with its instants moved and the number of its next CYCLE instant. -/
def Zone.move (f : Time → Time) (next : Int) (x : Zone) : Zone :=
  { x with holdEnd := x.holdEnd.map f, vacantFrom := x.vacantFrom.map f, p := x.p.move f, d := x.d.move f,
           luxAt := x.luxAt.map f, back := x.back.map (fun b => (b.1, f b.2.1, b.2.2)), nextCycle := next }

/-- A sensor with its instants moved. -/
def Sensor.move (f : Time → Time) (x : Sensor) : Sensor :=
  { x with heard := x.heard.map f, born := f x.born, creditAt := f x.creditAt, pollAt := f x.pollAt }

/-- Every timer that HOLD stops runs on from where it stood (R40, R41, R93, R134, R164). -/
def resumeTimers (s : Dev) : Dev :=
  let d := s.raw - s.pln.holdFrom
  let stream (x : Stream) : Stream := { x with heard := x.heard + d }
  { s with
    pln.scrubHold := s.pln.scrubHold + d
    outp.inputs := s.outp.inputs.map fun e => (e.1, if e.2.frozen.isNone then e.2.shift d else e.2)
    vid.streams := s.vid.streams.map fun e => (e.1, stream e.2)
    site.sensors := s.site.sensors.map fun e => (e.1, e.2.move (· + d))
    site.zones := s.site.zones.map fun e => (e.1, e.2.move (· + d) (cycleAfter s e.2.cycleMs)) }

/-- HOLD ends: to the mode held from; an active unit whose interlock was lost goes to STANDBY. -/
def leaveHold (s : Dev) : Dev :=
  let s := resumeTimers s
  if s.sys.heldFrom = .active then
    if s.red.paired && !s.red.ilk then enterStandby s else startDue (norBegin (toMode .active { s with sys.tActive := s.raw }))
  else norBegin (toMode .standby s)

/-! SERVICE (R39) -/

/-- Every admission in progress is refused, its command with it. -/
def dropAdmissions (s : Dev) : Dev :=
  s.val.admissions.foldl (fun s e => refuseAdmission e.1 e.2 ⟨rcAborted, []⟩ s) s

/-- A migration whose copy is being made is refused. -/
def dropWaits (s : Dev) : Dev :=
  (s.val.migs.filter fun e => e.2.waits.isSome).foldl (fun s e => refuseMig e.1 e.2 ⟨rcAborted, []⟩ s) s

/-- Every object goes, and with it its pages, its charge and its index, at once. -/
def destroyAll (s : Dev) : Dev :=
  let s := s.hdl.objs.foldl (fun s e => destroyObj e.1 (chkGone e.1 s)) s
  s.hdl.dying.foldl (fun s d => releaseObj d s) s

/-- A handover that a command of this unit asked for ends with a code. -/
def endHandover (code : Nat) (s : Dev) : Dev :=
  match s.red.handover with
  | some x =>
    let s := { s with red.handover := none }
    match x.asked with
    | some h => complete h 0x600 code 0 [] s
    | none => s
  | none => s

/-- SERVICE is entered: every channel and handle is destroyed, nothing is driven; checkpoints are discarded. What this device holds for
others is given back with its outputs. -/
def enterService (s : Dev) : Dev :=
  let s := ilkRelease (endHandover rcAborted (dropWaits (dropAdmissions (ckptAbandon s))))
  let s := destroyAll (abortMigs (fun _ => true) s)
  let s := freePages ckptKey (dropPasses (silence s))
  let red : Red := { s.red with stage := none, applied := none, out := none, claim := none, offered := false }
  toMode .service { s with sch := {}, red := red, sys.lit := false }

end Sys2Proof.Machine
end

