-- ==== Sys2Proof/Machine/Sup.lean ====
section
/-! DEFINITION. The supply guard, the rail and temperature readings, recalibration and the built-in tests (chapter 16, R389, R390,
R397-R400). -/

namespace Sys2Proof.Machine

/-- SUP posts with source code 0x03 (R402). -/
def postSup (code value : Nat) (s : Dev) : Dev := postCode 0x03 0xA code value s

/-- VMON is compared from DAYBREAK onward. -/
def guarded (s : Dev) : Bool := s.sys.mode != .reset

/-- A threshold in mV, and whether VMON at `mv` lies below it, or at or above it by 2 %. -/
def below (thr mv : Nat) : Bool := decide (mv < thr)
def clearOf (thr mv : Nat) : Bool := decide (51 * thr ≤ 50 * mv)

/-- VMON has fallen below VMON_STOP (R397): NOR writes stop. -/
def vlowStop (mv : Nat) (s : Dev) : Dev :=
  if bitOf s F.SYS_STATUS_VLOW_STOP || !below (fld s F.SUP_VMON_STOP_MV) mv then s
  else
    norSuspend <| postSup 0x01 mv <| bump R.SUP_STOP_EVENTS <| setBit F.SUP_STATUS_STOP true <| setBit F.SYS_STATUS_VLOW_STOP true s

/-- VLOW_STOP (R397). -/
def runVlowStop (t : Time) (mv : Nat) (s : Dev) : Host.Outcome Dev Fault Refusal :=
  let s := upTo t s
  .next (if guarded s then vlowStop mv s else s)

/-- VMON is back above VMON_STOP by 2 %: what waits for the NOR goes on. -/
def vlowStopClear (mv : Nat) (s : Dev) : Dev :=
  if bitOf s F.SYS_STATUS_VLOW_STOP && clearOf (fld s F.SUP_VMON_STOP_MV) mv then
    norBegin (postSup 0x02 mv (setBit F.SUP_STATUS_STOP false (setBit F.SYS_STATUS_VLOW_STOP false s)))
  else s

/-- VLOW_STOP_CLEAR (R397). -/
def runVlowStopClear (t : Time) (mv : Nat) (s : Dev) : Host.Outcome Dev Fault Refusal :=
  let s := upTo t s
  .next (if guarded s then vlowStopClear mv s else s)

/-- VMON has fallen below VMON_HOLD: where both thresholds were crossed, the stop comes first (R40). -/
def vlowHold (mv : Nat) (s : Dev) : Dev :=
  if bitOf s F.SYS_STATUS_VLOW_HOLD || !below (fld s F.SUP_VMON_HOLD_MV) mv then s
  else
    let s := vlowStop mv s
    let s := postSup 0x03 mv <| bump R.SUP_HOLD_EVENTS <| setBit F.SUP_STATUS_HOLD true <| setBit F.SYS_STATUS_VLOW_HOLD true s
    if s.sys.mode = .active ∨ s.sys.mode = .standby then enterHold s else s

/-- VLOW_HOLD (R40). -/
def runVlowHold (t : Time) (mv : Nat) (s : Dev) : Host.Outcome Dev Fault Refusal :=
  let s := upTo t s
  .next (if guarded s then vlowHold mv s else s)

/-- VMON is back above VMON_HOLD by 2 %: HOLD ends (R41). -/
def vlowHoldClear (mv : Nat) (s : Dev) : Dev :=
  if bitOf s F.SYS_STATUS_VLOW_HOLD && clearOf (fld s F.SUP_VMON_HOLD_MV) mv then
    let s := postSup 0x04 mv (setBit F.SUP_STATUS_HOLD false (setBit F.SYS_STATUS_VLOW_HOLD false s))
    if s.sys.mode = .hold then leaveHold s else s
  else s

/-- VLOW_HOLD_CLEAR (R41). -/
def runVlowHoldClear (t : Time) (mv : Nat) (s : Dev) : Host.Outcome Dev Fault Refusal :=
  let s := upTo t s
  .next (if guarded s then vlowHoldClear mv s else s)

/-- A write of a threshold that breaks R397's ranges is ignored; the fields are writable in CONFIGURE alone. -/
def writeVmon (off : Nat) (v : Word) (s : Dev) : Dev :=
  let n := v.toNat % 1024
  let stop := if off = R.SUP_VMON_STOP then n else fld s F.SUP_VMON_STOP_MV
  let hold := if off = R.SUP_VMON_HOLD then n else fld s F.SUP_VMON_HOLD_MV
  if 500 ≤ stop ∧ stop ≤ 950 ∧ 400 ≤ hold ∧ hold ≤ 930 ∧ hold + 20 ≤ stop then storeReg off v s else s

/-- A write of SUP.TEMP_WARN out of range is ignored (R400). -/
def writeTempWarn (v : Word) (s : Dev) : Dev :=
  if 60 ≤ v.toNat % 256 ∧ v.toNat % 256 ≤ 120 then storeReg R.SUP_TEMP_WARN v s else s

/-- RAIL_READ (R399): the nine rails, mV. -/
def runRailRead (t : Time) (mvs : List Nat) (s : Dev) : Host.Outcome Dev Fault Refusal :=
  let s := upTo t s
  .next (if guarded s && mvs.length == 9 then
      (List.range 9).foldl (fun s r =>
        let v := min (mvs.getD r 0) 65535
        setFld (F.SUP_RAIL_MV r) v (setFld (F.SUP_RAIL_MIN_MV r) (min v (fld s (F.SUP_RAIL_MIN_MV r))) s)) s
    else s)

/-- A temperature reading in units of 0.125 °C (R400); at 125 °C the thermal trip holds the device in RESET until below 115 °C (R25). -/
def tempReading (x : Int) (s : Dev) : Dev :=
  if 1000 ≤ x then (if s.sys.tripped then s else resetBy 16 { s with sys.tripped := true })
  else if s.sys.mode = .reset then (if x < 920 then { s with sys.tripped := false } else s)
  else
    let warn := 8 * (fld s F.SUP_TEMP_WARN_C : Int)
    let top := max x (sgn 16 (fld s F.SUP_TEMP_MAX))
    let s := setFld F.SUP_TEMP_NOW (unsgn 16 x) (setFld F.SUP_TEMP_MAX (unsgn 16 top) s)
    let hot := bitOf s F.SUP_STATUS_TEMP_HIGH
    if !hot && decide (warn ≤ x) then postSup 0x05 (unsgn 32 (x / 8)) (setBit F.SUP_STATUS_TEMP_HIGH true s)
    else if hot && decide (x ≤ warn - 40) then postSup 0x06 (unsgn 32 (x / 8)) (setBit F.SUP_STATUS_TEMP_HIGH false s)
    else s

/-- TEMP_READING (R400). -/
def runTempReading (t : Time) (x : Int) (s : Dev) : Host.Outcome Dev Fault Refusal := .next (tempReading x (upTo t s))

/-! RECALIBRATE and BIST -/

/-- RECALIBRATE (R389): the readings come with the command. The lanes of a termination or PLL instance go down. -/
def recalibrate (item inst : Nat) (rs : List (Nat × Nat × Nat × Nat)) (s : Dev) : Dev × Reply :=
  match calPick item inst with
  | none => (s, fails 0 rcOutOfRange)
  | some l =>
    let s := l.foldl (fun s e =>
      let s := calRepeat rs e s
      let s := ((calPorts e).filter (portOn s)).foldl (fun s n => dropLink n s) s
      ((calLinks e).filter (linkOn s)).foldl (fun s n => linkFail n s) s) s
    let bad := (l.filter fun e => (tget s.cal.insts (calKey e.1 e.2)).any (·.suspect)).length
    (s, done 0 (leBytes 2 l.length ++ leBytes 2 bad))

/-- BIST_DEFECT, where a test found defects. -/
def postBist (test n : Nat) (s : Dev) : Dev :=
  if n = 0 then s else postCode 0x02 0xB 0x03 (test * 2 ^ 24 + n % 2 ^ 24) s

/-- BIST of the scratchpad (R390): the defects, by bank, come with the command; contents survive. -/
def bistSpm (defects : List Nat) (s : Dev) : Dev × Reply :=
  (postBist 0 defects.length { s with red.spmDefect := s.red.spmDefect || defects != [] }, done 0 (leBytes 4 defects.length))

/-- A free page that fails leaves the free list and is retired (R92). -/
def retireFree (ppn : Nat) (s : Dev) : Dev :=
  if segHas s.pln.free ppn then
    freePage { ppn := ppn, p := false, d := false, hw := false, ck := false, rt := true } { s with pln.free := segPick s.pln.free ppn }
  else s

/-- BIST of the Plain's free pages: the failing pages come with the command. -/
def bistPlain (failing : List Nat) (s : Dev) : Dev × Reply :=
  let l := failing.eraseDups.filter fun p => segHas s.pln.free p
  (postBist 1 l.length (l.foldl (fun s p => retireFree p s) s), done 0 (leBytes 4 l.length))

/-- BIST of the pins: ports 0–7 are the pixel ports, 8 and 9 the DMX lines, 10 the timing I/O; a short disables the port concerned. -/
def bistPins (shorts : List (Nat × Nat)) (s : Dev) : Dev × Reply :=
  let l := shorts.eraseDups.filter fun e => decide (e.1 ≤ 10)
  let s := (List.range 8).foldl (fun s n => shortTest n ((l.filter (·.1 == n)).map (·.2)) s) s
  let s := (List.range 2).foldl (fun s n => modLine n (fun x => { x with short := x.short || l.any (·.1 == 8 + n) }) s) s
  (postBist 2 l.length s, done 0 (leBytes 4 l.length))

end Sys2Proof.Machine
end

