-- ==== Sys2Proof/Machine/Red.lean ====
section
/-! DEFINITION. The redundant pair (chapter 14, R335-R353): heartbeats, the interlock, claims and the witness, checkpoints, takeover,
handover, the standby's health. -/

namespace Sys2Proof.Machine

/-- RED posts with source code 0x0E and the partner's address (R358). -/
def postRed (typ code value : Nat) (s : Dev) : Dev :=
  post 0x0E typ (code * 2 ^ 40 + s.red.partner % 256 * 2 ^ 32 + value % 2 ^ 32) [] s

/-! The pacing canvas (R345) -/

/-- The lowest-index canvas in RUNNING. -/
def pacing (s : Dev) : Option (Nat × Canvas) := s.vid.canvases.find? fun e => isRunning s (okey 5 e.1)

/-- The frame latched last: of the pacing canvas, or, without one, counted at 60 Hz in domain A. -/
def lastLatched (s : Dev) : Int :=
  match pacing s with
  | some (_, c) => c.nextN - 1 + c.timing.lead
  | none => domTime s 0 * 60 / unitsPerSec

/-- LEAD of the pacing canvas. -/
def pacingLead (s : Dev) : Int :=
  match pacing s with
  | some (_, c) => c.timing.lead
  | none => 0

/-! Heartbeats (R335-R337) -/

/-- A path of the pair: 1 the valley path, 2 the wire path. -/
def pathAt (s : Dev) (p : Nat) : Path := if p = 1 then s.red.valley else s.red.wire

/-- Replace a path. -/
def setPath (p : Nat) (x : Path) (s : Dev) : Dev := if p = 1 then { s with red.valley := x } else { s with red.wire := x }

/-- Is a path up? Are both lost? -/
def anyPath (s : Dev) : Bool := s.red.valley.up || s.red.wire.up

/-- What the partner's last valid heartbeat says: MODE, ROLE, HOLDS, HEALTH_OK, HANDOVER, CP_MINOR, CP_MAJOR. -/
def hbMode (w : Nat) : Nat := w % 16
def hbRole (w : Nat) : Nat := w / 16 % 2
def hbHolds (w : Nat) : Bool := bit w 5
def hbHealthy (w : Nat) : Bool := bit w 6
def hbHandover (w : Nat) : Bool := bit w 7
def hbMinor (w : Nat) : Nat := w / 256 % 256
def hbMajor (w : Nat) : Nat := w / 65536 % 256
def hbSeq (w : Nat) : Nat := w / 2 ^ 24 % 256

/-- The heartbeat word (R335). -/
def hbWord (s : Dev) : Nat :=
  let b (v : Bool) : Nat := if v then 1 else 0
  let frame := if s.sys.mode = .standby then (s.red.applied.map (·.frame)).getD 0 else lastLatched s
  s.sys.mode.code + 16 * (s.red.role % 2) + 32 * b s.red.ilk + 64 * b (s.red.health % 2 ^ 28 == 0) + 128 * b s.red.handover.isSome +
    256 * fld s F.CTL_FW_PROTO_CP_MINOR + 65536 * fld s F.CTL_FW_PROTO_CP_MAJOR + 2 ^ 24 * (s.red.seq % 256) + 2 ^ 32 * unsgn 32 frame

/-- Do heartbeats run: paired, from CONFIGURE on, the control cores alive? -/
def hbRuns (s : Dev) : Bool := s.red.paired && timeRuns s && !s.red.silent

/-- HEARTBEAT_SEND (R335): every 100 µs on both paths. -/
def runHeartbeatSend (t : Time) (s : Dev) : Host.Outcome Dev Fault Refusal :=
  let s := upTo t s
  .next (if hbRuns s && elapsed s s.red.sentAt (us 100) then
      let s := { s with red.seq := s.red.seq + 1, red.sentAt := some s.raw }
      valSend 4 0 s.red.partner 0 0 0 0 false (.heartbeat (hbWord s) s.red.health) (emit (.heartbeat (hbWord s)) s)
    else s)

/-- PARTNER_UNREACHABLE, once until a path is back. -/
def unreachable (s : Dev) : Dev :=
  if s.red.saidUnreachable then s else postRed 6 0x03 s.red.line { s with red.saidUnreachable := true }

/-- A handover that has not released the line ends where both paths are lost (R352); a command that waits for the partner gets BUSY. -/
def abortHandover (s : Dev) : Dev :=
  match s.red.handover with
  | some x => if x.step < 4 then endHandover rcBusy s else s
  | none => s

/-- A path is lost (R336). -/
def losePath (p : Nat) (s : Dev) : Dev :=
  let s := setPath p { pathAt s p with up := false, run := 0 } s
  let s := postRed 6 0x01 p (bump R.RED_PATH_LOSSES s)
  let s := if p = 1 then ckptAbandon s else s
  if anyPath s then s else unreachable (abortHandover s)

/-- PATH_DEGRADED (R336): 1.0 ms without a valid heartbeat. -/
def runPathDegraded (t : Time) (path : Nat) (s : Dev) : Host.Outcome Dev Fault Refusal :=
  let s := upTo t s
  .next (if hbRuns s && (path == 1 || path == 2) && (pathAt s path).up && decide ((pathAt s path).at_ + ms 1 ≤ s.raw) then
      losePath path s
    else s)

/-- HEARTBEAT_MISS (R336): 100 µs without a valid heartbeat. -/
def runHeartbeatMiss (t : Time) (path : Nat) (s : Dev) : Host.Outcome Dev Fault Refusal :=
  let s := upTo t s
  let x := pathAt s path
  .next (if hbRuns s && (path == 1 || path == 2) && decide (max x.at_ x.missAt + us 100 ≤ s.raw) then
      bump (if path = 1 then R.RED_HB_MISS_V else R.RED_HB_MISS_W) (setPath path { x with missAt := s.raw, run := 0 } s)
    else s)

/-- The old active of a handover has seen its partner ACTIVE: the handover is done (R352 step 5). -/
def handoverSeen (s : Dev) : Dev :=
  match s.red.handover with
  | some x =>
    if x.giving ∧ x.step = 4 ∧ hbMode s.red.word = 4 ∧ hbHolds s.red.word then
      postRed 6 0x0A (unsgn 32 x.nh) (bump R.RED_HANDOVERS { s with red.handover := none })
    else s
  | none => s

/-- Two units in ACTIVE (R341): the secondary gives way; each counts it once. -/
def dualActive (before : Nat) (s : Dev) : Dev :=
  let clash (w : Nat) : Bool := hbMode w == 4 && hbHolds w
  if s.sys.mode = .active && clash s.red.word && (s.red.role == 1 || !clash before) then
    let s := postRed 2 0x09 0 (bump R.RED_DUAL_ACTIVE s)
    if s.red.role = 1 then enterStandby s else s
  else s

/-- A heartbeat from the partner on a path (R336). -/
def hbRx (path word : Nat) (s : Dev) : Dev :=
  let x := pathAt s path
  if x.seq = some (hbSeq word) then s
  else
    let before := s.red.word
    let s := setPath path { x with seq := some (hbSeq word), at_ := s.raw, missAt := s.raw, run := x.run + 1 } { s with red.word := word }
    if !hbRuns s then s
    else
      let s := if hbMode word = 6 ∧ hbMode before ≠ 6 then ckptAbandon s else s
      let s := if hbMode word = 5 ∧ hbMode before ≠ 5 then { s with red.full := true } else s
      let s := if !x.up && decide (10 ≤ x.run + 1) then
          postRed 6 0x02 path (setPath path { pathAt s path with up := true } { s with red.saidUnreachable := false })
        else s
      handoverSeen (dualActive before s)

/-- HEARTBEAT_RX (R336): a word with a right CRC on path 1 (valley) or 2 (wire). In CONFIGURE it is taken before the pair record is, for
the check of R334. -/
def runHeartbeatRx (t : Time) (path : Nat) (word : Nat) (s : Dev) : Host.Outcome Dev Fault Refusal :=
  let s := upTo t s
  .next (if (path == 1 || path == 2) && (hbRuns s || s.sys.mode == .configure) then hbRx path (word % 2 ^ 64) s else s)

/-- LIVENESS_TIMEOUT (R337): the control cores have not refreshed the flag for 1 ms. -/
def runLivenessTimeout (t : Time) (s : Dev) : Host.Outcome Dev Fault Refusal :=
  let s := upTo t s
  .next (if timeRuns s && !s.red.silent then
      let s := ilkRelease { s with red.silent := true }
      if s.sys.mode = .active then enterStandby s
      else if s.sys.mode = .hold then { silence s with sys.heldFrom := .standby }
      else s
    else s)

/-! The interlock line (R338, R339) -/

/-- The holder's sample (R338). -/
def runIlkBreath (t : Time) (low : Bool) (s : Dev) : Host.Outcome Dev Fault Refusal :=
  let s := upTo t s
  .next (if s.red.ilk && !s.red.silent && low then
      let s := bump R.RED_BREATH_LOW s
      if elapsed s s.red.breathAt (sec 1) then
        postRed 2 0x06 (rg s R.RED_BREATH_LOW).toNat { s with red.breathAt := some s.raw }
      else s
    else s)

/-- ILK_LINE_CLASS (R339): what a unit that does not hold the line sees; an item once posted may be posted again after the line has
left the class. -/
def runIlkLineClass (t : Time) (cls : Nat) (s : Dev) : Host.Outcome Dev Fault Refusal :=
  let s := upTo t s
  .next (if timeRuns s && !s.red.ilk && decide (cls ≤ 2) then
      { s with red.line := cls, red.saidStuck := s.red.saidStuck && cls == 2, red.saidSevered := s.red.saidSevered && cls == 0 }
    else s)

/-! Claims (R340-R343) -/

/-- A standby barred from takeover (R348). -/
def blocked (s : Dev) : Bool := s.red.cpBad || s.red.capShort

/-- Members other than the two units. -/
def thirdMembers (s : Dev) : List MemberInfo :=
  (s.val.members.map fun e => e.2.info).filter fun m => m.addr != s.red.partner && m.addr != 0

/-- Is the witness required (R343)? -/
def witnessNeeded (s : Dev) : Bool :=
  if s.red.witness = 1 then true else if s.red.witness = 2 then false else thirdMembers s != []

/-- The witness: the lowest-address member reachable by pass A. -/
def witnessOf (s : Dev) : Option Nat :=
  ((thirdMembers s).filter fun m => (passLink s m.addr false).isSome).foldl (fun (b : Option Nat) m =>
    match b with
    | some a => some (min a m.addr)
    | none => some m.addr) none

/-- What R342 decides: no claim; a claim, with or without an outside word that the partner is gone; a question to the witness. -/
inductive Decision where
  | none
  | stuck
  | held
  | severed
  | claim (unwitnessed : Bool)
  | ask
  deriving DecidableEq, Repr

/-- The rows of R342 below the blocked one. -/
def claimRow (s : Dev) : Decision :=
  if s.red.line = 2 then .stuck
  else if s.red.line ≠ 0 then .held
  else if anyPath s then (if hbHolds s.red.word then .severed else .claim false)
  else if witnessNeeded s then .ask
  else .claim true

/-- ILK_SEVERED, once until the line is no longer FREE. -/
def severed (s : Dev) : Dev :=
  if s.red.saidSevered then s else postRed 2 0x04 0 (setBit F.RED_STATE_SEVERED true { s with red.saidSevered := true })

/-- The items of the rows that do not claim. -/
def claimItems (d : Decision) (s : Dev) : Dev :=
  match d with
  | .stuck => if s.red.saidStuck then s else postRed 2 0x05 0 { s with red.saidStuck := true }
  | .held => if anyPath s then s else unreachable s
  | .severed => severed s
  | .ask => unreachable s
  | _ => s

/-- The claim pulse begins (R340 step 1). -/
def startClaim (unwitnessed : Bool) (s : Dev) : Dev :=
  emit (.ilk true) { s with red.claim := some ⟨1, s.raw, unwitnessed⟩, red.asked := none, red.answer := none }

/-- Ask the witness, or act on its answer. -/
def askWitness (s : Dev) : Dev :=
  match s.red.asked, s.red.answer with
  | some _, some a =>
    let s := { s with red.asked := none, red.answer := none }
    if a = 2 then severed s else startClaim false s
  | some _, none => s
  | none, _ =>
    match witnessOf s with
    | some w => valSend 4 0 w 0 0 0 0 false (.witnessAsk s.red.partner) (bump R.RED_WITNESS_QUERIES { s with red.asked := some s.raw })
    | none => unreachable s

/-- Is this unit the one handing over while the partner's heartbeat shows the handover? -/
def handingOver (s : Dev) : Bool :=
  anyPath s && hbHandover s.red.word && match s.red.handover with
    | some x => x.giving
    | none => false

/-- CLAIM_EVALUATION (R342). -/
def claimEvaluation (s : Dev) : Dev :=
  if blocked s then
    let s := if s.red.saidBlocked then s else postRed 2 0x08 s.red.health { s with red.saidBlocked := true }
    claimItems (claimRow s) s
  else
    match claimRow s with
    | .claim u => startClaim u s
    | .ask => askWitness s
    | d => claimItems d s

/-- CLAIM_EVALUATION (R342): every 100 µs in STANDBY. -/
def runClaimEvaluation (t : Time) (s : Dev) : Host.Outcome Dev Fault Refusal :=
  let s := upTo t s
  .next (if s.red.paired && s.sys.mode == .standby && !s.red.silent && s.red.claim.isNone && !handingOver s then claimEvaluation s else s)

/-- CLAIM_RELEASE (R340 step 2). -/
def runClaimRelease (t : Time) (s : Dev) : Host.Outcome Dev Fault Refusal :=
  let s := upTo t s
  .next (match s.red.claim with
    | some c =>
      if c.step = 1 ∧ c.at_ + us (if s.red.role = 0 then 40 else 20) ≤ s.raw then
        emit (.ilk false) { s with red.claim := some { c with step := 2, at_ := s.raw } }
      else s
    | none => s)

/-! Checkpoints (R345-R348) -/

/-- What a checkpoint carries of the system region. -/
def takeSnapshot (s : Dev) : Snapshot :=
  let bare (t : Task) : Task := { t with inbox := [], flags := 0, queued := false, running := false, groupWait := false, head := 0 }
  let empty (r : Ring) : Ring :=
    { size := r.size, hostWrite := r.hostWrite, hostConsumer := r.hostConsumer, irqVec := r.irqVec, consumer := r.consumer, irqDepth := r.irqDepth }
  { objs := s.hdl.objs.filter fun e => e.1 / 2 ^ 20 != 0xD
    slots := s.hdl.slots, gens := s.hdl.gens, used := s.hdl.used, streams := s.vid.streams, canvases := s.vid.canvases,
    layers := s.vid.layers, idents := s.outp.idents, univs := s.outp.univs, fixtures := s.outp.fixtures, inputs := s.outp.inputs,
    pixels := s.pxp.ports, zones := s.site.zones, sensors := s.site.sensors, actions := s.tim.actions,
    tasks := s.sch.tasks.map fun e => (e.1, bare e.2)
    rings := s.que.rings.map fun e => (e.1, empty e.2)
    jobs := s.chk.jobs.map fun e => (e.1, e.2.alg, e.2.hostWrite, e.2.pages)
    syncSeqs := s.outp.ports.map fun e => (e.1, e.2.syncSeq)
    at_ := domTime s 0, rawAt := s.raw }

/-- The pages a checkpoint carries: those with CK set that are dirty, or all of them (R345, R347). -/
def ckptPages (s : Dev) : List (Nat × Pte) := s.pln.ptes.filter fun e => e.2.ck && (e.2.d || s.red.full)

/-- The bytes of the chunks of pages, in send order. -/
def chunkBytes (s : Dev) (ppn part : Nat) : List Byte := plainBytes s (ppn * pageBytes + part * 4096) 4096

/-- Send one page in its sixteen chunks. -/
def sendPage (num : Nat) (frame : Int) (e : Nat × Pte) (s : Dev) : Dev :=
  (List.range 16).foldl (fun s part =>
    valSend 3 2 s.red.partner 0 (handleOf s (e.1 / 65536)).toNat (unsgn 64 frame) 0 false
      (.chunk num (e.1 % 65536) part (chunkBytes s e.2.ppn part)) s) s

/-- A checkpoint is sent (R345, R346): dirty bits are cleared, then pages, system region and trailer go out. Their pace is left out
(log 28). -/
def sendCkpt (frame : Int) (s : Dev) : Dev :=
  let num := s.red.ckptNum + 1
  let pages := ckptPages s
  let crc := crc32c (pages.flatMap fun e => (List.range 16).flatMap (chunkBytes s e.2.ppn))
  let snap := takeSnapshot s
  let out : CkptOut := { num := num, frame := frame, tick := s.raw, pages := pages.map (·.1), trailer := some s.raw }
  let s := { s with
    red.ckptNum := num
    red.full := false
    red.out := some out
    pln.ptes := pages.foldl (fun t e => tmod t e.1 fun p => { p with d := false }) s.pln.ptes
    pln.sysDirty := [] }
  let s := pages.foldl (fun s e => sendPage num frame e s) s
  let s := valSend 3 2 s.red.partner 0 0 (unsgn 64 frame) 0 false (.system num snap) s
  valSend 3 2 s.red.partner 0 0 (unsgn 64 frame) 0 false (.trailer num pages.length crc) s

/-- May a checkpoint start: ACTIVE, with the partner in STANDBY on a valley path; neither unit in HOLD. -/
def ckptMay (s : Dev) : Bool := hbRuns s && s.sys.mode == .active && s.red.valley.up && hbMode s.red.word == 5

/-- A checkpoint tick for frame `n` (R345): a checkpoint that has not ended stretches. -/
def ckptTick (n : Int) (s : Dev) : Dev :=
  if !ckptMay s then s
  else if s.red.out.isNone then sendCkpt n s
  else
    let s := bump R.RED_CKPT_STRETCHED s
    if elapsed s s.red.stretchedAt (sec 10) then
      postRed 6 0x0B (rg s R.RED_CKPT_AGE).toNat { s with red.stretchedAt := some s.raw }
    else s

/-- CHECKPOINT_TICK (R345): without a running canvas, every K × 16,666.667 µs. -/
def runCheckpointTick (t : Time) (s : Dev) : Host.Outcome Dev Fault Refusal :=
  let s := upTo t s
  .next (if (pacing s).isNone then ckptTick (lastLatched s) s else s)

/-- The partner acknowledges a checkpoint. -/
def ckptAcked (num : Nat) (s : Dev) : Dev :=
  match s.red.out with
  | some o =>
    if o.num = num then
      { s with red.out := none, red.ackNum := num, red.ackFrame := o.frame, red.lastMs := min ((s.raw - o.tick) / ms 1) 65535 }
    else s
  | none => s

/-- A checkpoint was refused, or brought no acknowledgement: its pages are dirty again; a final one is to be sent again. -/
def ckptLost (s : Dev) : Dev :=
  let s := ckptAbandon { s with red.full := s.red.full || s.red.ackNum == 0 }
  match s.red.handover with
  | some x => if x.giving ∧ x.step = 3 then { s with red.handover := some { x with step := 2 } } else s
  | none => s

/-- CHECKPOINT_ACK_TIMEOUT (R347): 10 ms after the trailer. -/
def runCheckpointAckTimeout (t : Time) (s : Dev) : Host.Outcome Dev Fault Refusal :=
  let s := upTo t s
  .next (match s.red.out with
    | some o => if o.trailer.any fun v => decide (v + ms 10 ≤ s.raw) then ckptLost s else s
    | none => s)

/-- Does this unit take checkpoints now? -/
def ckptTakes (s : Dev) : Bool := s.red.paired && s.sys.mode == .standby && !s.red.silent

/-- A chunk is staged (R347); a new number starts a new checkpoint. -/
def stageCkpt (num : Nat) (frame : Int) (f : CkptIn → CkptIn) (s : Dev) : Dev :=
  let c : CkptIn := match s.red.stage with
    | some c => if c.num = num then c else { num := num, frame := frame, chunks := [], snap := none }
    | none => { num := num, frame := frame, chunks := [], snap := none }
  { s with red.stage := some (f c), red.offered := true }

/-- Refuse a checkpoint whole (R347, R348). -/
def refuseCkpt (num : Nat) (s : Dev) : Dev :=
  let s := postRed 2 0x0C num (bump R.RED_CKPT_REFUSED { s with red.stage := none, red.refused := true })
  valSend 3 2 s.red.partner 0 0 0 0 false (.ckptRefuse num) s

/-- RED.HEALTH (R353): the bits that follow from the state of checkpoints, beside those of the last tests. -/
def withHealth (s : Dev) : Dev :=
  let b (v : Bool) (n : Nat) : Nat := if v then 2 ^ n else 0
  { s with red.health := s.red.health % 2 ^ 25 + b s.red.refused 25 + b s.red.cpBad 26 + b s.red.capShort 27 }

/-- Groups as their member tasks make them. -/
def groupsOf (l : Tbl Task) : Tbl Group :=
  (l.filter fun e => e.2.grouped).foldl (fun g e =>
    let x := (tget g e.2.group).getD {}
    tput g e.2.group { x with members := x.members ++ [e.1] }) []

/-- A stream of a checkpoint on this unit: its planes and what has been received are the unit's own. -/
def ownStream (s : Dev) (i : Nat) (x : Stream) : Stream :=
  let bare (y : Stream) : Stream :=
    { y with w := 0, c := 3, l := 3, latchN := none, cLatched := false, joined := false, lost := false, frame := none, lastSeq := none,
             cTime := 0, heard := 0 }
  match tget s.vid.streams i with
  | some y => if bare y = bare x then y else bare x
  | none => bare x

/-- An input universe of a checkpoint on this unit: its merge table is the unit's own. -/
def ownInput (s : Dev) (i : Nat) (x : Input) : Input :=
  let bare (y : Input) : Input :=
    { uni := y.uni, ports := y.ports, merge := y.merge, loss := y.loss, holdMs := y.holdMs, rate := y.rate, join := y.join,
      tagged := y.tagged, vid := y.vid, frozen := some 0 }
  match tget s.outp.inputs i with
  | some y => if bare y = bare x then y else bare x
  | none => bare x

/-- A canvas of a checkpoint on this unit: its ticks are the unit's own. -/
def ownCanvas (s : Dev) (x : Canvas) : Canvas :=
  let y : Canvas := { x with pass := none, aborted := none, pubFrame := none, lastUnderrun := none }
  y.regrid_ (canvasTime s y) (phiOf s y)

/-- The pages that an object of a checkpoint needs on this unit: where they stand already they stay. -/
def pinFor (k : Nat) (s : Dev) : Dev :=
  let runs : List (Nat × Nat × Bool) :=
    match k / 2 ^ 20 with
    | 4 => ((tget s.vid.streams (k % 2 ^ 20)).map fun x => (0, 3 * x.bp, false)).toList
    | 5 => ((canvasAt s (k % 2 ^ 20)).map fun c => [(0, samplePages c.samples, true), (512, samplePages c.samples, true)]).getD []
    | _ => []
  if pinnedOf s k = (runs.map fun r => r.2.1).sum then s
  else runs.foldl (fun s r => mapPages k r.1 true false r.2.2 r.2.1 s) (freePages k s)

/-- An instant of the partner's as this unit's raw counter has it: both count from one instant of domain A. -/
def ownTime (s : Dev) (x : Snapshot) (v : Time) : Time :=
  ((v : Int) - x.rawAt + s.raw - (domTime s 0 - x.at_)).toNat

/-- Streams and input universes that go, or come back with another record, leave their groups. -/
def leaveOther (streams : Tbl Stream) (inputs : Tbl Input) (s : Dev) : Dev :=
  let a : Dev := (s.vid.streams.filter fun e => decide (tget streams e.1 ≠ some e.2)).foldl (fun s e => leaveStream e.1 s) s
  (s.outp.inputs.filter fun e => decide (tget inputs e.1 ≠ some e.2)).foldl (fun s e => joinInput e.1 false s) a

/-- The checkpoint's objects take the place of this unit's (R345, R347): planes, merge tables, ticks and time are its own. -/
def applySnapshot (x : Snapshot) (s : Dev) : Dev :=
  let gone := s.hdl.objs.filter fun e => !thas x.objs e.1
  let streams : Tbl Stream := x.streams.map fun e => (e.1, ownStream s e.1 e.2)
  let inputs : Tbl Input := x.inputs.map fun e => (e.1, ownInput s e.1 e.2)
  let s := gone.foldl (fun s e => freePages e.1 s) (leaveOther streams inputs s)
  let s := chargeAll (x.objs.flatMap fun e => e.2.charges) (creditAll (s.hdl.objs.flatMap fun e => e.2.charges) s)
  let mv := ownTime s x
  let quietPort (n : Nat) (p : PxPort) : PxPort := { p.quiet with disabled := (pxAt s n).disabled, zeroDue := false }
  let canvases : Tbl Canvas := x.canvases.map fun e => (e.1, ownCanvas s e.2)
  let pixels : Tbl PxPort := x.pixels.map fun e => (e.1, quietPort e.1 e.2)
  let zones : Tbl Zone := x.zones.map fun e => (e.1, e.2.move mv (cycleAfter s e.2.cycleMs))
  let sensors : Tbl Sensor := x.sensors.map fun e => (e.1, e.2.move mv)
  let jobs : Tbl ChkJob := x.jobs.map fun e => (e.1, ⟨e.2.1, e.2.2.1, e.2.2.2, none⟩)
  let auto (o : HObj) : HObj := { o with auto := false, startAt := 0, startCmd := s.raw }
  let sync (n : Nat) (p : Port) : Port := { p with syncSeq := (tget x.syncSeqs n).getD p.syncSeq }
  let ports : Tbl Port := s.outp.ports.map fun e => (e.1, sync e.1 e.2)
  let objs : Tbl HObj := x.objs.map fun e => (e.1, auto e.2)
  let mirrors : List (Nat × Nat) := (x.pixels.filter fun e => e.2.map.any (·.mirror)).flatMap fun e => [(2, okey 7 e.1), (3, okey 7 e.1)]
  let adc : Option Nat := (x.actions.find? fun e => e.2.target == 1 && e.2.device.isNone).map (·.1)
  let s := { s with
    hdl.objs := objs
    hdl.slots := x.slots
    hdl.gens := x.gens
    vid.streams := streams
    vid.canvases := canvases
    vid.layers := x.layers
    outp.idents := x.idents
    outp.univs := x.univs
    outp.fixtures := x.fixtures
    outp.inputs := inputs
    outp.ports := ports
    pxp.ports := pixels
    site.zones := zones
    site.sensors := sensors
    tim.actions := x.actions
    tim.mirrors := mirrors
    tim.adcOwner := adc
    sch.tasks := x.tasks
    sch.groups := groupsOf x.tasks
    sch.ready := []
    sch.waits := []
    sch.handed := []
    que.rings := x.rings
    chk.jobs := jobs }
  let s := (inputs.filter fun e => !(s.outp.ports.any fun p => p.2.groups.any fun g => g.2 == okey 3 e.1)).foldl (fun s e =>
    joinInput e.1 true s) s
  startDue (s.hdl.objs.foldl (fun s e => pinFor e.1 s) s)

/-- The pages of a checkpoint replace those in place. -/
def applyChunks (l : List (Nat × Nat × Nat × List Byte)) (s : Dev) : Dev :=
  l.foldl (fun s c => relWrite c.1 (c.2.1 * pageBytes + c.2.2.1 * 4096) c.2.2.2 s) s

/-- The grounds of R348 on which a checkpoint is refused: format, capacity. -/
def ckptGrounds (x : Snapshot) (s : Dev) : Bool × Bool :=
  let w := s.red.word
  let cp := fld s F.CTL_FW_PROTO_CP_MAJOR != hbMajor w || decide (fld s F.CTL_FW_PROTO_CP_MINOR < hbMinor w)
  let used (n : Nat) : Nat := (tget x.used n).getD 0
  (cp, decide (capOf s 0 < used 0 ∨ capOf s 1 < used 1))

/-- The trailer of a checkpoint (R347): count and CRC decide, then the grounds of R348; success applies and acknowledges it. -/
def ckptTrailer (num pages crc : Nat) (s : Dev) : Dev :=
  if !ckptTakes s then s
  else
    let s := { s with red.offered := true }
    match s.red.stage.bind fun c => c.snap.map fun x => (c, x) with
    | none => withHealth (refuseCkpt num s)
    | some (c, x) =>
      let bytes := c.chunks.flatMap fun e => e.2.2.2
      if c.num ≠ num ∨ c.chunks.length ≠ 16 * pages ∨ crc32c bytes ≠ crc then withHealth (refuseCkpt num s)
      else
        let (bad, short) := ckptGrounds x s
        let s := { s with red.cpBad := bad, red.capShort := short }
        if bad || short then withHealth (refuseCkpt num s)
        else
          let s := applyChunks c.chunks (applySnapshot x s)
          let s := bump R.RED_CKPT_DONE
            { s with red.applied := some { c with chunks := [] }, red.stage := none, red.saidBlocked := false }
          valSend 3 2 s.red.partner 0 0 0 0 false (.ckptAck num) (withHealth s)

/-- CHECKPOINT_TRAILER_RX (R347): the 32 bytes of the trailer. -/
def runCheckpointTrailerRx (t : Time) (bytes : List Byte) (s : Dev) : Host.Outcome Dev Fault Refusal :=
  let s := upTo t s
  .next (if bytes.length = 32 then ckptTrailer (at_ bytes 0 8) (at_ bytes 8 4) (at_ bytes 12 4) s else s)

/-! Takeover (R349, R350) -/

/-- Sequence numbers resume K + 21 past the checkpointed ones (R194): the next packet carries that. -/
def resumeSeqs (s : Dev) : Dev :=
  let d := s.red.k + 20
  let univ (u : Univ) : Univ := { u with seq := (u.seq + d) % 256 }
  let port (p : Port) : Port := { p with syncSeq := (p.syncSeq + d) % 256, syncN := none }
  { s with
    outp.univs := s.outp.univs.map fun e => (e.1, univ e.2)
    outp.ports := s.outp.ports.map fun e => (e.1, port e.2) }

/-- Every channel's first frame is the first one latched from now on. -/
def restart (s : Dev) : Dev :=
  let now (o : HObj) : HObj := { o with startCmd := s.raw }
  { s with hdl.objs := s.hdl.objs.map fun e => (e.1, now e.2) }

/-- The claim is won: the unit becomes ACTIVE with the newest applied checkpoint, or from its own image (R349 step 4); a handover is done
with it (R352 step 5). -/
def takeover (unwitnessed : Bool) (s : Dev) : Dev :=
  let s := ilkHold (bump R.RED_CLAIMS_WON s)
  let s := if s.red.applied.isSome then resumeSeqs s else s
  let fromImage := s.red.applied.isNone
  let num := (s.red.applied.map (·.num)).getD 0
  let s := goActive (restart s)
  let s := ((List.range 16).filter (portOn s)).foldl (fun s n => gratuitous n s) s
  let b (v : Bool) (n : Nat) : Nat := if v then n else 0
  let s := postRed 6 0x07 (b unwitnessed 1 + b fromImage 2 + 256 * (num % 2 ^ 24)) (lifeUp 3 (bump R.RED_TAKEOVERS s))
  match s.red.handover with
  | some x =>
    if !x.giving ∧ x.step = 4 then
      postRed 6 0x0A (unsgn 32 x.nh) (bump R.RED_HANDOVERS { s with red.handover := none })
    else { s with red.handover := none }
  | none => s

/-- CLAIM_SAMPLE (R340 steps 3 and 4): won with the line high. A unit that loses sees the line as not FREE until it is classified anew. -/
def runClaimSample (t : Time) (high : Bool) (s : Dev) : Host.Outcome Dev Fault Refusal :=
  let s := upTo t s
  .next (match s.red.claim with
    | some c =>
      if c.step = 2 ∧ c.at_ + us 2 ≤ s.raw then
        let s := { s with red.claim := none, red.line := 1 }
        if high ∧ s.sys.mode = .standby ∧ !s.red.silent then takeover c.unwitnessed s else bump R.RED_CLAIMS_LOST s
      else s
    | none => s)

/-! The witness's service (R343) -/

/-- A request: the partner of the asker is probed. -/
def witnessAskRx (asker partner : Nat) (s : Dev) : Dev :=
  valSend 4 0 partner 0 0 0 0 false (.probe asker)
    (bump R.RED_WITNESS_SERVED { s with red.probes := s.red.probes ++ [(asker, partner, s.raw)] })

/-- A probe is answered with the heartbeat word, unless the unit has fallen silent. -/
def probeRx (src asker : Nat) (s : Dev) : Dev :=
  if hbRuns s then valSend 4 0 src 0 0 0 0 false (.probeAns asker (hbWord s)) s else s

/-- The reply of a probe. -/
def probeAnsRx (src asker word : Nat) (s : Dev) : Dev :=
  match s.red.probes.find? fun p => p.1 == asker && p.2.1 == src with
  | some p =>
    valSend 4 0 asker 0 0 0 0 false (.witnessAns (if hbHolds word then 2 else 1)) { s with red.probes := s.red.probes.filter (· != p) }
  | none => s

/-- The witness's answer. -/
def witnessAnsRx (a : Nat) (s : Dev) : Dev := if s.red.asked.isSome then { s with red.answer := some a } else s

/-- WITNESS_PROBE_TIMEOUT (R343): 300 µs without a reply; SILENT where nothing has come from the partner for 1 ms. -/
def runWitnessProbeTimeout (t : Time) (s : Dev) : Host.Outcome Dev Fault Refusal :=
  let s := upTo t s
  let late := s.red.probes.filter fun p => decide (p.2.2 + us 300 ≤ s.raw)
  let s := { s with red.probes := s.red.probes.filter fun p => !decide (p.2.2 + us 300 ≤ s.raw) }
  .next (late.foldl (fun s p =>
    if elapsed s (tget s.val.heardFrom p.2.1) (ms 1) then valSend 4 0 p.1 0 0 0 0 false (.witnessAns 0) s else s) s)

/-- WITNESS_ANSWER_TIMEOUT (R343): 400 µs without an answer. -/
def runWitnessAnswerTimeout (t : Time) (s : Dev) : Host.Outcome Dev Fault Refusal :=
  let s := upTo t s
  .next (match s.red.asked with
    | some v => if s.red.answer.isNone ∧ v + us 400 ≤ s.raw then unreachable { s with red.asked := none } else s
    | none => s)

/-! Handover (R351, R352) -/

/-- Is the standby of the pair blocked, and healthy, as this unit knows it? -/
def standbyBlocked (s : Dev) : Bool :=
  if s.sys.mode = .standby then blocked s else decide (s.red.partnerHealth / 2 ^ 26 % 4 ≠ 0)
def standbyHealthy (s : Dev) : Bool := if s.sys.mode = .standby then s.red.health % 2 ^ 28 == 0 else hbHealthy s.red.word

/-- The rows of R351's table that turn a START away. -/
def handoverBarred (force : Bool) (s : Dev) : Option Nat :=
  let m := hbMode s.red.word
  if !s.red.paired || !(m == 4 || m == 5) || (m == s.sys.mode.code) then some rcConflict
  else if !standbyHealthy s && !force then some rcConflict
  else if standbyBlocked s then some rcIncompatible
  else if !s.red.valley.up || s.red.handover.isSome then some rcBusy
  else none

/-- The least N_h: M + LEAD + 2, M the frame in progress on the pacing canvas. -/
def leastNh (s : Dev) : Int := lastLatched s + 2

/-- The active unit begins a handover. -/
def giveHandover (nh : Int) (s : Dev) : Dev × Int :=
  let nh := max nh (leastNh s)
  ({ s with red.handover := some { nh := nh, step := 1, asked := none, giving := true } }, nh)

/-- A message of the pair about a handover. -/
def tellHandover (op : Nat) (force : Bool) (nh : Int) (code : Nat) (s : Dev) : Dev :=
  valTell 4 s.red.partner (.handover op force nh code) s

/-- HANDOVER START (R351): `b` is the ARGS area from byte 16. -/
def handoverStart (h : CmdHdr) (b : List Byte) (s : Dev) : Dev × Reply :=
  let force := bit (at_ b 1 1) 0
  let nh : Int := at_ b 8 8
  if decide (at_ b 1 1 ≤ 1) && at_ b 2 6 == 0 then
    match handoverBarred force s with
    | some c => (s, fails 0 c)
    | none =>
      if s.sys.mode = .active then
        let (s, n) := giveHandover nh s
        (tellHandover 0 force n 0 s, done 0 (leBytes 8 (unsgn 64 n)))
      else
        (tellHandover 0 force nh 0 { s with red.handover := some { nh := nh, step := 0, asked := some h, giving := false } }, .later)
  else (s, fails 0 rcOutOfRange)

/-- HANDOVER CANCEL (R351): before step 4. -/
def handoverCancel (s : Dev) : Dev × Reply :=
  match s.red.handover with
  | some x =>
    if 4 ≤ x.step then (s, fails 0 rcLate)
    else (tellHandover 1 false 0 0 (endHandover rcAborted s), done 0 [])
  | none => (s, done 0 [])

/-- What the partner says of a handover. -/
def handoverRx (op : Nat) (force : Bool) (nh : Int) (code : Nat) (s : Dev) : Dev :=
  match op with
  | 0 =>
    if s.sys.mode = .active then
      match handoverBarred force s with
      | some c => tellHandover 2 false 0 c s
      | none =>
        let (s, n) := giveHandover nh s
        tellHandover 2 false n rcDone s
    else if s.sys.mode = .standby ∧ s.red.handover.isNone then
      { s with red.handover := some { nh := nh, step := 1, asked := none, giving := false } }
    else s
  | 1 =>
    match s.red.handover with
    | some x => if x.step < 4 then endHandover rcAborted s else s
    | none => s
  | 2 =>
    match s.red.handover with
    | some x =>
      match x.asked with
      | some h =>
        if code = rcDone then
          complete h 0x600 rcDone 0 (leBytes 8 (unsgn 64 nh)) { s with red.handover := some { x with nh := nh, step := 1, asked := none } }
        else endHandover code s
      | none => s
    | none => s
  | _ =>
    match s.red.handover with
    | some x => if x.giving then s else { s with red.handover := some { x with step := 4 } }
    | none => s

/-- The handover at a tick of the pacing canvas that latches frame `latch` and presents frame `n`: no pass starts from N_h on; with frame
N_h − 1 presented, the final checkpoint goes out (steps 2 and 3). -/
def handoverTick (latch n : Int) (s : Dev) : Dev :=
  match s.red.handover with
  | some x =>
    if !x.giving then s
    else
      let x := if x.step = 1 ∧ x.nh ≤ latch then { x with step := 2 } else x
      let s := { s with red.handover := some x }
      if x.step = 2 ∧ x.nh - 1 ≤ n ∧ s.red.out.isNone ∧ ckptMay s then
        sendCkpt x.nh { s with red.handover := some { x with step := 3 } }
      else s
  | none => s

/-- Has a handover stopped the passes? -/
def handoverStops (s : Dev) : Bool :=
  match s.red.handover with
  | some x => x.giving && decide (2 ≤ x.step)
  | none => false

/-- Is universe data still on its way out? -/
def showWaiting (s : Dev) : Bool :=
  let data (f : TxFrame) : Bool :=
    match f.tag with
    | .show_ _ _ _ _ _ _ _ _ => true
    | .sync _ _ _ => true
    | _ => false
  s.outp.ports.any fun e => e.2.queue.any data || e.2.express.any data || e.2.wire.any (fun w => data w.frame)

/-- HANDOVER_RELEASE (R352 step 4): the last output is sent and the final checkpoint acknowledged. -/
def runHandoverRelease (t : Time) (s : Dev) : Host.Outcome Dev Fault Refusal :=
  let s := upTo t s
  .next (match s.red.handover with
    | some x =>
      if x.giving ∧ x.step = 3 ∧ s.sys.mode = .active ∧ s.red.out.isNone ∧ !showWaiting s then
        tellHandover 3 false x.nh 0 { enterStandby s with red.handover := some { x with step := 4 } }
      else s
    | none => s)

/-! Health (R353) -/

/-- HEALTH_REPORT (R353): once per second in STANDBY. The operands are the fixture ports whose loopback failed and the defects that the
rolling march found. -/
def runHealthReport (t : Time) (fxpFail defects : Nat) (s : Dev) : Host.Outcome Dev Fault Refusal :=
  let s := upTo t s
  .next (if s.red.paired && s.sys.mode == .standby && decide (s.red.healthAt + sec 1 ≤ s.raw) then
      let s := postBist 0 defects { s with red.spmDefect := s.red.spmDefect || defects != 0 }
      let px := ((List.range 8).map fun n => if bitOf s (F.PXP_STATE_PIN_FAULT n) then 2 ^ n else 0).sum
      let h := fxpFail % 65536 + 65536 * px + (if s.red.spmDefect then 2 ^ 24 else 0)
      let s := withHealth { s with red.health := h, red.healthAt := s.raw }
      postRed 6 0x0D s.red.health { s with red.refused := false, red.spmDefect := false }
    else s)

/-- Frames of the pacing canvas since the tick of the newest applied checkpoint. -/
def ckptAge (s : Dev) : Nat :=
  if s.sys.mode = .standby then
    match s.red.applied with
    | some c => min (lastLatched s - c.frame).toNat 65535
    | none => 0
  else if s.red.ackNum = 0 then 0
  else min (lastLatched s - s.red.ackFrame).toNat 65535

/-- RED's registers. -/
def redView (s : Dev) (off : Nat) : Option Word :=
  let w (n : Nat) : Option Word := some (BitVec.ofNat 32 n)
  let b (v : Bool) (n : Nat) : Nat := if v then 2 ^ n else 0
  let r := s.red
  let num := if s.sys.mode = .standby then (r.applied.map (·.num)).getD 0 else r.ackNum
  if off = R.RED_CFG then w (if r.paired then 1 + 2 * r.role + 4 * r.witness + 16 * r.k + 65536 * r.partner else 0)
  else if off = R.RED_STATE then
    let line := if !r.paired then 0 else if r.ilk then 3 else r.line
    w (b r.valley.up 0 + b r.wire.up 1 + 4 * line + b r.claim.isSome 4 + b r.applied.isSome 5 + b (blocked s) 6 +
      b (bitOf s F.RED_STATE_SEVERED) 7 + 256 * hbMode r.word + b (hbHolds r.word) 12 + b (hbHealthy r.word) 13 + b r.handover.isSome 14)
  else if off = R.RED_PARTNER_CP then
    w (hbMinor r.word + 256 * hbMajor r.word + 65536 * fld s F.CTL_FW_PROTO_CP_MINOR + 2 ^ 24 * fld s F.CTL_FW_PROTO_CP_MAJOR)
  else if off = R.RED_CKPT_NUM_LO then w num
  else if off = R.RED_CKPT_NUM_HI then w (num / 2 ^ 32)
  else if off = R.RED_CKPT_AGE then w (ckptAge s + 65536 * r.lastMs)
  else if off = R.RED_HEALTH then w r.health
  else if off = R.RED_PARTNER_HEALTH then w r.partnerHealth
  else none

end Sys2Proof.Machine
end

