-- ==== Sys2Proof/Machine/Bar0.lean ====
section
/-! DEFINITION. BAR0 as a whole (R8, R9, R38, R63): which block answers a read, what a read and a write of a register do beside
moving its bits, and the row REGISTER_WRITE. -/

namespace Sys2Proof.Machine

/-- SYS's and HDL's registers that show live state. -/
def sysView (s : Dev) (off : Nat) : Option Word :=
  let w (n : Nat) : Option Word := some (BitVec.ofNat 32 n)
  if off = R.SYS_MODE then w (s.sys.mode.code + 16 * s.sys.prev.code + 65536 * min s.sys.transitions 65535)
  else if off = R.SYS_STATUS then
    some (F.SYS_STATUS_ILK_HELD.into (F.SYS_STATUS_PAIRED.into (rg s off) (if s.red.paired then 1 else 0)) (if s.red.ilk then 1 else 0))
  else if off = R.HDL_LEDGER_CAP then w (capOf s (fld s F.HDL_LEDGER_SEL_LINE))
  else if off = R.HDL_LEDGER_USED then w (usedOf s (fld s F.HDL_LEDGER_SEL_LINE))
  else none

/-- The register that a block shows at an offset, where it is more than the bits stored. -/
def blockView (s : Dev) (off : Nat) : Option Word :=
  match off / 0x10000 with
  | 0x0 => sysView s off
  | 0x1 => idView s off
  | 0x2 => calView s off
  | 0x4 => bootView s off
  | 0x5 => updView s off
  | 0x6 => sysView s off
  | 0x7 => schView s off
  | 0x8 => queView s off
  | 0x9 => plnView s off
  | 0xB => chkView s off
  | 0xC => (timView s off).or (latView s off)
  | 0xD => evtView s off
  | 0xE => redView s off
  | 0xF => valView s off
  | 0x21 => (vidView s off).or ((inView s off).or (txView s off))
  | 0x22 => vidView s off
  | 0x23 => fixView s off
  | 0x24 => pxView s off
  | 0x25 => dmxView s off
  | 0x26 => siteView s off
  | _ => macView s off

/-- The value of a register as a read shows it, without what the read does: an offset without a register reads 0 (R9), and so does a
block that does not answer in the present mode (R38). -/
def regShow (s : Dev) (off : Nat) : Word :=
  if !bar0Up s off ∨ (findReg off).isNone then 0 else (blockView s off).getD (rg s off)

/-- A read of a register: QUE.POP_LO, EVT.CAPi_NS and the LO half of a MAC counter act as they are read. -/
def readReg (off : Nat) (s : Dev) : Dev × Word :=
  if !bar0Up s off then (s, 0)
  else if off = R.QUE_POP_LO then popLo s
  else if R.EVT_CAP_NS 0 ≤ off ∧ off < R.EVT_CAP_NS 8 ∧ off % 16 = 8 then capNsRead ((off - R.EVT_CAP_NS 0) / 16) s
  else if R.MAC_CNT_LO 0 0 ≤ off ∧ off < R.MAC_CTRL 17 ∧ 0x100 ≤ off % 0x10000 ∧ off % 0x10000 < 0x230 ∧ off % 8 = 0 then
    cntLoRead ((off - 0x100000) / 0x10000) ((off % 0x10000 - 0x100) / 8) s
  else (s, regShow s off)

/-- A write of an indexed register of the blocks that have writes with an effect of their own; none: a plain write. -/
def writeIndexed (off : Nat) (v : Word) (s : Dev) : Option Dev :=
  let o := off % 0x10000
  if R.CHK_CH_CTRL 0 ≤ off ∧ off < R.CHK_CH_CTRL 8 ∧ o % 0x20 = 0x14 then
    some (if bit v.toNat 0 then chkCut (o / 0x20) rcAborted s else s)
  else if off = R.EVT_CAP_CFG 3 then some (if s.tim.ltcOnCap3 then s else storeReg off v s)
  else if 0x100000 ≤ off ∧ off < 0x210000 then
    let n := (off - 0x100000) / 0x10000
    if o = 0x04 then some (writeMacCtrl n v s) else if o = 0x30 then some (writeSnap n v s) else none
  else if 0x240000 ≤ off ∧ off < 0x248000 ∧ off % 0x1000 = 0x10 then some (writeMinOn (off % 0x10000 / 0x1000) v s)
  else if 0x250000 ≤ off ∧ off < 0x250800 then
    let n := o / 0x400
    if o % 0x400 = 0x04 then some (writeLineTiming n v s)
    else if o % 0x400 = 0x0C then some (writeDisc n v s)
    else if o % 0x400 = 0x1C then some (writeMailbox n v s)
    else none
  else none

/-- A write of a register (R8, and what the tables say of single registers). Where the block does not take writes in the present mode,
nothing happens (R38). -/
def writeReg (off : Nat) (v : Word) (s : Dev) : Dev :=
  if !bar0Writable s off then s
  else if off = R.SYS_RESET then writeReset v s
  else if off = R.BOOT_REVOKE then revoke v s
  else if off = R.BOOT_FW_CTRL then if bit v.toNat 0 then fwGo s else s
  else if off = R.SUP_VMON_STOP ∨ off = R.SUP_VMON_HOLD then writeVmon off v s
  else if off = R.SUP_TEMP_WARN then writeTempWarn v s
  else if off = R.HDL_GOV_TARGET then
    if 0x10D ≤ v.toNat % 65536 ∧ v.toNat % 65536 ≤ 0x14D then storeReg off v s else s
  else if off = R.HDL_CMP_HEAD then cmpFull (storeReg off v s)
  else if off = R.QUE_PUSH_RING then pushRing v s
  else if off = R.QUE_PUSH_DATA_LO then { s with que.dataLo := v.toNat }
  else if off = R.QUE_PUSH_DATA_HI then pushHi v s
  else if off = R.QUE_PUSH_COMMIT then if bit v.toNat 0 then pushCommitGo s else s
  else if off = R.QUE_POP_CTRL then if bit v.toNat 0 then dropRestGo s else s
  else if off = R.PLN_XLAT_ADDR then xlatWalk v s
  else if off = R.TIM_LATCH then if bit v.toNat 0 then latchTime s else s
  else (writeIndexed off v s).getD (storeReg off v s)

/-- The word that a masked write carries (R63): bits outside the mask keep their value, and a bit that acts when it is written 1 is
not written there. -/
def maskedWord (s : Dev) (off : Nat) (v mask : Word) : Word :=
  match findReg off with
  | none => 0
  | some r => (rg s off &&& ~~~mask &&& BitVec.ofNat 32 (r.rw ||| r.rwl)) ||| (v &&& mask)

/-- May a register command name an offset: a multiple of 4 in BAR0 (R63)? -/
def bar0Offset (off : Nat) : Bool := off % 4 == 0 && decide (off < 0x1000000)

/-- REG_WRITE, and an entry of a register record (R63, R370). A write whose mask is 0 writes nothing. -/
def maskedWrite (off : Nat) (v mask : Word) (s : Dev) : Dev :=
  if mask = 0 then s else writeReg off (maskedWord s off v mask) s

end Sys2Proof.Machine
end

