-- ==== Sys2Proof/Machine/Image.lean ====
section
/-! DEFINITION. The configuration image (R35, R367-R371): its checks, the walk of its records, what each record does, and the
check of UPDATE_VERIFY. -/

namespace Sys2Proof.Machine

/-! The image as stored -/

/-- The records of an image between byte 32 and its trailer, by type and payload; a refusal names the code and the record, counted
from 1. -/
def walkRecords (s : Dev) (stop : Nat) : Nat → Nat → Nat → Except (Nat × Nat) (List (Nat × List Byte))
  | 0, pos, _ => if pos = stop then .ok [] else .error (rcOutOfRange, 0)
  | n + 1, pos, i =>
    if pos = stop then .error (rcOutOfRange, 0)
    else if stop < pos + 8 then .error (rcOutOfRange, i)
    else
      let h := norBytes s pos 8
      let len := at_ h 2 4
      if stop < pos + 8 + pad8 len ∨ at_ h 6 2 ≠ 0 then .error (rcOutOfRange, i)
      else
        match walkRecords s stop n (pos + 8 + pad8 len) (i + 1) with
        | .ok r => .ok ((at_ h 0 2, norBytes s (pos + 8) len) :: r)
        | .error e => .error e

/-- The checks of an image that come before its records: trailer and header, signature, format (R35, R371). -/
def imageChecks (s : Dev) (a : Nat) : Option Nat :=
  let len := leNat (norBytes s (a + 8) 4)
  let t := norBytes s (a + len - 112) 112
  let slot := at_ t 4 1
  let key := (s.boot.hdr.map fun h => if slot = 0 then h.key0 else h.key1).getD []
  let empty := key.all (· == 0) || key.all (· == 0xFF)
  if !imageHead s a || !trailerOk s a then some rcMediaError
  else if slot = 0xFF then
    if s.boot.hdr.any (·.sigRequired) then some rcNotAuthentic
    else if leNat (norBytes s (a + 6) 2) ≠ 32 ∨ !(cfList s).contains (leNat (norBytes s (a + 4) 2)) then some rcIncompatible
    else none
  else if 1 < slot ∨ empty ∨ !ecdsaOk key (sha384 (norBytes s a (len - 96))) (t.drop 16) then some rcNotAuthentic
  else if leNat (norBytes s (a + 6) 2) ≠ 32 ∨ !(cfList s).contains (leNat (norBytes s (a + 4) 2)) then some rcIncompatible
  else none

/-- The records of the image at an address, once its checks hold. -/
def imageRecords (s : Dev) (a : Nat) : Except (Nat × Nat) (List (Nat × List Byte)) :=
  match imageChecks s a with
  | some code => .error (code, 0)
  | none =>
    let len := leNat (norBytes s (a + 8) 4)
    walkRecords s (a + len - 112) (min (leNat (norBytes s (a + 12) 4)) 1048577) (a + 32) 1

/-- The bank that the running firmware takes (R379), and whether it is not the active one; none where no bank can be read. -/
def chooseBank (s : Dev) : Except Nat (Nat × Bool) :=
  let j := journalNow s
  let other := 1 - j.active
  if s.boot.hdr.isNone || (!trailerOk s (bankBase 0) && !trailerOk s (bankBase 1)) then .error rcMediaError
  else if (cfList s).contains j.aCf then .ok (j.active, false)
  else if j.prevValid && trailerOk s (bankBase other) && (cfList s).contains j.pCf then .ok (other, true)
  else .error rcIncompatible

/-! Records -/

/-- The kind that a record's type creates. -/
def kindOfType : Nat → Option Nat
  | 0x0101 => some 1
  | 0x0201 => some 2
  | 0x0301 => some 3
  | 0x0401 => some 4
  | 0x0501 => some 5
  | 0x0601 => some 6
  | 0x0701 => some 7
  | 0x0801 => some 8
  | 0x0901 => some 9
  | 0x0A01 => some 0xA
  | 0x0B01 => some 0xB
  | 0x0E01 => some 0xE
  | _ => none

/-- The size of a record of a type that creates no object, where it is fixed. -/
def plainSize : Nat → Option Nat
  | 0x0103 => some 8196
  | 0x0802 => some 8
  | 0x0C01 => some 32
  | 0x0C02 => some 16
  | 0x0D01 => some 8
  | 0x0E02 => some 16
  | 0x0F01 => some 24
  | 0x1001 => some 32
  | _ => none

/-- The index that a record of an image names. -/
def imageIndex (kind : Nat) (r : List Byte) : Nat :=
  match kind with
  | 1 => at_ r 0 4
  | 9 => at_ r 0 4
  | 7 => at_ r 0 1
  | 6 => hIndex (BitVec.ofNat 32 (at_ r 12 4))
  | _ => at_ r 0 2

/-- The priority of an object of the image: its record's, or, for a channel whose record has no such field, a value the spec does not
give (log 29). -/
def imagePrio (kind : Nat) (r : List Byte) (s : Dev) : Dev × Nat :=
  match kind with
  | 1 => (s, at_ r 33 1)
  | 2 => (s, at_ r 31 1)
  | 7 => (s, at_ r 17 1)
  | 8 => (s, at_ r 18 1)
  | k => if k ≤ 9 then (drawn s, Config.freeNat s.free % 16) else (s, 0)

/-- A record that creates an object (R51): by the admission of CREATE; without one where only the image is checked. -/
def applyObject (charging : Bool) (kind : Nat) (r : List Byte) (s : Dev) : Except Refuse Dev := do
  let cls := if kind = 1 then at_ r 32 1 else if kind = 2 then at_ r 30 1 else (kindClass kind).getD 0
  let (s, prio) := imagePrio kind r s
  require (decide (cls ≤ 1 ∧ prio ≤ 15)) rcOutOfRange
  require (match recSizeOf kind with | some k => r.length == k | none => true) rcOutOfRange
  let idx ← pickIndex s kind (some (imageIndex kind r)) r
  let c : Ctx := ⟨.image, idx, cls, prio⟩
  let p ← planOf s c kind r
  indexFree s kind idx
  let s1 ← if charging then admitPlan c kind p s
    else match installPlan c kind p s with
      | some s1 => (placedCheck s1 kind idx).map fun _ => s1
      | none => .ok s
  pure (modObj (okey kind idx) (fun o => { o with auto := decide (kind ≤ 9) }) s1)

/-- The entries of a register record (R370), applied one after the other where `write` is set. -/
def applyRegs (write : Bool) : Nat → List Byte → Dev → Except Refuse Dev
  | 0, _, s => .ok s
  | n + 1, r, s =>
    let off := at_ r 0 4
    if !bar0Offset off then refuse rcOutOfRange
    else
      applyRegs write n (r.drop 12)
        (if write then maskedWrite off (BitVec.ofNat 32 (at_ r 4 4)) (BitVec.ofNat 32 (at_ r 8 4)) s else s)

/-- The entries of a management-host record. -/
def hostsOf (r : List Byte) : List HostPrefix := (List.range (r.length / 8)).map fun i => ⟨at_ r (8 * i) 4, at_ r (8 * i + 4) 1⟩

/-- The record that a resource may have only once: what has been claimed grows. -/
def claimOnce (key : Nat) (seen : List Nat) : Except Refuse (List Nat) :=
  if seen.contains key then refuse rcConflict else .ok (key :: seen)

/-- The domain a record sets up (R260, R261). One whose record is that in force runs on through CONFIGURE (R39); FREE has offset 0 and
rate 1. -/
def domainRecord (r : List Byte) (s : Dev) : Except Refuse Dev := do
  let d := at_ r 0 1
  let x := domRecOf r
  require (domRecOk s r) rcOutOfRange
  require (!domClash x (domAt s (1 - d)).rec_) rcConflict
  require (s.vid.canvases.all fun e => e.2.domain != d || x.tickRef == 0 || commensurate x e.2.timing.rateNum e.2.timing.rateDen) rcConflict
  pure (if (domAt s d).rec_ = x then s
    else applyDomain d x (if x.source = 0 then setDom d {} s else s))

/-- The pair record (R333, R334): `own` is the pinned address of the image's valley record, 0 without one. -/
def pairRecord (own : Nat) (r : List Byte) (s : Dev) : Except Refuse Dev := do
  let partner := at_ r 1 1
  require (decide (at_ r 0 1 ≤ 1 ∧ 1 ≤ partner ∧ partner ≤ 254 ∧ at_ r 2 1 ≤ 64 ∧ at_ r 3 1 ≤ 2) && (r.drop 4).all (· == 0)) rcOutOfRange
  require (own != 0 && partner != own) rcOutOfRange
  let red : Red := { s.red with
    paired := true, role := at_ r 0 1, partner := partner, k := (if at_ r 2 1 = 0 then 4 else at_ r 2 1), witness := at_ r 3 1 }
  pure (movePair (chargeAll [(0, 400)] { s with red := red }))

/-- The valley record (R308) in force: links disabled or shut before come back DOWN. -/
def applyValley (r : List Byte) (s : Dev) : Dev :=
  let a := at_ r 0 1
  let mask := at_ r 1 1
  let s := { s with val.recorded := true, val.shut := false, val.valleyId := at_ r 4 4, val.mask := mask, val.want := a }
  let s := setBit F.VAL_RELAY_EN (bit (at_ r 2 1) 0) s
  let s := (List.range 4).foldl (fun s l =>
    let s := setRg (R.VAL_LINK_ASYM l) (BitVec.ofNat 32 (at_ r (8 + 4 * l) 4)) s
    if !bit mask l then linkOff l s else if (linkAt s l).state = 0 then setLink l {} s else s) s
  let s := if a = 0 ∨ (s.val.addr = a ∧ s.val.pinned) then s else takeAddr a true s
  membersChanged (examineAll s)

/-- The valley record, checked. -/
def valleyRecord (r : List Byte) (s : Dev) : Except Refuse Dev := do
  require (decide (at_ r 0 1 ≤ 254 ∧ at_ r 1 1 < 16 ∧ at_ r 2 1 ≤ 1 ∧ at_ r 3 1 = 0)) rcOutOfRange
  pure (applyValley r s)

/-- A port record (R236, R238). -/
def portRecord (r : List Byte) (s : Dev) : Except Refuse Dev := do
  require (portRecOk r) rcOutOfRange
  require (!(s.outp.ports.any fun e => e.1 != at_ r 0 1 && e.2.rec_.mac == (portRecOf r).mac)) rcConflict
  pure (applyPort (at_ r 0 1) (portRecOf r) s)

/-- What a record does (R369). `recs` is the whole image; `charging` is clear where it is only checked. -/
def applyRecord (charging : Bool) (recs : List (Nat × List Byte)) (type : Nat) (r : List Byte) (x : Dev × List Nat) :
    Except Refuse (Dev × List Nat) := do
  let (s, seen) := x
  match kindOfType type with
  | some kind => pure (← applyObject charging kind r s, seen)
  | none =>
    require (match plainSize type with | some k => r.length == k | none => true) rcOutOfRange
    match type with
    | 0x0001 =>
      require (r.length % 12 == 0) rcOutOfRange
      pure (← applyRegs charging (r.length / 12) r s, seen)
    | 0x0002 =>
      require (r.length % 8 == 0 && decide (8 ≤ r.length ∧ r.length ≤ 128) && (hostsOf r).all (fun h => decide (h.len ≤ 32)) &&
        (List.range (r.length / 8)).all (fun i => at_ r (8 * i + 5) 3 == 0)) rcOutOfRange
      pure ({ s with hdl.hosts := s.hdl.hosts ++ hostsOf r }, seen)
    | 0x0102 =>
      match binTableOf r with
      | some (i, b) =>
        let seen ← claimOnce (0x10000 + i) seen
        pure ({ s with outp.bins := tput s.outp.bins i b }, seen)
      | none => refuse rcOutOfRange
    | 0x0103 =>
      match curveOf r with
      | some (i, c) =>
        let seen ← claimOnce (0x20000 + i) seen
        pure ({ s with outp.curves := tput s.outp.curves i c }, seen)
      | none => refuse rcOutOfRange
    | 0x0802 =>
      let seen ← claimOnce type seen
      match siteRecord r s with
      | (s, true) => pure (s, seen)
      | _ => refuse rcOutOfRange
    | 0x0C01 =>
      let s ← domainRecord r s
      pure (s, ← claimOnce (0x30000 + at_ r 0 1) seen)
    | 0x0C02 =>
      require (portTimingOk r) rcOutOfRange
      let seen ← claimOnce (0x40000 + at_ r 0 1) seen
      pure (applyPortTiming r s, seen)
    | 0x0D01 =>
      require (decide (at_ r 0 1 ≤ 1) && (r.drop 1).all (· == 0)) rcOutOfRange
      let seen ← claimOnce type seen
      pure ({ s with tim.ltcOnCap3 := bit (at_ r 0 1) 0 }, seen)
    | 0x0E02 =>
      let seen ← claimOnce type seen
      let own := ((recs.find? fun e => e.1 == 0x0F01).map fun e => at_ e.2 0 1).getD 0
      pure (← pairRecord own r s, seen)
    | 0x0F01 =>
      let seen ← claimOnce type seen
      pure (← valleyRecord r s, seen)
    | 0x1001 =>
      let s ← portRecord r s
      pure (s, ← claimOnce (0x50000 + at_ r 0 1) seen)
    | _ => refuse rcIncompatible

/-- Every record in its order, counted from `i`; a register record that resets the device ends the image. -/
def applyRecords (charging : Bool) (recs : List (Nat × List Byte)) :
    Nat → List (Nat × List Byte) → Dev × List Nat → Except (Nat × Nat) (Dev × List Nat)
  | _, [], x => .ok x
  | i, e :: l, x =>
    if x.1.sys.mode ≠ .configure then .ok x
    else
      match applyRecord charging recs e.1 e.2 x with
      | .ok y => applyRecords charging recs (i + 1) l y
      | .error f => .error (f.code, i)

/-! The state before and after the records -/

/-- What the records of an image set up anew: ports with their receive rings, bin tables, curves, hosts, the telemetry ports, the pair,
and the ledger with its fixed charges (R66) and what is reserved for other devices. -/
def imageBase (s : Dev) : Dev :=
  let bare (p : Port) : Port := { cnt := p.cnt, snap := p.snap, hiLatch := p.hiLatch }
  let s := (List.range 17).foldl (fun s n => freePages (rxKey n) s) s
  let red : Red := { word := s.red.word, partnerHealth := s.red.partnerHealth, valley := s.red.valley, wire := s.red.wire,
                     seq := s.red.seq, line := s.red.line, health := s.red.health, sentAt := s.red.sentAt, spmDefect := s.red.spmDefect }
  let s := { s with
    outp.ports := s.outp.ports.map fun e => (e.1, bare e.2)
    outp.bins := [], outp.curves := [], hdl.hosts := [], hdl.used := [], tim.ltcOnCap3 := false, red := red }
  let s := setFld F.SITE_TEL_PORTS_PORTS 0 s
  chargeAll ([(0, 700), (1, 22)] ++ s.val.reserves.flatMap fun e => e.2.charges) s

/-- Handles in an image carry generation 0 (R368): while its records are applied every index counts from it. -/
def withGens (gens : Tbl Nat) (s : Dev) : Dev :=
  let s := { s with hdl.gens := gens }
  let gen (k : Nat) (o : HObj) : HObj := { o with gen := genOf s k }
  let univ (i : Nat) (u : Univ) : Univ := { u with handle := handleOf s (okey 2 i) }
  let s := { s with hdl.objs := s.hdl.objs.map fun e => (e.1, gen e.1 e.2) }
  let owner (t : Task) : Task := { t with owner := if t.owner = 0 then 0 else handleOf s (hKey t.owner) }
  { s with
    outp.univs := s.outp.univs.map fun e => (e.1, univ e.1 e.2)
    sch.tasks := s.sch.tasks.map fun e => (e.1, owner e.2) }

/-- The records of an image applied to a state, the claims with them. -/
def placeImage (charging : Bool) (recs : List (Nat × List Byte)) (s : Dev) : Except (Nat × Nat) (Dev × List Nat) :=
  match applyRecords charging recs 1 recs ({ s with hdl.gens := [] }, []) with
  | .ok (x, seen) => .ok (withGens s.hdl.gens x, seen)
  | .error e => .error e

/-- What the absence of a record means: a domain without one is FREE (R260), ports without timing use 0 (R267), links without a valley
record are shut down (R308). -/
def imageAbsent (seen : List Nat) (s : Dev) : Dev :=
  let s := (List.range 2).foldl (fun s d =>
    if seen.contains (0x30000 + d) ∨ (domAt s d).rec_ = {} then s else setDom d {} s) s
  let s := (List.range 16).foldl (fun s p =>
    if seen.contains (0x40000 + p) then s
    else setRg (R.TIM_PORT_TX_EXTRA p) 0 (setRg (R.TIM_PORT_RX_EXTRA p) 0 (setRg (R.TIM_PORT_ASYM p) 0 s))) s
  if seen.contains 0x0F01 then s
  else
    (List.range 4).foldl (fun s l => linkOff l s) { s with val.recorded := false, val.shut := true }

/-! UPDATE_VERIFY (R375) -/

/-- A member at every valley address, for a check that takes every other device as present. -/
def anyMembers : Tbl Member :=
  (List.range 254).map fun i =>
    (i + 1, ⟨{ uid := i + 1, addr := i + 1, pinned := true, major := 0, minor := 0, mode := 4, links := [], doms := [] }, 0, 0⟩)

/-- The state in which an image is checked by itself: no object, no charge. -/
def emptyDevice (s : Dev) : Dev :=
  { Dev.reset with
    regs := s.regs, nor := s.nor, boot := s.boot, fuses := s.fuses, upd := s.upd, pln := { free := [(0, 131072)] }, val.members := anyMembers
    sys.mode := .configure }

/-- The checks of an image that depend on it alone: none where they hold, else the code and the record. -/
def verifyImage (s : Dev) (a len : Nat) : Option (Nat × Nat) :=
  if !imageHead s a then some (rcMediaError, 0)
  else if leNat (norBytes s (a + 8) 4) ≠ len then some (rcOutOfRange, 0)
  else
    match imageRecords s a with
    | .error e => some e
    | .ok recs =>
      match placeImage false recs (emptyDevice s) with
      | .ok _ => none
      | .error e => if e.1 = rcNoSpace ∨ e.1 = rcNoCapacity then none else some e

/-- UPDATE_VERIFY: the staged image is checked, and STAGED recorded. -/
def updVerify (h : CmdHdr) (s : Dev) : Dev × Reply :=
  inSession h (fun s => norGate (fun s =>
    let j := journalNow s
    if j.state ≠ 2 ∧ j.state ≠ 3 then (s, fails 0 rcWrongMode)
    else
      match verifyImage s stagingBase s.upd.len with
      | some (code, n) => (s, .now code 0 (leBytes 4 n))
      | none =>
        if j.state = 3 then (s, done 0 [])
        else
        let (serial, icrc, _) := imageIds s stagingBase
        (journalQueue { j with state := 3, sLen := s.upd.len, sIcrc := icrc, sSerial := serial } [(0x03, icrc)] (some (h, 0x0706)) [] s,
          .later)) s) s

end Sys2Proof.Machine
end

