-- ==== Sys2Proof/Machine/Start.lean ====
section
/-! DEFINITION. From the firmware's arrival to ACTIVE, STANDBY or SERVICE (R32 steps 10–17): the rows AUTHENTICATION_DONE,
CONFIGURE_BEGIN, CONFIGURE_END and FIRST_LIGHT. -/

namespace Sys2Proof.Machine

/-! CONFIGURE begins (steps 11 and 12) -/

/-- What every entry into CONFIGURE does: a start for the journal and for the lifetime counters; the image has not been applied. -/
def enterConfigure (first : Bool) (s : Dev) : Dev :=
  let s := toMode .configure { s with sys.applied := false, sys.placed := none, sys.bad := none, sys.gate := none }
  journalStart (lifeStart first s)

/-- The command rings and the argument area are allocated (R52): 4, 2 and 16 pages, with HW set (R97). -/
def allocRings (s : Dev) : Dev :=
  let s := mapPages ringKey 0 true true false 22 s
  let base (p : Nat) : Nat := ((pteAt s ringKey p).map (·.ppn)).getD 0
  setFld F.HDL_CMD_BASE_BASE (base 0) <| setFld F.HDL_CMP_BASE_BASE (base 4) <| setFld F.HDL_ARG_BASE_BASE (base 6) s

/-- The rings are empty and on their first pass (R54, R55). -/
def clearRings (s : Dev) : Dev :=
  let s := (List.range 2).foldl (fun s p =>
    match pteAt s ringKey (4 + p) with
    | some e => zeroPage e.ppn s
    | none => s) s
  cmpFull <| setFld F.HDL_CMD_HEAD_HEAD 0 <| setFld F.HDL_CMD_TAIL_TAIL 0 <| setFld F.HDL_CMP_HEAD_HEAD 0 <| setFld F.HDL_CMP_TAIL_TAIL 0 <|
    setFld F.HDL_CMP_TAIL_PHASE 1 s

/-- The firmware is taken: step 11 from LOAD. -/
def startFirmware (s : Dev) : Dev :=
  let s := enterConfigure true (milestone R.SYS_T_CONFIGURE s)
  let s := { s with hdl.used := [], pln.scrubFrom := s.raw, pln.scrubHold := 0 }
  clearRings (allocRings (chargeAll [(0, 700), (1, 22)] s))

/-! Authentication (step 10, R30, R363) -/

/-- The bytes of a complete image of a source. -/
def offered (s : Dev) (e : Nat × Nat) : List Byte :=
  match e.1 with
  | 0 => fwBytes s e.2
  | 1 => (s.boot.loader.map (·.data)).getD []
  | _ => s.boot.taken.take e.2

/-- A loader session ends with a result. -/
def loaderResult (code : Nat) (s : Dev) : Dev :=
  match s.boot.loader with
  | some l => loaderSend l.ip l.port 6 l.id code [] { s with boot.loader := none }
  | none => s

/-- The transfers that another source's image beats are refused (R30). -/
def refuseOthers (src : Nat) (s : Dev) : Dev :=
  let s := if src = 1 then loaderResult rcDone s else loaderResult rcBusy s
  let s := if src ≠ 0 ∧ s.boot.auth.any (·.1 == 0) then setFld F.BOOT_FW_STATUS_RESULT rcBusy (setFld F.BOOT_FW_STATUS_STATE 3 s)
    else setFld F.BOOT_FW_STATUS_STATE 2 s
  let s := if src ≠ 2 then
      match s.boot.taking with
      | some (l, _) => relayOut l (.relayRefuse l) s
      | none => s
    else s
  { s with boot.auth := [], boot.taking := none, boot.taken := [] }

/-- The image is discarded, and LOAD goes on. -/
def rejectImage (src : Nat) (s : Dev) : Dev :=
  let s := bump R.BOOT_AUTH_FAILS (setBit F.SYS_STATUS_AUTH_FAIL true { s with boot.auth := s.boot.auth.tail })
  match src with
  | 0 => setFld F.BOOT_FW_STATUS_RESULT rcNotAuthentic (setFld F.BOOT_FW_STATUS_STATE 3 s)
  | 1 => setFld F.BOOT_LOADER_RECEIVED 0 (loaderResult rcNotAuthentic s)
  | _ =>
    match s.boot.taking with
    | some (l, _) => relayAbandon l (modLink l (fun x => { x with failed := true }) s)
    | none => s

/-- AUTHENTICATION_DONE (R363): the check of the image whose last byte came first has ended. -/
def runAuthenticationDone (t : Time) (s : Dev) : Host.Outcome Dev Fault Refusal :=
  let s := upTo t s
  .next (match s.boot.auth with
    | [] => s
    | e :: _ =>
      if s.sys.mode ≠ .load then s
      else
        let b := offered s e
        if authentic s b then
          let s := if e.1 = 0 then setFld F.BOOT_FW_STATUS_RESULT rcDone s else fwStore b s
          startFirmware (refuseOthers e.1 (showFirmware e.1 b s))
        else rejectImage e.1 s)

/-- CONFIGURE_BEGIN (R55): a SET_MODE to CONFIGURE takes effect once the host has read the completions, or after 100 ms. -/
def runConfigureBegin (t : Time) (s : Dev) : Host.Outcome Dev Fault Refusal :=
  let s := upTo t s
  .next (match s.sys.gate with
    | none => s
    | some g =>
      let head := fld s F.HDL_CMP_HEAD_HEAD
      let tail := fld s F.HDL_CMP_TAIL_TAIL
      let read := if g.overMgt then head == tail else decide ((tail + 4096 - head) % 4096 ≤ (tail + 4096 - g.past) % 4096)
      if read || decide (g.at_ + ms 100 ≤ s.raw) then
        clearRings (enterConfigure false { s with cmd.outst := [], cmd.mgt := [] })
      else s)

/-! CONFIGURE ends (steps 14 to 16) -/

/-- The outcome of CONFIGURE is shown. -/
def showResult (code record : Nat) (s : Dev) : Dev :=
  setFld F.SYS_CONFIG_RESULT_RESULT_CODE code <| setFld F.SYS_CONFIG_RESULT_RECORD record <|
    setBit F.SYS_STATUS_CFG_REFUSED (decide (code ≠ rcDone)) s

/-- The links carry link control and relay only (R308): those in UP go back to HELLO, and the members with them. -/
def relayOnly (s : Dev) : Dev :=
  let s := (List.range 4).foldl (fun s l =>
    if (linkAt s l).state = 4 ∨ (linkAt s l).state = 5 then modLink l (fun x => { x with state := 3 }) s else s)
    { s with val.recorded := false, val.shut := false, val.members := [] }
  membersChanged s

/-- The image is refused as a whole: SERVICE, with no channel and no port but MGT (R35, R240). -/
def refuseImage (code record : Nat) (s : Dev) : Dev :=
  let s := relayOnly (enterService s)
  let s := imageBase { s with sys.placed := none, sys.bad := none, sys.applied := false }
  let s := setBit F.SYS_FAULT_CONFIG true (showResult code record s)
  let s := if code = rcNoCapacity then bump R.HDL_ADMIT_REFUSED s else s
  match mgtRecord s with
  | some x => startMgt x s
  | none => s

/-- Does an image send universes from other devices, and which records are they? -/
def remoteRecords (s : Dev) (recs : List (Nat × List Byte)) : List (Nat × Nat) :=
  let own := ((recs.find? fun e => e.1 == 0x0F01).map fun e => at_ e.2 0 1).getD s.val.addr
  ((List.range recs.length).zip recs).filterMap fun e =>
    let u := univOf e.2.2
    if e.2.1 = 0x0201 ∧ u.remote ∧ u.valley ≠ own then some (e.1 + 1, at_ e.2.2 0 2) else none

/-- The other devices are asked for the universes that the image sends from them (R318). -/
def askRemote (l : List (Nat × Nat)) (s : Dev) : Dev :=
  l.foldl (fun s e =>
    match tget s.outp.univs e.2 with
    | some u => startAdmission (.image e.2 e.1) (askFor s u none) s
    | none => s) s

/-- A milestone that is reached for the first time since RESET. -/
def firstMilestone (off : Nat) (s : Dev) : Dev := if rg s off = 0 then milestone off s else s

/-- ACTIVE or STANDBY is reached for the first time since CONFIGURE began. -/
def applied (s : Dev) : Dev :=
  postSummary (showResult rcDone 0 (firstMilestone R.SYS_T_ACTIVE { s with sys.applied := true, sys.placed := none }))

/-- Below VMON_HOLD the unit freezes as it reaches ACTIVE or STANDBY (R40). -/
def holdNow (s : Dev) : Dev := if bitOf s F.SYS_STATUS_VLOW_HOLD then enterHold s else s

/-- The streams and input universes of a standby's image receive from its start on (DEDUCED, log 30). -/
def startReceivers (s : Dev) : Dev :=
  let kind (k : Nat) : Bool := k / 2 ^ 20 == 3 || k / 2 ^ 20 == 4
  (s.hdl.objs.filter fun e => e.2.auto && kind e.1).foldl (fun s e =>
    modObj e.1 (fun o => { o with auto := false }) (startObj e.1 0 s)) s

/-- The record of the pair in the image that CONFIGURE applies, 0 without one. -/
def pairRecordNo (s : Dev) : Nat :=
  match imageRecords s (bankBase s.upd.bank) with
  | .ok recs => ((recs.map (·.1)).findIdx? (· == 0x0E02)).elim 0 (· + 1)
  | .error _ => 0

/-- Has a heartbeat of the partner come in the last 2 ms, that declares this unit's role (R334)? -/
def sameRole (s : Dev) : Bool :=
  let heard (x : Path) : Bool := x.seq.isSome && decide (s.raw ≤ x.at_ + ms 2)
  (heard s.red.valley || heard s.red.wire) && hbRole s.red.word == s.red.role

/-- Step 16 of a paired unit: the rules of R342 and, where they let it claim, the outcome of the claim. -/
def firstClaim (won : Bool) (s : Dev) : Dev :=
  let d := claimRow s
  let may := match d with
    | .claim _ => true
    | .ask => won
    | _ => false
  let s := if d = .ask then bump R.RED_WITNESS_QUERIES s else s
  if may && won then goActive (applied (ilkHold (bump R.RED_CLAIMS_WON s)))
  else
    let s := if may then bump R.RED_CLAIMS_LOST s else claimItems d s
    startReceivers (enterStandby (applied s))

/-- Step 16: unpaired, ACTIVE; paired, the claim, 2 ms after the pair record at the earliest. -/
def finishConfigure (won : Bool) (s : Dev) : Dev :=
  if !s.red.paired then holdNow (goActive (applied s))
  else if (s.sys.placed.map (· + ms 2)).any fun v => decide (s.raw < v) then s
  else if sameRole s then refuseImage rcConflict (pairRecordNo s) s
  else holdNow (firstClaim won s)

/-- The records are applied; for those of another device's universes it is asked. -/
def placeRecords (recs : List (Nat × List Byte)) (remote : List (Nat × Nat)) (other : Bool) (s : Dev) : Dev :=
  match placeImage true recs (imageBase s) with
  | .error e => refuseImage e.1 e.2 (imageBase s)
  | .ok (x, seen) =>
    if x.sys.mode ≠ .configure then x
    else
      let x := askRemote remote (imageAbsent seen x)
      let x := if other then postUpd 0x0A (journalNow x).pCf x else x
      { x with sys.placed := some x.raw }

/-- Steps 14 and 15: the image is read from its bank and its records are applied. A universe sent from another device waits until the
valley record is in force, so that the members can be heard (log 31). -/
def readImage (s : Dev) : Dev :=
  match chooseBank s with
  | .error code => refuseImage code 0 s
  | .ok (b, other) =>
    let s := { s with upd.bank := b }
    match imageRecords s (bankBase b) with
    | .error e => refuseImage e.1 e.2 s
    | .ok recs =>
      let remote := remoteRecords s recs
      match (recs.find? fun e => e.1 == 0x0F01).filter fun v => v.2.length == 24 && (valleyRecord v.2 s).toOption.isSome with
      | some v => if remote ≠ [] ∧ !s.val.recorded then applyValley v.2 s else placeRecords recs remote other s
      | none => placeRecords recs remote other s

/-- CONFIGURE_END (R35): the image has been read and its records applied, or, where they stand already, its universes on other devices
have been admitted and the claim of a paired unit is over. -/
def runConfigureEnd (t : Time) (won : Bool) (s : Dev) : Host.Outcome Dev Fault Refusal :=
  let s := upTo t s
  .next (if s.sys.mode ≠ .configure ∨ copying s then s
    else
      let fresh := s.sys.placed.isNone
      let s := if fresh then journalFirst (readImage s) else s
      if s.sys.mode ≠ .configure ∨ s.sys.placed.isNone then s
      else
        match s.sys.bad with
        | some (code, n) => refuseImage code n s
        | none => if s.val.admissions.isEmpty then finishConfigure won s else s)

/-! First light (step 17) -/

/-- Has a canvas shown a frame N with T_N − LEAD × Tf at or after the entry to ACTIVE? -/
def shownFirst (s : Dev) (c : Canvas) : Bool :=
  let entered := canvasTime s c - ((s.raw - s.sys.tActive : Nat) : Int)
  let n := c.nextN - 1
  decide (entered + c.timing.frames c.timing.lead ≤ tickAt s c n ∧ tickAt s c n ≤ canvasTime s c)

/-- FIRST_LIGHT (R32 step 17): a frame latched since ACTIVE was entered is presented; without a canvas it is due at once. -/
def runFirstLight (t : Time) (s : Dev) : Host.Outcome Dev Fault Refusal :=
  let s := upTo t s
  .next (if s.sys.mode = .active ∧ !s.sys.lit ∧ (s.vid.canvases.isEmpty ∨ (s.vid.canvases.any fun e => shownFirst s e.2)) then
      startDue (firstMilestone R.SYS_T_LIGHT { s with sys.lit := true })
    else s)

end Sys2Proof.Machine
end

