-- ==== Sys2Proof/Machine/ValRx.lean ====
section
/-! DEFINITION. A valley packet is received: the checks of R311, what it brings, and where it goes on to (R311, R316). -/

namespace Sys2Proof.Machine

/-- What a message from a device brings. `hd`, `epoch`, `frame`, `aux` are the header's. -/
def valDeliver (l src hd epoch frame aux : Nat) (m : VMsg) (s : Dev) : Dev :=
  let handle : Word := BitVec.ofNat 32 hd
  let partner := s.red.paired && src == s.red.partner
  match m with
  | .payload slots term => if s.val.addr = 0 then s else payloadRx src handle epoch frame aux term slots s
  | .member i => hearMember i s
  | .addrAsk uid => giveAddr uid s
  | .addrGive uid a => if uid = uidNow s then takeAddr a false s else s
  | .admitMsg id op q => admitRx src id op q s
  | .admitAns id code data => admitAnsRx src id code data s
  | .time d uid origin corr => timeRx l d uid origin corr s
  | .linkControl => s
  | .relayAsk => relayRx l m s
  | .relayOffer _ => relayRx l m s
  | .relayTake => relayRx l m s
  | .relayRefuse _ => relayRx l m s
  | .relayData _ _ => relayRx l m s
  | .migCopy id c => migCopyRx src id c s
  | .migAns id code data h => migAnsRx src id code data h s
  | .migSwitch old new target n e => migSwitchRx old new target n e s
  | .migSeq h q => migSeqRx h q s
  | .migDrop h => migDropRx h s
  | .heartbeat word health =>
    if partner ∨ (s.sys.mode = .configure ∧ !s.red.paired) then
      (if hbRuns s || s.sys.mode == .configure then hbRx 1 word { s with red.partnerHealth := health } else s)
    else s
  | .witnessAsk p => witnessAskRx src p s
  | .witnessAns a => witnessAnsRx a s
  | .probe asker => probeRx src asker s
  | .probeAns asker word => probeAnsRx src asker word s
  | .handover op force nh code => if partner then handoverRx op force nh code s else s
  | .chunk num page part data =>
    if partner && ckptTakes s then
      stageCkpt num (sgn 64 frame) (fun c => { c with chunks := c.chunks ++ [(hKey handle, page, part, data)] }) s
    else s
  | .system num snap => if partner && ckptTakes s then stageCkpt num (sgn 64 frame) (fun c => { c with snap := some snap }) s else s
  | .trailer num pages crc => if partner then ckptTrailer num pages crc s else s
  | .ckptAck num => if partner then ckptAcked num s else s
  | .ckptRefuse num => if partner && (s.red.out.any fun o => o.num == num) then ckptLost s else s

/-- The links on which a broadcast goes on: a membership update on every other link in UP, anything else down the tree of passes A
(R313, R316); time packets are sent on by the device that takes their correction. -/
def floodLinks (s : Dev) (l : Nat) (m : VMsg) : List Nat :=
  match m with
  | .member i => if i.uid = uidNow s then [] else ((upLinks s).map (·.1)).filter (· != l)
  | .time _ _ _ _ => []
  | _ => (childLinks s s.val.root ++ (rootLink s s.val.root).toList).eraseDups.filter (· != l)

/-- The checks of R311 in their order: the counter of the first that fails. -/
def valDrop (s : Dev) (p : VPkt) : Option Nat :=
  let dst := at_ p.header 2 1
  let other := dst != s.val.addr && dst != 0 && dst != 255
  let typ := at_ p.header 0 1
  if crc32c (p.header.take 28) ≠ at_ p.header 28 4 then some R.VAL_HCRC_DROPS
  else if at_ p.header 6 2 ≠ p.len then some R.VAL_LEN_DROPS
  else if !p.crcOk then some R.VAL_PCRC_DROPS
  else if typ = 0 ∨ 8 < typ ∨ 4 < at_ p.header 1 1 then some R.VAL_BAD_DROPS
  else if other ∧ at_ p.header 4 1 = 0 then some R.VAL_HOP_DROPS
  else if other ∧ (passLink s dst false).isNone then some R.VAL_UNREACH_DROPS
  else none

/-- A packet that has passed the checks is delivered, or forwarded with a hop less. -/
def valTake (l : Nat) (p : VPkt) (s : Dev) : Dev :=
  let dst := at_ p.header 2 1
  let src := at_ p.header 3 1
  let hops := at_ p.header 4 1
  let hd := at_ p.header 8 4
  let typ := at_ p.header 0 1
  let on : VPkt := { p with header := vForward p.header }
  let give (s : Dev) : Dev := valDeliver l src hd (at_ p.header 5 1) (at_ p.header 12 8) (at_ p.header 20 4) p.body s
  let s := { s with val.heardFrom := tput s.val.heardFrom src s.raw }
  if dst = 255 then
    let s := if hops = 0 then s else (floodLinks s l p.body).foldl (fun s k => vOut k on s) s
    give s
  else if dst = 0 ∨ dst = s.val.addr then give s
  else
    match passLink s dst ((typ == 1 || typ == 2) && hd % 2 == 1) with
    | some k => vOut k on s
    | none => s

/-- A packet on a link: in UP any packet; on a link to a device in LOAD relay messages between neighbours alone (R310, R322). -/
def valRx (l : Nat) (p : VPkt) (s : Dev) : Dev :=
  let k := (linkAt s l).state
  let relay := at_ p.header 0 1 == 6 && at_ p.header 2 1 == 0
  if k = 4 ∨ (k = 6 ∧ relay) then
    match valDrop s p with
    | some r => bump r s
    | none => valTake l p s
  else s

end Sys2Proof.Machine
end

