-- ==== Sys2Proof/Machine/Cmds.lean ====
section
/-! DEFINITION. What the commands of the handle table, the rings, the time actions and the pixel ports do once they have started (chapter 3,
R59-R63, R68-R69; R120, R121, R146, R233, R263, R283, R324). Each answers a completion, or nothing yet. The `b` of a command is its
entry's ARGS area, from byte 16 on. -/

namespace Sys2Proof.Machine

/-- A command on a handle of one kind; any other handle is BAD_HANDLE (R48). -/
def onHandle (kind : Nat) (handle : Word) (f : Nat → Dev → Dev × Reply) (s : Dev) : Dev × Reply :=
  if hKind handle = kind ∧ (objOf s handle).isSome then f (hIndex handle) s else (s, fails handle rcBadHandle)

/-- A command on the handle of a channel, kinds 1 to 9 (R47). -/
def onChannel (handle : Word) (f : HObj → Dev → Dev × Reply) (s : Dev) : Dev × Reply :=
  match objOf s handle with
  | some o => if hKind handle ≤ 9 then f o s else (s, fails handle rcBadHandle)
  | none => (s, fails handle rcBadHandle)

/-- The answer of a body that refuses or answers DATA. -/
def answer (handle : Word) (x : Dev × Except Refuse (List Byte)) : Dev × Reply :=
  match x with
  | (s, .ok data) => (s, done handle data)
  | (s, .error e) => (s, failed handle e)

/-! NOP, QUERY, registers, the ledger, the governor -/

/-- NOP. -/
def nopBody (s : Dev) : Dev × Reply := (s, done 0 [])

/-- Kind-specific bytes of QUERY. -/
def kindQuery (s : Dev) (kind i : Nat) : List Byte :=
  match kind with
  | 1 => fixtureQuery s i
  | 2 => univQuery s i
  | 3 => inputQuery s i
  | 4 => vidQuery s 4 i
  | 5 => vidQuery s 5 i
  | 6 => vidQuery s 6 i
  | 7 => mapQuery s i
  | 8 => zoneQuery s i
  | 9 => sensorQuery s i
  | 0xB =>
    match tget s.tim.actions i with
    | some a => [if a.sched.isSome then 1 else 0, BitVec.ofNat 8 ((a.sched.map (·.mode)).getD 0), 0, 0] ++ leBytes 4 a.fires
    | none => []
  | 0xD => migQuery s i
  | 0xE => identQuery s i
  | _ => []

/-- QUERY. -/
def queryBody (handle : Word) (s : Dev) : Dev × Reply :=
  match objOf s handle with
  | none => (s, fails handle rcBadHandle)
  | some o =>
    let chan := decide (hKind handle ≤ 9)
    let v (n : Nat) : Nat := if chan then n else 0
    (s, done handle (leBytes 1 (v o.state) ++ leBytes 1 (v o.cls) ++ leBytes 1 (v o.prio) ++ [0] ++
      leBytes 4 (pinnedOf s (hKey handle)) ++ fit 8 (kindQuery s (hKind handle) (hIndex handle))))

/-- Read registers one after the other. -/
def readRegs (off : Nat) : Nat → Dev → Dev × List Byte
  | 0, s => (s, [])
  | n + 1, s =>
    let (s, v) := readReg off s
    let (s, l) := readRegs (off + 4) n s
    (s, leBytes 4 v.toNat ++ l)

/-- REG_READ. -/
def regReadBody (off count : Nat) (s : Dev) : Dev × Reply :=
  if off % 4 ≠ 0 ∨ 4 < count ∨ 0x1000000 < off + 4 * count then (s, fails 0 rcOutOfRange)
  else
    let (s, l) := readRegs off count s
    (s, done 0 l)

/-- REG_WRITE; one that resets the device is not answered (R25). -/
def regWriteBody (off : Nat) (value mask : Word) (s : Dev) : Dev × Reply :=
  if off % 4 ≠ 0 ∨ 0x1000000 < off + 4 then (s, fails 0 rcOutOfRange)
  else
    let s := maskedWrite off value mask s
    if s.sys.mode = .reset then (s, .silent) else (s, done 0 [])

/-- LEDGER_READ. -/
def ledgerBody (line : Nat) (s : Dev) : Dev × Reply :=
  if 28 < line then (s, fails 0 rcOutOfRange)
  else (s, done 0 (leBytes 4 (capOf s line) ++ leBytes 4 (usedOf s line) ++ leBytes 4 (chargedOn s line)))

/-- GOVERNOR_SET. -/
def governorBody (target : Nat) (s : Dev) : Dev × Reply :=
  if 0x010D ≤ target ∧ target ≤ 0x014D then (setFld F.HDL_GOV_TARGET_TARGET target s, done 0 []) else (s, fails 0 rcOutOfRange)

/-- SET_MODE (R37, R38): SERVICE from ACTIVE or STANDBY; CONFIGURE from SERVICE, which begins once the completions are read (R55). -/
def setModeBody (h : CmdHdr) (target : Nat) (s : Dev) : Dev × Reply :=
  if target = Mode.service.code ∧ (s.sys.mode = .active ∨ s.sys.mode = .standby) then (enterService s, done 0 [])
  else if target = Mode.configure.code ∧ s.sys.mode = .service then
    let mgt := match h.src with
      | .pcie => false
      | .mgt _ _ => true
    ({ s with sys.gate := some { at_ := s.raw, overMgt := mgt, past := (fld s F.HDL_CMP_TAIL_TAIL + 1) % 4096 } }, done 0 [])
  else (s, fails 0 rcWrongMode)

/-! CREATE and ADMIT_CHECK (R60, R61, R68, R69) -/

/-- Does a command come over MGT, which has no argument area (R58)? -/
def noArgs (h : CmdHdr) : Bool :=
  match h.src with
  | .pcie => false
  | .mgt _ _ => true

/-- The requested index. -/
def wantOf (a : CreateArgs) : Option Nat := if a.anyIndex then none else some a.index

/-- The start time that a CREATE asks for. -/
def askedStart (a : CreateArgs) : Option Nat := if a.start then some (timeOf a.secs a.nanos).toNat else none

/-- The checks of CREATE's own arguments, and its record. -/
def createRecord (s : Dev) (h : CmdHdr) (a : CreateArgs) : Except Refuse (List Byte) := do
  require (a.kind != 0xF) rcBadHandle
  require (decide (0 < kindLimit a.kind)) rcOutOfRange
  require (!noArgs h) rcUnsupported
  require (decide (a.prio ≤ 15)) rcOutOfRange
  require (match kindClass a.kind with | some c => a.cls == c | none => decide (a.cls ≤ 1)) rcOutOfRange
  carried s a.kind a.recOff a.recLen

/-- The object of a CREATE in its place, with the index it took. -/
def createPlace (s : Dev) (a : CreateArgs) (r : List Byte) : Except Refuse (Dev × Nat) := do
  let i ← pickIndex s a.kind (wantOf a) r
  let c : Ctx := { how := .create (wantOf a), idx := i, cls := a.cls, prio := a.prio }
  let p ← planOf s c a.kind r
  indexFree s a.kind i
  let s ← admitPlan c a.kind p s
  pure (s, i)

/-- The universe of a device's port elsewhere: it is admitted there before the command completes (R318). -/
def remoteOf (s : Dev) (kind i : Nat) : Option Univ := if kind = 2 then (tget s.outp.univs i).filter (·.remote) else none

/-- CREATE of a migration (R323). -/
def createMig (h : CmdHdr) (a : CreateArgs) (r : List Byte) (s : Dev) : Dev × Reply :=
  match pickIndex s 0xD (wantOf a) r with
  | .error e => (s, failed 0 e)
  | .ok k =>
    match (migCheck s (wantOf a) r).bind fun m => (indexFree s 0xD k).map fun _ => m with
    | .error e => (s, failed 0 e)
    | .ok m => (startMig h k m s, .later)

/-- CREATE. -/
def createBody (h : CmdHdr) (a : CreateArgs) (s : Dev) : Dev × Reply :=
  if 0 < kindLimit a.kind ∧ !kindModes a.kind s.sys.mode then (s, fails 0 rcWrongMode)
  else
    match createRecord s h a with
    | .error e => (s, failed 0 e)
    | .ok r =>
      if a.kind = 0xD then createMig h a r s
      else
        match createPlace s a r with
        | .error e => (countRefusal e s, failed 0 e)
        | .ok (s, i) =>
          match remoteOf s a.kind i with
          | some u => (startAdmission (.create h 0x10 i (askedStart a)) (askFor s u none) s, .later)
          | none =>
            let s := match askedStart a with
              | some v => startObj (okey a.kind i) v s
              | none => s
            (s, done (handleOf s (okey a.kind i)) [])

/-- ADMIT_CHECK: as CREATE, and nothing stays. -/
def checkBody (h : CmdHdr) (a : CreateArgs) (s : Dev) : Dev × Reply :=
  match createRecord s h a with
  | .error e => (s, failed 0 e)
  | .ok r =>
    if a.kind = 0xD then
      match (pickIndex s 0xD (wantOf a) r).bind fun k => (migCheck s (wantOf a) r).bind fun _ => indexFree s 0xD k with
      | .error e => (s, failed 0 e)
      | .ok _ => (s, done 0 [])
    else
      match createPlace s a r with
      | .error e => (s, failed 0 e)
      | .ok (s1, i) =>
        match remoteOf s1 a.kind i with
        | some u => (startAdmission (.create h 0x16 i none) (askFor s1 u none) s1, .later)
        | none => (s, done 0 (leastRoom s1 (((objAt s1 (okey a.kind i)).map (·.charges)).getD [])))

/-! DESTROY, MODIFY, START, STOP, SET_PRIORITY (R49, R50, R62, R79) -/

/-- A migration goes with its handle: one that has not switched is aborted; one that has is past that (R325; LATE as for ABORT). -/
def destroyMig (k : Nat) (s : Dev) : Except Refuse Dev :=
  match tget s.val.migs k with
  | none => .ok s
  | some m => if m.state = 3 then refuse rcLate else .ok (abortMig k m s)

/-- DESTROY. -/
def destroyBody (handle : Word) (s : Dev) : Dev × Reply :=
  match objOf s handle with
  | none => (s, fails handle rcBadHandle)
  | some _ =>
    let k := hKey handle
    if !kindModes (hKind handle) s.sys.mode then (s, fails handle rcWrongMode)
    else
      match referrer s k with
      | some r => (s, failed handle { code := rcConflict, data := leBytes 4 (handleOf s r).toNat })
      | none =>
        match if hKind handle = 0xD then destroyMig (hIndex handle) s else .ok s with
        | .error e => (s, failed handle e)
        | .ok s => (destroyObj k (chkGone k s), done handle [])

/-- MODIFY of a universe that another device sends, before it or after it: the new record goes to the devices it uses (R62, R318). -/
def modifyRemote (h : CmdHdr) (handle : Word) (r : List Byte) (s s1 : Dev) : Dev × Reply :=
  let i := hIndex handle
  match remoteOf s1 2 i with
  | some u =>
    let old := (tget s.val.uses handle.toNat).map (·.2)
    (startAdmission (.modify h i r) { askFor s1 u none with old := old } s, .later)
  | none =>
    let s1 := match tget s.outp.univs i with
      | some u => if u.remote then releaseUses u s1 else s1
      | none => s1
    (s1, done handle [])

/-- MODIFY. -/
def modifyBody (h : CmdHdr) (handle : Word) (off len : Nat) (s : Dev) : Dev × Reply :=
  onChannel handle (fun _ s =>
    let kind := hKind handle
    let mig := s.hdl.objs.find? fun e => e.1 / 2 ^ 20 == 0xD && e.2.refs.contains (hKey handle)
    if noArgs h then (s, fails handle rcUnsupported)
    else
      match mig with
      | some e => (s, failed handle { code := rcConflict, data := leBytes 4 (handleOf s e.1).toNat })
      | none =>
        match (carried s kind off len).bind fun r => (modifyObj (hKey handle) r s).map fun s1 => (r, s1) with
        | .error e => (countRefusal e s, failed handle e)
        | .ok (r, s1) => if kind = 2 then modifyRemote h handle r s s1 else (s1, done handle [])) s

/-- START. -/
def startBody (handle : Word) (secs nanos : Nat) (now : Bool) (s : Dev) : Dev × Reply :=
  onChannel handle (fun _ s => (startObj (hKey handle) (if now then 0 else (timeOf secs nanos).toNat) s, done handle [])) s

/-- STOP. -/
def stopBody (handle : Word) (s : Dev) : Dev × Reply :=
  onChannel handle (fun _ s => (stopObj (hKey handle) s, done handle [])) s

/-- SET_PRIORITY. -/
def priorityBody (handle : Word) (prio : Nat) (s : Dev) : Dev × Reply :=
  onChannel handle (fun _ s => if 15 < prio then (s, fails handle rcOutOfRange) else (setPrio (hKey handle) prio s, done handle [])) s

/-! LAYER_COMMIT (R146) -/

/-- `n` records of `size` bytes. -/
def splitRecords (size : Nat) : Nat → List Byte → List (List Byte)
  | 0, _ => []
  | n + 1, b => b.take size :: splitRecords size n (b.drop size)

/-- The entries of a commit. -/
def commitEntries (s : Dev) (h : CmdHdr) (b : List Byte) : Except Refuse (List (List Byte)) := do
  let count := at_ b 0 1
  let flags := at_ b 1 1
  require (decide (1 ≤ count ∧ count ≤ 32 ∧ flags ≤ 1)) rcOutOfRange
  if flags = 0 then
    require (count == 1) rcOutOfRange
    pure [fit 32 (b.drop 8)]
  else
    require (!noArgs h) rcUnsupported
    let off := at_ b 40 4
    let len := at_ b 44 4
    require (len == 32 * count && decide (off + len ≤ argBytes)) rcOutOfRange
    pure (splitRecords 32 count (argRead s off len))

/-- LAYER_COMMIT. -/
def commitBody (h : CmdHdr) (handle : Word) (b : List Byte) (s : Dev) : Dev × Reply :=
  onHandle 5 handle (fun i s =>
    match commitEntries s h b with
    | .error e => (s, failed handle e)
    | .ok es => answer handle (commitLayers i es s)) s

/-! Time actions (R283) -/

/-- ACTION_ARM. -/
def armBody (handle : Word) (b : List Byte) (s : Dev) : Dev × Reply :=
  onHandle 0xB handle (fun i s => answer handle (armAction i b s)) s

/-- ACTION_CANCEL. -/
def cancelBody (handle : Word) (s : Dev) : Dev × Reply :=
  onHandle 0xB handle (fun i s =>
    let (s, n) := cancelAction i s
    (s, done handle (leBytes 4 n))) s

/-! Rings (R120, R121) -/

/-- Is a ring on chip? -/
def ringOnChip (s : Dev) (i : Nat) : Bool := (tget s.que.rings i).any fun r => !r.plain

/-- RING_FLUSH. -/
def flushBody (handle : Word) (s : Dev) : Dev × Reply :=
  onHandle 0xA handle (fun i s =>
    let (s, n, k) := flushRing i s
    (s, done handle (leBytes 4 n ++ leBytes 4 k))) s

/-- RING_MARK. -/
def markBody (handle : Word) (s : Dev) : Dev × Reply :=
  onHandle 0xA handle (fun i s =>
    if ringOnChip s i then (s, fails handle rcUnsupported)
    else
      let (s, n) := markRing i s
      (s, done handle (leBytes 4 n))) s

/-- RING_REWIND. -/
def rewindBody (handle : Word) (s : Dev) : Dev × Reply :=
  onHandle 0xA handle (fun i s =>
    if ringOnChip s i then (s, fails handle rcUnsupported)
    else
      let (s, n, bad) := rewindRing i s
      (s, done handle (leBytes 4 n ++ [if bad then 1 else 0]))) s

/-- RING_RELEASE. -/
def releaseBody (handle : Word) (count : Nat) (allRead : Bool) (s : Dev) : Dev × Reply :=
  onHandle 0xA handle (fun i s =>
    let read := ((tget s.que.rings i).map (·.read)).getD 0
    let n := if allRead then read else count
    if ringOnChip s i then (s, done handle [])
    else if read < n then (s, fails handle rcOutOfRange)
    else
      let (s, words) := releaseRing i n s
      (s, done handle (leBytes 4 n ++ leBytes 4 words))) s

/-! PXP_DIAG (R233) -/

/-- PXP_DIAG STATUS. -/
def pxStatusBody (port : Nat) (s : Dev) : Dev × Reply :=
  if 7 < port then (s, fails 0 rcOutOfRange) else (s, done 0 (pxStatus s port))

/-- PXP_DIAG SHORT_TEST: the pins found shorted come with the command. -/
def pxShortBody (port : Nat) (pins : List Nat) (s : Dev) : Dev × Reply :=
  if 7 < port then (s, fails 0 rcOutOfRange)
  else if s.sys.mode ≠ .service then (s, fails 0 rcWrongMode)
  else
    let s := shortTest port pins s
    (s, done 0 (List.replicate 12 0 ++ leBytes 2 (rg s (R.PXP_SHORT port)).toNat))

/-- PXP_DIAG CLEAR. -/
def pxClearBody (port : Nat) (s : Dev) : Dev × Reply :=
  if 7 < port ∨ (mapAt s port).isNone then (s, fails 0 rcOutOfRange) else (pxClear port s, done 0 [])

/-- PXP_DIAG PROBE_NOW. -/
def pxProbeBody (port : Nat) (s : Dev) : Dev × Reply :=
  if 7 < port then (s, fails 0 rcOutOfRange)
  else if s.sys.mode ≠ .active then (s, fails 0 rcWrongMode)
  else if (mapAt s port).isNone then (s, fails 0 rcOutOfRange)
  else (modMap port (fun m => { m with probeDue := some 0 }) s, done 0 [])

/-! MIGRATE (R324) -/

/-- MIGRATE SWITCH. -/
def migSwitchBody (handle : Word) (frame : Nat) (s : Dev) : Dev × Reply :=
  onHandle 0xD handle (fun k s => answer handle (migSwitch k frame s)) s

/-- MIGRATE ABORT. -/
def migAbortBody (handle : Word) (s : Dev) : Dev × Reply :=
  onHandle 0xD handle (fun k s => answer handle (migAbort k s)) s

end Sys2Proof.Machine
end

