-- ==== Sys2Proof/Machine/Pace.lean ====
section
/-! DEFINITION. What paces the show: RETIME and DOMAIN_SWITCH, frame ticks, bands, and the dispatch of the engines' work (chapters 5 to 8
and 11; R110, R111, R136-R153, R176, R178, R196, R262-R265, R275, R325, R345). -/

namespace Sys2Proof.Machine

/-! RETIME (R149) -/

/-- The timing that a RETIME asks for; `b` from byte 16 on. -/
def retimeOf (b : List Byte) : Timing := timingOf (at_ b 0 4) (at_ b 4 2) (at_ b 6 2) (at_ b 8 1) (at_ b 9 1) (at_ b 10 2) (at_ b 12 1)

/-- The pixel-port timing records that it carries. -/
def retimeMaps (s : Dev) (h : CmdHdr) (b : List Byte) : Except Refuse (List (List Byte)) := do
  let off := at_ b 16 4
  let len := at_ b 20 4
  require (len == 0 || !noArgs h) rcUnsupported
  require (len % 32 == 0 && decide (off + len ≤ argBytes)) rcOutOfRange
  pure (splitRecords 32 (len / 32) (argRead s off len))

/-- The maps of a canvas, by port. -/
def mapsOn (s : Dev) (i : Nat) : List (Nat × PxMap) :=
  s.pxp.ports.filterMap fun e => (e.2.map.filter fun m => m.canvas == i).map fun m => (e.1, m)

/-- Does a timing record fit a map of the canvas: its mode cannot change (R212)? -/
def recordFits (s : Dev) (i : Nat) (r : List Byte) : Bool :=
  match mapAt s (at_ r 0 1) with
  | some m => m.canvas == i && pxTimingOk (at_ r 0 1) r && (pxTimingOf r).mode == m.timing.mode
  | none => false

/-- Other layers that follow a stream of this canvas's layers lie on canvases of the new rate too (R133). -/
def streamsAgree (s : Dev) (i : Nat) (g : Timing) : Bool :=
  (layersOf s i).all fun e =>
    match e.2.source with
    | none => true
    | some k => s.vid.layers.all fun x =>
        x.2.source != some k || x.2.canvas == i ||
          (match canvasAt s x.2.canvas with
          | some c => c.timing.rateNum * g.rateDen == g.rateNum * c.timing.rateDen
          | none => true)

/-- The state as the new timing would leave it, for the checks: the canvas's timing and its maps' timing records. -/
def retimed (s : Dev) (i : Nat) (c : Canvas) (g : Timing) (rs : List (List Byte)) : Dev :=
  rs.foldl (fun s r => modMap (at_ r 0 1) (fun m => { m with timing := pxTimingOf r }) s) (setCanvas i { c with timing := g } s)

/-- The charges of an object at a canvas's new timing; none where the canvas does not pace it. `s` has the timing in force. -/
def retimedCharges (s : Dev) (i : Nat) (c : Canvas) (g : Timing) (key : Nat) (o : HObj) : Option (List (Nat × Nat)) :=
  let k := key % 2 ^ 20
  let rate := (g.rateNum, g.rateDen)
  match key / 2 ^ 20 with
  | 1 => (tget s.outp.fixtures k).bind fun f =>
      if f.canvas = some i ∨ ((tget s.outp.univs f.univ).bind (·.canvas)) = some i then some (fixtureCharges f rate) else none
  | 2 => (tget s.outp.univs k).bind fun u =>
      if u.canvas ≠ some i then none
      else
        some ([(7, perSec 1 rate.1 rate.2 1), (0, perSec (2 * (u.slots + 196)) rate.1 rate.2 1000000)] ++
          (if u.remote then linkCharges s u rate u.valley
           else portCharges u (decide (2 ≤ (o.charges.filter fun e => e.1 == 9 + u.dest).length)) rate))
  | 5 => if k = i then some (canvasCharges c.samples g.rateNum g.rateDen) else none
  | 6 => (tget s.vid.layers k).bind fun l => if l.canvas = i then some (layerCharges s c.samples l.source g) else none
  | 7 => (mapAt s k).bind fun m => if m.canvas = i then some (mapCharges m g) else none
  | _ => none

/-- Every object that a canvas paces, with its charges at the new timing. -/
def retimedAll (s : Dev) (i : Nat) (c : Canvas) (g : Timing) : List (Nat × List (Nat × Nat)) :=
  s.hdl.objs.filterMap fun e => (retimedCharges s i c g e.1 e.2).map fun l => (e.1, l)

/-- The scan-fit and ready checks of the maps at the new timing, by their excess in ns. -/
def retimedFit (s1 : Dev) (i : Nat) (g : Timing) : Except Refuse Unit :=
  let excess := (mapsOn s1 i).map fun e =>
    let fit := fitExcess e.2.timing e.2.c e.2.pixels (fld s1 (F.PXP_DIAG_MIN_ON_NS e.1)) g.rateNum g.rateDen
    if fit = 0 then readyExcess s1 e.2 else fit
  match excess.find? (· != 0) with
  | some n => .error { code := rcOutOfRange, data := leBytes 4 n }
  | none => .ok ()

/-- The checks of a RETIME: its timing, its records, and the charges it brings. -/
def retimeCheck (s : Dev) (h : CmdHdr) (i : Nat) (c : Canvas) (b : List Byte) :
    Except Refuse (Timing × List (List Byte) × List (Nat × List (Nat × Nat))) := do
  let g := retimeOf b
  require (decide (g.rateNum ≠ 0) && g.ok c.height (at_ b 12 1) && at_ b 13 3 == 0) rcOutOfRange
  let rs ← retimeMaps s h b
  require (rs.all (recordFits s i)) rcOutOfRange
  require (commensurate (domAt s c.domain).rec_ g.rateNum g.rateDen && streamsAgree s i g) rcConflict
  let s1 := retimed s i c g rs
  retimedFit s1 i g
  let all := retimedAll s i c g
  let old := all.flatMap fun e => ((objAt s e.1).map (·.charges)).getD []
  let up := increase old (all.flatMap (·.2))
  match if up = [] then [] else shortLines s up with
  | [] => pure ()
  | l => .error (noCapacity l)
  match windowShort s1 i with
  | [] => pure (g, rs, all)
  | l => .error (noCapacity l)

/-- The boundary of a RETIME that starts now: the next tick, or the one that a staged RETIME has already (R149, R150). -/
def retimeBoundary (c : Canvas) : Int :=
  match c.regrid with
  | some r => if r.waiting then r.boundary else c.nextN
  | none => c.nextN

/-- The devices that send universes of a canvas learn its new rate (R149). -/
def tellRates (i : Nat) (s : Dev) : Dev :=
  (s.outp.univs.filter fun e => e.2.canvas == some i && e.2.remote).foldl (fun s e =>
    match tget s.val.uses e.2.handle.toNat with
    | some (l, id) => l.foldl (fun s a => valTell 7 a (.admitMsg id 3 (askFor s e.2 none)) s) s
    | none => s) s

/-- An admitted RETIME is staged. -/
def retimeStage (i : Nat) (c : Canvas) (g : Timing) (rs : List (List Byte)) (all : List (Nat × List (Nat × Nat))) (s : Dev) :
    Dev × List Byte :=
  let b := retimeBoundary c
  let phi := phiOf s c
  let a := g.after phi (tickAt s c b)
  let data := timeBytes (g.at_ (a + (g.lead : Int)) + phi)
  let r : Regrid := { timing := some g, boundary := b, old := c.regrid.bind (·.old), hop := c.regrid.any (·.hop), maps := rs.flatten }
  let s := all.foldl (fun s e =>
    match objAt s e.1 with
    | some o => setObj e.1 { o with charges := e.2 } (chargeAll e.2 (creditAll o.charges s))
    | none => s) s
  let s := abortMigs (fun m => ((tget s.outp.univs m.univ).bind (·.canvas)) == some i) s
  (tellRates i (setCanvas i { c with regrid := some r } s), data)

/-- RETIME. -/
def retimeBody (h : CmdHdr) (handle : Word) (b : List Byte) (s : Dev) : Dev × Reply :=
  onHandle 5 handle (fun i s =>
    match canvasAt s i with
    | none => (s, fails handle rcBadHandle)
    | some c =>
      match retimeCheck s h i c b with
      | .error e => (countRefusal e s, failed handle e)
      | .ok (g, rs, all) =>
        let (s, data) := retimeStage i c g rs all s
        (s, done handle data)) s

/-! DOMAIN_SWITCH (R263) -/

/-- The moves of streams that canvases would break: canvases that share a stream stay on one domain (R133). -/
def switchAgrees (s : Dev) (dest : Nat) (moved : List Nat) : Bool :=
  moved.all fun i => (layersOf s i).all fun e =>
    match e.2.source with
    | none => true
    | some k => s.vid.layers.all fun x =>
        x.2.source != some k || moved.contains x.2.canvas ||
          (match canvasAt s x.2.canvas with
          | some c => c.domain == dest
          | none => true)

/-- T_s of a switch: the first tick at or after the switch time, the next one where that is past. -/
def switchTick (s : Dev) (c : Canvas) (at' : Int) : Int :=
  let n := c.timing.from (phiOf s c) at'
  if n < c.nextN then c.nextN else n

/-- What a switch answers for a canvas: T_s and the carry it would take now. -/
def switchData (s : Dev) (c : Canvas) (dest : Nat) (n : Int) : List Byte :=
  timeBytes (tickAt s c n) ++ leBytes 4 (nsSat (canvasTime s c - domTime s dest))

/-- DOMAIN_SWITCH; `b` from byte 16 on. A canvas already on the domain stays as it is where STEP is clear. -/
def switchBody (handle : Word) (b : List Byte) (s : Dev) : Dev × Reply :=
  let dest := at_ b 0 1
  let flags := at_ b 1 1
  let ppm := at_ b 2 1
  let at' := timeOf (at_ b 8 8) (at_ b 16 4)
  if handle ≠ 0 ∧ !(hKind handle == 5 && (objOf s handle).isSome) then (s, fails handle rcBadHandle)
  else if 1 < dest ∨ 1 < flags ∨ 10 < ppm ∨ at_ b 3 5 ≠ 0 then (s, fails handle rcOutOfRange)
  else
    let named : List Nat :=
      if handle = 0 then (s.vid.canvases.filter fun e => e.2.domain != dest).map (·.1) else [hIndex handle]
    let cs := named.filterMap fun i => (canvasAt s i).map fun c => (i, c)
    let moves := cs.filter fun e => e.2.domain != dest
    if !(switchAgrees s dest (moves.map (·.1)) &&
        moves.all fun e => commensurate (domAt s dest).rec_ e.2.timing.rateNum e.2.timing.rateDen) then
      (s, fails handle rcConflict)
    else
      let data := match cs with
        | [] => []
        | e :: _ => switchData s e.2 dest (switchTick s e.2 at')
      let step := flags == 1
      let s := cs.foldl (fun s e =>
        if e.2.domain = dest ∧ !step then s
        else
          setCanvas e.1 { e.2 with switch := some { dest := dest, step := step, ppm := if ppm = 0 then 10 else ppm, tick := switchTick s e.2 at' } }
            s) s
      (s, done handle data)

/-- SWITCH_DONE (R264): the carry has reached 0. -/
def runSwitchDone (t : Time) (i : Nat) (s : Dev) : Host.Outcome Dev Fault Refusal :=
  let s := upTo t s
  .next (match canvasAt s i with
    | some c =>
      if c.switching ∧ carryNow s c = 0 then
        postTim 3 0x0B i (unsgn 32 (c.nextN - 1)) (setCanvas i { c with switching := false, k0 := 0, ppm := 0 } s)
      else s
    | none => s)

/-! Frame ticks (R274, R275) -/

/-- Has a channel reached its first frame (R79): `tick` is T_N of the frame latched now? -/
def reachedAt (s : Dev) (o : HObj) (tick : Int) : Bool := o.state == 2 && decide ((o.startAt : Int) ≤ tick ∧ o.startCmd ≤ s.raw)

/-- Does the show run: in ACTIVE, unless a handover has stopped it (R352)? -/
def showRuns (s : Dev) : Bool := s.sys.mode == .active && !handoverStops s

/-- A universe repeats its last payload for frame `f` (R40, R72, R196). -/
def repeatUniv (i : Nat) (u : Univ) (f : Int) (s : Dev) : Dev :=
  if u.payFrame.isSome && outputsOn s then sendLocal i f false u.payload s else s

/-- The tasks of a canvas without a point in a running pass have both flags at once; so have all where no pass runs (R176). -/
def latchFlags (s : Dev) (c : Canvas) (task : Nat) (f : Int) : Nat :=
  if (c.pass.any fun p => p.frame == f) && (lastBand s c task).isSome then 2 else 6

/-- The latch of frame `f` in a show-class universe. -/
def latchUniv (c : Canvas) (f : Int) (i : Nat) (s : Dev) : Dev :=
  match tget s.outp.univs i, objAt s (okey 2 i) with
  | some u, some o =>
    if migGone s i f then s
    else if o.state = 4 ∨ (o.state = 2 ∧ s.sys.mode = .hold) then repeatUniv i u f s
    else if showRuns s && reachedAt s o (tickAt s c f) then
      postFlags i (latchFlags s c i f) { s with outp.univs := tput s.outp.univs i { u with frame := f, latchAt := s.raw } }
    else s
  | _, _ => s

/-- The latch of frame `f` in a pixel-port map. -/
def latchMap (c : Canvas) (f : Int) (port : Nat) (s : Dev) : Dev :=
  match mapAt s port, objAt s (okey 7 port) with
  | some m, some o =>
    if showRuns s && reachedAt s o (tickAt s c f) then
      postFlags (40984 + port) (latchFlags s c (40984 + port) f) (setPx port { pxAt s port with map := some { m with frame := f } } s)
    else s
  | _, _ => s

/-- Universes and maps of a canvas, by index. -/
def univsOn (s : Dev) (i : Nat) : List Nat := (s.outp.univs.filter fun e => e.2.canvas == some i && e.2.cls == 0).map (·.1)

/-- Migrations of a canvas's universes move on at a tick. -/
def migTicks (i : Nat) (latch n : Int) (s : Dev) : Dev := (univsOn s i).foldl (fun s k => migTick k latch n s) s

/-- The pass of frame `f` starts at tick `n` (R136, R153). -/
def tickPass (i : Nat) (c : Canvas) (n f : Int) (s : Dev) : Dev :=
  match objAt s (okey 5 i) with
  | some o => if showRuns s && reachedAt s o (tickAt s c f) then startPass i n s else skipPass i s
  | none => skipPass i s

/-- What a port that owes no sync shows for the frame that ends now. -/
def noSync (i : Nat) (n : Int) (s : Dev) : Dev :=
  let ports := ((s.outp.univs.filter fun e => e.2.canvas == some i && e.2.mode == 0 && !e.2.remote && !e.2.dmx).map fun e => e.2.dest).eraseDups
  ports.foldl (fun s p =>
    if (portAt s p).syncN == some n || (portAt s p).syncFor.any fun x => x.1 == i && x.2.1 == n then s else setFld (F.PKT_TXP_SLACK_LAST_US p) 0 s) s

/-- A tick that presents frame `n` and latches frame `f`. -/
def latchTick (i : Nat) (n f : Int) (s : Dev) : Dev :=
  match canvasAt s i with
  | none => s
  | some c =>
    let pace := (pacing s).any fun e => e.1 == i
    let s := if pace then handoverTick f n s else s
    let s := if pace && f % (s.red.k : Int) == 0 then ckptTick f s else s
    let s := tickPass i c n f s
    let s := migTicks i f n s
    match canvasAt s i with
    | none => s
    | some c =>
      let s := (univsOn s i).foldl (fun s k => latchUniv c f k s) s
      let s := (mapsOn s i).foldl (fun s e => latchMap c f e.1 s) s
      let s := if c.blank then s else clearGhosts (sendTerms i n s)
      noSync i n (countHeld i s)

/-! The grid is left (R150, R265) -/

/-- Every universe of the canvas sends one packet of zero slots in the blank frame, with its sync (R150 step 4′). -/
def sendZeros (i : Nat) (o : OldGrid) (s : Dev) : Dev :=
  (univsOn s i).foldl (fun s k =>
    match tget s.outp.univs k with
    | some u =>
      if !isLive s (okey 2 k) then s
      else if u.remote then sendPayload k o.last false (List.replicate u.slots 0) s
      else sendShow k i o.last (o.at_ (o.last - 1)) (o.at_ o.last) (o.at_ (o.last + 1)) false (List.replicate u.slots 0) s
    | none => s) s

/-- What a tick of the grid that is left still sends and counts: the terminations of universes that have ended, and its output tick. -/
def oldEnds (i : Nat) (n : Int) (o : OldGrid) (s : Dev) : Dev :=
  if n + 1 < o.last then countHeld i (clearGhosts (sendTerms i n s)) else s

/-- Does the blank send zeros: by the RETIME's own flag, or the timing in force. -/
def Regrid.zeros (r : Regrid) (c : Canvas) : Bool := (r.timing.getD c.timing).blankSend

/-- The tick at which the grid is left: no pass starts, the new grid's ticks are counted from here on, and the frames latched before are
still presented on the old one. `hop`: the new grid is that of the canvas's domain without its carry. -/
def leaveGrid (i : Nat) (n : Int) (c : Canvas) (r : Regrid) (o : OldGrid) (hop : Bool) (s : Dev) : Dev :=
  let g := r.timing.getD c.timing
  let phi := phiOf s c
  let t := if hop then o.at_ n - carryNow s c else o.at_ n
  let r' : Regrid := { r with boundary := n, waiting := false, old := some o, first := none, hop := hop }
  let blank := c.blank || c.pendingGrid.isSome
  let c' : Canvas := { c with timing := g, nextN := g.after phi t, phis := List.replicate 5 phi, regrid := some r', blank := blank }
  let s := skipPass i (setCanvas i c' s)
  let s := (splitRecords 32 (r.maps.length / 32) r.maps).foldl (fun s x =>
    modMap (at_ x 0 1) (fun m => { m with nextTiming := some (pxTimingOf x), locate := [] }) s) s
  let s := oldEnds i n o (migTicks i (n + (o.timing.lead : Int) - 1) n s)
  if o.last = n + 1 ∧ r.zeros c ∧ outputsOn s then sendZeros i o s else s

/-- A tick of the old grid: a frame latched before is presented, or the blank begins. -/
def oldTick (i : Nat) (c : Canvas) (r : Regrid) (o : OldGrid) (s : Dev) : Dev :=
  let n := o.next
  let o' := { o with next := n + 1 }
  let s := setCanvas i { c with regrid := some { r with old := some o' }, blank := c.blank || n == o.last } s
  let s := oldEnds i n o (migTicks i (o.last - 1) n s)
  if n + 1 = o.last ∧ r.zeros c ∧ outputsOn s then sendZeros i o s else s

/-- The domain of a canvas changes at T_s (R263): its time goes on from where it stands, as the carry. -/
def takeSwitch (i : Nat) (n : Int) (c : Canvas) (w : Switch) (s : Dev) : Dev :=
  let k := canvasTime s c - domTime s w.dest
  let c' : Canvas := { c with domain := w.dest, k0 := k, kAt := domTime s w.dest, ppm := if w.step then 0 else w.ppm,
                              switching := !w.step && k != 0, switch := none }
  let s := setCanvas i c' s
  if !w.step ∧ k = 0 then postTim 3 0x0B i (unsgn 32 n) s else s

/-- The first tick of the new grid: a stepped switch drops its carry there (R265). -/
def firstTick (i : Nat) (n : Int) (c : Canvas) (r : Regrid) (s : Dev) : Dev :=
  let k := carryNow s c
  let r' : Regrid := { r with first := some n, hop := false, old := if r.hop then r.old.map fun o => { o with shift := o.shift - k } else r.old }
  if r.hop then
    postTim 3 0x0B i (unsgn 32 n)
      (setCanvas i { c with regrid := some r', k0 := 0, kAt := domTime s c.domain, ppm := 0, switching := false } s)
  else setCanvas i { c with regrid := some r' } s

/-- The first presentation on the new grid (R150 step 6). -/
def firstShown (i : Nat) (n : Int) (c : Canvas) (r : Regrid) (s : Dev) : Dev :=
  let s := setCanvas i { c with regrid := none, blank := false } s
  if r.timing.isSome then postRas 0x03 i (unsgn 32 n) s else s

/-- Tick `n` of the grid in force fires. -/
def newTick (i : Nat) (c : Canvas) (s : Dev) : Dev :=
  let n := c.nextN
  let at' := tickAt s c n
  let o : OldGrid := { timing := c.timing, next := n + 1, last := n + (c.timing.lead : Int), shift := at' - c.timing.at_ n }
  let c : Canvas := { c with nextN := n + 1, phis := c.phis.drop 1 ++ [phiOf s c] }
  let w : Option Switch := c.switch.filter fun w => w.tick == n
  let s := match w with
    | some w => takeSwitch i n c w s
    | none => setCanvas i c s
  match canvasAt s i with
  | none => s
  | some c =>
    let step : Bool := w.any fun x => x.step
    match c.regrid with
    | some r =>
      if step || (r.waiting && r.boundary == n) then leaveGrid i n c r o (step || r.hop) s
      else if r.waiting then latchTick i n (n + (c.timing.lead : Int)) s
      else
        let s := match r.first with
          | none => firstTick i n c r s
          | some a => if n = a + (c.timing.lead : Int) then firstShown i n c r s else s
        latchTick i n (n + (c.timing.lead : Int)) s
    | none =>
      if step then leaveGrid i n c { timing := none, boundary := n } o true s else latchTick i n (n + (c.timing.lead : Int)) s

/-- The tick that falls due next fires, where its instant has come to within 5 ns. -/
def fireTick (i : Nat) (s : Dev) : Dev :=
  match canvasAt s i with
  | none => s
  | some c =>
    let now := canvasTime s c + (ns 5 : Nat)
    let new := tickAt s c c.nextN
    match c.pendingGrid, c.regrid with
    | some o, some r =>
      if o.at_ o.next ≤ new then (if o.at_ o.next ≤ now then oldTick i c r o s else s)
      else if new ≤ now then newTick i c s else s
    | _, _ => if new ≤ now then newTick i c s else s

/-- FRAME_TICK (R275): ticks run in every mode from CONFIGURE on. -/
def runFrameTick (t : Time) (i : Nat) (s : Dev) : Host.Outcome Dev Fault Refusal :=
  let s := upTo t s
  .next (if timeRuns s then startDue (fireTick i s) else s)

/-! Bands (R138, R145, R151) -/

/-- BAND_WRITTEN (R145): `bad`: a double-bit error in the band's buffer, which counts as an underrun (R103). -/
def runBandWritten (t : Time) (i : Nat) (bad : Bool) (s : Dev) : Host.Outcome Dev Fault Refusal :=
  let s := upTo t s
  .next (match canvasAt s i with
    | some c =>
      match c.pass with
      | some p =>
        if c.timing.bands ≤ p.band then s
        else if bad then postBands i none (abortPass i c p (spmLost 0x70000 262144 s))
        else postBands i (some p.band) (writeBand i c p s)
      | none => s
    | none => s)

/-! Dispatch (R110, R176) -/

/-- The fixture of a universe whose table has a double-bit error repeats its previous frame (R103). -/
def repeatFixture (i : Nat) (f : Fixture) (n : Int) (s : Dev) : Dev × List (Nat × Byte) :=
  match objAt s (okey 1 i) with
  | some o =>
    if o.state ≠ 1 then
      (keepFixture i { f with prev := f.last, lastFrame := some n, repeated := true } (spmLost 0xB0000 196608 s), f.last)
    else (s, [])
  | none => (s, [])

/-- The slots of a universe, fixtures in `tables` left at their previous frame. -/
def computeUniv (i slots : Nat) (n tick : Int) (latch : Time) (tables : List Nat) (s : Dev) : Dev × List Byte :=
  let mine := fixturesOf s i
  let (s, l) := mine.foldl (fun (a : Dev × List (Nat × Byte)) e =>
    let (s, x) := if tables.contains e.1 then repeatFixture e.1 e.2 n a.1 else runFixture e.1 e.2 n tick latch a.1
    (s, a.2 ++ x)) (s, ([] : List (Nat × Byte)))
  (workDone (mine.map fun e => e.2.units).sum s, gatherSlots slots l)

/-- The dispatch of a show-class universe: its payload of the latched frame is written and goes on to its port. -/
def showWork (i : Nat) (u : Univ) (tables : List Nat) (s : Dev) : Dev :=
  match u.canvas.bind (canvasAt s) with
  | none => s
  | some c =>
    let (s, slots) := computeUniv i u.slots u.frame (shownAt s c u.frame) u.latchAt tables s
    let keep (v : Univ) : Univ := { v with prev := v.payload, payload := slots, payFrame := some u.frame }
    sendLocal i u.frame false slots { s with outp.univs := tmod s.outp.univs i keep }

/-- The work that an engine does in a dispatch of a task: `seen` and `item` are what it was handed. -/
def engineWork (n seen : Nat) (item : Option Nat) (tables : List Nat) (s : Dev) : Dev :=
  if n < 32768 then
    match tget s.outp.univs n with
    | some u => if u.cls = 1 then siteUnivWork n s else showWork n u tables s
    | none => s
  else if 36864 ≤ n ∧ n < 40960 then zoneWork (n - 36864) seen item s
  else if 40984 ≤ n ∧ n < 40992 then
    match mapAt s (n - 40984) with
    | some m => mapWork (n - 40984) m.frame s
    | none => s
  else s

/-- TASK_DISPATCH (R110): the head task of an engine's highest level is handed over and its work done; TASK_COMPLETE frees the executor.
`lost`: a double-bit error in the task's word or item, which is lost; `tables`: fixtures whose tables have one (R103). The engines stand
still in HOLD. -/
def runTaskDispatch (t : Time) (engine : Nat) (lost : Bool) (tables : List Nat) (s : Dev) : Host.Outcome Dev Fault Refusal :=
  let s := upTo t s
  .next (if s.sys.mode = .hold then s
    else
      let s1 := dispatchNext engine (s.sch.tasks.length + 1) s
      match s1.sch.handed.find? fun e => !thas s.sch.handed e.1 with
      | none => s1
      | some (n, seen, item) => if lost then spmLost 0x40000 65536 s1 else engineWork n seen item tables s1)

/-- TASK_COMPLETE (R110, R111). -/
def runTaskComplete (t : Time) (n : Nat) (s : Dev) : Host.Outcome Dev Fault Refusal :=
  .next (schComplete n (upTo t s))

end Sys2Proof.Machine
end

