-- ==== Sys2Proof/Machine/Run.lean ====
section
/-! DEFINITION. Command entries: from the command ring and from MGT datagrams to their meanings, and the rows of the commands
themselves (chapter 3, R52-R59; R55 for the gate before CONFIGURE). -/

namespace Sys2Proof.Machine

/-! Entries -/

/-- A command as its entry spells it: its opcode, its handle (0 where it names none), its flags and tag, its arguments. -/
structure Entry where
  op : Nat
  handle : Word
  hdr : CmdHdr
  args : List Byte

/-- The arguments of CREATE and ADMIT_CHECK; `b` is the ARGS area, from byte 16 on. -/
def createArgs (b : List Byte) : CreateArgs :=
  { kind := at_ b 0 1, cls := at_ b 1 1, prio := at_ b 2 1, anyIndex := bit (at_ b 3 1) 0, start := bit (at_ b 3 1) 1,
    index := at_ b 4 4, secs := at_ b 8 8, nanos := at_ b 16 4, recOff := at_ b 24 4, recLen := at_ b 28 4 }

/-- An opcode that is not in the table (R59). -/
def unsupported (handle : Word) (s : Dev) : Dev × Reply := (s, fails handle rcUnsupported)

/-- An operation or a test that a command does not have. -/
def outOfRange (handle : Word) (s : Dev) : Dev × Reply := (s, fails handle rcOutOfRange)

/-- What a physical test finds, as free bits (log 34): the numbers below `n` whose bit is set. -/
def freeBits (n : Nat) (s : Dev) : Dev × List Nat := (drawn s, (List.range n).filter fun i => bit (Config.freeNat s.free) i)

/-- The pages of the free list whose test fails, as free bits. -/
def freePagesBad (s : Dev) : Dev × List Nat :=
  (drawn s, (s.pln.free.flatMap fun e => (List.range e.2).map (e.1 + ·)).filter fun p => bit (Config.freeNat s.free) p)

/-- PXP_DIAG by its operation byte. -/
def pxpDiagBody (b : List Byte) (s : Dev) : Dev × Reply :=
  let port := at_ b 0 1
  match at_ b 1 1 with
  | 0 => pxStatusBody port s
  | 1 =>
    let (s, pins) := freeBits 11 s
    pxShortBody port pins s
  | 2 => pxClearBody port s
  | 3 => pxProbeBody port s
  | _ => outOfRange 0 s

/-- MIGRATE by its operation byte. -/
def migrateBody (handle : Word) (b : List Byte) (s : Dev) : Dev × Reply :=
  match at_ b 0 1 with
  | 0 => migSwitchBody handle (at_ b 8 8) s
  | 1 => migAbortBody handle s
  | _ => outOfRange handle s

/-- HANDOVER by its operation byte. -/
def handoverBody (h : CmdHdr) (b : List Byte) (s : Dev) : Dev × Reply :=
  match at_ b 0 1 with
  | 0 => handoverStart h b s
  | 1 => handoverCancel s
  | _ => outOfRange 0 s

/-- BIST by its test byte. -/
def bistBody (b : List Byte) (s : Dev) : Dev × Reply :=
  match at_ b 0 1 with
  | 0 =>
    let (s, l) := freeBits 16 s
    bistSpm l s
  | 1 =>
    let (s, l) := freePagesBad s
    bistPlain l s
  | 2 =>
    let (s, l) := freeBits 176 s
    bistPins (l.map fun i => (i / 16, i % 16)) s
  | _ => outOfRange 0 s

/-- Does an opcode name a handle (R59)? -/
def opHandled (op : Nat) : Bool :=
  op == 1 || (decide (0x11 ≤ op) && decide (op ≤ 0x15)) || (decide (0x100 ≤ op) && decide (op ≤ 0x101)) ||
    (decide (0x200 ≤ op) && decide (op ≤ 0x202)) || (decide (0x300 ≤ op) && decide (op ≤ 0x303)) || op == 0x500 || op == 0x800

/-- Opcodes below 0x100. -/
def basicBody (op : Nat) (h : CmdHdr) (handle : Word) (b : List Byte) : Dev → Dev × Reply :=
  match op with
  | 0x00 => nopBody
  | 0x01 => queryBody handle
  | 0x02 => regReadBody (at_ b 0 4) (at_ b 4 1)
  | 0x03 => regWriteBody (at_ b 0 4) (BitVec.ofNat 32 (at_ b 4 4)) (BitVec.ofNat 32 (at_ b 8 4))
  | 0x04 => setModeBody h (at_ b 0 1)
  | 0x05 => ledgerBody (at_ b 0 1)
  | 0x06 => governorBody (at_ b 0 2)
  | 0x10 => createBody h (createArgs b)
  | 0x11 => destroyBody handle
  | 0x12 => modifyBody h handle (at_ b 24 4) (at_ b 28 4)
  | 0x13 => startBody handle (at_ b 8 8) (at_ b 16 4) (bit (at_ b 20 1) 0)
  | 0x14 => stopBody handle
  | 0x15 => priorityBody handle (at_ b 2 1)
  | 0x16 => checkBody h (createArgs b)
  | _ => unsupported handle

/-- The meaning of an opcode on its handle and arguments. -/
def opBody (op : Nat) (h : CmdHdr) (handle : Word) (b : List Byte) : Dev → Dev × Reply :=
  match op with
  | 0x100 => commitBody h handle b
  | 0x101 => retimeBody h handle b
  | 0x200 => armBody handle b
  | 0x201 => cancelBody handle
  | 0x202 => switchBody handle b
  | 0x300 => flushBody handle
  | 0x301 => markBody handle
  | 0x302 => rewindBody handle
  | 0x303 => releaseBody handle (at_ b 0 4) (bit (at_ b 4 1) 0)
  | 0x400 => pxpDiagBody b
  | 0x500 => migrateBody handle b
  | 0x600 => handoverBody h b
  | 0x700 => norRead h (at_ b 0 4) (at_ b 4 4) (at_ b 8 4)
  | 0x701 => norErase h (at_ b 0 4) (at_ b 4 4)
  | 0x702 => norProgram h (at_ b 0 4) (at_ b 4 4) (at_ b 8 4)
  | 0x703 => updOpen h b
  | 0x704 => updRefresh h
  | 0x705 => updWrite h b
  | 0x706 => updVerify h
  | 0x707 => updActivate h
  | 0x708 => updConfirm h
  | 0x709 => updClose h
  | 0x800 => chkRun h handle b
  | 0x801 => recalibrate (at_ b 0 1) (at_ b 1 1) []
  | 0x802 => bistBody b
  | n => basicBody n h handle b

/-- Is it the SET_MODE to CONFIGURE, which starts as if FENCE were set (R55)? -/
def toConfigure (op target : Nat) : Bool := op == 4 && target == Mode.configure.code

/-- The 64 bytes of an entry (R56), from a source, at a position. -/
def entryOf (src : CmdSrc) (slot : Nat) (e : List Byte) : Entry :=
  let op := at_ e 0 2
  let handle : Word := if opHandled op then BitVec.ofNat 32 (at_ e 8 4) else 0
  let h : CmdHdr := { src := src, slot := slot, fence := bit (at_ e 2 1) 0, irq := bit (at_ e 2 1) 1, tag := BitVec.ofNat 32 (at_ e 4 4) }
  { op := op, handle := handle, hdr := h, args := e.drop 16 }

/-- The meaning of an entry. -/
def bodyOf (x : Entry) : Dev → Dev × Reply := opBody x.op x.hdr x.handle x.args

/-- An entry's header with FENCE where it waits as with FENCE. -/
def entryFence (x : Entry) : CmdHdr := { x.hdr with fence := x.hdr.fence || toConfigure x.op (at_ x.args 0 1) }

/-! The sources -/

/-- The entry at the head of the command ring. -/
def ringEntry (s : Dev) : Option Entry :=
  let head := fld s F.HDL_CMD_HEAD_HEAD
  if !cmdUp s ∨ head = fld s F.HDL_CMD_TAIL_TAIL then none
  else
    some (entryOf .pcie head (relRead s ringKey (64 * head) 64))

/-- The first MGT datagram with an entry that has not started, and that entry. -/
def mgtEntry (s : Dev) : Option (MgtReq × Entry) :=
  match s.cmd.mgt.find? fun m => !m.todo.isEmpty with
  | some m =>
    match m.todo with
    | (k, e) :: _ => some (m, entryOf (.mgt m.ip m.port) k e)
    | [] => none
  | none => none

/-- Once the gate of R55 stands, what MGT still holds is not fetched: the rest of the datagram is answered nowhere, and a datagram
behind it is dropped and counted. -/
def closeGate (s : Dev) : Dev :=
  match s.sys.gate with
  | none => s
  | some _ =>
    let behind := s.cmd.mgt.filter fun m => m.open_.isEmpty && m.done.isEmpty
    let s := behind.foldl (fun s _ => bump R.HDL_MGT_DROPS s) s
    { s with cmd.mgt := s.cmd.mgt.filterMap fun m => if m.open_.isEmpty then none else some { m with todo := [] } }

/-- Start the entry at the head of the command ring. -/
def startRing (x : Entry) (s : Dev) : Dev :=
  let s := setFld F.HDL_CMD_HEAD_HEAD ((fld s F.HDL_CMD_HEAD_HEAD + 1) % 4096) s
  closeGate (serve x.hdr x.op x.handle (bodyOf x) s)

/-- Start an entry of a datagram. A SET_MODE to CONFIGURE that is accepted ends its datagram (R55). -/
def startDatagram (m : MgtReq) (x : Entry) (s : Dev) : Dev :=
  let m' := { m with todo := m.todo.tail, open_ := m.open_ ++ [x.hdr.slot] }
  let s := { s with cmd.mgt := s.cmd.mgt.map fun y => if y = m then m' else y }
  let gated (s : Dev) : Dev × Reply :=
    let (s, r) := bodyOf x s
    (if s.sys.gate.isSome then { s with cmd.mgt := s.cmd.mgt.map fun y => if y = m' then { m' with todo := [] } else y } else s, r)
  closeGate (serve x.hdr x.op x.handle gated s)

/-- Start the next entry of the command ring, if it may. -/
def pumpRing (s : Dev) : Dev :=
  match ringEntry s with
  | some x => if cmdFree s (entryFence x) x.handle ∧ cmpRoom s then startRing x s else s
  | none => s

/-- Start the next MGT entry, if it may. -/
def pumpMgt (s : Dev) : Dev :=
  match mgtEntry s with
  | some (m, x) => if cmdFree s (entryFence x) x.handle then startDatagram m x s else s
  | none => s

/-- Start the entries of both sources, one of each in turn. -/
def pumpN : Nat → Dev → Dev
  | 0, s => s
  | n + 1, s => pumpN n (pumpMgt (pumpRing s))

/-- Entries that wait. -/
def waiting (s : Dev) : Nat :=
  (fld s F.HDL_CMD_TAIL_TAIL + 4096 - fld s F.HDL_CMD_HEAD_HEAD) % 4096 + (s.cmd.mgt.map fun m => m.todo.length).sum

/-- Every command that waits and may start starts. -/
def pump (s : Dev) : Dev := pumpN (waiting s) s

/-! Rows of the rings and of MGT -/

/-- CMD_DOORBELL (R53). -/
def runCmdDoorbell (t : Time) (value : Word) (s : Dev) : Host.Outcome Dev Fault Refusal :=
  let s := upTo t s
  .next (if pcieUp s && bar0Writable s R.HDL_CMD_TAIL then pump (writeReg R.HDL_CMD_TAIL value s) else s)

/-- CMP_HEAD_WRITE (R54). -/
def runCmpHeadWrite (t : Time) (value : Word) (s : Dev) : Host.Outcome Dev Fault Refusal :=
  let s := upTo t s
  .next (if pcieUp s && bar0Writable s R.HDL_CMP_HEAD then pump (writeReg R.HDL_CMP_HEAD value s) else s)

/-- Is a datagram on port 49731 well formed (R58)? -/
def mgtWellFormed (b : List Byte) : Bool :=
  at_ b 0 1 == 1 && decide (1 ≤ at_ b 1 1) && decide (at_ b 1 1 ≤ 16) && b.length == 4 + 64 * at_ b 1 1

/-- Positions that an entry of a datagram stands at or has been started at. -/
def MgtReq.slots (m : MgtReq) : List Nat := m.todo.map (·.1) ++ m.open_

/-- The request that a datagram makes. Its positions count from a multiple of 16 above those in use, so that the entries of two
datagrams stay apart; SLOT shows the position in the datagram. -/
def mgtRequest (s : Dev) (ip port : Nat) (b : List Byte) : MgtReq :=
  let n := at_ b 1 1
  let base := 16 * ((s.cmd.mgt.flatMap MgtReq.slots).foldl (fun k x => max k (x / 16 + 1)) 0)
  { ip := ip, port := port, seq := at_ b 2 2, total := n, todo := ((List.range n).map (base + ·)).zip (splitRecords 64 n (b.drop 4)),
    open_ := [], done := [] }

/-- A datagram on port 49731: dropped and counted where it is not well formed or comes after the SET_MODE of R55; a host that is not
listed is not heard. -/
def mgtRx (ip port : Nat) (b : List Byte) (s : Dev) : Dev :=
  if !mgtWellFormed b ∨ s.sys.gate.isSome then bump R.HDL_MGT_DROPS s
  else if mgtHost s ip then pump { s with cmd.mgt := s.cmd.mgt ++ [mgtRequest s ip port b] }
  else s

/-- MGT_COMMAND_DATAGRAM (R58). -/
def runMgtCommandDatagram (t : Time) (ip port : Nat) (b : List Byte) (s : Dev) : Host.Outcome Dev Fault Refusal :=
  let s := upTo t s
  .next (if cmdUp s && (portAt s 16).link == 2 then mgtRx ip port b s else s)

/-- The vector that is owed once its 10 µs have passed (R56). -/
def vectorPacing (s : Dev) : Dev :=
  match s.hdl.vec0Last with
  | some v => if s.hdl.vec0Owed ∧ v + us 10 ≤ s.raw then emit (.msix 0) { s with hdl.vec0Last := some s.raw, hdl.vec0Owed := false } else s
  | none => s

/-- COMPLETION_VECTOR_PACING (R56). -/
def runCompletionVectorPacing (t : Time) (s : Dev) : Host.Outcome Dev Fault Refusal := .next (vectorPacing (upTo t s))

/-- REGISTER_WRITE (R8). A command that now may start starts. -/
def runRegisterWrite (t : Time) (off : Nat) (value : Word) (s : Dev) : Host.Outcome Dev Fault Refusal :=
  let s := upTo t s
  if 0x1000000 ≤ off then .fault .outsideBar0
  else .next (if pcieUp s && bar0Writable s off then pump (writeReg off value s) else s)

/-- VALLEY_PACKET_RX (R311). -/
def runValleyPacketRx (t : Time) (l : Nat) (pkt : VPkt) (s : Dev) : Host.Outcome Dev Fault Refusal :=
  .next (pump (valRx l pkt (upTo t s)))

/-- ADMIT_TIMEOUT (R318): 10 ms. -/
def runAdmitTimeout (t : Time) (s : Dev) : Host.Outcome Dev Fault Refusal :=
  .next (pump (admitTimeouts refuseMig (upTo t s)))

/-- NOR_OPERATION_DONE (R359). -/
def runNorOperationDone (t : Time) (s : Dev) : Host.Outcome Dev Fault Refusal := .next (pump (norOpDone (upTo t s)))

/-- NOR_TIMEOUT (R359). -/
def runNorTimeout (t : Time) (s : Dev) : Host.Outcome Dev Fault Refusal := .next (pump (norOpTimeout (upTo t s)))

/-- CHK_SCAN_DONE (R393). -/
def runChkScanDone (t : Time) (n : Nat) (bad : Option Nat) (s : Dev) : Host.Outcome Dev Fault Refusal :=
  .next (pump (scanEnd n bad (upTo t s)))

/-- CHK_ABORT (R396): a write of CHK.CHn_CTRL. -/
def runChkAbort (t : Time) (n : Nat) (value : Word) (s : Dev) : Host.Outcome Dev Fault Refusal :=
  let s := upTo t s
  .next (if n < 8 ∧ pcieUp s ∧ bar0Writable s (R.CHK_CH_CTRL n) then pump (writeReg (R.CHK_CH_CTRL n) value s) else s)

/-! The commands themselves -/

/-- The row of a command: it starts now, or, where it cannot, nothing happens (log 3). -/
def row (t : Time) (h : CmdHdr) (op : Nat) (handle : Word) (body : Dev → Dev × Reply) (s : Dev) :
    Host.Outcome Dev Fault Refusal :=
  .next (command h op handle body (upTo t s))

/-- NOP (R59). -/
def runNop (t : Time) (h : CmdHdr) (s : Dev) : Host.Outcome Dev Fault Refusal :=
  row t h 0x0 0 (nopBody) s

/-- QUERY (R59). -/
def runQuery (t : Time) (h : CmdHdr) (handle : Word) (s : Dev) : Host.Outcome Dev Fault Refusal :=
  row t h 0x1 handle (queryBody handle) s

/-- REG_READ (R63). -/
def runRegRead (t : Time) (h : CmdHdr) (off : Nat) (count : Nat) (s : Dev) : Host.Outcome Dev Fault Refusal :=
  row t h 0x2 0 (regReadBody off count) s

/-- REG_WRITE (R63). -/
def runRegWrite (t : Time) (h : CmdHdr) (off : Nat) (value : Word) (mask : Word) (s : Dev) : Host.Outcome Dev Fault Refusal :=
  row t h 0x3 0 (regWriteBody off value mask) s

/-- SET_MODE (R37, R38, R55): to CONFIGURE it starts as if FENCE were set. -/
def runSetMode (t : Time) (h : CmdHdr) (target : Nat) (s : Dev) : Host.Outcome Dev Fault Refusal :=
  let s := upTo t s
  let ok := cmdMayStart s { h with fence := h.fence || toConfigure 4 target } 0
  .next (if ok then closeGate (serve h 4 0 (setModeBody h target) s) else s)

/-- LEDGER_READ (R59). -/
def runLedgerRead (t : Time) (h : CmdHdr) (line : Nat) (s : Dev) : Host.Outcome Dev Fault Refusal :=
  row t h 0x5 0 (ledgerBody line) s

/-- GOVERNOR_SET (R59). -/
def runGovernorSet (t : Time) (h : CmdHdr) (target : Nat) (s : Dev) : Host.Outcome Dev Fault Refusal :=
  row t h 0x6 0 (governorBody target) s

/-- CREATE (R61). -/
def runCreate (t : Time) (h : CmdHdr) (args : CreateArgs) (s : Dev) : Host.Outcome Dev Fault Refusal :=
  row t h 0x10 0 (createBody h args) s

/-- DESTROY (R50). -/
def runDestroy (t : Time) (h : CmdHdr) (handle : Word) (s : Dev) : Host.Outcome Dev Fault Refusal :=
  row t h 0x11 handle (destroyBody handle) s

/-- MODIFY (R62). -/
def runModify (t : Time) (h : CmdHdr) (handle : Word) (off : Nat) (len : Nat) (s : Dev) : Host.Outcome Dev Fault Refusal :=
  row t h 0x12 handle (modifyBody h handle off len) s

/-- START (R79). -/
def runStart (t : Time) (h : CmdHdr) (handle : Word) (secs : Nat) (nanos : Nat) (now : Bool) (s : Dev) : Host.Outcome Dev Fault Refusal :=
  row t h 0x13 handle (startBody handle secs nanos now) s

/-- STOP (R49). -/
def runStop (t : Time) (h : CmdHdr) (handle : Word) (s : Dev) : Host.Outcome Dev Fault Refusal :=
  row t h 0x14 handle (stopBody handle) s

/-- SET_PRIORITY (R62). -/
def runSetPriority (t : Time) (h : CmdHdr) (handle : Word) (prio : Nat) (s : Dev) : Host.Outcome Dev Fault Refusal :=
  row t h 0x15 handle (priorityBody handle prio) s

/-- ADMIT_CHECK (R69). -/
def runAdmitCheck (t : Time) (h : CmdHdr) (args : CreateArgs) (s : Dev) : Host.Outcome Dev Fault Refusal :=
  row t h 0x16 0 (checkBody h args) s

/-- LAYER_COMMIT (R146). -/
def runLayerCommit (t : Time) (h : CmdHdr) (handle : Word) (args : List Byte) (s : Dev) : Host.Outcome Dev Fault Refusal :=
  row t h 0x100 handle (commitBody h handle args) s

/-- RETIME (R149). -/
def runRetime (t : Time) (h : CmdHdr) (handle : Word) (args : List Byte) (s : Dev) : Host.Outcome Dev Fault Refusal :=
  row t h 0x101 handle (retimeBody h handle args) s

/-- ACTION_ARM (R283). -/
def runActionArm (t : Time) (h : CmdHdr) (handle : Word) (args : List Byte) (s : Dev) : Host.Outcome Dev Fault Refusal :=
  row t h 0x200 handle (armBody handle args) s

/-- ACTION_CANCEL (R283). -/
def runActionCancel (t : Time) (h : CmdHdr) (handle : Word) (s : Dev) : Host.Outcome Dev Fault Refusal :=
  row t h 0x201 handle (cancelBody handle) s

/-- DOMAIN_SWITCH (R263). -/
def runDomainSwitch (t : Time) (h : CmdHdr) (handle : Word) (args : List Byte) (s : Dev) : Host.Outcome Dev Fault Refusal :=
  row t h 0x202 handle (switchBody handle args) s

/-- RING_FLUSH (R121). -/
def runRingFlush (t : Time) (h : CmdHdr) (handle : Word) (s : Dev) : Host.Outcome Dev Fault Refusal :=
  row t h 0x300 handle (flushBody handle) s

/-- RING_MARK (R120). -/
def runRingMark (t : Time) (h : CmdHdr) (handle : Word) (s : Dev) : Host.Outcome Dev Fault Refusal :=
  row t h 0x301 handle (markBody handle) s

/-- RING_REWIND (R120). -/
def runRingRewind (t : Time) (h : CmdHdr) (handle : Word) (s : Dev) : Host.Outcome Dev Fault Refusal :=
  row t h 0x302 handle (rewindBody handle) s

/-- RING_RELEASE (R120). -/
def runRingRelease (t : Time) (h : CmdHdr) (handle : Word) (count : Nat) (allRead : Bool) (s : Dev) : Host.Outcome Dev Fault Refusal :=
  row t h 0x303 handle (releaseBody handle count allRead) s

/-- PXP_DIAG_STATUS (R233). -/
def runPxpDiagStatus (t : Time) (h : CmdHdr) (port : Nat) (s : Dev) : Host.Outcome Dev Fault Refusal :=
  row t h 0x400 0 (pxStatusBody port) s

/-- PXP_DIAG_SHORT_TEST (R233). -/
def runPxpDiagShortTest (t : Time) (h : CmdHdr) (port : Nat) (shorts : List Nat) (s : Dev) : Host.Outcome Dev Fault Refusal :=
  row t h 0x400 0 (pxShortBody port shorts) s

/-- PXP_DIAG_CLEAR (R233). -/
def runPxpDiagClear (t : Time) (h : CmdHdr) (port : Nat) (s : Dev) : Host.Outcome Dev Fault Refusal :=
  row t h 0x400 0 (pxClearBody port) s

/-- PXP_DIAG_PROBE_NOW (R233). -/
def runPxpDiagProbeNow (t : Time) (h : CmdHdr) (port : Nat) (s : Dev) : Host.Outcome Dev Fault Refusal :=
  row t h 0x400 0 (pxProbeBody port) s

/-- MIGRATE_SWITCH (R324). -/
def runMigrateSwitch (t : Time) (h : CmdHdr) (handle : Word) (frame : Nat) (s : Dev) : Host.Outcome Dev Fault Refusal :=
  row t h 0x500 handle (migSwitchBody handle frame) s

/-- MIGRATE_ABORT (R324). -/
def runMigrateAbort (t : Time) (h : CmdHdr) (handle : Word) (s : Dev) : Host.Outcome Dev Fault Refusal :=
  row t h 0x500 handle (migAbortBody handle) s

/-- HANDOVER_START (R351). -/
def runHandoverStart (t : Time) (h : CmdHdr) (args : List Byte) (s : Dev) : Host.Outcome Dev Fault Refusal :=
  row t h 0x600 0 (handoverStart h args) s

/-- HANDOVER_CANCEL (R351). -/
def runHandoverCancel (t : Time) (h : CmdHdr) (s : Dev) : Host.Outcome Dev Fault Refusal :=
  row t h 0x600 0 (handoverCancel) s

/-- NOR_READ (R381). -/
def runNorRead (t : Time) (h : CmdHdr) (off : Nat) (len : Nat) (arg : Nat) (s : Dev) : Host.Outcome Dev Fault Refusal :=
  row t h 0x700 0 (norRead h off len arg) s

/-- NOR_ERASE (R381). -/
def runNorErase (t : Time) (h : CmdHdr) (off : Nat) (sectors : Nat) (s : Dev) : Host.Outcome Dev Fault Refusal :=
  row t h 0x701 0 (norErase h off sectors) s

/-- NOR_PROGRAM (R381). -/
def runNorProgram (t : Time) (h : CmdHdr) (off : Nat) (len : Nat) (arg : Nat) (s : Dev) : Host.Outcome Dev Fault Refusal :=
  row t h 0x702 0 (norProgram h off len arg) s

/-- UPDATE_OPEN (R374). -/
def runUpdateOpen (t : Time) (h : CmdHdr) (args : List Byte) (s : Dev) : Host.Outcome Dev Fault Refusal :=
  row t h 0x703 0 (updOpen h args) s

/-- UPDATE_REFRESH (R375). -/
def runUpdateRefresh (t : Time) (h : CmdHdr) (s : Dev) : Host.Outcome Dev Fault Refusal :=
  row t h 0x704 0 (updRefresh h) s

/-- UPDATE_WRITE (R375). -/
def runUpdateWrite (t : Time) (h : CmdHdr) (args : List Byte) (s : Dev) : Host.Outcome Dev Fault Refusal :=
  row t h 0x705 0 (updWrite h args) s

/-- UPDATE_VERIFY (R375). -/
def runUpdateVerify (t : Time) (h : CmdHdr) (s : Dev) : Host.Outcome Dev Fault Refusal :=
  row t h 0x706 0 (updVerify h) s

/-- UPDATE_ACTIVATE (R375). -/
def runUpdateActivate (t : Time) (h : CmdHdr) (s : Dev) : Host.Outcome Dev Fault Refusal :=
  row t h 0x707 0 (updActivate h) s

/-- UPDATE_CONFIRM (R378). -/
def runUpdateConfirm (t : Time) (h : CmdHdr) (s : Dev) : Host.Outcome Dev Fault Refusal :=
  row t h 0x708 0 (updConfirm h) s

/-- UPDATE_CLOSE (R375). -/
def runUpdateClose (t : Time) (h : CmdHdr) (s : Dev) : Host.Outcome Dev Fault Refusal :=
  row t h 0x709 0 (updClose h) s

/-- CHK_RUN (R393). -/
def runChkRun (t : Time) (h : CmdHdr) (handle : Word) (args : List Byte) (s : Dev) : Host.Outcome Dev Fault Refusal :=
  row t h 0x800 handle (chkRun h handle args) s

/-- RECALIBRATE (R389). -/
def runRecalibrate (t : Time) (h : CmdHdr) (item : Nat) (inst : Nat) (readings : List (Nat × Nat × Nat × Nat)) (s : Dev) : Host.Outcome Dev Fault Refusal :=
  row t h 0x801 0 (recalibrate item inst readings) s

/-- BIST_SPM (R390). -/
def runBistSpm (t : Time) (h : CmdHdr) (defects : List Nat) (s : Dev) : Host.Outcome Dev Fault Refusal :=
  row t h 0x802 0 (bistSpm defects) s

/-- BIST_PLAIN (R390). -/
def runBistPlain (t : Time) (h : CmdHdr) (failing : List Nat) (s : Dev) : Host.Outcome Dev Fault Refusal :=
  row t h 0x802 0 (bistPlain failing) s

/-- BIST_PINS (R390). -/
def runBistPins (t : Time) (h : CmdHdr) (shorts : List (Nat × Nat)) (s : Dev) : Host.Outcome Dev Fault Refusal :=
  row t h 0x802 0 (bistPins shorts) s

/-! The idle step -/

/-- On an empty queue one tick of the 250 MHz raw counter passes (R256, log 2), and what waits only for time starts: channels whose
start time has come (R79) and commands that may start. In RESET the counter stands. -/
def idle (s : Dev) : Dev :=
  if s.sys.mode = .reset then s else pump (startDue { s with raw := s.raw + 262144 })

end Sys2Proof.Machine
end

