-- ==== Sys2Proof/Machine/Meanings.lean ====
section
/-! DEFINITION. The meaning of each command: its effect on the device, the queue staying as it is. -/

namespace Sys2Proof.Machine

/-- POWER_ON_RESET. -/
def execPowerOnReset (t : Time) (s : State) : Host.Outcome State Fault Refusal :=
  onDev (runPowerOnReset t) s

/-- WARM_RESET. -/
def execWarmReset (t : Time) (s : State) : Host.Outcome State Fault Refusal :=
  onDev (runWarmReset t) s

/-- SOFTWARE_RESET. -/
def execSoftwareReset (t : Time) (value : Word) (s : State) : Host.Outcome State Fault Refusal :=
  onDev (runSoftwareReset t value) s

/-- WATCHDOG_EXPIRY. -/
def execWatchdogExpiry (t : Time) (core : Nat) (s : State) : Host.Outcome State Fault Refusal :=
  onDev (runWatchdogExpiry t core) s

/-- PCIE_FUNDAMENTAL_RESET. -/
def execPcieFundamentalReset (t : Time) (s : State) : Host.Outcome State Fault Refusal :=
  onDev (runPcieFundamentalReset t) s

/-- JTAG_RESET. -/
def execJtagReset (t : Time) (s : State) : Host.Outcome State Fault Refusal :=
  onDev (runJtagReset t) s

/-- RESET_END. -/
def execResetEnd (t : Time) (boot : Nat) (testEn : Bool) (s : State) : Host.Outcome State Fault Refusal :=
  onDev (runResetEnd t boot testEn) s

/-- DAYBREAK_END. -/
def execDaybreakEnd (t : Time) (report : Daybreak) (s : State) : Host.Outcome State Fault Refusal :=
  onDev (runDaybreakEnd t report) s

/-- AUTHENTICATION_DONE. -/
def execAuthenticationDone (t : Time) (s : State) : Host.Outcome State Fault Refusal :=
  onDev (runAuthenticationDone t) s

/-- CONFIGURE_END. -/
def execConfigureEnd (t : Time) (claimWon : Bool) (s : State) : Host.Outcome State Fault Refusal :=
  onDev (runConfigureEnd t claimWon) s

/-- FIRST_LIGHT. -/
def execFirstLight (t : Time) (s : State) : Host.Outcome State Fault Refusal :=
  onDev (runFirstLight t) s

/-- CONFIGURE_BEGIN. -/
def execConfigureBegin (t : Time) (s : State) : Host.Outcome State Fault Refusal :=
  onDev (runConfigureBegin t) s

/-- VLOW_STOP. -/
def execVlowStop (t : Time) (mv : Nat) (s : State) : Host.Outcome State Fault Refusal :=
  onDev (runVlowStop t mv) s

/-- VLOW_STOP_CLEAR. -/
def execVlowStopClear (t : Time) (mv : Nat) (s : State) : Host.Outcome State Fault Refusal :=
  onDev (runVlowStopClear t mv) s

/-- VLOW_HOLD. -/
def execVlowHold (t : Time) (mv : Nat) (s : State) : Host.Outcome State Fault Refusal :=
  onDev (runVlowHold t mv) s

/-- VLOW_HOLD_CLEAR. -/
def execVlowHoldClear (t : Time) (mv : Nat) (s : State) : Host.Outcome State Fault Refusal :=
  onDev (runVlowHoldClear t mv) s

/-- LIVENESS_TIMEOUT. -/
def execLivenessTimeout (t : Time) (s : State) : Host.Outcome State Fault Refusal :=
  onDev (runLivenessTimeout t) s

/-- CMD_DOORBELL. -/
def execCmdDoorbell (t : Time) (value : Word) (s : State) : Host.Outcome State Fault Refusal :=
  onDev (runCmdDoorbell t value) s

/-- CMP_HEAD_WRITE. -/
def execCmpHeadWrite (t : Time) (value : Word) (s : State) : Host.Outcome State Fault Refusal :=
  onDev (runCmpHeadWrite t value) s

/-- MGT_COMMAND_DATAGRAM. -/
def execMgtCommandDatagram (t : Time) (ip : Nat) (port : Nat) (bytes : List Byte) (s : State) : Host.Outcome State Fault Refusal :=
  onDev (runMgtCommandDatagram t ip port bytes) s

/-- COMPLETION_VECTOR_PACING. -/
def execCompletionVectorPacing (t : Time) (s : State) : Host.Outcome State Fault Refusal :=
  onDev (runCompletionVectorPacing t) s

/-- NOP. -/
def execNop (t : Time) (h : CmdHdr) (s : State) : Host.Outcome State Fault Refusal :=
  onDev (runNop t h) s

/-- QUERY. -/
def execQuery (t : Time) (h : CmdHdr) (handle : Word) (s : State) : Host.Outcome State Fault Refusal :=
  onDev (runQuery t h handle) s

/-- REG_READ. -/
def execRegRead (t : Time) (h : CmdHdr) (off : Nat) (count : Nat) (s : State) : Host.Outcome State Fault Refusal :=
  onDev (runRegRead t h off count) s

/-- REG_WRITE. -/
def execRegWrite (t : Time) (h : CmdHdr) (off : Nat) (value : Word) (mask : Word) (s : State) : Host.Outcome State Fault Refusal :=
  onDev (runRegWrite t h off value mask) s

/-- SET_MODE. -/
def execSetMode (t : Time) (h : CmdHdr) (target : Nat) (s : State) : Host.Outcome State Fault Refusal :=
  onDev (runSetMode t h target) s

/-- LEDGER_READ. -/
def execLedgerRead (t : Time) (h : CmdHdr) (line : Nat) (s : State) : Host.Outcome State Fault Refusal :=
  onDev (runLedgerRead t h line) s

/-- GOVERNOR_SET. -/
def execGovernorSet (t : Time) (h : CmdHdr) (target : Nat) (s : State) : Host.Outcome State Fault Refusal :=
  onDev (runGovernorSet t h target) s

/-- CREATE. -/
def execCreate (t : Time) (h : CmdHdr) (args : CreateArgs) (s : State) : Host.Outcome State Fault Refusal :=
  onDev (runCreate t h args) s

/-- DESTROY. -/
def execDestroy (t : Time) (h : CmdHdr) (handle : Word) (s : State) : Host.Outcome State Fault Refusal :=
  onDev (runDestroy t h handle) s

/-- MODIFY. -/
def execModify (t : Time) (h : CmdHdr) (handle : Word) (off : Nat) (len : Nat) (s : State) : Host.Outcome State Fault Refusal :=
  onDev (runModify t h handle off len) s

/-- START. -/
def execStart (t : Time) (h : CmdHdr) (handle : Word) (secs : Nat) (nanos : Nat) (now : Bool) (s : State) : Host.Outcome State Fault Refusal :=
  onDev (runStart t h handle secs nanos now) s

/-- STOP. -/
def execStop (t : Time) (h : CmdHdr) (handle : Word) (s : State) : Host.Outcome State Fault Refusal :=
  onDev (runStop t h handle) s

/-- SET_PRIORITY. -/
def execSetPriority (t : Time) (h : CmdHdr) (handle : Word) (prio : Nat) (s : State) : Host.Outcome State Fault Refusal :=
  onDev (runSetPriority t h handle prio) s

/-- ADMIT_CHECK. -/
def execAdmitCheck (t : Time) (h : CmdHdr) (args : CreateArgs) (s : State) : Host.Outcome State Fault Refusal :=
  onDev (runAdmitCheck t h args) s

/-- LAYER_COMMIT. -/
def execLayerCommit (t : Time) (h : CmdHdr) (handle : Word) (args : List Byte) (s : State) : Host.Outcome State Fault Refusal :=
  onDev (runLayerCommit t h handle args) s

/-- RETIME. -/
def execRetime (t : Time) (h : CmdHdr) (handle : Word) (args : List Byte) (s : State) : Host.Outcome State Fault Refusal :=
  onDev (runRetime t h handle args) s

/-- ACTION_ARM. -/
def execActionArm (t : Time) (h : CmdHdr) (handle : Word) (args : List Byte) (s : State) : Host.Outcome State Fault Refusal :=
  onDev (runActionArm t h handle args) s

/-- ACTION_CANCEL. -/
def execActionCancel (t : Time) (h : CmdHdr) (handle : Word) (s : State) : Host.Outcome State Fault Refusal :=
  onDev (runActionCancel t h handle) s

/-- DOMAIN_SWITCH. -/
def execDomainSwitch (t : Time) (h : CmdHdr) (handle : Word) (args : List Byte) (s : State) : Host.Outcome State Fault Refusal :=
  onDev (runDomainSwitch t h handle args) s

/-- RING_FLUSH. -/
def execRingFlush (t : Time) (h : CmdHdr) (handle : Word) (s : State) : Host.Outcome State Fault Refusal :=
  onDev (runRingFlush t h handle) s

/-- RING_MARK. -/
def execRingMark (t : Time) (h : CmdHdr) (handle : Word) (s : State) : Host.Outcome State Fault Refusal :=
  onDev (runRingMark t h handle) s

/-- RING_REWIND. -/
def execRingRewind (t : Time) (h : CmdHdr) (handle : Word) (s : State) : Host.Outcome State Fault Refusal :=
  onDev (runRingRewind t h handle) s

/-- RING_RELEASE. -/
def execRingRelease (t : Time) (h : CmdHdr) (handle : Word) (count : Nat) (allRead : Bool) (s : State) : Host.Outcome State Fault Refusal :=
  onDev (runRingRelease t h handle count allRead) s

/-- PXP_DIAG_STATUS. -/
def execPxpDiagStatus (t : Time) (h : CmdHdr) (port : Nat) (s : State) : Host.Outcome State Fault Refusal :=
  onDev (runPxpDiagStatus t h port) s

/-- PXP_DIAG_SHORT_TEST. -/
def execPxpDiagShortTest (t : Time) (h : CmdHdr) (port : Nat) (shorts : List Nat) (s : State) : Host.Outcome State Fault Refusal :=
  onDev (runPxpDiagShortTest t h port shorts) s

/-- PXP_DIAG_CLEAR. -/
def execPxpDiagClear (t : Time) (h : CmdHdr) (port : Nat) (s : State) : Host.Outcome State Fault Refusal :=
  onDev (runPxpDiagClear t h port) s

/-- PXP_DIAG_PROBE_NOW. -/
def execPxpDiagProbeNow (t : Time) (h : CmdHdr) (port : Nat) (s : State) : Host.Outcome State Fault Refusal :=
  onDev (runPxpDiagProbeNow t h port) s

/-- MIGRATE_SWITCH. -/
def execMigrateSwitch (t : Time) (h : CmdHdr) (handle : Word) (frame : Nat) (s : State) : Host.Outcome State Fault Refusal :=
  onDev (runMigrateSwitch t h handle frame) s

/-- MIGRATE_ABORT. -/
def execMigrateAbort (t : Time) (h : CmdHdr) (handle : Word) (s : State) : Host.Outcome State Fault Refusal :=
  onDev (runMigrateAbort t h handle) s

/-- HANDOVER_START. -/
def execHandoverStart (t : Time) (h : CmdHdr) (args : List Byte) (s : State) : Host.Outcome State Fault Refusal :=
  onDev (runHandoverStart t h args) s

/-- HANDOVER_CANCEL. -/
def execHandoverCancel (t : Time) (h : CmdHdr) (s : State) : Host.Outcome State Fault Refusal :=
  onDev (runHandoverCancel t h) s

/-- NOR_READ. -/
def execNorRead (t : Time) (h : CmdHdr) (off : Nat) (len : Nat) (arg : Nat) (s : State) : Host.Outcome State Fault Refusal :=
  onDev (runNorRead t h off len arg) s

/-- NOR_ERASE. -/
def execNorErase (t : Time) (h : CmdHdr) (off : Nat) (sectors : Nat) (s : State) : Host.Outcome State Fault Refusal :=
  onDev (runNorErase t h off sectors) s

/-- NOR_PROGRAM. -/
def execNorProgram (t : Time) (h : CmdHdr) (off : Nat) (len : Nat) (arg : Nat) (s : State) : Host.Outcome State Fault Refusal :=
  onDev (runNorProgram t h off len arg) s

/-- UPDATE_OPEN. -/
def execUpdateOpen (t : Time) (h : CmdHdr) (args : List Byte) (s : State) : Host.Outcome State Fault Refusal :=
  onDev (runUpdateOpen t h args) s

/-- UPDATE_REFRESH. -/
def execUpdateRefresh (t : Time) (h : CmdHdr) (s : State) : Host.Outcome State Fault Refusal :=
  onDev (runUpdateRefresh t h) s

/-- UPDATE_WRITE. -/
def execUpdateWrite (t : Time) (h : CmdHdr) (args : List Byte) (s : State) : Host.Outcome State Fault Refusal :=
  onDev (runUpdateWrite t h args) s

/-- UPDATE_VERIFY. -/
def execUpdateVerify (t : Time) (h : CmdHdr) (s : State) : Host.Outcome State Fault Refusal :=
  onDev (runUpdateVerify t h) s

/-- UPDATE_ACTIVATE. -/
def execUpdateActivate (t : Time) (h : CmdHdr) (s : State) : Host.Outcome State Fault Refusal :=
  onDev (runUpdateActivate t h) s

/-- UPDATE_CONFIRM. -/
def execUpdateConfirm (t : Time) (h : CmdHdr) (s : State) : Host.Outcome State Fault Refusal :=
  onDev (runUpdateConfirm t h) s

/-- UPDATE_CLOSE. -/
def execUpdateClose (t : Time) (h : CmdHdr) (s : State) : Host.Outcome State Fault Refusal :=
  onDev (runUpdateClose t h) s

/-- CHK_RUN. -/
def execChkRun (t : Time) (h : CmdHdr) (handle : Word) (args : List Byte) (s : State) : Host.Outcome State Fault Refusal :=
  onDev (runChkRun t h handle args) s

/-- RECALIBRATE. -/
def execRecalibrate (t : Time) (h : CmdHdr) (item : Nat) (inst : Nat) (readings : List (Nat × Nat × Nat × Nat)) (s : State) : Host.Outcome State Fault Refusal :=
  onDev (runRecalibrate t h item inst readings) s

/-- BIST_SPM. -/
def execBistSpm (t : Time) (h : CmdHdr) (defects : List Nat) (s : State) : Host.Outcome State Fault Refusal :=
  onDev (runBistSpm t h defects) s

/-- BIST_PLAIN. -/
def execBistPlain (t : Time) (h : CmdHdr) (failing : List Nat) (s : State) : Host.Outcome State Fault Refusal :=
  onDev (runBistPlain t h failing) s

/-- BIST_PINS. -/
def execBistPins (t : Time) (h : CmdHdr) (shorts : List (Nat × Nat)) (s : State) : Host.Outcome State Fault Refusal :=
  onDev (runBistPins t h shorts) s

/-- REGISTER_WRITE. -/
def execRegisterWrite (t : Time) (off : Nat) (value : Word) (s : State) : Host.Outcome State Fault Refusal :=
  onDev (runRegisterWrite t off value) s

/-- GOVERNOR_READING. -/
def execGovernorReading (t : Time) (monitors : List Nat) (s : State) : Host.Outcome State Fault Refusal :=
  onDev (runGovernorReading t monitors) s

/-- AVSBUS_TRANSACTION_DONE. -/
def execAvsbusTransactionDone (t : Time) (acked : Bool) (readMv : Nat) (s : State) : Host.Outcome State Fault Refusal :=
  onDev (runAvsbusTransactionDone t acked readMv) s

/-- MR4_READ. -/
def execMr4Read (t : Time) (codeA : Nat) (codeB : Nat) (s : State) : Host.Outcome State Fault Refusal :=
  onDev (runMr4Read t codeA codeB) s

/-- DQS_OSCILLATOR_READ. -/
def execDqsOscillatorRead (t : Time) (readings : List Nat) (s : State) : Host.Outcome State Fault Refusal :=
  onDev (runDqsOscillatorRead t readings) s

/-- SCRUB_OVERDUE. -/
def execScrubOverdue (t : Time) (s : State) : Host.Outcome State Fault Refusal :=
  onDev (runScrubOverdue t) s

/-- HANDLE_RELEASE. -/
def execHandleRelease (t : Time) (handle : Word) (s : State) : Host.Outcome State Fault Refusal :=
  onDev (runHandleRelease t handle) s

/-- BAR2_WRITE. -/
def execBar2Write (t : Time) (off : Nat) (bytes : List Byte) (s : State) : Host.Outcome State Fault Refusal :=
  onDev (runBar2Write t off bytes) s

/-- BAR2_READ. -/
def execBar2Read (t : Time) (off : Nat) (len : Nat) (bad : List Nat) (s : State) : Host.Outcome State Fault Refusal :=
  onDev (runBar2Read t off len bad) s

/-- XLAT_ADDR_WRITE. -/
def execXlatAddrWrite (t : Time) (value : Word) (s : State) : Host.Outcome State Fault Refusal :=
  onDev (runXlatAddrWrite t value) s

/-- INBOX_PUSH. -/
def execInboxPush (t : Time) (task : Nat) (item : Nat) (s : State) : Host.Outcome State Fault Refusal :=
  onDev (runInboxPush t task item) s

/-- PUSH_WAIT_GRANTED. -/
def execPushWaitGranted (t : Time) (task : Nat) (s : State) : Host.Outcome State Fault Refusal :=
  onDev (runPushWaitGranted t task) s

/-- TASK_DISPATCH. -/
def execTaskDispatch (t : Time) (engine : Nat) (lost : Bool) (tables : List Nat) (s : State) : Host.Outcome State Fault Refusal :=
  onDev (runTaskDispatch t engine lost tables) s

/-- TASK_COMPLETE. -/
def execTaskComplete (t : Time) (task : Nat) (s : State) : Host.Outcome State Fault Refusal :=
  onDev (runTaskComplete t task) s

/-- PUSH_RING_WRITE. -/
def execPushRingWrite (t : Time) (value : Word) (s : State) : Host.Outcome State Fault Refusal :=
  onDev (runPushRingWrite t value) s

/-- PUSH_DATA_HI_WRITE. -/
def execPushDataHiWrite (t : Time) (value : Word) (s : State) : Host.Outcome State Fault Refusal :=
  onDev (runPushDataHiWrite t value) s

/-- PUSH_COMMIT. -/
def execPushCommit (t : Time) (value : Word) (s : State) : Host.Outcome State Fault Refusal :=
  onDev (runPushCommit t value) s

/-- POP_LO_READ. -/
def execPopLoRead (t : Time) (bad : Bool) (s : State) : Host.Outcome State Fault Refusal :=
  onDev (runPopLoRead t bad) s

/-- DROP_REST. -/
def execDropRest (t : Time) (value : Word) (s : State) : Host.Outcome State Fault Refusal :=
  onDev (runDropRest t value) s

/-- RING_VECTOR_PACING. -/
def execRingVectorPacing (t : Time) (ring : Nat) (s : State) : Host.Outcome State Fault Refusal :=
  onDev (runRingVectorPacing t ring) s

/-- ST2110_PACKET_RX. -/
def execSt2110PacketRx (t : Time) (pkt : VideoPkt) (s : State) : Host.Outcome State Fault Refusal :=
  onDev (runSt2110PacketRx t pkt) s

/-- STREAM_LOST. -/
def execStreamLost (t : Time) (n : Nat) (s : State) : Host.Outcome State Fault Refusal :=
  onDev (runStreamLost t n) s

/-- FRAME_TICK. -/
def execFrameTick (t : Time) (c : Nat) (s : State) : Host.Outcome State Fault Refusal :=
  onDev (runFrameTick t c) s

/-- BAND_WRITTEN. -/
def execBandWritten (t : Time) (c : Nat) (bad : Bool) (s : State) : Host.Outcome State Fault Refusal :=
  onDev (runBandWritten t c bad) s

/-- PASS_COMPLETE. -/
def execPassComplete (t : Time) (c : Nat) (s : State) : Host.Outcome State Fault Refusal :=
  onDev (runPassComplete t c) s

/-- UNDERRUN. -/
def execUnderrun (t : Time) (c : Nat) (s : State) : Host.Outcome State Fault Refusal :=
  onDev (runUnderrun t c) s

/-- SWITCH_DONE. -/
def execSwitchDone (t : Time) (c : Nat) (s : State) : Host.Outcome State Fault Refusal :=
  onDev (runSwitchDone t c) s

/-- E131_PACKET_RX. -/
def execE131PacketRx (t : Time) (port : Nat) (pkt : E131Pkt) (s : State) : Host.Outcome State Fault Refusal :=
  onDev (runE131PacketRx t port pkt) s

/-- SOURCE_LOST. -/
def execSourceLost (t : Time) (input : Nat) (src : Nat) (s : State) : Host.Outcome State Fault Refusal :=
  onDev (runSourceLost t input src) s

/-- INPUT_RELEASED. -/
def execInputReleased (t : Time) (input : Nat) (s : State) : Host.Outcome State Fault Refusal :=
  onDev (runInputReleased t input) s

/-- SYNC_LAUNCH. -/
def execSyncLaunch (t : Time) (port : Nat) (s : State) : Host.Outcome State Fault Refusal :=
  onDev (runSyncLaunch t port) s

/-- TX_FRAME_START. -/
def execTxFrameStart (t : Time) (port : Nat) (s : State) : Host.Outcome State Fault Refusal :=
  onDev (runTxFrameStart t port) s

/-- TX_FRAME_END. -/
def execTxFrameEnd (t : Time) (port : Nat) (s : State) : Host.Outcome State Fault Refusal :=
  onDev (runTxFrameEnd t port) s

/-- REMOTE_LATE. -/
def execRemoteLate (t : Time) (univ : Nat) (s : State) : Host.Outcome State Fault Refusal :=
  onDev (runRemoteLate t univ) s

/-- DISCOVERY_SEND. -/
def execDiscoverySend (t : Time) (ident : Nat) (s : State) : Host.Outcome State Fault Refusal :=
  onDev (runDiscoverySend t ident) s

/-- SITE_TICK. -/
def execSiteTick (t : Time) (univ : Nat) (s : State) : Host.Outcome State Fault Refusal :=
  onDev (runSiteTick t univ) s

/-- DMX_BREAK. -/
def execDmxBreak (t : Time) (line : Nat) (s : State) : Host.Outcome State Fault Refusal :=
  onDev (runDmxBreak t line) s

/-- RDM_REQUEST_START. -/
def execRdmRequestStart (t : Time) (line : Nat) (s : State) : Host.Outcome State Fault Refusal :=
  onDev (runRdmRequestStart t line) s

/-- RDM_RESPONSE_RX. -/
def execRdmResponseRx (t : Time) (line : Nat) (resp : RdmResp) (s : State) : Host.Outcome State Fault Refusal :=
  onDev (runRdmResponseRx t line resp) s

/-- RDM_TIMEOUT. -/
def execRdmTimeout (t : Time) (line : Nat) (s : State) : Host.Outcome State Fault Refusal :=
  onDev (runRdmTimeout t line) s

/-- DISCOVERY_INTERVAL. -/
def execDiscoveryInterval (t : Time) (line : Nat) (s : State) : Host.Outcome State Fault Refusal :=
  onDev (runDiscoveryInterval t line) s

/-- DISC_GO. -/
def execDiscGo (t : Time) (line : Nat) (value : Word) (s : State) : Host.Outcome State Fault Refusal :=
  onDev (runDiscGo t line value) s

/-- MAILBOX_GO. -/
def execMailboxGo (t : Time) (line : Nat) (value : Word) (s : State) : Host.Outcome State Fault Refusal :=
  onDev (runMailboxGo t line value) s

/-- PXP_FRAME_START. -/
def execPxpFrameStart (t : Time) (port : Nat) (diag : List Nat) (s : State) : Host.Outcome State Fault Refusal :=
  onDev (runPxpFrameStart t port diag) s

/-- PXP_FILL_DONE. -/
def execPxpFillDone (t : Time) (port : Nat) (s : State) : Host.Outcome State Fault Refusal :=
  onDev (runPxpFillDone t port) s

/-- REFRESH_START. -/
def execRefreshStart (t : Time) (port : Nat) (diag : List Nat) (s : State) : Host.Outcome State Fault Refusal :=
  onDev (runRefreshStart t port diag) s

/-- DIAG_MIN_ON_WRITE. -/
def execDiagMinOnWrite (t : Time) (port : Nat) (value : Word) (s : State) : Host.Outcome State Fault Refusal :=
  onDev (runDiagMinOnWrite t port value) s

/-- PIN_READBACK. -/
def execPinReadback (t : Time) (port : Nat) (mismatch : List Nat) (s : State) : Host.Outcome State Fault Refusal :=
  onDev (runPinReadback t port mismatch) s

/-- LINK_UP. -/
def execLinkUp (t : Time) (port : Nat) (s : State) : Host.Outcome State Fault Refusal :=
  onDev (runLinkUp t port) s

/-- LINK_DOWN. -/
def execLinkDown (t : Time) (port : Nat) (s : State) : Host.Outcome State Fault Refusal :=
  onDev (runLinkDown t port) s

/-- LINK_MISMATCH. -/
def execLinkMismatch (t : Time) (port : Nat) (s : State) : Host.Outcome State Fault Refusal :=
  onDev (runLinkMismatch t port) s

/-- AN_RESTART. -/
def execAnRestart (t : Time) (port : Nat) (value : Word) (s : State) : Host.Outcome State Fault Refusal :=
  onDev (runAnRestart t port value) s

/-- VERIFY_RESTART. -/
def execVerifyRestart (t : Time) (port : Nat) (value : Word) (s : State) : Host.Outcome State Fault Refusal :=
  onDev (runVerifyRestart t port value) s

/-- PAUSE_EN_WRITE. -/
def execPauseEnWrite (t : Time) (port : Nat) (value : Word) (s : State) : Host.Outcome State Fault Refusal :=
  onDev (runPauseEnWrite t port value) s

/-- VERIFY_TIMEOUT. -/
def execVerifyTimeout (t : Time) (port : Nat) (s : State) : Host.Outcome State Fault Refusal :=
  onDev (runVerifyTimeout t port) s

/-- MPACKET_RX. -/
def execMpacketRx (t : Time) (port : Nat) (respond : Bool) (s : State) : Host.Outcome State Fault Refusal :=
  onDev (runMpacketRx t port respond) s

/-- RX_FRAME. -/
def execRxFrame (t : Time) (port : Nat) (frame : EthFrame) (s : State) : Host.Outcome State Fault Refusal :=
  onDev (runRxFrame t port frame) s

/-- PAUSE_END. -/
def execPauseEnd (t : Time) (port : Nat) (s : State) : Host.Outcome State Fault Refusal :=
  onDev (runPauseEnd t port) s

/-- ARP_REQUEST_RETRY. -/
def execArpRequestRetry (t : Time) (port : Nat) (ip : Nat) (s : State) : Host.Outcome State Fault Refusal :=
  onDev (runArpRequestRetry t port ip) s

/-- ARP_ENTRY_REFRESH. -/
def execArpEntryRefresh (t : Time) (port : Nat) (ip : Nat) (s : State) : Host.Outcome State Fault Refusal :=
  onDev (runArpEntryRefresh t port ip) s

/-- ARP_ENTRY_EXPIRY. -/
def execArpEntryExpiry (t : Time) (port : Nat) (ip : Nat) (s : State) : Host.Outcome State Fault Refusal :=
  onDev (runArpEntryExpiry t port ip) s

/-- IGMP_REPORT_SEND. -/
def execIgmpReportSend (t : Time) (port : Nat) (group : Nat) (s : State) : Host.Outcome State Fault Refusal :=
  onDev (runIgmpReportSend t port group) s

/-- SNAP_GO. -/
def execSnapGo (t : Time) (port : Nat) (value : Word) (s : State) : Host.Outcome State Fault Refusal :=
  onDev (runSnapGo t port value) s

/-- SNAP_ALL. -/
def execSnapAll (t : Time) (value : Word) (s : State) : Host.Outcome State Fault Refusal :=
  onDev (runSnapAll t value) s

/-- CNT_LO_READ. -/
def execCntLoRead (t : Time) (port : Nat) (ctr : Nat) (s : State) : Host.Outcome State Fault Refusal :=
  onDev (runCntLoRead t port ctr) s

/-- REF_LOST. -/
def execRefLost (t : Time) (s : State) : Host.Outcome State Fault Refusal :=
  onDev (runRefLost t) s

/-- SREF0_RETURN. -/
def execSref0Return (t : Time) (s : State) : Host.Outcome State Fault Refusal :=
  onDev (runSref0Return t) s

/-- TIM_LATCH. -/
def execTimLatch (t : Time) (value : Word) (s : State) : Host.Outcome State Fault Refusal :=
  onDev (runTimLatch t value) s

/-- PTP_MESSAGE_RX. -/
def execPtpMessageRx (t : Time) (msg : PtpMsg) (s : State) : Host.Outcome State Fault Refusal :=
  onDev (runPtpMessageRx t msg) s

/-- PTP_SYNC_SEND. -/
def execPtpSyncSend (t : Time) (port : Nat) (dom : Nat) (s : State) : Host.Outcome State Fault Refusal :=
  onDev (runPtpSyncSend t port dom) s

/-- PTP_ANNOUNCE_SEND. -/
def execPtpAnnounceSend (t : Time) (port : Nat) (dom : Nat) (s : State) : Host.Outcome State Fault Refusal :=
  onDev (runPtpAnnounceSend t port dom) s

/-- PTP_DELAY_REQ_SEND. -/
def execPtpDelayReqSend (t : Time) (port : Nat) (dom : Nat) (s : State) : Host.Outcome State Fault Refusal :=
  onDev (runPtpDelayReqSend t port dom) s

/-- HOLDOVER_ENTER. -/
def execHoldoverEnter (t : Time) (dom : Nat) (s : State) : Host.Outcome State Fault Refusal :=
  onDev (runHoldoverEnter t dom) s

/-- TICK_REF_EDGE. -/
def execTickRefEdge (t : Time) (dom : Nat) (s : State) : Host.Outcome State Fault Refusal :=
  onDev (runTickRefEdge t dom) s

/-- TICK_LOST. -/
def execTickLost (t : Time) (dom : Nat) (s : State) : Host.Outcome State Fault Refusal :=
  onDev (runTickLost t dom) s

/-- PPS_OUT_PULSE. -/
def execPpsOutPulse (t : Time) (s : State) : Host.Outcome State Fault Refusal :=
  onDev (runPpsOutPulse t) s

/-- LTC_FRAME. -/
def execLtcFrame (t : Time) (j : Nat) (frame : Option Nat) (s : State) : Host.Outcome State Fault Refusal :=
  onDev (runLtcFrame t j frame) s

/-- LTC_LOST. -/
def execLtcLost (t : Time) (j : Nat) (s : State) : Host.Outcome State Fault Refusal :=
  onDev (runLtcLost t j) s

/-- ACTION_FIRED. -/
def execActionFired (t : Time) (act : Nat) (s : State) : Host.Outcome State Fault Refusal :=
  onDev (runActionFired t act) s

/-- PULSE_END. -/
def execPulseEnd (t : Time) (act : Nat) (s : State) : Host.Outcome State Fault Refusal :=
  onDev (runPulseEnd t act) s

/-- CAPTURE. -/
def execCapture (t : Time) (input : Nat) (falling : Bool) (s : State) : Host.Outcome State Fault Refusal :=
  onDev (runCapture t input falling) s

/-- CAP_NS_READ. -/
def execCapNsRead (t : Time) (input : Nat) (s : State) : Host.Outcome State Fault Refusal :=
  onDev (runCapNsRead t input) s

/-- ADC_RESULT. -/
def execAdcResult (t : Time) (volts : List Nat) (s : State) : Host.Outcome State Fault Refusal :=
  onDev (runAdcResult t volts) s

/-- TELEMETRY_DATAGRAM_RX. -/
def execTelemetryDatagramRx (t : Time) (port : Nat) (ip : Nat) (bytes : List Byte) (s : State) : Host.Outcome State Fault Refusal :=
  onDev (runTelemetryDatagramRx t port ip bytes) s

/-- ZONE_CYCLE. -/
def execZoneCycle (t : Time) (z : Nat) (s : State) : Host.Outcome State Fault Refusal :=
  onDev (runZoneCycle t z) s

/-- HOLD_EXPIRY. -/
def execHoldExpiry (t : Time) (z : Nat) (s : State) : Host.Outcome State Fault Refusal :=
  onDev (runHoldExpiry t z) s

/-- ZONE_VACANT. -/
def execZoneVacant (t : Time) (z : Nat) (s : State) : Host.Outcome State Fault Refusal :=
  onDev (runZoneVacant t z) s

/-- VALLEY_SIGNAL_DETECT. -/
def execValleySignalDetect (t : Time) (l : Nat) (s : State) : Host.Outcome State Fault Refusal :=
  onDev (runValleySignalDetect t l) s

/-- VALLEY_LINK_LOCK. -/
def execValleyLinkLock (t : Time) (l : Nat) (s : State) : Host.Outcome State Fault Refusal :=
  onDev (runValleyLinkLock t l) s

/-- VALLEY_HELLO_RX. -/
def execValleyHelloRx (t : Time) (l : Nat) (hello : HelloMsg) (s : State) : Host.Outcome State Fault Refusal :=
  onDev (runValleyHelloRx t l hello) s

/-- LINK_CONTROL_SEND. -/
def execLinkControlSend (t : Time) (l : Nat) (s : State) : Host.Outcome State Fault Refusal :=
  onDev (runLinkControlSend t l) s

/-- VALLEY_LINK_DOWN. -/
def execValleyLinkDown (t : Time) (l : Nat) (s : State) : Host.Outcome State Fault Refusal :=
  onDev (runValleyLinkDown t l) s

/-- VALLEY_PACKET_RX. -/
def execValleyPacketRx (t : Time) (l : Nat) (pkt : VPkt) (s : State) : Host.Outcome State Fault Refusal :=
  onDev (runValleyPacketRx t l pkt) s

/-- MEMBERSHIP_UPDATE_SEND. -/
def execMembershipUpdateSend (t : Time) (s : State) : Host.Outcome State Fault Refusal :=
  onDev (runMembershipUpdateSend t) s

/-- MEMBER_LEAVE. -/
def execMemberLeave (t : Time) (uid : Nat) (s : State) : Host.Outcome State Fault Refusal :=
  onDev (runMemberLeave t uid) s

/-- REROUTE. -/
def execReroute (t : Time) (s : State) : Host.Outcome State Fault Refusal :=
  onDev (runReroute t) s

/-- ADMIT_TIMEOUT. -/
def execAdmitTimeout (t : Time) (s : State) : Host.Outcome State Fault Refusal :=
  onDev (runAdmitTimeout t) s

/-- TIME_PACKET_SEND. -/
def execTimePacketSend (t : Time) (dom : Nat) (s : State) : Host.Outcome State Fault Refusal :=
  onDev (runTimePacketSend t dom) s

/-- LINK_DELAY_EXCHANGE. -/
def execLinkDelayExchange (t : Time) (l : Nat) (t1 : Nat) (t2 : Nat) (t3 : Nat) (t4 : Nat) (s : State) : Host.Outcome State Fault Refusal :=
  onDev (runLinkDelayExchange t l t1 t2 t3 t4) s

/-- RELAY_REQUEST_SEND. -/
def execRelayRequestSend (t : Time) (s : State) : Host.Outcome State Fault Refusal :=
  onDev (runRelayRequestSend t) s

/-- RELAY_STALL. -/
def execRelayStall (t : Time) (l : Nat) (s : State) : Host.Outcome State Fault Refusal :=
  onDev (runRelayStall t l) s

/-- HEARTBEAT_SEND. -/
def execHeartbeatSend (t : Time) (s : State) : Host.Outcome State Fault Refusal :=
  onDev (runHeartbeatSend t) s

/-- HEARTBEAT_RX. -/
def execHeartbeatRx (t : Time) (path : Nat) (word : Nat) (s : State) : Host.Outcome State Fault Refusal :=
  onDev (runHeartbeatRx t path word) s

/-- HEARTBEAT_MISS. -/
def execHeartbeatMiss (t : Time) (path : Nat) (s : State) : Host.Outcome State Fault Refusal :=
  onDev (runHeartbeatMiss t path) s

/-- PATH_DEGRADED. -/
def execPathDegraded (t : Time) (path : Nat) (s : State) : Host.Outcome State Fault Refusal :=
  onDev (runPathDegraded t path) s

/-- ILK_BREATH. -/
def execIlkBreath (t : Time) (low : Bool) (s : State) : Host.Outcome State Fault Refusal :=
  onDev (runIlkBreath t low) s

/-- ILK_LINE_CLASS. -/
def execIlkLineClass (t : Time) (cls : Nat) (s : State) : Host.Outcome State Fault Refusal :=
  onDev (runIlkLineClass t cls) s

/-- CLAIM_EVALUATION. -/
def execClaimEvaluation (t : Time) (s : State) : Host.Outcome State Fault Refusal :=
  onDev (runClaimEvaluation t) s

/-- CLAIM_RELEASE. -/
def execClaimRelease (t : Time) (s : State) : Host.Outcome State Fault Refusal :=
  onDev (runClaimRelease t) s

/-- CLAIM_SAMPLE. -/
def execClaimSample (t : Time) (high : Bool) (s : State) : Host.Outcome State Fault Refusal :=
  onDev (runClaimSample t high) s

/-- WITNESS_PROBE_TIMEOUT. -/
def execWitnessProbeTimeout (t : Time) (s : State) : Host.Outcome State Fault Refusal :=
  onDev (runWitnessProbeTimeout t) s

/-- WITNESS_ANSWER_TIMEOUT. -/
def execWitnessAnswerTimeout (t : Time) (s : State) : Host.Outcome State Fault Refusal :=
  onDev (runWitnessAnswerTimeout t) s

/-- CHECKPOINT_TRAILER_RX. -/
def execCheckpointTrailerRx (t : Time) (bytes : List Byte) (s : State) : Host.Outcome State Fault Refusal :=
  onDev (runCheckpointTrailerRx t bytes) s

/-- CHECKPOINT_ACK_TIMEOUT. -/
def execCheckpointAckTimeout (t : Time) (s : State) : Host.Outcome State Fault Refusal :=
  onDev (runCheckpointAckTimeout t) s

/-- HANDOVER_RELEASE. -/
def execHandoverRelease (t : Time) (s : State) : Host.Outcome State Fault Refusal :=
  onDev (runHandoverRelease t) s

/-- HEALTH_REPORT. -/
def execHealthReport (t : Time) (fxpFail : Nat) (defects : Nat) (s : State) : Host.Outcome State Fault Refusal :=
  onDev (runHealthReport t fxpFail defects) s

/-- FW_CTRL_GO. -/
def execFwCtrlGo (t : Time) (value : Word) (s : State) : Host.Outcome State Fault Refusal :=
  onDev (runFwCtrlGo t value) s

/-- LOADER_DATAGRAM_RX. -/
def execLoaderDatagramRx (t : Time) (ip : Nat) (port : Nat) (bytes : List Byte) (s : State) : Host.Outcome State Fault Refusal :=
  onDev (runLoaderDatagramRx t ip port bytes) s

/-- LOADER_HELLO. -/
def execLoaderHello (t : Time) (s : State) : Host.Outcome State Fault Refusal :=
  onDev (runLoaderHello t) s

/-- LOADER_ACK. -/
def execLoaderAck (t : Time) (s : State) : Host.Outcome State Fault Refusal :=
  onDev (runLoaderAck t) s

/-- LOADER_SESSION_TIMEOUT. -/
def execLoaderSessionTimeout (t : Time) (s : State) : Host.Outcome State Fault Refusal :=
  onDev (runLoaderSessionTimeout t) s

/-- REVOKE_WRITE. -/
def execRevokeWrite (t : Time) (value : Word) (s : State) : Host.Outcome State Fault Refusal :=
  onDev (runRevokeWrite t value) s

/-- JOURNAL_COPY_SECTOR. -/
def execJournalCopySector (t : Time) (readbackOk : Bool) (s : State) : Host.Outcome State Fault Refusal :=
  onDev (runJournalCopySector t readbackOk) s

/-- CONVERTED. -/
def execConverted (t : Time) (image : List Byte) (s : State) : Host.Outcome State Fault Refusal :=
  onDev (runConverted t image) s

/-- SESSION_EXPIRED. -/
def execSessionExpired (t : Time) (s : State) : Host.Outcome State Fault Refusal :=
  onDev (runSessionExpired t) s

/-- NOR_TIMEOUT. -/
def execNorTimeout (t : Time) (s : State) : Host.Outcome State Fault Refusal :=
  onDev (runNorTimeout t) s

/-- PERSISTENT_LOG_WRITE. -/
def execPersistentLogWrite (t : Time) (s : State) : Host.Outcome State Fault Refusal :=
  onDev (runPersistentLogWrite t) s

/-- CHK_SCAN_DONE. -/
def execChkScanDone (t : Time) (n : Nat) (bad : Option Nat) (s : State) : Host.Outcome State Fault Refusal :=
  onDev (runChkScanDone t n bad) s

/-- CHK_ABORT. -/
def execChkAbort (t : Time) (n : Nat) (value : Word) (s : State) : Host.Outcome State Fault Refusal :=
  onDev (runChkAbort t n value) s

/-- RAIL_READ. -/
def execRailRead (t : Time) (mvs : List Nat) (s : State) : Host.Outcome State Fault Refusal :=
  onDev (runRailRead t mvs) s

/-- TEMP_READING. -/
def execTempReading (t : Time) (x : Int) (s : State) : Host.Outcome State Fault Refusal :=
  onDev (runTempReading t x) s

/-- EXTEST. -/
def execExtest (t : Time) (cells : List Bool) (s : State) : Host.Outcome State Fault Refusal :=
  onDev (runExtest t cells) s

/-- IDCODE. -/
def execIdcode (t : Time) (s : State) : Host.Outcome State Fault Refusal :=
  onDev (runIdcode t) s

/-- SAMPLE_PRELOAD. -/
def execSamplePreload (t : Time) (cells : List Bool) (s : State) : Host.Outcome State Fault Refusal :=
  onDev (runSamplePreload t cells) s

/-- HIGHZ. -/
def execHighz (t : Time) (s : State) : Host.Outcome State Fault Refusal :=
  onDev (runHighz t) s

/-- CLAMP. -/
def execClamp (t : Time) (s : State) : Host.Outcome State Fault Refusal :=
  onDev (runClamp t) s

/-- FUSE_READ. -/
def execFuseRead (t : Time) (s : State) : Host.Outcome State Fault Refusal :=
  onDev (runFuseRead t) s

/-- BYPASS. -/
def execBypass (t : Time) (s : State) : Host.Outcome State Fault Refusal :=
  onDev (runBypass t) s

/-- PCIE_RESET_END. -/
def execPcieResetEnd (t : Time) (s : State) : Host.Outcome State Fault Refusal :=
  onDev (runPcieResetEnd t) s

/-- NOR_OPERATION_DONE. -/
def execNorOperationDone (t : Time) (s : State) : Host.Outcome State Fault Refusal :=
  onDev (runNorOperationDone t) s

/-- CHECKPOINT_TICK. -/
def execCheckpointTick (t : Time) (s : State) : Host.Outcome State Fault Refusal :=
  onDev (runCheckpointTick t) s

/-- VALLEY_TIME_HOLDOVER. -/
def execValleyTimeHoldover (t : Time) (dom : Nat) (s : State) : Host.Outcome State Fault Refusal :=
  onDev (runValleyTimeHoldover t dom) s

/-- SCRUB_PASS_END. -/
def execScrubPassEnd (t : Time) (s : State) : Host.Outcome State Fault Refusal :=
  onDev (runScrubPassEnd t) s

/-- PARTNER_ADVERTISEMENT_CHANGE. -/
def execPartnerAdvertisementChange (t : Time) (port : Nat) (word : Nat) (s : State) : Host.Outcome State Fault Refusal :=
  onDev (runPartnerAdvertisementChange t port word) s

/-- ZONE_HOLD_RESET. -/
def execZoneHoldReset (t : Time) (z : Nat) (s : State) : Host.Outcome State Fault Refusal :=
  onDev (runZoneHoldReset t z) s

end Sys2Proof.Machine
end

