-- ==== Sys2Proof/Machine/Dispatch.lean ====
section
/-! DEFINITION. The dispatch of commands to their meanings: one arm for each constructor, each a single direct call. -/

namespace Sys2Proof.Machine

/-- The effect of a command on everything but the queue. -/
def exec (i : Instr) (s : State) : Host.Outcome State Fault Refusal :=
  match i with
  | .powerOnReset t => Sys2Proof.Machine.execPowerOnReset t s
  | .warmReset t => Sys2Proof.Machine.execWarmReset t s
  | .softwareReset t value => Sys2Proof.Machine.execSoftwareReset t value s
  | .watchdogExpiry t core => Sys2Proof.Machine.execWatchdogExpiry t core s
  | .pcieFundamentalReset t => Sys2Proof.Machine.execPcieFundamentalReset t s
  | .jtagReset t => Sys2Proof.Machine.execJtagReset t s
  | .resetEnd t boot testEn => Sys2Proof.Machine.execResetEnd t boot testEn s
  | .daybreakEnd t report => Sys2Proof.Machine.execDaybreakEnd t report s
  | .authenticationDone t => Sys2Proof.Machine.execAuthenticationDone t s
  | .configureEnd t claimWon => Sys2Proof.Machine.execConfigureEnd t claimWon s
  | .firstLight t => Sys2Proof.Machine.execFirstLight t s
  | .configureBegin t => Sys2Proof.Machine.execConfigureBegin t s
  | .vlowStop t mv => Sys2Proof.Machine.execVlowStop t mv s
  | .vlowStopClear t mv => Sys2Proof.Machine.execVlowStopClear t mv s
  | .vlowHold t mv => Sys2Proof.Machine.execVlowHold t mv s
  | .vlowHoldClear t mv => Sys2Proof.Machine.execVlowHoldClear t mv s
  | .livenessTimeout t => Sys2Proof.Machine.execLivenessTimeout t s
  | .cmdDoorbell t value => Sys2Proof.Machine.execCmdDoorbell t value s
  | .cmpHeadWrite t value => Sys2Proof.Machine.execCmpHeadWrite t value s
  | .mgtCommandDatagram t ip port bytes => Sys2Proof.Machine.execMgtCommandDatagram t ip port bytes s
  | .completionVectorPacing t => Sys2Proof.Machine.execCompletionVectorPacing t s
  | .nop t h => Sys2Proof.Machine.execNop t h s
  | .query t h handle => Sys2Proof.Machine.execQuery t h handle s
  | .regRead t h off count => Sys2Proof.Machine.execRegRead t h off count s
  | .regWrite t h off value mask => Sys2Proof.Machine.execRegWrite t h off value mask s
  | .setMode t h target => Sys2Proof.Machine.execSetMode t h target s
  | .ledgerRead t h line => Sys2Proof.Machine.execLedgerRead t h line s
  | .governorSet t h target => Sys2Proof.Machine.execGovernorSet t h target s
  | .create t h args => Sys2Proof.Machine.execCreate t h args s
  | .destroy t h handle => Sys2Proof.Machine.execDestroy t h handle s
  | .modify t h handle off len => Sys2Proof.Machine.execModify t h handle off len s
  | .start t h handle secs nanos now => Sys2Proof.Machine.execStart t h handle secs nanos now s
  | .stop t h handle => Sys2Proof.Machine.execStop t h handle s
  | .setPriority t h handle prio => Sys2Proof.Machine.execSetPriority t h handle prio s
  | .admitCheck t h args => Sys2Proof.Machine.execAdmitCheck t h args s
  | .layerCommit t h handle args => Sys2Proof.Machine.execLayerCommit t h handle args s
  | .retime t h handle args => Sys2Proof.Machine.execRetime t h handle args s
  | .actionArm t h handle args => Sys2Proof.Machine.execActionArm t h handle args s
  | .actionCancel t h handle => Sys2Proof.Machine.execActionCancel t h handle s
  | .domainSwitch t h handle args => Sys2Proof.Machine.execDomainSwitch t h handle args s
  | .ringFlush t h handle => Sys2Proof.Machine.execRingFlush t h handle s
  | .ringMark t h handle => Sys2Proof.Machine.execRingMark t h handle s
  | .ringRewind t h handle => Sys2Proof.Machine.execRingRewind t h handle s
  | .ringRelease t h handle count allRead => Sys2Proof.Machine.execRingRelease t h handle count allRead s
  | .pxpDiagStatus t h port => Sys2Proof.Machine.execPxpDiagStatus t h port s
  | .pxpDiagShortTest t h port shorts => Sys2Proof.Machine.execPxpDiagShortTest t h port shorts s
  | .pxpDiagClear t h port => Sys2Proof.Machine.execPxpDiagClear t h port s
  | .pxpDiagProbeNow t h port => Sys2Proof.Machine.execPxpDiagProbeNow t h port s
  | .migrateSwitch t h handle frame => Sys2Proof.Machine.execMigrateSwitch t h handle frame s
  | .migrateAbort t h handle => Sys2Proof.Machine.execMigrateAbort t h handle s
  | .handoverStart t h args => Sys2Proof.Machine.execHandoverStart t h args s
  | .handoverCancel t h => Sys2Proof.Machine.execHandoverCancel t h s
  | .norRead t h off len arg => Sys2Proof.Machine.execNorRead t h off len arg s
  | .norErase t h off sectors => Sys2Proof.Machine.execNorErase t h off sectors s
  | .norProgram t h off len arg => Sys2Proof.Machine.execNorProgram t h off len arg s
  | .updateOpen t h args => Sys2Proof.Machine.execUpdateOpen t h args s
  | .updateRefresh t h => Sys2Proof.Machine.execUpdateRefresh t h s
  | .updateWrite t h args => Sys2Proof.Machine.execUpdateWrite t h args s
  | .updateVerify t h => Sys2Proof.Machine.execUpdateVerify t h s
  | .updateActivate t h => Sys2Proof.Machine.execUpdateActivate t h s
  | .updateConfirm t h => Sys2Proof.Machine.execUpdateConfirm t h s
  | .updateClose t h => Sys2Proof.Machine.execUpdateClose t h s
  | .chkRun t h handle args => Sys2Proof.Machine.execChkRun t h handle args s
  | .recalibrate t h item inst readings => Sys2Proof.Machine.execRecalibrate t h item inst readings s
  | .bistSpm t h defects => Sys2Proof.Machine.execBistSpm t h defects s
  | .bistPlain t h failing => Sys2Proof.Machine.execBistPlain t h failing s
  | .bistPins t h shorts => Sys2Proof.Machine.execBistPins t h shorts s
  | .registerWrite t off value => Sys2Proof.Machine.execRegisterWrite t off value s
  | .governorReading t monitors => Sys2Proof.Machine.execGovernorReading t monitors s
  | .avsbusTransactionDone t acked readMv => Sys2Proof.Machine.execAvsbusTransactionDone t acked readMv s
  | .mr4Read t codeA codeB => Sys2Proof.Machine.execMr4Read t codeA codeB s
  | .dqsOscillatorRead t readings => Sys2Proof.Machine.execDqsOscillatorRead t readings s
  | .scrubOverdue t => Sys2Proof.Machine.execScrubOverdue t s
  | .handleRelease t handle => Sys2Proof.Machine.execHandleRelease t handle s
  | .bar2Write t off bytes => Sys2Proof.Machine.execBar2Write t off bytes s
  | .bar2Read t off len bad => Sys2Proof.Machine.execBar2Read t off len bad s
  | .xlatAddrWrite t value => Sys2Proof.Machine.execXlatAddrWrite t value s
  | .inboxPush t task item => Sys2Proof.Machine.execInboxPush t task item s
  | .pushWaitGranted t task => Sys2Proof.Machine.execPushWaitGranted t task s
  | .taskDispatch t engine lost tables => Sys2Proof.Machine.execTaskDispatch t engine lost tables s
  | .taskComplete t task => Sys2Proof.Machine.execTaskComplete t task s
  | .pushRingWrite t value => Sys2Proof.Machine.execPushRingWrite t value s
  | .pushDataHiWrite t value => Sys2Proof.Machine.execPushDataHiWrite t value s
  | .pushCommit t value => Sys2Proof.Machine.execPushCommit t value s
  | .popLoRead t bad => Sys2Proof.Machine.execPopLoRead t bad s
  | .dropRest t value => Sys2Proof.Machine.execDropRest t value s
  | .ringVectorPacing t ring => Sys2Proof.Machine.execRingVectorPacing t ring s
  | .st2110PacketRx t pkt => Sys2Proof.Machine.execSt2110PacketRx t pkt s
  | .streamLost t n => Sys2Proof.Machine.execStreamLost t n s
  | .frameTick t c => Sys2Proof.Machine.execFrameTick t c s
  | .bandWritten t c bad => Sys2Proof.Machine.execBandWritten t c bad s
  | .passComplete t c => Sys2Proof.Machine.execPassComplete t c s
  | .underrun t c => Sys2Proof.Machine.execUnderrun t c s
  | .switchDone t c => Sys2Proof.Machine.execSwitchDone t c s
  | .e131PacketRx t port pkt => Sys2Proof.Machine.execE131PacketRx t port pkt s
  | .sourceLost t input src => Sys2Proof.Machine.execSourceLost t input src s
  | .inputReleased t input => Sys2Proof.Machine.execInputReleased t input s
  | .syncLaunch t port => Sys2Proof.Machine.execSyncLaunch t port s
  | .txFrameStart t port => Sys2Proof.Machine.execTxFrameStart t port s
  | .txFrameEnd t port => Sys2Proof.Machine.execTxFrameEnd t port s
  | .remoteLate t univ => Sys2Proof.Machine.execRemoteLate t univ s
  | .discoverySend t ident => Sys2Proof.Machine.execDiscoverySend t ident s
  | .siteTick t univ => Sys2Proof.Machine.execSiteTick t univ s
  | .dmxBreak t line => Sys2Proof.Machine.execDmxBreak t line s
  | .rdmRequestStart t line => Sys2Proof.Machine.execRdmRequestStart t line s
  | .rdmResponseRx t line resp => Sys2Proof.Machine.execRdmResponseRx t line resp s
  | .rdmTimeout t line => Sys2Proof.Machine.execRdmTimeout t line s
  | .discoveryInterval t line => Sys2Proof.Machine.execDiscoveryInterval t line s
  | .discGo t line value => Sys2Proof.Machine.execDiscGo t line value s
  | .mailboxGo t line value => Sys2Proof.Machine.execMailboxGo t line value s
  | .pxpFrameStart t port diag => Sys2Proof.Machine.execPxpFrameStart t port diag s
  | .pxpFillDone t port => Sys2Proof.Machine.execPxpFillDone t port s
  | .refreshStart t port diag => Sys2Proof.Machine.execRefreshStart t port diag s
  | .diagMinOnWrite t port value => Sys2Proof.Machine.execDiagMinOnWrite t port value s
  | .pinReadback t port mismatch => Sys2Proof.Machine.execPinReadback t port mismatch s
  | .linkUp t port => Sys2Proof.Machine.execLinkUp t port s
  | .linkDown t port => Sys2Proof.Machine.execLinkDown t port s
  | .linkMismatch t port => Sys2Proof.Machine.execLinkMismatch t port s
  | .anRestart t port value => Sys2Proof.Machine.execAnRestart t port value s
  | .verifyRestart t port value => Sys2Proof.Machine.execVerifyRestart t port value s
  | .pauseEnWrite t port value => Sys2Proof.Machine.execPauseEnWrite t port value s
  | .verifyTimeout t port => Sys2Proof.Machine.execVerifyTimeout t port s
  | .mpacketRx t port respond => Sys2Proof.Machine.execMpacketRx t port respond s
  | .rxFrame t port frame => Sys2Proof.Machine.execRxFrame t port frame s
  | .pauseEnd t port => Sys2Proof.Machine.execPauseEnd t port s
  | .arpRequestRetry t port ip => Sys2Proof.Machine.execArpRequestRetry t port ip s
  | .arpEntryRefresh t port ip => Sys2Proof.Machine.execArpEntryRefresh t port ip s
  | .arpEntryExpiry t port ip => Sys2Proof.Machine.execArpEntryExpiry t port ip s
  | .igmpReportSend t port group => Sys2Proof.Machine.execIgmpReportSend t port group s
  | .snapGo t port value => Sys2Proof.Machine.execSnapGo t port value s
  | .snapAll t value => Sys2Proof.Machine.execSnapAll t value s
  | .cntLoRead t port ctr => Sys2Proof.Machine.execCntLoRead t port ctr s
  | .refLost t => Sys2Proof.Machine.execRefLost t s
  | .sref0Return t => Sys2Proof.Machine.execSref0Return t s
  | .timLatch t value => Sys2Proof.Machine.execTimLatch t value s
  | .ptpMessageRx t msg => Sys2Proof.Machine.execPtpMessageRx t msg s
  | .ptpSyncSend t port dom => Sys2Proof.Machine.execPtpSyncSend t port dom s
  | .ptpAnnounceSend t port dom => Sys2Proof.Machine.execPtpAnnounceSend t port dom s
  | .ptpDelayReqSend t port dom => Sys2Proof.Machine.execPtpDelayReqSend t port dom s
  | .holdoverEnter t dom => Sys2Proof.Machine.execHoldoverEnter t dom s
  | .tickRefEdge t dom => Sys2Proof.Machine.execTickRefEdge t dom s
  | .tickLost t dom => Sys2Proof.Machine.execTickLost t dom s
  | .ppsOutPulse t => Sys2Proof.Machine.execPpsOutPulse t s
  | .ltcFrame t j frame => Sys2Proof.Machine.execLtcFrame t j frame s
  | .ltcLost t j => Sys2Proof.Machine.execLtcLost t j s
  | .actionFired t act => Sys2Proof.Machine.execActionFired t act s
  | .pulseEnd t act => Sys2Proof.Machine.execPulseEnd t act s
  | .capture t input falling => Sys2Proof.Machine.execCapture t input falling s
  | .capNsRead t input => Sys2Proof.Machine.execCapNsRead t input s
  | .adcResult t volts => Sys2Proof.Machine.execAdcResult t volts s
  | .telemetryDatagramRx t port ip bytes => Sys2Proof.Machine.execTelemetryDatagramRx t port ip bytes s
  | .zoneCycle t z => Sys2Proof.Machine.execZoneCycle t z s
  | .holdExpiry t z => Sys2Proof.Machine.execHoldExpiry t z s
  | .zoneVacant t z => Sys2Proof.Machine.execZoneVacant t z s
  | .valleySignalDetect t l => Sys2Proof.Machine.execValleySignalDetect t l s
  | .valleyLinkLock t l => Sys2Proof.Machine.execValleyLinkLock t l s
  | .valleyHelloRx t l hello => Sys2Proof.Machine.execValleyHelloRx t l hello s
  | .linkControlSend t l => Sys2Proof.Machine.execLinkControlSend t l s
  | .valleyLinkDown t l => Sys2Proof.Machine.execValleyLinkDown t l s
  | .valleyPacketRx t l pkt => Sys2Proof.Machine.execValleyPacketRx t l pkt s
  | .membershipUpdateSend t => Sys2Proof.Machine.execMembershipUpdateSend t s
  | .memberLeave t uid => Sys2Proof.Machine.execMemberLeave t uid s
  | .reroute t => Sys2Proof.Machine.execReroute t s
  | .admitTimeout t => Sys2Proof.Machine.execAdmitTimeout t s
  | .timePacketSend t dom => Sys2Proof.Machine.execTimePacketSend t dom s
  | .linkDelayExchange t l t1 t2 t3 t4 => Sys2Proof.Machine.execLinkDelayExchange t l t1 t2 t3 t4 s
  | .relayRequestSend t => Sys2Proof.Machine.execRelayRequestSend t s
  | .relayStall t l => Sys2Proof.Machine.execRelayStall t l s
  | .heartbeatSend t => Sys2Proof.Machine.execHeartbeatSend t s
  | .heartbeatRx t path word => Sys2Proof.Machine.execHeartbeatRx t path word s
  | .heartbeatMiss t path => Sys2Proof.Machine.execHeartbeatMiss t path s
  | .pathDegraded t path => Sys2Proof.Machine.execPathDegraded t path s
  | .ilkBreath t low => Sys2Proof.Machine.execIlkBreath t low s
  | .ilkLineClass t cls => Sys2Proof.Machine.execIlkLineClass t cls s
  | .claimEvaluation t => Sys2Proof.Machine.execClaimEvaluation t s
  | .claimRelease t => Sys2Proof.Machine.execClaimRelease t s
  | .claimSample t high => Sys2Proof.Machine.execClaimSample t high s
  | .witnessProbeTimeout t => Sys2Proof.Machine.execWitnessProbeTimeout t s
  | .witnessAnswerTimeout t => Sys2Proof.Machine.execWitnessAnswerTimeout t s
  | .checkpointTrailerRx t bytes => Sys2Proof.Machine.execCheckpointTrailerRx t bytes s
  | .checkpointAckTimeout t => Sys2Proof.Machine.execCheckpointAckTimeout t s
  | .handoverRelease t => Sys2Proof.Machine.execHandoverRelease t s
  | .healthReport t fxpFail defects => Sys2Proof.Machine.execHealthReport t fxpFail defects s
  | .fwCtrlGo t value => Sys2Proof.Machine.execFwCtrlGo t value s
  | .loaderDatagramRx t ip port bytes => Sys2Proof.Machine.execLoaderDatagramRx t ip port bytes s
  | .loaderHello t => Sys2Proof.Machine.execLoaderHello t s
  | .loaderAck t => Sys2Proof.Machine.execLoaderAck t s
  | .loaderSessionTimeout t => Sys2Proof.Machine.execLoaderSessionTimeout t s
  | .revokeWrite t value => Sys2Proof.Machine.execRevokeWrite t value s
  | .journalCopySector t readbackOk => Sys2Proof.Machine.execJournalCopySector t readbackOk s
  | .converted t image => Sys2Proof.Machine.execConverted t image s
  | .sessionExpired t => Sys2Proof.Machine.execSessionExpired t s
  | .norTimeout t => Sys2Proof.Machine.execNorTimeout t s
  | .persistentLogWrite t => Sys2Proof.Machine.execPersistentLogWrite t s
  | .chkScanDone t n bad => Sys2Proof.Machine.execChkScanDone t n bad s
  | .chkAbort t n value => Sys2Proof.Machine.execChkAbort t n value s
  | .railRead t mvs => Sys2Proof.Machine.execRailRead t mvs s
  | .tempReading t x => Sys2Proof.Machine.execTempReading t x s
  | .extest t cells => Sys2Proof.Machine.execExtest t cells s
  | .idcode t => Sys2Proof.Machine.execIdcode t s
  | .samplePreload t cells => Sys2Proof.Machine.execSamplePreload t cells s
  | .highz t => Sys2Proof.Machine.execHighz t s
  | .clamp t => Sys2Proof.Machine.execClamp t s
  | .fuseRead t => Sys2Proof.Machine.execFuseRead t s
  | .bypass t => Sys2Proof.Machine.execBypass t s
  | .pcieResetEnd t => Sys2Proof.Machine.execPcieResetEnd t s
  | .norOperationDone t => Sys2Proof.Machine.execNorOperationDone t s
  | .checkpointTick t => Sys2Proof.Machine.execCheckpointTick t s
  | .valleyTimeHoldover t dom => Sys2Proof.Machine.execValleyTimeHoldover t dom s
  | .scrubPassEnd t => Sys2Proof.Machine.execScrubPassEnd t s
  | .partnerAdvertisementChange t port word => Sys2Proof.Machine.execPartnerAdvertisementChange t port word s
  | .zoneHoldReset t z => Sys2Proof.Machine.execZoneHoldReset t z s

end Sys2Proof.Machine
end

