-- ==== Sys2Proof/Machine/Entry.lean ====
section
/-! DEFINITION. The entries of the commands (R56, R59): the 64 bytes that a host writes for a command row. -/

namespace Sys2Proof.Machine

/-- The header, the opcode and the handle (0 where it names none) of a row that is a command of R59; none for every other row. -/
def cmdOf : Instr → Option (CmdHdr × Nat × Word)
  | .nop _ h => some (h, 0x00, 0)
  | .query _ h x => some (h, 0x01, x)
  | .regRead _ h _ _ => some (h, 0x02, 0)
  | .regWrite _ h _ _ _ => some (h, 0x03, 0)
  | .setMode _ h _ => some (h, 0x04, 0)
  | .ledgerRead _ h _ => some (h, 0x05, 0)
  | .governorSet _ h _ => some (h, 0x06, 0)
  | .create _ h _ => some (h, 0x10, 0)
  | .destroy _ h x => some (h, 0x11, x)
  | .modify _ h x _ _ => some (h, 0x12, x)
  | .start _ h x _ _ _ => some (h, 0x13, x)
  | .stop _ h x => some (h, 0x14, x)
  | .setPriority _ h x _ => some (h, 0x15, x)
  | .admitCheck _ h _ => some (h, 0x16, 0)
  | .layerCommit _ h x _ => some (h, 0x100, x)
  | .retime _ h x _ => some (h, 0x101, x)
  | .actionArm _ h x _ => some (h, 0x200, x)
  | .actionCancel _ h x => some (h, 0x201, x)
  | .domainSwitch _ h x _ => some (h, 0x202, x)
  | .ringFlush _ h x => some (h, 0x300, x)
  | .ringMark _ h x => some (h, 0x301, x)
  | .ringRewind _ h x => some (h, 0x302, x)
  | .ringRelease _ h x _ _ => some (h, 0x303, x)
  | .pxpDiagStatus _ h _ => some (h, 0x400, 0)
  | .pxpDiagShortTest _ h _ _ => some (h, 0x400, 0)
  | .pxpDiagClear _ h _ => some (h, 0x400, 0)
  | .pxpDiagProbeNow _ h _ => some (h, 0x400, 0)
  | .migrateSwitch _ h x _ => some (h, 0x500, x)
  | .migrateAbort _ h x => some (h, 0x500, x)
  | .handoverStart _ h _ => some (h, 0x600, 0)
  | .handoverCancel _ h => some (h, 0x600, 0)
  | .norRead _ h _ _ _ => some (h, 0x700, 0)
  | .norErase _ h _ _ => some (h, 0x701, 0)
  | .norProgram _ h _ _ _ => some (h, 0x702, 0)
  | .updateOpen _ h _ => some (h, 0x703, 0)
  | .updateRefresh _ h => some (h, 0x704, 0)
  | .updateWrite _ h _ => some (h, 0x705, 0)
  | .updateVerify _ h => some (h, 0x706, 0)
  | .updateActivate _ h => some (h, 0x707, 0)
  | .updateConfirm _ h => some (h, 0x708, 0)
  | .updateClose _ h => some (h, 0x709, 0)
  | .chkRun _ h x _ => some (h, 0x800, x)
  | .recalibrate _ h _ _ _ => some (h, 0x801, 0)
  | .bistSpm _ h _ => some (h, 0x802, 0)
  | .bistPlain _ h _ => some (h, 0x802, 0)
  | .bistPins _ h _ => some (h, 0x802, 0)
  | _ => none

/-- The ARGS area of CREATE and ADMIT_CHECK. -/
def createBytes (a : CreateArgs) : List Byte :=
  leBytes 1 a.kind ++ leBytes 1 a.cls ++ leBytes 1 a.prio ++
    leBytes 1 ((if a.anyIndex then 1 else 0) + (if a.start then 2 else 0)) ++
    leBytes 4 a.index ++ leBytes 8 a.secs ++ leBytes 4 a.nanos ++ leBytes 4 0 ++ leBytes 4 a.recOff ++ leBytes 4 a.recLen ++
    List.replicate 16 0

/-- The ARGS area, 48 bytes, of a command row. A row whose operands say more than an entry can, what a physical test found or a reading, has
none; nor has one whose operation byte is another operation's. -/
def argsOf : Instr → Option (List Byte)
  | .nop _ _ => some (fit 48 [])
  | .query _ _ _ => some (fit 48 [])
  | .regRead _ _ off count => some (leBytes 4 off ++ leBytes 1 count ++ List.replicate 43 0)
  | .regWrite _ _ off v m => some (leBytes 4 off ++ leBytes 4 v.toNat ++ leBytes 4 m.toNat ++ List.replicate 36 0)
  | .setMode _ _ target => some (leBytes 1 target ++ List.replicate 47 0)
  | .ledgerRead _ _ line => some (leBytes 1 line ++ List.replicate 47 0)
  | .governorSet _ _ target => some (leBytes 2 target ++ List.replicate 46 0)
  | .create _ _ a => some (createBytes a)
  | .destroy _ _ _ => some (fit 48 [])
  | .modify _ _ _ off len => some (List.replicate 24 0 ++ leBytes 4 off ++ leBytes 4 len ++ List.replicate 16 0)
  | .start _ _ _ secs nanos now =>
    some (List.replicate 8 0 ++ leBytes 8 secs ++ leBytes 4 nanos ++ leBytes 1 (if now then 1 else 0) ++ List.replicate 27 0)
  | .stop _ _ _ => some (fit 48 [])
  | .setPriority _ _ _ prio => some ([0, 0] ++ leBytes 1 prio ++ List.replicate 45 0)
  | .admitCheck _ _ a => some (createBytes a)
  | .layerCommit _ _ _ args => some args
  | .retime _ _ _ args => some args
  | .actionArm _ _ _ args => some args
  | .actionCancel _ _ _ => some (fit 48 [])
  | .domainSwitch _ _ _ args => some args
  | .ringFlush _ _ _ => some (fit 48 [])
  | .ringMark _ _ _ => some (fit 48 [])
  | .ringRewind _ _ _ => some (fit 48 [])
  | .ringRelease _ _ _ count all => some (leBytes 4 count ++ leBytes 1 (if all then 1 else 0) ++ List.replicate 43 0)
  | .pxpDiagStatus _ _ port => some (leBytes 1 port ++ [0] ++ List.replicate 46 0)
  | .pxpDiagClear _ _ port => some (leBytes 1 port ++ [2] ++ List.replicate 46 0)
  | .pxpDiagProbeNow _ _ port => some (leBytes 1 port ++ [3] ++ List.replicate 46 0)
  | .migrateSwitch _ _ _ frame => some (List.replicate 8 0 ++ leBytes 8 frame ++ List.replicate 32 0)
  | .migrateAbort _ _ _ => some (1 :: List.replicate 47 0)
  | .handoverStart _ _ args => if at_ args 0 1 = 0 then some args else none
  | .handoverCancel _ _ => some (1 :: List.replicate 47 0)
  | .norRead _ _ off len arg => some (leBytes 4 off ++ leBytes 4 len ++ leBytes 4 arg ++ List.replicate 36 0)
  | .norErase _ _ off n => some (leBytes 4 off ++ leBytes 4 n ++ List.replicate 40 0)
  | .norProgram _ _ off len arg => some (leBytes 4 off ++ leBytes 4 len ++ leBytes 4 arg ++ List.replicate 36 0)
  | .updateOpen _ _ args => some args
  | .updateRefresh _ _ => some (fit 48 [])
  | .updateWrite _ _ args => some args
  | .updateVerify _ _ => some (fit 48 [])
  | .updateActivate _ _ => some (fit 48 [])
  | .updateConfirm _ _ => some (fit 48 [])
  | .updateClose _ _ => some (fit 48 [])
  | .chkRun _ _ _ args => some args
  | .recalibrate _ _ item inst readings => if readings = [] then some (leBytes 1 item ++ leBytes 1 inst ++ List.replicate 46 0) else none
  | _ => none

/-- The 64 bytes of an entry (R56): OPCODE, FLAGS (FENCE, IRQ), TAG, HANDLE, ARGS. -/
def entryBytes (h : CmdHdr) (op : Nat) (handle : Word) (args : List Byte) : List Byte :=
  leBytes 2 op ++ leBytes 1 ((if h.fence then 1 else 0) + (if h.irq then 2 else 0)) ++ [0] ++ leBytes 4 h.tag.toNat ++
    leBytes 4 handle.toNat ++ [0, 0, 0, 0] ++ args

end Sys2Proof.Machine
end

