-- ==== Sys2Proof/WellFormed.lean ====
section
/-! DEFINITION. Which commands are well formed: every operand lies in the range that its field, its port or its pin gives it. The
meanings are total and give an ill-formed command no effect beyond what the spec gives its operands. -/

namespace Sys2Proof

/-- Is a number below a bound? -/
def below (n x : Nat) : Bool := decide (x < n)

/-- A header: SLOT lies in the command ring, and an MGT sender's address and port in theirs. -/
def hdrOk (h : CmdHdr) : Bool :=
  match h.src with
  | .pcie => below 4096 h.slot
  | .mgt ip port => below 4294967296 ip && below 65536 port

/-- The fields of CREATE and ADMIT_CHECK. -/
def createOk (a : CreateArgs) : Bool :=
  below 256 a.kind && below 256 a.cls && below 256 a.prio && below 4294967296 a.index && below 18446744073709551616 a.secs &&
    below 4294967296 a.nanos && below 4294967296 a.recOff && below 4294967296 a.recLen

/-- A video packet: its port, its RTP fields. -/
def videoOk (p : VideoPkt) : Bool :=
  below 16 p.port && below 4294967296 p.group && below 65536 p.udpPort && below 128 p.payloadType && below 4294967296 p.seq &&
    below 4294967296 p.rtpTime

/-- An E1.31 packet. -/
def e131Ok (p : E131Pkt) : Bool :=
  below 4294967296 p.srcIp && below 256 p.priority && below 65536 p.syncAddress && below 256 p.seq && below 65536 p.uni &&
    below 256 p.startCode && decide (p.slots.length ≤ 512)

/-- A frame: its addresses, its VIDs, its type. -/
def frameOk (f : EthFrame) : Bool :=
  below 281474976710656 f.dst && below 281474976710656 f.src && f.tags.all (below 4096) && below 65536 f.etherType

/-- A PTP message. -/
def ptpOk (m : PtpMsg) : Bool :=
  below 17 m.port && below 16 m.msgType && below 256 m.domain && below 65536 m.seq && below 65536 m.srcPort

/-- A valley HELLO. -/
def helloOk (h : HelloMsg) : Bool :=
  below 18446744073709551616 h.uid && below 65536 h.valleyId && below 256 h.major && below 256 h.minor && below 256 h.address &&
    below 256 h.mode

/-- An RDM response. -/
def rdmOk (r : RdmResp) : Bool := below 281474976710656 r.uid && below 4 r.respType && below 256 r.cc && below 65536 r.pid

/-- DAYBREAK's findings: the items, steps and pins exist. -/
def daybreakOk (d : Daybreak) : Bool :=
  (d.cal.all fun e => below 9 e.1 && below 32 e.2.1) && below 7 d.trainStep && below 2 d.trainChannel && decide (d.spmFail.length ≤ 16) &&
    (d.pxpShort.all fun e => below 8 e.1 && below 11 e.2) && d.dmxShort.all (below 2)

/-- Is a command well formed? -/
def wellFormed (i : Instr) : Bool :=
  match i with
  | .powerOnReset _ => true
  | .warmReset _ => true
  | .softwareReset _ _ => true
  | .watchdogExpiry _ core => below 256 core
  | .pcieFundamentalReset _ => true
  | .jtagReset _ => true
  | .resetEnd _ boot _ => below 8 boot
  | .daybreakEnd _ report => daybreakOk report
  | .authenticationDone _ => true
  | .configureEnd _ _ => true
  | .firstLight _ => true
  | .configureBegin _ => true
  | .vlowStop _ mv => below 65536 mv
  | .vlowStopClear _ mv => below 65536 mv
  | .vlowHold _ mv => below 65536 mv
  | .vlowHoldClear _ mv => below 65536 mv
  | .livenessTimeout _ => true
  | .cmdDoorbell _ _ => true
  | .cmpHeadWrite _ _ => true
  | .mgtCommandDatagram _ ip port _ => below 4294967296 ip && below 65536 port
  | .completionVectorPacing _ => true
  | .nop _ h => hdrOk h
  | .query _ h _ => hdrOk h
  | .regRead _ h off count => hdrOk h && below 4294967296 off && below 256 count
  | .regWrite _ h off _ _ => hdrOk h && below 4294967296 off
  | .setMode _ h target => hdrOk h && below 256 target
  | .ledgerRead _ h line => hdrOk h && below 256 line
  | .governorSet _ h target => hdrOk h && below 65536 target
  | .create _ h args => hdrOk h && createOk args
  | .destroy _ h _ => hdrOk h
  | .modify _ h _ off len => hdrOk h && below 4294967296 off && below 4294967296 len
  | .start _ h _ secs nanos _ => hdrOk h && below 18446744073709551616 secs && below 4294967296 nanos
  | .stop _ h _ => hdrOk h
  | .setPriority _ h _ prio => hdrOk h && below 256 prio
  | .admitCheck _ h args => hdrOk h && createOk args
  | .layerCommit _ h _ args => hdrOk h && args.length == 48
  | .retime _ h _ args => hdrOk h && args.length == 48
  | .actionArm _ h _ args => hdrOk h && args.length == 48
  | .actionCancel _ h _ => hdrOk h
  | .domainSwitch _ h _ args => hdrOk h && args.length == 48
  | .ringFlush _ h _ => hdrOk h
  | .ringMark _ h _ => hdrOk h
  | .ringRewind _ h _ => hdrOk h
  | .ringRelease _ h _ count _ => hdrOk h && below 4294967296 count
  | .pxpDiagStatus _ h port => hdrOk h && below 8 port
  | .pxpDiagShortTest _ h port shorts => hdrOk h && below 8 port && shorts.all (below 11)
  | .pxpDiagClear _ h port => hdrOk h && below 8 port
  | .pxpDiagProbeNow _ h port => hdrOk h && below 8 port
  | .migrateSwitch _ h _ frame => hdrOk h && below 18446744073709551616 frame
  | .migrateAbort _ h _ => hdrOk h
  | .handoverStart _ h args => hdrOk h && args.length == 48
  | .handoverCancel _ h => hdrOk h
  | .norRead _ h off len arg => hdrOk h && below 4294967296 off && below 4294967296 len && below 4294967296 arg
  | .norErase _ h off sectors => hdrOk h && below 4294967296 off && below 4294967296 sectors
  | .norProgram _ h off len arg => hdrOk h && below 4294967296 off && below 4294967296 len && below 4294967296 arg
  | .updateOpen _ h args => hdrOk h && args.length == 48
  | .updateRefresh _ h => hdrOk h
  | .updateWrite _ h args => hdrOk h && args.length == 48
  | .updateVerify _ h => hdrOk h
  | .updateActivate _ h => hdrOk h
  | .updateConfirm _ h => hdrOk h
  | .updateClose _ h => hdrOk h
  | .chkRun _ h _ args => hdrOk h && args.length == 48
  | .recalibrate _ h item inst readings => hdrOk h && below 256 item && below 256 inst && (readings.all fun e => below 9 e.1 && below 32 e.2.1 && below 4294967296 e.2.2.1 && below 4294967296 e.2.2.2)
  | .bistSpm _ h defects => hdrOk h && defects.all (below 16)
  | .bistPlain _ h _ => hdrOk h
  | .bistPins _ h shorts => hdrOk h && (shorts.all fun e => below 11 e.1 && below 16 e.2)
  | .registerWrite _ off _ => below 4294967296 off
  | .governorReading _ _ => true
  | .avsbusTransactionDone _ _ readMv => below 65536 readMv
  | .mr4Read _ codeA codeB => below 256 codeA && below 256 codeB
  | .dqsOscillatorRead _ _ => true
  | .scrubOverdue _ => true
  | .handleRelease _ _ => true
  | .bar2Write _ off _ => below 4294967296 off
  | .bar2Read _ off len _ => below 4294967296 off && below 4294967296 len
  | .xlatAddrWrite _ _ => true
  | .inboxPush _ task item => below 65536 task && below 18446744073709551616 item
  | .pushWaitGranted _ task => below 65536 task
  | .taskDispatch _ engine _ _ => below 256 engine
  | .taskComplete _ task => below 65536 task
  | .pushRingWrite _ _ => true
  | .pushDataHiWrite _ _ => true
  | .pushCommit _ _ => true
  | .popLoRead _ _ => true
  | .dropRest _ _ => true
  | .ringVectorPacing _ ring => below 1024 ring
  | .st2110PacketRx _ pkt => videoOk pkt
  | .streamLost _ n => below 16 n
  | .frameTick _ c => below 8 c
  | .bandWritten _ c _ => below 8 c
  | .passComplete _ c => below 8 c
  | .underrun _ c => below 8 c
  | .switchDone _ c => below 8 c
  | .e131PacketRx _ port pkt => below 17 port && e131Ok pkt
  | .sourceLost _ input src => below 4096 input && below 4 src
  | .inputReleased _ input => below 4096 input
  | .syncLaunch _ port => below 17 port
  | .txFrameStart _ port => below 17 port
  | .txFrameEnd _ port => below 17 port
  | .remoteLate _ univ => below 131072 univ
  | .discoverySend _ ident => below 4096 ident
  | .siteTick _ univ => below 131072 univ
  | .dmxBreak _ line => below 2 line
  | .rdmRequestStart _ line => below 2 line
  | .rdmResponseRx _ line resp => below 2 line && rdmOk resp
  | .rdmTimeout _ line => below 2 line
  | .discoveryInterval _ line => below 2 line
  | .discGo _ line _ => below 2 line
  | .mailboxGo _ line _ => below 2 line
  | .pxpFrameStart _ port _ => below 8 port
  | .pxpFillDone _ port => below 8 port
  | .refreshStart _ port _ => below 8 port
  | .diagMinOnWrite _ port _ => below 8 port
  | .pinReadback _ port _ => below 8 port
  | .linkUp _ port => below 17 port
  | .linkDown _ port => below 17 port
  | .linkMismatch _ port => below 17 port
  | .anRestart _ port _ => below 17 port
  | .verifyRestart _ port _ => below 17 port
  | .pauseEnWrite _ port _ => below 17 port
  | .verifyTimeout _ port => below 17 port
  | .mpacketRx _ port _ => below 17 port
  | .rxFrame _ port frame => below 17 port && frameOk frame
  | .pauseEnd _ port => below 17 port
  | .arpRequestRetry _ port ip => below 17 port && below 4294967296 ip
  | .arpEntryRefresh _ port ip => below 17 port && below 4294967296 ip
  | .arpEntryExpiry _ port ip => below 17 port && below 4294967296 ip
  | .igmpReportSend _ port group => below 17 port && below 4294967296 group
  | .snapGo _ port _ => below 17 port
  | .snapAll _ _ => true
  | .cntLoRead _ port ctr => below 17 port && below 38 ctr
  | .refLost _ => true
  | .sref0Return _ => true
  | .timLatch _ _ => true
  | .ptpMessageRx _ msg => ptpOk msg
  | .ptpSyncSend _ port dom => below 17 port && below 2 dom
  | .ptpAnnounceSend _ port dom => below 17 port && below 2 dom
  | .ptpDelayReqSend _ port dom => below 17 port && below 2 dom
  | .holdoverEnter _ dom => below 2 dom
  | .tickRefEdge _ dom => below 2 dom
  | .tickLost _ dom => below 2 dom
  | .ppsOutPulse _ => true
  | .ltcFrame _ j _ => below 2 j
  | .ltcLost _ j => below 2 j
  | .actionFired _ act => below 32 act
  | .pulseEnd _ act => below 32 act
  | .capture _ input _ => below 8 input
  | .capNsRead _ input => below 8 input
  | .adcResult _ volts => volts.length == 8
  | .telemetryDatagramRx _ port ip _ => below 17 port && below 4294967296 ip
  | .zoneCycle _ z => below 4096 z
  | .holdExpiry _ z => below 4096 z
  | .zoneVacant _ z => below 4096 z
  | .valleySignalDetect _ l => below 4 l
  | .valleyLinkLock _ l => below 4 l
  | .valleyHelloRx _ l hello => below 4 l && helloOk hello
  | .linkControlSend _ l => below 4 l
  | .valleyLinkDown _ l => below 4 l
  | .valleyPacketRx _ l pkt => below 4 l && pkt.header.length == 32
  | .membershipUpdateSend _ => true
  | .memberLeave _ uid => below 18446744073709551616 uid
  | .reroute _ => true
  | .admitTimeout _ => true
  | .timePacketSend _ dom => below 2 dom
  | .linkDelayExchange _ l _ _ _ _ => below 4 l
  | .relayRequestSend _ => true
  | .relayStall _ l => below 4 l
  | .heartbeatSend _ => true
  | .heartbeatRx _ path word => decide (path = 1 ∨ path = 2) && below 18446744073709551616 word
  | .heartbeatMiss _ path => decide (path = 1 ∨ path = 2)
  | .pathDegraded _ path => decide (path = 1 ∨ path = 2)
  | .ilkBreath _ _ => true
  | .ilkLineClass _ cls => below 8 cls
  | .claimEvaluation _ => true
  | .claimRelease _ => true
  | .claimSample _ _ => true
  | .witnessProbeTimeout _ => true
  | .witnessAnswerTimeout _ => true
  | .checkpointTrailerRx _ _ => true
  | .checkpointAckTimeout _ => true
  | .handoverRelease _ => true
  | .healthReport _ fxpFail defects => below 131072 fxpFail && below 65536 defects
  | .fwCtrlGo _ _ => true
  | .loaderDatagramRx _ ip port _ => below 4294967296 ip && below 65536 port
  | .loaderHello _ => true
  | .loaderAck _ => true
  | .loaderSessionTimeout _ => true
  | .revokeWrite _ _ => true
  | .journalCopySector _ _ => true
  | .converted _ _ => true
  | .sessionExpired _ => true
  | .norTimeout _ => true
  | .persistentLogWrite _ => true
  | .chkScanDone _ n _ => below 8 n
  | .chkAbort _ n _ => below 8 n
  | .railRead _ mvs => mvs.length == 9
  | .tempReading _ _ => true
  | .extest _ _ => true
  | .idcode _ => true
  | .samplePreload _ _ => true
  | .highz _ => true
  | .clamp _ => true
  | .fuseRead _ => true
  | .bypass _ => true
  | .pcieResetEnd _ => true
  | .norOperationDone _ => true
  | .checkpointTick _ => true
  | .valleyTimeHoldover _ dom => below 2 dom
  | .scrubPassEnd _ => true
  | .partnerAdvertisementChange _ port word => below 17 port && below 4294967296 word
  | .zoneHoldReset _ z => below 4096 z

/-- The instant at which a command reaches the device. -/
def arrival (i : Instr) : Time :=
  match i with
  | .powerOnReset t => t
  | .warmReset t => t
  | .softwareReset t _ => t
  | .watchdogExpiry t _ => t
  | .pcieFundamentalReset t => t
  | .jtagReset t => t
  | .resetEnd t _ _ => t
  | .daybreakEnd t _ => t
  | .authenticationDone t => t
  | .configureEnd t _ => t
  | .firstLight t => t
  | .configureBegin t => t
  | .vlowStop t _ => t
  | .vlowStopClear t _ => t
  | .vlowHold t _ => t
  | .vlowHoldClear t _ => t
  | .livenessTimeout t => t
  | .cmdDoorbell t _ => t
  | .cmpHeadWrite t _ => t
  | .mgtCommandDatagram t _ _ _ => t
  | .completionVectorPacing t => t
  | .nop t _ => t
  | .query t _ _ => t
  | .regRead t _ _ _ => t
  | .regWrite t _ _ _ _ => t
  | .setMode t _ _ => t
  | .ledgerRead t _ _ => t
  | .governorSet t _ _ => t
  | .create t _ _ => t
  | .destroy t _ _ => t
  | .modify t _ _ _ _ => t
  | .start t _ _ _ _ _ => t
  | .stop t _ _ => t
  | .setPriority t _ _ _ => t
  | .admitCheck t _ _ => t
  | .layerCommit t _ _ _ => t
  | .retime t _ _ _ => t
  | .actionArm t _ _ _ => t
  | .actionCancel t _ _ => t
  | .domainSwitch t _ _ _ => t
  | .ringFlush t _ _ => t
  | .ringMark t _ _ => t
  | .ringRewind t _ _ => t
  | .ringRelease t _ _ _ _ => t
  | .pxpDiagStatus t _ _ => t
  | .pxpDiagShortTest t _ _ _ => t
  | .pxpDiagClear t _ _ => t
  | .pxpDiagProbeNow t _ _ => t
  | .migrateSwitch t _ _ _ => t
  | .migrateAbort t _ _ => t
  | .handoverStart t _ _ => t
  | .handoverCancel t _ => t
  | .norRead t _ _ _ _ => t
  | .norErase t _ _ _ => t
  | .norProgram t _ _ _ _ => t
  | .updateOpen t _ _ => t
  | .updateRefresh t _ => t
  | .updateWrite t _ _ => t
  | .updateVerify t _ => t
  | .updateActivate t _ => t
  | .updateConfirm t _ => t
  | .updateClose t _ => t
  | .chkRun t _ _ _ => t
  | .recalibrate t _ _ _ _ => t
  | .bistSpm t _ _ => t
  | .bistPlain t _ _ => t
  | .bistPins t _ _ => t
  | .registerWrite t _ _ => t
  | .governorReading t _ => t
  | .avsbusTransactionDone t _ _ => t
  | .mr4Read t _ _ => t
  | .dqsOscillatorRead t _ => t
  | .scrubOverdue t => t
  | .handleRelease t _ => t
  | .bar2Write t _ _ => t
  | .bar2Read t _ _ _ => t
  | .xlatAddrWrite t _ => t
  | .inboxPush t _ _ => t
  | .pushWaitGranted t _ => t
  | .taskDispatch t _ _ _ => t
  | .taskComplete t _ => t
  | .pushRingWrite t _ => t
  | .pushDataHiWrite t _ => t
  | .pushCommit t _ => t
  | .popLoRead t _ => t
  | .dropRest t _ => t
  | .ringVectorPacing t _ => t
  | .st2110PacketRx t _ => t
  | .streamLost t _ => t
  | .frameTick t _ => t
  | .bandWritten t _ _ => t
  | .passComplete t _ => t
  | .underrun t _ => t
  | .switchDone t _ => t
  | .e131PacketRx t _ _ => t
  | .sourceLost t _ _ => t
  | .inputReleased t _ => t
  | .syncLaunch t _ => t
  | .txFrameStart t _ => t
  | .txFrameEnd t _ => t
  | .remoteLate t _ => t
  | .discoverySend t _ => t
  | .siteTick t _ => t
  | .dmxBreak t _ => t
  | .rdmRequestStart t _ => t
  | .rdmResponseRx t _ _ => t
  | .rdmTimeout t _ => t
  | .discoveryInterval t _ => t
  | .discGo t _ _ => t
  | .mailboxGo t _ _ => t
  | .pxpFrameStart t _ _ => t
  | .pxpFillDone t _ => t
  | .refreshStart t _ _ => t
  | .diagMinOnWrite t _ _ => t
  | .pinReadback t _ _ => t
  | .linkUp t _ => t
  | .linkDown t _ => t
  | .linkMismatch t _ => t
  | .anRestart t _ _ => t
  | .verifyRestart t _ _ => t
  | .pauseEnWrite t _ _ => t
  | .verifyTimeout t _ => t
  | .mpacketRx t _ _ => t
  | .rxFrame t _ _ => t
  | .pauseEnd t _ => t
  | .arpRequestRetry t _ _ => t
  | .arpEntryRefresh t _ _ => t
  | .arpEntryExpiry t _ _ => t
  | .igmpReportSend t _ _ => t
  | .snapGo t _ _ => t
  | .snapAll t _ => t
  | .cntLoRead t _ _ => t
  | .refLost t => t
  | .sref0Return t => t
  | .timLatch t _ => t
  | .ptpMessageRx t _ => t
  | .ptpSyncSend t _ _ => t
  | .ptpAnnounceSend t _ _ => t
  | .ptpDelayReqSend t _ _ => t
  | .holdoverEnter t _ => t
  | .tickRefEdge t _ => t
  | .tickLost t _ => t
  | .ppsOutPulse t => t
  | .ltcFrame t _ _ => t
  | .ltcLost t _ => t
  | .actionFired t _ => t
  | .pulseEnd t _ => t
  | .capture t _ _ => t
  | .capNsRead t _ => t
  | .adcResult t _ => t
  | .telemetryDatagramRx t _ _ _ => t
  | .zoneCycle t _ => t
  | .holdExpiry t _ => t
  | .zoneVacant t _ => t
  | .valleySignalDetect t _ => t
  | .valleyLinkLock t _ => t
  | .valleyHelloRx t _ _ => t
  | .linkControlSend t _ => t
  | .valleyLinkDown t _ => t
  | .valleyPacketRx t _ _ => t
  | .membershipUpdateSend t => t
  | .memberLeave t _ => t
  | .reroute t => t
  | .admitTimeout t => t
  | .timePacketSend t _ => t
  | .linkDelayExchange t _ _ _ _ _ => t
  | .relayRequestSend t => t
  | .relayStall t _ => t
  | .heartbeatSend t => t
  | .heartbeatRx t _ _ => t
  | .heartbeatMiss t _ => t
  | .pathDegraded t _ => t
  | .ilkBreath t _ => t
  | .ilkLineClass t _ => t
  | .claimEvaluation t => t
  | .claimRelease t => t
  | .claimSample t _ => t
  | .witnessProbeTimeout t => t
  | .witnessAnswerTimeout t => t
  | .checkpointTrailerRx t _ => t
  | .checkpointAckTimeout t => t
  | .handoverRelease t => t
  | .healthReport t _ _ => t
  | .fwCtrlGo t _ => t
  | .loaderDatagramRx t _ _ _ => t
  | .loaderHello t => t
  | .loaderAck t => t
  | .loaderSessionTimeout t => t
  | .revokeWrite t _ => t
  | .journalCopySector t _ => t
  | .converted t _ => t
  | .sessionExpired t => t
  | .norTimeout t => t
  | .persistentLogWrite t => t
  | .chkScanDone t _ _ => t
  | .chkAbort t _ _ => t
  | .railRead t _ => t
  | .tempReading t _ => t
  | .extest t _ => t
  | .idcode t => t
  | .samplePreload t _ => t
  | .highz t => t
  | .clamp t => t
  | .fuseRead t => t
  | .bypass t => t
  | .pcieResetEnd t => t
  | .norOperationDone t => t
  | .checkpointTick t => t
  | .valleyTimeHoldover t _ => t
  | .scrubPassEnd t => t
  | .partnerAdvertisementChange t _ _ => t
  | .zoneHoldReset t _ => t

end Sys2Proof
end

