-- ==== Sys2Proof/Safety.lean ====
section
/-! DEFINITION. What counts as a safe run, in the terms the statements use. -/

namespace Sys2Proof.Machine

/-- A command completes: the device goes on as `d`, and the queue stays as it is. -/
def Completes (c : Instr) (s : State) (d : Dev) : Prop := exec c s = .next { s with toDev := d }

/-- The device as it stands when time has reached the instant `t` of a command. -/
abbrev AtTime (t : Time) (s : State) (d : Dev) : Prop := d = upTo t s.toDev

/-- The commands wait in the order in which they reach the device, each of them well formed. -/
def QueueOk (q : List Instr) : Prop :=
  (∀ c ∈ q, wellFormed c = true) ∧ q.Pairwise fun a b => arrival a ≤ arrival b

/-- A command of the tables of R59 may start, and the mode serves its opcode (R55, R56, R59). -/
abbrev Served (s : Dev) (h : CmdHdr) (op : Nat) (handle : Word) : Prop :=
  cmdMayStart s h handle = true ∧ opBarred s op = false

/-- A command completes with DONE and DATA bytes, on the device that its effect leaves as `d` (R54, R56). -/
def Answers (c : Instr) (s : State) (h : CmdHdr) (op : Nat) (handle : Word) (data : List Byte) (d : Dev) : Prop :=
  Completes c s (complete h op rcDone handle data d)

/-- A command completes with DONE later, when what it asked for has happened. -/
def Pends (c : Instr) (s : State) (h : CmdHdr) (handle : Word) (d : Dev) : Prop :=
  Completes c s { d with cmd.outst := d.cmd.outst ++ [(h, handle)] }

/-- The device held in RESET after `s`: nothing of the Plain, the handles and the blocks is left, every register but SYS.RESET_CAUSE and
SYS.STRAPS reads its reset value; the fuses and the test access port stay, and so does a NOR that no operation is changing (R25, R26). -/
def HeldInReset (s d : Dev) : Prop :=
  d.sys.mode = .reset ∧ d.plain = [] ∧ d.hdl = {} ∧ d.pln = {} ∧ d.sch = {} ∧ d.que = {} ∧ d.tim = {} ∧ d.vid = {} ∧ d.outp = {} ∧
    d.site = {} ∧ d.dmx = {} ∧ d.pxp = {} ∧ d.val = {} ∧ d.red = {} ∧ d.cmd = {} ∧ d.boot = {} ∧ d.upd = {} ∧ d.chk = {} ∧ d.cal = {} ∧
    d.fuses = s.fuses ∧ d.jtag = s.jtag ∧ (s.upd.jobs = [] → d.nor = s.nor) ∧
    (∀ off, off ≠ R.SYS_RESET_CAUSE → off ≠ R.SYS_STRAPS → rg d off = resetWord off) ∧ rg d R.SYS_STRAPS = rg s R.SYS_STRAPS

/-- The device without what the posting of an item can change. -/
def Dev.beside (s : Dev) : Dev := { s with que := {}, plain := [], pln := {}, regs := [], out := [] }

/-- The registers that the posting of an item can change. -/
def postCounters : List Nat := [R.QUE_UNROUTED, R.PLN_POOL_FAIL, R.PLN_XLAT_MISS, R.PLN_POOL]

end Sys2Proof.Machine
end

