-- ==== Sys2Proof/Certificates/Slice0/Obligations.lean ====
section
/-! DEFINITION. The statements for the provers. -/

open Sys2Proof Sys2Proof.Machine

/-- R25: POR_N and RST_N reset the whole device from every mode, a software reset only by a write that holds GO with the key, a watchdog
expiry from CONFIGURE on. What is left is the device held in RESET with the source's bit in SYS.RESET_CAUSE; POR clears the other four.
That PIN alone is shown after RST_N is the model's reading (log 23), and that a command out of place changes nothing is log 3's. -/
def Obligations.ResetSourcesEndInReset : Prop :=
  ∀ (t : Time) (core : Nat) (value : Word) (s : State) (d : Dev), AtTime t s d →
    (∃ e, Completes (.powerOnReset t) s e ∧ HeldInReset d e ∧ rg e R.SYS_RESET_CAUSE = 1) ∧
    (∃ e, Completes (.warmReset t) s e ∧ HeldInReset d e ∧ e.sys.rstLow = true ∧ (d.sys.mode ≠ .reset → rg e R.SYS_RESET_CAUSE = 2)) ∧
    (pcieUp d = true → value.toNat / 65536 = 0xC5A1 → bit value.toNat 0 = true →
      ∃ e, Completes (.softwareReset t value) s e ∧ HeldInReset d e ∧ rg e R.SYS_RESET_CAUSE = rg d R.SYS_RESET_CAUSE ||| 4) ∧
    (¬(value.toNat / 65536 = 0xC5A1 ∧ bit value.toNat 0 = true) → Completes (.softwareReset t value) s d) ∧
    (core < 4 → d.sys.mode ≠ .reset → d.sys.mode ≠ .daybreak → d.sys.mode ≠ .load →
      ∃ e, Completes (.watchdogExpiry t core) s e ∧ HeldInReset d e ∧ rg e R.SYS_RESET_CAUSE = rg d R.SYS_RESET_CAUSE ||| 8)

/-- R25, R27, R422: PERST_N resets the PCIe endpoint alone: the device keeps its mode, and in every mode but LOAD all of its state; in LOAD a
transfer of firmware over PCIe that is not complete is discarded, so that its pages read as nothing written. TRST_N resets the test access
port alone, which then holds IDCODE. -/
def Obligations.PartialResetsKeepTheRest : Prop :=
  ∀ (t : Time) (s : State) (d : Dev), AtTime t s d →
    (d.sys.mode ≠ .load → Completes (.pcieFundamentalReset t) s { d with sys.perstLow := true }) ∧
    (d.sys.mode = .load → sourceOn d 0 = true → d.boot.auth = [] →
      ∃ e, Completes (.pcieFundamentalReset t) s e ∧ e = { d with sys.perstLow := true, plain := e.plain } ∧
        ∀ page p a, (page, p) ∈ ptesOf d fwKey → a / pageBytes = p.ppn → plainByte e a = 0) ∧
    Completes (.pcieResetEnd t) s { d with sys.perstLow := false } ∧
    Completes (.jtagReset t) s { d with jtag := { ir := 1, cells := [] } }

/-- R26, R28, R29, R32, R33, R46: at the end of RESET the straps are latched where POR_N or RST_N was a source; the raw counter starts at 0 and the
mode is DAYBREAK, with WDOG and THERM of SYS.FAULT set by SYS.RESET_CAUSE; with TEST_EN latched high, or while the die is too hot, RESET stays. DAYBREAK
ends in LOAD, or halts on a fuse CRC mismatch, a training failure or a scratchpad bank whose spares do not cover its failing columns; a halt sets
SYS.STATUS.DB_FAIL and SYS.FAULT.DAYBREAK and holds its cause. -/
def Obligations.ResetEndsThroughDaybreak : Prop :=
  (∀ (t : Time) (boot : Nat) (test : Bool) (s : State) (d : Dev), AtTime t s d → d.sys.mode = .reset → d.sys.tripped = false →
      ∃ e, Completes (.resetEnd t boot test) s e ∧ e.sys.rstLow = false ∧
        (d.sys.causes % 4 ≠ 0 → fld e F.SYS_STRAPS_BOOT = boot % 8 ∧ (test = true → e.sys.mode = .reset)) ∧
        (d.sys.causes % 4 = 0 → fld e F.SYS_STRAPS_BOOT = fld d F.SYS_STRAPS_BOOT) ∧
        (e.sys.testEn = false → e.raw = 0 ∧ e.sys.mode = .daybreak ∧ e.sys.prev = .reset ∧
          bitOf e F.SYS_FAULT_WDOG = bit (rg d R.SYS_RESET_CAUSE).toNat 3 ∧ bitOf e F.SYS_FAULT_THERM = bit (rg d R.SYS_RESET_CAUSE).toNat 4)) ∧
  (∀ (t : Time) (r : Daybreak) (s : State) (d : Dev), AtTime t s d → d.sys.mode = .daybreak → d.sys.halted = false →
      ∃ e, Completes (.daybreakEnd t r) s e ∧
        let bad := ∃ n, n < 16 ∧ fld d (F.SPM_BANK_SPARE_LEFT n) < r.spmFail.getD n 0
        (fuseOk d.fuses = true ∧ r.trainStep = 0 ∧ ¬bad → e.sys.mode = .load ∧ e.sys.halted = false) ∧
        (fuseOk d.fuses = false ∨ r.trainStep ≠ 0 ∨ bad →
          e.sys.mode = .daybreak ∧ e.sys.halted = true ∧ bitOf e F.SYS_STATUS_DB_FAIL = true ∧ bitOf e F.SYS_FAULT_DAYBREAK = true) ∧
        (fuseOk d.fuses = false → fld e F.CAL_HALT_CAUSE = 1) ∧
        (fuseOk d.fuses = true → r.trainStep ≠ 0 → fld e F.CAL_HALT_CAUSE = 2) ∧
        (fuseOk d.fuses = true → r.trainStep = 0 → bad → fld e F.CAL_HALT_CAUSE = 3))

/-- R397, R40, R41: VMON below VMON_STOP sets the STOP bits and counts; below VMON_HOLD it sets the HOLD bits and counts, and the device goes
from ACTIVE or STANDBY to HOLD; 2 % above, the bits are clear, and HOLD ends in the mode it held from, but in STANDBY where a paired unit has
lost its interlock. -/
def Obligations.SupplyStopsAndHolds : Prop :=
  ∀ (t : Time) (mv : Nat) (s : State) (d : Dev), AtTime t s d → d.sys.mode ≠ .reset →
    (bitOf d F.SYS_STATUS_VLOW_STOP = false → mv < fld d F.SUP_VMON_STOP_MV →
      ∃ e, Completes (.vlowStop t mv) s e ∧ e.sys = d.sys ∧ bitOf e F.SYS_STATUS_VLOW_STOP = true ∧ bitOf e F.SUP_STATUS_STOP = true ∧
        rg e R.SUP_STOP_EVENTS = BitVec.ofNat 32 (min ((rg d R.SUP_STOP_EVENTS).toNat + 1) 0xFFFFFFFF)) ∧
    (bitOf d F.SYS_STATUS_VLOW_STOP = true → 51 * fld d F.SUP_VMON_STOP_MV ≤ 50 * mv →
      ∃ e, Completes (.vlowStopClear t mv) s e ∧ e.sys = d.sys ∧ bitOf e F.SYS_STATUS_VLOW_STOP = false ∧ bitOf e F.SUP_STATUS_STOP = false) ∧
    (bitOf d F.SYS_STATUS_VLOW_HOLD = false → mv < fld d F.SUP_VMON_HOLD_MV →
      ∃ e, Completes (.vlowHold t mv) s e ∧ bitOf e F.SYS_STATUS_VLOW_HOLD = true ∧ bitOf e F.SUP_STATUS_HOLD = true ∧
        (mv < fld d F.SUP_VMON_STOP_MV → bitOf e F.SYS_STATUS_VLOW_STOP = true) ∧
        (d.sys.mode = .active ∨ d.sys.mode = .standby →
          e.sys.mode = .hold ∧ e.sys.heldFrom = d.sys.mode ∧ bitOf e F.SYS_FAULT_HOLD = true ∧
          rg e R.SYS_HOLD_ENTRIES = BitVec.ofNat 32 (min ((rg d R.SYS_HOLD_ENTRIES).toNat + 1) 0xFFFFFFFF)) ∧
        (d.sys.mode ≠ .active → d.sys.mode ≠ .standby → e.sys = d.sys)) ∧
    (bitOf d F.SYS_STATUS_VLOW_HOLD = true → 51 * fld d F.SUP_VMON_HOLD_MV ≤ 50 * mv →
      ∃ e, Completes (.vlowHoldClear t mv) s e ∧
        let lost := d.sys.mode = .hold ∧ d.sys.heldFrom = .active ∧ d.red.paired = true ∧ d.red.ilk = false
        (¬lost → bitOf e F.SYS_STATUS_VLOW_HOLD = false ∧ bitOf e F.SUP_STATUS_HOLD = false) ∧
        (lost → e.sys.mode = .standby) ∧
        (d.sys.mode = .hold → ¬lost → e.sys.mode = if d.sys.heldFrom = .active then .active else .standby) ∧
        (d.sys.mode ≠ .hold → e.sys = d.sys))

/-- R365, R366: in LOAD, with PCIe a source of the straps and won by none, a GO with a length in range offers the PCIe image for authentication,
and one with a length out of range sets RESULT to OUT_OF_RANGE and does nothing else; with MGT a source and up, the first OFFER opens a session
and is accepted, HELLO goes out where no session is open and 1 s is over, an ACK 10 ms after the last, and a session without DATA for 1 s is
abandoned. -/
def Obligations.FirmwareSourcesInLoad : Prop :=
  ∀ (t : Time) (value : Word) (ip port : Nat) (bytes : List Byte) (s : State) (d : Dev), AtTime t s d → d.sys.mode = .load →
    (d.sys.perstLow = false → bit value.toNat 0 = true → sourceOn d 0 = true → fld d F.BOOT_FW_STATUS_WINNER ≠ 1 →
      fld d F.BOOT_FW_STATUS_WINNER ≠ 2 →
      ∃ e, Completes (.fwCtrlGo t value) s e ∧
        let len := fld d F.BOOT_FW_LEN_LEN
        (len < 4096 ∨ 16777216 < len → e = setFld F.BOOT_FW_STATUS_RESULT rcOutOfRange d) ∧
        (4096 ≤ len → len ≤ 16777216 → (∀ x ∈ d.boot.auth, x.1 ≠ 0) →
          e.boot.auth = d.boot.auth ++ [(0, len)] ∧ fld e F.BOOT_FW_STATUS_STATE = 1)) ∧
    (loaderUp d = true → d.boot.loader = none → bytes.length = 8 → at_ bytes 0 1 = 2 →
      ∃ e, Completes (.loaderDatagramRx t ip port bytes) s e ∧
        let id := (d.boot.sessions + 1) % 65536
        (4096 ≤ at_ bytes 4 4 → at_ bytes 4 4 ≤ 16777216 →
          fld e F.BOOT_LOADER_RECEIVED = 0 ∧ (∃ l, e.boot.loader = some l ∧ l.ip = ip ∧ l.port = port ∧ l.id = id ∧ l.len = at_ bytes 4 4 ∧
            l.next = 0) ∧ e.out = .mgt ip port 49730 (leBytes 1 3 ++ [0] ++ leBytes 2 id ++ leBytes 4 0) :: d.out) ∧
        (at_ bytes 4 4 < 4096 ∨ 16777216 < at_ bytes 4 4 →
          e = emit (.mgt ip port 49730 (leBytes 1 7 ++ [0] ++ leBytes 2 0 ++ leBytes 4 rcOutOfRange)) d)) ∧
    (loaderUp d = true → d.boot.loader = none → (∀ v, d.boot.helloAt = some v → v + sec 1 ≤ d.raw) →
      ∃ e b, Completes (.loaderHello t) s e ∧ e.out = .mgt (mgtBroadcast d) 49730 49730 b :: d.out ∧ e.boot.helloAt = some d.raw ∧
        e.boot.loader = none ∧ b.take 8 = [1, 0, 0, 0, 0, 0, 0, 0] ∧ b.length = 24) ∧
    (∀ l, d.boot.loader = some l →
      (l.ackAt + ms 10 ≤ d.raw → ∃ e, Completes (.loaderAck t) s e ∧
        e.out = .mgt l.ip l.port 49730 (leBytes 1 5 ++ [0] ++ leBytes 2 l.id ++ leBytes 4 l.next) :: d.out ∧
        e.boot.loader = some { l with ackAt := d.raw, acked := l.next }) ∧
      (l.next < l.len → l.dataAt + sec 1 ≤ d.raw → ∃ e, Completes (.loaderSessionTimeout t) s e ∧ e.boot.loader = none ∧
        fld e F.BOOT_LOADER_RECEIVED = 0))

/-- R363, R364: the image at the head of those complete is authentic, and the device enters CONFIGURE; or it fails, is discarded and counted,
AUTH_FAIL is set and LOAD stays. A key slot is revoked only in SERVICE with the key, neither the slot of the running firmware nor the last one
left; the fuses then hold it, and REVOKE_RESULT says what happened. -/
def Obligations.AuthenticationDecides : Prop :=
  ∀ (t : Time) (value : Word) (x : Nat × Nat) (r : List (Nat × Nat)) (s : State) (d : Dev), AtTime t s d →
    (d.sys.mode = .load → d.boot.auth = x :: r →
      ∃ e, Completes (.authenticationDone t) s e ∧
        (authentic d (offered d x) = true → e.sys.mode = .configure ∧ e.sys.prev = .load) ∧
        (authentic d (offered d x) = false → e.sys = d.sys ∧ e.boot.auth = r ∧ bitOf e F.SYS_STATUS_AUTH_FAIL = true ∧
          rg e R.BOOT_AUTH_FAILS = BitVec.ofNat 32 (min ((rg d R.BOOT_AUTH_FAILS).toNat + 1) 0xFFFFFFFF))) ∧
    (pcieUp d = true → value.toNat / 65536 = 0xC5A1 →
      ∃ e, Completes (.revokeWrite t value) s e ∧
        let slots := value.toNat % 16
        let keeps := ∃ k, k < 4 ∧ bit (emptySlots d) k = false ∧ bit (revoked d) k = false ∧ bit slots k = false
        let running := bitOf d F.BOOT_KEYS_FW_VALID = true ∧ bit slots (fld d F.BOOT_KEYS_FW_SLOT) = true
        (d.sys.mode ≠ .service → e = setFld F.BOOT_KEYS_REVOKE_RESULT rcWrongMode d) ∧
        (d.sys.mode = .service → running ∨ ¬keeps → e = setFld F.BOOT_KEYS_REVOKE_RESULT rcConflict d) ∧
        (d.sys.mode = .service → ¬running → keeps → fld e F.BOOT_KEYS_REVOKE_RESULT = rcDone ∧
          e.fuses.revokeA = d.fuses.revokeA ||| slots ∧ e.fuses.revokeB = d.fuses.revokeB ||| slots))

/-- R55, R56: an accepted SET_MODE to CONFIGURE takes effect once the host has read the completion ring up to the command's own completion, or,
over MGT, all of it, or after 100 ms; the rings are then empty and on their first pass. Until then nothing happens. -/
def Obligations.ConfigureBeginWaitsForTheHost : Prop :=
  ∀ (t : Time) (g : Gate) (s : State) (d : Dev), AtTime t s d → d.sys.gate = some g →
    let head := fld d F.HDL_CMP_HEAD_HEAD
    let tail := fld d F.HDL_CMP_TAIL_TAIL
    let read := if g.overMgt then head = tail else (tail + 4096 - head) % 4096 ≤ (tail + 4096 - g.past) % 4096
    ((read ∨ g.at_ + ms 100 ≤ d.raw) → ∃ e, Completes (.configureBegin t) s e ∧ e.sys.mode = .configure ∧ e.sys.prev = d.sys.mode ∧
      e.sys.gate = none ∧ fld e F.HDL_CMD_HEAD_HEAD = 0 ∧ fld e F.HDL_CMD_TAIL_TAIL = 0 ∧ fld e F.HDL_CMP_HEAD_HEAD = 0 ∧
      fld e F.HDL_CMP_TAIL_TAIL = 0 ∧ fld e F.HDL_CMP_TAIL_PHASE = 1) ∧
    (¬(read ∨ g.at_ + ms 100 ≤ d.raw) → Completes (.configureBegin t) s d)

/-- R32, R35, R37, R40: CONFIGURE ends in SERVICE where no bank can be read or an admission has been refused, with the code and the record in
SYS.CONFIG_RESULT, CFG_REFUSED and SYS.FAULT.CONFIG set; an unpaired unit whose records stand and are admitted is ACTIVE, or in HOLD where VMON
is below VMON_HOLD. -/
def Obligations.ConfigureEndsInActiveOrService : Prop :=
  ∀ (t : Time) (won : Bool) (s : State) (d : Dev), AtTime t s d → d.sys.mode = .configure → copying d = false →
    (∀ code n, code ≠ rcDone → code < 256 → n < 2 ^ 24 →
      (d.sys.placed = none ∧ chooseBank d = .error code ∧ n = 0) ∨ (d.sys.placed.isSome = true ∧ d.sys.bad = some (code, n)) →
      ∃ e, Completes (.configureEnd t won) s e ∧ e.sys.mode = .service ∧ fld e F.SYS_CONFIG_RESULT_RESULT_CODE = code ∧
        fld e F.SYS_CONFIG_RESULT_RECORD = n ∧ bitOf e F.SYS_STATUS_CFG_REFUSED = true ∧ bitOf e F.SYS_FAULT_CONFIG = true) ∧
    (d.boot.hdr = none ∨ (trailerOk d (bankBase 0) = false ∧ trailerOk d (bankBase 1) = false) → chooseBank d = .error rcMediaError) ∧
    (d.sys.placed.isSome = true → d.sys.bad = none → d.val.admissions = [] → d.red.paired = false →
      ∃ e, Completes (.configureEnd t won) s e ∧ e.sys.mode = if bitOf d F.SYS_STATUS_VLOW_HOLD then .hold else .active)

/-- R337, R32: with the control cores silent for 1 ms the interlock is released; ACTIVE becomes STANDBY, and HOLD will end there. First light is
noted once in ACTIVE, when a frame latched since is presented, or at once without a canvas; T_LIGHT then holds the first such instant. -/
def Obligations.LivenessAndFirstLight : Prop :=
  ∀ (t : Time) (s : State) (d : Dev), AtTime t s d →
    (timeRuns d = true → d.red.silent = false →
      ∃ e, Completes (.livenessTimeout t) s e ∧ e.red.silent = true ∧ e.red.ilk = false ∧
        (d.sys.mode = .active → e.sys.mode = .standby) ∧
        (d.sys.mode = .hold → e.sys = { d.sys with heldFrom := .standby }) ∧
        (d.sys.mode ≠ .active → d.sys.mode ≠ .hold → e.sys = d.sys)) ∧
    (d.sys.mode = .active → d.sys.lit = false → (d.vid.canvases = [] ∨ ∃ c ∈ d.vid.canvases, shownFirst d c.2 = true) →
      ∃ e, Completes (.firstLight t) s e ∧ e.sys = { d.sys with lit := true } ∧
        (rg d R.SYS_T_LIGHT = 0 → rg e R.SYS_T_LIGHT = BitVec.ofNat 32 ((d.raw - d.sys.tEnd) / us 1)) ∧
        (rg d R.SYS_T_LIGHT ≠ 0 → rg e R.SYS_T_LIGHT = rg d R.SYS_T_LIGHT))

/-- R54, R56, R59: a command from PCIe that is served posts one completion of 32 bytes at the ring's TAIL, TAIL goes to the next index with PHASE
turned after the last one, HDL.CMD_DONE counts it, and no other byte of the Plain changes; one from MGT changes neither the ring nor the Plain.
NOP does nothing else. -/
def Obligations.NopPostsOneCompletion : Prop :=
  ∀ (t : Time) (h : CmdHdr) (s : State) (d : Dev), AtTime t s d → Served d h 0 0 →
    ∃ e, Answers (.nop t h) s h 0 0 [] d ∧ Completes (.nop t h) s e ∧ e.sys = d.sys ∧ e.nor = d.nor ∧ e.hdl.objs = d.hdl.objs ∧
      rg e R.HDL_CMD_DONE = BitVec.ofNat 32 (min ((rg d R.HDL_CMD_DONE).toNat + 1) 0xFFFFFFFF) ∧
      (∀ o, o ∉ [R.HDL_CMD_DONE, R.HDL_CMP_TAIL, R.HDL_STATUS] → rg e o = rg d o) ∧
      (h.src = .pcie →
        let tail := fld d F.HDL_CMP_TAIL_TAIL
        let phase := fld d F.HDL_CMP_TAIL_PHASE
        fld e F.HDL_CMP_TAIL_TAIL = (tail + 1) % 4096 ∧ fld e F.HDL_CMP_TAIL_PHASE = (if tail = 4095 then 1 - phase else phase) ∧
        ∀ p, pteAt d ringKey (4 + 32 * tail / 65536) = some p →
          let a := p.ppn * 65536 + 32 * tail % 65536
          plainBytes e a 32 = leBytes 1 rcDone ++ leBytes 1 phase ++ leBytes 2 0 ++ leBytes 4 h.tag.toNat ++ leBytes 4 0 ++ leBytes 2 h.slot ++
            [0, 0] ++ List.replicate 16 0 ∧
          ∀ x, x < a ∨ a + 32 ≤ x → plainByte e x = plainByte d x) ∧
      (h.src ≠ .pcie → rg e R.HDL_CMP_TAIL = rg d R.HDL_CMP_TAIL ∧ e.plain = d.plain)

/-- R48, R59, R63: QUERY, REG_READ and LEDGER_READ answer what they read and leave the device as it is but for their completion (a register that
acts when it is read is named by its own rule); a handle that names no object in use is BAD_HANDLE, and an offset or line outside is OUT_OF_RANGE. -/
def Obligations.ReadsAnswerWhatTheyRead : Prop :=
  ∀ (t : Time) (h : CmdHdr) (handle : Word) (off count line : Nat) (s : State) (d : Dev), AtTime t s d →
    (Served d h 1 handle →
      (objOf d handle = none → Completes (.query t h handle) s (complete h 1 rcBadHandle handle [] d)) ∧
      ∀ o, objOf d handle = some o → ∃ data, Answers (.query t h handle) s h 1 handle data d ∧ data.length = 16 ∧
        data.take 3 = (if hKind handle ≤ 9 then leBytes 1 o.state ++ leBytes 1 o.cls ++ leBytes 1 o.prio else [0, 0, 0]) ∧
        (data.drop 4).take 4 = leBytes 4 (pinnedOf d (hKey handle))) ∧
    (Served d h 2 0 →
      (off % 4 = 0 → count ≤ 4 → off + 4 * count ≤ 0x1000000 →
        Answers (.regRead t h off count) s h 2 0 (readRegs off count d).2 (readRegs off count d).1 ∧ (readRegs off count d).2.length = 4 * count) ∧
      (off % 4 = 0 → off < 0x70000 → Answers (.regRead t h off 1) s h 2 0 (leBytes 4 (regShow d off).toNat) d) ∧
      (¬(off % 4 = 0 ∧ count ≤ 4 ∧ off + 4 * count ≤ 0x1000000) →
        Completes (.regRead t h off count) s (complete h 2 rcOutOfRange 0 [] d))) ∧
    (Served d h 5 0 →
      (line ≤ 28 → Answers (.ledgerRead t h line) s h 5 0
        (leBytes 4 (capOf d line) ++ leBytes 4 (usedOf d line) ++ leBytes 4 (chargedOn d line)) d) ∧
      (28 < line → Completes (.ledgerRead t h line) s (complete h 5 rcOutOfRange 0 [] d)))

/-- R37, R38, R55, R59, R63: SET_MODE moves from ACTIVE or STANDBY to SERVICE, where no checkpoint and no claim is left, and from SERVICE asks for CONFIGURE,
which begins once its completion is read; any other target is WRONG_MODE and changes nothing. REG_WRITE writes the bits of a plain register that
its mask names, GOVERNOR_SET the target of the governor within its range. -/
def Obligations.ModeAndRegisterCommandsAct : Prop :=
  ∀ (t : Time) (h : CmdHdr) (target off : Nat) (value mask : Word) (s : State) (d : Dev), AtTime t s d →
    (Served d h 4 0 → (target ≠ Mode.configure.code ∨ d.cmd.outst = []) →
      (target = Mode.service.code → d.sys.mode = .active ∨ d.sys.mode = .standby →
        ∃ e, Completes (.setMode t h target) s e ∧ e.sys.mode = .service ∧ e.red.claim = none ∧ e.red.applied = none ∧ e.red.stage = none) ∧
      (target = Mode.configure.code → d.sys.mode = .service →
        ∃ e, Completes (.setMode t h target) s e ∧ e.sys.mode = .service ∧ ∃ g, e.sys.gate = some g ∧ g.at_ = d.raw ∧
          (g.overMgt = true ↔ h.src ≠ .pcie)) ∧
      (¬(target = Mode.service.code ∧ (d.sys.mode = .active ∨ d.sys.mode = .standby)) → ¬(target = Mode.configure.code ∧ d.sys.mode = .service) →
        Completes (.setMode t h target) s (complete h 4 rcWrongMode 0 [] d))) ∧
    (Served d h 3 0 →
      (off % 4 = 0 → off + 4 ≤ 0x1000000 → (maskedWrite off value mask d).sys.mode ≠ .reset →
        Answers (.regWrite t h off value mask) s h 3 0 [] (maskedWrite off value mask d)) ∧
      (mask ≠ 0 → Answers (.regWrite t h R.SYS_FAULT_MASK value mask) s h 3 0 []
        (setRg R.SYS_FAULT_MASK ((rg d R.SYS_FAULT_MASK &&& ~~~(mask &&& 0x7F)) ||| (value &&& mask &&& 0x7F)) d)) ∧
      (off % 4 = 0 → off + 4 ≤ 0x1000000 → Answers (.regWrite t h off value 0) s h 3 0 [] d) ∧
      (¬(off % 4 = 0 ∧ off + 4 ≤ 0x1000000) → Completes (.regWrite t h off value mask) s (complete h 3 rcOutOfRange 0 [] d))) ∧
    (Served d h 6 0 →
      (0x10D ≤ target → target ≤ 0x14D → ∃ x, Answers (.governorSet t h target) s h 6 0 [] x ∧ fld x F.HDL_GOV_TARGET_TARGET = target ∧
        ∀ o, o ≠ R.HDL_GOV_TARGET → rg x o = rg d o) ∧
      (target < 0x10D ∨ 0x14D < target → Completes (.governorSet t h target) s (complete h 6 rcOutOfRange 0 [] d)))

/-- R60, R61, R64, R68, R69: CREATE, once its arguments and its record stand, is refused with nothing changed but the count of a refusal for
capacity, or places the object and answers its handle; what it charges goes above the capacity of no line. ADMIT_CHECK answers the same and
leaves the device as it was. -/
def Obligations.AdmissionRefusesOrPlaces : Prop :=
  ∀ (t : Time) (h : CmdHdr) (a : CreateArgs) (r : List Byte) (s : State) (d : Dev), AtTime t s d → a.kind ≠ 0xD → a.start = false →
    createRecord d h a = .ok r →
    (Served d h 0x10 0 → kindModes a.kind d.sys.mode = false → 0 < kindLimit a.kind →
      Completes (.create t h a) s (complete h 0x10 rcWrongMode 0 [] d)) ∧
    (∀ e, createPlace d a r = .error e →
      (Served d h 0x10 0 → kindModes a.kind d.sys.mode = true →
        Completes (.create t h a) s (complete h 0x10 e.code 0 e.data (if e.code = rcNoCapacity then bump R.HDL_ADMIT_REFUSED d else d))) ∧
      (Served d h 0x16 0 → Completes (.admitCheck t h a) s (complete h 0x16 e.code 0 e.data d))) ∧
    (∀ x i, createPlace d a r = .ok (x, i) →
      (∃ c p, planOf d c a.kind r = .ok p ∧ c.idx = i ∧ segHas (freeIdx d a.kind) i = true ∧
        ∀ n, n < 29 → usedOf d n + chargeOn p.charges n ≤ capOf d n) ∧
      (remoteOf x a.kind i = none →
        (Served d h 0x10 0 → kindModes a.kind d.sys.mode = true →
          Answers (.create t h a) s h 0x10 (handleOf x (okey a.kind i)) [] x) ∧
        (Served d h 0x16 0 → Answers (.admitCheck t h a) s h 0x16 0
          (leastRoom x (((objAt x (okey a.kind i)).map (·.charges)).getD [])) d)) ∧
      (∀ u, remoteOf x a.kind i = some u → Served d h 0x10 0 → kindModes a.kind d.sys.mode = true →
        ∃ e, Pends (.create t h a) s h 0 e))

/-- R48, R50, R60, R62: DESTROY of a handle that no other refers to ends it: no object stands behind it any more; one that another handle refers
to is a CONFLICT that names the other and changes nothing. MODIFY of a channel of this device applies the record or leaves the device as it was,
with the refusal's code. A handle that names no object is BAD_HANDLE. -/
def Obligations.DestroyAndModifyActOnTheirHandle : Prop :=
  ∀ (t : Time) (h : CmdHdr) (handle : Word) (off len : Nat) (o : HObj) (s : State) (d : Dev), AtTime t s d →
    (Served d h 0x11 handle →
      (objOf d handle = none → Completes (.destroy t h handle) s (complete h 0x11 rcBadHandle handle [] d)) ∧
      (objOf d handle = some o → kindModes (hKind handle) d.sys.mode = false →
        Completes (.destroy t h handle) s (complete h 0x11 rcWrongMode handle [] d)) ∧
      (objOf d handle = some o → kindModes (hKind handle) d.sys.mode = true →
        (∀ k, referrer d (hKey handle) = some k →
          Completes (.destroy t h handle) s (complete h 0x11 rcConflict handle (leBytes 4 (handleOf d k).toNat) d)) ∧
        (referrer d (hKey handle) = none → hKind handle ≠ 0xD →
          ∃ e, Answers (.destroy t h handle) s h 0x11 handle [] e ∧ objOf e handle = none))) ∧
    (Served d h 0x12 handle → h.src = .pcie → objOf d handle = some o → hKind handle ≤ 9 →
      (d.hdl.objs.find? fun e => e.1 / 2 ^ 20 == 0xD && e.2.refs.contains (hKey handle)) = none →
      (∀ r x, carried d (hKind handle) off len = .ok r → modifyObj (hKey handle) r d = .ok x → hKind handle ≠ 2 →
        Answers (.modify t h handle off len) s h 0x12 handle [] x) ∧
      (∀ e, carried d (hKind handle) off len = .error e ∨ (∃ r, carried d (hKind handle) off len = .ok r ∧ modifyObj (hKey handle) r d = .error e) →
        Completes (.modify t h handle off len) s
          (complete h 0x12 e.code handle e.data (if e.code = rcNoCapacity then bump R.HDL_ADMIT_REFUSED d else d))))

/-- R49, R62, R79: START leaves a created or stopped channel running from its start time, or held while its level is; STOP leaves a running or held
one stopped; either command changes nothing where the channel is there already; SET_PRIORITY sets the priority, 0 to 15, and neither class nor
charge. -/
def Obligations.ChannelsStartStopAndMovePriority : Prop :=
  ∀ (t : Time) (h : CmdHdr) (handle : Word) (secs nanos prio : Nat) (now : Bool) (o : HObj) (s : State) (d : Dev), AtTime t s d →
    objOf d handle = some o → hKind handle ≤ 9 →
    (Served d h 0x13 handle →
      (o.state = 1 ∨ o.state = 3 → ∃ e o', Answers (.start t h handle secs nanos now) s h 0x13 handle [] e ∧ objAt e (hKey handle) = some o' ∧
        (o'.state = 2 ∨ o'.state = 4) ∧ o'.startAt = (if now then 0 else (timeOf secs nanos).toNat) ∧ o'.gen = o.gen ∧ o'.charges = o.charges) ∧
      (¬(o.state = 1 ∨ o.state = 3) → Answers (.start t h handle secs nanos now) s h 0x13 handle [] d)) ∧
    (Served d h 0x14 handle →
      (o.state = 2 ∨ o.state = 4 → ∃ e o', Answers (.stop t h handle) s h 0x14 handle [] e ∧ objAt e (hKey handle) = some o' ∧ o'.state = 3 ∧
        o'.gen = o.gen ∧ o'.charges = o.charges) ∧
      (¬(o.state = 2 ∨ o.state = 4) → Answers (.stop t h handle) s h 0x14 handle [] d)) ∧
    (Served d h 0x15 handle →
      (prio ≤ 15 → ∃ e o', Answers (.setPriority t h handle prio) s h 0x15 handle [] e ∧ objAt e (hKey handle) = some o' ∧ o'.prio = prio ∧
        o'.cls = o.cls ∧ o'.charges = o.charges ∧ o'.gen = o.gen) ∧
      (15 < prio → Completes (.setPriority t h handle prio) s (complete h 0x15 rcOutOfRange handle [] d)))

/-- R91, R96, R97: a BAR2 write goes byte by byte: a byte whose page the host may write lands and reads so, every other byte of the Plain stays as it
was; an access that ends above the 256 MiB of the window is outside BAR2, and nothing happens where the window does not answer. A BAR2 read answers as
many bytes as it asks for: of a page store without an uncorrectable error in it, the bytes that stand there, and zeros above its end, with no byte
changed. Where a word in the range is found with a double-bit error, SYS.FAULT.ECC_UNCORR is set. -/
def Obligations.WindowMovesBytesOfThePlain : Prop :=
  (∀ (t : Time) (off : Nat) (b : List Byte) (s : State) (d : Dev), AtTime t s d →
      (0x10000000 < off + b.length → exec (.bar2Write t off b) s = .fault .outsideBar2) ∧
      (off + b.length ≤ 0x10000000 → windowUp d = false → Completes (.bar2Write t off b) s d) ∧
      (off + b.length ≤ 0x10000000 → windowUp d = true →
        ∃ e, Completes (.bar2Write t off b) s e ∧ e.sys = d.sys ∧ e.hdl = d.hdl ∧ e.nor = d.nor ∧
          (∀ o, o ≠ R.PLN_WIN_OOR → o ≠ R.PLN_WIN_PROT_DROPS → rg e o = rg d o) ∧
          (∀ (i : Nat) (hi : i < b.length), plainByte e (windowBase d + off + i) =
            if windowBase d + off + i < storePages d * 65536 ∧ windowTakes d ((windowBase d + off + i) / 65536) = true then b[i]
            else plainByte d (windowBase d + off + i)) ∧
          ∀ a, a < windowBase d + off ∨ windowBase d + off + b.length ≤ a → plainByte e a = plainByte d a)) ∧
  (∀ (t : Time) (off len : Nat) (bad : List Nat) (s : State) (d : Dev), AtTime t s d →
      (0x10000000 < off + len → exec (.bar2Read t off len bad) s = .fault .outsideBar2) ∧
      (off + len ≤ 0x10000000 → windowUp d = false → Completes (.bar2Read t off len bad) s d) ∧
      (off + len ≤ 0x10000000 → windowUp d = true →
        ∃ e bs, Completes (.bar2Read t off len bad) s e ∧ e.out.head? = some (.readData bs) ∧ bs.length = len ∧ e.sys = d.sys ∧ e.nor = d.nor ∧
          (bad = [] → d.pln.poisoned = [] → e.plain = d.plain ∧ (∀ o, o ≠ R.PLN_WIN_OOR → rg e o = rg d o) ∧
            ∀ i, i < len → bs[i]? = some (if windowBase d + off + i < storePages d * 65536 then plainByte d (windowBase d + off + i) else 0)) ∧
          (∀ w, w ∈ bad → 8 * w + 8 ≤ storePages d * 65536 → windowBase d + off ≤ 8 * w → 8 * w + 8 ≤ windowBase d + off + len →
            bitOf e F.SYS_FAULT_ECC_UNCORR = true)))

/-- R86: the write of PLN.XLAT_ADDR shows the page-table entry of the handle of PLN.XLAT_HANDLE at that address in PLN.XLAT_PTE_LO and HI, V, P, D,
HW, CK, RT and the page's number in their bits, and 0 for an unmapped page or an invalid handle. It changes no other register and no page. -/
def Obligations.WalkShowsTheEntry : Prop :=
  ∀ (t : Time) (v : Word) (s : State) (d : Dev), AtTime t s d → pcieUp d = true → bar0Writable d R.PLN_XLAT_ADDR = true →
    ∃ e, Completes (.xlatAddrWrite t v) s e ∧ e.pln = d.pln ∧ e.plain = d.plain ∧ rg e R.PLN_XLAT_ADDR = v ∧
      (∀ o, o ≠ R.PLN_XLAT_ADDR → o ≠ R.PLN_XLAT_PTE_LO → o ≠ R.PLN_XLAT_PTE_HI → rg e o = rg d o) ∧
      (objOf d (rg d R.PLN_XLAT_HANDLE) = none ∨ pteAt d (hKey (rg d R.PLN_XLAT_HANDLE)) (v.toNat / 65536) = none →
        rg e R.PLN_XLAT_PTE_LO = 0 ∧ rg e R.PLN_XLAT_PTE_HI = 0) ∧
      ∀ o p, objOf d (rg d R.PLN_XLAT_HANDLE) = some o → pteAt d (hKey (rg d R.PLN_XLAT_HANDLE)) (v.toNat / 65536) = some p → p.ppn < 2 ^ 18 →
        (rg e R.PLN_XLAT_PTE_LO).toNat % 2 = 1 ∧ (rg e R.PLN_XLAT_PTE_LO).getLsbD 1 = p.p ∧ (rg e R.PLN_XLAT_PTE_LO).getLsbD 2 = p.d ∧
        (rg e R.PLN_XLAT_PTE_LO).getLsbD 4 = p.hw ∧ (rg e R.PLN_XLAT_PTE_LO).getLsbD 5 = p.ck ∧ (rg e R.PLN_XLAT_PTE_LO).getLsbD 6 = p.rt ∧
        (rg e R.PLN_XLAT_PTE_LO).toNat / 65536 + (rg e R.PLN_XLAT_PTE_HI).toNat * 65536 = p.ppn

/-- R8, R9, R38: a BAR0 write to an ordinary register changes its RW bits, in CONFIGURE its RWL bits too, clears the W1C bits written 1, and leaves
its other bits and every other register; where no register stands, or the block takes no write in this mode, nothing changes; above BAR0 it is
outside. R50: a released handle's charge comes off each line, and its pages off its key (a page that was marked is retired, R92). -/
def Obligations.RegisterWritesAndReleases : Prop :=
  ∀ (t : Time) (off : Nat) (v handle : Word) (s : State) (d : Dev), AtTime t s d →
    (0x1000000 ≤ off → exec (.registerWrite t off v) s = .fault .outsideBar0) ∧
    (off < 0x1000000 → (pcieUp d = false ∨ bar0Writable d off = false) → Completes (.registerWrite t off v) s d) ∧
    (off < 0x1000000 → pcieUp d = true → bar0Writable d off = true → waiting d = 0 → writeReg off v d = storeReg off v d →
      off ≠ R.HDL_CMD_TAIL → off ≠ R.HDL_CMD_HEAD →
      ∃ e, Completes (.registerWrite t off v) s e ∧ (∀ o, o ≠ off → rg e o = rg d o) ∧ e.plain = d.plain ∧ e.hdl = d.hdl ∧
        (findReg off = none → e = d) ∧
        ∀ r, findReg off = some r → ∀ i, i < 32 → (rg e off).getLsbD i =
          if r.w1c.testBit i && v.getLsbD i then false
          else if r.rw.testBit i || (d.sys.mode == .configure && r.rwl.testBit i) then v.getLsbD i else (rg d off).getLsbD i) ∧
    (d.hdl.dying.find? (fun x => x.handle == handle) = none → Completes (.handleRelease t handle) s d) ∧
    (∀ x, d.hdl.dying.find? (fun x => x.handle == handle) = some x →
      ∃ e, Completes (.handleRelease t handle) s e ∧ e.sys = d.sys ∧ (∀ n, usedOf e n = usedOf d n - chargeOn x.charges n) ∧
        ((∀ q, q ∈ ptesOf d (hKey handle) → q.2.rt = false) → ptesOf e (hKey handle) = []) ∧ objAt e (hKey handle) = none ∧ genOf e (hKey handle) = (genOf d (hKey handle) + 1) % 256)

/-- R53, R54, R55: the doorbell takes the tail. With head and tail equal nothing starts, and no register but HDL.CMD_TAIL changes; the one entry
that then waits is fetched at HDL.CMD_HEAD, which advances, and is served where a command may start (pumpMgt: then what MGT sent meanwhile); with the completion ring full it stays in the
ring. A write of HDL.CMP_HEAD takes the bits, CMP_FULL follows the ring, and the entry that waited starts where there is room again. -/
def Obligations.DoorbellsServeTheRing : Prop :=
  ∀ (t : Time) (v : Word) (x : Entry) (s : State) (d : Dev), AtTime t s d → pcieUp d = true → d.cmd.mgt = [] →
    (bar0Writable d R.HDL_CMD_TAIL = true →
      (fld d F.HDL_CMD_HEAD_HEAD = v.toNat % 4096 →
        ∃ e, Completes (.cmdDoorbell t v) s e ∧ fld e F.HDL_CMD_TAIL_TAIL = v.toNat % 4096 ∧ e.plain = d.plain ∧ e.sys = d.sys ∧
          ∀ o, o ≠ R.HDL_CMD_TAIL → rg e o = rg d o) ∧
      ((fld d F.HDL_CMD_HEAD_HEAD + 1) % 4096 = v.toNat % 4096 → cmdUp d = true →
        x = entryOf .pcie (fld d F.HDL_CMD_HEAD_HEAD) (relRead d ringKey (64 * fld d F.HDL_CMD_HEAD_HEAD) 64) →
        (cmdFree d (entryFence x) x.handle = true → cmpRoom d = true →
          ∃ w, Completes (.cmdDoorbell t v) s (pumpMgt (closeGate (serve x.hdr x.op x.handle (bodyOf x) w))) ∧
            fld w F.HDL_CMD_HEAD_HEAD = v.toNat % 4096 ∧ fld w F.HDL_CMD_TAIL_TAIL = v.toNat % 4096 ∧ w.plain = d.plain ∧ w.sys = d.sys ∧ w.hdl = d.hdl ∧
            ∀ o, o ≠ R.HDL_CMD_TAIL → o ≠ R.HDL_CMD_HEAD → rg w o = rg d o) ∧
        (cmpRoom d = false →
          ∃ e, Completes (.cmdDoorbell t v) s e ∧ fld e F.HDL_CMD_TAIL_TAIL = v.toNat % 4096 ∧ ∀ o, o ≠ R.HDL_CMD_TAIL → rg e o = rg d o))) ∧
    (bar0Writable d R.HDL_CMP_HEAD = true → d.cmd.outst = [] → fld d F.HDL_CMP_TAIL_TAIL < 4096 →
      (fld d F.HDL_CMD_HEAD_HEAD = fld d F.HDL_CMD_TAIL_TAIL →
        ∃ e, Completes (.cmpHeadWrite t v) s e ∧ fld e F.HDL_CMP_HEAD_HEAD = v.toNat % 4096 ∧
          bitOf e F.HDL_STATUS_CMP_FULL = decide ((fld d F.HDL_CMP_TAIL_TAIL + 4096 - v.toNat % 4096) % 4096 = 4095) ∧ e.plain = d.plain ∧ e.sys = d.sys ∧
          ∀ o, o ≠ R.HDL_CMP_HEAD → o ≠ R.HDL_STATUS → rg e o = rg d o) ∧
      ((fld d F.HDL_CMD_HEAD_HEAD + 1) % 4096 = fld d F.HDL_CMD_TAIL_TAIL → cmdUp d = true →
        x = entryOf .pcie (fld d F.HDL_CMD_HEAD_HEAD) (relRead d ringKey (64 * fld d F.HDL_CMD_HEAD_HEAD) 64) →
        cmdFree d (entryFence x) x.handle = true → (fld d F.HDL_CMP_TAIL_TAIL + 4096 - v.toNat % 4096) % 4096 < 4095 →
        ∃ w, Completes (.cmpHeadWrite t v) s (pumpMgt (closeGate (serve x.hdr x.op x.handle (bodyOf x) w))) ∧
          fld w F.HDL_CMD_HEAD_HEAD = fld d F.HDL_CMD_TAIL_TAIL ∧ bitOf w F.HDL_STATUS_CMP_FULL = false ∧ w.plain = d.plain ∧ w.sys = d.sys))

/-- R55, R58: a datagram on port 49731 that is not well formed, or that comes after the SET_MODE of R55, is counted in HDL.MGT_DROPS and changes
nothing else; a host that is not listed is not heard; a NOP from a listed host is answered to its address and port with the header of the request
and one completion. R56: the vector owed goes once its 10 µs have passed, and not before. -/
def Obligations.ManagementPortAndVectors : Prop :=
  ∀ (t : Time) (ip port : Nat) (b : List Byte) (s : State) (d : Dev), AtTime t s d →
    ((cmdUp d = false ∨ (portAt d 16).link ≠ 2) → Completes (.mgtCommandDatagram t ip port b) s d) ∧
    (cmdUp d = true → (portAt d 16).link = 2 →
      (mgtWellFormed b = false ∨ d.sys.gate.isSome = true →
        ∃ e, Completes (.mgtCommandDatagram t ip port b) s e ∧ (rg e R.HDL_MGT_DROPS).toNat = min ((rg d R.HDL_MGT_DROPS).toNat + 1) 0xFFFFFFFF ∧
          e.cmd = d.cmd ∧ e.out = d.out ∧ e.sys = d.sys ∧ ∀ o, o ≠ R.HDL_MGT_DROPS → rg e o = rg d o) ∧
      (mgtWellFormed b = true → d.sys.gate = none → mgtHost d ip = false → Completes (.mgtCommandDatagram t ip port b) s d) ∧
      (∀ (q : Nat) (tag : Word) (irq : Bool), mgtHost d ip = true → d.sys.gate = none → d.cmd.mgt = [] → d.cmd.outst = [] →
        fld d F.HDL_CMD_HEAD_HEAD = fld d F.HDL_CMD_TAIL_TAIL → q < 65536 →
        b = [1, 1] ++ leBytes 2 q ++ entryBytes { src := .mgt ip port, slot := 0, fence := false, irq := irq, tag := tag } 0 0 (fit 48 []) →
        ∃ e, Completes (.mgtCommandDatagram t ip port b) s e ∧
          e.out.head? = some (.mgt ip port 49731 ([1, 1] ++ leBytes 2 q ++
            cmpEntry rcDone 0 0 { src := .mgt ip port, slot := 0, fence := false, irq := irq, tag := tag } 0 [])) ∧
          e.cmd.mgt = [] ∧ e.plain = d.plain ∧ e.sys = d.sys ∧ fld e F.HDL_CMP_TAIL_TAIL = fld d F.HDL_CMP_TAIL_TAIL)) ∧
    (∀ v, d.hdl.vec0Last = some v → d.hdl.vec0Owed = true → v + us 10 ≤ d.raw →
      ∃ e, Completes (.completionVectorPacing t) s e ∧ e.out = .msix 0 :: d.out ∧ e.hdl.vec0Owed = false ∧ e.hdl.vec0Last = some d.raw ∧ e.regs = d.regs) ∧
    ((d.hdl.vec0Last = none ∨ d.hdl.vec0Owed = false ∨ ∃ v, d.hdl.vec0Last = some v ∧ d.raw < v + us 10) →
      Completes (.completionVectorPacing t) s d)

/-- R56, R59: the 64 bytes of an entry spell its command, in the ring as in a datagram: its opcode, flags and tag, its handle and its arguments
come out as they went in, and the row of the command does what its entry does. A row whose operands say more than an entry can has no entry
(log 34). -/
def Obligations.EntriesSpellTheirCommands : Prop :=
  ∀ (c : Instr) (h : CmdHdr) (op : Nat) (x : Word) (args : List Byte) (s : State) (d : Dev), AtTime (arrival c) s d →
    cmdOf c = some (h, op, x) → argsOf c = some args → wellFormed c = true →
    (entryBytes h op x args).length = 64 ∧
    (entryOf h.src h.slot (entryBytes h op x args)).hdr = h ∧ (entryOf h.src h.slot (entryBytes h op x args)).op = op ∧
    (entryOf h.src h.slot (entryBytes h op x args)).handle = x ∧
    (cmdMayStart d (entryFence (entryOf h.src h.slot (entryBytes h op x args))) x = true →
      let e := serve h op x (bodyOf (entryOf h.src h.slot (entryBytes h op x args))) d
      exec c s = .next { s with toDev := if op = 4 then closeGate e else e })

/-- R72, R73: a reading of the 64 monitors shows the lowest in HDL.SPEED and sets AT_RISK below 1.04 and, while a step is unheld, BROKEN below 1.00;
the VCORE it asks for is 20 mV up below 1.04, 5 mV up below the target, 5 mV down above the target and 5, within 650 to 850 mV, and nothing while a
write waits for its acknowledgement. An acknowledged transaction puts the value written and the value read in force; a failed one leaves VCORE, and
the third failed in a row sets AVS_FAIL. -/
def Obligations.GovernorFollowsTheSpeedIndex : Prop :=
  ∀ (t : Time) (m : List Nat) (acked : Bool) (mv : Nat) (s : State) (d : Dev), AtTime t s d → timeRuns d = true →
    (m.length ≠ 64 → Completes (.governorReading t m) s d) ∧
    (m.length = 64 → ∃ e i, Completes (.governorReading t m) s e ∧ i < 64 ∧ (∀ k, k < 64 → m.getD i 0 ≤ m.getD k 0) ∧
      fld e F.HDL_SPEED_INDEX = m.getD i 0 % 65536 ∧ fld e F.HDL_SPEED_MIN_MON = i ∧ fld e F.HDL_VCORE_SET_MV = fld d F.HDL_VCORE_SET_MV ∧
      fld e F.HDL_GOV_TARGET_TARGET = fld d F.HDL_GOV_TARGET_TARGET ∧
      (m.getD i 0 % 65536 < 0x10A → bitOf e F.HDL_STATUS_AT_RISK = true) ∧
      (m.getD i 0 % 65536 < 0x100 → d.hdl.heldSteps.length < 32 → bitOf e F.HDL_STATUS_BROKEN = true) ∧
      (d.hdl.avsWrite.isSome = true → e.hdl.avsWrite = d.hdl.avsWrite) ∧
      (d.hdl.avsWrite = none → 650 ≤ vcore d → vcore d ≤ 850 →
        let x := m.getD i 0 % 65536
        let goal := fld d F.HDL_GOV_TARGET_TARGET
        let want := if x < 0x10A then min 850 (vcore d + 20) else if x < goal then min 850 (vcore d + 5)
          else if goal + 5 < x then max 650 (vcore d - 5) else vcore d
        e.hdl.avsWrite = if want = vcore d then none else some want)) ∧
    (acked = true → ∃ e, Completes (.avsbusTransactionDone t acked mv) s e ∧ e.hdl.avsWrite = none ∧ e.hdl.avsFails = 0 ∧
      fld e F.HDL_VCORE_SET_MV = (match d.hdl.avsWrite with | some v => v % 1024 | none => fld d F.HDL_VCORE_SET_MV) ∧
      fld e F.HDL_VCORE_READ_MV = mv % 1024 ∧ ∀ o, o ≠ R.HDL_VCORE → rg e o = rg d o) ∧
    (acked = false → ∃ e, Completes (.avsbusTransactionDone t acked mv) s e ∧ e.hdl.avsWrite = none ∧ e.hdl.avsFails = d.hdl.avsFails + 1 ∧
      rg e R.HDL_VCORE = rg d R.HDL_VCORE ∧ (rg e R.SUP_AVS_ERRORS).toNat = min ((rg d R.SUP_AVS_ERRORS).toNat + 1) 0xFFFFFFFF ∧
      bitOf e F.HDL_STATUS_AVS_FAIL = (bitOf d F.HDL_STATUS_AVS_FAIL || decide (d.hdl.avsFails = 2)))

/-- R84, R93: a read of MR4 shows both codes and sets DERATED where one asks for more than the nominal rate (codes 4 to 7, log 15), and posts only as
DERATED is entered; the DQS oscillators' readings are kept; a scrub pass that has not ended 24 h after it began, HOLD excluded, is overdue once;
the end of a pass counts and begins the next. -/
def Obligations.DramIsTrackedAndScrubbed : Prop :=
  ∀ (t : Time) (a b : Nat) (l : List Nat) (s : State) (d : Dev), AtTime t s d → timeRuns d = true →
    (∃ e, Completes (.mr4Read t a b) s e ∧ fld e F.PLN_DRAM_TEMP_CHA_MR4 = a % 8 ∧ fld e F.PLN_DRAM_TEMP_CHB_MR4 = b % 8 ∧
      bitOf e F.PLN_DRAM_TEMP_DERATED = (decide (4 ≤ a % 8) || decide (4 ≤ b % 8)) ∧ e.sys = d.sys ∧
      ((a % 8 < 4 ∧ b % 8 < 4) ∨ bitOf d F.PLN_DRAM_TEMP_DERATED = true → e.que = d.que ∧ e.plain = d.plain ∧ ∀ o, o ≠ R.PLN_DRAM_TEMP → rg e o = rg d o)) ∧
    (∃ e, Completes (.dqsOscillatorRead t l) s e ∧ e.pln.dqs = l ∧ e.regs = d.regs ∧ e.plain = d.plain ∧ e.pln.ptes = d.pln.ptes) ∧
    (d.pln.overdue = false → sec 86400 ≤ scrubAge d → ∃ e, Completes (.scrubOverdue t) s e ∧ e.pln.overdue = true ∧ e.sys = d.sys) ∧
    (d.pln.overdue = true ∨ scrubAge d < sec 86400 → Completes (.scrubOverdue t) s d) ∧
    (d.sys.mode ≠ .hold → ∃ e, Completes (.scrubPassEnd t) s e ∧ e.pln.overdue = false ∧ e.pln.scrubFrom = d.raw ∧ e.pln.scrubHold = 0 ∧
      (rg e R.PLN_SCRUB_PASSES).toNat = min ((rg d R.PLN_SCRUB_PASSES).toNat + 1) 0xFFFFFFFF ∧ ∀ o, o ≠ R.PLN_SCRUB_PASSES → rg e o = rg d o) ∧
    (d.sys.mode = .hold → Completes (.scrubPassEnd t) s d)

/-- R110, R111, R113: a push enters an inbox with room behind the items there, stamped with ISSUE in a group, and sets flag 0; one that finds no
room, or others that wait, waits behind them and counts in SCH.BP_WAITS, and the oldest waiting push is granted once there is room. The head task of
an engine's highest non-empty level goes: it runs, its group is BUSY, it takes its oldest item, and SCH.DISPATCHES counts; in HOLD, and with no task
ready, none goes. A completion ends the run, clears BUSY, and advances SERVE past an item taken. -/
def Obligations.TasksKeepTheirOrder : Prop :=
  ∀ (t : Time) (n x engine : Nat) (lost : Bool) (tables : List Nat) (k : Task) (s : State) (d : Dev), AtTime t s d → tget d.sch.tasks n = some k →
    let stamp := if k.grouped then (groupAt d k.group).issue else 0
    (pushRoom d k = true → waitsAt d n = [] → ∃ e k', Completes (.inboxPush t n x) s e ∧ tget e.sch.tasks n = some k' ∧
      k'.inbox = k.inbox ++ [x % 2 ^ 48 + stamp * 2 ^ 48] ∧ k'.flags % 2 = 1 ∧
      (k.grouped = true → (groupAt e k.group).issue = ((groupAt d k.group).issue + 1) % 65536) ∧
      (∀ m, m ≠ n → ((tget e.sch.tasks m).map fun j => j.inbox) = (tget d.sch.tasks m).map fun j => j.inbox) ∧ e.que = d.que ∧ e.plain = d.plain) ∧
    (pushRoom d k = false ∨ waitsAt d n ≠ [] → ∃ e, Completes (.inboxPush t n x) s e ∧ waitsAt e n = waitsAt d n ++ [x] ∧
      e.sch.tasks = d.sch.tasks ∧ e.sch.groups = d.sch.groups ∧ (rg e R.SCH_BP_WAITS).toNat = min ((rg d R.SCH_BP_WAITS).toNat + 1) 0xFFFFFFFF) ∧
    (∀ w ws, waitsAt d n = w :: ws → pushRoom d k = true → ∃ e k', Completes (.pushWaitGranted t n) s e ∧ waitsAt e n = ws ∧
      tget e.sch.tasks n = some k' ∧ k'.inbox = k.inbox ++ [w % 2 ^ 48 + stamp * 2 ^ 48]) ∧
    (waitsAt d n = [] ∨ pushRoom d k = false → Completes (.pushWaitGranted t n) s d) ∧
    (d.sys.mode = .hold ∨ topLevel d engine 16 = none → Completes (.taskDispatch t engine lost tables) s d) ∧
    (∀ l rest, d.sys.mode ≠ .hold → topLevel d engine 16 = some l → readyAt d engine l = n :: rest → groupOk d k = true → tget d.sch.handed n = none →
      let item := if bit k.mask 0 && k.inbox != [] then k.inbox.head? else none
      ∃ w k', Completes (.taskDispatch t engine lost tables) s (if lost then spmLost 0x40000 65536 w else engineWork n (k.flags &&& k.mask) item tables w) ∧
        tget w.sch.tasks n = some k' ∧ k'.running = true ∧ k'.queued = false ∧ k'.dispatches = (k.dispatches + 1) % 2 ^ 32 ∧
        k'.inbox = (if bit k.mask 0 && k.inbox != [] then k.inbox.tail else k.inbox) ∧ (k.grouped = true → (groupAt w k.group).busy = true) ∧
        (∀ m, m ≠ n → tget w.sch.tasks m = tget d.sch.tasks m) ∧ readyAt w engine l = rest ∧
        (rg w R.SCH_DISPATCHES).toNat = min ((rg d R.SCH_DISPATCHES).toNat + 1) 0xFFFFFFFF) ∧
    (k.running = false → Completes (.taskComplete t n) s d) ∧
    (k.running = true → ∃ e k', Completes (.taskComplete t n) s e ∧ tget e.sch.tasks n = some k' ∧ k'.running = false ∧ k'.inbox = k.inbox ∧
      tget e.sch.handed n = none ∧ (k.grouped = true → (groupAt e k.group).busy = false ∧
        (groupAt e k.group).serve = (if ((tget d.sch.handed n).bind (·.2)).isSome then ((groupAt d k.group).serve + 1) % 65536 else (groupAt d k.group).serve)))

/-- R115, R116, R117, R121: a reservation names a ring of HOST_WRITE and 1 to 16 words; with one open the result is CONFLICT and nothing else
changes; each word written is staged; GO ends the reservation, and a well-formed item enters the ring whole, behind the items there, while an
ill-formed one is OUT_OF_RANGE and a voided one ABORTED, with no item stored. -/
def Obligations.HostPushesWholeItems : Prop :=
  ∀ (t : Time) (v : Word) (q : Resv) (s : State) (d : Dev), AtTime t s d → pcieUp d = true → bar0Writable d R.QUE_PUSH_RING = true →
    bar0Writable d R.QUE_PUSH_DATA_HI = true → bar0Writable d R.QUE_PUSH_COMMIT = true →
    let n := v.toNat % 1024
    let w := v.toNat / 65536 % 32
    (d.que.resv = some q → ∃ e, Completes (.pushRingWrite t v) s e ∧ fld e F.QUE_PUSH_STATUS_RESULT = 0x06 ∧ e.que = d.que ∧
      ∀ o, o ≠ R.QUE_PUSH_STATUS → rg e o = rg d o) ∧
    (d.que.resv = none → ∃ e, Completes (.pushRingWrite t v) s e ∧ fld e F.QUE_PUSH_RING_RING = n ∧ fld e F.QUE_PUSH_RING_WORDS = w ∧
      e.que.rings = d.que.rings ∧
      ((∀ r, tget d.que.rings n = some r → r.hostWrite = false) → fld e F.QUE_PUSH_STATUS_RESULT = 0x0C ∧ e.que.resv = none) ∧
      ∀ r, tget d.que.rings n = some r → r.hostWrite = true →
        (16 < w ∨ r.size < w → fld e F.QUE_PUSH_STATUS_RESULT = 0x05 ∧ e.que.resv = none) ∧
        (w = 0 → fld e F.QUE_PUSH_STATUS_RESULT = 0x00 ∧ e.que.resv = none) ∧
        (1 ≤ w → w ≤ 16 → w ≤ r.size → fld e F.QUE_PUSH_STATUS_RESULT = 0x00 ∧ fld e F.QUE_PUSH_STATUS_OPEN = 1 ∧ fld e F.QUE_PUSH_STATUS_WRITTEN = 0 ∧
          ∃ q', e.que.resv = some q' ∧ q'.ring = n ∧ q'.words = w ∧ q'.staged = [])) ∧
    (d.que.resv = none → Completes (.pushDataHiWrite t v) s d ∧ Completes (.pushCommit t v) s d) ∧
    (d.que.resv = some q → q.staged.length < 31 → ∃ e q', Completes (.pushDataHiWrite t v) s e ∧ e.que.resv = some q' ∧ q'.ring = q.ring ∧ q'.words = q.words ∧
      q'.staged = q.staged ++ [v.toNat * 2 ^ 32 + d.que.dataLo] ∧ fld e F.QUE_PUSH_STATUS_WRITTEN = q.staged.length + 1 ∧ e.que.rings = d.que.rings) ∧
    (bit v.toNat 0 = false → Completes (.pushCommit t v) s d) ∧
    (bit v.toNat 0 = true → d.que.resv = some q → ∃ e, Completes (.pushCommit t v) s e ∧ e.que.resv = none ∧ fld e F.QUE_PUSH_STATUS_OPEN = 0 ∧
      (q.dead = true ∨ q.flushed = true → fld e F.QUE_PUSH_STATUS_RESULT = 0x0B ∧ ∀ m, ((tget e.que.rings m).map (·.items)) = (tget d.que.rings m).map (·.items)) ∧
      (q.dead = false → q.flushed = false → (q.staged = [] ∨ itemOk q.staged.length q.words (q.staged.headD 0) = false) →
        fld e F.QUE_PUSH_STATUS_RESULT = 0x05 ∧ e.que.rings = d.que.rings) ∧
      ∀ r, q.dead = false → q.flushed = false → q.staged ≠ [] → itemOk q.staged.length q.words (q.staged.headD 0) = true →
        tget d.que.rings q.ring = some r → r.plain = false → r.used + q.staged.length ≤ r.size →
        fld e F.QUE_PUSH_STATUS_RESULT = 0x00 ∧ ∃ r', tget e.que.rings q.ring = some r' ∧ r'.items = r.items ++ [⟨r.wpos, q.staged⟩] ∧
          r'.wpos = (r.wpos + q.staged.length) % r.size)

/-- R118, R125: a read of QUE.POP_LO answers the low half of the next word of an on-chip ring and latches the high half; the last word of an
item frees it; an empty ring answers 0 with IDLE, a ring the host does not consume 0 with DENIED. The vector owed goes 10 µs after the last, if the depth still stands. -/
def Obligations.HostPopsWordByWord : Prop :=
  ∀ (t : Time) (r : Ring) (i : Nat) (s : State) (d : Dev), AtTime t s d →
    (pcieUp d = true → bar0Up d R.QUE_POP_LO = true →
      ((∀ r, tget d.que.rings (fld d F.QUE_POP_RING_RING) = some r → r.hostConsumer = false) →
        ∃ e, Completes (.popLoRead t false) s e ∧ e.out = .readData [0, 0, 0, 0] :: d.out ∧ fld e F.QUE_POP_STATUS_DENIED = 1 ∧ e.que = d.que) ∧
      (tget d.que.rings (fld d F.QUE_POP_RING_RING) = some r → r.hostConsumer = true → r.items.length ≤ r.read →
        ∃ e, Completes (.popLoRead t false) s e ∧ e.out = .readData [0, 0, 0, 0] :: d.out ∧ fld e F.QUE_POP_STATUS_IDLE = 1 ∧ rg e R.QUE_POP_HI = 0) ∧
      (∀ it, tget d.que.rings (fld d F.QUE_POP_RING_RING) = some r → r.hostConsumer = true → r.plain = false → r.items[r.read]? = some it →
        ∃ e r', Completes (.popLoRead t false) s e ∧ e.out = .readData (leBytes 4 (it.words.getD r.part 0 % 2 ^ 32)) :: d.out ∧
          rg e R.QUE_POP_HI = BitVec.ofNat 32 (it.words.getD r.part 0 / 2 ^ 32) ∧ tget e.que.rings (fld d F.QUE_POP_RING_RING) = some r' ∧
          (r.part + 1 < it.words.length → r'.items = r.items ∧ r'.part = r.part + 1) ∧
          (it.words.length ≤ r.part + 1 → r'.items = r.items.tail ∧ r'.part = 0) ∧ fld e F.QUE_POP_STATUS_IDLE = 0 ∧ fld e F.QUE_POP_STATUS_DENIED = 0)) ∧
    (tget d.que.rings i = some r →
      (r.vecOwed = true → (∀ w, r.vecLast = some w → w + us 10 ≤ d.raw) → r.irqDepth ≤ r.depth →
        ∃ e r', Completes (.ringVectorPacing t i) s e ∧ e.out = .msix r.irqVec :: d.out ∧ tget e.que.rings i = some r' ∧ r'.vecOwed = false ∧
          r'.vecLast = some d.raw ∧ r'.items = r.items) ∧
      (r.vecOwed = false → Completes (.ringVectorPacing t i) s d))

/-- R120, R121: RING_FLUSH discards every item and the mark, counts them in FLUSHED, and voids an open reservation. On a Plain ring RING_MARK
sets the mark at the item being read, RING_REWIND makes the items from the mark on unread again, and RING_RELEASE frees the oldest read items, no
more than are read; on an on-chip ring mark and rewind are UNSUPPORTED, and a release counts nothing. A handle of another kind is BAD_HANDLE. -/
def Obligations.RingCommandsMoveTheConsumer : Prop :=
  ∀ (t : Time) (h : CmdHdr) (x : Word) (count : Nat) (all : Bool) (r : Ring) (s : State) (d : Dev), AtTime t s d →
    (hKind x ≠ 0xA ∨ objOf d x = none →
      (Served d h 0x300 x → Completes (.ringFlush t h x) s (complete h 0x300 rcBadHandle x [] d)) ∧
      (Served d h 0x301 x → Completes (.ringMark t h x) s (complete h 0x301 rcBadHandle x [] d)) ∧
      (Served d h 0x302 x → Completes (.ringRewind t h x) s (complete h 0x302 rcBadHandle x [] d)) ∧
      (Served d h 0x303 x → Completes (.ringRelease t h x count all) s (complete h 0x303 rcBadHandle x [] d))) ∧
    (hKind x = 0xA → (objOf d x).isSome = true → tget d.que.rings (hIndex x) = some r →
      (Served d h 0x300 x → ∃ e r' k, Answers (.ringFlush t h x) s h 0x300 x (leBytes 4 r.items.length ++ leBytes 4 k) e ∧
        tget e.que.rings (hIndex x) = some r' ∧ r'.items = [] ∧ r'.read = 0 ∧ r'.part = 0 ∧ r'.mark = none ∧
        r'.flushed = min (r.flushed + r.items.length) 0xFFFFFFFF ∧ (d.que.resv = none → k = 0 ∧ e.que.resv = none) ∧
        (∀ q, d.que.resv = some q → q.ring = hIndex x → q.flushed = false → q.dead = false → k = 1 ∧ (e.que.resv.map (·.flushed)) = some true) ∧
        (∀ m, m ≠ hIndex x → tget e.que.rings m = tget d.que.rings m) ∧ e.regs = d.regs) ∧
      (r.plain = false →
        (Served d h 0x301 x → Completes (.ringMark t h x) s (complete h 0x301 rcUnsupported x [] d)) ∧
        (Served d h 0x302 x → Completes (.ringRewind t h x) s (complete h 0x302 rcUnsupported x [] d)) ∧
        (Served d h 0x303 x → Answers (.ringRelease t h x count all) s h 0x303 x [] d)) ∧
      (r.plain = true →
        (Served d h 0x301 x → ∃ e r', Answers (.ringMark t h x) s h 0x301 x (leBytes 4 r.read) e ∧ tget e.que.rings (hIndex x) = some r' ∧
          r'.mark = some r.read ∧ r'.items = r.items ∧ r'.read = r.read) ∧
        (Served d h 0x302 x → ∃ e r', Answers (.ringRewind t h x) s h 0x302 x
            (leBytes 4 (r.read - min (r.mark.getD 0) r.read) ++ [if r.mark.isNone then 1 else 0]) e ∧ tget e.que.rings (hIndex x) = some r' ∧
          r'.read = min (r.mark.getD 0) r.read ∧ r'.part = 0 ∧ r'.items = r.items) ∧
        (Served d h 0x303 x → (all = false → r.read < count → Completes (.ringRelease t h x count all) s (complete h 0x303 rcOutOfRange x [] d)) ∧
          (all = true ∨ count ≤ r.read →
            let k := if all then r.read else count
            ∃ e r', Answers (.ringRelease t h x count all) s h 0x303 x (leBytes 4 k ++ leBytes 4 ((r.items.take k).map fun i => i.words.length).sum) e ∧
              tget e.que.rings (hIndex x) = some r' ∧ r'.items = r.items.drop k ∧ r'.read = r.read - k))))

/-- R422: IDCODE, FUSE_READ and SAMPLE/PRELOAD act in every mode. EXTEST, HIGHZ and CLAMP take the pins only in RESET, held there by RST_N or by
TEST_EN latched high, and act as BYPASS otherwise; BYPASS captures one 0. What the cells sample is a free value (log 8). Nothing but the port
changes. -/
def Obligations.TestAccessPortActs : Prop :=
  ∀ (t : Time) (cells : List Bool) (s : State) (d : Dev), AtTime t s d →
    let bypassed : Dev := { d with jtag.ir := 0xFF, out := .tdo [false] :: d.out }
    (d.sys.mode = .reset → (d.sys.rstLow = true ∨ d.sys.testEn = true) →
      (∃ b, b.length = cells.length ∧ Completes (.extest t cells) s
        { d with jtag.ir := 0, jtag.cells := cells, free := d.free + 1, out := .cells (some cells) :: .tdo b :: d.out }) ∧
      Completes (.highz t) s { d with jtag.ir := 4, out := .tdo [false] :: .cells none :: d.out } ∧
      Completes (.clamp t) s { d with jtag.ir := 5, out := .tdo [false] :: .cells (some d.jtag.cells) :: d.out }) ∧
    (¬(d.sys.mode = .reset ∧ (d.sys.rstLow = true ∨ d.sys.testEn = true)) →
      Completes (.extest t cells) s bypassed ∧ Completes (.highz t) s bypassed ∧ Completes (.clamp t) s bypassed) ∧
    (∃ b, b.length = cells.length ∧ Completes (.samplePreload t cells) s
        { d with jtag.ir := 2, jtag.cells := cells, free := d.free + 1, out := .tdo b :: d.out }) ∧
    Completes (.bypass t) s bypassed ∧
    (∃ b, (∀ i, i < 32 → b[i]? = some (Nat.testBit 0xB9400C5B i)) ∧ b.length = 32 ∧
      Completes (.idcode t) s { d with jtag.ir := 1, out := .tdo b :: d.out }) ∧
    ∃ b, (∀ i, i < 64 → b[i]? = some (Nat.testBit (fuseUid d.fuses) i)) ∧ (d.fuses.lot.length = 8 → b.length = 192) ∧
      Completes (.fuseRead t) s { d with jtag.ir := 0x30, out := .tdo b :: d.out }

/-- R393, R394: CHK_RUN on a job refuses a range outside its source before it scans anything; a LENGTH of 0 scans nothing and answers the
algorithm's value over no bytes, or SEED with CHAIN; any other range is scanned, and its command completes later. -/
def Obligations.ChecksTakeTheirRange : Prop :=
  ∀ (t : Time) (h : CmdHdr) (handle : Word) (b : List Byte) (s : State) (d : Dev) (j : ChkJob), AtTime t s d → Served d h 0x800 handle →
    hKind handle = 0xC → (objOf d handle).isSome = true → tget d.chk.jobs (hIndex handle) = some j →
    at_ b 0 1 ≤ 3 → at_ b 1 1 ≤ 1 → at_ b 2 2 = 0 →
    (at_ b 0 1 = 1 → ptesOf d (if at_ b 4 4 = 0 then okey 0xC (hIndex handle) else hKey (BitVec.ofNat 32 (at_ b 4 4))) ≠ [] ∧
      (at_ b 4 4 ≠ 0 → (objOf d (BitVec.ofNat 32 (at_ b 4 4))).isSome = true)) →
    (scanSize d (at_ b 0 1) < at_ b 8 8 + at_ b 16 8 → Completes (.chkRun t h handle b) s (complete h 0x800 rcOutOfRange handle [] d)) ∧
    (at_ b 8 8 + at_ b 16 8 ≤ scanSize d (at_ b 0 1) →
      (at_ b 16 8 = 0 → j.alg ≤ 4 → ∃ e v, Answers (.chkRun t h handle b) s h 0x800 handle (leBytes 8 v ++ leBytes 8 0) e ∧
        v = (if at_ b 1 1 = 1 then at_ b 24 8 % 2 ^ scanWidth j.alg else if j.alg = 3 then 0xFFFF else 0) ∧
        e.plain = d.plain ∧ e.sys = d.sys ∧ e.chk.jobs = d.chk.jobs ∧ ∀ o, o ≠ R.CHK_SCANS → rg e o = rg d o) ∧
      (at_ b 16 8 ≠ 0 → ∃ e x, Pends (.chkRun t h handle b) s h handle e ∧ (tget e.chk.jobs (hIndex handle)).bind (·.scan) = some x ∧
        x.source = at_ b 0 1 ∧ x.start = at_ b 8 8 ∧ x.len = at_ b 16 8 ∧ x.h = h ∧ x.handle = handle ∧
        x.seed = (if at_ b 1 1 = 1 then some (at_ b 24 8) else none) ∧ e.regs = d.regs ∧ e.plain = d.plain ∧ e.sys = d.sys))

/-- R395, R396: a scan that has read its range at 1 GB/s or less answers the value over the bytes and their count; one that meets an uncorrectable
word ends there with MEDIA_ERROR and the offset of the word; ABORT ends it with ABORTED and the bytes scanned. In AT_RISK and in HOLD it pauses.
(Then what waits in the command ring goes on: pump.) -/
def Obligations.ScansEndWithTheirResult : Prop :=
  ∀ (t : Time) (n : Nat) (s : State) (d : Dev) (j : ChkJob) (x : Scan), AtTime t s d → tget d.chk.jobs n = some j → j.scan = some x →
    (chkPaused d = true → ∀ bad, Completes (.chkScanDone t n bad) s (pump d)) ∧
    (chkPaused d = false → (x.source = 3 → norPrograms d = false) →
      (scanPoison d x = none → d.raw < x.began + ns x.len → Completes (.chkScanDone t n none) s (pump d)) ∧
      (scanPoison d x = none → x.began + ns x.len ≤ d.raw →
        ∃ e v, Completes (.chkScanDone t n none) s (pump (complete x.h 0x800 rcDone x.handle (leBytes 8 v ++ leBytes 8 x.len) e)) ∧
          (x.source = 0 → x.start + x.len ≤ storePages d * pageBytes → v = checkValue j.alg x.seed (plainBytes d x.start x.len)) ∧
          (∀ k, x.source = 1 → x.target = some k → v = checkValue j.alg x.seed (keyBytes d k x.start x.len)) ∧
          (x.source = 3 → v = checkValue j.alg x.seed (norBytes d x.start x.len)) ∧
          (tget e.chk.jobs n).bind (·.scan) = none ∧ (tget e.chk.shows n).map (·.result) = some v ∧
          e.plain = d.plain ∧ e.sys = d.sys ∧ e.cmd = d.cmd ∧ ∀ o, o ≠ R.CHK_SCANS → rg e o = rg d o) ∧
      (∀ i, scanPoison d x = none → i < x.len →
        ∃ e v, Completes (.chkScanDone t n (some i)) s (pump (complete x.h 0x800 rcMediaError x.handle (leBytes 8 v ++ leBytes 8 i) e)) ∧
          (x.source = 0 → x.start + i ≤ storePages d * pageBytes → v = checkValue j.alg x.seed (plainBytes d x.start i)) ∧
          (tget e.chk.jobs n).bind (·.scan) = none)) ∧
    (∀ v : Word, n < 8 → pcieUp d = true → bar0Writable d (R.CHK_CH_CTRL n) = true → v.getLsbD 0 = true →
      ∃ e p, Completes (.chkAbort t n v) s (pump (complete x.h 0x800 rcAborted x.handle (leBytes 8 0 ++ leBytes 8 p) e)) ∧ p ≤ x.len ∧
        (tget e.chk.jobs n).bind (·.scan) = none ∧ e.plain = d.plain ∧ e.sys = d.sys ∧ ∀ o, o ≠ R.CHK_ABORTS → rg e o = rg d o)

/-- R389, R390: RECALIBRATE answers the instances measured and those SUSPECT, and refuses an item or instance outside the table; one instance is measured again
by the readings given (a lane of a port or a link goes down with it, R389). The built-in tests answer what they find: a test of the scratchpad without a defect changes nothing, a defect marks the
scratchpad for repair; a page of the free list that fails leaves it, a page that is not on it is not tested; a short disables its port. -/
def Obligations.ServiceTestsAnswerTheirFindings : Prop :=
  ∀ (t : Time) (h : CmdHdr) (s : State) (d : Dev), AtTime t s d →
    (∀ item inst rs, Served d h 0x801 0 →
      (calPick item inst = none → Completes (.recalibrate t h item inst rs) s (complete h 0x801 rcOutOfRange 0 [] d)) ∧
      (item ≠ 0xFF → inst ≠ 0xFF → (calPick item inst = none ↔ calCount item ≤ inst)) ∧
      (∀ l, calPick item inst = some l → ∃ e b, Answers (.recalibrate t h item inst rs) s h 0x801 0 (leBytes 2 l.length ++ leBytes 2 b) e ∧ b ≤ l.length) ∧
      (∀ a b, calPick item inst = some [(item, inst)] → item ≠ 5 → item ≠ 7 → rs = [(item, inst, a, b)] →
        ∃ e, Answers (.recalibrate t h item inst rs) s h 0x801 0
            (leBytes 2 1 ++ leBytes 2 (if (calibrated item inst (sgn 32 a) (sgn 32 b)).suspect then 1 else 0)) e ∧
          tget e.cal.insts (calKey item inst) = some (calibrated item inst (sgn 32 a) (sgn 32 b)) ∧ (item ≠ 4 → e.sys = d.sys))) ∧
    (Served d h 0x802 0 →
      Answers (.bistSpm t h []) s h 0x802 0 (leBytes 4 0) d ∧
      (∀ l, l ≠ [] → ∃ e, Answers (.bistSpm t h l) s h 0x802 0 (leBytes 4 l.length) e ∧ e.red.spmDefect = true ∧ e.sys = d.sys ∧ e.pln.retired = d.pln.retired) ∧
      (∀ p, segHas d.pln.free p = false → Answers (.bistPlain t h [p]) s h 0x802 0 (leBytes 4 0) d) ∧
      (∀ p, segHas d.pln.free p = true → ∃ e, Answers (.bistPlain t h [p]) s h 0x802 0 (leBytes 4 1) e ∧ e.pln.retired = d.pln.retired ++ [p] ∧ e.sys = d.sys ∧
        (rg e R.PLN_RETIRED).toNat = min ((rg d R.PLN_RETIRED).toNat + 1) 0xFFFFFFFF) ∧
      (∀ n pin, n < 8 → pin < 10 → ∃ e, Answers (.bistPins t h [(n, pin)]) s h 0x802 0 (leBytes 4 1) e ∧ (pxAt e n).disabled = true ∧
        (rg e (R.PXP_SHORT n)).getLsbD pin = true ∧ e.sys = d.sys))

/-- R399, R400, R25: a reading of the nine rails shows each of them and its lowest value; a temperature shows and keeps the highest, sets TEMP_HIGH
at SUP.TEMP_WARN and clears it 5 °C below it; at 125 °C the thermal trip holds the device in RESET until a reading below 115 °C. -/
def Obligations.SupplyReadingsShow : Prop :=
  ∀ (t : Time) (s : State) (d : Dev), AtTime t s d →
    (∀ mvs : List Nat, d.sys.mode ≠ .reset → mvs.length = 9 →
      ∃ e, Completes (.railRead t mvs) s e ∧ e.sys = d.sys ∧ e.plain = d.plain ∧
        ∀ r, r < 9 → fld e (F.SUP_RAIL_MV r) = min (mvs.getD r 0) 65535 ∧
          fld e (F.SUP_RAIL_MIN_MV r) = min (min (mvs.getD r 0) 65535) (fld d (F.SUP_RAIL_MIN_MV r))) ∧
    (∀ x : Int, 1000 ≤ x → d.sys.tripped = false → ∃ e, Completes (.tempReading t x) s e ∧ HeldInReset d e ∧ e.sys.tripped = true) ∧
    (∀ x : Int, d.sys.mode = .reset → x < 920 → Completes (.tempReading t x) s { d with sys.tripped := false }) ∧
    (∀ x : Int, d.sys.mode ≠ .reset → -32768 ≤ x → x < 1000 →
      ∃ e, Completes (.tempReading t x) s e ∧ e.sys = d.sys ∧ sgn 16 (fld e F.SUP_TEMP_NOW) = x ∧
        sgn 16 (fld e F.SUP_TEMP_MAX) = max x (sgn 16 (fld d F.SUP_TEMP_MAX)) ∧
        (8 * (fld d F.SUP_TEMP_WARN_C : Int) ≤ x → bitOf e F.SUP_STATUS_TEMP_HIGH = true) ∧
        (x ≤ 8 * (fld d F.SUP_TEMP_WARN_C : Int) - 40 → bitOf e F.SUP_STATUS_TEMP_HIGH = false) ∧
        (8 * (fld d F.SUP_TEMP_WARN_C : Int) - 40 < x → x < 8 * (fld d F.SUP_TEMP_WARN_C : Int) → bitOf e F.SUP_STATUS_TEMP_HIGH = bitOf d F.SUP_STATUS_TEMP_HIGH))

/-- R130, R132, R134, R40: a packet that no stream receives changes nothing. For the one stream it matches, a wrong payload type or VLAN is counted;
in HOLD a whole frame counts as dropped at its last packet; the marker packet of a whole frame makes the write buffer the complete one and clears
LOST. 500 ms after the last accepted packet a stream is LOST, once, and not in HOLD; its buffers stay. -/
def Obligations.StreamsTakeFramesAndAreLost : Prop :=
  ∀ (t : Time) (p : VideoPkt) (i : Nat) (x : Stream) (s : State) (d : Dev), AtTime t s d →
    ((∀ e, e ∈ d.vid.streams → streamMatch p e.2 = false) → Completes (.st2110PacketRx t p) s d) ∧
    (d.vid.streams = [(i, x)] → streamMatch p x = true →
      (d.sys.mode = .hold → ∃ e, Completes (.st2110PacketRx t p) s e ∧ e.vid = d.vid ∧ e.plain = d.plain ∧ (∀ o, o ≠ R.SYS_HOLD_DROPS → rg e o = rg d o) ∧
        (rg e R.SYS_HOLD_DROPS).toNat = (if formatMatch p x = true ∧ p.marker = true then min ((rg d R.SYS_HOLD_DROPS).toNat + 1) 0xFFFFFFFF
          else (rg d R.SYS_HOLD_DROPS).toNat)) ∧
      (d.sys.mode ≠ .hold → formatMatch p x = false → ∃ e, Completes (.st2110PacketRx t p) s e ∧ e.vid = d.vid ∧ e.plain = d.plain ∧
        (rg e (R.PKT_ING_FORMAT_DROPS i)).toNat = min ((rg d (R.PKT_ING_FORMAT_DROPS i)).toNat + 1) 0xFFFFFFFF ∧
        ∀ o, o ≠ R.PKT_ING_FORMAT_DROPS i → rg e o = rg d o) ∧
      (d.sys.mode ≠ .hold → formatMatch p x = true → p.lenOk = true → p.srd.length ≤ 3 → p.srd.all (srdOk x) = true → p.marker = true →
        x.frame = some (p.rtpTime, false) → p.seq < 2 ^ 32 → x.lastSeq = some ((p.seq + 2 ^ 32 - 1) % 2 ^ 32) →
        ∃ e y, Completes (.st2110PacketRx t p) s e ∧ tget e.vid.streams i = some y ∧ y.c = x.w ∧ y.cTime = p.rtpTime ∧ y.lost = false ∧
          y.l = x.l ∧ y.heard = d.raw ∧ y.frame = none ∧
          (rg e (R.PKT_ING_FRAMES i)).toNat = min ((rg d (R.PKT_ING_FRAMES i)).toNat + 1) 0xFFFFFFFF)) ∧
    (tget d.vid.streams i = some x →
      ((x.joined = false ∨ d.sys.mode = .hold ∨ d.raw < x.heard + ms 500 ∨ x.lost = true) → Completes (.streamLost t i) s d) ∧
      (x.joined = true → d.sys.mode ≠ .hold → x.heard + ms 500 ≤ d.raw → x.lost = false →
        ∃ e, Completes (.streamLost t i) s e ∧ tget e.vid.streams i = some { x with lost := true } ∧ e.sys = d.sys ∧ e.outp = d.outp ∧
          ∀ o, o ∉ postCounters → rg e o = rg d o))

/-- R138, R145, R151, R264: a pass that has written its last band by its deadline is published: the buffers change roles and PASSES counts it. One
past its deadline, or with an error in a band's buffer, is aborted: nothing is published and ABORTS counts it. A band moves the pass on. A switch is
done when its carry has reached 0. -/
def Obligations.PassesPublishOrAbort : Prop :=
  ∀ (t : Time) (i : Nat) (c : Canvas) (s : State) (d : Dev), AtTime t s d → canvasAt d i = some c →
    (∀ p, c.pass = some p →
      (c.timing.bands ≤ p.band → canvasTime d c ≤ deadline d c p →
        ∃ e, Completes (.passComplete t i) s e ∧ canvasAt e i = some { c with pass := none, pub := 1 - c.pub, pubFrame := some p.frame } ∧
          (rg e (R.RAS_CANVAS_PASSES i)).toNat = min ((rg d (R.RAS_CANVAS_PASSES i)).toNat + 1) 0xFFFFFFFF ∧ e.plain = d.plain ∧ e.sch = d.sch) ∧
      (¬(c.timing.bands ≤ p.band ∧ canvasTime d c ≤ deadline d c p) → Completes (.passComplete t i) s d) ∧
      (deadline d c p < canvasTime d c →
        ∃ e u, Completes (.underrun t i) s e ∧ canvasAt e i = some { c with pass := none, aborted := some p.frame, lastUnderrun := u } ∧
          (rg e (R.RAS_CANVAS_ABORTS i)).toNat = min ((rg d (R.RAS_CANVAS_ABORTS i)).toNat + 1) 0xFFFFFFFF ∧ e.sys = d.sys) ∧
      (canvasTime d c ≤ deadline d c p → Completes (.underrun t i) s d) ∧
      (p.band < c.timing.bands →
        (∃ e u, Completes (.bandWritten t i true) s e ∧ canvasAt e i = some { c with pass := none, aborted := some p.frame, lastUnderrun := u } ∧
          (rg e (R.RAS_CANVAS_ABORTS i)).toNat = min ((rg d (R.RAS_CANVAS_ABORTS i)).toNat + 1) 0xFFFFFFFF) ∧
        ∃ e q, Completes (.bandWritten t i false) s e ∧ canvasAt e i = some { c with pass := some q } ∧ q.band = p.band + 1 ∧ q.frame = p.frame ∧
          q.layers = p.layers ∧ e.sys = d.sys) ∧
      (c.timing.bands ≤ p.band → ∀ bad, Completes (.bandWritten t i bad) s d)) ∧
    (c.pass = none → Completes (.passComplete t i) s d ∧ Completes (.underrun t i) s d ∧ ∀ bad, Completes (.bandWritten t i bad) s d) ∧
    (c.switching = true → carryNow d c = 0 →
      ∃ e, Completes (.switchDone t i) s e ∧ canvasAt e i = some { c with switching := false, k0 := 0, ppm := 0 } ∧ e.sys = d.sys ∧
        ∀ o, o ∉ postCounters → rg e o = rg d o) ∧
    ((c.switching = false ∨ carryNow d c ≠ 0) → Completes (.switchDone t i) s d)

/-- R136, R138, R275: no tick fires in a mode before CONFIGURE, nor more than 5 ns before its instant. A tick that is due moves the canvas on to the
next; where the show runs and the canvas has reached its start, the pass of frame N + LEAD begins in the buffer that is not published
(log 27: which layers take part). -/
def Obligations.FrameTicksStartPasses : Prop :=
  ∀ (t : Time) (i : Nat) (c : Canvas) (s : State) (d : Dev), AtTime t s d → canvasAt d i = some c →
    (timeRuns d = false → Completes (.frameTick t i) s d) ∧
    (timeRuns d = true → c.regrid = none →
      (canvasTime d c + (ns 5 : Nat) < tickAt d c c.nextN → Completes (.frameTick t i) s (startDue d)) ∧
      (tickAt d c c.nextN ≤ canvasTime d c + (ns 5 : Nat) → c.switch = none → d.outp.univs = [] → d.outp.ghosts = [] → d.pxp.ports = [] →
        d.tim.actions = [] → d.red.handover = none → ckptMay d = false →
        ((showRuns d = false ∨ objAt d (okey 5 i) = none) →
          ∃ e, Completes (.frameTick t i) s (startDue e) ∧ e.sys = d.sys ∧ e.plain = d.plain ∧ e.regs = d.regs ∧ e.vid.streams = d.vid.streams ∧
            canvasAt e i = some { c with nextN := c.nextN + 1, phis := c.phis.drop 1 ++ [phiOf d c], pend1 := c.pend1 || c.pend2, pend2 := false }) ∧
        (∀ o, showRuns d = true → objAt d (okey 5 i) = some o → reachedAt d o (tickAt d c (c.nextN + c.timing.lead)) = true →
          ∃ e q, Completes (.frameTick t i) s (startDue e) ∧ e.sys = d.sys ∧ e.plain = d.plain ∧
            canvasAt e i = some { c with nextN := c.nextN + 1, phis := c.phis.drop 1 ++ [phiOf d c], pend1 := c.pend2, pend2 := false, pass := some q } ∧
            q.frame = c.nextN + c.timing.lead ∧ q.latch = c.nextN ∧ q.band = 0 ∧ q.bg = c.bg ∧ q.points = c.points.map fun e => (e.1, e.2.1, e.2.2.1))))

/-- R146, R147, R148: a LAYER_COMMIT is refused as a whole, and nothing is staged; one that starts in the open window is latched at the next tick,
one in twilight a tick later, with LATE in its answer, in RAS.COMMIT and in LATE_COMMITS. The states staged live beside the live states, which do
not change; DATA carries the latch tick. -/
def Obligations.CommitsAreStagedForTheirTick : Prop :=
  ∀ (t : Time) (h : CmdHdr) (handle : Word) (b : List Byte) (s : State) (d : Dev) (c : Canvas), AtTime t s d → Served d h 0x100 handle →
    ((hKind handle ≠ 5 ∨ objOf d handle = none) → Completes (.layerCommit t h handle b) s (complete h 0x100 rcBadHandle handle [] d)) ∧
    (hKind handle = 5 → (objOf d handle).isSome = true → canvasAt d (hIndex handle) = some c →
      (∀ e, commitEntries d h b = .error e → Completes (.layerCommit t h handle b) s (complete h 0x100 e.code handle e.data d)) ∧
      (∀ es e, commitEntries d h b = .ok es → commitOk d (hIndex handle) es = .error e →
        Completes (.layerCommit t h handle b) s (complete h 0x100 e.code handle e.data d)) ∧
      (∀ es l, commitEntries d h b = .ok es → commitOk d (hIndex handle) es = .ok l →
        ∃ e late, Answers (.layerCommit t h handle b) s h 0x100 handle
            (timeBytes (tickAt d c (if late then c.nextN + 1 else c.nextN)) ++ [if late then 1 else 0]) e ∧
          (late = true ↔ isRunning d (okey 5 (hIndex handle)) = true ∧ c.regrid = none ∧ tickAt d c c.nextN - c.timing.tw ≤ canvasTime d c) ∧
          e.sys = d.sys ∧ (late = false → e.plain = d.plain ∧ ∀ o, o ≠ R.RAS_CANVAS_COMMITS (hIndex handle) → rg e o = rg d o) ∧
          (late = true → (rg e (R.RAS_CANVAS_LATE_COMMITS (hIndex handle))).toNat =
            min ((rg d (R.RAS_CANVAS_LATE_COMMITS (hIndex handle))).toNat + 1) 0xFFFFFFFF) ∧
          (∀ k, (∀ x, x ∈ l → x.1 ≠ k) → tget e.vid.layers k = tget d.vid.layers k) ∧
          (∀ k st y, l.filter (fun x => x.1 == k) = [(k, st)] → tget d.vid.layers k = some y →
            tget e.vid.layers k = some (if late then { y with pend2 := some st } else { y with pend1 := some st }))))

/-- R149, R150: RETIME is refused with the code of the check that fails, and the timing stays as it is; one that is admitted is staged, its boundary
the next tick or that of a RETIME staged before it, and DATA carries the instant of the first presentation under the new timing. -/
def Obligations.RetimeIsStaged : Prop :=
  ∀ (t : Time) (h : CmdHdr) (handle : Word) (b : List Byte) (s : State) (d : Dev) (c : Canvas), AtTime t s d → Served d h 0x101 handle →
    ((hKind handle ≠ 5 ∨ objOf d handle = none) → Completes (.retime t h handle b) s (complete h 0x101 rcBadHandle handle [] d)) ∧
    (hKind handle = 5 → (objOf d handle).isSome = true → canvasAt d (hIndex handle) = some c →
      (∀ x, retimeCheck d h (hIndex handle) c b = .error x → ∃ e, Completes (.retime t h handle b) s (complete h 0x101 x.code handle x.data e) ∧
        e.vid = d.vid ∧ e.hdl = d.hdl ∧ e.plain = d.plain ∧ ∀ o, o ≠ R.HDL_ADMIT_REFUSED → rg e o = rg d o) ∧
      (∀ g rs all, retimeCheck d h (hIndex handle) c b = .ok (g, rs, all) →
        ∃ e x, Answers (.retime t h handle b) s h 0x101 handle
            (timeBytes (g.at_ (g.after (phiOf d c) (tickAt d c (retimeBoundary c)) + (g.lead : Int)) + phiOf d c)) e ∧
          canvasAt e (hIndex handle) = some { c with regrid := some x } ∧ x.timing = some g ∧ x.boundary = retimeBoundary c ∧
          (c.regrid = none → x.boundary = c.nextN) ∧ (∀ y, c.regrid = some y → y.waiting = true → x.boundary = y.boundary)))

/-- R161, R162, R164: the rows of R161 are tested in order and each drops, ignores or accepts the datagram, with its own counter. An accepted packet
is its source's newest; a new CID takes the lowest free position. 2.5 s after its last accepted packet a source is lost, and the last one takes the
universe to HOLDING or RELEASED; HOLDING ends after HOLD_MS where LOSS is RELEASE. -/
def Obligations.InputsFollowTheTable : Prop :=
  ∀ (t : Time) (port : Nat) (p : E131Pkt) (s : State) (d : Dev), AtTime t s d →
    let counts (o : Nat) : Prop := ∃ e, Completes (.e131PacketRx t port p) s e ∧ e.outp = d.outp ∧ (rg e o).toNat = min ((rg d o).toNat + 1) 0xFFFFFFFF ∧
      ∀ q, q ≠ o → q ∉ postCounters → rg e q = rg d q
    (timeRuns d = false ∨ 16 ≤ port → Completes (.e131PacketRx t port p) s d) ∧
    (timeRuns d = true → port < 16 →
      (p.lenOk = false → counts R.PKT_RX_LEN_DROPS) ∧ (p.lenOk = true → p.kind ≠ .data → counts R.PKT_RX_IGNORED) ∧
      (p.lenOk = true → p.kind = .data → inputFor d port p = none → counts R.PKT_RX_UNMATCHED) ∧
      (∀ i u, p.lenOk = true → p.kind = .data → inputFor d port p = some (i, u) → inputAt d i = some u →
        (200 < p.priority → counts R.PKT_RX_PRIO_DROPS) ∧
        (p.priority ≤ 200 → p.preview = true → counts R.PKT_RX_PREVIEW) ∧
        (p.priority ≤ 200 → p.preview = false → p.terminated = true → ∃ e v, Completes (.e131PacketRx t port p) s e ∧ inputAt e i = some v ∧
          v.terminated = sat (u.terminated + 1) ∧ v.srcs = (match u.posOf p.cid with | some pos => tdel u.srcs pos | none => u.srcs)) ∧
        (p.priority ≤ 200 → p.preview = false → p.terminated = false →
          (p.startCode ≠ 0 → counts R.PKT_RX_OTHER_SC) ∧
          (p.startCode = 0 →
            (u.posOf p.cid = none → u.freePos = none → ∃ e, Completes (.e131PacketRx t port p) s e ∧ inputAt e i = some { u with overflow := sat (u.overflow + 1) }) ∧
            (∀ pos x, u.posOf p.cid = some pos → tget u.srcs pos = some x → -19 ≤ seqDiff p.seq x.seq → seqDiff p.seq x.seq ≤ 0 →
              ∃ e, Completes (.e131PacketRx t port p) s e ∧ inputAt e i = some { u with seqDrops := sat (u.seqDrops + 1) }) ∧
            (∀ pos, ((u.posOf p.cid = none ∧ u.freePos = some pos) ∨
                (u.posOf p.cid = some pos ∧ ∃ x, tget u.srcs pos = some x ∧ ¬(-19 ≤ seqDiff p.seq x.seq ∧ seqDiff p.seq x.seq ≤ 0))) →
              (u.posOf p.cid = none → tget u.srcs pos = none ∧ ∀ k, k < pos → (tget u.srcs k).isSome = true) ∧
              (d.sys.mode = .hold → counts R.SYS_HOLD_DROPS) ∧
              (d.sys.mode ≠ .hold → ∃ e v x, Completes (.e131PacketRx t port p) s e ∧ inputAt e i = some v ∧ v.st = 1 ∧ tget v.srcs pos = some x ∧
                x.cid = p.cid ∧ x.prio = p.priority ∧ x.seq = p.seq ∧ x.slots = p.slots.take 512 ∧ v.packets = sat (u.packets + 1) ∧
                v.winPrio = (v.srcs.map (·.2.prio)).foldl max 0)))))) ∧
    (∀ i u, inputAt d i = some u →
      (∀ pos x, tget u.srcs pos = some x →
        (inNow d u < x.heard + ms 2500 → Completes (.sourceLost t i pos) s d) ∧
        (x.heard + ms 2500 ≤ inNow d u → ∃ e v, Completes (.sourceLost t i pos) s e ∧ inputAt e i = some v ∧ v.srcs = tdel u.srcs pos ∧
          v.losses = sat (u.losses + 1) ∧ (tdel u.srcs pos ≠ [] → u.st ≠ 2 → v.st = u.st) ∧
          (tdel u.srcs pos = [] → u.loss = 0 ∨ u.holdMs ≠ 0 → v.st = 2) ∧ (tdel u.srcs pos = [] → u.loss = 1 → u.holdMs = 0 → v.st = 3))) ∧
      (releaseDue d u = true → ∃ e, Completes (.inputReleased t i) s e ∧ inputAt e i = some { u with st := 3, merged := [], winPrio := 0 }) ∧
      (releaseDue d u = false → Completes (.inputReleased t i) s d))

/-- R190, R195, R199: the sync of a frame is launched within a microsecond of its tick, under the port's next sequence number, and the port then owes
it no longer; an identity with discovery sends its pages every 10 s; a site tick that is due moves the universe on to the next, running or not. -/
def Obligations.SyncsDiscoveryAndSiteTicks : Prop :=
  ∀ (t : Time) (s : State) (d : Dev), AtTime t s d →
    (∀ port, (syncDue d port = none ∨ outputsOn d = false ∨ 16 ≤ port) → Completes (.syncLaunch t port) s d) ∧
    (∀ port k n tick, syncDue d port = some (k, n, tick) → outputsOn d = true → port < 16 →
      ∃ e, Completes (.syncLaunch t port) s e ∧ (portAt e port).syncSeq = ((portAt d port).syncSeq + 1) % 256 ∧ (portAt e port).syncN = some n ∧
        (portAt e port).syncFor = (portAt d port).syncFor.filter fun x => x != (k, n, tick)) ∧
    (∀ i x, tget d.outp.idents i = some x →
      ((outputsOn d = false ∨ x.discovery = false ∨ ∃ v, x.discAt = some v ∧ d.raw < v + ms 9500) → Completes (.discoverySend t i) s d) ∧
      (outputsOn d = true → x.discovery = true → (∀ v, x.discAt = some v → v + ms 9500 ≤ d.raw) →
        ∃ e, Completes (.discoverySend t i) s e ∧ tget e.outp.idents i = some { x with discAt := some d.raw } ∧ e.outp.univs = d.outp.univs ∧ e.sys = d.sys)) ∧
    (∀ i u, tget d.outp.univs i = some u → u.cls = 1 → migOf d i = none →
      ((timeRuns d = false ∨ domTime d 0 + (ns 5 : Nat) < siteTickAt u u.tickK) → Completes (.siteTick t i) s d) ∧
      (timeRuns d = true → siteTickAt u u.tickK ≤ domTime d 0 + (ns 5 : Nat) →
        (objAt d (okey 2 i) = none → Completes (.siteTick t i) s { d with outp.univs := tput d.outp.univs i { u with tickK := siteTickAfter u (domTime d 0) } }) ∧
        (∀ o tk, objAt d (okey 2 i) = some o → o.state = 2 → d.sys.mode ≠ .hold → (o.startAt : Int) ≤ siteTickAt u u.tickK → siteRuns d = true →
          u.remote = false → tget (postFlags i 6 d).sch.tasks i = some tk → tk.queued = true → groupOk (postFlags i 6 d) tk = true →
          ∃ e y, Completes (.siteTick t i) s e ∧ tget e.outp.univs i = some y ∧ y.tickK = siteTickAfter u (domTime d 0) ∧ y.frame = u.tickK ∧
            y.latchAt = d.raw ∧ y.payFrame = some (u.tickK : Int))))

/-- R241, R243, R247, R248: from CONFIGURE on a port acquires and comes up, or shows a mismatch; a link that goes down discards what was queued, ends
its pause and counts. A write of MACn.CTRL switches PAUSE_EN and restarts autonegotiation or verification; a verify is answered, a respond ends
verification, three unanswered verifies fail it. A pause ends at its instant. -/
def Obligations.LinksComeUpAndGoDown : Prop :=
  ∀ (t : Time) (n : Nat) (s : State) (d : Dev), AtTime t s d →
    (portsRun d = true → (portAt d n).link = 1 →
      (∃ e, Completes (.linkUp t n) s e ∧ (portAt e n).link = 2 ∧ (portAt e n).rec_ = (portAt d n).rec_ ∧
        ((portAt d n).rec_.preempt = true → (portAt e n).verify = 2 ∧ (portAt e n).attempts = 1)) ∧
      (∃ e, Completes (.linkMismatch t n) s e ∧ (portAt e n).link = 3 ∧ e.sys = d.sys ∧ ∀ o, o ∉ postCounters → rg e o = rg d o)) ∧
    ((portsRun d = false ∨ (portAt d n).link ≠ 1) → Completes (.linkUp t n) s d ∧ Completes (.linkMismatch t n) s d) ∧
    ((portAt d n).link = 2 → ∃ e, Completes (.linkDown t n) s e ∧ (portAt e n).link = 1 ∧ (portAt e n).queue = [] ∧ (portAt e n).express = [] ∧
      (portAt e n).wire = none ∧ (portAt e n).pauseEnd = none ∧ (portAt e n).count cLinkDowns = ((portAt d n).count cLinkDowns + 1) % 2 ^ 64) ∧
    ((portAt d n).link ≠ 2 → Completes (.linkDown t n) s d) ∧
    (∀ v : Word, n < 17 → canWrite d (R.MAC_CTRL n) = true →
      (∃ e, Completes (.anRestart t n v) s e ∧ (v.getLsbD 2 = true → (portAt d n).link = 3 → (portAt e n).link = 1) ∧
        (v.getLsbD 2 = false → (portAt e n).link = (portAt d n).link)) ∧
      (∃ e, Completes (.pauseEnWrite t n v) s e ∧ bitOf e (F.MAC_CTRL_PAUSE_EN n) = v.getLsbD 0 ∧ (v.getLsbD 0 = false → (portAt e n).pauseEnd = none)) ∧
      (∃ e, Completes (.verifyRestart t n v) s e ∧ (v.getLsbD 1 = true → (portAt d n).verify = 3 ∨ (portAt d n).verify = 4 →
        ((portAt d n).link = 2 → (portAt e n).verify = 2 ∧ (portAt e n).attempts = 1) ∧ ((portAt d n).link ≠ 2 → (portAt e n).verify = 1)))) ∧
    (∀ v : Word, canWrite d (R.MAC_CTRL n) = false →
      Completes (.anRestart t n v) s d ∧ Completes (.pauseEnWrite t n v) s d ∧ Completes (.verifyRestart t n v) s d) ∧
    ((portAt d n).verify = 2 → (portAt d n).verifyAt + ms (portAt d n).rec_.verifyMs ≤ d.raw →
      ((portAt d n).attempts < 3 → ∃ e, Completes (.verifyTimeout t n) s e ∧ e.out = .mpacket n false :: d.out ∧
        portAt e n = { portAt d n with attempts := (portAt d n).attempts + 1, verifyAt := d.raw }) ∧
      (3 ≤ (portAt d n).attempts → ∃ e, Completes (.verifyTimeout t n) s e ∧ (portAt e n).verify = 4 ∧
        (portAt e n).count cVerifyFails = ((portAt d n).count cVerifyFails + 1) % 2 ^ 64)) ∧
    ((portAt d n).verify ≠ 2 ∨ d.raw < (portAt d n).verifyAt + ms (portAt d n).rec_.verifyMs → Completes (.verifyTimeout t n) s d) ∧
    ((portAt d n).link = 2 → (portAt d n).verify ≠ 0 → Completes (.mpacketRx t n false) s { d with out := .mpacket n true :: d.out }) ∧
    ((portAt d n).link = 2 → (portAt d n).verify = 2 → ∃ e, Completes (.mpacketRx t n true) s e ∧ (portAt e n).verify = 3 ∧ e.sys = d.sys) ∧
    (((portAt d n).link ≠ 2 ∨ (portAt d n).verify = 0) → ∀ b, Completes (.mpacketRx t n b) s d) ∧
    (∀ x, (portAt d n).pauseEnd = some x → (x ≤ d.raw → ∃ e, Completes (.pauseEnd t n) s e ∧ (portAt e n).pauseEnd = none ∧ e.regs = d.regs) ∧
      (d.raw < x → Completes (.pauseEnd t n) s d)) ∧
    ((portAt d n).pauseEnd = none → Completes (.pauseEnd t n) s d) ∧
    (∀ w, (portsRun d = false ∨ portOn d n = false) → Completes (.partnerAdvertisementChange t n w) s d) ∧
    (∀ w, portsRun d = true → portOn d n = true → ∃ e, Completes (.partnerAdvertisementChange t n w) s e ∧
      (portAt e n).link = (if (portAt d n).link = 3 then 1 else (portAt d n).link) ∧ e.regs = d.regs ∧
      ((portAt d n).rec_.mode = 2 → (portAt e n).lpAbility = w % 65536))

/-- R244, R249, R250, R253, R254: a frame on a link that is up counts in its size bin and under the first check that fails, or is accepted and counted
with its bytes. Addresses are asked for again once a second until they are known, again at 270 s, and forgotten at 300 s. A report that is due
leaves. Snapshots take the counters as they stand; a read of a LO half latches its HI half. -/
def Obligations.FramesAddressesAndCounters : Prop :=
  ∀ (t : Time) (n : Nat) (s : State) (d : Dev), AtTime t s d →
    (∀ f : EthFrame,
      ((portAt d n).link ≠ 2 → Completes (.rxFrame t n f) s d) ∧
      ((portAt d n).link = 2 → f.fragments ≤ 1 → f.assyError = false →
        (f.codeError = true → f.len < 64 → ∃ e, Completes (.rxFrame t n f) s e ∧ (portAt e n).count cRxCode = ((portAt d n).count cRxCode + 1) % 2 ^ 64 ∧
          e.plain = d.plain) ∧
        (∀ j w, sizeBin f.len = some j → w = cntAdd n j 1 d →
          (∀ i, rxVerdict w n f = .drop i → i < 28 → ∃ e, Completes (.rxFrame t n f) s e ∧ (portAt e n).count i = ((portAt d n).count i + 1) % 2 ^ 64 ∧
            (portAt e n).count j = ((portAt d n).count j + 1) % 2 ^ 64 ∧ e.plain = d.plain ∧ e.regs = d.regs) ∧
          (rxVerdict w n f = .accept false → (if packetWait d then (portAt d n).dataUsed else 0) + cdiv (f.len - 4) 2048 ≤ (portAt d n).rec_.rxBuffers →
            ∃ e, Completes (.rxFrame t n f) s e ∧ (portAt e n).count cRxFrames = ((portAt d n).count cRxFrames + 1) % 2 ^ 64 ∧
              (portAt e n).count cRxBytes = ((portAt d n).count cRxBytes + f.len) % 2 ^ 64)))) ∧
    (∀ ip x, tget (portAt d n).arp ip = some x →
      (x.mac = none → x.asked + sec 1 ≤ d.raw →
        ∃ e, Completes (.arpRequestRetry t n ip) s e ∧ tget (portAt e n).arp ip = some { x with asked := d.raw }) ∧
      ((x.mac.isSome = true ∨ d.raw < x.asked + sec 1) → Completes (.arpRequestRetry t n ip) s d) ∧
      (x.mac.isSome = true → x.born + sec 270 ≤ d.raw → x.asked < x.born + sec 270 →
        ∃ e, Completes (.arpEntryRefresh t n ip) s e ∧ tget (portAt e n).arp ip = some { x with asked := d.raw }) ∧
      ((x.mac = none ∨ d.raw < x.born + sec 270) → Completes (.arpEntryRefresh t n ip) s d) ∧
      (x.mac.isSome = true → x.born + sec 300 ≤ d.raw →
        ∃ e, Completes (.arpEntryExpiry t n ip) s e ∧ (portAt e n).arp = tdel (portAt d n).arp ip ∧ e.regs = d.regs) ∧
      ((x.mac = none ∨ d.raw < x.born + sec 300) → Completes (.arpEntryExpiry t n ip) s d)) ∧
    (∀ g, (∀ x, x ∈ (portAt d n).igmp → x.group = g → d.raw < x.due) → Completes (.igmpReportSend t n g) s d) ∧
    (∀ x, (portAt d n).igmp = [x] → x.due ≤ d.raw → ∃ e, Completes (.igmpReportSend t n x.group) s e ∧ (portAt e n).igmp = [] ∧ e.regs = d.regs) ∧
    (∀ v : Word, n < 17 → canWrite d (R.MAC_SNAP n) = true → v.getLsbD 0 = true → v.getLsbD 1 = false →
      ∃ e, Completes (.snapGo t n v) s e ∧ (portAt e n).snap = (portAt d n).cnt ∧ (portAt e n).cnt = (portAt d n).cnt) ∧
    (∀ v : Word, canWrite d (R.MAC_SNAP 0) = true → v.getLsbD 1 = true →
      ∃ e, Completes (.snapAll t v) s e ∧ ∀ k, k < 17 → (portAt e k).snap = (portAt d k).cnt ∧ (portAt e k).cnt = (portAt d k).cnt) ∧
    (∀ i, pcieUp d = true → n < 17 → i < 38 → bar0Up d (R.MAC_CNT_LO n i) = true →
      ∃ e, Completes (.cntLoRead t n i) s e ∧ e.out = .readData (leBytes 4 ((portAt d n).count i % 2 ^ 32)) :: d.out ∧
        tget (portAt e n).hiLatch i = some ((portAt d n).count i / 2 ^ 32) ∧ (portAt e n).cnt = (portAt d n).cnt ∧ e.regs = d.regs)

/-- R192, R245, R246, R254: an idle port with a link starts, in this order, the head of its express queue, the remainder of a preempted frame, and a
frame of its queue, which passes over no frame of a higher row that its guard allows; a held express frame stops the rest (log 33). An express frame preempts where 60
bytes of the fragment are out and 64 still to go. An ended frame leaves, and its counters move at once. A payload not there in time repeats the one before. -/
def Obligations.PortsSendInOrder : Prop :=
  ∀ (t : Time) (n : Nat) (s : State) (d : Dev), AtTime t s d →
    let p := portAt d n
    let onWire (f : TxFrame) (x : Bool) (a : Time) : Option Wire :=
      some { frame := f, express := x, start := a, done := a + p.rec_.bytes (8 + f.len), sent := 0, frags := 0 }
    (timeRuns d = false ∨ 17 ≤ n → Completes (.txFrameStart t n) s d) ∧
    (timeRuns d = true → n < 17 → (∀ f, f ∈ p.queue → expired d f = false) →
      (p.link ≠ 2 ∨ p.paused d.raw = true → Completes (.txFrameStart t n) s d) ∧
      (p.link = 2 → p.paused d.raw = false →
        (p.wire = none → d.raw < p.ready → Completes (.txFrameStart t n) s d) ∧
        (∀ f r k i x, p.express = f :: r → f.tag = .sync k i x →
          (p.wire = none → p.ready ≤ d.raw → ∃ e, Completes (.txFrameStart t n) s e ∧ portAt e n = { p with express := r, wire := onWire f true d.raw }) ∧
          (∀ w gone, p.wire = some w → splitAt d n w = some gone → w.express = false ∧ 60 ≤ gone ∧ w.sent + gone + 64 ≤ w.frame.len ∧ p.verify = 3 ∧
            ∃ e, Completes (.txFrameStart t n) s e ∧ portAt e n = { p with
              express := r, held := some (w.frame, w.sent + gone, w.frags + 1), wire := onWire f true (d.raw + p.rec_.bytes 16) })) ∧
        (∀ w, p.wire = some w → p.express = [] ∨ splitAt d n w = none → Completes (.txFrameStart t n) s d) ∧
        (p.wire = none → p.ready ≤ d.raw →
          (∀ f r, p.express = f :: r → expressOk d n f = false → Completes (.txFrameStart t n) s d) ∧
          (p.express = [] →
            (∀ f sent frags, p.held = some (f, sent, frags) →
              (guardOk d n (f.len - sent) = false → Completes (.txFrameStart t n) s d) ∧
              (guardOk d n (f.len - sent) = true → ∃ e, Completes (.txFrameStart t n) s e ∧ portAt e n = { p with
                held := none, wire := some { frame := f, express := false, start := d.raw, sent := sent, frags := frags, done := d.raw + p.rec_.bytes (8 + f.len - sent) } })) ∧
            (p.held = none →
              (pickQueued d n = none → Completes (.txFrameStart t n) s d) ∧
              (∀ f, pickQueued d n = some f → guardOk d n f.len = true ∧ f ∈ p.queue ∧
                (∀ r g, 3 ≤ r → r < f.tag.row → (p.queue.filter (opened d)).find? (fun g => g.tag.row == r) = some g → guardOk d n g.len = false) ∧
                (f.tag = .control ∨ f.tag = .best → ∃ e, Completes (.txFrameStart t n) s e ∧
                  portAt e n = { p with queue := p.queue.erase f, wire := onWire f false d.raw }))))))) ∧
    ((17 ≤ n ∨ p.wire = none ∨ ∃ w, p.wire = some w ∧ d.raw < w.done) → Completes (.txFrameEnd t n) s d) ∧
    (n < 17 → ∀ w, p.wire = some w → w.done ≤ d.raw → ∃ e, Completes (.txFrameEnd t n) s e ∧ (portAt e n).wire = none ∧ (portAt e n).queue = p.queue ∧
      (portAt e n).ready = w.done + p.rec_.bytes 12 ∧ (portAt e n).count cTxFrames = (p.count cTxFrames + 1) % 2 ^ 64 ∧
      (portAt e n).count cTxBytes = (p.count cTxBytes + w.frame.len) % 2 ^ 64 ∧
      (portAt e n).count cTxExpress = (if w.express then (p.count cTxExpress + 1) % 2 ^ 64 else p.count cTxExpress) ∧
      (portAt e n).count cTxPreempted = (if 0 < w.frags then (p.count cTxPreempted + 1) % 2 ^ 64 else p.count cTxPreempted) ∧
      (w.frame.tag = .control ∨ w.frame.tag = .best → e.out = .frame n w.frame.bytes :: d.out ∧ e.regs = d.regs)) ∧
    (∀ k, (tget d.val.hosted k = none ∨ outputsOn d = false ∨ ∃ h, tget d.val.hosted k = some h ∧ h.sent = none) → Completes (.remoteLate t k) s d) ∧
    (∀ k h m, tget d.val.hosted k = some h → h.sent = some m → h.univ.cls = 0 → outputsOn d = true →
      hostTick d h (m + 1) - (us 50 : Nat) - (arrivalWidth d h.univ.dest : Nat) ≤ domTime d h.domain →
      ∃ e, Completes (.remoteLate t k) s e ∧ tget e.val.hosted k = some { h with sent := some (m + 1) } ∧
        (rg e (R.PKT_TXP_REMOTE_LATE h.univ.dest)).toNat = min ((rg d (R.PKT_TXP_REMOTE_LATE h.univ.dest)).toNat + 1) 0xFFFFFFFF)

/-- R201, R202, R203, R204: a line's packet starts at its tick, 1,204 µs after the break before, when no RDM transaction runs. A request starts when it fits
before the next tick; it fails its check or times out 2.8 ms after its end, and is then repeated twice more and reported. Discovery runs each
interval and on GO, and halves a branch whose responders collide. A GO of the mailbox while BUSY is ignored. -/
def Obligations.DmxLinesAndRdm : Prop :=
  ∀ (t : Time) (n : Nat) (s : State) (d : Dev), AtTime t s d → n < 2 →
    let l := lineAt d n
    (∀ i u, lineUniv d n = some (i, u) →
      (lineSends d n = true → breakDue d n u = true → l.tick < (u.tickK : Int) ∧ lineBusy d n = false ∧ (∀ b, l.lastBreak = some b → b + us 1204 ≤ d.raw) ∧
        ∃ e, Completes (.dmxBreak t n) s e ∧ e.out = .dmx n (fit u.slots u.payload) :: d.out ∧ (lineAt e n).tick = u.tickK ∧ (lineAt e n).lastBreak = some d.raw) ∧
      ((lineSends d n = false ∨ breakDue d n u = false) → Completes (.dmxBreak t n) s d) ∧
      (∀ r, rdmNext d n = some r → d.sys.mode = .active → lineSends d n = true → lineBusy d n = false → rdmFits d n u r = true →
        (r.dest ≠ rdmAll ∨ r.serves ≠ 0 → ∃ e, Completes (.rdmRequestStart t n) s e ∧ e.out = .rdm n (rdmBytes d ((l.tn + 1) % 256) r) :: d.out ∧
          (lineAt e n).tn = (l.tn + 1) % 256 ∧ (lineAt e n).req = some { r with sent := r.sent + 1, ends := d.raw + us (rdmUs d n r) }) ∧
        (r.dest = rdmAll → r.serves = 0 → ∃ e, Completes (.rdmRequestStart t n) s e ∧ bitOf e (F.DMX_LINE_MB_CTRL_BUSY n) = false ∧
          bitOf e (F.DMX_LINE_MB_CTRL_DONE n) = true ∧ fld e (F.DMX_LINE_MB_CTRL_STATUS n) = 0)) ∧
      (∀ r, rdmNext d n = some r → (d.sys.mode ≠ .active ∨ lineSends d n = false ∨ lineBusy d n = true ∨ rdmFits d n u r = false) →
        Completes (.rdmRequestStart t n) s d)) ∧
    ((lineUniv d n = none ∨ rdmNext d n = none) → Completes (.rdmRequestStart t n) s d) ∧
    (lineUniv d n = none → Completes (.dmxBreak t n) s d) ∧
    (∀ r, l.req = some r → r.serves < 3 →
      (∀ x : RdmResp, ¬(r.serves = 2 ∧ r.pid = 1 ∧ x.collision = true) →
        (x.checksumOk = true →
          (r.serves = 0 → x.respType < 4 → ∃ e, Completes (.rdmResponseRx t n x) s e ∧ (lineAt e n).req = none ∧ bitOf e (F.DMX_LINE_MB_CTRL_BUSY n) = false ∧
            bitOf e (F.DMX_LINE_MB_CTRL_DONE n) = true ∧ fld e (F.DMX_LINE_MB_CTRL_STATUS n) = x.respType) ∧
          (r.serves = 1 → x.respType ≠ 0 → ∃ e, Completes (.rdmResponseRx t n x) s e ∧ (lineAt e n).req = none ∧ e.site = d.site ∧
            (rg e R.SITE_RDM_POLL_FAILS).toNat = min ((rg d R.SITE_RDM_POLL_FAILS).toNat + 1) 0xFFFFFFFF) ∧
          (∀ c u, r.serves = 2 → l.disc = some c → c.mute = some u → c.branches ≠ [] → ∃ e, Completes (.rdmResponseRx t n x) s e ∧
            (lineAt e n).req = none ∧ (lineAt e n).disc = some { c with mute := none, found := if c.found.contains u then c.found else c.found ++ [u] }) ∧
          (∀ c, r.serves = 2 → l.disc = some c → c.mute = none → ∃ e, Completes (.rdmResponseRx t n x) s e ∧
            (lineAt e n).req = none ∧ (lineAt e n).disc = some { c with mute := some x.uid })) ∧
        (x.checksumOk = false →
          (r.sent < 3 → ∃ e, Completes (.rdmResponseRx t n x) s e ∧ (lineAt e n).req = none ∧ tget (lineAt e n).again r.serves = some r ∧
            (rg e (R.DMX_LINE_RDM_CHECKSUM n)).toNat = min ((rg d (R.DMX_LINE_RDM_CHECKSUM n)).toNat + 1) 0xFFFFFFFF) ∧
          (3 ≤ r.sent → r.serves = 0 → ∃ e, Completes (.rdmResponseRx t n x) s e ∧ (lineAt e n).req = none ∧ fld e (F.DMX_LINE_MB_CTRL_STATUS n) = 5))) ∧
      (∀ (x : RdmResp) c a b q, r.serves = 2 → r.pid = 1 → x.collision = true → l.disc = some c → c.branches = (a, b) :: q → a < b →
        ∃ e, Completes (.rdmResponseRx t n x) s e ∧ (lineAt e n).req = none ∧
          (lineAt e n).disc = some { c with mute := none, branches := (a, (a + b) / 2) :: ((a + b) / 2 + 1, b) :: q }) ∧
      (d.raw < r.ends + us 2800 → Completes (.rdmTimeout t n) s d) ∧
      (r.ends + us 2800 ≤ d.raw →
        (r.sent < 3 → ∃ e, Completes (.rdmTimeout t n) s e ∧ (lineAt e n).req = none ∧ tget (lineAt e n).again r.serves = some r ∧
          (rg e (R.DMX_LINE_RDM_TIMEOUTS n)).toNat = min ((rg d (R.DMX_LINE_RDM_TIMEOUTS n)).toNat + 1) 0xFFFFFFFF) ∧
        (3 ≤ r.sent → r.serves = 0 → ∃ e, Completes (.rdmTimeout t n) s e ∧ (lineAt e n).req = none ∧ fld e (F.DMX_LINE_MB_CTRL_STATUS n) = 4))) ∧
    ((l.req = none ∨ ∃ r, l.req = some r ∧ r.serves = 3) → Completes (.rdmTimeout t n) s d ∧ ∀ x, Completes (.rdmResponseRx t n x) s d) ∧
    (d.sys.mode = .active → fld d (F.DMX_LINE_DISC_INTERVAL_S n) ≠ 0 → l.discDone = true → l.discFrom + sec (fld d (F.DMX_LINE_DISC_INTERVAL_S n)) ≤ d.raw →
      l.disc = none → ∃ e, Completes (.discoveryInterval t n) s e ∧ e.regs = d.regs ∧ lineAt e n = { l with
        disc := some { fresh := true, branches := [(0, 0xFFFFFFFFFFFE)], mute := none, found := [] }, discFrom := d.raw, discDone := true }) ∧
    ((d.sys.mode ≠ .active ∨ fld d (F.DMX_LINE_DISC_INTERVAL_S n) = 0 ∨ d.raw < l.discFrom + sec (fld d (F.DMX_LINE_DISC_INTERVAL_S n))) →
      Completes (.discoveryInterval t n) s d) ∧
    (∀ v : Word, (canWrite d (R.DMX_LINE_DISC n) = false → Completes (.discGo t n v) s d) ∧
      (canWrite d (R.DMX_LINE_DISC n) = true → ∃ e, Completes (.discGo t n v) s e ∧ lineAt e n = (if v.getLsbD 16 = true ∧ l.disc = none then { l with
        disc := some { fresh := true, branches := [(0, 0xFFFFFFFFFFFE)], mute := none, found := [] }, discFrom := d.raw, discDone := true } else l))) ∧
    (∀ v : Word, (canWrite d (R.DMX_LINE_MB_CTRL n) = false → Completes (.mailboxGo t n v) s d) ∧
      (canWrite d (R.DMX_LINE_MB_CTRL n) = true → ∀ w, w = storeReg (R.DMX_LINE_MB_CTRL n) v d →
        ((v.getLsbD 0 = false ∨ bitOf w (F.DMX_LINE_MB_CTRL_BUSY n) = true) → Completes (.mailboxGo t n v) s w) ∧
        (v.getLsbD 0 = true → bitOf w (F.DMX_LINE_MB_CTRL_BUSY n) = false →
          ((fld w (F.DMX_LINE_MB_REQ_CC n) ≠ 0x20 ∧ fld w (F.DMX_LINE_MB_REQ_CC n) ≠ 0x30) ∨ 231 < fld w (F.DMX_LINE_MB_REQ_PDL n) →
            ∃ e, Completes (.mailboxGo t n v) s e ∧ bitOf e (F.DMX_LINE_MB_CTRL_DONE n) = true ∧ fld e (F.DMX_LINE_MB_CTRL_STATUS n) = 7 ∧ e.dmx = d.dmx) ∧
          ((fld w (F.DMX_LINE_MB_REQ_CC n) = 0x20 ∨ fld w (F.DMX_LINE_MB_REQ_CC n) = 0x30) → fld w (F.DMX_LINE_MB_REQ_PDL n) ≤ 231 →
            (lineSends w n = false → ∃ e, Completes (.mailboxGo t n v) s e ∧ bitOf e (F.DMX_LINE_MB_CTRL_DONE n) = true ∧ fld e (F.DMX_LINE_MB_CTRL_STATUS n) = 6 ∧
              e.dmx = d.dmx) ∧
            (lineSends w n = true → ∃ e r, Completes (.mailboxGo t n v) s e ∧ bitOf e (F.DMX_LINE_MB_CTRL_BUSY n) = true ∧ lineAt e n = { l with mailbox := some r } ∧
              r.serves = 0 ∧ r.sent = 0 ∧ r.cc = fld w (F.DMX_LINE_MB_REQ_CC n) ∧ r.pid = fld w (F.DMX_LINE_MB_REQ_PID n))))))

/-- R214, R215, R225–R228, R230–R233: a frame start takes the filled half, repeats the last (HELD, HOLD, or a late fill) or blanks, and counts which; what the refresh before
showed is assessed first. Refresh r follows at its instant. A write of DIAG_MIN_ON that breaks the fit is refused. PIN_READBACK acts in STANDBY.
PXP_DIAG answers, tests, clears or probes in its modes. -/
def Obligations.PixelPortsScan : Prop :=
  ∀ (t : Time) (k : Nat) (diag : List Nat) (s : State) (d : Dev), AtTime t s d →
    let plus (e : Dev) (o : Nat) : Prop := (rg e o).toNat = min ((rg d o).toNat + 1) 0xFFFFFFFF
    (mapAt d k = none →
      (((pxAt d k).zeroDue = false → Completes (.pxpFrameStart t k diag) s d) ∧
        ((pxAt d k).zeroDue = true → ∃ e, Completes (.pxpFrameStart t k diag) s e ∧ e.out = .scan k 0 0 [] true :: d.out ∧ (pxAt e k).zeroDue = false)) ∧
      Completes (.pxpFillDone t k) s d ∧ Completes (.refreshStart t k diag) s d) ∧
    (∀ m, mapAt d k = some m →
      ((objAt d (okey 7 k) = none ∨ canvasAt d m.canvas = none) → Completes (.pxpFrameStart t k diag) s d) ∧
      (∀ o cv n tick, objAt d (okey 7 k) = some o → canvasAt d m.canvas = some cv → frameNow d cv = (n, tick) →
        (pxRuns d = true → (pxAt d k).disabled = false → o.state ≠ 1 → m.slotN ≠ some n → (m.scan.isSome = true ∨ (o.startAt : Int) ≤ tick) →
          ∃ e y, Completes (.pxpFrameStart t k diag) s e ∧ mapAt e k = some y ∧ y.slotN = some n ∧ y.refresh = 0 ∧ y.blank = cv.blanks n ∧
            (cv.blanks n = true → plus e (R.PXP_BLANKS k)) ∧
            (cv.blanks n = false → (o.state = 4 ∨ (d.sys.mode = .hold ∧ o.state = 2)) → y.scan = m.scan ∧ plus e (R.PXP_REPEATS k)) ∧
            (cv.blanks n = false → d.sys.mode ≠ .hold → o.state = 2 → (o.startAt : Int) ≤ tick →
              (∀ vs a, m.filled = some (n, vs, a) → a ≤ d.raw - (max 0 (canvasTime d cv - tick)).toNat - ns (preNs m.timing m.c m.pixels) →
                y.scan = some (n, vs) ∧ plus e (R.PXP_FRAMES k)) ∧
              (m.filled = none → y.scan = m.scan ∧ plus e (R.PXP_FILL_LATE k) ∧ plus e (R.PXP_REPEATS k)))) ∧
        ((pxRuns d = false ∨ (pxAt d k).disabled = true ∨ o.state = 1 ∨ m.slotN = some n ∨ (m.scan = none ∧ tick < (o.startAt : Int))) →
          Completes (.pxpFrameStart t k diag) s d)) ∧
      (∀ i due, m.fill = some (i, due) → (d.raw < due → Completes (.pxpFillDone t k) s d) ∧
        (due ≤ d.raw → ∃ e, Completes (.pxpFillDone t k) s e ∧ e.regs = d.regs ∧
          mapAt e k = some { m with fill := none, filled := some (i, fillValues m (m.nextTiming.getD m.timing) i, d.raw) })) ∧
      (m.fill = none → Completes (.pxpFillDone t k) s d) ∧
      ((m.slotN = none ∨ canvasAt d m.canvas = none) → Completes (.refreshStart t k diag) s d) ∧
      (∀ n cv, m.slotN = some n → canvasAt d m.canvas = some cv →
        let due := shownAt d cv n + (cv.shownTiming n).frames (m.refresh + 1) / (m.timing.r : Int)
        (pxRuns d = true → (pxAt d k).disabled = false → m.scan ≠ none → m.refresh + 1 < m.timing.r → due ≤ canvasTime d cv + (ns 100 : Nat) →
          ∃ e y, Completes (.refreshStart t k diag) s e ∧ mapAt e k = some y ∧ y.refresh = m.refresh + 1 ∧ y.scan = m.scan ∧ y.slotN = some n) ∧
        ((pxRuns d = false ∨ m.scan = none ∨ m.timing.r ≤ m.refresh + 1 ∨ canvasTime d cv + (ns 100 : Nat) < due) → Completes (.refreshStart t k diag) s d))) ∧
    (∀ v : Word, k < 8 → canWrite d (R.PXP_DIAG_MIN_ON k) = true →
      (v.toNat % 65536 < 100 → Completes (.diagMinOnWrite t k v) s d) ∧
      (100 ≤ v.toNat % 65536 → (∀ m, mapAt d k = some m → mapFit d m (v.toNat % 65536) = 0) →
        ∃ e, Completes (.diagMinOnWrite t k v) s e ∧ fld e (F.PXP_DIAG_MIN_ON_NS k) = v.toNat % 65536 ∧ ∀ o, o ≠ R.PXP_DIAG_MIN_ON k → rg e o = rg d o) ∧
      (∀ m, 100 ≤ v.toNat % 65536 → mapAt d k = some m → mapFit d m (v.toNat % 65536) ≠ 0 →
        ∃ e, Completes (.diagMinOnWrite t k v) s e ∧ bitOf e (F.PXP_STATE_MIN_ON_REFUSED k) = true ∧ ∀ o, o ≠ R.PXP_STATE k → rg e o = rg d o)) ∧
    (∀ v : Word, (8 ≤ k ∨ canWrite d (R.PXP_DIAG_MIN_ON k) = false) → Completes (.diagMinOnWrite t k v) s d) ∧
    (∀ l, (8 ≤ k ∨ d.sys.mode ≠ .standby ∨ l = [] ∨ (pxAt d k).disabled = true) → Completes (.pinReadback t k l) s d) ∧
    (∀ l, k < 8 → d.sys.mode = .standby → l ≠ [] → (pxAt d k).disabled = false →
      ∃ e, Completes (.pinReadback t k l) s e ∧ bitOf e (F.PXP_STATE_PIN_FAULT k) = true ∧ mapAt e k = mapAt d k) ∧
    (∀ h, Served d h 0x400 0 →
      (7 < k → Completes (.pxpDiagStatus t h k) s (complete h 0x400 rcOutOfRange 0 [] d) ∧ Completes (.pxpDiagClear t h k) s (complete h 0x400 rcOutOfRange 0 [] d) ∧
        Completes (.pxpDiagProbeNow t h k) s (complete h 0x400 rcOutOfRange 0 [] d) ∧ Completes (.pxpDiagShortTest t h k diag) s (complete h 0x400 rcOutOfRange 0 [] d)) ∧
      (k ≤ 7 → Answers (.pxpDiagStatus t h k) s h 0x400 0 (leBytes 4 (chanCount d k fun c => c.st == 2) ++ leBytes 4 (chanCount d k fun c => c.st == 3) ++
          leBytes 4 (chanCount d k (·.dim)) ++ leBytes 2 (rg d (R.PXP_SHORT k)).toNat) d ∧
        (d.sys.mode ≠ .service → Completes (.pxpDiagShortTest t h k diag) s (complete h 0x400 rcWrongMode 0 [] d)) ∧
        (d.sys.mode = .service → ∃ e, Answers (.pxpDiagShortTest t h k diag) s h 0x400 0 (List.replicate 12 0 ++ leBytes 2 (rg e (R.PXP_SHORT k)).toNat) e ∧
          mapAt e k = mapAt d k ∧ (diag = [] → (rg e (R.PXP_SHORT k)).toNat = 2048) ∧ ∀ o, o ≠ R.PXP_SHORT k → rg e o = rg d o) ∧
        (mapAt d k = none → Completes (.pxpDiagClear t h k) s (complete h 0x400 rcOutOfRange 0 [] d)) ∧
        (∀ m, mapAt d k = some m → ∃ e, Answers (.pxpDiagClear t h k) s h 0x400 0 [] e ∧ e.regs = d.regs ∧
          mapAt e k = some (if m.locate = [] then { m with chans := [] } else { m with clearDue := true })) ∧
        (d.sys.mode ≠ .active → Completes (.pxpDiagProbeNow t h k) s (complete h 0x400 rcWrongMode 0 [] d)) ∧
        (d.sys.mode = .active → mapAt d k = none → Completes (.pxpDiagProbeNow t h k) s (complete h 0x400 rcOutOfRange 0 [] d)) ∧
        (∀ m, d.sys.mode = .active → mapAt d k = some m → ∃ e, Answers (.pxpDiagProbeNow t h k) s h 0x400 0 [] e ∧ e.regs = d.regs ∧
          mapAt e k = some { m with probeDue := some 0 })))

/-- R258, R259, R271, R276, R279: REF_LOST sets and SREF0's return clears TIM.STATUS.SREF_LOST; TIM.LATCH copies raw and both domains at one instant; with no qualified master
a domain enters HOLDOVER; a reference edge moves the lock by its error; without edges for 4 periods or 100 ms the lock is lost and the phase held; PPS_OUT rises for 100 ms. -/
def Obligations.TimeFollowsItsReferences : Prop :=
  ∀ (t : Time) (s : State) (d : Dev), AtTime t s d →
    (awake d = true → bitOf d F.TIM_STATUS_SREF_LOST = false →
      ∃ e, Completes (.refLost t) s e ∧ bitOf e F.TIM_STATUS_SREF_LOST = true ∧ bitOf e F.TIM_STATUS_SREF_EVENT = true ∧ e.tim = d.tim ∧
        ∀ o, o ∉ postCounters → o ≠ R.TIM_STATUS → rg e o = rg d o) ∧
    ((awake d = false ∨ bitOf d F.TIM_STATUS_SREF_LOST = true) → Completes (.refLost t) s d) ∧
    (awake d = true → ∃ e, Completes (.sref0Return t) s e ∧ bitOf e F.TIM_STATUS_SREF_LOST = false ∧ bitOf e F.TIM_STATUS_SREF_EVENT = bitOf d F.TIM_STATUS_SREF_EVENT ∧
      e.beside = d.beside ∧ ∀ o, o ≠ R.TIM_STATUS → rg e o = rg d o) ∧
    (awake d = false → Completes (.sref0Return t) s d) ∧
    (∀ v : Word, (pcieUp d = true → bar0Writable d R.TIM_LATCH = true → v.getLsbD 0 = true →
        ∃ e, Completes (.timLatch t v) s e ∧ rg e R.TIM_RAW0 = BitVec.ofNat 32 d.raw ∧ rg e R.TIM_RAW1 = BitVec.ofNat 32 (d.raw / 2 ^ 32) ∧
          rg e R.TIM_RAW2 = BitVec.ofNat 32 (d.raw / 2 ^ 64) ∧ e.beside = d.beside ∧
          ∀ k, k < 2 → rg e (R.TIM_DOM_S_LO k) = BitVec.ofNat 32 (unsgn 64 (secsOf (domTime d k)) % 2 ^ 32) ∧
            rg e (R.TIM_DOM_S_HI k) = BitVec.ofNat 32 (unsgn 64 (secsOf (domTime d k)) / 2 ^ 32) ∧
            rg e (R.TIM_DOM_NS k) = BitVec.ofNat 32 (nanosOf (domTime d k)) ∧ rg e (R.TIM_DOM_FRAC k) = BitVec.ofNat 32 (unsgn 16 (domTime d k))) ∧
      ((pcieUp d = false ∨ bar0Writable d R.TIM_LATCH = false ∨ v.getLsbD 0 = false) → Completes (.timLatch t v) s d)) ∧
    (∀ k, k < 2 → (domAt d k).rec_.source = 1 → ((domAt d k).servo = 1 ∨ (domAt d k).servo = 2) → bestMaster (domAt d k) d.raw = none →
      ∃ e, Completes (.holdoverEnter t k) s e ∧ (domAt e k).servo = 3 ∧ (domAt e k).holdFrom = some d.raw ∧
        (rg e (R.TIM_DOM_HOLDOVERS k)).toNat = min ((rg d (R.TIM_DOM_HOLDOVERS k)).toNat + 1) 0xFFFFFFFF) ∧
    (∀ k, (2 ≤ k ∨ (domAt d k).rec_.source ≠ 1 ∨ (domAt d k).servo = 0 ∨ (domAt d k).servo = 3 ∨ (bestMaster (domAt d k) d.raw).isSome = true) →
      Completes (.holdoverEnter t k) s d) ∧
    (∀ k, (2 ≤ k ∨ (domAt d k).rec_.tickRef = 0) → Completes (.tickRefEdge t k) s d) ∧
    (∀ k, k < 2 → (domAt d k).rec_.tickRef ≠ 0 →
      let x := domAt d k
      let phi := x.phiNow (domTime d k)
      let err := (domTime d k - (x.rec_.cableNs : Int) * 65536 - phi + pRef x.rec_ / 2) % pRef x.rec_ - pRef x.rec_ / 2
      (x.tick = 2 → ∃ e, Completes (.tickRefEdge t k) s e ∧ (domAt e k).phi = phi ∧ (domAt e k).phiGoal = phi + err ∧
        (domAt e k).tick = (if 50 * 65536000 < err.natAbs ∧ 15 ≤ x.far then 3 else 2)) ∧
      (x.tick = 3 → 1 ≤ x.rec_.lockEdges → ∃ e, Completes (.tickRefEdge t k) s e ∧ (domAt e k).phiGoal = phi + err ∧
        (domAt e k).tick = (if err.natAbs ≤ 65536000 ∧ x.rec_.lockEdges ≤ x.near + 1 then 2 else 3)) ∧
      (∀ run, x.tick = 1 → run = (err :: x.eps).take x.rec_.lockEdges → agree run = true → run.length = x.rec_.lockEdges →
        ∃ e, Completes (.tickRefEdge t k) s e ∧ (domAt e k).tick = 2 ∧ (domAt e k).phiGoal = phi + run.sum / (run.length : Int) ∧
          (domAt e k).phi = (if domBusy d k then phi else phi + run.sum / (run.length : Int)))) ∧
    (∀ k v, k < 2 → 1 < (domAt d k).tick → (domAt d k).lastEdge = some v →
      (v + max (ms 100) (4 * pRef (domAt d k).rec_).toNat ≤ d.raw → ∃ e, Completes (.tickLost t k) s e ∧ (domAt e k).tick = 1 ∧
        (domAt e k).phi = (domAt d k).phiNow (domTime d k) ∧ (domAt e k).phiGoal = (domAt d k).phiNow (domTime d k)) ∧
      (d.raw < v + max (ms 100) (4 * pRef (domAt d k).rec_).toNat → Completes (.tickLost t k) s d)) ∧
    (∀ k, (2 ≤ k ∨ (domAt d k).tick ≤ 1) → Completes (.tickLost t k) s d) ∧
    (timeRuns d = true → ∃ e, Completes (.ppsOutPulse t) s e ∧ e.out = .pin 4 true :: d.out ∧ e.tim = { d.tim with pps := some (d.raw + ms 100) } ∧ e.regs = d.regs) ∧
    (timeRuns d = false → Completes (.ppsOutPulse t) s d)

/-- R268, R269, R270, R271: a domain takes the messages of its own number on its ports. A Delay_Req at a master is answered; a Sync from the selected master steps a domain in
FREERUN, locks one in ACQUIRING and unlocks one in LOCKED by its offset; a Delay_Resp gives the mean path; an Announce is kept. Sync, Announce and Delay_Req leave at their
intervals on ports in their states. -/
def Obligations.PtpRunsOnItsPorts : Prop :=
  ∀ (t : Time) (s : State) (d : Dev), AtTime t s d →
    (∀ m : PtpMsg, (timeRuns d = false ∨ (portAt d m.port).link ≠ 2) → Completes (.ptpMessageRx t m) s d) ∧
    (∀ m : PtpMsg, timeRuns d = true → (portAt d m.port).link = 2 →
      ((∀ k, k < 2 → tget (domAt d k).ports m.port = none ∨ m.domain ≠ (domAt d k).rec_.ptpDomain ∨ (domAt d k).rec_.source = 0) → Completes (.ptpMessageRx t m) s d) ∧
      (∀ k q, k < 2 → tget (domAt d k).ports m.port = some q → (domAt d k).rec_.source = 1 → m.domain = (domAt d k).rec_.ptpDomain →
        tget (domAt d (1 - k)).ports m.port = none →
        let x := domAt d k
        let t2 := ingress d m.port k m.ingress
        (m.msgType = 1 → q.state = 1 → m.port < 16 → ∃ e f, Completes (.ptpMessageRx t m) s e ∧ f.tag = .control ∧
          (portAt e m.port).queue = (portAt d m.port).queue ++ [f] ∧ e.tim = d.tim ∧ e.regs = d.regs) ∧
        (m.msgType = 1 → q.state ≠ 1 → Completes (.ptpMessageRx t m) s d) ∧
        (m.msgType ≠ 0xB → m.msgType ≠ 1 → q.state ≠ 3 → Completes (.ptpMessageRx t m) s d) ∧
        (m.msgType = 0 → q.state = 3 → fromMaster d x q m = true →
          (m.twoStep = true → ∃ e, Completes (.ptpMessageRx t m) s e ∧ tget (domAt e k).ports m.port = some { q with sync := some (m.seq, t2, m.correction) } ∧
            e.regs = d.regs) ∧
          (m.twoStep = false → x.servo = 0 → ∃ e, Completes (.ptpMessageRx t m) s e ∧ (domAt e k).servo = 1 ∧
            (domAt e k).off = x.off - (t2 - (m.timestamp : Int) * 65536 - m.correction)) ∧
          (∀ off, m.twoStep = false → off = t2 - (m.timestamp : Int) * 65536 - m.correction - (x.meanPath + asymOf d m.port) → off.natAbs ≤ us x.rec_.stepUs →
            (x.servo = 1 → x.good = 15 → off.natAbs ≤ ns 100 → ∃ e, Completes (.ptpMessageRx t m) s e ∧ (domAt e k).servo = 2) ∧
            (x.servo = 2 → x.bad = 3 → us 1 < off.natAbs → ∃ e, Completes (.ptpMessageRx t m) s e ∧ (domAt e k).servo = 1 ∧
              (rg e (R.TIM_DOM_LOCK_LOSSES k)).toNat = min ((rg d (R.TIM_DOM_LOCK_LOSSES k)).toNat + 1) 0xFFFFFFFF))) ∧
        (∀ t3, m.msgType = 9 → q.state = 3 → q.req = some (m.seq, t3) → m.reqClock = ownUid d → m.reqPort = m.port + 1 → q.have12 = true →
          ∃ e, Completes (.ptpMessageRx t m) s e ∧ (domAt e k).meanPath = ((q.t2 - q.t1) + ((m.timestamp : Int) * 65536 - t3) - q.cs - m.correction) / 2 ∧
            tget (domAt e k).ports m.port = some { q with req := none } ∧ e.regs = d.regs) ∧
        (m.msgType = 0xB → x.rec_.masterOnly = true → Completes (.ptpMessageRx t m) s d) ∧
        (m.msgType = 0xB → x.rec_.masterOnly = false → ∃ e y, Completes (.ptpMessageRx t m) s e ∧ tget (domAt e k).ports m.port = some y ∧
          ∃ a n, y.foreign.head? = some (a, d.raw, n) ∧ a.gmId = m.gmId ∧ a.priority1 = m.priority1 ∧ a.srcClock = m.srcClock))) ∧
    (∀ p k q, p < 16 → k < 2 → timeRuns d = true → (portAt d p).link = 2 → tget (domAt d k).ports p = some q →
      (q.state = 1 →
        (elapsed d q.syncAt (logTime (domAt d k).rec_.logSync) = true → ∃ e f, Completes (.ptpSyncSend t p k) s e ∧ f.tag = .event k 0 ((q.syncSeq + 1) % 65536) ∧
          (portAt e p).express = (portAt d p).express ++ [f] ∧ tget (domAt e k).ports p = some { q with syncSeq := (q.syncSeq + 1) % 65536, syncAt := some d.raw }) ∧
        (elapsed d q.syncAt (logTime (domAt d k).rec_.logSync) = false → Completes (.ptpSyncSend t p k) s d) ∧
        (elapsed d q.annAt (logTime (domAt d k).rec_.logAnnounce) = true → ∃ e f, Completes (.ptpAnnounceSend t p k) s e ∧ f.tag = .control ∧
          (portAt e p).queue = (portAt d p).queue ++ [f] ∧ tget (domAt e k).ports p = some { q with annSeq := (q.annSeq + 1) % 65536, annAt := some d.raw }) ∧
        (elapsed d q.annAt (logTime (domAt d k).rec_.logAnnounce) = false → Completes (.ptpAnnounceSend t p k) s d) ∧
        Completes (.ptpDelayReqSend t p k) s d) ∧
      (q.state = 3 →
        (elapsed d q.reqAt (logTime (domAt d k).rec_.logDelay) = true → ∃ e f, Completes (.ptpDelayReqSend t p k) s e ∧ f.tag = .event k 1 ((q.reqSeq + 1) % 65536) ∧
          (portAt e p).express = (portAt d p).express ++ [f] ∧ tget (domAt e k).ports p = some { q with reqSeq := (q.reqSeq + 1) % 65536, reqAt := some d.raw }) ∧
        (elapsed d q.reqAt (logTime (domAt d k).rec_.logDelay) = false → Completes (.ptpDelayReqSend t p k) s d) ∧
        Completes (.ptpSyncSend t p k) s d ∧ Completes (.ptpAnnounceSend t p k) s d)) ∧
    (∀ p k, (timeRuns d = false ∨ 2 ≤ k ∨ (portAt d p).link ≠ 2 ∨ tget (domAt d k).ports p = none) →
      Completes (.ptpSyncSend t p k) s d ∧ Completes (.ptpAnnounceSend t p k) s d ∧ Completes (.ptpDelayReqSend t p k) s d)

/-- R263, R281, R283, R284, R285, R287, R289: LTC frames lock a decoder and 100 ms without one unlock it; an action fires at its instant (pin, ADC or item) and a pulse ends at its width; an edge
enters its capture FIFO, from which a read of CAPi_NS takes the oldest entry; a conversion sequence ends with its results. ACTION_ARM installs a schedule, ACTION_CANCEL removes
it, DOMAIN_SWITCH stages a canvas's switch. -/
def Obligations.TriggersAndActions : Prop :=
  ∀ (t : Time) (s : State) (d : Dev), AtTime t s d →
    let plus (e : Dev) (o : Nat) : Prop := (rg e o).toNat = min ((rg d o).toNat + 1) 0xFFFFFFFF
    (∀ j f, (ltcOn d j = false → Completes (.ltcFrame t j f) s d ∧ Completes (.ltcLost t j) s d) ∧
      (ltcOn d j = true →
        ((f = none ∨ ∃ v, f = some v ∧ v / 2 ^ 64 % 2 ^ 16 ≠ 0xBFFC) → ∃ e, Completes (.ltcFrame t j f) s e ∧ plus e (R.EVT_LTC_ERRORS j) ∧
          (if j = 0 then e.tim.ltc0 else e.tim.ltc1).run = 0) ∧
        (∀ v, f = some v → v / 2 ^ 64 % 2 ^ 16 = 0xBFFC → ∃ e, Completes (.ltcFrame t j f) s e ∧ rg e (R.EVT_LTC_TC j) = BitVec.ofNat 32 (ltcAddress v) ∧
          rg e (R.EVT_LTC_USER j) = BitVec.ofNat 32 (ltcUser v) ∧
          bitOf e (F.EVT_LTC_STATUS_LOCKED j) = (bitOf d (F.EVT_LTC_STATUS_LOCKED j) || decide (1 ≤ (if j = 0 then d.tim.ltc0 else d.tim.ltc1).run))) ∧
        (bitOf d (F.EVT_LTC_STATUS_LOCKED j) = true → (if j = 0 then d.tim.ltc0 else d.tim.ltc1).last + ms 100 ≤ d.raw →
          ∃ e, Completes (.ltcLost t j) s e ∧ bitOf e (F.EVT_LTC_STATUS_LOCKED j) = false) ∧
        ((bitOf d (F.EVT_LTC_STATUS_LOCKED j) = false ∨ d.raw < (if j = 0 then d.tim.ltc0 else d.tim.ltc1).last + ms 100) → Completes (.ltcLost t j) s d))) ∧
    (∀ i, tget d.tim.actions i = none → Completes (.actionFired t i) s d) ∧
    (∀ i a, tget d.tim.actions i = some a →
      ((a.sched = none ∨ a.device.isSome = true ∨ actionsRun d = false ∨ ∃ x, a.sched = some x ∧ clockNow d a + 5 * 65536 < x.next) → Completes (.actionFired t i) s d) ∧
      (∀ x b, a.sched = some x → a.device = none → actionsRun d = true → x.next ≤ clockNow d a + 5 * 65536 → b = { a with fires := sat (a.fires + 1), sched := x.advance d a } →
        (a.target = 0 → ∃ e, Completes (.actionFired t i) s e ∧ tget e.tim.actions i = some { b with pulse := some (d.raw + ns a.width) } ∧
          e.out = (if pinsLive d then [.pin a.pin (!a.invert)] else []) ++ d.out ∧ e.regs = d.regs) ∧
        (a.target = 1 → ∃ e, Completes (.actionFired t i) s e ∧ tget e.tim.actions i = some b ∧
          (d.tim.adc = none → e.tim.adc = some (i, b.fires, x.next, a.seq)) ∧ (∀ y, d.tim.adc = some y → e.tim.adc = some y ∧ plus e R.EVT_ADC_OVERRUN)) ∧
        (a.target = 2 → ∃ e, Completes (.actionFired t i) s e ∧ tget e.tim.actions i = some b ∧ ∀ o, o ∉ postCounters → rg e o = rg d o)) ∧
      (∀ v, a.pulse = some v → (d.raw < v → Completes (.pulseEnd t i) s d) ∧
        (v ≤ d.raw → ∃ e, Completes (.pulseEnd t i) s e ∧ tget e.tim.actions i = some { a with pulse := none } ∧ e.out = .pin a.pin a.invert :: d.out ∧ e.regs = d.regs)) ∧
      (a.pulse = none → d.tim.orphans = [] → Completes (.pulseEnd t i) s d)) ∧
    (∀ i fall,
      let g := fld d (F.EVT_CAP_CFG_EDGE i)
      let on : Bool := timeRuns d && bitOf d (F.EVT_CAP_CFG_EN i) && (g == 3 || (g == 1 && !fall) || (g == 2 && fall)) && !(i == 3 && d.tim.ltcOnCap3)
      ((8 ≤ i ∨ on = false) → Completes (.capture t i fall) s d) ∧
      (i < 8 → on = true → (capsOf d i).length < 16 → ∃ e, Completes (.capture t i fall) s e ∧
        capsOf e i = capsOf d i ++ [⟨unsgn 32 (secsOf (domTime d (fld d (F.EVT_CAP_CFG_DOMAIN i)))), nanosOf (domTime d (fld d (F.EVT_CAP_CFG_DOMAIN i))), fall⟩]) ∧
      (i < 8 → on = true → 16 ≤ (capsOf d i).length → ∃ e, Completes (.capture t i fall) s e ∧ capsOf e i = capsOf d i ∧ plus e (R.EVT_CAP_OVF i))) ∧
    (∀ i, ((pcieUp d = false ∨ 8 ≤ i) → Completes (.capNsRead t i) s d) ∧
      (pcieUp d = true → i < 8 → bar0Up d (R.EVT_CAP_NS i) = true → ∃ e, Completes (.capNsRead t i) s e ∧ capsOf e i = (capsOf d i).tail ∧ e.regs = d.regs ∧
        e.out = .readData (leBytes 4 (match capsOf d i with
          | [] => 0
          | c :: _ => (BitVec.ofNat 32 (c.ns_ % 2 ^ 30 + (if c.falling then 2 ^ 30 else 0) + 2 ^ 31)).toNat)) :: d.out)) ∧
    (∀ l, (d.tim.adc = none → Completes (.adcResult t l) s d) ∧
      (∀ i n x m, d.tim.adc = some (i, n, x, m) → ∃ e, Completes (.adcResult t l) s e ∧ e.tim = { d.tim with adc := none } ∧ plus e R.EVT_ADC_SEQS ∧
        rg e R.EVT_ADC_RESULT01 = BitVec.ofNat 32 ((if bit m 0 then min (l.getD 0 0) 4095 else 0) + 65536 * (if bit m 1 then min (l.getD 1 0) 4095 else 0)) ∧
        rg e R.EVT_ADC_RESULT23 = BitVec.ofNat 32 ((if bit m 2 then min (l.getD 2 0) 4095 else 0) + 65536 * (if bit m 3 then min (l.getD 3 0) 4095 else 0)))) ∧
    (∀ h handle b, Served d h 0x200 handle →
      ((hKind handle ≠ 0xB ∨ objOf d handle = none) → Completes (.actionArm t h handle b) s (complete h 0x200 rcBadHandle handle [] d)) ∧
      (∀ a, hKind handle = 0xB → (objOf d handle).isSome = true → tget d.tim.actions (hIndex handle) = some a →
        (∀ r, armSched d a b = .error r → Completes (.actionArm t h handle b) s (complete h 0x200 r.code handle r.data d)) ∧
        (∀ x, armSched d a b = .ok x →
          (clockNow d a ≤ x.next → ∃ e, Answers (.actionArm t h handle b) s h 0x200 handle (timeBytes x.next ++ leBytes 4 0) e ∧
            tget e.tim.actions (hIndex handle) = some { a with sched := some x } ∧ e.regs = d.regs) ∧
          (x.next < clockNow d a → a.policy = 0 → x.mode = 0 → ∃ e late y, Answers (.actionArm t h handle b) s h 0x200 handle (timeBytes x.next ++ leBytes 4 late) e ∧
            tget e.tim.actions (hIndex handle) = some y ∧ y.fires = sat (a.fires + 1) ∧ y.lateFires = sat (a.lateFires + 1))))) ∧
    (∀ h handle, Served d h 0x201 handle →
      ((hKind handle ≠ 0xB ∨ objOf d handle = none) → Completes (.actionCancel t h handle) s (complete h 0x201 rcBadHandle handle [] d)) ∧
      (∀ a, hKind handle = 0xB → (objOf d handle).isSome = true → tget d.tim.actions (hIndex handle) = some a →
        ∃ e, Answers (.actionCancel t h handle) s h 0x201 handle (leBytes 4 a.fires) e ∧ tget e.tim.actions (hIndex handle) = some { a with sched := none } ∧ e.regs = d.regs)) ∧
    (∀ h handle b, Served d h 0x202 handle →
      (handle ≠ 0 → (hKind handle ≠ 5 ∨ objOf d handle = none) → Completes (.domainSwitch t h handle b) s (complete h 0x202 rcBadHandle handle [] d)) ∧
      ((handle = 0 ∨ (hKind handle = 5 ∧ (objOf d handle).isSome = true)) →
        ((1 < at_ b 0 1 ∨ 1 < at_ b 1 1 ∨ 10 < at_ b 2 1 ∨ at_ b 3 5 ≠ 0) → Completes (.domainSwitch t h handle b) s (complete h 0x202 rcOutOfRange handle [] d)) ∧
        (∀ c, handle ≠ 0 → canvasAt d (hIndex handle) = some c → at_ b 0 1 ≤ 1 → at_ b 1 1 ≤ 1 → at_ b 2 1 ≤ 10 → at_ b 3 5 = 0 →
          (c.domain = at_ b 0 1 → at_ b 1 1 = 0 → ∃ data, Answers (.domainSwitch t h handle b) s h 0x202 handle data d) ∧
          (c.domain ≠ at_ b 0 1 →
            (switchAgrees d (at_ b 0 1) [hIndex handle] && commensurate (domAt d (at_ b 0 1)).rec_ c.timing.rateNum c.timing.rateDen) = false →
            Completes (.domainSwitch t h handle b) s (complete h 0x202 rcConflict handle [] d)) ∧
          (c.domain ≠ at_ b 0 1 →
            (switchAgrees d (at_ b 0 1) [hIndex handle] && commensurate (domAt d (at_ b 0 1)).rec_ c.timing.rateNum c.timing.rateDen) = true →
            let n := switchTick d c (timeOf (at_ b 8 8) (at_ b 16 4))
            ∃ e, Answers (.domainSwitch t h handle b) s h 0x202 handle (timeBytes (tickAt d c n) ++ leBytes 4 (nsSat (canvasTime d c - domTime d (at_ b 0 1)))) e ∧ e.regs = d.regs ∧
              canvasAt e (hIndex handle) = some { c with switch := some { dest := at_ b 0 1, step := at_ b 1 1 == 1, ppm := if at_ b 2 1 = 0 then 10 else at_ b 2 1, tick := n } }))))

/-- R295, R296, R298, R299, R300, R306: a telemetry datagram at a named port is counted under the first row that applies; a report that is taken enters its zone's inbox. A CYCLE
or EXPIRY posts its flag to the zone's task and an end of CYCLE takes a held zone's kept level away (its first start, R79); a fade down ends in VACANT, and a stay of H in VACANT resets h. The table of R299 is
what a trigger and EXPIRY do to a zone. In HOLD and STANDBY nothing of it runs (R305). -/
def Obligations.ZonesFollowTheirSensors : Prop :=
  ∀ (t : Time) (s : State) (d : Dev), AtTime t s d →
    let plus (e : Dev) (o : Nat) : Prop := (rg e o).toNat = min ((rg d o).toNat + 1) 0xFFFFFFFF
    let rest (e : Dev) (o : Nat) : Prop := e.site = d.site ∧ e.sch = d.sch ∧ e.out = d.out ∧ ∀ q, q ≠ o → rg e q = rg d q
    (∀ port ip b,
      let heard := port < 16 ∧ bit (fld d F.SITE_TEL_PORTS_PORTS) port = true ∧ ip = (portAt d port).rec_.ipv4
      let again : Prop := ∃ last, tget d.site.seqs (at_ b 4 8) = some last ∧ -32 ≤ sgn 16 (at_ b 2 2 + 65536 - last) ∧ sgn 16 (at_ b 2 2 + 65536 - last) ≤ 0
      (¬ heard → Completes (.telemetryDatagramRx t port ip b) s d) ∧
      (heard → d.sys.mode = .hold → ∃ e, Completes (.telemetryDatagramRx t port ip b) s e ∧ plus e R.SYS_HOLD_DROPS ∧ rest e R.SYS_HOLD_DROPS) ∧
      (heard → d.sys.mode ≠ .hold → siteRuns d = false → Completes (.telemetryDatagramRx t port ip b) s d) ∧
      (heard → siteRuns d = true →
        ((b.length ≠ 12 + 8 * at_ b 1 1 ∨ at_ b 1 1 = 0) → ∃ e, Completes (.telemetryDatagramRx t port ip b) s e ∧ plus e R.SITE_TEL_LEN_DROPS ∧ rest e R.SITE_TEL_LEN_DROPS) ∧
        (b.length = 12 + 8 * at_ b 1 1 → at_ b 1 1 ≠ 0 →
          (at_ b 0 1 ≠ 1 → ∃ e, Completes (.telemetryDatagramRx t port ip b) s e ∧ plus e R.SITE_TEL_BAD ∧ rest e R.SITE_TEL_BAD) ∧
          (at_ b 0 1 = 1 → again → ∃ e, Completes (.telemetryDatagramRx t port ip b) s e ∧ plus e R.SITE_TEL_SEQ_DROPS ∧ rest e R.SITE_TEL_SEQ_DROPS) ∧
          (at_ b 0 1 = 1 → ¬ again →
            (∃ e, Completes (.telemetryDatagramRx t port ip b) s e ∧ tget e.site.seqs (at_ b 4 8) = some (at_ b 2 2)) ∧
            (at_ b 1 1 = 1 →
              let found := d.site.sensors.find? fun x => !x.2.rdm && x.2.ident == at_ b 4 8 && x.2.channel == at_ b 13 1 && isLive d (okey 9 x.1) && isLive d (okey 8 x.2.zone)
              (found = none → ∃ e, Completes (.telemetryDatagramRx t port ip b) s e ∧ plus e R.SITE_TEL_UNMATCHED ∧ e.site.sensors = d.site.sensors ∧ e.sch = d.sch) ∧
              (∀ i x, found = some (i, x) →
                (at_ b 12 1 ≠ (if x.daylight then 2 else 1) → ∃ e, Completes (.telemetryDatagramRx t port ip b) s e ∧ plus e R.SITE_TEL_UNMATCHED ∧ e.site.sensors = d.site.sensors ∧ e.sch = d.sch) ∧
                (at_ b 12 1 = (if x.daylight then 2 else 1) → x.tokens d.raw < sec 1 →
                  ∃ e, Completes (.telemetryDatagramRx t port ip b) s e ∧ plus e R.SITE_TEL_RATE_DROPS ∧ e.site.sensors = d.site.sensors ∧ e.sch = d.sch) ∧
                (at_ b 12 1 = (if x.daylight then 2 else 1) → sec 1 ≤ x.tokens d.raw →
                  ∃ e y, Completes (.telemetryDatagramRx t port ip b) s e ∧ plus e R.SITE_TEL_REPORTS ∧ tget e.site.sensors i = some y ∧ y.value = at_ b 16 4 % 2 ^ 32 ∧ y.heard = some d.raw ∧
                    y.credit = x.tokens d.raw - sec 1 ∧ e.site.zones = d.site.zones ∧
                    ∀ k, tget d.sch.tasks (36864 + x.zone) = some k → (pushRoom d k && waitsAt d (36864 + x.zone) == []) = true → ∃ k', tget e.sch.tasks (36864 + x.zone) = some k' ∧
                      k'.flags % 2 = 1 ∧ k'.inbox = k.inbox ++ [(i * 2 ^ 32 + at_ b 16 4 % 2 ^ 32) % 2 ^ 48 + (if k.grouped then (groupAt d k.group).issue else 0) * 2 ^ 48]))))))) ∧
    (∀ z, (zoneAt d z = none ∨ siteRuns d = false) →
      Completes (.zoneCycle t z) s d ∧ Completes (.holdExpiry t z) s d ∧ Completes (.zoneVacant t z) s d ∧ Completes (.zoneHoldReset t z) s d) ∧
    (∀ z x, zoneAt d z = some x → siteRuns d = true →
      (∀ o, objAt d (okey 8 z) = some o →
        let at' := x.nextCycle * (ms x.cycleMs : Nat)
        (domTime d 0 < at' → ∃ e, Completes (.zoneCycle t z) s e ∧ zoneAt e z = some { x with nextCycle := min x.nextCycle (cycleAfter d x.cycleMs) } ∧ e.regs = d.regs ∧ e.sch = d.sch) ∧
        (at' ≤ domTime d 0 → (o.state ≠ 2 ∨ at' < (o.startAt : Int)) →
          ∃ e, Completes (.zoneCycle t z) s e ∧ zoneAt e z = some { x with nextCycle := cycleAfter d x.cycleMs } ∧ e.regs = d.regs ∧ e.sch = d.sch) ∧
        (at' ≤ domTime d 0 → o.state = 2 → (o.startAt : Int) ≤ at' → ∃ e y, Completes (.zoneCycle t z) s e ∧ zoneAt e z = some y ∧ y.nextCycle = cycleAfter d x.cycleMs ∧ y.keep = none ∧
          ∀ k, tget d.sch.tasks (36864 + z) = some k → ∃ k', tget e.sch.tasks (36864 + z) = some k' ∧ k'.mask = 7 ∧ k'.flags = k.flags ||| 2)) ∧
      (let ended : Prop := x.st = 1 ∧ ∃ v, x.holdEnd = some v ∧ v ≤ d.raw
       (¬ ended → Completes (.holdExpiry t z) s d) ∧
       (ended → ∃ e, Completes (.holdExpiry t z) s e ∧ e.site = d.site ∧
         ∀ k, tget d.sch.tasks (36864 + z) = some k → ∃ k', tget e.sch.tasks (36864 + z) = some k' ∧ k'.mask = k.mask ∧ k'.flags = k.flags ||| 4)) ∧
      (¬ (x.st = 2 ∧ x.p.at_ + x.p.dur ≤ d.raw) → Completes (.zoneVacant t z) s d) ∧
      (x.st = 2 → x.p.at_ + x.p.dur ≤ d.raw → ∃ e, Completes (.zoneVacant t z) s e ∧ zoneAt e z = some { x with st := 0, vacantFrom := some (x.p.at_ + x.p.dur) } ∧
        ∀ q, q ∉ postCounters → rg e q = rg d q) ∧
      (let stayed : Prop := x.st = 0 ∧ ∃ v, x.vacantFrom = some v ∧ v + sec x.holdS ≤ d.raw
       (¬ stayed → Completes (.zoneHoldReset t z) s d) ∧
       (stayed → ∃ e, Completes (.zoneHoldReset t z) s e ∧ zoneAt e z = some { x with h := x.holdS * 1000, vacantFrom := none } ∧ e.regs = d.regs ∧ e.sch = d.sch))) ∧
    (∀ (f : Dev) z sensor x, zoneAt f z = some x →
      (x.st = 0 → ∃ y, zoneAt (zoneTrigger z sensor f) z = some y ∧ y.st = 1 ∧ y.h = x.h ∧ y.holdEnd = some (siteNow f + ms x.h) ∧ y.p.a = x.p.level (siteNow f) ∧ y.p.b = x.occ) ∧
      (x.st = 1 → zoneTrigger z sensor f = setZone z { x with holdEnd := some (siteNow f + ms x.h) } f) ∧
      (x.st = 2 → ∃ y, zoneAt (zoneTrigger z sensor f) z = some y ∧ y.st = 1 ∧ y.h = min (x.h * 3 / 2) (4 * (x.holdS * 1000)) ∧ y.holdEnd = some (siteNow f + ms y.h) ∧
        y.p.a = x.p.level (siteNow f) ∧ y.p.b = x.occ ∧ rg (zoneTrigger z sensor f) R.SITE_HOLD_EXTENSIONS = BitVec.ofNat 32 (min ((rg f R.SITE_HOLD_EXTENSIONS).toNat + 1) 0xFFFFFFFF)) ∧
      (∀ v, x.st = 1 → x.holdEnd = some v → v ≤ siteNow f → ∃ y, zoneAt (zoneExpiry z f) z = some y ∧ y.st = 2 ∧ y.p.a = x.p.level (siteNow f) ∧ y.p.b = x.vac) ∧
      ((x.st ≠ 1 ∨ ∀ v, x.holdEnd = some v → siteNow f < v) → zoneExpiry z f = f))

/-- R309, R310, R313, R317, R319, R329: a valley link moves through the states of R310 by signal, locks, HELLO and failure, and sends link control each 10 µs; a member that is unheard
for 300 ms or that no pass reaches leaves, a member tells its neighbours of itself each 100 ms, and a reroute installs the pass table that the members' updates give as one step. Links
and members that an event does not name stay as they are. -/
def Obligations.ValleyLinksAndMembers : Prop :=
  ∀ (t : Time) (s : State) (d : Dev), AtTime t s d →
    (∀ l, let x := linkAt d l
      (¬ (d.sys.mode ≠ .reset ∧ linkOn d l = true ∧ x.state = 1) → Completes (.valleySignalDetect t l) s d) ∧
      (d.sys.mode ≠ .reset → linkOn d l = true → x.state = 1 → ∃ e, Completes (.valleySignalDetect t l) s e ∧ linkAt e l = { state := 2, since := d.raw } ∧
        e.regs = d.regs ∧ e.out = d.out ∧ ∀ k, k ≠ l → linkAt e k = linkAt d k) ∧
      (¬ (linkOn d l = true ∧ x.state = 2 ∧ x.since + ms 1 ≤ d.raw) → Completes (.valleyLinkLock t l) s d) ∧
      (linkOn d l = true → x.state = 2 → x.since + ms 1 ≤ d.raw → ∃ e, Completes (.valleyLinkLock t l) s e ∧ linkAt e l = { x with state := 3 } ∧
        e.regs = d.regs ∧ e.out = .hello l :: d.out ∧ ∀ k, k ≠ l → linkAt e k = linkAt d k) ∧
      (∀ h : HelloMsg,
        let next := if loadingSelf d = true ∨ h.mode ≤ 2 then 6 else if d.val.recorded = false then 3
          else if h.major ≠ fld d F.CTL_FW_PROTO_VP_MAJOR ∨ h.valleyId ≠ d.val.valleyId then 5 else 4
        ((linkOn d l = false ∨ x.state ≤ 2 ∨ 7 ≤ x.state ∨ ((x.state = 5 ∨ x.state = 6) ∧ x.hello = some h)) → Completes (.valleyHelloRx t l h) s d) ∧
        (linkOn d l = true → x.state = 4 → ∃ e, Completes (.valleyHelloRx t l h) s e ∧ linkAt e l = { x with hello := some h } ∧ e.regs = d.regs ∧ e.out = d.out) ∧
        (linkOn d l = true → (x.state = 3 ∨ ((x.state = 5 ∨ x.state = 6) ∧ x.hello ≠ some h)) → ∃ e, Completes (.valleyHelloRx t l h) s e ∧
          linkAt e l = { x with hello := some h, state := next } ∧
          (∀ k, k ≠ l → linkAt e k = linkAt d k) ∧ e.val.members = d.val.members)) ∧
      (((x.state ≠ 3 ∧ x.state ≠ 4) ∨ elapsed d x.sentAt (us 10) = false) → Completes (.linkControlSend t l) s d) ∧
      ((x.state = 3 ∨ x.state = 4) → elapsed d x.sentAt (us 10) = true → ∃ e, Completes (.linkControlSend t l) s e ∧ linkAt e l = { x with sentAt := some d.raw } ∧
        e.regs = d.regs ∧ e.out = .linkControl l :: d.out ∧ ∀ k, k ≠ l → linkAt e k = linkAt d k) ∧
      (x.state < 3 → Completes (.valleyLinkDown t l) s d) ∧
      (3 ≤ x.state → ∃ e, Completes (.valleyLinkDown t l) s e ∧ linkAt e l = { state := 1, failed := x.failed } ∧ (∀ k, k ≠ l → linkAt e k = linkAt d k) ∧ e.val.members = d.val.members)) ∧
    ((d.raw < d.val.updated + ms 100 ∨ isMember d = false) → Completes (.membershipUpdateSend t) s d) ∧
    (d.val.updated + ms 100 ≤ d.raw → isMember d = true → ∃ e, Completes (.membershipUpdateSend t) s e ∧ e.val = { d.val with updated := d.raw } ∧ e.regs = d.regs ∧
      ∀ l, (linkAt d l).state = 4 → ∃ p, .valley l p ∈ e.out ∧ p.body = .member (ownInfo d) ∧ at_ p.header 2 1 = 255) ∧
    (∀ uid, (tget d.val.members uid = none → Completes (.memberLeave t uid) s d) ∧
      (∀ m, tget d.val.members uid = some m → memberGone d m = false → Completes (.memberLeave t uid) s d) ∧
      (∀ m, tget d.val.members uid = some m → memberGone d m = true → ∃ e, Completes (.memberLeave t uid) s e ∧ e.val.members = tdel d.val.members uid ∧ e.val.links = d.val.links)) ∧
    (passesNow d = d.val.passes → Completes (.reroute t) s d) ∧
    (passesNow d ≠ d.val.passes → ∃ e, Completes (.reroute t) s e ∧ e.val.passes = passesNow d ∧ e.val.links = d.val.links ∧ e.val.members = d.val.members ∧
      (rg e R.VAL_REROUTES).toNat = min ((rg d R.VAL_REROUTES).toNat + 1) 0xFFFFFFFF ∧ ∀ o, o ≠ R.VAL_REROUTES → o ≠ R.VAL_STATUS → o ∉ postCounters → rg e o = rg d o)

/-- R311, R313, R316, R318, R320, R322, R324, R325: a valley packet is checked in the order tabled and forwarded with a hop less, and a membership update it brings is heard; an
admission without every answer for 10 ms is refused (with NO_CAPACITY: log 26); the reference of a domain sends its time, link delays are kept over 16 exchanges and an unreachable reference leads to HOLDOVER; a
relay asks each 100 ms and a stall of 1 s abandons it; MIGRATE switches a migration in PREPARED and aborts one that has not switched. -/
def Obligations.ValleyTrafficAndMigration : Prop :=
  ∀ (t : Time) (s : State) (d : Dev), AtTime t s d →
    let plus (e : Dev) (o : Nat) : Prop := (rg e o).toNat = min ((rg d o).toNat + 1) 0xFFFFFFFF
    (∀ l (p : VPkt), waiting d = 0 →
      let x := linkAt d l
      let taken := x.state = 4 ∨ (x.state = 6 ∧ at_ p.header 0 1 = 6 ∧ at_ p.header 2 1 = 0)
      let dst := at_ p.header 2 1
      let other := dst ≠ d.val.addr ∧ dst ≠ 0 ∧ dst ≠ 255
      let drop : Option Nat :=
        if crc32c (p.header.take 28) ≠ at_ p.header 28 4 then some R.VAL_HCRC_DROPS
        else if at_ p.header 6 2 ≠ p.len then some R.VAL_LEN_DROPS
        else if p.crcOk = false then some R.VAL_PCRC_DROPS
        else if at_ p.header 0 1 = 0 ∨ 8 < at_ p.header 0 1 ∨ 4 < at_ p.header 1 1 then some R.VAL_BAD_DROPS
        else if other ∧ at_ p.header 4 1 = 0 then some R.VAL_HOP_DROPS
        else if other ∧ passLink d dst false = none then some R.VAL_UNREACH_DROPS else none
      (¬ taken → Completes (.valleyPacketRx t l p) s d) ∧
      (∀ r, taken → drop = some r → ∃ e, Completes (.valleyPacketRx t l p) s e ∧ plus e r ∧ e.val = d.val ∧ e.out = d.out ∧ ∀ o, o ≠ r → rg e o = rg d o) ∧
      (∀ k, taken → drop = none → other → passLink d dst ((at_ p.header 0 1 == 1 || at_ p.header 0 1 == 2) && at_ p.header 8 4 % 2 == 1) = some k → (linkAt d k).state = 4 →
        ∃ e, Completes (.valleyPacketRx t l p) s e ∧ e.out = .valley k { p with header := vForward p.header } :: d.out ∧ e.regs = d.regs) ∧
      (∀ i m, taken → drop = none → dst = 255 ∨ dst = 0 ∨ dst = d.val.addr → p.body = .member i → i.uid ≠ uidNow d → i.uid ∉ d.val.barred → tget d.val.members i.uid = some m → m.info = i →
        ∃ e, Completes (.valleyPacketRx t l p) s e ∧ e.val.members = tput d.val.members i.uid { m with heard := d.raw } ∧ e.regs = d.regs)) ∧
    ((∀ a ∈ d.val.admissions, d.raw < a.2.began + ms 10) → (∀ m ∈ d.val.migs, m.2.state = 0 → d.raw < m.2.began + ms 10) → waiting d = 0 → Completes (.admitTimeout t) s d) ∧
    (∀ k a h idx x, (d.val.admissions.filter fun e => decide (e.2.began + ms 10 ≤ d.raw)) = [(k, a)] → d.val.migs = [] → a.purpose = .modify h idx x →
      ∃ f, Completes (.admitTimeout t) s (pump f) ∧ tget f.val.admissions k = none ∧ plus f R.HDL_ADMIT_REFUSED) ∧
    (∀ k, (¬ (k < 2 ∧ isMember d = true ∧ timeRef d k = some (uidNow d) ∧ elapsed d (tget d.val.timeAt k) (ms 1) = true) → Completes (.timePacketSend t k) s d) ∧
      (k < 2 → isMember d = true → timeRef d k = some (uidNow d) → elapsed d (tget d.val.timeAt k) (ms 1) = true → ∃ e, Completes (.timePacketSend t k) s e ∧
        e.val = { d.val with timeAt := tput d.val.timeAt k d.raw } ∧ e.regs = d.regs ∧
        ∀ l ∈ childLinks d (uidNow d), (linkAt d l).state = 4 → ∃ p, .valley l p ∈ e.out ∧ p.body = .time k (uidNow d) (domTime d k) 0)) ∧
    (∀ k, let due := k < 2 ∧ (domAt d k).rec_.source = 2 ∧ ((domAt d k).servo = 1 ∨ (domAt d k).servo = 2) ∧ (domAt d k).valleyHeard + ms 10 ≤ d.raw ∧ timeRuns d = true
      (¬ due → Completes (.valleyTimeHoldover t k) s d) ∧
      (due → ∃ e, Completes (.valleyTimeHoldover t k) s e ∧ (domAt e k).servo = 3 ∧ (domAt e k).holdFrom = some d.raw ∧ plus e (R.TIM_DOM_HOLDOVERS k))) ∧
    (∀ l t1 t2 t3 t4 : Nat, let x := linkAt d l
      ((x.state ≠ 4 ∨ elapsed d x.delayAt (ms 10) = false) → Completes (.linkDelayExchange t l t1 t2 t3 t4) s d) ∧
      (x.state = 4 → elapsed d x.delayAt (ms 10) = true → ∃ e, Completes (.linkDelayExchange t l t1 t2 t3 t4) s e ∧ e.regs = d.regs ∧
        linkAt e l = { x with delays := (((t2 : Int) - t1 + (t4 - t3) - 2 * linkAsym d l) :: x.delays).take 16, delayAt := some d.raw })) ∧
    (let asks := d.sys.mode = .load ∧ sourceOn d 2 = true ∧ d.boot.taking = none ∧ elapsed d d.boot.askedAt (ms 100) = true
     (¬ asks → Completes (.relayRequestSend t) s d) ∧
     (asks → ∃ e, Completes (.relayRequestSend t) s e ∧ e.boot = { d.boot with askedAt := some d.raw } ∧ e.regs = d.regs ∧
       ∀ l, l < 4 → (linkAt d l).state = 6 → (linkAt d l).failed = false → ∃ p, .valley l p ∈ e.out ∧ p.body = .relayAsk ∧ at_ p.header 2 1 = 0)) ∧
    (∀ l, let stalls := d.boot.taking.map (·.1) = some l ∧ d.boot.takeAt + sec 1 ≤ d.raw ∧ d.boot.auth.any (fun e => e.1 == 2) = false
      (¬ stalls → Completes (.relayStall t l) s d) ∧
      (stalls → ∃ e, Completes (.relayStall t l) s e ∧ e.boot = { d.boot with taking := none, taken := [], askedAt := none } ∧ e.regs = d.regs ∧ e.out = d.out)) ∧
    (∀ h handle n, Served d h 0x500 handle →
      ((hKind handle ≠ 0xD ∨ objOf d handle = none) → Completes (.migrateSwitch t h handle n) s (complete h 0x500 rcBadHandle handle [] d) ∧
        Completes (.migrateAbort t h handle) s (complete h 0x500 rcBadHandle handle [] d)) ∧
      (∀ m u, hKind handle = 0xD → (objOf d handle).isSome = true → tget d.val.migs (hIndex handle) = some m → tget d.outp.univs m.univ = some u →
        (m.state ≠ 1 → Completes (.migrateSwitch t h handle n) s (complete h 0x500 rcWrongMode handle [] d)) ∧
        (m.state = 1 →
          let ns := max (sgn 64 n) (migFloor d u)
          let epoch := ((tget d.val.epochs m.univ).getD 0 + 1) % 256
          ∃ e, Answers (.migrateSwitch t h handle n) s h 0x500 handle (leBytes 8 (unsgn 64 ns) ++ leBytes 1 epoch) e ∧ e.regs = d.regs ∧
            tget e.val.migs (hIndex handle) = some { m with state := 2, ns := ns, epoch := epoch })) ∧
      (∀ m, hKind handle = 0xD → (objOf d handle).isSome = true → tget d.val.migs (hIndex handle) = some m →
        ((m.state = 1 ∨ m.state = 2) → ∃ e, Answers (.migrateAbort t h handle) s h 0x500 handle [] e ∧ tget e.val.migs (hIndex handle) = some { m with state := 5 }) ∧
        (m.state = 5 → Completes (.migrateAbort t h handle) s (complete h 0x500 rcWrongMode handle [] d)) ∧
        ((m.state = 0 ∨ m.state = 3 ∨ m.state = 4) → Completes (.migrateAbort t h handle) s (complete h 0x500 rcLate handle [] d))))

/-- R335, R336, R338, R339, R340, R341, R342, R343: heartbeats leave every 100 µs and are counted, missed and lost on each path; a secondary in ACTIVE that hears its partner
ACTIVE and holding enters STANDBY; the line is sampled and classified; a standby claims, asks the witness or does neither by the rows of R342, releases its pulse and wins or
loses by its sample; an unanswered probe or question ends. -/
def Obligations.HeartbeatsAndTheInterlock : Prop :=
  ∀ (t : Time) (s : State) (d : Dev), AtTime t s d →
    let plus (e : Dev) (o : Nat) : Prop := (rg e o).toNat = min ((rg d o).toNat + 1) 0xFFFFFFFF
    let claims (e : Dev) (u : Bool) : Prop := e.red = { d.red with claim := some ⟨1, d.raw, u⟩, asked := none, answer := none } ∧ e.sys = d.sys ∧ e.regs = d.regs ∧ e.out = .ilk true :: d.out
    ((hbRuns d = false ∨ elapsed d d.red.sentAt (us 100) = false) → Completes (.heartbeatSend t) s d) ∧
    (hbRuns d = true → elapsed d d.red.sentAt (us 100) = true → ∃ e, Completes (.heartbeatSend t) s e ∧ e.red = { d.red with seq := d.red.seq + 1, sentAt := some d.raw } ∧
      e.regs = d.regs ∧ e.sys = d.sys ∧ .heartbeat (hbWord { d with red := { d.red with seq := d.red.seq + 1, sentAt := some d.raw } }) ∈ e.out) ∧
    (∀ path w, let x := pathAt d path
      ((¬ (path = 1 ∨ path = 2) ∨ (hbRuns d = false ∧ d.sys.mode ≠ .configure) ∨ x.seq = some (hbSeq (w % 2 ^ 64))) → Completes (.heartbeatRx t path w) s d) ∧
      ((path = 1 ∨ path = 2) → hbRuns d = true → x.seq ≠ some (hbSeq (w % 2 ^ 64)) → d.red.handover = none →
        (hbMode w ≠ 6 → (hbMode w = 5 → hbMode d.red.word = 5) → ¬ (d.sys.mode = .active ∧ hbMode w = 4 ∧ hbHolds (w % 2 ^ 64) = true) → ∃ e, Completes (.heartbeatRx t path w) s e ∧
          pathAt e path = { x with up := x.up || decide (9 ≤ x.run), seq := some (hbSeq (w % 2 ^ 64)), at_ := d.raw, missAt := d.raw, run := x.run + 1 } ∧ e.red.word = w % 2 ^ 64 ∧
          pathAt e (3 - path) = pathAt d (3 - path) ∧ e.red.ilk = d.red.ilk ∧ e.sys = d.sys ∧ ∀ o, o ∉ postCounters → rg e o = rg d o) ∧
        (d.sys.mode = .active → hbMode w = 4 → hbHolds (w % 2 ^ 64) = true → d.red.role = 1 → ∃ e, Completes (.heartbeatRx t path w) s e ∧ e.sys.mode = .standby) ∧
        (d.sys.mode = .active → hbMode w = 4 → hbHolds (w % 2 ^ 64) = true → d.red.role = 0 → ¬ (hbMode d.red.word = 4 ∧ hbHolds d.red.word = true) →
          ∃ e, Completes (.heartbeatRx t path w) s e ∧ e.sys = d.sys ∧ plus e R.RED_DUAL_ACTIVE))) ∧
    (∀ path, let x := pathAt d path
      let missed := hbRuns d = true ∧ (path = 1 ∨ path = 2) ∧ max x.at_ x.missAt + us 100 ≤ d.raw
      let lost := hbRuns d = true ∧ (path = 1 ∨ path = 2) ∧ x.up = true ∧ x.at_ + ms 1 ≤ d.raw
      (¬ missed → Completes (.heartbeatMiss t path) s d) ∧
      (missed → ∃ e, Completes (.heartbeatMiss t path) s e ∧ pathAt e path = { x with missAt := d.raw, run := 0 } ∧ plus e (if path = 1 then R.RED_HB_MISS_V else R.RED_HB_MISS_W) ∧
        pathAt e (3 - path) = pathAt d (3 - path) ∧ e.out = d.out ∧ e.sys = d.sys) ∧
      (¬ lost → Completes (.pathDegraded t path) s d) ∧
      (lost → d.red.handover = none → ∃ e, Completes (.pathDegraded t path) s e ∧ pathAt e path = { x with up := false, run := 0 } ∧ pathAt e (3 - path) = pathAt d (3 - path) ∧
        e.red.ilk = d.red.ilk ∧ e.sys = d.sys ∧ plus e R.RED_PATH_LOSSES ∧ e.red.saidUnreachable = (d.red.saidUnreachable || !(pathAt d (3 - path)).up))) ∧
    (∀ low, ((d.red.ilk && !d.red.silent && low) = false → Completes (.ilkBreath t low) s d) ∧
      ((d.red.ilk && !d.red.silent && low) = true → ∃ e, Completes (.ilkBreath t low) s e ∧ plus e R.RED_BREATH_LOW ∧ e.sys = d.sys ∧
        e.red = { d.red with breathAt := if elapsed d d.red.breathAt (sec 1) then some d.raw else d.red.breathAt })) ∧
    (∀ c, ((timeRuns d = false ∨ d.red.ilk = true ∨ 2 < c) → Completes (.ilkLineClass t c) s d) ∧
      (timeRuns d = true → d.red.ilk = false → c ≤ 2 → ∃ e, Completes (.ilkLineClass t c) s e ∧
        e.red = { d.red with line := c, saidStuck := d.red.saidStuck && c == 2, saidSevered := d.red.saidSevered && c == 0 } ∧ e.regs = d.regs ∧ e.out = d.out ∧ e.sys = d.sys)) ∧
    (let may := d.red.paired = true ∧ d.sys.mode = .standby ∧ d.red.silent = false ∧ d.red.claim = none ∧ handingOver d = false
     (¬ may → Completes (.claimEvaluation t) s d) ∧
     (may → (blocked d = true ∨ d.red.line ≠ 0 ∨ (anyPath d = true ∧ hbHolds d.red.word = true)) →
       ∃ e, Completes (.claimEvaluation t) s e ∧ e.red.claim = none ∧ e.red.asked = d.red.asked) ∧
     (may → blocked d = false → d.red.line = 0 →
       (anyPath d = true → hbHolds d.red.word = false → ∃ e, Completes (.claimEvaluation t) s e ∧ claims e false) ∧
       (anyPath d = false → witnessNeeded d = false → ∃ e, Completes (.claimEvaluation t) s e ∧ claims e true) ∧
       (anyPath d = false → witnessNeeded d = true →
         (d.red.asked.isSome = true → d.red.answer = none → Completes (.claimEvaluation t) s d) ∧
         (∀ a, d.red.asked.isSome = true → d.red.answer = some a → a ≠ 2 → ∃ e, Completes (.claimEvaluation t) s e ∧ claims e false) ∧
         (d.red.asked.isSome = true → d.red.answer = some 2 → ∃ e, Completes (.claimEvaluation t) s e ∧ e.red.claim = none ∧ e.red.asked = none ∧ e.red.saidSevered = true) ∧
         (∀ w, d.red.asked = none → witnessOf d = some w → ∃ e, Completes (.claimEvaluation t) s e ∧ e.red = { d.red with asked := some d.raw } ∧ plus e R.RED_WITNESS_QUERIES) ∧
         (d.red.asked = none → witnessOf d = none → ∃ e, Completes (.claimEvaluation t) s e ∧ e.red = { d.red with saidUnreachable := true })))) ∧
    (∀ high, d.red.claim = none → Completes (.claimRelease t) s d ∧ Completes (.claimSample t high) s d) ∧
    (∀ c high, d.red.claim = some c →
      (let due := c.step = 1 ∧ c.at_ + us (if d.red.role = 0 then 40 else 20) ≤ d.raw
       (¬ due → Completes (.claimRelease t) s d) ∧
       (due → ∃ e, Completes (.claimRelease t) s e ∧ e.red = { d.red with claim := some { c with step := 2, at_ := d.raw } } ∧ e.out = .ilk false :: d.out ∧ e.regs = d.regs ∧ e.sys = d.sys)) ∧
      (¬ (c.step = 2 ∧ c.at_ + us 2 ≤ d.raw) → Completes (.claimSample t high) s d) ∧
      (c.step = 2 → c.at_ + us 2 ≤ d.raw →
        ((high = false ∨ d.sys.mode ≠ .standby ∨ d.red.silent = true) → ∃ e, Completes (.claimSample t high) s e ∧ e.red = { d.red with claim := none, line := 1 } ∧ plus e R.RED_CLAIMS_LOST ∧
          e.sys = d.sys ∧ e.out = d.out) ∧
        (high = true → d.sys.mode = .standby → d.red.silent = false → ∃ e, Completes (.claimSample t high) s e ∧ e.sys.mode = .active ∧ e.sys.tActive = d.raw ∧ e.red.ilk = true ∧ e.red.claim = none ∧
          e.red.handover = none ∧ plus e R.RED_CLAIMS_WON ∧ plus e R.RED_TAKEOVERS))) ∧
    (∃ e, Completes (.witnessProbeTimeout t) s e ∧ e.red = { d.red with probes := d.red.probes.filter fun p => !decide (p.2.2 + us 300 ≤ d.raw) } ∧ e.regs = d.regs ∧ e.sys = d.sys) ∧
    (let late := d.red.answer = none ∧ ∃ v, d.red.asked = some v ∧ v + us 400 ≤ d.raw
     (¬ late → Completes (.witnessAnswerTimeout t) s d) ∧
     (late → ∃ e, Completes (.witnessAnswerTimeout t) s e ∧ e.red = { d.red with asked := none, saidUnreachable := true } ∧ e.sys = d.sys))

/-- R345, R347, R348, R351, R352, R353: a trailer applies a checkpoint that is whole and that the unit can take, or refuses it; one without an acknowledgement for 10 ms has its pages
dirty again; a tick sends the next or counts a stretch; the old active of a handover releases the interlock and enters STANDBY; the standby reports its health each second; HANDOVER
START is turned away by the rows of R351, answered with the N_h in force or passed on, and CANCEL ends it before step 4. -/
def Obligations.CheckpointsAndHandover : Prop :=
  ∀ (t : Time) (s : State) (d : Dev), AtTime t s d →
    let plus (e : Dev) (o : Nat) : Prop := (rg e o).toNat = min ((rg d o).toNat + 1) 0xFFFFFFFF
    (∀ b : List Byte,
      ((b.length ≠ 32 ∨ ckptTakes d = false) → Completes (.checkpointTrailerRx t b) s d) ∧
      (b.length = 32 → ckptTakes d = true →
        let whole (c : CkptIn) : Prop := c.num = at_ b 0 8 ∧ c.chunks.length = 16 * at_ b 8 4 ∧ crc32c (c.chunks.flatMap fun e => e.2.2.2) = at_ b 12 4
        ((d.red.stage.bind fun c => c.snap.map fun x => (c, x)) = none → ∃ e, Completes (.checkpointTrailerRx t b) s e ∧ e.red.applied = d.red.applied ∧ e.red.stage = none ∧
          e.red.refused = true ∧ plus e R.RED_CKPT_REFUSED) ∧
        (∀ c x, d.red.stage = some c → c.snap = some x →
          (¬ whole c → ∃ e, Completes (.checkpointTrailerRx t b) s e ∧ e.red.applied = d.red.applied ∧ e.red.stage = none ∧ e.red.refused = true ∧ plus e R.RED_CKPT_REFUSED) ∧
          (whole c → (ckptGrounds x d).1 = true ∨ (ckptGrounds x d).2 = true → ∃ e, Completes (.checkpointTrailerRx t b) s e ∧ e.red.applied = d.red.applied ∧ e.red.stage = none ∧
            e.red.cpBad = (ckptGrounds x d).1 ∧ e.red.capShort = (ckptGrounds x d).2 ∧ plus e R.RED_CKPT_REFUSED) ∧
          (whole c → (ckptGrounds x d).1 = false → (ckptGrounds x d).2 = false → ∃ e, Completes (.checkpointTrailerRx t b) s e ∧ e.red.applied = some { c with chunks := [] } ∧
            e.red.stage = none ∧ e.red.saidBlocked = false)))) ∧
    (let lost (o : CkptOut) : Prop := ∃ v, o.trailer = some v ∧ v + ms 10 ≤ d.raw
     ((∀ o, d.red.out = some o → ¬ lost o) → Completes (.checkpointAckTimeout t) s d) ∧
     (∀ o, d.red.out = some o → lost o → ∃ e, Completes (.checkpointAckTimeout t) s e ∧ e.red.out = none ∧ e.regs = d.regs ∧ e.sys = d.sys ∧
       e.pln.ptes = o.pages.foldl (fun p k => tmod p k fun y => { y with d := true }) d.pln.ptes ∧
       ∀ x, d.red.handover = some x → e.red.handover = some (if x.giving = true ∧ x.step = 3 then { x with step := 2 } else x))) ∧
    (((pacing d).isSome = true ∨ ckptMay d = false) → Completes (.checkpointTick t) s d) ∧
    (pacing d = none → ckptMay d = true →
      (d.red.out = none → ∃ e, Completes (.checkpointTick t) s e ∧ e.red.ckptNum = d.red.ckptNum + 1 ∧ e.red.full = false ∧
        e.red.out = some { num := d.red.ckptNum + 1, frame := lastLatched d, tick := d.raw, pages := (ckptPages d).map (·.1), trailer := some d.raw }) ∧
      (d.red.out ≠ none → ∃ e, Completes (.checkpointTick t) s e ∧ e.red.ckptNum = d.red.ckptNum ∧ e.red.out = d.red.out ∧ plus e R.RED_CKPT_STRETCHED)) ∧
    (let ready := ∃ x, d.red.handover = some x ∧ x.giving = true ∧ x.step = 3 ∧ d.sys.mode = .active ∧ d.red.out = none ∧ showWaiting d = false
     (¬ ready → Completes (.handoverRelease t) s d) ∧
     (ready → ∃ e x, Completes (.handoverRelease t) s e ∧ d.red.handover = some x ∧ e.sys.mode = .standby ∧ e.red.ilk = false ∧ e.red.handover = some { x with step := 4 })) ∧
    (∀ f n : Nat, let due := d.red.paired = true ∧ d.sys.mode = .standby ∧ d.red.healthAt + sec 1 ≤ d.raw
      (¬ due → Completes (.healthReport t f n) s d) ∧
      (due → ∃ e, Completes (.healthReport t f n) s e ∧ e.red.healthAt = d.raw ∧ e.red.refused = false ∧ e.sys = d.sys ∧
        (∀ o, o ∉ postCounters → rg e o = rg d o) ∧
        e.red.health / 2 ^ 25 = (if d.red.refused then 1 else 0) + (if d.red.cpBad then 2 else 0) + (if d.red.capShort then 4 else 0) ∧
        e.red.health % 2 ^ 16 = f % 2 ^ 16)) ∧
    (∀ h b, Served d h 0x600 0 →
      let force := bit (at_ b 1 1) 0
      let m := hbMode d.red.word
      let bar : Option Nat :=
        if d.red.paired = false ∨ (m ≠ 4 ∧ m ≠ 5) ∨ m = d.sys.mode.code then some rcConflict
        else if standbyHealthy d = false ∧ force = false then some rcConflict
        else if standbyBlocked d = true then some rcIncompatible
        else if d.red.valley.up = false ∨ d.red.handover.isSome = true then some rcBusy else none
      let n : Int := max (at_ b 8 8) (leastNh d)
      ((1 < at_ b 1 1 ∨ at_ b 2 6 ≠ 0) → Completes (.handoverStart t h b) s (complete h 0x600 rcOutOfRange 0 [] d)) ∧
      (at_ b 1 1 ≤ 1 → at_ b 2 6 = 0 →
        (∀ c, bar = some c → Completes (.handoverStart t h b) s (complete h 0x600 c 0 [] d)) ∧
        (bar = none → d.sys.mode = .active → ∃ e, Answers (.handoverStart t h b) s h 0x600 0 (leBytes 8 (unsgn 64 n)) e ∧ e.regs = d.regs ∧ e.sys = d.sys ∧
          e.red = { d.red with handover := some { nh := n, step := 1, asked := none, giving := true } }) ∧
        (bar = none → d.sys.mode ≠ .active → ∃ e, Pends (.handoverStart t h b) s h 0 e ∧ e.regs = d.regs ∧ e.sys = d.sys ∧
          e.red = { d.red with handover := some { nh := at_ b 8 8, step := 0, asked := some h, giving := false } }))) ∧
    (∀ h, Served d h 0x600 0 →
      (d.red.handover = none → Answers (.handoverCancel t h) s h 0x600 0 [] d) ∧
      (∀ x, d.red.handover = some x → 4 ≤ x.step → Completes (.handoverCancel t h) s (complete h 0x600 rcLate 0 [] d)) ∧
      (∀ x, d.red.handover = some x → x.step < 4 → ∃ e, Answers (.handoverCancel t h) s h 0x600 0 [] e ∧ e.red = { d.red with handover := none } ∧ e.sys = d.sys))

/-- R359, R381, R382: NOR_READ copies bytes into the argument area; NOR_ERASE and NOR_PROGRAM refuse in the order tabled and else queue their operations; an operation that completes in
time sets a sector to 0xFF or only clears bits, and is counted; one past its time ends its command with MEDIA_ERROR; the log appends a record of the counters after 10 minutes. -/
def Obligations.NorOperatesAndKeepsItsLog : Prop :=
  ∀ (t : Time) (s : State) (d : Dev), AtTime t s d →
    let plus (e : Dev) (o : Nat) : Prop := (rg e o).toNat = min ((rg d o).toNat + 1) 0xFFFFFFFF
    let asks (j : NorJob) (u : Dev) (e : Dev) : Prop := ∃ js, e = { u with upd.jobs := js } ∧
      (d.upd.jobs = [] → norFree d = true → js = [{ j with began := some d.raw }]) ∧
      (d.upd.jobs = [] → norFree d = false → js = [j]) ∧
      (d.upd.jobs ≠ [] → js.tail = d.upd.jobs.tail ++ [j])
    (∀ (h : CmdHdr) (off len arg : Nat), Served d h 0x700 0 →
      let c := Instr.norRead t h off len arg
      let bad := norSize d < off + len ∨ 1048576 < len ∨ argBytes < arg + len
      (h.src ≠ .pcie → Completes c s (complete h 0x700 rcUnsupported 0 [] d)) ∧
      (h.src = .pcie → bad → Completes c s (complete h 0x700 rcOutOfRange 0 [] d)) ∧
      (h.src = .pcie → ¬ bad → Answers c s h 0x700 0 [] (argWrite arg ((List.range len).map fun i => mget 0xFF d.nor (off + i)) d))) ∧
    (∀ (h : CmdHdr) (off n : Nat), Served d h 0x701 0 →
      let c := Instr.norErase t h off n
      let bad := off % 65536 ≠ 0 ∨ norSize d < off + 65536 * n
      let barred := off < 65536 ∧ n ≠ 0 ∧ bitOf d F.SYS_STATUS_HDR_VALID = true ∧ holds d h = false
      (bad → Completes c s (complete h 0x701 rcOutOfRange 0 [] d)) ∧
      (¬ bad → barred → Completes c s (complete h 0x701 rcNotOwner 0 [] d)) ∧
      (¬ bad → n = 0 → Answers c s h 0x701 0 (leBytes 4 0) d) ∧
      (¬ bad → ¬ barred → n ≠ 0 → bitOf d F.SYS_STATUS_VLOW_STOP = true → Completes c s (complete h 0x701 rcBusy 0 [] d)) ∧
      (¬ bad → ¬ barred → n ≠ 0 → bitOf d F.SYS_STATUS_VLOW_STOP = false → ∃ e, Pends c s h 0 e ∧
        asks { steps := (List.range n).map fun i => .erase (off / 65536 + i), began := none, reply := some (h, 0x701), data := leBytes 4 n, done := .nothing } d e)) ∧
    (∀ (h : CmdHdr) (off len arg : Nat), Served d h 0x702 0 →
      let c := Instr.norProgram t h off len arg
      let bad := norSize d < off + len ∨ 1048576 < len ∨ argBytes < arg + len
      let barred := off < 65536 ∧ len ≠ 0 ∧ bitOf d F.SYS_STATUS_HDR_VALID = true ∧ holds d h = false
      (h.src ≠ .pcie → Completes c s (complete h 0x702 rcUnsupported 0 [] d)) ∧
      (h.src = .pcie → bad → Completes c s (complete h 0x702 rcOutOfRange 0 [] d)) ∧
      (h.src = .pcie → ¬ bad → barred → Completes c s (complete h 0x702 rcNotOwner 0 [] d)) ∧
      (h.src = .pcie → ¬ bad → len = 0 → Answers c s h 0x702 0 [] d) ∧
      (h.src = .pcie → ¬ bad → ¬ barred → len ≠ 0 → bitOf d F.SYS_STATUS_VLOW_STOP = true → Completes c s (complete h 0x702 rcBusy 0 [] d)) ∧
      (h.src = .pcie → ¬ bad → ¬ barred → len ≠ 0 → bitOf d F.SYS_STATUS_VLOW_STOP = false → ∃ e, Pends c s h 0 e ∧
        asks { steps := norWrites off (argRead d arg len), began := none, reply := some (h, 0x702), data := [], done := .nothing } d e)) ∧
    (∀ j r b x xs, d.upd.jobs = j :: r → j.began = some b → j.steps = x :: xs →
      (b + norLimit d x < d.raw → Completes (.norOperationDone t) s (pump d)) ∧
      (d.raw ≤ b + norLimit d x → ∃ e, Completes (.norOperationDone t) s (pump e) ∧
        (∀ n, x = .erase n → (∀ a, mget 0xFF e.nor a = if a / 65536 = n then 0xFF else mget 0xFF d.nor a) ∧ plus e R.UPD_NOR_ERASES) ∧
        (∀ a bs, x = .program a bs → (∀ i, (hi : i < bs.length) → mget 0xFF e.nor (a + i) = mget 0xFF d.nor (a + i) &&& bs[i]) ∧
          (∀ k, k < a ∨ a + bs.length ≤ k → mget 0xFF e.nor k = mget 0xFF d.nor k) ∧ plus e R.UPD_NOR_PROGRAMS) ∧
        (xs ≠ [] → e.upd.jobs.map (·.steps) = xs :: r.map (·.steps) ∧ e.plain = d.plain) ∧
        (xs = [] → e.upd.jobs.tail = r.tail ∧ e.upd.jobs.length = r.length ∧ (∀ k posts, j.done = .journal k posts → e.upd.j = some k) ∧
          ∀ n, j.done = .wrote n → e.upd.next = n)) ∧
      (d.raw < b + norLimit d x → Completes (.norTimeout t) s (pump d)) ∧
      (b + norLimit d x ≤ d.raw → ∃ e, Completes (.norTimeout t) s (pump e) ∧ e.nor = d.nor ∧ e.upd.j = d.upd.j ∧ plus e R.UPD_NOR_TIMEOUTS ∧ e.upd.next = d.upd.next ∧
        (j.done = .nothing → e.upd.jobs.tail = r.tail ∧ e.upd.jobs.length = r.length))) ∧
    (d.upd.jobs = [] → Completes (.norOperationDone t) s (pump d) ∧ Completes (.norTimeout t) s (pump d)) ∧
    (let due := timeRuns d = true ∧ bitOf d F.HDL_STATUS_AT_RISK = false ∧ d.sys.mode ≠ .hold ∧ d.upd.lifeAt + sec 600 ≤ d.raw ∧ ∀ j ∈ d.upd.jobs, j.done ≠ .logged
     (¬ due → Completes (.persistentLogWrite t) s d) ∧
     (due → ∃ e pre a, Completes (.persistentLogWrite t) s e ∧
       asks { steps := pre ++ [.program a (logBytes (d.upd.lifeSeq + 1) (lifeNow d))], began := none, reply := none, data := [], done := .logged }
         { d with upd.lifeAt := d.raw } e))

/-- R374, R375, R378: UPDATE_OPEN grants the session to one party; the commands of another are NOT_OWNER, once ABORTED for a holder whose lease ran out; each command of the holder
moves the lease on; WRITE, VERIFY, ACTIVATE, CONFIRM and CLOSE refuse in the order tabled and else queue their operations or journal record; the lease ends after 60 s. -/
def Obligations.SessionsUpdateTheStore : Prop :=
  ∀ (t : Time) (s : State) (d : Dev), AtTime t s d →
    let plus (e : Dev) (o : Nat) : Prop := (rg e o).toNat = min ((rg d o).toNat + 1) 0xFFFFFFFF
    let j := journalNow d
    let low := bitOf d F.SYS_STATUS_VLOW_STOP = true
    let kept (u : Option Session) : Option Session := u.map fun x => { x with till := d.raw + sec 60 }
    let fresh : Dev := { d with upd.session := kept d.upd.session }
    let writes (k : Journal) (posts : List (Nat × Nat)) (reply : Option (CmdHdr × Nat)) (data : List Byte) (e : Dev) : Prop := e.nor = d.nor ∧ e.sys = d.sys ∧ e.upd.j = d.upd.j ∧
      (d.upd.jobs = [] → norFree d = true → ∃ pre a, e.upd.jobs =
        [{ steps := pre ++ [.program a (journalBytes { k with seq := j.seq + 1 })], began := some d.raw, reply := reply, data := data, done := .journal { k with seq := j.seq + 1 } posts }]) ∧
      (d.upd.jobs = [] → norFree d = false → e.upd.jobs = [{ steps := [], began := none, reply := reply, data := data, done := .journal k posts }]) ∧
      (d.upd.jobs ≠ [] → e.upd.jobs.tail = d.upd.jobs.tail ++ [{ steps := [], began := none, reply := reply, data := data, done := .journal k posts }])
    (∀ (h : CmdHdr) (b : List Byte), Served d h 0x703 0 →
      let c := Instr.updateOpen t h b
      let len := at_ b 4 4
      let other := d.upd.session.any fun x => x.src != h.src
      let barred := 5 ≤ j.state ∨ (j.state = 4 ∧ bit (at_ b 0 1) 0 = false)
      let id := (d.upd.sessions + 1) % 65536
      (∀ x, d.upd.session = some x → x.src ≠ h.src → Completes c s (complete h 0x703 rcBusy 0 (holderData d x) d)) ∧
      (other = false → len = 0 ∨ 8388608 < len → Completes c s (complete h 0x703 rcOutOfRange 0 [] fresh)) ∧
      (other = false → 0 < len → len ≤ 8388608 → barred → Completes c s (complete h 0x703 rcConflict 0 [] fresh)) ∧
      (other = false → 0 < len → len ≤ 8388608 → ¬ barred → low → Completes c s (complete h 0x703 rcBusy 0 [] fresh)) ∧
      (other = false → 0 < len → len ≤ 8388608 → ¬ barred → ¬ low → ∃ e, Pends c s h 0 e ∧ e.upd.session = some ⟨h.src, id, d.raw + sec 60⟩ ∧ e.upd.len = len ∧ e.upd.next = 0 ∧
        plus e R.UPD_SESSIONS ∧ writes { j with state := 2, sLen := 0, sIcrc := 0, sSerial := 0 } [(0x01, id)] (some (h, 0x703)) (leBytes 4 id) e)) ∧
    (∀ (h : CmdHdr) (b : List Byte) (c : Instr) (op : Nat),
      (c, op) ∈ [(Instr.updateRefresh t h, 0x704), (.updateWrite t h b, 0x705), (.updateVerify t h, 0x706), (.updateActivate t h, 0x707), (.updateClose t h, 0x709)] →
      Served d h op 0 → holds d h = false →
      (d.upd.former ≠ some h.src → Completes c s (complete h op rcNotOwner 0 [] d)) ∧
      (d.upd.former = some h.src → Completes c s (complete h op rcAborted 0 [] { d with upd.former := none }))) ∧
    (∀ (h : CmdHdr) (b : List Byte), holds d h = true →
      (Served d h 0x704 0 → Answers (.updateRefresh t h) s h 0x704 0 (leBytes 4 60000) fresh) ∧
      (Served d h 0x705 0 →
        let c := Instr.updateWrite t h b
        let off := at_ b 0 4
        let len := at_ b 4 4
        let ind := bit (at_ b 8 1) 0 = true
        let bad := len = 0 ∨ (ind ∧ (65536 < len ∨ argBytes < at_ b 12 4 + len)) ∨ (¬ ind ∧ 32 < len) ∨ j.state ≠ 2 ∨ off ≠ nextOffset d ∨ d.upd.len < off + len
        (ind → h.src ≠ .pcie → Completes c s (complete h 0x705 rcUnsupported 0 [] fresh)) ∧
        (¬ (ind ∧ h.src ≠ .pcie) → bad → Completes c s (complete h 0x705 rcOutOfRange 0 (leBytes 4 (nextOffset d)) fresh)) ∧
        (¬ (ind ∧ h.src ≠ .pcie) → ¬ bad → low → Completes c s (complete h 0x705 rcBusy 0 [] fresh)) ∧
        (¬ (ind ∧ h.src ≠ .pcie) → ¬ bad → ¬ low → ∃ e pre, Pends c s h 0 e ∧ e.nor = d.nor ∧ e.upd.session = kept d.upd.session ∧ e.upd.next = d.upd.next ∧ (∀ x ∈ pre, ∃ n, x = .erase n) ∧
          ∃ x, e.upd.jobs.getLast? = some x ∧ x.reply = some (h, 0x705) ∧ x.data = leBytes 4 (off + len) ∧ x.done = .wrote (off + len) ∧
            (ind → x.steps = pre ++ norWrites (stagingBase + off) (argRead d (at_ b 12 4) len)) ∧ (¬ ind → x.steps = pre ++ norWrites (stagingBase + off) ((b.drop 16).take len)))) ∧
      (Served d h 0x706 0 →
        let c := Instr.updateVerify t h
        (low → Completes c s (complete h 0x706 rcBusy 0 [] fresh)) ∧
        (¬ low → j.state ≠ 2 → j.state ≠ 3 → Completes c s (complete h 0x706 rcWrongMode 0 [] fresh)) ∧
        (¬ low → j.state = 2 ∨ j.state = 3 → ∀ code n, verifyImage fresh stagingBase d.upd.len = some (code, n) → Completes c s (complete h 0x706 code 0 (leBytes 4 n) fresh)) ∧
        (¬ low → j.state = 3 → verifyImage fresh stagingBase d.upd.len = none → Answers c s h 0x706 0 [] fresh) ∧
        (¬ low → j.state = 2 → verifyImage fresh stagingBase d.upd.len = none → ∃ e, Pends c s h 0 e ∧ e.upd.session = kept d.upd.session ∧
          writes { j with state := 3, sLen := d.upd.len, sIcrc := (imageIds d stagingBase).2.1, sSerial := (imageIds d stagingBase).1 }
            [(0x03, (imageIds d stagingBase).2.1)] (some (h, 0x706)) [] e)) ∧
      (Served d h 0x707 0 →
        let c := Instr.updateActivate t h
        (j.state ≠ 3 → Completes c s (complete h 0x707 rcWrongMode 0 [] fresh)) ∧
        (j.state = 3 → low → Completes c s (complete h 0x707 rcBusy 0 [] fresh)) ∧
        (j.state = 3 → ¬ low → ∃ e, Pends c s h 0 e ∧ e.upd.session = kept d.upd.session ∧ plus e R.UPD_ACTIVATIONS ∧
          writes { j with state := 4 } [(0x04, j.sIcrc)] (some (h, 0x707)) [] e)) ∧
      (Served d h 0x709 0 →
        let c := Instr.updateClose t h
        (j.state ≠ 2 → j.state ≠ 3 → Answers c s h 0x709 0 [] { d with upd.session := none }) ∧
        (j.state = 2 ∨ j.state = 3 → low → Completes c s (complete h 0x709 rcBusy 0 [] fresh)) ∧
        (j.state = 2 ∨ j.state = 3 → ¬ low → ∃ e, Pends c s h 0 e ∧ e.upd.session = none ∧
          writes { j with state := 1, sLen := 0, sIcrc := 0, sSerial := 0 } [] (some (h, 0x709)) [] e))) ∧
    (∀ h : CmdHdr, Served d h 0x708 0 →
      let c := Instr.updateConfirm t h
      let other := d.upd.session.any fun x => x.src != h.src
      (other = true → Completes c s (complete h 0x708 rcBusy 0 [] d)) ∧
      (other = false → j.state ≠ 6 → Answers c s h 0x708 0 [] fresh) ∧
      (other = false → j.state = 6 → low → Completes c s (complete h 0x708 rcBusy 0 [] fresh)) ∧
      (other = false → j.state = 6 → ¬ low → ∃ e, Pends c s h 0 e ∧ e.upd.session = kept d.upd.session ∧ writes { j with state := 1 } [(0x06, j.aIcrc)] (some (h, 0x708)) [] e)) ∧
    (let busy (x : Session) : Prop := ∃ k ∈ d.upd.jobs, ∃ r, k.reply = some r ∧ sessionOp r.2 = true ∧ r.1.src = x.src
     ((∀ x, d.upd.session = some x → d.raw < x.till ∨ busy x) → Completes (.sessionExpired t) s d) ∧
     (∀ x, d.upd.session = some x → x.till ≤ d.raw → ¬ busy x → ∃ e, Completes (.sessionExpired t) s e ∧ e.upd.session = none ∧ e.upd.former = some x.src ∧
       plus e R.UPD_LEASES_EXPIRED ∧ (j.state = 2 ∨ j.state = 3 → writes { j with state := 1, sLen := 0, sIcrc := 0, sSerial := 0 } [(0x02, x.id)] none [] e) ∧
       (j.state ≠ 2 → j.state ≠ 3 → e.upd.jobs = d.upd.jobs ∧ e.upd.j = d.upd.j ∧ e.nor = d.nor)))

/-- R373, R377, R379: in CONFIGURE a copied sector that reads back writes a COPYING record, and after the last one the bank's ICRC decides whether ACTIVE switches; a sector that fails
is copied once more, and a second failure ends the update; a checked native copy is recorded as CONVERTED. Neither writes a byte of the active bank. -/
def Obligations.CopiesSpareTheActiveBank : Prop :=
  ∀ (t : Time) (s : State) (d : Dev), AtTime t s d →
    let spares (k : Journal) (e : Dev) : Prop := ∀ a, bankBase k.active ≤ a → a < bankBase k.active + 8388608 → mget 0xFF e.nor a = mget 0xFF d.nor a
    let other (k : Journal) : Nat := bankBase (1 - k.active)
    (∀ ok : Bool,
      let due (k : Journal) : Prop := d.upd.j = some k ∧ d.sys.mode = .configure ∧ k.state = 5 ∧ norFree d = true
      ((∀ k, ¬ due k) → Completes (.journalCopySector t ok) s d) ∧
      (∀ k, due k → ∃ e, Completes (.journalCopySector t ok) s e ∧ e.sys = d.sys ∧ (k.active ≤ 1 → k.sLen ≤ 8388608 → spares k e) ∧
        (ok = true → k.copied + 1 < k.sectors → e.upd.j = some { k with copied := k.copied + 1, seq := k.seq + 1 }) ∧
        (ok = true → k.sectors ≤ k.copied + 1 → ∃ x, e.upd.j = some x ∧ x.seq = k.seq + 2 ∧
          ((x.state = 6 ∧ x.active = 1 - k.active ∧ x.prevValid = true ∧ x.starts = 1 ∧ x.aIcrc = k.sIcrc ∧ x.pIcrc = k.aIcrc ∧ x.pSerial = k.aSerial ∧ x.pCf = k.aCf) ∨
           (x.state = 1 ∧ x.active = k.active ∧ x.prevValid = false ∧ x.aIcrc = k.aIcrc))) ∧
        (ok = false → d.upd.again = false → e.upd.j = some k ∧ e.upd.again = true) ∧
        (ok = false → d.upd.again = true → e.upd.j = some { k with state := 1, prevValid := false, seq := k.seq + 1 } ∧ e.upd.again = false))) ∧
    (∀ image : List Byte,
      let written (k : Journal) : Dev := ((List.range (cdiv image.length 65536)).map (fun i => NorStep.erase (other k / 65536 + i)) ++ norWrites (other k) image).foldl (fun u x => norApply x u) d
      let due (k : Journal) : Prop := d.upd.j = some k ∧ (d.sys.mode = .active ∨ d.sys.mode = .standby) ∧ k.state = 7 ∧ norFree d = true ∧ image.length ≤ 8388608 ∧
        imageHead (written k) (other k) = true ∧ trailerOk (written k) (other k) = true ∧ at_ image 8 4 = image.length ∧ (imageIds (written k) (other k)).2.2 = fld d F.CTL_CF_NATIVE_CF
      ((∀ k, ¬ due k) → Completes (.converted t image) s d) ∧
      (∀ k, due k → ∃ e, Completes (.converted t image) s e ∧ e.sys = d.sys ∧ (k.active ≤ 1 → spares k e) ∧
        e.upd.j = some { k with state := 8, seq := k.seq + 1, pSerial := (imageIds (written k) (other k)).1, pIcrc := (imageIds (written k) (other k)).2.1, pCf := fld d F.CTL_CF_NATIVE_CF }))

/-- R119: on an on-chip ring, writing 1 to QUE.POP_CTRL.DROP_REST discards the LEFT words of the current item and frees its space; the next pop returns the next item's header. With
LEFT at 0, and on every Plain ring, the write has no effect. -/
def Obligations.DropRestDiscardsTheItem : Prop :=
  ∀ (t : Time) (v : Word) (s : State) (d : Dev) (r : Ring), AtTime t s d → pcieUp d = true → bar0Writable d R.QUE_POP_CTRL = true → bit v.toNat 0 = true →
    tget d.que.rings (fld d F.QUE_POP_RING_RING) = some r →
    (popLeft d = 0 ∨ r.plain = true → Completes (.dropRest t v) s d) ∧
    (∀ it, r.plain = false → r.hostConsumer = true → 0 < popLeft d → r.items[r.read]? = some it →
      ∃ e r', Completes (.dropRest t v) s e ∧ popLeft e = 0 ∧ tget e.que.rings (fld d F.QUE_POP_RING_RING) = some r' ∧ r'.items = r.items.tail ∧
        (∀ n, n ≠ fld d F.QUE_POP_RING_RING → tget e.que.rings n = tget d.que.rings n) ∧ e.regs = d.regs ∧ e.out = d.out ∧ e.plain = d.plain ∧
        ∀ (u : Time) (it' : RItem), r.read = 0 → r.items[1]? = some it' → bar0Up d R.QUE_POP_LO = true →
          ∃ f, Completes (.popLoRead u false) { s with toDev := e } f ∧ f.out = .readData (leBytes 4 (it'.words.getD 0 0 % 2 ^ 32)) :: d.out)

/-- R291: QUERY of a time action answers in byte 24 [0] whether it is armed, in byte 25 the MODE it is armed with, 0 in bytes 26–27, and in bytes 28–31 its fires since creation,
modulo 2^32. -/
def Obligations.QueryOfATimeActionAnswersItsBytes : Prop :=
  ∀ (t : Time) (h : CmdHdr) (x : Word) (s : State) (d : Dev) (o : HObj) (a : Action), AtTime t s d → Served d h 1 x → hKind x = 0xB → objOf d x = some o →
    tget d.tim.actions (hIndex x) = some a →
    ∃ data, Answers (.query t h x) s h 1 x data d ∧ data.length = 16 ∧
      (∃ b, data[8]? = some b ∧ b.getLsbD 0 = a.sched.isSome) ∧ (∀ c, a.sched = some c → data[9]? = some (BitVec.ofNat 8 c.mode)) ∧
      data[10]? = some 0 ∧ data[11]? = some 0 ∧ leNat (data.drop 12) = a.fires % 2 ^ 32

/-- A step runs the command at the front of the queue, with the queue's rest; on an empty queue the block idles for one tick of its clock (the model's choice, log 2). -/
def Obligations.StepRunsFront : Prop :=
  (∀ (c : Instr) (r : List Instr) (s : State), s.pending = c :: r → step s = exec c { s with pending := r }) ∧
  ∀ s : State, s.pending = [] → step s = .next { s with toDev := idle s.toDev }

/-- At reset the queue is in order, and every step from a queue in order, each command well formed and none before an earlier one, leaves a queue in order. -/
def Obligations.QueueStaysOrdered : Prop :=
  QueueOk State.reset.pending ∧ ∀ s s' : State, QueueOk s.pending → step s = .next s' → QueueOk s'.pending

/-- No command is refused, and none faults but an access outside BAR0 or BAR2. -/
def Obligations.OnlyOutsideStops : Prop :=
  ∀ (c : Instr) (s : State), (∀ r, exec c s ≠ .refused r) ∧
    ((∃ f, exec c s = .fault f) ↔
      match c with
      | .registerWrite _ off _ => 0x1000000 ≤ off
      | .bar2Write _ off b => 0x10000000 < off + b.length
      | .bar2Read _ off len _ => 0x10000000 < off + len
      | _ => False)
end

