-- ==== Sys2Proof/Laws/Exec.lean ====
section
/-! SUPPORT. What a meaning and a step can do: every meaning acts on the device alone. -/

namespace Sys2Proof.Machine

/-- Every arm is a meaning on the device; the queue has no part in it. -/
theorem exec_onDev (c : Instr) : ∃ f : Dev → Host.Outcome Dev Fault Refusal, ∀ s : State, exec c s = onDev f s :=
  match c with
  | .powerOnReset t => ⟨runPowerOnReset t, fun _ => rfl⟩
  | .warmReset t => ⟨runWarmReset t, fun _ => rfl⟩
  | .softwareReset t value => ⟨runSoftwareReset t value, fun _ => rfl⟩
  | .watchdogExpiry t core => ⟨runWatchdogExpiry t core, fun _ => rfl⟩
  | .pcieFundamentalReset t => ⟨runPcieFundamentalReset t, fun _ => rfl⟩
  | .jtagReset t => ⟨runJtagReset t, fun _ => rfl⟩
  | .resetEnd t boot testEn => ⟨runResetEnd t boot testEn, fun _ => rfl⟩
  | .daybreakEnd t report => ⟨runDaybreakEnd t report, fun _ => rfl⟩
  | .authenticationDone t => ⟨runAuthenticationDone t, fun _ => rfl⟩
  | .configureEnd t claimWon => ⟨runConfigureEnd t claimWon, fun _ => rfl⟩
  | .firstLight t => ⟨runFirstLight t, fun _ => rfl⟩
  | .configureBegin t => ⟨runConfigureBegin t, fun _ => rfl⟩
  | .vlowStop t mv => ⟨runVlowStop t mv, fun _ => rfl⟩
  | .vlowStopClear t mv => ⟨runVlowStopClear t mv, fun _ => rfl⟩
  | .vlowHold t mv => ⟨runVlowHold t mv, fun _ => rfl⟩
  | .vlowHoldClear t mv => ⟨runVlowHoldClear t mv, fun _ => rfl⟩
  | .livenessTimeout t => ⟨runLivenessTimeout t, fun _ => rfl⟩
  | .cmdDoorbell t value => ⟨runCmdDoorbell t value, fun _ => rfl⟩
  | .cmpHeadWrite t value => ⟨runCmpHeadWrite t value, fun _ => rfl⟩
  | .mgtCommandDatagram t ip port bytes => ⟨runMgtCommandDatagram t ip port bytes, fun _ => rfl⟩
  | .completionVectorPacing t => ⟨runCompletionVectorPacing t, fun _ => rfl⟩
  | .nop t h => ⟨runNop t h, fun _ => rfl⟩
  | .query t h handle => ⟨runQuery t h handle, fun _ => rfl⟩
  | .regRead t h off count => ⟨runRegRead t h off count, fun _ => rfl⟩
  | .regWrite t h off value mask => ⟨runRegWrite t h off value mask, fun _ => rfl⟩
  | .setMode t h target => ⟨runSetMode t h target, fun _ => rfl⟩
  | .ledgerRead t h line => ⟨runLedgerRead t h line, fun _ => rfl⟩
  | .governorSet t h target => ⟨runGovernorSet t h target, fun _ => rfl⟩
  | .create t h args => ⟨runCreate t h args, fun _ => rfl⟩
  | .destroy t h handle => ⟨runDestroy t h handle, fun _ => rfl⟩
  | .modify t h handle off len => ⟨runModify t h handle off len, fun _ => rfl⟩
  | .start t h handle secs nanos now => ⟨runStart t h handle secs nanos now, fun _ => rfl⟩
  | .stop t h handle => ⟨runStop t h handle, fun _ => rfl⟩
  | .setPriority t h handle prio => ⟨runSetPriority t h handle prio, fun _ => rfl⟩
  | .admitCheck t h args => ⟨runAdmitCheck t h args, fun _ => rfl⟩
  | .layerCommit t h handle args => ⟨runLayerCommit t h handle args, fun _ => rfl⟩
  | .retime t h handle args => ⟨runRetime t h handle args, fun _ => rfl⟩
  | .actionArm t h handle args => ⟨runActionArm t h handle args, fun _ => rfl⟩
  | .actionCancel t h handle => ⟨runActionCancel t h handle, fun _ => rfl⟩
  | .domainSwitch t h handle args => ⟨runDomainSwitch t h handle args, fun _ => rfl⟩
  | .ringFlush t h handle => ⟨runRingFlush t h handle, fun _ => rfl⟩
  | .ringMark t h handle => ⟨runRingMark t h handle, fun _ => rfl⟩
  | .ringRewind t h handle => ⟨runRingRewind t h handle, fun _ => rfl⟩
  | .ringRelease t h handle count allRead => ⟨runRingRelease t h handle count allRead, fun _ => rfl⟩
  | .pxpDiagStatus t h port => ⟨runPxpDiagStatus t h port, fun _ => rfl⟩
  | .pxpDiagShortTest t h port shorts => ⟨runPxpDiagShortTest t h port shorts, fun _ => rfl⟩
  | .pxpDiagClear t h port => ⟨runPxpDiagClear t h port, fun _ => rfl⟩
  | .pxpDiagProbeNow t h port => ⟨runPxpDiagProbeNow t h port, fun _ => rfl⟩
  | .migrateSwitch t h handle frame => ⟨runMigrateSwitch t h handle frame, fun _ => rfl⟩
  | .migrateAbort t h handle => ⟨runMigrateAbort t h handle, fun _ => rfl⟩
  | .handoverStart t h args => ⟨runHandoverStart t h args, fun _ => rfl⟩
  | .handoverCancel t h => ⟨runHandoverCancel t h, fun _ => rfl⟩
  | .norRead t h off len arg => ⟨runNorRead t h off len arg, fun _ => rfl⟩
  | .norErase t h off sectors => ⟨runNorErase t h off sectors, fun _ => rfl⟩
  | .norProgram t h off len arg => ⟨runNorProgram t h off len arg, fun _ => rfl⟩
  | .updateOpen t h args => ⟨runUpdateOpen t h args, fun _ => rfl⟩
  | .updateRefresh t h => ⟨runUpdateRefresh t h, fun _ => rfl⟩
  | .updateWrite t h args => ⟨runUpdateWrite t h args, fun _ => rfl⟩
  | .updateVerify t h => ⟨runUpdateVerify t h, fun _ => rfl⟩
  | .updateActivate t h => ⟨runUpdateActivate t h, fun _ => rfl⟩
  | .updateConfirm t h => ⟨runUpdateConfirm t h, fun _ => rfl⟩
  | .updateClose t h => ⟨runUpdateClose t h, fun _ => rfl⟩
  | .chkRun t h handle args => ⟨runChkRun t h handle args, fun _ => rfl⟩
  | .recalibrate t h item inst readings => ⟨runRecalibrate t h item inst readings, fun _ => rfl⟩
  | .bistSpm t h defects => ⟨runBistSpm t h defects, fun _ => rfl⟩
  | .bistPlain t h failing => ⟨runBistPlain t h failing, fun _ => rfl⟩
  | .bistPins t h shorts => ⟨runBistPins t h shorts, fun _ => rfl⟩
  | .registerWrite t off value => ⟨runRegisterWrite t off value, fun _ => rfl⟩
  | .governorReading t monitors => ⟨runGovernorReading t monitors, fun _ => rfl⟩
  | .avsbusTransactionDone t acked readMv => ⟨runAvsbusTransactionDone t acked readMv, fun _ => rfl⟩
  | .mr4Read t codeA codeB => ⟨runMr4Read t codeA codeB, fun _ => rfl⟩
  | .dqsOscillatorRead t readings => ⟨runDqsOscillatorRead t readings, fun _ => rfl⟩
  | .scrubOverdue t => ⟨runScrubOverdue t, fun _ => rfl⟩
  | .handleRelease t handle => ⟨runHandleRelease t handle, fun _ => rfl⟩
  | .bar2Write t off bytes => ⟨runBar2Write t off bytes, fun _ => rfl⟩
  | .bar2Read t off len bad => ⟨runBar2Read t off len bad, fun _ => rfl⟩
  | .xlatAddrWrite t value => ⟨runXlatAddrWrite t value, fun _ => rfl⟩
  | .inboxPush t task item => ⟨runInboxPush t task item, fun _ => rfl⟩
  | .pushWaitGranted t task => ⟨runPushWaitGranted t task, fun _ => rfl⟩
  | .taskDispatch t engine lost tables => ⟨runTaskDispatch t engine lost tables, fun _ => rfl⟩
  | .taskComplete t task => ⟨runTaskComplete t task, fun _ => rfl⟩
  | .pushRingWrite t value => ⟨runPushRingWrite t value, fun _ => rfl⟩
  | .pushDataHiWrite t value => ⟨runPushDataHiWrite t value, fun _ => rfl⟩
  | .pushCommit t value => ⟨runPushCommit t value, fun _ => rfl⟩
  | .popLoRead t bad => ⟨runPopLoRead t bad, fun _ => rfl⟩
  | .dropRest t value => ⟨runDropRest t value, fun _ => rfl⟩
  | .ringVectorPacing t ring => ⟨runRingVectorPacing t ring, fun _ => rfl⟩
  | .st2110PacketRx t pkt => ⟨runSt2110PacketRx t pkt, fun _ => rfl⟩
  | .streamLost t n => ⟨runStreamLost t n, fun _ => rfl⟩
  | .frameTick t c => ⟨runFrameTick t c, fun _ => rfl⟩
  | .bandWritten t c bad => ⟨runBandWritten t c bad, fun _ => rfl⟩
  | .passComplete t c => ⟨runPassComplete t c, fun _ => rfl⟩
  | .underrun t c => ⟨runUnderrun t c, fun _ => rfl⟩
  | .switchDone t c => ⟨runSwitchDone t c, fun _ => rfl⟩
  | .e131PacketRx t port pkt => ⟨runE131PacketRx t port pkt, fun _ => rfl⟩
  | .sourceLost t input src => ⟨runSourceLost t input src, fun _ => rfl⟩
  | .inputReleased t input => ⟨runInputReleased t input, fun _ => rfl⟩
  | .syncLaunch t port => ⟨runSyncLaunch t port, fun _ => rfl⟩
  | .txFrameStart t port => ⟨runTxFrameStart t port, fun _ => rfl⟩
  | .txFrameEnd t port => ⟨runTxFrameEnd t port, fun _ => rfl⟩
  | .remoteLate t univ => ⟨runRemoteLate t univ, fun _ => rfl⟩
  | .discoverySend t ident => ⟨runDiscoverySend t ident, fun _ => rfl⟩
  | .siteTick t univ => ⟨runSiteTick t univ, fun _ => rfl⟩
  | .dmxBreak t line => ⟨runDmxBreak t line, fun _ => rfl⟩
  | .rdmRequestStart t line => ⟨runRdmRequestStart t line, fun _ => rfl⟩
  | .rdmResponseRx t line resp => ⟨runRdmResponseRx t line resp, fun _ => rfl⟩
  | .rdmTimeout t line => ⟨runRdmTimeout t line, fun _ => rfl⟩
  | .discoveryInterval t line => ⟨runDiscoveryInterval t line, fun _ => rfl⟩
  | .discGo t line value => ⟨runDiscGo t line value, fun _ => rfl⟩
  | .mailboxGo t line value => ⟨runMailboxGo t line value, fun _ => rfl⟩
  | .pxpFrameStart t port diag => ⟨runPxpFrameStart t port diag, fun _ => rfl⟩
  | .pxpFillDone t port => ⟨runPxpFillDone t port, fun _ => rfl⟩
  | .refreshStart t port diag => ⟨runRefreshStart t port diag, fun _ => rfl⟩
  | .diagMinOnWrite t port value => ⟨runDiagMinOnWrite t port value, fun _ => rfl⟩
  | .pinReadback t port mismatch => ⟨runPinReadback t port mismatch, fun _ => rfl⟩
  | .linkUp t port => ⟨runLinkUp t port, fun _ => rfl⟩
  | .linkDown t port => ⟨runLinkDown t port, fun _ => rfl⟩
  | .linkMismatch t port => ⟨runLinkMismatch t port, fun _ => rfl⟩
  | .anRestart t port value => ⟨runAnRestart t port value, fun _ => rfl⟩
  | .verifyRestart t port value => ⟨runVerifyRestart t port value, fun _ => rfl⟩
  | .pauseEnWrite t port value => ⟨runPauseEnWrite t port value, fun _ => rfl⟩
  | .verifyTimeout t port => ⟨runVerifyTimeout t port, fun _ => rfl⟩
  | .mpacketRx t port respond => ⟨runMpacketRx t port respond, fun _ => rfl⟩
  | .rxFrame t port frame => ⟨runRxFrame t port frame, fun _ => rfl⟩
  | .pauseEnd t port => ⟨runPauseEnd t port, fun _ => rfl⟩
  | .arpRequestRetry t port ip => ⟨runArpRequestRetry t port ip, fun _ => rfl⟩
  | .arpEntryRefresh t port ip => ⟨runArpEntryRefresh t port ip, fun _ => rfl⟩
  | .arpEntryExpiry t port ip => ⟨runArpEntryExpiry t port ip, fun _ => rfl⟩
  | .igmpReportSend t port group => ⟨runIgmpReportSend t port group, fun _ => rfl⟩
  | .snapGo t port value => ⟨runSnapGo t port value, fun _ => rfl⟩
  | .snapAll t value => ⟨runSnapAll t value, fun _ => rfl⟩
  | .cntLoRead t port ctr => ⟨runCntLoRead t port ctr, fun _ => rfl⟩
  | .refLost t => ⟨runRefLost t, fun _ => rfl⟩
  | .sref0Return t => ⟨runSref0Return t, fun _ => rfl⟩
  | .timLatch t value => ⟨runTimLatch t value, fun _ => rfl⟩
  | .ptpMessageRx t msg => ⟨runPtpMessageRx t msg, fun _ => rfl⟩
  | .ptpSyncSend t port dom => ⟨runPtpSyncSend t port dom, fun _ => rfl⟩
  | .ptpAnnounceSend t port dom => ⟨runPtpAnnounceSend t port dom, fun _ => rfl⟩
  | .ptpDelayReqSend t port dom => ⟨runPtpDelayReqSend t port dom, fun _ => rfl⟩
  | .holdoverEnter t dom => ⟨runHoldoverEnter t dom, fun _ => rfl⟩
  | .tickRefEdge t dom => ⟨runTickRefEdge t dom, fun _ => rfl⟩
  | .tickLost t dom => ⟨runTickLost t dom, fun _ => rfl⟩
  | .ppsOutPulse t => ⟨runPpsOutPulse t, fun _ => rfl⟩
  | .ltcFrame t j frame => ⟨runLtcFrame t j frame, fun _ => rfl⟩
  | .ltcLost t j => ⟨runLtcLost t j, fun _ => rfl⟩
  | .actionFired t act => ⟨runActionFired t act, fun _ => rfl⟩
  | .pulseEnd t act => ⟨runPulseEnd t act, fun _ => rfl⟩
  | .capture t input falling => ⟨runCapture t input falling, fun _ => rfl⟩
  | .capNsRead t input => ⟨runCapNsRead t input, fun _ => rfl⟩
  | .adcResult t volts => ⟨runAdcResult t volts, fun _ => rfl⟩
  | .telemetryDatagramRx t port ip bytes => ⟨runTelemetryDatagramRx t port ip bytes, fun _ => rfl⟩
  | .zoneCycle t z => ⟨runZoneCycle t z, fun _ => rfl⟩
  | .holdExpiry t z => ⟨runHoldExpiry t z, fun _ => rfl⟩
  | .zoneVacant t z => ⟨runZoneVacant t z, fun _ => rfl⟩
  | .valleySignalDetect t l => ⟨runValleySignalDetect t l, fun _ => rfl⟩
  | .valleyLinkLock t l => ⟨runValleyLinkLock t l, fun _ => rfl⟩
  | .valleyHelloRx t l hello => ⟨runValleyHelloRx t l hello, fun _ => rfl⟩
  | .linkControlSend t l => ⟨runLinkControlSend t l, fun _ => rfl⟩
  | .valleyLinkDown t l => ⟨runValleyLinkDown t l, fun _ => rfl⟩
  | .valleyPacketRx t l pkt => ⟨runValleyPacketRx t l pkt, fun _ => rfl⟩
  | .membershipUpdateSend t => ⟨runMembershipUpdateSend t, fun _ => rfl⟩
  | .memberLeave t uid => ⟨runMemberLeave t uid, fun _ => rfl⟩
  | .reroute t => ⟨runReroute t, fun _ => rfl⟩
  | .admitTimeout t => ⟨runAdmitTimeout t, fun _ => rfl⟩
  | .timePacketSend t dom => ⟨runTimePacketSend t dom, fun _ => rfl⟩
  | .linkDelayExchange t l t1 t2 t3 t4 => ⟨runLinkDelayExchange t l t1 t2 t3 t4, fun _ => rfl⟩
  | .relayRequestSend t => ⟨runRelayRequestSend t, fun _ => rfl⟩
  | .relayStall t l => ⟨runRelayStall t l, fun _ => rfl⟩
  | .heartbeatSend t => ⟨runHeartbeatSend t, fun _ => rfl⟩
  | .heartbeatRx t path word => ⟨runHeartbeatRx t path word, fun _ => rfl⟩
  | .heartbeatMiss t path => ⟨runHeartbeatMiss t path, fun _ => rfl⟩
  | .pathDegraded t path => ⟨runPathDegraded t path, fun _ => rfl⟩
  | .ilkBreath t low => ⟨runIlkBreath t low, fun _ => rfl⟩
  | .ilkLineClass t cls => ⟨runIlkLineClass t cls, fun _ => rfl⟩
  | .claimEvaluation t => ⟨runClaimEvaluation t, fun _ => rfl⟩
  | .claimRelease t => ⟨runClaimRelease t, fun _ => rfl⟩
  | .claimSample t high => ⟨runClaimSample t high, fun _ => rfl⟩
  | .witnessProbeTimeout t => ⟨runWitnessProbeTimeout t, fun _ => rfl⟩
  | .witnessAnswerTimeout t => ⟨runWitnessAnswerTimeout t, fun _ => rfl⟩
  | .checkpointTrailerRx t bytes => ⟨runCheckpointTrailerRx t bytes, fun _ => rfl⟩
  | .checkpointAckTimeout t => ⟨runCheckpointAckTimeout t, fun _ => rfl⟩
  | .handoverRelease t => ⟨runHandoverRelease t, fun _ => rfl⟩
  | .healthReport t fxpFail defects => ⟨runHealthReport t fxpFail defects, fun _ => rfl⟩
  | .fwCtrlGo t value => ⟨runFwCtrlGo t value, fun _ => rfl⟩
  | .loaderDatagramRx t ip port bytes => ⟨runLoaderDatagramRx t ip port bytes, fun _ => rfl⟩
  | .loaderHello t => ⟨runLoaderHello t, fun _ => rfl⟩
  | .loaderAck t => ⟨runLoaderAck t, fun _ => rfl⟩
  | .loaderSessionTimeout t => ⟨runLoaderSessionTimeout t, fun _ => rfl⟩
  | .revokeWrite t value => ⟨runRevokeWrite t value, fun _ => rfl⟩
  | .journalCopySector t readbackOk => ⟨runJournalCopySector t readbackOk, fun _ => rfl⟩
  | .converted t image => ⟨runConverted t image, fun _ => rfl⟩
  | .sessionExpired t => ⟨runSessionExpired t, fun _ => rfl⟩
  | .norTimeout t => ⟨runNorTimeout t, fun _ => rfl⟩
  | .persistentLogWrite t => ⟨runPersistentLogWrite t, fun _ => rfl⟩
  | .chkScanDone t n bad => ⟨runChkScanDone t n bad, fun _ => rfl⟩
  | .chkAbort t n value => ⟨runChkAbort t n value, fun _ => rfl⟩
  | .railRead t mvs => ⟨runRailRead t mvs, fun _ => rfl⟩
  | .tempReading t x => ⟨runTempReading t x, fun _ => rfl⟩
  | .extest t cells => ⟨runExtest t cells, fun _ => rfl⟩
  | .idcode t => ⟨runIdcode t, fun _ => rfl⟩
  | .samplePreload t cells => ⟨runSamplePreload t cells, fun _ => rfl⟩
  | .highz t => ⟨runHighz t, fun _ => rfl⟩
  | .clamp t => ⟨runClamp t, fun _ => rfl⟩
  | .fuseRead t => ⟨runFuseRead t, fun _ => rfl⟩
  | .bypass t => ⟨runBypass t, fun _ => rfl⟩
  | .pcieResetEnd t => ⟨runPcieResetEnd t, fun _ => rfl⟩
  | .norOperationDone t => ⟨runNorOperationDone t, fun _ => rfl⟩
  | .checkpointTick t => ⟨runCheckpointTick t, fun _ => rfl⟩
  | .valleyTimeHoldover t dom => ⟨runValleyTimeHoldover t dom, fun _ => rfl⟩
  | .scrubPassEnd t => ⟨runScrubPassEnd t, fun _ => rfl⟩
  | .partnerAdvertisementChange t port word => ⟨runPartnerAdvertisementChange t port word, fun _ => rfl⟩
  | .zoneHoldReset t z => ⟨runZoneHoldReset t z, fun _ => rfl⟩

theorem onDev_next {f : Dev → Host.Outcome Dev Fault Refusal} {s s' : State} (h : onDev f s = .next s') :
    f s.toDev = .next s'.toDev ∧ s'.pending = s.pending := by
  unfold onDev at h
  split at h
  · rename_i d hd
    cases h
    exact ⟨hd, rfl⟩
  · cases h
  · cases h

theorem onDev_eq {f : Dev → Host.Outcome Dev Fault Refusal} {s : State} {d : Dev} (h : f s.toDev = .next d) :
    onDev f s = .next { s with toDev := d } := by simp [onDev, h]

/-- A meaning leaves the queue as it is. -/
theorem exec_pending {c : Instr} {s s' : State} (h : exec c s = .next s') : s'.pending = s.pending := by
  obtain ⟨f, hf⟩ := exec_onDev c
  rw [hf] at h
  exact (onDev_next h).2

theorem step_empty {s : State} (h : s.pending = []) : step s = .next { s with toDev := idle s.toDev } := by simp [step, h]

theorem step_cons {s : State} {c : Instr} {r : List Instr} (h : s.pending = c :: r) : step s = exec c { s with pending := r } := by
  simp [step, h]

/-- A served command that answers DONE. -/
theorem row_answers {c : Instr} {s : State} {d e : Dev} {t : Time} {h : CmdHdr} {op : Nat} {x y : Word} {data : List Byte}
    {body : Dev → Dev × Reply} (hc : ∀ s, exec c s = onDev (row t h op x body) s) (hd : AtTime t s d) (hs : Served d h op x)
    (hb : body d = (e, done y data)) : Answers c s h op y data e := by
  unfold Answers Completes
  rw [hc, onDev_eq]
  unfold row command
  rw [← hd, if_pos hs.1, serve]
  simp [hs.2, hb, done]

/-- A served command that is turned away with a code. -/
theorem row_fails {c : Instr} {s : State} {d e : Dev} {t : Time} {h : CmdHdr} {op code : Nat} {x y : Word} {data : List Byte}
    {body : Dev → Dev × Reply} (hc : ∀ s, exec c s = onDev (row t h op x body) s) (hd : AtTime t s d) (hs : Served d h op x)
    (hb : body d = (e, .now code y data)) : Completes c s (complete h op code y data e) := by
  unfold Completes
  rw [hc, onDev_eq]
  unfold row command
  rw [← hd, if_pos hs.1, serve]
  simp [hs.2, hb]

/-- A served command that answers later. -/
theorem row_pends {c : Instr} {s : State} {d e : Dev} {t : Time} {h : CmdHdr} {op : Nat} {x : Word}
    {body : Dev → Dev × Reply} (hc : ∀ s, exec c s = onDev (row t h op x body) s) (hd : AtTime t s d) (hs : Served d h op x)
    (hb : body d = (e, .later)) : Pends c s h x e := by
  unfold Pends Completes
  rw [hc, onDev_eq]
  unfold row command
  rw [← hd, if_pos hs.1, serve]
  simp [hs.2, hb]

/-- A device that serves a command is not in RESET. -/
theorem Served.up {d : Dev} {h : CmdHdr} {op : Nat} {x : Word} (hs : Served d h op x) : d.sys.mode ≠ .reset := by
  intro e
  have := hs.1
  simp [cmdMayStart, cmdFree, cmdUp, e] at this

end Sys2Proof.Machine
end

