-- ==== Sys2Proof/Laws/State.lean ====
section
/-! SUPPORT. What the updates of the device leave as it is: one lemma for each field and update. -/

namespace Sys2Proof.Machine

@[simp] theorem upTo_free (t : Time) (s : Dev) : (upTo t s).free = s.free := (rfl)
@[simp] theorem upTo_out (t : Time) (s : Dev) : (upTo t s).out = s.out := (rfl)
@[simp] theorem upTo_regs (t : Time) (s : Dev) : (upTo t s).regs = s.regs := (rfl)
@[simp] theorem upTo_plain (t : Time) (s : Dev) : (upTo t s).plain = s.plain := (rfl)
@[simp] theorem upTo_nor (t : Time) (s : Dev) : (upTo t s).nor = s.nor := (rfl)
@[simp] theorem upTo_sys (t : Time) (s : Dev) : (upTo t s).sys = s.sys := (rfl)
@[simp] theorem upTo_hdl (t : Time) (s : Dev) : (upTo t s).hdl = s.hdl := (rfl)
@[simp] theorem upTo_pln (t : Time) (s : Dev) : (upTo t s).pln = s.pln := (rfl)
@[simp] theorem upTo_sch (t : Time) (s : Dev) : (upTo t s).sch = s.sch := (rfl)
@[simp] theorem upTo_que (t : Time) (s : Dev) : (upTo t s).que = s.que := (rfl)
@[simp] theorem upTo_tim (t : Time) (s : Dev) : (upTo t s).tim = s.tim := (rfl)
@[simp] theorem upTo_vid (t : Time) (s : Dev) : (upTo t s).vid = s.vid := (rfl)
@[simp] theorem upTo_outp (t : Time) (s : Dev) : (upTo t s).outp = s.outp := (rfl)
@[simp] theorem upTo_site (t : Time) (s : Dev) : (upTo t s).site = s.site := (rfl)
@[simp] theorem upTo_dmx (t : Time) (s : Dev) : (upTo t s).dmx = s.dmx := (rfl)
@[simp] theorem upTo_pxp (t : Time) (s : Dev) : (upTo t s).pxp = s.pxp := (rfl)
@[simp] theorem upTo_val (t : Time) (s : Dev) : (upTo t s).val = s.val := (rfl)
@[simp] theorem upTo_red (t : Time) (s : Dev) : (upTo t s).red = s.red := (rfl)
@[simp] theorem upTo_cmd (t : Time) (s : Dev) : (upTo t s).cmd = s.cmd := (rfl)
@[simp] theorem upTo_boot (t : Time) (s : Dev) : (upTo t s).boot = s.boot := (rfl)
@[simp] theorem upTo_upd (t : Time) (s : Dev) : (upTo t s).upd = s.upd := (rfl)
@[simp] theorem upTo_chk (t : Time) (s : Dev) : (upTo t s).chk = s.chk := (rfl)
@[simp] theorem upTo_cal (t : Time) (s : Dev) : (upTo t s).cal = s.cal := (rfl)
@[simp] theorem upTo_fuses (t : Time) (s : Dev) : (upTo t s).fuses = s.fuses := (rfl)
@[simp] theorem upTo_jtag (t : Time) (s : Dev) : (upTo t s).jtag = s.jtag := (rfl)

@[simp] theorem emit_raw (e : Emit) (s : Dev) : (emit e s).raw = s.raw := (rfl)
@[simp] theorem emit_free (e : Emit) (s : Dev) : (emit e s).free = s.free := (rfl)
@[simp] theorem emit_regs (e : Emit) (s : Dev) : (emit e s).regs = s.regs := (rfl)
@[simp] theorem emit_plain (e : Emit) (s : Dev) : (emit e s).plain = s.plain := (rfl)
@[simp] theorem emit_nor (e : Emit) (s : Dev) : (emit e s).nor = s.nor := (rfl)
@[simp] theorem emit_sys (e : Emit) (s : Dev) : (emit e s).sys = s.sys := (rfl)
@[simp] theorem emit_hdl (e : Emit) (s : Dev) : (emit e s).hdl = s.hdl := (rfl)
@[simp] theorem emit_pln (e : Emit) (s : Dev) : (emit e s).pln = s.pln := (rfl)
@[simp] theorem emit_sch (e : Emit) (s : Dev) : (emit e s).sch = s.sch := (rfl)
@[simp] theorem emit_que (e : Emit) (s : Dev) : (emit e s).que = s.que := (rfl)
@[simp] theorem emit_tim (e : Emit) (s : Dev) : (emit e s).tim = s.tim := (rfl)
@[simp] theorem emit_vid (e : Emit) (s : Dev) : (emit e s).vid = s.vid := (rfl)
@[simp] theorem emit_outp (e : Emit) (s : Dev) : (emit e s).outp = s.outp := (rfl)
@[simp] theorem emit_site (e : Emit) (s : Dev) : (emit e s).site = s.site := (rfl)
@[simp] theorem emit_dmx (e : Emit) (s : Dev) : (emit e s).dmx = s.dmx := (rfl)
@[simp] theorem emit_pxp (e : Emit) (s : Dev) : (emit e s).pxp = s.pxp := (rfl)
@[simp] theorem emit_val (e : Emit) (s : Dev) : (emit e s).val = s.val := (rfl)
@[simp] theorem emit_red (e : Emit) (s : Dev) : (emit e s).red = s.red := (rfl)
@[simp] theorem emit_cmd (e : Emit) (s : Dev) : (emit e s).cmd = s.cmd := (rfl)
@[simp] theorem emit_boot (e : Emit) (s : Dev) : (emit e s).boot = s.boot := (rfl)
@[simp] theorem emit_upd (e : Emit) (s : Dev) : (emit e s).upd = s.upd := (rfl)
@[simp] theorem emit_chk (e : Emit) (s : Dev) : (emit e s).chk = s.chk := (rfl)
@[simp] theorem emit_cal (e : Emit) (s : Dev) : (emit e s).cal = s.cal := (rfl)
@[simp] theorem emit_fuses (e : Emit) (s : Dev) : (emit e s).fuses = s.fuses := (rfl)
@[simp] theorem emit_jtag (e : Emit) (s : Dev) : (emit e s).jtag = s.jtag := (rfl)

@[simp] theorem drawn_raw (s : Dev) : (drawn s).raw = s.raw := (rfl)
@[simp] theorem drawn_out (s : Dev) : (drawn s).out = s.out := (rfl)
@[simp] theorem drawn_regs (s : Dev) : (drawn s).regs = s.regs := (rfl)
@[simp] theorem drawn_plain (s : Dev) : (drawn s).plain = s.plain := (rfl)
@[simp] theorem drawn_nor (s : Dev) : (drawn s).nor = s.nor := (rfl)
@[simp] theorem drawn_sys (s : Dev) : (drawn s).sys = s.sys := (rfl)
@[simp] theorem drawn_hdl (s : Dev) : (drawn s).hdl = s.hdl := (rfl)
@[simp] theorem drawn_pln (s : Dev) : (drawn s).pln = s.pln := (rfl)
@[simp] theorem drawn_sch (s : Dev) : (drawn s).sch = s.sch := (rfl)
@[simp] theorem drawn_que (s : Dev) : (drawn s).que = s.que := (rfl)
@[simp] theorem drawn_tim (s : Dev) : (drawn s).tim = s.tim := (rfl)
@[simp] theorem drawn_vid (s : Dev) : (drawn s).vid = s.vid := (rfl)
@[simp] theorem drawn_outp (s : Dev) : (drawn s).outp = s.outp := (rfl)
@[simp] theorem drawn_site (s : Dev) : (drawn s).site = s.site := (rfl)
@[simp] theorem drawn_dmx (s : Dev) : (drawn s).dmx = s.dmx := (rfl)
@[simp] theorem drawn_pxp (s : Dev) : (drawn s).pxp = s.pxp := (rfl)
@[simp] theorem drawn_val (s : Dev) : (drawn s).val = s.val := (rfl)
@[simp] theorem drawn_red (s : Dev) : (drawn s).red = s.red := (rfl)
@[simp] theorem drawn_cmd (s : Dev) : (drawn s).cmd = s.cmd := (rfl)
@[simp] theorem drawn_boot (s : Dev) : (drawn s).boot = s.boot := (rfl)
@[simp] theorem drawn_upd (s : Dev) : (drawn s).upd = s.upd := (rfl)
@[simp] theorem drawn_chk (s : Dev) : (drawn s).chk = s.chk := (rfl)
@[simp] theorem drawn_cal (s : Dev) : (drawn s).cal = s.cal := (rfl)
@[simp] theorem drawn_fuses (s : Dev) : (drawn s).fuses = s.fuses := (rfl)
@[simp] theorem drawn_jtag (s : Dev) : (drawn s).jtag = s.jtag := (rfl)

@[simp] theorem setRg_raw (o : Nat) (v : Word) (s : Dev) : (setRg o v s).raw = s.raw := (rfl)
@[simp] theorem setRg_free (o : Nat) (v : Word) (s : Dev) : (setRg o v s).free = s.free := (rfl)
@[simp] theorem setRg_out (o : Nat) (v : Word) (s : Dev) : (setRg o v s).out = s.out := (rfl)
@[simp] theorem setRg_plain (o : Nat) (v : Word) (s : Dev) : (setRg o v s).plain = s.plain := (rfl)
@[simp] theorem setRg_nor (o : Nat) (v : Word) (s : Dev) : (setRg o v s).nor = s.nor := (rfl)
@[simp] theorem setRg_sys (o : Nat) (v : Word) (s : Dev) : (setRg o v s).sys = s.sys := (rfl)
@[simp] theorem setRg_hdl (o : Nat) (v : Word) (s : Dev) : (setRg o v s).hdl = s.hdl := (rfl)
@[simp] theorem setRg_pln (o : Nat) (v : Word) (s : Dev) : (setRg o v s).pln = s.pln := (rfl)
@[simp] theorem setRg_sch (o : Nat) (v : Word) (s : Dev) : (setRg o v s).sch = s.sch := (rfl)
@[simp] theorem setRg_que (o : Nat) (v : Word) (s : Dev) : (setRg o v s).que = s.que := (rfl)
@[simp] theorem setRg_tim (o : Nat) (v : Word) (s : Dev) : (setRg o v s).tim = s.tim := (rfl)
@[simp] theorem setRg_vid (o : Nat) (v : Word) (s : Dev) : (setRg o v s).vid = s.vid := (rfl)
@[simp] theorem setRg_outp (o : Nat) (v : Word) (s : Dev) : (setRg o v s).outp = s.outp := (rfl)
@[simp] theorem setRg_site (o : Nat) (v : Word) (s : Dev) : (setRg o v s).site = s.site := (rfl)
@[simp] theorem setRg_dmx (o : Nat) (v : Word) (s : Dev) : (setRg o v s).dmx = s.dmx := (rfl)
@[simp] theorem setRg_pxp (o : Nat) (v : Word) (s : Dev) : (setRg o v s).pxp = s.pxp := (rfl)
@[simp] theorem setRg_val (o : Nat) (v : Word) (s : Dev) : (setRg o v s).val = s.val := (rfl)
@[simp] theorem setRg_red (o : Nat) (v : Word) (s : Dev) : (setRg o v s).red = s.red := (rfl)
@[simp] theorem setRg_cmd (o : Nat) (v : Word) (s : Dev) : (setRg o v s).cmd = s.cmd := (rfl)
@[simp] theorem setRg_boot (o : Nat) (v : Word) (s : Dev) : (setRg o v s).boot = s.boot := (rfl)
@[simp] theorem setRg_upd (o : Nat) (v : Word) (s : Dev) : (setRg o v s).upd = s.upd := (rfl)
@[simp] theorem setRg_chk (o : Nat) (v : Word) (s : Dev) : (setRg o v s).chk = s.chk := (rfl)
@[simp] theorem setRg_cal (o : Nat) (v : Word) (s : Dev) : (setRg o v s).cal = s.cal := (rfl)
@[simp] theorem setRg_fuses (o : Nat) (v : Word) (s : Dev) : (setRg o v s).fuses = s.fuses := (rfl)
@[simp] theorem setRg_jtag (o : Nat) (v : Word) (s : Dev) : (setRg o v s).jtag = s.jtag := (rfl)

@[simp] theorem setFld_raw (f : Fld) (v : Nat) (s : Dev) : (setFld f v s).raw = s.raw := (rfl)
@[simp] theorem setFld_free (f : Fld) (v : Nat) (s : Dev) : (setFld f v s).free = s.free := (rfl)
@[simp] theorem setFld_out (f : Fld) (v : Nat) (s : Dev) : (setFld f v s).out = s.out := (rfl)
@[simp] theorem setFld_plain (f : Fld) (v : Nat) (s : Dev) : (setFld f v s).plain = s.plain := (rfl)
@[simp] theorem setFld_nor (f : Fld) (v : Nat) (s : Dev) : (setFld f v s).nor = s.nor := (rfl)
@[simp] theorem setFld_sys (f : Fld) (v : Nat) (s : Dev) : (setFld f v s).sys = s.sys := (rfl)
@[simp] theorem setFld_hdl (f : Fld) (v : Nat) (s : Dev) : (setFld f v s).hdl = s.hdl := (rfl)
@[simp] theorem setFld_pln (f : Fld) (v : Nat) (s : Dev) : (setFld f v s).pln = s.pln := (rfl)
@[simp] theorem setFld_sch (f : Fld) (v : Nat) (s : Dev) : (setFld f v s).sch = s.sch := (rfl)
@[simp] theorem setFld_que (f : Fld) (v : Nat) (s : Dev) : (setFld f v s).que = s.que := (rfl)
@[simp] theorem setFld_tim (f : Fld) (v : Nat) (s : Dev) : (setFld f v s).tim = s.tim := (rfl)
@[simp] theorem setFld_vid (f : Fld) (v : Nat) (s : Dev) : (setFld f v s).vid = s.vid := (rfl)
@[simp] theorem setFld_outp (f : Fld) (v : Nat) (s : Dev) : (setFld f v s).outp = s.outp := (rfl)
@[simp] theorem setFld_site (f : Fld) (v : Nat) (s : Dev) : (setFld f v s).site = s.site := (rfl)
@[simp] theorem setFld_dmx (f : Fld) (v : Nat) (s : Dev) : (setFld f v s).dmx = s.dmx := (rfl)
@[simp] theorem setFld_pxp (f : Fld) (v : Nat) (s : Dev) : (setFld f v s).pxp = s.pxp := (rfl)
@[simp] theorem setFld_val (f : Fld) (v : Nat) (s : Dev) : (setFld f v s).val = s.val := (rfl)
@[simp] theorem setFld_red (f : Fld) (v : Nat) (s : Dev) : (setFld f v s).red = s.red := (rfl)
@[simp] theorem setFld_cmd (f : Fld) (v : Nat) (s : Dev) : (setFld f v s).cmd = s.cmd := (rfl)
@[simp] theorem setFld_boot (f : Fld) (v : Nat) (s : Dev) : (setFld f v s).boot = s.boot := (rfl)
@[simp] theorem setFld_upd (f : Fld) (v : Nat) (s : Dev) : (setFld f v s).upd = s.upd := (rfl)
@[simp] theorem setFld_chk (f : Fld) (v : Nat) (s : Dev) : (setFld f v s).chk = s.chk := (rfl)
@[simp] theorem setFld_cal (f : Fld) (v : Nat) (s : Dev) : (setFld f v s).cal = s.cal := (rfl)
@[simp] theorem setFld_fuses (f : Fld) (v : Nat) (s : Dev) : (setFld f v s).fuses = s.fuses := (rfl)
@[simp] theorem setFld_jtag (f : Fld) (v : Nat) (s : Dev) : (setFld f v s).jtag = s.jtag := (rfl)

@[simp] theorem setBit_raw (f : Fld) (b : Bool) (s : Dev) : (setBit f b s).raw = s.raw := (rfl)
@[simp] theorem setBit_free (f : Fld) (b : Bool) (s : Dev) : (setBit f b s).free = s.free := (rfl)
@[simp] theorem setBit_out (f : Fld) (b : Bool) (s : Dev) : (setBit f b s).out = s.out := (rfl)
@[simp] theorem setBit_plain (f : Fld) (b : Bool) (s : Dev) : (setBit f b s).plain = s.plain := (rfl)
@[simp] theorem setBit_nor (f : Fld) (b : Bool) (s : Dev) : (setBit f b s).nor = s.nor := (rfl)
@[simp] theorem setBit_sys (f : Fld) (b : Bool) (s : Dev) : (setBit f b s).sys = s.sys := (rfl)
@[simp] theorem setBit_hdl (f : Fld) (b : Bool) (s : Dev) : (setBit f b s).hdl = s.hdl := (rfl)
@[simp] theorem setBit_pln (f : Fld) (b : Bool) (s : Dev) : (setBit f b s).pln = s.pln := (rfl)
@[simp] theorem setBit_sch (f : Fld) (b : Bool) (s : Dev) : (setBit f b s).sch = s.sch := (rfl)
@[simp] theorem setBit_que (f : Fld) (b : Bool) (s : Dev) : (setBit f b s).que = s.que := (rfl)
@[simp] theorem setBit_tim (f : Fld) (b : Bool) (s : Dev) : (setBit f b s).tim = s.tim := (rfl)
@[simp] theorem setBit_vid (f : Fld) (b : Bool) (s : Dev) : (setBit f b s).vid = s.vid := (rfl)
@[simp] theorem setBit_outp (f : Fld) (b : Bool) (s : Dev) : (setBit f b s).outp = s.outp := (rfl)
@[simp] theorem setBit_site (f : Fld) (b : Bool) (s : Dev) : (setBit f b s).site = s.site := (rfl)
@[simp] theorem setBit_dmx (f : Fld) (b : Bool) (s : Dev) : (setBit f b s).dmx = s.dmx := (rfl)
@[simp] theorem setBit_pxp (f : Fld) (b : Bool) (s : Dev) : (setBit f b s).pxp = s.pxp := (rfl)
@[simp] theorem setBit_val (f : Fld) (b : Bool) (s : Dev) : (setBit f b s).val = s.val := (rfl)
@[simp] theorem setBit_red (f : Fld) (b : Bool) (s : Dev) : (setBit f b s).red = s.red := (rfl)
@[simp] theorem setBit_cmd (f : Fld) (b : Bool) (s : Dev) : (setBit f b s).cmd = s.cmd := (rfl)
@[simp] theorem setBit_boot (f : Fld) (b : Bool) (s : Dev) : (setBit f b s).boot = s.boot := (rfl)
@[simp] theorem setBit_upd (f : Fld) (b : Bool) (s : Dev) : (setBit f b s).upd = s.upd := (rfl)
@[simp] theorem setBit_chk (f : Fld) (b : Bool) (s : Dev) : (setBit f b s).chk = s.chk := (rfl)
@[simp] theorem setBit_cal (f : Fld) (b : Bool) (s : Dev) : (setBit f b s).cal = s.cal := (rfl)
@[simp] theorem setBit_fuses (f : Fld) (b : Bool) (s : Dev) : (setBit f b s).fuses = s.fuses := (rfl)
@[simp] theorem setBit_jtag (f : Fld) (b : Bool) (s : Dev) : (setBit f b s).jtag = s.jtag := (rfl)

@[simp] theorem bumpBy_raw (o n : Nat) (s : Dev) : (bumpBy o n s).raw = s.raw := (rfl)
@[simp] theorem bumpBy_free (o n : Nat) (s : Dev) : (bumpBy o n s).free = s.free := (rfl)
@[simp] theorem bumpBy_out (o n : Nat) (s : Dev) : (bumpBy o n s).out = s.out := (rfl)
@[simp] theorem bumpBy_plain (o n : Nat) (s : Dev) : (bumpBy o n s).plain = s.plain := (rfl)
@[simp] theorem bumpBy_nor (o n : Nat) (s : Dev) : (bumpBy o n s).nor = s.nor := (rfl)
@[simp] theorem bumpBy_sys (o n : Nat) (s : Dev) : (bumpBy o n s).sys = s.sys := (rfl)
@[simp] theorem bumpBy_hdl (o n : Nat) (s : Dev) : (bumpBy o n s).hdl = s.hdl := (rfl)
@[simp] theorem bumpBy_pln (o n : Nat) (s : Dev) : (bumpBy o n s).pln = s.pln := (rfl)
@[simp] theorem bumpBy_sch (o n : Nat) (s : Dev) : (bumpBy o n s).sch = s.sch := (rfl)
@[simp] theorem bumpBy_que (o n : Nat) (s : Dev) : (bumpBy o n s).que = s.que := (rfl)
@[simp] theorem bumpBy_tim (o n : Nat) (s : Dev) : (bumpBy o n s).tim = s.tim := (rfl)
@[simp] theorem bumpBy_vid (o n : Nat) (s : Dev) : (bumpBy o n s).vid = s.vid := (rfl)
@[simp] theorem bumpBy_outp (o n : Nat) (s : Dev) : (bumpBy o n s).outp = s.outp := (rfl)
@[simp] theorem bumpBy_site (o n : Nat) (s : Dev) : (bumpBy o n s).site = s.site := (rfl)
@[simp] theorem bumpBy_dmx (o n : Nat) (s : Dev) : (bumpBy o n s).dmx = s.dmx := (rfl)
@[simp] theorem bumpBy_pxp (o n : Nat) (s : Dev) : (bumpBy o n s).pxp = s.pxp := (rfl)
@[simp] theorem bumpBy_val (o n : Nat) (s : Dev) : (bumpBy o n s).val = s.val := (rfl)
@[simp] theorem bumpBy_red (o n : Nat) (s : Dev) : (bumpBy o n s).red = s.red := (rfl)
@[simp] theorem bumpBy_cmd (o n : Nat) (s : Dev) : (bumpBy o n s).cmd = s.cmd := (rfl)
@[simp] theorem bumpBy_boot (o n : Nat) (s : Dev) : (bumpBy o n s).boot = s.boot := (rfl)
@[simp] theorem bumpBy_upd (o n : Nat) (s : Dev) : (bumpBy o n s).upd = s.upd := (rfl)
@[simp] theorem bumpBy_chk (o n : Nat) (s : Dev) : (bumpBy o n s).chk = s.chk := (rfl)
@[simp] theorem bumpBy_cal (o n : Nat) (s : Dev) : (bumpBy o n s).cal = s.cal := (rfl)
@[simp] theorem bumpBy_fuses (o n : Nat) (s : Dev) : (bumpBy o n s).fuses = s.fuses := (rfl)
@[simp] theorem bumpBy_jtag (o n : Nat) (s : Dev) : (bumpBy o n s).jtag = s.jtag := (rfl)

@[simp] theorem bump_raw (o : Nat) (s : Dev) : (bump o s).raw = s.raw := (rfl)
@[simp] theorem bump_free (o : Nat) (s : Dev) : (bump o s).free = s.free := (rfl)
@[simp] theorem bump_out (o : Nat) (s : Dev) : (bump o s).out = s.out := (rfl)
@[simp] theorem bump_plain (o : Nat) (s : Dev) : (bump o s).plain = s.plain := (rfl)
@[simp] theorem bump_nor (o : Nat) (s : Dev) : (bump o s).nor = s.nor := (rfl)
@[simp] theorem bump_sys (o : Nat) (s : Dev) : (bump o s).sys = s.sys := (rfl)
@[simp] theorem bump_hdl (o : Nat) (s : Dev) : (bump o s).hdl = s.hdl := (rfl)
@[simp] theorem bump_pln (o : Nat) (s : Dev) : (bump o s).pln = s.pln := (rfl)
@[simp] theorem bump_sch (o : Nat) (s : Dev) : (bump o s).sch = s.sch := (rfl)
@[simp] theorem bump_que (o : Nat) (s : Dev) : (bump o s).que = s.que := (rfl)
@[simp] theorem bump_tim (o : Nat) (s : Dev) : (bump o s).tim = s.tim := (rfl)
@[simp] theorem bump_vid (o : Nat) (s : Dev) : (bump o s).vid = s.vid := (rfl)
@[simp] theorem bump_outp (o : Nat) (s : Dev) : (bump o s).outp = s.outp := (rfl)
@[simp] theorem bump_site (o : Nat) (s : Dev) : (bump o s).site = s.site := (rfl)
@[simp] theorem bump_dmx (o : Nat) (s : Dev) : (bump o s).dmx = s.dmx := (rfl)
@[simp] theorem bump_pxp (o : Nat) (s : Dev) : (bump o s).pxp = s.pxp := (rfl)
@[simp] theorem bump_val (o : Nat) (s : Dev) : (bump o s).val = s.val := (rfl)
@[simp] theorem bump_red (o : Nat) (s : Dev) : (bump o s).red = s.red := (rfl)
@[simp] theorem bump_cmd (o : Nat) (s : Dev) : (bump o s).cmd = s.cmd := (rfl)
@[simp] theorem bump_boot (o : Nat) (s : Dev) : (bump o s).boot = s.boot := (rfl)
@[simp] theorem bump_upd (o : Nat) (s : Dev) : (bump o s).upd = s.upd := (rfl)
@[simp] theorem bump_chk (o : Nat) (s : Dev) : (bump o s).chk = s.chk := (rfl)
@[simp] theorem bump_cal (o : Nat) (s : Dev) : (bump o s).cal = s.cal := (rfl)
@[simp] theorem bump_fuses (o : Nat) (s : Dev) : (bump o s).fuses = s.fuses := (rfl)
@[simp] theorem bump_jtag (o : Nat) (s : Dev) : (bump o s).jtag = s.jtag := (rfl)

@[simp] theorem bumpFld_raw (f : Fld) (s : Dev) : (bumpFld f s).raw = s.raw := (rfl)
@[simp] theorem bumpFld_free (f : Fld) (s : Dev) : (bumpFld f s).free = s.free := (rfl)
@[simp] theorem bumpFld_out (f : Fld) (s : Dev) : (bumpFld f s).out = s.out := (rfl)
@[simp] theorem bumpFld_plain (f : Fld) (s : Dev) : (bumpFld f s).plain = s.plain := (rfl)
@[simp] theorem bumpFld_nor (f : Fld) (s : Dev) : (bumpFld f s).nor = s.nor := (rfl)
@[simp] theorem bumpFld_sys (f : Fld) (s : Dev) : (bumpFld f s).sys = s.sys := (rfl)
@[simp] theorem bumpFld_hdl (f : Fld) (s : Dev) : (bumpFld f s).hdl = s.hdl := (rfl)
@[simp] theorem bumpFld_pln (f : Fld) (s : Dev) : (bumpFld f s).pln = s.pln := (rfl)
@[simp] theorem bumpFld_sch (f : Fld) (s : Dev) : (bumpFld f s).sch = s.sch := (rfl)
@[simp] theorem bumpFld_que (f : Fld) (s : Dev) : (bumpFld f s).que = s.que := (rfl)
@[simp] theorem bumpFld_tim (f : Fld) (s : Dev) : (bumpFld f s).tim = s.tim := (rfl)
@[simp] theorem bumpFld_vid (f : Fld) (s : Dev) : (bumpFld f s).vid = s.vid := (rfl)
@[simp] theorem bumpFld_outp (f : Fld) (s : Dev) : (bumpFld f s).outp = s.outp := (rfl)
@[simp] theorem bumpFld_site (f : Fld) (s : Dev) : (bumpFld f s).site = s.site := (rfl)
@[simp] theorem bumpFld_dmx (f : Fld) (s : Dev) : (bumpFld f s).dmx = s.dmx := (rfl)
@[simp] theorem bumpFld_pxp (f : Fld) (s : Dev) : (bumpFld f s).pxp = s.pxp := (rfl)
@[simp] theorem bumpFld_val (f : Fld) (s : Dev) : (bumpFld f s).val = s.val := (rfl)
@[simp] theorem bumpFld_red (f : Fld) (s : Dev) : (bumpFld f s).red = s.red := (rfl)
@[simp] theorem bumpFld_cmd (f : Fld) (s : Dev) : (bumpFld f s).cmd = s.cmd := (rfl)
@[simp] theorem bumpFld_boot (f : Fld) (s : Dev) : (bumpFld f s).boot = s.boot := (rfl)
@[simp] theorem bumpFld_upd (f : Fld) (s : Dev) : (bumpFld f s).upd = s.upd := (rfl)
@[simp] theorem bumpFld_chk (f : Fld) (s : Dev) : (bumpFld f s).chk = s.chk := (rfl)
@[simp] theorem bumpFld_cal (f : Fld) (s : Dev) : (bumpFld f s).cal = s.cal := (rfl)
@[simp] theorem bumpFld_fuses (f : Fld) (s : Dev) : (bumpFld f s).fuses = s.fuses := (rfl)
@[simp] theorem bumpFld_jtag (f : Fld) (s : Dev) : (bumpFld f s).jtag = s.jtag := (rfl)

@[simp] theorem upTo_raw (t : Time) (s : Dev) : (upTo t s).raw = max s.raw t := (rfl)
@[simp] theorem emit_out (e : Emit) (s : Dev) : (emit e s).out = e :: s.out := (rfl)
@[simp] theorem drawn_free (s : Dev) : (drawn s).free = s.free + 1 := (rfl)

/-- Time that has already reached an instant stays as it is. -/
theorem upTo_of_le {t : Time} {s : Dev} (h : t ≤ s.raw) : upTo t s = s := by simp [upTo, Nat.max_eq_left h]

end Sys2Proof.Machine
end

