-- ==== Sys2Proof/Laws/Tbl.lean ====
section
/-! SUPPORT. What tables and memories do: a read after a write, and that every operation keeps the canonical form. -/

namespace Sys2Proof.Machine

variable {α : Type}

@[simp] theorem tget_nil (k : Nat) : tget ([] : Tbl α) k = none := rfl

@[simp] theorem tget_tput_self (m : Tbl α) (k : Nat) (v : α) : tget (tput m k v) k = some v := by
  induction m with
  | nil => simp [tput, tget]
  | cons e r ih =>
    obtain ⟨a, x⟩ := e
    simp only [tput]
    split
    · simp [tget]
    · split
      · simp [tget]
      · rename_i h; simp [tget, h, ih]

theorem tget_tput_ne (m : Tbl α) {k j : Nat} (v : α) (h : j ≠ k) : tget (tput m k v) j = tget m j := by
  induction m with
  | nil => simp [tput, tget, h]
  | cons e r ih =>
    obtain ⟨a, x⟩ := e
    simp only [tput]
    split
    · simp [tget, h]
    · split
      · rename_i h2; subst h2; simp [tget, h]
      · simp only [tget, ih]

theorem tdel_cons (m : Tbl α) (e : Nat × α) (k : Nat) :
    tdel (e :: m) k = if e.1 = k then tdel m k else e :: tdel m k := by
  by_cases h : e.1 = k <;> simp [tdel, List.filter_cons, h]

@[simp] theorem tget_tdel_self (m : Tbl α) (k : Nat) : tget (tdel m k) k = none := by
  induction m with
  | nil => rfl
  | cons e r ih =>
    rw [tdel_cons]
    split
    · exact ih
    · rename_i h; simp only [tget]; rw [if_neg (fun x => h x.symm)]; exact ih

theorem tget_tdel_ne (m : Tbl α) {k j : Nat} (h : j ≠ k) : tget (tdel m k) j = tget m j := by
  induction m with
  | nil => rfl
  | cons e r ih =>
    rw [tdel_cons]
    split
    · rename_i h2; obtain ⟨a, x⟩ := e; simp only at h2; subst h2; simp [tget, h, ih]
    · obtain ⟨a, x⟩ := e; simp only [tget, ih]

@[simp] theorem mget_mput_self (d : Byte) (m : Mem) (a : Nat) (v : Byte) : mget d (mput d m a v) a = v := by
  unfold mget mput
  split
  · rename_i h; simp [h]
  · simp

theorem mget_mput_ne (d : Byte) (m : Mem) {a b : Nat} (v : Byte) (h : b ≠ a) :
    mget d (mput d m a v) b = mget d m b := by
  unfold mget mput
  split
  · rw [tget_tdel_ne m h]
  · rw [tget_tput_ne m v h]

theorem sortedKeys_iff (m : Tbl α) : sortedKeys m = true ↔ m.Pairwise (fun a b => a.1 < b.1) := by
  induction m with
  | nil => simp [sortedKeys]
  | cons e r ih =>
    cases r with
    | nil => simp [sortedKeys]
    | cons f r =>
      simp only [sortedKeys, Bool.and_eq_true, decide_eq_true_eq, ih, List.pairwise_cons]
      constructor
      · rintro ⟨h1, h2, h3⟩
        refine ⟨?_, h2, h3⟩
        intro g hg
        rcases List.mem_cons.mp hg with rfl | hg
        · exact h1
        · exact lt_trans h1 (h2 g hg)
      · rintro ⟨h1, h2, h3⟩
        exact ⟨h1 f (by simp), h2, h3⟩

theorem mem_tput {m : Tbl α} {k : Nat} {v : α} {e : Nat × α} (h : e ∈ tput m k v) : e = (k, v) ∨ e ∈ m := by
  induction m with
  | nil => simpa [tput] using h
  | cons f r ih =>
    obtain ⟨a, x⟩ := f
    simp only [tput] at h
    split at h
    · simpa using h
    · split at h
      · rcases List.mem_cons.mp h with h | h
        · exact .inl h
        · exact .inr (by simp [h])
      · rcases List.mem_cons.mp h with h | h
        · exact .inr (by simp [h])
        · rcases ih h with h | h
          · exact .inl h
          · exact .inr (by simp [h])

theorem sortedKeys_tput {m : Tbl α} (k : Nat) (v : α) (h : sortedKeys m = true) : sortedKeys (tput m k v) = true := by
  rw [sortedKeys_iff] at *
  induction m with
  | nil => simp [tput]
  | cons f r ih =>
    obtain ⟨a, x⟩ := f
    have h0 := List.pairwise_cons.mp h
    simp only [tput]
    split
    · rename_i hk
      refine List.pairwise_cons.mpr ⟨?_, h⟩
      intro e he
      rcases List.mem_cons.mp he with rfl | he
      · exact hk
      · exact lt_trans hk (h0.1 e he)
    · split
      · rename_i hk
        subst hk
        exact List.pairwise_cons.mpr ⟨h0.1, h0.2⟩
      · refine List.pairwise_cons.mpr ⟨?_, ih h0.2⟩
        intro e he
        rcases mem_tput he with rfl | he
        · simp only; omega
        · exact h0.1 e he

theorem sortedKeys_tdel {m : Tbl α} (k : Nat) (h : sortedKeys m = true) : sortedKeys (tdel m k) = true := by
  rw [sortedKeys_iff] at *
  exact h.sublist List.filter_sublist

/-- Writing one byte keeps a memory canonical. -/
theorem wf_mput (d : Byte) (m : Mem) (a : Nat) (v : Byte) (h : Mem.wf d m = true) : Mem.wf d (mput d m a v) = true := by
  simp only [Mem.wf, Bool.and_eq_true, List.all_eq_true, bne_iff_ne] at *
  unfold mput
  split
  · refine ⟨sortedKeys_tdel a h.1, ?_⟩
    intro e he
    exact h.2 e (List.mem_of_mem_filter he)
  · rename_i hv
    refine ⟨sortedKeys_tput a v h.1, ?_⟩
    intro e he
    rcases mem_tput he with rfl | he
    · exact hv
    · exact h.2 e he

/-- Writing a run of bytes keeps a memory canonical. -/
theorem wf_mputs (d : Byte) (bs : List Byte) : ∀ (m : Mem) (a : Nat), Mem.wf d m = true →
    Mem.wf d (mputs d m a bs) = true := by
  induction bs with
  | nil => intro m a h; exact h
  | cons b r ih => intro m a h; exact ih _ _ (wf_mput d m a b h)

/-- A byte outside the run written reads as before. -/
theorem mget_mputs_out (d : Byte) (bs : List Byte) : ∀ (m : Mem) (a b : Nat), (b < a ∨ a + bs.length ≤ b) →
    mget d (mputs d m a bs) b = mget d m b := by
  induction bs with
  | nil => intro m a b _; rfl
  | cons x r ih =>
    intro m a b h
    simp only [List.length_cons] at h
    rw [mputs, ih _ _ _ (by omega), mget_mput_ne d m x (by omega)]

/-- A byte of the run written reads as the byte written. -/
theorem mget_mputs_in (d : Byte) (bs : List Byte) : ∀ (m : Mem) (a i : Nat) (hi : i < bs.length),
    mget d (mputs d m a bs) (a + i) = bs[i] := by
  induction bs with
  | nil => intro m a i hi; simp at hi
  | cons x r ih =>
    intro m a i hi
    cases i with
    | zero => rw [mputs, mget_mputs_out d r _ _ _ (by omega)]; simp
    | succ j =>
      have := ih (mput d m a x) (a + 1) j (by simpa using hi)
      rw [mputs, show a + (j + 1) = a + 1 + j by omega, this]; simp

end Sys2Proof.Machine
end

