-- ==== Sys2Proof/Laws/Regs.lean ====
section
/-! SUPPORT. The register table: a read after a write, of a register and of a field. -/

namespace Sys2Proof.Machine

/-- A field lies inside its 32-bit register. -/
abbrev Fld.Fits (f : Fld) : Prop := f.lo + f.len ≤ 32

theorem rg_setRg_self (o : Nat) (v : Word) (s : Dev) : rg (setRg o v s) o = v := by
  unfold rg setRg
  by_cases h : v = resetWord o
  · simp [h]
  · simp [h]

theorem rg_setRg_ne {o p : Nat} (v : Word) (s : Dev) (h : p ≠ o) : rg (setRg o v s) p = rg s p := by
  unfold rg setRg
  by_cases hv : v = resetWord o
  · simp [hv, tget_tdel_ne _ h]
  · simp [hv, tget_tput_ne _ _ h]

theorem rg_setFld_ne (f : Fld) (v : Nat) (s : Dev) {o : Nat} (h : o ≠ f.off) : rg (setFld f v s) o = rg s o := rg_setRg_ne _ _ h

theorem rg_setBit_ne (f : Fld) (b : Bool) (s : Dev) {o : Nat} (h : o ≠ f.off) : rg (setBit f b s) o = rg s o := rg_setRg_ne _ _ h

theorem rg_congr {a b : Dev} (h : a.regs = b.regs) (o : Nat) : rg a o = rg b o := by
  unfold rg
  rw [h]

theorem fld_congr {a b : Dev} (h : a.regs = b.regs) (f : Fld) : fld a f = fld b f := by
  unfold fld
  rw [rg_congr h]

theorem bitOf_congr {a b : Dev} (h : a.regs = b.regs) (f : Fld) : bitOf a f = bitOf b f := by
  unfold bitOf
  rw [fld_congr h]

theorem Fld.of_into (f : Fld) (w : Word) (v : Nat) (h : f.Fits) : f.of (f.into w v) = v % 2 ^ f.len := by
  apply Nat.eq_of_testBit_eq
  intro i
  simp only [Fld.of, Fld.into, Nat.testBit_mod_two_pow, Nat.testBit_div_two_pow]
  by_cases hi : i < f.len
  · have : i + f.lo < 32 := by omega
    have e : i + f.lo - f.lo = i := by omega
    simp only [BitVec.testBit_toNat, BitVec.getLsbD_or, BitVec.getLsbD_and, BitVec.getLsbD_not, BitVec.getLsbD_ofNat, Nat.testBit_mul_two_pow,
      Nat.testBit_two_pow_sub_one, hi, this, e, Nat.le_add_left, decide_true, Bool.true_and, Bool.and_true, Bool.not_true, Bool.and_false,
      Bool.false_or]
  · simp [hi]

theorem Fld.of_into_disjoint (f g : Fld) (w : Word) (v : Nat) (hg : g.Fits) (h : f.lo + f.len ≤ g.lo ∨ g.lo + g.len ≤ f.lo) :
    g.of (f.into w v) = g.of w := by
  apply Nat.eq_of_testBit_eq
  intro i
  simp only [Fld.of, Fld.into, Nat.testBit_mod_two_pow, Nat.testBit_div_two_pow]
  by_cases hi : i < g.len
  · have h32 : i + g.lo < 32 := by omega
    have e : (BitVec.ofNat 32 ((2 ^ f.len - 1) * 2 ^ f.lo)).getLsbD (i + g.lo) = false := by
      rw [BitVec.getLsbD_ofNat, Nat.testBit_mul_two_pow, Nat.testBit_two_pow_sub_one]
      rcases h with h | h
      · have : ¬ i + g.lo - f.lo < f.len := by omega
        simp [this]
      · have : ¬ f.lo ≤ i + g.lo := by omega
        simp [this]
    simp only [BitVec.testBit_toNat, BitVec.getLsbD_or, BitVec.getLsbD_and, BitVec.getLsbD_not, h32, e, decide_true, Bool.not_false, Bool.and_true,
      Bool.and_false, Bool.or_false]
  · simp [hi]

theorem fld_setFld_self (f : Fld) (v : Nat) (s : Dev) (h : f.Fits) : fld (setFld f v s) f = v % 2 ^ f.len := by
  simp [fld, setFld, rg_setRg_self, Fld.of_into f _ v h]

theorem fld_setFld_off (f g : Fld) (v : Nat) (s : Dev) (h : g.off ≠ f.off) : fld (setFld f v s) g = fld s g := by
  simp [fld, setFld, rg_setRg_ne _ _ h]

theorem fld_setFld_disjoint (f g : Fld) (v : Nat) (s : Dev) (hg : g.Fits) (h : f.lo + f.len ≤ g.lo ∨ g.lo + g.len ≤ f.lo) :
    fld (setFld f v s) g = fld s g := by
  by_cases ho : g.off = f.off
  · simp [fld, setFld, ho, rg_setRg_self, Fld.of_into_disjoint f g _ v hg h]
  · exact fld_setFld_off f g v s ho

theorem bitOf_setBit_self (f : Fld) (b : Bool) (s : Dev) (h : f.Fits) (h1 : f.len = 1) : bitOf (setBit f b s) f = b := by
  cases b <;> simp [bitOf, setBit, fld_setFld_self _ _ _ h, h1]

theorem bitOf_setBit_off (f g : Fld) (b : Bool) (s : Dev) (h : g.off ≠ f.off) : bitOf (setBit f b s) g = bitOf s g := by
  simp [bitOf, setBit, fld_setFld_off _ _ _ _ h]

theorem bitOf_setBit_disjoint (f g : Fld) (b : Bool) (s : Dev) (hg : g.Fits) (h : f.lo + f.len ≤ g.lo ∨ g.lo + g.len ≤ f.lo) :
    bitOf (setBit f b s) g = bitOf s g := by
  simp only [bitOf, setBit, fld_setFld_disjoint _ _ _ _ hg h]

theorem bitOf_setFld_off (f g : Fld) (v : Nat) (s : Dev) (h : g.off ≠ f.off) : bitOf (setFld f v s) g = bitOf s g := by
  simp only [bitOf, fld_setFld_off _ _ _ _ h]

theorem bitOf_setFld_disjoint (f g : Fld) (v : Nat) (s : Dev) (hg : g.Fits) (h : f.lo + f.len ≤ g.lo ∨ g.lo + g.len ≤ f.lo) :
    bitOf (setFld f v s) g = bitOf s g := by
  simp only [bitOf, fld_setFld_disjoint _ _ _ _ hg h]

theorem fld_setBit_off (f g : Fld) (b : Bool) (s : Dev) (h : g.off ≠ f.off) : fld (setBit f b s) g = fld s g := by
  simp only [setBit, fld_setFld_off _ _ _ _ h]

theorem fld_bump_off (o : Nat) (g : Fld) (s : Dev) (h : g.off ≠ o) : fld (bump o s) g = fld s g := by
  simp [fld, bump, bumpBy, rg_setRg_ne _ _ h]

theorem bitOf_bump_off (o : Nat) (g : Fld) (s : Dev) (h : g.off ≠ o) : bitOf (bump o s) g = bitOf s g := by
  simp only [bitOf, fld_bump_off _ _ _ h]

theorem rg_bump_self (o : Nat) (s : Dev) :
    rg (bump o s) o = BitVec.ofNat 32 (min ((rg s o).toNat + 1) 0xFFFFFFFF) := by
  simp [bump, bumpBy, rg_setRg_self]

theorem rg_bump_ne {o p : Nat} (s : Dev) (h : p ≠ o) : rg (bump o s) p = rg s p := by
  simp [bump, bumpBy, rg_setRg_ne _ _ h]

end Sys2Proof.Machine
end

