-- ==== Sys2Proof/Laws/Post.lean ====
section
/-! SUPPORT. What the posting of an item can change: the rings, the pages of the Plain that hold them, four counters, a vector. -/

namespace Sys2Proof.Machine

/-- What the posting of an item leaves as it was. -/
def PostFrame (s s' : Dev) : Prop := s'.beside = s.beside ∧ ∀ o, o ∉ postCounters → rg s' o = rg s o

theorem PostFrame.refl (s : Dev) : PostFrame s s := ⟨rfl, fun _ _ => rfl⟩

theorem PostFrame.trans {a b c : Dev} (h : PostFrame a b) (h' : PostFrame b c) : PostFrame a c :=
  ⟨h'.1.trans h.1, fun o ho => (h'.2 o ho).trans (h.2 o ho)⟩

theorem PostFrame.setRg (o : Nat) (v : Word) (s : Dev) (h : o ∈ postCounters) : PostFrame s (setRg o v s) :=
  ⟨rfl, fun _ hp => rg_setRg_ne _ _ fun e => hp (e ▸ h)⟩

theorem PostFrame.bump (o : Nat) (s : Dev) (h : o ∈ postCounters) : PostFrame s (bump o s) := PostFrame.setRg _ _ _ h

/-- A change of the rings, the Plain, the pager and the trace alone. -/
theorem PostFrame.of {s s' : Dev} (h : s'.beside = s.beside) (r : s'.regs = s.regs) : PostFrame s s' := ⟨h, fun o _ => rg_congr r o⟩

theorem xlatTouch_frame (k p : Nat) (s : Dev) : PostFrame s (xlatTouch k p s) := by
  unfold xlatTouch
  extract_lets key set ways q s'
  have h : PostFrame s s' := PostFrame.of rfl rfl
  clear_value s'
  split
  · exact h
  · exact h.trans (PostFrame.bump _ _ (by decide))

theorem mapPage_frame (k p : Nat) (a b c : Bool) (s : Dev) : PostFrame s (mapPage k p a b c s) := by
  unfold mapPage
  split
  · exact PostFrame.of rfl rfl
  · exact PostFrame.refl s

theorem demandPage_frame (k p : Nat) (hw : Bool) (s : Dev) : PostFrame s (demandPage k p hw s).1 := by
  unfold demandPage
  split
  · exact xlatTouch_frame k p s
  · split
    · exact (xlatTouch_frame k p s).trans (PostFrame.bump _ _ (by decide))
    · have h := (xlatTouch_frame k p s).trans (mapPage_frame k p false hw false _)
      revert h
      generalize mapPage k p false hw false (xlatTouch k p s) = x
      intro h
      simp only
      split
      · refine h.trans (PostFrame.trans (b := { x with plain := _ }) (PostFrame.of rfl rfl) (PostFrame.setRg _ _ _ (by decide)))
      · exact h.trans (PostFrame.setRg _ _ _ (by decide))

theorem relWrite_frame (k a : Nat) (bs : List Byte) (s : Dev) : PostFrame s (relWrite k a bs s) := by
  unfold relWrite
  split
  · exact PostFrame.of rfl rfl
  · exact PostFrame.refl s

theorem ringWord_frame (n : Nat) (r : Ring) (p v : Nat) (s : Dev) : PostFrame s (ringWord n r p v s).1 := by
  unfold ringWord
  extract_lets a
  have h := demandPage_frame (ringObj n) (a / pageBytes) r.hostWrite s
  revert h
  generalize demandPage (ringObj n) (a / pageBytes) r.hostWrite s = x
  intro h
  rcases x with ⟨x, ok⟩
  simp only
  split
  · exact h.trans (relWrite_frame _ _ _ _)
  · exact h

theorem ringStore_frame (n : Nat) (r : Ring) (p : Nat) (ws : List Nat) (s : Dev) : PostFrame s (ringStore n r p ws s).1 := by
  induction ws generalizing p s with
  | nil => exact PostFrame.refl s
  | cons w ws ih =>
    unfold ringStore
    have h := ringWord_frame n r p w s
    revert h
    generalize ringWord n r p w s = x
    intro h
    rcases x with ⟨x, ok⟩
    simp only
    split
    · exact h.trans (ih _ _)
    · exact h

theorem ringIrq_frame (n b : Nat) (s : Dev) : PostFrame s (ringIrq n b s) := by
  unfold ringIrq
  split
  · exact PostFrame.refl s
  · split
    · split
      · split <;> exact PostFrame.of rfl rfl
      · exact PostFrame.of rfl rfl
    · exact PostFrame.refl s

theorem ringCommit_frame (n : Nat) (ws : List Nat) (s : Dev) : PostFrame s (ringCommit n ws s).1 := by
  unfold ringCommit
  split
  · exact PostFrame.refl s
  · rename_i r hr
    simp only
    have h : PostFrame s (if (r.makeRoom ws.length (r.items.length + 1)).plain then
        ringStore n (r.makeRoom ws.length (r.items.length + 1)) (r.makeRoom ws.length (r.items.length + 1)).wpos ws s else (s, true)).1 := by
      split
      · exact ringStore_frame _ _ _ _ _
      · exact PostFrame.refl s
    exact h.trans (PostFrame.trans (PostFrame.of rfl rfl) (ringIrq_frame _ _ _))

theorem routeItem_frame (src : Nat) (ws : List Nat) (s : Dev) : PostFrame s (routeItem src ws s).1 := by
  unfold routeItem
  simp only
  split
  · exact ringCommit_frame _ _ _
  · exact PostFrame.bump _ _ (by decide)

theorem postPool_frame (s : Dev) : PostFrame s (postPool s) := by
  unfold postPool
  split
  · split
    · exact PostFrame.trans (b := { s with pln.poolPosted := some s.raw }) (PostFrame.of rfl rfl) (routeItem_frame _ _ _)
    · exact PostFrame.refl s
  · exact PostFrame.trans (b := { s with pln.poolPosted := some s.raw }) (PostFrame.of rfl rfl) (routeItem_frame _ _ _)

/-- Posting an item. -/
theorem post_frame (src typ data : Nat) (payload : List Nat) (s : Dev) : PostFrame s (post src typ data payload s) := by
  unfold post
  have h := routeItem_frame src (itemHead typ src data payload.length :: payload) s
  revert h
  generalize routeItem src (itemHead typ src data payload.length :: payload) s = x
  intro h
  rcases x with ⟨x, ok⟩
  simp only
  split
  · exact h
  · exact h.trans (postPool_frame x)

theorem postCode_frame (src typ code low : Nat) (s : Dev) : PostFrame s (postCode src typ code low s) := post_frame _ _ _ _ _

theorem PostFrame.sys {s s' : Dev} (h : PostFrame s s') : s'.sys = s.sys := congrArg (·.sys) h.1

theorem PostFrame.fld {s s' : Dev} (h : PostFrame s s') (f : Fld) (hf : f.off ∉ postCounters) : fld s' f = fld s f := by
  simp only [Machine.fld, h.2 _ hf]

theorem PostFrame.bitOf {s s' : Dev} (h : PostFrame s s') (f : Fld) (hf : f.off ∉ postCounters) : bitOf s' f = bitOf s f := by
  simp only [Machine.bitOf, h.fld f hf]

end Sys2Proof.Machine
end

