-- ==== Sys2Proof/Laws/Objects.lean ====
section
/-! SUPPORT. What the operations on objects do to the handle table: START, STOP and SET_PRIORITY change one object's state, DESTROY takes the
object away, and the block that the object works in never touches the table. -/

namespace Sys2Proof.Machine

/-! The blocks leave the handle table alone -/

theorem postCode_hdl (a b c d : Nat) (s : Dev) : (postCode a b c d s).hdl = s.hdl := congrArg (·.hdl) (postCode_frame a b c d s).1

theorem setPort_hdl (n : Nat) (p : Port) (s : Dev) : (setPort n p s).hdl = s.hdl := (rfl)

theorem queueFrame_hdl (n : Nat) (f : TxFrame) (s : Dev) : (queueFrame n f s).hdl = s.hdl := by
  unfold queueFrame
  extract_lets p
  split
  · rfl
  · split
    · exact setPort_hdl _ _ _
    · split <;> exact setPort_hdl _ _ _

theorem reportChange_hdl (n k g a v : Nat) (s : Dev) : (reportChange n k g a v s).hdl = s.hdl := by
  unfold reportChange sendIgmp
  exact queueFrame_hdl _ _ _

theorem joinGroup_hdl (n g k a v : Nat) (s : Dev) : (joinGroup n g k a v s).hdl = s.hdl := reportChange_hdl _ _ _ _ _ _

theorem leaveGroup_hdl (n g k v : Nat) (s : Dev) : (leaveGroup n g k v s).hdl = s.hdl := by
  unfold leaveGroup
  split
  · extract_lets s1
    have h : s1.hdl = s.hdl := (rfl)
    clear_value s1
    split
    · exact h
    · exact (reportChange_hdl _ _ _ _ _ _).trans h
  · rfl

theorem joinStream_hdl (i : Nat) (s : Dev) : (joinStream i s).hdl = s.hdl := by
  unfold joinStream
  split
  · exact joinGroup_hdl _ _ _ _ _ _
  · rfl

theorem leaveStream_hdl (i : Nat) (s : Dev) : (leaveStream i s).hdl = s.hdl := by
  unfold leaveStream
  split
  · split
    · exact leaveGroup_hdl _ _ _ _ _
    · rfl
  · rfl

theorem loseStream_hdl (i : Nat) (s : Dev) : (loseStream i s).hdl = s.hdl := by
  unfold loseStream
  split
  · split
    · rfl
    · exact postCode_hdl _ _ _ _ _
  · rfl

theorem startInput_hdl (i : Nat) (s : Dev) : (startInput i s).hdl = s.hdl := by
  unfold startInput
  split <;> rfl

theorem stopInput_hdl (i : Nat) (s : Dev) : (stopInput i s).hdl = s.hdl := by
  unfold stopInput
  split <;> rfl

theorem startSiteUniv_hdl (i : Nat) (s : Dev) : (startSiteUniv i s).hdl = s.hdl := by
  unfold startSiteUniv
  split
  · split
    · extract_lets k o s1
      split
      · unfold modLine setLine
        split <;> rfl
      · rfl
    · rfl
  · rfl

theorem makeReady_hdl (n : Nat) (s : Dev) : (makeReady n s).hdl = s.hdl := by
  unfold makeReady
  split
  · rfl
  · split
    · rfl
    · split
      · unfold setReady
        rfl
      · split <;> rfl

theorem setMask_hdl (n m : Nat) (s : Dev) : (setMask n m s).hdl = s.hdl := by
  unfold setMask
  split
  · rfl
  · exact makeReady_hdl _ _

theorem freezeZone_hdl (z : Nat) (s : Dev) : (freezeZone z s).hdl = s.hdl := by
  unfold freezeZone
  split
  · exact setMask_hdl _ _ _
  · rfl

theorem zoneOverride_hdl (z : Nat) (s : Dev) : (zoneOverride z s).hdl = s.hdl := by
  unfold zoneOverride
  split
  · rfl
  · split
    · rfl
    · extract_lets now
      split
      · rfl
      · exact postCode_hdl _ _ _ _ _
      · split <;> rfl
      · exact postCode_hdl _ _ _ _ _

theorem endUniv_hdl (i : Nat) (s : Dev) : (endUniv i s).hdl = s.hdl := by
  unfold endUniv
  split
  · rfl
  · extract_lets s1 o
    have h : s1.hdl = s.hdl := by
      simp only [s1]
      split
      · exact setPort_hdl _ _ _
      · rfl
    split
    · exact h
    · exact h

/-- A fold of operations that leave the handle table alone leaves it alone. -/
theorem foldl_hdl {α : Type} (f : Dev → α → Dev) (h : ∀ s a, (f s a).hdl = s.hdl) (l : List α) (s : Dev) : (l.foldl f s).hdl = s.hdl := by
  induction l generalizing s with
  | nil => rfl
  | cons a r ih => rw [List.foldl_cons, ih, h]

theorem startDue_hdl (s : Dev) : (startDue s).hdl = s.hdl := by
  unfold startDue
  extract_lets due s1
  rw [foldl_hdl _ (fun s a => startInput_hdl _ _)]
  exact foldl_hdl _ (fun s a => joinStream_hdl _ _) _ _

/-! START, STOP and SET_PRIORITY (R49, R79, R62) -/

theorem objAt_setObj (k : Nat) (o : HObj) (s : Dev) : objAt (setObj k o s) k = some o := tget_tput_self _ _ _

theorem objAt_congr {s s' : Dev} (h : s'.hdl = s.hdl) (k : Nat) : objAt s' k = objAt s k := by simp [objAt, h]

/-- The object of a channel as the governor leaves it. -/
theorem objAt_holdObj (k : Nat) (held : Bool) (s : Dev) (o : HObj) (h : objAt s k = some o) :
    objAt (holdObj k held s) k =
      some (if held ∧ o.state = 2 then { o with state := 4 } else if !held ∧ o.state = 4 then { o with state := 2 } else o) := by
  unfold holdObj
  rw [h]
  dsimp -zeta only
  split
  · extract_lets s1
    have h1 : objAt s1 k = some { o with state := 4 } := objAt_setObj _ _ _
    clear_value s1
    split
    · rw [objAt_congr (freezeZone_hdl _ _), h1]
    · exact h1
  · split
    · exact objAt_setObj _ _ _
    · exact h

/-- START leaves the channel RUNNING, or HELD where its level is held, from the time of its start. -/
theorem objAt_startObj (k a : Nat) (s : Dev) (o : HObj) (h : objAt s k = some o) (ho : o.state = 1 ∨ o.state = 3) :
    ∃ held : Bool, objAt (startObj k a s) k = some { o with state := if held then 4 else 2, startAt := a, startCmd := s.raw } := by
  unfold startObj
  rw [h]
  dsimp -zeta only
  rw [if_pos ho]
  extract_lets i s1 o1 s2
  have h1 : s2.hdl = s1.hdl := by
    simp only [s2]
    split
    · exact startSiteUniv_hdl _ _
    · rfl
    · exact zoneOverride_hdl _ _
    · rfl
  have h2 : objAt s2 k = some { o with state := 2, startAt := a, startCmd := s.raw } :=
    (objAt_congr h1 k).trans (objAt_setObj _ _ _)
  clear_value s2
  refine ⟨levelHeld s2 o.cls o.prio, ?_⟩
  rw [objAt_congr (startDue_hdl _), objAt_holdObj _ _ _ _ h2]
  cases levelHeld s2 o.cls o.prio <;> simp

/-- START of a channel that runs already changes nothing. -/
theorem startObj_live (k a : Nat) (s : Dev) (o : HObj) (h : objAt s k = some o) (ho : ¬(o.state = 1 ∨ o.state = 3)) : startObj k a s = s := by
  unfold startObj
  rw [h]
  dsimp -zeta only
  rw [if_neg ho]

/-- STOP leaves the channel STOPPED. -/
theorem objAt_stopObj (k : Nat) (s : Dev) (o : HObj) (h : objAt s k = some o) (ho : o.state = 2 ∨ o.state = 4) :
    objAt (stopObj k s) k = some { o with state := 3 } := by
  unfold stopObj
  rw [h]
  dsimp -zeta only
  rw [if_pos ho]
  extract_lets i s1
  have h1 : objAt s1 k = some { o with state := 3 } := objAt_setObj _ _ _
  clear_value s1
  split
  · rw [objAt_congr (endUniv_hdl _ _), h1]
  · split
    · rw [objAt_congr (stopInput_hdl _ _), h1]
    · exact h1
  · rw [objAt_congr ((leaveStream_hdl _ _).trans (loseStream_hdl _ _)), h1]
  · rw [objAt_congr (freezeZone_hdl _ _), h1]
  · exact h1

/-- STOP of a channel that does not run changes nothing. -/
theorem stopObj_still (k : Nat) (s : Dev) (o : HObj) (h : objAt s k = some o) (ho : ¬(o.state = 2 ∨ o.state = 4)) : stopObj k s = s := by
  unfold stopObj
  rw [h]
  dsimp -zeta only
  rw [if_neg ho]

/-- A channel has its new priority, and is held where the new level is. -/
theorem objAt_setPrio (k p : Nat) (s : Dev) (o : HObj) (h : objAt s k = some o) :
    ∃ st, objAt (setPrio k p s) k = some { o with prio := p, state := st } ∧
      (o.state ≠ 2 ∧ o.state ≠ 4 → st = o.state) ∧ (st ≠ o.state → st = 2 ∨ st = 4) := by
  unfold setPrio
  rw [h]
  dsimp -zeta only
  extract_lets s1 o1 s2
  have h1 : s2.hdl = s1.hdl := by
    simp only [s2]
    split <;> rfl
  have h2 : objAt s2 k = some { o with prio := p } := (objAt_congr h1 k).trans (objAt_setObj _ _ _)
  clear_value s2
  rw [objAt_holdObj _ _ _ _ h2]
  by_cases a : levelHeld s2 o.cls p = true ∧ o.state = 2
  · exact ⟨4, by simp [a], by omega, by simp⟩
  · by_cases b : (!levelHeld s2 o.cls p) = true ∧ o.state = 4
    · exact ⟨2, by rw [if_neg a, if_pos b], by omega, by simp⟩
    · exact ⟨o.state, by rw [if_neg a, if_neg b], by simp, by simp⟩

/-! DESTROY (R50) -/

theorem freePage_hdl (p : Pte) (s : Dev) : (freePage p s).hdl = s.hdl := by
  unfold freePage
  split
  · extract_lets
    exact postCode_hdl _ _ _ _ _
  · rfl

theorem freePages_hdl (k : Nat) (s : Dev) : (freePages k s).hdl = s.hdl := by
  unfold freePages
  extract_lets ps p1 s1
  have h : s1.hdl = s.hdl := (rfl)
  exact (foldl_hdl _ (fun s a => freePage_hdl _ _) _ _).trans h

theorem objAt_releaseObj (d : Dying) (k : Nat) (s : Dev) (h : objAt s k = none) : objAt (releaseObj d s) k = none := by
  unfold releaseObj
  extract_lets h1 s1
  have h1 : (freePages (hKey d.handle) (creditAll d.charges s1)).hdl.objs = s.hdl.objs := by
    rw [freePages_hdl]; rfl
  generalize freePages (hKey d.handle) (creditAll d.charges s1) = x at h1
  simp only [releaseIdx, objAt, h1]
  by_cases e : k = hKey d.handle
  · rw [e]; exact tget_tdel_self _ _
  · rw [tget_tdel_ne _ e]; exact h

/-- A destroyed object is gone from the table. -/
theorem objAt_destroyObj (k : Nat) (s : Dev) : objAt (destroyObj k s) k = none := by
  unfold destroyObj
  extract_lets h s1 s2
  clear_value s2
  split
  · extract_lets d s3
    have : objAt s3 k = none := tget_tdel_self _ _
    split
    · exact this
    · exact objAt_releaseObj d k s3 this
  · assumption

/-- A handle whose key names no object is not valid. -/
theorem objOf_none (x : Word) (e : Dev) (g : objAt e (hKey x) = none) : objOf e x = none := by simp [objOf, g]

/-- The object of a valid handle. -/
theorem objAt_of_objOf {s : Dev} {x : Word} {o : HObj} (h : objOf s x = some o) : objAt s (hKey x) = some o := by
  unfold objOf at h
  split at h
  · rename_i p hp
    split at h
    · cases h; exact hp
    · cases h
  · cases h

end Sys2Proof.Machine
end

