-- ==== Sys2Proof/Laws/Gov.lean ====
section
/-! SUPPORT. What a reading of the governor shows and sets: the speed index and its monitor, AT_RISK and BROKEN. -/

namespace Sys2Proof.Machine

/-- A step that keeps a register. -/
abbrev KeepsReg (o : Nat) (s s' : Dev) : Prop := rg s' o = rg s o

theorem foldl_keepsReg {α : Type} (o : Nat) (f : Dev → α → Dev) (h : ∀ s a, KeepsReg o s (f s a)) (l : List α) (s : Dev) :
    KeepsReg o s (l.foldl f s) := by
  induction l generalizing s with
  | nil => rfl
  | cons a r ih =>
    rw [List.foldl_cons]
    exact (ih _).trans (h _ _)

theorem postCode_keepsReg {o : Nat} (h : o ∉ postCounters) (a b c d : Nat) (s : Dev) : KeepsReg o s (postCode a b c d s) :=
  (postCode_frame a b c d s).2 o h

theorem makeReady_keepsReg {o : Nat} (h : o ≠ R.SCH_GROUP_WAITS) (n : Nat) (s : Dev) : KeepsReg o s (makeReady n s) := by
  unfold makeReady
  split
  · rfl
  · split
    · rfl
    · split
      · exact rg_congr rfl o
      · split
        · rfl
        · exact (rg_bump_ne _ h).trans (rg_congr rfl o)

theorem setMask_keepsReg {o : Nat} (h : o ≠ R.SCH_GROUP_WAITS) (n m : Nat) (s : Dev) : KeepsReg o s (setMask n m s) := by
  unfold setMask
  split
  · rfl
  · exact (makeReady_keepsReg h _ _).trans (rg_congr rfl o)

theorem freezeZone_keepsReg {o : Nat} (h : o ≠ R.SCH_GROUP_WAITS) (z : Nat) (s : Dev) : KeepsReg o s (freezeZone z s) := by
  unfold freezeZone
  split
  · exact (setMask_keepsReg h _ _ _).trans (rg_congr rfl o)
  · rfl

theorem holdObj_keepsReg {o : Nat} (h : o ≠ R.SCH_GROUP_WAITS) (k : Nat) (held : Bool) (s : Dev) : KeepsReg o s (holdObj k held s) := by
  unfold holdObj
  split
  · split
    · extract_lets s1
      have h1 : KeepsReg o s s1 := rg_congr rfl o
      clear_value s1
      split
      · exact (freezeZone_keepsReg h _ _).trans h1
      · exact h1
    · split
      · exact rg_congr rfl o
      · rfl
  · rfl

theorem postGov_keepsReg {o : Nat} (h : o ∉ postCounters) (a b c : Nat) (s : Dev) : KeepsReg o s (postGov a b c s) := by
  unfold postGov
  extract_lets s1
  have h1 : KeepsReg o s s1 := (post_frame _ _ _ _ _).2 o h
  clear_value s1
  split
  · exact (rg_congr rfl o).trans h1
  · exact h1

theorem holdStep_keepsReg {o : Nat} (h : o ≠ R.SCH_GROUP_WAITS) (h' : o ≠ R.HDL_HELD) (k : Nat) (held : Bool) (s : Dev) :
    KeepsReg o s (holdStep k held s) := by
  unfold holdStep
  extract_lets cls f b s1
  have h1 : KeepsReg o s s1 := rg_setFld_ne _ _ _ (by simp only [f]; split <;> exact h')
  clear_value s1
  exact (foldl_keepsReg o _ (fun s a => holdObj_keepsReg h _ _ _) _ _).trans h1

/-- The registers that a step of the governor after the speed index can change. -/
def govRegs : List Nat :=
  [R.SCH_GROUP_WAITS, R.HDL_HELD, R.HDL_STATUS, R.HDL_AT_RISK_COUNT, R.HDL_BROKEN_COUNT, R.SYS_FAULT] ++ postCounters

theorem govSupply_keepsReg {o : Nat} (h : o ∉ govRegs) (x : Nat) (s : Dev) : KeepsReg o s (govSupply x s) := by
  have hp : o ∉ postCounters := fun e => h (by simp only [govRegs, List.mem_append]; exact Or.inr e)
  have hs : o ≠ R.HDL_STATUS := fun e => h (by simp [govRegs, e])
  unfold govSupply
  extract_lets goal hi lo was s1 s2 want
  have h1 : KeepsReg o s s1 := (rg_setBit_ne _ _ _ hs).trans (rg_setBit_ne _ _ _ hs)
  have h2 : KeepsReg o s1 s2 := by
    simp only [s2]
    split
    · exact postGov_keepsReg hp _ _ _ _
    · rfl
  clear_value s1 s2
  split
  · exact h2.trans h1
  · exact (rg_congr rfl o).trans (h2.trans h1)

theorem govRisk_keepsReg {o : Nat} (h : o ∉ govRegs) (x : Nat) (s : Dev) : KeepsReg o s (govRisk x s) := by
  have hp : o ∉ postCounters := fun e => h (by simp only [govRegs, List.mem_append]; exact Or.inr e)
  have hs : o ≠ R.HDL_STATUS := fun e => h (by simp [govRegs, e])
  have hc : o ≠ R.HDL_AT_RISK_COUNT := fun e => h (by simp [govRegs, e])
  unfold govRisk
  extract_lets o1 s1
  have h1 : KeepsReg o s s1 := rg_congr rfl o
  clear_value s1
  split
  · split
    · exact (postGov_keepsReg hp _ _ _ _).trans ((rg_bump_ne _ hc).trans ((rg_setBit_ne _ _ _ hs).trans h1))
    · exact h1
  · split
    · exact (postGov_keepsReg hp _ _ _ _).trans ((rg_setBit_ne _ _ _ hs).trans h1)
    · exact h1

theorem lifeUp_keepsReg (o i : Nat) (s : Dev) : KeepsReg o s (lifeUp i s) := rg_congr rfl o

theorem govHold_keepsReg {o : Nat} (h : o ∉ govRegs) (s : Dev) : KeepsReg o s (govHold s) := by
  have hp : o ∉ postCounters := fun e => h (by simp only [govRegs, List.mem_append]; exact Or.inr e)
  have hs : o ≠ R.HDL_STATUS := fun e => h (by simp [govRegs, e])
  have hh : o ≠ R.HDL_HELD := fun e => h (by simp [govRegs, e])
  have hg : o ≠ R.SCH_GROUP_WAITS := fun e => h (by simp [govRegs, e])
  have hb : o ≠ R.HDL_BROKEN_COUNT := fun e => h (by simp [govRegs, e])
  have hf : o ≠ R.SYS_FAULT := fun e => h (by simp [govRegs, e])
  unfold govHold
  extract_lets k o1 s1 s2 s3
  have h1 : KeepsReg o s s1 := (holdStep_keepsReg hg hh _ _ _).trans (rg_congr rfl o)
  have h2 : KeepsReg o s1 s2 := rg_setBit_ne _ _ _ hs
  have h3 : KeepsReg o s2 s3 := by
    simp only [s3]
    split
    · exact (postGov_keepsReg hp _ _ _ _).trans ((lifeUp_keepsReg _ _ _).trans ((rg_bump_ne _ hb).trans (rg_setBit_ne _ _ _ hf)))
    · rfl
  clear_value s1 s2 s3
  split
  · rfl
  · exact (postGov_keepsReg hp _ _ _ _).trans (h3.trans (h2.trans h1))

theorem govRelease_keepsReg {o : Nat} (h : o ∉ govRegs) (s : Dev) : KeepsReg o s (govRelease s) := by
  have hp : o ∉ postCounters := fun e => h (by simp only [govRegs, List.mem_append]; exact Or.inr e)
  have hs : o ≠ R.HDL_STATUS := fun e => h (by simp [govRegs, e])
  have hh : o ≠ R.HDL_HELD := fun e => h (by simp [govRegs, e])
  have hg : o ≠ R.SCH_GROUP_WAITS := fun e => h (by simp [govRegs, e])
  unfold govRelease
  split
  · rfl
  · split
    · rfl
    · extract_lets o1 s1 s2
      have h1 : KeepsReg o s s1 := (holdStep_keepsReg hg hh _ _ _).trans (rg_congr rfl o)
      have h2 : KeepsReg o s1 s2 := postGov_keepsReg hp _ _ _ _
      clear_value s1 s2
      split
      · exact (postGov_keepsReg hp _ _ _ _).trans ((rg_setBit_ne _ _ _ hs).trans (h2.trans h1))
      · exact h2.trans h1

/-- The step of a reading after its speed index. -/
def govRest (x : Nat) (s : Dev) : Dev :=
  let s := govRisk x (govSupply x s)
  let s := { s with hdl.okRelease := if x < 0x100 ∨ s.hdl.heldSteps = [] then 0 else s.hdl.okRelease + 1 }
  if x < 0x100 then govHold s else govRelease s

theorem govRest_keepsReg {o : Nat} (h : o ∉ govRegs) (x : Nat) (s : Dev) : KeepsReg o s (govRest x s) := by
  unfold govRest
  extract_lets s1 o1 s2
  have h1 : KeepsReg o s s1 := (govRisk_keepsReg h _ _).trans (govSupply_keepsReg h _ _)
  have h2 : KeepsReg o s1 s2 := rg_congr rfl o
  clear_value s1 s2
  split
  · exact (govHold_keepsReg h _).trans (h2.trans h1)
  · exact (govRelease_keepsReg h _).trans (h2.trans h1)

/-- The lowest monitor, the lowest-numbered of those. -/
def lowestOf (l : List (Nat × Nat)) (b : Nat × Nat) : Nat × Nat := l.foldl (fun b e => if e.2 < b.2 then e else b) b

theorem lowestOf_spec (l : List (Nat × Nat)) (b : Nat × Nat) :
    (lowestOf l b = b ∨ lowestOf l b ∈ l) ∧ (lowestOf l b).2 ≤ b.2 ∧ ∀ e ∈ l, (lowestOf l b).2 ≤ e.2 := by
  induction l generalizing b with
  | nil => exact ⟨Or.inl rfl, Nat.le_refl _, by simp⟩
  | cons a r ih =>
    have h := ih (if a.2 < b.2 then a else b)
    have e : lowestOf (a :: r) b = lowestOf r (if a.2 < b.2 then a else b) := rfl
    rw [e]
    obtain ⟨h1, h2, h3⟩ := h
    by_cases c : a.2 < b.2
    · rw [if_pos c] at h1 h2 h3 ⊢
      refine ⟨?_, by omega, ?_⟩
      · rcases h1 with h1 | h1
        · exact Or.inr (by rw [h1]; exact List.mem_cons_self)
        · exact Or.inr (List.mem_cons_of_mem _ h1)
      · intro x hx
        rcases List.mem_cons.1 hx with rfl | hx
        · exact h2
        · exact h3 x hx
    · rw [if_neg c] at h1 h2 h3 ⊢
      refine ⟨?_, h2, ?_⟩
      · rcases h1 with h1 | h1
        · exact Or.inl h1
        · exact Or.inr (List.mem_cons_of_mem _ h1)
      · intro x hx
        rcases List.mem_cons.1 hx with rfl | hx
        · omega
        · exact h3 x hx

/-! AT_RISK and BROKEN (R72 steps 5 and 6) -/

theorem keepsReg_bitOf {s s' : Dev} (f : Fld) (h : KeepsReg f.off s s') : bitOf s' f = bitOf s f := by
  simp only [bitOf, fld, show rg s' f.off = rg s f.off from h]

theorem postGov_status (a b c : Nat) (s : Dev) : KeepsReg R.HDL_STATUS s (postGov a b c s) := postGov_keepsReg (by decide) _ _ _ _

theorem postGov_hdl (a b c : Nat) (s : Dev) : (postGov a b c s).hdl = s.hdl := by
  unfold postGov
  extract_lets s1
  have h1 : s1.hdl = s.hdl := congrArg (·.hdl) (post_frame _ _ _ _ _).1
  clear_value s1
  split
  · exact h1
  · exact h1

theorem govSupply_hdl (x : Nat) (s : Dev) : (govSupply x s).hdl.heldSteps = s.hdl.heldSteps := by
  unfold govSupply
  extract_lets goal hi lo was s1 s2 want
  have h1 : s1.hdl = s.hdl := by
    simp only [s1, setBit, setFld, setRg_hdl]
  have h2 : s2.hdl = s1.hdl := by
    simp only [s2]
    split
    · exact postGov_hdl _ _ _ _
    · rfl
  clear_value s1 s2
  split
  · rw [h2, h1]
  · show s2.hdl.heldSteps = _
    rw [h2, h1]

theorem govRisk_hdl (x : Nat) (s : Dev) : (govRisk x s).hdl.heldSteps = s.hdl.heldSteps := by
  unfold govRisk
  extract_lets o1 s1
  have h1 : s1.hdl.heldSteps = s.hdl.heldSteps := (rfl)
  clear_value s1
  split
  · split
    · rw [postGov_hdl]
      simp only [bump, bumpBy, setBit, setFld, setRg_hdl]
      exact h1
    · exact h1
  · split
    · rw [postGov_hdl]
      simp only [setBit, setFld, setRg_hdl]
      exact h1
    · exact h1

theorem govRisk_atRisk (x : Nat) (s : Dev) (h : x < 0x10A) : bitOf (govRisk x s) F.HDL_STATUS_AT_RISK = true := by
  unfold govRisk
  extract_lets o1 s1
  have h0 : s1.hdl.okRisk = 0 := if_neg (show ¬ 0x10D ≤ x by omega)
  clear_value s1
  split
  · try rw [if_pos h]
    rw [keepsReg_bitOf _ (postGov_status _ _ _ _), bitOf_bump_off _ _ _ (by decide), bitOf_setBit_self _ _ _ (by decide) (by decide)]
  · rename_i hb
    have hb : bitOf s1 F.HDL_STATUS_AT_RISK = true := by simpa using hb
    rw [if_neg (by omega)]
    exact hb

theorem holdStep_status (k : Nat) (held : Bool) (s : Dev) : KeepsReg R.HDL_STATUS s (holdStep k held s) :=
  holdStep_keepsReg (by decide) (by decide) _ _ _

theorem govHold_atRisk (s : Dev) : bitOf (govHold s) F.HDL_STATUS_AT_RISK = bitOf s F.HDL_STATUS_AT_RISK := by
  unfold govHold
  extract_lets k o1 s1 s2 s3
  have h1 : bitOf s1 F.HDL_STATUS_AT_RISK = bitOf s F.HDL_STATUS_AT_RISK :=
    keepsReg_bitOf F.HDL_STATUS_AT_RISK ((holdStep_status _ _ _).trans (rg_congr rfl _))
  have h2 : bitOf s2 F.HDL_STATUS_AT_RISK = bitOf s1 F.HDL_STATUS_AT_RISK := bitOf_setBit_disjoint _ _ _ _ (by decide) (by decide)
  have h3 : bitOf s3 F.HDL_STATUS_AT_RISK = bitOf s2 F.HDL_STATUS_AT_RISK := by
    simp only [s3]
    split
    · rw [keepsReg_bitOf _ (postGov_status _ _ _ _), keepsReg_bitOf _ (lifeUp_keepsReg _ _ _), bitOf_bump_off _ _ _ (by decide),
        bitOf_setBit_off _ _ _ _ (by decide)]
    · rfl
  clear_value s1 s2 s3
  split
  · rfl
  · rw [keepsReg_bitOf _ (postGov_status _ _ _ _), h3, h2, h1]

theorem govHold_broken (s : Dev) (h : s.hdl.heldSteps.length < 32) : bitOf (govHold s) F.HDL_STATUS_BROKEN = true := by
  unfold govHold
  extract_lets k o1 s1 s2 s3
  have h2 : bitOf s2 F.HDL_STATUS_BROKEN = true := bitOf_setBit_self _ _ _ (by decide) (by decide)
  have h3 : bitOf s3 F.HDL_STATUS_BROKEN = bitOf s2 F.HDL_STATUS_BROKEN := by
    simp only [s3]
    split
    · rw [keepsReg_bitOf _ (postGov_status _ _ _ _), keepsReg_bitOf _ (lifeUp_keepsReg _ _ _), bitOf_bump_off _ _ _ (by decide),
        bitOf_setBit_off _ _ _ _ (by decide)]
    · rfl
  clear_value s1 s2 s3
  rw [if_neg (show ¬ 32 ≤ k by simp only [k]; omega), keepsReg_bitOf _ (postGov_status _ _ _ _), h3, h2]

theorem govRelease_atRisk (s : Dev) : bitOf (govRelease s) F.HDL_STATUS_AT_RISK = bitOf s F.HDL_STATUS_AT_RISK := by
  unfold govRelease
  split
  · rfl
  · split
    · rfl
    · extract_lets o1 s1 s2
      have h1 : bitOf s1 F.HDL_STATUS_AT_RISK = bitOf s F.HDL_STATUS_AT_RISK :=
        keepsReg_bitOf F.HDL_STATUS_AT_RISK ((holdStep_status _ _ _).trans (rg_congr rfl _))
      have h2 : bitOf s2 F.HDL_STATUS_AT_RISK = bitOf s1 F.HDL_STATUS_AT_RISK := keepsReg_bitOf _ (postGov_status _ _ _ _)
      clear_value s1 s2
      split
      · rw [keepsReg_bitOf _ (postGov_status _ _ _ _), bitOf_setBit_disjoint _ _ _ _ (by decide) (by decide), h2, h1]
      · rw [h2, h1]

/-- A reading below 1.04 leaves AT_RISK set; one below 1.00 leaves BROKEN set, where a step was still unheld. -/
theorem govRest_states (x : Nat) (s : Dev) :
    (x < 0x10A → bitOf (govRest x s) F.HDL_STATUS_AT_RISK = true) ∧
    (x < 0x100 → s.hdl.heldSteps.length < 32 → bitOf (govRest x s) F.HDL_STATUS_BROKEN = true) := by
  unfold govRest
  extract_lets s1 o1 s2
  have a : x < 0x10A → bitOf s2 F.HDL_STATUS_AT_RISK = true := fun h => (bitOf_congr rfl _).trans (govRisk_atRisk _ _ h)
  have b : s2.hdl.heldSteps = s.hdl.heldSteps := (govRisk_hdl _ _).trans (govSupply_hdl _ _)
  clear_value s1 s2
  refine ⟨fun h => ?_, fun h hl => ?_⟩
  · split
    · rw [govHold_atRisk, a h]
    · rw [govRelease_atRisk, a h]
  · rw [if_pos h]
    exact govHold_broken _ (by rw [b]; exact hl)

/-- A reading shows the lowest of the monitors and which one it is, and sets AT_RISK and BROKEN by it. -/
theorem govReading_shows (m : List Nat) (s : Dev) (hl : m.length = 64) :
    ∃ i, i < 64 ∧ (∀ k, k < 64 → m.getD i 0 ≤ m.getD k 0) ∧ fld (govReading m s) F.HDL_SPEED_INDEX = m.getD i 0 % 65536 ∧
      fld (govReading m s) F.HDL_SPEED_MIN_MON = i ∧
      (m.getD i 0 % 65536 < 0x10A → bitOf (govReading m s) F.HDL_STATUS_AT_RISK = true) ∧
      (m.getD i 0 % 65536 < 0x100 → s.hdl.heldSteps.length < 32 → bitOf (govReading m s) F.HDL_STATUS_BROKEN = true) := by
  have e : govReading m s = govRest ((lowestOf ((List.range m.length).zip m) (((List.range m.length).zip m).headD (0, 0))).2 % 65536)
      (setFld F.HDL_SPEED_INDEX ((lowestOf ((List.range m.length).zip m) (((List.range m.length).zip m).headD (0, 0))).2 % 65536)
        (setFld F.HDL_SPEED_MIN_MON (lowestOf ((List.range m.length).zip m) (((List.range m.length).zip m).headD (0, 0))).1 s)) := (rfl)
  have sp := lowestOf_spec ((List.range m.length).zip m) (((List.range m.length).zip m).headD (0, 0))
  generalize lowestOf ((List.range m.length).zip m) (((List.range m.length).zip m).headD (0, 0)) = w at e sp
  obtain ⟨h1, _, h3⟩ := sp
  have mem : w ∈ (List.range m.length).zip m := by
    rcases h1 with h1 | h1
    · rw [h1]
      cases hz : (List.range m.length).zip m with
      | nil =>
        have := congrArg List.length hz
        simp [hl] at this
      | cons a r => simp
    · exact h1
  have at_ : ∀ k, k < 64 → (k, m.getD k 0) ∈ (List.range m.length).zip m := by
    intro k hk
    rw [List.mem_iff_getElem]
    refine ⟨k, by simp [hl, hk], ?_⟩
    rw [List.getElem_zip]
    simp [List.getD, List.getElem?_eq_getElem (show k < m.length by omega)]
  obtain ⟨k, hk, hw⟩ := List.mem_iff_getElem.1 mem
  have hk' : k < 64 := by simp [hl] at hk; exact hk
  have hw' : w = (k, m.getD k 0) := by
    rw [← hw, List.getElem_zip]
    simp [List.getD, List.getElem?_eq_getElem (show k < m.length by omega)]
  subst hw'
  refine ⟨k, hk', fun j hj => h3 _ (at_ j hj), ?_, ?_, ?_, ?_⟩
  · rw [e]
    have : ∀ x s', fld (govRest x s') F.HDL_SPEED_INDEX = fld s' F.HDL_SPEED_INDEX := fun x s' => by
      simp only [fld, govRest_keepsReg (show F.HDL_SPEED_INDEX.off ∉ govRegs by decide) x s']
    rw [this, fld_setFld_self _ _ _ (by decide)]
    show m.getD k 0 % 65536 % 2 ^ 16 = _
    omega
  · rw [e]
    have : ∀ x s', fld (govRest x s') F.HDL_SPEED_MIN_MON = fld s' F.HDL_SPEED_MIN_MON := fun x s' => by
      simp only [fld, govRest_keepsReg (show F.HDL_SPEED_MIN_MON.off ∉ govRegs by decide) x s']
    rw [this, fld_setFld_disjoint _ _ _ _ (by decide) (by decide), fld_setFld_self _ _ _ (by decide)]
    show k % 2 ^ 6 = k
    omega
  · rw [e]
    exact (govRest_states _ _).1
  · rw [e]
    exact fun h hl => (govRest_states _ _).2 h (by simpa only [setFld, setRg_hdl] using hl)

end Sys2Proof.Machine
end

