-- ==== Sys2Proof/Laws/Sched.lean ====
section
/-! SUPPORT. What the scheduler's operations can change: a task's place on the ready lists, and no item. -/

namespace Sys2Proof.Machine

@[simp] theorem setTask_tasks (n : Nat) (k : Task) (s : Dev) : (setTask n k s).sch.tasks = tput s.sch.tasks n k := rfl
@[simp] theorem setTask_groups (n : Nat) (k : Task) (s : Dev) : (setTask n k s).sch.groups = s.sch.groups := rfl
@[simp] theorem setTask_waits (n : Nat) (k : Task) (s : Dev) : (setTask n k s).sch.waits = s.sch.waits := rfl
@[simp] theorem setTask_handed (n : Nat) (k : Task) (s : Dev) : (setTask n k s).sch.handed = s.sch.handed := rfl
@[simp] theorem setReady_tasks (e l : Nat) (q : List Nat) (s : Dev) : (setReady e l q s).sch.tasks = s.sch.tasks := rfl
@[simp] theorem setReady_groups (e l : Nat) (q : List Nat) (s : Dev) : (setReady e l q s).sch.groups = s.sch.groups := rfl
@[simp] theorem setReady_waits (e l : Nat) (q : List Nat) (s : Dev) : (setReady e l q s).sch.waits = s.sch.waits := rfl
@[simp] theorem setReady_handed (e l : Nat) (q : List Nat) (s : Dev) : (setReady e l q s).sch.handed = s.sch.handed := rfl
@[simp] theorem setWaits_tasks (n : Nat) (q : List Nat) (s : Dev) : (setWaits n q s).sch.tasks = s.sch.tasks := rfl
@[simp] theorem setWaits_groups (n : Nat) (q : List Nat) (s : Dev) : (setWaits n q s).sch.groups = s.sch.groups := rfl

theorem waitsAt_setWaits (n : Nat) (l : List Nat) (s : Dev) : waitsAt (setWaits n l s) n = l := by
  unfold waitsAt setWaits
  by_cases h : l = []
  · simp [h]
  · simp [h]

theorem readyAt_setReady (e l : Nat) (q : List Nat) (s : Dev) : readyAt (setReady e l q s) e l = q := by
  unfold readyAt setReady
  by_cases h : q = []
  · simp [h]
  · simp [h]

/-- A change of the ready lists, and of two marks of tasks, alone. -/
structure Placed (s s' : Dev) : Prop where
  groups : s'.sch.groups = s.sch.groups
  waits : s'.sch.waits = s.sch.waits
  handed : s'.sch.handed = s.sch.handed
  rest : { s' with sch := {}, regs := [] } = { s with sch := {}, regs := [] }
  tasks : ∀ m, ∃ q w : Bool, tget s'.sch.tasks m = (tget s.sch.tasks m).map fun k => { k with queued := q, groupWait := w }

theorem Placed.refl (s : Dev) : Placed s s := by
  refine ⟨rfl, rfl, rfl, rfl, fun m => ?_⟩
  cases h : tget s.sch.tasks m with
  | none => exact ⟨false, false, rfl⟩
  | some k => exact ⟨k.queued, k.groupWait, rfl⟩

theorem Placed.trans {a b c : Dev} (h : Placed a b) (h' : Placed b c) : Placed a c := by
  refine ⟨h'.groups.trans h.groups, h'.waits.trans h.waits, h'.handed.trans h.handed, h'.rest.trans h.rest, fun m => ?_⟩
  obtain ⟨q, w, e⟩ := h.tasks m
  obtain ⟨q', w', e'⟩ := h'.tasks m
  refine ⟨q', w', ?_⟩
  rw [e', e, Option.map_map]
  rfl

theorem makeReady_placed (n : Nat) (s : Dev) : Placed s (makeReady n s) := by
  have one : ∀ (k : Task) (q w : Bool) (x : Dev), tget s.sch.tasks n = some k → x.sch.tasks = tput s.sch.tasks n { k with queued := q, groupWait := w } →
      ∀ m, ∃ q w : Bool, tget x.sch.tasks m = (tget s.sch.tasks m).map fun k => { k with queued := q, groupWait := w } := by
    intro k q w x hk hx m
    rw [hx]
    by_cases hm : m = n
    · subst hm
      exact ⟨q, w, by rw [tget_tput_self, hk]; rfl⟩
    · rw [tget_tput_ne _ _ hm]
      exact (Placed.refl s).tasks m
  unfold makeReady
  cases hk : tget s.sch.tasks n with
  | none => exact Placed.refl s
  | some k =>
    dsimp only
    split
    · exact Placed.refl s
    · split
      · exact ⟨rfl, rfl, rfl, rfl, one k true false _ hk rfl⟩
      · split
        · exact Placed.refl s
        · exact ⟨rfl, rfl, rfl, rfl, one k k.queued true _ hk rfl⟩

theorem foldl_makeReady_placed (l : List Nat) (n : Nat) (s : Dev) :
    Placed s (l.foldl (fun s m => if m = n then s else makeReady m s) s) := by
  induction l generalizing s with
  | nil => exact Placed.refl s
  | cons a r ih =>
    rw [List.foldl_cons]
    refine Placed.trans ?_ (ih _)
    split
    · exact Placed.refl s
    · exact makeReady_placed _ _

/-- What a granted push does (R111-R113): the item enters with its stamp, flag 0 stands, the group's ISSUE advances; the
other tasks keep their items. -/
theorem grantPush_spec (n x : Nat) (s : Dev) (k : Task) (hk : tget s.sch.tasks n = some k) :
    let stamp := if k.grouped then (groupAt s k.group).issue else 0
    (∃ k', tget (grantPush n x s).sch.tasks n = some k' ∧ k'.inbox = k.inbox ++ [x % 2 ^ 48 + stamp * 2 ^ 48] ∧ k'.flags % 2 = 1 ∧
      k'.running = k.running ∧ k'.mask = k.mask) ∧
    (∀ m, m ≠ n → ((tget (grantPush n x s).sch.tasks m).map fun j => j.inbox) = (tget s.sch.tasks m).map fun j => j.inbox) ∧
    (k.grouped = true → (groupAt (grantPush n x s) k.group).issue = ((groupAt s k.group).issue + 1) % 65536) ∧
    (grantPush n x s).sch.waits = s.sch.waits ∧ (grantPush n x s).sch.handed = s.sch.handed ∧
    { grantPush n x s with sch := {}, regs := [] } = { s with sch := {}, regs := [] } := by
  intro stamp
  have e : grantPush n x s = makeReady n (setTask n { k with inbox := k.inbox ++ [x % 2 ^ 48 + stamp * 2 ^ 48] }.sync
      (if k.grouped then { s with sch.groups := tput s.sch.groups k.group { groupAt s k.group with issue := ((groupAt s k.group).issue + 1) % 65536 } } else s)) := by
    unfold grantPush
    rw [hk]
  have hs : ∀ a : Nat, (a / 2 * 2 + 1) % 2 = 1 := by omega
  clear_value stamp
  have h1 : ∃ s1 : Dev, (if k.grouped then
      { s with sch.groups := tput s.sch.groups k.group { groupAt s k.group with issue := ((groupAt s k.group).issue + 1) % 65536 } } else s) = s1 ∧
      s1.sch.tasks = s.sch.tasks ∧ s1.sch.waits = s.sch.waits ∧ s1.sch.handed = s.sch.handed ∧
      { s1 with sch := {}, regs := [] } = { s with sch := {}, regs := [] } ∧
      (k.grouped = true → (groupAt s1 k.group).issue = ((groupAt s k.group).issue + 1) % 65536) := by
    refine ⟨_, rfl, ?_⟩
    split
    · exact ⟨rfl, rfl, rfl, rfl, fun _ => by simp [groupAt]⟩
    · rename_i h
      exact ⟨rfl, rfl, rfl, rfl, fun h' => absurd h' h⟩
  obtain ⟨s1, r1, r2, r3, r4, r5, r6⟩ := h1
  have p := makeReady_placed n (setTask n { k with inbox := k.inbox ++ [x % 2 ^ 48 + stamp * 2 ^ 48] }.sync s1)
  rw [r1] at e
  rw [e]
  refine ⟨?_, ?_, ?_, p.waits.trans r3, p.handed.trans r4, p.rest.trans r5⟩
  · obtain ⟨q, w, h⟩ := p.tasks n
    rw [setTask_tasks, tget_tput_self] at h
    exact ⟨_, h, rfl, by simp [Task.sync, hs], rfl, rfl⟩
  · intro m hm
    obtain ⟨q, w, h⟩ := p.tasks m
    rw [h, setTask_tasks, tget_tput_ne _ _ hm, r2, Option.map_map]
    rfl
  · intro hg
    rw [← r6 hg]
    simp only [groupAt, p.groups, setTask_groups]

/-- A push that finds no room, or others waiting, waits behind them (R113). -/
theorem pushItem_waits (n x : Nat) (s : Dev) (k : Task) (hk : tget s.sch.tasks n = some k) (hn : (pushRoom s k && waitsAt s n == []) = false) :
    waitsAt (pushItem n x s) n = waitsAt s n ++ [x] ∧ (pushItem n x s).sch.tasks = s.sch.tasks ∧ (pushItem n x s).sch.groups = s.sch.groups ∧
      rg (pushItem n x s) R.SCH_BP_WAITS = BitVec.ofNat 32 (min ((rg s R.SCH_BP_WAITS).toNat + 1) 0xFFFFFFFF) := by
  unfold pushItem
  rw [hk]
  dsimp -zeta only
  rw [hn, if_neg (by simp)]
  extract_lets s1 sc
  have h1 : waitsAt s1 n = waitsAt s n ++ [x] ∧ s1.sch.tasks = s.sch.tasks ∧ s1.sch.groups = s.sch.groups ∧
      rg s1 R.SCH_BP_WAITS = BitVec.ofNat 32 (min ((rg s R.SCH_BP_WAITS).toNat + 1) 0xFFFFFFFF) := by
    refine ⟨waitsAt_setWaits n _ s, rfl, rfl, ?_⟩
    simp only [s1]
    rw [rg_bump_self]
    rfl
  clear_value s1
  have h2 : ∀ f : Tbl Time, waitsAt (postCode 7 11 1 n { s1 with sch := { sc with fullAt := f } }) n = waitsAt s n ++ [x] ∧
      (postCode 7 11 1 n { s1 with sch := { sc with fullAt := f } }).sch.tasks = s.sch.tasks ∧
      (postCode 7 11 1 n { s1 with sch := { sc with fullAt := f } }).sch.groups = s.sch.groups ∧
      rg (postCode 7 11 1 n { s1 with sch := { sc with fullAt := f } }) R.SCH_BP_WAITS = BitVec.ofNat 32 (min ((rg s R.SCH_BP_WAITS).toNat + 1) 0xFFFFFFFF) := by
    intro f
    have p := postCode_frame 7 11 1 n { s1 with sch := { sc with fullAt := f } }
    have q : (postCode 7 11 1 n { s1 with sch := { sc with fullAt := f } }).sch = { sc with fullAt := f } := congrArg (·.sch) p.1
    refine ⟨?_, by rw [q]; exact h1.2.1, by rw [q]; exact h1.2.2.1, ?_⟩
    · rw [waitsAt, q]
      exact h1.1
    · rw [← h1.2.2.2]
      exact p.2 R.SCH_BP_WAITS (by decide)
  cases tget s1.sch.fullAt n with
  | none => exact h2 _
  | some v =>
    by_cases hc : v + sec 1 ≤ s1.raw
    · simp only [hc, decide_true, if_true]
      exact h2 _
    · simp only [hc, decide_false, Bool.false_eq_true, if_false]
      exact h1

/-- What a dispatch of a task does (R110, R111). -/
theorem dispatchTask_spec (n : Nat) (k : Task) (s : Dev) :
    let takes := bit k.mask 0 && k.inbox != []
    (∃ k', tget (dispatchTask n k s).sch.tasks n = some k' ∧ k'.running = true ∧ k'.queued = false ∧
      k'.inbox = (if takes then k.inbox.tail else k.inbox) ∧ k'.dispatches = (k.dispatches + 1) % 2 ^ 32 ∧ k'.level = k.nextLevel) ∧
    (∀ m, m ≠ n → tget (dispatchTask n k s).sch.tasks m = tget s.sch.tasks m) ∧
    (dispatchTask n k s).sch.handed = tput s.sch.handed n (k.flags &&& k.mask, if takes then k.inbox.head? else none) ∧
    (k.grouped = true → (groupAt (dispatchTask n k s) k.group).busy = true) ∧
    rg (dispatchTask n k s) R.SCH_DISPATCHES = BitVec.ofNat 32 (min ((rg s R.SCH_DISPATCHES).toNat + 1) 0xFFFFFFFF) ∧
    (dispatchTask n k s).sch.ready = s.sch.ready := by
  intro takes
  unfold dispatchTask
  extract_lets seen item t' sc gr s1
  have h1 : s1.sch.tasks = s.sch.tasks ∧ s1.sch.ready = s.sch.ready ∧ s1.sch.handed = s.sch.handed ∧ s1.regs = s.regs := by
    simp only [s1]
    split <;> exact ⟨rfl, rfl, rfl, rfl⟩
  have h2 : k.grouped = true → (groupAt s1 k.group).busy = true := by
    intro h
    simp [s1, h, groupAt]
  clear_value s1
  refine ⟨⟨t'.sync, by simp, rfl, rfl, rfl, rfl, rfl⟩, ?_, ?_, ?_, ?_, ?_⟩
  · intro m hm
    rw [bump_sch, setTask_tasks, tget_tput_ne _ _ hm]
    exact congrArg (fun x => tget x m) h1.1
  · show tput s1.sch.handed n _ = _
    rw [h1.2.2.1]
  · intro h
    exact h2 h
  · rw [rg_bump_self]
    simp only [setTask, rg, h1.2.2.2]
  · exact h1.2.1

/-- The one key that a table gained. -/
theorem find_put {α : Type} (m : Tbl α) (n : Nat) (v : α) (h : ∀ x ∈ m, x.1 ≠ n) :
    ((tput m n v).find? fun y => !thas m y.1) = some (n, v) := by
  have no : thas m n = false := by
    have : ∀ m : Tbl α, (∀ x ∈ m, x.1 ≠ n) → tget m n = none := by
      intro m h
      induction m with
      | nil => rfl
      | cons a r ih =>
        obtain ⟨a, x⟩ := a
        simp only [tget]
        rw [if_neg (fun e => h (a, x) (by simp) e.symm), ih fun y hy => h y (by simp [hy])]
    simp [thas, this m h]
  have gen : ∀ l : Tbl α, (∀ x ∈ l, x.1 ≠ n ∧ thas m x.1 = true) →
      ((tput l n v).find? fun y => !thas m y.1) = some (n, v) := by
    intro l hl
    induction l with
    | nil => simp [tput, no]
    | cons a r ih =>
      obtain ⟨a, x⟩ := a
      have ha := hl (a, x) (by simp)
      simp only [tput]
      split
      · simp [no]
      · rw [if_neg (fun e => ha.1 e.symm), List.find?_cons]
        simp only [ha.2, Bool.not_true]
        exact ih fun y hy => hl y (by simp [hy])
  refine gen m fun x hx => ⟨h x hx, ?_⟩
  have : ∀ m : Tbl α, x ∈ m → (tget m x.1).isSome := by
    intro m hx
    induction m with
    | nil => cases hx
    | cons a r ih =>
      obtain ⟨a, y⟩ := a
      simp only [tget]
      split
      · rfl
      · rename_i hne
        rcases List.mem_cons.mp hx with e | e
        · exact absurd (by rw [e]) hne
        · exact ih e
  exact this m hx

/-- What a completion does (R110, R111). -/
theorem schComplete_spec (n : Nat) (s : Dev) (k : Task) (hk : tget s.sch.tasks n = some k) (hr : k.running = true) :
    ∃ k', tget (schComplete n s).sch.tasks n = some k' ∧ k'.running = false ∧ k'.inbox = k.inbox ∧ tget (schComplete n s).sch.handed n = none ∧
      (k.grouped = true → (groupAt (schComplete n s) k.group).busy = false ∧
        (groupAt (schComplete n s) k.group).serve = (if ((tget s.sch.handed n).bind (·.2)).isSome then ((groupAt s k.group).serve + 1) % 65536
          else (groupAt s k.group).serve)) := by
  unfold schComplete
  rw [hk]
  dsimp -zeta only
  rw [if_neg (by simp [hr])]
  extract_lets took sc s1 g sc2 s2
  have tk : took = ((tget s.sch.handed n).bind (·.2)).isSome := by
    simp only [took]
    cases h : tget s.sch.handed n with
    | none => rfl
    | some x =>
      obtain ⟨a, b⟩ := x
      cases b <;> rfl
  have h1 : tget s1.sch.tasks n = some { k with running := false } ∧ tget s1.sch.handed n = none ∧ s1.sch.groups = s.sch.groups := by
    refine ⟨by simp [s1], by simp [s1], rfl⟩
  have gg : g = groupAt s k.group := by simp only [g, groupAt, h1.2.2]
  have h2 : tget s2.sch.tasks n = some { k with running := false } ∧ tget s2.sch.handed n = none ∧
      groupAt s2 k.group = { g with busy := false, serve := if took then (g.serve + 1) % 65536 else g.serve } := by
    refine ⟨h1.1, h1.2.1, by simp [s2, groupAt]⟩
  rw [← tk, ← gg]
  clear_value took
  clear_value s2
  clear_value s1
  split
  · rename_i hg
    have p := (foldl_makeReady_placed g.members n s2).trans (makeReady_placed n _)
    obtain ⟨q, w, e⟩ := p.tasks n
    rw [h2.1] at e
    refine ⟨_, e, rfl, rfl, by rw [p.handed]; exact h2.2.1, fun _ => ?_⟩
    rw [show groupAt (makeReady n (List.foldl (fun s m => if m = n then s else makeReady m s) s2 g.members)) k.group = groupAt s2 k.group by
      simp only [groupAt, p.groups], h2.2.2]
    exact ⟨rfl, rfl⟩
  · rename_i hg
    have p := makeReady_placed n s1
    obtain ⟨q, w, e⟩ := p.tasks n
    rw [h1.1] at e
    exact ⟨_, e, rfl, rfl, by rw [p.handed]; exact h1.2.1, fun h => absurd h hg⟩

end Sys2Proof.Machine
end

