-- ==== Sys2Proof/Laws/Video.lean ====
section
/-! SUPPORT. What the video chain's operations can change: a packet its stream and the Plain, a band's end the tasks that wait for it. -/

namespace Sys2Proof.Machine

/-- The device without the Plain and the pager. -/
def Dev.noPlain (s : Dev) : Dev := { s with plain := [], pln := {} }

theorem relWrite_noPlain (k a : Nat) (bs : List Byte) (s : Dev) : (relWrite k a bs s).noPlain = s.noPlain := by
  unfold relWrite
  cases pteAt s k (a / pageBytes) <;> rfl

theorem foldl_noPlain {α : Type} (f : Dev → α → Dev) (h : ∀ s a, (f s a).noPlain = s.noPlain) (l : List α) (s : Dev) :
    (l.foldl f s).noPlain = s.noPlain := by
  induction l generalizing s with
  | nil => rfl
  | cons a r ih => rw [List.foldl_cons, ih, h]

theorem putComponent_noPlain (i : Nat) (x : Stream) (k u v val : Nat) (s : Dev) : (putComponent i x k u v val s).noPlain = s.noPlain :=
  foldl_noPlain _ (fun _ _ => relWrite_noPlain _ _ _ _) _ _

theorem writeSrd_noPlain (i : Nat) (x : Stream) (g : Nat × Nat × Bool × List Byte) (s : Dev) : (writeSrd i x g s).noPlain = s.noPlain :=
  foldl_noPlain _ (fun _ _ => foldl_noPlain _ (fun _ _ => putComponent_noPlain _ _ _ _ _ _ _) _ _) _ _

/-- The posting of flags changes the scheduler, and one counter, alone. -/
theorem postFlags_rest (n f : Nat) (s : Dev) : { postFlags n f s with sch := {}, regs := [] } = { s with sch := {}, regs := [] } := by
  unfold postFlags
  cases tget s.sch.tasks n with
  | none => rfl
  | some t => exact (makeReady_placed n _).rest

theorem postFlags_keepsReg {o : Nat} (h : o ≠ R.SCH_GROUP_WAITS) (n f : Nat) (s : Dev) : KeepsReg o s (postFlags n f s) := by
  unfold postFlags
  cases tget s.sch.tasks n with
  | none => rfl
  | some t => exact (makeReady_keepsReg h n _).trans (rg_congr rfl o)

theorem foldl_rest {α : Type} (f : Dev → α → Dev) (h : ∀ s a, { f s a with sch := {}, regs := [] } = { s with sch := {}, regs := [] }) (l : List α) (s : Dev) :
    { l.foldl f s with sch := {}, regs := [] } = { s with sch := {}, regs := [] } := by
  induction l generalizing s with
  | nil => rfl
  | cons a r ih => rw [List.foldl_cons, ih, h]

/-- BANDS_READY changes the scheduler, and one counter, alone. -/
theorem postBands_rest (i : Nat) (b : Option Nat) (s : Dev) : { postBands i b s with sch := {}, regs := [] } = { s with sch := {}, regs := [] } := by
  unfold postBands
  cases canvasAt s i with
  | none => rfl
  | some c =>
    refine foldl_rest _ (fun s n => ?_) _ _
    cases tget s.sch.tasks n with
    | none => rfl
    | some t =>
      have q : ∀ b : Bool, { (if b then postFlags n 4 s else s) with sch := {}, regs := [] } = { s with sch := {}, regs := [] } := by
        intro b
        cases b with
        | true => exact postFlags_rest _ _ _
        | false => rfl
      exact q _

theorem postBands_keepsReg {o : Nat} (h : o ≠ R.SCH_GROUP_WAITS) (i : Nat) (b : Option Nat) (s : Dev) : KeepsReg o s (postBands i b s) := by
  unfold postBands
  cases canvasAt s i with
  | none => rfl
  | some c =>
    refine foldl_keepsReg _ _ (fun s n => ?_) _ _
    cases tget s.sch.tasks n with
    | none => rfl
    | some t =>
      have q : ∀ b : Bool, KeepsReg o s (if b then postFlags n 4 s else s) := by
        intro b
        cases b with
        | true => exact postFlags_keepsReg h _ _ _
        | false => rfl
      exact q _

theorem postBands_canvas (i j : Nat) (b : Option Nat) (s : Dev) : canvasAt (postBands i b s) j = canvasAt s j := by
  have h := congrArg (fun d : Dev => tget d.vid.canvases j) (postBands_rest i b s)
  exact h

/-- No counter that a posting changes lies in the blocks above them. -/
theorem not_postCounter {o : Nat} (h : 0x100000 ≤ o) : o ∉ postCounters := by
  intro hm
  have : ∀ p ∈ postCounters, p < 0x100000 := by decide
  exact absurd (this o hm) (by omega)

/-- An abort (R151): the pass ends unpublished and is counted. -/
theorem abortPass_spec (i : Nat) (c : Canvas) (p : Pass) (s : Dev) :
    (∃ u, canvasAt (abortPass i c p s) i = some { c with pass := none, aborted := some p.frame, lastUnderrun := u }) ∧
      rg (abortPass i c p s) (R.RAS_CANVAS_ABORTS i) = BitVec.ofNat 32 (min ((rg s (R.RAS_CANVAS_ABORTS i)).toNat + 1) 0xFFFFFFFF) := by
  unfold abortPass
  extract_lets due s1
  have h1 : (∃ u, canvasAt s1 i = some { c with pass := none, aborted := some p.frame, lastUnderrun := u }) ∧
      rg s1 (R.RAS_CANVAS_ABORTS i) = BitVec.ofNat 32 (min ((rg s (R.RAS_CANVAS_ABORTS i)).toNat + 1) 0xFFFFFFFF) := by
    refine ⟨⟨_, tget_tput_self _ _ _⟩, ?_⟩
    simp only [s1]
    rw [rg_bump_self]
    rfl
  clear_value s1
  split
  · have f : PostFrame s1 (postRas 0x02 i (unsgn 32 p.frame) s1) := postCode_frame _ _ _ _ _
    have g := congrArg (fun d : Dev => tget d.vid.canvases i) f.1
    refine ⟨?_, (f.2 _ (not_postCounter ?_)).trans h1.2⟩
    · obtain ⟨u, hu⟩ := h1.1
      exact ⟨u, g.trans hu⟩
    · have : R.RAS_CANVAS_ABORTS i = 0x220124 + 0x40 * i := rfl
      omega
  · exact h1

/-- A published pass (R138): the buffers change roles. -/
theorem publish_canvas (i : Nat) (c : Canvas) (p : Pass) (s : Dev) :
    canvasAt (publish i c p s) i = some { c with pass := none, pub := 1 - c.pub, pubFrame := some p.frame } := by
  unfold publish
  extract_lets u s1 s2 s3
  clear_value s3
  exact tget_tput_self _ _ _

theorem bump_setCanvas (o i : Nat) (c : Canvas) (s : Dev) :
    rg (bump o (setCanvas i c s)) o = BitVec.ofNat 32 (min ((rg s o).toNat + 1) 0xFFFFFFFF) := by
  have e0 : ∀ y : Canvas, rg (setCanvas i y s) o = rg s o := fun _ => rg_congr rfl _
  rw [rg_bump_self, e0]

/-- A published pass is counted. -/
theorem publish_counts (i : Nat) (c : Canvas) (p : Pass) (s : Dev) :
    rg (publish i c p s) (R.RAS_CANVAS_PASSES i) = BitVec.ofNat 32 (min ((rg s (R.RAS_CANVAS_PASSES i)).toNat + 1) 0xFFFFFFFF) := by
  unfold publish
  extract_lets u s1 s2 s3
  rw [bump_setCanvas]
  have e : rg s3 (R.RAS_CANVAS_PASSES i) = rg s (R.RAS_CANVAS_PASSES i) := by
    simp only [s3, s2, s1]
    rw [rg_setRg_ne _ _ (by simp), rg_setRg_ne _ _ (by simp), rg_setFld_ne _ _ _ (by simp), rg_setFld_ne _ _ _ (by simp)]
  rw [e]

theorem publish_rest (i : Nat) (c : Canvas) (p : Pass) (s : Dev) : (publish i c p s).plain = s.plain ∧ (publish i c p s).sch = s.sch := by
  unfold publish
  extract_lets u s1 s2 s3
  exact ⟨by simp only [s3, s2, s1, setRg_plain, setFld_plain, bump_plain, setCanvas], by simp only [s3, s2, s1, setRg_sch, setFld_sch, bump_sch, setCanvas]⟩

/-- The marker packet of a whole frame (R130, R132). -/
theorem streamPacket_completes (i : Nat) (x : Stream) (p : VideoPkt) (s : Dev) (h5 : p.lenOk = true) (h6 : p.srd.length ≤ 3) (h7 : p.srd.all (srdOk x) = true)
    (h8 : p.marker = true) (h9 : x.frame = some (p.rtpTime, false)) (h10 : x.lastSeq = some ((p.seq + 2 ^ 32 - 1) % 2 ^ 32)) (h11 : p.seq < 2 ^ 32) :
    ∃ y, tget (streamPacket i x p s).vid.streams i = some y ∧ y.c = x.w ∧ y.cTime = p.rtpTime ∧ y.lost = false ∧ y.l = x.l ∧ y.heard = s.raw ∧ y.frame = none ∧
      rg (streamPacket i x p s) (R.PKT_ING_FRAMES i) = BitVec.ofNat 32 (min ((rg s (R.PKT_ING_FRAMES i)).toNat + 1) 0xFFFFFFFF) := by
  have hg : (p.seq + 2 ^ 32 - (p.seq + 2 ^ 32 - 1) % 2 ^ 32 - 1) % 2 ^ 32 = 0 := by omega
  have lb : (!p.lenOk || decide (3 < p.srd.length)) = false := by simp [h5, Nat.not_lt.2 h6]
  obtain ⟨x', hx⟩ : ∃ x' : Stream, { x with lastSeq := some p.seq, frame := some (p.rtpTime, false), heard := s.raw } = x' := ⟨_, rfl⟩
  have x1 : x'.w = x.w ∧ x'.l = x.l ∧ x'.heard = s.raw ∧ x'.lost = x.lost := by
    rw [← hx]
    exact ⟨rfl, rfl, rfl, rfl⟩
  have e : streamPacket i x p s =
      (let z := p.srd.foldl (fun s g => writeSrd i x' g s) (setStream i x' s)
       let b := bump (R.PKT_ING_FRAMES i) z
       let k := if (x'.complete p.rtpTime).2 then bump (R.PKT_ING_SKIPPED i) b else b
       if (x'.complete p.rtpTime).1.lost then postIng 0x11 i (setStream i { (x'.complete p.rtpTime).1 with lost := false } k)
       else setStream i (x'.complete p.rtpTime).1 k) := by
    unfold streamPacket
    dsimp -zeta only
    rw [lb, h7, h9, h10]
    dsimp only
    rw [hg]
    simp only [Bool.not_false, Bool.not_true, Bool.and_false, Bool.false_eq_true, if_false, if_true, h8, Bool.or_false, hx, bne_self_eq_false]
  rw [e]
  extract_lets z b k
  have zp : z.noPlain = (setStream i x' s).noPlain := foldl_noPlain _ (fun _ _ => writeSrd_noPlain _ _ _ _) _ _
  have zr : rg z (R.PKT_ING_FRAMES i) = rg s (R.PKT_ING_FRAMES i) := rg_congr (congrArg (fun d : Dev => d.regs) zp) _
  clear_value z
  have kb : rg k (R.PKT_ING_FRAMES i) = BitVec.ofNat 32 (min ((rg s (R.PKT_ING_FRAMES i)).toNat + 1) 0xFFFFFFFF) := by
    have b1 : rg b (R.PKT_ING_FRAMES i) = BitVec.ofNat 32 (min ((rg s (R.PKT_ING_FRAMES i)).toNat + 1) 0xFFFFFFFF) := by
      rw [← zr]
      exact rg_bump_self _ _
    simp only [k]
    split
    · rw [rg_bump_ne _ (by simp)]
      exact b1
    · exact b1
  clear_value k
  have cp : (x'.complete p.rtpTime).1.c = x.w ∧ (x'.complete p.rtpTime).1.cTime = p.rtpTime ∧ (x'.complete p.rtpTime).1.l = x.l ∧
      (x'.complete p.rtpTime).1.heard = s.raw ∧ (x'.complete p.rtpTime).1.frame = none := ⟨x1.1, rfl, x1.2.1, x1.2.2.1, rfl⟩
  split
  · have f : PostFrame (setStream i { (x'.complete p.rtpTime).1 with lost := false } k) (postIng 0x11 i (setStream i { (x'.complete p.rtpTime).1 with lost := false } k)) :=
      postCode_frame _ _ _ _ _
    have g := congrArg (fun d : Dev => tget d.vid.streams i) f.1
    refine ⟨{ (x'.complete p.rtpTime).1 with lost := false }, g.trans (tget_tput_self _ _ _), cp.1, cp.2.1, rfl, cp.2.2.1, cp.2.2.2.1, cp.2.2.2.2, ?_⟩
    refine (f.2 _ (not_postCounter ?_)).trans kb
    have : R.PKT_ING_FRAMES i = 0x210104 + 0x20 * i := rfl
    omega
  · rename_i hl
    exact ⟨(x'.complete p.rtpTime).1, tget_tput_self _ _ _, cp.1, cp.2.1, by simpa using hl, cp.2.2.1, cp.2.2.2.1, cp.2.2.2.2, kb⟩

end Sys2Proof.Machine
end

