-- ==== Sys2Proof/Laws/Inputs.lean ====
section
/-! SUPPORT. What the events of input universes and of transmit queues can change. -/

namespace Sys2Proof.Machine

theorem post_outp (code mod sub arg : Nat) (s : Dev) : (postCode code mod sub arg s).outp = s.outp := by
  have q := congrArg (fun d : Dev => d.outp) (postCode_frame code mod sub arg s).1
  exact q

theorem postSite_outp (typ code z n : Nat) (s : Dev) : (postSite typ code z n s).outp = s.outp := post_outp _ _ _ _ _

theorem postIn_outp (code i src : Nat) (s : Dev) : (postIn code i src s).outp = s.outp := post_outp _ _ _ _ _

theorem zoneOverride_outp (z : Nat) (s : Dev) : (zoneOverride z s).outp = s.outp := by
  unfold zoneOverride
  cases zoneAt s z with
  | none => rfl
  | some x =>
    dsimp -zeta only
    split
    · rfl
    · extract_lets now
      split
      · rfl
      · exact (postSite_outp _ _ _ _ _).trans rfl
      · split <;> rfl
      · exact (postSite_outp _ _ _ _ _).trans rfl

theorem zoneOverride_keepsReg {o : Nat} (h : o ∉ postCounters) (z : Nat) (s : Dev) : KeepsReg o s (zoneOverride z s) := by
  unfold zoneOverride
  cases zoneAt s z with
  | none => rfl
  | some x =>
    dsimp -zeta only
    split
    · rfl
    · extract_lets now
      split
      · rfl
      · exact (postCode_keepsReg h _ _ _ _ _).trans (rg_congr rfl o)
      · split
        · rfl
        · exact rg_congr rfl o
      · exact (postCode_keepsReg h _ _ _ _ _).trans (rg_congr rfl o)

theorem foldl_outp {α : Type} (f : Dev → α → Dev) (h : ∀ s a, (f s a).outp = s.outp) (l : List α) (s : Dev) : (l.foldl f s).outp = s.outp := by
  induction l generalizing s with
  | nil => rfl
  | cons a r ih => rw [List.foldl_cons, ih, h]

theorem allOverrides_outp (s : Dev) : (allOverrides s).outp = s.outp := foldl_outp _ (fun _ _ => zoneOverride_outp _ _) _ _

theorem allOverrides_keepsReg {o : Nat} (h : o ∉ postCounters) (s : Dev) : KeepsReg o s (allOverrides s) :=
  foldl_keepsReg _ _ (fun _ _ => zoneOverride_keepsReg h _ _) _ _

theorem allOverrides_inputs (s : Dev) (i : Nat) : inputAt (allOverrides s) i = inputAt s i := by
  unfold inputAt
  rw [allOverrides_outp]

theorem postIn_input (code i src j : Nat) (s : Dev) : inputAt (postIn code i src s) j = inputAt s j :=
  congrArg (fun d : Outp => tget d.inputs j) (postIn_outp code i src s)

theorem inputAt_setInput (i : Nat) (u : Input) (s : Dev) : inputAt (setInput i u s) i = some u := tget_tput_self _ _ _

/-- RELEASED: no merged slot is left (R164). -/
theorem releaseInput_spec (i : Nat) (s : Dev) (u : Input) (h : inputAt s i = some u) :
    inputAt (releaseInput i s) i = some { u with st := 3, merged := [], winPrio := 0 } := by
  unfold releaseInput
  rw [h]
  exact (postIn_input _ _ _ _ _).trans (inputAt_setInput _ _ _)

/-- A lost source frees its position; the last one takes the universe to HOLDING, or to RELEASED where it holds for no time (R164). -/
theorem loseSource_spec (i pos : Nat) (s : Dev) (u : Input) (h : inputAt s i = some u) :
    ∃ v, inputAt (loseSource i pos s) i = some v ∧ v.srcs = tdel u.srcs pos ∧ v.losses = sat (u.losses + 1) ∧
      (tdel u.srcs pos ≠ [] → u.st ≠ 2 → v.st = u.st) ∧ (tdel u.srcs pos = [] → u.loss = 0 ∨ u.holdMs ≠ 0 → v.st = 2) ∧
      (tdel u.srcs pos = [] → u.loss = 1 → u.holdMs = 0 → v.st = 3) := by
  unfold loseSource
  rw [h]
  dsimp -zeta only
  extract_lets a b c
  have hb : b.srcs = tdel u.srcs pos ∧ b.losses = sat (u.losses + 1) ∧ b.loss = u.loss ∧ b.holdMs = u.holdMs ∧ (tdel u.srcs pos ≠ [] → b.st = u.st) ∧ (tdel u.srcs pos = [] → b.st = 2) := by
    simp only [b, a]
    by_cases he : tdel u.srcs pos = []
    · rw [if_pos he]
      exact ⟨rfl, rfl, rfl, rfl, fun h => absurd he h, fun _ => rfl⟩
    · rw [if_neg he]
      exact ⟨rfl, rfl, rfl, rfl, fun _ => rfl, fun h => absurd h he⟩
  have hc : inputAt c i = some b := (postIn_input _ _ _ _ _).trans (inputAt_setInput _ _ _)
  clear_value c
  clear_value b
  obtain ⟨b1, b2, b3, b4, b5, b6⟩ := hb
  rw [b3, b4]
  split
  · rename_i g
    refine ⟨_, releaseInput_spec i c b hc, b1, b2, fun h1 h2 => absurd (b5 h1 ▸ g.1) h2, fun _ h2 => ?_, fun _ _ _ => rfl⟩
    omega
  · rename_i g
    refine ⟨b, hc, b1, b2, fun h1 _ => b5 h1, fun h1 _ => b6 h1, fun h1 h2 h3 => absurd ⟨b6 h1, h2, h3⟩ g⟩

/-- The loss of a source leaves the count of terminations. -/
theorem loseSource_terminated (i pos : Nat) (s : Dev) (u v : Input) (h : inputAt s i = some u) (h' : inputAt (loseSource i pos s) i = some v) :
    v.terminated = u.terminated := by
  unfold loseSource at h'
  rw [h] at h'
  dsimp -zeta only at h'
  extract_lets a b c at h'
  have hb : b.terminated = u.terminated := by
    simp only [b, a]
    split <;> rfl
  have hc : inputAt c i = some b := (postIn_input _ _ _ _ _).trans (inputAt_setInput _ _ _)
  clear_value c
  clear_value b
  split at h'
  · rw [releaseInput_spec i c b hc] at h'
    injection h' with e
    rw [← e]
    exact hb
  · rw [hc] at h'
    injection h' with e
    rw [← e]
    exact hb

/-- An accepted packet is its source's newest (R161-R163). -/
theorem acceptE131_spec (i pos : Nat) (p : E131Pkt) (s : Dev) (u : Input) (h : inputAt s i = some u) :
    ∃ v x, inputAt (acceptE131 i pos p s) i = some v ∧ v.st = 1 ∧ tget v.srcs pos = some x ∧ x.cid = p.cid ∧ x.prio = p.priority ∧ x.seq = p.seq ∧
      x.slots = p.slots.take 512 ∧ v.packets = sat (u.packets + 1) ∧ v.winPrio = (v.srcs.map (·.2.prio)).foldl max 0 := by
  unfold acceptE131
  rw [h]
  dsimp -zeta only
  extract_lets e live v w
  have hw : inputAt w i = some (v.remerge s.raw) := inputAt_setInput _ _ _
  clear_value w
  have fin : ∃ v' x, some (v.remerge s.raw) = some v' ∧ v'.st = 1 ∧ tget v'.srcs pos = some x ∧ x.cid = p.cid ∧ x.prio = p.priority ∧ x.seq = p.seq ∧
      x.slots = p.slots.take 512 ∧ v'.packets = sat (u.packets + 1) ∧ v'.winPrio = (v'.srcs.map (·.2.prio)).foldl max 0 :=
    ⟨_, e, rfl, rfl, tget_tput_self _ _ _, rfl, rfl, rfl, rfl, rfl, rfl⟩
  split
  · rw [hw]
    exact fin
  · rw [postIn_input, hw]
    exact fin

theorem portAt_setPort (n : Nat) (p : Port) (s : Dev) : portAt (setPort n p s) n = p := by
  simp [portAt, setPort]

theorem portAt_modPort (n : Nat) (f : Port → Port) (s : Dev) : portAt (modPort n f s) n = f (portAt s n) := portAt_setPort _ _ _

/-- Queueing a frame leaves the syncs of the port as they were. -/
theorem queueFrame_sync (n : Nat) (f : TxFrame) (s : Dev) :
    (portAt (queueFrame n f s) n).syncSeq = (portAt s n).syncSeq ∧ (portAt (queueFrame n f s) n).syncN = (portAt s n).syncN ∧
      (portAt (queueFrame n f s) n).syncFor = (portAt s n).syncFor := by
  unfold queueFrame
  extract_lets p
  split
  · simp only [cntAdd, portAt_modPort]
    exact ⟨rfl, rfl, rfl⟩
  · split
    · rw [portAt_setPort]
      exact ⟨rfl, rfl, rfl⟩
    · split <;> (rw [portAt_setPort]; exact ⟨rfl, rfl, rfl⟩)

/-- The launch of a sync (R190): the port owes it no longer, and the next sequence number is in force. -/
theorem launchSync_spec (port k : Nat) (n tick : Int) (s : Dev) :
    (portAt (launchSync port k n tick s) port).syncSeq = ((portAt s port).syncSeq + 1) % 256 ∧ (portAt (launchSync port k n tick s) port).syncN = some n ∧
      (portAt (launchSync port k n tick s) port).syncFor = (portAt s port).syncFor.filter fun e => e != (k, n, tick) := by
  unfold launchSync
  extract_lets p owed s1 s2
  have h2 : (portAt s2 port).syncSeq = (p.syncSeq + 1) % 256 ∧ (portAt s2 port).syncN = some n ∧ (portAt s2 port).syncFor = owed := by
    simp only [s2, closeSlack, portAt_modPort]
    have : ∀ x : Dev, x.outp = s1.outp → portAt x port = portAt s1 port := fun x hx => by simp [portAt, hx]
    have e1 : portAt s1 port = { p with syncFor := owed, syncN := some n, syncSeq := (p.syncSeq + 1) % 256 } := portAt_setPort _ _ _
    cases (portAt s1 port).slack with
    | none =>
      rw [this _ (by simp), e1]
      exact ⟨rfl, rfl, rfl⟩
    | some v =>
      rw [this _ (by simp), e1]
      exact ⟨rfl, rfl, rfl⟩
  clear_value s2
  cases tget p.syncPkt k with
  | none => exact h2
  | some b =>
    obtain ⟨q1, q2, q3⟩ := queueFrame_sync port ⟨.sync k n tick, _⟩ s2
    exact ⟨q1.trans h2.1, q2.trans h2.2.1, q3.trans h2.2.2⟩

end Sys2Proof.Machine
end

