-- ==== Sys2Proof/Laws/Events.lean ====
section
/-! SUPPORT. What the events of the outside world change: one lemma for each shared operation. -/

namespace Sys2Proof.Machine

/-- A meaning on the device that answers a next one completes. -/
theorem completes {c : Instr} {f : Dev → Host.Outcome Dev Fault Refusal} {s : State} {d : Dev} (h : exec c s = onDev f s) (g : f s.toDev = .next d) :
    Completes c s d := h.trans (onDev_eq g)

theorem PostFrame.pxp {s s' : Dev} (h : PostFrame s s') : s'.pxp = s.pxp := congrArg (·.pxp) h.1
theorem PostFrame.dmx {s s' : Dev} (h : PostFrame s s') : s'.dmx = s.dmx := congrArg (·.dmx) h.1
theorem PostFrame.outp {s s' : Dev} (h : PostFrame s s') : s'.outp = s.outp := congrArg (·.outp) h.1
theorem PostFrame.tim {s s' : Dev} (h : PostFrame s s') : s'.tim = s.tim := congrArg (·.tim) h.1
theorem PostFrame.vid {s s' : Dev} (h : PostFrame s s') : s'.vid = s.vid := congrArg (·.vid) h.1
theorem PostFrame.site {s s' : Dev} (h : PostFrame s s') : s'.site = s.site := congrArg (·.site) h.1
theorem PostFrame.val {s s' : Dev} (h : PostFrame s s') : s'.val = s.val := congrArg (·.val) h.1
theorem PostFrame.red {s s' : Dev} (h : PostFrame s s') : s'.red = s.red := congrArg (·.red) h.1
theorem PostFrame.boot {s s' : Dev} (h : PostFrame s s') : s'.boot = s.boot := congrArg (·.boot) h.1
theorem PostFrame.raw {s s' : Dev} (h : PostFrame s s') : s'.raw = s.raw := congrArg (·.raw) h.1

/-! Sending -/

theorem tput_twice {α : Type} (m : Tbl α) (k : Nat) (v w : α) : tput (tput m k v) k w = tput m k w := by
  induction m with
  | nil => simp [tput]
  | cons e r ih =>
    simp only [tput]
    split
    · simp [tput]
    · split
      · simp [tput]
      · simp only [tput]
        rename_i h g
        rw [if_neg h, if_neg g, ih]

theorem setPort_setPort (n : Nat) (p q : Port) (s : Dev) : setPort n q (setPort n p s) = setPort n q s := by
  simp [setPort, tput_twice]

/-- What the queues of a port change: the outputs, the rings and what posting uses; registers outside those of posting and the count of
unresolved destinations stay. -/
structure SendFrame (s s' : Dev) : Prop where
  val : s'.val = s.val
  idents : s'.outp.idents = s.outp.idents
  univs : s'.outp.univs = s.outp.univs
  regs : ∀ o, o ∉ postCounters → (∀ p, o ≠ R.PKT_TXP_UNRESOLVED p) → rg s' o = rg s o

theorem SendFrame.refl (s : Dev) : SendFrame s s := ⟨rfl, rfl, rfl, fun _ _ _ => rfl⟩

theorem SendFrame.trans {a b c : Dev} (h : SendFrame a b) (g : SendFrame b c) : SendFrame a c :=
  ⟨g.val.trans h.val, g.idents.trans h.idents, g.univs.trans h.univs, fun o x y => (g.regs o x y).trans (h.regs o x y)⟩

theorem setPort_sends (n : Nat) (p : Port) (s : Dev) : SendFrame s (setPort n p s) := ⟨rfl, rfl, rfl, fun _ _ _ => rfl⟩

theorem modPort_sends (n : Nat) (f : Port → Port) (s : Dev) : SendFrame s (modPort n f s) := setPort_sends _ _ _

theorem postCode_sends (a b c x : Nat) (s : Dev) : SendFrame s (postCode a b c x s) := by
  have f := postCode_frame a b c x s
  have v := congrArg (fun d : Dev => d.val) f.1
  have i := congrArg (fun d : Dev => d.outp.idents) f.1
  have u := congrArg (fun d : Dev => d.outp.univs) f.1
  exact ⟨v, i, u, fun o h _ => f.2 o h⟩

theorem queueFrame_sends (n : Nat) (f : TxFrame) (s : Dev) : SendFrame s (queueFrame n f s) := by
  unfold queueFrame
  extract_lets p
  split
  · exact modPort_sends _ _ _
  · split
    · exact setPort_sends _ _ _
    · split <;> exact setPort_sends _ _ _

theorem askArp_sends (n ip : Nat) (s : Dev) : SendFrame s (askArp n ip s) := by
  unfold askArp sendArp
  exact (modPort_sends _ _ _).trans (queueFrame_sends _ _ _)

theorem resolve_sends (n ip : Nat) (s : Dev) : SendFrame s (resolve n ip s).1 := by
  unfold resolve
  extract_lets p h
  split
  · exact .refl s
  · split
    · split
      · split <;> exact .refl s
      · exact .refl s
    · exact (setPort_sends _ _ _).trans (askArp_sends _ _ _)

theorem unresolved_sends (port univ ip : Nat) (s : Dev) : SendFrame s (unresolved port univ ip s) := by
  unfold unresolved
  extract_lets a p
  have ha : SendFrame s a := ⟨rfl, rfl, rfl, fun o _ h => rg_bump_ne _ (h port)⟩
  clear_value a
  have q : ∀ b : Bool, SendFrame s (if b then postCode 0x21 4 0x32 (port * 2 ^ 32 + univ % 32768) (setPort port { p with unresolvedAt := tput p.unresolvedAt ip a.raw } a) else a) := by
    intro b
    cases b
    · exact ha
    · exact ha.trans ((setPort_sends _ _ _).trans (postCode_sends _ _ _ _ _))
  exact q _

theorem queuePacket_sends (key : Nat) (tag : TxTag) (term : Bool) (slots : List Byte) (s : Dev) : SendFrame s (queuePacket key tag term slots s) := by
  unfold queuePacket
  cases sender s key with
  | none => exact .refl s
  | some e =>
    obtain ⟨u, i⟩ := e
    dsimp -zeta only
    split
    · have r := resolve_sends u.dest u.destIp s
      generalize resolve u.dest u.destIp s = q at r
      obtain ⟨s', m⟩ := q
      cases m with
      | none =>
        dsimp only at r ⊢
        exact r.trans (unresolved_sends _ _ _ _)
      | some m =>
        dsimp only at r ⊢
        exact r.trans (queueFrame_sends _ _ _)
    · exact queueFrame_sends _ _ _

theorem sendShow_sends (key pace : Nat) (n a b c : Int) (term : Bool) (slots : List Byte) (s : Dev) : SendFrame s (sendShow key pace n a b c term slots s) := by
  unfold sendShow
  cases sender s key with
  | none => exact .refl s
  | some e =>
    obtain ⟨u, i⟩ := e
    dsimp -zeta only
    split
    · exact .refl s
    · extract_lets sync opens s1
      have h1 : SendFrame s s1 := by
        simp only [s1]
        split
        · unfold oweSync
          exact modPort_sends _ _ _
        · exact .refl s
      exact h1.trans (queuePacket_sends _ _ _ _ _)

theorem sendHosted_sends (k : Nat) (h : Hosted) (n : Int) (term : Bool) (slots : List Byte) (s : Dev) : SendFrame s (sendHosted k h n term slots s) :=
  sendShow_sends _ _ _ _ _ _ _ _ _

theorem foldl_idents {α : Type} (f : Dev → α → Dev) (h : ∀ s a, (f s a).outp.idents = s.outp.idents ∧ (f s a).val = s.val) (l : List α) (s : Dev) :
    (l.foldl f s).outp.idents = s.outp.idents ∧ (l.foldl f s).val = s.val := by
  induction l generalizing s with
  | nil => exact ⟨rfl, rfl⟩
  | cons a r ih =>
    rw [List.foldl_cons, (ih _).1, (ih _).2]
    exact h s a

/-- Discovery packets leave the identities as they were. -/
theorem discover_idents (x : Ident) (i p : Nat) (s : Dev) : (discover x i p s).outp.idents = s.outp.idents ∧ (discover x i p s).val = s.val := by
  unfold discover
  extract_lets ps dst
  refine foldl_idents _ (fun s a => ?_) _ _
  extract_lets r
  exact ⟨(queueFrame_sends _ _ _).idents, (queueFrame_sends _ _ _).val⟩

/-! DMX lines -/

theorem lineAt_setLine (n : Nat) (l : Line) (s : Dev) : lineAt (setLine n l s) n = l := by
  unfold lineAt setLine
  by_cases h : n = 0
  · rw [if_pos h, if_pos h]
  · rw [if_neg h, if_neg h]

theorem setLine_setLine (n : Nat) (l m : Line) (s : Dev) : setLine n m (setLine n l s) = setLine n m s := by
  unfold setLine
  by_cases h : n = 0
  · simp only [if_pos h]
  · simp only [if_neg h]

theorem setLine_regs (n : Nat) (l : Line) (s : Dev) : (setLine n l s).regs = s.regs := by
  unfold setLine
  split <;> rfl

theorem setLine_raw (n : Nat) (l : Line) (s : Dev) : (setLine n l s).raw = s.raw := by
  unfold setLine
  split <;> rfl

theorem lineAt_congr {a b : Dev} (h : a.dmx = b.dmx) (n : Nat) : lineAt a n = lineAt b n := by
  unfold lineAt
  rw [h]

theorem foldl_dmx {α : Type} (f : Dev → α → Dev) (h : ∀ s a, (f s a).dmx = s.dmx) (l : List α) (s : Dev) : (l.foldl f s).dmx = s.dmx := by
  induction l generalizing s with
  | nil => rfl
  | cons a r ih => rw [List.foldl_cons, ih, h]

/-- A packet of a line (R201). -/
theorem dmxSend_spec (n i : Nat) (u : Univ) (s : Dev) :
    (dmxSend n i u s).out = .dmx n (fit u.slots u.payload) :: s.out ∧
      lineAt (dmxSend n i u s) n = { (lineAt s n) with slots := fit u.slots u.payload, lastBreak := some s.raw, tick := (u.tickK : Int) } ∧
      rg (dmxSend n i u s) (R.DMX_LINE_PACKETS n) = BitVec.ofNat 32 (min ((rg s (R.DMX_LINE_PACKETS n)).toNat + 1) 0xFFFFFFFF) := by
  unfold dmxSend
  extract_lets l a b o c
  have ha : a.out = s.out ∧ a.raw = s.raw ∧ rg a (R.DMX_LINE_PACKETS n) = rg s (R.DMX_LINE_PACKETS n) := by
    simp only [a]
    split
    · refine ⟨rfl, rfl, ?_⟩
      rw [rg_setFld_ne _ _ _ (by simp only [R.DMX_LINE_PACKETS]; omega), rg_setFld_ne _ _ _ (by simp only [R.DMX_LINE_PACKETS]; omega)]
    · exact ⟨rfl, rfl, rfl⟩
  clear_value a
  have hb : b.out = a.out ∧ b.regs = a.regs := by
    simp only [b, setLine]
    split <;> exact ⟨rfl, rfl⟩
  have hl : lineAt b n = { l with slots := fit u.slots u.payload, lastBreak := some a.raw, tick := (u.tickK : Int) } := lineAt_setLine _ _ _
  clear_value b
  refine ⟨?_, ?_, ?_⟩
  · show Emit.dmx n _ :: b.out = _
    rw [hb.1, ha.1]
  · rw [show lineAt (emit (.dmx n (fit u.slots u.payload)) (bump (R.DMX_LINE_PACKETS n) c)) n = lineAt b n from lineAt_congr rfl n, hl, ha.2.1]
  · show rg (bump (R.DMX_LINE_PACKETS n) c) _ = _
    rw [rg_bump_self, show rg c (R.DMX_LINE_PACKETS n) = rg a (R.DMX_LINE_PACKETS n) from rg_congr hb.2 _, ha.2.2]

/-- What starting a request takes from the line leaves its transaction numbers, the registers, the time and the trace. -/
theorem rdmTaken_spec (n : Nat) (r : RdmReq) (s : Dev) :
    (lineAt (rdmTaken n r s) n).tn = (lineAt s n).tn ∧ (lineAt (rdmTaken n r s) n).slots = (lineAt s n).slots ∧ (rdmTaken n r s).regs = s.regs ∧ (rdmTaken n r s).raw = s.raw ∧ (rdmTaken n r s).out = s.out := by
  have m : ∀ (f : Line → Line) (x : Dev), (f (lineAt x n)).tn = (lineAt x n).tn → (f (lineAt x n)).slots = (lineAt x n).slots →
      (lineAt (modLine n f x) n).tn = (lineAt x n).tn ∧ (lineAt (modLine n f x) n).slots = (lineAt x n).slots ∧ (modLine n f x).regs = x.regs ∧ (modLine n f x).raw = x.raw ∧ (modLine n f x).out = x.out := by
    intro f x h1 h2
    unfold modLine
    rw [lineAt_setLine]
    refine ⟨h1, h2, ?_⟩
    unfold setLine
    split <;> exact ⟨rfl, rfl, rfl⟩
  unfold rdmTaken
  extract_lets a
  have ha := m (fun l => { l with again := tdel l.again r.serves }) s rfl rfl
  have hm : a = modLine n (fun l => { l with again := tdel l.again r.serves }) s := rfl
  rw [← hm] at ha
  clear_value a
  obtain ⟨a1, a2, a3, a4, a5⟩ := ha
  split
  · obtain ⟨b1, b2, b3, b4, b5⟩ := m (fun l => { l with mailbox := none }) a rfl rfl
    exact ⟨b1.trans a1, b2.trans a2, b3.trans a3, b4.trans a4, b5.trans a5⟩
  · split
    · split
      · exact ⟨a1, a2, a3, a4, a5⟩
      · exact ⟨a1, a2, a3, a4, a5⟩
    · split
      · obtain ⟨b1, b2, b3, b4, b5⟩ := m (fun l => { l with disc := l.disc.map fun d => { d with fresh := false } }) a rfl rfl
        exact ⟨b1.trans a1, b2.trans a2, b3.trans a3, b4.trans a4, b5.trans a5⟩
      · exact ⟨a1, a2, a3, a4, a5⟩

theorem rdmBytes_congr {a b : Dev} (h : a.regs = b.regs) (tn : Nat) (r : RdmReq) : rdmBytes a tn r = rdmBytes b tn r := by
  unfold rdmBytes rdmUid
  rw [rg_congr h, rg_congr h]

/-- A request that is no broadcast of the host starts (R202). -/
theorem rdmStart_spec (n : Nat) (r : RdmReq) (s : Dev) (h : ¬(r.dest = rdmAll ∧ r.serves = 0)) :
    (rdmStart n r s).out = .rdm n (rdmBytes s (((lineAt s n).tn + 1) % 256) r) :: s.out ∧ (lineAt (rdmStart n r s) n).tn = ((lineAt s n).tn + 1) % 256 ∧
      (lineAt (rdmStart n r s) n).req = some { r with sent := r.sent + 1, ends := s.raw + us (rdmUs s n r) } ∧
      rg (rdmStart n r s) (R.DMX_LINE_RDM_REQUESTS n) = BitVec.ofNat 32 (min ((rg s (R.DMX_LINE_RDM_REQUESTS n)).toNat + 1) 0xFFFFFFFF) := by
  obtain ⟨t1, t2, t3, t4, t5⟩ := rdmTaken_spec n r s
  unfold rdmStart
  extract_lets l tn b all c
  have hall : all = false := decide_eq_false h
  clear_value all
  rw [hall]
  have hc : c = setLine n { (lineAt b n) with tn := tn, req := some { r with sent := r.sent + 1, ends := b.raw + us (rdmUs b n r), serves := r.serves } } b := by
    simp only [c, modLine, hall]
    rfl
  have hu : rdmUs b n r = rdmUs s n r := by
    unfold rdmUs dmxPacketUs
    rw [fld_bump_off _ _ _ (by simp only [R.DMX_LINE_RDM_REQUESTS]; omega), fld_bump_off _ _ _ (by simp only [R.DMX_LINE_RDM_REQUESTS]; omega), fld_bump_off _ _ _ (by simp only [R.DMX_LINE_RDM_REQUESTS]; omega)]
    simp only [fld, emit, rg, t3]
  have hr : b.raw = s.raw := t4
  have ho : b.out = .rdm n (rdmBytes s tn r) :: s.out := congrArg (Emit.rdm n (rdmBytes s tn r) :: ·) t5
  have hg : rg b (R.DMX_LINE_RDM_REQUESTS n) = BitVec.ofNat 32 (min ((rg s (R.DMX_LINE_RDM_REQUESTS n)).toNat + 1) 0xFFFFFFFF) := by
    simp only [b, rg_bump_self]
    rw [show rg (emit (.rdm n (rdmBytes s tn r)) (rdmTaken n r s)) (R.DMX_LINE_RDM_REQUESTS n) = rg s (R.DMX_LINE_RDM_REQUESTS n) from rg_congr t3 _]
  clear_value b c
  subst hc
  refine ⟨?_, ?_, ?_, ?_⟩
  · rw [← ho]
    simp only [setLine]
    split
    · rename_i q; cases q
    · split <;> rfl
  · rw [if_neg (by decide), lineAt_setLine]
  · rw [if_neg (by decide), lineAt_setLine, hr, hu]
  · rw [if_neg (by decide), rg_congr (setLine_regs _ _ _), hg]

/-- A host's request that completes (R204): not BUSY any more, DONE, with its status; the lines stay as they are. -/
theorem mailboxDone_spec (n st dt : Nat) (data : List Byte) (s : Dev) (h : st < 16) :
    bitOf (mailboxDone n st dt data s) (F.DMX_LINE_MB_CTRL_BUSY n) = false ∧ bitOf (mailboxDone n st dt data s) (F.DMX_LINE_MB_CTRL_DONE n) = true ∧
      fld (mailboxDone n st dt data s) (F.DMX_LINE_MB_CTRL_STATUS n) = st ∧ (mailboxDone n st dt data s).dmx = s.dmx := by
  unfold mailboxDone
  extract_lets a b
  have hd : a.dmx = s.dmx := foldl_dmx _ (by intro _ _; rfl) _ _
  clear_value a
  have f : PostFrame b (postDmx 1 0x03 n [] b) := post_frame _ _ _ _ _
  have off : R.DMX_LINE_MB_CTRL n ∉ postCounters := not_postCounter (by simp only [R.DMX_LINE_MB_CTRL]; omega)
  refine ⟨?_, ?_, ?_, ?_⟩
  · rw [f.bitOf _ off]
    simp only [b]
    exact bitOf_setBit_self _ _ _ (by simp [Fld.Fits]) rfl
  · rw [f.bitOf _ off]
    simp only [b]
    rw [bitOf_setBit_disjoint _ _ _ _ (by simp [Fld.Fits]) (by simp)]
    exact bitOf_setBit_self _ _ _ (by simp [Fld.Fits]) rfl
  · rw [f.fld _ off]
    simp only [b, setBit]
    rw [fld_setFld_disjoint _ _ _ _ (by simp [Fld.Fits]) (by simp), fld_setFld_disjoint _ _ _ _ (by simp [Fld.Fits]) (by simp), fld_setFld_self _ _ _ (by simp [Fld.Fits])]
    exact Nat.mod_eq_of_lt h
  · have q := congrArg (fun d : Dev => d.dmx) f.1
    exact Eq.trans q hd

/-- A broadcast of the host starts, and completes with ACK (R204). -/
theorem rdmStart_broadcast (n : Nat) (r : RdmReq) (s : Dev) (h : r.dest = rdmAll ∧ r.serves = 0) :
    bitOf (rdmStart n r s) (F.DMX_LINE_MB_CTRL_BUSY n) = false ∧ bitOf (rdmStart n r s) (F.DMX_LINE_MB_CTRL_DONE n) = true ∧
      fld (rdmStart n r s) (F.DMX_LINE_MB_CTRL_STATUS n) = 0 := by
  unfold rdmStart
  extract_lets l tn b all c
  have hall : all = true := by simp [all, h]
  rw [if_pos hall]
  obtain ⟨e1, e2, e3, -⟩ := mailboxDone_spec n 0 0 [] c (by omega)
  exact ⟨e1, e2, e3⟩

/-! Pixel ports -/

theorem pxAt_setPx (n : Nat) (p : PxPort) (s : Dev) : pxAt (setPx n p s) n = p := by
  simp [pxAt, setPx]

theorem mapAt_congr {a b : Dev} (h : a.pxp = b.pxp) (n : Nat) : mapAt a n = mapAt b n := by
  unfold mapAt pxAt
  rw [h]

theorem mapAt_modMap (n : Nat) (f : PxMap → PxMap) (s : Dev) : mapAt (modMap n f s) n = (mapAt s n).map f := by
  unfold modMap mapAt
  rw [pxAt_setPx]

theorem modMap_regs (n : Nat) (f : PxMap → PxMap) (s : Dev) : (modMap n f s).regs = s.regs := rfl

theorem countHeld_spec (u : Nat) (s : Dev) : (countHeld u s).pxp = s.pxp ∧ (countHeld u s).regs = s.regs ∧ (countHeld u s).vid = s.vid ∧ (countHeld u s).sys = s.sys := by
  unfold countHeld
  split <;> exact ⟨rfl, rfl, rfl, rfl⟩

theorem startError_spec (port : Nat) (err : Int) (s : Dev) :
    (startError port err s).pxp = s.pxp ∧ ∀ o, o ≠ R.PXP_START_ERR port → o ≠ R.PXP_START_LATE port → rg (startError port err s) o = rg s o := by
  unfold startError
  extract_lets e a b
  have hb : b.pxp = s.pxp ∧ ∀ o, o ≠ R.PXP_START_ERR port → rg b o = rg s o :=
    ⟨rfl, fun o h => (rg_setFld_ne _ _ _ h).trans (rg_setFld_ne _ _ _ h)⟩
  clear_value b
  split
  · exact ⟨hb.1, fun o h h' => (rg_bump_ne _ h').trans (hb.2 o h)⟩
  · exact ⟨hb.1, fun o h _ => hb.2 o h⟩

theorem emitScan_spec (port : Nat) (s : Dev) : (emitScan port s).pxp = s.pxp ∧ (emitScan port s).regs = s.regs := by
  unfold emitScan
  split
  · split <;> exact ⟨rfl, rfl⟩
  · exact ⟨rfl, rfl⟩

theorem mapAt_setPx (n : Nat) (p : PxPort) (s : Dev) : mapAt (setPx n p s) n = p.map := congrArg (·.map) (pxAt_setPx _ _ _)

theorem postPx_spec (n typ code chan pixel : Nat) (s : Dev) :
    mapAt (postPx n typ code chan pixel s) n = mapAt s n ∧ ∀ o, o ∉ postCounters → o ≠ R.PXP_ITEMS_SUPPRESSED n → rg (postPx n typ code chan pixel s) o = rg s o := by
  have key : ∀ q : PxPort, q.map = mapAt s n →
      let e := if 100 ≤ q.items then bump (R.PXP_ITEMS_SUPPRESSED n) (setPx n q s)
        else postCode (0x28 + n) typ code (chan % 256 * 2 ^ 32 + pixel % 65536) (setPx n { q with items := q.items + 1 } s)
      mapAt e n = mapAt s n ∧ ∀ o, o ∉ postCounters → o ≠ R.PXP_ITEMS_SUPPRESSED n → rg e o = rg s o := by
    intro q hq
    dsimp only
    split
    · exact ⟨(mapAt_congr rfl n).trans ((mapAt_setPx n q s).trans hq), fun o _ h => rg_bump_ne _ h⟩
    · have f := postCode_frame (0x28 + n) typ code (chan % 256 * 2 ^ 32 + pixel % 65536) (setPx n { q with items := q.items + 1 } s)
      generalize postCode (0x28 + n) typ code (chan % 256 * 2 ^ 32 + pixel % 65536) (setPx n { q with items := q.items + 1 } s) = z at f
      exact ⟨(mapAt_congr f.pxp n).trans ((mapAt_setPx n _ s).trans hq), fun o h _ => f.2 o h⟩
  unfold postPx
  dsimp only
  by_cases h : (pxAt s n).itemFrom + sec 1 ≤ s.raw
  · rw [if_pos h]
    exact key _ rfl
  · rw [if_neg h]
    exact key _ rfl

/-- The half that a port takes at a frame start, or its repeat (R214). -/
theorem takeHalf_spec (port : Nat) (n : Int) (m : PxMap) (deadline : Time) (s : Dev) (x : PxMap) (hx : mapAt s port = some x) :
    ∃ y, mapAt (takeHalf port n true m deadline s) port = some y ∧ y.slotN = x.slotN ∧ y.refresh = x.refresh ∧ y.blank = x.blank ∧
      (∀ vs a, m.filled = some (n, vs, a) → a ≤ deadline → y.scan = some (n, vs) ∧ y.lastN = n ∧ y.filled = none ∧
        rg (takeHalf port n true m deadline s) (R.PXP_FRAMES port) = BitVec.ofNat 32 (min ((rg s (R.PXP_FRAMES port)).toNat + 1) 0xFFFFFFFF)) ∧
      (m.filled = none → y.scan = x.scan ∧ rg (takeHalf port n true m deadline s) (R.PXP_FILL_LATE port) = BitVec.ofNat 32 (min ((rg s (R.PXP_FILL_LATE port)).toNat + 1) 0xFFFFFFFF) ∧
        rg (takeHalf port n true m deadline s) (R.PXP_REPEATS port) = BitVec.ofNat 32 (min ((rg s (R.PXP_REPEATS port)).toNat + 1) 0xFFFFFFFF)) := by
  have late : ∀ f : PxMap → PxMap, (f x).slotN = x.slotN → (f x).refresh = x.refresh → (f x).blank = x.blank → (f x).scan = x.scan →
      let e := postPx port 3 0x06 0 0 (bump (R.PXP_REPEATS port) (bump (R.PXP_FILL_LATE port) (modMap port f s)))
      ∃ y, mapAt e port = some y ∧ y.slotN = x.slotN ∧ y.refresh = x.refresh ∧ y.blank = x.blank ∧ y.scan = x.scan ∧
        rg e (R.PXP_FILL_LATE port) = BitVec.ofNat 32 (min ((rg s (R.PXP_FILL_LATE port)).toNat + 1) 0xFFFFFFFF) ∧ rg e (R.PXP_REPEATS port) = BitVec.ofNat 32 (min ((rg s (R.PXP_REPEATS port)).toNat + 1) 0xFFFFFFFF) := by
    intro f f1 f2 f3 f4 e
    obtain ⟨p1, p2⟩ := postPx_spec port 3 0x06 0 0 (bump (R.PXP_REPEATS port) (bump (R.PXP_FILL_LATE port) (modMap port f s)))
    have hm : mapAt (bump (R.PXP_REPEATS port) (bump (R.PXP_FILL_LATE port) (modMap port f s))) port = some (f x) :=
      (mapAt_congr rfl port).trans ((mapAt_modMap _ _ _).trans (congrArg (Option.map f) hx))
    refine ⟨f x, p1.trans hm, f1, f2, f3, f4, ?_, ?_⟩
    · rw [p2 _ (not_postCounter (by simp only [R.PXP_FILL_LATE]; omega)) (by simp only [R.PXP_FILL_LATE, R.PXP_ITEMS_SUPPRESSED]; omega),
        rg_bump_ne _ (by simp only [R.PXP_FILL_LATE, R.PXP_REPEATS]; omega), rg_bump_self, rg_congr (modMap_regs _ _ _)]
    · rw [p2 _ (not_postCounter (by simp only [R.PXP_REPEATS]; omega)) (by simp only [R.PXP_REPEATS, R.PXP_ITEMS_SUPPRESSED]; omega),
        rg_bump_self, rg_bump_ne _ (by simp only [R.PXP_FILL_LATE, R.PXP_REPEATS]; omega), rg_congr (modMap_regs _ _ _)]
  unfold takeHalf
  rw [if_pos rfl]
  cases hf : m.filled with
  | none =>
    obtain ⟨y, y1, y2, y3, y4, y5, y6, y7⟩ := late (fun m => { m with fill := none }) rfl rfl rfl rfl
    exact ⟨y, y1, y2, y3, y4, fun _ _ h => absurd h (by simp), fun _ => ⟨y5, y6, y7⟩⟩
  | some v =>
    obtain ⟨k, vs, a⟩ := v
    dsimp only
    split
    · rename_i h
      refine ⟨_, (mapAt_congr rfl port).trans ((mapAt_modMap _ _ _).trans (congrArg (Option.map _) hx)), rfl, rfl, rfl, fun vs' a' g _ => ?_, fun g => absurd g (by simp)⟩
      injection g with g
      injection g with g1 g2
      injection g2 with g2 g3
      subst g2
      refine ⟨rfl, rfl, rfl, ?_⟩
      rw [rg_bump_self, rg_congr (modMap_regs _ _ _)]
    · rename_i h
      obtain ⟨y, y1, y2, y3, y4, y5, y6, y7⟩ := late (fun m => { m with fill := none, filled := none }) rfl rfl rfl rfl
      refine ⟨y, y1, y2, y3, y4, fun vs' a' g h' => ?_, fun g => absurd g (by simp)⟩
      injection g with g
      injection g with g1 g2
      injection g2 with g2 g3
      exact absurd ⟨g1, g3 ▸ h'⟩ h

/-- What the start of a frame leaves on a port (R214, R215, R231). -/
theorem frameStart_spec (port : Nat) (n tick : Int) (m : PxMap) (o : HObj) (cv : Canvas) (s : Dev) (x : PxMap) (hx : mapAt s port = some x) :
    ∃ y, mapAt (frameStart port n tick m o cv s) port = some y ∧ y.slotN = some n ∧ y.refresh = 0 ∧ y.blank = cv.blanks n ∧
      (cv.blanks n = true → rg (frameStart port n tick m o cv s) (R.PXP_BLANKS port) = BitVec.ofNat 32 (min ((rg s (R.PXP_BLANKS port)).toNat + 1) 0xFFFFFFFF)) ∧
      (cv.blanks n = false → o.state = 4 ∨ (s.sys.mode = .hold ∧ o.state = 2) → y.scan = x.scan ∧
        rg (frameStart port n tick m o cv s) (R.PXP_REPEATS port) = BitVec.ofNat 32 (min ((rg s (R.PXP_REPEATS port)).toNat + 1) 0xFFFFFFFF)) ∧
      (cv.blanks n = false → s.sys.mode ≠ .hold → o.state = 2 → (o.startAt : Int) ≤ tick →
        (∀ vs a, m.filled = some (n, vs, a) → a ≤ s.raw - (max 0 (canvasTime s cv - tick)).toNat - ns (preNs m.timing m.c m.pixels) →
          y.scan = some (n, vs) ∧ y.lastN = n ∧ y.filled = none ∧
            rg (frameStart port n tick m o cv s) (R.PXP_FRAMES port) = BitVec.ofNat 32 (min ((rg s (R.PXP_FRAMES port)).toNat + 1) 0xFFFFFFFF)) ∧
        (m.filled = none → y.scan = x.scan ∧ rg (frameStart port n tick m o cv s) (R.PXP_FILL_LATE port) = BitVec.ofNat 32 (min ((rg s (R.PXP_FILL_LATE port)).toNat + 1) 0xFFFFFFFF) ∧
            rg (frameStart port n tick m o cv s) (R.PXP_REPEATS port) = BitVec.ofNat 32 (min ((rg s (R.PXP_REPEATS port)).toNat + 1) 0xFFFFFFFF))) := by
  unfold frameStart
  extract_lets started held late deadline a dark b c e g h
  have ha : ∃ x', mapAt a port = some x' ∧ x'.scan = x.scan ∧ a.regs = s.regs := by
    simp only [a]
    split
    · exact ⟨_, (mapAt_modMap _ _ _).trans (congrArg (Option.map _) hx), rfl, rfl⟩
    · exact ⟨x, hx, rfl, rfl⟩
  clear_value a
  obtain ⟨x', ha, has, har⟩ := ha
  have hb : ∃ y, mapAt b port = some y ∧ y.slotN = some n ∧ y.refresh = 0 ∧ y.blank = dark ∧ y.scan = x.scan ∧ b.regs = s.regs := by
    exact ⟨_, (mapAt_modMap _ _ _).trans (congrArg (Option.map _) ha), rfl, rfl, rfl, has, har⟩
  clear_value b
  have hc : ∃ y, mapAt c port = some y ∧ y.slotN = some n ∧ y.refresh = 0 ∧ y.blank = dark ∧ y.scan = x.scan ∧ c.regs = s.regs := by
    obtain ⟨y, y1, y2, y3, y4, y5, y6⟩ := hb
    obtain ⟨k1, k2, -⟩ := countHeld_spec (65536 + port) b
    exact ⟨y, (mapAt_congr k1 port).trans y1, y2, y3, y4, y5, k2.trans y6⟩
  clear_value c
  obtain ⟨y0, y1, y2, y3, y4, y5, y6⟩ := hc
  have fin : ∀ r, r ≠ R.PXP_START_ERR port → r ≠ R.PXP_START_LATE port → rg (emitScan port h) r = rg e r := by
    intro r h1 h2
    rw [rg_congr (emitScan_spec port h).2 r]
    have : rg h r = rg g r := by
      simp only [h]
      split
      · exact rg_congr rfl r
      · rfl
    rw [this]
    exact (startError_spec port _ e).2 r h1 h2
  have fm : mapAt (emitScan port h) port = mapAt e port := by
    have hh : h.pxp = g.pxp := by
      simp only [h]
      split <;> rfl
    exact mapAt_congr ((emitScan_spec port h).1.trans (hh.trans (startError_spec port (canvasTime e cv - tick) e).1)) port
  rw [fm]
  have q1 : R.PXP_BLANKS port ≠ R.PXP_START_ERR port ∧ R.PXP_BLANKS port ≠ R.PXP_START_LATE port := by constructor <;> (simp only [R.PXP_BLANKS, R.PXP_START_ERR, R.PXP_START_LATE]; omega)
  have q2 : R.PXP_REPEATS port ≠ R.PXP_START_ERR port ∧ R.PXP_REPEATS port ≠ R.PXP_START_LATE port := by constructor <;> (simp only [R.PXP_REPEATS, R.PXP_START_ERR, R.PXP_START_LATE]; omega)
  have q3 : R.PXP_FRAMES port ≠ R.PXP_START_ERR port ∧ R.PXP_FRAMES port ≠ R.PXP_START_LATE port := by constructor <;> (simp only [R.PXP_FRAMES, R.PXP_START_ERR, R.PXP_START_LATE]; omega)
  have q4 : R.PXP_FILL_LATE port ≠ R.PXP_START_ERR port ∧ R.PXP_FILL_LATE port ≠ R.PXP_START_LATE port := by constructor <;> (simp only [R.PXP_FILL_LATE, R.PXP_START_ERR, R.PXP_START_LATE]; omega)
  rw [fin _ q1.1 q1.2, fin _ q2.1 q2.2, fin _ q3.1 q3.2, fin _ q4.1 q4.2]
  clear fin fm h g
  have cr : ∀ r, rg c r = rg s r := rg_congr y6
  cases hk : dark with
  | true =>
    have he : e = modMap port (fun m => if m.timing.mode = 0 then { m with scan := some (n, List.replicate (m.pixels.length * m.c) 0) } else m) (bump (R.PXP_BLANKS port) c) := by
      simp only [e, hk]
      rfl
    have hm : mapAt (bump (R.PXP_BLANKS port) c) port = some y0 := y1
    rw [he]
    refine ⟨_, (mapAt_modMap _ _ _).trans (congrArg (Option.map _) hm), ?_, ?_, ?_, fun _ => ?_, fun h => absurd (hk.symm.trans h) (by decide), fun h => absurd (hk.symm.trans h) (by decide)⟩
    · dsimp only
      split <;> exact y2
    · dsimp only
      split <;> exact y3
    · dsimp only
      split <;> exact y4
    · rw [rg_congr (modMap_regs _ _ _), rg_bump_self, cr]
  | false =>
    have hd : cv.blanks n = false := hk
    rw [hd]
    have he : e = if held = true ∧ (o.state = 4 ∨ o.state = 2) then bump (R.PXP_REPEATS port) c else takeHalf port n started m deadline c := by
      simp only [e, hk]
      rfl
    have n1 : R.PXP_FRAMES port ∉ postCounters := not_postCounter (by simp only [R.PXP_FRAMES]; omega)
    have n2 : R.PXP_REPEATS port ∉ postCounters := not_postCounter (by simp only [R.PXP_REPEATS]; omega)
    have n3 : R.PXP_FILL_LATE port ∉ postCounters := not_postCounter (by simp only [R.PXP_FILL_LATE]; omega)
    clear_value e
    by_cases hh : held = true ∧ (o.state = 4 ∨ o.state = 2)
    · rw [if_pos hh] at he
      subst he
      refine ⟨y0, y1, y2, y3, y4.trans hk, fun h => absurd h (by decide), fun _ _ => ⟨y5, (rg_bump_self _ _).trans (by rw [cr])⟩, fun _ h3 h4 _ => ?_⟩
      have : held = false := by simp [held, h3, h4]
      exact absurd hh.1 (by rw [this]; decide)
    · rw [if_neg hh] at he
      cases hs : started with
      | true =>
        rw [hs] at he
        subst he
        obtain ⟨y, z1, z2, z3, z4, z5, z6⟩ := takeHalf_spec port n m deadline c y0 y1
        rw [cr] at z5
        rw [cr, cr] at z6
        refine ⟨y, z1, z2.trans y2, z3.trans y3, z4.trans (y4.trans hk), fun h => absurd h (by decide), fun _ h => ?_, fun _ _ _ _ => ⟨z5, fun h => ?_⟩⟩
        · refine absurd ⟨?_, ?_⟩ hh
          · rcases h with h | h <;> simp [held, h]
          · rcases h with h | h
            · exact .inl h
            · exact .inr h.2
        · obtain ⟨w1, w2, w3⟩ := z6 h
          exact ⟨w1.trans y5, w2, w3⟩
      | false =>
        rw [hs] at he
        subst he
        refine ⟨y0, y1, y2, y3, y4.trans hk, fun h => absurd h (by decide), fun _ h => ?_, fun _ _ h3 h4 => ?_⟩
        · refine absurd ⟨?_, ?_⟩ hh
          · rcases h with h | h <;> simp [held, h]
          · rcases h with h | h
            · exact .inl h
            · exact .inr h.2
        · exact absurd hs (by simp [started, h3, h4])

end Sys2Proof.Machine
end

