-- ==== Sys2Proof/Laws/Links.lean ====
section
/-! SUPPORT. What the links of the network ports, their queues and their receivers change. -/

namespace Sys2Proof.Machine

theorem portAt_congr {a b : Dev} (h : a.outp = b.outp) (n : Nat) : portAt a n = portAt b n := by
  unfold portAt
  rw [h]

theorem postPort_port (n typ code low k : Nat) (s : Dev) : portAt (postPort n typ code low s) k = portAt s k := portAt_congr (post_outp _ _ _ _ _) k

/-- A port but for its queues and counters. -/
abbrev Port.bare (p : Port) : Port := { p with express := [], queue := [], cnt := [] }

theorem queueFrame_bare (n : Nat) (f : TxFrame) (s : Dev) : (portAt (queueFrame n f s) n).bare = (portAt s n).bare := by
  unfold queueFrame
  extract_lets p
  split
  · rw [cntAdd, portAt_modPort]
    rfl
  · split
    · rw [portAt_setPort]
    · split <;> rw [portAt_setPort]

theorem sendArp_bare (n op dst spa tha tpa : Nat) (s : Dev) : (portAt (sendArp n op dst spa tha tpa s) n).bare = (portAt s n).bare := queueFrame_bare _ _ _

theorem sendIgmp_bare (n kind g src vlan : Nat) (s : Dev) : (portAt (sendIgmp n kind g src vlan s) n).bare = (portAt s n).bare := queueFrame_bare _ _ _

theorem foldl_bare {α : Type} (n : Nat) (f : Dev → α → Dev) (h : ∀ s a, (portAt (f s a) n).bare = (portAt s n).bare) (l : List α) (s : Dev) :
    (portAt (l.foldl f s) n).bare = (portAt s n).bare := by
  induction l generalizing s with
  | nil => rfl
  | cons a r ih => rw [List.foldl_cons, ih, h]

theorem gratuitous_bare (n : Nat) (s : Dev) : (portAt (gratuitous n s) n).bare = (portAt s n).bare := by
  unfold gratuitous
  refine foldl_bare n _ (fun s ip => ?_) _ _
  split
  · rfl
  · exact sendArp_bare _ _ _ _ _ _ _

theorem startVerify_port (n : Nat) (s : Dev) : portAt (startVerify n s) n = { portAt s n with verify := 2, attempts := 1, verifyAt := s.raw } := by
  have e : (startVerify n s).outp = (modPort n (fun p => { p with verify := 2, attempts := 1, verifyAt := s.raw }) s).outp := rfl
  rw [portAt_congr e n, portAt_modPort]

/-- A link that comes up (R243, R247): UP, and verification begins where the record sets PREEMPT. -/
theorem linkUp_spec (n : Nat) (s : Dev) :
    (portAt (linkUp n s) n).link = 2 ∧ (portAt (linkUp n s) n).rec_ = (portAt s n).rec_ ∧ (portAt (linkUp n s) n).groups = (portAt s n).groups ∧
      ((portAt s n).rec_.preempt = true → (portAt (linkUp n s) n).verify = 2 ∧ (portAt (linkUp n s) n).attempts = 1) ∧
      ((portAt s n).rec_.preempt = false → (portAt (linkUp n s) n).verify = (portAt s n).verify) := by
  unfold linkUp
  extract_lets a b c
  have ha : portAt a n = { portAt s n with link := 2, ready := s.raw } := (postPort_port _ _ _ _ _ _).trans (portAt_modPort _ _ _)
  have hb : (portAt b n).bare = (portAt a n).bare := gratuitous_bare n a
  have hc : (portAt c n).bare = (portAt b n).bare := by
    refine foldl_bare n _ (fun s g => ?_) _ _
    split
    · exact sendIgmp_bare _ _ _ _ _ _
    · rfl
  have h : (portAt c n).bare = ({ portAt s n with link := 2, ready := s.raw } : Port).bare := hc.trans (hb.trans (congrArg Port.bare ha))
  clear_value a b c
  have h1 : (portAt c n).link = 2 := congrArg (fun p : Port => p.link) h
  have h2 : (portAt c n).rec_ = (portAt s n).rec_ := by
    have q := congrArg (fun p : Port => p.rec_) h
    exact q
  have h3 : (portAt c n).groups = (portAt s n).groups := by
    have q := congrArg (fun p : Port => p.groups) h
    exact q
  have h4 : (portAt c n).verify = (portAt s n).verify := by
    have q := congrArg (fun p : Port => p.verify) h
    exact q
  clear h hc hb
  by_cases hp : (portAt s n).rec_.preempt = true
  · rw [if_pos (by rw [h2]; exact hp)]
    have e := startVerify_port n c
    rw [e]
    exact ⟨h1, h2, h3, fun _ => ⟨rfl, rfl⟩, fun q => absurd (hp.symm.trans q) (by decide)⟩
  · rw [if_neg (by rw [h2]; exact hp)]
    exact ⟨h1, h2, h3, fun q => absurd q hp, fun _ => h4⟩

theorem count_add (p : Port) (i k : Nat) : (p.add i k).count i = (p.count i + k) % 2 ^ 64 := by
  simp [Port.count, Port.add]

theorem count_add_ne (p : Port) (i j k : Nat) (h : j ≠ i) : (p.add i k).count j = p.count j := by
  simp [Port.count, Port.add, tget_tput_ne _ _ h]

theorem endPause_spec (n e : Nat) (s : Dev) :
    (portAt (endPause n e s) n).pauseEnd = none ∧ (portAt (endPause n e s) n).rec_ = (portAt s n).rec_ ∧ (portAt (endPause n e s) n).link = (portAt s n).link ∧
      (portAt (endPause n e s) n).verify = (portAt s n).verify ∧ (portAt (endPause n e s) n).waiting = (portAt s n).waiting ∧
      (∀ j, j ≠ cPauseNs → (portAt (endPause n e s) n).count j = (portAt s n).count j) ∧ (endPause n e s).regs = s.regs := by
  unfold endPause
  extract_lets p
  cases h : p.pauseEnd with
  | none => exact ⟨h, rfl, rfl, rfl, rfl, fun _ _ => rfl, rfl⟩
  | some v =>
    dsimp only
    rw [portAt_setPort]
    exact ⟨rfl, rfl, rfl, rfl, rfl, fun j hj => count_add_ne _ _ _ _ hj, rfl⟩

/-- A link that goes down (R243). -/
theorem dropLink_spec (n : Nat) (s : Dev) :
    (portAt (dropLink n s) n).link = 1 ∧ (portAt (dropLink n s) n).queue = [] ∧ (portAt (dropLink n s) n).express = [] ∧ (portAt (dropLink n s) n).wire = none ∧
      (portAt (dropLink n s) n).held = none ∧ (portAt (dropLink n s) n).pauseEnd = none ∧ (portAt (dropLink n s) n).verify = (if (portAt s n).rec_.preempt then 1 else 0) ∧
      (portAt (dropLink n s) n).count cTxLinkDrop = ((portAt s n).count cTxLinkDrop + (portAt s n).waiting) % 2 ^ 64 ∧
      (portAt (dropLink n s) n).count cLinkDowns = (portAt s n).count cLinkDowns := by
  obtain ⟨e1, e2, -, -, e5, e6, -⟩ := endPause_spec n s.raw s
  unfold dropLink
  extract_lets a
  rw [portAt_modPort]
  refine ⟨rfl, rfl, rfl, rfl, rfl, e1, ?_, ?_, ?_⟩
  · exact congrArg (fun r : PortRec => if r.preempt then 1 else 0) e2
  · rw [count_add]
    exact congrArg₂ (fun x y => (x + y) % 2 ^ 64) (e6 cTxLinkDrop (by decide)) e5
  · exact (count_add_ne _ _ _ _ (by decide)).trans (e6 cLinkDowns (by decide))

theorem setPort_regs (n : Nat) (p : Port) (s : Dev) : (setPort n p s).regs = s.regs := rfl

theorem restartAn_spec (n : Nat) (s : Dev) :
    (restartAn n s).regs = s.regs ∧ portAt (restartAn n s) n = if (portAt s n).link = 3 then { portAt s n with link := 1 } else portAt s n :=
  ⟨rfl, portAt_modPort _ _ _⟩

theorem restartVerify_spec (n : Nat) (s : Dev) :
    (restartVerify n s).regs = s.regs ∧ (portAt (restartVerify n s) n).link = (portAt s n).link ∧ (portAt (restartVerify n s) n).pauseEnd = (portAt s n).pauseEnd ∧
      ((portAt s n).verify = 3 ∨ (portAt s n).verify = 4 → (portAt s n).link = 2 → (portAt (restartVerify n s) n).verify = 2 ∧ (portAt (restartVerify n s) n).attempts = 1) ∧
      ((portAt s n).verify = 3 ∨ (portAt s n).verify = 4 → (portAt s n).link ≠ 2 → (portAt (restartVerify n s) n).verify = 1) := by
  unfold restartVerify
  extract_lets p
  by_cases h : p.verify = 3 ∨ p.verify = 4
  · rw [if_pos h]
    by_cases g : p.link = 2
    · rw [if_pos g]
      have e := startVerify_port n s
      rw [e]
      exact ⟨rfl, rfl, rfl, fun _ _ => ⟨rfl, rfl⟩, fun _ q => absurd g q⟩
    · rw [if_neg g, portAt_modPort]
      exact ⟨rfl, rfl, rfl, fun _ q => absurd q g, fun _ _ => rfl⟩
  · rw [if_neg h]
    exact ⟨rfl, rfl, rfl, fun q => absurd q h, fun q => absurd q h⟩

/-- A write of MACn.CTRL (R243, R247, R248). -/
theorem writeMacCtrl_spec (n : Nat) (v : Word) (s : Dev) :
    bitOf (writeMacCtrl n v s) (F.MAC_CTRL_PAUSE_EN n) = bit v.toNat 0 ∧ (bit v.toNat 0 = false → (portAt (writeMacCtrl n v s) n).pauseEnd = none) ∧
      (bit v.toNat 2 = true → (portAt s n).link = 3 → (portAt (writeMacCtrl n v s) n).link = 1) ∧
      (bit v.toNat 2 = false → (portAt (writeMacCtrl n v s) n).link = (portAt s n).link) ∧
      (bit v.toNat 1 = true → (portAt s n).verify = 3 ∨ (portAt s n).verify = 4 → (portAt s n).link = 2 →
        (portAt (writeMacCtrl n v s) n).verify = 2 ∧ (portAt (writeMacCtrl n v s) n).attempts = 1) ∧
      (bit v.toNat 1 = true → (portAt s n).verify = 3 ∨ (portAt s n).verify = 4 → (portAt s n).link ≠ 2 → (portAt (writeMacCtrl n v s) n).verify = 1) := by
  unfold writeMacCtrl
  extract_lets a b
  have ha : bitOf a (F.MAC_CTRL_PAUSE_EN n) = bit v.toNat 0 ∧ (portAt a n).link = (portAt s n).link ∧ (portAt a n).verify = (portAt s n).verify ∧ (bit v.toNat 0 = false → (portAt a n).pauseEnd = none) := by
    have hx : bitOf (setBit (F.MAC_CTRL_PAUSE_EN n) (bit v.toNat 0) s) (F.MAC_CTRL_PAUSE_EN n) = bit v.toNat 0 := bitOf_setBit_self _ _ _ (by simp [Fld.Fits]) rfl
    simp only [a, writePauseEn]
    split
    · rename_i h
      exact ⟨hx, rfl, rfl, fun q => absurd (h.symm.trans q) (by decide)⟩
    · obtain ⟨e1, -, e3, e4, -, -, e7⟩ := endPause_spec n (setBit (F.MAC_CTRL_PAUSE_EN n) (bit v.toNat 0) s).raw (setBit (F.MAC_CTRL_PAUSE_EN n) (bit v.toNat 0) s)
      exact ⟨(bitOf_congr e7 _).trans hx, e3, e4, fun _ => e1⟩
  clear_value a
  obtain ⟨a1, a2, a3, a4⟩ := ha
  have hb : bitOf b (F.MAC_CTRL_PAUSE_EN n) = bit v.toNat 0 ∧ (portAt b n).link = (portAt s n).link ∧ (bit v.toNat 0 = false → (portAt b n).pauseEnd = none) ∧
      (bit v.toNat 1 = true → (portAt s n).verify = 3 ∨ (portAt s n).verify = 4 → (portAt s n).link = 2 → (portAt b n).verify = 2 ∧ (portAt b n).attempts = 1) ∧
      (bit v.toNat 1 = true → (portAt s n).verify = 3 ∨ (portAt s n).verify = 4 → (portAt s n).link ≠ 2 → (portAt b n).verify = 1) := by
    simp only [b]
    split
    · obtain ⟨r1, r2, r3, r4, r5⟩ := restartVerify_spec n a
      rw [a2, a3] at r4 r5
      exact ⟨(bitOf_congr r1 _).trans a1, r2.trans a2, fun q => r3.trans (a4 q), fun _ => r4, fun _ => r5⟩
    · rename_i h
      exact ⟨a1, a2, a4, fun q => absurd q h, fun q => absurd q h⟩
  clear_value b
  obtain ⟨b1, b2, b3, b4, b5⟩ := hb
  split
  · rename_i h
    obtain ⟨r1, r2⟩ := restartAn_spec n b
    rw [r2]
    refine ⟨(bitOf_congr r1 _).trans b1, fun q => ?_, fun _ q => ?_, fun q => absurd (h.symm.trans q) (by decide), fun q1 q2 q3 => ?_, fun q1 q2 q3 => ?_⟩
    · split <;> exact b3 q
    · rw [if_pos (b2.trans q)]
    · rw [if_neg (by rw [b2, q3]; decide)]
      exact b4 q1 q2 q3
    · split <;> exact b5 q1 q2 q3
  · rename_i h
    exact ⟨b1, b3, fun q => absurd q h, fun _ => b2, b4, b5⟩

theorem rxStore_outp (n base size pos : Nat) (l : List Byte) (k : Nat) (s : Dev) : (rxStore n base size pos l k s).outp = s.outp := by
  induction k generalizing pos l s with
  | zero => rfl
  | succ k ih =>
    unfold rxStore
    rw [ih]
    exact (relWrite_frame _ _ _ _).outp

/-- A frame accepted to the data ring is counted (R249, R250). -/
theorem rxAccept_counts (n : Nat) (f : EthFrame) (s : Dev) (h : (if packetWait s then (portAt s n).dataUsed else 0) + cdiv (f.len - 4) 2048 ≤ (portAt s n).rec_.rxBuffers) :
    (portAt (rxAccept n false f s) n).count cRxFrames = ((portAt s n).count cRxFrames + 1) % 2 ^ 64 ∧
      (portAt (rxAccept n false f s) n).count cRxBytes = ((portAt s n).count cRxBytes + f.len) % 2 ^ 64 := by
  unfold rxAccept
  extract_lets p bufs cast p' used
  rw [if_neg (by decide), if_neg (Nat.not_lt.2 h), portAt_congr (rxStore_outp _ _ _ _ _ _ _) n, portAt_setPort]
  have c : cRxUcast + cast = 7 ∨ cRxUcast + cast = 8 ∨ cRxUcast + cast = 9 := by
    simp only [cast]
    split
    · exact .inr (.inr rfl)
    · split
      · exact .inr (.inl rfl)
      · exact .inl rfl
  constructor
  · show p'.count cRxFrames = _
    simp only [p']
    rw [count_add_ne _ _ _ _ (by simp only [cRxFrames]; omega), count_add_ne _ _ _ _ (by decide), count_add]
  · show p'.count cRxBytes = _
    simp only [p']
    rw [count_add_ne _ _ _ _ (by simp only [cRxBytes]; omega), count_add, count_add_ne _ _ _ _ (by decide)]

/-! Counters and tables -/

theorem portAt_setPort_ne {n k : Nat} (p : Port) (s : Dev) (h : k ≠ n) : portAt (setPort n p s) k = portAt s k := by
  simp [portAt, setPort, tget_tput_ne _ _ h]

theorem snapPort_port (n k : Nat) (s : Dev) : portAt (snapPort n s) k = if k = n then { portAt s n with snap := (portAt s n).cnt } else portAt s k := by
  have e : (snapPort n s).outp = (modPort n (fun p => { p with snap := p.cnt }) s).outp := rfl
  rw [portAt_congr e k]
  by_cases h : k = n
  · rw [if_pos h, h, portAt_modPort]
  · rw [if_neg h]
    exact portAt_setPort_ne _ _ h

/-- A snapshot of every port (R254). -/
theorem snapAll_spec (s : Dev) (k : Nat) (hk : k < 17) : (portAt (snapAll s) k).snap = (portAt s k).cnt ∧ (portAt (snapAll s) k).cnt = (portAt s k).cnt := by
  have go : ∀ (l : List Nat) (s : Dev), (portAt (l.foldl (fun s n => snapPort n s) s) k).cnt = (portAt s k).cnt ∧
      (k ∈ l ∨ (portAt s k).snap = (portAt s k).cnt → (portAt (l.foldl (fun s n => snapPort n s) s) k).snap = (portAt s k).cnt) := by
    intro l
    induction l with
    | nil => exact fun s => ⟨rfl, fun h => h.resolve_left (by simp)⟩
    | cons a r ih =>
      intro s
      rw [List.foldl_cons]
      have hc : (portAt (snapPort a s) k).cnt = (portAt s k).cnt := by
        rw [snapPort_port]
        split
        · rename_i h
          rw [h]
        · rfl
      refine ⟨(ih _).1.trans hc, fun h => ((ih _).2 ?_).trans hc⟩
      by_cases e : k = a
      · right
        rw [snapPort_port, if_pos e]
      · rcases h with h | h
        · left
          simpa [e] using h
        · right
          rw [snapPort_port, if_neg e, h]
  exact ⟨(go _ s).2 (.inl (List.mem_range.2 hk)), (go _ s).1⟩

/-- A destination is asked for (R244). -/
theorem askArp_spec (n ip : Nat) (s : Dev) (x : ArpEntry) (h : tget (portAt s n).arp ip = some x) :
    tget (portAt (askArp n ip s) n).arp ip = some { x with asked := s.raw } ∧ (portAt (askArp n ip s) n).link = (portAt s n).link := by
  unfold askArp
  generalize hb : modPort n (fun p => { p with arp := tmod p.arp ip fun e => { e with asked := s.raw } }) s = b
  have hp : portAt b n = { portAt s n with arp := tmod (portAt s n).arp ip fun e => { e with asked := s.raw } } := by
    rw [← hb, portAt_modPort]
  have h1 := sendArp_bare n 1 macAll (portAt s n).rec_.ipv4 0 ip b
  have h2 := congrArg (fun p : Port => (p.arp, p.link)) h1
  have h3 : (portAt (sendArp n 1 macAll (portAt s n).rec_.ipv4 0 ip b) n).arp = (portAt b n).arp := congrArg (·.1) h2
  have h4 : (portAt (sendArp n 1 macAll (portAt s n).rec_.ipv4 0 ip b) n).link = (portAt b n).link := congrArg (·.2) h2
  rw [h3, h4, hp]
  refine ⟨?_, rfl⟩
  simp only [tmod, h, tget_tput_self]

end Sys2Proof.Machine
end

