-- ==== Sys2Proof/Laws/Time.lean ====
section
/-! SUPPORT. What the time domains, the actions, the captures and the timecode decoders change. -/

namespace Sys2Proof.Machine

theorem domAt_congr {a b : Dev} (h : a.tim = b.tim) (d : Nat) : domAt a d = domAt b d := by
  unfold domAt
  rw [h]

@[simp] theorem domAt_setDom (d : Nat) (x : Dom) (s : Dev) : domAt (setDom d x s) d = x := by
  unfold domAt setDom
  by_cases h : d = 0 <;> simp [h]

theorem domAt_setDom_ne {d k : Nat} (x : Dom) (s : Dev) (h : (d = 0) ≠ (k = 0)) : domAt (setDom d x s) k = domAt s k := by
  unfold domAt setDom
  by_cases a : d = 0 <;> by_cases b : k = 0 <;> simp_all

theorem setDom_regs (d : Nat) (x : Dom) (s : Dev) : (setDom d x s).regs = s.regs := by
  unfold setDom
  split <;> rfl

theorem setDom_raw (d : Nat) (x : Dom) (s : Dev) : (setDom d x s).raw = s.raw := by
  unfold setDom
  split <;> rfl

theorem setDom_outp (d : Nat) (x : Dom) (s : Dev) : (setDom d x s).outp = s.outp := by
  unfold setDom
  split <;> rfl

theorem setPtp_outp (d p : Nat) (q : PtpPort) (s : Dev) : (setPtp d p q s).outp = s.outp := setDom_outp _ _ _

theorem postTim_frame (a b c e : Nat) (s : Dev) : PostFrame s (postTim a b c e s) := postCode_frame _ _ _ _ _

theorem postEvt_frame (a b c e : Nat) (s : Dev) : PostFrame s (postEvt a b c e s) := postCode_frame _ _ _ _ _

theorem domAt_postTim (a b c e : Nat) (s : Dev) (d : Nat) : domAt (postTim a b c e s) d = domAt s d := domAt_congr (postTim_frame _ _ _ _ _).tim d

theorem rg_postTim (a b c e o : Nat) (s : Dev) (h : o ∉ postCounters) : rg (postTim a b c e s) o = rg s o := (postTim_frame a b c e s).2 o h

theorem queueFrame_tim (n : Nat) (f : TxFrame) (s : Dev) : (queueFrame n f s).tim = s.tim := by
  unfold queueFrame
  dsimp only
  split
  · rfl
  · split
    · rfl
    · split <;> rfl

/-- What queueing a frame adds to a port whose link is UP: an event message to the express queue, any other but a sync to the other one. -/
theorem queueFrame_queues (n : Nat) (f : TxFrame) (s : Dev) (h : (portAt s n).link = 2) (hn : n ≠ 16) :
    (∀ a b c, f.tag = .event a b c → (portAt (queueFrame n f s) n).express = (portAt s n).express ++ [f]) ∧
    (f.tag = .control → (portAt (queueFrame n f s) n).queue = (portAt s n).queue ++ [f]) := by
  unfold queueFrame
  dsimp only
  rw [if_neg (by simp [h]), if_neg hn]
  constructor
  · intro a b c e
    rw [e]
    exact congrArg (·.express) (portAt_setPort _ _ _)
  · intro e
    rw [e]
    exact congrArg (·.queue) (portAt_setPort _ _ _)

theorem elapsed_some (s : Dev) (v d : Time) : elapsed s (some v) d = decide (v + d ≤ s.raw) := rfl

theorem decideStates_keeps (s : Dev) (x : Dom) :
    (decideStates s x).servo = x.servo ∧ (decideStates s x).holdFrom = x.holdFrom ∧ (decideStates s x).off = x.off ∧ (decideStates s x).f = x.f := by
  unfold decideStates
  split <;> exact ⟨rfl, rfl, rfl, rfl⟩

/-- In HOLDOVER the choice of a master changes neither the servo's state nor a register. -/
theorem selectMaster_holds (d : Nat) (s : Dev) (h : (domAt s d).servo = 3) :
    (domAt (selectMaster d s) d).servo = 3 ∧ (domAt (selectMaster d s) d).holdFrom = (domAt s d).holdFrom ∧ (selectMaster d s).regs = s.regs ∧
      (domAt (selectMaster d s) d).f = (domAt s d).f := by
  obtain ⟨k1, k2, -, k4⟩ := decideStates_keeps s (domAt s d)
  unfold selectMaster
  dsimp only
  split
  · rw [domAt_setDom]
    exact ⟨k1.trans h, k2, setDom_regs _ _ _, k4⟩
  · split
    · rw [domAt_setDom]
      exact ⟨k1.trans h, k2, setDom_regs _ _ _, k4⟩
    · rw [if_neg (by rw [k1, h]; omega), domAt_setDom]
      exact ⟨k1.trans h, k2, setDom_regs _ _ _, k4⟩

theorem timCounter {o : Nat} (h : 0xC0000 ≤ o) : o ∉ postCounters := by
  simp only [postCounters, R.QUE_UNROUTED, R.PLN_POOL_FAIL, R.PLN_XLAT_MISS, R.PLN_POOL, List.mem_cons, List.not_mem_nil, or_false]
  omega

/-- Entering HOLDOVER (R271): the state, its first instant, the count. -/
theorem enterHoldover_spec (d : Nat) (s : Dev) :
    (domAt (enterHoldover d s) d).servo = 3 ∧ (domAt (enterHoldover d s) d).holdFrom = some s.raw ∧
      rg (enterHoldover d s) (R.TIM_DOM_HOLDOVERS d) = BitVec.ofNat 32 (min ((rg s (R.TIM_DOM_HOLDOVERS d)).toNat + 1) 0xFFFFFFFF) := by
  unfold enterHoldover
  dsimp only
  rw [domAt_postTim, rg_postTim _ _ _ _ _ _ (timCounter (by simp only [R.TIM_DOM_HOLDOVERS]; omega))]
  refine ⟨?_, ?_, ?_⟩
  · show (domAt (setDom d _ s) d).servo = 3
    rw [domAt_setDom]
  · show (domAt (setDom d _ s) d).holdFrom = some s.raw
    rw [domAt_setDom]
  · rw [rg_bump_self, rg_congr (setDom_regs _ _ _)]

/-! The servo -/

/-- Both domains stay as they are. -/
def SameDoms (a b : Dev) : Prop := a.tim.domA = b.tim.domA ∧ a.tim.domB = b.tim.domB

theorem SameDoms.at_ {a b : Dev} (h : SameDoms a b) (d : Nat) : domAt a d = domAt b d := by
  unfold domAt
  rw [h.1, h.2]

theorem SameDoms.trans {a b c : Dev} (h : SameDoms a b) (g : SameDoms b c) : SameDoms a c := ⟨h.1.trans g.1, h.2.trans g.2⟩

theorem sameDoms_of {a b : Dev} (h : a.tim = b.tim) : SameDoms a b := by
  unfold SameDoms
  rw [h]
  exact ⟨rfl, rfl⟩

theorem foldl_doms {α : Type} (f : Dev → α → Dev) (h : ∀ s a, SameDoms (f s a) s) (l : List α) (s : Dev) : SameDoms (l.foldl f s) s := by
  induction l generalizing s with
  | nil => exact ⟨rfl, rfl⟩
  | cons a r ih => exact (ih _).trans (h s a)

theorem fireEffect_doms (i : Nat) (a : Action) (x : Int) (s : Dev) : SameDoms (fireEffect i a x s) s := by
  unfold fireEffect
  dsimp only
  split
  · split <;> exact ⟨rfl, rfl⟩
  · split
    · unfold startAdc
      split <;> exact ⟨rfl, rfl⟩
    · split
      · exact (sameDoms_of (postEvt_frame _ _ _ _ _).tim).trans ⟨rfl, rfl⟩
      · exact ⟨rfl, rfl⟩

theorem missed_doms (i : Nat) (x : Sched) (s : Dev) : SameDoms (missed i x s).1 s := by
  unfold missed
  cases tget s.tim.actions i with
  | none => exact ⟨rfl, rfl⟩
  | some a =>
    dsimp only
    split
    · exact ⟨rfl, rfl⟩
    · split
      · exact (sameDoms_of (postEvt_frame _ _ _ _ _).tim).trans (fireEffect_doms _ _ _ _)
      · exact (sameDoms_of (postEvt_frame _ _ _ _ _).tim).trans ⟨rfl, rfl⟩

theorem stepActions_doms (d : Nat) (s : Dev) : SameDoms (stepActions d s) s :=
  foldl_doms _ (fun s e => by
    split
    · split
      · exact missed_doms _ _ _
      · exact ⟨rfl, rfl⟩
    · exact ⟨rfl, rfl⟩) _ _

/-- A step by S adds S to the domain's offset (R272). -/
theorem stepDomain_spec (d : Nat) (S : Int) (s : Dev) :
    domAt (stepDomain d S s) d = { domAt s d with off := (domAt s d).off + S, phiAt := (domAt s d).phiAt + S } := by
  unfold stepDomain
  dsimp only
  rw [(stepActions_doms _ _).at_, domAt_postTim]
  exact domAt_setDom _ _ _

theorem retune_spec (d : Nat) (s : Dev) :
    (domAt (retune d s) d).servo = (domAt s d).servo ∧ (domAt (retune d s) d).good = (domAt s d).good ∧ (domAt (retune d s) d).bad = (domAt s d).bad ∧
      (retune d s).raw = s.raw ∧ (retune d s).regs = s.regs := by
  refine ⟨?_, ?_, ?_, ?_, ?_⟩
  · exact congrArg (·.servo) (domAt_setDom d _ (drawn s))
  · exact congrArg (·.good) (domAt_setDom d _ (drawn s))
  · exact congrArg (·.bad) (domAt_setDom d _ (drawn s))
  · exact setDom_raw _ _ _
  · exact setDom_regs _ _ _

/-- The first offset in FREERUN steps the domain by it and goes to ACQUIRING; the 16th small one in a row locks, the 4th large one in a row unlocks (R271). -/
theorem servoOffset_spec (near far : Time) (d : Nat) (off : Int) (s : Dev) :
    ((domAt s d).servo = 0 → (domAt (servoOffset near far d off s) d).servo = 1 ∧ (domAt (servoOffset near far d off s) d).off = (domAt s d).off - off) ∧
    ((domAt s d).servo = 1 → (domAt s d).good = 15 → off.natAbs ≤ near → off.natAbs ≤ us (domAt s d).rec_.stepUs →
      (domAt (servoOffset near far d off s) d).servo = 2 ∧ (domAt (servoOffset near far d off s) d).lockedFrom = s.raw) ∧
    ((domAt s d).servo = 2 → (domAt s d).bad = 3 → far < off.natAbs → off.natAbs ≤ us (domAt s d).rec_.stepUs →
      (domAt (servoOffset near far d off s) d).servo = 1 ∧
      rg (servoOffset near far d off s) (R.TIM_DOM_LOCK_LOSSES d) = BitVec.ofNat 32 (min ((rg s (R.TIM_DOM_LOCK_LOSSES d)).toNat + 1) 0xFFFFFFFF)) := by
  refine ⟨fun h => ?_, fun h g a b => ?_, fun h g a b => ?_⟩
  · unfold servoOffset
    dsimp only
    rw [if_neg (show ¬(domAt s d).servo = 3 by omega)]
    simp only [domAt_setDom, h, if_true, stepDomain_spec]
    exact ⟨trivial, by omega⟩
  · unfold servoOffset
    dsimp only
    rw [if_neg (show ¬(domAt s d).servo = 3 by omega)]
    rw [if_neg (show ¬(domAt s d).servo = 0 by omega), if_neg (Nat.not_lt.2 b)]
    obtain ⟨e1, e2, e3, e4, -⟩ := retune_spec d (setDom d { domAt s d with lastOffset := off } s)
    rw [domAt_setDom] at e1 e2 e3
    rw [e1, e2, e3, if_pos a, if_pos ⟨h, by show 16 ≤ (domAt s d).good + 1; omega⟩, domAt_postTim, domAt_setDom]
    exact ⟨rfl, e4.trans (setDom_raw _ _ _)⟩
  · unfold servoOffset
    dsimp only
    rw [if_neg (show ¬(domAt s d).servo = 3 by omega)]
    rw [if_neg (show ¬(domAt s d).servo = 0 by omega), if_neg (Nat.not_lt.2 b)]
    obtain ⟨e1, e2, e3, e4, e5⟩ := retune_spec d (setDom d { domAt s d with lastOffset := off } s)
    rw [domAt_setDom] at e1 e2 e3
    rw [e1, e2, e3, if_neg (by show ¬((domAt s d).servo = 1 ∧ _); omega), if_pos a, if_pos ⟨h, by show 4 ≤ (domAt s d).bad + 1; omega⟩, domAt_postTim,
      rg_postTim _ _ _ _ _ _ (timCounter (by simp only [R.TIM_DOM_LOCK_LOSSES]; omega)), rg_bump_self, rg_congr (setDom_regs _ _ _), rg_congr e5, rg_congr (setDom_regs _ _ _)]
    exact ⟨congrArg (·.servo) (domAt_setDom d _ _), rfl⟩

/-- A Sync that is complete runs the servo on its offset (R268). -/
theorem syncDone_spec (d p : Nat) (t1 t2 cs : Int) (s : Dev) (q : PtpPort) (h : tget (domAt s d).ports p = some q) :
    syncDone d p t1 t2 cs s = servoOffset (ns 100) (us 1) d (t2 - t1 - cs - (if (domAt s d).servo = 0 then 0 else (domAt s d).meanPath + asymOf s p))
      (setPtp d p { q with t1 := t1, t2 := t2, cs := cs, have12 := true, sync := none } s) := by
  have a : ∀ x : PtpPort, asymOf (setPtp d p x s) p = asymOf s p := fun x => by
    unfold asymOf
    rw [rg_congr (show (setPtp d p x s).regs = s.regs from setDom_regs _ _ _)]
  unfold syncDone
  dsimp only
  rw [h]
  dsimp only
  rw [a]

/-! The raw counter, the latch and the reference lock -/

theorem fourRegs (a b c e o : Nat) (u v w x : Word) (s : Dev) (h1 : a ≠ b) (h2 : a ≠ c) (h3 : a ≠ e) (h4 : b ≠ c) (h5 : b ≠ e) (h6 : c ≠ e) :
    let y := setRg a u (setRg b v (setRg c w (setRg e x s)))
    rg y a = u ∧ rg y b = v ∧ rg y c = w ∧ rg y e = x ∧ (o ≠ a → o ≠ b → o ≠ c → o ≠ e → rg y o = rg s o) := by
  refine ⟨rg_setRg_self _ _ _, ?_, ?_, ?_, fun g1 g2 g3 g4 => ?_⟩
  · rw [rg_setRg_ne _ _ h1.symm, rg_setRg_self]
  · rw [rg_setRg_ne _ _ h2.symm, rg_setRg_ne _ _ h4.symm, rg_setRg_self]
  · rw [rg_setRg_ne _ _ h3.symm, rg_setRg_ne _ _ h5.symm, rg_setRg_ne _ _ h6.symm, rg_setRg_self]
  · rw [rg_setRg_ne _ _ g1, rg_setRg_ne _ _ g2, rg_setRg_ne _ _ g3, rg_setRg_ne _ _ g4]

/-- The registers of a domain that the latch fills. -/
abbrev Latched (e : Dev) (k : Nat) (t : Int) : Prop :=
  rg e (R.TIM_DOM_S_LO k) = BitVec.ofNat 32 (unsgn 64 (secsOf t) % 2 ^ 32) ∧ rg e (R.TIM_DOM_S_HI k) = BitVec.ofNat 32 (unsgn 64 (secsOf t) / 2 ^ 32) ∧
    rg e (R.TIM_DOM_NS k) = BitVec.ofNat 32 (nanosOf t) ∧ rg e (R.TIM_DOM_FRAC k) = BitVec.ofNat 32 (unsgn 16 t)

/-- The latch of one domain. -/
abbrev latchDom (k : Nat) (t : Int) (s : Dev) : Dev :=
  setRg (R.TIM_DOM_S_LO k) (BitVec.ofNat 32 (unsgn 64 (secsOf t) % 2 ^ 32)) <| setRg (R.TIM_DOM_S_HI k) (BitVec.ofNat 32 (unsgn 64 (secsOf t) / 2 ^ 32)) <|
    setRg (R.TIM_DOM_NS k) (BitVec.ofNat 32 (nanosOf t)) <| setRg (R.TIM_DOM_FRAC k) (BitVec.ofNat 32 (unsgn 16 t)) s

theorem latchDom_spec (k : Nat) (t : Int) (s : Dev) :
    Latched (latchDom k t s) k t ∧ ∀ o, o ≠ R.TIM_DOM_S_LO k → o ≠ R.TIM_DOM_S_HI k → o ≠ R.TIM_DOM_NS k → o ≠ R.TIM_DOM_FRAC k → rg (latchDom k t s) o = rg s o := by
  have h := fun o u v w x => fourRegs (R.TIM_DOM_S_LO k) (R.TIM_DOM_S_HI k) (R.TIM_DOM_NS k) (R.TIM_DOM_FRAC k) o u v w x s
    (by simp only [R.TIM_DOM_S_LO, R.TIM_DOM_S_HI]; omega) (by simp only [R.TIM_DOM_S_LO, R.TIM_DOM_NS]; omega) (by simp only [R.TIM_DOM_S_LO, R.TIM_DOM_FRAC]; omega)
    (by simp only [R.TIM_DOM_NS, R.TIM_DOM_S_HI]; omega) (by simp only [R.TIM_DOM_FRAC, R.TIM_DOM_S_HI]; omega) (by simp only [R.TIM_DOM_FRAC, R.TIM_DOM_NS]; omega)
  exact ⟨⟨(h 0 _ _ _ _).1, (h 0 _ _ _ _).2.1, (h 0 _ _ _ _).2.2.1, (h 0 _ _ _ _).2.2.2.1⟩, fun o => (h o _ _ _ _).2.2.2.2⟩

theorem domTime_setRg (o : Nat) (v : Word) (s : Dev) (d : Nat) : domTime (setRg o v s) d = domTime s d := rfl

theorem latchTime_eq (s : Dev) :
    latchTime s = latchDom 1 (domTime s 1) (latchDom 0 (domTime s 0) (setRg R.TIM_RAW0 (BitVec.ofNat 32 s.raw) (setRg R.TIM_RAW1 (BitVec.ofNat 32 (s.raw / 2 ^ 32))
      (setRg R.TIM_RAW2 (BitVec.ofNat 32 (s.raw / 2 ^ 64)) s)))) := by
  unfold latchTime
  simp only [domTime_setRg]

/-- TIM.LATCH copies raw and both domains (R258). -/
theorem latchTime_spec (s : Dev) :
    rg (latchTime s) R.TIM_RAW0 = BitVec.ofNat 32 s.raw ∧ rg (latchTime s) R.TIM_RAW1 = BitVec.ofNat 32 (s.raw / 2 ^ 32) ∧
      rg (latchTime s) R.TIM_RAW2 = BitVec.ofNat 32 (s.raw / 2 ^ 64) ∧ ∀ k, k < 2 → Latched (latchTime s) k (domTime s k) := by
  rw [latchTime_eq]
  obtain ⟨a1, a2⟩ := latchDom_spec 0 (domTime s 0) (setRg R.TIM_RAW0 (BitVec.ofNat 32 s.raw) (setRg R.TIM_RAW1 (BitVec.ofNat 32 (s.raw / 2 ^ 32))
      (setRg R.TIM_RAW2 (BitVec.ofNat 32 (s.raw / 2 ^ 64)) s)))
  obtain ⟨b1, b2⟩ := latchDom_spec 1 (domTime s 1) (latchDom 0 (domTime s 0) (setRg R.TIM_RAW0 (BitVec.ofNat 32 s.raw) (setRg R.TIM_RAW1 (BitVec.ofNat 32 (s.raw / 2 ^ 32))
      (setRg R.TIM_RAW2 (BitVec.ofNat 32 (s.raw / 2 ^ 64)) s))))
  refine ⟨?_, ?_, ?_, fun k hk => ?_⟩
  · rw [b2 _ (by decide) (by decide) (by decide) (by decide), a2 _ (by decide) (by decide) (by decide) (by decide), rg_setRg_self]
  · rw [b2 _ (by decide) (by decide) (by decide) (by decide), a2 _ (by decide) (by decide) (by decide) (by decide), rg_setRg_ne _ _ (by decide), rg_setRg_self]
  · rw [b2 _ (by decide) (by decide) (by decide) (by decide), a2 _ (by decide) (by decide) (by decide) (by decide), rg_setRg_ne _ _ (by decide), rg_setRg_ne _ _ (by decide),
      rg_setRg_self]
  · have two : k = 0 ∨ k = 1 := by omega
    rcases two with rfl | rfl
    · obtain ⟨c1, c2, c3, c4⟩ := a1
      refine ⟨?_, ?_, ?_, ?_⟩
      · rw [b2 _ (by decide) (by decide) (by decide) (by decide), c1]
      · rw [b2 _ (by decide) (by decide) (by decide) (by decide), c2]
      · rw [b2 _ (by decide) (by decide) (by decide) (by decide), c3]
      · rw [b2 _ (by decide) (by decide) (by decide) (by decide), c4]
    · exact b1

/-- The error of a reference edge now (R276). -/
abbrev edgeError (s : Dev) (d : Nat) : Int :=
  let x := domAt s d
  (domTime s d - (x.rec_.cableNs : Int) * 65536 - x.phiNow (domTime s d) + pRef x.rec_ / 2) % pRef x.rec_ - pRef x.rec_ / 2

/-- A reference edge in LOCKED, DRIFT and ACQUIRING (R276). -/
theorem refEdge_spec (d : Nat) (s : Dev) (h : (domAt s d).rec_.tickRef ≠ 0) :
    ((domAt s d).tick = 2 →
      (domAt (refEdge d s) d).phi = (domAt s d).phiNow (domTime s d) ∧ (domAt (refEdge d s) d).phiGoal = (domAt s d).phiNow (domTime s d) + edgeError s d ∧
      (domAt (refEdge d s) d).lastEdge = some s.raw ∧
      (domAt (refEdge d s) d).tick = (if 50 * 65536000 < (edgeError s d).natAbs ∧ 15 ≤ (domAt s d).far then 3 else 2)) ∧
    ((domAt s d).tick = 3 → 1 ≤ (domAt s d).rec_.lockEdges →
      (domAt (refEdge d s) d).phiGoal = (domAt s d).phiNow (domTime s d) + edgeError s d ∧
      (domAt (refEdge d s) d).tick = (if (edgeError s d).natAbs ≤ 65536000 ∧ (domAt s d).rec_.lockEdges ≤ (domAt s d).near + 1 then 2 else 3)) ∧
    ((domAt s d).tick = 1 → let run := (edgeError s d :: (domAt s d).eps).take (domAt s d).rec_.lockEdges
      agree run = true → run.length = (domAt s d).rec_.lockEdges →
      (domAt (refEdge d s) d).tick = 2 ∧ (domAt (refEdge d s) d).phiGoal = (domAt s d).phiNow (domTime s d) + run.sum / (run.length : Int) ∧
      (domAt (refEdge d s) d).phi = (if domBusy s d then (domAt s d).phiNow (domTime s d) else (domAt s d).phiNow (domTime s d) + run.sum / (run.length : Int))) := by
  refine ⟨fun a => ?_, fun a b => ?_, fun a => ?_⟩
  · unfold refEdge
    dsimp only [edgeError]
    rw [if_neg (by omega), if_neg (by omega), if_pos a]
    by_cases f : 50 * 65536000 < (edgeError s d).natAbs <;> dsimp only [edgeError] at f
    · by_cases g : 15 ≤ (domAt s d).far
      · simp only [f, decide_true, if_true, show 16 ≤ (domAt s d).far + 1 by omega, domAt_postTim, domAt_setDom, g, and_self]
      · simp only [f, decide_true, if_true, show ¬16 ≤ (domAt s d).far + 1 by omega, if_false, domAt_setDom, g, and_false, a, and_self]
    · simp only [f, decide_false, if_false, Bool.false_eq_true, show ¬(16 : Nat) ≤ 0 by omega, domAt_setDom, false_and, a, and_self]
  · unfold refEdge
    dsimp only [edgeError]
    rw [if_neg (by omega), if_neg (by omega), if_neg (show ¬(domAt s d).tick = 2 by omega)]
    have z : (domAt s d).rec_.lockEdges ≠ 0 := by omega
    by_cases f : (edgeError s d).natAbs ≤ 65536000 <;> dsimp only [edgeError] at f
    · by_cases g : (domAt s d).rec_.lockEdges ≤ (domAt s d).near + 1
      · simp only [f, decide_true, if_true, domAt_postTim, domAt_setDom, g, and_self]
      · simp only [f, decide_true, if_true, if_false, domAt_setDom, g, and_false, a, and_self]
    · simp only [f, decide_false, if_false, Bool.false_eq_true, Nat.le_zero, z, domAt_setDom, false_and, a, and_self]
  · unfold refEdge
    dsimp only [edgeError]
    intro b c
    rw [if_neg (by omega), if_pos a, if_pos b, if_neg (by omega), domAt_postTim, domAt_setDom]
    exact ⟨rfl, rfl, rfl⟩

/-- The time without an edge after which the reference is lost: 4 periods, or 100 ms (R276). -/
abbrev refWait (r : DomRec) : Time := max (ms 100) (4 * pRef r).toNat

/-- A reference without edges is lost after the wait, and φ is held (R276). -/
theorem refLost_spec (d : Nat) (s : Dev) :
    ((domAt s d).tick ≤ 1 → refLost d s = s) ∧
    (∀ v, (domAt s d).lastEdge = some v → s.raw < v + refWait (domAt s d).rec_ → refLost d s = s) ∧
    (∀ v, 1 < (domAt s d).tick → (domAt s d).lastEdge = some v → v + refWait (domAt s d).rec_ ≤ s.raw →
      (domAt (refLost d s) d).tick = 1 ∧ (domAt (refLost d s) d).phi = (domAt s d).phiNow (domTime s d) ∧ (domAt (refLost d s) d).phiGoal = (domAt s d).phiNow (domTime s d)) := by
  refine ⟨fun h => ?_, fun v h g => ?_, fun v h g f => ?_⟩
  · unfold refLost
    dsimp only
    rw [if_pos h]
  · unfold refLost
    dsimp only
    rw [h]
    split
    · rfl
    · rw [if_neg]
      exact fun x => absurd (of_decide_eq_true x) (Nat.not_le.2 g)
  · unfold refLost
    dsimp only
    rw [g, if_neg (by omega), if_pos (decide_eq_true f), domAt_postTim, domAt_setDom]
    exact ⟨rfl, rfl, rfl⟩

/-! Actions, captures, timecode, the sense ADC -/

theorem rg_postEvt (a b c e o : Nat) (s : Dev) (h : o ∉ postCounters) : rg (postEvt a b c e s) o = rg s o := (postEvt_frame a b c e s).2 o h

theorem fireAction_pin (i : Nat) (a : Action) (x : Sched) (s : Dev) (h : tget s.tim.actions i = some a) (hx : a.sched = some x) (ht : a.target = 0) :
    fireAction i s = (fun e => if pinsLive s then drivePin a.pin (!a.invert) e else e)
      (setAction i { a with fires := sat (a.fires + 1), sched := x.advance s a, pulse := some (s.raw + ns a.width) } s) := by
  unfold fireAction
  rw [h]
  dsimp only
  rw [hx]
  dsimp only [fireEffect]
  rw [if_pos ht]
  rfl

theorem fireAction_adc (i : Nat) (a : Action) (x : Sched) (s : Dev) (h : tget s.tim.actions i = some a) (hx : a.sched = some x) (ht : a.target = 1) :
    (s.tim.adc = none → (fireAction i s).tim.adc = some (i, sat (a.fires + 1), x.next, a.seq)) ∧
    (∀ y, s.tim.adc = some y → (fireAction i s).tim.adc = some y ∧
      rg (fireAction i s) R.EVT_ADC_OVERRUN = BitVec.ofNat 32 (min ((rg s R.EVT_ADC_OVERRUN).toNat + 1) 0xFFFFFFFF)) ∧
    tget (fireAction i s).tim.actions i = some { a with fires := sat (a.fires + 1), sched := x.advance s a } := by
  unfold fireAction
  rw [h]
  dsimp only
  rw [hx]
  dsimp only [fireEffect]
  rw [if_neg (by omega), if_pos ht]
  refine ⟨fun g => ?_, fun y g => ?_, ?_⟩
  · unfold setAction startAdc
    dsimp only
    rw [g]
  · unfold setAction startAdc
    dsimp only
    rw [g]
    exact ⟨rfl, rg_bump_self _ _⟩
  · unfold setAction startAdc
    dsimp only
    cases s.tim.adc with
    | none => exact tget_tput_self _ _ _
    | some y => exact tget_tput_self _ _ _

theorem fireAction_item (i : Nat) (a : Action) (x : Sched) (s : Dev) (h : tget s.tim.actions i = some a) (hx : a.sched = some x) (ht : a.target = 2) :
    fireAction i s = postEvt 3 0x01 i (sat (a.fires + 1) % 2 ^ 32) (setAction i { a with fires := sat (a.fires + 1), sched := x.advance s a } s) := by
  unfold fireAction
  rw [h]
  dsimp only
  rw [hx]
  dsimp only [fireEffect]
  rw [if_neg (by omega), if_neg (by omega), if_pos ht]

/-- The end of a conversion sequence: its results, the count, no sequence in progress (R289). -/
theorem adcDone_spec (volts : List Nat) (s : Dev) (i n m : Nat) (x : Int) (h : s.tim.adc = some (i, n, x, m)) :
    let v (k : Nat) : Nat := if bit m k then min (volts.getD k 0) 4095 else 0
    (adcDone volts s).tim = { s.tim with adc := none } ∧ rg (adcDone volts s) R.EVT_ADC_RESULT01 = BitVec.ofNat 32 (v 0 + 65536 * v 1) ∧
      rg (adcDone volts s) R.EVT_ADC_RESULT23 = BitVec.ofNat 32 (v 2 + 65536 * v 3) ∧
      rg (adcDone volts s) R.EVT_ADC_SEQS = BitVec.ofNat 32 (min ((rg s R.EVT_ADC_SEQS).toNat + 1) 0xFFFFFFFF) := by
  unfold adcDone
  rw [h]
  dsimp only
  have q : ∀ o a b l (e : Dev), 0xC0000 ≤ o → rg (post 0x0D 5 a (b :: l) e) o = rg e o := fun o a b l e g => (post_frame 0x0D 5 a (b :: l) e).2 o (timCounter g)
  refine ⟨(post_frame _ _ _ _ _).tim, ?_, ?_, ?_⟩
  · rw [q _ _ _ _ _ (by decide), rg_setRg_self]
  · rw [q _ _ _ _ _ (by decide), rg_setRg_ne _ _ (by decide), rg_setRg_self]
  · rw [q _ _ _ _ _ (by decide), rg_setRg_ne _ _ (by decide), rg_setRg_ne _ _ (by decide), rg_bump_self]
    rfl

/-- A good LTC frame: the time address, the user bits, and LOCKED from the second one in a row (R281). -/
theorem ltcFrame_spec (j v : Nat) (s : Dev) (h : ltcOn s j = true) (g : v / 2 ^ 64 % 2 ^ 16 = 0xBFFC) :
    let run := (if j = 0 then s.tim.ltc0 else s.tim.ltc1).run
    rg (ltcFrame j (some v) s) (R.EVT_LTC_TC j) = BitVec.ofNat 32 (ltcAddress v) ∧ rg (ltcFrame j (some v) s) (R.EVT_LTC_USER j) = BitVec.ofNat 32 (ltcUser v) ∧
      bitOf (ltcFrame j (some v) s) (F.EVT_LTC_STATUS_LOCKED j) = (bitOf s (F.EVT_LTC_STATUS_LOCKED j) || decide (1 ≤ run)) := by
  unfold ltcFrame
  rw [if_neg (show ¬((!ltcOn s j) = true) by rw [h]; decide)]
  dsimp only
  rw [if_neg (show ¬(v / 2 ^ 64 % 2 ^ 16 ≠ 0xBFFC) by rw [g]; decide)]
  have q : ∀ a b o (e : Dev), 0xC0000 ≤ o → rg (post 0x0D 3 a b e) o = rg e o := fun a b o e k => (post_frame 0x0D 3 a b e).2 o (timCounter k)
  have q' : ∀ (c : Prop) [Decidable c] a b o (e : Dev), 0xC0000 ≤ o → rg (if c then post 0x0D 3 a b e else e) o = rg e o := fun c _ a b o e k => by
    split
    · exact q _ _ _ _ k
    · rfl
  have w : ∀ (c : Prop) [Decidable c] (f : Fld) a b d e (x : Dev) o, 0xC0000 ≤ o → o ≠ f.off → rg (if c then postEvt a b d e (setBit f true x) else x) o = rg x o :=
    fun c _ f a b d e x o k l => by
      split
      · rw [rg_postEvt _ _ _ _ _ _ (timCounter k), rg_setBit_ne _ _ _ l]
      · rfl
  refine ⟨?_, ?_, ?_⟩
  · rw [q' _ _ _ _ _ (by simp only [R.EVT_LTC_TC]; omega), w _ _ _ _ _ _ _ _ (by simp only [R.EVT_LTC_TC]; omega) (by simp only [R.EVT_LTC_TC, F.EVT_LTC_STATUS_LOCKED]; omega), rg_setRg_self]
  · rw [q' _ _ _ _ _ (by simp only [R.EVT_LTC_USER]; omega), w _ _ _ _ _ _ _ _ (by simp only [R.EVT_LTC_USER]; omega) (by simp only [R.EVT_LTC_USER, F.EVT_LTC_STATUS_LOCKED]; omega),
      rg_setRg_ne _ _ (by simp only [R.EVT_LTC_TC, R.EVT_LTC_USER]; omega), rg_setRg_self]
  · have b : ∀ (x y : Dev), rg x (R.EVT_LTC_STATUS j) = rg y (R.EVT_LTC_STATUS j) → bitOf x (F.EVT_LTC_STATUS_LOCKED j) = bitOf y (F.EVT_LTC_STATUS_LOCKED j) := fun x y e => by
      unfold bitOf fld
      rw [show rg x (F.EVT_LTC_STATUS_LOCKED j).off = rg y (F.EVT_LTC_STATUS_LOCKED j).off from e]
    rw [b _ _ (q' _ _ _ _ _ (by simp only [R.EVT_LTC_STATUS]; omega))]
    have r : ∀ (o : Nat) (u : Word) (x : Dev), o ≠ (F.EVT_LTC_STATUS_LOCKED j).off → bitOf (setRg o u x) (F.EVT_LTC_STATUS_LOCKED j) = bitOf x (F.EVT_LTC_STATUS_LOCKED j) :=
      fun o u x k => b _ _ (rg_setRg_ne _ _ (fun e => k e.symm))
    have base : ∀ (o1 o2 o3 o4 : Nat) (u1 u2 u3 u4 : Word) (a c : Bool) (m n : Nat) (y : Dev), o1 ≠ (F.EVT_LTC_STATUS_LOCKED j).off → o2 ≠ (F.EVT_LTC_STATUS_LOCKED j).off →
        o3 ≠ (F.EVT_LTC_STATUS_LOCKED j).off → o4 ≠ (F.EVT_LTC_STATUS_LOCKED j).off →
        bitOf (setRg o1 u1 <| setRg o2 u2 <| setRg o3 u3 <| setRg o4 u4 <| setBit (F.EVT_LTC_STATUS_REVERSE j) a <| setBit (F.EVT_LTC_STATUS_DF j) c <|
          setFld (F.EVT_LTC_STATUS_RATE j) m <| setFld (F.EVT_LTC_STATUS_PERIOD_US j) n y) (F.EVT_LTC_STATUS_LOCKED j) = bitOf y (F.EVT_LTC_STATUS_LOCKED j) := by
      intro o1 o2 o3 o4 u1 u2 u3 u4 a c m n y k1 k2 k3 k4
      rw [r _ _ _ k1, r _ _ _ k2, r _ _ _ k3, r _ _ _ k4, bitOf_setBit_disjoint _ _ _ _ (by simp [Fld.Fits]) (by simp), bitOf_setBit_disjoint _ _ _ _ (by simp [Fld.Fits]) (by simp),
        bitOf_setFld_disjoint _ _ _ _ (by simp [Fld.Fits]) (by simp), bitOf_setFld_disjoint _ _ _ _ (by simp [Fld.Fits]) (by simp)]
    have e : ∀ (n : Nat) (x : Dev), bitOf (postEvt 1 0x04 j n (setBit (F.EVT_LTC_STATUS_LOCKED j) true x)) (F.EVT_LTC_STATUS_LOCKED j) = true := fun n x => by
      rw [b _ _ (rg_postEvt _ _ _ _ _ _ (timCounter (by simp only [R.EVT_LTC_STATUS]; omega))), bitOf_setBit_self _ _ _ (by simp [Fld.Fits]) rfl]
    have base' : ∀ (o1 o2 o3 o4 : Nat) (u1 u2 u3 u4 : Word) (a c : Bool) (m n : Nat) (y : Dev) (z : Ltc), o1 ≠ (F.EVT_LTC_STATUS_LOCKED j).off → o2 ≠ (F.EVT_LTC_STATUS_LOCKED j).off →
        o3 ≠ (F.EVT_LTC_STATUS_LOCKED j).off → o4 ≠ (F.EVT_LTC_STATUS_LOCKED j).off →
        bitOf (setRg o1 u1 <| setRg o2 u2 <| setRg o3 u3 <| setRg o4 u4 <| setBit (F.EVT_LTC_STATUS_REVERSE j) a <| setBit (F.EVT_LTC_STATUS_DF j) c <|
          setFld (F.EVT_LTC_STATUS_RATE j) m <| setFld (F.EVT_LTC_STATUS_PERIOD_US j) n (setLtc j z y)) (F.EVT_LTC_STATUS_LOCKED j) = bitOf y (F.EVT_LTC_STATUS_LOCKED j) := by
      intro o1 o2 o3 o4 u1 u2 u3 u4 a c m n y z k1 k2 k3 k4
      rw [base _ _ _ _ _ _ _ _ _ _ _ _ _ k1 k2 k3 k4]
      refine b _ _ (rg_congr ?_ _)
      unfold setLtc
      split <;> rfl
    by_cases k : 1 ≤ (if j = 0 then s.tim.ltc0 else s.tim.ltc1).run
    · have k2 : min ((if j = 0 then s.tim.ltc0 else s.tim.ltc1).run + 1) 2 = 2 := by omega
      cases l : bitOf s (F.EVT_LTC_STATUS_LOCKED j)
      · rw [if_pos ⟨k2, by simp⟩, e]
        simp [k]
      · rw [if_neg (by simp), base' _ _ _ _ _ _ _ _ _ _ _ _ _ _ (by simp only [R.EVT_LTC_TC, F.EVT_LTC_STATUS_LOCKED]; omega) (by simp only [R.EVT_LTC_USER, F.EVT_LTC_STATUS_LOCKED]; omega)
          (by simp only [R.EVT_LTC_TS_S, F.EVT_LTC_STATUS_LOCKED]; omega) (by simp only [R.EVT_LTC_TS_NS, F.EVT_LTC_STATUS_LOCKED]; omega), l]
        rfl
    · have k2 : ¬min ((if j = 0 then s.tim.ltc0 else s.tim.ltc1).run + 1) 2 = 2 := by omega
      rw [if_neg (fun x => k2 x.1), base' _ _ _ _ _ _ _ _ _ _ _ _ _ _ (by simp only [R.EVT_LTC_TC, F.EVT_LTC_STATUS_LOCKED]; omega) (by simp only [R.EVT_LTC_USER, F.EVT_LTC_STATUS_LOCKED]; omega)
          (by simp only [R.EVT_LTC_TS_S, F.EVT_LTC_STATUS_LOCKED]; omega) (by simp only [R.EVT_LTC_TS_NS, F.EVT_LTC_STATUS_LOCKED]; omega), decide_eq_false k, Bool.or_false]

/-! PTP messages of domain A leave domain B alone -/

theorem postTim_domB (a b c e : Nat) (s : Dev) : (postTim a b c e s).tim.domB = s.tim.domB := congrArg (·.domB) (postTim_frame a b c e s).tim

theorem setDom_domB (x : Dom) (s : Dev) : (setDom 0 x s).tim.domB = s.tim.domB := rfl

theorem stepDomain_domB (S : Int) (s : Dev) : (stepDomain 0 S s).tim.domB = s.tim.domB := by
  have f : ∀ (l : List (Nat × Canvas)) (g : Dev → Nat × Canvas → Canvas) (y : Dev),
      (l.foldl (fun s e => if e.2.domain = 0 then setCanvas e.1 (g s e) s else s) y).tim = y.tim := by
    intro l g
    induction l with
    | nil => exact fun _ => rfl
    | cons a r ih =>
      intro y
      refine (ih _).trans ?_
      dsimp only
      split <;> rfl
  unfold stepDomain
  dsimp only
  rw [(stepActions_doms _ _).2, postTim_domB]
  exact congrArg (·.domB) (f _ _ _)

theorem leaveHoldover_domB (s : Dev) : (leaveHoldover 0 s).tim.domB = s.tim.domB := by
  have h : domAt (leaveHoldover 0 s) 1 = domAt s 1 := by
    unfold leaveHoldover
    dsimp only
    rw [domAt_postTim, domAt_congr (bumpBy_tim _ _ _), domAt_setDom_ne _ _ (by decide)]
  exact h

theorem domAt_one {a b : Dev} (h : a.tim.domB = b.tim.domB) : domAt a 1 = domAt b 1 := h

theorem servoOffset_domB (near far : Time) (off : Int) (s : Dev) : domAt (servoOffset near far 0 off s) 1 = domAt s 1 := by
  have a : domAt (if (domAt s 0).servo = 3 then leaveHoldover 0 s else s) 1 = domAt s 1 := by
    split
    · exact domAt_one (leaveHoldover_domB s)
    · rfl
  unfold servoOffset
  dsimp only
  generalize (if (domAt s 0).servo = 3 then leaveHoldover 0 s else s) = z at a ⊢
  have b : ∀ x, domAt (setDom 0 x z) 1 = domAt s 1 := fun x => (domAt_setDom_ne _ _ (by decide)).trans a
  have c : ∀ (u : Prop) [Decidable u] x, domAt (if u then stepDomain 0 (-off) (setDom 0 x z) else retune 0 (setDom 0 x z)) 1 = domAt s 1 := fun u _ x => by
    split
    · exact (domAt_one (stepDomain_domB _ _)).trans (b _)
    · exact (domAt_setDom_ne _ _ (by decide)).trans (b _)
  have n : ∀ x y, domAt (setDom 0 x y) 1 = domAt y 1 := fun x y => domAt_setDom_ne _ _ (by decide)
  have p : ∀ o k y, domAt (bumpBy o k y) 1 = domAt y 1 := fun o k y => rfl
  have r : ∀ (u : Prop) [Decidable u] (x y : Dev), domAt (if u then x else y) 1 = if u then domAt x 1 else domAt y 1 := fun u _ x y => by split <;> rfl
  split
  · rw [n, domAt_one (stepDomain_domB _ _), b]
  · rw [r, domAt_postTim, n, c, r, domAt_postTim, bump, p, n, c, n, c, ite_self, ite_self]

theorem selectMaster_domB (s : Dev) : (selectMaster 0 s).tim.domB = s.tim.domB := by
  unfold selectMaster
  dsimp only
  split
  · rfl
  · split
    · rfl
    · split
      · rw [postTim_domB]
        rfl
      · rfl

/-- What a message that a port of domain `d` takes does (R268 to R271). -/
theorem ptpRx_cases (d : Nat) (m : PtpMsg) (s : Dev) (q : PtpPort) (h : tget (domAt s d).ports m.port = some q) (hs : (domAt s d).rec_.source = 1)
    (hn : m.domain = (domAt s d).rec_.ptpDomain) :
    (m.msgType = 0xB → ptpRx d m s = if (domAt s d).rec_.masterOnly then s else announceRx d q m s) ∧
    (m.msgType = 1 → ptpRx d m s = if q.state = 1 then delayReqRx d m s else s) ∧
    (m.msgType ≠ 0xB → m.msgType ≠ 1 → q.state ≠ 3 → ptpRx d m s = s) ∧
    (m.msgType = 0 → q.state = 3 → fromMaster s (domAt s d) q m = true →
      ptpRx d m s = if m.twoStep then setPtp d m.port { q with sync := some (m.seq, ingress s m.port d m.ingress, m.correction) } s
        else syncDone d m.port ((m.timestamp : Int) * 65536) (ingress s m.port d m.ingress) m.correction s) ∧
    (∀ t3, m.msgType = 9 → q.state = 3 → q.req = some (m.seq, t3) → m.reqClock = ownUid s → m.reqPort = m.port + 1 → q.have12 = true →
      ptpRx d m s = setPtp d m.port { q with req := none }
        (setDom d { domAt s d with meanPath := ((q.t2 - q.t1) + ((m.timestamp : Int) * 65536 - t3) - q.cs - m.correction) / 2 } s)) := by
  have g : ¬(((domAt s d).rec_.source ≠ 1 ∧ (domAt s d).rec_.source ≠ 2) ∨ m.domain ≠ (domAt s d).rec_.ptpDomain) := by omega
  refine ⟨fun a => ?_, fun a => ?_, fun a b c => ?_, fun a b c => ?_, fun t3 a b c e f i => ?_⟩
  all_goals
    unfold ptpRx
    dsimp only
    rw [h]
    dsimp only
    rw [if_neg g]
  · rw [if_pos a]
  · rw [if_neg (by omega), if_pos a]
  · rw [if_neg a, if_neg b, if_pos c]
  · rw [if_neg (by omega), if_neg (by omega), if_neg (by omega), if_pos a, if_neg (by simp [c])]
  · rw [if_neg (by omega), if_neg (by omega), if_neg (by omega), if_neg (by omega), if_neg (by omega), if_pos a, c]
    dsimp only
    rw [if_pos ⟨rfl, e, f, i⟩]

end Sys2Proof.Machine
end

