-- ==== Sys2Proof/Laws/Policy.lean ====
section
/-! SUPPORT. What the site policy's events change: the zones, the sensors, the ticks of site universes. -/

namespace Sys2Proof.Machine

theorem PostFrame.sch {s s' : Dev} (h : PostFrame s s') : s'.sch = s.sch := congrArg (·.sch) h.1

theorem postSite_frame (a b c e : Nat) (s : Dev) : PostFrame s (postSite a b c e s) := postCode_frame _ _ _ _ _

theorem zoneAt_congr {a b : Dev} (h : a.site = b.site) (z : Nat) : zoneAt a z = zoneAt b z := by
  unfold zoneAt
  rw [h]

@[simp] theorem zoneAt_setZone (z : Nat) (x : Zone) (s : Dev) : zoneAt (setZone z x s) z = some x := tget_tput_self _ _ _

/-- The evaluation of an override leaves a zone's CYCLE and what it keeps, and the scheduler. -/
theorem zoneOverride_spec (z : Nat) (s : Dev) (x : Zone) (h : zoneAt s z = some x) :
    (∃ y, zoneAt (zoneOverride z s) z = some y ∧ y.nextCycle = x.nextCycle ∧ y.keep = x.keep) ∧ (zoneOverride z s).sch = s.sch := by
  unfold zoneOverride
  rw [h]
  dsimp only
  split
  · exact ⟨⟨x, h, rfl, rfl⟩, rfl⟩
  · split
    · exact ⟨⟨x, h, rfl, rfl⟩, rfl⟩
    · exact ⟨⟨_, (zoneAt_congr (postSite_frame _ _ _ _ _).site z).trans (zoneAt_setZone _ _ _), rfl, rfl⟩, (postSite_frame _ _ _ _ _).sch⟩
    · split
      · exact ⟨⟨x, h, rfl, rfl⟩, rfl⟩
      · exact ⟨⟨_, zoneAt_setZone _ _ _, rfl, rfl⟩, rfl⟩
    · exact ⟨⟨_, (zoneAt_congr (postSite_frame _ _ _ _ _).site z).trans (zoneAt_setZone _ _ _), rfl, rfl⟩, (postSite_frame _ _ _ _ _).sch⟩

theorem Placed.site {a b : Dev} (h : Placed a b) : b.site = a.site := congrArg (·.site) h.rest

/-- A posted flag is set in the task, under the mask that was given. -/
theorem postFlags_setMask (n mask flags : Nat) (s : Dev) :
    (postFlags n flags (setMask n mask s)).site = s.site ∧
    ∀ k, tget s.sch.tasks n = some k → ∃ k', tget (postFlags n flags (setMask n mask s)).sch.tasks n = some k' ∧ k'.mask = mask ∧ k'.flags = k.flags ||| flags / 2 * 2 := by
  cases h : tget s.sch.tasks n with
  | none =>
    have e : setMask n mask s = s := by
      unfold setMask
      rw [h]
    rw [e]
    unfold postFlags
    rw [h]
    exact ⟨rfl, fun k x => by cases x⟩
  | some k0 =>
    have e : setMask n mask s = makeReady n (setTask n { k0 with mask := mask } s) := by
      unfold setMask
      rw [h]
    have p := makeReady_placed n (setTask n { k0 with mask := mask } s)
    obtain ⟨q, w, t⟩ := p.tasks n
    rw [setTask_tasks, tget_tput_self, ← e] at t
    have f : postFlags n flags (setMask n mask s) = makeReady n (setTask n { { k0 with mask := mask, queued := q, groupWait := w } with flags := k0.flags ||| flags / 2 * 2 } (setMask n mask s)) := by
      conv_lhs => unfold postFlags
      rw [t]
      rfl
    have p2 := makeReady_placed n (setTask n { { k0 with mask := mask, queued := q, groupWait := w } with flags := k0.flags ||| flags / 2 * 2 } (setMask n mask s))
    obtain ⟨q2, w2, t2⟩ := p2.tasks n
    rw [setTask_tasks, tget_tput_self, ← f] at t2
    refine ⟨?_, fun k x => ?_⟩
    · rw [f]
      refine p2.site.trans ?_
      rw [e]
      exact p.site
    · cases x
      exact ⟨_, t2, rfl, rfl⟩

/-- A report that no sensor takes, that comes too often, or that is accepted (R296). -/
theorem telReport_spec (source typ channel v : Nat) (s : Dev) :
    let found := s.site.sensors.find? fun e => !e.2.rdm && e.2.ident == source && e.2.channel == channel && isLive s (okey 9 e.1) && isLive s (okey 8 e.2.zone)
    (found = none → telReport source typ channel v s = bump R.SITE_TEL_UNMATCHED s) ∧
    (∀ i x, found = some (i, x) →
      (typ ≠ (if x.daylight then 2 else 1) → telReport source typ channel v s = bump R.SITE_TEL_UNMATCHED s) ∧
      (typ = (if x.daylight then 2 else 1) → x.tokens s.raw < sec 1 → telReport source typ channel v s = bump R.SITE_TEL_RATE_DROPS s) ∧
      (typ = (if x.daylight then 2 else 1) → sec 1 ≤ x.tokens s.raw → telReport source typ channel v s =
        bump R.SITE_TEL_REPORTS (pushItem (36864 + x.zone) (i * 2 ^ 32 + v % 2 ^ 32)
          { s with site.sensors := tput s.site.sensors i { x with credit := x.tokens s.raw - sec 1, creditAt := s.raw, value := v % 2 ^ 32, heard := some s.raw } }))) := by
  intro found
  refine ⟨fun h => ?_, fun i x h => ⟨fun a => ?_, fun a b => ?_, fun a b => ?_⟩⟩
  all_goals
    unfold telReport
    simp only [show (s.site.sensors.find? fun e => !e.2.rdm && e.2.ident == source && e.2.channel == channel && isLive s (okey 9 e.1) && isLive s (okey 8 e.2.zone)) = _ from h]
  · rw [if_pos a]
  · rw [if_neg (by simp [a]), if_pos b]
  · rw [if_neg (by simp [a]), if_neg (Nat.not_lt.2 b)]
    rfl

/-! Ticks of site universes -/

theorem runFixture_univs (i : Nat) (f : Fixture) (n tick : Int) (latch : Time) (s : Dev) : (runFixture i f n tick latch s).1.outp.univs = s.outp.univs := by
  unfold runFixture
  cases objAt s (okey 1 i) with
  | none => rfl
  | some o =>
    dsimp only
    split
    · rfl
    · split
      · rfl
      · split
        · rfl
        · have h : ∀ (c : Bool) (x : Dev), (if c = true then postFix 3 0x02 i 0xFF x else x).outp.univs = x.outp.univs := fun c x => by
            split
            · exact congrArg (·.univs) (post_outp _ _ _ _ _)
            · rfl
          exact (h _ _).trans rfl

theorem runUniverse_univs (i n : Nat) (frame tick : Int) (latch : Time) (s : Dev) : (runUniverse i n frame tick latch s).1.outp.univs = s.outp.univs := by
  have f : ∀ (l : List (Nat × Fixture)) (x : Dev × List (Nat × Byte)),
      (l.foldl (fun (s, l) e => let (s, x) := runFixture e.1 e.2 frame tick latch s; (s, l ++ x)) x).1.outp.univs = x.1.outp.univs := by
    intro l
    induction l with
    | nil => exact fun _ => rfl
    | cons a r ih => exact fun x => (ih _).trans (runFixture_univs _ _ _ _ _ _)
  exact f _ _

theorem tget_tmod_self {α : Type} (m : Tbl α) (k : Nat) (f : α → α) : tget (tmod m k f) k = (tget m k).map f := by
  cases h : tget m k with
  | none => simp [tmod, h]
  | some v => simp [tmod, h]

theorem sendSite_univs (i : Nat) (u : Univ) (term : Bool) (slots : List Byte) (s : Dev) (h : u.remote = false) : (sendSite i u term slots s).outp.univs = s.outp.univs := by
  unfold sendSite
  split
  · rfl
  · rw [if_neg (by simp [h])]
    exact (queuePacket_sends _ _ _ _ _).univs

/-- A site tick moves the universe's tick on (R199). A RUNNING one that has started runs its task: its payload is that of this tick. -/
theorem siteTick_spec (i : Nat) (u : Univ) (s : Dev) :
    let next := siteTickAfter u (domTime s 0)
    let moved : Dev := { s with outp.univs := tput s.outp.univs i { u with tickK := next } }
    (objAt s (okey 2 i) = none → siteTick i u s = moved) ∧
    (∀ o, objAt s (okey 2 i) = some o →
      (o.state = 4 ∨ (o.state = 2 ∧ s.sys.mode = .hold) → siteTick i u s = if u.payFrame.isSome then sendSite i u false u.payload moved else moved) ∧
      (o.state = 3 → u.terms ≠ 0 → u.remote = false → ∃ y, tget (siteTick i u s).outp.univs i = some y ∧ y.tickK = next ∧ y.terms = u.terms - 1)) := by
  intro next moved
  have ho : objAt moved (okey 2 i) = objAt s (okey 2 i) := rfl
  refine ⟨fun h => ?_, fun o h => ⟨fun a => ?_, fun a b c => ?_⟩⟩
  · unfold siteTick
    dsimp only
    rw [show objAt _ (okey 2 i) = none from ho.trans h]
  · unfold siteTick
    dsimp only
    rw [show objAt _ (okey 2 i) = some o from ho.trans h]
    dsimp only
    rw [if_pos a]
  · unfold siteTick
    dsimp only
    rw [show objAt _ (okey 2 i) = some o from ho.trans h]
    dsimp only
    rw [if_neg (by omega), if_neg (by omega), if_pos ⟨a, b⟩, sendSite_univs _ _ _ _ _ c, tget_tmod_self, tget_tput_self]
    exact ⟨_, rfl, rfl, rfl⟩

theorem Placed.outp {a b : Dev} (h : Placed a b) : b.outp = a.outp := congrArg (·.outp) h.rest

theorem postFlags_outp (n f : Nat) (s : Dev) : (postFlags n f s).outp = s.outp := by
  unfold postFlags
  split
  · rfl
  · exact (makeReady_placed _ _).outp.trans rfl

theorem makeReady_sch {a b : Dev} (h : a.sch = b.sch) (n : Nat) : (makeReady n a).sch = (makeReady n b).sch := by
  have g : ∀ t, groupOk a t = groupOk b t := fun t => by
    unfold groupOk groupAt
    rw [h]
  have r : ∀ e l, readyAt a e l = readyAt b e l := fun e l => by
    unfold readyAt
    rw [h]
  unfold makeReady
  rw [h]
  cases tget b.sch.tasks n with
  | none => exact h
  | some t =>
    dsimp only
    rw [g, r]
    split
    · exact h
    · split
      · unfold setReady setTask
        dsimp only
        rw [h]
      · split
        · exact h
        · unfold setTask
          rw [bump_sch, bump_sch]
          dsimp only
          rw [h]

theorem postFlags_sch {a b : Dev} (h : a.sch = b.sch) (n f : Nat) : (postFlags n f a).sch = (postFlags n f b).sch := by
  unfold postFlags
  rw [h]
  cases tget b.sch.tasks n with
  | none => exact h
  | some t =>
    refine makeReady_sch ?_ n
    unfold setTask
    dsimp only
    rw [h]

theorem dispatchTask_outp (n : Nat) (t : Task) (s : Dev) : (dispatchTask n t s).outp = s.outp := by
  unfold dispatchTask
  extract_lets seen takes item t' sc gr s1
  have h : s1.outp = s.outp := by
    simp only [s1]
    split <;> rfl
  exact h

theorem siteTick_runs (i : Nat) (u : Univ) (o : HObj) (s : Dev) (ho : objAt s (okey 2 i) = some o) (h2 : o.state = 2)
    (hm : s.sys.mode ≠ .hold) (ha : (o.startAt : Int) ≤ siteTickAt u u.tickK) (hr : siteRuns s = true) (hl : u.remote = false) (tk : Task)
    (ht : tget (postFlags i 6 s).sch.tasks i = some tk) (hq : tk.queued = true) (hg : groupOk (postFlags i 6 s) tk = true) :
    ∃ y, tget (siteTick i u s).outp.univs i = some y ∧ y.tickK = siteTickAfter u (domTime s 0) ∧ y.frame = u.tickK ∧ y.latchAt = s.raw ∧ y.payFrame = some (u.tickK : Int) := by
  have e1 : ∀ y : Dev, y.sch = s.sch → (postFlags i 6 y).sch = (postFlags i 6 s).sch := fun y h => postFlags_sch h i 6
  unfold siteTick
  extract_lets k ou s1 ou2 s2 s3
  have ho' : objAt s1 (okey 2 i) = some o := ho
  rw [ho']
  dsimp only
  rw [if_neg (fun x => x.elim (by omega) (fun y => hm y.2)), if_pos ⟨h2, ha, hr⟩]
  have a1 : s3.sch = (postFlags i 6 s).sch := e1 s2 rfl
  have a2 : s3.outp.univs = tmod s1.outp.univs i fun u => { u with frame := k, latchAt := s1.raw } := congrArg (·.univs) (postFlags_outp i 6 s2)
  clear_value s3
  rw [a1, ht]
  dsimp only
  have hg' : groupOk s3 tk = true := by
    rw [← hg]
    unfold groupOk groupAt
    rw [a1]
  rw [if_pos (by rw [hq, hg']; rfl)]
  have a3 : tget (dispatchTask i tk (setReady tk.exec tk.level ((readyAt s3 tk.exec tk.level).filter (· != i)) s3)).outp.univs i =
      some { u with tickK := siteTickAfter u (domTime s 0), frame := (k : Int), latchAt := s.raw } := by
    rw [dispatchTask_outp]
    show tget s3.outp.univs i = _
    rw [a2, tget_tmod_self]
    show Option.map _ (tget (tput _ _ _) i) = _
    rw [tget_tput_self]
    rfl
  generalize dispatchTask i tk (setReady tk.exec tk.level ((readyAt s3 tk.exec tk.level).filter (· != i)) s3) = w at a3
  unfold siteUnivWork
  rw [a3]
  dsimp only
  rw [sendSite_univs i { u with tickK := siteTickAfter u (domTime s 0), frame := (k : Int), latchAt := s.raw } _ _ _ hl]
  dsimp only
  rw [tget_tmod_self, runUniverse_univs, a3]
  exact ⟨_, rfl, rfl, rfl, rfl, rfl⟩

end Sys2Proof.Machine
end

