-- ==== Sys2Proof/Laws/Fabric.lean ====
section
/-! SUPPORT. What the events of the valley change: links, members, passes. -/

namespace Sys2Proof.Machine

theorem postVal_frame (a b c e : Nat) (s : Dev) : PostFrame s (postVal a b c e s) := postCode_frame _ _ _ _ _

@[simp] theorem linkAt_setLink (l : Nat) (x : VLink) (s : Dev) : linkAt (setLink l x s) l = x := by
  unfold linkAt setLink
  rw [tget_tput_self]
  rfl

theorem linkAt_congr {a b : Dev} (h : a.val.links = b.val.links) (l : Nat) : linkAt a l = linkAt b l := by
  unfold linkAt
  rw [h]

/-- A change that leaves the links, the members and the migrations. -/
structure NetKept (a b : Dev) : Prop where
  links : b.val.links = a.val.links
  members : b.val.members = a.val.members
  migs : b.val.migs = a.val.migs

theorem NetKept.refl (s : Dev) : NetKept s s := ⟨rfl, rfl, rfl⟩

theorem NetKept.trans {a b c : Dev} (h : NetKept a b) (g : NetKept b c) : NetKept a c :=
  ⟨g.links.trans h.links, g.members.trans h.members, g.migs.trans h.migs⟩

theorem NetKept.of {a b : Dev} (h : b.val = a.val) : NetKept a b := by
  refine ⟨?_, ?_, ?_⟩ <;> rw [h]

theorem postVal_net (a b c e : Nat) (s : Dev) : NetKept s (postVal a b c e s) := .of (postVal_frame _ _ _ _ _).val

theorem foldl_net {α : Type} (f : Dev → α → Dev) (h : ∀ s a, NetKept s (f s a)) (l : List α) (s : Dev) : NetKept s (l.foldl f s) := by
  induction l generalizing s with
  | nil => exact .refl s
  | cons a r ih => exact (h s a).trans (ih _)

theorem vOut_val (l : Nat) (p : VPkt) (s : Dev) : (vOut l p s).val = s.val := by
  unfold vOut
  split <;> rfl

theorem foldl_val {α : Type} (f : Dev → α → Dev) (h : ∀ s a, (f s a).val = s.val) (l : List α) (s : Dev) : (l.foldl f s).val = s.val := by
  induction l generalizing s with
  | nil => rfl
  | cons a r ih => exact (ih _).trans (h _ _)

theorem valFlood_val (typ cls : Nat) (m : VMsg) (s : Dev) : (valFlood typ cls m s).val = s.val := foldl_val _ (fun _ _ => vOut_val _ _ _) _ _

theorem sendUpdate_net (s : Dev) : NetKept s (sendUpdate s) := by
  unfold sendUpdate
  split
  · refine NetKept.trans ?_ (.of (valFlood_val _ _ _ _))
    exact ⟨rfl, rfl, rfl⟩
  · exact .refl s

theorem helloAll_val (s : Dev) : (helloAll s).val = s.val := foldl_val (fun s (e : Nat × VLink) => emit (.hello e.1) s) (fun _ _ => rfl) _ _

theorem takeAddr_net (a : Nat) (p : Bool) (s : Dev) : NetKept s (takeAddr a p s) := by
  unfold takeAddr
  dsimp only
  refine NetKept.trans ?_ (sendUpdate_net _)
  refine NetKept.trans (b := { s with val.addr := a, val.pinned := p, val.conflict := false }) ⟨rfl, rfl, rfl⟩ ?_
  split
  · exact .of (helloAll_val _)
  · exact (postVal_net _ _ _ _ _).trans (.of (helloAll_val _))

theorem askAddr_net (s : Dev) : NetKept s (askAddr s) := by
  unfold askAddr
  split
  · exact .refl s
  · split
    · exact takeAddr_net _ _ _
    · exact NetKept.trans (b := { s with val.asked := some s.raw }) ⟨rfl, rfl, rfl⟩ (.of (valFlood_val _ _ _ _))

theorem settleAddr_net (s : Dev) : NetKept s (settleAddr s) := by
  unfold settleAddr
  dsimp only
  split
  · split
    · exact takeAddr_net _ _ _
    · exact askAddr_net _
  · split
    · refine NetKept.trans ?_ (askAddr_net _)
      refine NetKept.trans ?_ (sendUpdate_net _)
      refine NetKept.trans ?_ (.of (helloAll_val _))
      exact NetKept.trans (b := { s with val.addr := 0, val.pinned := false, val.conflict := true }) ⟨rfl, rfl, rfl⟩ (postVal_net _ _ _ _ _)
    · exact .refl s

/-- What the charges that follow the passes change: the ledger, the reservations, the status and what posting uses. -/
structure Moved (a b : Dev) : Prop where
  val : b.val = { a.val with reserves := b.val.reserves }
  regs : ∀ o, o ≠ R.VAL_STATUS → o ∉ postCounters → rg b o = rg a o

theorem Moved.refl (s : Dev) : Moved s s := ⟨rfl, fun _ _ _ => rfl⟩

theorem Moved.trans {a b c : Dev} (h : Moved a b) (g : Moved b c) : Moved a c := by
  refine ⟨?_, fun o x y => (g.regs o x y).trans (h.regs o x y)⟩
  have k := g.val
  rw [h.val] at k
  exact k

theorem foldl_moved {α : Type} (f : Dev → α → Dev) (h : ∀ s a, Moved s (f s a)) (l : List α) (s : Dev) : Moved s (l.foldl f s) := by
  induction l generalizing s with
  | nil => exact .refl s
  | cons a r ih => exact (h s a).trans (ih _)

theorem moveUniv_moved (i : Nat) (s : Dev) : Moved s (moveUniv i s) := by
  unfold moveUniv
  split
  · split
    · exact ⟨rfl, fun _ _ _ => rfl⟩
    · exact .refl s
  · exact .refl s

theorem moveReserve_moved (k : Nat) (s : Dev) : Moved s (moveReserve k s) := by
  unfold moveReserve
  split
  · split
    · exact .refl s
    · exact ⟨rfl, fun _ _ _ => rfl⟩
  · exact .refl s

theorem movePair_moved (s : Dev) : Moved s (movePair s) := by
  unfold movePair
  dsimp only
  generalize (if s.red.paired then passLink s s.red.partner false else none) = l
  split
  · exact .refl s
  · exact ⟨rfl, fun _ _ _ => rfl⟩

theorem moveCharges_moved (s : Dev) : Moved s (moveCharges s) := by
  unfold moveCharges
  dsimp only
  refine Moved.trans ?_ (foldl_moved _ (fun s n => ?_) _ _)
  · exact ((foldl_moved _ (fun s e => moveUniv_moved _ _) _ _).trans (foldl_moved _ (fun s e => moveReserve_moved _ _) _ _)).trans (movePair_moved _)
  · refine ⟨?_, fun o x y => ?_⟩
    · rw [(postVal_frame _ _ _ _ _).val]
      rfl
    · rw [(postVal_frame _ _ _ _ _).2 o y, rg_setBit_ne _ _ _ x]

theorem gainPasses_net (s : Dev) : NetKept s (gainPasses s) := by
  unfold gainPasses
  dsimp only
  split
  · exact .refl s
  · have h := fun p => (moveCharges_moved { s with val.passes := p }).val
    exact ⟨by rw [h], by rw [h], by rw [h]⟩

theorem membersChanged_net (s : Dev) : NetKept s (membersChanged s) := by
  unfold membersChanged
  dsimp only
  refine NetKept.trans ?_ (gainPasses_net _)
  refine NetKept.trans ?_ (settleAddr_net _)
  split
  · exact .refl s
  · split
    · exact ⟨rfl, rfl, rfl⟩
    · exact NetKept.trans (b := { s with val.root := ((rootOf_ s).map (·.uid)).getD 0 }) ⟨rfl, rfl, rfl⟩ (postVal_net _ _ _ _ _)

theorem relayAbandon_val (l : Nat) (s : Dev) : (relayAbandon l s).val = s.val := by
  unfold relayAbandon
  split <;> rfl

/-- A link that fails is DOWN, and nothing of its HELLO or its delays is kept (R310). -/
theorem linkFail_spec (l : Nat) (s : Dev) (h : 3 ≤ (linkAt s l).state) : linkAt (linkFail l s) l = { state := 1, failed := (linkAt s l).failed } := by
  have k : linkAt (relayAbandon l (postVal 7 0x02 l 0 (setLink l { state := 1, failed := (linkAt s l).failed } s))) l = { state := 1, failed := (linkAt s l).failed } := by
    rw [linkAt_congr (b := setLink l { state := 1, failed := (linkAt s l).failed } s) (by rw [relayAbandon_val, (postVal_frame _ _ _ _ _).val]), linkAt_setLink]
  unfold linkFail
  dsimp only
  rw [if_pos h]
  split
  · rw [linkAt_congr (membersChanged_net _).links, linkAt_congr (sendUpdate_net _).links, k]
  · exact k

/-- What a HELLO makes of a link that waits for it (R310). -/
theorem examine_spec (l : Nat) (h : HelloMsg) (s : Dev) :
    (loadingSelf s = true ∨ h.mode ≤ 2 → linkAt (examine l h s) l = { linkAt s l with state := 6 }) ∧
    (loadingSelf s = false → 2 < h.mode → s.val.recorded = false → linkAt (examine l h s) l = { linkAt s l with state := 3 }) ∧
    (loadingSelf s = false → 2 < h.mode → s.val.recorded = true → h.major ≠ fld s F.CTL_FW_PROTO_VP_MAJOR ∨ h.valleyId ≠ s.val.valleyId →
      linkAt (examine l h s) l = { linkAt s l with state := 5 }) ∧
    (loadingSelf s = false → 2 < h.mode → s.val.recorded = true → h.major = fld s F.CTL_FW_PROTO_VP_MAJOR → h.valleyId = s.val.valleyId →
      linkAt (examine l h s) l = { linkAt s l with state := 4 }) := by
  have m : ∀ f, linkAt (modLink l f s) l = f (linkAt s l) := fun f => linkAt_setLink _ _ _
  refine ⟨fun a => ?_, fun a b c => ?_, fun a b c e => ?_, fun a b c e f => ?_⟩
  all_goals unfold examine
  · rw [if_pos (by rcases a with a | a <;> simp [a]), m]
  · rw [if_neg (by simp [a]; omega), if_pos (by simp [c]), m]
  · rw [if_neg (by simp [a]; omega), if_neg (by simp [c]), if_pos e]
    dsimp only
    split
    · exact m _
    · rw [linkAt_congr (postVal_net _ _ _ _ _).links, m]
  · rw [if_neg (by simp [a]; omega), if_neg (by simp [c]), if_neg (fun x => x.elim (fun y => y e) (fun y => y f)), linkAt_congr (membersChanged_net _).links,
      linkAt_congr (sendUpdate_net _).links, linkAt_congr (postVal_net _ _ _ _ _).links, m]

/-- A member that has left is known no more (R313). -/
theorem dropMember_spec (uid : Nat) (s : Dev) (m : Member) (h : tget s.val.members uid = some m) :
    (dropMember uid s).val.members = tdel s.val.members uid ∧ (dropMember uid s).val.migs = s.val.migs ∧ (dropMember uid s).val.links = s.val.links := by
  unfold dropMember
  rw [h]
  dsimp only
  have k := (postVal_net 7 0x05 m.info.addr uid { s with val.members := tdel s.val.members uid, val.barred := [], val.full := false }).trans (membersChanged_net _)
  exact ⟨k.members, k.migs, k.links⟩

end Sys2Proof.Machine
end

