-- ==== Sys2Proof/Laws/Memory.lean ====
section
/-! SUPPORT. The two memories, the Plain and the NOR: every operation on them keeps the canonical form, reset's memories have it, and a write
changes the bytes it writes and no other. -/

namespace Sys2Proof.Machine

/-! The canonical form is kept -/

theorem wf_nil (d : Byte) : Mem.wf d [] = true := rfl

/-- The memories right after reset are canonical. -/
theorem reset_plain_wf : Mem.wf 0 State.reset.plain = true := rfl

theorem reset_nor_wf : Mem.wf 0xFF State.reset.nor = true := rfl

/-- Taking entries away keeps a memory canonical. -/
theorem wf_filter (d : Byte) (m : Mem) (p : Nat × Byte → Bool) (h : Mem.wf d m = true) : Mem.wf d (m.filter p) = true := by
  simp only [Mem.wf, Bool.and_eq_true, List.all_eq_true, bne_iff_ne] at *
  refine ⟨?_, fun e he => h.2 e (List.mem_of_mem_filter he)⟩
  rw [sortedKeys_iff] at *
  exact h.1.sublist List.filter_sublist

theorem plainWrite_wf (a : Nat) (bs : List Byte) (s : Dev) (h : Mem.wf 0 s.plain = true) : Mem.wf 0 (plainWrite a bs s).plain = true :=
  wf_mputs 0 bs s.plain a h

theorem relWrite_wf (k a : Nat) (bs : List Byte) (s : Dev) (h : Mem.wf 0 s.plain = true) : Mem.wf 0 (relWrite k a bs s).plain = true := by
  unfold relWrite
  split
  · exact plainWrite_wf _ _ _ h
  · exact h

theorem zeroPage_wf (p : Nat) (s : Dev) (h : Mem.wf 0 s.plain = true) : Mem.wf 0 (zeroPage p s).plain = true := wf_filter 0 _ _ h

theorem demandPage_wf (k p : Nat) (hw : Bool) (s : Dev) (h : Mem.wf 0 s.plain = true) : Mem.wf 0 (demandPage k p hw s).1.plain = true := by
  have x : ∀ s, (xlatTouch k p s).plain = s.plain := by
    intro s
    unfold xlatTouch
    extract_lets key set ways q s'
    have : s'.plain = s.plain := (rfl)
    clear_value s'
    split
    · exact this
    · rw [← this]; simp [bump, bumpBy]
  have y : ∀ a b c s, (mapPage k p a b c s).plain = s.plain := by
    intro a b c s
    unfold mapPage
    split <;> rfl
  unfold demandPage
  split
  · rw [x]; exact h
  · split
    · simp only [bump, bumpBy, setRg_plain, x]; exact h
    · extract_lets s1 s2
      have h1 : Mem.wf 0 s1.plain = true := by
        simp only [s1, y, x]; exact h
      have h2 : Mem.wf 0 s2.plain = true := by
        simp only [s2]
        split
        · exact wf_filter 0 _ _ h1
        · exact h1
      clear_value s1 s2
      simp only [setFld, setRg_plain]
      exact h2

theorem windowWrite_wf (l : List (Nat × Nat)) (bs : List Byte) (s : Dev) (h : Mem.wf 0 s.plain = true) : Mem.wf 0 (windowWrite l bs s).plain = true := by
  induction l generalizing bs s with
  | nil => exact h
  | cons a r ih =>
    unfold windowWrite
    dsimp only
    apply ih
    split
    · simp only [bump, bumpBy, setRg_plain]; exact h
    · split
      · exact plainWrite_wf _ _ _ h
      · simp only [bump, bumpBy, setRg_plain]; exact h

theorem norStep_wf (x : NorStep) (m : Mem) (h : Mem.wf 0xFF m = true) : Mem.wf 0xFF (norStep x m) = true := by
  cases x with
  | erase n => exact wf_filter 0xFF _ _ h
  | program a b => exact wf_mputs 0xFF _ _ _ h

theorem norApply_wf (x : NorStep) (s : Dev) (h : Mem.wf 0xFF s.nor = true) : Mem.wf 0xFF (norApply x s).nor = true := by
  cases x <;> (simp only [norApply, bump, bumpBy, setRg_nor]; exact norStep_wf _ _ h)

theorem tornNor_wf (s : Dev) (h : Mem.wf 0xFF s.nor = true) : Mem.wf 0xFF (tornNor s).1 = true := by
  unfold tornNor
  split
  · rename_i x _
    dsimp only
    generalize tornBytes s x = l
    generalize s.nor = m at h ⊢
    induction l generalizing m with
    | nil => exact h
    | cons e r ih => exact ih _ (wf_mput 0xFF m e.1 e.2 h)
  · exact h

theorem resetBy_wf (c : Nat) (s : Dev) (h : Mem.wf 0xFF s.nor = true) :
    Mem.wf 0 (resetBy c s).plain = true ∧ Mem.wf 0xFF (resetBy c s).nor = true := by
  unfold resetBy
  extract_lets a causes old shown r
  have h1 : r.plain = [] := (rfl)
  have h2 : r.nor = (tornNor s).1 := (rfl)
  clear_value r
  simp only [setRg_plain, setRg_nor, h1, h2]
  exact ⟨wf_nil 0, tornNor_wf s h⟩

/-! What a write changes -/

theorem plainByte_plainWrite_in (a : Nat) (bs : List Byte) (s : Dev) (i : Nat) (h : i < bs.length) :
    plainByte (plainWrite a bs s) (a + i) = bs[i] := mget_mputs_in 0 bs s.plain a i h

theorem plainByte_plainWrite_out (a : Nat) (bs : List Byte) (s : Dev) (b : Nat) (h : b < a ∨ a + bs.length ≤ b) :
    plainByte (plainWrite a bs s) b = plainByte s b := mget_mputs_out 0 bs s.plain a b h

/-- What is read of a run just written is the run. -/
theorem plainBytes_plainWrite (a : Nat) (bs : List Byte) (s : Dev) : plainBytes (plainWrite a bs s) a bs.length = bs := by
  apply List.ext_getElem
  · simp [plainBytes, mgets]
  · intro i h1 h2
    have := plainByte_plainWrite_in a bs s i h2
    simpa [plainBytes, mgets, plainByte] using this

/-- An erase leaves the sector blank and every other byte as it was. -/
theorem norStep_erase (n a : Nat) (m : Mem) : mget 0xFF (norStep (.erase n) m) a = if a / 65536 = n then 0xFF else mget 0xFF m a := by
  unfold mget
  have key : ∀ m : Mem, tget (m.filter fun e => e.1 / 65536 != n) a = if a / 65536 = n then none else tget m a := by
    intro m
    induction m with
    | nil => simp [tget]
    | cons e r ih =>
      obtain ⟨b, v⟩ := e
      by_cases hb : b / 65536 = n
      · have : ((b, v) :: r).filter (fun e => e.1 / 65536 != n) = r.filter (fun e => e.1 / 65536 != n) := by simp [hb]
        rw [this, ih]
        by_cases ha : a / 65536 = n
        · simp [ha]
        · have : a ≠ b := fun e => ha (e ▸ hb)
          simp [ha, tget, this]
      · have : ((b, v) :: r).filter (fun e => e.1 / 65536 != n) = (b, v) :: r.filter (fun e => e.1 / 65536 != n) := by simp [hb]
        rw [this]
        simp only [tget, ih]
        by_cases hab : a = b
        · subst hab; simp [hb]
        · simp [hab]
  simp only [norStep, key]
  split <;> rfl

/-- A program clears bits in the bytes it names and leaves every other byte as it was. -/
theorem norStep_program_in (a : Nat) (bs : List Byte) (m : Mem) (i : Nat) (h : i < bs.length) :
    mget 0xFF (norStep (.program a bs) m) (a + i) = mget 0xFF m (a + i) &&& bs[i] := by
  simp only [norStep]
  rw [mget_mputs_in 0xFF _ m a i (by simpa using h)]
  simp [List.getElem_map, List.getElem_zip]

theorem norStep_program_out (a : Nat) (bs : List Byte) (m : Mem) (b : Nat) (h : b < a ∨ a + bs.length ≤ b) :
    mget 0xFF (norStep (.program a bs) m) b = mget 0xFF m b := by
  simp only [norStep]
  exact mget_mputs_out 0xFF _ m a b (by simpa using h)

/-! The pieces of an access -/

/-- An access inside one page is one piece. -/
theorem pieces_one (k a n : Nat) (h0 : n ≠ 0) (h : a % pageBytes + n ≤ pageBytes) : pieces (k + 2) a n = [(a, n)] := by
  have hm : min n (pageBytes - a % pageBytes) = n := by omega
  unfold pieces
  rw [if_neg h0]
  dsimp only
  rw [hm]
  unfold pieces
  simp

end Sys2Proof.Machine
end

