-- ==== Sys2Proof/Laws/Pair.lean ====
section
/-! SUPPORT. What a change of mode leaves of the pair, and what losing a path changes. -/

namespace Sys2Proof.Machine

/-- A change that leaves the modes and, but for the link that bears the checkpoints' charge, the pair. -/
structure PairKept (a b : Dev) : Prop where
  sys : b.sys = a.sys
  red : b.red = { a.red with link := b.red.link }

theorem PairKept.refl (s : Dev) : PairKept s s := ⟨rfl, rfl⟩

theorem PairKept.trans {a b c : Dev} (h : PairKept a b) (g : PairKept b c) : PairKept a c := by
  refine ⟨g.sys.trans h.sys, ?_⟩
  have k := g.red
  rw [h.red] at k
  exact k

theorem PairKept.of {a b : Dev} (h : b.sys = a.sys) (g : b.red = a.red) : PairKept a b := by
  refine ⟨h, ?_⟩
  rw [g]

theorem PostFrame.pair {a b : Dev} (h : PostFrame a b) : PairKept a b := .of h.sys h.red

theorem foldl_pair {α : Type} (f : Dev → α → Dev) (h : ∀ s a, PairKept s (f s a)) (l : List α) (s : Dev) : PairKept s (l.foldl f s) := by
  induction l generalizing s with
  | nil => exact .refl s
  | cons a r ih => exact (h s a).trans (ih _)

theorem postVal_pair (a b c e : Nat) (s : Dev) : PairKept s (postVal a b c e s) := (postVal_frame _ _ _ _ _).pair

theorem vOut_pair (l : Nat) (p : VPkt) (s : Dev) : PairKept s (vOut l p s) := by
  unfold vOut
  split <;> exact ⟨rfl, rfl⟩

theorem valSend_pair (typ cls dst epoch handle frame aux : Nat) (odd : Bool) (m : VMsg) (s : Dev) : PairKept s (valSend typ cls dst epoch handle frame aux odd m s) := by
  unfold valSend
  split
  · exact vOut_pair _ _ _
  · exact .refl s

theorem valFlood_pair (typ cls : Nat) (m : VMsg) (s : Dev) : PairKept s (valFlood typ cls m s) := foldl_pair _ (fun _ _ => vOut_pair _ _ _) _ _

theorem sendUpdate_pair (s : Dev) : PairKept s (sendUpdate s) := by
  unfold sendUpdate
  split
  · exact PairKept.trans (b := { s with val.updated := s.raw }) ⟨rfl, rfl⟩ (valFlood_pair _ _ _ _)
  · exact .refl s

theorem helloAll_pair (s : Dev) : PairKept s (helloAll s) := foldl_pair (fun s (e : Nat × VLink) => emit (.hello e.1) s) (fun _ _ => ⟨rfl, rfl⟩) _ _

theorem takeAddr_pair (a : Nat) (p : Bool) (s : Dev) : PairKept s (takeAddr a p s) := by
  unfold takeAddr
  dsimp only
  refine PairKept.trans ?_ (sendUpdate_pair _)
  refine PairKept.trans (b := { s with val.addr := a, val.pinned := p, val.conflict := false }) ⟨rfl, rfl⟩ ?_
  split
  · exact helloAll_pair _
  · exact (postVal_pair _ _ _ _ _).trans (helloAll_pair _)

theorem askAddr_pair (s : Dev) : PairKept s (askAddr s) := by
  unfold askAddr
  split
  · exact .refl s
  · split
    · exact takeAddr_pair _ _ _
    · exact PairKept.trans (b := { s with val.asked := some s.raw }) ⟨rfl, rfl⟩ (valFlood_pair _ _ _ _)

theorem settleAddr_pair (s : Dev) : PairKept s (settleAddr s) := by
  unfold settleAddr
  dsimp only
  split
  · split
    · exact takeAddr_pair _ _ _
    · exact askAddr_pair _
  · split
    · refine PairKept.trans ?_ (askAddr_pair _)
      refine PairKept.trans ?_ (sendUpdate_pair _)
      refine PairKept.trans ?_ (helloAll_pair _)
      exact PairKept.trans (b := { s with val.addr := 0, val.pinned := false, val.conflict := true }) ⟨rfl, rfl⟩ (postVal_pair _ _ _ _ _)
    · exact .refl s

theorem moveUniv_pair (i : Nat) (s : Dev) : PairKept s (moveUniv i s) := by
  unfold moveUniv
  split
  · split <;> exact ⟨rfl, rfl⟩
  · exact .refl _

theorem moveReserve_pair (k : Nat) (s : Dev) : PairKept s (moveReserve k s) := by
  unfold moveReserve
  split
  · split <;> exact ⟨rfl, rfl⟩
  · exact .refl _

theorem movePair_pair (s : Dev) : PairKept s (movePair s) := by
  unfold movePair
  dsimp only
  generalize (if s.red.paired then passLink s s.red.partner false else none) = l
  split <;> exact ⟨rfl, rfl⟩

theorem moveCharges_pair (s : Dev) : PairKept s (moveCharges s) := by
  unfold moveCharges
  dsimp only
  refine PairKept.trans ?_ (foldl_pair _ (fun s n => PairKept.trans (b := setBit F.VAL_STATUS_OVERCOMMIT true s) ⟨rfl, rfl⟩ (postVal_pair _ _ _ _ _)) _ _)
  exact ((foldl_pair _ (fun s e => moveUniv_pair _ s) _ _).trans (foldl_pair _ (fun s e => moveReserve_pair _ s) _ _)).trans (movePair_pair _)

theorem gainPasses_pair (s : Dev) : PairKept s (gainPasses s) := by
  unfold gainPasses
  dsimp only
  split
  · exact .refl s
  · have h := fun p => moveCharges_pair { s with val.passes := p }
    exact ⟨(h _).sys, (h _).red⟩

theorem membersChanged_pair (s : Dev) : PairKept s (membersChanged s) := by
  unfold membersChanged
  dsimp only
  refine PairKept.trans ?_ (gainPasses_pair _)
  refine PairKept.trans ?_ (settleAddr_pair _)
  split
  · exact .refl s
  · split
    · exact ⟨rfl, rfl⟩
    · exact PairKept.trans (b := { s with val.root := ((rootOf_ s).map (·.uid)).getD 0 }) ⟨rfl, rfl⟩ (postVal_pair _ _ _ _ _)

theorem examine_pair (l : Nat) (h : HelloMsg) (s : Dev) : PairKept s (examine l h s) := by
  have m : ∀ f, PairKept s (modLink l f s) := fun f => ⟨rfl, rfl⟩
  unfold examine
  split
  · exact m _
  · split
    · exact m _
    · split
      · dsimp only
        split
        · exact m _
        · exact (m _).trans (postVal_pair _ _ _ _ _)
      · exact (((m _).trans (postVal_pair _ _ _ _ _)).trans (sendUpdate_pair _)).trans (membersChanged_pair _)

theorem examineAll_pair (s : Dev) : PairKept s (examineAll s) := by
  refine foldl_pair _ (fun s l => ?_) _ _
  dsimp only
  split
  · split
    · exact examine_pair _ _ _
    · exact .refl _
  · exact .refl _

/-- The modes after a change of mode, which leaves the pair. -/
theorem toMode_spec (m : Mode) (s : Dev) :
    (toMode m s).sys = { s.sys with mode := m, prev := s.sys.mode, transitions := min (s.sys.transitions + 1) 65535 } ∧
      (toMode m s).red = { s.red with link := (toMode m s).red.link } := by
  have k : PairKept (enterMode m s) (toMode m s) := (helloAll_pair _).trans (examineAll_pair _)
  exact ⟨k.sys, k.red⟩

theorem startConversion_pair (s : Dev) : PairKept s (startConversion s) := by
  have q (j : NorJob) (x : Dev) : PairKept x (norQueue j x) := by
    unfold norQueue norBegin
    split
    · split <;> exact ⟨rfl, rfl⟩
    · exact ⟨rfl, rfl⟩
  unfold startConversion journalQueue
  split
  · split
    · exact q _ _
    · exact .refl s
  · exact .refl s

/-- STANDBY is entered: the mode, and no handover, claim, question or checkpoint. -/
theorem enterStandby_spec (s : Dev) :
    (enterStandby s).sys.mode = .standby ∧ (enterStandby s).red.handover = none ∧ (enterStandby s).red.claim = none ∧ (enterStandby s).red.asked = none ∧
      (enterStandby s).red.applied = none ∧ (enterStandby s).red.stage = none := by
  unfold enterStandby
  extract_lets x y f g tasks groups v w z u red
  obtain ⟨a, b⟩ := toMode_spec .standby { z with red := red }
  have k := startConversion_pair (toMode .standby { z with red := red })
  rw [k.sys, k.red, a, b]
  exact ⟨rfl, rfl, rfl, rfl, rfl, rfl⟩

theorem postRed_pair (a b c : Nat) (s : Dev) : (postRed a b c s).red = s.red ∧ (postRed a b c s).sys = s.sys ∧ ∀ o, o ∉ postCounters → rg (postRed a b c s) o = rg s o := by
  have f : PostFrame s (postRed a b c s) := post_frame _ _ _ _ _
  exact ⟨f.red, f.sys, f.2⟩

/-- The partner is said to be unreachable, once. -/
theorem unreachable_spec (s : Dev) :
    (unreachable s).red = { s.red with saidUnreachable := true } ∧ (unreachable s).sys = s.sys ∧ ∀ o, o ∉ postCounters → rg (unreachable s) o = rg s o := by
  unfold unreachable
  split
  · rename_i h
    refine ⟨?_, rfl, fun _ _ => rfl⟩
    rw [← h]
  · obtain ⟨a, b, c⟩ := postRed_pair 6 0x03 s.red.line { s with red.saidUnreachable := true }
    exact ⟨a, b, c⟩

@[simp] theorem pathAt_setPath (p : Nat) (v : Path) (s : Dev) : pathAt (setPath p v s) p = v := by
  unfold pathAt setPath
  split <;> rfl

theorem pathAt_congr {a b : Dev} (v : a.red.valley = b.red.valley) (w : a.red.wire = b.red.wire) (p : Nat) : pathAt a p = pathAt b p := by
  unfold pathAt
  rw [v, w]

/-- A path is lost while no handover is in progress (R336). -/
theorem losePath_spec (p : Nat) (s : Dev) (hp : p = 1 ∨ p = 2) (h : s.red.handover = none) :
    pathAt (losePath p s) p = { pathAt s p with up := false, run := 0 } ∧ pathAt (losePath p s) (3 - p) = pathAt s (3 - p) ∧ (losePath p s).red.ilk = s.red.ilk ∧ (losePath p s).sys = s.sys ∧
      rg (losePath p s) R.RED_PATH_LOSSES = BitVec.ofNat 32 (min ((rg s R.RED_PATH_LOSSES).toNat + 1) 0xFFFFFFFF) ∧
      (losePath p s).red.saidUnreachable = (s.red.saidUnreachable || !(pathAt s (3 - p)).up) := by
  have aband (x : Dev) : (ckptAbandon x).red.valley = x.red.valley ∧ (ckptAbandon x).red.wire = x.red.wire ∧ (ckptAbandon x).red.ilk = x.red.ilk ∧ (ckptAbandon x).red.handover = x.red.handover ∧
      (ckptAbandon x).red.saidUnreachable = x.red.saidUnreachable ∧ (ckptAbandon x).sys = x.sys ∧ (ckptAbandon x).regs = x.regs := by
    unfold ckptAbandon
    split <;> exact ⟨rfl, rfl, rfl, rfl, rfl, rfl, rfl⟩
  have fin (x : Dev) (a : x.red.handover = none) (up : Bool) (ht : anyPath x = up) : (if anyPath x then x else unreachable (abortHandover x)).red = { x.red with saidUnreachable := x.red.saidUnreachable || !up } ∧
      (if anyPath x then x else unreachable (abortHandover x)).sys = x.sys ∧
      rg (if anyPath x then x else unreachable (abortHandover x)) R.RED_PATH_LOSSES = rg x R.RED_PATH_LOSSES := by
    have e : abortHandover x = x := by
      unfold abortHandover
      rw [a]
    rw [e]
    obtain ⟨u1, u2, u3⟩ := unreachable_spec x
    by_cases q : anyPath x = true
    · rw [if_pos q, show up = true from ht.symm.trans q]
      exact ⟨by rw [Bool.not_true, Bool.or_false], rfl, rfl⟩
    · rw [if_neg q, u1, u2, u3 _ (by decide)]
      exact ⟨by rw [show up = false from ht.symm.trans (eq_false_of_ne_true q), Bool.not_false, Bool.or_true], rfl, rfl⟩
  rcases hp with rfl | rfl
  · obtain ⟨p1, p2, p3⟩ := postRed_pair 6 0x01 1 (bump R.RED_PATH_LOSSES (setPath 1 { pathAt s 1 with up := false, run := 0 } s))
    generalize e : postRed 6 0x01 1 (bump R.RED_PATH_LOSSES (setPath 1 { pathAt s 1 with up := false, run := 0 } s)) = x at p1 p2 p3
    obtain ⟨a1, a2, a3, a4, a5, a6, a7⟩ := aband x
    have l : losePath 1 s = (if anyPath (ckptAbandon x) then ckptAbandon x else unreachable (abortHandover (ckptAbandon x))) := by
      unfold losePath
      dsimp only
      rw [if_pos rfl, e]
    obtain ⟨f1, f2, f3⟩ := fin (ckptAbandon x) (by rw [a4, p1]; exact h) s.red.wire.up (by unfold anyPath; rw [a1, a2, p1]; rfl)
    rw [l]
    refine ⟨?_, ?_, ?_, ?_, ?_, ?_⟩
    · rw [pathAt_congr (b := setPath 1 { pathAt s 1 with up := false, run := 0 } s) (by rw [f1]; dsimp only; rw [a1, p1]; rfl) (by rw [f1]; dsimp only; rw [a2, p1]; rfl), pathAt_setPath]
    · rw [pathAt_congr (b := setPath 1 { pathAt s 1 with up := false, run := 0 } s) (by rw [f1]; dsimp only; rw [a1, p1]; rfl) (by rw [f1]; dsimp only; rw [a2, p1]; rfl)]
      rfl
    · rw [f1]
      dsimp only
      rw [a3, p1]
      rfl
    · rw [f2, a6, p2]
      rfl
    · rw [f3, rg_congr a7, p3 _ (by decide), rg_bump_self]
      rfl
    · rw [f1]
      dsimp only
      rw [a5, p1]
      rfl
  · obtain ⟨p1, p2, p3⟩ := postRed_pair 6 0x01 2 (bump R.RED_PATH_LOSSES (setPath 2 { pathAt s 2 with up := false, run := 0 } s))
    generalize e : postRed 6 0x01 2 (bump R.RED_PATH_LOSSES (setPath 2 { pathAt s 2 with up := false, run := 0 } s)) = x at p1 p2 p3
    have l : losePath 2 s = (if anyPath x then x else unreachable (abortHandover x)) := by
      unfold losePath
      dsimp only
      rw [if_neg (show ¬(2 : Nat) = 1 by decide), e]
    obtain ⟨f1, f2, f3⟩ := fin x (by rw [p1]; exact h) s.red.valley.up (by unfold anyPath; rw [p1]; exact Bool.or_false _)
    rw [l]
    refine ⟨?_, ?_, ?_, ?_, ?_, ?_⟩
    · rw [pathAt_congr (b := setPath 2 { pathAt s 2 with up := false, run := 0 } s) (by rw [f1]; dsimp only; rw [p1]; rfl) (by rw [f1]; dsimp only; rw [p1]; rfl), pathAt_setPath]
    · rw [pathAt_congr (b := setPath 2 { pathAt s 2 with up := false, run := 0 } s) (by rw [f1]; dsimp only; rw [p1]; rfl) (by rw [f1]; dsimp only; rw [p1]; rfl)]
      rfl
    · rw [f1]
      dsimp only
      rw [p1]
      rfl
    · rw [f2, p2]
      rfl
    · rw [f3, p3 _ (by decide), rg_bump_self]
      rfl
    · rw [f1]
      dsimp only
      rw [p1]
      rfl

/-- A checkpoint is sent: it is the next one, and nothing that is dirty is left out of it (R345). -/
theorem sendCkpt_spec (frame : Int) (s : Dev) :
    (sendCkpt frame s).red.ckptNum = s.red.ckptNum + 1 ∧ (sendCkpt frame s).red.full = false ∧
      (sendCkpt frame s).red.out = some { num := s.red.ckptNum + 1, frame := frame, tick := s.raw, pages := (ckptPages s).map (·.1), trailer := some s.raw } := by
  unfold sendCkpt
  extract_lets num pages crc snap out u v z a b
  have hz : z.red = { s.red with ckptNum := num, full := false, out := some out } := rfl
  have k1 : PairKept z a := foldl_pair _ (fun s e => foldl_pair _ (fun s p => valSend_pair _ _ _ _ _ _ _ _ _ _) _ _) _ _
  have k2 : PairKept a b := valSend_pair _ _ _ _ _ _ _ _ _ _
  have k3 := valSend_pair 3 2 b.red.partner 0 0 (unsgn 64 frame) 0 false (.trailer num pages.length crc) b
  clear_value b a z
  have k := ((k1.trans k2).trans k3).red
  rw [hz] at k
  exact ⟨congrArg (·.ckptNum) k, congrArg (·.full) k, congrArg (·.out) k⟩

/-- A tick that finds a checkpoint on its way counts it as stretched (R345). -/
theorem ckptTick_stretch (n : Int) (s : Dev) (h2 : ckptMay s = true) (h3 : s.red.out ≠ none) :
    (ckptTick n s).red.ckptNum = s.red.ckptNum ∧ (ckptTick n s).red.out = s.red.out ∧
      rg (ckptTick n s) R.RED_CKPT_STRETCHED = BitVec.ofNat 32 (min ((rg s R.RED_CKPT_STRETCHED).toNat + 1) 0xFFFFFFFF) := by
  unfold ckptTick
  rw [if_neg (by rw [h2]; decide), if_neg (by rw [Option.isNone_iff_eq_none]; exact h3)]
  have hu : (bump R.RED_CKPT_STRETCHED s).red = s.red := rfl
  have hr : rg (bump R.RED_CKPT_STRETCHED s) R.RED_CKPT_STRETCHED = BitVec.ofNat 32 (min ((rg s R.RED_CKPT_STRETCHED).toNat + 1) 0xFFFFFFFF) := rg_bump_self _ _
  generalize bump R.RED_CKPT_STRETCHED s = u at hu hr
  dsimp only
  split
  · obtain ⟨p1, -, p3⟩ := postRed_pair 6 0x0B (rg u R.RED_CKPT_AGE).toNat { u with red.stretchedAt := some u.raw }
    rw [p1, p3 _ (by decide), hu]
    exact ⟨rfl, rfl, hr⟩
  · rw [hu]
    exact ⟨rfl, rfl, hr⟩

/-- A breath that finds the line low (R338). -/
theorem breathLow_spec (s : Dev) :
    let u := bump R.RED_BREATH_LOW s
    let e := if elapsed u u.red.breathAt (sec 1) then postRed 2 0x06 (rg u R.RED_BREATH_LOW).toNat { u with red.breathAt := some u.raw } else u
    rg e R.RED_BREATH_LOW = BitVec.ofNat 32 (min ((rg s R.RED_BREATH_LOW).toNat + 1) 0xFFFFFFFF) ∧ e.sys = s.sys ∧
      e.red = { s.red with breathAt := if elapsed s s.red.breathAt (sec 1) then some s.raw else s.red.breathAt } := by
  intro u
  have h1 : u.red = s.red := rfl
  have h2 : u.raw = s.raw := rfl
  have h3 : u.sys = s.sys := rfl
  have h4 : elapsed u u.red.breathAt (sec 1) = elapsed s s.red.breathAt (sec 1) := rfl
  have hr : rg u R.RED_BREATH_LOW = BitVec.ofNat 32 (min ((rg s R.RED_BREATH_LOW).toNat + 1) 0xFFFFFFFF) := rg_bump_self _ _
  clear_value u
  rw [h4]
  intro e
  obtain ⟨p1, p2, p3⟩ := postRed_pair 2 0x06 (rg u R.RED_BREATH_LOW).toNat { u with red.breathAt := some u.raw }
  by_cases q : elapsed s s.red.breathAt (sec 1) = true
  · have he : e = _ := if_pos q
    rw [he, p3 _ (by decide), p1, p2, if_pos q, ← h2, ← h1]
    exact ⟨hr, h3, rfl⟩
  · have he : e = _ := if_neg q
    rw [he, if_neg q, ← h1]
    exact ⟨hr, h3, rfl⟩

/-- The severed line is said, once. -/
theorem severed_red (s : Dev) : (severed s).red = { s.red with saidSevered := true } := by
  unfold severed
  split
  · rename_i h
    rw [← h]
  · exact (postRed_pair _ _ _ _).1

theorem claimItems_claim (r : Decision) (s : Dev) : (claimItems r s).red.claim = s.red.claim ∧ (claimItems r s).red.asked = s.red.asked := by
  have un := fun x => (unreachable_spec x).1
  unfold claimItems
  split
  · split
    · exact ⟨rfl, rfl⟩
    · rw [(postRed_pair _ _ _ _).1]
      exact ⟨rfl, rfl⟩
  · split
    · exact ⟨rfl, rfl⟩
    · rw [un]
      exact ⟨rfl, rfl⟩
  · rw [severed_red]
    exact ⟨rfl, rfl⟩
  · rw [un]
    exact ⟨rfl, rfl⟩
  · exact ⟨rfl, rfl⟩

/-- On a row of R342 that does not claim, nothing is claimed and nothing is asked. -/
theorem claimEvaluation_bars (s : Dev) (h4 : s.red.claim = none) (h : blocked s = true ∨ s.red.line ≠ 0 ∨ (anyPath s = true ∧ hbHolds s.red.word = true)) :
    (claimEvaluation s).red.claim = none ∧ (claimEvaluation s).red.asked = s.red.asked := by
  unfold claimEvaluation
  by_cases q : blocked s = true
  · rw [if_pos q]
    dsimp only
    rw [(claimItems_claim _ _).1, (claimItems_claim _ _).2]
    split
    · exact ⟨h4, rfl⟩
    · rw [(postRed_pair _ _ _ _).1]
      exact ⟨h4, rfl⟩
  · have q2 := h.resolve_left q
    have no : (∀ u, claimRow s ≠ .claim u) ∧ claimRow s ≠ .ask := by
      unfold claimRow
      split
      · exact ⟨fun _ => by simp, by simp⟩
      · split
        · exact ⟨fun _ => by simp, by simp⟩
        · rename_i a b
          obtain ⟨x, y⟩ := q2.resolve_left b
          rw [if_pos x, if_pos y]
          exact ⟨fun _ => by simp, by simp⟩
    rw [if_neg q]
    split
    · rename_i u hu
      exact absurd hu (no.1 u)
    · rename_i hu
      exact absurd hu no.2
    · rw [(claimItems_claim _ _).1, (claimItems_claim _ _).2]
      exact ⟨h4, rfl⟩

/-- Where the line is FREE and the partner does not hold, what is claimed or asked (R342). -/
theorem claimEvaluation_free (s : Dev) (a : blocked s = false) (b : s.red.line = 0) :
    (anyPath s = true → hbHolds s.red.word = false → claimEvaluation s = startClaim false s) ∧
    (anyPath s = false → witnessNeeded s = false → claimEvaluation s = startClaim true s) ∧
    (anyPath s = false → witnessNeeded s = true → claimEvaluation s = askWitness s) := by
  refine ⟨fun c e => ?_, fun c e => ?_, fun c e => ?_⟩
  all_goals
    unfold claimEvaluation
    rw [if_neg (by rw [a]; decide)]
  · have r : claimRow s = .claim false := by
      unfold claimRow
      rw [if_neg (by omega), if_neg (by omega), if_pos c, if_neg (by rw [e]; decide)]
    rw [r]
  · have r : claimRow s = .claim true := by
      unfold claimRow
      rw [if_neg (by omega), if_neg (by omega), if_neg (by rw [c]; decide), if_neg (by rw [e]; decide)]
    rw [r]
  · have r : claimRow s = .ask := by
      unfold claimRow
      rw [if_neg (by omega), if_neg (by omega), if_neg (by rw [c]; decide), if_pos e]
    rw [r]

/-- A checkpoint is refused whole (R347). -/
theorem refuseCkpt_spec (num : Nat) (s : Dev) :
    (withHealth (refuseCkpt num s)).red.applied = s.red.applied ∧ (withHealth (refuseCkpt num s)).red.stage = none ∧ (withHealth (refuseCkpt num s)).red.refused = true ∧
      (withHealth (refuseCkpt num s)).red.cpBad = s.red.cpBad ∧ (withHealth (refuseCkpt num s)).red.capShort = s.red.capShort ∧
      rg (withHealth (refuseCkpt num s)) R.RED_CKPT_REFUSED = BitVec.ofNat 32 (min ((rg s R.RED_CKPT_REFUSED).toNat + 1) 0xFFFFFFFF) := by
  have g (x : Dev) (m : VMsg) : (valSend 3 2 x.red.partner 0 0 0 0 false m x).regs = x.regs := by
    unfold valSend vOut
    split
    · split <;> rfl
    · rfl
  have w (x : Dev) : (withHealth x).red.applied = x.red.applied ∧ (withHealth x).red.stage = x.red.stage ∧ (withHealth x).red.refused = x.red.refused ∧ (withHealth x).red.cpBad = x.red.cpBad ∧
      (withHealth x).red.capShort = x.red.capShort ∧ (withHealth x).regs = x.regs := ⟨rfl, rfl, rfl, rfl, rfl, rfl⟩
  unfold refuseCkpt
  extract_lets r z
  have hz : z = postRed 2 0x0C num (bump R.RED_CKPT_REFUSED { s with red.stage := none, red.refused := true }) := rfl
  have hu : (bump R.RED_CKPT_REFUSED { s with red.stage := none, red.refused := true }).red = { s.red with stage := none, refused := true } := rfl
  have hr : rg (bump R.RED_CKPT_REFUSED { s with red.stage := none, red.refused := true }) R.RED_CKPT_REFUSED = BitVec.ofNat 32 (min ((rg s R.RED_CKPT_REFUSED).toNat + 1) 0xFFFFFFFF) :=
    rg_bump_self _ _
  clear_value z
  generalize bump R.RED_CKPT_REFUSED { s with red.stage := none, red.refused := true } = u at hz hu hr
  obtain ⟨p1, -, p3⟩ : z.red = u.red ∧ z.sys = u.sys ∧ ∀ o, o ∉ postCounters → rg z o = rg u o := by
    rw [hz]
    exact postRed_pair 2 0x0C num u
  obtain ⟨w1, w2, w3, w4, w5, w6⟩ := w (valSend 3 2 z.red.partner 0 0 0 0 false (.ckptRefuse num) z)
  rw [w1, w2, w3, w4, w5, rg_congr w6, rg_congr (g _ _), (valSend_pair _ _ _ _ _ _ _ _ _ _).red, p3 _ (by decide), p1, hu]
  exact ⟨rfl, rfl, rfl, rfl, rfl, hr⟩

end Sys2Proof.Machine
end

