-- ==== Sys2Proof/Laws/Ports.lean ====
section
/-! SUPPORT. The host ports of QUE: what a commit that fits and a pop of an on-chip ring do. -/

namespace Sys2Proof.Machine

theorem makeRoom_fits (need fuel : Nat) (r : Ring) (h : r.used + need ≤ r.size) : r.makeRoom need fuel = r := by
  cases fuel with
  | zero => rfl
  | succ k =>
    unfold Ring.makeRoom
    rw [if_pos (Or.inl h)]

/-- A ring's vector leaves the items and the push port as they were. -/
theorem ringIrq_cases (n b : Nat) (s : Dev) :
    ringIrq n b s = s ∨ ∃ x y o, tget s.que.rings n = some x ∧ y.items = x.items ∧ y.wpos = x.wpos ∧
      ringIrq n b s = { s with out := o, que.rings := tput s.que.rings n y } := by
  unfold ringIrq
  cases hx : tget s.que.rings n with
  | none => exact .inl rfl
  | some x =>
    dsimp only
    generalize us 10 = u
    split
    · right
      cases hv : x.vecLast with
      | none => exact ⟨x, { x with vecLast := some s.raw, vecOwed := false }, _, rfl, rfl, rfl, rfl⟩
      | some v =>
        dsimp only
        split
        · exact ⟨x, { x with vecLast := some s.raw, vecOwed := false }, _, rfl, rfl, rfl, rfl⟩
        · exact ⟨x, { x with vecOwed := true, vecLast := some v }, s.out, rfl, rfl, rfl, rfl⟩
    · exact .inl rfl

theorem ringIrq_items (n b m : Nat) (s : Dev) (r : Ring) (h : tget s.que.rings m = some r) :
    ∃ r', tget (ringIrq n b s).que.rings m = some r' ∧ r'.items = r.items ∧ r'.wpos = r.wpos := by
  rcases ringIrq_cases n b s with e | ⟨x, y, o, hx, y1, y2, e⟩
  · rw [e]
    exact ⟨r, h, rfl, rfl⟩
  · rw [e]
    by_cases hm : m = n
    · subst hm
      rw [h] at hx
      cases hx
      exact ⟨y, tget_tput_self _ _ _, y1, y2⟩
    · exact ⟨r, (tget_tput_ne _ _ hm).trans h, rfl, rfl⟩

theorem ringIrq_resv (n b : Nat) (s : Dev) : (ringIrq n b s).que.resv = s.que.resv := by
  rcases ringIrq_cases n b s with e | ⟨x, y, o, hx, y1, y2, e⟩ <;> rw [e]

/-- An item that fits an on-chip ring stands at its tail (R116, R117). -/
theorem ringCommit_fits (n : Nat) (ws : List Nat) (r : Ring) (s : Dev) (hr : tget s.que.rings n = some r) (hp : r.plain = false)
    (hu : r.used + ws.length ≤ r.size) :
    ∃ r', tget (ringCommit n ws s).1.que.rings n = some r' ∧ r'.items = r.items ++ [⟨r.wpos, ws⟩] ∧ r'.wpos = (r.wpos + ws.length) % r.size ∧
      (ringCommit n ws s).1.que.resv = s.que.resv := by
  unfold ringCommit
  rw [hr]
  dsimp only
  rw [makeRoom_fits _ _ _ hu, hp]
  simp only [Bool.false_eq_true, if_false, if_true]
  obtain ⟨r', h1, h2, h3⟩ := ringIrq_items n r.depth n { s with que.rings := tput s.que.rings n { r with items := r.items ++ [⟨r.wpos, ws⟩], wpos := (r.wpos + ws.length) % r.size } }
    _ (tget_tput_self _ _ _)
  exact ⟨r', h1, h2, h3, ringIrq_resv _ _ _⟩

/-- What a pop shows in QUE.POP_STATUS and QUE.POP_HI. -/
theorem shown_spec (x : Dev) (hi idle denied cut : Nat) :
    let e := setFld F.QUE_POP_STATUS_IDLE idle <| setFld F.QUE_POP_STATUS_DENIED denied <| setFld F.QUE_POP_STATUS_CUT cut <|
      setRg R.QUE_POP_HI (BitVec.ofNat 32 hi) x
    rg e R.QUE_POP_HI = BitVec.ofNat 32 hi ∧ fld e F.QUE_POP_STATUS_IDLE = idle % 2 ∧ fld e F.QUE_POP_STATUS_DENIED = denied % 2 ∧
      e.que = x.que ∧ e.out = x.out := by
  refine ⟨?_, fld_setFld_self _ _ _ (by decide), ?_, rfl, rfl⟩
  · rw [rg_setFld_ne _ _ _ (by decide), rg_setFld_ne _ _ _ (by decide), rg_setFld_ne _ _ _ (by decide), rg_setRg_self]
  · rw [fld_setFld_disjoint _ _ _ _ (by decide) (by decide)]
    exact fld_setFld_self _ _ _ (by decide)

/-- A pop of a word of an on-chip ring (R118). -/
theorem popLo_item (s : Dev) (r : Ring) (it : RItem) (hr : tget s.que.rings (fld s F.QUE_POP_RING_RING) = some r) (hc : r.hostConsumer = true)
    (hp : r.plain = false) (hi : r.items[r.read]? = some it) :
    let w := it.words.getD r.part 0
    popLo s = (setFld F.QUE_POP_STATUS_IDLE 0 <| setFld F.QUE_POP_STATUS_DENIED 0 <|
      setFld F.QUE_POP_STATUS_CUT (max (if r.cut then 1 else 0) (fld s F.QUE_POP_STATUS_CUT)) <| setRg R.QUE_POP_HI (BitVec.ofNat 32 (w / 2 ^ 32))
        { s with
          que.rings := tput s.que.rings (fld s F.QUE_POP_RING_RING)
            { (if it.words.length - (r.part + 1) = 0 then r.finish else { r with part := r.part + 1 }) with
              cut := false } },
      BitVec.ofNat 32 (w % 2 ^ 32)) := by
  intro w
  unfold popLo
  extract_lets n sh
  rw [show tget s.que.rings n = some r from hr]
  dsimp -zeta only
  rw [if_neg (by simp [hc])]
  rw [hi]
  dsimp -zeta only
  rw [hp, show itemWord s n r it r.part = w by simp [w, itemWord, hp]]
  rfl

theorem popLo_idle (s : Dev) (r : Ring) (hr : tget s.que.rings (fld s F.QUE_POP_RING_RING) = some r) (hc : r.hostConsumer = true)
    (hi : r.items.length ≤ r.read) :
    popLo s = (setFld F.QUE_POP_STATUS_IDLE 1 <| setFld F.QUE_POP_STATUS_DENIED 0 <|
      setFld F.QUE_POP_STATUS_CUT (max (if r.cut then 1 else 0) (fld s F.QUE_POP_STATUS_CUT)) <| setRg R.QUE_POP_HI (BitVec.ofNat 32 0)
        { s with que.rings := tput s.que.rings (fld s F.QUE_POP_RING_RING) { r with cut := false } }, BitVec.ofNat 32 0) := by
  unfold popLo
  extract_lets n sh
  rw [show tget s.que.rings n = some r from hr]
  dsimp -zeta only
  rw [if_neg (by simp [hc])]
  rw [List.getElem?_eq_none hi]
  rfl

theorem popLo_denied (s : Dev) (hr : ∀ r, tget s.que.rings (fld s F.QUE_POP_RING_RING) = some r → r.hostConsumer = false) :
    popLo s = (setFld F.QUE_POP_STATUS_IDLE 0 <| setFld F.QUE_POP_STATUS_DENIED 1 <|
      setFld F.QUE_POP_STATUS_CUT (max 0 (fld s F.QUE_POP_STATUS_CUT)) <| setRg R.QUE_POP_HI (BitVec.ofNat 32 0) s, BitVec.ofNat 32 0) := by
  unfold popLo
  extract_lets n sh
  cases h : tget s.que.rings n with
  | none => rfl
  | some r =>
    dsimp -zeta only
    rw [if_pos (by simp [hr r h])]

end Sys2Proof.Machine
end

