-- ==== Sys2Proof/Laws/Reset.lean ====
section
/-! SUPPORT. What the reset of the device and the self-test after it leave. -/

namespace Sys2Proof.Machine

theorem foldl_sys {α : Type} (f : Dev → α → Dev) (h : ∀ s a, (f s a).sys = s.sys) (l : List α) (s : Dev) :
    (l.foldl f s).sys = s.sys := by
  induction l generalizing s with
  | nil => rfl
  | cons a l ih => rw [List.foldl_cons, ih, h]

theorem foldl_regs {α : Type} (f : Dev → α → Dev) (h : ∀ s a, (f s a).regs = s.regs) (l : List α) (s : Dev) :
    (l.foldl f s).regs = s.regs := by
  induction l generalizing s with
  | nil => rfl
  | cons a l ih => rw [List.foldl_cons, ih, h]

theorem resetBy_held (c : Nat) (s : Dev) : HeldInReset s (resetBy c s) := by
  refine ⟨rfl, rfl, rfl, rfl, rfl, rfl, rfl, rfl, rfl, rfl, rfl, rfl, rfl, rfl, rfl, rfl, rfl, rfl, rfl, rfl, rfl, ?_, ?_, ?_⟩
  · intro h
    simp [resetBy, setRg, tornNor, h]
  · intro off h1 h2
    simp only [resetBy]
    rw [rg_setRg_ne _ _ h1, rg_setRg_ne _ _ h2]
    simp [rg]
  · simp only [resetBy]
    rw [rg_setRg_ne _ _ (by decide), rg_setRg_self]

theorem resetBy_cause (c : Nat) (s : Dev) : rg (resetBy c s) R.SYS_RESET_CAUSE =
    BitVec.ofNat 32 (if c = 1 then 1 else if c = 2 ∧ s.sys.mode ≠ .reset then 2 else (rg s R.SYS_RESET_CAUSE).toNat ||| c) := by
  simp only [resetBy]
  rw [rg_setRg_self]

/-- The sources that keep the bits that were set. -/
theorem resetBy_cause_or (c : Nat) (s : Dev) (h1 : c ≠ 1) (h2 : c ≠ 2) :
    rg (resetBy c s) R.SYS_RESET_CAUSE = rg s R.SYS_RESET_CAUSE ||| BitVec.ofNat 32 c := by
  rw [resetBy_cause]
  simp only [h1, h2, false_and, if_false]
  rw [BitVec.ofNat_or, BitVec.ofNat_toNat, BitVec.setWidth_eq]

@[simp] theorem enterMode_mode (m : Mode) (s : Dev) : (enterMode m s).sys.mode = m := rfl
@[simp] theorem enterMode_prev (m : Mode) (s : Dev) : (enterMode m s).sys.prev = s.sys.mode := rfl
@[simp] theorem enterMode_regs (m : Mode) (s : Dev) : (enterMode m s).regs = s.regs := rfl

@[simp] theorem milestone_sys (o : Nat) (s : Dev) : (milestone o s).sys = s.sys := rfl

@[simp] theorem mapPage_sys (k p : Nat) (a b c : Bool) (s : Dev) : (mapPage k p a b c s).sys = s.sys := by
  unfold mapPage; split <;> rfl

@[simp] theorem mapPages_sys (k p : Nat) (a b c : Bool) (n : Nat) (s : Dev) : (mapPages k p a b c n s).sys = s.sys := by
  induction n generalizing p s with
  | zero => rfl
  | succ n ih => simp [mapPages, ih]

@[simp] theorem modPort_sys (n : Nat) (f : Port → Port) (s : Dev) : (modPort n f s).sys = s.sys := by simp [modPort, setPort]

@[simp] theorem applyPort_sys (n : Nat) (x : PortRec) (s : Dev) : (applyPort n x s).sys = s.sys := by
  unfold applyPort
  split <;> simp [chargeAll]

@[simp] theorem startMgt_sys (x : PortRec) (s : Dev) : (startMgt x s).sys = s.sys := by simp [startMgt]

@[simp] theorem readBootHdr_sys (s : Dev) : (readBootHdr s).sys = s.sys := by simp [readBootHdr]

@[simp] theorem trainPlain_sys (r : Daybreak) (s : Dev) : (trainPlain r s).sys = s.sys := by
  simp [trainPlain, freeStore, showPlain, showTraining]

theorem readBootHdr_rg (s : Dev) {o : Nat} (h1 : o ≠ R.BOOT_HDR) (h2 : o ≠ R.SYS_STATUS) : rg (readBootHdr s) o = rg s o := by
  unfold readBootHdr
  extract_lets h v
  clear_value v h
  rw [rg_setRg_ne _ _ h1, setBit, setFld, rg_setRg_ne _ _ h2]
  exact rg_congr rfl _

theorem freeStore_rg (s : Dev) (o : Nat) : rg (freeStore s) o = rg s o := rg_congr rfl o

theorem trainPlain_rg (r : Daybreak) (s : Dev) {o : Nat} (h1 : o ≠ R.PLN_TRAIN) (h2 : o ≠ R.PLN_CONFIG) :
    rg (trainPlain r s) o = rg s o := by
  rw [trainPlain, freeStore_rg, showPlain, rg_setFld_ne _ _ _ h2,
    rg_setBit_ne _ _ _ h2, rg_setBit_ne _ _ _ h2, showTraining, rg_setBit_ne _ _ _ h1, rg_setBit_ne _ _ _ h1,
    rg_setFld_ne _ _ _ h1, rg_setFld_ne _ _ _ h1]

@[simp] theorem calMeasure_sys (r : List (Nat × Nat × Nat × Nat)) (i j : Nat) (s : Dev) : (calMeasure r i j s).sys = s.sys := by
  unfold calMeasure calReading
  cases r.find? fun x => x.1 == i && x.2.1 == j <;> simp

@[simp] theorem calMeasure_regs (r : List (Nat × Nat × Nat × Nat)) (i j : Nat) (s : Dev) : (calMeasure r i j s).regs = s.regs := by
  unfold calMeasure calReading
  cases r.find? fun x => x.1 == i && x.2.1 == j <;> simp

@[simp] theorem spmBank_sys (n f : Nat) (s : Dev) : (spmBank n f s).sys = s.sys := by simp [spmBank]

@[simp] theorem spmTest_sys (l : List Nat) (s : Dev) : (spmTest l s).sys = s.sys := by
  simp only [spmTest, setBit_sys, setFld_sys]
  exact foldl_sys _ (fun s n => spmBank_sys n _ s) _ _

@[simp] theorem setPx_sys (n : Nat) (x : PxPort) (s : Dev) : (setPx n x s).sys = s.sys := by simp [setPx]

@[simp] theorem shortTest_sys (n : Nat) (l : List Nat) (s : Dev) : (shortTest n l s).sys = s.sys := by
  simp only [shortTest]
  split <;> simp

@[simp] theorem modLine_sys (n : Nat) (f : Line → Line) (s : Dev) : (modLine n f s).sys = s.sys := by
  unfold modLine setLine
  split <;> rfl

/-- LOAD is entered. -/
@[simp] theorem enterLoad_mode (s : Dev) : (enterLoad s).sys.mode = .load := by
  unfold enterLoad
  simp only
  split
  · split <;> simp
  · simp

/-- A bank of the scratchpad after its march. -/
theorem spmBank_unrepaired (n f : Nat) (s : Dev) :
    bitOf (spmBank n f s) (F.SPM_BANK_UNREPAIRED n) = decide (fld s (F.SPM_BANK_SPARE_LEFT n) < f) := by
  simp only [spmBank, bitOf]
  have fits : (F.SPM_BANK_UNREPAIRED n).Fits := by show 9 + 1 ≤ 32; decide
  rw [fld_setFld_disjoint _ _ _ _ fits (Or.inl (by show 3 + 3 ≤ 9; decide)),
    fld_setFld_disjoint _ _ _ _ fits (Or.inl (by show 6 + 3 ≤ 9; decide))]
  have := bitOf_setBit_self (F.SPM_BANK_UNREPAIRED n) (decide (fld s (F.SPM_BANK_SPARE_LEFT n) < f)) s fits rfl
  simpa [bitOf] using this

theorem spmBank_ne (n f : Nat) (s : Dev) {o : Nat} (h : o ≠ R.SPM_BANK n) : rg (spmBank n f s) o = rg s o := by
  simp only [spmBank, setBit, setFld]
  rw [rg_setRg_ne _ _ h, rg_setRg_ne _ _ h, rg_setRg_ne _ _ h]

/-- A march over several banks shows each of them as its own march leaves it. -/
theorem spmBanks_unrepaired (fails : List Nat) (l : List Nat) (hl : l.Nodup) (s : Dev) (n : Nat) (h : n ∈ l) :
    bitOf (l.foldl (fun s n => spmBank n (fails.getD n 0) s) s) (F.SPM_BANK_UNREPAIRED n) =
      decide (fld s (F.SPM_BANK_SPARE_LEFT n) < fails.getD n 0) := by
  have off (a b : Nat) (h : a ≠ b) : R.SPM_BANK a ≠ R.SPM_BANK b := by
    show 0xa0040 + 0x4 * a ≠ 0xa0040 + 0x4 * b
    omega
  have keep (l : List Nat) (s : Dev) (n : Nat) (h : n ∉ l) :
      rg (l.foldl (fun s n => spmBank n (fails.getD n 0) s) s) (R.SPM_BANK n) = rg s (R.SPM_BANK n) := by
    induction l generalizing s with
    | nil => rfl
    | cons a l ih =>
      rw [List.mem_cons, not_or] at h
      rw [List.foldl_cons, ih _ h.2, spmBank_ne _ _ _ (off _ _ h.1)]
  induction l generalizing s with
  | nil => cases h
  | cons a l ih =>
    rw [List.nodup_cons] at hl
    rw [List.foldl_cons]
    by_cases e : n = a
    · subst e
      have := keep l (spmBank n (fails.getD n 0) s) n hl.1
      rw [← spmBank_unrepaired]
      show ((F.SPM_BANK_UNREPAIRED n).of (rg _ (R.SPM_BANK n)) != 0) = ((F.SPM_BANK_UNREPAIRED n).of (rg _ (R.SPM_BANK n)) != 0)
      rw [this]
    · have same : fld (spmBank a (fails.getD a 0) s) (F.SPM_BANK_SPARE_LEFT n) = fld s (F.SPM_BANK_SPARE_LEFT n) := by
        show (F.SPM_BANK_SPARE_LEFT n).of (rg _ (R.SPM_BANK n)) = (F.SPM_BANK_SPARE_LEFT n).of (rg _ (R.SPM_BANK n))
        rw [spmBank_ne _ _ _ (off _ _ e)]
      rw [ih hl.2 _ (by simpa [e] using h), same]

theorem haltDaybreak_shows (c : Nat) (s : Dev) : (haltDaybreak c s).sys = { s.sys with halted := true } ∧
    bitOf (haltDaybreak c s) F.SYS_STATUS_DB_FAIL = true ∧ bitOf (haltDaybreak c s) F.SYS_FAULT_DAYBREAK = true ∧
    fld (haltDaybreak c s) F.CAL_HALT_CAUSE = c % 2 ^ F.CAL_HALT_CAUSE.len := by
  refine ⟨by simp [haltDaybreak], ?_, ?_, ?_⟩
  · simp only [haltDaybreak, bitOf]
    rw [fld_setFld_off _ _ _ _ (by decide), setBit, fld_setFld_off _ _ _ _ (by decide), setBit, fld_setFld_self _ _ _ (by decide)]
    rfl
  · simp only [haltDaybreak, bitOf]
    rw [fld_setFld_off _ _ _ _ (by decide), setBit, fld_setFld_self _ _ _ (by decide)]
    rfl
  · simp only [haltDaybreak]
    rw [fld_setFld_self _ _ _ (by decide)]

/-- What the latch of the straps leaves. -/
theorem latchStraps_shows (boot : Nat) (test : Bool) (s : Dev) : (latchStraps boot test s).raw = s.raw ∧
    (latchStraps boot test s).sys.mode = s.sys.mode ∧ (latchStraps boot test s).sys.rstLow = false ∧
    (latchStraps boot test s).sys.testEn = (if s.sys.causes % 4 ≠ 0 then test else s.sys.testEn) ∧
    rg (latchStraps boot test s) R.SYS_RESET_CAUSE = rg s R.SYS_RESET_CAUSE ∧
    fld (latchStraps boot test s) F.SYS_STRAPS_BOOT = (if s.sys.causes % 4 ≠ 0 then boot % 8 else fld s F.SYS_STRAPS_BOOT) ∧
    (s.sys.causes % 4 ≠ 0 → bitOf (latchStraps boot test s) F.SYS_STRAPS_TEST_EN = test) := by
  unfold latchStraps
  by_cases h : s.sys.causes % 4 ≠ 0
  · rw [if_pos h, if_pos h, if_pos h]
    refine ⟨rfl, rfl, rfl, rfl, ?_, fld_setFld_self _ _ _ (by decide), fun _ => ?_⟩
    · simp only [setBit, setFld]
      rw [rg_setRg_ne _ _ (by decide), rg_setRg_ne _ _ (by decide)]
      exact rg_congr rfl _
    · rw [bitOf, fld_setFld_disjoint _ _ _ _ (by decide) (by decide)]
      exact bitOf_setBit_self F.SYS_STRAPS_TEST_EN test _ (by decide) rfl
  · rw [if_neg h, if_neg h, if_neg h]
    exact ⟨rfl, rfl, rfl, rfl, rfl, rfl, fun x => absurd x h⟩

/-- What the end of RESET leaves. -/
theorem leaveReset_shows (s : Dev) : (leaveReset s).raw = 0 ∧ (leaveReset s).sys.mode = .daybreak ∧
    (leaveReset s).sys.prev = s.sys.mode ∧ (leaveReset s).sys.rstLow = s.sys.rstLow ∧
    bitOf (leaveReset s) F.SYS_FAULT_WDOG = bit (rg s R.SYS_RESET_CAUSE).toNat 3 ∧
    bitOf (leaveReset s) F.SYS_FAULT_THERM = bit (rg s R.SYS_RESET_CAUSE).toNat 4 ∧
    fld (leaveReset s) F.SYS_STRAPS_BOOT = fld s F.SYS_STRAPS_BOOT := by
  have r : (leaveReset s).regs = (setBit F.SYS_FAULT_WDOG (bit (rg s R.SYS_RESET_CAUSE).toNat 3)
      (setBit F.SYS_FAULT_THERM (bit (rg s R.SYS_RESET_CAUSE).toNat 4) { s with raw := 0 })).regs := rfl
  refine ⟨rfl, rfl, rfl, rfl, ?_, ?_, ?_⟩
  · rw [bitOf_congr r, bitOf_setBit_self _ _ _ (by decide) rfl]
  · rw [bitOf_congr r, bitOf_setBit_disjoint _ _ _ _ (by decide) (by decide), bitOf_setBit_self _ _ _ (by decide) rfl]
  · rw [fld_congr r, fld_setBit_off _ _ _ _ (by decide), fld_setBit_off _ _ _ _ (by decide)]
    exact fld_congr rfl _

end Sys2Proof.Machine
end

