-- ==== Sys2Proof/Laws/Store.lean ====
section
/-! SUPPORT. A write of a register by its access codes changes that register alone. -/

namespace Sys2Proof.Machine

theorem storeReg_rest (o : Nat) (v : Word) (s : Dev) : ({ storeReg o v s with regs := [] } : Dev) = { s with regs := [] } := by
  unfold storeReg
  cases findReg o <;> rfl

@[simp] theorem storeReg_cmd (o : Nat) (v : Word) (s : Dev) : (storeReg o v s).cmd = s.cmd := congrArg (·.cmd) (storeReg_rest o v s)

theorem rg_storeReg_ne {o p : Nat} (v : Word) (s : Dev) (h : p ≠ o) : rg (storeReg o v s) p = rg s p := by
  unfold storeReg
  cases findReg o with
  | none => rfl
  | some r => exact rg_setRg_ne _ _ h

theorem fld_storeReg_ne (s : Dev) (o : Nat) (v : Word) (f : Fld) (h : f.off ≠ o) : fld (storeReg o v s) f = fld s f := by
  unfold fld
  rw [rg_storeReg_ne v s h]

/-- A field of RW bits takes its bits of the value. -/
theorem fld_storeReg_rw (s : Dev) (o : Nat) (v : Word) (f : Fld) (r : RegRow) (hr : findReg o = some r) (ho : f.off = o) (hf : f.Fits)
    (hw : r.w1c = 0) (hm : r.rw / 2 ^ f.lo % 2 ^ f.len = 2 ^ f.len - 1) :
    fld (storeReg o v s) f = f.of v := by
  unfold fld storeReg
  rw [hr, ho]
  dsimp only
  rw [rg_setRg_self, hw]
  apply Nat.eq_of_testBit_eq
  intro i
  have rb : i < f.len → r.rw.testBit (i + f.lo) = true := by
    intro hi
    have := congrArg (fun n => Nat.testBit n i) hm
    simpa [Nat.testBit_mod_two_pow, Nat.testBit_div_two_pow, Nat.testBit_two_pow_sub_one, hi] using this
  simp only [Fld.of, Nat.testBit_mod_two_pow, Nat.testBit_div_two_pow]
  by_cases hi : i < f.len
  · have h32 : i + f.lo < 32 := by omega
    have b : (r.rw ||| if s.sys.mode = Mode.configure then r.rwl else 0).testBit (i + f.lo) = true := by
      rw [Nat.testBit_or, rb hi, Bool.true_or]
    generalize (r.rw ||| if s.sys.mode = Mode.configure then r.rwl else 0) = m at b ⊢
    simp only [BitVec.testBit_toNat, BitVec.getLsbD_or, BitVec.getLsbD_and, BitVec.getLsbD_not, BitVec.getLsbD_ofNat, h32, b, hi, decide_true, Bool.true_and,
      Bool.and_true, Bool.not_true, Bool.and_false, Bool.false_or, Nat.zero_testBit, Bool.not_false]
  · simp [hi]

end Sys2Proof.Machine
end

