-- ==== Sys2Proof/Laws/Modes.lean ====
section
/-! SUPPORT. The modes, the command interface and the window: what their operations do. -/

namespace Sys2Proof.Machine

/-- A block of BAR0 other than the early ones answers from CONFIGURE on, the early ones from DAYBREAK on. -/
theorem bar0Writable_sys {s : Dev} {o : Nat} (h : pcieUp s = true) (ho : [0, 1, 4].contains (o / 0x10000) = true) : bar0Writable s o = true := by
  have e : earlyBlock o = true := by
    unfold earlyBlock
    simp only [List.contains_cons, List.contains_nil, Bool.or_false, Bool.or_eq_true, beq_iff_eq] at ho ⊢
    omega
  revert h
  unfold bar0Writable bar0Up pcieUp
  generalize s.sys.mode = m
  cases m <;> simp_all
theorem timeRuns_of {s : Dev} (h1 : s.sys.mode ≠ .reset) (h2 : s.sys.mode ≠ .daybreak) (h3 : s.sys.mode ≠ .load) : timeRuns s = true := by
  unfold timeRuns
  generalize s.sys.mode = m at *
  cases m <;> simp_all
theorem mode_of_timeRuns {s : Dev} (h : timeRuns s = true) : s.sys.mode ≠ .reset ∧ s.sys.mode ≠ .daybreak ∧ s.sys.mode ≠ .load := by
  revert h
  unfold timeRuns
  generalize s.sys.mode = m
  cases m <;> simp
theorem bar0Writable_of_timeRuns {s : Dev} (h : timeRuns s = true) (o : Nat) : bar0Writable s o = true := by
  revert h
  unfold bar0Writable bar0Up timeRuns
  generalize s.sys.mode = m
  cases m <;> simp
theorem enterLoad_halted (s : Dev) : (enterLoad s).sys.halted = s.sys.halted := by
  unfold enterLoad
  simp only
  split
  · split <;> simp [enterMode]
  · simp [enterMode]
/-- The registers that a change of the membership can change. -/
def netRegs : List Nat := R.VAL_STATUS :: postCounters
theorem postVal_keepsReg {o : Nat} (h : o ∉ netRegs) (a b c e : Nat) (s : Dev) : KeepsReg o s (postVal a b c e s) :=
  (postVal_frame a b c e s).2 o (fun q => h (List.mem_cons_of_mem _ q))
theorem vOut_keepsReg (o l : Nat) (p : VPkt) (s : Dev) : KeepsReg o s (vOut l p s) := by
  unfold vOut; split <;> rfl
theorem valFlood_keepsReg (o typ cls : Nat) (m : VMsg) (s : Dev) : KeepsReg o s (valFlood typ cls m s) :=
  foldl_keepsReg _ _ (fun _ _ => vOut_keepsReg _ _ _ _) _ _
theorem valSend_keepsReg (o typ cls dst epoch handle frame aux : Nat) (odd : Bool) (m : VMsg) (s : Dev) :
    KeepsReg o s (valSend typ cls dst epoch handle frame aux odd m s) := by
  unfold valSend
  split
  · exact vOut_keepsReg _ _ _ _
  · rfl
theorem helloAll_keepsReg (o : Nat) (s : Dev) : KeepsReg o s (helloAll s) := foldl_keepsReg o (fun s (e : Nat × VLink) => emit (.hello e.1) s) (fun _ _ => rfl) _ _
theorem sendUpdate_keepsReg (o : Nat) (s : Dev) : KeepsReg o s (sendUpdate s) := by
  unfold sendUpdate
  split
  · exact (valFlood_keepsReg o _ _ _ _).trans rfl
  · rfl
theorem takeAddr_keepsReg {o : Nat} (h : o ∉ netRegs) (a : Nat) (p : Bool) (s : Dev) : KeepsReg o s (takeAddr a p s) := by
  unfold takeAddr
  dsimp only
  refine (sendUpdate_keepsReg _ _).trans ((helloAll_keepsReg _ _).trans ?_)
  split
  · rfl
  · exact (postVal_keepsReg h _ _ _ _ _).trans rfl
theorem askAddr_keepsReg {o : Nat} (h : o ∉ netRegs) (s : Dev) : KeepsReg o s (askAddr s) := by
  unfold askAddr
  split
  · rfl
  · split
    · exact takeAddr_keepsReg h _ _ _
    · exact (valFlood_keepsReg o _ _ _ _).trans rfl
theorem settleAddr_keepsReg {o : Nat} (h : o ∉ netRegs) (s : Dev) : KeepsReg o s (settleAddr s) := by
  unfold settleAddr
  dsimp only
  split
  · split
    · exact takeAddr_keepsReg h _ _ _
    · exact askAddr_keepsReg h _
  · split
    · exact (askAddr_keepsReg h _).trans ((sendUpdate_keepsReg _ _).trans ((helloAll_keepsReg _ _).trans ((postVal_keepsReg h _ _ _ _ _).trans rfl)))
    · rfl
theorem moveUniv_keepsReg (o i : Nat) (s : Dev) : KeepsReg o s (moveUniv i s) := by
  unfold moveUniv
  split
  · split <;> rfl
  · rfl
theorem moveReserve_keepsReg (o k : Nat) (s : Dev) : KeepsReg o s (moveReserve k s) := by
  unfold moveReserve
  split
  · split <;> rfl
  · rfl
theorem movePair_keepsReg (o : Nat) (s : Dev) : KeepsReg o s (movePair s) := by
  unfold movePair
  dsimp only
  split
  · split
    · rfl
    · rfl
  · split <;> rfl
theorem moveCharges_keepsReg {o : Nat} (h : o ∉ netRegs) (s : Dev) : KeepsReg o s (moveCharges s) := by
  unfold moveCharges
  dsimp only
  refine (foldl_keepsReg _ _ (fun s n => (postVal_keepsReg h _ _ _ _ _).trans (rg_setBit_ne _ _ _ ?_)) _ _).trans ?_
  · intro q; exact h (by rw [q]; exact List.mem_cons_self)
  · exact (movePair_keepsReg _ _).trans ((foldl_keepsReg _ _ (fun s e => moveReserve_keepsReg o _ s) _ _).trans (foldl_keepsReg _ _ (fun s e => moveUniv_keepsReg o _ s) _ _))
theorem gainPasses_keepsReg {o : Nat} (h : o ∉ netRegs) (s : Dev) : KeepsReg o s (gainPasses s) := by
  unfold gainPasses
  dsimp only
  split
  · rfl
  · exact (moveCharges_keepsReg h _).trans rfl
theorem membersChanged_keepsReg {o : Nat} (h : o ∉ netRegs) (s : Dev) : KeepsReg o s (membersChanged s) := by
  unfold membersChanged
  dsimp only
  refine (gainPasses_keepsReg h _).trans ((settleAddr_keepsReg h _).trans ?_)
  split
  · rfl
  · split
    · rfl
    · exact (postVal_keepsReg h _ _ _ _ _).trans rfl
theorem examine_keepsReg {o : Nat} (h : o ∉ netRegs) (l : Nat) (x : HelloMsg) (s : Dev) : KeepsReg o s (examine l x s) := by
  unfold examine
  split
  · rfl
  · split
    · rfl
    · split
      · dsimp only
        split
        · rfl
        · exact (postVal_keepsReg h _ _ _ _ _).trans rfl
      · exact (membersChanged_keepsReg h _).trans ((sendUpdate_keepsReg _ _).trans ((postVal_keepsReg h _ _ _ _ _).trans rfl))
theorem examineAll_keepsReg {o : Nat} (h : o ∉ netRegs) (s : Dev) : KeepsReg o s (examineAll s) := by
  refine foldl_keepsReg _ _ (fun s l => ?_) _ _
  dsimp only
  split
  · split
    · exact examine_keepsReg h _ _ _
    · rfl
  · rfl
/-- A change of the mode keeps every register but those of posting and VAL.STATUS. -/
theorem toMode_keepsReg {o : Nat} (h : o ∉ netRegs) (m : Mode) (s : Dev) : KeepsReg o s (toMode m s) :=
  (examineAll_keepsReg h _).trans ((helloAll_keepsReg _ _).trans rfl)
/-- The registers that a completion changes. -/
def cmpRegs : List Nat := [R.HDL_CMD_DONE, R.HDL_CMP_TAIL, R.HDL_STATUS]
theorem mgtComplete_rest (ip port slot : Nat) (b : List Byte) (s : Dev) :
    mgtComplete ip port slot b s = { s with cmd := (mgtComplete ip port slot b s).cmd, out := (mgtComplete ip port slot b s).out } := by
  unfold mgtComplete
  split
  · rfl
  · dsimp only
    split <;> rfl
theorem relWrite_rest (k a : Nat) (b : List Byte) (s : Dev) :
    relWrite k a b s = { s with plain := (relWrite k a b s).plain, pln := (relWrite k a b s).pln } := by
  unfold relWrite
  split <;> rfl
theorem cmpVector_rest (i : Bool) (s : Dev) :
    cmpVector i s = { s with out := (cmpVector i s).out, hdl := { s.hdl with vec0Last := (cmpVector i s).hdl.vec0Last, vec0Owed := (cmpVector i s).hdl.vec0Owed } } := by
  unfold cmpVector
  extract_lets paced
  by_cases h : (i || bitOf s F.HDL_IRQ_CMP_EN && paced) = true
  · rw [if_pos h]; rfl
  · rw [if_neg h]
    split <;> rfl
/-- What a completion leaves as it was: all but the command interface, its page of the Plain and its registers. -/
theorem complete_rest (h : CmdHdr) (op c : Nat) (x : Word) (b : List Byte) (s : Dev) :
    let e := complete h op c x b s
    e = { s with cmd := e.cmd, out := e.out, regs := e.regs, plain := e.plain, pln := e.pln, hdl := { s.hdl with vec0Last := e.hdl.vec0Last, vec0Owed := e.hdl.vec0Owed } } := by
  intro e
  simp only [e]
  unfold complete
  extract_lets c0 s0 tail phase s1 s2 s3
  cases h.src with
  | pcie =>
    dsimp only
    have h3 : cmpFull s3 = { s1 with regs := (cmpFull s3).regs } := by
      simp only [s3]; split <;> rfl
    have h1 : s1 = { s0 with plain := s1.plain, pln := s1.pln } := relWrite_rest _ _ _ _
    rw [h3, cmpVector_rest]
    rw [h1]
    rfl
  | mgt ip port =>
    dsimp only
    rw [mgtComplete_rest]
    rfl
theorem complete_keepsReg {o : Nat} (ho : o ∉ cmpRegs) (h : CmdHdr) (op c : Nat) (x : Word) (b : List Byte) (s : Dev) :
    KeepsReg o s (complete h op c x b s) := by
  have e1 : o ≠ R.HDL_CMD_DONE := fun q => ho (by simp [cmpRegs, q])
  have e2 : o ≠ R.HDL_CMP_TAIL := fun q => ho (by simp [cmpRegs, q])
  have e3 : o ≠ R.HDL_STATUS := fun q => ho (by simp [cmpRegs, q])
  unfold KeepsReg complete
  extract_lets c0 s0 tail phase s1 s2 s3
  have h0 : rg s0 o = rg s o := rg_bump_ne _ e1
  cases h.src with
  | pcie =>
    dsimp only
    have h3 : rg (cmpFull s3) o = rg s1 o := by
      unfold cmpFull
      rw [rg_setBit_ne _ _ _ e3]
      simp only [s3]
      split
      · rw [rg_setFld_ne _ _ _ e2, rg_setFld_ne _ _ _ e2]
      · rw [rg_setFld_ne _ _ _ e2]
    have h1 : rg s1 o = rg s0 o := by
      simp only [s1]; rw [relWrite_rest]; rfl
    rw [cmpVector_rest]
    exact h3.trans (h1.trans h0)
  | mgt ip port =>
    dsimp only
    rw [mgtComplete_rest]
    exact h0
@[simp] theorem complete_sys (h : CmdHdr) (op c : Nat) (x : Word) (b : List Byte) (s : Dev) : (complete h op c x b s).sys = s.sys := by
  rw [complete_rest]
theorem unplaceMig_rest (k : Nat) (s : Dev) : (unplace 0xD k s).regs = s.regs ∧ (unplace 0xD k s).sys = s.sys ∧ (unplace 0xD k s).red = s.red := by
  unfold unplace
  split <;> exact ⟨rfl, rfl, rfl⟩
theorem refuseMig_keepsReg {o : Nat} (ho : o ∉ cmpRegs) (h1 : o ≠ R.HDL_ADMIT_REFUSED) (k : Nat) (m : Mig) (e : Refuse) (s : Dev) :
    KeepsReg o s (refuseMig k m e s) := by
  unfold refuseMig
  dsimp only
  split
  · refine (complete_keepsReg ho _ _ _ _ _ _).trans ?_
    unfold countRefusal
    split
    · exact (rg_bump_ne _ h1).trans (rg_congr (unplaceMig_rest _ _).1 _)
    · exact rg_congr (unplaceMig_rest _ _).1 _
  · exact rg_congr (unplaceMig_rest _ _).1 _
theorem abortMig_keepsReg {o : Nat} (ho : o ∉ cmpRegs) (h1 : o ≠ R.HDL_ADMIT_REFUSED) (h2 : o ∉ netRegs) (k : Nat) (m : Mig) (s : Dev) :
    KeepsReg o s (abortMig k m s) := by
  unfold abortMig
  split
  · exact refuseMig_keepsReg ho h1 _ _ _ _
  · split
    · extract_lets s1 s2 s3
      refine (postVal_keepsReg h2 _ _ _ _ _).trans ?_
      refine (?_ : KeepsReg o s s2)
      have a : KeepsReg o s s1 := valSend_keepsReg _ _ _ _ _ _ _ _ _ _ _
      simp only [s2]
      split
      · split
        · exact (valSend_keepsReg _ _ _ _ _ _ _ _ _ _ _).trans a
        · exact a
      · exact a
    · rfl
theorem abortMigs_keepsReg {o : Nat} (ho : o ∉ cmpRegs) (h1 : o ≠ R.HDL_ADMIT_REFUSED) (h2 : o ∉ netRegs) (f : Mig → Bool) (s : Dev) :
    KeepsReg o s (abortMigs f s) := foldl_keepsReg _ _ (fun s e => abortMig_keepsReg ho h1 h2 _ _ _) _ _
theorem ckptAbandon_regs (s : Dev) : (ckptAbandon s).regs = s.regs := by
  unfold ckptAbandon
  split <;> rfl
theorem sendPayload_keepsReg (o key : Nat) (n : Int) (t : Bool) (l : List Byte) (s : Dev) : KeepsReg o s (sendPayload key n t l s) := by
  unfold sendPayload
  split
  · rfl
  · split
    · rfl
    · extract_lets seq s1
      refine (valSend_keepsReg _ _ _ _ _ _ _ _ _ _ _).trans ?_
      simp only [s1]
      unfold passSeq
      have h : ∀ f, KeepsReg o s (modSender key f s) := by
        intro f; unfold modSender
        split
        · rfl
        · split <;> rfl
      split
      · exact (valSend_keepsReg _ _ _ _ _ _ _ _ _ _ _).trans (h _)
      · exact h _
theorem sendFrame_keepsReg {o : Nat} (h1 : o ∉ postCounters) (h2 : ∀ p, o ≠ R.PKT_TXP_UNRESOLVED p) (key k : Nat) (u : Univ) (n : Int) (t : Bool) (l : List Byte) (s : Dev) :
    KeepsReg o s (sendFrame key k u n t l s) := by
  unfold sendFrame
  split
  · exact sendPayload_keepsReg _ _ _ _ _ _
  · split
    · exact (sendShow_sends _ _ _ _ _ _ _ _ _).regs o h1 h2
    · rfl
theorem repeatLatched_keepsReg {o : Nat} (h1 : o ∉ postCounters) (h2 : ∀ p, o ≠ R.PKT_TXP_UNRESOLVED p) (s : Dev) : KeepsReg o s (repeatLatched s) := by
  refine foldl_keepsReg _ _ (fun s e => ?_) _ _
  split
  · unfold sendLocal
    split
    · split
      · exact sendFrame_keepsReg h1 h2 _ _ _ _ _ _ _
      · rfl
    · rfl
  · rfl
/-- HOLD is entered with its counter, its fault and every register of the supply as they are. -/
theorem enterHold_shows (s : Dev) :
    (enterHold s).sys.mode = .hold ∧ (enterHold s).sys.heldFrom = s.sys.mode ∧ bitOf (enterHold s) F.SYS_FAULT_HOLD = true ∧
      rg (enterHold s) R.SYS_HOLD_ENTRIES = BitVec.ofNat 32 (min ((rg s R.SYS_HOLD_ENTRIES).toNat + 1) 0xFFFFFFFF) ∧
      rg (enterHold s) R.SYS_STATUS = rg s R.SYS_STATUS ∧ rg (enterHold s) R.SUP_STATUS = rg s R.SUP_STATUS := by
  unfold enterHold
  extract_lets was s1 s2
  have g : ∀ o, o ∉ cmpRegs → o ≠ R.HDL_ADMIT_REFUSED → o ∉ netRegs → (∀ p, o ≠ R.PKT_TXP_UNRESOLVED p) → rg s2 o = rg s o := by
    intro o a b c d
    have h1 : rg s1 o = rg s o := (abortMigs_keepsReg a b c _ _).trans (rg_congr (ckptAbandon_regs s) o)
    simp only [s2]
    split
    · exact (repeatLatched_keepsReg (fun q => c (List.mem_cons_of_mem _ q)) d _).trans h1
    · exact h1
  have nu : ∀ o, o < 0x90000 → ∀ p, o ≠ R.PKT_TXP_UNRESOLVED p := by
    intro o ho p q
    rw [q] at ho
    simp only [R.PKT_TXP_UNRESOLVED] at ho
    omega
  have t := toMode_spec .hold (lifeUp 2 (setBit F.SYS_FAULT_HOLD true (bump R.SYS_HOLD_ENTRIES { s2 with sys.heldFrom := was, pln.holdFrom := s2.raw })))
  have k : ∀ o, o ∉ netRegs → _ := fun o ho => toMode_keepsReg (o := o) ho .hold (lifeUp 2 (setBit F.SYS_FAULT_HOLD true (bump R.SYS_HOLD_ENTRIES { s2 with sys.heldFrom := was, pln.holdFrom := s2.raw })))
  refine ⟨?_, ?_, ?_, ?_, ?_, ?_⟩
  · rw [t.1]
  · rw [t.1]; rfl
  · rw [keepsReg_bitOf _ (k _ (by decide)), keepsReg_bitOf _ (lifeUp_keepsReg _ 2 _), bitOf_setBit_self _ _ _ (by decide) rfl]
  · rw [k _ (by decide)]
    rw [lifeUp_keepsReg, rg_setBit_ne _ _ _ (by decide)]
    rw [rg_bump_self]
    exact congrArg (fun w : Word => BitVec.ofNat 32 (min (w.toNat + 1) 0xFFFFFFFF)) (g _ (by decide) (by decide) (by decide) (nu _ (by decide)))
  · rw [k _ (by decide)]
    rw [lifeUp_keepsReg, rg_setBit_ne _ _ _ (by decide)]
    rw [rg_bump_ne _ (by decide)]
    exact g _ (by decide) (by decide) (by decide) (nu _ (by decide))
  · rw [k _ (by decide)]
    rw [lifeUp_keepsReg, rg_setBit_ne _ _ _ (by decide)]
    rw [rg_bump_ne _ (by decide)]
    refine g _ (by decide) (by decide) (by decide) ?_
    intro p q
    simp only [R.SUP_STATUS, R.PKT_TXP_UNRESOLVED] at q
    omega
theorem guarded_of {d : Dev} (h : d.sys.mode ≠ .reset) : guarded d = true := by
  unfold guarded
  simpa using h
theorem norSuspend_regs (s : Dev) : (norSuspend s).regs = s.regs ∧ (norSuspend s).sys = s.sys := by
  unfold norSuspend
  split
  · split <;> exact ⟨rfl, rfl⟩
  · exact ⟨rfl, rfl⟩
theorem norBegin_regs (s : Dev) : (norBegin s).regs = s.regs ∧ (norBegin s).sys = s.sys := by
  unfold norBegin
  split
  · split <;> exact ⟨rfl, rfl⟩
  · exact ⟨rfl, rfl⟩
theorem postSup_frame (a b : Nat) (s : Dev) : PostFrame s (postSup a b s) := postCode_frame _ _ _ _ _
theorem vlowStop_shows (mv : Nat) (s : Dev) (h1 : bitOf s F.SYS_STATUS_VLOW_STOP = false) (h2 : mv < fld s F.SUP_VMON_STOP_MV) :
    (vlowStop mv s).sys = s.sys ∧ bitOf (vlowStop mv s) F.SYS_STATUS_VLOW_STOP = true ∧ bitOf (vlowStop mv s) F.SUP_STATUS_STOP = true ∧
      rg (vlowStop mv s) R.SUP_STOP_EVENTS = BitVec.ofNat 32 (min ((rg s R.SUP_STOP_EVENTS).toNat + 1) 0xFFFFFFFF) := by
  have e : vlowStop mv s = norSuspend (postSup 0x01 mv (bump R.SUP_STOP_EVENTS (setBit F.SUP_STATUS_STOP true (setBit F.SYS_STATUS_VLOW_STOP true s)))) := by
    unfold vlowStop below
    rw [if_neg (by simp [h1, h2])]
  rw [e]
  obtain ⟨a, b⟩ := norSuspend_regs (postSup 0x01 mv (bump R.SUP_STOP_EVENTS (setBit F.SUP_STATUS_STOP true (setBit F.SYS_STATUS_VLOW_STOP true s))))
  have p := postSup_frame 0x01 mv (bump R.SUP_STOP_EVENTS (setBit F.SUP_STATUS_STOP true (setBit F.SYS_STATUS_VLOW_STOP true s)))
  refine ⟨b.trans p.sys, ?_, ?_, ?_⟩
  · rw [bitOf_congr a, p.bitOf _ (by decide), bitOf_bump_off _ _ _ (by decide), bitOf_setBit_off _ _ _ _ (by decide), bitOf_setBit_self _ _ _ (by decide) rfl]
  · rw [bitOf_congr a, p.bitOf _ (by decide), bitOf_bump_off _ _ _ (by decide), bitOf_setBit_self _ _ _ (by decide) rfl]
  · rw [rg_congr a, p.2 _ (by decide), rg_bump_self, rg_setBit_ne _ _ _ (by decide), rg_setBit_ne _ _ _ (by decide)]
theorem vlowStop_keepsReg (mv : Nat) (s : Dev) {o : Nat} (h1 : o ∉ postCounters) (h2 : o ≠ R.SUP_STOP_EVENTS) (h3 : o ≠ R.SUP_STATUS) (h4 : o ≠ R.SYS_STATUS) :
    rg (vlowStop mv s) o = rg s o := by
  unfold vlowStop
  split
  · rfl
  · rw [rg_congr (norSuspend_regs _).1, (postSup_frame _ _ _).2 _ h1, rg_bump_ne _ h2, rg_setBit_ne _ _ _ h3, rg_setBit_ne _ _ _ h4]
theorem modPort_regs (n : Nat) (f : Port → Port) (s : Dev) : (modPort n f s).regs = s.regs := rfl
theorem queueFrame_regs (n : Nat) (f : TxFrame) (s : Dev) : (queueFrame n f s).regs = s.regs ∧ (queueFrame n f s).sys = s.sys := by
  unfold queueFrame
  dsimp only
  split
  · exact ⟨rfl, rfl⟩
  · split
    · exact ⟨rfl, rfl⟩
    · split <;> exact ⟨rfl, rfl⟩
theorem joinStream_regs (i : Nat) (s : Dev) : (joinStream i s).regs = s.regs ∧ (joinStream i s).sys = s.sys := by
  unfold joinStream
  split
  · unfold joinGroup reportChange sendIgmp
    refine ⟨((queueFrame_regs _ _ _).1).trans rfl, ((queueFrame_regs _ _ _).2).trans rfl⟩
  · exact ⟨rfl, rfl⟩
theorem startInput_regs (i : Nat) (s : Dev) : (startInput i s).regs = s.regs ∧ (startInput i s).sys = s.sys := by
  unfold startInput
  split
  · exact ⟨rfl, rfl⟩
  · exact ⟨rfl, rfl⟩
theorem startDue_regs (s : Dev) : (startDue s).regs = s.regs ∧ (startDue s).sys = s.sys := by
  unfold startDue
  dsimp only
  refine ⟨(foldl_regs _ (fun s a => (startInput_regs _ _).1) _ _).trans (foldl_regs _ (fun s a => (joinStream_regs _ _).1) _ _), (foldl_sys _ (fun s a => (startInput_regs _ _).2) _ _).trans (foldl_sys _ (fun s a => (joinStream_regs _ _).2) _ _)⟩
theorem leaveHold_shows (s : Dev) :
    (s.sys.heldFrom = .active ∧ s.red.paired = true ∧ s.red.ilk = false → (leaveHold s).sys.mode = .standby) ∧
    (¬(s.sys.heldFrom = .active ∧ s.red.paired = true ∧ s.red.ilk = false) →
      (leaveHold s).sys.mode = (if s.sys.heldFrom = .active then .active else .standby) ∧
      rg (leaveHold s) R.SYS_STATUS = rg s R.SYS_STATUS ∧ rg (leaveHold s) R.SUP_STATUS = rg s R.SUP_STATUS) := by
  unfold leaveHold
  extract_lets s1
  have a1 : s1.sys = s.sys := rfl
  have a2 : s1.red = s.red := rfl
  have a3 : ∀ o, rg s1 o = rg s o := fun o => rfl
  rw [a1, a2]
  refine ⟨fun h => ?_, fun h => ?_⟩
  · rw [if_pos h.1, if_pos (by simp [h.2])]
    exact (enterStandby_spec _).1
  · by_cases q : s.sys.heldFrom = .active
    · have z : ¬((s.red.paired && !s.red.ilk) = true) := by
        intro w; simp at w; exact h ⟨q, w⟩
      rw [if_pos q, if_neg z, if_pos q]
      have r : ∀ o, o ∉ netRegs → rg (startDue (norBegin (toMode .active { s1 with sys := { s.sys with tActive := s1.raw } }))) o = rg s o := by
        intro o ho
        rw [rg_congr (startDue_regs _).1, rg_congr (norBegin_regs _).1, toMode_keepsReg ho]
        rfl
      refine ⟨?_, (r _ (by decide)), (r _ (by decide))⟩
      rw [(startDue_regs _).2, (norBegin_regs _).2, (toMode_spec _ _).1]
    · rw [if_neg q, if_neg q]
      refine ⟨?_, ?_, ?_⟩
      · rw [(norBegin_regs _).2, (toMode_spec _ _).1]
      · rw [rg_congr (norBegin_regs _).1, toMode_keepsReg (by decide)]; rfl
      · rw [rg_congr (norBegin_regs _).1, toMode_keepsReg (by decide)]; rfl

@[simp] theorem makeReady_sys (n : Nat) (s : Dev) : (makeReady n s).sys = s.sys := by
  unfold makeReady; repeat' split
  all_goals rfl
@[simp] theorem setMask_sys (n m : Nat) (s : Dev) : (setMask n m s).sys = s.sys := by
  unfold setMask; split
  · rfl
  · rw [makeReady_sys]; rfl
@[simp] theorem freezeZone_sys (z : Nat) (s : Dev) : (freezeZone z s).sys = s.sys := by
  unfold freezeZone; split
  · rw [setMask_sys]; rfl
  · rfl
@[simp] theorem holdObj_sys (k : Nat) (b : Bool) (s : Dev) : (holdObj k b s).sys = s.sys := by
  unfold holdObj; dsimp only; repeat' split
  all_goals first | rfl | (rw [freezeZone_sys]; rfl)
@[simp] theorem startSiteUniv_sys (i : Nat) (s : Dev) : (startSiteUniv i s).sys = s.sys := by
  unfold startSiteUniv; dsimp only; repeat' split
  all_goals first | rfl | (rw [modLine_sys])
@[simp] theorem zoneOverride_sys (z : Nat) (s : Dev) : (zoneOverride z s).sys = s.sys := by
  unfold zoneOverride
  cases zoneAt s z with
  | none => rfl
  | some x =>
    dsimp -zeta only
    split
    · rfl
    · extract_lets now
      split
      · rfl
      · exact (postCode_frame _ _ _ _ _).sys.trans rfl
      · split <;> rfl
      · exact (postCode_frame _ _ _ _ _).sys.trans rfl
@[simp] theorem startObj_sys (k a : Nat) (s : Dev) : (startObj k a s).sys = s.sys := by
  unfold startObj
  split
  · split
    · rw [(startDue_regs _).2, holdObj_sys]
      dsimp only
      split
      · simp; rfl
      · rfl
      · simp; rfl
      · rfl
    · rfl
  · rfl
@[simp] theorem startImage_sys (s : Dev) : (startImage s).sys = s.sys := by
  unfold startImage
  extract_lets light
  refine foldl_sys _ (fun s e => ?_) _ _
  exact startObj_sys e.1 (if canvasPaced e.1 e.2 then 0 else light) s
@[simp] theorem linesActive_sys (s : Dev) : (linesActive s).sys = s.sys := by
  unfold linesActive
  exact foldl_sys _ (fun s n => by split
                                   · rfl
                                   · exact modLine_sys _ _ _) _ _
@[simp] theorem norQueue_sys (j : NorJob) (s : Dev) : (norQueue j s).sys = s.sys := by
  unfold norQueue; rw [(norBegin_regs _).2]
@[simp] theorem journalQueue_sys (j : Journal) (p : List (Nat × Nat)) (r : Option (CmdHdr × Nat)) (d : List Byte) (s : Dev) : (journalQueue j p r d s).sys = s.sys := norQueue_sys _ _
/-- ACTIVE is entered. -/
theorem goActive_sys (s : Dev) : (goActive s).sys.mode = .active ∧ (goActive s).sys.tActive = s.raw := by
  unfold goActive
  extract_lets s1
  rw [linesActive_sys, (startConversion_pair _).sys, startImage_sys, (toMode_spec _ _).1]
  exact ⟨rfl, rfl⟩

theorem pcieUp_load {d : Dev} (h : d.sys.mode = .load) (g : d.sys.perstLow = false) : pcieUp d = true := by
  unfold pcieUp
  rw [h, g]; rfl
theorem journalIn_sys (j : Journal) (p : List (Nat × Nat)) (s : Dev) : (journalIn j p s).sys = s.sys := by
  unfold journalIn
  exact foldl_sys _ (fun s e => (postCode_frame _ _ _ _ s).sys) _ _
theorem journalWrite_sys (j : Journal) (p : List (Nat × Nat)) (s : Dev) : (journalWrite j p s).sys = s.sys := by
  unfold journalWrite
  dsimp only
  rw [journalIn_sys]
  refine foldl_sys _ (fun s x => ?_) _ _
  unfold norApply
  cases x <;> rfl
theorem journalStart_sys (s : Dev) : (journalStart s).sys = s.sys := by
  unfold journalStart
  dsimp only
  split
  · rw [journalIn_sys]
  · split
    all_goals first | rfl | (rw [journalWrite_sys]) | skip
    · split
      · rw [journalWrite_sys]
      · rw [journalWrite_sys]; rfl
theorem lifeStart_sys (f : Bool) (s : Dev) : (lifeStart f s).sys = s.sys := by
  unfold lifeStart
  dsimp only
  unfold lifeUp
  dsimp only
  repeat' split
  all_goals rfl
theorem enterConfigure_shows (f : Bool) (s : Dev) :
    (enterConfigure f s).sys.mode = .configure ∧ (enterConfigure f s).sys.prev = s.sys.mode ∧ (enterConfigure f s).sys.gate = none := by
  unfold enterConfigure
  dsimp only
  rw [journalStart_sys, lifeStart_sys, (toMode_spec _ _).1]
  exact ⟨rfl, rfl, rfl⟩
theorem loaderResult_sys (c : Nat) (s : Dev) : (loaderResult c s).sys = s.sys ∧ (loaderResult c s).regs = s.regs ∧ (loaderResult c s).boot = { s.boot with loader := none } := by
  unfold loaderResult
  split
  · exact ⟨rfl, rfl, rfl⟩
  · rename_i h; exact ⟨rfl, rfl, by rw [← h]⟩
theorem refuseOthers_sys (n : Nat) (s : Dev) : (refuseOthers n s).sys = s.sys := by
  unfold refuseOthers
  extract_lets s1 s2 s3
  have h1 : s1.sys = s.sys := by simp only [s1]; split <;> exact (loaderResult_sys _ _).1
  have h2 : s2.sys = s1.sys := by simp only [s2]; split <;> rfl
  have h3 : s3.sys = s2.sys := by
    simp only [s3]; split
    · split <;> rfl
    · rfl
  exact h3.trans (h2.trans h1)
theorem showFirmware_sys (n : Nat) (b : List Byte) (s : Dev) : (showFirmware n b s).sys = s.sys := by
  unfold showFirmware
  extract_lets d s1 count cf s2 s3 s4 s5
  have h1 : s1.sys = s.sys := by simp only [s1]; exact foldl_sys (fun s i => setRg _ _ s) (fun _ _ => rfl) _ _
  clear_value s1
  have h2 : s2.sys = s1.sys := by simp only [s2]; exact foldl_sys (fun s i => setRg _ _ s) (fun _ _ => rfl) _ _
  have h3 : s3.sys = s2.sys := rfl
  have h4 : s4.sys = s3.sys := rfl
  have h5 : s5.sys = s4.sys := rfl
  clear_value s5 s4 s3 s2
  rw [setFld_sys, setFld_sys, setBit_sys, setFld_sys, setRg_sys]
  exact h5.trans (h4.trans (h3.trans (h2.trans h1)))
theorem fwStore_sys (b : List Byte) (s : Dev) : (fwStore b s).sys = s.sys := by
  unfold fwStore
  suffices h : ∀ (l : List (Nat × Nat)) (a : Dev × List Byte), (l.foldl (fun (a : Dev × List Byte) e => (relWrite fwKey e.1 (a.2.take e.2) a.1, a.2.drop e.2)) a).1.sys = a.1.sys from h _ _
  intro l
  induction l with
  | nil => intro a; rfl
  | cons e r ih =>
    intro a
    rw [List.foldl_cons, ih]
    dsimp only
    rw [relWrite_rest]
theorem clearRings_sys (s : Dev) : (clearRings s).sys = s.sys := by
  unfold clearRings
  extract_lets s1
  have h1 : s1.sys = s.sys := by simp only [s1]; exact foldl_sys _ (fun s p => by split <;> rfl) _ _
  clear_value s1
  unfold cmpFull
  simpa using h1
theorem startFirmware_sys (s : Dev) : (startFirmware s).sys.mode = .configure ∧ (startFirmware s).sys.prev = s.sys.mode := by
  obtain ⟨a, b, _⟩ := enterConfigure_shows true (milestone R.SYS_T_CONFIGURE s)
  unfold startFirmware
  dsimp only
  rw [clearRings_sys]
  unfold allocRings
  dsimp only
  rw [setFld_sys, setFld_sys, setFld_sys, mapPages_sys]
  exact ⟨a, b.trans rfl⟩


theorem foldl_plainGone (l : List (Nat × Pte)) (s : Dev) :
    l.foldl (fun s e => { s with plain := s.plain.filter fun x => x.1 / pageBytes != e.2.ppn }) s = { s with plain := (l.foldl (fun s e => { s with plain := s.plain.filter fun x => x.1 / pageBytes != e.2.ppn }) s).plain } ∧
    ∀ e ∈ l, ∀ x ∈ (l.foldl (fun s e => { s with plain := s.plain.filter fun x => x.1 / pageBytes != e.2.ppn }) s).plain, x.1 / pageBytes ≠ e.2.ppn := by
  have sub : ∀ (l : List (Nat × Pte)) (s : Dev), ∀ x ∈ (l.foldl (fun s e => { s with plain := s.plain.filter fun x => x.1 / pageBytes != e.2.ppn }) s).plain, x ∈ s.plain := by
    intro l
    induction l with
    | nil => intro s x h; exact h
    | cons a r ih =>
      intro s x h
      have := ih _ x h
      simp at this
      exact this.1
  induction l generalizing s with
  | nil => exact ⟨rfl, by simp⟩
  | cons a r ih =>
    rw [List.foldl_cons]
    obtain ⟨i1, i2⟩ := ih { s with plain := s.plain.filter fun x => x.1 / pageBytes != a.2.ppn }
    refine ⟨?_, ?_⟩
    · rw [i1]
    · intro e he x hx
      rcases List.mem_cons.mp he with rfl | he
      · have := sub _ _ x hx
        simp at this
        exact this.2
      · exact i2 e he x hx
theorem mget_none {m : Mem} {a : Nat} (h : ∀ x ∈ m, x.1 ≠ a) : mget 0 m a = 0 := by
  unfold mget
  have : tget m a = none := by
    induction m with
    | nil => rfl
    | cons e r ih =>
      simp only [tget]
      rw [if_neg (fun q => h e (by simp) q.symm), ih (fun x hx => h x (by simp [hx]))]
  rw [this]; rfl

theorem clearRings_shows (s : Dev) : (clearRings s).sys = s.sys ∧ fld (clearRings s) F.HDL_CMD_HEAD_HEAD = 0 ∧ fld (clearRings s) F.HDL_CMD_TAIL_TAIL = 0 ∧
    fld (clearRings s) F.HDL_CMP_HEAD_HEAD = 0 ∧ fld (clearRings s) F.HDL_CMP_TAIL_TAIL = 0 ∧ fld (clearRings s) F.HDL_CMP_TAIL_PHASE = 1 := by
  unfold clearRings
  extract_lets s1
  have h1 : s1.sys = s.sys := by simp only [s1]; exact foldl_sys _ (fun s p => by split <;> rfl) _ _
  clear_value s1
  unfold cmpFull
  refine ⟨by simpa using h1, ?_, ?_, ?_, ?_, ?_⟩
  · rw [fld_setBit_off _ _ _ _ (by decide), fld_setFld_self _ _ _ (by decide)]; rfl
  · rw [fld_setBit_off _ _ _ _ (by decide), fld_setFld_off _ _ _ _ (by decide), fld_setFld_self _ _ _ (by decide)]; rfl
  · rw [fld_setBit_off _ _ _ _ (by decide), fld_setFld_off _ _ _ _ (by decide), fld_setFld_off _ _ _ _ (by decide), fld_setFld_self _ _ _ (by decide)]; rfl
  · rw [fld_setBit_off _ _ _ _ (by decide), fld_setFld_off _ _ _ _ (by decide), fld_setFld_off _ _ _ _ (by decide), fld_setFld_off _ _ _ _ (by decide), fld_setFld_self _ _ _ (by decide)]; rfl
  · rw [fld_setBit_off _ _ _ _ (by decide), fld_setFld_off _ _ _ _ (by decide), fld_setFld_off _ _ _ _ (by decide), fld_setFld_off _ _ _ _ (by decide), fld_setFld_disjoint _ _ _ _ (by decide) (by decide), fld_setFld_self _ _ _ (by decide)]; rfl
theorem freePage_sys (p : Pte) (s : Dev) : (freePage p s).sys = s.sys ∧ (freePage p s).red = s.red := by
  unfold freePage
  split
  · exact ⟨(postCode_frame _ _ _ _ _).sys.trans rfl, (postCode_frame _ _ _ _ _).red.trans rfl⟩
  · exact ⟨rfl, rfl⟩
theorem freePages_sys (k : Nat) (s : Dev) : (freePages k s).sys = s.sys := by
  unfold freePages
  dsimp only
  exact foldl_sys _ (fun s e => (freePage_sys _ _).1) _ _
theorem imageBase_sys (s : Dev) : (imageBase s).sys = s.sys := by
  unfold imageBase
  extract_lets bare s1 red o1 o2 o3 s2 s3
  have h1 : s1.sys = s.sys := by simp only [s1]; exact foldl_sys _ (fun s e => freePages_sys _ _) _ _
  clear_value s1
  simp only [chargeAll, s3, setFld_sys, s2]
  exact h1
theorem relayOnly_sys (s : Dev) : (relayOnly s).sys = s.sys := by
  unfold relayOnly
  dsimp only
  rw [(membersChanged_pair _).sys]
  exact foldl_sys _ (fun s l => by split <;> rfl) _ _
theorem enterService_mode (s : Dev) : (enterService s).sys.mode = .service := by
  unfold enterService
  extract_lets
  rw [(toMode_spec _ _).1]
theorem mapPages_regs (k p : Nat) (a b c : Bool) (n : Nat) (s : Dev) : (mapPages k p a b c n s).regs = s.regs := by
  induction n generalizing p s with
  | zero => rfl
  | succ n ih =>
    unfold mapPages
    rw [ih]
    unfold mapPage
    split <;> rfl
theorem startMgt_keepsReg {o : Nat} (h : o ≠ R.MAC_CTRL 16) (x : PortRec) (s : Dev) : rg (startMgt x s) o = rg s o := by
  unfold startMgt
  show rg (applyPort 16 x s) o = _
  unfold applyPort
  extract_lets s1 s2 s3
  have h2 : rg s2 o = rg s o := rg_setBit_ne _ _ _ h
  split
  · exact h2
  · exact (rg_congr (mapPages_regs _ _ _ _ _ _ _) o).trans h2
theorem refuseImage_shows (code n : Nat) (s : Dev) (hc : code ≠ rcDone) (h1 : code < 256) (h2 : n < 2 ^ 24) :
    (refuseImage code n s).sys.mode = .service ∧ fld (refuseImage code n s) F.SYS_CONFIG_RESULT_RESULT_CODE = code ∧
      fld (refuseImage code n s) F.SYS_CONFIG_RESULT_RECORD = n ∧ bitOf (refuseImage code n s) F.SYS_STATUS_CFG_REFUSED = true ∧
      bitOf (refuseImage code n s) F.SYS_FAULT_CONFIG = true := by
  unfold refuseImage
  extract_lets s1 y1 s2 s3 s4
  have m1 : s1.sys.mode = .service := by simp only [s1]; rw [relayOnly_sys]; exact enterService_mode s
  clear_value s1
  have m2 : s2.sys.mode = .service := by simp only [s2]; rw [imageBase_sys]; exact m1
  clear_value s2
  have m3 : s3.sys.mode = .service := by simp only [s3, showResult, setBit_sys, setFld_sys]; exact m2
  have c3 : fld s3 F.SYS_CONFIG_RESULT_RESULT_CODE = code := by
    simp only [s3]
    rw [fld_setBit_off _ _ _ _ (by decide)]
    unfold showResult
    rw [fld_setFld_self _ _ _ (by decide)]
    exact Nat.mod_eq_of_lt h1
  have r3 : fld s3 F.SYS_CONFIG_RESULT_RECORD = n := by
    simp only [s3]
    rw [fld_setBit_off _ _ _ _ (by decide)]
    unfold showResult
    rw [fld_setFld_disjoint _ _ _ _ (by decide) (by decide), fld_setFld_self _ _ _ (by decide)]
    exact Nat.mod_eq_of_lt h2
  have b3 : bitOf s3 F.SYS_STATUS_CFG_REFUSED = true := by
    simp only [s3]
    rw [bitOf_setBit_off _ _ _ _ (by decide)]
    unfold showResult
    rw [bitOf_setFld_off _ _ _ _ (by decide), bitOf_setFld_off _ _ _ _ (by decide), bitOf_setBit_self _ _ _ (by decide) rfl]
    simpa using hc
  have f3 : bitOf s3 F.SYS_FAULT_CONFIG = true := bitOf_setBit_self _ _ _ (by decide) rfl
  have h4 : s4.sys = s3.sys ∧ ∀ o, o ≠ R.HDL_ADMIT_REFUSED → rg s4 o = rg s3 o := by
    simp only [s4]
    split
    · exact ⟨rfl, fun o ho => rg_bump_ne _ ho⟩
    · exact ⟨rfl, fun _ _ => rfl⟩
  clear_value s3
  generalize s4 = s4 at *
  have fin : ∀ s5 : Dev, s5.sys = s4.sys → (∀ o, o ≠ R.MAC_CTRL 16 → rg s5 o = rg s4 o) → s5.sys.mode = .service ∧ fld s5 F.SYS_CONFIG_RESULT_RESULT_CODE = code ∧
      fld s5 F.SYS_CONFIG_RESULT_RECORD = n ∧ bitOf s5 F.SYS_STATUS_CFG_REFUSED = true ∧ bitOf s5 F.SYS_FAULT_CONFIG = true := by
    intro s5 a b
    have k : ∀ o, o ≠ R.MAC_CTRL 16 → o ≠ R.HDL_ADMIT_REFUSED → rg s5 o = rg s3 o := fun o x y => (b o x).trans (h4.2 o y)
    refine ⟨by rw [a, h4.1]; exact m3, ?_, ?_, (keepsReg_bitOf _ (k _ (by decide) (by decide))).trans b3, (keepsReg_bitOf _ (k _ (by decide) (by decide))).trans f3⟩
    · rw [← c3]; exact congrArg F.SYS_CONFIG_RESULT_RESULT_CODE.of (k _ (by decide) (by decide))
    · rw [← r3]; exact congrArg F.SYS_CONFIG_RESULT_RECORD.of (k _ (by decide) (by decide))
  split
  · exact fin _ (startMgt_sys _ _) (fun o h => startMgt_keepsReg h _ _)
  · exact fin _ rfl (fun _ _ => rfl)

theorem startObj_keepsReg {o : Nat} (h : o ∉ postCounters) (h' : o ≠ R.SCH_GROUP_WAITS) (k a : Nat) (s : Dev) : KeepsReg o s (startObj k a s) := by
  unfold startObj
  split
  · split
    · refine (rg_congr (startDue_regs _).1 o).trans ((holdObj_keepsReg h' _ _ _).trans ?_)
      dsimp only
      split
      · unfold startSiteUniv
        dsimp only
        repeat' split
        all_goals first | rfl | exact rg_congr (setLine_regs _ _ _) o
      · rfl
      · exact (zoneOverride_keepsReg h _ _).trans rfl
      · rfl
    · rfl
  · rfl
theorem modLine_regs (n : Nat) (f : Line → Line) (s : Dev) : (modLine n f s).regs = s.regs := by
  exact setLine_regs _ _ _
theorem startConversion_regs (s : Dev) : (startConversion s).regs = s.regs := by
  unfold startConversion
  split
  · split
    · exact (norBegin_regs _).1
    · rfl
  · rfl
theorem goActive_keepsReg {o : Nat} (h : o ∉ netRegs) (h' : o ≠ R.SCH_GROUP_WAITS) (s : Dev) : KeepsReg o s (goActive s) := by
  unfold goActive
  extract_lets s1
  unfold linesActive
  refine (foldl_keepsReg _ _ (fun s n => ?_) _ _).trans ?_
  · split
    · rfl
    · exact rg_congr (modLine_regs _ _ _) o
  refine (rg_congr (startConversion_regs _) o).trans ?_
  unfold startImage
  extract_lets light
  refine (foldl_keepsReg _ _ (fun s e => ?_) _ _).trans ((toMode_keepsReg h _ _).trans rfl)
  exact (startObj_keepsReg (fun q => h (List.mem_cons_of_mem _ q)) h' e.1 _ s)
theorem firstMilestone_shows (f : Nat) (s : Dev) : (firstMilestone f s).sys = s.sys ∧ (∀ o, o ≠ f → rg (firstMilestone f s) o = rg s o) ∧
    rg (firstMilestone f s) f = if rg s f = 0 then BitVec.ofNat 32 ((s.raw - s.sys.tEnd) / us 1) else rg s f := by
  unfold firstMilestone
  split
  · exact ⟨rfl, fun o h => rg_setRg_ne _ _ h, rg_setRg_self _ _ _⟩
  · exact ⟨rfl, fun _ _ => rfl, rfl⟩
theorem applied_shows (s : Dev) : (applied s).sys = { s.sys with applied := true, placed := none } ∧
    ∀ o, o ∉ postCounters → o ≠ R.SYS_CONFIG_RESULT → o ≠ R.SYS_T_ACTIVE → o ≠ R.SYS_STATUS → rg (applied s) o = rg s o := by
  unfold applied
  obtain ⟨a, b, _⟩ := firstMilestone_shows R.SYS_T_ACTIVE { s with sys.applied := true, sys.placed := none }
  have k : (postSummary (showResult rcDone 0 (firstMilestone R.SYS_T_ACTIVE { s with sys.applied := true, sys.placed := none }))).sys = { s.sys with applied := true, placed := none } ∧ ∀ o, o ∉ postCounters → rg (postSummary (showResult rcDone 0 (firstMilestone R.SYS_T_ACTIVE { s with sys.applied := true, sys.placed := none }))) o = rg (showResult rcDone 0 (firstMilestone R.SYS_T_ACTIVE { s with sys.applied := true, sys.placed := none })) o := by
    unfold postSummary
    split
    · exact ⟨a, fun _ _ => rfl⟩
    · exact ⟨(postCode_frame _ _ _ _ _).sys.trans a, fun o h => postCode_keepsReg h _ _ _ _ _⟩
  refine ⟨k.1, fun o h1 h2 h3 h4 => ?_⟩
  · rw [k.2 o h1]
    unfold showResult
    rw [rg_setFld_ne _ _ _ h2, rg_setFld_ne _ _ _ h2, rg_setBit_ne _ _ _ h4, b o h3]
    rfl
theorem journalFirst_shows (s : Dev) : (journalFirst s).sys = s.sys ∧ ∀ o, o ∉ postCounters → o ≠ R.UPD_NOR_ERASES → o ≠ R.UPD_NOR_PROGRAMS → rg (journalFirst s) o = rg s o := by
  unfold journalFirst
  split
  · refine ⟨journalWrite_sys _ _ _, fun o h h1 h2 => ?_⟩
    unfold journalWrite journalIn
    dsimp only
    refine (foldl_keepsReg o _ (fun s e => postCode_keepsReg h _ _ _ _ _) _ _).trans ?_
    refine Eq.trans rfl (foldl_keepsReg o (fun s x => norApply x s) (fun s x => ?_) _ _)
    unfold norApply
    cases x
    · exact rg_bump_ne _ h1
    · exact rg_bump_ne _ h2
  · exact ⟨rfl, fun _ _ _ _ => rfl⟩
theorem applied_status (s : Dev) : bitOf (applied s) F.SYS_STATUS_VLOW_HOLD = bitOf s F.SYS_STATUS_VLOW_HOLD := by
  obtain ⟨a, b, _⟩ := firstMilestone_shows R.SYS_T_ACTIVE { s with sys.applied := true, sys.placed := none }
  have k : bitOf (showResult rcDone 0 (firstMilestone R.SYS_T_ACTIVE { s with sys.applied := true, sys.placed := none })) F.SYS_STATUS_VLOW_HOLD = bitOf s F.SYS_STATUS_VLOW_HOLD := by
    unfold showResult
    rw [bitOf_setFld_off _ _ _ _ (by decide), bitOf_setFld_off _ _ _ _ (by decide), bitOf_setBit_disjoint _ _ _ _ (by decide) (by decide)]
    exact keepsReg_bitOf _ (b _ (by decide))
  unfold applied postSummary
  split
  · exact k
  · exact (keepsReg_bitOf _ (postCode_keepsReg (by decide) _ _ _ _ _)).trans k
theorem outputsOff_pair (s : Dev) : PairKept s (outputsOff s) := by
  unfold outputsOff
  extract_lets keep s1
  have h : PairKept s s1 := by
    simp only [s1]
    refine foldl_pair _ (fun s e => ?_) _ _
    unfold releaseUses
    split
    · exact .refl _
    · extract_lets ask
      rename_i l id hq q
      refine PairKept.trans ?_ (foldl_pair (fun s a => valTell 7 a (.admitMsg id 2 ask) s) (fun s a => valSend_pair _ _ _ _ _ _ _ _ _ _) _ _)
      exact .of rfl rfl
  exact h.trans (.of rfl rfl)
theorem mailboxDone_pair (n st dt : Nat) (b : List Byte) (s : Dev) : PairKept s (mailboxDone n st dt b s) := by
  unfold mailboxDone
  extract_lets s1 s2
  have h : PairKept s s1 := by
    simp only [s1]
    exact foldl_pair (fun s i => setRg (R.DMX_LINE_MB_DATA n i) (BitVec.ofNat 32 (at_ b (4 * i) 4)) s) (fun s i => PairKept.of rfl rfl) _ _
  have g : PairKept s1 s2 := .of rfl rfl
  exact (h.trans g).trans (post_frame _ _ _ _ _).pair
theorem lineOff_pair (n : Nat) (s : Dev) : PairKept s (lineOff n s) := by
  unfold lineOff
  extract_lets l mine s1
  have h : PairKept s s1 := .of (by simp only [s1, setLine]; split <;> rfl) (by simp only [s1, setLine]; split <;> rfl)
  split
  · exact h.trans (mailboxDone_pair _ _ _ _ _)
  · exact h
theorem silence_pair (s : Dev) : PairKept s (silence s) := by
  unfold silence linesOff
  have h : PairKept (outputsOff s) (pixelsOff (outputsOff s)) := .of rfl rfl
  exact ((outputsOff_pair s).trans h).trans ((lineOff_pair 0 _).trans (lineOff_pair 1 _))
theorem complete_pair (h : CmdHdr) (op c : Nat) (x : Word) (b : List Byte) (s : Dev) : PairKept s (complete h op c x b s) := by
  refine .of ?_ ?_ <;> rw [complete_rest]
theorem refuseMig_pair (k : Nat) (m : Mig) (e : Refuse) (s : Dev) : PairKept s (refuseMig k m e s) := by
  unfold refuseMig
  dsimp only
  have h : PairKept s (unplace 0xD k s) := .of (unplaceMig_rest _ _).2.1 (unplaceMig_rest _ _).2.2
  split
  · refine h.trans (PairKept.trans ?_ (complete_pair _ _ _ _ _ _))
    unfold countRefusal
    split <;> exact .of rfl rfl
  · exact h
theorem abortMig_pair (k : Nat) (m : Mig) (s : Dev) : PairKept s (abortMig k m s) := by
  unfold abortMig
  split
  · exact refuseMig_pair _ _ _ _
  · split
    · extract_lets s1 s2 s3
      have a : PairKept s s1 := valSend_pair _ _ _ _ _ _ _ _ _ _
      have b : PairKept s1 s2 := by
        simp only [s2]
        split
        · split
          · exact valSend_pair _ _ _ _ _ _ _ _ _ _
          · exact .refl _
        · exact .refl _
      clear_value s2
      have c : PairKept s2 s3 := .of rfl rfl
      exact ((a.trans b).trans c).trans (postVal_pair _ _ _ _ _)
    · exact .refl _
theorem abortMigs_pair (f : Mig → Bool) (s : Dev) : PairKept s (abortMigs f s) := foldl_pair _ (fun s e => abortMig_pair _ _ _) _ _
theorem pinsIdle_pair (s : Dev) : PairKept s (pinsIdle s) := foldl_pair (fun s (e : Nat × Action) => drivePin e.2.pin e.2.invert s) (fun s e => .of rfl rfl) _ _
theorem ilkRelease_shows (s : Dev) : (ilkRelease s).sys = s.sys ∧ (ilkRelease s).red = { s.red with ilk := false } ∧ (ilkRelease s).regs = s.regs := by
  unfold ilkRelease
  split
  · exact ⟨rfl, rfl, rfl⟩
  · rename_i h
    have : s.red.ilk = false := by simpa using h
    exact ⟨rfl, by rw [← this], rfl⟩
/-- STANDBY releases the interlock and keeps what the unit knows of its own cores. -/
theorem enterStandby_red (s : Dev) : (enterStandby s).red.ilk = false ∧ (enterStandby s).red.silent = s.red.silent ∧ (enterStandby s).red.paired = s.red.paired := by
  unfold enterStandby
  extract_lets x y f g tasks groups v w z u red
  obtain ⟨a, b⟩ := toMode_spec .standby { z with red := red }
  have k := startConversion_pair (toMode .standby { z with red := red })
  have r : x.red = { s.red with ilk := false, out := none, link := x.red.link } := by
    have h1 : PairKept (ckptAbandon (silence (ilkRelease s))) x := by
      simp only [x]
      have k1 := abortMigs_pair (fun _ => true) (ckptAbandon (silence (ilkRelease s)))
      generalize abortMigs (fun _ => true) (ckptAbandon (silence (ilkRelease s))) = w at *
      have k2 : PairKept w (dropPasses w) := .of rfl rfl
      exact (k1.trans k2).trans (pinsIdle_pair _)
    have h2 := silence_pair (ilkRelease s)
    have h3 : ∀ q : Dev, (ckptAbandon q).red = { q.red with out := none } := by
      intro q; unfold ckptAbandon
      split
      · rfl
      · rename_i e; rw [← e]
    rw [h1.red, h3, h2.red, (ilkRelease_shows s).2.1]
  rw [k.red, b]
  have r1 : red.ilk = x.red.ilk := rfl
  have r2 : red.silent = x.red.silent := rfl
  have r3 : red.paired = x.red.paired := rfl
  rw [r] at r1 r2 r3
  exact ⟨r1, r2, r3⟩

theorem closeGate_none (s : Dev) (h : s.sys.gate = none) : closeGate s = s := by
  unfold closeGate
  rw [h]
theorem closeGate_shows (s : Dev) : (closeGate s).sys = s.sys ∧ (closeGate s).red = s.red := by
  unfold closeGate
  split
  · exact ⟨rfl, rfl⟩
  · extract_lets behind s1
    have h : s1.sys = s.sys ∧ s1.red = s.red := by
      simp only [s1]
      generalize behind = l
      induction l generalizing s with
      | nil => exact ⟨rfl, rfl⟩
      | cons a r ih => 
        rw [List.foldl_cons]
        exact ih _ (by assumption)
    exact h
theorem Served.gate {d : Dev} {h : CmdHdr} {op : Nat} {x : Word} (hs : Served d h op x) : d.sys.gate = none := by
  have := hs.1
  unfold cmdMayStart cmdFree at this
  simp only [Bool.and_eq_true] at this
  exact Option.isNone_iff_eq_none.mp this.1.1.1.2
theorem fld_ext (f : Fld) {a b : Dev} (h : rg a f.off = rg b f.off) : fld a f = fld b f := congrArg f.of h
theorem leBytes_length (n v : Nat) : (leBytes n v).length = n := by simp [leBytes]
theorem cmpEntry_length (a b c : Nat) (h : CmdHdr) (x : Word) : (cmpEntry a b c h x []).length = 32 := by
  simp [cmpEntry, leBytes_length, fit]
theorem fit_length (n : Nat) (l : List Byte) : (fit n l).length = n := by
  unfold fit
  simp
  omega
theorem readRegs_length (off n : Nat) (s : Dev) : (readRegs off n s).2.length = 4 * n := by
  induction n generalizing off s with
  | zero => rfl
  | succ n ih =>
    unfold readRegs
    dsimp only
    rw [List.length_append, leBytes_length, ih]
    omega
theorem enterService_red (s : Dev) : (enterService s).red.claim = none ∧ (enterService s).red.applied = none ∧ (enterService s).red.stage = none := by
  have k : ∀ x : Dev, (toMode .service x).red.claim = x.red.claim ∧ (toMode .service x).red.applied = x.red.applied ∧ (toMode .service x).red.stage = x.red.stage := by
    intro x
    rw [(toMode_spec .service x).2]
    exact ⟨rfl, rfl, rfl⟩
  unfold enterService
  extract_lets s1 s2 s3 red y
  refine ⟨(k _).1.trans ?_, (k _).2.1.trans ?_, (k _).2.2.trans ?_⟩ <;> rfl
theorem runSetMode_next {t : Time} {h : CmdHdr} {target : Nat} {s : State} {d x : Dev} (hd : AtTime t s d) (hs : Served d h 4 0)
    (hc : target ≠ Mode.configure.code ∨ d.cmd.outst = []) (hx : closeGate (serve h 4 0 (setModeBody h target) d) = x) : Completes (.setMode t h target) s x := by
  refine completes (f := runSetMode t h target) rfl ?_
  unfold runSetMode
  dsimp only
  rw [← hd, ← hx]
  refine congrArg Host.Outcome.next (if_pos ?_)
  have := hs.1
  unfold cmdMayStart cmdFree at this ⊢
  rcases hc with hc | hc
  · have q : toConfigure 4 target = false := by
      unfold toConfigure
      simp only [beq_self_eq_true, Bool.true_and]
      simpa using hc
    rw [q]
    simpa using this
  · rw [hc] at this ⊢
    simpa using this
theorem serve_now {h : CmdHdr} {op c : Nat} {x y : Word} {data : List Byte} {body : Dev → Dev × Reply} {d e : Dev} (hb : opBarred d op = false)
    (he : body d = (e, .now c y data)) : serve h op x body d = complete h op c y data e := by
  unfold serve
  rw [hb, he]
  rfl

theorem except_bind_ok {ε α β : Type} {x : Except ε α} {f : α → Except ε β} {b : β} (h : (x >>= f) = .ok b) : ∃ a, x = .ok a ∧ f a = .ok b := by
  cases x with
  | error e => cases h
  | ok a => exact ⟨a, rfl, h⟩
theorem shortLines_nil {s : Dev} {l : List (Nat × Nat)} (h : shortLines s l = []) (n : Nat) (hn : n < 29) : usedOf s n + chargeOn l n ≤ capOf s n := by
  unfold shortLines at h
  rw [List.filterMap_eq_nil_iff] at h
  have := h n (List.mem_range.mpr hn)
  dsimp only at this
  split at this
  · cases this
  · omega
theorem admitPlan_fits {c : Ctx} {k : Nat} {p : Plan} {s x : Dev} (h : admitPlan c k p s = .ok x) : shortLines s p.charges = [] := by
  unfold admitPlan at h
  dsimp only at h
  cases hp : installPlan c k p s with
  | none =>
    rw [hp] at h
    dsimp only at h
    cases hs : shortLines s p.charges with
    | nil => rfl
    | cons a r =>
      rw [hs] at h
      cases h
  | some y =>
    rw [hp] at h
    dsimp only at h
    obtain ⟨_, _, h⟩ := except_bind_ok h
    cases hs : shortLines s p.charges with
    | nil => rfl
    | cons a r =>
      rw [hs] at h
      cases h
theorem createPlace_ok {s x : Dev} {a : CreateArgs} {r : List Byte} {i : Nat} (h : createPlace s a r = .ok (x, i)) :
    ∃ c p, planOf s c a.kind r = .ok p ∧ c.idx = i ∧ segHas (freeIdx s a.kind) i = true ∧ admitPlan c a.kind p s = .ok x := by
  unfold createPlace at h
  obtain ⟨j, h1, h⟩ := except_bind_ok h
  obtain ⟨p, h2, h⟩ := except_bind_ok h
  obtain ⟨_, h3, h⟩ := except_bind_ok h
  obtain ⟨y, h4, h⟩ := except_bind_ok h
  cases h
  refine ⟨_, p, h2, rfl, ?_, h4⟩
  unfold indexFree require at h3
  split at h3
  · assumption
  · cases h3
theorem bind_map_ok {ε α β : Type} {x : Except ε α} {f : α → Except ε β} {r : α} {y : β} (h1 : x = .ok r) (h2 : f r = .ok y) :
    (x.bind fun r => (f r).map fun s1 => (r, s1)) = .ok (r, y) := by
  subst h1
  show ((f r).map fun s1 => (r, s1)) = _
  rw [h2]; rfl
theorem bind_map_err {ε α β : Type} {x : Except ε α} {f : α → Except ε β} {e : ε} (h : x = .error e ∨ ∃ r, x = .ok r ∧ f r = .error e) :
    (x.bind fun r => (f r).map fun s1 => (r, s1)) = .error e := by
  rcases h with h | ⟨r, h1, h2⟩
  · subst h; rfl
  · subst h1
    show ((f r).map fun s1 => (r, s1)) = _
    rw [h2]; rfl
theorem onChannel_ok {handle : Word} {o : HObj} {d : Dev} (ho : objOf d handle = some o) (hk : hKind handle ≤ 9) (f : HObj → Dev → Dev × Reply) :
    onChannel handle f d = f o d := by
  unfold onChannel
  rw [ho]
  exact if_pos hk
theorem modifyBody_ok {h : CmdHdr} {handle : Word} {off len : Nat} {d : Dev} {o : HObj} (hp : h.src = .pcie) (ho : objOf d handle = some o) (hk : hKind handle ≤ 9)
   (hf : (d.hdl.objs.find? fun e => e.1 / 2 ^ 20 == 0xD && e.2.refs.contains (hKey handle)) = none) :
   modifyBody h handle off len d = match (carried d (hKind handle) off len).bind fun r => (modifyObj (hKey handle) r d).map fun s1 => (r, s1) with
        | .error e => (countRefusal e d, failed handle e)
        | .ok (r, s1) => if hKind handle = 2 then modifyRemote h handle r d s1 else (s1, done handle []) := by
    unfold modifyBody
    refine (onChannel_ok ho hk _).trans ?_
    have : noArgs h = false := by unfold noArgs; rw [hp]
    simp only [this, hf, Bool.false_eq_true, if_false]
    try (cases (carried d (hKind handle) off len).bind fun r => Except.map (fun s1 => (r, s1)) (modifyObj (hKey handle) r d) <;> rfl)
theorem objKey_lt (h : Word) : hKey h = okey (hKind h) (hIndex h) := rfl

theorem windowTakes_ext {a b : Dev} (h1 : a.sys = b.sys) (h2 : ∀ n, (pteOfPage a n).map (fun e => (e.1, e.2.hw)) = (pteOfPage b n).map (fun e => (e.1, e.2.hw))) (n : Nat) :
    windowTakes a n = windowTakes b n := by
  have h := h2 n
  unfold windowTakes
  revert h
  cases pteOfPage a n with
  | none => cases pteOfPage b n with
    | none => intro _; rfl
    | some y => intro h; simp at h
  | some x => cases pteOfPage b n with
    | none => intro h; simp at h
    | some y =>
      intro h
      simp only [Option.map_some, Option.some.injEq, Prod.mk.injEq] at h
      dsimp only
      rw [h1, h.1, h.2]
theorem dirty_pte (l : List (Nat × Pte)) (q n : Nat) :
    ((l.map fun e => if e.2.ppn = q then (e.1, { e.2 with d := true }) else e).find? fun e => e.2.ppn == n).map (fun e => (e.1, e.2.hw)) =
      (l.find? fun e => e.2.ppn == n).map fun e => (e.1, e.2.hw) := by
  induction l with
  | nil => rfl
  | cons a r ih =>
    simp only [List.map_cons]
    have hp : (if a.2.ppn = q then (a.1, { a.2 with d := true }) else a).2.ppn = a.2.ppn := by split <;> rfl
    rw [List.find?_cons, List.find?_cons, hp]
    cases h : (a.2.ppn == n)
    · exact ih
    · dsimp only
      split <;> rfl
/-- What a run of pieces of a window write does. -/
structure WinKept (d e : Dev) : Prop where
  sys : e.sys = d.sys
  hdl : e.hdl = d.hdl
  nor : e.nor = d.nor
  regs : ∀ o, o ≠ R.PLN_WIN_OOR → o ≠ R.PLN_WIN_PROT_DROPS → rg e o = rg d o
  takes : ∀ n, windowTakes e n = windowTakes d n
theorem WinKept.store {d e : Dev} (h : WinKept d e) : storePages e = storePages d := by
  unfold storePages
  have : bitOf e F.PLN_CONFIG_SIZE = bitOf d F.PLN_CONFIG_SIZE := by
    unfold bitOf
    rw [fld_ext _ (h.regs _ (by decide) (by decide))]
  rw [this]
theorem WinKept.trans {a b c : Dev} (h : WinKept a b) (g : WinKept b c) : WinKept a c :=
  ⟨g.sys.trans h.sys, g.hdl.trans h.hdl, g.nor.trans h.nor, fun o x y => (g.regs o x y).trans (h.regs o x y), fun n => (g.takes n).trans (h.takes n)⟩
theorem windowWrite_bytes (fuel : Nat) : ∀ (a : Nat) (bs : List Byte) (d : Dev), (bs.length = 0 ∨ bs.length + a % 65536 ≤ fuel * 65536) →
    WinKept d (windowWrite (pieces fuel a bs.length) bs d) ∧
    (∀ (i : Nat) (hi : i < bs.length), plainByte (windowWrite (pieces fuel a bs.length) bs d) (a + i) =
      if a + i < storePages d * 65536 ∧ windowTakes d ((a + i) / 65536) = true then bs[i] else plainByte d (a + i)) ∧
    ∀ x, x < a ∨ a + bs.length ≤ x → plainByte (windowWrite (pieces fuel a bs.length) bs d) x = plainByte d x := by
  induction fuel with
  | zero =>
    intro a bs d h
    have : bs = [] := List.length_eq_zero_iff.mp (by omega)
    subst this
    exact ⟨⟨rfl, rfl, rfl, fun _ _ _ => rfl, fun _ => rfl⟩, fun i hi => absurd hi (by simp), fun _ _ => rfl⟩
  | succ f ih =>
    intro a bs d h
    by_cases h0 : bs.length = 0
    · have : bs = [] := List.length_eq_zero_iff.mp h0
      subst this
      exact ⟨⟨rfl, rfl, rfl, fun _ _ _ => rfl, fun _ => rfl⟩, fun i hi => absurd hi (by simp), fun _ _ => rfl⟩
    have ep : pageBytes = 65536 := rfl
    obtain ⟨k, hk⟩ : ∃ k, k = min bs.length (65536 - a % 65536) := ⟨_, rfl⟩
    have hk0 : 0 < k := by omega
    have e : pieces (f + 1) a bs.length = (a, k) :: pieces f (a + k) (bs.drop k).length := by
      rw [List.length_drop, hk]
      conv_lhs => unfold pieces
      rw [if_neg h0]; rfl
    rw [e]
    unfold windowWrite
    extract_lets d0 d1
    have hd1 : WinKept d d1 ∧ (∀ (i : Nat) (hi : i < bs.length), i < k → plainByte d1 (a + i) = if a + i < storePages d * 65536 ∧ windowTakes d ((a + i) / 65536) = true then bs[i] else plainByte d (a + i)) ∧
        ∀ x, x < a ∨ a + k ≤ x → plainByte d1 x = plainByte d x := by
      have hpg : ∀ i, i < k → (a + i) / 65536 = a / 65536 := by intro i hi; omega
      have hst : ∀ i, i < k → (a + i < storePages d * 65536 ↔ a < storePages d * 65536) := by intro i hi; omega
      simp only [d1, d0]
      rw [ep]
      by_cases c1 : storePages d * 65536 ≤ a
      · rw [if_pos c1]
        refine ⟨⟨rfl, rfl, rfl, fun o x y => rg_bump_ne _ x, fun n => rfl⟩, fun i hi hik => ?_, fun x _ => rfl⟩
        rw [if_neg (by omega)]; rfl
      · rw [if_neg c1]
        by_cases c2 : windowTakes d (a / 65536) = true
        · rw [if_pos c2]
          refine ⟨⟨rfl, rfl, rfl, fun o x y => rfl, fun n => windowTakes_ext (a := plainWrite a (bs.take k) { d with pln.ptes := d.pln.ptes.map fun e => if e.2.ppn = a / 65536 then (e.1, { e.2 with d := true }) else e }) (b := d) rfl (fun m => dirty_pte d.pln.ptes _ m) n⟩, fun i hi hik => ?_, fun x hx => ?_⟩
          · rw [hpg i hik, if_pos ⟨by omega, c2⟩]
            have := plainByte_plainWrite_in a (bs.take k) { d with pln.ptes := d.pln.ptes.map fun e => if e.2.ppn = a / 65536 then (e.1, { e.2 with d := true }) else e } i (by rw [List.length_take]; omega)
            rw [this]; exact List.getElem_take
          · exact plainByte_plainWrite_out a (bs.take k) { d with pln.ptes := d.pln.ptes.map fun e => if e.2.ppn = a / 65536 then (e.1, { e.2 with d := true }) else e } x (by rw [List.length_take]; omega)
        · rw [if_neg c2]
          refine ⟨⟨rfl, rfl, rfl, fun o x y => rg_bump_ne _ y, fun n => rfl⟩, fun i hi hik => ?_, fun x _ => rfl⟩
          rw [hpg i hik, if_neg (fun q => c2 q.2)]; rfl
    clear_value d1
    clear d0
    obtain ⟨k1, b1, o1⟩ := hd1
    obtain ⟨k2, b2, o2⟩ := ih (a + k) (bs.drop k) d1 (by rw [List.length_drop]; omega)
    refine ⟨k1.trans k2, fun i hi => ?_, fun x hx => ?_⟩
    · by_cases c : i < k
      · rw [o2 _ (by omega), b1 i hi c]
      · have := b2 (i - k) (by rw [List.length_drop]; omega)
        rw [show a + k + (i - k) = a + i by omega] at this
        rw [this, k1.store, k1.takes, o1 _ (by omega), List.getElem_drop]
        simp only [show k + (i - k) = i by omega]
    · rw [o2 x (by rw [List.length_drop]; omega), o1 x (by omega)]
theorem windowRead_bytes (fuel : Nat) : ∀ (a n : Nat) (d : Dev), (n = 0 ∨ n + a % 65536 ≤ fuel * 65536) →
    (windowRead (pieces fuel a n) d).2.length = n ∧ (windowRead (pieces fuel a n) d).1.plain = d.plain ∧ (windowRead (pieces fuel a n) d).1.sys = d.sys ∧
    (windowRead (pieces fuel a n) d).1.nor = d.nor ∧ (∀ o, o ≠ R.PLN_WIN_OOR → rg (windowRead (pieces fuel a n) d).1 o = rg d o) ∧
    (d.pln.poisoned = [] → ∀ i, i < n → (windowRead (pieces fuel a n) d).2[i]? = some (if a + i < storePages d * 65536 then plainByte d (a + i) else 0)) := by
  induction fuel with
  | zero =>
    intro a n d h
    have : n = 0 := by omega
    subst this
    exact ⟨rfl, rfl, rfl, rfl, fun _ _ => rfl, fun _ i hi => absurd hi (by omega)⟩
  | succ f ih =>
    intro a n d h
    by_cases h0 : n = 0
    · subst h0
      exact ⟨rfl, rfl, rfl, rfl, fun _ _ => rfl, fun _ i hi => absurd hi (by omega)⟩
    have ep : pageBytes = 65536 := rfl
    obtain ⟨k, hk⟩ : ∃ k, k = min n (65536 - a % 65536) := ⟨_, rfl⟩
    have e : pieces (f + 1) a n = (a, k) :: pieces f (a + k) (n - k) := by
      rw [hk]
      conv_lhs => unfold pieces
      rw [if_neg h0]; rfl
    rw [e]
    unfold windowRead
    rw [ep]
    dsimp only
    generalize hx : (if storePages d * 65536 ≤ a then (bump R.PLN_WIN_OOR d, List.replicate k (0 : Byte))
        else (if d.pln.poisoned.any fun w => decide (a / 8 ≤ w ∧ w ≤ (a + k - 1) / 8) then { d with free := d.free + k } else d, poisonedBytes d a k (plainBytes d a k))) = x
    have hx1 : x.2.length = k ∧ x.1.plain = d.plain ∧ x.1.sys = d.sys ∧ x.1.nor = d.nor ∧ (∀ o, o ≠ R.PLN_WIN_OOR → rg x.1 o = rg d o) ∧ x.1.pln = d.pln ∧
        (d.pln.poisoned = [] → ∀ i, i < k → x.2[i]? = some (if a + i < storePages d * 65536 then plainByte d (a + i) else 0)) := by
      subst hx
      have hst : ∀ i, i < k → (a + i < storePages d * 65536 ↔ a < storePages d * 65536) := by intro i hi; omega
      split
      · rename_i c
        refine ⟨by simp, rfl, rfl, rfl, fun o q => rg_bump_ne _ q, rfl, fun _ i hi => ?_⟩
        rw [if_neg (fun q => c.not_gt ((hst i hi).mp q))]
        simp [hi]
      · rename_i c
        refine ⟨by simp [poisonedBytes, plainBytes, mgets], by dsimp only; split <;> rfl, by dsimp only; split <;> rfl, by dsimp only; split <;> rfl, fun o q => by dsimp only; split <;> rfl, by dsimp only; split <;> rfl, fun hp i hi => ?_⟩
        rw [if_pos ((hst i hi).mpr (Nat.lt_of_not_le c))]
        simp [poisonedBytes, plainBytes, mgets, hp, hi, plainByte]
    clear hx
    obtain ⟨x1, x2⟩ := x
    obtain ⟨q1, q2, q3, q4, q5, q6, q7⟩ := hx1
    dsimp only at q1 q2 q3 q4 q5 q6 q7
    obtain ⟨r1, r2, r3, r4, r5, r6⟩ := ih (a + k) (n - k) x1 (by omega)
    refine ⟨by simp [q1, r1]; omega, r2.trans q2, r3.trans q3, r4.trans q4, fun o ho => (r5 o ho).trans (q5 o ho), fun hp i hi => ?_⟩
    have es : storePages x1 = storePages d := by
      unfold storePages
      rw [show bitOf x1 F.PLN_CONFIG_SIZE = bitOf d F.PLN_CONFIG_SIZE from by unfold bitOf; rw [fld_ext _ (q5 _ (by decide))]]
    by_cases c : i < k
    · rw [List.getElem?_append_left (by rw [q1]; exact c)]
      exact q7 hp i c
    · rw [List.getElem?_append_right (by rw [q1]; omega), q1, r6 (by rw [q6]; exact hp) (i - k) (by omega), es, show a + k + (i - k) = a + i by omega]
      unfold plainByte
      rw [q2]
theorem plnUncorr_shows (w : Nat) (s : Dev) : (plnUncorr w s).sys = s.sys ∧ (plnUncorr w s).nor = s.nor ∧ bitOf (plnUncorr w s) F.SYS_FAULT_ECC_UNCORR = true := by
  unfold plnUncorr
  extract_lets s0 s1
  have f := postCode_frame 0x09 2 0x01 (w % 2 ^ 31) (lifeUp 9 s1)
  refine ⟨f.sys.trans rfl, (congrArg (·.nor) f.1).trans rfl, ?_⟩
  unfold bitOf
  rw [fld_ext _ (f.2 _ (by decide))]
  show bitOf s1 F.SYS_FAULT_ECC_UNCORR = true
  simp only [s1]
  rw [bitOf_setBit_off _ _ _ _ (by decide), bitOf_setFld_off _ _ _ _ (by decide), bitOf_setBit_self _ _ _ (by decide) (by decide)]
theorem foldl_plnUncorr (l : List Nat) : ∀ s : Dev, (l.foldl (fun s w => plnUncorr w s) s).sys = s.sys ∧ (l.foldl (fun s w => plnUncorr w s) s).nor = s.nor ∧
    (l ≠ [] → bitOf (l.foldl (fun s w => plnUncorr w s) s) F.SYS_FAULT_ECC_UNCORR = true) ∧
    (bitOf s F.SYS_FAULT_ECC_UNCORR = true → bitOf (l.foldl (fun s w => plnUncorr w s) s) F.SYS_FAULT_ECC_UNCORR = true) := by
  induction l with
  | nil => intro s; exact ⟨rfl, rfl, fun h => absurd rfl h, id⟩
  | cons a r ih =>
    intro s
    obtain ⟨h1, h2, h3, h4⟩ := ih (plnUncorr a s)
    obtain ⟨g1, g2, g3⟩ := plnUncorr_shows a s
    exact ⟨h1.trans g1, h2.trans g2, fun _ => h4 g3, fun _ => h4 g3⟩
theorem pte_word_bits (p : Pte) (h : p.ppn < 2 ^ 18) :
    (BitVec.ofNat 32 p.word).toNat % 2 = 1 ∧ (BitVec.ofNat 32 p.word).getLsbD 1 = p.p ∧ (BitVec.ofNat 32 p.word).getLsbD 2 = p.d ∧
    (BitVec.ofNat 32 p.word).getLsbD 4 = p.hw ∧ (BitVec.ofNat 32 p.word).getLsbD 5 = p.ck ∧ (BitVec.ofNat 32 p.word).getLsbD 6 = p.rt ∧
    (BitVec.ofNat 32 p.word).toNat / 65536 + (BitVec.ofNat 32 (p.word / 2 ^ 32)).toNat * 65536 = p.ppn := by
  obtain ⟨ppn, b1, b2, b3, b4, b5⟩ := p
  dsimp only at h
  unfold Pte.word
  dsimp only
  refine ⟨?_, ?_, ?_, ?_, ?_, ?_, ?_⟩
  · rw [BitVec.toNat_ofNat]
    cases b1 <;> cases b2 <;> cases b3 <;> cases b4 <;> cases b5 <;> simp <;> omega
  iterate 5
    rw [BitVec.getLsbD_ofNat, Nat.testBit_eq_decide_div_mod_eq]
    cases b1 <;> cases b2 <;> cases b3 <;> cases b4 <;> cases b5 <;> simp <;> omega
  · rw [BitVec.toNat_ofNat, BitVec.toNat_ofNat]
    cases b1 <;> cases b2 <;> cases b3 <;> cases b4 <;> cases b5 <;> simp <;> omega
theorem pump_idle {d : Dev} (h : waiting d = 0) : pump d = d := by
  unfold pump
  rw [h]; rfl
theorem waiting_ext {a b : Dev} (h1 : rg a R.HDL_CMD_TAIL = rg b R.HDL_CMD_TAIL) (h2 : rg a R.HDL_CMD_HEAD = rg b R.HDL_CMD_HEAD) (h3 : a.cmd = b.cmd) : waiting a = waiting b := by
  unfold waiting
  rw [fld_ext F.HDL_CMD_TAIL_TAIL h1, fld_ext F.HDL_CMD_HEAD_HEAD h2, h3]
theorem rg_storeReg_bit (o : Nat) (v : Word) (s : Dev) (r : RegRow) (hr : findReg o = some r) (i : Nat) (hi : i < 32) :
    (rg (storeReg o v s) o).getLsbD i = if r.w1c.testBit i && v.getLsbD i then false
          else if r.rw.testBit i || (s.sys.mode == .configure && r.rwl.testBit i) then v.getLsbD i else (rg s o).getLsbD i := by
  unfold storeReg
  rw [hr]
  dsimp only
  rw [rg_setRg_self]
  simp only [BitVec.getLsbD_and, BitVec.getLsbD_or, BitVec.getLsbD_not, BitVec.getLsbD_ofNat, hi, decide_true, Bool.true_and, Nat.testBit_or]
  by_cases c : s.sys.mode = .configure
  · rw [if_pos c, c]
    cases r.w1c.testBit i <;> cases v.getLsbD i <;> cases r.rw.testBit i <;> cases r.rwl.testBit i <;> cases (rg s o).getLsbD i <;> rfl
  · rw [if_neg c, show (s.sys.mode == Mode.configure) = false from by simpa using c, Nat.zero_testBit]
    cases r.w1c.testBit i <;> cases v.getLsbD i <;> cases r.rw.testBit i <;> cases (rg s o).getLsbD i <;> rfl
theorem chargeOn_cons (a : Nat × Nat) (l : List (Nat × Nat)) (n : Nat) : chargeOn (a :: l) n = (if a.1 = n then a.2 else 0) + chargeOn l n := by
  unfold chargeOn
  by_cases c : a.1 = n <;> simp [List.filter_cons, c]
theorem credit_used (l : List (Nat × Nat)) : ∀ (u : Tbl Nat) (n : Nat),
    (tget (l.foldl (fun u e => tput u e.1 ((tget u e.1).getD 0 - e.2)) u) n).getD 0 = (tget u n).getD 0 - chargeOn l n := by
  induction l with
  | nil => intro u n; simp [chargeOn]
  | cons a r ih =>
    intro u n
    rw [List.foldl_cons, ih, chargeOn_cons]
    by_cases c : a.1 = n
    · rw [if_pos c, ← c, tget_tput_self, Option.getD_some]; omega
    · rw [if_neg c, tget_tput_ne _ _ (fun q => c q.symm)]; omega
theorem usedOf_creditAll (l : List (Nat × Nat)) (s : Dev) (n : Nat) : usedOf (creditAll l s) n = usedOf s n - chargeOn l n := credit_used _ _ _
theorem foldl_freePage_ptes (l : List (Nat × Pte)) (h : ∀ q ∈ l, q.2.rt = false) : ∀ s : Dev, (l.foldl (fun s e => freePage e.2 s) s).pln.ptes = s.pln.ptes := by
  induction l with
  | nil => intro s; rfl
  | cons a r ih =>
    intro s
    rw [List.foldl_cons, ih (fun q hq => h q (List.mem_cons_of_mem _ hq))]
    unfold freePage
    rw [h a List.mem_cons_self]; rfl
theorem ptesOf_freePages (k : Nat) (s : Dev) (h : ∀ q, q ∈ ptesOf s k → q.2.rt = false) : ptesOf (freePages k s) k = [] := by
  unfold freePages
  extract_lets ps s0 s1
  have : (ps.foldl (fun s e => freePage e.2 s) s1).pln.ptes = s1.pln.ptes := foldl_freePage_ptes _ h _
  unfold ptesOf
  rw [this]
  simp only [s1, s0]
  rw [List.filter_filter]
  have : (s.pln.ptes.filter fun e => (e.1 / 65536 == k) && (e.1 / 65536 != k)) = [] := by
    rw [List.filter_eq_nil_iff]
    intro a _
    by_cases c : a.1 / 65536 = k <;> simp [c]
  rw [this]; rfl

theorem leNat_append (a b : List Byte) : leNat (a ++ b) = leNat a + 256 ^ a.length * leNat b := by
  induction a with
  | nil => simp [leNat]
  | cons x r ih =>
    simp only [List.cons_append, leNat, ih, List.length_cons, Nat.pow_succ]
    rw [Nat.mul_add, Nat.mul_comm (256 ^ r.length) 256, Nat.mul_assoc, Nat.add_assoc]
theorem leNat_leBytes (n v : Nat) : leNat (leBytes n v) = v % 256 ^ n := by
  induction n with
  | zero => simp [leBytes, leNat, Nat.mod_one]
  | succ k ih =>
    have e : leBytes (k + 1) v = leBytes k v ++ [BitVec.ofNat 8 (v / 256 ^ k)] := by
      unfold leBytes
      rw [List.range_succ, List.map_append]; rfl
    rw [e, leNat_append, ih, leBytes_length]
    show v % 256 ^ k + 256 ^ k * ((BitVec.ofNat 8 (v / 256 ^ k)).toNat + 256 * 0) = _
    rw [BitVec.toNat_ofNat, Nat.mul_zero, Nat.add_zero]
    have m := Nat.mod_mul (x := v) (a := 256 ^ k) (b := 256)
    rw [Nat.pow_succ]
    exact m.symm
theorem at_here (n v : Nat) (r : List Byte) (h : v < 256 ^ n) : at_ (leBytes n v ++ r) 0 n = v := by
  unfold at_
  rw [List.drop_zero, List.take_append_of_le_length (by rw [leBytes_length]), List.take_of_length_le (by rw [leBytes_length]), leNat_leBytes, Nat.mod_eq_of_lt h]
theorem at_past (k : Nat) (a r : List Byte) (off n : Nat) (h : a.length = k) (ho : k ≤ off) : at_ (a ++ r) off n = at_ r (off - k) n := by
  unfold at_
  rw [List.drop_append, List.drop_eq_nil_of_le (by omega), h]; rfl
theorem at_cons (a : Byte) (r : List Byte) (off n : Nat) : at_ (a :: r) (off + 1) n = at_ r off n := rfl
theorem fit48 : (fit 48 []).length = 48 := rfl
theorem at_leBytes (n v : Nat) (h : v < 256 ^ n) : at_ (leBytes n v) 0 n = v := by
  have := at_here n v [] h
  rwa [List.append_nil] at this
theorem entryOf_entryBytes (h : CmdHdr) (op : Nat) (x : Word) (args : List Byte) (hop : op < 65536) (hx : opHandled op = true ∨ x = 0) :
    entryOf h.src h.slot (entryBytes h op x args) = { op := op, handle := x, hdr := h, args := args } := by
  have e : entryBytes h op x args = leBytes 2 op ++ (leBytes 1 ((if h.fence then 1 else 0) + (if h.irq then 2 else 0)) ++ (0 :: (leBytes 4 h.tag.toNat ++
    (leBytes 4 x.toNat ++ (0 :: 0 :: 0 :: 0 :: args))))) := by
    unfold entryBytes
    simp only [List.append_assoc, List.cons_append, List.nil_append]
  have l2 : (leBytes 2 op).length = 2 := leBytes_length _ _
  have l1 : (leBytes 1 ((if h.fence then 1 else 0) + (if h.irq then 2 else 0))).length = 1 := leBytes_length _ _
  have l4 : (leBytes 4 h.tag.toNat).length = 4 := leBytes_length _ _
  have l5 : (leBytes 4 x.toNat).length = 4 := leBytes_length _ _
  have a0 : at_ (entryBytes h op x args) 0 2 = op := by rw [e]; exact at_here 2 op _ (by omega)
  have a2 : at_ (entryBytes h op x args) 2 1 = (if h.fence then 1 else 0) + (if h.irq then 2 else 0) := by
    rw [e, at_past 2 _ _ 2 1 l2 (by omega)]
    refine at_here 1 _ _ ?_
    cases h.fence <;> cases h.irq <;> decide
  have a4 : at_ (entryBytes h op x args) 4 4 = h.tag.toNat := by
    rw [e, at_past 2 _ _ 4 4 l2 (by omega), at_past 1 _ _ 2 4 l1 (by omega)]
    exact at_here 4 _ _ h.tag.isLt
  have a8 : at_ (entryBytes h op x args) 8 4 = x.toNat := by
    rw [e, at_past 2 _ _ 8 4 l2 (by omega), at_past 1 _ _ 6 4 l1 (by omega)]
    show at_ (leBytes 4 h.tag.toNat ++ _) 4 4 = _
    rw [at_past 4 _ _ 4 4 l4 (by omega)]
    exact at_here 4 _ _ x.isLt
  have d16 : (entryBytes h op x args).drop 16 = args := by
    rw [e]
    rw [List.drop_append, List.drop_eq_nil_of_le (by omega), l2, List.nil_append, List.drop_append, List.drop_eq_nil_of_le (by omega), l1, List.nil_append]
    show List.drop 12 (leBytes 4 h.tag.toNat ++ _) = _
    rw [List.drop_append, List.drop_eq_nil_of_le (by omega), l4, List.nil_append, List.drop_append, List.drop_eq_nil_of_le (by omega), l5, List.nil_append]
    rfl
  unfold entryOf
  rw [a0, a2, a4, a8, d16]
  have eh : (if opHandled op = true then BitVec.ofNat 32 x.toNat else 0) = x := by
    rcases hx with hx | hx
    · rw [hx, if_pos rfl]; exact BitVec.ofNat_toNat _ _ |>.trans (BitVec.setWidth_eq _)
    · subst hx; split <;> rfl
  have et : BitVec.ofNat 32 h.tag.toNat = h.tag := (BitVec.ofNat_toNat _ _).trans (BitVec.setWidth_eq _)
  dsimp only
  rw [eh, et]
  have b0 : bit ((if h.fence = true then 1 else 0) + if h.irq = true then 2 else 0) 0 = h.fence := by
    cases h.fence <;> cases h.irq <;> decide
  have b1 : bit ((if h.fence = true then 1 else 0) + if h.irq = true then 2 else 0) 1 = h.irq := by
    cases h.fence <;> cases h.irq <;> decide
  rw [b0, b1]
theorem entryBytes_length (h : CmdHdr) (op : Nat) (x : Word) (args : List Byte) (ha : args.length = 48) : (entryBytes h op x args).length = 64 := by
  unfold entryBytes
  simp [leBytes_length, ha]
theorem entry_row {c : Instr} {h : CmdHdr} {op : Nat} {x : Word} {args : List Byte} {s : State} {d : Dev} {t : Time} {body : Dev → Dev × Reply}
    (hc : exec c s = onDev (row t h op x body) s) (hd : AtTime t s d) (hop : op < 65536 := by decide) (h4 : op ≠ 4 := by decide) (hx : opHandled op = true ∨ x = 0)
    (ha : args.length = 48) (hb : bodyOf { op := op, handle := x, hdr := h, args := args } = body) :
    (entryBytes h op x args).length = 64 ∧
    (entryOf h.src h.slot (entryBytes h op x args)).hdr = h ∧ (entryOf h.src h.slot (entryBytes h op x args)).op = op ∧
    (entryOf h.src h.slot (entryBytes h op x args)).handle = x ∧
    (cmdMayStart d (entryFence (entryOf h.src h.slot (entryBytes h op x args))) x = true →
      let e := serve h op x (bodyOf (entryOf h.src h.slot (entryBytes h op x args))) d
      exec c s = .next { s with toDev := if op = 4 then closeGate e else e }) := by
  rw [entryOf_entryBytes h op x args hop hx]
  refine ⟨entryBytes_length _ _ _ _ ha, rfl, rfl, rfl, fun hm => ?_⟩
  have hf : entryFence { op := op, handle := x, hdr := h, args := args } = h := by
    unfold entryFence toConfigure
    dsimp only
    rw [show (op == 4) = false from by simpa using h4]
    simp
  rw [hf] at hm
  dsimp only
  rw [if_neg h4, hb, hc]
  refine onDev_eq ?_
  unfold row command
  rw [← hd, if_pos hm]
theorem and_true_of {a b : Bool} (h : (a && b) = true) : a = true ∧ b = true := by simpa using h
theorem word_back (v : Word) : BitVec.ofNat 32 v.toNat = v := (BitVec.ofNat_toNat _ _).trans (BitVec.setWidth_eq _)
theorem bit_if (b : Bool) : bit (if b then 1 else 0) 0 = b := by cases b <;> rfl
theorem at_f1 (k n a b : Nat) (r : List Byte) (h : a < 256 ^ k) : at_ (leBytes k a ++ leBytes n b ++ r) 0 k = a := by
  rw [List.append_assoc]; exact at_here k a _ h
theorem at_f2 (k n a b : Nat) (r : List Byte) (h : b < 256 ^ n) : at_ (leBytes k a ++ leBytes n b ++ r) k n = b := by
  rw [List.append_assoc, at_past k _ _ k n (leBytes_length _ _) (Nat.le_refl _), Nat.sub_self]; exact at_here n b _ h
theorem at_g1 (k n m a b c : Nat) (r : List Byte) (h : a < 256 ^ k) : at_ (leBytes k a ++ leBytes n b ++ leBytes m c ++ r) 0 k = a := by
  rw [List.append_assoc]; exact at_f1 k n a b _ h
theorem at_g2 (k n m a b c : Nat) (r : List Byte) (h : b < 256 ^ n) : at_ (leBytes k a ++ leBytes n b ++ leBytes m c ++ r) k n = b := by
  rw [List.append_assoc]; exact at_f2 k n a b _ h
theorem at_g3 (k n m a b c : Nat) (r : List Byte) (h : c < 256 ^ m) : at_ (leBytes k a ++ leBytes n b ++ leBytes m c ++ r) (k + n) m = c := by
  rw [List.append_assoc, at_past (k + n) _ _ (k + n) m (by simp [leBytes_length]) (Nat.le_refl _), Nat.sub_self]; exact at_here m c _ h
theorem at_z1 (z k n a b : Nat) (r : List Byte) (h : a < 256 ^ k) : at_ (List.replicate z 0 ++ leBytes k a ++ leBytes n b ++ r) z k = a := by
  rw [List.append_assoc, List.append_assoc, at_past z _ _ z k (by simp) (Nat.le_refl _), Nat.sub_self]; exact at_here k a _ h
theorem at_z2 (z k n a b : Nat) (r : List Byte) (h : b < 256 ^ n) : at_ (List.replicate z 0 ++ leBytes k a ++ leBytes n b ++ r) (z + k) n = b := by
  rw [List.append_assoc, at_past (z + k) _ _ (z + k) n (by simp [leBytes_length]) (Nat.le_refl _), Nat.sub_self]; exact at_here n b _ h
theorem at_s1 (a b c : Nat) (r : List Byte) (h : a < 256 ^ 8) : at_ (List.replicate 8 0 ++ leBytes 8 a ++ leBytes 4 b ++ leBytes 1 c ++ r) 8 8 = a := by
  rw [List.append_assoc]; exact at_z1 8 8 4 a b _ h
theorem at_s2 (a b c : Nat) (r : List Byte) (h : b < 256 ^ 4) : at_ (List.replicate 8 0 ++ leBytes 8 a ++ leBytes 4 b ++ leBytes 1 c ++ r) 16 4 = b := by
  rw [List.append_assoc]; exact at_z2 8 8 4 a b _ h
theorem at_s3 (a b c : Nat) (r : List Byte) (h : c < 256 ^ 1) : at_ (List.replicate 8 0 ++ leBytes 8 a ++ leBytes 4 b ++ leBytes 1 c ++ r) 20 1 = c := by
  rw [List.append_assoc, at_past 20 _ _ 20 1 (by simp [leBytes_length]) (Nat.le_refl _), Nat.sub_self]; exact at_here 1 c _ h
theorem createArgs_bytes (a : CreateArgs) (h : createOk a = true) : createArgs (createBytes a) = a := by
  simp only [createOk, Sys2Proof.below, Bool.and_eq_true, decide_eq_true_eq] at h
  obtain ⟨⟨⟨⟨⟨⟨⟨h1, h2⟩, h3⟩, h4⟩, h5⟩, h6⟩, h7⟩, h8⟩ := h
  have e : createBytes a = leBytes 1 a.kind ++ (leBytes 1 a.cls ++ (leBytes 1 a.prio ++ (leBytes 1 ((if a.anyIndex then 1 else 0) + (if a.start then 2 else 0)) ++
      (leBytes 4 a.index ++ (leBytes 8 a.secs ++ (leBytes 4 a.nanos ++ (leBytes 4 0 ++ (leBytes 4 a.recOff ++ (leBytes 4 a.recLen ++ List.replicate 16 0))))))))) := by
    unfold createBytes
    simp only [List.append_assoc]
  have q0 : at_ (createBytes a) 0 1 = a.kind := by rw [e]; exact at_here 1 _ _ (by omega)
  have q1 : at_ (createBytes a) 1 1 = a.cls := by
    rw [e, at_past 1 _ _ 1 1 (leBytes_length _ _) (by omega)]; exact at_here 1 _ _ (by omega)
  have q2 : at_ (createBytes a) 2 1 = a.prio := by
    rw [e, at_past 1 _ _ 2 1 (leBytes_length _ _) (by omega), at_past 1 _ _ 1 1 (leBytes_length _ _) (by omega)]; exact at_here 1 _ _ (by omega)
  have q3 : at_ (createBytes a) 3 1 = (if a.anyIndex then 1 else 0) + (if a.start then 2 else 0) := by
    rw [e, at_past 1 _ _ 3 1 (leBytes_length _ _) (by omega), at_past 1 _ _ 2 1 (leBytes_length _ _) (by omega), at_past 1 _ _ 1 1 (leBytes_length _ _) (by omega)]
    refine at_here 1 _ _ ?_
    cases a.anyIndex <;> cases a.start <;> decide
  have r4 : ∀ off n, 4 ≤ off → at_ (createBytes a) off n = at_ (leBytes 4 a.index ++ (leBytes 8 a.secs ++ (leBytes 4 a.nanos ++ (leBytes 4 0 ++ (leBytes 4 a.recOff ++ (leBytes 4 a.recLen ++ List.replicate 16 0)))))) (off - 4) n := by
    intro off n ho
    rw [e, at_past 1 _ _ off n (leBytes_length _ _) (by omega), at_past 1 _ _ _ n (leBytes_length _ _) (by omega), at_past 1 _ _ _ n (leBytes_length _ _) (by omega), at_past 1 _ _ _ n (leBytes_length _ _) (by omega)]
    congr 1
  have q4 : at_ (createBytes a) 4 4 = a.index := by rw [r4 4 4 (by omega)]; exact at_here 4 _ _ (by omega)
  have q8 : at_ (createBytes a) 8 8 = a.secs := by
    rw [r4 8 8 (by omega), at_past 4 _ _ _ 8 (leBytes_length _ _) (by omega)]; exact at_here 8 _ _ (by omega)
  have q16 : at_ (createBytes a) 16 4 = a.nanos := by
    rw [r4 16 4 (by omega), at_past 4 _ _ _ 4 (leBytes_length _ _) (by omega), at_past 8 _ _ _ 4 (leBytes_length _ _) (by omega)]; exact at_here 4 _ _ (by omega)
  have q24 : at_ (createBytes a) 24 4 = a.recOff := by
    rw [r4 24 4 (by omega), at_past 4 _ _ _ 4 (leBytes_length _ _) (by omega), at_past 8 _ _ _ 4 (leBytes_length _ _) (by omega), at_past 4 _ _ _ 4 (leBytes_length _ _) (by omega), at_past 4 _ _ _ 4 (leBytes_length _ _) (by omega)]
    exact at_here 4 _ _ (by omega)
  have q28 : at_ (createBytes a) 28 4 = a.recLen := by
    rw [r4 28 4 (by omega), at_past 4 _ _ _ 4 (leBytes_length _ _) (by omega), at_past 8 _ _ _ 4 (leBytes_length _ _) (by omega), at_past 4 _ _ _ 4 (leBytes_length _ _) (by omega), at_past 4 _ _ _ 4 (leBytes_length _ _) (by omega), at_past 4 _ _ _ 4 (leBytes_length _ _) (by omega)]
    exact at_here 4 _ _ (by omega)
  have b0 : bit ((if a.anyIndex = true then 1 else 0) + if a.start = true then 2 else 0) 0 = a.anyIndex := by
    cases a.anyIndex <;> cases a.start <;> decide
  have b1 : bit ((if a.anyIndex = true then 1 else 0) + if a.start = true then 2 else 0) 1 = a.start := by
    cases a.anyIndex <;> cases a.start <;> decide
  unfold createArgs
  rw [q0, q1, q2, q3, q4, q8, q16, q24, q28, b0, b1]

end Sys2Proof.Machine
end

