-- ==== Sys2Proof/Laws/Rings.lean ====
section
/-! SUPPORT. Rings, tasks, checks and the supply: what their operations do. -/

namespace Sys2Proof.Machine

theorem pumpRing_none {s : Dev} (h : fld s F.HDL_CMD_HEAD_HEAD = fld s F.HDL_CMD_TAIL_TAIL) : pumpRing s = s := by
  unfold pumpRing ringEntry
  dsimp only
  rw [if_pos (Or.inr h)]
theorem pumpMgt_none {s : Dev} (h : s.cmd.mgt = []) : pumpMgt s = s := by
  unfold pumpMgt mgtEntry
  rw [h]; rfl
theorem waiting_none {s : Dev} (h : fld s F.HDL_CMD_HEAD_HEAD = fld s F.HDL_CMD_TAIL_TAIL) (hm : s.cmd.mgt = []) : waiting s = 0 := by
  unfold waiting
  rw [hm, h]
  simp
theorem headLt (s : Dev) : fld s F.HDL_CMD_HEAD_HEAD < 4096 := Nat.mod_lt _ (by decide)
theorem waiting_one {s : Dev} (h : (fld s F.HDL_CMD_HEAD_HEAD + 1) % 4096 = fld s F.HDL_CMD_TAIL_TAIL) (hm : s.cmd.mgt = []) : waiting s = 1 := by
  unfold waiting
  have := headLt s
  rw [hm, ← h]
  simp
  omega
theorem pump_one {s : Dev} {x : Entry} (h : (fld s F.HDL_CMD_HEAD_HEAD + 1) % 4096 = fld s F.HDL_CMD_TAIL_TAIL) (hm : s.cmd.mgt = []) (hu : cmdUp s = true)
    (hx : x = entryOf .pcie (fld s F.HDL_CMD_HEAD_HEAD) (relRead s ringKey (64 * fld s F.HDL_CMD_HEAD_HEAD) 64)) (hf : cmdFree s (entryFence x) x.handle = true) (hr : cmpRoom s = true) :
    pump s = pumpMgt (startRing x s) := by
  unfold pump
  rw [waiting_one h hm]
  show pumpMgt (pumpRing s) = _
  unfold pumpRing ringEntry
  dsimp only
  rw [if_neg]
  · dsimp only
    rw [← hx, if_pos ⟨hf, hr⟩]
  · rw [hu]
    have := headLt s
    intro q
    rcases q with q | q
    · cases q
    · omega
theorem pump_full {s : Dev} (h : (fld s F.HDL_CMD_HEAD_HEAD + 1) % 4096 = fld s F.HDL_CMD_TAIL_TAIL) (hm : s.cmd.mgt = []) (hr : cmpRoom s = false) : pump s = s := by
  unfold pump
  rw [waiting_one h hm]
  show pumpMgt (pumpRing s) = _
  have : pumpRing s = s := by
    unfold pumpRing
    cases ringEntry s with
    | none => rfl
    | some x =>
      dsimp only
      rw [if_neg (by rw [hr]; simp)]
  rw [this, pumpMgt_none hm]
theorem fld_head_store (o : Nat) (v : Word) (d : Dev) (f : Fld) (r : RegRow) (hr : findReg o = some r) (hf : f = ⟨o, 0, 12⟩) (h1 : r.w1c = 0) (h2 : r.rw = 0xfff) :
    fld (storeReg o v d) f = v.toNat % 4096 := by
  subst hf
  rw [fld_storeReg_rw d o v ⟨o, 0, 12⟩ r hr rfl (by show 0 + 12 ≤ 32; omega) h1 (by rw [h2]; show 4095 / 2 ^ 0 % 2 ^ 12 = 2 ^ 12 - 1; decide)]
  show v.toNat / 2 ^ 0 % 2 ^ 12 = _
  rw [Nat.pow_zero, Nat.div_one]; rfl
theorem relRead_ext {a b : Dev} (h1 : a.plain = b.plain) (h2 : a.pln = b.pln) (k o n : Nat) : relRead a k o n = relRead b k o n := by
  unfold relRead pteAt plainBytes
  rw [h1, h2]
theorem cmdUp_ext {a b : Dev} (h1 : a.sys = b.sys) : cmdUp a = cmdUp b := by
  unfold cmdUp; rw [h1]
theorem cmdFree_ext {a b : Dev} (h1 : a.sys = b.sys) (h2 : a.cmd = b.cmd) (h : CmdHdr) (x : Word) : cmdFree a h x = cmdFree b h x := by
  unfold cmdFree
  rw [cmdUp_ext h1, h1, h2]
theorem cmpRoom_ext {a b : Dev} (h1 : fld a F.HDL_CMP_TAIL_TAIL = fld b F.HDL_CMP_TAIL_TAIL) (h3 : fld a F.HDL_CMP_HEAD_HEAD = fld b F.HDL_CMP_HEAD_HEAD) (h2 : a.cmd = b.cmd) : cmpRoom a = cmpRoom b := by
  unfold cmpRoom cmpHeld
  rw [h1, h2, h3]
theorem mgtReq_one (d : Dev) (ip port q : Nat) (e : List Byte) (hq : q < 65536) (hl : e.length = 64) (hm : d.cmd.mgt = []) :
    mgtWellFormed ([1, 1] ++ leBytes 2 q ++ e) = true ∧
    mgtRequest d ip port ([1, 1] ++ leBytes 2 q ++ e) = { ip := ip, port := port, seq := q, total := 1, todo := [(0, e)], open_ := [], done := [] } := by
  have a1 : at_ ([1, 1] ++ leBytes 2 q ++ e) 1 1 = 1 := rfl
  have a2 : at_ ([1, 1] ++ leBytes 2 q ++ e) 2 2 = q := by
    show at_ (leBytes 2 q ++ e) 0 2 = q
    exact at_here 2 q _ (by omega)
  have d4 : ([1, 1] ++ leBytes 2 q ++ e).drop 4 = e := rfl
  constructor
  · unfold mgtWellFormed
    rw [a1]
    have : ([1, 1] ++ leBytes 2 q ++ e).length = 68 := by simp [leBytes_length, hl]
    rw [this]; rfl
  · unfold mgtRequest
    rw [a1, a2, d4, hm]
    show MgtReq.mk ip port q 1 (([0] : List Nat).zip (splitRecords 64 1 e)) [] [] = _
    unfold splitRecords splitRecords
    rw [List.take_of_length_le (by omega)]
    rfl
theorem cmpEntry_slot0 (c p o : Nat) (h : CmdHdr) (x : Word) (l : List Byte) (g : h.slot = 0) : cmpEntry c p o { h with slot := h.slot % 16 } x l = cmpEntry c p o h x l := by
  unfold cmpEntry
  simp only [g]

/-- The scrubber's and the DRAM tracking's own state. -/
def Pln.pace (p : Pln) : List Nat × Time × Time × Bool × Time × List Nat := (p.dqs, p.scrubFrom, p.scrubHold, p.overdue, p.holdFrom, p.retired)
/-- What leaves the scrubber's state as it was. -/
def ScrubFrame (s s' : Dev) : Prop := s'.pln.pace = s.pln.pace
theorem ScrubFrame.trans {a b c : Dev} (h : ScrubFrame a b) (h' : ScrubFrame b c) : ScrubFrame a c := Eq.trans h' h
theorem xlatTouch_scrub (k p : Nat) (s : Dev) : ScrubFrame s (xlatTouch k p s) := by
  unfold xlatTouch
  extract_lets key set ways q s'
  have h : ScrubFrame s s' := (rfl : ScrubFrame _ _)
  clear_value s'
  split
  · exact h
  · exact h.trans ((rfl : ScrubFrame _ _))

theorem mapPage_scrub (k p : Nat) (a b c : Bool) (s : Dev) : ScrubFrame s (mapPage k p a b c s) := by
  unfold mapPage
  split
  · exact (rfl : ScrubFrame _ _)
  · exact (rfl : ScrubFrame s s)

theorem demandPage_scrub (k p : Nat) (hw : Bool) (s : Dev) : ScrubFrame s (demandPage k p hw s).1 := by
  unfold demandPage
  split
  · exact xlatTouch_scrub k p s
  · split
    · exact (xlatTouch_scrub k p s).trans ((rfl : ScrubFrame _ _))
    · have h := (xlatTouch_scrub k p s).trans (mapPage_scrub k p false hw false _)
      revert h
      generalize mapPage k p false hw false (xlatTouch k p s) = x
      intro h
      simp only
      split
      · refine h.trans (ScrubFrame.trans (b := { x with plain := _ }) ((rfl : ScrubFrame _ _)) ((rfl : ScrubFrame _ _)))
      · exact h.trans ((rfl : ScrubFrame _ _))

theorem relWrite_scrub (k a : Nat) (bs : List Byte) (s : Dev) : ScrubFrame s (relWrite k a bs s) := by
  unfold relWrite
  split
  · exact (rfl : ScrubFrame _ _)
  · exact (rfl : ScrubFrame s s)

theorem ringWord_scrub (n : Nat) (r : Ring) (p v : Nat) (s : Dev) : ScrubFrame s (ringWord n r p v s).1 := by
  unfold ringWord
  extract_lets a
  have h := demandPage_scrub (ringObj n) (a / pageBytes) r.hostWrite s
  revert h
  generalize demandPage (ringObj n) (a / pageBytes) r.hostWrite s = x
  intro h
  rcases x with ⟨x, ok⟩
  simp only
  split
  · exact h.trans (relWrite_scrub _ _ _ _)
  · exact h

theorem ringStore_scrub (n : Nat) (r : Ring) (p : Nat) (ws : List Nat) (s : Dev) : ScrubFrame s (ringStore n r p ws s).1 := by
  induction ws generalizing p s with
  | nil => exact (rfl : ScrubFrame s s)
  | cons w ws ih =>
    unfold ringStore
    have h := ringWord_scrub n r p w s
    revert h
    generalize ringWord n r p w s = x
    intro h
    rcases x with ⟨x, ok⟩
    simp only
    split
    · exact h.trans (ih _ _)
    · exact h

theorem ringIrq_scrub (n b : Nat) (s : Dev) : ScrubFrame s (ringIrq n b s) := by
  unfold ringIrq
  split
  · exact (rfl : ScrubFrame s s)
  · split
    · split
      · split <;> exact (rfl : ScrubFrame _ _)
      · exact (rfl : ScrubFrame _ _)
    · exact (rfl : ScrubFrame s s)

theorem ringCommit_scrub (n : Nat) (ws : List Nat) (s : Dev) : ScrubFrame s (ringCommit n ws s).1 := by
  unfold ringCommit
  split
  · exact (rfl : ScrubFrame s s)
  · rename_i r hr
    simp only
    have h : ScrubFrame s (if (r.makeRoom ws.length (r.items.length + 1)).plain then
        ringStore n (r.makeRoom ws.length (r.items.length + 1)) (r.makeRoom ws.length (r.items.length + 1)).wpos ws s else (s, true)).1 := by
      split
      · exact ringStore_scrub _ _ _ _ _
      · exact (rfl : ScrubFrame s s)
    exact h.trans (ScrubFrame.trans ((rfl : ScrubFrame _ _)) (ringIrq_scrub _ _ _))

theorem routeItem_scrub (src : Nat) (ws : List Nat) (s : Dev) : ScrubFrame s (routeItem src ws s).1 := by
  unfold routeItem
  simp only
  split
  · exact ringCommit_scrub _ _ _
  · exact (rfl : ScrubFrame _ _)

theorem postPool_scrub (s : Dev) : ScrubFrame s (postPool s) := by
  unfold postPool
  split
  · split
    · exact ScrubFrame.trans (b := { s with pln.poolPosted := some s.raw }) ((rfl : ScrubFrame _ _)) (routeItem_scrub _ _ _)
    · exact (rfl : ScrubFrame s s)
  · exact ScrubFrame.trans (b := { s with pln.poolPosted := some s.raw }) ((rfl : ScrubFrame _ _)) (routeItem_scrub _ _ _)

/-- Posting an item. -/
theorem post_scrub (src typ data : Nat) (payload : List Nat) (s : Dev) : ScrubFrame s (post src typ data payload s) := by
  unfold post
  have h := routeItem_scrub src (itemHead typ src data payload.length :: payload) s
  revert h
  generalize routeItem src (itemHead typ src data payload.length :: payload) s = x
  intro h
  rcases x with ⟨x, ok⟩
  simp only
  split
  · exact h
  · exact h.trans (postPool_scrub x)

theorem postCode_scrub (src typ code low : Nat) (s : Dev) : ScrubFrame s (postCode src typ code low s) := post_scrub _ _ _ _ _

theorem holdObj_avs (k : Nat) (b : Bool) (s : Dev) : (holdObj k b s).hdl.avsWrite = s.hdl.avsWrite := by
  unfold holdObj
  cases objAt s k with
  | none => rfl
  | some o =>
    dsimp only
    split
    · split
      · rw [freezeZone_hdl]; rfl
      · rfl
    · split <;> rfl
theorem holdStep_avs (k : Nat) (b : Bool) (s : Dev) : (holdStep k b s).hdl.avsWrite = s.hdl.avsWrite := by
  unfold holdStep
  extract_lets cls f v s1
  have : ∀ (l : List (Nat × HObj)) (s : Dev), (l.foldl (fun s e => holdObj e.1 b s) s).hdl.avsWrite = s.hdl.avsWrite := by
    intro l
    induction l with
    | nil => intro s; rfl
    | cons a r ih => intro s; rw [List.foldl_cons, ih, holdObj_avs]
  exact (this _ _).trans rfl
theorem govHold_avs (s : Dev) : (govHold s).hdl.avsWrite = s.hdl.avsWrite := by
  unfold govHold
  extract_lets k s0 s1 s2 s3
  split
  · rfl
  · rw [postGov_hdl]
    have h1 : s1.hdl.avsWrite = s.hdl.avsWrite := holdStep_avs _ _ _
    have h2 : s2.hdl.avsWrite = s.hdl.avsWrite := h1
    simp only [s3]
    split
    · rw [postGov_hdl]; exact h2
    · exact h2
theorem govRelease_avs (s : Dev) : (govRelease s).hdl.avsWrite = s.hdl.avsWrite := by
  unfold govRelease
  split
  · rfl
  · split
    · rfl
    · extract_lets s0 s1 s2
      have h1 : s1.hdl.avsWrite = s.hdl.avsWrite := holdStep_avs _ _ _
      have h2 : s2.hdl.avsWrite = s.hdl.avsWrite := by simp only [s2]; rw [postGov_hdl]; exact h1
      split
      · rw [postGov_hdl]; exact h2
      · exact h2
theorem govRisk_avs (x : Nat) (s : Dev) : (govRisk x s).hdl.avsWrite = s.hdl.avsWrite := by
  unfold govRisk
  extract_lets s0 s1
  split
  · split
    · rw [postGov_hdl]; rfl
    · rfl
  · split
    · rw [postGov_hdl]; rfl
    · rfl
theorem govSupply_avs (x : Nat) (s : Dev) : (govSupply x s).hdl.avsWrite =
    if s.hdl.avsWrite.isSome || vcoreWant s x == vcore s then s.hdl.avsWrite else some (vcoreWant s x) := by
  unfold govSupply
  extract_lets goal hi lo was s1 s2 want
  have h1 : s1.hdl = s.hdl := rfl
  have r1 : ∀ o, o ≠ R.HDL_STATUS → rg s1 o = rg s o := by
    intro o ho
    simp only [s1]
    rw [rg_setBit_ne _ _ _ ho, rg_setBit_ne _ _ _ ho]
  have h2 : s2.hdl = s.hdl := by
    simp only [s2]
    split
    · rw [postGov_hdl]; exact h1
    · exact h1
  have r2 : ∀ o, o ≠ R.HDL_STATUS → o ∉ postCounters → rg s2 o = rg s o := by
    intro o ho hp
    simp only [s2]
    split
    · rw [postGov_keepsReg hp]; exact r1 o ho
    · exact r1 o ho
  have ev : vcore s2 = vcore s := by
    unfold vcore
    rw [fld_ext F.HDL_VCORE_SET_MV (r2 _ (by decide) (by decide))]
  have ew : want = vcoreWant s x := by
    simp only [want]
    unfold vcoreWant
    rw [ev, fld_ext F.HDL_GOV_TARGET_TARGET (r2 _ (by decide) (by decide))]
  rw [h2, ev, ew]
  clear_value s2 s1
  by_cases c : (s.hdl.avsWrite.isSome || vcoreWant s x == vcore s) = true
  · rw [if_pos c, if_pos c, h2]
  · rw [if_neg c, if_neg c]; rfl
theorem govReading_avs (m : List Nat) (s : Dev) (x : Nat) (hx : fld (govReading m s) F.HDL_SPEED_INDEX = x) :
    (govReading m s).hdl.avsWrite = if s.hdl.avsWrite.isSome || vcoreWant s x == vcore s then s.hdl.avsWrite else some (vcoreWant s x) := by
  unfold govReading
  extract_lets l n y s1 s2 h0 s3
  have hx : fld (if y < 0x100 then govHold s3 else govRelease s3) F.HDL_SPEED_INDEX = x := hx
  have e1 : (if y < 0x100 then govHold s3 else govRelease s3).hdl.avsWrite = s2.hdl.avsWrite := by
    split
    · exact govHold_avs _
    · exact govRelease_avs _
  have e2 : s2.hdl.avsWrite = (govSupply y s1).hdl.avsWrite := govRisk_avs _ _
  have e3 : y = x := by
    rw [← hx]
    have : fld (if y < 0x100 then govHold s3 else govRelease s3) F.HDL_SPEED_INDEX = fld s1 F.HDL_SPEED_INDEX := by
      refine fld_ext _ ?_
      exact govRest_keepsReg (by decide) y s1
    rw [this]
    simp only [s1]
    rw [fld_setFld_self _ _ _ (by decide)]
    exact (Nat.mod_mod _ _).symm
  rw [e1, e2, govSupply_avs, e3]
  have r1 : ∀ o, o ≠ R.HDL_SPEED → rg s1 o = rg s o := by
    intro o ho
    simp only [s1]
    rw [rg_setFld_ne _ _ _ ho, rg_setFld_ne _ _ _ ho]
  have ev : vcore s1 = vcore s := by
    unfold vcore
    rw [fld_ext F.HDL_VCORE_SET_MV (r1 _ (by decide))]
  have ew : vcoreWant s1 x = vcoreWant s x := by
    unfold vcoreWant
    rw [ev, fld_ext F.HDL_GOV_TARGET_TARGET (r1 _ (by decide))]
  rw [ev, ew]; rfl
theorem govReading_keepsReg {o : Nat} (h : o ∉ govRegs) (h' : o ≠ R.HDL_SPEED) (m : List Nat) (s : Dev) : rg (govReading m s) o = rg s o := by
  unfold govReading
  extract_lets l n y s1 s2 h0 s3
  refine (govRest_keepsReg h y s1).trans ?_
  simp only [s1]
  rw [rg_setFld_ne _ _ _ h', rg_setFld_ne _ _ _ h']
theorem avsDone_none (mv : Nat) (d : Dev) (h : d.hdl.avsWrite = none) :
    ∃ x : Dev, avsDone true mv d = setFld F.HDL_VCORE_READ_MV mv { x with hdl.avsFails := 0 } ∧ x.hdl.avsWrite = none ∧ x.regs = d.regs ∧ x.sys = d.sys := by
  refine ⟨{ d with hdl.avsWrite := none }, ?_, rfl, rfl, rfl⟩
  unfold avsDone
  rw [h]; rfl
theorem avsDone_some (mv : Nat) (d : Dev) (v : Nat) (h : d.hdl.avsWrite = some v) :
    ∃ x : Dev, avsDone true mv d = setFld F.HDL_VCORE_READ_MV mv { x with hdl.avsFails := 0 } ∧ x.hdl.avsWrite = none ∧
      fld x F.HDL_VCORE_SET_MV = v % 1024 ∧ ∀ o, o ≠ R.HDL_VCORE → rg x o = rg d o := by
  refine ⟨setFld F.HDL_VCORE_SET_MV v { d with hdl.avsWrite := none }, ?_, rfl, fld_setFld_self F.HDL_VCORE_SET_MV _ _ (by decide), fun o ho => rg_setFld_ne _ _ _ ho⟩
  unfold avsDone
  rw [h]; rfl
theorem avsDone_failed (mv : Nat) (d : Dev) :
    ∃ w : Dev, avsDone false mv d = (if d.hdl.avsFails + 1 = 3 then postGov 2 0x07 0xFF (setBit F.HDL_STATUS_AVS_FAIL true w) else w) ∧ w.hdl.avsWrite = none ∧
      w.hdl.avsFails = d.hdl.avsFails + 1 ∧ (∀ o, o ≠ R.SUP_AVS_ERRORS → rg w o = rg d o) ∧
      (rg w R.SUP_AVS_ERRORS).toNat = min ((rg d R.SUP_AVS_ERRORS).toNat + 1) 0xFFFFFFFF := by
  refine ⟨bump R.SUP_AVS_ERRORS { d with hdl.avsWrite := none, hdl.avsFails := d.hdl.avsFails + 1 }, rfl, rfl, rfl, fun o ho => rg_bump_ne _ ho, ?_⟩
  rw [rg_bump_self, BitVec.toNat_ofNat]
  exact Nat.mod_eq_of_lt (Nat.lt_succ_of_le (Nat.min_le_right _ _))
theorem want_eq (x g v : Nat) (h8 : 650 ≤ v) (h9 : v ≤ 850) :
    (if x < 0x10A then max v (min 850 (v + 20)) else if x < g then max v (min 850 (v + 5)) else if g + 5 < x then min v (max 650 (v - 5)) else v) =
      if x < 0x10A then min 850 (v + 20) else if x < g then min 850 (v + 5) else if g + 5 < x then max 650 (v - 5) else v := by
  split
  · omega
  · split
    · omega
    · split <;> omega

theorem min1_toNat (a : Word) : (BitVec.ofNat 32 (min (a.toNat + 1) 0xFFFFFFFF)).toNat = min (a.toNat + 1) 0xFFFFFFFF := by
  rw [BitVec.toNat_ofNat]
  exact Nat.mod_eq_of_lt (Nat.lt_succ_of_le (Nat.min_le_right _ _))
/-- What leaves the host push port as it was. -/
def PortFrame (s s' : Dev) : Prop := (s'.que.resv, s'.que.dataLo) = (s.que.resv, s.que.dataLo)
theorem PortFrame.trans {a b c : Dev} (h : PortFrame a b) (h' : PortFrame b c) : PortFrame a c := Eq.trans h' h
theorem xlatTouch_port (k p : Nat) (s : Dev) : PortFrame s (xlatTouch k p s) := by
  unfold xlatTouch
  extract_lets key set ways q s'
  have h : PortFrame s s' := (rfl : PortFrame _ _)
  clear_value s'
  split
  · exact h
  · exact h.trans ((rfl : PortFrame _ _))

theorem mapPage_port (k p : Nat) (a b c : Bool) (s : Dev) : PortFrame s (mapPage k p a b c s) := by
  unfold mapPage
  split
  · exact (rfl : PortFrame _ _)
  · exact (rfl : PortFrame s s)

theorem demandPage_port (k p : Nat) (hw : Bool) (s : Dev) : PortFrame s (demandPage k p hw s).1 := by
  unfold demandPage
  split
  · exact xlatTouch_port k p s
  · split
    · exact (xlatTouch_port k p s).trans ((rfl : PortFrame _ _))
    · have h := (xlatTouch_port k p s).trans (mapPage_port k p false hw false _)
      revert h
      generalize mapPage k p false hw false (xlatTouch k p s) = x
      intro h
      simp only
      split
      · refine h.trans (PortFrame.trans (b := { x with plain := _ }) ((rfl : PortFrame _ _)) ((rfl : PortFrame _ _)))
      · exact h.trans ((rfl : PortFrame _ _))

theorem relWrite_port (k a : Nat) (bs : List Byte) (s : Dev) : PortFrame s (relWrite k a bs s) := by
  unfold relWrite
  split
  · exact (rfl : PortFrame _ _)
  · exact (rfl : PortFrame s s)

theorem ringWord_port (n : Nat) (r : Ring) (p v : Nat) (s : Dev) : PortFrame s (ringWord n r p v s).1 := by
  unfold ringWord
  extract_lets a
  have h := demandPage_port (ringObj n) (a / pageBytes) r.hostWrite s
  revert h
  generalize demandPage (ringObj n) (a / pageBytes) r.hostWrite s = x
  intro h
  rcases x with ⟨x, ok⟩
  simp only
  split
  · exact h.trans (relWrite_port _ _ _ _)
  · exact h

theorem ringStore_port (n : Nat) (r : Ring) (p : Nat) (ws : List Nat) (s : Dev) : PortFrame s (ringStore n r p ws s).1 := by
  induction ws generalizing p s with
  | nil => exact (rfl : PortFrame s s)
  | cons w ws ih =>
    unfold ringStore
    have h := ringWord_port n r p w s
    revert h
    generalize ringWord n r p w s = x
    intro h
    rcases x with ⟨x, ok⟩
    simp only
    split
    · exact h.trans (ih _ _)
    · exact h

theorem ringIrq_port (n b : Nat) (s : Dev) : PortFrame s (ringIrq n b s) := by
  unfold ringIrq
  split
  · exact (rfl : PortFrame s s)
  · split
    · split
      · split <;> exact (rfl : PortFrame _ _)
      · exact (rfl : PortFrame _ _)
    · exact (rfl : PortFrame s s)

theorem ringCommit_port (n : Nat) (ws : List Nat) (s : Dev) : PortFrame s (ringCommit n ws s).1 := by
  unfold ringCommit
  split
  · exact (rfl : PortFrame s s)
  · rename_i r hr
    simp only
    have h : PortFrame s (if (r.makeRoom ws.length (r.items.length + 1)).plain then
        ringStore n (r.makeRoom ws.length (r.items.length + 1)) (r.makeRoom ws.length (r.items.length + 1)).wpos ws s else (s, true)).1 := by
      split
      · exact ringStore_port _ _ _ _ _
      · exact (rfl : PortFrame s s)
    exact h.trans (PortFrame.trans ((rfl : PortFrame _ _)) (ringIrq_port _ _ _))

theorem routeItem_port (src : Nat) (ws : List Nat) (s : Dev) : PortFrame s (routeItem src ws s).1 := by
  unfold routeItem
  simp only
  split
  · exact ringCommit_port _ _ _
  · exact (rfl : PortFrame _ _)

theorem postPool_port (s : Dev) : PortFrame s (postPool s) := by
  unfold postPool
  split
  · split
    · exact PortFrame.trans (b := { s with pln.poolPosted := some s.raw }) ((rfl : PortFrame _ _)) (routeItem_port _ _ _)
    · exact (rfl : PortFrame s s)
  · exact PortFrame.trans (b := { s with pln.poolPosted := some s.raw }) ((rfl : PortFrame _ _)) (routeItem_port _ _ _)

/-- Posting an item. -/
theorem post_port (src typ data : Nat) (payload : List Nat) (s : Dev) : PortFrame s (post src typ data payload s) := by
  unfold post
  have h := routeItem_port src (itemHead typ src data payload.length :: payload) s
  revert h
  generalize routeItem src (itemHead typ src data payload.length :: payload) s = x
  intro h
  rcases x with ⟨x, ok⟩
  simp only
  split
  · exact h
  · exact h.trans (postPool_port x)

theorem postCode_port (src typ code low : Nat) (s : Dev) : PortFrame s (postCode src typ code low s) := post_port _ _ _ _ _

theorem tget_mem_isSome {α : Type} (m : Tbl α) (x : Nat × α) (h : x ∈ m) : thas m x.1 = true := by
  unfold thas
  induction m with
  | nil => cases h
  | cons a r ih =>
    unfold tget
    by_cases c : x.1 = a.1
    · rw [if_pos c]; rfl
    · rw [if_neg c]
      refine ih ?_
      rcases List.mem_cons.mp h with h | h
      · exact absurd (congrArg Prod.fst h) c
      · exact h
theorem find_same {α : Type} (m : Tbl α) : (m.find? fun y => !thas m y.1) = none := by
  rw [List.find?_eq_none]
  intro x hx
  rw [tget_mem_isSome m x hx]
  decide
theorem tget_none_ne {α : Type} (m : Tbl α) (n : Nat) (h : tget m n = none) : ∀ x ∈ m, x.1 ≠ n := by
  intro x hx e
  have := tget_mem_isSome m x hx
  unfold thas at this
  rw [e, h] at this
  cases this
theorem fld_ring_word (v : Word) (d : Dev) : fld (setRg R.QUE_PUSH_RING (v &&& 0x001F03FF) d) F.QUE_PUSH_RING_RING = v.toNat % 1024 ∧
    fld (setRg R.QUE_PUSH_RING (v &&& 0x001F03FF) d) F.QUE_PUSH_RING_WORDS = v.toNat / 65536 % 32 := by
  unfold fld
  have : rg (setRg R.QUE_PUSH_RING (v &&& 0x001F03FF) d) R.QUE_PUSH_RING = v &&& 0x001F03FF := rg_setRg_self _ _ _
  show F.QUE_PUSH_RING_RING.of (rg (setRg R.QUE_PUSH_RING (v &&& 0x001F03FF) d) R.QUE_PUSH_RING) = _ ∧ F.QUE_PUSH_RING_WORDS.of (rg (setRg R.QUE_PUSH_RING (v &&& 0x001F03FF) d) R.QUE_PUSH_RING) = _
  rw [this]
  unfold Fld.of
  rw [BitVec.toNat_and]
  constructor
  · show (v.toNat &&& 0x1F03FF) / 2 ^ 0 % 2 ^ 10 = v.toNat % 1024
    rw [Nat.pow_zero, Nat.div_one, Nat.and_mod_two_pow]
    show (v.toNat % 2 ^ 10) &&& (2 ^ 10 - 1) = v.toNat % 2 ^ 10
    rw [Nat.and_two_pow_sub_one_eq_mod, Nat.mod_mod]
  · show (v.toNat &&& 0x1F03FF) / 2 ^ 16 % 2 ^ 5 = v.toNat / 65536 % 32
    rw [Nat.and_div_two_pow, Nat.and_mod_two_pow]
    show (v.toNat / 2 ^ 16 % 2 ^ 5) &&& (2 ^ 5 - 1) = v.toNat / 2 ^ 16 % 2 ^ 5
    rw [Nat.and_two_pow_sub_one_eq_mod, Nat.mod_mod]
theorem pushResult_shows (c : Nat) (d : Dev) (h : c < 256) : fld (pushResult c d) F.QUE_PUSH_STATUS_RESULT = c ∧ (pushResult c d).que = d.que ∧
    (∀ o, o ≠ R.QUE_PUSH_STATUS → rg (pushResult c d) o = rg d o) ∧ fld (pushResult c d) F.QUE_PUSH_STATUS_OPEN = fld d F.QUE_PUSH_STATUS_OPEN ∧
    fld (pushResult c d) F.QUE_PUSH_STATUS_WRITTEN = fld d F.QUE_PUSH_STATUS_WRITTEN := by
  unfold pushResult
  refine ⟨?_, rfl, fun o ho => rg_setFld_ne _ _ _ ho, fld_setFld_disjoint _ _ _ _ (by decide) (by decide), fld_setFld_disjoint _ _ _ _ (by decide) (by decide)⟩
  rw [fld_setFld_self _ _ _ (by decide)]
  exact Nat.mod_eq_of_lt h
theorem popStatus_shows (a b c : Nat) (x : Dev) (ha : a < 2) (hb : b < 2) :
    fld (setFld F.QUE_POP_STATUS_IDLE a (setFld F.QUE_POP_STATUS_DENIED b (setFld F.QUE_POP_STATUS_CUT c x))) F.QUE_POP_STATUS_IDLE = a ∧
    fld (setFld F.QUE_POP_STATUS_IDLE a (setFld F.QUE_POP_STATUS_DENIED b (setFld F.QUE_POP_STATUS_CUT c x))) F.QUE_POP_STATUS_DENIED = b ∧
    (∀ o, o ≠ R.QUE_POP_STATUS → rg (setFld F.QUE_POP_STATUS_IDLE a (setFld F.QUE_POP_STATUS_DENIED b (setFld F.QUE_POP_STATUS_CUT c x))) o = rg x o) := by
  refine ⟨?_, ?_, fun o ho => ?_⟩
  · rw [fld_setFld_self _ _ _ (by decide)]
    exact Nat.mod_eq_of_lt ha
  · rw [fld_setFld_disjoint _ _ _ _ (by decide) (by decide), fld_setFld_self _ _ _ (by decide)]
    exact Nat.mod_eq_of_lt hb
  · rw [rg_setFld_ne _ _ _ ho, rg_setFld_ne _ _ _ ho, rg_setFld_ne _ _ _ ho]
theorem low_half (w : Nat) : (BitVec.ofNat 32 (w % 2 ^ 32)).toNat = w % 2 ^ 32 := by simp
theorem zero4 : leBytes 4 (0#32).toNat = [0, 0, 0, 0] := by decide
theorem onHandle_bad {kind : Nat} {x : Word} {d : Dev} {f : Nat → Dev → Dev × Reply} (h : hKind x ≠ kind ∨ objOf d x = none) : onHandle kind x f d = (d, fails x rcBadHandle) := by
  unfold onHandle
  refine if_neg fun q => ?_
  rcases h with h | h
  · exact h q.1
  · rw [h] at q; cases q.2
theorem onHandle_ok {kind : Nat} {x : Word} {d : Dev} {f : Nat → Dev → Dev × Reply} (h1 : hKind x = kind) (h2 : (objOf d x).isSome = true) : onHandle kind x f d = f (hIndex x) d := by
  unfold onHandle
  exact if_pos ⟨h1, h2⟩
theorem ringOnChip_of {d : Dev} {i : Nat} {r : Ring} (h : tget d.que.rings i = some r) : ringOnChip d i = !r.plain := by
  unfold ringOnChip
  rw [h]; rfl
theorem ringIrq_keeps (n b : Nat) (s : Dev) (r : Ring) (h : tget s.que.rings n = some r) : ∃ r', tget (ringIrq n b s).que.rings n = some r' ∧ r'.items = r.items ∧ r'.read = r.read ∧ r'.part = r.part := by
  unfold ringIrq
  rw [h]
  dsimp only
  split
  · split
    · split
      · exact ⟨_, tget_tput_self _ _ _, rfl, rfl, rfl⟩
      · exact ⟨_, tget_tput_self _ _ _, rfl, rfl, rfl⟩
    · exact ⟨_, tget_tput_self _ _ _, rfl, rfl, rfl⟩
  · exact ⟨r, h, rfl, rfl, rfl⟩

theorem fld_lt (s : Dev) (f : Fld) : fld s f < 2 ^ f.len := Nat.mod_lt _ (Nat.two_pow_pos _)
theorem leNat_lt (l : List Byte) : leNat l < 256 ^ l.length := by
  induction l with
  | nil => decide
  | cons b l ih =>
    have := b.isLt
    show b.toNat + 256 * leNat l < 256 ^ (l.length + 1)
    rw [Nat.pow_succ]
    omega
theorem at_lt (l : List Byte) (o n : Nat) : at_ l o n < 256 ^ n := by
  unfold at_
  refine Nat.lt_of_lt_of_le (leNat_lt _) (Nat.pow_le_pow_right (by decide) ?_)
  rw [List.length_take]
  exact Nat.min_le_left _ _
theorem rail_fits (r : Nat) : (F.SUP_RAIL_MV r).Fits ∧ (F.SUP_RAIL_MIN_MV r).Fits := by
  constructor
  · show (0 : Nat) + 16 ≤ 32; decide
  · show (16 : Nat) + 16 ≤ 32; decide
theorem bitsOf_get (n v i : Nat) (h : i < n) : (bitsOf n v)[i]? = some (Nat.testBit v i) := by
  unfold bitsOf
  rw [List.getElem?_map, List.getElem?_range h]
  simp [bit, Nat.testBit_eq_decide_div_mod_eq]
  rfl
theorem bitsOf_length (n v : Nat) : (bitsOf n v).length = n := by unfold bitsOf; simp
theorem tapTakes_of {d : Dev} (h1 : d.sys.mode = .reset) (h2 : d.sys.rstLow = true ∨ d.sys.testEn = true) : tapTakes d = true := by
  unfold tapTakes
  rcases h2 with h | h <;> simp [h1, h]
theorem tapTakes_not {d : Dev} (h : ¬(d.sys.mode = .reset ∧ (d.sys.rstLow = true ∨ d.sys.testEn = true))) : tapTakes d = false := by
  unfold tapTakes
  revert h
  cases d.sys.mode <;> cases d.sys.rstLow <;> cases d.sys.testEn <;> simp
theorem foldl_rails (mvs : List Nat) (l : List Nat) (hl : ∀ r, r ∈ l → r < 9) (hn : l.Nodup) : ∀ d : Dev,
    let e := l.foldl (fun s r =>
        let v := min (mvs.getD r 0) 65535
        setFld (F.SUP_RAIL_MV r) v (setFld (F.SUP_RAIL_MIN_MV r) (min v (fld s (F.SUP_RAIL_MIN_MV r))) s)) d
    e.sys = d.sys ∧ e.plain = d.plain ∧ (∀ r, r < 9 → r ∉ l → rg e (R.SUP_RAIL r) = rg d (R.SUP_RAIL r)) ∧
    ∀ r, r ∈ l → fld e (F.SUP_RAIL_MV r) = min (mvs.getD r 0) 65535 ∧
          fld e (F.SUP_RAIL_MIN_MV r) = min (min (mvs.getD r 0) 65535) (fld d (F.SUP_RAIL_MIN_MV r)) := by
  induction l with
  | nil => intro d; exact ⟨rfl, rfl, fun _ _ _ => rfl, fun r h => absurd h (List.not_mem_nil)⟩
  | cons a l ih =>
    intro d
    rw [List.foldl_cons]
    have ha : a < 9 := hl a (List.mem_cons_self ..)
    rw [List.nodup_cons] at hn
    generalize hv : min (mvs.getD a 0) 65535 = v
    have hv2 : v ≤ 65535 := hv ▸ Nat.min_le_right _ _
    obtain ⟨i1, i2, i3, i4⟩ := ih (fun r h => hl r (List.mem_cons_of_mem _ h)) hn.2 (setFld (F.SUP_RAIL_MV a) v (setFld (F.SUP_RAIL_MIN_MV a) (min v (fld d (F.SUP_RAIL_MIN_MV a))) d))
    have hm : fld d (F.SUP_RAIL_MIN_MV a) ≤ 65535 := by
      have := fld_lt d (F.SUP_RAIL_MIN_MV a)
      exact Nat.le_of_lt_succ this
    dsimp only
    refine ⟨i1, i2, fun r h g => ?_, fun r h => ?_⟩
    · have hne : r ≠ a := fun e => g (e ▸ List.mem_cons_self ..)
      have : R.SUP_RAIL r ≠ R.SUP_RAIL a := by unfold R.SUP_RAIL; omega
      rw [i3 r h (fun q => g (List.mem_cons_of_mem _ q)), rg_setFld_ne _ _ _ this, rg_setFld_ne _ _ _ this]
    · rcases List.mem_cons.mp h with rfl | h'
      · have q := i3 r ha hn.1
        have q1 : fld (setFld (F.SUP_RAIL_MV r) v (setFld (F.SUP_RAIL_MIN_MV r) (min v (fld d (F.SUP_RAIL_MIN_MV r))) d)) (F.SUP_RAIL_MV r) = v := by
          rw [fld_setFld_self (F.SUP_RAIL_MV r) _ _ (rail_fits r).1]
          exact Nat.mod_eq_of_lt (by show v < 65536; omega)
        have q2 : fld (setFld (F.SUP_RAIL_MV r) v (setFld (F.SUP_RAIL_MIN_MV r) (min v (fld d (F.SUP_RAIL_MIN_MV r))) d)) (F.SUP_RAIL_MIN_MV r) = min v (fld d (F.SUP_RAIL_MIN_MV r)) := by
          rw [fld_setFld_disjoint _ _ _ _ (rail_fits r).2 (Or.inl (by show (0 : Nat) + 16 ≤ 16; decide)), fld_setFld_self (F.SUP_RAIL_MIN_MV r) _ _ (rail_fits r).2]
          exact Nat.mod_eq_of_lt (by show _ < 65536; omega)
        exact ⟨(fld_ext _ q).trans (q1.trans hv.symm), (fld_ext _ q).trans (q2.trans (by rw [hv]))⟩
      · have hr : r < 9 := hl r h
        have hne : r ≠ a := fun e => hn.1 (e ▸ h')
        have : R.SUP_RAIL r ≠ R.SUP_RAIL a := by unfold R.SUP_RAIL; omega
        refine ⟨(i4 r h').1, (i4 r h').2.trans ?_⟩
        congr 1
        apply fld_ext
        show rg _ (R.SUP_RAIL r) = rg d (R.SUP_RAIL r)
        rw [rg_setFld_ne _ _ _ this, rg_setFld_ne _ _ _ this]
theorem sgn_unsgn16 (x : Int) (h1 : -32768 ≤ x) (h2 : x < 32768) : sgn 16 (unsgn 16 x % 65536) = x := by
  unfold sgn unsgn
  split <;> omega

theorem checkValue_nil (a : Nat) (h : a ≤ 4) : checkValue a none [] = if a = 3 then 0xFFFF else 0 := by
  have : ∀ a : Fin 5, checkValue a.val none [] = if a.val = 3 then 0xFFFF else 0 := by decide
  exact this ⟨a, by omega⟩
theorem bit01 (n : Nat) (h : n ≤ 1) : bit n 0 = decide (n = 1) := by
  have : n = 0 ∨ n = 1 := by omega
  rcases this with rfl | rfl <;> rfl
theorem chkRun_body (h : CmdHdr) (handle : Word) (b : List Byte) (d : Dev) (j : ChkJob) (hk : hKind handle = 0xC) (ho : (objOf d handle).isSome = true)
    (hj : tget d.chk.jobs (hIndex handle) = some j) (h1 : at_ b 0 1 ≤ 3) (h2 : at_ b 1 1 ≤ 1) (h3 : at_ b 2 2 = 0)
    (h4 : at_ b 0 1 = 1 → ptesOf d (if at_ b 4 4 = 0 then okey 0xC (hIndex handle) else hKey (BitVec.ofNat 32 (at_ b 4 4))) ≠ [] ∧
      (at_ b 4 4 ≠ 0 → (objOf d (BitVec.ofNat 32 (at_ b 4 4))).isSome = true)) :
    chkRun h handle b d =
      if scanSize d (at_ b 0 1) < at_ b 8 8 + at_ b 16 8 then (d, fails handle rcOutOfRange)
      else if at_ b 16 8 = 0 then
        let v := match (if bit (at_ b 1 1) 0 then some (at_ b 24 8) else none) with
          | some v => v % 2 ^ scanWidth j.alg
          | none => checkValue j.alg none []
        (bump R.CHK_SCANS { d with chk.shows := tput d.chk.shows (hIndex handle) { source := at_ b 0 1, pos := 0, result := v } }, done handle (leBytes 8 v ++ leBytes 8 0))
      else
        let x : Scan := { h := h, handle := handle, source := at_ b 0 1,
                          target := if at_ b 0 1 = 1 then some (if (BitVec.ofNat 32 (at_ b 4 4)) = 0 then okey 0xC (hIndex handle) else hKey (BitVec.ofNat 32 (at_ b 4 4))) else none,
                          start := at_ b 8 8, len := at_ b 16 8, seed := if bit (at_ b 1 1) 0 then some (at_ b 24 8) else none, began := d.raw }
        ({ d with
           chk.jobs := tput d.chk.jobs (hIndex handle) { j with scan := some x }
           chk.shows := tput d.chk.shows (hIndex handle) { ((tget d.chk.shows (hIndex handle)).getD {}) with source := at_ b 0 1, pos := 0 } }, .later) := by
  unfold chkRun
  dsimp only
  have hz : ∀ n, n < 2 ^ 32 → ((BitVec.ofNat 32 n : Word) = 0 ↔ n = 0) := by
    intro n hn
    constructor
    · intro e
      have := congrArg BitVec.toNat e
      rw [BitVec.toNat_ofNat, Nat.mod_eq_of_lt hn] at this
      exact this
    · rintro rfl; rfl
  have ht : at_ b 4 4 < 2 ^ 32 := by
    exact at_lt b 4 4
  rw [if_neg (by rw [hk, ← Option.not_isSome, ho]; simp), hj]
  dsimp only
  rw [if_neg (by omega)]
  refine (if_neg ?_).trans rfl
  rintro ⟨e1, e2⟩
  obtain ⟨g1, g2⟩ := h4 e1
  rcases e2 with ⟨e2, e3⟩ | e2
  · have e4 : at_ b 4 4 ≠ 0 := fun q => e2 ((hz _ ht).mpr q)
    rw [← Option.not_isSome, g2 e4] at e3
    cases e3
  · apply g1
    rw [← e2]
    congr 1
    by_cases q : at_ b 4 4 = 0
    · rw [if_pos q, if_pos ((hz _ ht).mpr q)]
    · rw [if_neg q, if_neg (fun z => q ((hz _ ht).mp z))]
theorem chkEnd_eq {n : Nat} {d : Dev} {j : ChkJob} {x : Scan} (hj : tget d.chk.jobs n = some j) (hx : j.scan = some x) (code pos : Nat) (result : Option Nat) (data : List Byte) :
    chkEnd n code pos result data d = complete x.h 0x800 code x.handle data (bump (if code = rcDone then R.CHK_SCANS else R.CHK_ABORTS) { d with
        chk.jobs := tput d.chk.jobs n { j with scan := none }
        chk.shows := tput d.chk.shows n { ((tget d.chk.shows n).getD {}) with pos := pos, result := result.getD ((tget d.chk.shows n).getD {}).result } }) := by
  unfold chkEnd
  rw [hj]; dsimp only; rw [hx]
theorem scanValue_spec (d : Dev) (alg : Nat) (x : Scan) (n : Nat) : ∃ k v, scanValue d alg x n = ({ d with free := k }, v) ∧
    (x.source = 0 → x.start + n ≤ storePages d * pageBytes → v = checkValue alg x.seed (plainBytes d x.start n)) ∧
    (∀ k, x.source = 1 → x.target = some k → v = checkValue alg x.seed (keyBytes d k x.start n)) ∧
    (x.source = 3 → v = checkValue alg x.seed (norBytes d x.start n)) := by
  unfold scanValue
  extract_lets free bs
  by_cases c : free = true
  · rw [if_pos c]
    refine ⟨_, _, rfl, fun h g => ?_, fun k h => ?_, fun h => ?_⟩
    · simp only [free, h] at c; simp at c; omega
    · simp only [free, h] at c; simp at c
    · simp only [free, h] at c; simp at c
  · rw [if_neg c]
    refine ⟨d.free, _, rfl, fun h g => ?_, fun k h g => ?_, fun h => ?_⟩
    · simp only [bs, h]
    · simp only [bs, h, g]; rfl
    · simp only [bs, h]
theorem chk_frame (d : Dev) (k : Nat) (J : Tbl ChkJob) (S : Tbl ChkShow) (o : Nat) :
    let e := bump o { d with free := k, chk.jobs := J, chk.shows := S }
    e.plain = d.plain ∧ e.sys = d.sys ∧ e.cmd = d.cmd ∧ e.chk.jobs = J ∧ e.chk.shows = S ∧ ∀ p, p ≠ o → rg e p = rg d p :=
  ⟨rfl, rfl, rfl, rfl, rfl, fun _ h => rg_bump_ne _ h⟩
theorem plnUncorr_chk (w : Nat) (s : Dev) : (plnUncorr w s).chk = s.chk := by
  unfold plnUncorr
  exact (congrArg (·.chk) (postCode_frame _ _ _ _ _).1).trans rfl
theorem spmUncorr_chk (w : Nat) (s : Dev) : (spmUncorr w s).chk = s.chk := by
  unfold spmUncorr
  exact (congrArg (·.chk) (postCode_frame _ _ _ _ _).1).trans rfl
/-- The registers whose write has an effect of its own. -/
def writeSpecial : List Nat := [R.SYS_RESET, R.BOOT_REVOKE, R.BOOT_FW_CTRL, R.SUP_VMON_STOP, R.SUP_VMON_HOLD, R.SUP_TEMP_WARN, R.HDL_GOV_TARGET, R.HDL_CMP_HEAD,
  R.QUE_PUSH_RING, R.QUE_PUSH_DATA_LO, R.QUE_PUSH_DATA_HI, R.QUE_PUSH_COMMIT, R.QUE_POP_CTRL, R.PLN_XLAT_ADDR, R.TIM_LATCH]
theorem writeReg_plain {off : Nat} {v : Word} {d : Dev} (hw : bar0Writable d off = true) (ho : off ∉ writeSpecial) :
    writeReg off v d = (writeIndexed off v d).getD (storeReg off v d) := by
  simp only [writeSpecial, List.mem_cons, not_or, List.not_mem_nil] at ho
  obtain ⟨a1, a2, a3, a4, a5, a6, a7, a8, a9, a10, a11, a12, a13, a14, a15, -⟩ := ho
  unfold writeReg
  rw [hw, if_neg (by decide), if_neg a1, if_neg a2, if_neg a3, if_neg (not_or.mpr ⟨a4, a5⟩), if_neg a6, if_neg a7, if_neg a8, if_neg a9, if_neg a10, if_neg a11, if_neg a12,
    if_neg a13, if_neg a14, if_neg a15]
theorem calPick_one (item inst : Nat) (h1 : item ≠ 0xFF) (h2 : inst ≠ 0xFF) : calPick item inst = if inst < calCount item then some [(item, inst)] else none := by
  unfold calPick
  rw [if_neg h1]
  by_cases c : calCount item = 0
  · rw [if_pos c, if_neg (by omega)]
  · rw [if_neg c, if_neg h2]
theorem calRepeat_key (a b item inst : Nat) (s : Dev) :
    tget (calRepeat [(item, inst, a, b)] (item, inst) s).cal.insts (calKey item inst) = some (calibrated item inst (sgn 32 a) (sgn 32 b)) ∧
    (calRepeat [(item, inst, a, b)] (item, inst) s).sys = s.sys := by
  unfold calRepeat
  extract_lets was x
  have hx : tget x.cal.insts (calKey item inst) = some (calibrated item inst (sgn 32 a) (sgn 32 b)) ∧ x.sys = s.sys := by
    simp only [x]
    unfold calMeasure calReading
    simp
  clear_value x
  split
  · exact ⟨(congrArg (fun q => tget q.cal.insts (calKey item inst)) (postCode_frame _ _ _ _ _).1).trans hx.1, (postCode_frame _ _ _ _ _).sys.trans hx.2⟩
  · exact hx
/-- A step that keeps the calibration. -/
abbrev KeepsCal (s s' : Dev) : Prop := s'.cal = s.cal
theorem foldl_keepsCal {α : Type} (f : Dev → α → Dev) (h : ∀ s a, KeepsCal s (f s a)) (l : List α) (s : Dev) : KeepsCal s (l.foldl f s) := by
  induction l generalizing s with
  | nil => rfl
  | cons a l ih => exact (ih _).trans (h s a)
theorem endPause_cal (n : Nat) (t : Time) (s : Dev) : KeepsCal s (endPause n t s) := by
  unfold endPause
  extract_lets p
  split <;> rfl
theorem dropLink_cal (n : Nat) (s : Dev) : KeepsCal s (dropLink n s) := (rfl : KeepsCal _ _).trans (endPause_cal n s.raw s)
theorem segHas_none {l : Segs} {p : Nat} (h : segHas l p = false) : [p].eraseDups.filter (fun q => segHas l q) = [] := by
  simp [List.eraseDups, List.eraseDupsBy, List.eraseDupsBy.loop, h]

theorem recal_one (item inst a b : Nat) (d : Dev) (hp : calPick item inst = some [(item, inst)]) (h5 : item ≠ 5) (h7 : item ≠ 7) :
    ∃ e, recalibrate item inst [(item, inst, a, b)] d = (e, done 0 (leBytes 2 1 ++ leBytes 2 (if (calibrated item inst (sgn 32 a) (sgn 32 b)).suspect then 1 else 0))) ∧
      tget e.cal.insts (calKey item inst) = some (calibrated item inst (sgn 32 a) (sgn 32 b)) ∧ (item ≠ 4 → e.sys = d.sys) := by
  have hl : calLinks (item, inst) = [] := by
    unfold calLinks
    rw [if_neg h5, if_neg (fun h => h7 (congrArg Prod.fst h))]
  obtain ⟨k1, k2⟩ := calRepeat_key a b item inst d
  unfold recalibrate
  rw [hp]
  dsimp only
  rw [List.foldl_cons, List.foldl_nil]
  rw [hl, List.filter_nil, List.foldl_nil]
  generalize calRepeat [(item, inst, a, b)] (item, inst) d = x at k1 k2 ⊢
  have hc := foldl_keepsCal (fun s n => dropLink n s) (fun s n => dropLink_cal n s) ((calPorts (item, inst)).filter (portOn x)) x
  have hs : item ≠ 4 → ((calPorts (item, inst)).filter (portOn x)).foldl (fun s n => dropLink n s) x = x := by
    intro h4
    have : calPorts (item, inst) = [] := by
      unfold calPorts
      rw [if_neg h4, if_neg (fun h => h7 (congrArg Prod.fst h))]
    rw [this]; rfl
  generalize List.foldl (fun s n => dropLink n s) x _ = y at hc hs ⊢
  have hy : tget y.cal.insts (calKey item inst) = some (calibrated item inst (sgn 32 a) (sgn 32 b)) := by rw [hc]; exact k1
  refine ⟨y, ?_, hy, fun h => by rw [hs h]; exact k2⟩
  congr 4
  rw [List.filter_cons, hy]
  cases h : (calibrated item inst (sgn 32 a) (sgn 32 b)).suspect <;> simp [h]
theorem retireFree_shows (p : Nat) (s : Dev) (h : segHas s.pln.free p = true) : (retireFree p s).pln.retired = s.pln.retired ++ [p] ∧ (retireFree p s).sys = s.sys ∧
    (rg (retireFree p s) R.PLN_RETIRED).toNat = min ((rg s R.PLN_RETIRED).toNat + 1) 0xFFFFFFFF := by
  unfold retireFree freePage
  rw [if_pos h, if_pos rfl]
  refine ⟨?_, (postCode_frame _ _ _ _ _).sys, ?_⟩
  · exact (congrArg (fun q => q.2.2.2.2.2) (postCode_scrub _ _ _ _ _)).trans rfl
  · rw [(postCode_frame _ _ _ _ _).2 _ (by decide), rg_bump_self, BitVec.toNat_ofNat]
    exact Nat.mod_eq_of_lt (Nat.lt_succ_of_le (Nat.min_le_right _ _))
theorem eraseDups_one {α : Type} [BEq α] (a : α) : [a].eraseDups = [a] := by
  simp [List.eraseDups, List.eraseDupsBy, List.eraseDupsBy.loop]
theorem postBist_retired (a b : Nat) (s : Dev) : (postBist a b s).pln.retired = s.pln.retired ∧ (postBist a b s).beside = s.beside ∧ ∀ o, o ∉ postCounters → rg (postBist a b s) o = rg s o := by
  unfold postBist
  split
  · exact ⟨rfl, rfl, fun _ _ => rfl⟩
  · exact ⟨congrArg (fun q => q.2.2.2.2.2) (postCode_scrub _ _ _ _ _), (postCode_frame _ _ _ _ _).1, (postCode_frame _ _ _ _ _).2⟩

theorem shortTest_none (n : Nat) (s : Dev) : (shortTest n [] s).pxp = s.pxp ∧ ∀ o, o ≠ R.PXP_SHORT n → rg (shortTest n [] s) o = rg s o := by
  unfold shortTest
  simp
  exact fun o h => rg_setRg_ne _ _ h
theorem foldl_short (n : Nat) (pins : List Nat) (l : List Nat) (hn : l.Nodup) (hl : ∀ m, m ∈ l → m < 8) (hm : n < 8) : ∀ s : Dev,
    let e := l.foldl (fun s m => shortTest m (if m = n then pins else []) s) s
    (n ∉ l → e.pxp = s.pxp ∧ rg e (R.PXP_SHORT n) = rg s (R.PXP_SHORT n)) ∧
    (n ∈ l → ∃ w : Dev, e.pxp = (shortTest n pins w).pxp ∧ rg e (R.PXP_SHORT n) = rg (shortTest n pins w) (R.PXP_SHORT n)) := by
  induction l with
  | nil => intro s; exact ⟨fun _ => ⟨rfl, rfl⟩, fun h => absurd h List.not_mem_nil⟩
  | cons a l ih =>
    intro s
    rw [List.nodup_cons] at hn
    have ih := ih hn.2 (fun m h => hl m (List.mem_cons_of_mem _ h)) (shortTest a (if a = n then pins else []) s)
    dsimp only
    rw [List.foldl_cons]
    refine ⟨fun h => ?_, fun h => ?_⟩
    · rw [List.mem_cons, not_or] at h
      obtain ⟨i1, i2⟩ := ih.1 h.2
      have hne : a ≠ n := fun e => h.1 e.symm
      rw [if_neg hne] at i1 i2
      rw [if_neg hne]
      refine ⟨i1.trans (shortTest_none a s).1, i2.trans ((shortTest_none a s).2 _ ?_)⟩
      have := hl a (List.mem_cons_self ..)
      show 0x240018 + 0x1000 * n ≠ 0x240018 + 0x1000 * a
      omega
    · by_cases c : a = n
      · subst c
        obtain ⟨i1, i2⟩ := ih.1 hn.1
        rw [if_pos rfl] at i1 i2
        rw [if_pos rfl]
        exact ⟨s, i1, i2⟩
      · rcases List.mem_cons.mp h with h | h
        · exact absurd h.symm c
        · exact ih.2 h

theorem shortTest_one (n pin : Nat) (hp : pin < 10) (w : Dev) : (pxAt (shortTest n [pin] w) n).disabled = true ∧ (rg (shortTest n [pin] w) (R.PXP_SHORT n)).getLsbD pin = true := by
  unfold shortTest
  extract_lets bits s1
  have hb : ∀ k : Fin 10, ((List.range 11).map fun i => if [k.val].contains i ∧ ¬(i = 10 ∧ n = 7) then 2 ^ i else 0).sum = 2 ^ k.val := by
    have : ∀ k : Fin 10, ((List.range 11).map fun i => if [k.val].contains i then 2 ^ i else 0).sum = 2 ^ k.val := by decide
    intro k
    rw [← this k]
    congr 1
    apply List.map_congr_left
    intro i hi
    by_cases c : [k.val].contains i = true
    · have : i = k.val := by simpa using c
      have : i ≠ 10 := by omega
      simp [c, this]
    · rw [if_neg (fun h => c h.1), if_neg c]
  have hb2 : bits = 2 ^ pin := hb ⟨pin, hp⟩
  have hpos : 0 < 2 ^ pin := Nat.two_pow_pos _
  have hlsb : ∀ k : Fin 10, (BitVec.ofNat 32 (2 ^ k.val + 2048)).getLsbD k.val = true := by decide
  have hlsb := hlsb ⟨pin, hp⟩
  dsimp only at hlsb
  rw [← hb2] at hpos hlsb
  have h1 : rg s1 (R.PXP_SHORT n) = BitVec.ofNat 32 (bits + 2048) := rg_setRg_self _ _ _
  clear_value s1 bits
  rw [if_neg (by omega)]
  refine ⟨by rw [pxAt_setPx], ?_⟩
  show (rg s1 (R.PXP_SHORT n)).getLsbD pin = true
  rw [h1]; exact hlsb
theorem foldl_modLine (l : List Nat) (f : Nat → Line → Line) : ∀ s : Dev, let e := l.foldl (fun s n => modLine n (f n) s) s; e.pxp = s.pxp ∧ e.regs = s.regs ∧ e.sys = s.sys := by
  induction l with
  | nil => intro s; exact ⟨rfl, rfl, rfl⟩
  | cons a l ih =>
    intro s
    have h : (modLine a (f a) s).pxp = s.pxp := by unfold modLine setLine; split <;> rfl
    obtain ⟨i1, i2, i3⟩ := ih (modLine a (f a) s)
    exact ⟨i1.trans h, i2.trans (modLine_regs _ _ _), i3.trans (modLine_sys _ _ _)⟩
theorem foldl_short_sys (f : Nat → List Nat) (l : List Nat) : ∀ s : Dev, (l.foldl (fun s m => shortTest m (f m) s) s).sys = s.sys := by
  induction l with
  | nil => intro s; rfl
  | cons a l ih => intro s; exact (ih _).trans (shortTest_sys _ _ _)
theorem bistPins_one (n pin : Nat) (hn : n < 8) (hp : pin < 10) (d : Dev) : ∃ e, bistPins [(n, pin)] d = (e, done 0 (leBytes 4 1)) ∧
    (pxAt e n).disabled = true ∧ (rg e (R.PXP_SHORT n)).getLsbD pin = true ∧ e.sys = d.sys := by
  unfold bistPins
  extract_lets l s1 s2
  have hl : l = [(n, pin)] := by
    show ([(n, pin)].eraseDups).filter _ = _
    rw [eraseDups_one, List.filter_cons, if_pos (by simp; omega)]; rfl
  have hm : ∀ m, (l.filter (·.1 == m)).map (·.2) = if m = n then [pin] else [] := by
    intro m
    rw [hl]
    by_cases c : m = n
    · subst c; simp
    · have : n ≠ m := fun e => c e.symm
      simp [c, this]
  have h1 : ∃ w : Dev, s1.pxp = (shortTest n [pin] w).pxp ∧ rg s1 (R.PXP_SHORT n) = rg (shortTest n [pin] w) (R.PXP_SHORT n) := by
    have q := (foldl_short n [pin] (List.range 8) List.nodup_range (fun m h => List.mem_range.mp h) hn d).2 (List.mem_range.mpr hn)
    have e : s1 = (List.range 8).foldl (fun s m => shortTest m (if m = n then [pin] else []) s) d := by
      refine congrArg (fun f => List.foldl f d (List.range 8)) ?_
      funext s m
      exact congrArg (fun q => shortTest m q s) (hm m)
    rw [e]; exact q
  have h1s : s1.sys = d.sys := foldl_short_sys _ _ _
  clear_value s1
  have h2 : s2.pxp = s1.pxp ∧ s2.regs = s1.regs ∧ s2.sys = s1.sys :=
    foldl_modLine (List.range 2) (fun m x => { x with short := x.short || l.any (·.1 == 8 + m) }) s1
  clear_value s2
  obtain ⟨w, w1, w2⟩ := h1
  have h3 := postBist_retired 2 l.length s2
  obtain ⟨g1, g2⟩ := shortTest_one n pin hp w
  refine ⟨postBist 2 l.length s2, by rw [hl]; rfl, ?_, ?_, ?_⟩
  · unfold pxAt at g1 ⊢
    have hh : (postBist 2 l.length s2).pxp = s2.pxp := congrArg (·.pxp) h3.2.1
    rw [hh, h2.1, w1]; exact g1
  · rw [h3.2.2 _ ?_, rg_congr h2.2.1, w2]
    · exact g2
    · show 0x240018 + 0x1000 * n ∉ postCounters
      intro h
      have q : ∀ p, p ∈ postCounters → p < 0x240018 := by decide
      have := q _ h
      omega
  · exact (congrArg (·.sys) h3.2.1).trans (h2.2.2.trans h1s)

end Sys2Proof.Machine
end

