-- ==== Sys2Proof/Laws/Raster.lean ====
section
/-! SUPPORT. Canvases, inputs and outputs: what their operations do. -/

namespace Sys2Proof.Machine

theorem nat_of_ofNat_min (a : Nat) : (BitVec.ofNat 32 (min (a + 1) 0xFFFFFFFF)).toNat = min (a + 1) 0xFFFFFFFF := by
  rw [BitVec.toNat_ofNat]
  exact Nat.mod_eq_of_lt (Nat.lt_succ_of_le (Nat.min_le_right _ _))
theorem videoRx_none (p : VideoPkt) (l : List (Nat × Stream)) (h : ∀ e, e ∈ l → streamMatch p e.2 = false) : ∀ d : Dev,
    l.foldl (fun s e =>
    if !streamMatch p e.2 then s
    else if s.sys.mode = .hold then
      (if formatMatch p e.2 && p.marker then bump R.SYS_HOLD_DROPS s else s)
    else if formatMatch p e.2 then streamPacket e.1 e.2 p s
    else bump (R.PKT_ING_FORMAT_DROPS e.1) s) d = d := by
  induction l with
  | nil => intro d; rfl
  | cons a l ih =>
    intro d
    rw [List.foldl_cons, h a (List.mem_cons_self ..), if_pos (by rfl)]
    exact ih (fun e he => h e (List.mem_cons_of_mem _ he)) d
theorem videoRx_one {p : VideoPkt} {i : Nat} {x : Stream} {d : Dev} (hs : d.vid.streams = [(i, x)]) (hm : streamMatch p x = true) : videoRx p d =
    if d.sys.mode = .hold then (if formatMatch p x && p.marker then bump R.SYS_HOLD_DROPS d else d)
    else if formatMatch p x then streamPacket i x p d else bump (R.PKT_ING_FORMAT_DROPS i) d := by
  unfold videoRx
  rw [hs, List.foldl_cons, List.foldl_nil]
  rw [hm, if_neg (by decide)]
theorem writeBand_canvas (i : Nat) (c : Canvas) (p : Pass) (s : Dev) : (∃ q, canvasAt (writeBand i c p s) i = some { c with pass := some q } ∧ q.band = p.band + 1 ∧ q.frame = p.frame ∧
          q.layers = p.layers) ∧ (writeBand i c p s).sys = s.sys := by
  unfold writeBand
  extract_lets pts buf fr s1 s2 shown fetch all
  have h1 : s1.noPlain = s.noPlain := foldl_noPlain _ (fun s e => relWrite_noPlain _ _ _ _) _ _
  have h2 : s2.sys = s.sys := (congrArg (·.sys) h1)
  clear_value s2
  refine ⟨⟨_, tget_tput_self _ _ _, rfl, rfl, rfl⟩, h2⟩
theorem abort_all (i : Nat) (c : Canvas) (p : Pass) (d : Dev) (b : Option Nat) :
    (∃ u, canvasAt (postBands i b (abortPass i c p d)) i = some { c with pass := none, aborted := some p.frame, lastUnderrun := u }) ∧
      (rg (postBands i b (abortPass i c p d)) (R.RAS_CANVAS_ABORTS i)).toNat = min ((rg d (R.RAS_CANVAS_ABORTS i)).toNat + 1) 0xFFFFFFFF ∧
      (postBands i b (abortPass i c p d)).sys = d.sys := by
  obtain ⟨⟨u, h1⟩, h2⟩ := abortPass_spec i c p d
  have h3 : (abortPass i c p d).sys = d.sys := by
    unfold abortPass
    extract_lets due s1
    split
    · exact (postCode_frame _ _ _ _ _).sys.trans rfl
    · rfl
  refine ⟨⟨u, (postBands_canvas i i b _).trans h1⟩, ?_, ?_⟩
  · rw [postBands_keepsReg (by show 0x220124 + 0x40 * i ≠ 0x70038; omega) i b _, h2, nat_of_ofNat_min]
  · exact (congrArg (·.sys) (postBands_rest i b (abortPass i c p d))).trans h3

theorem spmLost_aborts (a b i : Nat) (d : Dev) : rg (spmLost a b d) (R.RAS_CANVAS_ABORTS i) = rg d (R.RAS_CANVAS_ABORTS i) := by
  unfold spmLost spmUncorr
  have h : 0x220124 + 0x40 * i ∉ postCounters := not_postCounter (o := 0x220124 + 0x40 * i) (by omega)
  refine ((postCode_frame _ _ _ _ _).2 _ h).trans ((lifeUp_keepsReg _ _ _).trans ?_)
  rw [rg_setBit_ne _ _ _ ?_, rg_setFld_ne _ _ _ ?_, rg_setBit_ne _ _ _ ?_, rg_bump_ne _ ?_]
  · rfl
  · show 0x220124 + 0x40 * i ≠ 0xA0008; omega
  · show 0x220124 + 0x40 * i ≠ 0x2C; omega
  · show 0x220124 + 0x40 * i ≠ 0xA000C; omega
  · show 0x220124 + 0x40 * i ≠ 0xA000C; omega
theorem phi_shift (c : Canvas) (now n : Int) (k : Nat) (h : n = c.nextN + (k : Int)) :
    ({ c with nextN := c.nextN + 1, phis := c.phis.drop 1 ++ [now] } : Canvas).phiAt now n = c.phiAt now n := by
  subst h
  unfold Canvas.phiAt
  dsimp only
  have e : (c.nextN + (k : Int) + 1 - c.nextN).toNat = k + 1 := by omega
  rw [if_neg (show ¬ c.nextN + (k : Int) < c.nextN by omega), e]
  have key : ∀ j : Nat, (c.phis.drop 1 ++ [now]).getD j now = c.phis.getD (j + 1) now := by
    intro j
    rw [List.getD_eq_getElem?_getD, List.getD_eq_getElem?_getD]
    by_cases hj : j < (c.phis.drop 1).length
    · rw [List.getElem?_append_left hj, List.getElem?_drop, Nat.add_comm]
    · rw [List.getElem?_append_right (by omega)]
      have h2 : c.phis.length ≤ j + 1 := by rw [List.length_drop] at hj; omega
      rw [List.getElem?_eq_none (l := c.phis) h2]
      cases h3 : j - (c.phis.drop 1).length with
      | zero => rfl
      | succ q => rfl
  cases k with
  | zero =>
    rw [if_pos (by omega)]
    have := key 0
    cases hl : c.phis.drop 1 ++ [now] with
    | nil => simp at hl
    | cons a l => rw [hl] at this; exact this
  | succ k =>
    rw [if_neg (by omega)]
    have e2 : (c.nextN + ((k + 1 : Nat) : Int) + 1 - (c.nextN + 1)).toNat = k + 1 := by omega
    rw [e2]
    exact key (k + 1)
theorem latchStream_rest (k : Nat) (n : Int) (s : Dev) : (latchStream k n s).sys = s.sys ∧ (latchStream k n s).plain = s.plain ∧
    (latchStream k n s).vid.canvases = s.vid.canvases ∧ (latchStream k n s).outp = s.outp ∧ (latchStream k n s).pxp = s.pxp ∧ (latchStream k n s).tim = s.tim ∧ (latchStream k n s).raw = s.raw := by
  unfold latchStream
  split
  · exact ⟨rfl, rfl, rfl, rfl, rfl, rfl, rfl⟩
  · split
    · exact ⟨rfl, rfl, rfl, rfl, rfl, rfl, rfl⟩
    · split
      · exact ⟨rfl, rfl, rfl, rfl, rfl, rfl, rfl⟩
      · exact ⟨rfl, rfl, rfl, rfl, rfl, rfl, rfl⟩
theorem latchStreams_rest (l : List Nat) (n : Int) : ∀ s : Dev, let e := l.foldl (fun s k => latchStream k n s) s
    e.sys = s.sys ∧ e.plain = s.plain ∧ e.vid.canvases = s.vid.canvases ∧ e.outp = s.outp ∧ e.pxp = s.pxp ∧ e.tim = s.tim ∧ e.raw = s.raw := by
  induction l with
  | nil => intro s; exact ⟨rfl, rfl, rfl, rfl, rfl, rfl, rfl⟩
  | cons a l ih =>
    intro s
    obtain ⟨i1, i2, i3, i4, i5, i6, i7⟩ := ih (latchStream a n s)
    obtain ⟨j1, j2, j3, j4, j5, j6, j7⟩ := latchStream_rest a n s
    exact ⟨i1.trans j1, i2.trans j2, i3.trans j3, i4.trans j4, i5.trans j5, i6.trans j6, i7.trans j7⟩
theorem startPass_shows {i : Nat} {n : Int} {s : Dev} {c : Canvas} (hc : canvasAt s i = some c) :
    (∃ q, canvasAt (startPass i n s) i = some { c with pend1 := c.pend2, pend2 := false, pass := some q } ∧
      q.frame = n + c.timing.lead ∧ q.latch = n ∧ q.band = 0 ∧ q.bg = c.bg ∧ q.points = c.points.map fun e => (e.1, e.2.1, e.2.2.1)) ∧
    (startPass i n s).sys = s.sys ∧ (startPass i n s).plain = s.plain ∧ (startPass i n s).outp = s.outp ∧ (startPass i n s).pxp = s.pxp ∧ (startPass i n s).tim = s.tim := by
  unfold startPass
  rw [hc]
  dsimp only
  generalize hw : setCanvas i { c with pend1 := c.pend2, pend2 := false } (stepLayers i s) = w
  have w0 : w.sys = s.sys ∧ w.plain = s.plain ∧ w.outp = s.outp ∧ w.pxp = s.pxp ∧ w.tim = s.tim ∧ canvasAt w i = some { c with pend1 := c.pend2, pend2 := false } := by
    subst hw
    exact ⟨rfl, rfl, rfl, rfl, rfl, tget_tput_self _ _ _⟩
  clear hw
  obtain ⟨w1, w2, w3, w4, w5, w6⟩ := w0
  have h := latchStreams_rest ((layersOf w i).filterMap fun e => e.2.source).eraseDups n w
  generalize ((layersOf w i).filterMap fun e => e.2.source).eraseDups.foldl (fun s k => latchStream k n s) w = v at h ⊢
  obtain ⟨v1, v2, v3, v4, v5, v6, v7⟩ := h
  have hv : canvasAt v i = some { c with pend1 := c.pend2, pend2 := false } := (congrArg (fun q => tget q i) v3).trans w6
  rw [hv]
  dsimp only
  exact ⟨⟨_, tget_tput_self _ _ _, rfl, rfl, rfl, rfl, rfl⟩, v1.trans w1, v2.trans w2, v4.trans w3, v5.trans w4, v6.trans w5⟩
/-- A device without universes, maps and held actions. -/
def Bare (w : Dev) : Prop := w.outp.univs = [] ∧ w.outp.ghosts = [] ∧ w.pxp.ports = [] ∧ w.tim.actions = []
theorem bare_ghosts {w : Dev} (h : Bare w) : clearGhosts w = w := by
  unfold clearGhosts
  extract_lets stays
  rw [h.2.1, List.filter_nil, List.filter_nil, List.foldl_nil]
  have h2 := h.2.1
  cases w with
  | mk raw free out regs plain nor sys hdl pln sch que tim vid outp =>
    cases outp
    subst h2
    rfl
theorem bare_terms {w : Dev} (h : Bare w) (i : Nat) (n : Int) : sendTerms i n w = w := by
  unfold sendTerms
  extract_lets mine one own
  have e1 : own = [] := by simp only [own, mine]; rw [h.1]; rfl
  have e2 : mine (w.outp.ghosts.map fun e => (e.1, e.2.1)) = [] := by simp only [mine]; rw [h.2.1]; rfl
  rw [e1, e2]; rfl
theorem bare_count {w : Dev} (h : Bare w) (i : Nat) : countHeld i w = w := by
  unfold countHeld heldAction
  rw [h.2.2.2]; rfl
theorem bare_sync {w : Dev} (h : Bare w) (i : Nat) (n : Int) : noSync i n w = w := by
  unfold noSync
  extract_lets ports
  have : ports = [] := by simp only [ports]; rw [h.1]; rfl
  rw [this]; rfl
theorem bare_latch {w : Dev} {c c' : Canvas} {i : Nat} {n f : Int} (hc : canvasAt w i = some c) (h : Bare w) (hh : w.red.handover = none) (hk : ckptMay w = false)
    (hp : ∃ x, tickPass i c n f w = x ∧ Bare x ∧ canvasAt x i = some c') : latchTick i n f w = tickPass i c n f w := by
  obtain ⟨x, hx, hb, hc'⟩ := hp
  unfold latchTick
  rw [hc]
  dsimp only
  have e1 : handoverTick f n w = w := by unfold handoverTick; rw [hh]
  have e2 : ckptTick f w = w := by unfold ckptTick; rw [hk]; rfl
  rw [e1, ite_self, e2, ite_self, hx]
  have e3 : migTicks i f n x = x := by unfold migTicks univsOn; rw [hb.1]; rfl
  rw [e3, hc']
  dsimp only
  have e4 : univsOn x i = [] := by unfold univsOn; rw [hb.1]; rfl
  have e5 : mapsOn x i = [] := by unfold mapsOn; rw [hb.2.2.1]; rfl
  rw [e4, List.foldl_nil, e5, List.foldl_nil, bare_terms hb, bare_ghosts hb, ite_self, bare_count hb, bare_sync hb]
theorem bare_tick {d : Dev} {c c' : Canvas} {i : Nat} (hc : canvasAt d i = some c) (hr : c.regrid = none) (hs : c.switch = none) (hb : Bare d) (hh : d.red.handover = none)
    (hk : ckptMay d = false) (hd : tickAt d c c.nextN ≤ canvasTime d c + (ns 5 : Nat))
    (hp : ∃ x, tickPass i { c with nextN := c.nextN + 1, phis := c.phis.drop 1 ++ [phiOf d c] } c.nextN (c.nextN + c.timing.lead)
      (setCanvas i { c with nextN := c.nextN + 1, phis := c.phis.drop 1 ++ [phiOf d c] } d) = x ∧ Bare x ∧ canvasAt x i = some c') :
    fireTick i d = tickPass i { c with nextN := c.nextN + 1, phis := c.phis.drop 1 ++ [phiOf d c] } c.nextN (c.nextN + c.timing.lead)
      (setCanvas i { c with nextN := c.nextN + 1, phis := c.phis.drop 1 ++ [phiOf d c] } d) := by
  have hpg : c.pendingGrid = none := by unfold Canvas.pendingGrid; rw [hr]; rfl
  have hl := bare_latch (w := setCanvas i { c with nextN := c.nextN + 1, phis := c.phis.drop 1 ++ [phiOf d c] } d)
    (c := { c with nextN := c.nextN + 1, phis := c.phis.drop 1 ++ [phiOf d c] }) (tget_tput_self _ _ _) hb hh hk hp
  rw [← hl]
  unfold fireTick
  rw [hc]
  dsimp only
  rw [hpg, hr]
  dsimp only
  rw [if_pos hd]
  unfold newTick
  dsimp only
  have hw : Option.filter (fun w : Switch => w.tick == c.nextN) c.switch = none := by rw [hs]; rfl
  rw [hw]
  dsimp only
  rw [show canvasAt (setCanvas i { c with nextN := c.nextN + 1, phis := c.phis.drop 1 ++ [phiOf d c] } d) i = some _ from tget_tput_self _ _ _]
  dsimp only
  rw [hr]
  rfl

/-- A step that changes the trace alone. -/
def OutOnly (s e : Dev) : Prop := { e with out := [] } = { s with out := [] }
theorem OutOnly.refl (s : Dev) : OutOnly s s := rfl
theorem OutOnly.trans {a b c : Dev} (h : OutOnly a b) (g : OutOnly b c) : OutOnly a c := Eq.trans g h
theorem emit_outOnly (x : Emit) (s : Dev) : OutOnly s (emit x s) := rfl
theorem vOut_outOnly (l : Nat) (p : VPkt) (s : Dev) : OutOnly s (vOut l p s) := by
  unfold vOut
  split <;> rfl
theorem foldl_outOnly {α : Type} (f : Dev → α → Dev) (h : ∀ s a, OutOnly s (f s a)) (l : List α) (s : Dev) : OutOnly s (l.foldl f s) := by
  induction l generalizing s with
  | nil => rfl
  | cons a l ih => exact (h s a).trans (ih _)
theorem valSend_outOnly (typ cls dst epoch handle frame aux : Nat) (odd : Bool) (m : VMsg) (s : Dev) :
    OutOnly s (valSend typ cls dst epoch handle frame aux odd m s) := by
  unfold valSend
  split
  · exact vOut_outOnly _ _ _
  · rfl
theorem valTell_outOnly (typ dst : Nat) (m : VMsg) (s : Dev) : OutOnly s (valTell typ dst m s) := valSend_outOnly _ _ _ _ _ _ _ _ _ _
theorem valFlood_outOnly (typ cls : Nat) (m : VMsg) (s : Dev) : OutOnly s (valFlood typ cls m s) := by
  unfold valFlood
  exact foldl_outOnly _ (fun _ _ => vOut_outOnly _ _ _) _ _
theorem tellRates_outOnly (i : Nat) (s : Dev) : OutOnly s (tellRates i s) := by
  unfold tellRates
  refine foldl_outOnly _ (fun s e => ?_) _ _
  split
  · exact foldl_outOnly _ (fun _ _ => valTell_outOnly _ _ _ _) _ _
  · rfl
theorem tget_tmod (m : Tbl α) (k : Nat) (f : α → α) (j : Nat) : tget (tmod m k f) j = if j = k then (tget m k).map f else tget m j := by
  unfold tmod
  by_cases h : j = k
  · subst h
    rw [if_pos rfl]
    cases g : tget m j with
    | none => exact g
    | some v => exact tget_tput_self _ _ _
  · rw [if_neg h]
    cases tget m k with
    | none => rfl
    | some v => exact tget_tput_ne _ _ h
theorem stage_layers (late : Bool) (l : List (Nat × LState)) : ∀ d : Dev,
    let e := l.foldl (fun s e =>
        { s with
          vid.layers := tmod s.vid.layers e.1 fun y =>
            if late then { y with pend2 := some e.2 } else { y with pend1 := some e.2 } }) d
    (∃ v, e = { d with vid.layers := v }) ∧
    (∀ k, (∀ x, x ∈ l → x.1 ≠ k) → tget e.vid.layers k = tget d.vid.layers k) ∧
    (∀ k st y, l.filter (fun x => x.1 == k) = [(k, st)] → tget d.vid.layers k = some y →
            tget e.vid.layers k = some (if late then { y with pend2 := some st } else { y with pend1 := some st })) := by
  induction l with
  | nil => intro d; exact ⟨⟨d.vid.layers, rfl⟩, fun _ _ => rfl, fun k st y h => by cases h⟩
  | cons a l ih =>
    intro d
    generalize hw : ({ d with
          vid.layers := tmod d.vid.layers a.1 fun y =>
            if late then { y with pend2 := some a.2 } else { y with pend1 := some a.2 } } : Dev) = w
    obtain ⟨⟨v, i1⟩, i2, i3⟩ := ih w
    dsimp only at i1 i2 i3 ⊢
    rw [List.foldl_cons, hw]
    have hl : w.vid.layers = tmod d.vid.layers a.1 fun y => if late then { y with pend2 := some a.2 } else { y with pend1 := some a.2 } := by rw [← hw]
    refine ⟨⟨v, i1.trans (by rw [← hw])⟩, fun k h => ?_, fun k st y h g => ?_⟩
    · rw [i2 k (fun x hx => h x (List.mem_cons_of_mem _ hx)), hl, tget_tmod, if_neg (fun e => h a (List.mem_cons_self ..) e.symm)]
    · rw [List.filter_cons] at h
      by_cases c : a.1 = k
      · rw [if_pos (by simpa using c)] at h
        obtain ⟨h1, h2⟩ := List.cons.inj h
        rw [i2 k (fun x hx e => ?_), hl, tget_tmod, if_pos c.symm, c, g, h1]
        · rfl
        · have : x ∈ l.filter (fun x => x.1 == k) := List.mem_filter.mpr ⟨hx, by simpa using e⟩
          rw [h2] at this; cases this
      · rw [if_neg (by simpa using c)] at h
        refine i3 k st y h ?_
        rw [hl, tget_tmod, if_neg (fun e => c e.symm)]; exact g
theorem commitPlace_spec (d : Dev) (i : Nat) (c : Canvas) : ∃ late, commitPlace d i c = (if late then c.nextN + 1 else c.nextN, late) ∧
    (late = true ↔ isRunning d (okey 5 i) = true ∧ c.regrid = none ∧ tickAt d c c.nextN - c.timing.tw ≤ canvasTime d c) := by
  unfold commitPlace
  by_cases h1 : (!isRunning d (okey 5 i) || c.regrid.isSome) = true
  · rw [if_pos h1]
    refine ⟨false, rfl, fun h => (by cases h), fun ⟨a, b, _⟩ => ?_⟩
    rw [a, b] at h1; cases h1
  · rw [if_neg h1]
    have h1' : isRunning d (okey 5 i) = true ∧ c.regrid = none := by
      revert h1
      cases isRunning d (okey 5 i) <;> cases c.regrid <;> simp
    by_cases h2 : canvasTime d c < tickAt d c c.nextN - c.timing.tw
    · rw [if_pos h2]
      exact ⟨false, rfl, fun h => (by cases h), fun ⟨_, _, a⟩ => absurd h2 (Int.not_lt.mpr a)⟩
    · rw [if_neg h2]
      exact ⟨true, rfl, fun _ => ⟨h1'.1, h1'.2, Int.not_lt.mp h2⟩, fun _ => rfl⟩
theorem postRas_frame (a b c : Nat) (s : Dev) : PostFrame s (postRas a b c s) := postCode_frame _ _ _ _ _
theorem countRefusal_shows (e : Refuse) (d : Dev) : (countRefusal e d).vid = d.vid ∧ (countRefusal e d).hdl = d.hdl ∧ (countRefusal e d).plain = d.plain ∧
    ∀ o, o ≠ R.HDL_ADMIT_REFUSED → rg (countRefusal e d) o = rg d o := by
  unfold countRefusal
  split
  · exact ⟨rfl, rfl, rfl, fun o ho => rg_bump_ne _ ho⟩
  · exact ⟨rfl, rfl, rfl, fun _ _ => rfl⟩

theorem freePos_lowest {u : Input} {pos : Nat} (h : u.freePos = some pos) : tget u.srcs pos = none ∧ ∀ k, k < pos → (tget u.srcs k).isSome = true := by
  unfold Input.freePos at h
  rw [List.find?_range_eq_some] at h
  obtain ⟨h1, -, h2⟩ := h
  refine ⟨?_, fun k hk => ?_⟩
  · unfold thas at h1
    cases g : tget u.srcs pos with
    | none => rfl
    | some v => rw [g] at h1; cases h1
  · have := h2 k hk
    simpa [thas] using this
theorem bumpIn (o : Nat) (d : Dev) (ho : o ∉ postCounters) : (allOverrides (bump o d)).outp = d.outp ∧ (rg (allOverrides (bump o d)) o).toNat = min ((rg d o).toNat + 1) 0xFFFFFFFF ∧
    ∀ q, q ≠ o → q ∉ postCounters → rg (allOverrides (bump o d)) q = rg d q :=
  ⟨allOverrides_outp _, by rw [allOverrides_keepsReg ho, rg_bump_self, nat_of_ofNat_min], fun q h1 h2 => (allOverrides_keepsReg h2 _).trans (rg_bump_ne _ h1)⟩
theorem runE131 {t : Time} {port : Nat} {p : E131Pkt} {s : State} {e : Dev} (h1 : timeRuns (upTo t s.toDev) = true) (h2 : port < 16) (h : e131Rx port p (upTo t s.toDev) = e) :
    Completes (.e131PacketRx t port p) s (allOverrides e) := by
  refine completes (f := runE131PacketRx t port p) rfl ?_
  unfold runE131PacketRx
  dsimp only
  rw [if_pos (by rw [h1]; simp [h2]), h]
theorem discover_keeps (x : Ident) (i p : Nat) (s : Dev) : (discover x i p s).outp.idents = s.outp.idents ∧ (discover x i p s).outp.univs = s.outp.univs ∧ (discover x i p s).sys = s.sys := by
  unfold discover
  dsimp only
  generalize (List.range _).zip _ = l
  suffices h : ∀ (l : List (Nat × List Nat)) (s : Dev) (g : Nat × List Nat → Dev → TxFrame), let e := l.foldl (fun s e => bump (R.PKT_TXP_DISCOVERY p) (queueFrame p (g e s) s)) s;
      e.outp.idents = s.outp.idents ∧ e.outp.univs = s.outp.univs ∧ e.sys = s.sys from h l s _
  intro l
  induction l with
  | nil => intro s g; exact ⟨rfl, rfl, rfl⟩
  | cons a l ih =>
    intro s g
    obtain ⟨i1, i2, i3⟩ := ih (bump (R.PKT_TXP_DISCOVERY p) (queueFrame p (g a s) s)) g
    have q := queueFrame_sends p (g a s) s
    exact ⟨i1.trans q.idents, i2.trans q.univs, i3.trans (queueFrame_regs p (g a s) s).2⟩
theorem foldl_discover (x : Ident) (i : Nat) (l : List Nat) : ∀ s : Dev, let e := l.foldl (fun s p => discover x i p s) s;
    e.outp.idents = s.outp.idents ∧ e.outp.univs = s.outp.univs ∧ e.sys = s.sys := by
  induction l with
  | nil => intro s; exact ⟨rfl, rfl, rfl⟩
  | cons a l ih =>
    intro s
    obtain ⟨i1, i2, i3⟩ := ih (discover x i a s)
    obtain ⟨j1, j2, j3⟩ := discover_keeps x i a s
    exact ⟨i1.trans j1, i2.trans j2, i3.trans j3⟩
theorem migTick_none {i : Nat} {a b : Int} {d : Dev} (h : migOf d i = none) : migTick i a b d = d := by
  unfold migTick
  rw [h]
  dsimp only
  rw [h]

end Sys2Proof.Machine
end

