-- ==== Sys2Proof/Laws/Wire.lean ====
section
/-! SUPPORT. Ports, lines and pixel maps: what their operations do. -/

namespace Sys2Proof.Machine

theorem word_bit (v : Word) (i : Nat) : bit v.toNat i = v.getLsbD i := by
  rw [← BitVec.testBit_toNat, Nat.testBit_eq_decide_div_mod_eq]; rfl
theorem cnt_drop (n i : Nat) (w : Dev) : (portAt (cntAdd n i 1 w) n).count i = ((portAt w n).count i + 1) % 2 ^ 64 := by
  unfold cntAdd; rw [portAt_modPort]; exact count_add _ _ _
theorem cnt_other (n i j : Nat) (w : Dev) (h : j ≠ i) : (portAt (cntAdd n i 1 w) n).count j = (portAt w n).count j := by
  unfold cntAdd; rw [portAt_modPort]; exact count_add_ne _ _ _ _ h
theorem sizeBin_ge {l j : Nat} (h : sizeBin l = some j) : 28 ≤ j ∧ j ≤ 34 := by
  unfold sizeBin at h
  split at h
  · cases h
  · cases h; repeat' split
    all_goals omega
theorem verdict_ext {a : Dev} {n : Nat} {f : EthFrame} (h : f.codeError = true) : rxVerdict a n f = .drop cRxCode := by
  unfold rxVerdict; rw [if_pos h]

theorem dropLate_none {n : Nat} {d : Dev} (h : ∀ f, f ∈ (portAt d n).queue → expired d f = false) : dropLate n d = d := by
  unfold dropLate
  dsimp only
  rw [show (portAt d n).queue.filter (expired d) = [] from List.filter_eq_nil_iff.mpr fun f hf => by rw [h f hf]; decide]
  rfl
theorem stamp_plain {n : Nat} {f : TxFrame} {a : Time} {d : Dev} (h : (∃ k i x, f.tag = .sync k i x) ∨ f.tag = .control ∨ f.tag = .best) : stamp n f a d = (d, f) := by
  unfold stamp
  extract_lets
  rcases h with ⟨k, i, x, h⟩ | h | h <;> rw [h]
theorem startFrame_plain {n : Nat} {f : TxFrame} {a : Time} {x : Bool} {d : Dev} (h : (∃ k i x, f.tag = .sync k i x) ∨ f.tag = .control ∨ f.tag = .best) :
    portAt (startFrame n f x a d) n = { portAt d n with wire := some { frame := f, express := x, start := a, done := a + (portAt d n).rec_.bytes (8 + f.len), sent := 0, frags := 0 } } := by
  unfold startFrame
  rw [stamp_plain h]
  exact portAt_modPort _ _ _
def WireKept (n : Nat) (a b : Dev) : Prop := (portAt b n).wire = (portAt a n).wire ∧ (portAt b n).queue = (portAt a n).queue ∧ (portAt b n).ready = (portAt a n).ready ∧
  (portAt b n).cnt = (portAt a n).cnt
theorem WireKept.refl (n : Nat) (a : Dev) : WireKept n a a := ⟨rfl, rfl, rfl, rfl⟩
theorem WireKept.trans {n : Nat} {a b c : Dev} (h : WireKept n a b) (g : WireKept n b c) : WireKept n a c :=
  ⟨g.1.trans h.1, g.2.1.trans h.2.1, g.2.2.1.trans h.2.2.1, g.2.2.2.trans h.2.2.2⟩
theorem WireKept.of {n : Nat} {a b : Dev} (h : b.outp.ports = a.outp.ports) : WireKept n a b := by
  unfold WireKept portAt; rw [h]; exact ⟨rfl, rfl, rfl, rfl⟩
theorem OutOnly.outp {a b : Dev} (h : OutOnly a b) : b.outp = a.outp := by
  unfold OutOnly at h
  have := congrArg Dev.outp h
  exact this
theorem releaseUses_outp (u : Univ) (s : Dev) : (releaseUses u s).outp = s.outp := by
  unfold releaseUses
  split
  · rfl
  · rename_i l id _
    extract_lets ask
    have h := OutOnly.outp (foldl_outOnly (fun s a => valTell 7 a (.admitMsg id 2 ask) s) (fun s a => valTell_outOnly _ _ _ s) l { s with val.uses := tdel s.val.uses u.handle.toNat })
    exact h
theorem clearGhosts_kept (n : Nat) (s : Dev) : WireKept n s (clearGhosts s) := by
  apply WireKept.of
  unfold clearGhosts
  extract_lets st
  generalize s.outp.ghosts.filter (fun e => !st e && e.2.1.remote) = l
  have : ∀ (l : List (Nat × Univ × Ident)) (w : Dev), (l.foldl (fun s e => releaseUses e.2.1 s) w).outp = w.outp := by
    intro l
    induction l with
    | nil => exact fun _ => rfl
    | cons a r ih => exact fun w => (ih _).trans (releaseUses_outp _ _)
  exact congrArg (·.ports) (this l _)
theorem modSender_kept (n k : Nat) (f : Univ → Univ) (s : Dev) : WireKept n s (modSender k f s) := by
  apply WireKept.of
  unfold modSender
  split
  · rfl
  · split <;> rfl
theorem ite_kept {c : Prop} [Decidable c] {n : Nat} {s a : Dev} (h : WireKept n s a) : WireKept n s (if c then a else s) := by
  by_cases g : c
  · rw [if_pos g]; exact h
  · rw [if_neg g]; exact .refl _ _
theorem postLate_kept (n u : Nat) (s : Dev) : WireKept n s (postLate n u s) := by
  unfold postLate
  dsimp only
  refine ite_kept ?_
  · refine WireKept.trans (b := setPort n { portAt s n with lateAt := some s.raw } s) ?_ (.of (by rw [(postCode_frame 0x21 3 0x30 _ _).outp]))
    unfold WireKept; rw [portAt_setPort]; exact ⟨rfl, rfl, rfl, rfl⟩
theorem slack_kept (n x : Nat) (s : Dev) : WireKept n s (modPort n (fun p => { p with slack := some x }) s) := by
  unfold WireKept; rw [portAt_modPort]; exact ⟨rfl, rfl, rfl, rfl⟩
theorem judgeSync_kept (n k q : Nat) (x : Int) (s : Dev) : WireKept n s (judgeSync n k q x s) := by
  unfold judgeSync
  extract_lets a
  split
  · exact ((slack_kept n 0 s).trans (WireKept.of rfl)).trans (postLate_kept _ _ _)
  · exact slack_kept _ _ _
theorem bump_kept (n o : Nat) (s : Dev) : WireKept n s (bump o s) := .of rfl
theorem countSent_kept (n : Nat) (w : Wire) (s : Dev) : WireKept n s (countSent n w s) := by
  unfold countSent
  split
  · extract_lets a b
    have h1 : WireKept n s a := (modSender_kept _ _ _ _).trans (bump_kept _ _ _)
    have h2 : WireKept n s b := by
      show WireKept n s (ite _ _ _)
      split
      · exact h1.trans (bump_kept _ _ _)
      · exact h1
    refine WireKept.trans ?_ (clearGhosts_kept _ _)
    split
    · exact h2.trans (judgeSync_kept _ _ _ _ _)
    · exact h2
  · extract_lets a b
    refine WireKept.trans ?_ (clearGhosts_kept _ _)
    split
    · exact (bump_kept _ _ _).trans (bump_kept _ _ _)
    · exact bump_kept _ _ _
  · extract_lets a b
    split
    · exact (bump_kept _ _ _).trans (bump_kept _ _ _)
    · exact bump_kept _ _ _
  · exact .refl _ _
theorem pick_find {d : Dev} {n : Nat} {f : TxFrame} (h : pickQueued d n = some f) : guardOk d n f.len = true ∧ f ∈ (portAt d n).queue ∧
    ∀ r g, 3 ≤ r → r < f.tag.row → ((portAt d n).queue.filter (opened d)).find? (fun g => g.tag.row == r) = some g → guardOk d n g.len = false := by
  unfold pickQueued at h
  extract_lets q at h
  refine ⟨List.find?_some (p := fun f : TxFrame => guardOk d n f.len) h, ?_, ?_⟩
  · have := List.mem_of_find?_eq_some h
    rw [List.mem_filterMap] at this
    obtain ⟨r, -, h2⟩ := this
    exact (List.mem_filter.mp (List.mem_of_find?_eq_some h2)).1
  · intro r g h3 hr hg
    have hrow : f.tag.row ≤ 6 := by unfold TxTag.row; split <;> omega
    have row : ∀ r x, q.find? (fun f => f.tag.row == r) = some x → x.tag.row = r := fun r x hh => by simpa using List.find?_some hh
    cases hgd : guardOk d n g.len with
    | false => rfl
    | true =>
      exfalso
      have key : ∀ l : List Nat, l.Pairwise (· < ·) → r ∈ l → (l.filterMap fun r => q.find? fun f => f.tag.row == r).find? (fun f => guardOk d n f.len) = some f → False := by
        intro l
        induction l with
        | nil => intro _ hm; cases hm
        | cons a l ih =>
          intro hp hm hf
          rw [List.pairwise_cons] at hp
          rw [List.filterMap_cons] at hf
          cases ha : q.find? (fun f => f.tag.row == a) with
          | none =>
            rw [ha] at hf
            rcases List.mem_cons.mp hm with rfl | hm
            · exact absurd (ha.symm.trans hg) (by simp)
            · exact ih hp.2 hm hf
          | some x =>
            rw [ha] at hf
            dsimp only at hf
            cases hgx : guardOk d n x.len with
            | true =>
              rw [List.find?_cons_of_pos (by exact hgx)] at hf
              cases hf
              have := row _ _ ha
              rcases List.mem_cons.mp hm with rfl | hm
              · omega
              · have := hp.1 r hm; omega
            | false =>
              rw [List.find?_cons_of_neg (by rw [hgx]; decide)] at hf
              rcases List.mem_cons.mp hm with rfl | hm
              · have := ha.symm.trans hg
                cases this
                rw [hgx] at hgd; cases hgd
              · exact ih hp.2 hm hf
      exact key [3, 4, 5, 6] (by decide) (by simp; omega) h
def endCounts (p : Port) (w : Wire) : Port :=
  let p := ((p.add cTxFrames 1).add cTxBytes w.frame.len)
  let p := if w.express then p.add cTxExpress 1 else p
  if 0 < w.frags then p.add cTxPreempted 1 else p
theorem count_if (c : Prop) [Decidable c] (p : Port) (i j : Nat) : (if c then p.add i 1 else p).count j = if c ∧ j = i then (p.count j + 1) % 2 ^ 64 else p.count j := by
  by_cases h : c
  · rw [if_pos h]
    by_cases g : j = i
    · subst g; rw [if_pos ⟨h, rfl⟩]; exact count_add _ _ _
    · rw [if_neg (fun x => g x.2)]; exact count_add_ne _ _ _ _ g
  · rw [if_neg h, if_neg (fun x => h x.1)]
theorem endCounts_spec (p : Port) (w : Wire) : (endCounts p w).rec_ = p.rec_ ∧ (endCounts p w).queue = p.queue ∧
    (endCounts p w).count cTxFrames = (p.count cTxFrames + 1) % 2 ^ 64 ∧ (endCounts p w).count cTxBytes = (p.count cTxBytes + w.frame.len) % 2 ^ 64 ∧
    (endCounts p w).count cTxExpress = (if w.express then (p.count cTxExpress + 1) % 2 ^ 64 else p.count cTxExpress) ∧
    (endCounts p w).count cTxPreempted = (if 0 < w.frags then (p.count cTxPreempted + 1) % 2 ^ 64 else p.count cTxPreempted) := by
  have key : ∀ j, (endCounts p w).count j = if 0 < w.frags ∧ j = cTxPreempted then (((if w.express then ((p.add cTxFrames 1).add cTxBytes w.frame.len).add cTxExpress 1 else (p.add cTxFrames 1).add cTxBytes w.frame.len).count j) + 1) % 2 ^ 64
      else (if w.express then ((p.add cTxFrames 1).add cTxBytes w.frame.len).add cTxExpress 1 else (p.add cTxFrames 1).add cTxBytes w.frame.len).count j := by
    intro j; unfold endCounts; dsimp only; exact count_if _ _ _ _
  have b : ∀ j, j ≠ cTxFrames → j ≠ cTxBytes → ((p.add cTxFrames 1).add cTxBytes w.frame.len).count j = p.count j := fun j h1 h2 => (count_add_ne _ _ _ _ h2).trans (count_add_ne _ _ _ _ h1)
  refine ⟨?_, ?_, ?_, ?_, ?_, ?_⟩
  · unfold endCounts; dsimp only; repeat' split
    all_goals rfl
  · unfold endCounts; dsimp only; repeat' split
    all_goals rfl
  · rw [key, if_neg (fun h => absurd h.2 (by decide)), count_if, if_neg (fun h => absurd h.2 (by decide))]
    exact (count_add_ne _ _ _ _ (by decide)).trans (count_add _ _ _)
  · rw [key, if_neg (fun h => absurd h.2 (by decide)), count_if, if_neg (fun h => absurd h.2 (by decide))]
    exact (count_add _ _ _).trans (by rw [count_add_ne _ _ _ _ (by decide)])
  · rw [key, if_neg (fun h => absurd h.2 (by decide)), count_if, b _ (by decide) (by decide)]
    by_cases h : w.express = true
    · rw [if_pos ⟨h, rfl⟩, if_pos h]
    · rw [if_neg (fun x => h x.1), if_neg h]
  · rw [key, count_if, if_neg (c := w.express = true ∧ _) (fun h => absurd h.2 (by decide)), b _ (by decide) (by decide)]
    by_cases h : 0 < w.frags
    · rw [if_pos ⟨h, rfl⟩, if_pos h]
    · rw [if_neg (fun x => h x.1), if_neg h]

theorem modLine_line (n : Nat) (f : Line → Line) (s : Dev) : lineAt (modLine n f s) n = f (lineAt s n) := lineAt_setLine _ _ _
theorem lineAt_bump (n o : Nat) (s : Dev) : lineAt (bump o s) n = lineAt s n := lineAt_congr rfl n
theorem modDisc_stays (n : Nat) (f : Disc → Disc) (s : Dev) (c : Disc) (h : (lineAt s n).disc = some c) (g : (f c).fresh = true ∨ (f c).mute ≠ none ∨ (f c).branches ≠ []) :
    lineAt (modDisc n f s) n = { lineAt s n with disc := some (f c) } := by
  unfold modDisc
  have e : lineAt (modLine n (fun l => { l with disc := l.disc.map f }) s) n = { lineAt s n with disc := some (f c) } := by
    rw [modLine_line, h]; rfl
  have : discEnd n (modLine n (fun l => { l with disc := l.disc.map f }) s) = modLine n (fun l => { l with disc := l.disc.map f }) s := by
    unfold discEnd
    rw [e]
    dsimp only
    rw [if_pos]
    rcases g with g | g | g
    · simp [g]
    · have : (f c).mute.isSome = true := by cases hm : (f c).mute <;> simp_all
      simp [this]
    · simp [g]
  rw [this, e]
theorem rdmRetry_again (n : Nat) (r : RdmReq) (why : Nat) (s : Dev) (h : r.sent < 3) :
    (lineAt (rdmRetry n r why s) n).req = none ∧ tget (lineAt (rdmRetry n r why s) n).again r.serves = some r ∧ (rdmRetry n r why s).regs = s.regs := by
  unfold rdmRetry
  extract_lets a
  rw [if_pos h]
  refine ⟨?_, ?_, ?_⟩
  · rw [modLine_line, modLine_line]
  · rw [modLine_line]; exact tget_tput_self _ _ _
  · rw [modLine_regs, modLine_regs]
theorem rdmRetry_host (n : Nat) (r : RdmReq) (why : Nat) (s : Dev) (h : 3 ≤ r.sent) (h0 : r.serves = 0) (hw : why < 16) :
    (lineAt (rdmRetry n r why s) n).req = none ∧ fld (rdmRetry n r why s) (F.DMX_LINE_MB_CTRL_STATUS n) = why := by
  unfold rdmRetry
  extract_lets a
  rw [if_neg (by omega)]
  unfold rdmFailed
  rw [h0]
  obtain ⟨-, -, e3, e4⟩ := mailboxDone_spec n why 0 [] a hw
  refine ⟨?_, e3⟩
  show (lineAt (mailboxDone n why 0 [] a) n).req = none
  rw [lineAt_congr e4, modLine_line]
theorem storeReg_dmx (o : Nat) (v : Word) (s : Dev) : (storeReg o v s).dmx = s.dmx := by
  unfold storeReg
  split <;> rfl
def mbReq (w : Dev) (n : Nat) : RdmReq :=
  { serves := 0, sensor := 0, dest := (rg w (R.DMX_LINE_MB_UID_HI n)).toNat % 65536 * 2 ^ 32 + (rg w (R.DMX_LINE_MB_UID_LO n)).toNat,
    cc := fld w (F.DMX_LINE_MB_REQ_CC n), pid := fld w (F.DMX_LINE_MB_REQ_PID n),
    data := ((List.range 58).flatMap fun i => leBytes 4 (rg w (R.DMX_LINE_MB_DATA n i)).toNat).take (fld w (F.DMX_LINE_MB_REQ_PDL n)), sent := 0, ends := 0 }
theorem storeReg_raw (o : Nat) (v : Word) (s : Dev) : (storeReg o v s).raw = s.raw := by
  unfold storeReg
  split <;> rfl

def PxMap.shown (m : PxMap) := (m.slotN, m.refresh, m.scan, m.blank, m.timing, m.filled, m.pixels, m.c)
def diagRegs (k : Nat) : List Nat := [R.PXP_PROBES k, R.PXP_READBACKS k, R.PXP_LOCATES k, R.PXP_INTERMITTENT k, R.PXP_ITEMS_SUPPRESSED k]
structure DiagFrame (k : Nat) (a b : Dev) : Prop where
  rest : b.raw = a.raw ∧ b.sys = a.sys ∧ b.tim = a.tim ∧ b.vid = a.vid
  map : ∀ m, mapAt a k = some m → ∃ y, mapAt b k = some y ∧ y.shown = m.shown
  regs : ∀ o, o ∉ postCounters → o ∉ diagRegs k → rg b o = rg a o
theorem DiagFrame.refl (k : Nat) (a : Dev) : DiagFrame k a a := ⟨⟨rfl, rfl, rfl, rfl⟩, fun m h => ⟨m, h, rfl⟩, fun _ _ _ => rfl⟩
theorem DiagFrame.trans {k : Nat} {a b c : Dev} (h : DiagFrame k a b) (g : DiagFrame k b c) : DiagFrame k a c :=
  ⟨⟨g.rest.1.trans h.rest.1, g.rest.2.1.trans h.rest.2.1, g.rest.2.2.1.trans h.rest.2.2.1, g.rest.2.2.2.trans h.rest.2.2.2⟩,
    fun m hm => by obtain ⟨y, y1, y2⟩ := h.map m hm; obtain ⟨z, z1, z2⟩ := g.map y y1; exact ⟨z, z1, z2.trans y2⟩,
    fun o h1 h2 => (g.regs o h1 h2).trans (h.regs o h1 h2)⟩
theorem DiagFrame.mod (k : Nat) (f : PxMap → PxMap) (h : ∀ m, (f m).shown = m.shown) (s : Dev) : DiagFrame k s (modMap k f s) :=
  ⟨⟨rfl, rfl, rfl, rfl⟩, fun m hm => ⟨f m, by rw [mapAt_modMap, hm]; rfl, h m⟩, fun _ _ _ => rfl⟩
theorem DiagFrame.count {k o : Nat} (h : o ∈ diagRegs k) (s : Dev) : DiagFrame k s (bump o s) :=
  ⟨⟨rfl, rfl, rfl, rfl⟩, fun m hm => ⟨m, hm, rfl⟩, fun _ _ h2 => rg_bump_ne _ fun e => h2 (e ▸ h)⟩
theorem DiagFrame.foldl {k : Nat} {α : Type} (f : Dev → α → Dev) (h : ∀ s a, DiagFrame k s (f s a)) (l : List α) (s : Dev) : DiagFrame k s (l.foldl f s) := by
  induction l generalizing s with
  | nil => exact .refl _ _
  | cons a r ih => exact (h s a).trans (ih _)
theorem postCode_rest4 (a b c x : Nat) (s : Dev) : (postCode a b c x s).raw = s.raw ∧ (postCode a b c x s).sys = s.sys ∧ (postCode a b c x s).tim = s.tim ∧ (postCode a b c x s).vid = s.vid := by
  have f := postCode_frame a b c x s
  exact ⟨f.raw, f.sys, f.tim, f.vid⟩
theorem postPx_rest (n typ code chan pixel : Nat) (s : Dev) :
    (postPx n typ code chan pixel s).raw = s.raw ∧ (postPx n typ code chan pixel s).sys = s.sys ∧ (postPx n typ code chan pixel s).tim = s.tim ∧ (postPx n typ code chan pixel s).vid = s.vid := by
  unfold postPx
  extract_lets p q
  generalize chan % 256 * 2 ^ 32 + pixel % 65536 = x
  by_cases h : 100 ≤ q.items
  · rw [if_pos h]; exact ⟨rfl, rfl, rfl, rfl⟩
  · rw [if_neg h]
    obtain ⟨f1, f2, f3, f4⟩ := postCode_rest4 (0x28 + n) typ code x (setPx n { q with items := q.items + 1 } s)
    rw [f1, f2, f3, f4]; exact ⟨rfl, rfl, rfl, rfl⟩
theorem shortTest_frame (k : Nat) (l : List Nat) (d : Dev) : mapAt (shortTest k l d) k = mapAt d k ∧ ∀ o, o ≠ R.PXP_SHORT k → rg (shortTest k l d) o = rg d o := by
  unfold shortTest
  extract_lets bits s1
  have h1 : mapAt s1 k = mapAt d k := mapAt_congr (setRg_pxp _ _ _) k
  have h2 : ∀ o, o ≠ R.PXP_SHORT k → rg s1 o = rg d o := fun o ho => rg_setRg_ne _ _ ho
  clear_value s1 bits
  by_cases h : bits = 0
  · rw [if_pos h]; exact ⟨h1, h2⟩
  · rw [if_neg h]; exact ⟨(mapAt_setPx _ _ _).trans h1, h2⟩
theorem shortTest_clean (k : Nat) (d : Dev) : (rg (shortTest k [] d) (R.PXP_SHORT k)).toNat = 2048 := by
  unfold shortTest
  extract_lets bits s1
  have h0 : bits = 0 := by simp [bits]
  have h1 : rg s1 (R.PXP_SHORT k) = BitVec.ofNat 32 (bits + 2048) := rg_setRg_self _ _ _
  clear_value s1 bits
  subst h0
  rw [if_pos rfl, h1]; decide
theorem postPx_diag (n typ code chan pixel : Nat) (s : Dev) : DiagFrame n s (postPx n typ code chan pixel s) := by
  obtain ⟨a, b⟩ := postPx_spec n typ code chan pixel s
  exact ⟨postPx_rest _ _ _ _ _ _, fun m hm => ⟨m, a.trans hm, rfl⟩, fun o h1 h2 => b o h1 fun e => h2 (by rw [e]; simp [diagRegs])⟩
theorem assess_diag (n : Nat) (fr : Int) (k fl : Nat) (s : Dev) : DiagFrame n s (assess n fr k fl s) := by
  unfold assess
  split
  · exact .refl _ _
  · rename_i m _
    extract_lets st old a
    have ha : DiagFrame n s a := .mod _ (fun m => { m with chans := tput m.chans k { old with st := st, dim := false, frame := fr } }) (fun _ => rfl) _
    split
    · exact ha
    · exact ha.trans (postPx_diag _ _ _ _ _ _)
theorem missed_diag (n k : Nat) (s : Dev) : DiagFrame n s (missedChan n k s) := .mod _ (fun m => { m with chans := tput m.chans k { m.chan k with dim := true } }) (fun _ => rfl) _
theorem queueLocate_diag (n st : Nat) (s : Dev) : DiagFrame n s (queueLocate n st s) :=
  .mod _ (fun m => if m.locate.contains st then m else { m with locate := m.locate ++ [st] }) (fun m => by split <;> rfl) _
theorem linearSlot_diag (k : Nat) (n : Int) (diag : List Nat) (s : Dev) : DiagFrame k s (linearSlot k n diag s) := by
  unfold linearSlot
  split
  · exact .refl _ _
  · rename_i m _
    extract_lets probe line lane minOn
    split
    · exact .mod _ (fun m => { m with cfgDue := false, probeDue := probe }) (fun _ => rfl) _
    · generalize probe = pr
      cases pr with
      | some l =>
        refine (DiagFrame.trans (DiagFrame.mod k (fun m => { m with probeDue := none }) (fun _ => rfl) s) (DiagFrame.count (o := R.PXP_PROBES k) (by simp [diagRegs]) _)).trans (.foldl _ (fun _ _ => assess_diag _ _ _ _ _) _ _)
      | none =>
        refine (DiagFrame.count (o := R.PXP_READBACKS k) (by simp [diagRegs]) _).trans (.foldl _ (fun _ _ => ?_) _ _)
        split
        · exact assess_diag _ _ _ _ _
        · exact missed_diag _ _ _
theorem samples_diag (k : Nat) (n : Int) (diag : List Nat) (s : Dev) : DiagFrame k s (bypassSamples k n diag s) := by
  unfold bypassSamples
  split
  · exact .refl _ _
  · extract_lets minOn planes a
    have ha : DiagFrame k s a := by
      refine .foldl _ (fun _ _ => ?_) _ _
      split
      · split
        · exact .refl _ _
        · exact assess_diag _ _ _ _ _
      · exact missed_diag _ _ _
    refine ha.trans (.foldl _ (fun _ _ => ?_) _ _)
    split
    · exact queueLocate_diag _ _ _
    · exact .refl _ _
theorem locate_diag (k : Nat) (n : Int) (diag : List Nat) (s : Dev) : DiagFrame k s (runLocate k n diag s) := by
  unfold runLocate
  split
  · exact .refl _ _
  · rename_i m _
    split
    · exact .refl _ _
    · rename_i st rest _
      extract_lets a lamps
      have ha : DiagFrame k s a := (DiagFrame.mod k (fun m => { m with locate := rest }) (fun _ => rfl) s).trans (DiagFrame.count (o := R.PXP_LOCATES k) (by simp [diagRegs]) _)
      split
      · exact ha.trans ((DiagFrame.count (o := R.PXP_INTERMITTENT k) (by simp [diagRegs]) _).trans (postPx_diag _ _ _ _ _ _))
      · split
        · split
          · rename_i key _
            exact ha.trans ((DiagFrame.mod k (fun m => { m with chans := tput m.chans key { st := 2, dim := false, ride := true, frame := n } }) (fun _ => rfl) _).trans (postPx_diag _ _ _ _ _ _))
          · exact ha
        · exact ha
theorem bypassProbe_diag (k : Nat) (n : Int) (diag : List Nat) (s : Dev) : DiagFrame k s (bypassProbe k n diag s) := by
  unfold bypassProbe
  split
  · exact .refl _ _
  · extract_lets a
    have ha : DiagFrame k s a := (DiagFrame.mod k (fun m => { m with probeDue := none }) (fun _ => rfl) s).trans (DiagFrame.count (o := R.PXP_PROBES k) (by simp [diagRegs]) _)
    refine ha.trans (.foldl _ (fun _ _ => ?_) _ _)
    extract_lets dims
    split
    · exact queueLocate_diag _ _ _
    · exact .foldl _ (fun _ _ => assess_diag _ _ _ _ _) _ _
theorem endRefresh_diag (k : Nat) (diag : List Nat) (s : Dev) : DiagFrame k s (endRefresh k diag s) := by
  unfold endRefresh
  split
  · exact .refl _ _
  · split
    · exact .refl _ _
    · split
      · exact .refl _ _
      · split
        · split
          · exact linearSlot_diag _ _ _ _
          · exact .refl _ _
        · split
          · extract_lets a
            have ha : DiagFrame k s a := (locate_diag _ _ _ _).trans (samples_diag _ _ _ _)
            split
            · exact ha.trans (bypassProbe_diag _ _ _ _)
            · exact ha
          · exact .refl _ _
theorem canvasTime_ext {a b : Dev} (h1 : b.raw = a.raw) (h2 : b.tim = a.tim) (c : Canvas) : canvasTime b c = canvasTime a c := by
  unfold canvasTime carryNow domTime domAt; rw [h1, h2]
theorem writeMinOn_cases (n : Nat) (v : Word) (d : Dev) (h : 100 ≤ v.toNat % 65536) :
    ((∀ m, mapAt d n = some m → mapFit d m (v.toNat % 65536) = 0) → writeMinOn n v d = storeReg (R.PXP_DIAG_MIN_ON n) v d) ∧
    (∀ m, mapAt d n = some m → mapFit d m (v.toNat % 65536) ≠ 0 → writeMinOn n v d = setBit (F.PXP_STATE_MIN_ON_REFUSED n) true d) := by
  unfold writeMinOn
  dsimp only
  rw [if_neg (by omega)]
  cases hm : mapAt d n with
  | none => exact ⟨fun _ => rfl, fun m h => by cases h⟩
  | some m =>
    dsimp only
    refine ⟨fun q => if_pos (q m rfl), fun m' h1 h2 => ?_⟩
    cases h1
    exact if_neg h2
theorem findReg_minOn (n : Nat) (h : n < 8) : ∃ r, findReg (R.PXP_DIAG_MIN_ON n) = some r ∧ r.w1c = 0 ∧ r.rw = 0xffff := by
  interval_cases n <;> exact ⟨_, rfl, rfl, rfl⟩

end Sys2Proof.Machine
end

