-- ==== Sys2Proof/Laws/Clock.lean ====
section
/-! SUPPORT. Time, triggers and the site: what their operations do. -/

namespace Sys2Proof.Machine

theorem setRg_beside (o : Nat) (v : Word) (s : Dev) : (setRg o v s).beside = s.beside := rfl
theorem latchTime_beside (s : Dev) : (latchTime s).beside = s.beside := by
  rw [latchTime_eq]; simp only [latchDom, setRg_beside]

theorem ptpIn_some {d : Dev} {p k st : Nat} {q : PtpPort} (h1 : k < 2) (h2 : timeRuns d = true) (h3 : (portAt d p).link = 2) (h4 : tget (domAt d k).ports p = some q)
    (h5 : q.state = st) : ptpIn d p k st = some q := by
  unfold ptpIn; rw [h4]; dsimp only; rw [if_pos]; simp [h1, h2, h3, h5]
theorem ptpIn_state {d : Dev} {p k st : Nat} {q : PtpPort} (h4 : tget (domAt d k).ports p = some q) (h5 : q.state ≠ st) : ptpIn d p k st = none := by
  unfold ptpIn; rw [h4]; dsimp only; rw [if_neg]; simp [h5]
theorem ptpIn_none {d : Dev} {p k st : Nat} (h : timeRuns d = false ∨ 2 ≤ k ∨ (portAt d p).link ≠ 2 ∨ tget (domAt d k).ports p = none) : ptpIn d p k st = none := by
  unfold ptpIn
  split
  · rw [if_neg]
    simp only [Bool.and_eq_true, decide_eq_true_eq, beq_iff_eq]
    rintro ⟨⟨⟨a, b⟩, -⟩, c⟩
    rcases h with h | h | h | h
    · rw [h] at a; cases a
    · omega
    · exact h c
    · simp_all
  · rfl
theorem ptpRx_ignored {k : Nat} {m : PtpMsg} {d : Dev} (h : tget (domAt d k).ports m.port = none ∨ m.domain ≠ (domAt d k).rec_.ptpDomain ∨ (domAt d k).rec_.source = 0) : ptpRx k m d = d := by
  unfold ptpRx
  dsimp only
  split
  · rfl
  · rename_i q hq
    rw [if_pos]
    rcases h with h | h | h
    · rw [h] at hq; cases hq
    · exact .inr h
    · left; omega
theorem setPtp_dom (k p : Nat) (q : PtpPort) (s : Dev) : domAt (setPtp k p q s) k = { domAt s k with ports := tput (domAt s k).ports p q } := domAt_setDom _ _ _
theorem setPtp_regs (k p : Nat) (q : PtpPort) (s : Dev) : (setPtp k p q s).regs = s.regs := setDom_regs _ _ _
theorem setPtp_raw (k p : Nat) (q : PtpPort) (s : Dev) : (setPtp k p q s).raw = s.raw := setDom_raw _ _ _
theorem setPtp_one (p : Nat) (q : PtpPort) (s : Dev) : domAt (setPtp 0 p q s) 1 = domAt s 1 := domAt_one (setDom_domB _ _)
theorem syncDone_one (p : Nat) (t1 t2 cs : Int) (s : Dev) (q : PtpPort) (h : tget (domAt s 0).ports p = some q) : domAt (syncDone 0 p t1 t2 cs s) 1 = domAt s 1 := by
  rw [syncDone_spec 0 p t1 t2 cs s q h, servoOffset_domB, setPtp_one]
theorem tget_map_fst {α : Type} (f : Nat × α → α) (l : List (Nat × α)) (k : Nat) (v : α) (h : tget l k = some v) :
    ∃ e, e.2 = v ∧ tget (l.map fun e => (e.1, f e)) k = some (f e) := by
  induction l with
  | nil => cases h
  | cons a r ih =>
    rw [List.map_cons]
    by_cases g : k = a.1
    · have h' : (if k = a.1 then some a.2 else tget r k) = some v := h
      rw [if_pos g] at h'
      cases h'
      exact ⟨a, rfl, if_pos g⟩
    · have h' : (if k = a.1 then some a.2 else tget r k) = some v := h
      rw [if_neg g] at h'
      obtain ⟨e, e1, e2⟩ := ih h'
      exact ⟨e, e1, (if_neg g).trans e2⟩
theorem decideStates_foreign (s : Dev) (x : Dom) (p : Nat) (q : PtpPort) (h : tget x.ports p = some q) : ∃ y, tget (decideStates s x).ports p = some y ∧ y.foreign = q.foreign := by
  unfold decideStates
  split
  · obtain ⟨e, e1, e2⟩ := tget_map_fst (fun e => { e.2 with state := 1 }) x.ports p q h
    exact ⟨_, e2, by rw [← e1]⟩
  · extract_lets best d0 st
    obtain ⟨e, e1, e2⟩ := tget_map_fst (fun e => { e.2 with state := st e }) x.ports p q h
    exact ⟨_, e2, by rw [← e1]⟩
theorem selectMaster_ports (k p : Nat) (s : Dev) (q : PtpPort) (h : tget (domAt s k).ports p = some q) :
    ∃ y, tget (domAt (selectMaster k s) k).ports p = some y ∧ y.foreign = q.foreign := by
  have z := decideStates_foreign s (domAt s k) p q h
  unfold selectMaster
  extract_lets x gm
  clear_value gm
  change ∃ y, tget x.ports p = some y ∧ y.foreign = q.foreign at z
  clear_value x
  cases gm with
  | none => dsimp only; rw [domAt_setDom]; exact z
  | some g =>
    dsimp only
    split
    · rw [domAt_setDom]; exact z
    · split
      · have e : domAt (postTim 1 0x06 k g (bump (R.TIM_DOM_GM_CHANGES k) (setDom k { x with gm := g, servo := 1, good := 0, bad := 0 } s))) k = { x with gm := g, servo := 1, good := 0, bad := 0 } :=
          (domAt_postTim _ _ _ _ _ _).trans ((domAt_congr rfl k).trans (domAt_setDom _ _ _))
        rw [e]; exact z
      · rw [domAt_setDom]; exact z
theorem sendSync_queues (p k : Nat) (q : PtpPort) (d : Dev) (h : (portAt d p).link = 2) (hp : p ≠ 16) : ∃ f, f.tag = .event k 0 ((q.syncSeq + 1) % 65536) ∧
    (portAt (sendSync p k q d) p).express = (portAt d p).express ++ [f] ∧ tget (domAt (sendSync p k q d) k).ports p = some { q with syncSeq := (q.syncSeq + 1) % 65536, syncAt := some d.raw } := by
  have pe : portAt (setPtp k p { q with syncSeq := (q.syncSeq + 1) % 65536, syncAt := some d.raw } d) p = portAt d p := portAt_congr (setPtp_outp _ _ _ _) p
  unfold sendSync
  extract_lets r seq flags
  refine ⟨_, ?_, (((queueFrame_queues p _ _ (by rw [pe]; exact h) hp).1 _ _ _ rfl)).trans (by rw [pe]), ?_⟩
  rotate_left
  · rw [domAt_congr (queueFrame_tim _ _ _), setPtp_dom]; exact tget_tput_self _ _ _
  · rfl
theorem sendAnnounce_queues (p k : Nat) (q : PtpPort) (d : Dev) (h : (portAt d p).link = 2) (hp : p ≠ 16) : ∃ f, f.tag = .control ∧
    (portAt (sendAnnounce p k q d) p).queue = (portAt d p).queue ++ [f] ∧ tget (domAt (sendAnnounce p k q d) k).ports p = some { q with annSeq := (q.annSeq + 1) % 65536, annAt := some d.raw } := by
  have pe : portAt (setPtp k p { q with annSeq := (q.annSeq + 1) % 65536, annAt := some d.raw } d) p = portAt d p := portAt_congr (setPtp_outp _ _ _ _) p
  unfold sendAnnounce
  extract_lets x a seq body
  refine ⟨_, ?_, (((queueFrame_queues p _ _ (by rw [pe]; exact h) hp).2 rfl)).trans (by rw [pe]), ?_⟩
  rotate_left
  · rw [domAt_congr (queueFrame_tim _ _ _), setPtp_dom]; exact tget_tput_self _ _ _
  · rfl
theorem sendDelayReq_queues (p k : Nat) (q : PtpPort) (d : Dev) (h : (portAt d p).link = 2) (hp : p ≠ 16) : ∃ f, f.tag = .event k 1 ((q.reqSeq + 1) % 65536) ∧
    (portAt (sendDelayReq p k q d) p).express = (portAt d p).express ++ [f] ∧ tget (domAt (sendDelayReq p k q d) k).ports p = some { q with reqSeq := (q.reqSeq + 1) % 65536, reqAt := some d.raw } := by
  have pe : portAt (setPtp k p { q with reqSeq := (q.reqSeq + 1) % 65536, reqAt := some d.raw } d) p = portAt d p := portAt_congr (setPtp_outp _ _ _ _) p
  unfold sendDelayReq
  extract_lets r seq
  refine ⟨_, ?_, (((queueFrame_queues p _ _ (by rw [pe]; exact h) hp).1 _ _ _ rfl)).trans (by rw [pe]), ?_⟩
  rotate_left
  · rw [domAt_congr (queueFrame_tim _ _ _), setPtp_dom]; exact tget_tput_self _ _ _
  · rfl

theorem capture_guard (T Y W Z : Bool) (i : Nat) : (!T || decide (8 ≤ i) || !Y || !W || Z) = decide (8 ≤ i ∨ (T && Y && W && !Z) = false) := by
  by_cases h : 8 ≤ i <;> cases T <;> cases Y <;> cases W <;> cases Z <;> simp [h]
theorem ltcFrame_bad (j : Nat) (f : Option Nat) (d : Dev) (h : ltcOn d j = true) (hf : f = none ∨ ∃ v, f = some v ∧ v / 2 ^ 64 % 2 ^ 16 ≠ 0xBFFC) :
    ltcFrame j f d = bump (R.EVT_LTC_ERRORS j) (setLtc j { (if j = 0 then d.tim.ltc0 else d.tim.ltc1) with run := 0 } d) := by
  unfold ltcFrame
  rw [if_neg (by rw [h]; decide)]
  rcases hf with hf | ⟨v, hf, g⟩
  · rw [hf]
  · rw [hf]; dsimp only; rw [if_pos g]
theorem setLtc_at (j : Nat) (x : Ltc) (s : Dev) : (if j = 0 then (setLtc j x s).tim.ltc0 else (setLtc j x s).tim.ltc1) = x ∧ (setLtc j x s).regs = s.regs := by
  unfold setLtc
  by_cases h : j = 0 <;> simp [h]
theorem ltcOn_lt {d : Dev} {j : Nat} (h : ltcOn d j = true) : j < 2 := by
  unfold ltcOn at h
  simp only [Bool.and_eq_true, decide_eq_true_eq] at h
  exact h.1.2
theorem fireEffect_action (i : Nat) (a : Action) (x : Int) (s : Dev) : ∃ y, tget (fireEffect i a x s).tim.actions i = some y ∧ y.fires = a.fires ∧ y.lateFires = a.lateFires := by
  unfold fireEffect
  split
  · extract_lets b
    have hb : tget b.tim.actions i = some { a with pulse := some (s.raw + ns a.width) } := tget_tput_self _ _ _
    refine ⟨{ a with pulse := some (s.raw + ns a.width) }, ?_, rfl, rfl⟩
    split
    · exact hb
    · exact hb
  · split
    · refine ⟨a, ?_, rfl, rfl⟩
      unfold startAdc
      split
      · exact tget_tput_self _ _ _
      · exact tget_tput_self _ _ _
    · split
      · refine ⟨a, ?_, rfl, rfl⟩
        rw [(postEvt_frame _ _ _ _ _).tim]; exact tget_tput_self _ _ _
      · exact ⟨a, tget_tput_self _ _ _, rfl, rfl⟩
theorem armAction_ok {i : Nat} {b : List Byte} {d : Dev} {a : Action} {x : Sched} (h : tget d.tim.actions i = some a) (hx : armSched d a b = .ok x) (hn : clockNow d a ≤ x.next) :
    armAction i b d = (setAction i { a with sched := some x } d, .ok (timeBytes x.next ++ leBytes 4 0)) := by
  have hm : missed i x d = (setAction i { a with sched := some x } d, 0, 0) := by
    unfold missed; rw [h]; dsimp only; unfold Sched.pass; rw [if_pos hn]; rfl
  unfold armAction
  rw [h]; dsimp only; rw [hx]; dsimp only; rw [hm]; rfl
theorem armAction_late {i : Nat} {b : List Byte} {d : Dev} {a : Action} {x : Sched} (h : tget d.tim.actions i = some a) (hx : armSched d a b = .ok x) (hn : x.next < clockNow d a)
    (hp : a.policy = 0) (hm : x.mode = 0) : ∃ e late y, armAction i b d = (e, .ok (timeBytes x.next ++ leBytes 4 late)) ∧ tget e.tim.actions i = some y ∧
      y.fires = sat (a.fires + 1) ∧ y.lateFires = sat (a.lateFires + 1) := by
  have hpass : x.pass d a (clockNow d a) = (1, none) := by
    have hl : x.leap d a = (0, some x) := by
      unfold Sched.leap
      split
      · rfl
      · extract_lets k; rw [if_pos (.inl (by omega))]
    unfold Sched.pass
    rw [if_neg (by omega), hl]
    dsimp only
    rw [show (4096 : Nat) = 4095 + 1 from rfl]
    unfold Sched.skip
    rw [if_neg (by omega)]
    split
    · rename_i g; rw [hm] at g; cases g
    · rename_i g; rw [hm] at g; cases g
    · rfl
  obtain ⟨y, y1, y2, y3⟩ := fireEffect_action i { a with fires := sat (a.fires + 1), lateFires := sat (a.lateFires + 1), lateNs := max a.lateNs (sat ((clockNow d a - x.next) / 65536).toNat), sched := none } (clockNow d a) d
  have hms : missed i x d = (postEvt 3 0x02 i (sat ((clockNow d a - x.next) / 65536).toNat) (fireEffect i { a with fires := sat (a.fires + 1), lateFires := sat (a.lateFires + 1), lateNs := max a.lateNs (sat ((clockNow d a - x.next) / 65536).toNat), sched := none } (clockNow d a) d), sat ((clockNow d a - x.next) / 65536).toNat, 1) := by
    unfold missed; rw [h]; dsimp only; rw [hpass]; dsimp only; rw [if_neg (by decide), if_pos hp]
  refine ⟨postEvt 3 0x02 i (sat ((clockNow d a - x.next) / 65536).toNat) (fireEffect i { a with fires := sat (a.fires + 1), lateFires := sat (a.lateFires + 1), lateNs := max a.lateNs (sat ((clockNow d a - x.next) / 65536).toNat), sched := none } (clockNow d a) d), sat ((clockNow d a - x.next) / 65536).toNat, y, ?_, ?_, y2, y3⟩
  · unfold armAction
    rw [h]; dsimp only; rw [hx]; dsimp only; rw [hms]; dsimp only
    rw [if_neg (by omega)]
  · rw [(postEvt_frame _ _ _ _ _).tim]; exact y1
theorem capsOf_congr {a b : Dev} (h : a.tim.caps = b.tim.caps) (i : Nat) : capsOf a i = capsOf b i := by unfold capsOf; rw [h]
theorem fireAction_run {t : Time} {i : Nat} {s : State} {d : Dev} {a : Action} {x : Sched} (hx : upTo t s.toDev = d) (h : tget d.tim.actions i = some a) (hs : a.sched = some x) (hd : a.device = none)
    (hr : actionsRun d = true) (hn : x.next ≤ clockNow d a + 5 * 65536) : Completes (.actionFired t i) s (fireAction i d) := by
  refine completes (f := runActionFired t i) rfl ?_
  unfold runActionFired; dsimp only; rw [hx, h]; dsimp only; rw [hs]; dsimp only; rw [hd, hr, if_pos (by simp; exact hn)]
theorem switchBody_named (handle : Word) (b : List Byte) (d : Dev) (c : Canvas) (h0 : handle ≠ 0) (hk : hKind handle = 5) (ho : (objOf d handle).isSome = true)
    (hc : canvasAt d (hIndex handle) = some c) (h1 : at_ b 0 1 ≤ 1) (h2 : at_ b 1 1 ≤ 1) (h3 : at_ b 2 1 ≤ 10) (h4 : at_ b 3 5 = 0) :
    switchBody handle b d = (if !(switchAgrees d (at_ b 0 1) (if c.domain != at_ b 0 1 then [hIndex handle] else []) &&
        (if c.domain != at_ b 0 1 then [(hIndex handle, c)] else []).all fun e => commensurate (domAt d (at_ b 0 1)).rec_ e.2.timing.rateNum e.2.timing.rateDen) then (d, fails handle rcConflict)
      else (if c.domain = at_ b 0 1 ∧ !(at_ b 1 1 == 1) then d else
          setCanvas (hIndex handle) { c with switch := some { dest := at_ b 0 1, step := at_ b 1 1 == 1, ppm := if at_ b 2 1 = 0 then 10 else at_ b 2 1, tick := switchTick d c (timeOf (at_ b 8 8) (at_ b 16 4)) } } d,
        done handle (switchData d c (at_ b 0 1) (switchTick d c (timeOf (at_ b 8 8) (at_ b 16 4)))))) := by
  unfold switchBody
  extract_lets dest flags ppm at' named cs moves data step s'
  rw [if_neg (by rw [hk, ho]; simp), if_neg (by omega)]
  have e1 : cs = [(hIndex handle, c)] := by
    simp only [cs, named, if_neg h0, List.filterMap_cons, hc, Option.map_some, List.filterMap_nil]
  have e2 : moves = if c.domain != dest then [(hIndex handle, c)] else [] := by
    simp only [moves, e1, List.filter_cons, List.filter_nil]
  have e3 : moves.map (·.1) = if c.domain != dest then [hIndex handle] else [] := by
    rw [e2]; split <;> rfl
  rw [e3, e2]
  simp only [data, s', e1, List.foldl_cons, List.foldl_nil]
  rfl

theorem makeReady_site (n : Nat) (s : Dev) : (makeReady n s).site = s.site := (makeReady_placed n s).site
theorem grantPush_keeps (n x : Nat) (s : Dev) : (grantPush n x s).site = s.site ∧ ∀ o, o ≠ R.SCH_GROUP_WAITS → rg (grantPush n x s) o = rg s o := by
  unfold grantPush
  split
  · exact ⟨rfl, fun _ _ => rfl⟩
  · dsimp only
    refine ⟨(makeReady_site _ _).trans ?_, fun o h => (makeReady_keepsReg h _ _).trans ?_⟩
    · split <;> rfl
    · split <;> rfl
theorem pushItem_site (n x : Nat) (s : Dev) : (pushItem n x s).site = s.site := by
  unfold pushItem
  split
  · rfl
  · split
    · exact (grantPush_keeps _ _ _).1
    · dsimp only
      split
      · split
        · exact (postCode_frame _ _ _ _ _).site
        · rfl
      · exact (postCode_frame _ _ _ _ _).site
theorem pushItem_rg (n x : Nat) (s : Dev) {o : Nat} (h : o ≠ R.SCH_GROUP_WAITS) (h2 : o ≠ R.SCH_BP_WAITS) (h3 : o ∉ postCounters) : rg (pushItem n x s) o = rg s o := by
  unfold pushItem
  split
  · rfl
  · split
    · exact (grantPush_keeps _ _ _).2 o h
    · dsimp only
      split
      · split
        · exact ((postCode_frame _ _ _ _ _).2 o h3).trans (rg_bump_ne (setWaits n (waitsAt s n ++ [x]) s) h2)
        · exact rg_bump_ne _ h2
      · exact ((postCode_frame _ _ _ _ _).2 o h3).trans (rg_bump_ne (setWaits n (waitsAt s n ++ [x]) s) h2)
theorem telReport_seqs (a b c v : Nat) (s : Dev) : (telReport a b c v s).site.seqs = s.site.seqs := by
  have h := telReport_spec a b c v s
  dsimp only at h
  cases hf : s.site.sensors.find? fun e => !e.2.rdm && e.2.ident == a && e.2.channel == c && isLive s (okey 9 e.1) && isLive s (okey 8 e.2.zone) with
  | none => rw [h.1 hf]; rfl
  | some e =>
    obtain ⟨h1, h2, h3⟩ := h.2 e.1 e.2 hf
    by_cases g : b = (if e.2.daylight then 2 else 1)
    · by_cases k : e.2.tokens s.raw < sec 1
      · rw [h2 g k]; rfl
      · rw [h3 g (Nat.not_lt.mp k), bump_site, pushItem_site]
    · rw [h1 g]; rfl
theorem reports_seqs (b : List Byte) (a : Nat) (l : List Nat) (s : Dev) :
    (l.foldl (fun s i => telReport a (at_ b (12 + 8 * i) 1) (at_ b (13 + 8 * i) 1) (at_ b (16 + 8 * i) 4) s) s).site.seqs = s.site.seqs := by
  induction l generalizing s with
  | nil => rfl
  | cons x l ih => exact (ih _).trans (telReport_seqs _ _ _ _ _)
theorem pushItem_room (n x : Nat) (s : Dev) (k : Task) (hk : tget s.sch.tasks n = some k) (hn : (pushRoom s k && waitsAt s n == []) = true) :
    ∃ k', tget (pushItem n x s).sch.tasks n = some k' ∧ k'.inbox = k.inbox ++ [x % 2 ^ 48 + (if k.grouped then (groupAt s k.group).issue else 0) * 2 ^ 48] ∧ k'.flags % 2 = 1 := by
  obtain ⟨⟨k', k1, k2, k3, -⟩, -⟩ := grantPush_spec n x s k hk
  refine ⟨k', ?_, k2, k3⟩
  unfold pushItem; rw [hk]; dsimp only; rw [if_pos hn]; exact k1

end Sys2Proof.Machine
end

