-- ==== Sys2Proof/Laws/Peers.lean ====
section
/-! SUPPORT. The valley and the pair: what their operations do. -/

namespace Sys2Proof.Machine

theorem linkAt_setLink_ne {k l : Nat} (h : k ≠ l) (x : VLink) (s : Dev) : linkAt (setLink l x s) k = linkAt s k := by
  unfold linkAt setLink
  dsimp only
  rw [tget_tput_ne _ _ h]
/-- Every link but one, and the members, stay as they are. -/
structure LinkOnly (l : Nat) (a b : Dev) : Prop where
  others : ∀ k, k ≠ l → linkAt b k = linkAt a k
  members : b.val.members = a.val.members
theorem LinkOnly.refl (l : Nat) (s : Dev) : LinkOnly l s s := ⟨fun _ _ => rfl, rfl⟩
theorem LinkOnly.trans {l : Nat} {a b c : Dev} (h : LinkOnly l a b) (g : LinkOnly l b c) : LinkOnly l a c :=
  ⟨fun k x => (g.others k x).trans (h.others k x), g.members.trans h.members⟩
theorem LinkOnly.set (l : Nat) (x : VLink) (s : Dev) : LinkOnly l s (setLink l x s) := ⟨fun _ h => linkAt_setLink_ne h _ _, rfl⟩
theorem LinkOnly.net {l : Nat} {a b : Dev} (h : NetKept a b) : LinkOnly l a b := ⟨fun k _ => linkAt_congr h.links k, h.members⟩
theorem examine_only (l : Nat) (h : HelloMsg) (s : Dev) : LinkOnly l s (examine l h s) := by
  unfold examine
  split
  · exact .set _ _ _
  · split
    · exact .set _ _ _
    · split
      · dsimp only
        split
        · exact .set _ _ _
        · exact (LinkOnly.set _ _ _).trans (.net (postVal_net _ _ _ _ _))
      · exact (LinkOnly.set _ _ _).trans (.net ((postVal_net _ _ _ _ _).trans ((sendUpdate_net _).trans (membersChanged_net _))))
theorem linkFail_only (l : Nat) (s : Dev) : LinkOnly l s (linkFail l s) := by
  unfold linkFail
  dsimp only
  split
  · have h : LinkOnly l s (relayAbandon l (postVal 7 0x02 l 0 (setLink l { state := 1, failed := (linkAt s l).failed } s))) :=
      (LinkOnly.set _ _ _).trans (.net ((postVal_net _ _ _ _ _).trans (.of (relayAbandon_val _ _))))
    split
    · exact h.trans (.net ((sendUpdate_net _).trans (membersChanged_net _)))
    · exact h
  · split
    · exact .set _ _ _
    · exact .refl _ _
theorem vOut_out (l : Nat) (p : VPkt) (s : Dev) : (vOut l p s).out = (if (linkAt s l).state = 4 then [.valley l p] else []) ++ s.out := by
  unfold vOut; split <;> rfl
theorem flood_out (f : Nat → VPkt) (l : Nat) (us : List (Nat × Nat)) (s : Dev) (h : (linkAt s l).state = 4) :
    (l ∈ us.map (·.1) → .valley l (f s.val.addr) ∈ (us.foldl (fun s e => vOut e.1 (f s.val.addr) s) s).out) ∧ (∀ x ∈ s.out, x ∈ (us.foldl (fun s e => vOut e.1 (f s.val.addr) s) s).out) := by
  induction us generalizing s with
  | nil => exact ⟨fun h => (by cases h), fun x h => h⟩
  | cons u us ih =>
    have hw : (vOut u.1 (f s.val.addr) s).val = s.val := vOut_val _ _ _
    have hv : linkAt (vOut u.1 (f s.val.addr) s) l = linkAt s l := linkAt_congr (congrArg (·.links) hw) l
    obtain ⟨i1, i2⟩ := ih (vOut u.1 (f s.val.addr) s) (by rw [hv]; exact h)
    rw [hw] at i1
    refine ⟨fun m => ?_, fun x hx => i2 x ?_⟩
    · by_cases e : l = u.1
      · subst e
        refine i2 _ ?_
        rw [vOut_out, if_pos h]; exact List.mem_cons_self
      · refine i1 ?_
        simpa [e] using m
    · rw [vOut_out]; exact List.mem_append_right _ hx
theorem tget_mem {α : Type} {m : Tbl α} {k : Nat} {v : α} (h : tget m k = some v) : (k, v) ∈ m := by
  induction m with
  | nil => cases h
  | cons e m ih =>
    unfold tget at h
    split at h
    · rename_i q; cases h; subst q; exact List.mem_cons_self
    · exact List.mem_cons_of_mem _ (ih h)
theorem linkAt_mem {l : Nat} {s : Dev} (h : (linkAt s l).state = 4) : l ∈ (upLinks s).map (·.1) := by
  unfold linkAt at h
  cases g : tget s.val.links l with
  | none => rw [g] at h; cases h
  | some x =>
    rw [g] at h
    unfold upLinks
    have := tget_mem g
    rw [List.map_map]
    exact List.mem_map.mpr ⟨(l, x), List.mem_filter.mpr ⟨this, by simpa using h⟩, rfl⟩
theorem unplaceMig_val (k : Nat) (s : Dev) : (unplace 0xD k s).val.members = s.val.members ∧ (unplace 0xD k s).val.links = s.val.links := by
  unfold unplace
  split <;> exact ⟨rfl, rfl⟩
theorem valSend_val (typ cls dst epoch handle frame aux : Nat) (odd : Bool) (m : VMsg) (s : Dev) : (valSend typ cls dst epoch handle frame aux odd m s).val = s.val := by
  unfold valSend
  split
  · exact vOut_val _ _ _
  · rfl
theorem abortMig_val (k : Nat) (m : Mig) (s : Dev) : (abortMig k m s).val.members = s.val.members ∧ (abortMig k m s).val.links = s.val.links := by
  unfold abortMig
  split
  · unfold refuseMig
    dsimp only
    split
    · rw [complete_rest]
      have e : ∀ f x, (countRefusal f x).val = x.val := fun f x => by unfold countRefusal; split <;> rfl
      dsimp only
      rw [e]; exact unplaceMig_val _ _
    · exact unplaceMig_val _ _
  · split
    · dsimp only
      have p := postVal_net 7 0x0D m.target k
      split
      · split
        · exact ⟨(p _).members.trans (congrArg (·.members) ((valSend_val _ _ _ _ _ _ _ _ _ _).trans (valSend_val _ _ _ _ _ _ _ _ _ _))),
            (p _).links.trans (congrArg (·.links) ((valSend_val _ _ _ _ _ _ _ _ _ _).trans (valSend_val _ _ _ _ _ _ _ _ _ _)))⟩
        · exact ⟨(p _).members.trans (congrArg (·.members) (valSend_val _ _ _ _ _ _ _ _ _ _)), (p _).links.trans (congrArg (·.links) (valSend_val _ _ _ _ _ _ _ _ _ _))⟩
      · exact ⟨(p _).members.trans (congrArg (·.members) (valSend_val _ _ _ _ _ _ _ _ _ _)), (p _).links.trans (congrArg (·.links) (valSend_val _ _ _ _ _ _ _ _ _ _))⟩
    · exact ⟨rfl, rfl⟩
theorem abortMigs_val (f : Mig → Bool) (s : Dev) : (abortMigs f s).val.members = s.val.members ∧ (abortMigs f s).val.links = s.val.links := by
  unfold abortMigs
  generalize s.val.migs.filter (fun e => f e.2) = l
  induction l generalizing s with
  | nil => exact ⟨rfl, rfl⟩
  | cons a l ih =>
    obtain ⟨i1, i2⟩ := ih (abortMig a.1 a.2 s)
    exact ⟨i1.trans (abortMig_val _ _ _).1, i2.trans (abortMig_val _ _ _).2⟩
theorem vHead_dst (a b dst c h e l k f x : Nat) (hd : dst < 256) : at_ (vHead a b dst c h e l k f x) 2 1 = dst := by
  have : at_ (vHead a b dst c h e l k f x) 2 1 = (BitVec.ofNat 8 (dst / 256 ^ 0)).toNat := rfl
  rw [this]; simp; omega

theorem sendAll_out (p : Nat → VPkt) (ls : List Nat) (s : Dev) (l : Nat) (h : (linkAt s l).state = 4) :
    (l ∈ ls → .valley l (p s.val.addr) ∈ (ls.foldl (fun s l => vOut l (p s.val.addr) s) s).out) ∧ (∀ x ∈ s.out, x ∈ (ls.foldl (fun s l => vOut l (p s.val.addr) s) s).out) := by
  induction ls generalizing s with
  | nil => exact ⟨fun h => (by cases h), fun x h => h⟩
  | cons u us ih =>
    have hw : (vOut u (p s.val.addr) s).val = s.val := vOut_val _ _ _
    have hv : linkAt (vOut u (p s.val.addr) s) l = linkAt s l := linkAt_congr (congrArg (·.links) hw) l
    obtain ⟨i1, i2⟩ := ih (vOut u (p s.val.addr) s) (by rw [hv]; exact h)
    rw [hw] at i1
    refine ⟨fun m => ?_, fun x hx => i2 x ?_⟩
    · by_cases e : l = u
      · subst e
        refine i2 _ ?_
        rw [vOut_out, if_pos h]; exact List.mem_cons_self
      · refine i1 ?_
        simpa [e] using m
    · rw [vOut_out]; exact List.mem_append_right _ hx
theorem asks_out (m : VMsg) (ls : List Nat) (s : Dev) (l : Nat) :
    (l ∈ ls → ∃ p, .valley l p ∈ (ls.foldl (fun s l => relayOut l m s) s).out ∧ p.body = m ∧ at_ p.header 2 1 = 0) ∧ (∀ x ∈ s.out, x ∈ (ls.foldl (fun s l => relayOut l m s) s).out) := by
  induction ls generalizing s with
  | nil => exact ⟨fun h => (by cases h), fun x h => h⟩
  | cons u us ih =>
    obtain ⟨i1, i2⟩ := ih (relayOut u m s)
    refine ⟨fun hm => ?_, fun x hx => i2 x (List.mem_cons_of_mem _ hx)⟩
    by_cases e : l = u
    · subst e
      exact ⟨_, i2 _ List.mem_cons_self, rfl, vHead_dst _ _ _ _ _ _ _ _ _ _ (by decide)⟩
    · exact i1 (by simpa [e] using hm)
theorem asks_rest (m : VMsg) (ls : List Nat) (s : Dev) : (ls.foldl (fun s l => relayOut l m s) s).boot = s.boot ∧ (ls.foldl (fun s l => relayOut l m s) s).regs = s.regs := by
  induction ls generalizing s with
  | nil => exact ⟨rfl, rfl⟩
  | cons u us ih => exact ih (relayOut u m s)
theorem vOut_regs (l : Nat) (p : VPkt) (s : Dev) : (vOut l p s).regs = s.regs ∧ (vOut l p s).cmd = s.cmd ∧ (vOut l p s).raw = s.raw := by
  unfold vOut; split <;> exact ⟨rfl, rfl, rfl⟩
theorem valSend_regs (typ cls dst epoch handle frame aux : Nat) (odd : Bool) (m : VMsg) (s : Dev) : (valSend typ cls dst epoch handle frame aux odd m s).regs = s.regs := by
  unfold valSend
  split
  · exact (vOut_regs _ _ _).1
  · rfl
theorem vOuts_keep (p : VPkt) (ls : List Nat) (s : Dev) : let e := ls.foldl (fun s k => vOut k p s) s
    e.val = s.val ∧ e.regs = s.regs ∧ e.cmd = s.cmd ∧ e.raw = s.raw ∧ e.fuses = s.fuses := by
  induction ls generalizing s with
  | nil => exact ⟨rfl, rfl, rfl, rfl, rfl⟩
  | cons u us ih =>
    obtain ⟨a, b, c, d, e⟩ := ih (vOut u p s)
    have g := vOut_regs u p s
    have f : (vOut u p s).fuses = s.fuses := by unfold vOut; split <;> rfl
    exact ⟨a.trans (vOut_val _ _ _), b.trans g.1, c.trans g.2.1, d.trans g.2.2, e.trans f⟩
theorem pump_waits {a b : Dev} (h : a.regs = b.regs) (c : a.cmd = b.cmd) (w : waiting b = 0) : pump a = a :=
  pump_idle ((waiting_ext (by unfold rg; rw [h]) (by unfold rg; rw [h]) c).trans w)

theorem queueFrame_red (n : Nat) (f : TxFrame) (s : Dev) : (queueFrame n f s).red = s.red := by
  unfold queueFrame
  dsimp only
  split
  · rfl
  · split
    · rfl
    · split <;> rfl
theorem foldl_red {α : Type} (f : Dev → α → Dev) (h : ∀ s a, (f s a).red = s.red) (l : List α) (s : Dev) : (l.foldl f s).red = s.red := by
  induction l generalizing s with
  | nil => rfl
  | cons a l ih => exact (ih _).trans (h _ _)
theorem joinStream_red (i : Nat) (s : Dev) : (joinStream i s).red = s.red := by
  unfold joinStream
  split
  · unfold joinGroup reportChange sendIgmp
    exact (queueFrame_red _ _ _).trans rfl
  · rfl
theorem startInput_red (i : Nat) (s : Dev) : (startInput i s).red = s.red := by
  unfold startInput
  split <;> rfl
theorem startDue_red (s : Dev) : (startDue s).red = s.red := by
  unfold startDue
  dsimp only
  exact (foldl_red _ (fun s a => startInput_red _ _) _ _).trans (foldl_red _ (fun s a => joinStream_red _ _) _ _)
theorem makeReady_red (n : Nat) (s : Dev) : (makeReady n s).red = s.red := congrArg (·.red) (makeReady_placed n s).rest
theorem holdObj_red (k : Nat) (b : Bool) (s : Dev) : (holdObj k b s).red = s.red := by
  have m : ∀ n v f, (setMask n v f).red = f.red := fun n v f => by
    unfold setMask; split
    · rfl
    · rw [makeReady_red]; rfl
  have g : ∀ z f, (freezeZone z f).red = f.red := fun z f => by
    unfold freezeZone; split
    · rw [m]; rfl
    · rfl
  unfold holdObj; dsimp only; repeat' split
  all_goals first | rfl | (rw [g]; rfl)
theorem modLine_red (n : Nat) (f : Line → Line) (s : Dev) : (modLine n f s).red = s.red := by
  unfold modLine setLine; split <;> rfl
theorem startSiteUniv_red (i : Nat) (s : Dev) : (startSiteUniv i s).red = s.red := by
  unfold startSiteUniv; dsimp only; repeat' split
  all_goals first | rfl | (rw [modLine_red])
theorem zoneOverride_red (z : Nat) (s : Dev) : (zoneOverride z s).red = s.red := by
  unfold zoneOverride
  dsimp only
  repeat' split
  all_goals first | rfl | exact (postSite_frame _ _ _ _ _).red.trans rfl
theorem startObj_red (k a : Nat) (s : Dev) : (startObj k a s).red = s.red := by
  unfold startObj
  split
  · split
    · rw [startDue_red, holdObj_red]
      dsimp only
      split
      · exact startSiteUniv_red _ _
      · rfl
      · exact zoneOverride_red _ _
      · rfl
    · rfl
  · rfl
theorem goActive_red (s : Dev) : (goActive s).red.ilk = s.red.ilk ∧ (goActive s).red.claim = none ∧ (goActive s).red.handover = s.red.handover := by
  have t := (toMode_spec .active { s with sys.tActive := s.raw, red.claim := none, red.full := true }).2
  have e : ∃ l, (goActive s).red = { (toMode .active { s with sys.tActive := s.raw, red.claim := none, red.full := true }).red with link := l } := by
    unfold goActive
    dsimp only
    generalize toMode .active { s with sys.tActive := s.raw, red.claim := none, red.full := true } = s1
    have h1 : (linesActive (startConversion (startImage s1))).red = (startConversion (startImage s1)).red := by
      unfold linesActive
      exact foldl_red _ (fun s n => by split
                                       · rfl
                                       · exact modLine_red _ _ _) _ _
    have h2 : (startImage s1).red = s1.red := by
      unfold startImage
      extract_lets light
      refine foldl_red _ (fun s e => ?_) _ _
      exact startObj_red e.1 (if canvasPaced e.1 e.2 then 0 else light) s
    exact ⟨_, by rw [h1, (startConversion_pair (startImage s1)).red, h2]⟩
  obtain ⟨l, e⟩ := e
  rw [e, t]; exact ⟨rfl, rfl, rfl⟩
theorem gratuitous_red (n : Nat) (s : Dev) : (gratuitous n s).red = s.red ∧ (gratuitous n s).sys = s.sys ∧ (gratuitous n s).regs = s.regs := by
  unfold gratuitous
  generalize ownIps s n = l
  induction l generalizing s with
  | nil => exact ⟨rfl, rfl, rfl⟩
  | cons a l ih =>
    obtain ⟨i1, i2, i3⟩ := ih (if a = 0 then s else sendArp n 1 macAll a 0 a s)
    by_cases h : a = 0
    · rw [if_pos h] at i1 i2 i3
      simp only [List.foldl_cons, if_pos h]
      exact ⟨i1, i2, i3⟩
    · rw [if_neg h] at i1 i2 i3
      simp only [List.foldl_cons, if_neg h]
      exact ⟨i1.trans (queueFrame_red _ _ _), i2.trans (queueFrame_regs _ _ _).2, i3.trans (queueFrame_regs _ _ _).1⟩
theorem gratuitousAll (l : List Nat) (s : Dev) : (l.foldl (fun s n => gratuitous n s) s).red = s.red ∧ (l.foldl (fun s n => gratuitous n s) s).sys = s.sys ∧
    (l.foldl (fun s n => gratuitous n s) s).regs = s.regs := by
  induction l generalizing s with
  | nil => exact ⟨rfl, rfl, rfl⟩
  | cons a l ih =>
    obtain ⟨a1, a2, a3⟩ := gratuitous_red a s
    obtain ⟨b1, b2, b3⟩ := ih (gratuitous a s)
    exact ⟨b1.trans a1, b2.trans a2, b3.trans a3⟩
/-- A claim that is won (R340, R349). -/
theorem takeover_spec (u : Bool) (s : Dev) : (takeover u s).sys.mode = .active ∧ (takeover u s).sys.tActive = s.raw ∧ (takeover u s).red.ilk = true ∧ (takeover u s).red.claim = none ∧
    (takeover u s).red.handover = none ∧ rg (takeover u s) R.RED_CLAIMS_WON = BitVec.ofNat 32 (min ((rg s R.RED_CLAIMS_WON).toNat + 1) 0xFFFFFFFF) ∧
    rg (takeover u s) R.RED_TAKEOVERS = BitVec.ofNat 32 (min ((rg s R.RED_TAKEOVERS).toNat + 1) 0xFFFFFFFF) := by
  unfold takeover
  extract_lets s1 s2 fromImage num s3 s4 b s5
  have q3 : s3 = goActive (restart s2) := rfl
  have q1 : s1.red.ilk = true ∧ s1.raw = s.raw ∧ s1.regs = (bump R.RED_CLAIMS_WON s).regs := ⟨rfl, rfl, rfl⟩
  have q4 : s4 = ((List.range 16).filter (portOn s3)).foldl (fun s n => gratuitous n s) s3 := rfl
  have q5 : s5 = postRed 6 0x07 (b u 1 + b fromImage 2 + 256 * (num % 2 ^ 24)) (lifeUp 3 (bump R.RED_TAKEOVERS s4)) := rfl
  have r2 : s2.regs = s1.regs ∧ s2.red = s1.red ∧ s2.raw = s1.raw := by simp only [s2]; split <;> exact ⟨rfl, rfl, rfl⟩
  clear_value s5 s4 s3 s2 s1 num fromImage b
  obtain ⟨g1, g2⟩ := goActive_sys (restart s2)
  obtain ⟨k1, k2, k3⟩ := goActive_red (restart s2)
  obtain ⟨a1, a2, a3⟩ := gratuitousAll ((List.range 16).filter (portOn s3)) s3
  rw [← q4] at a1 a2 a3
  rw [← q3] at g1 g2 k1 k2 k3
  have p := postRed_pair 6 0x07 (b u 1 + b fromImage 2 + 256 * (num % 2 ^ 24)) (lifeUp 3 (bump R.RED_TAKEOVERS s4))
  rw [← q5] at p
  have ls : ∀ x, (lifeUp 3 x).sys = x.sys ∧ (lifeUp 3 x).red = x.red ∧ (lifeUp 3 x).regs = x.regs := fun x => ⟨rfl, rfl, rfl⟩
  have rs : (restart s2).red = s2.red ∧ (restart s2).raw = s2.raw ∧ (restart s2).regs = s2.regs := ⟨rfl, rfl, rfl⟩
  have ga : ∀ o, o ∉ netRegs → o ≠ R.SCH_GROUP_WAITS → rg s4 o = rg s1 o := fun o h h' => by
    rw [rg_congr a3, q3, goActive_keepsReg h h', rg_congr rs.2.2, rg_congr r2.1]
  have e1 : s5.sys = s3.sys := p.2.1.trans ((ls _).1.trans ((bump_sys _ _).trans a2))
  have e2 : s5.red = s3.red := p.1.trans ((ls _).2.1.trans ((bump_red _ _).trans a1))
  have e3 : rg s5 R.RED_CLAIMS_WON = BitVec.ofNat 32 (min ((rg s R.RED_CLAIMS_WON).toNat + 1) 0xFFFFFFFF) := by
    rw [p.2.2 _ (by decide), rg_congr (ls _).2.2, rg_bump_ne _ (by decide), ga _ (by decide) (by decide), rg_congr q1.2.2, rg_bump_self]
  have e4 : rg s5 R.RED_TAKEOVERS = BitVec.ofNat 32 (min ((rg s R.RED_TAKEOVERS).toNat + 1) 0xFFFFFFFF) := by
    rw [p.2.2 _ (by decide), rg_congr (ls _).2.2, rg_bump_self, ga _ (by decide) (by decide), rg_congr q1.2.2, rg_bump_ne _ (by decide)]
  have i : s5.red.ilk = true := by rw [e2, k1, rs.1, r2.2.1, q1.1]
  have c : s5.red.claim = none := by rw [e2, k2]
  have m : s5.sys.mode = .active := by rw [e1, g1]
  have ta : s5.sys.tActive = s.raw := by rw [e1, g2, rs.2.1, r2.2.2, q1.2.1]
  split
  · split
    · have q := fun v => postRed_pair 6 0x0A v (bump R.RED_HANDOVERS { s5 with red.handover := none })
      refine ⟨by rw [(q _).2.1]; exact m, by rw [(q _).2.1]; exact ta, by rw [(q _).1]; exact i, by rw [(q _).1]; exact c, by rw [(q _).1]; rfl, ?_, ?_⟩
      · rw [(q _).2.2 _ (by decide), rg_bump_ne _ (by decide)]; exact e3
      · rw [(q _).2.2 _ (by decide), rg_bump_ne _ (by decide)]; exact e4
    · exact ⟨m, ta, i, c, rfl, e3, e4⟩
  · rename_i h; exact ⟨m, ta, i, c, h, e3, e4⟩
theorem OutOnly.red {a b : Dev} (h : OutOnly a b) : b.red = a.red := by
  have := congrArg Dev.red h; exact this
theorem OutOnly.sys {a b : Dev} (h : OutOnly a b) : b.sys = a.sys := by
  have := congrArg Dev.sys h; exact this
theorem pathAt_other (p : Nat) (v : Path) (s : Dev) (h : p = 1 ∨ p = 2) : pathAt (setPath p v s) (3 - p) = pathAt s (3 - p) := by
  rcases h with h | h <;> subst h <;> rfl
theorem setPath_keeps (p : Nat) (v : Path) (s : Dev) : (setPath p v s).sys = s.sys ∧ (setPath p v s).regs = s.regs ∧ (setPath p v s).out = s.out ∧ (setPath p v s).red.word = s.red.word ∧
    (setPath p v s).red.ilk = s.red.ilk ∧ (setPath p v s).red.handover = s.red.handover ∧ (setPath p v s).red.role = s.red.role ∧ hbRuns (setPath p v s) = hbRuns s := by
  unfold setPath; split <;> exact ⟨rfl, rfl, rfl, rfl, rfl, rfl, rfl, rfl⟩
theorem handoverSeen_none (s : Dev) (h : s.red.handover = none) : handoverSeen s = s := by
  unfold handoverSeen; rw [h]
/-- What a valid heartbeat does to its path. -/
def beat (path w : Nat) (d : Dev) (x : Path) : Dev :=
  if !x.up && decide (10 ≤ x.run + 1) then
          postRed 6 0x02 path (setPath path { pathAt (setPath path { x with seq := some (hbSeq (w % 2 ^ 64)), at_ := d.raw, missAt := d.raw, run := x.run + 1 } { d with red.word := w % 2 ^ 64 }) path with up := true }
            { setPath path { x with seq := some (hbSeq (w % 2 ^ 64)), at_ := d.raw, missAt := d.raw, run := x.run + 1 } { d with red.word := w % 2 ^ 64 } with red.saidUnreachable := false })
          else setPath path { x with seq := some (hbSeq (w % 2 ^ 64)), at_ := d.raw, missAt := d.raw, run := x.run + 1 } { d with red.word := w % 2 ^ 64 }
theorem beat6 (path w : Nat) (d : Dev) (x : Path) (hx : x = pathAt d path) (h3 : x.seq ≠ some (hbSeq (w % 2 ^ 64))) (h2 : hbRuns d = true) (hm : hbMode (w % 2 ^ 64) = hbMode w)
    (g1 : hbMode w ≠ 6) (g2 : hbMode w = 5 → hbMode d.red.word = 5) : hbRx path (w % 2 ^ 64) d = handoverSeen (dualActive d.red.word (beat path w d x)) := by
  unfold hbRx beat; dsimp only
  subst hx
  rw [if_neg h3]
  have rS : hbRuns (setPath path { pathAt d path with seq := some (hbSeq (w % 2 ^ 64)), at_ := d.raw, missAt := d.raw, run := (pathAt d path).run + 1 } { d with red.word := w % 2 ^ 64 }) = true :=
    (setPath_keeps _ _ _).2.2.2.2.2.2.2.trans h2
  generalize setPath path { pathAt d path with seq := some (hbSeq (w % 2 ^ 64)), at_ := d.raw, missAt := d.raw, run := (pathAt d path).run + 1 } { d with red.word := w % 2 ^ 64 } = S at rS ⊢
  rw [if_neg (c := (!hbRuns S) = true) (by rw [rS]; decide), if_neg (c := hbMode (w % 2 ^ 64) = 6 ∧ hbMode d.red.word ≠ 6) (by rw [hm]; rintro ⟨a, -⟩; exact g1 a),
    if_neg (c := hbMode (w % 2 ^ 64) = 5 ∧ hbMode d.red.word ≠ 5) (by rw [hm]; rintro ⟨a, b⟩; exact b (g2 a))]
theorem beat6_keeps (path w : Nat) (d : Dev) (x : Path) (h4 : d.red.handover = none) : (beat path w d x).sys = d.sys ∧ (beat path w d x).red.word = w % 2 ^ 64 ∧
    (beat path w d x).red.role = d.red.role ∧ (beat path w d x).red.handover = none ∧ ∀ o, o ∉ postCounters → rg (beat path w d x) o = rg d o := by
  obtain ⟨k1, k2, k3, k4, k5, k6, k7, k8⟩ := setPath_keeps path { x with seq := some (hbSeq (w % 2 ^ 64)), at_ := d.raw, missAt := d.raw, run := x.run + 1 } { d with red.word := w % 2 ^ 64 }
  unfold beat
  split
  · rw [pathAt_setPath]
    obtain ⟨l1, l2, l3, l4, l5, l6, l7, l8⟩ := setPath_keeps path { x with up := true, seq := some (hbSeq (w % 2 ^ 64)), at_ := d.raw, missAt := d.raw, run := x.run + 1 }
      { setPath path { x with seq := some (hbSeq (w % 2 ^ 64)), at_ := d.raw, missAt := d.raw, run := x.run + 1 } { d with red.word := w % 2 ^ 64 } with red.saidUnreachable := false }
    have p := postRed_pair 6 0x02 path (setPath path { x with up := true, seq := some (hbSeq (w % 2 ^ 64)), at_ := d.raw, missAt := d.raw, run := x.run + 1 }
      { setPath path { x with seq := some (hbSeq (w % 2 ^ 64)), at_ := d.raw, missAt := d.raw, run := x.run + 1 } { d with red.word := w % 2 ^ 64 } with red.saidUnreachable := false })
    exact ⟨p.2.1.trans (l1.trans k1), by rw [p.1, l4]; exact k4, by rw [p.1, l7]; exact k7, by rw [p.1, l6]; exact k6.trans h4, fun o ho => (p.2.2 o ho).trans ((rg_congr l2 o).trans (rg_congr k2 o))⟩
  · exact ⟨k1, k4, k7, k6.trans h4, fun o _ => rg_congr k2 o⟩

theorem pixels_sum (f : Nat → Bool) : ((List.range 8).map fun n => if f n then 2 ^ n else 0).sum ≤ 255 := by
  have h : List.range 8 = [0, 1, 2, 3, 4, 5, 6, 7] := rfl
  rw [h]
  simp only [List.map_cons, List.map_nil, List.sum_cons, List.sum_nil]
  cases f 0 <;> cases f 1 <;> cases f 2 <;> cases f 3 <;> cases f 4 <;> cases f 5 <;> cases f 6 <;> cases f 7 <;> simp
theorem ckptAbandon_some (s : Dev) (o : CkptOut) (h : s.red.out = some o) :
    ckptAbandon s = { s with red.out := none, pln.ptes := o.pages.foldl (fun t k => tmod t k fun p => { p with d := true }) s.pln.ptes } := by
  unfold ckptAbandon; rw [h]
/-- The trailer of a checkpoint that has come with its system region (R347, R348). -/
theorem ckptTrailer_staged (num pages crc : Nat) (d : Dev) (c : CkptIn) (x : Snapshot) (h2 : ckptTakes d = true) (g1 : d.red.stage = some c) (g2 : c.snap = some x) :
    ∃ fin : Dev, ckptTrailer num pages crc d = (if c.num ≠ num ∨ c.chunks.length ≠ 16 * pages ∨ crc32c (c.chunks.flatMap fun e => e.2.2.2) ≠ crc then
          withHealth (refuseCkpt num { d with red.offered := true })
          else (if (ckptGrounds x d).1 || (ckptGrounds x d).2 then withHealth (refuseCkpt num { d with red.offered := true, red.cpBad := (ckptGrounds x d).1, red.capShort := (ckptGrounds x d).2 })
            else valSend 3 2 fin.red.partner 0 0 0 0 false (.ckptAck num) (withHealth fin))) ∧ fin.red.applied = some { c with chunks := [] } ∧ fin.red.stage = none ∧ fin.red.saidBlocked = false := by
        refine ⟨bump R.RED_CKPT_DONE { (applyChunks c.chunks (applySnapshot x { d with red.offered := true, red.cpBad := (ckptGrounds x d).1, red.capShort := (ckptGrounds x d).2 })) with
              red.applied := some { c with chunks := [] }, red.stage := none, red.saidBlocked := false }, ?eq, ?f1, ?f2, ?f3⟩
        case eq =>
          unfold ckptTrailer; rw [h2]; dsimp only; rw [g1]; dsimp only [Option.bind]; rw [g2]
          dsimp only [Option.map]
          rw [if_neg (by decide)]
          rw [← g1]
          try rw [← g2]
          by_cases w : c.num ≠ num ∨ c.chunks.length ≠ 16 * pages ∨ crc32c (c.chunks.flatMap fun e => e.2.2.2) ≠ crc
          · exact (if_pos w).trans (if_pos w).symm
          · refine (if_neg w).trans (Eq.trans ?_ (if_neg w).symm)
            have hg : ∀ s1 : Dev, s1 = { d with red := s1.red } → s1.red.word = d.red.word → ckptGrounds x s1 = ckptGrounds x d := by
              intro s1 h1 h2
              rw [h1]; unfold ckptGrounds; dsimp only; rw [h2]; rfl
            have hgd := hg { d with red.offered := true } rfl rfl
            dsimp only at hgd
            rw [hgd]
        all_goals rfl
/-- The standby's report (R353). -/
theorem healthReport_spec (t : Time) (f n : Nat) (s : State) (d : Dev) (hx : upTo t s.toDev = d) (g : (d.red.paired && d.sys.mode == .standby && decide (d.red.healthAt + sec 1 ≤ d.raw)) = true) :
    ∃ e, Completes (.healthReport t f n) s e ∧ e.red.healthAt = d.raw ∧ e.red.refused = false ∧ e.sys = d.sys ∧
        (∀ o, o ∉ postCounters → rg e o = rg d o) ∧
        e.red.health / 2 ^ 25 = (if d.red.refused then 1 else 0) + (if d.red.cpBad then 2 else 0) + (if d.red.capShort then 4 else 0) ∧
        e.red.health % 2 ^ 16 = f % 2 ^ 16 := by
  have pb : ∀ x : Dev, (postBist 0 n x).red = x.red ∧ (postBist 0 n x).sys = x.sys ∧ (postBist 0 n x).raw = x.raw ∧ ∀ o, o ∉ postCounters → rg (postBist 0 n x) o = rg x o := by
    intro x; unfold postBist; split
    · exact ⟨rfl, rfl, rfl, fun _ _ => rfl⟩
    · have f := postCode_frame 0x02 0xB 0x03 (0 * 2 ^ 24 + n % 2 ^ 24) x
      exact ⟨f.red, f.sys, f.raw, f.2⟩
  obtain ⟨b1, b2, b3, b4⟩ := pb { d with red.spmDefect := d.red.spmDefect || n != 0 }
  obtain ⟨S, hS⟩ : ∃ S, postBist 0 n { d with red.spmDefect := d.red.spmDefect || n != 0 } = S := ⟨_, rfl⟩
  rw [hS] at b1 b2 b3 b4
  have hpx := pixels_sum (fun n => bitOf S (F.PXP_STATE_PIN_FAULT n))
  obtain ⟨px, hp⟩ : ∃ px, ((List.range 8).map fun n => if bitOf S (F.PXP_STATE_PIN_FAULT n) then 2 ^ n else 0).sum = px := ⟨_, rfl⟩
  rw [hp] at hpx
  have run : Completes (.healthReport t f n) s (postRed 6 0x0D (withHealth { S with red.health := f % 65536 + 65536 * px + (if S.red.spmDefect then 2 ^ 24 else 0), red.healthAt := S.raw }).red.health
    { (withHealth { S with red.health := f % 65536 + 65536 * px + (if S.red.spmDefect then 2 ^ 24 else 0), red.healthAt := S.raw }) with red.refused := false, red.spmDefect := false }) := by
    refine completes (f := runHealthReport t f n) rfl ?_
    unfold runHealthReport; dsimp only; rw [hx]
    refine (congrArg Host.Outcome.next (if_pos g)).trans ?_
    dsimp only at hS
    rw [hS, hp]
  refine ⟨_, run, ?_⟩
  have p := postRed_pair 6 0x0D (withHealth { S with red.health := f % 65536 + 65536 * px + (if S.red.spmDefect then 2 ^ 24 else 0), red.healthAt := S.raw }).red.health
    { (withHealth { S with red.health := f % 65536 + 65536 * px + (if S.red.spmDefect then 2 ^ 24 else 0), red.healthAt := S.raw }) with red.refused := false, red.spmDefect := false }
  have hh : (withHealth { S with red.health := f % 65536 + 65536 * px + (if S.red.spmDefect then 2 ^ 24 else 0), red.healthAt := S.raw }).red.health =
      (f % 65536 + 65536 * px + (if S.red.spmDefect then 2 ^ 24 else 0)) % 2 ^ 25 + (if d.red.refused then 2 ^ 25 else 0) + (if d.red.cpBad then 2 ^ 26 else 0) + (if d.red.capShort then 2 ^ 27 else 0) := by
    unfold withHealth; dsimp only; rw [b1]
  refine ⟨by rw [p.1]; exact b3, by rw [p.1], p.2.1.trans b2, fun o ho => (p.2.2 o ho).trans (b4 o ho), ?_, ?_⟩
  · rw [p.1]; dsimp only; rw [hh]
    cases d.red.refused <;> cases d.red.cpBad <;> cases d.red.capShort <;> cases S.red.spmDefect <;> simp <;> omega
  · rw [p.1]; dsimp only; rw [hh]
    cases d.red.refused <;> cases d.red.cpBad <;> cases d.red.capShort <;> cases S.red.spmDefect <;> simp <;> omega
theorem release_spec (y : Handover) (n : Int) (S : Dev) : (tellHandover 3 false n 0 { S with red.handover := some y }).sys = S.sys ∧
    (tellHandover 3 false n 0 { S with red.handover := some y }).red.ilk = S.red.ilk ∧ (tellHandover 3 false n 0 { S with red.handover := some y }).red.handover = some y := by
  have o : OutOnly { S with red.handover := some y } (tellHandover 3 false n 0 { S with red.handover := some y }) := valTell_outOnly _ _ _ _
  exact ⟨o.sys, by rw [o.red], by rw [o.red]⟩

end Sys2Proof.Machine
end

