-- ==== Sys2Proof/Laws/Journal.lean ====
section
/-! SUPPORT. The NOR, the update session and the journal: what their operations do. -/

namespace Sys2Proof.Machine

/-- What the queueing of an operation of the NOR does: it joins at the end, and begins at once where it is the first and the NOR may be changed. -/
theorem norBegin_spec (s : Dev) : ∃ js, norBegin s = { s with upd.jobs := js } ∧ js.tail = s.upd.jobs.tail ∧ js.length = s.upd.jobs.length := by
  unfold norBegin
  cases h : s.upd.jobs with
  | nil => exact ⟨[], by dsimp only; rw [← h], rfl, rfl⟩
  | cons j r =>
    dsimp only
    split
    · exact ⟨_, rfl, rfl, rfl⟩
    · exact ⟨j :: r, by rw [← h], rfl, rfl⟩
theorem norBegin_fresh {s : Dev} {j : NorJob} {r : List NorJob} (h : s.upd.jobs = j :: r) (hj : j.began = none) :
    (norFree s = true → norBegin s = { s with upd.jobs := { jobReady j s with began := some s.raw } :: r }) ∧
    (norFree s = false → norBegin s = s) := by
  unfold norBegin
  rw [h]; dsimp only
  refine ⟨fun g => if_pos ⟨by rw [hj]; rfl, g⟩, fun g => if_neg fun q => ?_⟩
  rw [g] at q; cases q.2
theorem norQueue_spec (j : NorJob) (s : Dev) (hj : j.began = none) : ∃ js, norQueue j s = { s with upd.jobs := js } ∧
    (s.upd.jobs = [] → norFree s = true → js = [{ jobReady j { s with upd.jobs := [j] } with began := some s.raw }]) ∧
    (s.upd.jobs = [] → norFree s = false → js = [j]) ∧
    (s.upd.jobs ≠ [] → js.tail = s.upd.jobs.tail ++ [j]) := by
  unfold norQueue
  obtain ⟨js, h1, h2, h3⟩ := norBegin_spec { s with upd.jobs := s.upd.jobs ++ [j] }
  refine ⟨js, h1, fun g k => ?_, fun g k => ?_, fun g => ?_⟩
  · have := (norBegin_fresh (s := { s with upd.jobs := s.upd.jobs ++ [j] }) (j := j) (r := []) (by dsimp only; rw [g]; rfl) hj).1 k
    rw [this] at h1
    have := congrArg (·.upd.jobs) h1
    dsimp only at this
    rw [← this, g]; rfl
  · have := (norBegin_fresh (s := { s with upd.jobs := s.upd.jobs ++ [j] }) (j := j) (r := []) (by dsimp only; rw [g]; rfl) hj).2 k
    rw [this] at h1
    have := congrArg (·.upd.jobs) h1
    dsimp only at this
    rw [← this, g]; rfl
  · rw [h2]; dsimp only
    cases h : s.upd.jobs with
    | nil => exact absurd h g
    | cons a r => rfl
theorem jobReady_steps {j : NorJob} (s : Dev) (h : j.steps ≠ []) : jobReady j s = j := by
  unfold jobReady
  split
  · rw [if_neg h]
  · rfl
theorem norBegin_steps {s : Dev} {j : NorJob} {r : List NorJob} (h : s.upd.jobs = j :: r) (hj : j.steps ≠ []) :
    (norBegin s).upd.jobs.map (·.steps) = j.steps :: r.map (·.steps) := by
  unfold norBegin
  rw [h]; dsimp only
  split
  · dsimp only; rw [jobReady_steps s hj]; rfl
  · rw [h]; rfl
/-- An effect that leaves the NOR, the journal and what waits on it. -/
def UpdKept (s e : Dev) : Prop := e.upd = s.upd ∧ e.nor = s.nor ∧ e.boot = s.boot ∧ ∀ o, o ∉ cmpRegs → o ∉ postCounters → rg e o = rg s o
theorem UpdKept.trans {a b c : Dev} (h : UpdKept a b) (g : UpdKept b c) : UpdKept a c :=
  ⟨g.1.trans h.1, g.2.1.trans h.2.1, g.2.2.1.trans h.2.2.1, fun o p q => (g.2.2.2 o p q).trans (h.2.2.2 o p q)⟩
theorem UpdKept.refl (a : Dev) : UpdKept a a := ⟨rfl, rfl, rfl, fun _ _ _ => rfl⟩
theorem postUpd_kept (a b : Nat) (s : Dev) : UpdKept s (postUpd a b s) := by
  have h := postCode_frame 0x05 8 a (b % 2 ^ 32) s
  exact ⟨congrArg (·.upd) h.1, congrArg (·.nor) h.1, congrArg (·.boot) h.1, fun o _ q => h.2 o q⟩
theorem complete_kept (h : CmdHdr) (op c : Nat) (x : Word) (b : List Byte) (s : Dev) : UpdKept s (complete h op c x b s) := by
  have e := complete_rest h op c x b s
  exact ⟨congrArg (·.upd) e, congrArg (·.nor) e, congrArg (·.boot) e, fun o p _ => complete_keepsReg p _ _ _ _ _ _⟩
theorem foldl_postUpd_kept (l : List (Nat × Nat)) : ∀ s : Dev, UpdKept s (l.foldl (fun s (e : Nat × Nat) => postUpd e.1 e.2 s) s) := by
  induction l with
  | nil => exact fun s => .refl s
  | cons a r ih => exact fun s => (postUpd_kept _ _ s).trans (ih _)
theorem journalIn_spec (j : Journal) (p : List (Nat × Nat)) (s : Dev) : UpdKept { s with upd.j := some j } (journalIn j p s) := foldl_postUpd_kept _ _
theorem refresh_spec (h : CmdHdr) (s : Dev) : ∃ x, refresh h s = { s with upd.session := x } := by
  unfold refresh
  split
  · exact ⟨_, rfl⟩
  · exact ⟨s.upd.session, rfl⟩
theorem norApply_rg {x : NorStep} {s : Dev} : (∀ n, x = .erase n → rg (norApply x s) R.UPD_NOR_ERASES = BitVec.ofNat 32 (min ((rg s R.UPD_NOR_ERASES).toNat + 1) 0xFFFFFFFF)) ∧
    (∀ a b, x = .program a b → rg (norApply x s) R.UPD_NOR_PROGRAMS = BitVec.ofNat 32 (min ((rg s R.UPD_NOR_PROGRAMS).toNat + 1) 0xFFFFFFFF)) := by
  refine ⟨fun n h => ?_, fun a b h => ?_⟩ <;> subst h <;> unfold norApply <;> dsimp only <;> rw [rg_bump_self] <;> rfl
theorem norApply_nor (x : NorStep) (s : Dev) : (norApply x s).nor = norStep x s.nor ∧ (norApply x s).upd = s.upd ∧ (norApply x s).plain = s.plain ∧ (norApply x s).sys = s.sys := by
  cases x <;> exact ⟨rfl, rfl, rfl, rfl⟩
/-- The end of a job: the journal or the staging offsets it was for. -/
theorem jobDone_spec (j : NorJob) (s : Dev) : (jobDone j s).nor = s.nor ∧ (jobDone j s).upd.jobs = s.upd.jobs ∧
    (∀ o, o ∉ cmpRegs → o ∉ postCounters → rg (jobDone j s) o = rg s o) ∧
    (∀ k posts, j.done = .journal k posts → (jobDone j s).upd.j = some k) ∧ ∀ n, j.done = .wrote n → (jobDone j s).upd.next = n := by
  obtain ⟨s1, hs1⟩ : ∃ s1 : Dev, s1 = (match j.done with
    | .nothing => s
    | .journal x posts => journalIn x posts s
    | .wrote n => { s with upd.next := n, upd.erased := max s.upd.erased (cdiv n 65536) }
    | .logged =>
      { s with
        upd.lifeSeq := s.upd.lifeSeq + 1
        upd.lifePage := some (match s.upd.lifePage with | some p => (p + 1) % ((norSize s - logBase) / 256) | none => 0) }) := ⟨_, rfl⟩
  have e0 : jobDone j s = (match j.reply with
    | some (h, op) => complete h op rcDone 0 j.data (refresh h s1)
    | none => s1) := by rw [hs1]; rfl
  have h1 : s1.nor = s.nor ∧ s1.upd.jobs = s.upd.jobs ∧ (∀ o, o ∉ cmpRegs → o ∉ postCounters → rg s1 o = rg s o) ∧
      (∀ k posts, j.done = .journal k posts → s1.upd.j = some k) ∧ ∀ n, j.done = .wrote n → s1.upd.next = n := by
    rw [hs1]
    cases z : j.done with
    | nothing => exact ⟨rfl, rfl, fun _ _ _ => rfl, fun k p q => (by cases q), fun n q => (by cases q)⟩
    | journal x posts =>
      obtain ⟨a, b, -, c⟩ := journalIn_spec x posts s
      refine ⟨b, congrArg (·.jobs) a, fun o p q => (c o p q).trans rfl, fun k p q => ?_, fun n q => (by cases q)⟩
      cases q; exact congrArg (·.j) a
    | wrote n => exact ⟨rfl, rfl, fun _ _ _ => rfl, fun k p q => (by cases q), fun n q => (by cases q; rfl)⟩
    | logged => exact ⟨rfl, rfl, fun _ _ _ => rfl, fun k p q => (by cases q), fun n q => (by cases q)⟩
  rw [e0]
  clear e0 hs1
  split
  · rename_i h op _
    obtain ⟨x, hx⟩ := refresh_spec h s1
    obtain ⟨a, b, -, c⟩ := complete_kept h op rcDone 0 j.data (refresh h s1)
    rw [hx] at a b c ⊢
    refine ⟨b.trans h1.1, (congrArg (·.jobs) a).trans h1.2.1, fun o p q => (c o p q).trans (h1.2.2.1 o p q), fun k p q => ?_, fun n q => ?_⟩
    · exact (congrArg (·.j) a).trans (h1.2.2.2.1 k p q)
    · exact (congrArg (·.next) a).trans (h1.2.2.2.2 n q)
  · exact h1
/-- The end of a job that failed. -/
theorem lateFail_kept (l : List NorJob) : ∀ s : Dev,
    let e := l.foldl (fun s x => match x.reply with
      | some (h, op) => complete h op rcOutOfRange 0 (leBytes 4 s.upd.next) (refresh h s)
      | none => s) s
    (∃ x, e.upd = { s.upd with session := x }) ∧ e.nor = s.nor ∧ ∀ o, o ∉ cmpRegs → o ∉ postCounters → rg e o = rg s o := by
  induction l with
  | nil => exact fun s => ⟨⟨s.upd.session, rfl⟩, rfl, fun _ _ _ => rfl⟩
  | cons y r ih =>
    intro s
    rw [List.foldl_cons]
    cases z : y.reply with
    | none => exact ih s
    | some p =>
      obtain ⟨h, op⟩ := p
      dsimp only
      obtain ⟨x, hx⟩ := refresh_spec h s
      obtain ⟨a, b, -, c⟩ := complete_kept h op rcOutOfRange 0 (leBytes 4 s.upd.next) (refresh h s)
      obtain ⟨⟨w, h1⟩, h2, h3⟩ := ih (complete h op rcOutOfRange 0 (leBytes 4 s.upd.next) (refresh h s))
      refine ⟨⟨w, h1.trans ?_⟩, h2.trans (b.trans (by rw [hx])), fun o p q => (h3 o p q).trans ((c o p q).trans (by rw [hx]; rfl))⟩
      rw [a, hx]
theorem jobFail_spec (j : NorJob) (s : Dev) : (jobFail j s).nor = s.nor ∧ (jobFail j s).upd.j = s.upd.j ∧ (jobFail j s).upd.next = s.upd.next ∧
    (∀ o, o ∉ cmpRegs → o ∉ postCounters → rg (jobFail j s) o = rg s o) ∧ ((∀ n, j.done ≠ .wrote n) → (jobFail j s).upd.jobs = s.upd.jobs) := by
  obtain ⟨s1, hs1⟩ : ∃ s1 : Dev, s1 = (match j.reply with
    | some (h, op) => complete h op rcMediaError 0 (if op = 0x701 then [] else j.data) (refresh h s)
    | none => s) := ⟨_, rfl⟩
  have e0 : jobFail j s = (match j.done with
    | .wrote _ =>
      (s1.upd.jobs.filter fun x => match x.done with | .wrote _ => true | _ => false).foldl (fun s x => match x.reply with
        | some (h, op) => complete h op rcOutOfRange 0 (leBytes 4 s.upd.next) (refresh h s)
        | none => s) { s1 with upd.jobs := s1.upd.jobs.filter fun x => match x.done with | .wrote _ => false | _ => true }
    | _ => s1) := by rw [hs1]; rfl
  have h1 : (∃ x, s1.upd = { s.upd with session := x }) ∧ s1.nor = s.nor ∧ ∀ o, o ∉ cmpRegs → o ∉ postCounters → rg s1 o = rg s o := by
    rw [hs1]
    cases z : j.reply with
    | none => exact ⟨⟨s.upd.session, rfl⟩, rfl, fun _ _ _ => rfl⟩
    | some p =>
      obtain ⟨h, op⟩ := p
      dsimp only
      obtain ⟨x, hx⟩ := refresh_spec h s
      obtain ⟨a, b, -, c⟩ := complete_kept h op rcMediaError 0 (if op = 0x701 then [] else j.data) (refresh h s)
      refine ⟨⟨x, a.trans (by rw [hx])⟩, b.trans (by rw [hx]), fun o p q => (c o p q).trans (by rw [hx]; rfl)⟩
  rw [e0]
  clear e0 hs1
  obtain ⟨⟨x, e1⟩, e2, e3⟩ := h1
  cases z : j.done with
  | wrote n =>
    dsimp only
    obtain ⟨⟨w, g1⟩, g2, g3⟩ := lateFail_kept (s1.upd.jobs.filter fun x => match x.done with | .wrote _ => true | _ => false)
      { s1 with upd.jobs := s1.upd.jobs.filter fun x => match x.done with | .wrote _ => false | _ => true }
    refine ⟨g2.trans e2, ?_, ?_, fun o p q => (g3 o p q).trans (e3 o p q), fun k => absurd rfl (k n)⟩
    · exact (congrArg (·.j) g1).trans (congrArg (·.j) e1)
    · exact (congrArg (·.next) g1).trans (congrArg (·.next) e1)
  | nothing => exact ⟨e2, congrArg (·.j) e1, congrArg (·.next) e1, e3, fun _ => congrArg (·.jobs) e1⟩
  | journal k p => exact ⟨e2, congrArg (·.j) e1, congrArg (·.next) e1, e3, fun _ => congrArg (·.jobs) e1⟩
  | logged => exact ⟨e2, congrArg (·.j) e1, congrArg (·.next) e1, e3, fun _ => congrArg (·.jobs) e1⟩
/-- An operation that completes in time. -/
theorem norOpDone_spec {d : Dev} {j : NorJob} {r : List NorJob} {b : Time} {x : NorStep} {xs : List NorStep} (h1 : d.upd.jobs = j :: r) (h2 : j.began = some b)
    (h3 : j.steps = x :: xs) (h4 : d.raw ≤ b + norLimit d x) : (norOpDone d).nor = norStep x d.nor ∧
    (∀ n, x = .erase n → rg (norOpDone d) R.UPD_NOR_ERASES = BitVec.ofNat 32 (min ((rg d R.UPD_NOR_ERASES).toNat + 1) 0xFFFFFFFF)) ∧
    (∀ a p, x = .program a p → rg (norOpDone d) R.UPD_NOR_PROGRAMS = BitVec.ofNat 32 (min ((rg d R.UPD_NOR_PROGRAMS).toNat + 1) 0xFFFFFFFF)) ∧
    (xs ≠ [] → (norOpDone d).upd.jobs.map (·.steps) = xs :: r.map (·.steps) ∧ (norOpDone d).plain = d.plain) ∧
    (xs = [] → (norOpDone d).upd.jobs.tail = r.tail ∧ (norOpDone d).upd.jobs.length = r.length ∧ (∀ k posts, j.done = .journal k posts → (norOpDone d).upd.j = some k) ∧
      ∀ n, j.done = .wrote n → (norOpDone d).upd.next = n) := by
  obtain ⟨a1, a2, a3, a4⟩ := norApply_nor x d
  obtain ⟨b1, b2⟩ := norApply_rg (x := x) (s := d)
  have e : norOpDone d = if xs = [] then norBegin (jobDone j { norApply x d with upd.jobs := r })
        else norBegin { norApply x d with upd.jobs := { j with steps := xs, began := none } :: r } := by
    unfold norOpDone; rw [h1]; dsimp only; rw [h2, h3]; dsimp only; rw [if_pos h4]
  rw [e]
  by_cases g : xs = []
  · rw [if_pos g]
    obtain ⟨js, c1, c2, c3⟩ := norBegin_spec (jobDone j { norApply x d with upd.jobs := r })
    obtain ⟨q1, q2, q3, q4, q5⟩ := jobDone_spec j { norApply x d with upd.jobs := r }
    rw [c1]
    refine ⟨q1.trans a1, fun n k => (q3 _ (by decide) (by decide)).trans (b1 n k), fun a p k => (q3 _ (by decide) (by decide)).trans (b2 a p k), fun k => absurd g k, fun _ => ⟨?_, ?_, q4, q5⟩⟩
    · exact c2.trans (congrArg List.tail q2)
    · exact c3.trans (congrArg List.length q2)
  · rw [if_neg g]
    obtain ⟨js, c1, c2, c3⟩ := norBegin_spec { norApply x d with upd.jobs := { j with steps := xs, began := none } :: r }
    have m := norBegin_steps (s := { norApply x d with upd.jobs := { j with steps := xs, began := none } :: r }) rfl g
    refine ⟨?_, fun n k => ?_, fun a p k => ?_, fun _ => ⟨m, ?_⟩, fun k => absurd k g⟩
    · rw [c1]; exact a1
    · rw [c1]; exact b1 n k
    · rw [c1]; exact b2 a p k
    · rw [c1]; exact a3
theorem norOpTimeout_spec {d : Dev} {j : NorJob} {r : List NorJob} {b : Time} {x : NorStep} {xs : List NorStep} (h1 : d.upd.jobs = j :: r) (h2 : j.began = some b)
    (h3 : j.steps = x :: xs) (h4 : b + norLimit d x ≤ d.raw) : (norOpTimeout d).nor = d.nor ∧ (norOpTimeout d).upd.j = d.upd.j ∧
    rg (norOpTimeout d) R.UPD_NOR_TIMEOUTS = BitVec.ofNat 32 (min ((rg d R.UPD_NOR_TIMEOUTS).toNat + 1) 0xFFFFFFFF) ∧ (norOpTimeout d).upd.next = d.upd.next ∧
    ((∀ n, j.done ≠ .wrote n) → (norOpTimeout d).upd.jobs.tail = r.tail ∧ (norOpTimeout d).upd.jobs.length = r.length) := by
  have e : norOpTimeout d = norBegin (jobFail j (bump R.UPD_NOR_TIMEOUTS { d with upd.jobs := r })) := by
    unfold norOpTimeout; rw [h1]; dsimp only; rw [h2, h3]; dsimp only; rw [if_pos h4]
  rw [e]
  obtain ⟨js, c1, c2, c3⟩ := norBegin_spec (jobFail j (bump R.UPD_NOR_TIMEOUTS { d with upd.jobs := r }))
  obtain ⟨q1, q2, q3, q4, q5⟩ := jobFail_spec j (bump R.UPD_NOR_TIMEOUTS { d with upd.jobs := r })
  rw [c1]
  exact ⟨q1, q2, (q4 _ (by decide) (by decide)).trans (rg_bump_self _ _), q3, fun g => ⟨c2.trans (congrArg List.tail (q5 g)), c3.trans (congrArg List.length (q5 g))⟩⟩

theorem journalSteps_last (s : Dev) (b : List Byte) : ∃ pre a, journalSteps s b = pre ++ [.program a b] := by
  unfold journalSteps
  repeat' split
  all_goals first
    | exact ⟨[], _, rfl⟩
    | exact ⟨[_], _, rfl⟩
/-- What the queueing of a journal record does. -/
theorem journalQueue_spec (k : Journal) (posts : List (Nat × Nat)) (reply : Option (CmdHdr × Nat)) (data : List Byte) {u d : Dev}
    (h1 : u.upd.jobs = d.upd.jobs) (h2 : norFree u = norFree d) (h3 : u.raw = d.raw) (h4 : u.upd.j = d.upd.j) (h5 : u.nor = d.nor) (h6 : u.sys = d.sys) :
    let e := journalQueue k posts reply data u
    (∃ js, e = { u with upd.jobs := js }) ∧ e.nor = d.nor ∧ e.sys = d.sys ∧ e.upd.j = d.upd.j ∧
      (d.upd.jobs = [] → norFree d = true → ∃ pre a, e.upd.jobs =
        [{ steps := pre ++ [.program a (journalBytes { k with seq := (journalNow d).seq + 1 })], began := some d.raw, reply := reply, data := data, done := .journal { k with seq := (journalNow d).seq + 1 } posts }]) ∧
      (d.upd.jobs = [] → norFree d = false → e.upd.jobs = [{ steps := [], began := none, reply := reply, data := data, done := .journal k posts }]) ∧
      (d.upd.jobs ≠ [] → e.upd.jobs.tail = d.upd.jobs.tail ++ [{ steps := [], began := none, reply := reply, data := data, done := .journal k posts }]) := by
  intro e
  obtain ⟨js, q, a, b, c⟩ := norQueue_spec { steps := [], began := none, reply := reply, data := data, done := .journal k posts } u rfl
  rw [h1, h2] at a b
  rw [h1] at c
  have he : e = { u with upd.jobs := js } := q
  rw [he]
  refine ⟨⟨js, rfl⟩, h5, h6, h4, fun g1 g2 => ?_, b, c⟩
  rw [a g1 g2, ← h3]
  obtain ⟨pre, x, hp⟩ := journalSteps_last { u with upd.jobs := [{ steps := [], began := none, reply := reply, data := data, done := .journal k posts }] }
    (journalBytes { k with seq := (journalNow d).seq + 1 })
  refine ⟨pre, x, ?_⟩
  rw [← hp]
  unfold jobReady journalNext journalNow
  dsimp only
  rw [if_pos rfl, h4]
theorem norFree_ext {u d : Dev} (h1 : rg u R.SYS_STATUS = rg d R.SYS_STATUS) (h2 : u.sys = d.sys) : norFree u = norFree d := by
  unfold norFree bitOf; rw [fld_ext F.SYS_STATUS_VLOW_STOP h1, h2]
theorem rg_lifeUp (i o : Nat) (s : Dev) : rg (lifeUp i s) o = rg s o := rfl
theorem setSession_self {d : Dev} {x : Option Session} (h : d.upd.session = x) : { d with upd.session := x } = d := by subst h; rfl
/-- The lease of the holder moves on. -/
theorem refresh_own {h : CmdHdr} {d : Dev} (g : (d.upd.session.any fun x => x.src != h.src) = false) :
    refresh h d = { d with upd.session := d.upd.session.map fun x => { x with till := d.raw + sec 60 } } := by
  unfold refresh holds
  cases z : d.upd.session with
  | none =>
    rw [Option.any_none, if_neg (by decide)]
    exact (setSession_self z).symm
  | some x =>
    rw [z] at g
    have : x.src = h.src := by simpa using g
    rw [if_pos]
    rw [Option.any_some, this]; exact beq_self_eq_true _
theorem holds_only {h : CmdHdr} {d : Dev} (g : holds d h = true) : (d.upd.session.any fun x => x.src != h.src) = false := by
  unfold holds at g
  cases z : d.upd.session with
  | none => rfl
  | some x =>
    rw [z] at g
    have : x.src = h.src := by simpa using g
    rw [Option.any_some, this]; simp
theorem inSession_holder {h : CmdHdr} {d : Dev} (body : Dev → Dev × Reply) (g : holds d h = true) :
    inSession h body d = body { d with upd.session := d.upd.session.map fun x => { x with till := d.raw + sec 60 } } := by
  unfold inSession; rw [if_pos g, refresh_own (holds_only g)]
theorem inSession_other {h : CmdHdr} {d : Dev} (body : Dev → Dev × Reply) (g : holds d h = false) :
    (d.upd.former ≠ some h.src → inSession h body d = (d, fails 0 rcNotOwner)) ∧
    (d.upd.former = some h.src → inSession h body d = ({ d with upd.former := none }, fails 0 rcAborted)) := by
  unfold inSession
  rw [if_neg (by rw [g]; decide)]
  exact ⟨fun k => if_neg k, fun k => if_pos k⟩
theorem norGate_low {s : Dev} (body : Dev → Dev × Reply) (h : bitOf s F.SYS_STATUS_VLOW_STOP = true) : norGate body s = (s, fails 0 rcBusy) := if_pos h
theorem norGate_up {s : Dev} (body : Dev → Dev × Reply) (h : ¬ bitOf s F.SYS_STATUS_VLOW_STOP = true) : norGate body s = body s := if_neg h
/-- The lease of a holder ends. -/
theorem sessionExpire_due {d : Dev} {x : Session} (g1 : d.upd.session = some x) (g2 : x.till ≤ d.raw)
    (q : (!(d.upd.jobs.any fun j => j.reply.any fun r => sessionOp r.2 && r.1.src == x.src)) = true) :
    let j := journalNow d
    let e := sessionExpire d
    let k : Journal := { j with state := 1, sLen := 0, sIcrc := 0, sSerial := 0 }
    e.upd.session = none ∧ e.upd.former = some x.src ∧ rg e R.UPD_LEASES_EXPIRED = BitVec.ofNat 32 (min ((rg d R.UPD_LEASES_EXPIRED).toNat + 1) 0xFFFFFFFF) ∧
    (j.state = 2 ∨ j.state = 3 → e.nor = d.nor ∧ e.sys = d.sys ∧ e.upd.j = d.upd.j ∧
      (d.upd.jobs = [] → norFree d = true → ∃ pre a, e.upd.jobs =
        [{ steps := pre ++ [.program a (journalBytes { k with seq := j.seq + 1 })], began := some d.raw, reply := none, data := [], done := .journal { k with seq := j.seq + 1 } [(0x02, x.id)] }]) ∧
      (d.upd.jobs = [] → norFree d = false → e.upd.jobs = [{ steps := [], began := none, reply := none, data := [], done := .journal k [(0x02, x.id)] }]) ∧
      (d.upd.jobs ≠ [] → e.upd.jobs.tail = d.upd.jobs.tail ++ [{ steps := [], began := none, reply := none, data := [], done := .journal k [(0x02, x.id)] }])) ∧
    (j.state ≠ 2 → j.state ≠ 3 → e.upd.jobs = d.upd.jobs ∧ e.upd.j = d.upd.j ∧ e.nor = d.nor) := by
  intro j e kk
  have base : e = if j.state = 2 ∨ j.state = 3 then journalQueue j.void [(0x02, x.id)] none [] (bump R.UPD_LEASES_EXPIRED { d with upd.session := none, upd.former := some x.src })
      else postUpd 0x02 x.id (bump R.UPD_LEASES_EXPIRED { d with upd.session := none, upd.former := some x.src }) := by
    simp only [e]
    unfold sessionExpire; rw [g1]; dsimp only; rw [if_pos ⟨g2, q⟩]
  by_cases k : j.state = 2 ∨ j.state = 3
  · obtain ⟨⟨js, w0⟩, w⟩ := journalQueue_spec j.void [(0x02, x.id)] none [] (u := bump R.UPD_LEASES_EXPIRED { d with upd.session := none, upd.former := some x.src }) (d := d)
      rfl (norFree_ext (rg_bump_ne _ (by decide)) rfl) rfl rfl rfl rfl
    rw [base, if_pos k]
    refine ⟨?_, ?_, ?_, fun _ => w, fun a b => absurd k (by omega)⟩
    · rw [w0]; rfl
    · rw [w0]; rfl
    · rw [w0]; exact rg_bump_self _ _
  · obtain ⟨w1, w2, -, w3⟩ := postUpd_kept 0x02 x.id (bump R.UPD_LEASES_EXPIRED { d with upd.session := none, upd.former := some x.src })
    rw [base, if_neg k]
    refine ⟨?_, ?_, ?_, fun a => absurd a k, fun _ _ => ⟨?_, ?_, w2⟩⟩
    · rw [w1]; rfl
    · rw [w1]; rfl
    · exact (w3 _ (by decide) (by decide)).trans (rg_bump_self _ _)
    · rw [w1]; rfl
    · rw [w1]; rfl

/-- An operation that touches no byte outside a range. -/
def StepIn (lo hi : Nat) (x : NorStep) : Prop :=
  match x with
  | .erase n => lo ≤ 65536 * n ∧ 65536 * (n + 1) ≤ hi
  | .program a b => lo ≤ a ∧ a + b.length ≤ hi
theorem StepIn.out {lo hi a : Nat} {x : NorStep} (h : StepIn lo hi x) (ha : a < lo ∨ hi ≤ a) (s : Dev) : mget 0xFF (norApply x s).nor a = mget 0xFF s.nor a := by
  rw [(norApply_nor x s).1]
  cases x with
  | erase n =>
    obtain ⟨h1, h2⟩ : lo ≤ 65536 * n ∧ 65536 * (n + 1) ≤ hi := h
    rw [norStep_erase, if_neg]
    omega
  | program p b =>
    obtain ⟨h1, h2⟩ : lo ≤ p ∧ p + b.length ≤ hi := h
    exact norStep_program_out _ _ _ _ (by omega)
/-- Operations in turn. -/
theorem foldl_norApply (l : List NorStep) : ∀ s : Dev, let e := l.foldl (fun s x => norApply x s) s
    e.upd = s.upd ∧ e.sys = s.sys ∧ e.raw = s.raw ∧
    (∀ lo hi a, (∀ x ∈ l, StepIn lo hi x) → (a < lo ∨ hi ≤ a) → mget 0xFF e.nor a = mget 0xFF s.nor a) := by
  induction l with
  | nil => exact fun s => ⟨rfl, rfl, rfl, fun _ _ _ _ _ => rfl⟩
  | cons y r ih =>
    intro s
    obtain ⟨a1, a2, a3, a4⟩ := ih (norApply y s)
    obtain ⟨b1, b2, b3, b4⟩ := norApply_nor y s
    refine ⟨a1.trans b2, a2.trans b4, a3.trans (by cases y <;> rfl), fun lo hi a h g => ?_⟩
    exact (a4 lo hi a (fun x hx => h x (List.mem_cons_of_mem _ hx)) g).trans ((h y List.mem_cons_self).out g s)
theorem norPages_in (n : Nat) : ∀ (a : Nat) (b : List Byte), ∀ x ∈ norPages n a b, StepIn a (a + b.length) x := by
  induction n with
  | zero => intro a b x hx; cases hx
  | succ n ih =>
    intro a b x hx
    unfold norPages at hx
    by_cases g : b = []
    · rw [if_pos g] at hx; cases hx
    · rw [if_neg g] at hx
      rcases List.mem_cons.mp hx with h | h
      · subst h
        refine ⟨le_refl _, ?_⟩
        rw [List.length_take]; omega
      · have := ih _ _ _ h
        rw [List.length_drop] at this
        by_cases k : 256 - a % 256 < b.length
        · cases x with
          | erase m => obtain ⟨p, q⟩ := this; exact ⟨by omega, by omega⟩
          | program m c => obtain ⟨p, q⟩ := this; exact ⟨by omega, by omega⟩
        · rw [List.drop_eq_nil_of_le (by omega)] at h
          exfalso
          cases n with
          | zero => cases h
          | succ m => unfold norPages at h; rw [if_pos rfl] at h; cases h
theorem norWrites_in (a : Nat) (b : List Byte) : ∀ x ∈ norWrites a b, StepIn a (a + b.length) x := norPages_in _ a b
theorem StepIn.mono {lo hi lo' hi' : Nat} {x : NorStep} (h : StepIn lo hi x) (h1 : lo' ≤ lo) (h2 : hi ≤ hi') : StepIn lo' hi' x := by
  cases x with
  | erase m => obtain ⟨p, q⟩ := h; exact ⟨by omega, by omega⟩
  | program m c => obtain ⟨p, q⟩ := h; exact ⟨by omega, by omega⟩
theorem journalBytes_length (j : Journal) : (journalBytes j).length = 256 := by
  unfold journalBytes
  simp only [List.length_append, leBytes_length, List.length_replicate, List.length_cons, List.length_nil]
theorem usedPages_lt {s : Dev} {a n i : Nat} (h : i ∈ usedPages s a n) (hn : n % 256 = 0) : i < n / 256 := by
  unfold usedPages at h
  rw [List.mem_eraseDups] at h
  obtain ⟨e, he, rfl⟩ := List.mem_map.mp h
  have := (List.mem_filter.mp he).2
  rw [decide_eq_true_eq] at this
  omega
theorem newestJournal_page {s : Dev} {j : Journal} {p : Nat} (h : newestJournal s = some (j, p)) : p < 512 := by
  unfold newestJournal at h
  have key : ∀ (l : List Nat) (b : Option (Journal × Nat)), (∀ i ∈ l, i < 512) → (∀ k q, b = some (k, q) → q < 512) →
      ∀ k q, l.foldl (fun best i =>
    match journalOf (norBytes s (0x10000 + 256 * i) 256), best with
    | some j, some (k, p) => if k.seq < j.seq then some (j, i) else some (k, p)
    | some j, none => some (j, i)
    | none, _ => best) b = some (k, q) → q < 512 := by
    intro l
    induction l with
    | nil => intro b _ h2 k q e; exact h2 k q e
    | cons i r ih =>
      intro b h1 h2 k q e
      refine ih _ (fun x hx => h1 x (List.mem_cons_of_mem _ hx)) ?_ k q e
      intro k' q' e'
      dsimp only at e'
      split at e'
      · split at e'
        · cases e'; exact h1 _ List.mem_cons_self
        · cases e'; exact h2 _ _ rfl
      · cases e'; exact h1 _ List.mem_cons_self
      · exact h2 _ _ e'
  refine key _ _ (fun i hi => ?_) (fun k q e => (by cases e)) j p h
  exact usedPages_lt hi (by decide)
theorem journalSteps_in (s : Dev) (b : List Byte) (hb : b.length = 256) : ∀ x ∈ journalSteps s b, StepIn 65536 196608 x := by
  have page : ∀ p, p < 512 → p / 256 ≤ 1 := fun p h => by omega
  have core : ∀ sector next other : Nat, sector ≤ 1 → other ≤ 1 → ∀ x ∈ (match blankPage s (sector + 1) next with
    | some i => [NorStep.program (65536 * (sector + 1) + 256 * i) b]
    | none => [.erase (other + 1), .program (65536 * (other + 1)) b]), StepIn 65536 196608 x := by
    intro sector next other h1 h2 x hx
    cases z : blankPage s (sector + 1) next with
    | some i =>
      have hi : i < 256 := by
        unfold blankPage at z
        have := List.mem_of_find?_eq_some z
        exact List.mem_range.mp this
      rw [z] at hx
      obtain rfl := List.mem_singleton.mp hx
      exact ⟨by omega, by rw [hb]; omega⟩
    | none =>
      rw [z] at hx
      rcases List.mem_cons.mp hx with rfl | hx
      · exact ⟨by omega, by omega⟩
      · obtain rfl := List.mem_singleton.mp hx
        exact ⟨by omega, by rw [hb]; omega⟩
  intro x hx
  unfold journalSteps at hx
  cases z : newestJournal s with
  | none =>
    rw [z] at hx
    exact core 0 0 0 (by omega) (by omega) x hx
  | some e =>
    obtain ⟨k, p⟩ := e
    rw [z] at hx
    have hp := page p (newestJournal_page z)
    exact core (p / 256) (p % 256 + 1) (1 - p / 256) hp (by omega) x hx
/-- A record is written: the journal's sectors alone change in the NOR. -/
theorem journalWrite_spec (k : Journal) (posts : List (Nat × Nat)) (s : Dev) :
    (journalWrite k posts s).upd = { s.upd with j := some (journalNext s k) } ∧ (journalWrite k posts s).sys = s.sys ∧
    ∀ a, (a < 65536 ∨ 196608 ≤ a) → mget 0xFF (journalWrite k posts s).nor a = mget 0xFF s.nor a := by
  have e : journalWrite k posts s = journalIn (journalNext s k) posts ((journalSteps s (journalBytes (journalNext s k))).foldl (fun s x => norApply x s) s) := rfl
  obtain ⟨a1, a2, a3, a4⟩ := foldl_norApply (journalSteps s (journalBytes (journalNext s k))) s
  obtain ⟨b1, b2, -, -⟩ := journalIn_spec (journalNext s k) posts ((journalSteps s (journalBytes (journalNext s k))).foldl (fun s x => norApply x s) s)
  rw [e]
  refine ⟨?_, ?_, fun a h => ?_⟩
  · rw [b1]; exact congrArg (fun u : Upd => { u with j := some (journalNext s k) }) a1
  · rw [journalIn_sys]; exact a2
  · rw [b2]; exact a4 65536 196608 a (journalSteps_in s _ (journalBytes_length _)) h
/-- The end of a copy. -/
theorem copyEnd_spec (k : Journal) (s : Dev) (h : s.upd.j = some k) : (copyEnd k s).sys = s.sys ∧ (∀ a, (a < 65536 ∨ 196608 ≤ a) → mget 0xFF (copyEnd k s).nor a = mget 0xFF s.nor a) ∧
    ∃ x, (copyEnd k s).upd.j = some x ∧ x.seq = k.seq + 1 ∧
      ((x.state = 6 ∧ x.active = 1 - k.active ∧ x.prevValid = true ∧ x.starts = 1 ∧ x.aIcrc = k.sIcrc ∧ x.pIcrc = k.aIcrc ∧ x.pSerial = k.aSerial ∧ x.pCf = k.aCf) ∨
       (x.state = 1 ∧ x.active = k.active ∧ x.prevValid = false ∧ x.aIcrc = k.aIcrc)) := by
  have hn : journalNow s = k := by unfold journalNow; rw [h]; rfl
  have e : copyEnd k s = if trailerOk s (bankBase (1 - k.active)) = true ∧ (imageIds s (bankBase (1 - k.active))).2.1 = k.sIcrc then
      journalWrite { k with state := 6, active := 1 - k.active, prevValid := true, fellBack := false, conversion := false, starts := 1, pSerial := k.aSerial, pIcrc := k.aIcrc, pCf := k.aCf, aSerial := (imageIds s (bankBase (1 - k.active))).1, aIcrc := (imageIds s (bankBase (1 - k.active))).2.1, aCf := (imageIds s (bankBase (1 - k.active))).2.2 }
      [(0x05, (imageIds s (bankBase (1 - k.active))).2.1)] s
      else journalWrite { k with state := 1, prevValid := false } [(0x08, rcMediaError)] s := rfl
  rw [e]
  by_cases g : trailerOk s (bankBase (1 - k.active)) = true ∧ (imageIds s (bankBase (1 - k.active))).2.1 = k.sIcrc
  · rw [if_pos g]
    obtain ⟨w1, w2, w3⟩ := journalWrite_spec { k with state := 6, active := 1 - k.active, prevValid := true, fellBack := false, conversion := false, starts := 1, pSerial := k.aSerial, pIcrc := k.aIcrc, pCf := k.aCf, aSerial := (imageIds s (bankBase (1 - k.active))).1, aIcrc := (imageIds s (bankBase (1 - k.active))).2.1, aCf := (imageIds s (bankBase (1 - k.active))).2.2 } [(0x05, (imageIds s (bankBase (1 - k.active))).2.1)] s
    refine ⟨w2, w3, _, congrArg (·.j) w1, ?_, Or.inl ⟨rfl, rfl, rfl, rfl, g.2, rfl, rfl, rfl⟩⟩
    unfold journalNext; rw [hn]
  · rw [if_neg g]
    obtain ⟨w1, w2, w3⟩ := journalWrite_spec { k with state := 1, prevValid := false } [(0x08, rcMediaError)] s
    refine ⟨w2, w3, journalNext s { k with state := 1, prevValid := false }, congrArg (·.j) w1, ?_, Or.inr ⟨rfl, rfl, rfl, rfl⟩⟩
    unfold journalNext; rw [hn]
theorem bank_apart {k : Nat} (h : k ≤ 1) {a : Nat} (h1 : bankBase k ≤ a) (h2 : a < bankBase k + 8388608) : (a < 65536 ∨ 196608 ≤ a) ∧
    (a < bankBase (1 - k) ∨ bankBase (1 - k) + 8388608 ≤ a) := by
  unfold bankBase at *
  obtain rfl | rfl : k = 0 ∨ k = 1 := by omega
  · omega
  · omega
/-- The operations that copy one sector. -/
def sectorSteps (k : Journal) (s : Dev) : List NorStep :=
  NorStep.erase ((bankBase (1 - k.active) + 65536 * min k.copied (k.sectors - 1)) / 65536) ::
    norWrites (bankBase (1 - k.active) + 65536 * min k.copied (k.sectors - 1)) (norBytes s (stagingBase + 65536 * min k.copied (k.sectors - 1)) 65536)
theorem sectorSteps_in {k : Journal} (s : Dev) (h1 : k.active ≤ 1) (h2 : k.sLen ≤ 8388608) :
    ∀ x ∈ sectorSteps k s, StepIn (bankBase (1 - k.active)) (bankBase (1 - k.active) + 8388608) x := by
  have hn : min k.copied (k.sectors - 1) < 128 := by
    unfold Journal.sectors cdiv; omega
  intro x hx
  unfold sectorSteps at hx
  generalize min k.copied (k.sectors - 1) = n at *
  have hb : bankBase (1 - k.active) % 65536 = 0 := by
    unfold bankBase; omega
  rcases List.mem_cons.mp hx with rfl | hx
  · exact ⟨by omega, by omega⟩
  · refine (norWrites_in _ _ x hx).mono (by omega) ?_
    have : (norBytes s (stagingBase + 65536 * n) 65536).length = 65536 := by unfold norBytes mgets; rw [List.length_map, List.length_range]
    rw [this]; omega
theorem copySector_spec (ok : Bool) {k : Journal} {d : Dev} (h : d.upd.j = some k) :
    (copySector ok k d).sys = d.sys ∧
    (k.active ≤ 1 → k.sLen ≤ 8388608 → ∀ a, bankBase k.active ≤ a → a < bankBase k.active + 8388608 → mget 0xFF (copySector ok k d).nor a = mget 0xFF d.nor a) ∧
    (ok = true → k.copied + 1 < k.sectors → (copySector ok k d).upd.j = some { k with copied := k.copied + 1, seq := k.seq + 1 }) ∧
    (ok = true → k.sectors ≤ k.copied + 1 → ∃ x, (copySector ok k d).upd.j = some x ∧ x.seq = k.seq + 2 ∧
      ((x.state = 6 ∧ x.active = 1 - k.active ∧ x.prevValid = true ∧ x.starts = 1 ∧ x.aIcrc = k.sIcrc ∧ x.pIcrc = k.aIcrc ∧ x.pSerial = k.aSerial ∧ x.pCf = k.aCf) ∨
       (x.state = 1 ∧ x.active = k.active ∧ x.prevValid = false ∧ x.aIcrc = k.aIcrc))) ∧
    (ok = false → d.upd.again = false → (copySector ok k d).upd.j = some k ∧ (copySector ok k d).upd.again = true) ∧
    (ok = false → d.upd.again = true → (copySector ok k d).upd.j = some { k with state := 1, prevValid := false, seq := k.seq + 1 } ∧ (copySector ok k d).upd.again = false) := by
  obtain ⟨f1, f2, f3, f4⟩ := foldl_norApply (sectorSteps k d) d
  obtain ⟨u, hu⟩ : ∃ u, u = (sectorSteps k d).foldl (fun s x => norApply x s) d := ⟨_, rfl⟩
  rw [← hu] at f1 f2 f3 f4
  have spare : k.active ≤ 1 → k.sLen ≤ 8388608 → ∀ a, bankBase k.active ≤ a → a < bankBase k.active + 8388608 → mget 0xFF u.nor a = mget 0xFF d.nor a := by
    intro g1 g2 a g3 g4
    exact f4 _ _ a (sectorSteps_in d g1 g2) (bank_apart g1 g3 g4).2
  have e : copySector ok k d = (if ok then
      if min k.copied (k.sectors - 1) + 1 < k.sectors then journalWrite { k with copied := min k.copied (k.sectors - 1) + 1 } [] { u with upd.again := false }
      else copyEnd (journalNow (journalWrite { k with copied := min k.copied (k.sectors - 1) + 1 } [] { u with upd.again := false })) (journalWrite { k with copied := min k.copied (k.sectors - 1) + 1 } [] { u with upd.again := false })
    else if u.upd.again then journalWrite { k with state := 1, prevValid := false } [(0x08, rcMediaError)] { u with upd.again := false }
    else { u with upd.again := true }) := by
    rw [hu]
    unfold copySector sectorSteps
    dsimp only
    try rfl
  rw [e]
  clear e
  have hj : u.upd.j = some k := (congrArg (·.j) f1).trans h
  have hn : journalNow { u with upd.again := false } = k := by unfold journalNow; dsimp only; rw [hj]; rfl
  cases ok with
  | true =>
    rw [if_pos rfl]
    obtain ⟨w1, w2, w3⟩ := journalWrite_spec { k with copied := min k.copied (k.sectors - 1) + 1 } [] { u with upd.again := false }
    unfold journalNext at w1
    rw [hn] at w1
    generalize journalWrite { k with copied := min k.copied (k.sectors - 1) + 1 } [] { u with upd.again := false } = W at *
    have wj : W.upd.j = some { k with copied := min k.copied (k.sectors - 1) + 1, seq := k.seq + 1 } := congrArg (·.j) w1
    by_cases g : min k.copied (k.sectors - 1) + 1 < k.sectors
    · rw [if_pos g]
      have m : min k.copied (k.sectors - 1) = k.copied := by omega
      refine ⟨w2.trans f2, fun g1 g2 a g3 g4 => (w3 a (bank_apart g1 g3 g4).1).trans (spare g1 g2 a g3 g4), fun _ _ => ?_, fun _ q => by omega, fun q => (by cases q), fun q => (by cases q)⟩
      rw [wj, m]
    · rw [if_neg g]
      have wn : journalNow W = { k with copied := min k.copied (k.sectors - 1) + 1, seq := k.seq + 1 } := by unfold journalNow; rw [wj]; rfl
      obtain ⟨c1, c2, x, c3, c4, c5⟩ := copyEnd_spec _ W wj
      rw [wn]
      refine ⟨c1.trans (w2.trans f2), fun g1 g2 a g3 g4 => (c2 a (bank_apart g1 g3 g4).1).trans ((w3 a (bank_apart g1 g3 g4).1).trans (spare g1 g2 a g3 g4)), fun _ q => by omega, fun _ q => ⟨x, c3, c4, c5⟩, fun q => (by cases q), fun q => (by cases q)⟩
  | false =>
    rw [if_neg (by decide)]
    have ha : u.upd.again = d.upd.again := congrArg (·.again) f1
    cases z : d.upd.again with
    | false =>
      rw [if_neg (by rw [ha, z]; decide)]
      exact ⟨f2, spare, fun q => (by cases q), fun q => (by cases q), fun _ _ => ⟨hj, rfl⟩, fun _ q => (by cases q)⟩
    | true =>
      rw [if_pos (by rw [ha, z])]
      obtain ⟨w1, w2, w3⟩ := journalWrite_spec { k with state := 1, prevValid := false } [(0x08, rcMediaError)] { u with upd.again := false }
      unfold journalNext at w1
      rw [hn] at w1
      refine ⟨w2.trans f2, fun g1 g2 a g3 g4 => (w3 a (bank_apart g1 g3 g4).1).trans (spare g1 g2 a g3 g4), fun q => (by cases q), fun q => (by cases q), fun _ q => (by cases q), fun _ _ => ⟨congrArg (·.j) w1, congrArg (·.again) w1⟩⟩
theorem conversion_in (b : Nat) (image : List Byte) (hb : b % 65536 = 0) (h : image.length ≤ 8388608) :
    ∀ x ∈ (List.range (cdiv image.length 65536)).map (fun i => NorStep.erase (b / 65536 + i)) ++ norWrites b image, StepIn b (b + 8388608) x := by
  intro x hx
  rcases List.mem_append.mp hx with hx | hx
  · obtain ⟨i, hi, rfl⟩ := List.mem_map.mp hx
    have := List.mem_range.mp hi
    unfold cdiv at this
    exact ⟨by omega, by omega⟩
  · exact (norWrites_in b image x hx).mono (le_refl _) (by omega)

end Sys2Proof.Machine
end

