-- ==== Sys2Proof/Machine/Pins.lean ====
section
/-! DEFINITION. The two status pins, which follow the state at every instant (R45, R46). -/

namespace Sys2Proof.Machine

/-- Blink code `n`: `n` low pulses of 200 ms, each followed by 200 ms high, then 1,000 ms high. -/
def blinkCode (n : Nat) : List (Bool × Nat) := (List.replicate n [(false, 200), (true, 200)]).flatten ++ [(true, 1000)]

/-- STAT_N as a sequence of levels (true: high) and their milliseconds, repeated; a single entry is a steady level. -/
def statN (s : Dev) : List (Bool × Nat) :=
  match s.sys.mode with
  | .reset => [(true, 0)]
  | .daybreak => if s.sys.halted then blinkCode 1 else [(false, 50), (true, 50)]
  | .load => if bitOf s F.SYS_STATUS_STRAP_BAD then blinkCode 6 else blinkCode 2
  | .configure => blinkCode 3
  | .service => blinkCode 4
  | .hold => blinkCode 5
  | .standby => [(false, 50), (true, 950)]
  | .active => [(false, 0)]

/-- Is FAULT_N driven low: a fault that its mask lets through; released in RESET. -/
def faultN (s : Dev) : Bool :=
  s.sys.mode != .reset && (rg s R.SYS_FAULT).toNat &&& (rg s R.SYS_FAULT_MASK).toNat != 0

end Sys2Proof.Machine
end

