-- ==== Sys2Proof/Tests/Slice0.lean ====
section
/-! SUPPORT. Tests: terms that WellFormed refuses, for each statement a state and operands that meet its premises, clause by clause (`witness_…`), and
values that the spec works out itself (`test_…`). -/

namespace Sys2Proof.Tests

open Sys2Proof Sys2Proof.Machine

/-! Operands that are in range, to be spoilt one at a time -/

def okHdr : CmdHdr := ⟨.pcie, 0, false, false, 7⟩
def badHdr : CmdHdr := ⟨.pcie, 4096, false, false, 7⟩
def okArgs : List Byte := List.replicate 48 0
def badArgs : List Byte := List.replicate 47 0
def okCreate : CreateArgs := ⟨10, 0, 0, false, false, 0, 0, 0, 0, 0⟩
def okDaybreak : Daybreak := ⟨[], 0, 0, false, false, [], [], []⟩
def okVideo : VideoPkt := ⟨0, 0, 0, 0, none, 0, 0, false, [], true⟩
def okE131 : E131Pkt := ⟨.data, true, none, 0, 0, 100, 0, 0, false, false, 1, 0, []⟩
def okRdm : RdmResp := ⟨true, 0, 0, 0, 0, [], false⟩
def okFrame : EthFrame := ⟨false, true, false, 1, 64, 0, 0, [], false, 0x800, []⟩
def okPtp : PtpMsg := ⟨0, 0, 0, 0, false, 0, 0, 0, 0, 0, none, 0, 0, 0, 0, 0, 0, 0, 0, 0, 0⟩
def okHello : HelloMsg := ⟨0, 0, 0, 0, 0, 0⟩

/-! States for the tests -/

/-- A device in a mode, all else as RESET leaves it. -/
def inMode (m : Mode) : Dev := { sys := { mode := m } }

/-- A machine with an empty queue on a device. -/
def on (d : Dev) : State := { toDev := d }

theorem here (d : Dev) : AtTime d.raw (on d) d := by simp [AtTime, upTo, on]

def hdr : CmdHdr := ⟨.pcie, 0, false, false, 7⟩

/-- The 22 pages of the rings and the argument area, mapped one to one. -/
def ringPages : Tbl Pte := (List.range 22).map fun i => (ringKey * 65536 + i, ⟨i, true, false, true, false, false⟩)

/-- A device in a mode with its rings mapped, and bytes in the argument area. -/
def argDev (m : Mode) (arg : List Byte) : Dev := plainWrite (6 * pageBytes) arg { inMode m with pln := { ptes := ringPages } }

/-- What a check answers, without the state. -/
def okOf {α : Type} (x : Except Refuse α) : Bool := match x with
  | .ok _ => true
  | .error _ => false

theorem ok_of {α : Type} {x : Except Refuse α} (h : okOf x = true) : ∃ y, x = .ok y := by
  cases x with
  | ok y => exact ⟨y, rfl⟩
  | error e => simp [okOf] at h

theorem error_of {α : Type} {x : Except Refuse α} (h : okOf x = false) : ∃ e, x = .error e := by
  cases x with
  | ok y => simp [okOf] at h
  | error e => exact ⟨e, rfl⟩

/-- An object in use, of class show. -/
def objIn (state : Nat) : HObj := ⟨1, state, 0, 3, [], [], 0, 0, false⟩

/-- Does a check answer something with a property? -/
def okWith {α : Type} (x : Except Refuse α) (p : α → Bool) : Bool := match x with
  | .ok y => p y
  | .error _ => false

theorem ok_with {α : Type} {x : Except Refuse α} {p : α → Bool} (h : okWith x p = true) : ∃ y, x = .ok y ∧ p y = true := by
  cases x with
  | ok y => exact ⟨y, rfl, h⟩
  | error e => simp [okWith] at h

/-- An active device with one running canvas under its handle. -/
def objDev : Dev := { argDev .active [] with hdl := { objs := [(okey 5 0, objIn 2)] } }

def hCanvas : Word := mkHandle 5 1 0

def timing50 : Timing := ⟨50, 1, 4, 2, 2, 2000, false⟩

/-- A canvas at 50 Hz whose pass of frame 3 was latched at tick 1 and has written `band` bands. -/
def canvas50 (pass : Option Nat) (switching : Bool) : Canvas :=
  { domain := 0, primaries := 0, timing := timing50, width := 64, height := 64, samples := 64, bg := (0, 0, 0), nextN := 2, switching := switching,
    pass := pass.map fun b => ⟨3, 1, b, [], (0, 0, 0), [], 0, 0⟩ }

def canvasDev (c : Canvas) (raw : Nat) : Dev := { argDev .active [] with
  raw := raw, hdl := { objs := [(okey 5 0, objIn 2)] }, vid := { canvases := [(0, c)] } }

/-- A site universe of 50 Hz on port 0. -/
def siteUniv : Univ :=
  { number := 1, ident := 0, canvas := none, slots := 4, dest := 0, mode := 1, valley := 0, priority := 255, rate := 50, tagged := false,
    unicast := false, forceSync := false, vid := 0, syncAddr := 0, destIp := 0, cls := 1, tickK := 2 }

def portDev (m : Mode) (p : Port) (raw : Nat) : Dev := { inMode m with raw := raw, outp := { ports := [(3, p)] } }

def rec10G : PortRec := { mode := 4, preempt := true, mac := 5 }

/-! WellFormed refuses each operand out of its range -/

theorem test_in_range_accepted :
    [Instr.nop 0 okHdr, .layerCommit 0 okHdr 0 okArgs, .create 0 okHdr okCreate, .daybreakEnd 0 okDaybreak, .st2110PacketRx 0 okVideo,
      .e131PacketRx 0 16 okE131, .rdmResponseRx 0 1 okRdm, .rxFrame 0 16 okFrame, .ptpMessageRx 0 okPtp, .valleyHelloRx 0 3 okHello].all
      wellFormed = true := by decide

theorem test_headers_refused :
    [Instr.nop 0 badHdr, .nop 0 ⟨.mgt (2 ^ 32) 0, 0, false, false, 0⟩, .nop 0 ⟨.mgt 0 65536, 0, false, false, 0⟩, .query 0 badHdr 0,
      .regRead 0 badHdr 0 1, .regWrite 0 badHdr 0 0 0, .setMode 0 badHdr 4, .ledgerRead 0 badHdr 0, .governorSet 0 badHdr 0,
      .create 0 badHdr okCreate, .destroy 0 badHdr 0, .modify 0 badHdr 0 0 0, .start 0 badHdr 0 0 0 false, .stop 0 badHdr 0,
      .setPriority 0 badHdr 0 0, .admitCheck 0 badHdr okCreate, .layerCommit 0 badHdr 0 okArgs, .retime 0 badHdr 0 okArgs,
      .actionArm 0 badHdr 0 okArgs, .actionCancel 0 badHdr 0, .domainSwitch 0 badHdr 0 okArgs, .ringFlush 0 badHdr 0, .ringMark 0 badHdr 0,
      .ringRewind 0 badHdr 0, .ringRelease 0 badHdr 0 0 false, .pxpDiagStatus 0 badHdr 0, .pxpDiagShortTest 0 badHdr 0 [],
      .pxpDiagClear 0 badHdr 0, .pxpDiagProbeNow 0 badHdr 0, .migrateSwitch 0 badHdr 0 0, .migrateAbort 0 badHdr 0,
      .handoverStart 0 badHdr okArgs, .handoverCancel 0 badHdr, .norRead 0 badHdr 0 0 0, .norErase 0 badHdr 0 0, .norProgram 0 badHdr 0 0 0,
      .updateOpen 0 badHdr okArgs, .updateRefresh 0 badHdr, .updateWrite 0 badHdr okArgs, .updateVerify 0 badHdr, .updateActivate 0 badHdr,
      .updateConfirm 0 badHdr, .updateClose 0 badHdr, .chkRun 0 badHdr 0 okArgs, .recalibrate 0 badHdr 0 0 [], .bistSpm 0 badHdr [],
      .bistPlain 0 badHdr [], .bistPins 0 badHdr []].all (fun i => !wellFormed i) = true := by decide

theorem test_command_operands_refused :
    [Instr.regRead 0 okHdr (2 ^ 32) 1, .regRead 0 okHdr 0 256, .regWrite 0 okHdr (2 ^ 32) 0 0, .setMode 0 okHdr 256, .ledgerRead 0 okHdr 256,
      .governorSet 0 okHdr 65536, .modify 0 okHdr 0 (2 ^ 32) 0, .modify 0 okHdr 0 0 (2 ^ 32), .start 0 okHdr 0 (2 ^ 64) 0 false,
      .start 0 okHdr 0 0 (2 ^ 32) false, .setPriority 0 okHdr 0 256, .layerCommit 0 okHdr 0 badArgs, .retime 0 okHdr 0 badArgs,
      .actionArm 0 okHdr 0 badArgs, .domainSwitch 0 okHdr 0 badArgs, .ringRelease 0 okHdr 0 (2 ^ 32) false, .pxpDiagStatus 0 okHdr 8,
      .pxpDiagShortTest 0 okHdr 8 [], .pxpDiagShortTest 0 okHdr 0 [11], .pxpDiagClear 0 okHdr 8, .pxpDiagProbeNow 0 okHdr 8,
      .migrateSwitch 0 okHdr 0 (2 ^ 64), .handoverStart 0 okHdr badArgs, .norRead 0 okHdr (2 ^ 32) 0 0, .norRead 0 okHdr 0 (2 ^ 32) 0,
      .norRead 0 okHdr 0 0 (2 ^ 32), .norErase 0 okHdr (2 ^ 32) 0, .norErase 0 okHdr 0 (2 ^ 32), .norProgram 0 okHdr (2 ^ 32) 0 0,
      .norProgram 0 okHdr 0 (2 ^ 32) 0, .norProgram 0 okHdr 0 0 (2 ^ 32), .updateOpen 0 okHdr badArgs, .updateWrite 0 okHdr badArgs,
      .chkRun 0 okHdr 0 badArgs, .recalibrate 0 okHdr 256 0 [], .recalibrate 0 okHdr 0 256 [], .recalibrate 0 okHdr 0 0 [(9, 0, 0, 0)],
      .recalibrate 0 okHdr 0 0 [(0, 32, 0, 0)], .recalibrate 0 okHdr 0 0 [(0, 0, 2 ^ 32, 0)], .recalibrate 0 okHdr 0 0 [(0, 0, 0, 2 ^ 32)],
      .bistSpm 0 okHdr [16], .bistPins 0 okHdr [(11, 0)], .bistPins 0 okHdr [(0, 16)]].all (fun i => !wellFormed i) = true := by decide

theorem test_create_fields_refused :
    [{ okCreate with kind := 256 }, { okCreate with cls := 256 }, { okCreate with prio := 256 }, { okCreate with index := 2 ^ 32 },
      { okCreate with secs := 2 ^ 64 }, { okCreate with nanos := 2 ^ 32 }, { okCreate with recOff := 2 ^ 32 },
      { okCreate with recLen := 2 ^ 32 }].all
      (fun a => !wellFormed (.create 0 okHdr a) && !wellFormed (.admitCheck 0 okHdr a)) = true := by decide

theorem test_daybreak_findings_refused :
    [{ okDaybreak with cal := [(9, 0, 0, 0)] }, { okDaybreak with cal := [(0, 32, 0, 0)] }, { okDaybreak with trainStep := 7 },
      { okDaybreak with trainChannel := 2 }, { okDaybreak with spmFail := List.replicate 17 0 }, { okDaybreak with pxpShort := [(8, 0)] },
      { okDaybreak with pxpShort := [(0, 11)] }, { okDaybreak with dmxShort := [2] }].all
      (fun r => !wellFormed (.daybreakEnd 0 r)) = true := by decide

set_option maxRecDepth 8000 in
theorem test_received_fields_refused :
    [Instr.st2110PacketRx 0 { okVideo with port := 16 }, .st2110PacketRx 0 { okVideo with group := 2 ^ 32 },
      .st2110PacketRx 0 { okVideo with udpPort := 65536 }, .st2110PacketRx 0 { okVideo with payloadType := 128 },
      .st2110PacketRx 0 { okVideo with seq := 2 ^ 32 }, .st2110PacketRx 0 { okVideo with rtpTime := 2 ^ 32 }, .e131PacketRx 0 17 okE131,
      .e131PacketRx 0 0 { okE131 with srcIp := 2 ^ 32 }, .e131PacketRx 0 0 { okE131 with priority := 256 },
      .e131PacketRx 0 0 { okE131 with syncAddress := 65536 }, .e131PacketRx 0 0 { okE131 with seq := 256 },
      .e131PacketRx 0 0 { okE131 with uni := 65536 }, .e131PacketRx 0 0 { okE131 with startCode := 256 },
      .e131PacketRx 0 0 { okE131 with slots := List.replicate 513 0 }, .rdmResponseRx 0 2 okRdm, .rdmResponseRx 0 0 { okRdm with uid := 2 ^ 48 },
      .rdmResponseRx 0 0 { okRdm with respType := 4 }, .rdmResponseRx 0 0 { okRdm with cc := 256 },
      .rdmResponseRx 0 0 { okRdm with pid := 65536 }, .rxFrame 0 17 okFrame, .rxFrame 0 0 { okFrame with dst := 2 ^ 48 },
      .rxFrame 0 0 { okFrame with src := 2 ^ 48 }, .rxFrame 0 0 { okFrame with tags := [4096] },
      .rxFrame 0 0 { okFrame with etherType := 65536 }, .ptpMessageRx 0 { okPtp with port := 17 },
      .ptpMessageRx 0 { okPtp with msgType := 16 }, .ptpMessageRx 0 { okPtp with domain := 256 }, .ptpMessageRx 0 { okPtp with seq := 65536 },
      .ptpMessageRx 0 { okPtp with srcPort := 65536 }, .valleyHelloRx 0 4 okHello, .valleyHelloRx 0 0 { okHello with uid := 2 ^ 64 },
      .valleyHelloRx 0 0 { okHello with valleyId := 65536 }, .valleyHelloRx 0 0 { okHello with major := 256 },
      .valleyHelloRx 0 0 { okHello with minor := 256 }, .valleyHelloRx 0 0 { okHello with address := 256 },
      .valleyHelloRx 0 0 { okHello with mode := 256 }].all (fun i => !wellFormed i) = true := by decide

theorem test_device_operands_refused :
    [Instr.watchdogExpiry 0 256, .resetEnd 0 8 false, .vlowStop 0 65536, .vlowStopClear 0 65536, .vlowHold 0 65536, .vlowHoldClear 0 65536,
      .mgtCommandDatagram 0 (2 ^ 32) 0 [], .mgtCommandDatagram 0 0 65536 [], .registerWrite 0 (2 ^ 32) 0, .avsbusTransactionDone 0 true 65536,
      .mr4Read 0 256 0, .mr4Read 0 0 256, .bar2Write 0 (2 ^ 32) [], .bar2Read 0 (2 ^ 32) 0 [], .bar2Read 0 0 (2 ^ 32) [],
      .inboxPush 0 65536 0, .inboxPush 0 0 (2 ^ 64), .pushWaitGranted 0 65536, .taskDispatch 0 256 false [], .taskComplete 0 65536,
      .ringVectorPacing 0 1024, .streamLost 0 16, .frameTick 0 8, .bandWritten 0 8 false, .passComplete 0 8, .underrun 0 8, .switchDone 0 8,
      .sourceLost 0 4096 0, .sourceLost 0 0 4, .inputReleased 0 4096, .syncLaunch 0 17, .txFrameStart 0 17, .txFrameEnd 0 17,
      .remoteLate 0 131072, .discoverySend 0 4096, .siteTick 0 131072, .dmxBreak 0 2, .rdmRequestStart 0 2, .rdmTimeout 0 2,
      .discoveryInterval 0 2, .discGo 0 2 0, .mailboxGo 0 2 0, .pxpFrameStart 0 8 [], .pxpFillDone 0 8, .refreshStart 0 8 [],
      .diagMinOnWrite 0 8 0, .pinReadback 0 8 []].all (fun i => !wellFormed i) = true := by decide

theorem test_port_operands_refused :
    [Instr.linkUp 0 17, .linkDown 0 17, .linkMismatch 0 17, .anRestart 0 17 0, .verifyRestart 0 17 0, .pauseEnWrite 0 17 0,
      .verifyTimeout 0 17, .mpacketRx 0 17 false, .pauseEnd 0 17, .arpRequestRetry 0 17 0, .arpRequestRetry 0 0 (2 ^ 32),
      .arpEntryRefresh 0 17 0, .arpEntryRefresh 0 0 (2 ^ 32), .arpEntryExpiry 0 17 0, .arpEntryExpiry 0 0 (2 ^ 32), .igmpReportSend 0 17 0,
      .igmpReportSend 0 0 (2 ^ 32), .snapGo 0 17 0, .cntLoRead 0 17 0, .cntLoRead 0 0 38, .ptpSyncSend 0 17 0, .ptpSyncSend 0 0 2,
      .ptpAnnounceSend 0 17 0, .ptpAnnounceSend 0 0 2, .ptpDelayReqSend 0 17 0, .ptpDelayReqSend 0 0 2, .holdoverEnter 0 2, .tickRefEdge 0 2,
      .tickLost 0 2, .ltcFrame 0 2 none, .ltcLost 0 2, .actionFired 0 32, .pulseEnd 0 32, .capture 0 8 false, .capNsRead 0 8,
      .adcResult 0 [1, 2, 3, 4, 5, 6, 7], .telemetryDatagramRx 0 17 0 [], .telemetryDatagramRx 0 0 (2 ^ 32) [], .zoneCycle 0 4096,
      .holdExpiry 0 4096, .zoneVacant 0 4096, .zoneHoldReset 0 4096, .partnerAdvertisementChange 0 17 0,
      .partnerAdvertisementChange 0 0 (2 ^ 32)].all (fun i => !wellFormed i) = true := by decide

theorem test_valley_pair_and_unit_operands_refused :
    [Instr.valleySignalDetect 0 4, .valleyLinkLock 0 4, .linkControlSend 0 4, .valleyLinkDown 0 4,
      .valleyPacketRx 0 4 ⟨List.replicate 32 0, 0, true, .payload [] 0⟩, .valleyPacketRx 0 0 ⟨List.replicate 31 0, 0, true, .payload [] 0⟩,
      .memberLeave 0 (2 ^ 64), .timePacketSend 0 2, .linkDelayExchange 0 4 0 0 0 0, .relayStall 0 4, .valleyTimeHoldover 0 2,
      .heartbeatRx 0 0 0, .heartbeatRx 0 3 0, .heartbeatRx 0 1 (2 ^ 64), .heartbeatMiss 0 0, .heartbeatMiss 0 3, .pathDegraded 0 0,
      .pathDegraded 0 3, .ilkLineClass 0 8, .healthReport 0 131072 0, .healthReport 0 0 65536, .loaderDatagramRx 0 (2 ^ 32) 0 [],
      .loaderDatagramRx 0 0 65536 [], .chkScanDone 0 8 none, .chkAbort 0 8 0, .railRead 0 [1, 2, 3, 4, 5, 6, 7, 8]].all
      (fun i => !wellFormed i) = true := by decide

/-! Chapter 2: modes, start-up and power loss -/

theorem witness_ResetSourcesEndInReset :
    let d := inMode .active
    AtTime d.raw (on d) d ∧ pcieUp d = true ∧ (0xC5A10001 : Word).toNat / 65536 = 0xC5A1 ∧ bit (0xC5A10001 : Word).toNat 0 = true ∧
      ¬((0xC5A20001 : Word).toNat / 65536 = 0xC5A1 ∧ bit (0xC5A20001 : Word).toNat 0 = true) ∧ 3 < 4 ∧ d.sys.mode ≠ .reset ∧
      d.sys.mode ≠ .daybreak ∧ d.sys.mode ≠ .load :=
  ⟨here _, by decide⟩

def loadDev : Dev := { inMode .load with pln := { ptes := [(fwKey * 65536, ⟨3, true, false, true, false, false⟩)] } }

theorem witness_PartialResetsKeepTheRest :
    (AtTime 0 (on (inMode .service)) (inMode .service) ∧ (inMode .service).sys.mode ≠ .load) ∧
    (AtTime 0 (on loadDev) loadDev ∧ loadDev.sys.mode = .load ∧ sourceOn loadDev 0 = true ∧ loadDev.boot.auth = [] ∧
      (0, ⟨3, true, false, true, false, false⟩) ∈ ptesOf loadDev fwKey ∧ (3 * 65536 + 65535) / pageBytes = 3) :=
  ⟨⟨here _, by decide⟩, here _, by decide⟩

/-- Identity fuses may be misread. -/
theorem misread : ∃ f : Fuses, fuseOk f = false := by
  have h : ∀ x : Nat, ∃ n, (x == n) = false := fun x => ⟨x + 1, by simp⟩
  obtain ⟨n, hn⟩ := h (fuseCrc [] 0 0 0 0 [])
  exact ⟨⟨[], 0, 0, 0, 0, [], n, 0, 0⟩, hn⟩

def cleanReport : Daybreak := ⟨[], 0, 0, false, false, [], [], []⟩

theorem witness_ResetEndsThroughDaybreak :
    (AtTime 0 (on {}) {} ∧ ({} : Dev).sys.mode = .reset ∧ ({} : Dev).sys.tripped = false ∧ ({} : Dev).sys.causes % 4 ≠ 0) ∧
    (∃ d : Dev, AtTime 0 (on d) d ∧ d.sys.mode = .reset ∧ d.sys.tripped = false ∧ d.sys.causes % 4 = 0) ∧
    (∃ d : Dev, AtTime 0 (on d) d ∧ d.sys.mode = .daybreak ∧ d.sys.halted = false ∧ fuseOk d.fuses = true ∧ cleanReport.trainStep = 0 ∧
      ¬∃ n, n < 16 ∧ fld d (F.SPM_BANK_SPARE_LEFT n) < cleanReport.spmFail.getD n 0) ∧
    (∃ d : Dev, AtTime 0 (on d) d ∧ d.sys.mode = .daybreak ∧ d.sys.halted = false ∧ fuseOk d.fuses = false) ∧
    (∃ d : Dev, AtTime 0 (on d) d ∧ d.sys.mode = .daybreak ∧ fuseOk d.fuses = true ∧ { cleanReport with trainStep := 1 }.trainStep ≠ 0) ∧
    (∃ d : Dev, AtTime 0 (on d) d ∧ d.sys.mode = .daybreak ∧ fuseOk d.fuses = true ∧ { cleanReport with spmFail := [5] }.trainStep = 0 ∧
      ∃ n, n < 16 ∧ fld d (F.SPM_BANK_SPARE_LEFT n) < { cleanReport with spmFail := [5] }.spmFail.getD n 0) :=
  ⟨⟨here _, by decide⟩, ⟨{ sys := { causes := 8 } }, here _, by decide⟩,
    ⟨inMode .daybreak, here _, rfl, rfl, by simp [fuseOk, inMode], rfl, fun ⟨n, _, h⟩ => absurd h (by simp [cleanReport])⟩,
    misread.elim fun f h => ⟨{ inMode .daybreak with fuses := f }, here _, rfl, rfl, h⟩,
    ⟨inMode .daybreak, here _, rfl, by simp [fuseOk, inMode], by decide⟩,
    ⟨inMode .daybreak, here _, rfl, by simp [fuseOk, inMode], rfl, 0, by decide, by decide⟩⟩

/-- VMON's thresholds as the reset of SUP gives them, in a mode. -/
def lowDev (m : Mode) : Dev := setBit F.SYS_STATUS_VLOW_STOP true (setBit F.SYS_STATUS_VLOW_HOLD true (inMode m))

theorem witness_SupplyStopsAndHolds :
    (let d := inMode .active
     AtTime 0 (on d) d ∧ d.sys.mode ≠ .reset ∧ bitOf d F.SYS_STATUS_VLOW_STOP = false ∧
       fld d F.SUP_VMON_STOP_MV - 1 < fld d F.SUP_VMON_STOP_MV ∧ bitOf d F.SYS_STATUS_VLOW_HOLD = false ∧
       fld d F.SUP_VMON_HOLD_MV - 1 < fld d F.SUP_VMON_HOLD_MV) ∧
    (let d := { lowDev .hold with red := { paired := true } }
     AtTime 0 (on d) d ∧ bitOf d F.SYS_STATUS_VLOW_STOP = true ∧ 51 * fld d F.SUP_VMON_STOP_MV ≤ 50 * ((51 * fld d F.SUP_VMON_STOP_MV + 49) / 50) ∧
       bitOf d F.SYS_STATUS_VLOW_HOLD = true ∧ 51 * fld d F.SUP_VMON_HOLD_MV ≤ 50 * ((51 * fld d F.SUP_VMON_HOLD_MV + 49) / 50) ∧
       (d.sys.mode = .hold ∧ d.sys.heldFrom = .active ∧ d.red.paired = true ∧ d.red.ilk = false)) ∧
    (let d := lowDev .hold
     AtTime 0 (on d) d ∧ bitOf d F.SYS_STATUS_VLOW_HOLD = true ∧
       ¬(d.sys.mode = .hold ∧ d.sys.heldFrom = .active ∧ d.red.paired = true ∧ d.red.ilk = false)) :=
  ⟨⟨here _, by decide⟩, ⟨here _, by decide⟩, here _, by decide⟩

/-- LOAD with a strap and the length of a PCIe image. -/
def strapDev (boot len : Nat) : Dev := setFld F.BOOT_FW_LEN_LEN len (setFld F.SYS_STRAPS_BOOT boot (inMode .load))

/-- LOAD with MGT up and a source. -/
def mgtDev : Dev := { strapDev 1 0 with outp := { ports := [(16, { link := 2 })] } }

def sessionOf (next : Nat) : Loader := ⟨1, 2, 3, 4096, next, 0, 0, 0, []⟩

theorem witness_FirmwareSourcesInLoad :
    (∀ len ∈ [4095, 4096, 16777216, 16777217],
      let d := strapDev 0 len
      AtTime 0 (on d) d ∧ d.sys.mode = .load ∧ d.sys.perstLow = false ∧ bit (1 : Word).toNat 0 = true ∧ sourceOn d 0 = true ∧
        fld d F.BOOT_FW_STATUS_WINNER ≠ 1 ∧ fld d F.BOOT_FW_STATUS_WINNER ≠ 2 ∧ fld d F.BOOT_FW_LEN_LEN = len ∧ d.boot.auth = []) ∧
    (AtTime 0 (on mgtDev) mgtDev ∧ mgtDev.sys.mode = .load ∧ loaderUp mgtDev = true ∧ mgtDev.boot.loader = none ∧
      mgtDev.boot.helloAt = none ∧
      (∀ len ∈ [4095, 4096, 16777216, 16777217], ([2, 0, 0, 0] ++ leBytes 4 len).length = 8 ∧ at_ ([2, 0, 0, 0] ++ leBytes 4 len) 0 1 = 2 ∧
        at_ ([2, 0, 0, 0] ++ leBytes 4 len) 4 4 = len)) ∧
    (let d := { mgtDev with raw := sec 1, boot := { loader := some (sessionOf 0) } }
     AtTime d.raw (on d) d ∧ d.sys.mode = .load ∧ d.boot.loader = some (sessionOf 0) ∧ (sessionOf 0).ackAt + ms 10 ≤ d.raw ∧
       (sessionOf 0).next < (sessionOf 0).len ∧ (sessionOf 0).dataAt + sec 1 ≤ d.raw) :=
  ⟨fun _ _ => ⟨here _, by revert ‹_›; revert ‹Nat›; decide⟩, ⟨here _, by decide⟩, here _, by decide⟩

/-- SERVICE with key slots 0 and 1 filled, and firmware of slot 0 running. -/
def keyDev : Dev :=
  setFld F.BOOT_KEYS_FW_SLOT 0 (setBit F.BOOT_KEYS_FW_VALID true { inMode .service with fuses := { hashes := [1, 2, 0, 0] } })

theorem witness_AuthenticationDecides :
    (∃ d : Dev, AtTime 0 (on d) d ∧ d.sys.mode = .load ∧ d.boot.auth = [(1, 0)] ∧ authentic d (offered d (1, 0)) = false) ∧
    (AtTime 0 (on keyDev) keyDev ∧ pcieUp keyDev = true ∧ (0xC5A10002 : Word).toNat / 65536 = 0xC5A1 ∧ keyDev.sys.mode = .service ∧
      ¬(bitOf keyDev F.BOOT_KEYS_FW_VALID = true ∧ bit ((0xC5A10002 : Word).toNat % 16) (fld keyDev F.BOOT_KEYS_FW_SLOT) = true) ∧
      (bit (emptySlots keyDev) 0 = false ∧ bit (revoked keyDev) 0 = false ∧ bit ((0xC5A10002 : Word).toNat % 16) 0 = false)) ∧
    (bitOf keyDev F.BOOT_KEYS_FW_VALID = true ∧ bit ((0xC5A10001 : Word).toNat % 16) (fld keyDev F.BOOT_KEYS_FW_SLOT) = true) ∧
    (¬∃ k, k < 4 ∧ bit (emptySlots keyDev) k = false ∧ bit (revoked keyDev) k = false ∧ bit ((0xC5A10003 : Word).toNat % 16) k = false) :=
  ⟨⟨{ inMode .load with boot := { auth := [(1, 0)] } }, here _, rfl, rfl, by decide⟩, ⟨here _, by decide⟩, by decide, by
    rintro ⟨k, hk, h⟩
    have : k = 0 ∨ k = 1 ∨ k = 2 ∨ k = 3 := by omega
    rcases this with rfl | rfl | rfl | rfl <;> revert h <;> decide⟩

/-- A SET_MODE to CONFIGURE waits, its completion at index `past`. -/
def gateDev (mgt : Bool) (past head tail raw : Nat) : Dev :=
  setFld F.HDL_CMP_HEAD_HEAD head (setFld F.HDL_CMP_TAIL_TAIL tail
    { sys := { mode := .service, gate := some ⟨0, mgt, past⟩ }, raw := raw })

theorem witness_ConfigureBeginWaitsForTheHost :
    (let d := gateDev false 1 1 1 0
     AtTime 0 (on d) d ∧ d.sys.gate = some ⟨0, false, 1⟩ ∧
       (fld d F.HDL_CMP_TAIL_TAIL + 4096 - fld d F.HDL_CMP_HEAD_HEAD) % 4096 ≤ (fld d F.HDL_CMP_TAIL_TAIL + 4096 - 1) % 4096) ∧
    (let d := gateDev true 0 4095 4095 0
     AtTime 0 (on d) d ∧ d.sys.gate = some ⟨0, true, 0⟩ ∧ fld d F.HDL_CMP_HEAD_HEAD = fld d F.HDL_CMP_TAIL_TAIL) ∧
    (let d := gateDev false 1 0 1 (ms 100)
     AtTime d.raw (on d) d ∧ d.sys.gate = some ⟨0, false, 1⟩ ∧ 0 + ms 100 ≤ d.raw) ∧
    (let d := gateDev false 1 0 1 (ms 100 - 1)
     AtTime d.raw (on d) d ∧ d.sys.gate = some ⟨0, false, 1⟩ ∧
       ¬((fld d F.HDL_CMP_TAIL_TAIL + 4096 - fld d F.HDL_CMP_HEAD_HEAD) % 4096 ≤ (fld d F.HDL_CMP_TAIL_TAIL + 4096 - 1) % 4096 ∨
         0 + ms 100 ≤ d.raw)) :=
  ⟨⟨here _, by decide⟩, ⟨here _, by decide⟩, ⟨here _, by decide⟩, here _, by decide⟩

def placedDev (bad : Option (Nat × Nat)) (low : Bool) : Dev :=
  setBit F.SYS_STATUS_VLOW_HOLD low { sys := { mode := .configure, placed := some 0, bad := bad } }

theorem witness_ConfigureEndsInActiveOrService :
    (let d := inMode .configure
     AtTime 0 (on d) d ∧ d.sys.mode = .configure ∧ copying d = false ∧ d.sys.placed = none ∧ chooseBank d = .error rcMediaError ∧
       rcMediaError ≠ rcDone ∧ rcMediaError < 256 ∧ d.boot.hdr = none) ∧
    (let d := placedDev (some (rcNoCapacity, 2 ^ 24 - 1)) false
     AtTime 0 (on d) d ∧ d.sys.mode = .configure ∧ copying d = false ∧ d.sys.placed.isSome = true ∧
       d.sys.bad = some (rcNoCapacity, 2 ^ 24 - 1) ∧ rcNoCapacity ≠ rcDone ∧ rcNoCapacity < 256) ∧
    (∀ low, let d := placedDev none low
     AtTime 0 (on d) d ∧ d.sys.mode = .configure ∧ copying d = false ∧ d.sys.placed.isSome = true ∧ d.sys.bad = none ∧
       d.val.admissions = [] ∧ d.red.paired = false ∧ bitOf d F.SYS_STATUS_VLOW_HOLD = low) :=
  ⟨⟨here _, by decide⟩, ⟨here _, by decide⟩, fun low => ⟨here _, by cases low <;> decide⟩⟩

theorem witness_LivenessAndFirstLight :
    (∀ m ∈ [Mode.active, .hold, .service], let d := inMode m
      AtTime 0 (on d) d ∧ timeRuns d = true ∧ d.red.silent = false ∧ d.sys.mode = m) ∧
    (let d := inMode .active
     AtTime 0 (on d) d ∧ d.sys.mode = .active ∧ d.sys.lit = false ∧ d.vid.canvases = [] ∧ rg d R.SYS_T_LIGHT = 0) ∧
    (let d := setRg R.SYS_T_LIGHT 5 (inMode .active)
     AtTime 0 (on d) d ∧ d.sys.mode = .active ∧ d.sys.lit = false ∧ d.vid.canvases = [] ∧ rg d R.SYS_T_LIGHT ≠ 0) :=
  ⟨fun m h => ⟨here _, by revert m; decide⟩, ⟨here _, by decide⟩, here _, by decide⟩

/-! Chapter 3: the command interface, admission, handles -/

def lastDev : Dev := setFld F.HDL_CMP_TAIL_TAIL 4095 (setFld F.HDL_CMP_HEAD_HEAD 4095 (argDev .service []))

theorem witness_NopPostsOneCompletion :
    AtTime 0 (on lastDev) lastDev ∧ Served lastDev hdr 0 0 ∧ hdr.src = .pcie ∧ fld lastDev F.HDL_CMP_TAIL_TAIL = 4095 ∧
      pteAt lastDev ringKey (4 + 32 * 4095 / 65536) = some ⟨5, true, false, true, false, false⟩ ∧
      Served lastDev ⟨.mgt 1 2, 0, false, false, 0⟩ 0 0 :=
  ⟨here _, by decide⟩

theorem witness_ReadsAnswerWhatTheyRead :
    AtTime 0 (on objDev) objDev ∧ Served objDev hdr 1 hCanvas ∧ objOf objDev hCanvas = some (objIn 2) ∧ Served objDev hdr 1 7 ∧
      objOf objDev 7 = none ∧ Served objDev hdr 2 0 ∧ (0xFFFFF0 % 4 = 0 ∧ 4 ≤ 4 ∧ 0xFFFFF0 + 4 * 4 ≤ 0x1000000) ∧ 0x6FFFC % 4 = 0 ∧ 0x6FFFC < 0x70000 ∧
      ¬(0xFFFFF4 % 4 = 0 ∧ 4 ≤ 4 ∧ 0xFFFFF4 + 4 * 4 ≤ 0x1000000) ∧ Served objDev hdr 5 0 ∧ 28 ≤ 28 ∧ 28 < 29 :=
  ⟨here _, by decide⟩

theorem witness_ModeAndRegisterCommandsAct :
    (AtTime 0 (on objDev) objDev ∧ Served objDev hdr 4 0 ∧ objDev.cmd.outst = [] ∧ (7 = Mode.service.code ∧ objDev.sys.mode = .active) ∧
      ¬(3 = Mode.service.code ∧ (objDev.sys.mode = .active ∨ objDev.sys.mode = .standby)) ∧
      ¬(3 = Mode.configure.code ∧ objDev.sys.mode = .service) ∧ Served objDev hdr 3 0 ∧
      (maskedWrite R.SYS_FAULT_MASK 0xFF 0xFF objDev).sys.mode ≠ .reset ∧ (0xFF : Word) ≠ 0 ∧ R.SYS_FAULT_MASK % 4 = 0 ∧
      0xFFFFFC % 4 = 0 ∧ 0xFFFFFC + 4 ≤ 0x1000000 ∧ ¬(0x1000000 % 4 = 0 ∧ 0x1000000 + 4 ≤ 0x1000000) ∧ Served objDev hdr 6 0 ∧
      (0x10D ≤ 0x10D ∧ 0x14D ≤ 0x14D) ∧ 0x10C < 0x10D ∧ 0x14D < 0x14E) ∧
    (let d := argDev .service []
     AtTime 0 (on d) d ∧ Served d hdr 4 0 ∧ d.cmd.outst = [] ∧ 3 = Mode.configure.code ∧ d.sys.mode = .service) :=
  ⟨⟨here _, by decide⟩, here _, by decide⟩

/-- A ring record: type, length, and a ring of `size` words for the host. -/
def ringRec (size : Nat) : List Byte :=
  leBytes 2 0x0A01 ++ leBytes 4 16 ++ leBytes 2 0 ++ leBytes 2 0xFFFF ++ leBytes 2 3 ++ leBytes 4 size ++ leBytes 4 0 ++ leBytes 4 0

def ringArgs : CreateArgs := ⟨0xA, 0, 15, true, false, 0, 0, 0, 0, 24⟩

/-- A universe record that is sent from device 2: site class, ARRIVAL, port 0. -/
def farRec : List Byte :=
  leBytes 2 0x0201 ++ leBytes 4 32 ++ leBytes 2 0 ++ leBytes 2 0xFFFF ++ leBytes 2 1 ++ leBytes 4 0xE0100000 ++ leBytes 4 0 ++ leBytes 2 512 ++
    [0, 1, 2, 255, 60, 0, 0, 0, 0, 0, 0, 0, 0, 0, 0, 0, 1, 0]

/-- A member of a valley with one other member, and an identity. -/
def farDev : Dev := { argDev .active farRec with
  val := { addr := 1, members := [(9, ⟨⟨9, 2, false, 1, 0, 4, [], []⟩, 0, 0⟩)], passes := [(2, (some 0, none, 1))] }
  hdl := { objs := [(okey 0xE 0, ⟨1, 0, 0, 0, [], [], 0, 0, false⟩)] }
  outp := { idents := [(0, ⟨100, false, [1], 0, [], none⟩)] } }

def farArgs : CreateArgs := ⟨2, 1, 0, true, false, 0, 0, 0, 0, 40⟩

theorem witness_AdmissionRefusesOrPlaces :
    (AtTime 0 (on farDev) farDev ∧ createRecord farDev hdr farArgs = .ok (farRec.drop 8) ∧
      (∃ y, createPlace farDev farArgs (farRec.drop 8) = .ok y ∧ (remoteOf y.1 2 y.2).isSome = true) ∧ Served farDev hdr 0x10 0 ∧
      kindModes 2 farDev.sys.mode = true) ∧
    (let d := argDev .active (ringRec 16)
     AtTime 0 (on d) d ∧ ringArgs.kind ≠ 0xD ∧ ringArgs.start = false ∧
       (∃ r, createRecord d hdr ringArgs = .ok r ∧ ∃ y, createPlace d ringArgs r = .ok y ∧ remoteOf y.1 0xA y.2 = none) ∧
       Served d hdr 0x10 0 ∧ Served d hdr 0x16 0 ∧ kindModes 0xA d.sys.mode = true) ∧
    (let d := argDev .active (ringRec 15)
     AtTime 0 (on d) d ∧ (∃ r, createRecord d hdr ringArgs = .ok r ∧ ∃ e, createPlace d ringArgs r = .error e) ∧
       Served d hdr 0x10 0 ∧ Served d hdr 0x16 0 ∧ kindModes 0xA d.sys.mode = true) ∧
    (let d := argDev .configure (ringRec 16)
     let d := { d with sys.applied := true }
     AtTime 0 (on d) d ∧ (∃ r, createRecord d hdr ringArgs = .ok r) ∧ Served d hdr 0x10 0 ∧ kindModes 0xA d.sys.mode = false ∧
       0 < kindLimit 0xA) := by
  refine ⟨⟨here _, by decide, ?_, by decide⟩, ⟨here _, by decide, by decide, ?_, by decide⟩, ⟨here _, ?_, by decide⟩, ⟨here _, ?_, by decide⟩⟩
  · exact ok_with (p := fun y : Dev × Nat => (remoteOf y.1 2 y.2).isSome) (by decide)
  · obtain ⟨r, hr⟩ : ∃ r, createRecord (argDev .active (ringRec 16)) hdr ringArgs = .ok r := ok_of (by decide)
    refine ⟨r, hr, ?_⟩
    have h : r = (ringRec 16).drop 8 := by
      have : createRecord (argDev .active (ringRec 16)) hdr ringArgs = .ok ((ringRec 16).drop 8) := by decide
      rw [hr] at this; exact Except.ok.inj this
    subst h
    obtain ⟨y, hy⟩ : ∃ y, createPlace (argDev .active (ringRec 16)) ringArgs ((ringRec 16).drop 8) = .ok y := ok_of (by decide)
    exact ⟨y, hy, rfl⟩
  · refine ⟨(ringRec 15).drop 8, by decide, error_of (by decide)⟩
  · exact ok_of (by decide)

/-- An input universe (kind 3) in a state, which a layer-like object refers to or not; its record in the argument area. -/
def inputRec (uni : Nat) : List Byte :=
  leBytes 2 0x0301 ++ leBytes 4 16 ++ leBytes 2 0 ++ leBytes 2 0xFFFF ++ leBytes 2 uni ++ leBytes 2 1 ++ [0, 0] ++ leBytes 2 0 ++ [60, 0] ++
    leBytes 2 0 ++ leBytes 2 0

def inputDev (m : Mode) (state uni : Nat) (refs : Bool) : Dev := { argDev m (inputRec uni) with
  hdl := { objs := [(okey 3 0, objIn state)] ++ if refs then [(okey 8 0, { objIn 2 with refs := [okey 3 0] })] else [] }
  outp := { inputs := [(0, { uni := 1, ports := 1, merge := 0, loss := 0, holdMs := 0, rate := 60, join := false, tagged := false, vid := 0 })]
            ports := [(0, { rec_ := { mode := 1 } })] } }

def hInput : Word := mkHandle 3 1 0

theorem witness_DestroyAndModifyActOnTheirHandle :
    (let d := inputDev .active 2 1 false
     AtTime 0 (on d) d ∧ Served d hdr 0x11 5 ∧ objOf d 5 = none ∧ Served d hdr 0x11 hInput ∧ objOf d hInput = some (objIn 2) ∧
       kindModes (hKind hInput) d.sys.mode = true ∧ referrer d (hKey hInput) = none ∧ hKind hInput ≠ 0xD) ∧
    (let d := inputDev .active 2 1 true
     AtTime 0 (on d) d ∧ Served d hdr 0x11 hInput ∧ objOf d hInput = some (objIn 2) ∧ kindModes (hKind hInput) d.sys.mode = true ∧
       referrer d (hKey hInput) = some (okey 8 0)) ∧
    (let d := inputDev .standby 2 1 false
     AtTime 0 (on d) d ∧ Served d hdr 0x11 hInput ∧ objOf d hInput = some (objIn 2) ∧ kindModes (hKind hInput) d.sys.mode = false) ∧
    (let d := inputDev .active 2 63999 false
     AtTime 0 (on d) d ∧ Served d hdr 0x12 hInput ∧ hdr.src = .pcie ∧ objOf d hInput = some (objIn 2) ∧ hKind hInput ≤ 9 ∧
       (d.hdl.objs.find? fun e => e.1 / 2 ^ 20 == 0xD && e.2.refs.contains (hKey hInput)) = none ∧
       carried d (hKind hInput) 0 24 = .ok ((inputRec 63999).drop 8) ∧ (∃ x, modifyObj (hKey hInput) ((inputRec 63999).drop 8) d = .ok x) ∧
       hKind hInput ≠ 2 ∧ ∃ e, carried d (hKind hInput) 0 25 = .error e) ∧
    (let d := inputDev .active 2 64000 false
     AtTime 0 (on d) d ∧ Served d hdr 0x12 hInput ∧ carried d (hKind hInput) 0 24 = .ok ((inputRec 64000).drop 8) ∧
       ∃ e, modifyObj (hKey hInput) ((inputRec 64000).drop 8) d = .error e) :=
  ⟨⟨here _, by decide⟩, ⟨here _, by decide⟩, ⟨here _, by decide⟩,
    ⟨here _, by decide, rfl, by decide, by decide, by decide, by decide, ok_of (by decide), by decide, error_of (by decide)⟩,
    here _, by decide, by decide, error_of (by decide)⟩

theorem witness_ChannelsStartStopAndMovePriority :
    ∀ st ∈ [1, 2, 3, 4], let d := inputDev .active st 1 false
      AtTime 0 (on d) d ∧ objOf d hInput = some (objIn st) ∧ hKind hInput ≤ 9 ∧ Served d hdr 0x13 hInput ∧ Served d hdr 0x14 hInput ∧
        Served d hdr 0x15 hInput ∧ 15 ≤ 15 ∧ 15 < 16 :=
  fun st h => ⟨here _, by revert st; decide⟩

/-- A standby device whose window starts at the last page of a 4 GiB store; the host may write that page. -/
def winDev : Dev := setFld F.SYS_WINDOW_BASE 65535 { inMode .standby with pln := { ptes := [(okey 5 0 * 65536, ⟨65535, true, false, true, false, false⟩)] } }

theorem witness_WindowMovesBytesOfThePlain :
    AtTime 0 (on winDev) winDev ∧ (0x10000000 < 0xFFFFFFF + [(1 : Byte), 2].length) ∧ 0xFFFFFFE + [(1 : Byte), 2].length ≤ 0x10000000 ∧
      windowUp winDev = true ∧ (windowBase winDev + 65535 + 0 < storePages winDev * 65536 ∧
        windowTakes winDev ((windowBase winDev + 65535 + 0) / 65536) = true) ∧
      ¬(windowBase winDev + 65535 + 1 < storePages winDev * 65536) ∧ windowUp (inMode .daybreak) = false ∧ 0x10000000 < 0x10000000 + 1 ∧
      0xFFFFFFF + 1 ≤ 0x10000000 ∧ winDev.pln.poisoned = [] ∧
      (536870911 ∈ [536870911] ∧ 8 * 536870911 + 8 ≤ storePages winDev * 65536 ∧ windowBase winDev + 65528 ≤ 8 * 536870911 ∧
        8 * 536870911 + 8 ≤ windowBase winDev + 65528 + 8) :=
  ⟨here _, by decide⟩

def walkDev (h : Word) : Dev :=
  setRg R.PLN_XLAT_HANDLE h { objDev with pln := { ptes := [(okey 5 0 * 65536 + 65535, ⟨2 ^ 18 - 1, true, false, true, false, false⟩)] } }

theorem witness_WalkShowsTheEntry :
    (let d := walkDev hCanvas
     AtTime 0 (on d) d ∧ pcieUp d = true ∧ bar0Writable d R.PLN_XLAT_ADDR = true ∧ objOf d (rg d R.PLN_XLAT_HANDLE) = some (objIn 2) ∧
       pteAt d (hKey (rg d R.PLN_XLAT_HANDLE)) ((0xFFFFFFFF : Word).toNat / 65536) = some ⟨2 ^ 18 - 1, true, false, true, false, false⟩ ∧
       2 ^ 18 - 1 < 2 ^ 18 ∧ pteAt d (hKey (rg d R.PLN_XLAT_HANDLE)) ((0 : Word).toNat / 65536) = none) ∧
    (let d := walkDev 0
     AtTime 0 (on d) d ∧ pcieUp d = true ∧ bar0Writable d R.PLN_XLAT_ADDR = true ∧ objOf d (rg d R.PLN_XLAT_HANDLE) = none) :=
  ⟨⟨here _, by decide⟩, here _, by decide⟩

theorem witness_RegisterWritesAndReleases :
    (let d := { inMode .configure with hdl := { dying := [⟨hCanvas, [(2, 5)]⟩] } }
     AtTime 0 (on d) d ∧ 0x1000000 ≤ 0x1000000 ∧ 0xFFFFFF < 0x1000000 ∧ pcieUp d = true ∧ bar0Writable d R.SYS_FAULT_MASK = true ∧ waiting d = 0 ∧
       writeReg R.SYS_FAULT_MASK 5 d = storeReg R.SYS_FAULT_MASK 5 d ∧ R.SYS_FAULT_MASK ≠ R.HDL_CMD_TAIL ∧ R.SYS_FAULT_MASK ≠ R.HDL_CMD_HEAD ∧
       (findReg R.SYS_FAULT_MASK).isSome = true ∧ findReg 0xFFFFFC = none ∧ writeReg 0xFFFFFC 5 d = storeReg 0xFFFFFC 5 d ∧
       bar0Writable d 0xFFFFFC = true ∧ d.hdl.dying.find? (fun x => x.handle == 0) = none ∧
       d.hdl.dying.find? (fun x => x.handle == hCanvas) = some ⟨hCanvas, [(2, 5)]⟩ ∧ ∀ q ∈ ptesOf d (hKey hCanvas), q.2.rt = false) ∧
    (let d := inMode .daybreak
     AtTime 0 (on d) d ∧ bar0Writable d R.PLN_SCRUB = false) :=
  ⟨⟨here _, by decide, by decide, by decide, by decide, by decide, rfl, by decide, by decide, by decide, by decide, rfl, by decide, by decide,
    by decide, by decide⟩, here _, by decide⟩

/-- The rings of an active device at a head and tail of commands and of completions. -/
def bellDev (m : Mode) (head tail cmpHead cmpTail : Nat) : Dev :=
  setFld F.HDL_CMD_HEAD_HEAD head (setFld F.HDL_CMD_TAIL_TAIL tail (setFld F.HDL_CMP_HEAD_HEAD cmpHead (setFld F.HDL_CMP_TAIL_TAIL cmpTail (argDev m []))))

def firstEntry (d : Dev) : Entry := entryOf .pcie (fld d F.HDL_CMD_HEAD_HEAD) (relRead d ringKey (64 * fld d F.HDL_CMD_HEAD_HEAD) 64)

theorem witness_DoorbellsServeTheRing :
    (let d := bellDev .active 4095 4095 0 0
     AtTime 0 (on d) d ∧ pcieUp d = true ∧ d.cmd.mgt = [] ∧ bar0Writable d R.HDL_CMD_TAIL = true ∧
       fld d F.HDL_CMD_HEAD_HEAD = (0xFFF : Word).toNat % 4096 ∧ (fld d F.HDL_CMD_HEAD_HEAD + 1) % 4096 = (0 : Word).toNat % 4096 ∧ cmdUp d = true ∧
       cmdFree d (entryFence (firstEntry d)) (firstEntry d).handle = true ∧ cmpRoom d = true) ∧
    (let d := bellDev .active 4095 4095 0 4095
     AtTime 0 (on d) d ∧ pcieUp d = true ∧ d.cmd.mgt = [] ∧ bar0Writable d R.HDL_CMD_TAIL = true ∧
       (fld d F.HDL_CMD_HEAD_HEAD + 1) % 4096 = (0 : Word).toNat % 4096 ∧ cmdUp d = true ∧ cmpRoom d = false) ∧
    (let d := bellDev .active 7 7 0 4095
     AtTime 0 (on d) d ∧ bar0Writable d R.HDL_CMP_HEAD = true ∧ d.cmd.outst = [] ∧ fld d F.HDL_CMP_TAIL_TAIL < 4096 ∧
       fld d F.HDL_CMD_HEAD_HEAD = fld d F.HDL_CMD_TAIL_TAIL ∧ (fld d F.HDL_CMP_TAIL_TAIL + 4096 - (0 : Word).toNat % 4096) % 4096 = 4095) ∧
    (let d := bellDev .active 7 8 0 4095
     AtTime 0 (on d) d ∧ bar0Writable d R.HDL_CMP_HEAD = true ∧ d.cmd.outst = [] ∧ fld d F.HDL_CMP_TAIL_TAIL < 4096 ∧
       (fld d F.HDL_CMD_HEAD_HEAD + 1) % 4096 = fld d F.HDL_CMD_TAIL_TAIL ∧ cmdUp d = true ∧
       cmdFree d (entryFence (firstEntry d)) (firstEntry d).handle = true ∧
       (fld d F.HDL_CMP_TAIL_TAIL + 4096 - (1 : Word).toNat % 4096) % 4096 < 4095) :=
  ⟨⟨here _, by decide⟩, ⟨here _, by decide⟩, ⟨here _, by decide⟩, here _, by decide⟩

/-- An active device with MGT up and one listed host. -/
def hostDev : Dev := { argDev .active [] with outp := { ports := [(16, { link := 2 })] }, hdl := { hosts := [⟨5, 32⟩] } }

theorem witness_ManagementPortAndVectors :
    (AtTime 0 (on hostDev) hostDev ∧ cmdUp hostDev = true ∧ (portAt hostDev 16).link = 2 ∧ mgtWellFormed ([1, 0, 0, 0] : List Byte) = false ∧
      mgtWellFormed ([1, 16, 0, 0] ++ List.replicate 1024 0) = true ∧ hostDev.sys.gate = none ∧ mgtHost hostDev 4 = false ∧
      mgtHost hostDev 5 = true ∧ hostDev.cmd.mgt = [] ∧ hostDev.cmd.outst = [] ∧
      fld hostDev F.HDL_CMD_HEAD_HEAD = fld hostDev F.HDL_CMD_TAIL_TAIL ∧ 65535 < 65536) ∧
    (cmdUp (inMode .load) = false ∧ (portAt (inMode .active) 16).link ≠ 2) ∧
    (let d := { inMode .active with raw := us 10, hdl := { vec0Last := some 0, vec0Owed := true } }
     AtTime d.raw (on d) d ∧ d.hdl.vec0Last = some 0 ∧ d.hdl.vec0Owed = true ∧ 0 + us 10 ≤ d.raw) ∧
    (let d := { inMode .active with raw := us 10 - 1, hdl := { vec0Last := some 0, vec0Owed := true } }
     AtTime d.raw (on d) d ∧ d.hdl.vec0Last = some 0 ∧ d.raw < 0 + us 10) :=
  ⟨⟨here _, by decide +kernel⟩, by decide, ⟨here _, by decide⟩, here _, by decide⟩

theorem witness_EntriesSpellTheirCommands :
    let c : Instr := .regRead 0 hdr 0xFFFFFFFF 255
    AtTime (arrival c) (on objDev) objDev ∧ cmdOf c = some (hdr, 2, 0) ∧
      argsOf c = some (leBytes 4 0xFFFFFFFF ++ leBytes 1 255 ++ List.replicate 43 0) ∧ wellFormed c = true ∧
      cmdMayStart objDev (entryFence (entryOf hdr.src hdr.slot (entryBytes hdr 2 0 (leBytes 4 0xFFFFFFFF ++ leBytes 1 255 ++ List.replicate 43 0)))) 0 = true :=
  ⟨here _, by decide⟩

/-! Chapters 3 to 5: the governor, the Plain, tasks and rings -/

def govDev (mv : Nat) : Dev := setFld F.HDL_VCORE_SET_MV mv (inMode .service)

theorem witness_GovernorFollowsTheSpeedIndex :
    (∀ mv ∈ [650, 850], let d := govDev mv
      AtTime 0 (on d) d ∧ timeRuns d = true ∧ (List.replicate 63 0x100).length ≠ 64 ∧ (List.replicate 64 0x10A).length = 64 ∧
        d.hdl.avsWrite = none ∧ 650 ≤ vcore d ∧ vcore d ≤ 850) ∧
    (let d := { govDev 650 with hdl := { avsWrite := some 700, heldSteps := List.replicate 31 0 } }
     AtTime 0 (on d) d ∧ timeRuns d = true ∧ (List.replicate 64 0xFF).getD 63 0 % 65536 < 0x100 ∧ d.hdl.heldSteps.length < 32 ∧
       d.hdl.avsWrite.isSome = true) :=
  ⟨fun mv h => ⟨here _, by revert mv; decide⟩, here _, by decide⟩

theorem witness_DramIsTrackedAndScrubbed :
    (let d := { inMode .standby with raw := sec 86400 }
     AtTime d.raw (on d) d ∧ timeRuns d = true ∧ (3 % 8 < 4 ∧ 3 % 8 < 4) ∧ d.pln.overdue = false ∧ sec 86400 ≤ scrubAge d ∧ d.sys.mode ≠ .hold) ∧
    (let d := { setBit F.PLN_DRAM_TEMP_DERATED true (inMode .hold) with raw := sec 86400 - 1 }
     AtTime d.raw (on d) d ∧ timeRuns d = true ∧ bitOf d F.PLN_DRAM_TEMP_DERATED = true ∧ scrubAge d < sec 86400 ∧ d.sys.mode = .hold) :=
  ⟨⟨here _, by decide⟩, here _, by decide⟩

/-- A task of a group, with `n` items and an inbox for 16. -/
def taskOf (n : Nat) (running : Bool) : Task :=
  ⟨0, 1, 0, false, true, 1, 9, 0, 0, 16, 0, (List.range n).map (· * 2 ^ 48), 0, !running, running, false, 0⟩

def taskDev (n : Nat) (waits : List Nat) (running : Bool) : Dev := { inMode .active with
  sch := { tasks := [(40, taskOf n running)], groups := [(9, { issue := n, busy := running, members := [40] })],
           ready := [(1 * 16 + 0, if running then [] else [40])], waits := if waits = [] then [] else [(40, waits)],
           handed := if running then [(40, (0, some 5))] else [] } }

theorem witness_TasksKeepTheirOrder :
    (let d := taskDev 15 [] false
     AtTime 0 (on d) d ∧ tget d.sch.tasks 40 = some (taskOf 15 false) ∧ pushRoom d (taskOf 15 false) = true ∧ waitsAt d 40 = [] ∧
       d.sys.mode ≠ .hold ∧ topLevel d 1 16 = some 0 ∧ readyAt d 1 0 = [40] ∧ groupOk d (taskOf 15 false) = true ∧ tget d.sch.handed 40 = none ∧
       topLevel d 2 16 = none ∧ (taskOf 15 false).running = false) ∧
    (let d := taskDev 16 [6] false
     AtTime 0 (on d) d ∧ tget d.sch.tasks 40 = some (taskOf 16 false) ∧ pushRoom d (taskOf 16 false) = false ∧ waitsAt d 40 = [6]) ∧
    (let d := taskDev 3 [6, 7] true
     AtTime 0 (on d) d ∧ tget d.sch.tasks 40 = some (taskOf 3 true) ∧ pushRoom d (taskOf 3 true) = true ∧ waitsAt d 40 = [6, 7] ∧
       (taskOf 3 true).running = true ∧ ((tget d.sch.handed 40).bind (·.2)).isSome = true) :=
  ⟨⟨here _, by decide⟩, ⟨here _, by decide⟩, here _, by decide⟩

/-- A ring of 16 words for the host. -/
def hostRing (items : List RItem) : Ring :=
  { size := 16, hostWrite := true, hostConsumer := true, irqVec := 2, consumer := 0, irqDepth := 1, items := items }

/-- A device with a ring of 16 words, and an open reservation or none; the ring of POP is 0. -/
def pushDev (q : Option Resv) (items : List RItem) : Dev := { inMode .active with que := { rings := [(0, hostRing items)], resv := q } }

/-- The first word of an item of two words: its type, and its length less one. -/
def itemWord : Nat := 2 ^ 60 + 2 ^ 56

theorem witness_HostPushesWholeItems :
    (let d := pushDev none []
     AtTime 0 (on d) d ∧ pcieUp d = true ∧ bar0Writable d R.QUE_PUSH_RING = true ∧ bar0Writable d R.QUE_PUSH_DATA_HI = true ∧
       bar0Writable d R.QUE_PUSH_COMMIT = true ∧ d.que.resv = none ∧ tget d.que.rings ((0x00100000 : Word).toNat % 1024) = some (hostRing []) ∧
       (hostRing []).hostWrite = true ∧ (1 ≤ (0x00100000 : Word).toNat / 65536 % 32 ∧ (0x00100000 : Word).toNat / 65536 % 32 ≤ 16 ∧
         (0x00100000 : Word).toNat / 65536 % 32 ≤ (hostRing []).size) ∧ 16 < (0x00110000 : Word).toNat / 65536 % 32 ∧
       (0 : Word).toNat / 65536 % 32 = 0 ∧ tget d.que.rings ((0x3FF : Word).toNat % 1024) = none) ∧
    (let q : Resv := ⟨0, 2, [], false, false⟩
     let d := pushDev (some q) []
     AtTime 0 (on d) d ∧ d.que.resv = some q ∧ q.staged.length < 31 ∧ bit (0 : Word).toNat 0 = false ∧ bit (1 : Word).toNat 0 = true ∧
       q.dead = false ∧ q.flushed = false ∧ q.staged = []) ∧
    (let q : Resv := ⟨0, 2, [], true, false⟩
     let d := pushDev (some q) []
     AtTime 0 (on d) d ∧ d.que.resv = some q ∧ bit (1 : Word).toNat 0 = true ∧ q.flushed = true) ∧
    (let q : Resv := ⟨0, 2, [itemWord, 0], false, false⟩
     let d := pushDev (some q) [⟨0, List.replicate 14 0⟩]
     AtTime 0 (on d) d ∧ d.que.resv = some q ∧ bit (1 : Word).toNat 0 = true ∧ q.dead = false ∧ q.flushed = false ∧ q.staged ≠ [] ∧
       itemOk q.staged.length q.words (q.staged.headD 0) = true ∧ tget d.que.rings q.ring = some (hostRing [⟨0, List.replicate 14 0⟩]) ∧
       (hostRing [⟨0, List.replicate 14 0⟩]).plain = false ∧
       (hostRing [⟨0, List.replicate 14 0⟩]).used + q.staged.length ≤ (hostRing [⟨0, List.replicate 14 0⟩]).size) :=
  ⟨⟨here _, by decide⟩, ⟨here _, by decide⟩, ⟨here _, by decide⟩, here _, by decide⟩

def popRing (size read part : Nat) (owed : Bool) : Ring :=
  { hostRing [⟨0, [itemWord, 1]⟩, ⟨2, [itemWord, 2]⟩, ⟨4, [itemWord, 3]⟩] with
    size := size, read := read, part := part, vecOwed := owed, vecLast := some 0 }

/-- A ring (kind 10) of the host under its handle, with 3 items of which 2 are read. -/
def popDev (size read part : Nat) (owed : Bool) (raw : Nat) : Dev := { argDev .active [] with
  raw := raw
  hdl := { objs := [(okey 10 0, objIn 0)] }
  que := { rings := [(0, popRing size read part owed), (1, { hostRing [] with hostConsumer := false })]
           resv := some ⟨0, 2, [], false, false⟩ } }

theorem witness_HostPopsWordByWord :
    (∀ part ∈ [0, 1], let d := popDev 16 2 part true (us 10)
     let r := popRing 16 2 part true
     AtTime d.raw (on d) d ∧ pcieUp d = true ∧ bar0Up d R.QUE_POP_LO = true ∧ tget d.que.rings (fld d F.QUE_POP_RING_RING) = some r ∧
       r.hostConsumer = true ∧ r.plain = false ∧ r.items[r.read]? = some ⟨4, [itemWord, 3]⟩ ∧ r.part = part ∧ r.vecOwed = true ∧
       r.vecLast = some 0 ∧ 0 + us 10 ≤ d.raw ∧ r.irqDepth ≤ r.depth) ∧
    (let d := popDev 16 3 0 false 0
     let r := popRing 16 3 0 false
     AtTime d.raw (on d) d ∧ tget d.que.rings (fld d F.QUE_POP_RING_RING) = some r ∧ r.hostConsumer = true ∧ r.items.length ≤ r.read ∧
       r.vecOwed = false) ∧
    (let d := setFld F.QUE_POP_RING_RING 1 (popDev 16 3 0 false 0)
     AtTime d.raw (on d) d ∧ pcieUp d = true ∧ bar0Up d R.QUE_POP_LO = true ∧
       tget d.que.rings (fld d F.QUE_POP_RING_RING) = some { hostRing [] with hostConsumer := false }) :=
  ⟨fun p h => ⟨here _, by revert p; decide⟩, ⟨here _, by decide⟩, here _, by decide⟩

def hRing : Word := mkHandle 10 1 0

theorem witness_RingCommandsMoveTheConsumer :
    (∀ size ∈ [4096, 8192], let d := popDev size 2 0 false 0
     AtTime 0 (on d) d ∧ hKind hRing = 0xA ∧ (objOf d hRing).isSome = true ∧ (∃ r, tget d.que.rings (hIndex hRing) = some r ∧
         r.plain = decide (size = 8192) ∧ r.read = 2) ∧
       Served d hdr 0x300 hRing ∧ Served d hdr 0x301 hRing ∧ Served d hdr 0x302 hRing ∧ Served d hdr 0x303 hRing ∧ 2 < 3 ∧
       d.que.resv = some ⟨0, 2, [], false, false⟩ ∧ 0 = hIndex hRing) ∧
    (let d := popDev 16 2 0 false 0
     AtTime 0 (on d) d ∧ hKind hCanvas ≠ 0xA ∧ objOf d 7 = none ∧ Served d hdr 0x300 7 ∧ Served d hdr 0x301 7 ∧ Served d hdr 0x302 7 ∧
       Served d hdr 0x303 7) :=
  ⟨fun p h => ⟨here _, by decide, by revert p; decide, ⟨_, rfl, by revert p; decide, rfl⟩, by revert p; decide⟩, here _, by decide⟩

/-! Chapters 16 and 17: test access, checks, calibration, supply -/

theorem witness_TestAccessPortActs :
    (let d : Dev := { sys := { rstLow := true } }
     AtTime 0 (on d) d ∧ d.sys.mode = .reset ∧ d.sys.rstLow = true) ∧
    (let d : Dev := { sys := { testEn := true } }
     AtTime 0 (on d) d ∧ d.sys.mode = .reset ∧ d.sys.testEn = true) ∧
    (let d : Dev := {}
     AtTime 0 (on d) d ∧ ¬(d.sys.mode = .reset ∧ (d.sys.rstLow = true ∨ d.sys.testEn = true)) ∧ d.fuses.lot.length = 8) :=
  ⟨⟨here _, by decide⟩, ⟨here _, by decide⟩, here _, by decide⟩

/-- An active device with a check job (kind 12) of two pages, idle or scanning. -/
def chkDev (x : Option Scan) (raw : Nat) : Dev := { argDev .active [] with
  raw := raw
  hdl := { objs := [(okey 12 0, objIn 0)] }
  pln := { ptes := [(okey 12 0 * 65536, ⟨3, true, false, true, false, false⟩)] }
  chk := { jobs := [(0, ⟨0, true, 2, x⟩)] } }

def hJob : Word := mkHandle 12 1 0

/-- The arguments of CHK_RUN. -/
def chkArgs (source start len : Nat) : List Byte := leBytes 4 source ++ leBytes 4 0 ++ leBytes 8 start ++ leBytes 8 len ++ leBytes 8 0 ++ List.replicate 16 0

theorem witness_ChecksTakeTheirRange :
    let d := chkDev none 0
    AtTime 0 (on d) d ∧ Served d hdr 0x800 hJob ∧ hKind hJob = 0xC ∧ (objOf d hJob).isSome = true ∧
      tget d.chk.jobs (hIndex hJob) = some ⟨0, true, 2, none⟩ ∧
      (∀ b ∈ [chkArgs 1 (2 ^ 32 - 1) 1, chkArgs 1 (2 ^ 32) 0, chkArgs 1 (2 ^ 32 - 1) 2],
        at_ b 0 1 ≤ 3 ∧ at_ b 1 1 ≤ 1 ∧ at_ b 2 2 = 0 ∧ at_ b 0 1 = 1 ∧ at_ b 4 4 = 0) ∧ ptesOf d (okey 0xC (hIndex hJob)) ≠ [] ∧
      at_ (chkArgs 1 (2 ^ 32 - 1) 1) 8 8 + at_ (chkArgs 1 (2 ^ 32 - 1) 1) 16 8 ≤ scanSize d 1 ∧ at_ (chkArgs 1 (2 ^ 32 - 1) 1) 16 8 ≠ 0 ∧
      at_ (chkArgs 1 (2 ^ 32) 0) 8 8 + at_ (chkArgs 1 (2 ^ 32) 0) 16 8 ≤ scanSize d 1 ∧ at_ (chkArgs 1 (2 ^ 32) 0) 16 8 = 0 ∧
      scanSize d 1 < at_ (chkArgs 1 (2 ^ 32 - 1) 2) 8 8 + at_ (chkArgs 1 (2 ^ 32 - 1) 2) 16 8 :=
  ⟨here _, by decide, by decide, by decide, by decide, by decide, by decide, by decide, by decide, by decide, by decide, by decide⟩

def scanOf : Scan := ⟨hdr, hJob, 0, none, 0, 8, none, 0⟩

theorem witness_ScansEndWithTheirResult :
    (let d := chkDev (some scanOf) (ns 8)
     AtTime d.raw (on d) d ∧ tget d.chk.jobs 0 = some ⟨0, true, 2, some scanOf⟩ ∧ chkPaused d = false ∧ scanOf.source ≠ 3 ∧
       scanPoison d scanOf = none ∧ scanOf.began + ns scanOf.len ≤ d.raw ∧ 7 < scanOf.len ∧ scanOf.start + scanOf.len ≤ storePages d * pageBytes ∧
       pcieUp d = true ∧ bar0Writable d (R.CHK_CH_CTRL 0) = true ∧ (1 : Word).getLsbD 0 = true) ∧
    (let d := chkDev (some scanOf) (ns 8 - 1)
     AtTime d.raw (on d) d ∧ chkPaused d = false ∧ scanPoison d scanOf = none ∧ d.raw < scanOf.began + ns scanOf.len) ∧
    (let d := setBit F.HDL_STATUS_AT_RISK true (chkDev (some scanOf) 0)
     AtTime d.raw (on d) d ∧ tget d.chk.jobs 0 = some ⟨0, true, 2, some scanOf⟩ ∧ chkPaused d = true) :=
  ⟨⟨here _, by decide⟩, ⟨here _, by decide⟩, here _, by decide⟩

theorem witness_ServiceTestsAnswerTheirFindings :
    let d := { argDev .service [] with pln := { ptes := ringPages, free := [(100, 10)] } }
    AtTime 0 (on d) d ∧ Served d hdr 0x801 0 ∧ calPick 0 31 = none ∧ calPick 0 0 = some [(0, 0)] ∧ calPick 9 0 = none ∧
      Served d hdr 0x802 0 ∧ [15] ≠ [] ∧ segHas d.pln.free 110 = false ∧ segHas d.pln.free 109 = true ∧ 7 < 8 ∧ 9 < 10 :=
  ⟨here _, by decide⟩

theorem witness_SupplyReadingsShow :
    (let d := inMode .load
     AtTime 0 (on d) d ∧ d.sys.mode ≠ .reset ∧ (List.replicate 9 65536).length = 9 ∧ (1000 : Int) ≤ 1000 ∧ d.sys.tripped = false ∧
       (-32768 : Int) ≤ 999 ∧ (999 : Int) < 1000 ∧ 8 * (fld d F.SUP_TEMP_WARN_C : Int) ≤ 8 * fld d F.SUP_TEMP_WARN_C) ∧
    (let d : Dev := { sys := { tripped := true } }
     AtTime 0 (on d) d ∧ d.sys.mode = .reset ∧ (919 : Int) < 920) :=
  ⟨⟨here _, by decide⟩, here _, by decide⟩

/-! Chapter 6: ingest, canvases, the raster engine -/

def streamOf (joined lost : Bool) : Stream :=
  { sampling := 0, depth := 10, width := 1920, height := 1080, color := 0, range := 0, transfer := 0, pt := 96, group := 5, source := 0, udpPort := 6,
    port := 1, vlan := 0, rateNum := 50, rateDen := 1, w := 1, joined := joined, lost := lost, frame := some (9, false), lastSeq := some (2 ^ 32 - 1) }

def streamDev (m : Mode) (x : Stream) (raw : Nat) : Dev := { inMode m with raw := raw, vid := { streams := [(3, x)] } }

/-- The marker packet of frame 9, of pixels of the last row. -/
def lastPkt : VideoPkt := ⟨1, 5, 6, 96, none, 0, 9, true, [(1079, 1918, false, [1, 2, 3, 4, 5])], true⟩

theorem witness_StreamsTakeFramesAndAreLost :
    (let d := streamDev .active (streamOf true false) 0
     let x := streamOf true false
     AtTime 0 (on d) d ∧ d.vid.streams = [(3, x)] ∧ streamMatch lastPkt x = true ∧ d.sys.mode ≠ .hold ∧ formatMatch lastPkt x = true ∧
       lastPkt.lenOk = true ∧ lastPkt.srd.length ≤ 3 ∧ lastPkt.srd.all (srdOk x) = true ∧ lastPkt.marker = true ∧
       x.frame = some (lastPkt.rtpTime, false) ∧ lastPkt.seq < 2 ^ 32 ∧ x.lastSeq = some ((lastPkt.seq + 2 ^ 32 - 1) % 2 ^ 32) ∧
       formatMatch { lastPkt with payloadType := 97 } x = false ∧ (∀ e ∈ d.vid.streams, streamMatch { lastPkt with port := 2 } e.2 = false)) ∧
    (let d := streamDev .hold (streamOf true false) 0
     AtTime 0 (on d) d ∧ streamMatch lastPkt (streamOf true false) = true ∧ d.sys.mode = .hold) ∧
    (let d := streamDev .active (streamOf true false) (ms 500)
     AtTime d.raw (on d) d ∧ tget d.vid.streams 3 = some (streamOf true false) ∧ (streamOf true false).joined = true ∧ d.sys.mode ≠ .hold ∧
       (streamOf true false).heard + ms 500 ≤ d.raw ∧ (streamOf true false).lost = false) ∧
    (let d := streamDev .active (streamOf true true) (ms 500 - 1)
     AtTime d.raw (on d) d ∧ tget d.vid.streams 3 = some (streamOf true true) ∧ (streamOf true true).lost = true ∧
       d.raw < (streamOf true true).heard + ms 500) :=
  ⟨⟨here _, by decide⟩, ⟨here _, by decide⟩, ⟨here _, by decide⟩, here _, by decide⟩

theorem witness_PassesPublishOrAbort :
    (let c := canvas50 (some 4) true
     let d := canvasDev c (ms 38)
     let p : Pass := ⟨3, 1, 4, [], (0, 0, 0), [], 0, 0⟩
     AtTime d.raw (on d) d ∧ canvasAt d 0 = some c ∧ c.pass = some p ∧ c.timing.bands ≤ p.band ∧ canvasTime d c ≤ deadline d c p ∧
       c.switching = true ∧ carryNow d c = 0) ∧
    (let c := canvas50 (some 3) false
     let d := canvasDev c (ms 38 + 1)
     let p : Pass := ⟨3, 1, 3, [], (0, 0, 0), [], 0, 0⟩
     AtTime d.raw (on d) d ∧ canvasAt d 0 = some c ∧ c.pass = some p ∧ deadline d c p < canvasTime d c ∧ p.band < c.timing.bands ∧
       ¬(c.timing.bands ≤ p.band ∧ canvasTime d c ≤ deadline d c p) ∧ c.switching = false) ∧
    (let c := canvas50 none false
     let d := canvasDev c 0
     AtTime d.raw (on d) d ∧ canvasAt d 0 = some c ∧ c.pass = none) :=
  ⟨⟨here _, by decide⟩, ⟨here _, by decide⟩, here _, by decide⟩

theorem witness_FrameTicksStartPasses :
    (let c := canvas50 none false
     let d := canvasDev c (ms 40 - ns 5)
     AtTime d.raw (on d) d ∧ canvasAt d 0 = some c ∧ timeRuns d = true ∧ c.regrid = none ∧ tickAt d c c.nextN ≤ canvasTime d c + (ns 5 : Nat) ∧
       c.switch = none ∧ d.outp.univs = [] ∧ d.outp.ghosts = [] ∧ d.pxp.ports = [] ∧ d.tim.actions = [] ∧ d.red.handover = none ∧
       ckptMay d = false ∧ showRuns d = true ∧ objAt d (okey 5 0) = some (objIn 2) ∧
       reachedAt d (objIn 2) (tickAt d c (c.nextN + c.timing.lead)) = true) ∧
    (let c := canvas50 none false
     let d := { canvasDev c (ms 40 - ns 5 - 1) with sys := { mode := .standby } }
     AtTime d.raw (on d) d ∧ canvasAt d 0 = some c ∧ timeRuns d = true ∧ c.regrid = none ∧ canvasTime d c + (ns 5 : Nat) < tickAt d c c.nextN ∧
       showRuns d = false) ∧
    (let d := { canvasDev (canvas50 none false) 0 with sys := { mode := .load } }
     AtTime d.raw (on d) d ∧ canvasAt d 0 = some (canvas50 none false) ∧ timeRuns d = false) :=
  ⟨⟨here _, by decide⟩, ⟨here _, by decide⟩, here _, by decide⟩

/-- A canvas under its handle with a layer of one colour, the next tick at 40 ms. -/
def layerDev (c : Canvas) (raw : Nat) : Dev := { canvasDev c raw with
  hdl := { objs := [(okey 5 0, objIn 2), (okey 6 0, objIn 2)] }
  vid := { canvases := [(0, c)], layers := [(0, ⟨0, none, 0, ⟨0, 0, 64, 64, 0, 0, 0, 0, 0, 0, 0, 0, 0, 0⟩, none, none⟩)] } }

/-- One layer state entry: the layer, its place, size and z. -/
def commitArgs (count w z : Nat) : List Byte :=
  leBytes 1 count ++ List.replicate 7 0 ++ leBytes 4 0x60100000 ++ leBytes 4 0 ++ leBytes 2 w ++ leBytes 2 64 ++ List.replicate 11 0 ++ leBytes 1 z ++
    List.replicate 16 0

theorem witness_CommitsAreStagedForTheirTick :
    (let c := canvas50 none false
     let d := layerDev c 0
     AtTime 0 (on d) d ∧ Served d hdr 0x100 7 ∧ objOf d 7 = none ∧ Served d hdr 0x100 hCanvas ∧ hKind hCanvas = 5 ∧ (objOf d hCanvas).isSome = true ∧
       canvasAt d (hIndex hCanvas) = some c ∧ (∃ e, commitEntries d hdr (commitArgs 33 64 31) = .error e) ∧
       (∃ es, commitEntries d hdr (commitArgs 1 16385 31) = .ok es ∧ ∃ e, commitOk d 0 es = .error e) ∧
       (∃ es, commitEntries d hdr (commitArgs 1 16384 31) = .ok es ∧ ∃ l, commitOk d 0 es = .ok l) ∧
       ¬(isRunning d (okey 5 0) = true ∧ c.regrid = none ∧ tickAt d c c.nextN - c.timing.tw ≤ canvasTime d c)) ∧
    (let c := canvas50 none false
     let d := layerDev c (ms 40 - 1)
     AtTime d.raw (on d) d ∧ (∃ es, commitEntries d hdr (commitArgs 1 64 0) = .ok es ∧ ∃ l, commitOk d 0 es = .ok l) ∧
       (isRunning d (okey 5 0) = true ∧ c.regrid = none ∧ tickAt d c c.nextN - c.timing.tw ≤ canvasTime d c)) := by
  refine ⟨⟨here _, by decide, by decide, by decide, by decide, by decide, by decide, error_of (by decide), ⟨_, rfl, error_of (by decide)⟩,
    ⟨_, rfl, ok_of (by decide)⟩, by decide⟩, here _, ⟨_, rfl, ok_of (by decide)⟩, by decide⟩

/-- RETIME to a rate of `num` ÷ 1,000 Hz, without records. -/
def retimeArgs (num : Nat) : List Byte :=
  leBytes 4 num ++ leBytes 2 1000 ++ leBytes 2 4 ++ [2, 2] ++ leBytes 2 2000 ++ [0] ++ List.replicate 35 0

theorem witness_RetimeIsStaged :
    let c := canvas50 none false
    let d := layerDev c 0
    AtTime 0 (on d) d ∧ Served d hdr 0x101 7 ∧ objOf d 7 = none ∧ Served d hdr 0x101 hCanvas ∧ hKind hCanvas = 5 ∧ (objOf d hCanvas).isSome = true ∧
      canvasAt d (hIndex hCanvas) = some c ∧ (∃ x, retimeCheck d hdr 0 c (retimeArgs 22999) = .error x) ∧
      (∃ y, retimeCheck d hdr 0 c (retimeArgs 23000) = .ok y) ∧ c.regrid = none :=
  ⟨here _, by decide, by decide, by decide, by decide, by decide, by decide, error_of (by decide), ok_of (by decide), by decide⟩

/-! Chapters 7 and 8: inputs and outputs -/

def srcOf (cid : Nat) : ESource := ⟨cid, 100, 20, [], 0, 0⟩

def inputUniv (st : Nat) (srcs : Tbl ESource) : Input :=
  { uni := 1, ports := 1, merge := 0, loss := 1, holdMs := 5, rate := 60, join := false, tagged := false, vid := 0, st := st, srcs := srcs }

def inDev (m : Mode) (u : Input) (raw : Nat) : Dev := { inMode m with
  raw := raw, hdl := { objs := [(okey 3 0, objIn 2)] }, outp := { inputs := [(0, u)] }, pln := { holdFrom := raw } }

/-- A data packet of CID 7 to universe 1. -/
def dataPkt (prio seq : Nat) : E131Pkt := ⟨.data, true, none, 7, 0, prio, 0, seq, false, false, 1, 0, [9]⟩

theorem witness_InputsFollowTheTable :
    (let u := inputUniv 0 []
     let d := inDev .active u 0
     AtTime 0 (on d) d ∧ timeRuns d = true ∧ 15 < 16 ∧ 16 ≤ 16 ∧ { dataPkt 0 0 with lenOk := false }.lenOk = false ∧ (dataPkt 200 0).lenOk = true ∧
       { dataPkt 0 0 with kind := .sync }.kind ≠ .data ∧ (dataPkt 200 0).kind = .data ∧ inputFor d 15 (dataPkt 200 0) = none ∧
       inputFor d 0 (dataPkt 200 0) = some (0, u) ∧ inputAt d 0 = some u ∧ 200 < (dataPkt 201 0).priority ∧ (dataPkt 200 0).priority ≤ 200 ∧
       { dataPkt 0 0 with preview := true }.preview = true ∧ (dataPkt 0 0).preview = false ∧ { dataPkt 0 0 with terminated := true }.terminated = true ∧
       (dataPkt 0 0).terminated = false ∧ { dataPkt 0 0 with startCode := 0xDD }.startCode ≠ 0 ∧ (dataPkt 0 0).startCode = 0 ∧
       u.posOf 7 = none ∧ u.freePos = some 0 ∧ d.sys.mode ≠ .hold) ∧
    (let u := inputUniv 1 [(0, srcOf 1), (1, srcOf 2), (2, srcOf 3), (3, srcOf 4)]
     let d := inDev .hold u 0
     AtTime 0 (on d) d ∧ inputFor d 0 (dataPkt 200 0) = some (0, u) ∧ u.posOf 7 = none ∧ u.freePos = none) ∧
    (let u := inputUniv 1 [(0, srcOf 7)]
     let d := inDev .hold u 0
     AtTime 0 (on d) d ∧ inputFor d 0 (dataPkt 200 0) = some (0, u) ∧ u.posOf 7 = some 0 ∧ tget u.srcs 0 = some (srcOf 7) ∧
       (-19 ≤ seqDiff 1 (srcOf 7).seq ∧ seqDiff 1 (srcOf 7).seq ≤ 0) ∧ (-19 ≤ seqDiff 20 (srcOf 7).seq ∧ seqDiff 20 (srcOf 7).seq ≤ 0) ∧
       ¬(-19 ≤ seqDiff 0 (srcOf 7).seq ∧ seqDiff 0 (srcOf 7).seq ≤ 0) ∧ ¬(-19 ≤ seqDiff 21 (srcOf 7).seq ∧ seqDiff 21 (srcOf 7).seq ≤ 0) ∧
       d.sys.mode = .hold) ∧
    (let u := inputUniv 1 [(0, srcOf 7)]
     let d := inDev .active u (ms 2500)
     AtTime d.raw (on d) d ∧ inputAt d 0 = some u ∧ tget u.srcs 0 = some (srcOf 7) ∧ (srcOf 7).heard + ms 2500 ≤ inNow d u ∧
       tdel u.srcs 0 = [] ∧ (u.loss = 0 ∨ u.holdMs ≠ 0) ∧ ({ u with holdMs := 0 }.loss = 1 ∧ { u with holdMs := 0 }.holdMs = 0) ∧
       releaseDue d u = false) ∧
    (let u := inputUniv 2 [(0, srcOf 7), (1, srcOf 8)]
     let d := inDev .active u (ms 5)
     AtTime d.raw (on d) d ∧ inputAt d 0 = some u ∧ inNow d u < (srcOf 7).heard + ms 2500 ∧ tdel u.srcs 0 ≠ [] ∧ releaseDue d u = true) :=
  ⟨⟨here _, by decide⟩, ⟨here _, by decide⟩, ⟨here _, by decide⟩, ⟨here _, by decide⟩, here _, by decide⟩

def identOf0 (on : Bool) (at_ : Option Time) : Ident := { priority := 100, discovery := on, cid := [1], sourceIp := 0, name := [], discAt := at_ }

def outDev (m : Mode) (raw : Nat) (i : Ident) (objs : Tbl HObj) : Dev := { inMode m with
  raw := raw
  hdl := { objs := objs }
  vid := { canvases := [(0, canvas50 none false)] }
  sch := { tasks := [(0, ⟨0, 0x40, 0, false, false, 1, 0, 0, 0, 16, 0, [], 0, true, false, false, 0⟩)], ready := [(16, [0])] }
  outp := { idents := [(0, i)], univs := [(0, siteUniv)], ports := [(0, { syncFor := [(0, 2, 40 * 65536000000)] })] } }

theorem witness_SyncsDiscoveryAndSiteTicks :
    (let d := outDev .active (ms 40 - us 1) (identOf0 true none) [(okey 2 0, objIn 2)]
     AtTime d.raw (on d) d ∧ syncDue d 0 = some (0, 2, 40 * 65536000000) ∧ outputsOn d = true ∧ 0 < 16 ∧ syncDue d 1 = none ∧
       tget d.outp.idents 0 = some (identOf0 true none) ∧ (identOf0 true none).discovery = true ∧ (identOf0 true none).discAt = none) ∧
    (let d := outDev .active (ms 40 - ns 5) (identOf0 false none) [(okey 2 0, objIn 2)]
     AtTime d.raw (on d) d ∧ tget d.outp.univs 0 = some siteUniv ∧ siteUniv.cls = 1 ∧ migOf d 0 = none ∧ timeRuns d = true ∧
       siteTickAt siteUniv siteUniv.tickK ≤ domTime d 0 + (ns 5 : Nat) ∧ objAt d (okey 2 0) = some (objIn 2) ∧ (objIn 2).state = 2 ∧
       d.sys.mode ≠ .hold ∧ ((objIn 2).startAt : Int) ≤ siteTickAt siteUniv siteUniv.tickK ∧ siteRuns d = true ∧ siteUniv.remote = false ∧
       (∃ tk, tget (postFlags 0 6 d).sch.tasks 0 = some tk ∧ tk.queued = true ∧ groupOk (postFlags 0 6 d) tk = true) ∧
       (identOf0 false none).discovery = false) ∧
    (let d := outDev .standby (ms 9500 - 1) (identOf0 true (some 0)) []
     AtTime d.raw (on d) d ∧ outputsOn d = false ∧ d.raw < 0 + ms 9500 ∧ objAt d (okey 2 0) = none) ∧
    (let d := outDev .active (ms 9500) (identOf0 true (some 0)) []
     AtTime d.raw (on d) d ∧ outputsOn d = true ∧ 0 + ms 9500 ≤ d.raw) ∧
    (let d := outDev .active (ms 40 - ns 5 - 1) (identOf0 true (some 0)) []
     AtTime d.raw (on d) d ∧ domTime d 0 + (ns 5 : Nat) < siteTickAt siteUniv siteUniv.tickK) :=
  ⟨⟨here _, by decide⟩, ⟨here _, by decide, by decide, by decide, by decide, by decide, by decide, by decide, by decide, by decide, by decide, by decide,
    ⟨_, rfl, by decide, by decide⟩, by decide⟩, ⟨here _, by decide⟩, ⟨here _, by decide⟩, here _, by decide⟩

/-! Chapter 10: network ports -/

theorem witness_LinksComeUpAndGoDown :
    (let d := portDev .load { rec_ := rec10G, link := 1 } 0
     AtTime 0 (on d) d ∧ portsRun d = true ∧ (portAt d 3).link = 1 ∧ (portAt d 3).rec_.preempt = true ∧ (portAt d 3).verify ≠ 2 ∧
       (portAt d 3).pauseEnd = none ∧ portOn d 3 = true) ∧
    (let d := portDev .active { rec_ := rec10G, link := 2, verify := 2, attempts := 2, pauseEnd := some (ms 10) } (ms 10)
     AtTime d.raw (on d) d ∧ (portAt d 3).link = 2 ∧ 3 < 17 ∧ canWrite d (R.MAC_CTRL 3) = true ∧ (portAt d 3).verify = 2 ∧
       (portAt d 3).verifyAt + ms (portAt d 3).rec_.verifyMs ≤ d.raw ∧ (portAt d 3).attempts < 3 ∧ (portAt d 3).verify ≠ 0 ∧
       (portAt d 3).pauseEnd = some (ms 10) ∧ ms 10 ≤ d.raw) ∧
    (let d := portDev .active { rec_ := rec10G, link := 2, verify := 2, attempts := 3, pauseEnd := some (ms 10 + 1) } (ms 10)
     AtTime d.raw (on d) d ∧ 3 ≤ (portAt d 3).attempts ∧ d.raw < ms 10 + 1) ∧
    (let d := portDev .active { rec_ := rec10G, link := 3, verify := 4 } (ms 10 - 1)
     AtTime d.raw (on d) d ∧ (portAt d 3).link = 3 ∧ (portAt d 3).verify = 4 ∧ portsRun d = true ∧ portOn d 3 = true ∧
       d.raw < (portAt d 3).verifyAt + ms (portAt d 3).rec_.verifyMs ∧ (7 : Word).getLsbD 0 = true ∧ (7 : Word).getLsbD 1 = true ∧
       (7 : Word).getLsbD 2 = true) ∧
    (let d := portDev .reset {} 0
     AtTime d.raw (on d) d ∧ portsRun d = false ∧ canWrite d (R.MAC_CTRL 3) = false ∧ portOn d 3 = false) :=
  ⟨⟨here _, by decide⟩, ⟨here _, by decide⟩, ⟨here _, by decide⟩, ⟨here _, by decide⟩, here _, by decide⟩

/-- An E1.31-like UDP datagram to the port, in a frame of the least length. -/
def udpFrame : EthFrame := ⟨false, true, false, 1, 64, 5, 6, [], false, 0x0800, ipv4 1 2 64 0 17 [] (udp 5568 5568 [1, 2])⟩

theorem witness_FramesAddressesAndCounters :
    (let d := portDev .active { rec_ := rec10G, link := 2, arp := [(1, ⟨none, 0, 0⟩), (2, ⟨some 7, 0, 0⟩)], igmp := [⟨9, 0, 0, 0, sec 300⟩] } (sec 300)
     AtTime d.raw (on d) d ∧ (portAt d 3).link = 2 ∧ udpFrame.fragments ≤ 1 ∧ udpFrame.assyError = false ∧ sizeBin 64 = some 28 ∧
       ({ udpFrame with codeError := true, len := 63 }.codeError = true ∧ 63 < 64) ∧
       rxVerdict (cntAdd 3 28 1 d) 3 udpFrame = .accept false ∧ cdiv (64 - 4) 2048 ≤ (portAt d 3).rec_.rxBuffers ∧
       rxVerdict (cntAdd 3 28 1 d) 3 { udpFrame with fcsOk := false } = .drop cRxFcs ∧ cRxFcs < 28 ∧
       tget (portAt d 3).arp 1 = some ⟨none, 0, 0⟩ ∧ 0 + sec 1 ≤ d.raw ∧ tget (portAt d 3).arp 2 = some ⟨some 7, 0, 0⟩ ∧ 0 + sec 270 ≤ d.raw ∧
       0 < 0 + sec 270 ∧ 0 + sec 300 ≤ d.raw ∧ (portAt d 3).igmp = [⟨9, 0, 0, 0, sec 300⟩] ∧ canWrite d (R.MAC_SNAP 3) = true ∧
       (1 : Word).getLsbD 0 = true ∧ (1 : Word).getLsbD 1 = false ∧ canWrite d (R.MAC_SNAP 0) = true ∧ (2 : Word).getLsbD 1 = true ∧ pcieUp d = true ∧
       37 < 38 ∧ bar0Up d (R.MAC_CNT_LO 3 37) = true) ∧
    (let d := portDev .active { rec_ := rec10G, link := 1, arp := [(1, ⟨none, 0, 0⟩), (2, ⟨some 7, 0, 0⟩)], igmp := [⟨9, 0, 0, 0, sec 1⟩] } (sec 1 - 1)
     AtTime d.raw (on d) d ∧ (portAt d 3).link ≠ 2 ∧ d.raw < 0 + sec 1 ∧ d.raw < 0 + sec 270 ∧ ∀ x ∈ (portAt d 3).igmp, x.group = 9 → d.raw < x.due) :=
  ⟨⟨here _, by decide⟩, here _, by decide⟩

def frameOf (tag : TxTag) (n : Nat) : TxFrame := ⟨tag, List.replicate n 0⟩

def txDev (m : Mode) (p : Port) (raw : Nat) : Dev := { portDev m { p with rec_ := rec10G, link := 2 } raw with vid := { canvases := [(0, canvas50 none false)] } }

def syncFrame : TxFrame := frameOf (.sync 0 2 0) 60

/-- A frame of 200 bytes on the wire, started at 0. -/
def wireOf (done : Time) : Wire := ⟨frameOf .best 196, false, 0, done, 0, 0⟩

def hostedOf (sent : Option Int) : Hosted :=
  ⟨2, 0, { siteUniv with cls := 0, dest := 3 }, ⟨0, false, [], 0, [], none⟩, 0, 50, 1, 2, 0, none, none, sent⟩

set_option maxRecDepth 4000 in
theorem witness_PortsSendInOrder :
    (let d := txDev .active { express := [syncFrame] } 0
     AtTime 0 (on d) d ∧ timeRuns d = true ∧ 3 < 17 ∧ 17 ≤ 17 ∧ (portAt d 3).queue = [] ∧ (portAt d 3).link = 2 ∧ (portAt d 3).paused d.raw = false ∧
       (portAt d 3).wire = none ∧ (portAt d 3).ready ≤ d.raw ∧ (portAt d 3).express = [syncFrame]) ∧
    (let d := txDev .active { express := [syncFrame], wire := some (wireOf (ms 1)), verify := 3 } 3565159
     AtTime d.raw (on d) d ∧ (portAt d 3).wire = some (wireOf (ms 1)) ∧ splitAt d 3 (wireOf (ms 1)) = some 60 ∧ d.raw < (wireOf (ms 1)).done) ∧
    (let d := txDev .active { wire := some (wireOf 9) } 9
     AtTime d.raw (on d) d ∧ (portAt d 3).express = [] ∧ splitAt d 3 (wireOf 9) = none ∧ (wireOf 9).done ≤ d.raw) ∧
    (let d := txDev .active { express := [frameOf (.event 0 0 0) 60], syncFor := [(0, 2, 40 * 65536000000)] } (ms 40 - us 2)
     AtTime d.raw (on d) d ∧ (portAt d 3).express = [frameOf (.event 0 0 0) 60] ∧ expressOk d 3 (frameOf (.event 0 0 0) 60) = false) ∧
    (let d := txDev .active { held := some (frameOf .best 196, 64, 1) } 0
     AtTime d.raw (on d) d ∧ (portAt d 3).held = some (frameOf .best 196, 64, 1) ∧ guardOk d 3 ((frameOf .best 196).len - 64) = true) ∧
    (let d := txDev .active { queue := [frameOf .control 100, frameOf .best 60] } 0
     AtTime d.raw (on d) d ∧ (∀ f ∈ (portAt d 3).queue, expired d f = false) ∧ (portAt d 3).held = none ∧ pickQueued d 3 = some (frameOf .control 100)) ∧
    (let d := { txDev .hold { pauseEnd := some 1, ready := 1 } 0 with val := { hosted := [(0, hostedOf none)] } }
     AtTime d.raw (on d) d ∧ (portAt d 3).paused d.raw = true ∧ d.raw < (portAt d 3).ready ∧ pickQueued d 3 = none ∧
       tget d.val.hosted 0 = some (hostedOf none) ∧ tget d.val.hosted 1 = none) ∧
    (let d := { txDev .active {} (ms 40) with val := { hosted := [(0, hostedOf (some 1))] } }
     AtTime d.raw (on d) d ∧ tget d.val.hosted 0 = some (hostedOf (some 1)) ∧ (hostedOf (some 1)).univ.cls = 0 ∧ outputsOn d = true ∧
       hostTick d (hostedOf (some 1)) (1 + 1) - (us 50 : Nat) - (arrivalWidth d (hostedOf (some 1)).univ.dest : Nat) ≤ domTime d (hostedOf (some 1)).domain) :=
  ⟨⟨here _, by decide⟩, ⟨here _, by decide⟩, ⟨here _, by decide⟩, ⟨here _, by decide⟩, ⟨here _, by decide⟩, ⟨here _, by decide⟩,
    ⟨here _, by decide⟩, here _, by decide⟩

/-! Chapter 8: DMX lines; chapter 9: pixel ports -/

/-- A universe of 4 slots on DMX line 0, its site tick 2 at 40 ms computed. -/
def lineSite : Univ := { siteUniv with dest := 16, payFrame := some 2, payload := [1, 2, 3, 4] }

def lineDev (m : Mode) (l : Line) (raw : Nat) : Dev := { inMode m with
  raw := raw, hdl := { objs := [(okey 2 0, objIn 2)] }, outp := { univs := [(0, lineSite)] }, dmx := { line0 := l } }

def hostReq (dest sent : Nat) (ends : Time) : RdmReq := ⟨0, 0, dest, 0x20, 0x60, [], sent, ends⟩

def discReqOf (serves sent : Nat) : RdmReq := ⟨serves, 0, 5, 0x10, 1, [], sent, 0⟩

def openDisc (mute : Option Nat) : Disc := ⟨false, [(0, 0xFFFFFFFFFFFE)], mute, []⟩

def okResp (ty : Nat) : RdmResp := ⟨true, 7, ty, 0x21, 0x60, [], false⟩

theorem witness_DmxLinesAndRdm :
    (let d := lineDev .active { lastBreak := some 0, tick := 1 } (us 1204)
     AtTime d.raw (on d) d ∧ 0 < 2 ∧ lineUniv d 0 = some (0, lineSite) ∧ lineSends d 0 = true ∧ breakDue d 0 lineSite = true ∧ rdmNext d 0 = none) ∧
    (let d := lineDev .active { lastBreak := some 0, tick := 1, mailbox := some (hostReq 5 0 0) } (us 1204 - 1)
     AtTime d.raw (on d) d ∧ breakDue d 0 lineSite = false ∧ rdmNext d 0 = some (hostReq 5 0 0) ∧ d.sys.mode = .active ∧ lineSends d 0 = true ∧
       lineBusy d 0 = false ∧ rdmFits d 0 lineSite (hostReq 5 0 0) = true ∧ (hostReq 5 0 0).dest ≠ rdmAll) ∧
    (let d := lineDev .active { mailbox := some (hostReq rdmAll 0 0) } 0
     AtTime d.raw (on d) d ∧ rdmNext d 0 = some (hostReq rdmAll 0 0) ∧ lineBusy d 0 = false ∧ rdmFits d 0 lineSite (hostReq rdmAll 0 0) = true ∧
       (hostReq rdmAll 0 0).dest = rdmAll ∧ (hostReq rdmAll 0 0).serves = 0) ∧
    (let d := lineDev .hold { mailbox := some (hostReq 5 0 0), req := some (hostReq 5 2 0) } (us 2800)
     AtTime d.raw (on d) d ∧ rdmNext d 0 = some (hostReq 5 0 0) ∧ d.sys.mode ≠ .active ∧ (lineAt d 0).req = some (hostReq 5 2 0) ∧
       (hostReq 5 2 0).serves < 3 ∧ (okResp 3).checksumOk = true ∧ (okResp 3).respType < 4 ∧ { okResp 3 with checksumOk := false }.checksumOk = false ∧
       (hostReq 5 2 0).sent < 3 ∧ (hostReq 5 2 0).ends + us 2800 ≤ d.raw) ∧
    (let d := lineDev .active { req := some (hostReq 5 3 0) } (us 2800 - 1)
     AtTime d.raw (on d) d ∧ 3 ≤ (hostReq 5 3 0).sent ∧ (hostReq 5 3 0).serves = 0 ∧ d.raw < (hostReq 5 3 0).ends + us 2800) ∧
    (let d := lineDev .active { req := some (discReqOf 1 1) } 0
     AtTime d.raw (on d) d ∧ (lineAt d 0).req = some (discReqOf 1 1) ∧ (discReqOf 1 1).serves = 1 ∧ (okResp 1).respType ≠ 0) ∧
    (∀ m ∈ [none, some 9], let d := lineDev .active { req := some (discReqOf 2 1), disc := some (openDisc m) } 0
     AtTime d.raw (on d) d ∧ (lineAt d 0).req = some (discReqOf 2 1) ∧ (discReqOf 2 1).serves = 2 ∧ (lineAt d 0).disc = some (openDisc m) ∧
       (openDisc m).mute = m ∧ (openDisc m).branches ≠ [] ∧ { okResp 0 with collision := true }.collision = true ∧ (discReqOf 2 1).pid = 1 ∧
       0 < 0xFFFFFFFFFFFE ∧ ¬((discReqOf 2 1).serves = 2 ∧ (discReqOf 2 1).pid = 1 ∧ (okResp 0).collision = true)) ∧
    (let d := lineDev .active { req := some (discReqOf 3 1) } 0
     AtTime d.raw (on d) d ∧ (lineAt d 0).req = some (discReqOf 3 1) ∧ (discReqOf 3 1).serves = 3) ∧
    (let d := setFld (F.DMX_LINE_DISC_INTERVAL_S 0) 60 (lineDev .active { discDone := true } (sec 60))
     AtTime d.raw (on d) d ∧ d.sys.mode = .active ∧ fld d (F.DMX_LINE_DISC_INTERVAL_S 0) = 60 ∧ (lineAt d 0).discDone = true ∧
       (lineAt d 0).discFrom + sec 60 ≤ d.raw ∧ (lineAt d 0).disc = none ∧ canWrite d (R.DMX_LINE_DISC 0) = true ∧
       canWrite d (R.DMX_LINE_MB_CTRL 0) = true) ∧
    (let w := storeReg (R.DMX_LINE_MB_CTRL 0) 1 (setFld (F.DMX_LINE_MB_REQ_CC 0) 0x30 (setFld (F.DMX_LINE_MB_REQ_PDL 0) 231 (lineDev .active {} 0)))
     bitOf w (F.DMX_LINE_MB_CTRL_BUSY 0) = false ∧ fld w (F.DMX_LINE_MB_REQ_CC 0) = 0x30 ∧ fld w (F.DMX_LINE_MB_REQ_PDL 0) ≤ 231 ∧
       lineSends w 0 = true ∧ (1 : Word).getLsbD 0 = true) ∧
    (let w := storeReg (R.DMX_LINE_MB_CTRL 0) 1 (setFld (F.DMX_LINE_MB_REQ_CC 0) 0x20 (setFld (F.DMX_LINE_MB_REQ_PDL 0) 232 (lineDev .standby {} 0)))
     bitOf w (F.DMX_LINE_MB_CTRL_BUSY 0) = false ∧ 231 < fld w (F.DMX_LINE_MB_REQ_PDL 0) ∧ lineSends w 0 = false) ∧
    (let d : Dev := {}
     AtTime d.raw (on d) d ∧ lineUniv d 1 = none ∧ canWrite d (R.DMX_LINE_DISC 1) = false ∧ canWrite d (R.DMX_LINE_MB_CTRL 1) = false ∧
       d.sys.mode ≠ .active) :=
  ⟨⟨here _, by decide⟩, ⟨here _, by decide⟩, ⟨here _, by decide⟩, ⟨here _, by decide⟩, ⟨here _, by decide⟩, ⟨here _, by decide⟩,
    fun m h => ⟨here _, by revert m; decide⟩, ⟨here _, by decide⟩, ⟨here _, by decide⟩, by decide, by decide, here _, by decide⟩

def pxMap : PxMap := {
  c := 3, order := 0, dither := false, chroma := false, calib := false, mirror := false, canvas := 0, curve := 0, binTable := 0, ws := 0,
  timing := { mode := 1, r := 4, resetUs := 300 }, pixels := [] }

def pxDev (m : Mode) (o : HObj) (x : PxMap) (c : Canvas) (raw : Nat) : Dev := { argDev m [] with
  raw := raw, hdl := { objs := [(okey 7 1, o)] }, vid := { canvases := [(0, c)] }, pxp := { ports := [(1, { map := some x }), (2, { zeroDue := true })] } }

theorem witness_PixelPortsScan :
    (let m := { pxMap with filled := some (1, [5], 0), fill := some (2, ms 20), slotN := some 0 }
     let d := pxDev .active (objIn 2) m (canvas50 none false) (ms 20)
     AtTime d.raw (on d) d ∧ mapAt d 0 = none ∧ (pxAt d 0).zeroDue = false ∧ mapAt d 2 = none ∧ (pxAt d 2).zeroDue = true ∧ mapAt d 1 = some m ∧
       objAt d (okey 7 1) = some (objIn 2) ∧ canvasAt d m.canvas = some (canvas50 none false) ∧
       frameNow d (canvas50 none false) = (1, ((ms 20 : Nat) : Int)) ∧ pxRuns d = true ∧ (pxAt d 1).disabled = false ∧ (objIn 2).state ≠ 1 ∧ m.slotN ≠ some 1 ∧
       ((objIn 2).startAt : Int) ≤ ms 20 ∧ (canvas50 none false).blanks 1 = false ∧ d.sys.mode ≠ .hold ∧ (objIn 2).state = 2 ∧
       (0 : Int) ≤ d.raw - (max 0 (canvasTime d (canvas50 none false) - ms 20)).toNat - ns (preNs m.timing m.c m.pixels) ∧
       m.fill = some (2, ms 20) ∧ ms 20 ≤ d.raw ∧ Served d hdr 0x400 0 ∧ 1 ≤ 7 ∧ 7 < 8 ∧ 8 ≤ 8) ∧
    (let m := { pxMap with slotN := some 0, scan := some (0, [5]), fill := some (2, ms 20 + 1) }
     let d := pxDev .hold (objIn 4) m { canvas50 none false with blank := true } (ms 20)
     AtTime d.raw (on d) d ∧ mapAt d 1 = some m ∧ (objIn 4).state = 4 ∧ pxRuns d = true ∧ m.scan.isSome = true ∧ m.filled = none ∧ d.raw < ms 20 + 1 ∧
       ({ canvas50 none false with blank := true } : Canvas).blanks 1 = true) ∧
    (let m := { pxMap with slotN := some 1, scan := some (0, [5]), refresh := 2 }
     let d := pxDev .active (objIn 2) m (canvas50 none false) (ms 35 - ns 100)
     let due := shownAt d (canvas50 none false) 1 + ((canvas50 none false).shownTiming 1).frames (m.refresh + 1) / (m.timing.r : Int)
     AtTime d.raw (on d) d ∧ mapAt d 1 = some m ∧ m.slotN = some 1 ∧ frameNow d (canvas50 none false) = (1, ((ms 20 : Nat) : Int)) ∧ pxRuns d = true ∧ m.scan ≠ none ∧
       m.refresh + 1 < m.timing.r ∧ due ≤ canvasTime d (canvas50 none false) + (ns 100 : Nat) ∧ m.fill = none ∧ m.locate = []) ∧
    (let m := { pxMap with slotN := some 1, refresh := 3 }
     let d := pxDev .standby (objIn 1) m (canvas50 none false) (ms 35 - ns 100)
     AtTime d.raw (on d) d ∧ mapAt d 1 = some m ∧ pxRuns d = false ∧ m.scan = none ∧ m.timing.r ≤ m.refresh + 1 ∧ (objIn 1).state = 1 ∧
       d.sys.mode = .standby ∧ (pxAt d 1).disabled = false ∧ [3] ≠ [] ∧ canWrite d (R.PXP_DIAG_MIN_ON 1) = true ∧ (99 : Word).toNat % 65536 < 100 ∧
       100 ≤ (100 : Word).toNat % 65536 ∧ mapFit d m ((100 : Word).toNat % 65536) = 0 ∧ d.sys.mode ≠ .active ∧ d.sys.mode ≠ .service) ∧
    (let m := { pxMap with timing := { mode := 1, r := 4, g := 16, tLsb := 255, resetUs := 300 }, pixels := [⟨0, 0, 0, 0, 0, 0, [], [], [], []⟩] }
     let d := pxDev .service (objIn 1) m (canvas50 none false) 0
     AtTime d.raw (on d) d ∧ mapAt d 1 = some m ∧ Served d hdr 0x400 0 ∧ d.sys.mode = .service ∧ canWrite d (R.PXP_DIAG_MIN_ON 1) = true ∧
       mapFit d m ((65535 : Word).toNat % 65536) ≠ 0) :=
  ⟨⟨here _, by decide⟩, ⟨here _, by decide⟩, ⟨here _, by decide⟩, ⟨here _, by decide⟩, here _, by decide⟩

/-! Chapters 10 and 11: time -/

/-- A domain whose reference, at 50 Hz, is in a lock state. -/
def refDom (tick : Nat) : Dom := { rec_ := { tickRef := 1, refNum := 50, refDen := 1, lockEdges := 1 }, tick := tick }

def domDev (m : Mode) (x : Dom) (raw : Nat) : Dev := { inMode m with raw := raw, tim := { domA := x } }

def masterSet : Dataset := ⟨1, 6, 0x20, 0, 128, 77, 0, 77, 1⟩

def errOf (d : Dev) : Int :=
  (domTime d 0 - ((domAt d 0).rec_.cableNs : Int) * 65536 - (domAt d 0).phiNow (domTime d 0) + pRef (domAt d 0).rec_ / 2) % pRef (domAt d 0).rec_ -
    pRef (domAt d 0).rec_ / 2

theorem witness_TimeFollowsItsReferences :
    (let d := domDev .daybreak { rec_ := { source := 1 }, servo := 2 } (ms 1)
     AtTime d.raw (on d) d ∧ awake d = true ∧ bitOf d F.TIM_STATUS_SREF_LOST = false ∧ (domAt d 0).rec_.source = 1 ∧ (domAt d 0).servo = 2 ∧
       bestMaster (domAt d 0) d.raw = none ∧ (domAt d 1).rec_.source ≠ 1 ∧ (domAt d 0).rec_.tickRef = 0 ∧ (domAt d 0).tick ≤ 1 ∧ timeRuns d = false) ∧
    (let d := domDev .active { rec_ := { source := 1 }, servo := 1, ports := [(3, { state := 3, foreign := [(masterSet, ms 1, 2)] })] } (ms 1)
     AtTime d.raw (on d) d ∧ pcieUp d = true ∧ bar0Writable d R.TIM_LATCH = true ∧ (1 : Word).getLsbD 0 = true ∧ (2 : Word).getLsbD 0 = false ∧
       (bestMaster (domAt d 0) d.raw).isSome = true ∧ timeRuns d = true) ∧
    (let d := { domDev .reset { servo := 3 } 0 with regs := [(R.TIM_STATUS, 1)] }
     AtTime d.raw (on d) d ∧ awake d = false ∧ bitOf d F.TIM_STATUS_SREF_LOST = true ∧ pcieUp d = false ∧ (domAt d 0).servo = 3) ∧
    (let d := domDev .active { refDom 2 with far := 15, lastEdge := some 0 } (ms 100 + us 50)
     AtTime d.raw (on d) d ∧ (domAt d 0).rec_.tickRef ≠ 0 ∧ (domAt d 0).tick = 2 ∧ errOf d = (us 50 : Nat) ∧ ¬ 50 * 65536000 < (errOf d).natAbs ∧
       0 + max (ms 100) (4 * pRef (domAt d 0).rec_).toNat ≤ d.raw) ∧
    (let d := domDev .active { refDom 2 with far := 15, lastEdge := some (us 51) } (ms 100 + us 50 + 1)
     AtTime d.raw (on d) d ∧ (domAt d 0).tick = 2 ∧ 50 * 65536000 < (errOf d).natAbs ∧ d.raw < us 51 + max (ms 100) (4 * pRef (domAt d 0).rec_).toNat) ∧
    (let d := domDev .active (refDom 3) (ms 20 + us 1)
     AtTime d.raw (on d) d ∧ (domAt d 0).tick = 3 ∧ 1 ≤ (domAt d 0).rec_.lockEdges ∧ (errOf d).natAbs ≤ 65536000) ∧
    (let d := domDev .active (refDom 1) (ms 20 - us 1)
     let run := (errOf d :: (domAt d 0).eps).take (domAt d 0).rec_.lockEdges
     AtTime d.raw (on d) d ∧ (domAt d 0).tick = 1 ∧ run = [-65536000] ∧ agree run = true ∧ run.length = (domAt d 0).rec_.lockEdges) :=
  ⟨⟨here _, by decide⟩, ⟨here _, by decide⟩, ⟨here _, by decide⟩, ⟨here _, by decide⟩, ⟨here _, by decide⟩, ⟨here _, by decide⟩, here _, by decide⟩

def ptpDev (q : PtpPort) (x : Dom) (raw : Nat) : Dev := { inMode .active with
  raw := raw
  tim := { domA := { x with ports := [(3, q)] } }
  outp := { ports := [(3, { link := 2 })] } }

def ptpDom : Dom := { rec_ := { source := 1, ptpDomain := 5 } }

def ptpMsg (type : Nat) (twoStep : Bool) (ingress : Nat) : PtpMsg :=
  ⟨3, type, 5, 9, twoStep, 0, 77, 1, 0, ingress, none, 1, 6, 0x20, 0, 128, 77, 0, 37, fuseUid {}, 4⟩

/-- A slave port that has heard its master twice. -/
def slaveOf : PtpPort := { state := 3, foreign := [(masterSet, 0, 2)] }

theorem witness_PtpRunsOnItsPorts :
    (let q := slaveOf
     let d := ptpDev q ptpDom (us 10)
     let x := domAt d 0
     let m := ptpMsg 0 true 0
     AtTime d.raw (on d) d ∧ timeRuns d = true ∧ (portAt d m.port).link = 2 ∧ tget (domAt d 0).ports m.port = some q ∧
       (domAt d 0).rec_.source = 1 ∧ m.domain = (domAt d 0).rec_.ptpDomain ∧ tget (domAt d (1 - 0)).ports m.port = none ∧
       m.msgType = 0 ∧ q.state = 3 ∧ fromMaster d x q m = true ∧ m.twoStep = true ∧ (ptpMsg 0 false 0).twoStep = false ∧ x.servo = 0 ∧
       (ptpMsg 1 false 0).msgType = 1 ∧ q.state ≠ 1 ∧ (ptpMsg 0xB false 0).msgType = 0xB ∧ x.rec_.masterOnly = false ∧
       { ptpMsg 0 false 0 with domain := 6 }.domain ≠ (domAt d 0).rec_.ptpDomain ∧ (domAt d 1).ports = [] ∧
       (portAt d 2).link ≠ 2 ∧ elapsed d q.reqAt (logTime (domAt d 0).rec_.logDelay) = true) ∧
    (let q := { slaveOf with req := some (9, 0), have12 := true, reqAt := some 1 }
     let d := ptpDev q { ptpDom with servo := 1, good := 15 } (sec 1)
     let x := domAt d 0
     let m := ptpMsg 0 false (ns 100)
     let off := ingress d m.port 0 m.ingress - (m.timestamp : Int) * 65536 - m.correction - (x.meanPath + asymOf d m.port)
     AtTime d.raw (on d) d ∧ fromMaster d x q m = true ∧ m.twoStep = false ∧ off.natAbs ≤ us x.rec_.stepUs ∧ x.servo = 1 ∧ x.good = 15 ∧
       off.natAbs = ns 100 ∧ (ptpMsg 9 false 0).msgType = 9 ∧ q.req = some ((ptpMsg 9 false 0).seq, 0) ∧ (ptpMsg 9 false 0).reqClock = ownUid d ∧
       (ptpMsg 9 false 0).reqPort = m.port + 1 ∧ q.have12 = true ∧ elapsed d q.reqAt (logTime (domAt d 0).rec_.logDelay) = false) ∧
    (let d := ptpDev slaveOf { ptpDom with servo := 2, bad := 3 } (us 10)
     let x := domAt d 0
     let m := ptpMsg 0 false (us 1 + 1)
     let off := ingress d m.port 0 m.ingress - (m.timestamp : Int) * 65536 - m.correction - (x.meanPath + asymOf d m.port)
     AtTime d.raw (on d) d ∧ fromMaster d x slaveOf m = true ∧ m.twoStep = false ∧ off.natAbs ≤ us x.rec_.stepUs ∧ x.servo = 2 ∧ x.bad = 3 ∧
       off.natAbs = us 1 + 1) ∧
    (let q : PtpPort := { state := 1, syncAt := some 0, annAt := some 1 }
     let d := ptpDev q { rec_ := { source := 1, ptpDomain := 5, role := 1 } } (sec 1)
     AtTime d.raw (on d) d ∧ tget (domAt d 0).ports 3 = some q ∧ q.state = 1 ∧ (ptpMsg 1 false 0).msgType = 1 ∧ (ptpMsg 1 false 0).port < 16 ∧
       q.state ≠ 3 ∧ (domAt d 0).rec_.masterOnly = true ∧ elapsed d q.syncAt (logTime (domAt d 0).rec_.logSync) = true ∧ elapsed d q.annAt (logTime (domAt d 0).rec_.logAnnounce) = false ∧
       elapsed d (some 1) (logTime (domAt d 0).rec_.logSync) = false ∧ elapsed d (some 0) (logTime (domAt d 0).rec_.logAnnounce) = true ∧
       tget (domAt d 0).ports 2 = none) ∧
    (let d := { ptpDev { state := 1 } ptpDom 0 with sys := { mode := .load } }
     AtTime d.raw (on d) d ∧ timeRuns d = false) :=
  ⟨⟨here _, by decide⟩, ⟨here _, by decide⟩, ⟨here _, by decide⟩, ⟨here _, by decide⟩, here _, by decide⟩

/-! Chapter 11: triggers and time actions -/

def hAction : Word := mkHandle 0xB 1 3

/-- Action 3 with its handle, and canvas 0 with its own, in a mode. -/
def actDev (m : Mode) (a : Action) (raw : Nat) : Dev := { inMode m with
  raw := raw
  hdl := { objs := [(okey 5 0, objIn 2), (okey 0xB 3, objIn 2)] }
  vid := { canvases := [(0, canvas50 none false)] }
  tim := { actions := [(3, a)] } }

def onceAt (next : Int) : Sched := { mode := 0, start := next, period := 0, left := some 1, next := next, frame := 0 }

/-- The arguments of a schedule: mode, seconds and nanoseconds of its start. -/
def armBytes (mode s n : Nat) : List Byte := leBytes 8 mode ++ leBytes 8 s ++ leBytes 4 n ++ List.replicate 28 0

theorem witness_Timecode :
    (let d := { inMode .load with regs := [((F.EVT_LTC_CFG_EN 0).off, 1)] }
     AtTime 0 (on d) d ∧ ltcOn d 0 = false) ∧
    (let d := { inMode .active with raw := ms 100, regs := [((F.EVT_LTC_CFG_EN 0).off, 1), ((F.EVT_LTC_STATUS_LOCKED 0).off, 1)] }
     AtTime d.raw (on d) d ∧ ltcOn d 0 = true ∧ (0xBFFC * 2 ^ 64 : Nat) / 2 ^ 64 % 2 ^ 16 = 0xBFFC ∧ (0x3FFD * 2 ^ 64 : Nat) / 2 ^ 64 % 2 ^ 16 ≠ 0xBFFC ∧
       bitOf d (F.EVT_LTC_STATUS_LOCKED 0) = true ∧ d.tim.ltc0.last + ms 100 ≤ d.raw) ∧
    (let d := { inMode .hold with
       raw := ms 100
       regs := [((F.EVT_LTC_CFG_EN 1).off, 1), ((F.EVT_LTC_STATUS_LOCKED 1).off, 1)]
       tim := { ltc1 := ⟨1, 1⟩, ltcOnCap3 := true } }
     AtTime d.raw (on d) d ∧ ltcOn d 1 = true ∧ bitOf d (F.EVT_LTC_STATUS_LOCKED 1) = true ∧ d.raw < d.tim.ltc1.last + ms 100 ∧
       bitOf d (F.EVT_LTC_STATUS_LOCKED 0) = false) :=
  ⟨⟨here _, by decide⟩, ⟨here _, by decide⟩, here _, by decide⟩

theorem witness_TriggersAndActions :
    (let a : Action := { target := 0, pin := 2, width := 10, sched := some (onceAt (us 5)), pulse := some 0 }
     let d := actDev .active a (us 5 - ns 5)
     AtTime d.raw (on d) d ∧ tget d.tim.actions 3 = some a ∧ tget d.tim.actions 4 = none ∧ a.device = none ∧ actionsRun d = true ∧
       (onceAt (us 5)).next ≤ clockNow d a + 5 * 65536 ∧ a.target = 0 ∧ 0 ≤ d.raw ∧ pinsLive d = true) ∧
    (let a : Action := { target := 1, sched := some (onceAt (us 5)), pulse := some (us 5 - ns 5) }
     let d := actDev .standby a (us 5 - ns 5 - 1)
     AtTime d.raw (on d) d ∧ tget d.tim.actions 3 = some a ∧ clockNow d a + 5 * 65536 < (onceAt (us 5)).next ∧ d.raw < us 5 - ns 5 ∧
       a.target = 1 ∧ d.tim.adc = none ∧ pinsLive d = false) ∧
    (let a : Action := { target := 1, sched := some (onceAt 0) }
     let d := { actDev .configure a 0 with tim := { actions := [(3, a)], adc := some (1, 4, 0, 5) } }
     AtTime d.raw (on d) d ∧ (onceAt 0).next ≤ clockNow d a + 5 * 65536 ∧ d.tim.adc = some (1, 4, 0, 5) ∧ a.pulse = none ∧ d.tim.orphans = []) ∧
    (let a : Action := { target := 2, sched := some (onceAt 0) }
     let d := actDev .hold a 0
     AtTime d.raw (on d) d ∧ a.target = 2 ∧ actionsRun d = true ∧ actionsRun (actDev .service a 0) = false) ∧
    (let d := { inMode .active with
       regs := [((F.EVT_CAP_CFG_EN 1).off, 3), ((F.EVT_CAP_CFG_EN 2).off, 5)]
       tim := { caps := [(1, List.replicate 15 ⟨1, 2, false⟩), (2, List.replicate 16 ⟨1, 2, true⟩)] } }
     AtTime d.raw (on d) d ∧ timeRuns d = true ∧ bitOf d (F.EVT_CAP_CFG_EN 1) = true ∧ bitOf d (F.EVT_CAP_CFG_EN 2) = true ∧
       fld d (F.EVT_CAP_CFG_EDGE 1) = 1 ∧ fld d (F.EVT_CAP_CFG_EDGE 2) = 2 ∧ (capsOf d 1).length = 15 ∧ (capsOf d 2).length = 16 ∧
       bitOf d (F.EVT_CAP_CFG_EN 3) = false ∧ capsOf d 3 = [] ∧ pcieUp d = true ∧ bar0Up d (R.EVT_CAP_NS 1) = true ∧ pcieUp (inMode .reset) = false) :=
  ⟨⟨here _, by decide⟩, ⟨here _, by decide⟩, ⟨here _, by decide⟩, ⟨here _, by decide⟩, here _, by decide⟩

theorem witness_ActionArm :
    let a : Action := { target := 0, width := 10, sched := some (onceAt 0) }
    let d := actDev .active a (sec 1)
    AtTime d.raw (on d) d ∧ Served d hdr 0x200 hAction ∧ Served d hdr 0x201 hAction ∧ hKind hAction = 0xB ∧ (objOf d hAction).isSome = true ∧
      tget d.tim.actions (hIndex hAction) = some a ∧ hKind hCanvas ≠ 0xB ∧ Served d hdr 0x200 hCanvas ∧ Served d hdr 0x201 hCanvas ∧
      (∃ e, armSched d a (armBytes 3 0 0) = .error e) ∧
      (∃ x, armSched d a (armBytes 0 1 0) = .ok x ∧ decide (clockNow d a ≤ x.next) = true) ∧
      (∃ x, armSched d a (armBytes 0 0 999999999) = .ok x ∧ (decide (x.next < clockNow d a) && x.mode == 0) = true) ∧ a.policy = 0 :=
  ⟨here _, by decide, by decide, by decide, by decide, by decide, by decide, by decide, by decide, error_of (by decide), ok_with (by decide),
    ok_with (by decide), by decide⟩

theorem witness_DomainSwitch :
    let d := actDev .active {} (sec 1)
    let c := canvas50 none false
    AtTime d.raw (on d) d ∧ Served d hdr 0x202 0 ∧ Served d hdr 0x202 hCanvas ∧ hKind hAction ≠ 5 ∧ Served d hdr 0x202 hAction ∧
      hKind hCanvas = 5 ∧ (objOf d hCanvas).isSome = true ∧ hCanvas ≠ 0 ∧ canvasAt d (hIndex hCanvas) = some c ∧
      1 < at_ (armBytes 2 0 0) 0 1 ∧ 10 < at_ (armBytes 0xB0000 0 0) 2 1 ∧
      (at_ (armBytes 0xA0001 0 0) 0 1 = 1 ∧ at_ (armBytes 0xA0001 0 0) 1 1 = 0 ∧ at_ (armBytes 0xA0001 0 0) 2 1 = 10 ∧ at_ (armBytes 0xA0001 0 0) 3 5 = 0) ∧
      c.domain = at_ (armBytes 0 0 0) 0 1 ∧ c.domain ≠ at_ (armBytes 0xA0001 0 0) 0 1 ∧
      (switchAgrees d 1 [hIndex hCanvas] && commensurate (domAt d 1).rec_ c.timing.rateNum c.timing.rateDen) = true ∧
      (let d' := { d with tim := { domB := { rec_ := { tickRef := 1, refNum := 30, refDen := 1 } } } }
       (switchAgrees d' 1 [hIndex hCanvas] && commensurate (domAt d' 1).rec_ c.timing.rateNum c.timing.rateDen) = false) :=
  ⟨here _, by decide⟩

/-! Chapter 12: zones -/

def zoneOf (st : Nat) : Zone :=
  { occ := 60000, vac := 100, holdS := 2, upMs := 1, downMs := 10, target := 0, gain := 0, cycleMs := 100, ovrInput := none, ovrSlot := 0,
    ovrPrio := 0, st := st, h := 2000, p := { a := 60000, b := 100, dur := ms 10 } }

def sensorOf (rate : Nat) : Sensor :=
  { zone := 5, rdm := false, daylight := false, channel := 1, line := 0, ident := 9, rate := rate, scale := 1, credit := 0, creditAt := 0 }

/-- Zone 5 with its task and a sensor, telemetry heard at port 3. -/
def zoneDev (m : Mode) (x : Zone) (y : Sensor) (o : HObj) (raw : Nat) : Dev := { inMode m with
  raw := raw
  regs := [(F.SITE_TEL_PORTS_PORTS.off, 8)]
  hdl := { objs := [(okey 8 5, o), (okey 9 2, objIn 2)] }
  site := { zones := [(5, x)], sensors := [(2, y)], seqs := [(9, 40)] }
  sch := { tasks := [(36864 + 5, taskOf 2 false)], groups := [(9, { members := [36864 + 5] })] }
  outp := { ports := [(3, { rec_ := { ipv4 := 0x0A000001 } })] }
  pln := { holdFrom := raw } }

/-- A datagram of one report: version, sequence number, type. -/
def telemetry (version seq type : Nat) : List Byte :=
  leBytes 1 version ++ leBytes 1 1 ++ leBytes 2 seq ++ leBytes 8 9 ++ leBytes 1 type ++ leBytes 1 1 ++ leBytes 2 0 ++ leBytes 4 1

def againIn (d : Dev) (b : List Byte) : Bool := match tget d.site.seqs (at_ b 4 8) with
  | some last => decide (-32 ≤ sgn 16 (at_ b 2 2 + 65536 - last)) && decide (sgn 16 (at_ b 2 2 + 65536 - last) ≤ 0)
  | none => false

theorem witness_ZonesFollowTheirSensors :
    (let y := sensorOf 10
     let d := zoneDev .active (zoneOf 0) y (objIn 2) (ms 100)
     let b := telemetry 1 41 1
     let found := d.site.sensors.find? fun x => !x.2.rdm && x.2.ident == at_ b 4 8 && x.2.channel == at_ b 13 1 && isLive d (okey 9 x.1) && isLive d (okey 8 x.2.zone)
     AtTime d.raw (on d) d ∧ (3 < 16 ∧ bit (fld d F.SITE_TEL_PORTS_PORTS) 3 = true ∧ 0x0A000001 = (portAt d 3).rec_.ipv4) ∧
       bit (fld d F.SITE_TEL_PORTS_PORTS) 2 = false ∧ d.sys.mode ≠ .hold ∧ siteRuns d = true ∧
       ([] : List Byte).length ≠ 12 + 8 * at_ [] 1 1 ∧ b.length = 12 + 8 * at_ b 1 1 ∧ at_ b 1 1 = 1 ∧ at_ b 0 1 = 1 ∧
       (telemetry 2 41 1).length = 12 + 8 * at_ (telemetry 2 41 1) 1 1 ∧ at_ (telemetry 2 41 1) 0 1 ≠ 1 ∧ againIn d b = false ∧
       againIn d (telemetry 1 40 1) = true ∧ againIn d (telemetry 1 8 1) = true ∧ againIn d (telemetry 1 7 1) = false ∧
       found = some (2, y) ∧ at_ b 12 1 = (if y.daylight then 2 else 1) ∧ at_ (telemetry 1 41 2) 12 1 ≠ (if y.daylight then 2 else 1) ∧
       sec 1 ≤ y.tokens d.raw ∧ tget d.sch.tasks (36864 + y.zone) = some (taskOf 2 false) ∧
       (pushRoom d (taskOf 2 false) && waitsAt d (36864 + y.zone) == []) = true) ∧
    (let d := zoneDev .hold (zoneOf 0) (sensorOf 10) (objIn 2) 0
     AtTime d.raw (on d) d ∧ d.sys.mode = .hold ∧ siteRuns d = false ∧ zoneAt d 4 = none) ∧
    (let d := zoneDev .standby (zoneOf 0) (sensorOf 10) (objIn 2) 0
     AtTime d.raw (on d) d ∧ d.sys.mode ≠ .hold ∧ siteRuns d = false) ∧
    (let y := sensorOf 10
     let d := zoneDev .active (zoneOf 0) y (objIn 4) (ms 100 - 1)
     AtTime d.raw (on d) d ∧ siteRuns d = true ∧ y.tokens d.raw < sec 1 ∧ isLive d (okey 8 y.zone) = true) ∧
    (let d := zoneDev .active (zoneOf 0) (sensorOf 10) (objIn 3) 0
     AtTime d.raw (on d) d ∧ isLive d (okey 8 5) = false) :=
  ⟨⟨here _, by decide⟩, ⟨here _, by decide⟩, ⟨here _, by decide⟩, ⟨here _, by decide⟩, here _, by decide⟩

theorem witness_ZoneTimers :
    (let x := { zoneOf 1 with holdEnd := some (ms 100), nextCycle := 1 }
     let d := zoneDev .active x (sensorOf 10) (objIn 2) (ms 100)
     AtTime d.raw (on d) d ∧ zoneAt d 5 = some x ∧ siteRuns d = true ∧ objAt d (okey 8 5) = some (objIn 2) ∧
       x.nextCycle * (ms x.cycleMs : Nat) = domTime d 0 ∧ (objIn 2).state = 2 ∧ ((objIn 2).startAt : Int) ≤ x.nextCycle * (ms x.cycleMs : Nat) ∧
       (x.st = 1 ∧ x.holdEnd = some (ms 100) ∧ ms 100 ≤ d.raw) ∧ ¬ (x.st = 2 ∧ x.p.at_ + x.p.dur ≤ d.raw) ∧
       tget d.sch.tasks (36864 + 5) = some (taskOf 2 false) ∧ ms 100 ≤ siteNow d) ∧
    (let x := { zoneOf 2 with nextCycle := 1 }
     let d := zoneDev .active x (sensorOf 10) (objIn 4) (ms 100)
     AtTime d.raw (on d) d ∧ zoneAt d 5 = some x ∧ objAt d (okey 8 5) = some (objIn 4) ∧ x.nextCycle * (ms x.cycleMs : Nat) ≤ domTime d 0 ∧
       (objIn 4).state ≠ 2 ∧ x.st = 2 ∧ x.p.at_ + x.p.dur ≤ d.raw) ∧
    (let x := { zoneOf 0 with nextCycle := 30, vacantFrom := some 0 }
     let d := zoneDev .active x (sensorOf 10) (objIn 2) (sec 2)
     AtTime d.raw (on d) d ∧ zoneAt d 5 = some x ∧ domTime d 0 < x.nextCycle * (ms x.cycleMs : Nat) ∧
       (x.st = 0 ∧ x.vacantFrom = some 0 ∧ 0 + sec x.holdS ≤ d.raw) ∧ x.st ≠ 1) ∧
    (let x := { zoneOf 1 with holdEnd := some (ms 100) }
     let d := zoneDev .active x (sensorOf 10) (objIn 2) (ms 100 - 1)
     AtTime d.raw (on d) d ∧ zoneAt d 5 = some x ∧ x.st = 1 ∧ siteNow d < ms 100 ∧ ¬ ms 100 ≤ d.raw) :=
  ⟨⟨here _, by decide⟩, ⟨here _, by decide⟩, ⟨here _, by decide⟩, here _, by decide⟩

/-! Chapter 13: the valley -/

def helloOf (uid valley mode : Nat) : HelloMsg := ⟨uid, valley, 0, 0, 5, mode⟩

def memberOf (uid : Nat) (heard : Time) (links : List (Nat × Nat)) : Member := ⟨⟨uid, uid, false, 1, 0, 6, links, []⟩, heard, 0⟩

/-- A device of address 1 with one link in a state, and members. -/
def valleyDev (m : Mode) (x : VLink) (members : Tbl Member) (raw : Nat) : Dev := { inMode m with
  raw := raw
  val := { links := [(2, x)], members := members, addr := 1, recorded := true, valleyId := 7 } }

theorem witness_ValleyLinksAndMembers :
    (let d := valleyDev .active { state := 1 } [] 0
     AtTime d.raw (on d) d ∧ d.sys.mode ≠ .reset ∧ linkOn d 2 = true ∧ (linkAt d 2).state = 1 ∧ linkOn d 4 = false ∧
       ((linkAt d 2).state ≠ 3 ∧ (linkAt d 2).state ≠ 4) ∧ (linkAt d 2).state < 3 ∧ isMember d = false ∧ passesNow d = d.val.passes ∧
       tget d.val.members 8 = none) ∧
    (let d := valleyDev .daybreak { state := 2, since := us 1 } [] (ms 1 + us 1)
     AtTime d.raw (on d) d ∧ linkOn d 2 = true ∧ (linkAt d 2).state = 2 ∧ (linkAt d 2).since + ms 1 ≤ d.raw ∧ loadingSelf d = true) ∧
    (let d := valleyDev .active { state := 2, since := us 1 } [] (ms 1 + us 1 - 1)
     AtTime d.raw (on d) d ∧ ¬ (linkAt d 2).since + ms 1 ≤ d.raw) ∧
    (let d := valleyDev .active { state := 3, sentAt := some 0 } [] (us 10)
     AtTime d.raw (on d) d ∧ linkOn d 2 = true ∧ (linkAt d 2).state = 3 ∧ elapsed d (linkAt d 2).sentAt (us 10) = true ∧ loadingSelf d = false ∧
       (helloOf 8 7 2).mode ≤ 2 ∧ ¬ (helloOf 8 7 3).mode ≤ 2 ∧ (helloOf 8 6 3).valleyId ≠ d.val.valleyId ∧ (helloOf 8 7 3).valleyId = d.val.valleyId) ∧
    (let d := { valleyDev .active { state := 4, sentAt := some 0, hello := some (helloOf 8 7 6) } [(8, memberOf 8 0 [(0, fuseUid {})])] (us 10 - 1) with
       val.updated := 0 }
     AtTime d.raw (on d) d ∧ linkOn d 2 = true ∧ (linkAt d 2).state = 4 ∧ elapsed d (linkAt d 2).sentAt (us 10) = false ∧ 3 ≤ (linkAt d 2).state ∧
       d.raw < d.val.updated + ms 100 ∧ tget d.val.members 8 = some (memberOf 8 0 [(0, fuseUid {})]) ∧
       memberGone d (memberOf 8 0 [(0, fuseUid {})]) = false ∧ passesNow d ≠ d.val.passes) ∧
    (let d := valleyDev .active { state := 4, hello := some (helloOf 8 7 6) } [(8, memberOf 8 (ms 100) [(0, fuseUid {})]), (9, memberOf 9 (ms 400) [])] (ms 400)
     AtTime d.raw (on d) d ∧ d.val.updated + ms 100 ≤ d.raw ∧ isMember d = true ∧ memberGone d (memberOf 8 (ms 100) [(0, fuseUid {})]) = true ∧
       tget d.val.members 9 = some (memberOf 9 (ms 400) []) ∧ memberGone d (memberOf 9 (ms 400) []) = true) ∧
    (let d := valleyDev .active { state := 5, hello := some (helloOf 8 6 6) } [] 0
     AtTime d.raw (on d) d ∧ (linkAt d 2).state = 5 ∧ (linkAt d 2).hello = some (helloOf 8 6 6) ∧ (linkAt d 2).hello ≠ some (helloOf 8 7 6)) ∧
    (let d := valleyDev .reset { state := 6 } [] 0
     AtTime d.raw (on d) d ∧ ¬ d.sys.mode ≠ .reset ∧ (linkAt d 2).state = 6 ∧ (linkAt d 2).hello ≠ some (helloOf 8 6 6)) :=
  ⟨⟨here _, by decide⟩, ⟨here _, by decide⟩, ⟨here _, by decide⟩, ⟨here _, by decide⟩, ⟨here _, by decide⟩, ⟨here _, by decide⟩, ⟨here _, by decide⟩,
    here _, by decide⟩

/-- A header: type, class, destination, hops left, length. -/
def vHeader (type cls dst hops len : Nat) : List Byte :=
  let g := leBytes 1 type ++ leBytes 1 cls ++ leBytes 1 dst ++ leBytes 1 9 ++ leBytes 1 hops ++ leBytes 1 0 ++ leBytes 2 len ++ List.replicate 20 0
  g ++ leBytes 4 (crc32c g)

def infoOf : MemberInfo := ⟨8, 8, false, 1, 0, 6, [], []⟩

def vPkt (type dst hops : Nat) : VPkt := ⟨vHeader type 1 dst hops 0, 0, true, .member infoOf⟩

/-- Why a packet is dropped, by the order of R313. -/
def dropOf (d : Dev) (p : VPkt) : Option Nat :=
  let dst := at_ p.header 2 1
  let other := dst ≠ d.val.addr ∧ dst ≠ 0 ∧ dst ≠ 255
  if crc32c (p.header.take 28) ≠ at_ p.header 28 4 then some R.VAL_HCRC_DROPS
  else if at_ p.header 6 2 ≠ p.len then some R.VAL_LEN_DROPS
  else if p.crcOk = false then some R.VAL_PCRC_DROPS
  else if at_ p.header 0 1 = 0 ∨ 8 < at_ p.header 0 1 ∨ 4 < at_ p.header 1 1 then some R.VAL_BAD_DROPS
  else if other ∧ at_ p.header 4 1 = 0 then some R.VAL_HOP_DROPS
  else if other ∧ passLink d dst false = none then some R.VAL_UNREACH_DROPS else none

def passDev (state : Nat) : Dev :=
  let d := valleyDev .active { state := state } [(8, ⟨infoOf, 0, 0⟩)] (us 1)
  { d with val.passes := [(5, some 2, none, 1)] }

set_option maxRecDepth 8000 in
theorem witness_ValleyPackets :
    (let d := passDev 4
     AtTime d.raw (on d) d ∧ waiting d = 0 ∧ (linkAt d 2).state = 4 ∧ dropOf d (vPkt 1 5 1) = none ∧ dropOf d (vPkt 1 5 0) = some R.VAL_HOP_DROPS ∧
       dropOf d (vPkt 1 6 1) = some R.VAL_UNREACH_DROPS ∧ dropOf d (vPkt 0 1 1) = some R.VAL_BAD_DROPS ∧ dropOf d (vPkt 9 1 1) = some R.VAL_BAD_DROPS ∧
       dropOf d { vPkt 8 1 0 with len := 1 } = some R.VAL_LEN_DROPS ∧ dropOf d { vPkt 8 1 0 with crcOk := false } = some R.VAL_PCRC_DROPS ∧
       dropOf d { vPkt 8 1 0 with header := 0xFF :: (vPkt 8 1 0).header.tail } = some R.VAL_HCRC_DROPS ∧
       passLink d 5 false = some 2 ∧ dropOf d (vPkt 5 255 0) = none ∧ dropOf d (vPkt 5 0 0) = none ∧ dropOf d (vPkt 5 1 0) = none) :=
  ⟨here _, by decide +kernel⟩

theorem witness_ValleyMembers :
    (let d := passDev 4
     (vPkt 5 255 0).body = .member infoOf ∧ infoOf.uid ≠ uidNow d ∧ infoOf.uid ∉ d.val.barred ∧ tget d.val.members infoOf.uid = some ⟨infoOf, 0, 0⟩) ∧
    (let d := passDev 6
     AtTime d.raw (on d) d ∧ (linkAt d 2).state = 6 ∧ at_ (vPkt 6 0 0).header 0 1 = 6 ∧ at_ (vPkt 6 0 0).header 2 1 = 0 ∧
       ¬ ((linkAt d 2).state = 4 ∨ ((linkAt d 2).state = 6 ∧ at_ (vPkt 5 0 0).header 0 1 = 6 ∧ at_ (vPkt 5 0 0).header 2 1 = 0)) ∧
       ¬ ((linkAt d 2).state = 4 ∨ ((linkAt d 2).state = 6 ∧ at_ (vPkt 6 1 0).header 0 1 = 6 ∧ at_ (vPkt 6 1 0).header 2 1 = 0))) :=
  ⟨by decide +kernel, here _, by decide +kernel⟩

def askOf : AdmitAsk :=
  ⟨0, siteUniv, { priority := 100, discovery := false, cid := [], sourceIp := 0, name := [], discAt := none }, 50, 1, 0, 2, 0, none, none⟩

theorem witness_AdmissionsTimeAndDelays :
    (let a : Admission := ⟨.modify hdr 0 [], askOf, [5], [5], 0⟩
     let d := { valleyDev .active {} [] (ms 10) with val.admissions := [(3, a)] }
     AtTime d.raw (on d) d ∧ (d.val.admissions.filter fun e => decide (e.2.began + ms 10 ≤ d.raw)) = [(3, a)] ∧ d.val.migs = [] ∧ a.purpose = .modify hdr 0 [] ∧
       timeRef d 0 = none) ∧
    (let d := { valleyDev .active {} [] (ms 10 - 1) with val.admissions := [(3, ⟨.modify hdr 0 [], askOf, [5], [5], 0⟩)], val.migs := [(0, ⟨5, false, 0, 0, 0, 0, 0, 0, none, 0⟩)] }
     AtTime d.raw (on d) d ∧ (∀ a ∈ d.val.admissions, d.raw < a.2.began + ms 10) ∧ (∀ m ∈ d.val.migs, m.2.state = 0 → d.raw < m.2.began + ms 10) ∧ waiting d = 0) ∧
    (let x : VLink := { state := 4, hello := some (helloOf (2 ^ 63) 7 6), delayAt := some 0 }
     let d := { valleyDev .active x [(2 ^ 63, ⟨⟨2 ^ 63, 8, false, 1, 0, 6, [(0, fuseUid {})], []⟩, 0, 0⟩)] (ms 10) with val.timeAt := [(0, ms 9), (1, ms 9 + 1)] }
     AtTime d.raw (on d) d ∧ isMember d = true ∧ timeRef d 0 = some (uidNow d) ∧ elapsed d (tget d.val.timeAt 0) (ms 1) = true ∧
       elapsed d (tget d.val.timeAt 1) (ms 1) = false ∧ childLinks d (uidNow d) = [2] ∧ (linkAt d 2).state = 4 ∧ elapsed d (linkAt d 2).delayAt (ms 10) = true) ∧
    (let d := valleyDev .active { state := 4, delayAt := some 0 } [] (ms 10 - 1)
     AtTime d.raw (on d) d ∧ elapsed d (linkAt d 2).delayAt (ms 10) = false) ∧
    (let d := domDev .active { rec_ := { source := 2 }, servo := 2 } (ms 10)
     AtTime d.raw (on d) d ∧ (domAt d 0).rec_.source = 2 ∧ (domAt d 0).servo = 2 ∧ (domAt d 0).valleyHeard + ms 10 ≤ d.raw ∧ timeRuns d = true) ∧
    (let d := domDev .active { rec_ := { source := 2 }, servo := 1 } (ms 10 - 1)
     AtTime d.raw (on d) d ∧ ¬ (domAt d 0).valleyHeard + ms 10 ≤ d.raw) :=
  ⟨⟨here _, by decide⟩, ⟨here _, by decide⟩, ⟨here _, by decide⟩, ⟨here _, by decide⟩, ⟨here _, by decide⟩, here _, by decide⟩

def relayDev (b : Boot) (raw : Nat) : Dev := { valleyDev .load { state := 6 } [] raw with boot := b, regs := [(F.SYS_STRAPS_BOOT.off, 2)] }

theorem witness_ValleyTrafficAndMigration :
    (let d := relayDev { askedAt := some 0 } (ms 100)
     AtTime d.raw (on d) d ∧ d.sys.mode = .load ∧ sourceOn d 2 = true ∧ d.boot.taking = none ∧ elapsed d d.boot.askedAt (ms 100) = true ∧
       (linkAt d 2).state = 6 ∧ (linkAt d 2).failed = false) ∧
    (let d := relayDev { askedAt := some 0 } (ms 100 - 1)
     AtTime d.raw (on d) d ∧ elapsed d d.boot.askedAt (ms 100) = false) ∧
    (let d := relayDev { taking := some (2, 100), takeAt := 0 } (sec 1)
     AtTime d.raw (on d) d ∧ d.boot.taking.map (·.1) = some 2 ∧ d.boot.takeAt + sec 1 ≤ d.raw ∧ d.boot.auth.any (fun e => e.1 == 2) = false) ∧
    (let d := relayDev { taking := some (2, 100), takeAt := 0 } (sec 1 - 1)
     AtTime d.raw (on d) d ∧ ¬ d.boot.takeAt + sec 1 ≤ d.raw) ∧
    (∀ st ∈ [0, 1, 2, 3, 4, 5],
     let m : Mig := ⟨5, false, 0, 0, st, 0, 0, 0, none, 0⟩
     let h := mkHandle 0xD 1 2
     let d : Dev := { argDev .active [] with hdl := { objs := [(okey 0xD 2, objIn 0)] }, val := { migs := [(2, m)] }, outp := { univs := [(0, siteUniv)] } }
     AtTime 0 (on d) d ∧ Served d hdr 0x500 h ∧ hKind h = 0xD ∧ (objOf d h).isSome = true ∧ tget d.val.migs (hIndex h) = some m ∧
       tget d.outp.univs m.univ = some siteUniv ∧ m.state = st ∧ hKind hCanvas ≠ 0xD ∧ Served d hdr 0x500 hCanvas) :=
  ⟨⟨here _, by decide⟩, ⟨here _, by decide⟩, ⟨here _, by decide⟩, ⟨here _, by decide⟩, fun x h => ⟨here _, by revert x; decide⟩⟩

/-! Chapter 14: the redundant pair -/

def pairDev (m : Mode) (r : Red) (raw : Nat) : Dev := { inMode m with raw := raw, red := { r with paired := true } }

/-- A heartbeat word: mode, HOLDS, sequence number. -/
def beat (mode : Nat) (holds : Bool) (seq : Nat) : Nat := mode + (if holds then 32 else 0) + 2 ^ 24 * seq

theorem witness_HeartbeatsAndTheInterlock :
    (let d := pairDev .active { sentAt := some 0, valley := { up := true, seq := some 3 } } (ms 1)
     AtTime d.raw (on d) d ∧ hbRuns d = true ∧ elapsed d d.red.sentAt (us 100) = true ∧ (pathAt d 1).seq ≠ some (hbSeq (beat 4 true 4 % 2 ^ 64)) ∧
       (pathAt d 1).seq = some (hbSeq (beat 4 true 3 % 2 ^ 64)) ∧ d.red.handover = none ∧ hbMode (beat 4 false 4) ≠ 6 ∧ hbMode (beat 4 false 4) ≠ 5 ∧
       ¬ (d.sys.mode = .active ∧ hbMode (beat 4 false 4) = 4 ∧ hbHolds (beat 4 false 4 % 2 ^ 64) = true) ∧
       hbMode (beat 4 true 4) = 4 ∧ hbHolds (beat 4 true 4 % 2 ^ 64) = true ∧ d.red.role = 0 ∧ ¬ (hbMode d.red.word = 4 ∧ hbHolds d.red.word = true) ∧
       max (pathAt d 1).at_ (pathAt d 1).missAt + us 100 ≤ d.raw ∧ (pathAt d 1).up = true ∧ (pathAt d 1).at_ + ms 1 ≤ d.raw) ∧
    (let d := pairDev .active { role := 1, sentAt := some 1, valley := { up := true, missAt := 1 } } (us 100)
     AtTime d.raw (on d) d ∧ elapsed d d.red.sentAt (us 100) = false ∧ d.sys.mode = .active ∧ hbMode (beat 4 true 4) = 4 ∧ hbHolds (beat 4 true 4 % 2 ^ 64) = true ∧
       d.red.role = 1 ∧ (pathAt d 1).seq ≠ some (hbSeq (beat 4 true 4 % 2 ^ 64)) ∧ ¬ max (pathAt d 1).at_ (pathAt d 1).missAt + us 100 ≤ d.raw ∧
       ¬ (pathAt d 1).at_ + ms 1 ≤ d.raw) ∧
    (let d := pairDev .load { ilk := true } 0
     AtTime d.raw (on d) d ∧ hbRuns d = false ∧ d.sys.mode ≠ .configure ∧ (d.red.ilk && !d.red.silent && true) = true ∧ (d.red.ilk && !d.red.silent && false) = false ∧
       timeRuns d = false ∧ d.red.claim = none) ∧
    (let d := pairDev .active { line := 2, answer := none, asked := some 0, probes := [(1, 2, 0)] } (us 400)
     AtTime d.raw (on d) d ∧ timeRuns d = true ∧ d.red.ilk = false ∧ d.red.answer = none ∧ d.red.asked = some 0 ∧ 0 + us 400 ≤ d.raw ∧ d.sys.mode ≠ .standby) ∧
    (let d := pairDev .active { answer := none, asked := some 1 } (us 400)
     AtTime d.raw (on d) d ∧ ¬ (1 + us 400 ≤ d.raw)) :=
  ⟨⟨here _, by decide⟩, ⟨here _, by decide⟩, ⟨here _, by decide⟩, ⟨here _, by decide⟩, here _, by decide⟩

def mayClaim (d : Dev) : Prop :=
  d.red.paired = true ∧ d.sys.mode = .standby ∧ d.red.silent = false ∧ d.red.claim = none ∧ handingOver d = false

/-- A standby in a valley with a third member, to whose address there is a pass or none. -/
def thirdDev (r : Red) (pass : Tbl (Option Nat × Option Nat × Nat)) : Dev :=
  { pairDev .standby { r with partner := 77 } 0 with val := { members := [(8, memberOf 8 0 [])], passes := pass } }

theorem witness_Claims :
    (let d := pairDev .standby { line := 0, valley := { up := true }, word := beat 5 false 1 } 0
     AtTime d.raw (on d) d ∧ mayClaim d ∧ blocked d = false ∧ d.red.line = 0 ∧ anyPath d = true ∧ hbHolds d.red.word = false) ∧
    (let d := pairDev .standby { line := 0, valley := { up := true }, word := beat 4 true 1 } 0
     AtTime d.raw (on d) d ∧ mayClaim d ∧ anyPath d = true ∧ hbHolds d.red.word = true) ∧
    (let d := pairDev .standby { line := 1, cpBad := true } 0
     AtTime d.raw (on d) d ∧ mayClaim d ∧ blocked d = true ∧ d.red.line ≠ 0) ∧
    (let d := pairDev .standby { line := 0 } 0
     AtTime d.raw (on d) d ∧ mayClaim d ∧ blocked d = false ∧ d.red.line = 0 ∧ anyPath d = false ∧ witnessNeeded d = false) ∧
    (let d := pairDev .standby { line := 0, witness := 1 } 0
     AtTime d.raw (on d) d ∧ mayClaim d ∧ blocked d = false ∧ anyPath d = false ∧ witnessNeeded d = true ∧ d.red.asked = none ∧ witnessOf d = none) ∧
    (let d := thirdDev { line := 0 } [(8, some 1, none, 1)]
     AtTime d.raw (on d) d ∧ mayClaim d ∧ blocked d = false ∧ anyPath d = false ∧ witnessNeeded d = true ∧ d.red.asked = none ∧ witnessOf d = some 8) ∧
    (∀ a ∈ [none, some 0, some 1, some 2],
     let d := pairDev .standby { line := 0, witness := 1, asked := some 0, answer := a } 0
     AtTime d.raw (on d) d ∧ mayClaim d ∧ blocked d = false ∧ d.red.line = 0 ∧ anyPath d = false ∧ witnessNeeded d = true ∧ d.red.asked.isSome = true ∧ d.red.answer = a) ∧
    (let d := pairDev .standby { line := 0, claim := some ⟨1, 0, false⟩ } (us 40)
     AtTime d.raw (on d) d ∧ d.red.claim = some ⟨1, 0, false⟩ ∧ ¬ mayClaim d ∧ 0 + us (if d.red.role = 0 then 40 else 20) ≤ d.raw) ∧
    (let d := pairDev .standby { line := 0, claim := some ⟨1, 0, false⟩, role := 1 } (us 20 - 1)
     AtTime d.raw (on d) d ∧ ¬ 0 + us (if d.red.role = 0 then 40 else 20) ≤ d.raw) ∧
    (let d := pairDev .standby { line := 0, claim := some ⟨2, 0, false⟩ } (us 2)
     AtTime d.raw (on d) d ∧ d.red.claim = some ⟨2, 0, false⟩ ∧ 0 + us 2 ≤ d.raw ∧ d.sys.mode = .standby ∧ d.red.silent = false) :=
  ⟨⟨here _, by unfold mayClaim; decide⟩, ⟨here _, by unfold mayClaim; decide⟩, ⟨here _, by unfold mayClaim; decide⟩, ⟨here _, by unfold mayClaim; decide⟩,
    ⟨here _, by unfold mayClaim; decide⟩, ⟨here _, by unfold mayClaim; decide⟩, fun a h => ⟨here _, by unfold mayClaim; revert a; decide⟩,
    ⟨here _, by unfold mayClaim; decide⟩, ⟨here _, by decide⟩, here _, by decide⟩

def snapOf (used : Tbl Nat) : Snapshot := ⟨[], [], [], used, [], [], [], [], [], [], [], [], [], [], [], [], [], [], [], 0, 0⟩

/-- A trailer: number, pages, CRC. -/
def trailerOf (num pages crc : Nat) : List Byte := leBytes 8 num ++ leBytes 4 pages ++ leBytes 4 crc ++ List.replicate 16 0

/-- A standby whose partner's checkpoint version is as it says, with a checkpoint received. -/
def stageDev (word : Nat) (used : Tbl Nat) : Dev := pairDev .standby { word := word, stage := some ⟨3, 9, [], some (snapOf used)⟩ } 0

theorem witness_CheckpointTrailers :
    (let d := stageDev 5 []
     AtTime d.raw (on d) d ∧ (trailerOf 3 0 0).length = 32 ∧ ([] : List Byte).length ≠ 32 ∧ ckptTakes d = true ∧
       d.red.stage = some ⟨3, 9, [], some (snapOf [])⟩ ∧ (ckptGrounds (snapOf []) d) = (false, false) ∧
       (3 = at_ (trailerOf 3 0 0) 0 8 ∧ 0 = 16 * at_ (trailerOf 3 0 0) 8 4 ∧ crc32c [] = at_ (trailerOf 3 0 0) 12 4) ∧ 3 ≠ at_ (trailerOf 4 0 0) 0 8) ∧
    (let d := stageDev (5 + 65536 * 9) []
     AtTime d.raw (on d) d ∧ ckptTakes d = true ∧ (ckptGrounds (snapOf []) d).1 = true) ∧
    (let d := stageDev 5 [(0, 2 ^ 40)]
     AtTime d.raw (on d) d ∧ ckptTakes d = true ∧ (ckptGrounds (snapOf [(0, 2 ^ 40)]) d).2 = true) ∧
    (let d := pairDev .standby { stage := some ⟨3, 9, [], none⟩ } 0
     AtTime d.raw (on d) d ∧ ckptTakes d = true ∧ (d.red.stage.bind fun c => c.snap.map fun x => (c, x)) = none) ∧
    (let d := pairDev .active {} 0
     AtTime d.raw (on d) d ∧ ckptTakes d = false) :=
  ⟨⟨here _, by decide +kernel⟩, ⟨here _, by decide +kernel⟩, ⟨here _, by decide +kernel⟩, ⟨here _, by decide +kernel⟩, here _, by decide⟩

def giving (step : Nat) : Handover := ⟨9, step, none, true⟩

def outOf (trailer : Time) : CkptOut := ⟨4, 9, 0, [], some trailer⟩

theorem witness_CheckpointsAndHandover :
    (let d := pairDev .active { out := some (outOf 0), handover := some (giving 3), valley := { up := true }, word := 5 } (ms 10)
     AtTime d.raw (on d) d ∧ d.red.out = some (outOf 0) ∧ 0 + ms 10 ≤ d.raw ∧ d.red.handover = some (giving 3) ∧ (giving 3).giving = true ∧ (giving 3).step = 3 ∧
       pacing d = none ∧ ckptMay d = true ∧ d.red.out ≠ none) ∧
    (let d := pairDev .active { out := some (outOf 1) } (ms 10)
     AtTime d.raw (on d) d ∧ d.red.out = some (outOf 1) ∧ ¬ (1 + ms 10 ≤ d.raw) ∧ ckptMay d = false) ∧
    (let d := { pairDev .active { handover := some (giving 3), valley := { up := true }, word := 5 } 0 with hdl := { objs := [(okey 5 0, objIn 2)] } }
     AtTime d.raw (on d) d ∧ d.red.out = none ∧ d.red.handover = some (giving 3) ∧ d.sys.mode = .active ∧ showWaiting d = false ∧ pacing d = none ∧ ckptMay d = true) ∧
    (let d := { objDev with red := { paired := true } }
     AtTime d.raw (on d) d ∧ (pacing { d with vid := { canvases := [(0, canvas50 none false)] } }).isSome = true ∧ d.red.handover = none) ∧
    (let d := pairDev .standby {} (sec 1)
     AtTime d.raw (on d) d ∧ d.red.paired = true ∧ d.sys.mode = .standby ∧ d.red.healthAt + sec 1 ≤ d.raw) ∧
    (let d := pairDev .standby {} (sec 1 - 1)
     AtTime d.raw (on d) d ∧ ¬ d.red.healthAt + sec 1 ≤ d.raw) :=
  ⟨⟨here _, by decide⟩, ⟨here _, by decide⟩, ⟨here _, by decide⟩, ⟨here _, by decide⟩, ⟨here _, by decide⟩, here _, by decide⟩

/-- The arguments of HANDOVER START: FORCE, a frame. -/
def handBytes (force frame : Nat) : List Byte := leBytes 1 0 ++ leBytes 1 force ++ leBytes 6 0 ++ leBytes 8 frame ++ List.replicate 32 0

def barOf (d : Dev) (b : List Byte) : Option Nat :=
  let force := bit (at_ b 1 1) 0
  let m := hbMode d.red.word
  if d.red.paired = false ∨ (m ≠ 4 ∧ m ≠ 5) ∨ m = d.sys.mode.code then some rcConflict
  else if standbyHealthy d = false ∧ force = false then some rcConflict
  else if standbyBlocked d = true then some rcIncompatible
  else if d.red.valley.up = false ∨ d.red.handover.isSome = true then some rcBusy else none

def handDev (m : Mode) (r : Red) : Dev := { argDev m [] with red := { r with paired := true } }

theorem witness_HandoverCommands :
    (let d := handDev .active { valley := { up := true }, word := 5 + 64 }
     AtTime d.raw (on d) d ∧ Served d hdr 0x600 0 ∧ barOf d (handBytes 0 9) = none ∧ d.sys.mode = .active ∧ at_ (handBytes 0 9) 1 1 = 0 ∧ at_ (handBytes 1 9) 1 1 = 1 ∧
       at_ (handBytes 2 9) 1 1 = 2 ∧ at_ (handBytes 1 9) 2 6 = 0 ∧ d.red.handover = none) ∧
    (let d := handDev .active { valley := { up := true }, word := 5 }
     AtTime d.raw (on d) d ∧ Served d hdr 0x600 0 ∧ barOf d (handBytes 0 9) = some rcConflict ∧ barOf d (handBytes 1 9) = none) ∧
    (let d := handDev .standby { valley := { up := true }, word := 4 }
     AtTime d.raw (on d) d ∧ Served d hdr 0x600 0 ∧ barOf d (handBytes 0 9) = none ∧ d.sys.mode ≠ .active) ∧
    (let d := handDev .standby { valley := { up := true }, word := 4, cpBad := true }
     AtTime d.raw (on d) d ∧ Served d hdr 0x600 0 ∧ barOf d (handBytes 0 9) = some rcIncompatible) ∧
    (let d := handDev .active { valley := { up := false }, word := 5 + 64, handover := some (giving 3) }
     AtTime d.raw (on d) d ∧ Served d hdr 0x600 0 ∧ barOf d (handBytes 0 9) = some rcBusy ∧ d.red.handover = some (giving 3) ∧ (giving 3).step < 4) ∧
    (let d := handDev .active { valley := { up := true }, word := 4, handover := some (giving 4) }
     AtTime d.raw (on d) d ∧ Served d hdr 0x600 0 ∧ barOf d (handBytes 1 9) = some rcConflict ∧ 4 ≤ (giving 4).step) :=
  ⟨⟨here _, by decide⟩, ⟨here _, by decide⟩, ⟨here _, by decide⟩, ⟨here _, by decide⟩, ⟨here _, by decide⟩, here _, by decide⟩

/-! Chapter 15: boot, the NOR and update -/

def hdrMgt : CmdHdr := ⟨.mgt 9 8, 0, false, false, 7⟩

def bootHdr : BootHdr := ⟨0, false, 25, 32, 1000, 400, [], []⟩

def norDev (m : Mode) (regs : Tbl Word) (u : Upd) (raw : Nat) : Dev := { argDev m [] with raw := raw, regs := regs, upd := u, boot := { hdr := some bootHdr } }

theorem witness_NorCommands :
    (let d := norDev .service [] {} 0
     let bad (off len arg : Nat) : Prop := norSize d < off + len ∨ 1048576 < len ∨ argBytes < arg + len
     AtTime 0 (on d) d ∧ Served d hdr 0x700 0 ∧ Served d hdr 0x701 0 ∧ Served d hdr 0x702 0 ∧ Served d hdrMgt 0x700 0 ∧ Served d hdrMgt 0x702 0 ∧ hdrMgt.src ≠ .pcie ∧
       hdr.src = .pcie ∧ norSize d = 33554432 ∧ ¬ bad 33554431 1 0 ∧ bad 33554432 1 0 ∧ ¬ bad 0 1048576 0 ∧ bad 0 1048577 0 ∧ bad 0 1 1048576 ∧ ¬ bad 33554432 0 0 ∧
       (33488896 % 65536 = 0 ∧ ¬ norSize d < 33488896 + 65536 * 1 ∧ norSize d < 33488896 + 65536 * 2) ∧ bitOf d F.SYS_STATUS_HDR_VALID = false ∧
       bitOf d F.SYS_STATUS_VLOW_STOP = false ∧ d.upd.jobs = [] ∧ norFree d = true) ∧
    (let d := norDev .service [(F.SYS_STATUS_HDR_VALID.off, 0x21)] {} 0
     AtTime 0 (on d) d ∧ Served d hdr 0x701 0 ∧ Served d hdr 0x702 0 ∧ bitOf d F.SYS_STATUS_HDR_VALID = true ∧ holds d hdr = false ∧ bitOf d F.SYS_STATUS_VLOW_STOP = true ∧
       0 < 65536 ∧ norFree d = false) :=
  ⟨⟨here _, by decide⟩, here _, by decide⟩

def jobOf (x : NorStep) (r : List NorStep) (done : NorThen) (began : Option Time) : NorJob := ⟨x :: r, began, none, [], done⟩

theorem witness_NorOperatesAndKeepsItsLog :
    (let j := jobOf (.erase 3) [] (.wrote 5) (some 0)
     let d := norDev .active [] { jobs := [j] } (ms 400)
     AtTime d.raw (on d) d ∧ d.upd.jobs = [j] ∧ j.began = some 0 ∧ j.steps = [.erase 3] ∧ d.raw ≤ 0 + norLimit d (.erase 3) ∧ 0 + norLimit d (.erase 3) ≤ d.raw) ∧
    (let j := jobOf (.program 0 [1]) [.program 256 [2]] .nothing (some 0)
     let d := norDev .active [] { jobs := [j] } (us 1000 + 1)
     AtTime d.raw (on d) d ∧ 0 + norLimit d (.program 0 [1]) < d.raw ∧ j.done = .nothing) ∧
    (let j := jobOf (.program 0 [1]) [.program 256 [2]] (.journal {} []) (some 1)
     let d := norDev .active [] { jobs := [j] } (us 1000)
     AtTime d.raw (on d) d ∧ d.raw < 1 + norLimit d (.program 0 [1]) ∧ j.done = .journal {} []) ∧
    (let d := norDev .active [] { jobs := [jobOf (.erase 3) [] .logged none] } (sec 600)
     AtTime d.raw (on d) d ∧ timeRuns d = true ∧ d.upd.lifeAt + sec 600 ≤ d.raw ∧ ¬ ∀ j ∈ d.upd.jobs, j.done ≠ .logged) ∧
    (let d := norDev .standby [] {} (sec 600)
     AtTime d.raw (on d) d ∧ d.upd.jobs = [] ∧ timeRuns d = true ∧ bitOf d F.HDL_STATUS_AT_RISK = false ∧ d.sys.mode ≠ .hold ∧ d.upd.lifeAt + sec 600 ≤ d.raw ∧
       ∀ j ∈ d.upd.jobs, j.done ≠ .logged) :=
  ⟨⟨here _, by decide⟩, ⟨here _, by decide⟩, ⟨here _, by decide⟩, ⟨here _, by decide⟩, here _, by decide⟩

def updDev (u : Upd) (regs : Tbl Word) (raw : Nat) : Dev := { norDev .active regs u raw with hdl := { hosts := [⟨9, 32⟩] } }

/-- Arguments of UPDATE_OPEN: FORCE, a length. -/
def openBytes (force len : Nat) : List Byte := leBytes 4 force ++ leBytes 4 len ++ List.replicate 40 0

/-- Arguments of UPDATE_WRITE: offset, length, INDIRECT, where in the argument area. -/
def writeBytes (off len ind arg : Nat) : List Byte := leBytes 4 off ++ leBytes 4 len ++ leBytes 4 ind ++ leBytes 4 arg ++ List.replicate 32 7

def lowRegs : Tbl Word := [(F.SYS_STATUS_VLOW_STOP.off, 0x20)]

theorem witness_SessionsUpdateTheStore :
    (let x : Session := ⟨.mgt 9 8, 3, sec 60⟩
     let d := updDev { session := some x } [] 0
     AtTime 0 (on d) d ∧ Served d hdr 0x703 0 ∧ d.upd.session = some x ∧ x.src ≠ hdr.src ∧ holds d hdr = false ∧ d.upd.former ≠ some hdr.src ∧
       (∀ op ∈ [0x704, 0x705, 0x706, 0x707, 0x708, 0x709], Served d hdr op 0) ∧ (d.upd.session.any fun x => x.src != hdr.src) = true ∧ d.raw < x.till) ∧
    (let d := updDev { former := some .pcie } [] 0
     AtTime 0 (on d) d ∧ holds d hdr = false ∧ d.upd.former = some hdr.src ∧ (d.upd.session.any fun x => x.src != hdr.src) = false ∧
       (0 < at_ (openBytes 0 8388608) 4 4 ∧ at_ (openBytes 0 8388608) 4 4 ≤ 8388608) ∧ 8388608 < at_ (openBytes 0 8388609) 4 4 ∧ at_ (openBytes 0 0) 4 4 = 0 ∧
       (journalNow d).state = 1 ∧ bitOf d F.SYS_STATUS_VLOW_STOP = false ∧ d.upd.jobs = [] ∧ norFree d = true) ∧
    (∀ st ∈ [1, 2, 3, 4, 5, 6],
     let d := updDev { j := some { state := st } } lowRegs 0
     AtTime 0 (on d) d ∧ Served d hdr 0x703 0 ∧ Served d hdr 0x708 0 ∧ (journalNow d).state = st ∧ bitOf d F.SYS_STATUS_VLOW_STOP = true ∧
       bit (at_ (openBytes 1 9) 0 1) 0 = true ∧ bit (at_ (openBytes 0 9) 0 1) 0 = false) :=
  ⟨⟨here _, by decide⟩, ⟨here _, by decide⟩, fun x h => ⟨here _, by revert x; decide⟩⟩

theorem witness_UpdateWrites :
    let x : Session := ⟨.pcie, 3, sec 60⟩
    let y : Session := ⟨.mgt 9 8, 3, sec 60⟩
    (∀ st ∈ [1, 2, 3, 4, 5, 6],
     let d := updDev { session := some x, j := some { state := st }, len := 65536 } [] 0
     let low := updDev { session := some x, j := some { state := st }, len := 65536 } lowRegs 0
     AtTime 0 (on d) d ∧ holds d hdr = true ∧ (journalNow d).state = st ∧ bitOf d F.SYS_STATUS_VLOW_STOP = false ∧ bitOf low F.SYS_STATUS_VLOW_STOP = true ∧
       holds low hdr = true ∧ (∀ op ∈ [0x704, 0x705, 0x706, 0x707, 0x708, 0x709], Served d hdr op 0 ∧ Served low hdr op 0) ∧ nextOffset d = 0 ∧ d.upd.len = 65536 ∧
       verifyImage { d with upd.session := some { x with till := d.raw + sec 60 } } stagingBase d.upd.len = some (rcMediaError, 0)) ∧
    (let d := updDev { session := some y, j := some { state := 2 }, len := 65536 } [] 0
     AtTime 0 (on d) d ∧ holds d hdrMgt = true ∧ hdrMgt.src ≠ .pcie ∧ Served d hdrMgt 0x705 0) ∧
    ((bit (at_ (writeBytes 0 65536 1 0) 8 1) 0 = true ∧ at_ (writeBytes 0 65536 1 0) 4 4 = 65536 ∧ at_ (writeBytes 0 65536 1 0) 0 4 = 0 ∧
        at_ (writeBytes 0 65536 1 0) 12 4 + 65536 ≤ argBytes) ∧
      (bit (at_ (writeBytes 0 32 0 0) 8 1) 0 = false ∧ at_ (writeBytes 0 32 0 0) 4 4 = 32) ∧ 32 < at_ (writeBytes 0 33 0 0) 4 4 ∧
      argBytes < at_ (writeBytes 0 1 1 1048576) 12 4 + at_ (writeBytes 0 1 1 1048576) 4 4) :=
  ⟨fun x h => ⟨here _, by revert x; decide +kernel⟩, ⟨here _, by decide⟩, by decide⟩

/-- A whole image of no records, of a format. -/
def emptyImage (format : Nat) : List Byte :=
  let h := [0x43, 0x50, 0x43, 0x46] ++ leBytes 2 format ++ leBytes 2 32 ++ leBytes 4 144 ++ leBytes 4 0 ++ leBytes 8 7 ++ leBytes 4 0
  let b := h ++ leBytes 4 (crc32c h) ++ [0x43, 0x50, 0x54, 0x52] ++ leBytes 4 0xFF
  b ++ leBytes 4 (crc32c b) ++ List.replicate 100 0

/-- An image in the NOR. -/
def storeImage (a : Nat) (b : List Byte) : Mem := (b.zipIdx.map fun e => (a + e.2, e.1)).filter fun e => e.2 != 0xFF

theorem witness_UpdateVerifies :
    ∀ st ∈ [2, 3],
     let x : Session := ⟨.pcie, 3, sec 60⟩
     let d := { updDev { session := some x, j := some { state := st }, len := 144 } [(F.CTL_CF_NATIVE_COUNT.off, 0x10001), (R.CTL_CF_LIST 0, 1)] 0 with nor := storeImage stagingBase (emptyImage 1) }
     AtTime 0 (on d) d ∧ holds d hdr = true ∧ Served d hdr 0x706 0 ∧ (journalNow d).state = st ∧ bitOf d F.SYS_STATUS_VLOW_STOP = false ∧
       verifyImage { d with upd.session := some { x with till := d.raw + sec 60 } } stagingBase d.upd.len = none :=
  fun x h => ⟨here _, by revert x; decide +kernel⟩

theorem witness_SessionsEnd :
    let x : Session := ⟨.pcie, 3, sec 60⟩
    (∀ st ∈ [1, 2, 3],
     let d := updDev { session := some x, j := some { state := st } } [] (sec 60)
     AtTime d.raw (on d) d ∧ d.upd.session = some x ∧ x.till ≤ d.raw ∧ (¬ ∃ k ∈ d.upd.jobs, ∃ r, k.reply = some r ∧ sessionOp r.2 = true ∧ r.1.src = x.src) ∧
       (journalNow d).state = st) ∧
    (let d := updDev { session := some x, jobs := [⟨[.erase 3], some 0, some (hdr, 0x705), [], .wrote 5⟩] } [] (sec 60)
     AtTime d.raw (on d) d ∧ ∃ k ∈ d.upd.jobs, ∃ r, k.reply = some r ∧ sessionOp r.2 = true ∧ r.1.src = x.src) :=
  ⟨fun st h => ⟨here _, rfl, Nat.le_refl _, (by simp : ¬ ∃ k ∈ ([] : List NorJob), _), rfl⟩, here _, _, List.mem_singleton_self _, _, rfl, by decide, rfl⟩

def writtenOf (d : Dev) (k : Journal) (image : List Byte) : Dev :=
  let o := bankBase (1 - k.active)
  ((List.range (cdiv image.length 65536)).map (fun i => NorStep.erase (o / 65536 + i)) ++ norWrites o image).foldl (fun u x => norApply x u) d

theorem witness_CopiesSpareTheActiveBank :
    (∀ st ∈ [4, 5],
     let k : Journal := { state := st, sLen := 8388608, copied := 126 }
     let d := norDev .configure [] { j := some k } 0
     AtTime 0 (on d) d ∧ d.upd.j = some k ∧ d.sys.mode = .configure ∧ k.state = st ∧ norFree d = true ∧ k.active ≤ 1 ∧ k.copied + 1 < k.sectors ∧
       d.upd.again = false ∧ { k with copied := 127 }.sectors ≤ 127 + 1) ∧
    (let k : Journal := { state := 5, sLen := 65536, active := 1 }
     let d := norDev .configure [] { j := some k, again := true } 0
     AtTime 0 (on d) d ∧ d.upd.j = some k ∧ k.sectors ≤ k.copied + 1 ∧ d.upd.again = true) ∧
    (∀ b ∈ [0, 1],
     let k : Journal := { state := 7, active := b }
     let d := norDev .active [(F.CTL_CF_NATIVE_COUNT.off, 0x10001), (R.CTL_CF_LIST 0, 1)] { j := some k } 0
     let image := emptyImage 1
     let o := bankBase (1 - k.active)
     AtTime 0 (on d) d ∧ d.upd.j = some k ∧ d.sys.mode = .active ∧ k.state = 7 ∧ norFree d = true ∧ image.length ≤ 8388608 ∧
       imageHead (writtenOf d k image) o = true ∧ trailerOk (writtenOf d k image) o = true ∧ at_ image 8 4 = image.length ∧
       (imageIds (writtenOf d k image) o).2.2 = fld d F.CTL_CF_NATIVE_CF ∧ (imageIds (writtenOf d k (emptyImage 2)) o).2.2 ≠ fld d F.CTL_CF_NATIVE_CF) :=
  ⟨fun x h => ⟨here _, by revert x; decide⟩, ⟨here _, by decide⟩, fun x h => ⟨here _, by revert x; decide +kernel⟩⟩

theorem witness_DropRestDiscardsTheItem :
    (let d := popDev 16 0 1 false 0
     let r := popRing 16 0 1 false
     AtTime 0 (on d) d ∧ pcieUp d = true ∧ bar0Writable d R.QUE_POP_CTRL = true ∧ bit (1 : Word).toNat 0 = true ∧
       tget d.que.rings (fld d F.QUE_POP_RING_RING) = some r ∧ r.plain = false ∧ r.hostConsumer = true ∧ popLeft d = 1 ∧
       r.items[r.read]? = some ⟨0, [itemWord, 1]⟩ ∧ r.read = 0 ∧ r.items[1]? = some ⟨2, [itemWord, 2]⟩ ∧ bar0Up d R.QUE_POP_LO = true) ∧
    (let d := popDev 16 0 0 false 0
     AtTime 0 (on d) d ∧ tget d.que.rings (fld d F.QUE_POP_RING_RING) = some (popRing 16 0 0 false) ∧ popLeft d = 0) ∧
    (let d := popDev 8192 0 1 false 0
     AtTime 0 (on d) d ∧ tget d.que.rings (fld d F.QUE_POP_RING_RING) = some (popRing 8192 0 1 false) ∧ (popRing 8192 0 1 false).plain = true) :=
  ⟨⟨here _, by decide⟩, ⟨here _, by decide⟩, here _, by decide⟩

theorem witness_QueryOfATimeActionAnswersItsBytes :
    ∀ x ∈ [none, some (onceAt 0)],
     let a : Action := { sched := x, fires := 2 ^ 32 - 1 }
     let d := actDev .active a 0
     AtTime 0 (on d) d ∧ Served d hdr 1 hAction ∧ hKind hAction = 0xB ∧ objOf d hAction = some (objIn 2) ∧ tget d.tim.actions (hIndex hAction) = some a :=
  fun x h => ⟨here _, by revert x; decide⟩

theorem witness_StepRunsFront :
    ({ pending := [.ppsOutPulse 0] } : State).pending = .ppsOutPulse 0 :: [] ∧ ({} : State).pending = [] := by decide

theorem witness_QueueStaysOrdered :
    QueueOk [.nop 0 hdr, .ppsOutPulse 0, .refLost 1] ∧ ¬ QueueOk [.refLost 1, .ppsOutPulse 0] := by
  unfold QueueOk
  decide

theorem witness_OnlyOutsideStops :
    (∃ s, exec (.registerWrite 0 0xFFFFFC 0) State.reset = .next s) ∧ (∃ f, exec (.registerWrite 0 0x1000000 0) State.reset = .fault f) ∧
      (∃ s, exec (.bar2Write 0 0xFFFFFFF [0]) State.reset = .next s) ∧ (∃ f, exec (.bar2Write 0 0xFFFFFFF [0, 0]) State.reset = .fault f) ∧
      (∃ s, exec (.bar2Read 0 0xFFFFFFF 1 []) State.reset = .next s) ∧ (∃ f, exec (.bar2Read 0 0xFFFFFFF 2 []) State.reset = .fault f) :=
  ⟨⟨_, rfl⟩, ⟨_, rfl⟩, ⟨_, rfl⟩, ⟨_, rfl⟩, ⟨_, rfl⟩, ⟨_, rfl⟩⟩

/-! Values the spec works out, reached in one command or one shared operation -/

/-- The device after one command. -/
def after (c : Instr) (d : Dev) : Dev := match exec c (on d) with
  | .next s => s.toDev
  | .fault _ => d
  | .refused _ => d

/-- The table of R392, column Check: the nine bytes "123456789". -/
theorem test_check_values :
    let b : List Byte := [0x31, 0x32, 0x33, 0x34, 0x35, 0x36, 0x37, 0x38, 0x39]
    (checkValue 0 none b = 0xCBF43926 ∧ checkValue 1 none b = 0xE3069283 ∧ checkValue 2 none b = 0x995DC9BBDF1939FA ∧
      checkValue 3 none b = 0x29B1 ∧ checkValue 4 none b = 0x01DD) := by decide +kernel

/-- Chapter 4, "one translation": the handle of kind 5, generation 1, index 3. -/
theorem test_handle_fields : mkHandle 5 1 3 = 0x50100003 ∧ hKind 0x50100003 = 5 ∧ hGen 0x50100003 = 1 ∧ hIndex 0x50100003 = 3 := by decide

def lightwall : Dev := { inMode .active with
  regs := [(R.PLN_XLAT_HANDLE, 0x50100003)]
  hdl := { objs := [(okey 5 3, objIn 2)] }
  pln := { ptes := [(okey 5 3 * 65536 + 297, ⟨0x4C21, true, false, false, true, false⟩)] } }

/-- The same example: address 0x0129A3C8 reads the entry of page 297. -/
theorem test_xlat_reads_the_entry :
    rg (after (.xlatAddrWrite 0 0x0129A3C8) lightwall) R.PLN_XLAT_PTE_LO = 0x4C210023 ∧
      rg (after (.xlatAddrWrite 0 0x0129A3C8) lightwall) R.PLN_XLAT_PTE_HI = 0 := by decide

/-- Chapter 5, the telemetry ring: 4, 16 and 8 words in a ring of 32, and a commit of 10. -/
def telRing (read : Nat) : Ring :=
  { hostRing [⟨0, List.replicate 4 0⟩, ⟨4, List.replicate 16 1⟩, ⟨20, List.replicate 8 2⟩] with size := 32, read := read, wpos := 28 }

theorem test_ring_overwrites_until_it_fits :
    let after (read : Nat) : Option Ring := tget (ringCommit 12 (List.replicate 10 3) { inMode .active with que := { rings := [(12, telRing read)] } }).1.que.rings 12
    ((after 0).map fun r => (r.lost, r.depth, r.used)) = some (2, 2, 18) ∧ ((after 1).map fun r => r.lost) = some 1 := by decide

/-- Chapter 9, R218: a lane of 640 RGB pixels. -/
theorem test_serial_pix_time :
    preNs { mode := 0, g := 8, tbit := 260, resetUs := 280 } 3 [⟨0, 0, 0, 0, 0, 639, [], [], [], []⟩] = 16254400 := by decide

/-- Chapter 9, the Wrenmoor backdrop: t_sh, plane slots, t_cycle, t_probe and the fit. -/
def wrenmoor : PxTiming := { mode := 1, ckDiv := 5, s := 16, g := 12, r := 4, tLsb := 8, blank := 125, cb := 864 }

theorem test_scan_times :
    wrenmoor.tsh = 17360 ∧ wrenmoor.planes = 271904 ∧ wrenmoor.cycle = 4382224 ∧ wrenmoor.slot 1000 = 175960 ∧ fitNs wrenmoor 3 [] 1000 = 4559184 := by
  decide +kernel

/-- Chapter 11, the Dunmarrow stand: the mean path, and the offset that a Follow_Up gives with ASYM +100,000 ps. -/
theorem test_mean_path :
    let q := { slaveOf with t1 := ns 100000000, t2 := ns 100001500, have12 := true, req := some (9, (ns 100050000 : Nat)) }
    (domAt (after (.ptpMessageRx 0 { ptpMsg 9 false 0 with timestamp := 100050700 }) (ptpDev q ptpDom 0)) 0).meanPath = ns 1100 := by decide

theorem test_offset_with_asymmetry :
    let q := { slaveOf with sync := some (9, (ns 100001500 : Nat), 0) }
    let d := { ptpDev q { ptpDom with servo := 1, meanPath := ns 1100 } 0 with regs := [(R.TIM_PORT_ASYM 3, 100000)] }
    (domAt (after (.ptpMessageRx 0 { ptpMsg 8 false 0 with timestamp := 100000000 }) d) 0).lastOffset = ns 300 := by decide

/-- Chapter 12, the Brindlecote car park: the trigger at 68 s finds P = 38,666 and makes h 90 s, the fade up 600 ms, the hold end at 158 s. -/
theorem test_zone_retrigger :
    let x := { zoneOf 2 with occ := 52428, vac := 6554, holdS := 60, upMs := 2000, downMs := 10000, h := 60000, p := ⟨52428, 6554, sec 65, sec 10⟩ }
    let d := zoneTrigger 5 2 (zoneDev .active x (sensorOf 10) (objIn 2) (sec 68))
    ((zoneAt d 5).map fun y => (y.h, y.holdEnd, y.p.a, (y.p.dur + us 500) / ms 1)) = some (90000, some (sec 158), 38666, 600) := by decide +kernel

/-- Chapter 3, the Marrowdene façade: the shortfall of PX_RATE. -/
theorem test_shortfall :
    shortLines { inMode .active with hdl := { used := [(4, 247457280)] } } [(4, 7864320)] = [(4, 3663360)] ∧
      (noCapacity [(4, 3663360)]).data = [4, 0, 0, 0, 0, 0xE6, 0x37, 0, 0x10, 0, 0, 0] := by decide

/-- R72, steps 2 to 4, at 750 mV and T 0x011F, its reset value. -/
theorem test_governor_supply :
    let d := { inMode .active with regs := [(F.HDL_VCORE_SET_MV.off, 750)] }
    vcoreWant d 0x0109 = 770 ∧ vcoreWant d 0x010A = 755 ∧ vcoreWant d 0x0124 = 750 ∧ vcoreWant d 0x0125 = 745 := by decide

/-- R422: test-logic reset selects IDCODE, 0xB9400C5B, shifted from its bit 0 on. -/
theorem test_idcode :
    (after (.jtagReset 0) (inMode .active)).jtag.ir = 1 ∧
      (after (.idcode 0) { inMode .reset with sys.rstLow := true }).out.head? =
        some (.tdo ((List.range 32).map fun i => (0xB9400C5B : Word).getLsbD i)) := by decide

/-- Chapter 8, Greyhallow Arena: a full untagged universe costs 704 bytes per frame. -/
theorem test_universe_bytes : ({ siteUniv with slots := 512 } : Univ).wire = 704 := by decide

end Sys2Proof.Tests
end

section
/-! SUPPORT. What the rows REGISTER_WRITE, BAR2_WRITE, BAR2_READ and HANDLE_RELEASE do, and when a command stops. -/

namespace Sys2Proof.Machine

/-! Accesses of BAR0 and BAR2 -/

theorem exec_registerWrite_outside {off : Nat} (h : 0x1000000 ≤ off) (t : Time) (v : Word) (s : State) :
    exec (.registerWrite t off v) s = .fault .outsideBar0 := by
  show onDev (runRegisterWrite t off v) s = _
  simp [onDev, runRegisterWrite, h]

/-- R8: inside BAR0 the value is written where the register's block takes writes, and what then may start starts. -/
theorem exec_registerWrite_inside {off : Nat} (h : off < 0x1000000) {t : Time} (v : Word) {s : State} {d : Dev} (hd : AtTime t s d) :
    Completes (.registerWrite t off v) s (if pcieUp d && bar0Writable d off then pump (writeReg off v d) else d) := by
  refine onDev_eq (f := runRegisterWrite t off v) ?_
  rw [hd]
  exact if_neg (Nat.not_le.mpr h)

theorem exec_bar2Write_outside {off : Nat} {b : List Byte} (h : 0x10000000 < off + b.length) (t : Time) (s : State) :
    exec (.bar2Write t off b) s = .fault .outsideBar2 := by
  show onDev (runBar2Write t off b) s = _
  simp [onDev, runBar2Write, h]

theorem exec_bar2Write_inside {off : Nat} {b : List Byte} (h : ¬ 0x10000000 < off + b.length) (t : Time) (s : State) :
    ∃ s', exec (.bar2Write t off b) s = .next s' :=
  ⟨_, onDev_eq (f := runBar2Write t off b) (if_neg h)⟩

theorem exec_bar2Read_outside {off len : Nat} (h : 0x10000000 < off + len) (t : Time) (bad : List Nat) (s : State) :
    exec (.bar2Read t off len bad) s = .fault .outsideBar2 := by
  show onDev (runBar2Read t off len bad) s = _
  simp [onDev, runBar2Read, h]

theorem exec_bar2Read_inside {off len : Nat} (h : ¬ 0x10000000 < off + len) (t : Time) (bad : List Nat) (s : State) :
    ∃ s', exec (.bar2Read t off len bad) s = .next s' :=
  ⟨_, onDev_eq (f := runBar2Read t off len bad) (if_neg h)⟩

/-! When a command stops -/

/-- An outcome that is a fault under a condition, and a next state where the condition fails, is a fault there alone and never a refusal. -/
theorem faults_iff_of_total {o : Host.Outcome State Fault Refusal} {p : Prop} (hf : p → ∃ f, o = .fault f) (hn : ¬p → ∃ s, o = .next s) :
    (∀ r, o ≠ .refused r) ∧ ((∃ f, o = .fault f) ↔ p) := by
  by_cases h : p
  · obtain ⟨f, rfl⟩ := hf h
    exact ⟨nofun, fun _ => h, fun _ => ⟨f, rfl⟩⟩
  · obtain ⟨s, rfl⟩ := hn h
    exact ⟨nofun, nofun, fun hp => absurd hp h⟩

/-- Settles O60: three rows guard the size of the access, and every other row goes on from whatever device it meets. -/
theorem onlyOutsideStops : Obligations.OnlyOutsideStops := by
  intro c s
  cases c with
  | registerWrite t off v =>
    exact faults_iff_of_total (fun h => ⟨_, exec_registerWrite_outside h t v s⟩)
      fun h => ⟨_, exec_registerWrite_inside (Nat.lt_of_not_le h) v rfl⟩
  | bar2Write t off b =>
    exact faults_iff_of_total (fun h => ⟨_, exec_bar2Write_outside h t s⟩) fun h => exec_bar2Write_inside h t s
  | bar2Read t off len bad =>
    exact faults_iff_of_total (fun h => ⟨_, exec_bar2Read_outside h t bad s⟩) fun h => exec_bar2Read_inside h t bad s
  | _ => exact faults_iff_of_total False.elim fun _ => ⟨_, rfl⟩

/-! A write of an ordinary register (R8, R9) -/

theorem storeReg_of_no_register {off : Nat} (h : findReg off = none) (v : Word) (d : Dev) : storeReg off v d = d := by simp [storeReg, h]

@[simp] theorem storeReg_plain (off : Nat) (v : Word) (d : Dev) : (storeReg off v d).plain = d.plain := congrArg (·.plain) (storeReg_rest off v d)

@[simp] theorem storeReg_hdl (off : Nat) (v : Word) (d : Dev) : (storeReg off v d).hdl = d.hdl := congrArg (·.hdl) (storeReg_rest off v d)

/-- A register beside the command ring's head and tail has no part in what waits. -/
theorem waiting_storeReg {off : Nat} (ht : off ≠ R.HDL_CMD_TAIL) (hh : off ≠ R.HDL_CMD_HEAD) (v : Word) (d : Dev) :
    waiting (storeReg off v d) = waiting d :=
  waiting_ext (rg_storeReg_ne v d ht.symm) (rg_storeReg_ne v d hh.symm) (storeReg_cmd off v d)

/-! The release of a handle (R50) -/

theorem objAt_releaseIdx_self (k : Nat) (d : Dev) : objAt (releaseIdx k d) k = none := tget_tdel_self _ _

theorem genOf_releaseIdx_self (k : Nat) (d : Dev) : genOf (releaseIdx k d) k = (genOf d k + 1) % 256 :=
  congrArg (·.getD 0) (tget_tput_self _ _ _)

theorem usedOf_congr {a b : Dev} (h : a.hdl = b.hdl) (n : Nat) : usedOf a n = usedOf b n := by simp only [usedOf, h]

theorem genOf_congr {a b : Dev} (h : a.hdl = b.hdl) (k : Nat) : genOf a k = genOf b k := by simp only [genOf, h]

theorem exec_handleRelease (h : Word) {t : Time} {s : State} {d : Dev} (hd : AtTime t s d) :
    Completes (.handleRelease t h) s (match d.hdl.dying.find? fun x => x.handle == h with
      | some x => releaseObj x d
      | none => d) := by
  subst hd
  exact onDev_eq (f := runHandleRelease t h) rfl

theorem releaseObj_sys (x : Dying) (d : Dev) : (releaseObj x d).sys = d.sys := freePages_sys _ _

theorem usedOf_releaseObj (x : Dying) (d : Dev) (n : Nat) : usedOf (releaseObj x d) n = usedOf d n - chargeOn x.charges n :=
  (usedOf_congr (freePages_hdl _ _) n).trans (usedOf_creditAll _ _ _)

theorem ptesOf_releaseObj (x : Dying) (d : Dev) (h : ∀ q, q ∈ ptesOf d (hKey x.handle) → q.2.rt = false) :
    ptesOf (releaseObj x d) (hKey x.handle) = [] :=
  ptesOf_freePages _ _ h

theorem objAt_releaseObj_self (x : Dying) (d : Dev) : objAt (releaseObj x d) (hKey x.handle) = none := objAt_releaseIdx_self _ _

theorem genOf_releaseObj_self (x : Dying) (d : Dev) : genOf (releaseObj x d) (hKey x.handle) = (genOf d (hKey x.handle) + 1) % 256 :=
  (genOf_releaseIdx_self _ _).trans (by rw [genOf_congr (freePages_hdl _ _)]; rfl)

/-- Settles O18: an ordinary register's write is `storeReg`, after which nothing more may start, and a release is `releaseObj`. -/
theorem registerWritesAndReleases : Obligations.RegisterWritesAndReleases := by
  intro t off v handle s d hd
  refine ⟨fun h => exec_registerWrite_outside h t v s, fun hin hno => ?_, fun hin hup hw hidle hplain ht hh => ?_, fun hnone => ?_,
    fun x hx => ?_⟩
  · have hc := exec_registerWrite_inside hin v hd
    rwa [if_neg (by rcases hno with h | h <;> simp [h])] at hc
  · have hc := exec_registerWrite_inside hin v hd
    rw [hup, hw, Bool.and_self, if_pos rfl, hplain, pump_idle ((waiting_storeReg ht hh v d).trans hidle)] at hc
    exact ⟨_, hc, fun o ho => rg_storeReg_ne v d ho, storeReg_plain off v d, storeReg_hdl off v d, fun hf => storeReg_of_no_register hf v d,
      fun r hr i hi => rg_storeReg_bit off v d r hr i hi⟩
  · have hc := exec_handleRelease handle hd
    rwa [hnone] at hc
  · have hc := exec_handleRelease handle hd
    rw [hx] at hc
    obtain rfl : x.handle = handle := by simpa using List.find?_some hx
    exact ⟨_, hc, releaseObj_sys x d, usedOf_releaseObj x d, ptesOf_releaseObj x d, objAt_releaseObj_self x d, genOf_releaseObj_self x d⟩

end Sys2Proof.Machine
end

section
/-! SUPPORT. Where each reset source takes the device: POR_N, RST_N, the software reset and a watchdog to RESET, PERST_N and TRST_N no further
than their own part. -/

namespace Sys2Proof.Machine

/-! The sources that reset the whole device (R25) -/

theorem exec_powerOnReset {t : Time} {s : State} {d : Dev} (hd : AtTime t s d) : Completes (.powerOnReset t) s (resetBy 1 d) := by
  subst hd
  exact onDev_eq (f := runPowerOnReset t) rfl

theorem exec_warmReset {t : Time} {s : State} {d : Dev} (hd : AtTime t s d) : Completes (.warmReset t) s (resetBy 2 d) := by
  subst hd
  exact onDev_eq (f := runWarmReset t) rfl

theorem exec_softwareReset (v : Word) {t : Time} {s : State} {d : Dev} (hd : AtTime t s d) :
    Completes (.softwareReset t v) s (if pcieUp d && bar0Writable d R.SYS_RESET then writeReset v d else d) := by
  subst hd
  exact onDev_eq (f := runSoftwareReset t v) rfl

theorem exec_watchdogExpiry (core : Nat) {t : Time} {s : State} {d : Dev} (hd : AtTime t s d) :
    Completes (.watchdogExpiry t core) s (if timeRuns d ∧ core < 4 then resetBy 8 d else d) := by
  subst hd
  exact onDev_eq (f := runWatchdogExpiry t core) rfl

theorem writeReset_go {v : Word} (hk : v.toNat / 65536 = 0xC5A1) (hg : bit v.toNat 0 = true) (d : Dev) : writeReset v d = resetBy 4 d :=
  if_pos ⟨hg, hk⟩

theorem writeReset_ignored {v : Word} (h : ¬(v.toNat / 65536 = 0xC5A1 ∧ bit v.toNat 0 = true)) (d : Dev) : writeReset v d = d :=
  if_neg fun g => h ⟨g.2, g.1⟩

theorem resetBy_rstLow (d : Dev) : (resetBy 2 d).sys.rstLow = true := Bool.or_true d.sys.rstLow

/-- Power-on shows its own cause and no other. -/
theorem resetBy_cause_por (d : Dev) : rg (resetBy 1 d) R.SYS_RESET_CAUSE = 1 := by simp [resetBy_cause]

/-- RST_N shows PIN alone where no source was active yet (log 23). -/
theorem resetBy_cause_pin {d : Dev} (h : d.sys.mode ≠ .reset) : rg (resetBy 2 d) R.SYS_RESET_CAUSE = 2 := by
  simp [resetBy_cause, h]

/-- Settles O1: each source runs `resetBy` with its own bit of SYS.RESET_CAUSE, and what that leaves is held in RESET. -/
theorem resetSourcesEndInReset : Obligations.ResetSourcesEndInReset := by
  intro t core value s d hd
  refine ⟨⟨_, exec_powerOnReset hd, resetBy_held 1 d, resetBy_cause_por d⟩,
    ⟨_, exec_warmReset hd, resetBy_held 2 d, resetBy_rstLow d, resetBy_cause_pin⟩, fun hup hkey hgo => ?_, fun hno => ?_,
    fun hcore hreset hday hload => ?_⟩
  · have hc := exec_softwareReset value hd
    rw [hup, bar0Writable_sys hup (by decide), Bool.and_self, if_pos rfl, writeReset_go hkey hgo] at hc
    exact ⟨_, hc, resetBy_held 4 d, resetBy_cause_or 4 d (by decide) (by decide)⟩
  · have hc := exec_softwareReset value hd
    rwa [writeReset_ignored hno, ite_self] at hc
  · have hc := exec_watchdogExpiry core hd
    rw [if_pos ⟨timeRuns_of hreset hday hload, hcore⟩] at hc
    exact ⟨_, hc, resetBy_held 8 d, resetBy_cause_or 8 d (by decide) (by decide)⟩

/-! The sources that reset a part alone (R25, R27, R422) -/

/-- The device without the bytes that the Plain lists in the pages of these entries. -/
def discardPages (l : List (Nat × Pte)) (d : Dev) : Dev :=
  l.foldl (fun d e => { d with plain := d.plain.filter fun x => x.1 / pageBytes != e.2.ppn }) d

theorem discardPages_rest (l : List (Nat × Pte)) (d : Dev) : discardPages l d = { d with plain := (discardPages l d).plain } :=
  (foldl_plainGone l d).1

/-- A byte of a discarded page reads as nothing written (log 5). -/
theorem plainByte_discardPages {l : List (Nat × Pte)} (d : Dev) {e : Nat × Pte} (he : e ∈ l) {a : Nat} (ha : a / pageBytes = e.2.ppn) :
    plainByte (discardPages l d) a = 0 :=
  mget_none fun x hx hxa => (foldl_plainGone l d).2 e he x hx (hxa ▸ ha)

/-- R27: the pin falls in every mode, and in LOAD the pages of the firmware are discarded where PCIe is a source and has delivered no image
whole. -/
theorem exec_pcieFundamentalReset {t : Time} {s : State} {d : Dev} (hd : AtTime t s d) :
    Completes (.pcieFundamentalReset t) s (if d.sys.mode = .load ∧ sourceOn d 0 ∧ !(d.boot.auth.any (·.1 == 0)) then
      discardPages (ptesOf d fwKey) { d with sys.perstLow := true } else { d with sys.perstLow := true }) := by
  subst hd
  exact onDev_eq (f := runPcieFundamentalReset t) rfl

theorem exec_pcieResetEnd {t : Time} {s : State} {d : Dev} (hd : AtTime t s d) :
    Completes (.pcieResetEnd t) s { d with sys.perstLow := false } := by
  subst hd
  exact onDev_eq (f := runPcieResetEnd t) rfl

theorem exec_jtagReset {t : Time} {s : State} {d : Dev} (hd : AtTime t s d) :
    Completes (.jtagReset t) s { d with jtag := { ir := 1, cells := [] } } := by
  subst hd
  exact onDev_eq (f := runJtagReset t) rfl

/-- Settles O2: beside its pin PERST_N can discard the firmware's pages, in LOAD alone, and TRST_N acts on the test access port alone. -/
theorem partialResetsKeepTheRest : Obligations.PartialResetsKeepTheRest := by
  intro t s d hd
  have hc := exec_pcieFundamentalReset hd
  refine ⟨fun hm => ?_, fun hm hsrc hauth => ?_, exec_pcieResetEnd hd, exec_jtagReset hd⟩
  · rwa [if_neg fun h => hm h.1] at hc
  · rw [if_pos ⟨hm, hsrc, by simp [hauth]⟩] at hc
    exact ⟨_, hc, discardPages_rest _ _, fun page p a hp ha => plainByte_discardPages _ hp ha⟩

end Sys2Proof.Machine
end

section
/-! SUPPORT. The entry of a command (R56, R59): what is read back from its 64 bytes, and that its row does what the entry does. -/

namespace Sys2Proof.Machine

/-- The opcode of a command row fits its two bytes, and a row whose opcode names no handle has handle 0. -/
theorem cmdOf_fits {c : Instr} {h : CmdHdr} {op : Nat} {x : Word} (hc : cmdOf c = some (h, op, x)) :
    op < 65536 ∧ (opHandled op = true ∨ x = 0) := by
  cases c <;> cases hc <;> simp [opHandled]

/-- SET_MODE alone has opcode 4. -/
theorem cmdOf_setMode {c : Instr} {h : CmdHdr} {x : Word} (hc : cmdOf c = some (h, 4, x)) : ∃ t target, c = .setMode t h target ∧ x = 0 := by
  cases c <;> cases hc
  exact ⟨_, _, rfl, rfl⟩

theorem createBytes_length (a : CreateArgs) : (createBytes a).length = 48 := by simp [createBytes, leBytes_length]

theorem argsOf_handoverStart {t : Time} {h : CmdHdr} {b args : List Byte} (ha : argsOf (.handoverStart t h b) = some args) :
    at_ b 0 1 = 0 ∧ b = args := by
  have ha : (if at_ b 0 1 = 0 then some b else none) = some args := ha
  simpa using ha

theorem argsOf_recalibrate {t : Time} {h : CmdHdr} {item inst : Nat} {readings : List (Nat × Nat × Nat × Nat)} {args : List Byte}
    (ha : argsOf (.recalibrate t h item inst readings) = some args) :
    readings = [] ∧ leBytes 1 item ++ leBytes 1 inst ++ List.replicate 46 0 = args := by
  have ha : (if readings = [] then some (leBytes 1 item ++ leBytes 1 inst ++ List.replicate 46 0) else none) = some args := ha
  simpa using ha

/-- The ARGS area of a well-formed row has its 48 bytes: those that the host gives as they are by `wellFormed`, the others by their layout. -/
theorem argsOf_length {c : Instr} {args : List Byte} (ha : argsOf c = some args) (hw : wellFormed c = true) : args.length = 48 := by
  cases c with
  | layerCommit | retime | actionArm | domainSwitch | updateOpen | updateWrite | chkRun =>
    cases ha; exact eq_of_beq (and_true_of hw).2
  | handoverStart =>
    obtain ⟨-, rfl⟩ := argsOf_handoverStart ha
    exact eq_of_beq (and_true_of hw).2
  | nop | query | destroy | stop | actionCancel | ringFlush | ringMark | ringRewind | updateRefresh | updateVerify | updateActivate
  | updateConfirm | updateClose | migrateAbort | handoverCancel => cases ha; rfl
  | regRead | regWrite | setMode | ledgerRead | governorSet | modify | start | setPriority | ringRelease | pxpDiagStatus | pxpDiagClear
  | pxpDiagProbeNow | migrateSwitch | norRead | norErase | norProgram => cases ha; simp [leBytes_length]
  | create | admitCheck => cases ha; exact createBytes_length _
  | recalibrate =>
    obtain ⟨-, rfl⟩ := argsOf_recalibrate ha
    simp [leBytes_length]
  | _ => cases ha

/-! The last operands that `wellFormed` bounds -/

theorem operandBelow {a : Bool} {n x : Nat} (hw : (a && Sys2Proof.below n x) = true) : x < n := of_decide_eq_true (and_true_of hw).2

theorem operandsBelow₂ {a : Bool} {n m x y : Nat} (hw : (a && Sys2Proof.below n x && Sys2Proof.below m y) = true) : x < n ∧ y < m :=
  ⟨operandBelow (and_true_of hw).1, operandBelow hw⟩

theorem operandsBelow₃ {a : Bool} {n m l x y z : Nat}
    (hw : (a && Sys2Proof.below n x && Sys2Proof.below m y && Sys2Proof.below l z) = true) : x < n ∧ y < m ∧ z < l :=
  ⟨(operandsBelow₂ (and_true_of hw).1).1, operandsBelow₂ hw⟩

/-! The meaning of an opcode reads back from the ARGS area of a well-formed row the operands that the row has -/

section
variable {t : Time} {h : CmdHdr}

theorem bodyOf_regRead {off count : Nat} (hw : wellFormed (.regRead t h off count) = true) :
    bodyOf { op := 0x02, handle := 0, hdr := h, args := leBytes 4 off ++ leBytes 1 count ++ List.replicate 43 0 } = regReadBody off count := by
  obtain ⟨hoff, hcount⟩ := operandsBelow₂ hw
  show regReadBody (at_ _ 0 4) (at_ _ 4 1) = _
  rw [at_f1 4 1 _ _ _ hoff, at_f2 4 1 _ _ _ hcount]

theorem bodyOf_regWrite {off : Nat} {v m : Word} (hw : wellFormed (.regWrite t h off v m) = true) :
    bodyOf { op := 0x03, handle := 0, hdr := h, args := leBytes 4 off ++ leBytes 4 v.toNat ++ leBytes 4 m.toNat ++ List.replicate 36 0 } =
      regWriteBody off v m := by
  have hoff := operandBelow hw
  show regWriteBody (at_ _ 0 4) (BitVec.ofNat 32 (at_ _ 4 4)) (BitVec.ofNat 32 (at_ _ 8 4)) = _
  rw [at_g1 4 4 4 _ _ _ _ hoff, at_g2 4 4 4 _ _ _ _ v.isLt, at_g3 4 4 4 _ _ _ _ m.isLt, word_back, word_back]

theorem bodyOf_ledgerRead {line : Nat} (hw : wellFormed (.ledgerRead t h line) = true) :
    bodyOf { op := 0x05, handle := 0, hdr := h, args := leBytes 1 line ++ List.replicate 47 0 } = ledgerBody line := by
  have hline := operandBelow hw
  show ledgerBody (at_ _ 0 1) = _
  rw [at_here 1 _ _ hline]

theorem bodyOf_governorSet {target : Nat} (hw : wellFormed (.governorSet t h target) = true) :
    bodyOf { op := 0x06, handle := 0, hdr := h, args := leBytes 2 target ++ List.replicate 46 0 } = governorBody target := by
  have htarget := operandBelow hw
  show governorBody (at_ _ 0 2) = _
  rw [at_here 2 _ _ htarget]

theorem bodyOf_create {a : CreateArgs} (hw : wellFormed (.create t h a) = true) :
    bodyOf { op := 0x10, handle := 0, hdr := h, args := createBytes a } = createBody h a := by
  obtain ⟨-, ha⟩ := and_true_of hw
  show createBody h (createArgs (createBytes a)) = _
  rw [createArgs_bytes a ha]

theorem bodyOf_modify {x : Word} {off len : Nat} (hw : wellFormed (.modify t h x off len) = true) :
    bodyOf { op := 0x12, handle := x, hdr := h, args := List.replicate 24 0 ++ leBytes 4 off ++ leBytes 4 len ++ List.replicate 16 0 } =
      modifyBody h x off len := by
  obtain ⟨hoff, hlen⟩ := operandsBelow₂ hw
  show modifyBody h x (at_ _ 24 4) (at_ _ 28 4) = _
  rw [at_z1 24 4 4 _ _ _ hoff, at_z2 24 4 4 _ _ _ hlen]

theorem bodyOf_start {x : Word} {secs nanos : Nat} {now : Bool} (hw : wellFormed (.start t h x secs nanos now) = true) :
    bodyOf { op := 0x13, handle := x, hdr := h, args := List.replicate 8 0 ++ leBytes 8 secs ++ leBytes 4 nanos ++
      leBytes 1 (if now then 1 else 0) ++ List.replicate 27 0 } =
      startBody x secs nanos now := by
  obtain ⟨hsecs, hnanos⟩ := operandsBelow₂ hw
  show startBody x (at_ _ 8 8) (at_ _ 16 4) (bit (at_ _ 20 1) 0) = _
  rw [at_s1 _ _ _ _ hsecs, at_s2 _ _ _ _ hnanos, at_s3 _ _ _ _ (by split <;> decide), bit_if]

theorem bodyOf_setPriority {x : Word} {prio : Nat} (hw : wellFormed (.setPriority t h x prio) = true) :
    bodyOf { op := 0x15, handle := x, hdr := h, args := [0, 0] ++ leBytes 1 prio ++ List.replicate 45 0 } = priorityBody x prio := by
  have hprio := operandBelow hw
  show priorityBody x (at_ (leBytes 1 prio ++ List.replicate 45 0) 0 1) = _
  rw [at_here 1 _ _ hprio]

theorem bodyOf_admitCheck {a : CreateArgs} (hw : wellFormed (.admitCheck t h a) = true) :
    bodyOf { op := 0x16, handle := 0, hdr := h, args := createBytes a } = checkBody h a := by
  obtain ⟨-, ha⟩ := and_true_of hw
  show checkBody h (createArgs (createBytes a)) = _
  rw [createArgs_bytes a ha]

theorem bodyOf_ringRelease {x : Word} {count : Nat} {all : Bool} (hw : wellFormed (.ringRelease t h x count all) = true) :
    bodyOf { op := 0x303, handle := x, hdr := h, args := leBytes 4 count ++ leBytes 1 (if all then 1 else 0) ++ List.replicate 43 0 } =
      releaseBody x count all := by
  have hcount := operandBelow hw
  show releaseBody x (at_ _ 0 4) (bit (at_ _ 4 1) 0) = _
  rw [at_f1 4 1 _ _ _ hcount, at_f2 4 1 _ _ _ (by split <;> decide), bit_if]

theorem bodyOf_pxpDiagStatus {port : Nat} (hw : wellFormed (.pxpDiagStatus t h port) = true) :
    bodyOf { op := 0x400, handle := 0, hdr := h, args := leBytes 1 port ++ [0] ++ List.replicate 46 0 } = pxStatusBody port := by
  have hport := operandBelow hw
  show pxStatusBody (at_ (leBytes 1 port) 0 1) = _
  rw [at_leBytes 1 _ (by omega)]

theorem bodyOf_pxpDiagClear {port : Nat} (hw : wellFormed (.pxpDiagClear t h port) = true) :
    bodyOf { op := 0x400, handle := 0, hdr := h, args := leBytes 1 port ++ [2] ++ List.replicate 46 0 } = pxClearBody port := by
  have hport := operandBelow hw
  show pxClearBody (at_ (leBytes 1 port) 0 1) = _
  rw [at_leBytes 1 _ (by omega)]

theorem bodyOf_pxpDiagProbeNow {port : Nat} (hw : wellFormed (.pxpDiagProbeNow t h port) = true) :
    bodyOf { op := 0x400, handle := 0, hdr := h, args := leBytes 1 port ++ [3] ++ List.replicate 46 0 } = pxProbeBody port := by
  have hport := operandBelow hw
  show pxProbeBody (at_ (leBytes 1 port) 0 1) = _
  rw [at_leBytes 1 _ (by omega)]

theorem bodyOf_migrateSwitch {x : Word} {frame : Nat} (hw : wellFormed (.migrateSwitch t h x frame) = true) :
    bodyOf { op := 0x500, handle := x, hdr := h, args := List.replicate 8 0 ++ leBytes 8 frame ++ List.replicate 32 0 } = migSwitchBody x frame := by
  have hframe := operandBelow hw
  have hop : at_ (List.replicate 8 0 ++ leBytes 8 frame ++ List.replicate 32 0) 0 1 = 0 := rfl
  have harg : at_ (List.replicate 8 0 ++ leBytes 8 frame ++ List.replicate 32 0) 8 8 = frame := by
    rw [List.append_assoc, at_past 8 _ _ 8 8 List.length_replicate (Nat.le_refl 8)]
    exact at_here 8 _ _ hframe
  show migrateBody x (List.replicate 8 0 ++ leBytes 8 frame ++ List.replicate 32 0) = _
  funext d
  simp only [migrateBody, hop, harg]

theorem bodyOf_norRead {off len arg : Nat} (hw : wellFormed (.norRead t h off len arg) = true) :
    bodyOf { op := 0x700, handle := 0, hdr := h, args := leBytes 4 off ++ leBytes 4 len ++ leBytes 4 arg ++ List.replicate 36 0 } =
      norRead h off len arg := by
  obtain ⟨hoff, hlen, harg⟩ := operandsBelow₃ hw
  show norRead h (at_ _ 0 4) (at_ _ 4 4) (at_ _ 8 4) = _
  rw [at_g1 4 4 4 _ _ _ _ hoff, at_g2 4 4 4 _ _ _ _ hlen, at_g3 4 4 4 _ _ _ _ harg]

theorem bodyOf_norErase {off n : Nat} (hw : wellFormed (.norErase t h off n) = true) :
    bodyOf { op := 0x701, handle := 0, hdr := h, args := leBytes 4 off ++ leBytes 4 n ++ List.replicate 40 0 } = norErase h off n := by
  obtain ⟨hoff, hn⟩ := operandsBelow₂ hw
  show norErase h (at_ _ 0 4) (at_ _ 4 4) = _
  rw [at_f1 4 4 _ _ _ hoff, at_f2 4 4 _ _ _ hn]

theorem bodyOf_norProgram {off len arg : Nat} (hw : wellFormed (.norProgram t h off len arg) = true) :
    bodyOf { op := 0x702, handle := 0, hdr := h, args := leBytes 4 off ++ leBytes 4 len ++ leBytes 4 arg ++ List.replicate 36 0 } =
      norProgram h off len arg := by
  obtain ⟨hoff, hlen, harg⟩ := operandsBelow₃ hw
  show norProgram h (at_ _ 0 4) (at_ _ 4 4) (at_ _ 8 4) = _
  rw [at_g1 4 4 4 _ _ _ _ hoff, at_g2 4 4 4 _ _ _ _ hlen, at_g3 4 4 4 _ _ _ _ harg]

theorem bodyOf_recalibrate {item inst : Nat} (hw : wellFormed (.recalibrate t h item inst []) = true) :
    bodyOf { op := 0x801, handle := 0, hdr := h, args := leBytes 1 item ++ leBytes 1 inst ++ List.replicate 46 0 } = recalibrate item inst [] := by
  obtain ⟨hw, -⟩ := and_true_of hw
  obtain ⟨hitem, hinst⟩ := operandsBelow₂ hw
  show recalibrate (at_ _ 0 1) (at_ _ 1 1) [] = _
  rw [at_f1 1 1 _ _ _ hitem, at_f2 1 1 _ _ _ hinst]

theorem bodyOf_handoverStart {args : List Byte} (hb : at_ args 0 1 = 0) :
    bodyOf { op := 0x600, handle := 0, hdr := h, args := args } = handoverStart h args := by
  show handoverBody h args = _
  funext d
  simp only [handoverBody, hb]

end

/-- A command row does what the meaning of its opcode does on the ARGS area of its entry. -/
theorem exec_eq_row_bodyOf {c : Instr} {h : CmdHdr} {op : Nat} {x : Word} {args : List Byte} (hc : cmdOf c = some (h, op, x)) (hop : op ≠ 4)
    (ha : argsOf c = some args) (hw : wellFormed c = true) (s : State) :
    exec c s = onDev (row (arrival c) h op x (bodyOf { op := op, handle := x, hdr := h, args := args })) s := by
  cases c with
  | nop | query | destroy | stop | actionCancel | ringFlush | ringMark | ringRewind | updateRefresh | updateVerify | updateActivate
  | updateConfirm | updateClose | layerCommit | retime | actionArm | domainSwitch | updateOpen | updateWrite | chkRun | migrateAbort
  | handoverCancel => cases hc; cases ha; rfl
  | setMode => cases hc; exact absurd rfl hop
  | regRead => cases hc; cases ha; rw [bodyOf_regRead hw]; rfl
  | regWrite => cases hc; cases ha; rw [bodyOf_regWrite hw]; rfl
  | ledgerRead => cases hc; cases ha; rw [bodyOf_ledgerRead hw]; rfl
  | governorSet => cases hc; cases ha; rw [bodyOf_governorSet hw]; rfl
  | create => cases hc; cases ha; rw [bodyOf_create hw]; rfl
  | modify => cases hc; cases ha; rw [bodyOf_modify hw]; rfl
  | start => cases hc; cases ha; rw [bodyOf_start hw]; rfl
  | setPriority => cases hc; cases ha; rw [bodyOf_setPriority hw]; rfl
  | admitCheck => cases hc; cases ha; rw [bodyOf_admitCheck hw]; rfl
  | ringRelease => cases hc; cases ha; rw [bodyOf_ringRelease hw]; rfl
  | pxpDiagStatus => cases hc; cases ha; rw [bodyOf_pxpDiagStatus hw]; rfl
  | pxpDiagClear => cases hc; cases ha; rw [bodyOf_pxpDiagClear hw]; rfl
  | pxpDiagProbeNow => cases hc; cases ha; rw [bodyOf_pxpDiagProbeNow hw]; rfl
  | migrateSwitch => cases hc; cases ha; rw [bodyOf_migrateSwitch hw]; rfl
  | norRead => cases hc; cases ha; rw [bodyOf_norRead hw]; rfl
  | norErase => cases hc; cases ha; rw [bodyOf_norErase hw]; rfl
  | norProgram => cases hc; cases ha; rw [bodyOf_norProgram hw]; rfl
  | handoverStart =>
    obtain ⟨hb, rfl⟩ := argsOf_handoverStart ha
    cases hc; rw [bodyOf_handoverStart hb]; rfl
  | recalibrate =>
    obtain ⟨rfl, rfl⟩ := argsOf_recalibrate ha
    cases hc; rw [bodyOf_recalibrate hw]; rfl
  | pxpDiagShortTest | bistSpm | bistPlain | bistPins => cases ha
  | _ => cases hc

/-- SET_MODE to CONFIGURE starts as its entry does, as if FENCE were set, and closes the gate behind it (R55). -/
theorem exec_setMode_of_entry {t : Time} {h : CmdHdr} {target : Nat} {args : List Byte} {s : State} {d : Dev} (hd : AtTime t s d)
    (htarget : at_ args 0 1 = target)
    (hm : cmdMayStart d (entryFence { op := 4, handle := 0, hdr := h, args := args }) 0 = true) :
    exec (.setMode t h target) s =
      .next { s with toDev := closeGate (serve h 4 0 (bodyOf { op := 4, handle := 0, hdr := h, args := args }) d) } := by
  subst htarget hd
  exact onDev_eq (f := runSetMode t h (at_ args 0 1)) (congrArg Host.Outcome.next (if_pos hm))

/-- Settles O21: the bytes of an entry are read back as they were written (`entryOf_entryBytes`), and each row is served as the meaning of its
opcode on its ARGS area (`exec_eq_row_bodyOf`), SET_MODE with its gate. -/
theorem entriesSpellTheirCommands : Obligations.EntriesSpellTheirCommands := by
  intro c h op x args s d hd hc ha hw
  obtain ⟨hop, hx⟩ := cmdOf_fits hc
  have hlen := argsOf_length ha hw
  by_cases h4 : op = 4
  · subst h4
    obtain ⟨t, target, rfl, rfl⟩ := cmdOf_setMode hc
    cases ha
    rw [entryOf_entryBytes h 4 0 _ hop hx]
    exact ⟨entryBytes_length h 4 0 _ hlen, rfl, rfl, rfl, exec_setMode_of_entry hd (at_here 1 _ _ (operandBelow hw))⟩
  · exact entry_row (exec_eq_row_bodyOf hc h4 ha hw s) hd hop h4 hx hlen rfl

end Sys2Proof.Machine
end

section
/-! SUPPORT. CONFIGURE begins once the host has read its completions (R55), and a completion of a command from PCIe stands in the ring (R54, R56). -/

namespace Sys2Proof.Machine

/-! CONFIGURE_BEGIN (R55) -/

/-- The host has read the completion ring up to the completion of the SET_MODE, or, where that came over MGT, all of it. -/
abbrev HostHasRead (g : Gate) (d : Dev) : Prop :=
  let head := fld d F.HDL_CMP_HEAD_HEAD
  let tail := fld d F.HDL_CMP_TAIL_TAIL
  if g.overMgt then head = tail else (tail + 4096 - head) % 4096 ≤ (tail + 4096 - g.past) % 4096

/-- CONFIGURE begins under the gate's condition: no command is left, and the rings are empty. -/
theorem exec_configureBegin {t : Time} {g : Gate} {s : State} {d : Dev} (hd : AtTime t s d) (hg : d.sys.gate = some g) :
    Completes (.configureBegin t) s (if HostHasRead g d ∨ g.at_ + ms 100 ≤ d.raw then
      clearRings (enterConfigure false { d with cmd.outst := [], cmd.mgt := [] }) else d) := by
  refine onDev_eq (f := runConfigureBegin t) ?_
  unfold runConfigureBegin HostHasRead
  dsimp only
  rw [← hd, hg]
  by_cases hm : g.overMgt = true <;> simp [hm]

/-- Settles O7: CONFIGURE_BEGIN acts under the gate's condition alone, and then the mode is entered and the rings are cleared. -/
theorem configureBeginWaitsForTheHost : Obligations.ConfigureBeginWaitsForTheHost := by
  intro t g s d hd hg
  have hc := exec_configureBegin hd hg
  refine ⟨fun h => ?_, fun h => ?_⟩
  · rw [if_pos h] at hc
    obtain ⟨hmode, hprev, hgate⟩ := enterConfigure_shows false { d with cmd.outst := [], cmd.mgt := [] }
    generalize enterConfigure false _ = b at hc hmode hprev hgate
    obtain ⟨hsys, hring⟩ := clearRings_shows b
    rw [← hsys] at hmode hprev hgate
    exact ⟨_, hc, hmode, hprev, hgate, hring⟩
  · rwa [if_neg h] at hc

/-! Completions (R54, R56) -/

@[simp] theorem cmpVector_regs (irq : Bool) (d : Dev) : (cmpVector irq d).regs = d.regs := congrArg (·.regs) (cmpVector_rest irq d)
@[simp] theorem cmpVector_plain (irq : Bool) (d : Dev) : (cmpVector irq d).plain = d.plain := congrArg (·.plain) (cmpVector_rest irq d)
@[simp] theorem mgtComplete_regs (ip port slot : Nat) (b : List Byte) (d : Dev) : (mgtComplete ip port slot b d).regs = d.regs :=
  congrArg (·.regs) (mgtComplete_rest ip port slot b d)
@[simp] theorem mgtComplete_plain (ip port slot : Nat) (b : List Byte) (d : Dev) : (mgtComplete ip port slot b d).plain = d.plain :=
  congrArg (·.plain) (mgtComplete_rest ip port slot b d)
@[simp] theorem relWrite_regs (k a : Nat) (b : List Byte) (d : Dev) : (relWrite k a b d).regs = d.regs := congrArg (·.regs) (relWrite_rest k a b d)
@[simp] theorem complete_nor (h : CmdHdr) (op c : Nat) (x : Word) (b : List Byte) (d : Dev) : (complete h op c x b d).nor = d.nor := by
  rw [complete_rest]
@[simp] theorem complete_objs (h : CmdHdr) (op c : Nat) (x : Word) (b : List Byte) (d : Dev) :
    (complete h op c x b d).hdl.objs = d.hdl.objs := by rw [complete_rest]

/-- The device as a completion meets it: its command is no longer outstanding, and HDL.CMD_DONE has counted it. -/
def cmdCounted (h : CmdHdr) (d : Dev) : Dev := bump R.HDL_CMD_DONE { d with cmd.outst := d.cmd.outst.filter fun e => e.1 != h }

/-- TAIL goes to the next index, and PHASE turns after the last one. -/
def tailAdvanced (d : Dev) : Dev :=
  let tail := fld d F.HDL_CMP_TAIL_TAIL
  let phase := fld d F.HDL_CMP_TAIL_PHASE
  let d := setFld F.HDL_CMP_TAIL_TAIL ((tail + 1) % 4096) d
  if tail = 4095 then setFld F.HDL_CMP_TAIL_PHASE (1 - phase) d else d

theorem tailAdvanced_tail (d : Dev) : fld (tailAdvanced d) F.HDL_CMP_TAIL_TAIL = (fld d F.HDL_CMP_TAIL_TAIL + 1) % 4096 := by
  unfold tailAdvanced
  extract_lets tail phase d1
  have h1 : fld d1 F.HDL_CMP_TAIL_TAIL = (tail + 1) % 4096 := (fld_setFld_self _ _ _ (by decide)).trans (Nat.mod_mod _ _)
  split
  · rw [fld_setFld_disjoint _ _ _ _ (by decide) (by decide), h1]
  · exact h1

theorem tailAdvanced_phase (d : Dev) : fld (tailAdvanced d) F.HDL_CMP_TAIL_PHASE =
    if fld d F.HDL_CMP_TAIL_TAIL = 4095 then 1 - fld d F.HDL_CMP_TAIL_PHASE else fld d F.HDL_CMP_TAIL_PHASE := by
  unfold tailAdvanced
  extract_lets tail phase d1
  have h1 : fld d1 F.HDL_CMP_TAIL_PHASE = phase := fld_setFld_disjoint _ _ _ _ (by decide) (by decide)
  split
  · rw [fld_setFld_self _ _ _ (by decide)]
    exact Nat.mod_eq_of_lt (by show 1 - phase < 2; omega)
  · exact h1

/-- A completion of a command from PCIe is written at TAIL, which then advances. -/
theorem complete_of_pcie {h : CmdHdr} (hs : h.src = .pcie) (op c : Nat) (x : Word) (b : List Byte) (d : Dev) :
    complete h op c x b d = cmpVector h.irq (cmpFull (tailAdvanced (relWrite ringKey (4 * pageBytes + 32 * fld d F.HDL_CMP_TAIL_TAIL)
      (cmpEntry c (fld d F.HDL_CMP_TAIL_PHASE) op h x b) (cmdCounted h d)))) := by
  have ht : fld (cmdCounted h d) F.HDL_CMP_TAIL_TAIL = fld d F.HDL_CMP_TAIL_TAIL := fld_bump_off _ _ _ (by decide)
  have hp : fld (cmdCounted h d) F.HDL_CMP_TAIL_PHASE = fld d F.HDL_CMP_TAIL_PHASE := fld_bump_off _ _ _ (by decide)
  unfold complete tailAdvanced
  rw [hs]
  simp only [fld_congr (relWrite_regs _ _ _ _)]
  rw [← ht, ← hp]
  rfl

/-- A completion of a command from MGT joins its datagram's reply. -/
theorem complete_of_mgt {h : CmdHdr} {ip port : Nat} (hs : h.src = .mgt ip port) (op c : Nat) (x : Word) (b : List Byte) (d : Dev) :
    complete h op c x b d = mgtComplete ip port h.slot (cmpEntry c 0 op { h with slot := h.slot % 16 } x b) (cmdCounted h d) := by
  unfold complete
  rw [hs]
  rfl

theorem cmdCounted_count (h : CmdHdr) (d : Dev) :
    rg (cmdCounted h d) R.HDL_CMD_DONE = BitVec.ofNat 32 (min ((rg d R.HDL_CMD_DONE).toNat + 1) 0xFFFFFFFF) := rg_bump_self _ _

theorem tailAdvanced_keepsReg {o : Nat} (ho : o ≠ R.HDL_CMP_TAIL) (d : Dev) : rg (tailAdvanced d) o = rg d o := by
  unfold tailAdvanced
  dsimp only
  split
  · rw [rg_setFld_ne _ _ _ ho, rg_setFld_ne _ _ _ ho]
  · rw [rg_setFld_ne _ _ _ ho]

@[simp] theorem tailAdvanced_plain (d : Dev) : (tailAdvanced d).plain = d.plain := by
  unfold tailAdvanced
  dsimp only
  split <;> simp

/-- Every completion is counted once. -/
theorem complete_counts (h : CmdHdr) (op c : Nat) (x : Word) (b : List Byte) (d : Dev) :
    rg (complete h op c x b d) R.HDL_CMD_DONE = BitVec.ofNat 32 (min ((rg d R.HDL_CMD_DONE).toNat + 1) 0xFFFFFFFF) := by
  rw [← cmdCounted_count h d]
  cases hs : h.src with
  | pcie =>
    rw [complete_of_pcie hs, rg_congr (cmpVector_regs _ _), cmpFull, rg_setBit_ne _ _ _ (by decide), tailAdvanced_keepsReg (by decide),
      rg_congr (relWrite_regs _ _ _ _)]
  | mgt ip port => rw [complete_of_mgt hs, rg_congr (mgtComplete_regs _ _ _ _ _)]

theorem complete_tail {h : CmdHdr} (hs : h.src = .pcie) (op c : Nat) (x : Word) (b : List Byte) (d : Dev) :
    fld (complete h op c x b d) F.HDL_CMP_TAIL_TAIL = (fld d F.HDL_CMP_TAIL_TAIL + 1) % 4096 := by
  rw [complete_of_pcie hs, fld_congr (cmpVector_regs _ _), cmpFull, fld_setBit_off _ _ _ _ (by decide), tailAdvanced_tail,
    fld_congr (relWrite_regs _ _ _ _), cmdCounted, fld_bump_off _ _ _ (by decide)]
  rfl

theorem complete_phase {h : CmdHdr} (hs : h.src = .pcie) (op c : Nat) (x : Word) (b : List Byte) (d : Dev) :
    fld (complete h op c x b d) F.HDL_CMP_TAIL_PHASE =
      if fld d F.HDL_CMP_TAIL_TAIL = 4095 then 1 - fld d F.HDL_CMP_TAIL_PHASE else fld d F.HDL_CMP_TAIL_PHASE := by
  rw [complete_of_pcie hs, fld_congr (cmpVector_regs _ _), cmpFull, fld_setBit_off _ _ _ _ (by decide), tailAdvanced_phase,
    fld_congr (relWrite_regs _ _ _ _), fld_congr (relWrite_regs _ _ _ _), cmdCounted, fld_bump_off _ _ _ (by decide),
    fld_bump_off _ _ _ (by decide)]
  rfl

/-- A write at a handle-relative address of a mapped page writes those bytes of the page and no other byte of the Plain. -/
theorem relWrite_bytes {k a : Nat} {bs : List Byte} {d : Dev} {p : Pte} (hp : pteAt d k (a / pageBytes) = some p) :
    plainBytes (relWrite k a bs d) (p.ppn * pageBytes + a % pageBytes) bs.length = bs ∧
    ∀ x, x < p.ppn * pageBytes + a % pageBytes ∨ p.ppn * pageBytes + a % pageBytes + bs.length ≤ x →
      plainByte (relWrite k a bs d) x = plainByte d x := by
  unfold relWrite
  rw [hp]
  exact ⟨plainBytes_plainWrite _ _ _, fun x hx => plainByte_plainWrite_out _ _ _ x hx⟩

/-- The 32 bytes of a completion stand at TAIL in the ring's page, and every other byte of the Plain is as it was. -/
theorem complete_bytes {h : CmdHdr} (hs : h.src = .pcie) (op c : Nat) (x : Word) (d : Dev) {p : Pte}
    (hp : pteAt d ringKey (4 + 32 * fld d F.HDL_CMP_TAIL_TAIL / 65536) = some p) :
    let a := p.ppn * 65536 + 32 * fld d F.HDL_CMP_TAIL_TAIL % 65536
    plainBytes (complete h op c x [] d) a 32 = cmpEntry c (fld d F.HDL_CMP_TAIL_PHASE) op h x [] ∧
    ∀ y, y < a ∨ a + 32 ≤ y → plainByte (complete h op c x [] d) y = plainByte d y := by
  have hpage : (4 * pageBytes + 32 * fld d F.HDL_CMP_TAIL_TAIL) / pageBytes = 4 + 32 * fld d F.HDL_CMP_TAIL_TAIL / 65536 := by
    simp only [pageBytes]; omega
  have hoff : (4 * pageBytes + 32 * fld d F.HDL_CMP_TAIL_TAIL) % pageBytes = 32 * fld d F.HDL_CMP_TAIL_TAIL % 65536 := by
    simp only [pageBytes]; omega
  have hw := relWrite_bytes (k := ringKey) (bs := cmpEntry c (fld d F.HDL_CMP_TAIL_PHASE) op h x []) (d := cmdCounted h d) (hpage ▸ hp)
  have hplain : (complete h op c x [] d).plain = (relWrite ringKey (4 * pageBytes + 32 * fld d F.HDL_CMP_TAIL_TAIL)
      (cmpEntry c (fld d F.HDL_CMP_TAIL_PHASE) op h x []) (cmdCounted h d)).plain := by
    simp [complete_of_pcie hs, cmpFull, setBit]
  rw [hoff, cmpEntry_length] at hw
  simp only [plainBytes, plainByte, hplain]
  exact hw

theorem complete_mgt_keeps {h : CmdHdr} (hs : h.src ≠ .pcie) (op c : Nat) (x : Word) (b : List Byte) (d : Dev) :
    rg (complete h op c x b d) R.HDL_CMP_TAIL = rg d R.HDL_CMP_TAIL ∧ (complete h op c x b d).plain = d.plain := by
  cases hm : h.src with
  | pcie => exact absurd hm hs
  | mgt ip port =>
    rw [complete_of_mgt hm]
    exact ⟨(rg_congr (mgtComplete_regs _ _ _ _ _) _).trans (rg_bump_ne _ (by decide)), mgtComplete_plain _ _ _ _ _⟩

/-- Settles O10: a served NOP is its completion alone, which the rules of `complete` describe. -/
theorem nopPostsOneCompletion : Obligations.NopPostsOneCompletion := by
  intro t h s d hd hs
  have hc : Answers (.nop t h) s h 0 0 [] d := row_answers (fun _ => rfl) hd hs rfl
  refine ⟨_, hc, hc, complete_sys _ _ _ _ _ _, complete_nor _ _ _ _ _ _, complete_objs _ _ _ _ _ _, complete_counts _ _ _ _ _ _,
    fun o ho => complete_keepsReg ho _ _ _ _ _ _, fun hp => ?_, fun hm => complete_mgt_keeps hm _ _ _ _ _⟩
  exact ⟨complete_tail hp _ _ _ _ _, complete_phase hp _ _ _ _ _, fun p hpte => complete_bytes hp 0 rcDone 0 d hpte⟩

end Sys2Proof.Machine
end

section
/-! SUPPORT. QUERY, REG_READ and LEDGER_READ (R48, R59, R63), and the governor with its AVSBus (R72, R73). -/

namespace Sys2Proof.Machine

/-! Reads (R48, R59, R63) -/

/-- What QUERY shows first of an object: its state, class and priority where it is a channel. -/
def queryHead (handle : Word) (o : HObj) : List Byte :=
  if hKind handle ≤ 9 then leBytes 1 o.state ++ leBytes 1 o.cls ++ leBytes 1 o.prio else [0, 0, 0]

/-- The DATA bytes that QUERY answers of an object: its head, its pinned pages, and what its kind shows. -/
def queryData (handle : Word) (o : HObj) (d : Dev) : List Byte :=
  queryHead handle o ++ [0] ++ leBytes 4 (pinnedOf d (hKey handle)) ++ fit 8 (kindQuery d (hKind handle) (hIndex handle))

theorem queryBody_none {handle : Word} {d : Dev} (ho : objOf d handle = none) : queryBody handle d = (d, fails handle rcBadHandle) := by
  simp only [queryBody, ho]

theorem queryBody_some {handle : Word} {o : HObj} {d : Dev} (ho : objOf d handle = some o) :
    queryBody handle d = (d, done handle (queryData handle o d)) := by
  unfold queryBody queryData queryHead
  rw [ho]
  by_cases hk : hKind handle ≤ 9
  · simp [hk]
  · simp [hk]
    rfl

@[simp] theorem queryHead_length (handle : Word) (o : HObj) : (queryHead handle o).length = 3 := by
  unfold queryHead
  split <;> simp [leBytes_length]

theorem queryData_length (handle : Word) (o : HObj) (d : Dev) : (queryData handle o d).length = 16 := by
  simp [queryData, leBytes_length, fit_length]

theorem queryData_head (handle : Word) (o : HObj) (d : Dev) : (queryData handle o d).take 3 = queryHead handle o := by
  simp only [queryData, List.append_assoc]
  exact List.take_left' (queryHead_length handle o)

theorem queryData_pinned (handle : Word) (o : HObj) (d : Dev) :
    ((queryData handle o d).drop 4).take 4 = leBytes 4 (pinnedOf d (hKey handle)) := by
  rw [queryData, List.append_assoc, List.drop_left' (by simp)]
  exact List.take_left' (leBytes_length _ _)

/-- Below QUE's block no register acts when it is read. -/
theorem readReg_shows {off : Nat} (h : off < 0x70000) (d : Dev) : readReg off d = (d, regShow d off) := by
  unfold readReg
  split
  · rename_i hup
    simp [regShow, hup]
  · rw [if_neg (by simp only [R.QUE_POP_LO]; omega), if_neg (by simp only [R.EVT_CAP_NS]; omega), if_neg (by simp only [R.MAC_CNT_LO]; omega)]

theorem readRegs_one {off : Nat} (h : off < 0x70000) (d : Dev) : readRegs off 1 d = (d, leBytes 4 (regShow d off).toNat) := by
  simp [readRegs, readReg_shows h]

theorem regReadBody_inside {off count : Nat} (h : off % 4 = 0 ∧ count ≤ 4 ∧ off + 4 * count ≤ 0x1000000) (d : Dev) :
    regReadBody off count d = ((readRegs off count d).1, done 0 (readRegs off count d).2) := if_neg (by omega)

theorem regReadBody_outside {off count : Nat} (h : ¬(off % 4 = 0 ∧ count ≤ 4 ∧ off + 4 * count ≤ 0x1000000)) (d : Dev) :
    regReadBody off count d = (d, fails 0 rcOutOfRange) := if_pos (by omega)

theorem ledgerBody_inside {line : Nat} (h : line ≤ 28) (d : Dev) :
    ledgerBody line d = (d, done 0 (leBytes 4 (capOf d line) ++ leBytes 4 (usedOf d line) ++ leBytes 4 (chargedOn d line))) :=
  if_neg (Nat.not_lt.mpr h)

theorem ledgerBody_outside {line : Nat} (h : 28 < line) (d : Dev) : ledgerBody line d = (d, fails 0 rcOutOfRange) := if_pos h

/-- Settles O11: each of the three rows is its body, which answers what stands or a refusal. -/
theorem readsAnswerWhatTheyRead : Obligations.ReadsAnswerWhatTheyRead := by
  intro t h handle off count line s d hd
  refine ⟨fun hs => ⟨fun ho => ?_, fun o ho => ?_⟩, fun hs => ⟨fun h4 hn hin => ?_, fun h4 hin => ?_, fun hout => ?_⟩,
    fun hs => ⟨fun hl => ?_, fun hl => ?_⟩⟩
  · exact row_fails (fun _ => rfl) hd hs (queryBody_none ho)
  · exact ⟨queryData handle o d, row_answers (fun _ => rfl) hd hs (queryBody_some ho), queryData_length _ _ _, queryData_head _ _ _,
      queryData_pinned _ _ _⟩
  · exact ⟨row_answers (fun _ => rfl) hd hs (regReadBody_inside ⟨h4, hn, hin⟩ d), readRegs_length _ _ _⟩
  · have hb := regReadBody_inside (off := off) (count := 1) (by omega) d
    rw [readRegs_one hin] at hb
    exact row_answers (fun _ => rfl) hd hs hb
  · exact row_fails (fun _ => rfl) hd hs (regReadBody_outside hout d)
  · exact row_answers (fun _ => rfl) hd hs (ledgerBody_inside hl d)
  · exact row_fails (fun _ => rfl) hd hs (ledgerBody_outside hl d)

/-! The governor (R72) -/

theorem exec_governorReading {t : Time} {m : List Nat} {s : State} {d : Dev} (hd : AtTime t s d) (hr : timeRuns d = true) :
    Completes (.governorReading t m) s (if m.length = 64 then govReading m d else d) := by
  subst hd
  refine onDev_eq (f := runGovernorReading t m) ?_
  simp [runGovernorReading, hr]

/-- A write that waits for its acknowledgement stays the one that waits. -/
theorem govReading_write_waits {m : List Nat} {d : Dev} (h : d.hdl.avsWrite.isSome = true) : (govReading m d).hdl.avsWrite = d.hdl.avsWrite := by
  rw [govReading_avs m d _ rfl, h]
  rfl

/-- With no write waiting, a reading of `x` asks for the VCORE of R72 steps 2 to 4, and for none where that is VCORE. -/
theorem govReading_write_asked {m : List Nat} {d : Dev} {x : Nat} (hx : fld (govReading m d) F.HDL_SPEED_INDEX = x)
    (h : d.hdl.avsWrite = none) : (govReading m d).hdl.avsWrite = if vcoreWant d x = vcore d then none else some (vcoreWant d x) := by
  rw [govReading_avs m d x hx, h]
  simp

theorem vcoreWant_within {d : Dev} (hlo : 650 ≤ vcore d) (hhi : vcore d ≤ 850) (x : Nat) : vcoreWant d x =
    if x < 0x10A then min 850 (vcore d + 20) else if x < fld d F.HDL_GOV_TARGET_TARGET then min 850 (vcore d + 5)
      else if fld d F.HDL_GOV_TARGET_TARGET + 5 < x then max 650 (vcore d - 5) else vcore d := want_eq x _ _ hlo hhi

/-! AVSBus (R73) -/

theorem exec_avsbusTransactionDone {t : Time} {acked : Bool} {mv : Nat} {s : State} {d : Dev} (hd : AtTime t s d) (hr : timeRuns d = true) :
    Completes (.avsbusTransactionDone t acked mv) s (avsDone acked mv d) := by
  subst hd
  refine onDev_eq (f := runAvsbusTransactionDone t acked mv) ?_
  simp [runAvsbusTransactionDone, hr]

/-- An acknowledged transaction puts the value written, where it wrote one, and the value read in force. -/
theorem avsDone_acked (mv : Nat) (d : Dev) :
    (avsDone true mv d).hdl.avsWrite = none ∧ (avsDone true mv d).hdl.avsFails = 0 ∧
    fld (avsDone true mv d) F.HDL_VCORE_SET_MV = (match d.hdl.avsWrite with | some v => v % 1024 | none => fld d F.HDL_VCORE_SET_MV) ∧
    fld (avsDone true mv d) F.HDL_VCORE_READ_MV = mv % 1024 ∧ ∀ o, o ≠ R.HDL_VCORE → rg (avsDone true mv d) o = rg d o := by
  cases hw : d.hdl.avsWrite with
  | none =>
    obtain ⟨x, he, hx, hregs, -⟩ := avsDone_none mv d hw
    rw [he]
    exact ⟨hx, rfl, (fld_setFld_disjoint _ _ _ _ (by decide) (by decide)).trans (fld_congr hregs _), fld_setFld_self _ _ _ (by decide),
      fun o ho => (rg_setFld_ne _ _ _ ho).trans (rg_congr hregs o)⟩
  | some v =>
    obtain ⟨x, he, hx, hset, hregs⟩ := avsDone_some mv d v hw
    rw [he]
    exact ⟨hx, rfl, (fld_setFld_disjoint _ _ _ _ (by decide) (by decide)).trans hset, fld_setFld_self _ _ _ (by decide),
      fun o ho => (rg_setFld_ne _ _ _ ho).trans (hregs o ho)⟩

/-- A failed transaction is counted and leaves VCORE; the third in a row is an AVS_FAIL. -/
theorem avsDone_unacked (mv : Nat) (d : Dev) :
    (avsDone false mv d).hdl.avsWrite = none ∧ (avsDone false mv d).hdl.avsFails = d.hdl.avsFails + 1 ∧
    rg (avsDone false mv d) R.HDL_VCORE = rg d R.HDL_VCORE ∧
    (rg (avsDone false mv d) R.SUP_AVS_ERRORS).toNat = min ((rg d R.SUP_AVS_ERRORS).toNat + 1) 0xFFFFFFFF ∧
    bitOf (avsDone false mv d) F.HDL_STATUS_AVS_FAIL = (bitOf d F.HDL_STATUS_AVS_FAIL || decide (d.hdl.avsFails = 2)) := by
  obtain ⟨w, he, hwrite, hfails, hregs, herr⟩ := avsDone_failed mv d
  rw [he]
  by_cases h3 : d.hdl.avsFails + 1 = 3
  · have h2 : d.hdl.avsFails = 2 := by omega
    have hkeep : ∀ o, o ∉ postCounters → o ≠ R.HDL_STATUS → rg (postGov 2 0x07 0xFF (setBit F.HDL_STATUS_AVS_FAIL true w)) o = rg w o :=
      fun o hp ho => (postGov_keepsReg hp _ _ _ _).trans (rg_setBit_ne _ _ _ ho)
    have hfail : bitOf (postGov 2 0x07 0xFF (setBit F.HDL_STATUS_AVS_FAIL true w)) F.HDL_STATUS_AVS_FAIL = true :=
      (keepsReg_bitOf _ (postGov_status _ _ _ _)).trans (bitOf_setBit_self _ _ _ (by decide) (by decide))
    rw [if_pos h3, postGov_hdl, hkeep _ (by decide) (by decide), hkeep _ (by decide) (by decide), hfail]
    exact ⟨hwrite, hfails, hregs _ (by decide), herr, by simp [h2]⟩
  · have h2 : d.hdl.avsFails ≠ 2 := by omega
    rw [if_neg h3]
    exact ⟨hwrite, hfails, hregs _ (by decide), herr, by simp [h2, keepsReg_bitOf F.HDL_STATUS_AVS_FAIL (hregs _ (by decide))]⟩

/-- Settles O22: a reading shows its lowest monitor and acts by it, and a transaction puts its values in force or counts as a failure. -/
theorem governorFollowsTheSpeedIndex : Obligations.GovernorFollowsTheSpeedIndex := by
  intro t m acked mv s d hd hr
  have hread := exec_governorReading (m := m) hd hr
  refine ⟨fun hlen => ?_, fun hlen => ?_, fun ha => ?_, fun ha => ?_⟩
  · rwa [if_neg hlen] at hread
  · rw [if_pos hlen] at hread
    obtain ⟨i, hi, hmin, hindex, hmon, hrisk, hbroken⟩ := govReading_shows m d hlen
    refine ⟨_, i, hread, hi, hmin, hindex, hmon, fld_ext _ (govReading_keepsReg (by decide) (by decide) m d),
      fld_ext _ (govReading_keepsReg (by decide) (by decide) m d), hrisk, hbroken, govReading_write_waits, fun hnone hlo hhi => ?_⟩
    rw [govReading_write_asked hindex hnone, vcoreWant_within hlo hhi]
  · subst ha
    exact ⟨_, exec_avsbusTransactionDone hd hr, avsDone_acked mv d⟩
  · subst ha
    exact ⟨_, exec_avsbusTransactionDone hd hr, avsDone_unacked mv d⟩

end Sys2Proof.Machine
end

section
/-! SUPPORT. The doorbells of the command interface (R53-R55): which entry of the command ring starts after a write of HDL.CMD_TAIL or
HDL.CMP_HEAD. -/

namespace Sys2Proof.Machine

/-- Two devices that differ in their registers alone. -/
abbrev RegsApart (d e : Dev) : Prop := ({ e with regs := [] } : Dev) = { d with regs := [] }

/-- The command ring with its head entry taken. -/
def headTaken (d : Dev) : Dev := setFld F.HDL_CMD_HEAD_HEAD ((fld d F.HDL_CMD_HEAD_HEAD + 1) % 4096) d

theorem headTaken_head (d : Dev) : fld (headTaken d) F.HDL_CMD_HEAD_HEAD = (fld d F.HDL_CMD_HEAD_HEAD + 1) % 4096 :=
  (fld_setFld_self _ _ _ (by decide)).trans (Nat.mod_mod _ _)

theorem headTaken_keepsReg {o : Nat} (ho : o ≠ R.HDL_CMD_HEAD) (d : Dev) : rg (headTaken d) o = rg d o := rg_setFld_ne _ _ _ ho

/-- The one entry that waits in the command ring starts, where it may, and what MGT holds follows; `d` is the device as it stood before a write
of a register. -/
theorem pump_ring_entry {d e : Dev} {x : Entry} (he : RegsApart d e) (hhead : fld e F.HDL_CMD_HEAD_HEAD = fld d F.HDL_CMD_HEAD_HEAD)
    (hone : (fld d F.HDL_CMD_HEAD_HEAD + 1) % 4096 = fld e F.HDL_CMD_TAIL_TAIL) (hm : d.cmd.mgt = []) (hup : cmdUp d = true)
    (hx : x = entryOf .pcie (fld d F.HDL_CMD_HEAD_HEAD) (relRead d ringKey (64 * fld d F.HDL_CMD_HEAD_HEAD) 64))
    (hf : cmdFree d (entryFence x) x.handle = true) (hr : cmpRoom e = true) :
    pump e = pumpMgt (closeGate (serve x.hdr x.op x.handle (bodyOf x) (headTaken e))) := by
  have hsys : e.sys = d.sys := congrArg (·.sys) he
  have hcmd : e.cmd = d.cmd := congrArg (·.cmd) he
  refine pump_one (s := e) (x := x) (by rw [hhead, hone]) (by rw [hcmd, hm]) (by rw [cmdUp_ext hsys, hup]) ?_ (by rw [cmdFree_ext hsys hcmd, hf]) hr
  rw [hx, hhead, relRead_ext (a := e) (b := d) (congrArg (·.plain) he) (congrArg (·.pln) he)]

/-! CMD_DOORBELL (R53) -/

theorem exec_cmdDoorbell {t : Time} (v : Word) {s : State} {d : Dev} (hd : AtTime t s d) (hup : pcieUp d = true)
    (hw : bar0Writable d R.HDL_CMD_TAIL = true) : Completes (.cmdDoorbell t v) s (pump (storeReg R.HDL_CMD_TAIL v d)) := by
  subst hd
  refine onDev_eq (f := runCmdDoorbell t v) ?_
  have hplain := writeReg_plain (v := v) hw (by decide)
  simp only [runCmdDoorbell, hup, hw, Bool.and_self, if_true, hplain]
  rfl

theorem tail_written (v : Word) (d : Dev) : fld (storeReg R.HDL_CMD_TAIL v d) F.HDL_CMD_TAIL_TAIL = v.toNat % 4096 :=
  fld_head_store R.HDL_CMD_TAIL v d F.HDL_CMD_TAIL_TAIL ⟨0x60004, 1, 0, 1, 0, 0, 0xfff, 0, 0, 0⟩ rfl rfl rfl rfl

theorem head_beside_tail (v : Word) (d : Dev) : fld (storeReg R.HDL_CMD_TAIL v d) F.HDL_CMD_HEAD_HEAD = fld d F.HDL_CMD_HEAD_HEAD :=
  fld_storeReg_ne d _ v _ (by decide)

theorem cmpRoom_beside_tail (v : Word) (d : Dev) : cmpRoom (storeReg R.HDL_CMD_TAIL v d) = cmpRoom d :=
  cmpRoom_ext (fld_storeReg_ne d _ v _ (by decide)) (fld_storeReg_ne d _ v _ (by decide)) (storeReg_cmd _ v d)

@[simp] theorem storeReg_sys (o : Nat) (v : Word) (d : Dev) : (storeReg o v d).sys = d.sys := congrArg (·.sys) (storeReg_rest o v d)

/-! CMP_HEAD_WRITE (R54) -/

/-- The device after a write of HDL.CMP_HEAD: the bits are taken, and CMP_FULL follows the ring. -/
def cmpHeadMoved (v : Word) (d : Dev) : Dev := cmpFull (storeReg R.HDL_CMP_HEAD v d)

theorem exec_cmpHeadWrite {t : Time} (v : Word) {s : State} {d : Dev} (hd : AtTime t s d) (hup : pcieUp d = true)
    (hw : bar0Writable d R.HDL_CMP_HEAD = true) : Completes (.cmpHeadWrite t v) s (pump (cmpHeadMoved v d)) := by
  subst hd
  refine onDev_eq (f := runCmpHeadWrite t v) ?_
  simp only [runCmpHeadWrite, hup, hw, Bool.and_self, if_true, writeReg]
  rfl

theorem cmpHead_written (v : Word) (d : Dev) : fld (storeReg R.HDL_CMP_HEAD v d) F.HDL_CMP_HEAD_HEAD = v.toNat % 4096 :=
  fld_head_store R.HDL_CMP_HEAD v d F.HDL_CMP_HEAD_HEAD ⟨0x60014, 1, 0, 1, 0, 0, 0xfff, 0, 0, 0⟩ rfl rfl rfl rfl

theorem cmpHeadMoved_rest (v : Word) (d : Dev) : RegsApart d (cmpHeadMoved v d) := storeReg_rest R.HDL_CMP_HEAD v d

@[simp] theorem cmpHeadMoved_cmd (v : Word) (d : Dev) : (cmpHeadMoved v d).cmd = d.cmd := congrArg (·.cmd) (cmpHeadMoved_rest v d)
@[simp] theorem cmpHeadMoved_plain (v : Word) (d : Dev) : (cmpHeadMoved v d).plain = d.plain := congrArg (·.plain) (cmpHeadMoved_rest v d)
@[simp] theorem cmpHeadMoved_sys (v : Word) (d : Dev) : (cmpHeadMoved v d).sys = d.sys := congrArg (·.sys) (cmpHeadMoved_rest v d)

theorem cmpHeadMoved_keepsReg {o : Nat} (ho : o ≠ R.HDL_CMP_HEAD) (hs : o ≠ R.HDL_STATUS) (v : Word) (d : Dev) :
    rg (cmpHeadMoved v d) o = rg d o := (rg_setBit_ne _ _ _ hs).trans (rg_storeReg_ne v d ho)

theorem cmpHeadMoved_keepsFld {f : Fld} (ho : f.off ≠ R.HDL_CMP_HEAD) (hs : f.off ≠ R.HDL_STATUS) (v : Word) (d : Dev) :
    fld (cmpHeadMoved v d) f = fld d f := fld_ext f (cmpHeadMoved_keepsReg ho hs v d)

theorem cmpHeadMoved_head (v : Word) (d : Dev) : fld (cmpHeadMoved v d) F.HDL_CMP_HEAD_HEAD = v.toNat % 4096 :=
  (fld_setBit_off _ _ _ _ (by decide)).trans (cmpHead_written v d)

theorem cmpHeadMoved_held (v : Word) (d : Dev) :
    cmpHeld (cmpHeadMoved v d) = (fld d F.HDL_CMP_TAIL_TAIL + 4096 - v.toNat % 4096) % 4096 := by
  rw [cmpHeld, cmpHeadMoved_head, cmpHeadMoved_keepsFld (by decide) (by decide)]

theorem cmpHeadMoved_full (v : Word) (d : Dev) : bitOf (cmpHeadMoved v d) F.HDL_STATUS_CMP_FULL =
    decide ((fld d F.HDL_CMP_TAIL_TAIL + 4096 - v.toNat % 4096) % 4096 = 4095) := by
  have hheld : cmpHeld (storeReg R.HDL_CMP_HEAD v d) = (fld d F.HDL_CMP_TAIL_TAIL + 4096 - v.toNat % 4096) % 4096 := by
    rw [cmpHeld, cmpHead_written, fld_storeReg_ne d _ v _ (by decide)]
  rw [cmpHeadMoved, cmpFull, bitOf_setBit_self _ _ _ (by decide) (by decide), hheld]
  exact decide_eq_decide.mpr (by omega)

/-- With no command outstanding there is room for a completion unless the ring holds 4,095. -/
theorem cmpRoom_cmpHeadMoved {v : Word} {d : Dev} (ho : d.cmd.outst = [])
    (hroom : (fld d F.HDL_CMP_TAIL_TAIL + 4096 - v.toNat % 4096) % 4096 < 4095) : cmpRoom (cmpHeadMoved v d) = true := by
  simp only [cmpRoom, cmpHeadMoved_held, cmpHeadMoved_cmd, ho, List.filter_nil, List.length_nil, Nat.add_zero, hroom, decide_true]

/-- Settles O19: after either write `pump` starts the one entry that waits and may start (`pump_ring_entry`), and nothing where none does. -/
theorem doorbellsServeTheRing : Obligations.DoorbellsServeTheRing := by
  intro t v x s d hd hup hm
  refine ⟨fun hw => ?_, fun hw ho _ => ?_⟩
  · have hc := exec_cmdDoorbell v hd hup hw
    refine ⟨fun hempty => ?_, fun hone hcmd hx => ⟨fun hf hr => ?_, fun hr => ?_⟩⟩
    · rw [pump_idle (waiting_none (by rw [head_beside_tail, tail_written, hempty]) (by rw [storeReg_cmd, hm]))] at hc
      exact ⟨_, hc, tail_written v d, storeReg_plain _ v d, storeReg_sys _ v d, fun o ho => rg_storeReg_ne v d ho⟩
    · rw [pump_ring_entry (storeReg_rest R.HDL_CMD_TAIL v d) (head_beside_tail v d) (by rw [tail_written, hone]) hm hcmd hx hf
        (by rw [cmpRoom_beside_tail, hr])] at hc
      refine ⟨_, hc, ?_, ?_, storeReg_plain _ v d, storeReg_sys _ v d, storeReg_hdl _ v d, fun o ht hh => ?_⟩
      · rw [headTaken_head, head_beside_tail, hone]
      · rw [fld_ext _ (headTaken_keepsReg (by decide) _), tail_written]
      · rw [headTaken_keepsReg hh, rg_storeReg_ne v d ht]
    · rw [pump_full (by rw [head_beside_tail, tail_written, hone]) (by rw [storeReg_cmd, hm]) (by rw [cmpRoom_beside_tail, hr])] at hc
      exact ⟨_, hc, tail_written v d, fun o ho => rg_storeReg_ne v d ho⟩
  · have hc := exec_cmpHeadWrite v hd hup hw
    have hhead : fld (cmpHeadMoved v d) F.HDL_CMD_HEAD_HEAD = fld d F.HDL_CMD_HEAD_HEAD := cmpHeadMoved_keepsFld (by decide) (by decide) v d
    have htail : fld (cmpHeadMoved v d) F.HDL_CMD_TAIL_TAIL = fld d F.HDL_CMD_TAIL_TAIL := cmpHeadMoved_keepsFld (by decide) (by decide) v d
    refine ⟨fun hempty => ?_, fun hone hcmd hx hf hroom => ?_⟩
    · rw [pump_idle (waiting_none (by rw [hhead, htail, hempty]) (by rw [cmpHeadMoved_cmd, hm]))] at hc
      exact ⟨_, hc, cmpHeadMoved_head v d, cmpHeadMoved_full v d, cmpHeadMoved_plain v d, cmpHeadMoved_sys v d,
        fun o hh hs => cmpHeadMoved_keepsReg hh hs v d⟩
    · rw [pump_ring_entry (cmpHeadMoved_rest v d) hhead (by rw [htail, hone]) hm hcmd hx hf (cmpRoom_cmpHeadMoved ho hroom)] at hc
      refine ⟨_, hc, ?_, ?_, cmpHeadMoved_plain v d, cmpHeadMoved_sys v d⟩
      · rw [headTaken_head, hhead, hone]
      · rw [keepsReg_bitOf _ (headTaken_keepsReg (by decide) _), cmpHeadMoved_full]
        exact decide_eq_false (by omega)

end Sys2Proof.Machine
end

section
/-! SUPPORT. MGT's datagrams (R55, R58), which are dropped, not heard or served entry by entry, and the paced completion vector (R56). -/

namespace Sys2Proof.Machine

/-! MGT_COMMAND_DATAGRAM (R58) -/

theorem exec_mgtCommandDatagram {t : Time} (ip port : Nat) (b : List Byte) {s : State} {d : Dev} (hd : AtTime t s d) :
    Completes (.mgtCommandDatagram t ip port b) s (if cmdUp d = true ∧ (portAt d 16).link = 2 then mgtRx ip port b d else d) := by
  subst hd
  refine onDev_eq (f := runMgtCommandDatagram t ip port b) ?_
  simp [runMgtCommandDatagram]

theorem mgtRx_dropped {b : List Byte} {d : Dev} (h : mgtWellFormed b = false ∨ d.sys.gate.isSome = true) (ip port : Nat) :
    mgtRx ip port b d = bump R.HDL_MGT_DROPS d := if_pos (by simpa using h)

theorem mgtRx_heard {b : List Byte} {d : Dev} (hb : mgtWellFormed b = true) (hg : d.sys.gate = none) (ip port : Nat) :
    mgtRx ip port b d = if mgtHost d ip then pump { d with cmd.mgt := d.cmd.mgt ++ [mgtRequest d ip port b] } else d :=
  if_neg (by simp [hb, hg])

/-- A datagram whose one entry has not started is the next of MGT. -/
theorem mgtEntry_single {m : MgtReq} {k : Nat} {e : List Byte} (ht : m.todo = [(k, e)]) {d : Dev} (hm : d.cmd.mgt = [m]) :
    mgtEntry d = some (m, entryOf (.mgt m.ip m.port) k e) := by
  simp [mgtEntry, hm, ht]

/-- With the command ring empty, the one entry of the one datagram starts where it may. -/
theorem pump_datagram {m : MgtReq} {k : Nat} {e : List Byte} (ht : m.todo = [(k, e)]) {d : Dev} (hm : d.cmd.mgt = [m])
    (hempty : fld d F.HDL_CMD_HEAD_HEAD = fld d F.HDL_CMD_TAIL_TAIL) {x : Entry} (hx : entryOf (.mgt m.ip m.port) k e = x)
    (hf : cmdFree d (entryFence x) x.handle = true) : pump d = startDatagram m x d := by
  have hone : waiting d = 1 := by simp [waiting, hm, ht, hempty]
  rw [pump, hone]
  show pumpMgt (pumpRing d) = _
  rw [pumpRing_none hempty, pumpMgt, mgtEntry_single ht hm, hx]
  exact if_pos hf

/-- The completion of the last entry of the one datagram sends its reply. -/
theorem mgtComplete_last {m : MgtReq} {slot : Nat} (ht : m.todo = []) (ho : m.open_ = [slot]) {d : Dev} (hm : d.cmd.mgt = [m]) (entry : List Byte) :
    mgtComplete m.ip m.port slot entry d = mgtReply { m with open_ := [], done := m.done ++ [entry] } { d with cmd.mgt := [] } := by
  simp [mgtComplete, hm, ht, ho]

theorem mgtReply_one {m : MgtReq} {entry : List Byte} (hd : m.done = [entry]) (d : Dev) :
    mgtReply m d = emit (.mgt m.ip m.port 49731 ([1, 1] ++ leBytes 2 m.seq ++ entry)) d := by
  have h1 : leBytes 1 1 = [1] := rfl
  simp [mgtReply, hd, h1]

theorem opBarred_nop (d : Dev) : opBarred d 0 = false := by simp [opBarred, opModes]

/-- The NOP of a datagram with no other entry completes as soon as it starts. -/
theorem startDatagram_nop {m : MgtReq} {k : Nat} {e : List Byte} (ht : m.todo = [(k, e)]) (ho : m.open_ = []) {d : Dev} (hm : d.cmd.mgt = [m])
    (hg : d.sys.gate = none) (h : CmdHdr) (args : List Byte) :
    startDatagram m { op := 0, handle := 0, hdr := h, args := args } d =
      complete h 0 rcDone 0 [] { d with cmd.mgt := [{ m with todo := [], open_ := [h.slot] }] } := by
  unfold startDatagram
  simp only [ht, ho, hm, List.tail_cons, List.nil_append, List.map_cons, List.map_nil, if_true]
  rw [serve_now (opBarred_nop _) (c := rcDone) (y := 0) (data := []) (e := { d with cmd.mgt := [{ m with todo := [], open_ := [h.slot] }] })]
  · exact closeGate_none _ ((congrArg Sys.gate (complete_sys _ _ _ _ _ _)).trans hg)
  · simp [bodyOf, opBody, basicBody, nopBody, done, hg]

/-- The completion of a command from MGT that is the last of the one datagram leaves with the reply. -/
theorem reply_of_last_completion {m : MgtReq} {h : CmdHdr} (hs : h.src = .mgt m.ip m.port) (hslot : h.slot < 16) {d : Dev} (ht : m.todo = [])
    (ho : m.open_ = [h.slot]) (hm : d.cmd.mgt = [m]) (op c : Nat) (x : Word) (b : List Byte) :
    ∃ e, complete h op c x b d = mgtReply { m with open_ := [], done := m.done ++ [cmpEntry c 0 op h x b] } e ∧ e.cmd.mgt = [] ∧
      e.plain = d.plain ∧ e.sys = d.sys ∧ ∀ o, o ≠ R.HDL_CMD_DONE → rg e o = rg d o := by
  have hh : ({ h with slot := h.slot % 16 } : CmdHdr) = h := by rw [Nat.mod_eq_of_lt hslot]
  refine ⟨{ cmdCounted h d with cmd.mgt := [] }, ?_, rfl, rfl, rfl, fun o hne => (rg_congr (b := cmdCounted h d) rfl o).trans (rg_bump_ne _ hne)⟩
  rw [complete_of_mgt hs, mgtComplete_last ht ho (d := cmdCounted h d) hm, hh]

/-- The header of a NOP that stands alone in a datagram. -/
abbrev nopHdr (ip port : Nat) (tag : Word) (irq : Bool) : CmdHdr := { src := .mgt ip port, slot := 0, fence := false, irq := irq, tag := tag }

/-- The request of a datagram of one NOP. -/
abbrev nopRequest (ip port q : Nat) (tag : Word) (irq : Bool) : MgtReq :=
  { ip := ip, port := port, seq := q, total := 1, todo := [(0, entryBytes (nopHdr ip port tag irq) 0 0 (fit 48 []))], open_ := [], done := [] }

theorem cmdFree_nop {d : Dev} (hup : cmdUp d = true) (hg : d.sys.gate = none) (ip port : Nat) (tag : Word) (irq : Bool) (args : List Byte) :
    cmdFree d (entryFence { op := 0, handle := 0, hdr := nopHdr ip port tag irq, args := args }) 0 = true := by
  simp [cmdFree, entryFence, toConfigure, hup, hg]

/-- The datagram of one NOP is served at once: the reply leaves, and the device is as it was but for its count of commands. -/
theorem pump_nop {d : Dev} {ip port q : Nat} {tag : Word} {irq : Bool} (hup : cmdUp d = true) (hg : d.sys.gate = none)
    (hm : d.cmd.mgt = [nopRequest ip port q tag irq]) (hempty : fld d F.HDL_CMD_HEAD_HEAD = fld d F.HDL_CMD_TAIL_TAIL) :
    ∃ e, pump d = emit (.mgt ip port 49731 ([1, 1] ++ leBytes 2 q ++ cmpEntry rcDone 0 0 (nopHdr ip port tag irq) 0 [])) e ∧
      e.cmd.mgt = [] ∧ e.plain = d.plain ∧ e.sys = d.sys ∧ fld e F.HDL_CMP_TAIL_TAIL = fld d F.HDL_CMP_TAIL_TAIL := by
  have hentry := entryOf_entryBytes (nopHdr ip port tag irq) 0 0 (fit 48 []) (by decide) (Or.inr rfl)
  obtain ⟨e, he, hmgt, hplain, hsys, hregs⟩ := reply_of_last_completion (m := { nopRequest ip port q tag irq with todo := [], open_ := [0] })
    (h := nopHdr ip port tag irq) (d := { d with cmd.mgt := [{ nopRequest ip port q tag irq with todo := [], open_ := [0] }] }) rfl
    (show 0 < 16 by decide) rfl rfl rfl 0 rcDone 0 []
  refine ⟨e, ?_, hmgt, hplain, hsys, (fld_ext _ (hregs _ (by decide))).trans (fld_congr rfl _)⟩
  rw [pump_datagram rfl hm hempty hentry (cmdFree_nop hup hg ip port tag irq _), startDatagram_nop rfl rfl hm hg, he, mgtReply_one rfl]

theorem mgtRx_nop {d : Dev} {ip port q : Nat} (tag : Word) (irq : Bool) (hhost : mgtHost d ip = true) (hg : d.sys.gate = none)
    (hm : d.cmd.mgt = []) (hq : q < 65536) :
    mgtRx ip port ([1, 1] ++ leBytes 2 q ++ entryBytes (nopHdr ip port tag irq) 0 0 (fit 48 [])) d =
      pump { d with cmd.mgt := [nopRequest ip port q tag irq] } := by
  obtain ⟨hwell, hreq⟩ := mgtReq_one d ip port q _ hq (entryBytes_length (nopHdr ip port tag irq) 0 0 _ fit48) hm
  rw [mgtRx_heard hwell hg, if_pos hhost, hreq, hm, List.nil_append]

/-! COMPLETION_VECTOR_PACING (R56) -/

theorem exec_completionVectorPacing {t : Time} {s : State} {d : Dev} (hd : AtTime t s d) :
    Completes (.completionVectorPacing t) s (vectorPacing d) := by
  subst hd
  exact onDev_eq (f := runCompletionVectorPacing t) rfl

theorem vectorPacing_due {d : Dev} {v : Time} (hl : d.hdl.vec0Last = some v) (ho : d.hdl.vec0Owed = true) (hv : v + us 10 ≤ d.raw) :
    vectorPacing d = emit (.msix 0) { d with hdl.vec0Last := some d.raw, hdl.vec0Owed := false } := by
  simp only [vectorPacing, hl]
  exact if_pos ⟨ho, hv⟩

theorem vectorPacing_waits {d : Dev} (h : d.hdl.vec0Last = none ∨ d.hdl.vec0Owed = false ∨ ∃ v, d.hdl.vec0Last = some v ∧ d.raw < v + us 10) :
    vectorPacing d = d := by
  unfold vectorPacing
  split
  · rename_i v hl
    refine if_neg fun ⟨ho, hv⟩ => ?_
    rcases h with h | h | ⟨w, h, hw⟩
    · simp [hl] at h
    · simp [ho] at h
    · obtain rfl : v = w := by simpa [hl] using h
      exact absurd hv (Nat.not_le.mpr hw)
  · rfl

/-- Settles O20: a datagram is dropped, not heard, or, a NOP's, answered by `mgtRx_nop`, and the vector owed goes once it is due. -/
theorem managementPortAndVectors : Obligations.ManagementPortAndVectors := by
  intro t ip port b s d hd
  have hc := exec_mgtCommandDatagram ip port b hd
  refine ⟨fun h => ?_, fun hup hlink => ?_, fun v hl ho hv => ?_, fun h => ?_⟩
  · rwa [if_neg (by rcases h with h | h <;> simp [h])] at hc
  · rw [if_pos ⟨hup, hlink⟩] at hc
    refine ⟨fun h => ?_, fun hb hg hhost => ?_, fun q tag irq hhost hg hm _ hempty hq hb => ?_⟩
    · rw [mgtRx_dropped h] at hc
      exact ⟨_, hc, by rw [rg_bump_self, min1_toNat], rfl, rfl, rfl, fun o ho => rg_bump_ne _ ho⟩
    · rwa [mgtRx_heard hb hg, hhost] at hc
    · subst hb
      obtain ⟨e, he, hmgt, hplain, hsys, htail⟩ := pump_nop (d := { d with cmd.mgt := [nopRequest ip port q tag irq] }) hup hg rfl hempty
      rw [mgtRx_nop tag irq hhost hg hm hq, he] at hc
      exact ⟨_, hc, rfl, hmgt, hplain, hsys, htail⟩
  · have hp := exec_completionVectorPacing hd
    rw [vectorPacing_due hl ho hv] at hp
    exact ⟨_, hp, rfl, rfl, rfl, rfl⟩
  · have hp := exec_completionVectorPacing hd
    rwa [vectorPacing_waits h] at hp

end Sys2Proof.Machine
end

section
/-! SUPPORT. The host window BAR2 (R91, R96, R97): the bytes that an access writes and reads, and what a double-bit error found in its range shows. -/

namespace Sys2Proof.Machine

/-- The pieces of an access reach its end wherever in a page it begins. -/
theorem pieces_reach (a n : Nat) : n = 0 ∨ n + a % 65536 ≤ (n / pageBytes + 2) * 65536 := by
  rw [pageBytes]
  omega

/-! BAR2_WRITE -/

theorem exec_bar2Write {off : Nat} {b : List Byte} (h : off + b.length ≤ 0x10000000) {t : Time} {s : State} {d : Dev} (hd : AtTime t s d) :
    Completes (.bar2Write t off b) s
      (if windowUp d then windowWrite (pieces (b.length / pageBytes + 2) (windowBase d + off) b.length) b d else d) := by
  subst hd
  exact onDev_eq (f := runBar2Write t off b) (if_neg (Nat.not_lt.mpr h))

/-! BAR2_READ -/

/-- The words with a double-bit error that a read of `len` bytes from `a` finds: those found now, and those found before and not written since. -/
def wordsFound (bad : List Nat) (a len : Nat) (d : Dev) : List Nat :=
  ((bad ++ d.pln.poisoned).eraseDups).filter fun w =>
    decide (len ≠ 0 ∧ a / 8 ≤ w ∧ w ≤ (a + len - 1) / 8 ∧ 8 * w < storePages d * pageBytes)

/-- The device once those words have been counted, posted and poisoned. -/
def errorsShown (bad : List Nat) (a len : Nat) (d : Dev) : Dev := (wordsFound bad a len d).foldl (fun d w => plnUncorr w d) d

/-- The device that a read leaves, but for its answer, and the bytes that it answers. -/
def windowAnswer (bad : List Nat) (a len : Nat) (d : Dev) : Dev × List Byte :=
  windowRead (pieces (len / pageBytes + 2) a len) (errorsShown bad a len d)

theorem exec_bar2Read {off len : Nat} (h : off + len ≤ 0x10000000) {t : Time} (bad : List Nat) {s : State} {d : Dev} (hd : AtTime t s d) :
    Completes (.bar2Read t off len bad) s (if windowUp d then
      emit (.readData (windowAnswer bad (windowBase d + off) len d).2) (windowAnswer bad (windowBase d + off) len d).1 else d) := by
  subst hd
  exact onDev_eq (f := runBar2Read t off len bad) (if_neg (Nat.not_lt.mpr h))

/-- A word below the end of the store that lies whole in the range is found. -/
theorem mem_wordsFound {bad : List Nat} {a len w : Nat} {d : Dev} (hw : w ∈ bad) (hstore : 8 * w + 8 ≤ storePages d * 65536) (hlo : a ≤ 8 * w)
    (hhi : 8 * w + 8 ≤ a + len) : w ∈ wordsFound bad a len d := by
  refine List.mem_filter.mpr ⟨List.mem_eraseDups.mpr (List.mem_append_left _ hw), decide_eq_true ?_⟩
  rw [pageBytes]
  omega

theorem errorsShown_sys (bad : List Nat) (a len : Nat) (d : Dev) : (errorsShown bad a len d).sys = d.sys := (foldl_plnUncorr _ d).1

theorem errorsShown_nor (bad : List Nat) (a len : Nat) (d : Dev) : (errorsShown bad a len d).nor = d.nor := by
  obtain ⟨-, hnor, -, -⟩ := foldl_plnUncorr (wordsFound bad a len d) d
  exact hnor

theorem errorsShown_fault {bad : List Nat} {a len w : Nat} {d : Dev} (hw : w ∈ wordsFound bad a len d) :
    bitOf (errorsShown bad a len d) F.SYS_FAULT_ECC_UNCORR = true := by
  obtain ⟨-, -, hfault, -⟩ := foldl_plnUncorr (wordsFound bad a len d) d
  exact hfault (List.ne_nil_of_mem hw)

theorem errorsShown_none {d : Dev} (h : d.pln.poisoned = []) (a len : Nat) : errorsShown [] a len d = d := by
  simp [errorsShown, wordsFound, h]

/-- Settles O16: the bytes are those of `windowWrite_bytes` and `windowRead_bytes`, piece by piece, and a read shows the errors it finds first. -/
theorem windowMovesBytesOfThePlain : Obligations.WindowMovesBytesOfThePlain := by
  refine ⟨fun t off b s d hd => ⟨fun hout => exec_bar2Write_outside hout t s, fun hin hdown => ?_, fun hin hup => ?_⟩,
    fun t off len bad s d hd => ⟨fun hout => exec_bar2Read_outside hout t bad s, fun hin hdown => ?_, fun hin hup => ?_⟩⟩
  · have hc := exec_bar2Write hin hd
    rwa [hdown, if_neg Bool.false_ne_true] at hc
  · have hc := exec_bar2Write hin hd
    rw [hup, if_pos rfl] at hc
    obtain ⟨hkept, hinside, houtside⟩ := windowWrite_bytes _ (windowBase d + off) b d (pieces_reach _ _)
    exact ⟨_, hc, hkept.sys, hkept.hdl, hkept.nor, hkept.regs, hinside, houtside⟩
  · have hc := exec_bar2Read hin bad hd
    rwa [hdown, if_neg Bool.false_ne_true] at hc
  · have hc := exec_bar2Read hin bad hd
    rw [hup, if_pos rfl] at hc
    obtain ⟨hlen, hplain, hsys, hnor, hregs, hbytes⟩ :=
      windowRead_bytes _ (windowBase d + off) len (errorsShown bad (windowBase d + off) len d) (pieces_reach _ _)
    refine ⟨_, _, hc, rfl, hlen, hsys.trans (errorsShown_sys _ _ _ _), hnor.trans (errorsShown_nor _ _ _ _), fun hbad hpois => ?_,
      fun w hw hstore hlo hhi => ?_⟩
    · subst hbad
      rw [errorsShown_none hpois] at hplain hregs hbytes
      rw [windowAnswer, errorsShown_none hpois]
      exact ⟨hplain, hregs, hbytes hpois⟩
    · exact (keepsReg_bitOf _ (hregs _ (by decide))).trans (errorsShown_fault (mem_wordsFound hw hstore hlo hhi))

end Sys2Proof.Machine
end

section
/-! SUPPORT. The diagnostic walk of PLN.XLAT_ADDR (R86): where its entry comes from and the three registers that it writes. -/

namespace Sys2Proof.Machine

theorem exec_xlatAddrWrite {t : Time} (v : Word) {s : State} {d : Dev} (hd : AtTime t s d) (hup : pcieUp d = true)
    (hw : bar0Writable d R.PLN_XLAT_ADDR = true) : Completes (.xlatAddrWrite t v) s (xlatWalk v d) := by
  subst hd
  refine onDev_eq (f := runXlatAddrWrite t v) ?_
  simp only [runXlatAddrWrite, hup, hw, Bool.and_self, if_true]

/-! The entry that a walk finds -/

theorem walk_mapped {d : Dev} {h : Word} {addr : Nat} {o : HObj} {p : Pte} (ho : objOf d h = some o) (hp : pteAt d (hKey h) (addr / 65536) = some p) :
    walk d h addr = p.word := by
  simp only [walk, pageBytes, ho, hp]

/-- A walk finds nothing for an invalid handle and for a page that is not mapped. -/
theorem walk_unmapped {d : Dev} {h : Word} {addr : Nat} (hno : objOf d h = none ∨ pteAt d (hKey h) (addr / 65536) = none) : walk d h addr = 0 := by
  rcases hno with ho | hp
  · simp only [walk, ho]
  · simp only [walk, pageBytes, hp]
    cases objOf d h <;> rfl

/-! The registers of a walk -/

theorem xlatWalk_addr (v : Word) (d : Dev) : rg (xlatWalk v d) R.PLN_XLAT_ADDR = v := by
  simp [xlatWalk, rg_setRg_ne, rg_setRg_self]

theorem xlatWalk_lo (v : Word) (d : Dev) :
    rg (xlatWalk v d) R.PLN_XLAT_PTE_LO = BitVec.ofNat 32 (walk d (rg d R.PLN_XLAT_HANDLE) v.toNat) := by
  simp [xlatWalk, rg_setRg_ne, rg_setRg_self]

theorem xlatWalk_hi (v : Word) (d : Dev) :
    rg (xlatWalk v d) R.PLN_XLAT_PTE_HI = BitVec.ofNat 32 (walk d (rg d R.PLN_XLAT_HANDLE) v.toNat / 2 ^ 32) := rg_setRg_self _ _ _

theorem xlatWalk_keepsReg {o : Nat} (ha : o ≠ R.PLN_XLAT_ADDR) (hl : o ≠ R.PLN_XLAT_PTE_LO) (hh : o ≠ R.PLN_XLAT_PTE_HI) (v : Word) (d : Dev) :
    rg (xlatWalk v d) o = rg d o :=
  (rg_setRg_ne _ _ hh).trans ((rg_setRg_ne _ _ hl).trans (rg_setRg_ne _ _ ha))

/-- Settles O17: the two registers hold the halves of the word that `walk` finds, whose bits are those of `pte_word_bits`. -/
theorem walkShowsTheEntry : Obligations.WalkShowsTheEntry := by
  intro t v s d hd hup hw
  refine ⟨_, exec_xlatAddrWrite v hd hup hw, rfl, rfl, xlatWalk_addr v d, fun o ha hl hh => xlatWalk_keepsReg ha hl hh v d, fun hno => ?_,
    fun o p ho hp hppn => ?_⟩
  · rw [xlatWalk_lo, xlatWalk_hi, walk_unmapped hno]
    exact ⟨rfl, rfl⟩
  · rw [xlatWalk_lo, xlatWalk_hi, walk_mapped ho hp]
    exact pte_word_bits p hppn

end Sys2Proof.Machine
end

section
/-! SUPPORT. The DRAM's tracking (R84) and the scrubber's passes (R93). -/

namespace Sys2Proof.Machine

/-! MR4_READ (R84) -/

theorem exec_mr4Read {t : Time} (a b : Nat) {s : State} {d : Dev} (hd : AtTime t s d) (hr : timeRuns d = true) :
    Completes (.mr4Read t a b) s (mr4Read a b d) := by
  subst hd
  exact onDev_eq (f := runMr4Read t a b) (congrArg _ (if_pos hr))

/-- Does one of the two codes ask for more than the nominal refresh rate (log 15)? -/
def mr4Hot (a b : Nat) : Bool := decide (4 ≤ a % 8) || decide (4 ≤ b % 8)

/-- The device with the two codes and DERATED in PLN.DRAM_TEMP. -/
def mr4Shown (a b : Nat) (d : Dev) : Dev :=
  setBit F.PLN_DRAM_TEMP_DERATED (mr4Hot a b) <| setFld F.PLN_DRAM_TEMP_CHB_MR4 (b % 8) <| setFld F.PLN_DRAM_TEMP_CHA_MR4 (a % 8) d

theorem mr4Read_eq (a b : Nat) (d : Dev) : mr4Read a b d =
    if mr4Hot a b && !bitOf d F.PLN_DRAM_TEMP_DERATED then postCode 0x09 0xB 0x04 0 (mr4Shown a b d) else mr4Shown a b d := rfl

theorem mr4Shown_cha (a b : Nat) (d : Dev) : fld (mr4Shown a b d) F.PLN_DRAM_TEMP_CHA_MR4 = a % 8 := by
  rw [mr4Shown, setBit, fld_setFld_disjoint _ _ _ _ (by decide) (by decide), fld_setFld_disjoint _ _ _ _ (by decide) (by decide),
    fld_setFld_self _ _ _ (by decide)]
  exact Nat.mod_mod _ _

theorem mr4Shown_chb (a b : Nat) (d : Dev) : fld (mr4Shown a b d) F.PLN_DRAM_TEMP_CHB_MR4 = b % 8 := by
  rw [mr4Shown, setBit, fld_setFld_disjoint _ _ _ _ (by decide) (by decide), fld_setFld_self _ _ _ (by decide)]
  exact Nat.mod_mod _ _

theorem mr4Shown_derated (a b : Nat) (d : Dev) : bitOf (mr4Shown a b d) F.PLN_DRAM_TEMP_DERATED = mr4Hot a b :=
  bitOf_setBit_self _ _ _ (by decide) (by decide)

theorem mr4Shown_keepsReg {o : Nat} (ho : o ≠ R.PLN_DRAM_TEMP) (a b : Nat) (d : Dev) : rg (mr4Shown a b d) o = rg d o :=
  (rg_setBit_ne _ _ _ ho).trans ((rg_setFld_ne _ _ _ ho).trans (rg_setFld_ne _ _ _ ho))

/-- What the entry into DERATED posts leaves the codes and DERATED as they were shown. -/
theorem mr4Read_frame (a b : Nat) (d : Dev) : PostFrame (mr4Shown a b d) (mr4Read a b d) := by
  rw [mr4Read_eq]
  split
  · exact postCode_frame _ _ _ _ _
  · exact PostFrame.refl _

/-- Nothing is posted where neither code asks for more, and none again while DERATED stands. -/
theorem mr4Read_posts_nothing {a b : Nat} {d : Dev} (h : (a % 8 < 4 ∧ b % 8 < 4) ∨ bitOf d F.PLN_DRAM_TEMP_DERATED = true) :
    mr4Read a b d = mr4Shown a b d := by
  rw [mr4Read_eq]
  refine if_neg ?_
  rcases h with ⟨ha, hb⟩ | hon
  · simp [mr4Hot, Nat.not_le.mpr ha, Nat.not_le.mpr hb]
  · simp [hon]

/-! DQS_OSCILLATOR_READ (R84) -/

theorem exec_dqsOscillatorRead {t : Time} (l : List Nat) {s : State} {d : Dev} (hd : AtTime t s d) (hr : timeRuns d = true) :
    Completes (.dqsOscillatorRead t l) s { d with pln.dqs := l } := by
  subst hd
  exact onDev_eq (f := runDqsOscillatorRead t l) (congrArg _ (if_pos hr))

/-! SCRUB_OVERDUE and SCRUB_PASS_END (R93) -/

theorem ScrubFrame.overdue {d e : Dev} (h : ScrubFrame d e) : e.pln.overdue = d.pln.overdue := congrArg (fun q => q.2.2.2.1) h

/-- A pass is found overdue. -/
def passOverdue (d : Dev) : Dev := postCode 0x09 2 0x05 0 { d with pln.overdue := true }

theorem passOverdue_overdue (d : Dev) : (passOverdue d).pln.overdue = true :=
  (postCode_scrub 0x09 2 0x05 0 { d with pln.overdue := true }).overdue

theorem passOverdue_sys (d : Dev) : (passOverdue d).sys = d.sys := (postCode_frame _ _ _ _ _).sys

theorem exec_scrubOverdue {t : Time} {s : State} {d : Dev} (hd : AtTime t s d) (hr : timeRuns d = true) :
    Completes (.scrubOverdue t) s (if d.pln.overdue = false ∧ sec 86400 ≤ scrubAge d then passOverdue d else d) := by
  subst hd
  refine onDev_eq (f := runScrubOverdue t) ?_
  simp [runScrubOverdue, hr, passOverdue]

/-- A pass has ended and the next begins. -/
def passEnded (d : Dev) : Dev := bump R.PLN_SCRUB_PASSES { d with pln.scrubFrom := d.raw, pln.scrubHold := 0, pln.overdue := false }

theorem passEnded_counts (d : Dev) :
    (rg (passEnded d) R.PLN_SCRUB_PASSES).toNat = min ((rg d R.PLN_SCRUB_PASSES).toNat + 1) 0xFFFFFFFF := by
  rw [passEnded, rg_bump_self, min1_toNat]
  rfl

theorem passEnded_keepsReg {o : Nat} (ho : o ≠ R.PLN_SCRUB_PASSES) (d : Dev) : rg (passEnded d) o = rg d o := rg_bump_ne _ ho

theorem exec_scrubPassEnd {t : Time} {s : State} {d : Dev} (hd : AtTime t s d) (hr : timeRuns d = true) :
    Completes (.scrubPassEnd t) s (if d.sys.mode = .hold then d else passEnded d) := by
  refine onDev_eq (f := runScrubPassEnd t) ?_
  simp only [runScrubPassEnd, ← hd, hr, Bool.true_and]
  by_cases hm : d.sys.mode = .hold
  · simp [hm]
  · simp [hm, passEnded]

/-- Settles O23: a read of MR4 is `mr4Shown` and what it posts, and the scrubber acts by the age of its pass and by HOLD. -/
theorem dramIsTrackedAndScrubbed : Obligations.DramIsTrackedAndScrubbed := by
  intro t a b l s d hd hr
  have hshown := mr4Read_frame a b d
  have hover := exec_scrubOverdue hd hr
  have hend := exec_scrubPassEnd hd hr
  refine ⟨⟨_, exec_mr4Read a b hd hr, (hshown.fld _ (by decide)).trans (mr4Shown_cha a b d), (hshown.fld _ (by decide)).trans (mr4Shown_chb a b d),
      (hshown.bitOf _ (by decide)).trans (mr4Shown_derated a b d), hshown.sys, fun hquiet => ?_⟩,
    ⟨_, exec_dqsOscillatorRead l hd hr, rfl, rfl, rfl, rfl⟩, fun hnew hage => ?_, fun hno => ?_, fun hm => ?_, fun hm => ?_⟩
  · rw [mr4Read_posts_nothing hquiet]
    exact ⟨rfl, rfl, fun o ho => mr4Shown_keepsReg ho a b d⟩
  · rw [if_pos ⟨hnew, hage⟩] at hover
    exact ⟨_, hover, passOverdue_overdue d, passOverdue_sys d⟩
  · rwa [if_neg fun h => hno.elim (fun hon => Bool.false_ne_true (h.1.symm.trans hon)) (Nat.not_lt.mpr h.2)] at hover
  · rw [if_neg hm] at hend
    exact ⟨_, hend, rfl, rfl, rfl, passEnded_counts d, fun o ho => passEnded_keepsReg ho d⟩
  · rwa [if_pos hm] at hend

end Sys2Proof.Machine
end

section
/-! SUPPORT. The ring commands (R120, R121): what each answers, and the ring that it leaves. -/

namespace Sys2Proof.Machine

/-! RING_FLUSH (R121) -/

/-- A ring without its items and its mark, the items counted in FLUSHED. -/
def Ring.emptied (r : Ring) : Ring :=
  { r with items := [], read := 0, part := 0, mark := none, cut := false, flushed := min (r.flushed + r.items.length) 0xFFFFFFFF }

/-- Does a flush of ring `n` void the open reservation? -/
def voidsResv (n : Nat) (d : Dev) : Bool :=
  match d.que.resv with
  | some q => decide (q.ring = n) && !q.flushed && !q.dead
  | none => false

/-- The device after a flush of ring `n`. -/
def ringFlushed (n : Nat) (r : Ring) (d : Dev) : Dev :=
  { d with
    que.rings := tput d.que.rings n r.emptied
    que.resv := if voidsResv n d then d.que.resv.map fun q => { q with flushed := true } else d.que.resv }

theorem flushRing_eq {n : Nat} {d : Dev} {r : Ring} (hr : tget d.que.rings n = some r) :
    flushRing n d = (ringFlushed n r d, r.items.length, if voidsResv n d then 1 else 0) := by
  simp only [flushRing, hr]
  rfl

theorem voidsResv_none {d : Dev} (h : d.que.resv = none) (n : Nat) : voidsResv n d = false := by simp [voidsResv, h]

theorem voidsResv_open {n : Nat} {d : Dev} {q : Resv} (h : d.que.resv = some q) (hn : q.ring = n) (hf : q.flushed = false) (hd : q.dead = false) :
    voidsResv n d = true := by simp [voidsResv, h, hn, hf, hd]

theorem ringFlushed_ring (n : Nat) (r : Ring) (d : Dev) : tget (ringFlushed n r d).que.rings n = some r.emptied := tget_tput_self _ _ _

theorem ringFlushed_keepsRing {n m : Nat} (h : m ≠ n) (r : Ring) (d : Dev) : tget (ringFlushed n r d).que.rings m = tget d.que.rings m :=
  tget_tput_ne _ _ h

theorem ringFlushed_no_resv {d : Dev} (h : d.que.resv = none) (n : Nat) (r : Ring) : (ringFlushed n r d).que.resv = none := by
  simp [ringFlushed, h]

theorem ringFlushed_voids {n : Nat} {d : Dev} (h : voidsResv n d = true) {q : Resv} (hq : d.que.resv = some q) (r : Ring) :
    (ringFlushed n r d).que.resv.map (·.flushed) = some true := by
  simp [ringFlushed, h, hq]

/-! RING_MARK, RING_REWIND, RING_RELEASE (R120) -/

/-- Ring `n` is replaced. -/
def setRing (n : Nat) (r : Ring) (d : Dev) : Dev := { d with que.rings := tput d.que.rings n r }

theorem setRing_ring (n : Nat) (r : Ring) (d : Dev) : tget (setRing n r d).que.rings n = some r := tget_tput_self _ _ _

/-- A ring whose consumer stands at its mark again, or at the release position without one. -/
def Ring.rewound (r : Ring) : Ring := { r with read := min (r.mark.getD 0) r.read, part := 0 }

/-- A ring without its oldest `k` items. -/
def Ring.released (k : Nat) (r : Ring) : Ring :=
  { r with
    items := r.items.drop k
    read := r.read - k
    mark := match r.mark with
      | some m => if m < k then none else some (m - k)
      | none => none }

theorem markRing_eq {n : Nat} {d : Dev} {r : Ring} (hr : tget d.que.rings n = some r) :
    markRing n d = (setRing n { r with mark := some r.read } d, r.read) := by
  simp only [markRing, hr, setRing]

theorem rewindRing_eq {n : Nat} {d : Dev} {r : Ring} (hr : tget d.que.rings n = some r) :
    rewindRing n d = (ringIrq n r.depth (setRing n r.rewound d), r.read - min (r.mark.getD 0) r.read, r.mark.isNone) := by
  simp only [rewindRing, hr, setRing, Ring.rewound]

theorem releaseRing_eq {n : Nat} {d : Dev} {r : Ring} (hr : tget d.que.rings n = some r) (k : Nat) :
    releaseRing n k d = (setRing n (r.released k) d, ((r.items.take k).map fun i => i.words.length).sum) := by
  simp only [releaseRing, hr]
  rfl

/-! The four commands on the handle of a ring -/

section
variable {x : Word} {d : Dev} {r : Ring} (hk : hKind x = 0xA) (ho : (objOf d x).isSome = true) (hr : tget d.que.rings (hIndex x) = some r)
include hk ho hr

theorem flushBody_ring : flushBody x d =
    (ringFlushed (hIndex x) r d, done x (leBytes 4 r.items.length ++ leBytes 4 (if voidsResv (hIndex x) d then 1 else 0))) := by
  rw [flushBody, onHandle_ok hk ho, flushRing_eq hr]

theorem markBody_onchip (hp : r.plain = false) : markBody x d = (d, fails x rcUnsupported) := by
  rw [markBody, onHandle_ok hk ho, ringOnChip_of hr, hp]
  rfl

theorem markBody_plain (hp : r.plain = true) :
    markBody x d = (setRing (hIndex x) { r with mark := some r.read } d, done x (leBytes 4 r.read)) := by
  rw [markBody, onHandle_ok hk ho, ringOnChip_of hr, hp, markRing_eq hr]
  rfl

theorem rewindBody_onchip (hp : r.plain = false) : rewindBody x d = (d, fails x rcUnsupported) := by
  rw [rewindBody, onHandle_ok hk ho, ringOnChip_of hr, hp]
  rfl

theorem rewindBody_plain (hp : r.plain = true) : rewindBody x d =
    (ringIrq (hIndex x) r.depth (setRing (hIndex x) r.rewound d),
      done x (leBytes 4 (r.read - min (r.mark.getD 0) r.read) ++ [if r.mark.isNone then 1 else 0])) := by
  rw [rewindBody, onHandle_ok hk ho, ringOnChip_of hr, hp, rewindRing_eq hr]
  rfl

theorem releaseBody_onchip (hp : r.plain = false) (count : Nat) (all : Bool) : releaseBody x count all d = (d, done x []) := by
  rw [releaseBody, onHandle_ok hk ho, ringOnChip_of hr, hp]
  rfl

theorem releaseBody_past (hp : r.plain = true) {count : Nat} {all : Bool} (h : r.read < if all then r.read else count) :
    releaseBody x count all d = (d, fails x rcOutOfRange) := by
  rw [releaseBody, onHandle_ok hk ho, ringOnChip_of hr, hp, hr]
  exact if_pos h

theorem releaseBody_read (hp : r.plain = true) {count : Nat} {all : Bool} (h : (if all then r.read else count) ≤ r.read) :
    let k := if all then r.read else count
    releaseBody x count all d =
      (setRing (hIndex x) (r.released k) d, done x (leBytes 4 k ++ leBytes 4 ((r.items.take k).map fun i => i.words.length).sum)) := by
  intro k
  rw [releaseBody, onHandle_ok hk ho, ringOnChip_of hr, hp, hr]
  refine (if_neg (Nat.not_lt.mpr h)).trans ?_
  show ((releaseRing (hIndex x) k d).1, done x (leBytes 4 k ++ leBytes 4 (releaseRing (hIndex x) k d).2)) = _
  rw [releaseRing_eq hr]

end

/-- Settles O27: on a handle of another kind each row is `onHandle_bad`, and on a ring's each is its body, which leaves `ringFlushed` or one ring set. -/
theorem ringCommandsMoveTheConsumer : Obligations.RingCommandsMoveTheConsumer := by
  intro t h x count all r s d hd
  refine ⟨fun hbad => ?_, fun hk ho hr => ⟨fun hs => ?_, fun hp => ?_, fun hp => ?_⟩⟩
  · exact ⟨fun hs => row_fails (fun _ => rfl) hd hs (onHandle_bad hbad), fun hs => row_fails (fun _ => rfl) hd hs (onHandle_bad hbad),
      fun hs => row_fails (fun _ => rfl) hd hs (onHandle_bad hbad), fun hs => row_fails (fun _ => rfl) hd hs (onHandle_bad hbad)⟩
  · refine ⟨_, _, _, row_answers (fun _ => rfl) hd hs (flushBody_ring hk ho hr), ringFlushed_ring _ _ _, rfl, rfl, rfl, rfl, rfl,
      fun hn => ⟨?_, ringFlushed_no_resv hn _ _⟩, fun q hq hring hf hdead => ?_, fun m hm => ringFlushed_keepsRing hm _ _, rfl⟩
    · rw [voidsResv_none hn]
      rfl
    · have hv := voidsResv_open hq hring hf hdead
      exact ⟨if_pos hv, ringFlushed_voids hv hq r⟩
  · exact ⟨fun hs => row_fails (fun _ => rfl) hd hs (markBody_onchip hk ho hr hp),
      fun hs => row_fails (fun _ => rfl) hd hs (rewindBody_onchip hk ho hr hp),
      fun hs => row_answers (fun _ => rfl) hd hs (releaseBody_onchip hk ho hr hp count all)⟩
  · refine ⟨fun hs => ?_, fun hs => ?_, fun hs => ⟨fun hall hpast => ?_, fun hin => ?_⟩⟩
    · exact ⟨_, _, row_answers (fun _ => rfl) hd hs (markBody_plain hk ho hr hp), setRing_ring _ _ _, rfl, rfl, rfl⟩
    · obtain ⟨r', hr', hitems, hread, hpart⟩ := ringIrq_keeps (hIndex x) r.depth _ _ (setRing_ring (hIndex x) r.rewound d)
      exact ⟨_, r', row_answers (fun _ => rfl) hd hs (rewindBody_plain hk ho hr hp), hr', hread, hpart, hitems⟩
    · exact row_fails (fun _ => rfl) hd hs (releaseBody_past hk ho hr hp (by rwa [hall]))
    · have hle : (if all then r.read else count) ≤ r.read := by
        rcases hin with rfl | hcount
        · exact Nat.le_refl _
        · split
          · exact Nat.le_refl _
          · exact hcount
      exact ⟨_, _, row_answers (fun _ => rfl) hd hs (releaseBody_read hk ho hr hp hle), setRing_ring _ _ _, rfl, rfl⟩

end Sys2Proof.Machine
end

section
/-! SUPPORT. The host pop port (R118, R119) and the ring's vector (R125): what a pop answers and leaves, and what DROP_REST discards. -/

namespace Sys2Proof.Machine

/-! POP_LO_READ (R118) -/

theorem exec_popLoRead {t : Time} {s : State} {d : Dev} (hd : AtTime t s d) (hup : pcieUp d = true) (hb : bar0Up d R.QUE_POP_LO = true) :
    Completes (.popLoRead t false) s (emit (.readData (leBytes 4 (popLo d).2.toNat)) (popLo d).1) := by
  refine onDev_eq (f := runPopLoRead t false) ?_
  simp only [runPopLoRead, ← hd, hup, hb, Bool.not_true, Bool.false_and, Bool.false_eq_true, if_false, if_true]

/-- A ring after a pop of the next word of the item at its read position. -/
def Ring.popped (r : Ring) (it : RItem) : Ring :=
  { (if it.words.length - (r.part + 1) = 0 then r.finish else { r with part := r.part + 1 }) with cut := false }

theorem Ring.finish_onchip {r : Ring} (hp : r.plain = false) : r.finish = { r with items := r.items.tail, part := 0 } := by
  simp [Ring.finish, hp]

theorem Ring.popped_within {r : Ring} {it : RItem} (h : r.part + 1 < it.words.length) :
    (r.popped it).items = r.items ∧ (r.popped it).part = r.part + 1 := by
  rw [popped, if_neg (Nat.sub_ne_zero_of_lt h)]
  exact ⟨rfl, rfl⟩

theorem Ring.popped_last {r : Ring} {it : RItem} (hp : r.plain = false) (h : it.words.length ≤ r.part + 1) :
    (r.popped it).items = r.items.tail ∧ (r.popped it).part = 0 := by
  rw [popped, if_pos (Nat.sub_eq_zero_of_le h), finish_onchip hp]
  exact ⟨rfl, rfl⟩

/-- What a pop of a word of an on-chip ring answers, shows and leaves. -/
theorem popLo_item_shows {d : Dev} {r : Ring} {it : RItem} (hr : tget d.que.rings (fld d F.QUE_POP_RING_RING) = some r)
    (hc : r.hostConsumer = true) (hp : r.plain = false) (hi : r.items[r.read]? = some it) :
    (popLo d).2.toNat = it.words.getD r.part 0 % 2 ^ 32 ∧ rg (popLo d).1 R.QUE_POP_HI = BitVec.ofNat 32 (it.words.getD r.part 0 / 2 ^ 32) ∧
      fld (popLo d).1 F.QUE_POP_STATUS_IDLE = 0 ∧ fld (popLo d).1 F.QUE_POP_STATUS_DENIED = 0 ∧ (popLo d).1.out = d.out ∧
      tget (popLo d).1.que.rings (fld d F.QUE_POP_RING_RING) = some (r.popped it) := by
  rw [popLo_item d r it hr hc hp hi]
  obtain ⟨hhi, hidle, hdenied, -, -⟩ := shown_spec
    { d with que.rings := tput d.que.rings (fld d F.QUE_POP_RING_RING) (r.popped it) } (it.words.getD r.part 0 / 2 ^ 32) 0 0
    (max (if r.cut then 1 else 0) (fld d F.QUE_POP_STATUS_CUT))
  exact ⟨low_half _, hhi, hidle, hdenied, rfl, tget_tput_self _ _ _⟩

theorem popLo_idle_shows {d : Dev} {r : Ring} (hr : tget d.que.rings (fld d F.QUE_POP_RING_RING) = some r) (hc : r.hostConsumer = true)
    (hi : r.items.length ≤ r.read) :
    leBytes 4 (popLo d).2.toNat = [0, 0, 0, 0] ∧
      rg (popLo d).1 R.QUE_POP_HI = 0 ∧ fld (popLo d).1 F.QUE_POP_STATUS_IDLE = 1 ∧ (popLo d).1.out = d.out := by
  rw [popLo_idle d r hr hc hi]
  obtain ⟨hhi, hidle, -, -, -⟩ := shown_spec
    { d with que.rings := tput d.que.rings (fld d F.QUE_POP_RING_RING) { r with cut := false } } 0 1 0
    (max (if r.cut then 1 else 0) (fld d F.QUE_POP_STATUS_CUT))
  exact ⟨zero4, hhi, hidle, rfl⟩

theorem popLo_denied_shows {d : Dev} (h : ∀ r, tget d.que.rings (fld d F.QUE_POP_RING_RING) = some r → r.hostConsumer = false) :
    leBytes 4 (popLo d).2.toNat = [0, 0, 0, 0] ∧
      fld (popLo d).1 F.QUE_POP_STATUS_DENIED = 1 ∧ (popLo d).1.que = d.que ∧ (popLo d).1.out = d.out := by
  rw [popLo_denied d h]
  obtain ⟨-, -, hdenied, -, -⟩ := shown_spec d 0 0 1 (max 0 (fld d F.QUE_POP_STATUS_CUT))
  exact ⟨zero4, hdenied, rfl, rfl⟩

/-! RING_VECTOR_PACING (R125) -/

theorem exec_ringVectorPacing_due {t : Time} {s : State} {d : Dev} {i : Nat} {r : Ring} (hd : AtTime t s d) (hr : tget d.que.rings i = some r)
    (ho : r.vecOwed = true) (hv : ∀ w, r.vecLast = some w → w + us 10 ≤ d.raw) (hq : r.irqDepth ≤ r.depth) :
    Completes (.ringVectorPacing t i) s (emit (.msix r.irqVec) (setRing i { r with vecLast := some d.raw, vecOwed := false } d)) := by
  refine onDev_eq (f := runRingVectorPacing t i) ?_
  simp only [runRingVectorPacing, ← hd, hr, ho, Bool.true_and]
  cases hl : r.vecLast with
  | none => simp only [if_true, if_pos hq, setRing]
  | some w => simp only [hv w hl, decide_true, if_true, if_pos hq, setRing]

theorem exec_ringVectorPacing_not_owed {t : Time} {s : State} {d : Dev} {i : Nat} {r : Ring} (hd : AtTime t s d)
    (hr : tget d.que.rings i = some r) (ho : r.vecOwed = false) : Completes (.ringVectorPacing t i) s d := by
  refine onDev_eq (f := runRingVectorPacing t i) ?_
  simp only [runRingVectorPacing, ← hd, hr, ho, Bool.false_and, Bool.false_eq_true, if_false]

/-- Settles O26: a read of QUE.POP_LO answers what `popLo` finds: nothing for the host, no item, or a word; and a vector owed goes when it is due. -/
theorem hostPopsWordByWord : Obligations.HostPopsWordByWord := by
  intro t r i s d hd
  refine ⟨fun hup hb => ?_, fun hr => ⟨fun ho hv hq => ?_, fun ho => exec_ringVectorPacing_not_owed hd hr ho⟩⟩
  · have hx := exec_popLoRead hd hup hb
    refine ⟨fun hdeny => ?_, fun hr hc hi => ?_, fun it hr hc hp hi => ?_⟩
    · obtain ⟨hword, hdenied, hque, hout⟩ := popLo_denied_shows hdeny
      exact ⟨_, hx, by rw [emit_out, hword, hout], hdenied, hque⟩
    · obtain ⟨hword, hhi, hidle, hout⟩ := popLo_idle_shows hr hc hi
      exact ⟨_, hx, by rw [emit_out, hword, hout], hidle, hhi⟩
    · obtain ⟨hword, hhi, hidle, hdenied, hout, hring⟩ := popLo_item_shows hr hc hp hi
      exact ⟨_, _, hx, by rw [emit_out, hword, hout], hhi, hring, Ring.popped_within, Ring.popped_last hp, hidle, hdenied⟩
  · exact ⟨_, _, exec_ringVectorPacing_due hd hr ho hv hq, rfl, setRing_ring _ _ _, rfl, rfl, rfl⟩

/-! DROP_REST (R119) -/

theorem exec_dropRest {t : Time} {v : Word} {s : State} {d : Dev} (hd : AtTime t s d) (hup : pcieUp d = true)
    (hw : bar0Writable d R.QUE_POP_CTRL = true) (hv : bit v.toNat 0 = true) : Completes (.dropRest t v) s (dropRestGo d) := by
  refine onDev_eq (f := runDropRest t v) ?_
  simp only [runDropRest, ← hd, hup, hw, hv, Bool.and_self, if_true]

theorem dropRestGo_none {d : Dev} {r : Ring} (hr : tget d.que.rings (fld d F.QUE_POP_RING_RING) = some r)
    (h : popLeft d = 0 ∨ r.plain = true) : dropRestGo d = d := by
  simp only [dropRestGo, hr]
  refine if_pos ?_
  rcases h with h | h <;> simp [h]

/-- The item at the read position of an on-chip ring goes, whatever is left of it. -/
theorem dropRestGo_item {d : Dev} {r : Ring} (hr : tget d.que.rings (fld d F.QUE_POP_RING_RING) = some r) (hp : r.plain = false)
    (hc : r.hostConsumer = true) (hl : 0 < popLeft d) :
    dropRestGo d = setRing (fld d F.QUE_POP_RING_RING) { r with items := r.items.tail, part := 0 } d := by
  have hno : ¬(r.plain || !r.hostConsumer || popLeft d == 0) = true := by simp [hp, hc, hl.ne']
  simp only [dropRestGo, hr, if_neg hno, Ring.finish_onchip hp, setRing]

/-- Between two items nothing is left. -/
theorem popLeft_of_part_zero {d : Dev} {r : Ring} (hr : tget d.que.rings (fld d F.QUE_POP_RING_RING) = some r) (h : r.part = 0) :
    popLeft d = 0 := by
  simp only [popLeft, hr, if_pos h]

/-- Settles O56: DROP_REST is `dropRestGo`, and the next pop finds the item behind the one that it took. -/
theorem dropRestDiscardsTheItem : Obligations.DropRestDiscardsTheItem := by
  intro t v s d r hd hup hw hv hr
  have hx := exec_dropRest hd hup hw hv
  refine ⟨fun hno => ?_, fun it hp hc hl hi => ?_⟩
  · rwa [dropRestGo_none hr hno] at hx
  · rw [dropRestGo_item hr hp hc hl] at hx
    have hr' := setRing_ring (fld d F.QUE_POP_RING_RING) { r with items := r.items.tail, part := 0 } d
    refine ⟨_, _, hx, popLeft_of_part_zero hr' rfl, hr', rfl, fun n hn => tget_tput_ne _ _ hn, rfl, rfl, rfl, fun u it' hread hnext hb => ?_⟩
    have hi' : r.items.tail[r.read]? = some it' := by rw [hread, List.getElem?_tail, hnext]
    obtain ⟨hword, -, -, -, hout, -⟩ := popLo_item_shows
      (d := upTo u (setRing (fld d F.QUE_POP_RING_RING) { r with items := r.items.tail, part := 0 } d)) hr' hc hp hi'
    refine ⟨_, exec_popLoRead rfl hup hb, ?_⟩
    rw [emit_out, hword, hout]
    rfl

end Sys2Proof.Machine
end

section
/-! SUPPORT. The host push port (R115-R117, R121): the reservation, the words staged, and what GO does with them. -/

namespace Sys2Proof.Machine

/-! The three rows -/

theorem exec_pushRingWrite {t : Time} (v : Word) {s : State} {d : Dev} (hd : AtTime t s d) (hup : pcieUp d = true)
    (hw : bar0Writable d R.QUE_PUSH_RING = true) : Completes (.pushRingWrite t v) s (pushRing v d) := by
  refine onDev_eq (f := runPushRingWrite t v) ?_
  simp only [runPushRingWrite, ← hd, hup, hw, Bool.and_self, if_true]

theorem exec_pushDataHiWrite {t : Time} (v : Word) {s : State} {d : Dev} (hd : AtTime t s d) (hup : pcieUp d = true)
    (hw : bar0Writable d R.QUE_PUSH_DATA_HI = true) : Completes (.pushDataHiWrite t v) s (pushHi v d) := by
  refine onDev_eq (f := runPushDataHiWrite t v) ?_
  simp only [runPushDataHiWrite, ← hd, hup, hw, Bool.and_self, if_true]

theorem exec_pushCommit {t : Time} (v : Word) {s : State} {d : Dev} (hd : AtTime t s d) (hup : pcieUp d = true)
    (hw : bar0Writable d R.QUE_PUSH_COMMIT = true) :
    Completes (.pushCommit t v) s (if bit v.toNat 0 = true then pushCommitGo d else d) := by
  refine onDev_eq (f := runPushCommit t v) ?_
  simp only [runPushCommit, ← hd, hup, hw, Bool.and_self, Bool.true_and]

/-! QUE.PUSH_RING: a reservation opens, or a result says why not -/

theorem pushRing_conflict {d : Dev} {q : Resv} (h : d.que.resv = some q) (v : Word) : pushRing v d = pushResult rcConflict d := by
  simp only [pushRing, h]

/-- The device with the ring and the words of a reservation in QUE.PUSH_RING. -/
def pushNamed (v : Word) (d : Dev) : Dev := setRg R.QUE_PUSH_RING (v &&& 0x001F03FF) d

/-- The device with a reservation of `w` words of ring `n` open. -/
def resvOpened (n w : Nat) (d : Dev) : Dev :=
  setFld F.QUE_PUSH_STATUS_WRITTEN 0 <| setFld F.QUE_PUSH_STATUS_OPEN 1 { d with que.resv := some ⟨n, w, [], false, false⟩ }

/-- A write of QUE.PUSH_RING with no reservation open, by the ring that it names. -/
theorem pushRing_eq {d : Dev} (h : d.que.resv = none) (v : Word) : pushRing v d =
    match tget d.que.rings (v.toNat % 1024) with
    | none => pushResult rcNotOwner (pushNamed v d)
    | some r =>
      if !r.hostWrite then pushResult rcNotOwner (pushNamed v d)
      else if v.toNat / 65536 % 32 > 16 ∨ v.toNat / 65536 % 32 > r.size then pushResult rcOutOfRange (pushNamed v d)
      else if v.toNat / 65536 % 32 = 0 then pushResult rcDone (pushNamed v d)
      else pushResult rcDone (resvOpened (v.toNat % 1024) (v.toNat / 65536 % 32) (pushNamed v d)) := by
  have hn : F.QUE_PUSH_RING_RING.of v = v.toNat % 1024 := by simp [Fld.of]
  have hw : F.QUE_PUSH_RING_WORDS.of v = v.toNat / 65536 % 32 := rfl
  simp only [pushRing, h, hn, hw]
  rfl

/-- A change of QUE.PUSH_STATUS and of the reservation alone. -/
def PushFrame (d e : Dev) : Prop := e.que.rings = d.que.rings ∧ ∀ o, o ≠ R.QUE_PUSH_STATUS → rg e o = rg d o

theorem pushResult_frame (rc : Nat) (d : Dev) : PushFrame d (pushResult rc d) := ⟨rfl, fun _ ho => rg_setFld_ne _ _ _ ho⟩

theorem resvOpened_frame (n w : Nat) (d : Dev) : PushFrame d (resvOpened n w d) :=
  ⟨rfl, fun _ ho => (rg_setFld_ne _ _ _ ho).trans (rg_setFld_ne _ _ _ ho)⟩

theorem PushFrame.trans {a b c : Dev} (h : PushFrame a b) (h' : PushFrame b c) : PushFrame a c :=
  ⟨h'.1.trans h.1, fun o ho => (h'.2 o ho).trans (h.2 o ho)⟩

theorem PushFrame.fld {d e : Dev} (h : PushFrame d e) {f : Fld} (hf : f.off ≠ R.QUE_PUSH_STATUS) : fld e f = fld d f := by
  simp only [Machine.fld, h.2 _ hf]

theorem pushRing_frame {d : Dev} (h : d.que.resv = none) (v : Word) : PushFrame (pushNamed v d) (pushRing v d) := by
  rw [pushRing_eq h]
  split
  · exact pushResult_frame _ _
  · split_ifs
    · exact pushResult_frame _ _
    · exact pushResult_frame _ _
    · exact pushResult_frame _ _
    · exact (resvOpened_frame _ _ _).trans (pushResult_frame _ _)

theorem pushRing_denied {d : Dev} {v : Word} (h : d.que.resv = none)
    (hno : ∀ r, tget d.que.rings (v.toNat % 1024) = some r → r.hostWrite = false) : pushRing v d = pushResult rcNotOwner (pushNamed v d) := by
  rw [pushRing_eq h]
  split
  · rfl
  · rename_i r hr
    rw [if_pos (by rw [hno r hr]; rfl)]

section
variable {d : Dev} {v : Word} {r : Ring} (h : d.que.resv = none) (hr : tget d.que.rings (v.toNat % 1024) = some r) (hhost : r.hostWrite = true)
include h hr hhost

theorem pushRing_too_long (hlong : 16 < v.toNat / 65536 % 32 ∨ r.size < v.toNat / 65536 % 32) :
    pushRing v d = pushResult rcOutOfRange (pushNamed v d) := by
  simp only [pushRing_eq h, hr, hhost]
  exact if_pos hlong

theorem pushRing_no_words (hzero : v.toNat / 65536 % 32 = 0) : pushRing v d = pushResult rcDone (pushNamed v d) := by
  simp [pushRing_eq h, hr, hhost, hzero]

theorem pushRing_opens (h1 : 1 ≤ v.toNat / 65536 % 32) (h16 : v.toNat / 65536 % 32 ≤ 16) (hsize : v.toNat / 65536 % 32 ≤ r.size) :
    pushRing v d = pushResult rcDone (resvOpened (v.toNat % 1024) (v.toNat / 65536 % 32) (pushNamed v d)) := by
  simp only [pushRing_eq h, hr, hhost]
  exact (if_neg (not_or.mpr ⟨Nat.not_lt.mpr h16, Nat.not_lt.mpr hsize⟩)).trans (if_neg (Nat.ne_of_gt h1))

end

theorem resvOpened_open (n w : Nat) (d : Dev) : fld (resvOpened n w d) F.QUE_PUSH_STATUS_OPEN = 1 := by
  rw [resvOpened, fld_setFld_disjoint _ _ _ _ (by decide) (by decide)]
  exact fld_setFld_self _ _ _ (by decide)

theorem resvOpened_written (n w : Nat) (d : Dev) : fld (resvOpened n w d) F.QUE_PUSH_STATUS_WRITTEN = 0 :=
  fld_setFld_self _ _ _ (by decide)

/-! QUE.PUSH_DATA_HI: words are staged -/

theorem pushHi_no_resv {d : Dev} (h : d.que.resv = none) (v : Word) : pushHi v d = d := by simp only [pushHi, h]

theorem pushHi_stages {d : Dev} {q : Resv} (h : d.que.resv = some q) (hlen : q.staged.length < 31) (v : Word) :
    pushHi v d = setFld F.QUE_PUSH_STATUS_WRITTEN (q.staged.length + 1)
      { d with que.resv := some { q with staged := q.staged ++ [v.toNat * 2 ^ 32 + d.que.dataLo] } } := by
  simp only [pushHi, h, if_neg (Nat.not_le.mpr hlen)]

/-! QUE.PUSH_COMMIT.GO (R116, R117, R121) -/

/-- The device with no reservation open. -/
def resvEnded (d : Dev) : Dev :=
  setFld F.QUE_PUSH_STATUS_WRITTEN 0 <| setFld F.QUE_PUSH_STATUS_OPEN 0 { d with que.resv := none }

theorem resvEnded_open (d : Dev) : fld (resvEnded d) F.QUE_PUSH_STATUS_OPEN = 0 := by
  rw [resvEnded, fld_setFld_disjoint _ _ _ _ (by decide) (by decide)]
  exact fld_setFld_self _ _ _ (by decide)

/-- The device after the ring's arbiter has granted the words staged, or found no page for them. -/
def itemCommitted (q : Resv) (d : Dev) : Dev :=
  let x := ringCommit q.ring q.staged (pushResult rcDone (resvEnded d))
  if x.2 then x.1 else postPool x.1

/-- The device after GO has found its reservation voided by a flush, which the ring counts. -/
def flushedCounted (q : Resv) (d : Dev) : Dev :=
  { resvEnded d with que.rings := tmod d.que.rings q.ring fun r => { r with flushed := min (r.flushed + 1) 0xFFFFFFFF } }

/-- The words staged spell no item of the length reserved (R115). -/
abbrev Resv.illFormed (q : Resv) : Prop := q.staged = [] ∨ itemOk q.staged.length q.words (q.staged.headD 0) = false

theorem pushCommitGo_no_resv {d : Dev} (h : d.que.resv = none) : pushCommitGo d = d := by simp only [pushCommitGo, h]

section
variable {d : Dev} {q : Resv} (h : d.que.resv = some q)
include h

theorem pushCommitGo_dead (hdead : q.dead = true) : pushCommitGo d = pushResult rcAborted (resvEnded d) := by
  simp only [pushCommitGo, h, hdead, if_true, resvEnded]

theorem pushCommitGo_flushed (hdead : q.dead = false) (hf : q.flushed = true) :
    pushCommitGo d = pushResult rcAborted (flushedCounted q d) := by
  simp only [pushCommitGo, h, hdead, hf, Bool.false_eq_true, if_false, if_true]
  rfl

theorem pushCommitGo_ill_formed (hdead : q.dead = false) (hf : q.flushed = false) (hill : q.illFormed) :
    pushCommitGo d = pushResult rcOutOfRange (resvEnded d) := by
  simp only [pushCommitGo, h, hdead, hf, Bool.false_eq_true, if_false]
  unfold Resv.illFormed at hill
  cases hs : q.staged with
  | nil => rfl
  | cons w ws =>
    rw [hs] at hill
    exact if_neg (by simpa using hill)

theorem pushCommitGo_well_formed (hdead : q.dead = false) (hf : q.flushed = false) (hne : q.staged ≠ [])
    (hok : itemOk q.staged.length q.words (q.staged.headD 0) = true) : pushCommitGo d = itemCommitted q d := by
  simp only [pushCommitGo, h, hdead, hf, Bool.false_eq_true, if_false, itemCommitted]
  obtain ⟨w, ws, hs⟩ := List.exists_cons_of_ne_nil hne
  rw [hs] at hok ⊢
  exact if_pos hok

end

theorem itemCommitted_frame (q : Resv) (d : Dev) : PostFrame (pushResult rcDone (resvEnded d)) (itemCommitted q d) := by
  unfold itemCommitted
  extract_lets x
  have hx : PostFrame (pushResult rcDone (resvEnded d)) x.1 := ringCommit_frame _ _ _
  split
  · exact hx
  · exact hx.trans (postPool_frame _)

theorem itemCommitted_port (q : Resv) (d : Dev) : PortFrame (pushResult rcDone (resvEnded d)) (itemCommitted q d) := by
  unfold itemCommitted
  extract_lets x
  have hx : PortFrame (pushResult rcDone (resvEnded d)) x.1 := ringCommit_port _ _ _
  split
  · exact hx
  · exact hx.trans (postPool_port _)

/-- A commit to an on-chip ring with room needs no page. -/
theorem ringCommit_onchip_granted {n : Nat} {ws : List Nat} {r : Ring} {d : Dev} (hr : tget d.que.rings n = some r) (hp : r.plain = false)
    (hu : r.used + ws.length ≤ r.size) : (ringCommit n ws d).2 = true := by
  simp [ringCommit, hr, makeRoom_fits _ _ _ hu, hp]

/-- An item that fits an on-chip ring stands behind the items there. -/
theorem itemCommitted_onchip {q : Resv} {d : Dev} {r : Ring} (hr : tget d.que.rings q.ring = some r) (hp : r.plain = false)
    (hu : r.used + q.staged.length ≤ r.size) :
    ∃ r', tget (itemCommitted q d).que.rings q.ring = some r' ∧ r'.items = r.items ++ [⟨r.wpos, q.staged⟩] ∧
      r'.wpos = (r.wpos + q.staged.length) % r.size := by
  have hr' : tget (pushResult rcDone (resvEnded d)).que.rings q.ring = some r := hr
  rw [itemCommitted, if_pos (ringCommit_onchip_granted hr' hp hu)]
  obtain ⟨r', h1, h2, h3, -⟩ := ringCommit_fits q.ring q.staged r _ hr' hp hu
  exact ⟨r', h1, h2, h3⟩

theorem flushedCounted_items (q : Resv) (d : Dev) (m : Nat) :
    (tget (flushedCounted q d).que.rings m).map (·.items) = (tget d.que.rings m).map (·.items) := by
  rw [flushedCounted, tget_tmod]
  split
  · rename_i hm
    rw [hm, Option.map_map]
    rfl
  · rfl

theorem pushResult_open (rc : Nat) (d : Dev) : fld (pushResult rc d) F.QUE_PUSH_STATUS_OPEN = fld d F.QUE_PUSH_STATUS_OPEN :=
  fld_setFld_disjoint _ _ _ _ (by decide) (by decide)

/-- GO ends the reservation, whatever becomes of its words. -/
theorem pushCommitGo_ends {d : Dev} {q : Resv} (h : d.que.resv = some q) :
    (pushCommitGo d).que.resv = none ∧ fld (pushCommitGo d) F.QUE_PUSH_STATUS_OPEN = 0 := by
  have hend (rc : Nat) : fld (pushResult rc (resvEnded d)) F.QUE_PUSH_STATUS_OPEN = 0 := (pushResult_open rc _).trans (resvEnded_open d)
  cases hdead : q.dead with
  | true =>
    rw [pushCommitGo_dead h hdead]
    exact ⟨rfl, hend _⟩
  | false =>
    cases hf : q.flushed with
    | true =>
      rw [pushCommitGo_flushed h hdead hf]
      exact ⟨rfl, (pushResult_open _ _).trans (resvEnded_open d)⟩
    | false =>
      by_cases hill : q.illFormed
      · rw [pushCommitGo_ill_formed h hdead hf hill]
        exact ⟨rfl, hend _⟩
      · obtain ⟨hne, hok⟩ := not_or.mp hill
        rw [pushCommitGo_well_formed h hdead hf hne (Bool.eq_true_of_not_eq_false hok)]
        exact ⟨congrArg (·.1) (itemCommitted_port q d), ((itemCommitted_frame q d).fld _ (by decide)).trans (hend _)⟩

theorem pushResult_result {rc : Nat} (h : rc < 256) (d : Dev) : fld (pushResult rc d) F.QUE_PUSH_STATUS_RESULT = rc :=
  (pushResult_shows rc d h).1

/-- Settles O25: a reservation opens by the rules of `pushRing_eq`, and GO ends it (`pushCommitGo_ends`) in one of four ways. -/
theorem hostPushesWholeItems : Obligations.HostPushesWholeItems := by
  intro t v q s d hd hup hwr hwd hwc n w
  have hring := exec_pushRingWrite v hd hup hwr
  have hhi := exec_pushDataHiWrite v hd hup hwd
  have hgo := exec_pushCommit v hd hup hwc
  refine ⟨fun hq => ?_, fun hq => ?_, fun hq => ⟨?_, ?_⟩, fun hq hlen => ?_, fun hv => ?_, fun hv hq => ?_⟩
  · rw [pushRing_conflict hq] at hring
    exact ⟨_, hring, pushResult_result (by decide) d, rfl, fun o ho => rg_setFld_ne _ _ _ ho⟩
  · have hframe := pushRing_frame hq v
    obtain ⟨hn, hw⟩ := fld_ring_word v d
    refine ⟨_, hring, (hframe.fld (by decide)).trans hn, (hframe.fld (by decide)).trans hw, hframe.1, fun hno => ?_,
      fun r hr hhost => ⟨fun hlong => ?_, fun hzero => ?_, fun h1 h16 hsize => ?_⟩⟩
    · rw [pushRing_denied hq hno]
      exact ⟨pushResult_result (by decide) _, hq⟩
    · rw [pushRing_too_long hq hr hhost hlong]
      exact ⟨pushResult_result (by decide) _, hq⟩
    · rw [pushRing_no_words hq hr hhost hzero]
      exact ⟨pushResult_result (by decide) _, hq⟩
    · rw [pushRing_opens hq hr hhost h1 h16 hsize]
      obtain ⟨hres, -, -, hopen, hwritten⟩ := pushResult_shows rcDone (resvOpened n w (pushNamed v d)) (by decide)
      exact ⟨hres, hopen.trans (resvOpened_open _ _ _), hwritten.trans (resvOpened_written _ _ _), _, rfl, rfl, rfl, rfl⟩
  · rwa [pushHi_no_resv hq] at hhi
  · rwa [pushCommitGo_no_resv hq, ite_self] at hgo
  · rw [pushHi_stages hq hlen] at hhi
    exact ⟨_, _, hhi, rfl, rfl, rfl, rfl,
      (fld_setFld_self _ _ _ (by decide)).trans (Nat.mod_eq_of_lt (show q.staged.length + 1 < 2 ^ 5 by omega)), rfl⟩
  · rwa [hv, if_neg Bool.false_ne_true] at hgo
  · rw [if_pos hv] at hgo
    obtain ⟨hresv, hopen⟩ := pushCommitGo_ends hq
    refine ⟨_, hgo, hresv, hopen, fun hvoid => ?_, fun hdead hf hill => ?_, fun r hdead hf hne hok hr hp hu => ?_⟩
    · cases hdead : q.dead with
      | true =>
        rw [pushCommitGo_dead hq hdead]
        exact ⟨pushResult_result (by decide) _, fun _ => rfl⟩
      | false =>
        have hf : q.flushed = true := hvoid.resolve_left (by simp [hdead])
        rw [pushCommitGo_flushed hq hdead hf]
        exact ⟨pushResult_result (by decide) _, flushedCounted_items q d⟩
    · rw [pushCommitGo_ill_formed hq hdead hf hill]
      exact ⟨pushResult_result (by decide) _, rfl⟩
    · rw [pushCommitGo_well_formed hq hdead hf hne hok]
      exact ⟨((itemCommitted_frame q d).fld _ (by decide)).trans (pushResult_result (by decide) _), itemCommitted_onchip hr hp hu⟩

end Sys2Proof.Machine
end

section
/-! SUPPORT. Inboxes, dispatch and completion (R110, R111, R113): which push is granted, which task goes, and what its end leaves. -/

namespace Sys2Proof.Machine

/-! INBOX_PUSH and PUSH_WAIT_GRANTED (R113) -/

theorem exec_inboxPush {t : Time} (n x : Nat) {s : State} {d : Dev} (hd : AtTime t s d) : Completes (.inboxPush t n x) s (pushItem n x d) := by
  subst hd
  exact onDev_eq (f := runInboxPush t n x) rfl

theorem exec_pushWaitGranted {t : Time} (n : Nat) {s : State} {d : Dev} (hd : AtTime t s d) :
    Completes (.pushWaitGranted t n) s (grantWaiting n d) := by
  subst hd
  exact onDev_eq (f := runPushWaitGranted t n) rfl

theorem pushItem_granted {n : Nat} {d : Dev} {k : Task} (hk : tget d.sch.tasks n = some k) (hroom : pushRoom d k = true)
    (hw : waitsAt d n = []) (x : Nat) : pushItem n x d = grantPush n x d := by
  simp [pushItem, hk, hroom, hw]

/-- A push waits where there is no room for it, or where others wait already. -/
theorem push_not_granted {d : Dev} {k : Task} {n : Nat} (h : pushRoom d k = false ∨ waitsAt d n ≠ []) :
    (pushRoom d k && waitsAt d n == []) = false := by
  rcases h with h | h <;> simp [h]

theorem grantWaiting_oldest {n : Nat} {d : Dev} {k : Task} {w : Nat} {ws : List Nat} (hk : tget d.sch.tasks n = some k)
    (hw : waitsAt d n = w :: ws) (hroom : pushRoom d k = true) : grantWaiting n d = grantPush n w (setWaits n ws d) := by
  simp only [grantWaiting, hk, hw, hroom, if_true]

theorem grantWaiting_none {n : Nat} {d : Dev} {k : Task} (hk : tget d.sch.tasks n = some k) (h : waitsAt d n = [] ∨ pushRoom d k = false) :
    grantWaiting n d = d := by
  cases hw : waitsAt d n with
  | nil => simp only [grantWaiting, hk, hw]
  | cons w ws =>
    have hroom : pushRoom d k = false := h.resolve_left (by simp [hw])
    simp only [grantWaiting, hk, hw, hroom, Bool.false_eq_true, if_false]

/-! TASK_DISPATCH (R110, R111) -/

theorem dispatchNext_idle {engine : Nat} {d : Dev} (h : topLevel d engine 16 = none) (fuel : Nat) : dispatchNext engine fuel d = d := by
  cases fuel with
  | zero => rfl
  | succ fuel => simp only [dispatchNext, h]

/-- The head task of the highest level goes where its group lets it. -/
theorem dispatchNext_head {engine l n : Nat} {rest : List Nat} {d : Dev} {k : Task} (hl : topLevel d engine 16 = some l)
    (hr : readyAt d engine l = n :: rest) (hk : tget d.sch.tasks n = some k) (hg : groupOk d k = true) (fuel : Nat) :
    dispatchNext engine (fuel + 1) d = dispatchTask n k (setReady engine l rest d) := by
  have hg' : groupOk (setReady engine l rest d) k = true := hg
  simp only [dispatchNext, hl, hr, setReady_tasks, hk, hg', if_true]

theorem exec_taskDispatch_idle {t : Time} {engine : Nat} {s : State} {d : Dev} (hd : AtTime t s d)
    (h : d.sys.mode = .hold ∨ topLevel d engine 16 = none) (lost : Bool) (tables : List Nat) :
    Completes (.taskDispatch t engine lost tables) s d := by
  refine onDev_eq (f := runTaskDispatch t engine lost tables) ?_
  by_cases hm : d.sys.mode = .hold
  · simp only [runTaskDispatch, ← hd, if_pos hm]
  · simp only [runTaskDispatch, ← hd, if_neg hm, dispatchNext_idle (h.resolve_left hm), find_same]

/-- The engine works on the task that a dispatch has handed over, or loses its word. -/
theorem exec_taskDispatch_handed {t : Time} {engine n seen : Nat} {item : Option Nat} {s : State} {d w : Dev} (hd : AtTime t s d)
    (hm : d.sys.mode ≠ .hold) (hw : dispatchNext engine (d.sch.tasks.length + 1) d = w) (hnew : tget d.sch.handed n = none)
    (hh : w.sch.handed = tput d.sch.handed n (seen, item)) (lost : Bool) (tables : List Nat) :
    Completes (.taskDispatch t engine lost tables) s (if lost then spmLost 0x40000 65536 w else engineWork n seen item tables w) := by
  refine onDev_eq (f := runTaskDispatch t engine lost tables) ?_
  simp only [runTaskDispatch, ← hd, if_neg hm, hw, hh, find_put _ n _ (tget_none_ne _ _ hnew)]

/-! TASK_COMPLETE (R110, R111) -/

theorem exec_taskComplete {t : Time} (n : Nat) {s : State} {d : Dev} (hd : AtTime t s d) : Completes (.taskComplete t n) s (schComplete n d) := by
  subst hd
  exact onDev_eq (f := runTaskComplete t n) rfl

theorem schComplete_idle {n : Nat} {d : Dev} {k : Task} (hk : tget d.sch.tasks n = some k) (hr : k.running = false) : schComplete n d = d := by
  simp [schComplete, hk, hr]

/-- Settles O24: a push is granted or waits, the head task goes by `dispatchTask`, and a completion is `schComplete`. -/
theorem tasksKeepTheirOrder : Obligations.TasksKeepTheirOrder := by
  intro t n x engine lost tables k s d hd hk stamp
  have hpush := exec_inboxPush n x hd
  have hgrant := exec_pushWaitGranted n hd
  have hend := exec_taskComplete n hd
  refine ⟨fun hroom hw => ?_, fun hno => ?_, fun w ws hw hroom => ?_, fun hno => ?_, fun hno => exec_taskDispatch_idle hd hno lost tables,
    fun l rest hm hl hready hg hnew => ?_, fun hr => ?_, fun hr => ?_⟩
  · rw [pushItem_granted hk hroom hw] at hpush
    obtain ⟨⟨k', hk', hinbox, hflag, -, -⟩, hothers, hissue, -, -, hrest⟩ := grantPush_spec n x d k hk
    exact ⟨_, k', hpush, hk', hinbox, hflag, hissue, hothers, congrArg (·.que) hrest, congrArg (·.plain) hrest⟩
  · obtain ⟨hwaits, htasks, hgroups, hcount⟩ := pushItem_waits n x d k hk (push_not_granted hno)
    exact ⟨_, hpush, hwaits, htasks, hgroups, by rw [hcount, min1_toNat]⟩
  · rw [grantWaiting_oldest hk hw hroom] at hgrant
    obtain ⟨⟨k', hk', hinbox, -, -, -⟩, -, -, hwaits, -, -⟩ := grantPush_spec n w (setWaits n ws d) k hk
    have hleft : waitsAt (grantPush n w (setWaits n ws d)) n = ws := by rw [waitsAt, hwaits, ← waitsAt, waitsAt_setWaits]
    exact ⟨_, k', hgrant, hleft, hk', hinbox⟩
  · rwa [grantWaiting_none hk hno] at hgrant
  · intro item
    obtain ⟨⟨k', hk', hrun, hqueued, hinbox, hcount, -⟩, hothers, hhanded, hbusy, hdispatches, hkept⟩ :=
      dispatchTask_spec n k (setReady engine l rest d)
    refine ⟨_, k', exec_taskDispatch_handed hd hm (dispatchNext_head hl hready hk hg _) hnew hhanded lost tables,
      hk', hrun, hqueued, hcount, hinbox, hbusy, hothers, ?_, ?_⟩
    · rw [readyAt, hkept, ← readyAt, readyAt_setReady]
    · rw [hdispatches, min1_toNat]
      rfl
  · rwa [schComplete_idle hk hr] at hend
  · obtain ⟨k', hk', hrun, hinbox, hhanded, hgroup⟩ := schComplete_spec n d k hk hr
    exact ⟨_, k', hend, hk', hrun, hinbox, hhanded, hgroup⟩

end Sys2Proof.Machine
end

section
/-! SUPPORT. Ingest streams (R130, R132, R134, R40): what a packet does to the stream that it matches, and when a stream is lost. -/

namespace Sys2Proof.Machine

theorem postIng_frame (code i : Nat) (d : Dev) : PostFrame d (postIng code i d) := postCode_frame _ _ _ _ _

/-- A saturating count goes up by one where its event has happened, and no other register moves (R9). -/
theorem bump_where (p : Prop) [Decidable p] (o : Nat) (d : Dev) :
    (rg (if p then bump o d else d) o).toNat = (if p then min ((rg d o).toNat + 1) 0xFFFFFFFF else (rg d o).toNat) ∧
      ∀ q, q ≠ o → rg (if p then bump o d else d) q = rg d q := by
  by_cases hp : p
  · rw [if_pos hp, if_pos hp]
    exact ⟨by rw [rg_bump_self, min1_toNat], fun q hq => rg_bump_ne d hq⟩
  · rw [if_neg hp, if_neg hp]
    exact ⟨rfl, fun _ _ => rfl⟩

/-! ST2110_PACKET_RX (R130) -/

theorem exec_st2110PacketRx {t : Time} (p : VideoPkt) {s : State} {d : Dev} (hd : AtTime t s d) :
    Completes (.st2110PacketRx t p) s (videoRx p d) := by
  subst hd
  exact onDev_eq (f := runSt2110PacketRx t p) rfl

theorem videoRx_unmatched {p : VideoPkt} {d : Dev} (h : ∀ e, e ∈ d.vid.streams → streamMatch p e.2 = false) : videoRx p d = d :=
  videoRx_none p _ h d

section
variable {p : VideoPkt} {i : Nat} {x : Stream} {d : Dev} (hs : d.vid.streams = [(i, x)]) (hm : streamMatch p x = true)
include hs hm

/-- R40: in HOLD a frame counts as dropped at its last packet, and nothing is received. -/
theorem videoRx_hold (hh : d.sys.mode = .hold) :
    videoRx p d = if formatMatch p x = true ∧ p.marker = true then bump R.SYS_HOLD_DROPS d else d := by
  rw [videoRx_one hs hm, if_pos hh]
  simp only [Bool.and_eq_true]

theorem videoRx_wrong_format (hh : d.sys.mode ≠ .hold) (hf : formatMatch p x = false) :
    videoRx p d = bump (R.PKT_ING_FORMAT_DROPS i) d := by
  rw [videoRx_one hs hm, if_neg hh, if_neg (by simp [hf])]

theorem videoRx_accepted (hh : d.sys.mode ≠ .hold) (hf : formatMatch p x = true) : videoRx p d = streamPacket i x p d := by
  rw [videoRx_one hs hm, if_neg hh, if_pos hf]

end

/-! STREAM_LOST (R134) -/

section
variable {i : Nat} {x : Stream} {d : Dev} (hx : tget d.vid.streams i = some x)
include hx

/-- The silence that loses a stream is counted from its last packet, while it receives, and stands still in HOLD. -/
theorem exec_streamLost {t : Time} {s : State} (hd : AtTime t s d) :
    Completes (.streamLost t i) s
      (if x.joined = true ∧ d.sys.mode ≠ .hold ∧ x.heard + ms 500 ≤ d.raw then loseStream i d else d) := by
  refine onDev_eq (f := runStreamLost t i) ?_
  simp only [runStreamLost, ← hd, hx, Bool.and_eq_true, bne_iff_ne, decide_eq_true_eq, and_assoc]

theorem loseStream_again (hl : x.lost = true) : loseStream i d = d := by simp [loseStream, hx, hl]

theorem loseStream_once (hl : x.lost = false) : loseStream i d = postIng 0x10 i (setStream i { x with lost := true } d) := by
  simp [loseStream, hx, hl]

/-- A loss sets LOST and posts; the stream's buffers and every other block stay. -/
theorem loseStream_shows (hl : x.lost = false) :
    tget (loseStream i d).vid.streams i = some { x with lost := true } ∧ (loseStream i d).sys = d.sys ∧ (loseStream i d).outp = d.outp ∧
      ∀ o, o ∉ postCounters → rg (loseStream i d) o = rg d o := by
  have hframe := postIng_frame 0x10 i (setStream i { x with lost := true } d)
  rw [← loseStream_once hx hl] at hframe
  refine ⟨?_, hframe.sys, hframe.outp, fun o ho => (hframe.2 o ho).trans (rg_congr rfl o)⟩
  rw [hframe.vid]
  exact tget_tput_self _ _ _

end

/-- Settles O33: a packet is `videoRx`, by the mode and the format of the one stream that it matches, and a loss is `loseStream`. -/
theorem streamsTakeFramesAndAreLost : Obligations.StreamsTakeFramesAndAreLost := by
  intro t p i x s d hd
  have hrx := exec_st2110PacketRx p hd
  refine ⟨fun hno => ?_, fun hs hm => ⟨fun hh => ?_, fun hh hf => ?_, fun hh hf hlen hsrd hok hmark hframe hseq hlast => ?_⟩, fun hx => ?_⟩
  · rwa [videoRx_unmatched hno] at hrx
  · rw [videoRx_hold hs hm hh] at hrx
    obtain ⟨hcount, hkeeps⟩ := bump_where (formatMatch p x = true ∧ p.marker = true) R.SYS_HOLD_DROPS d
    exact ⟨_, hrx, by split <;> rfl, by split <;> rfl, hkeeps, hcount⟩
  · rw [videoRx_wrong_format hs hm hh hf] at hrx
    exact ⟨_, hrx, rfl, rfl, by rw [rg_bump_self, min1_toNat], fun o ho => rg_bump_ne d ho⟩
  · rw [videoRx_accepted hs hm hh hf] at hrx
    obtain ⟨y, hy, hc, htime, hlost, hl, hheard, hnone, hcount⟩ := streamPacket_completes i x p d hlen hsrd hok hmark hframe hlast hseq
    exact ⟨_, y, hrx, hy, hc, htime, hlost, hl, hheard, hnone, by rw [hcount, min1_toNat]⟩
  · have hloss := exec_streamLost hx hd
    refine ⟨fun hno => ?_, fun hj hh hdue hl => ?_⟩
    · by_cases hl : x.lost = true
      · rwa [loseStream_again hx hl, ite_self] at hloss
      · rwa [if_neg] at hloss
        rintro ⟨hj, hh, hdue⟩
        rcases hno with h | h | h | h
        · simp [hj] at h
        · exact hh h
        · exact absurd hdue (Nat.not_le.mpr h)
        · exact hl h
    · rw [if_pos ⟨hj, hh, hdue⟩] at hloss
      exact ⟨_, hloss, loseStream_shows hx hl⟩

end Sys2Proof.Machine
end

section
/-! SUPPORT. Raster passes (R138, R145, R151) and the end of a canvas's domain switch (R264). -/

namespace Sys2Proof.Machine

theorem setCanvas_canvas (i : Nat) (c : Canvas) (d : Dev) : canvasAt (setCanvas i c d) i = some c := tget_tput_self _ _ _

/-! What each row does on a canvas with a pass, and on one without -/

section
variable {t : Time} {i : Nat} {c : Canvas} {s : State} {d : Dev} (hd : AtTime t s d) (hc : canvasAt d i = some c)
include hd hc

theorem exec_passComplete_running {p : Pass} (hp : c.pass = some p) : Completes (.passComplete t i) s
    (if c.timing.bands ≤ p.band ∧ canvasTime d c ≤ deadline d c p then publish i c p d else d) := by
  subst hd
  refine onDev_eq (f := runPassComplete t i) ?_
  simp only [runPassComplete, hc, hp]

theorem exec_underrun_running {p : Pass} (hp : c.pass = some p) : Completes (.underrun t i) s
    (if deadline d c p < canvasTime d c then postBands i none (abortPass i c p d) else d) := by
  subst hd
  refine onDev_eq (f := runUnderrun t i) ?_
  simp only [runUnderrun, hc, hp]

theorem exec_bandWritten_running {p : Pass} (hp : c.pass = some p) (bad : Bool) : Completes (.bandWritten t i bad) s
    (if c.timing.bands ≤ p.band then d
      else if bad then postBands i none (abortPass i c p (spmLost 0x70000 262144 d))
      else postBands i (some p.band) (writeBand i c p d)) := by
  subst hd
  refine onDev_eq (f := runBandWritten t i bad) ?_
  simp only [runBandWritten, hc, hp]

/-- Without a pass there is nothing to end, to shed or to write (log 3). -/
theorem exec_passRows_idle (hp : c.pass = none) :
    Completes (.passComplete t i) s d ∧ Completes (.underrun t i) s d ∧ ∀ bad, Completes (.bandWritten t i bad) s d := by
  subst hd
  refine ⟨onDev_eq (f := runPassComplete t i) ?_, onDev_eq (f := runUnderrun t i) ?_, fun bad => onDev_eq (f := runBandWritten t i bad) ?_⟩
  · simp only [runPassComplete, hc, hp]
  · simp only [runUnderrun, hc, hp]
  · simp only [runBandWritten, hc, hp]

theorem exec_switchDone : Completes (.switchDone t i) s
    (if c.switching = true ∧ carryNow d c = 0 then
      postTim 3 0x0B i (unsgn 32 (c.nextN - 1)) (setCanvas i { c with switching := false, k0 := 0, ppm := 0 } d)
    else d) := by
  subst hd
  refine onDev_eq (f := runSwitchDone t i) ?_
  simp only [runSwitchDone, hc]

end

/-! What the effects leave -/

/-- A band that is written moves the pass on to the next band of the same frame (R145). -/
theorem bandDone_shows (i : Nat) (c : Canvas) (p : Pass) (b : Option Nat) (d : Dev) :
    ∃ q, canvasAt (postBands i b (writeBand i c p d)) i = some { c with pass := some q } ∧ q.band = p.band + 1 ∧ q.frame = p.frame ∧
      q.layers = p.layers ∧ (postBands i b (writeBand i c p d)).sys = d.sys := by
  obtain ⟨⟨q, hq, hband, hframe, hlayers⟩, hsys⟩ := writeBand_canvas i c p d
  exact ⟨q, (postBands_canvas i i b _).trans hq, hband, hframe, hlayers,
    (congrArg (fun e : Dev => e.sys) (postBands_rest i b (writeBand i c p d))).trans hsys⟩

theorem switchDone_shows (i : Nat) (c : Canvas) (n : Nat) (d : Dev) :
    canvasAt (postTim 3 0x0B i n (setCanvas i c d)) i = some c ∧ (postTim 3 0x0B i n (setCanvas i c d)).sys = d.sys ∧
      ∀ o, o ∉ postCounters → rg (postTim 3 0x0B i n (setCanvas i c d)) o = rg d o := by
  have hframe := postTim_frame 3 0x0B i n (setCanvas i c d)
  refine ⟨?_, hframe.sys, fun o ho => (hframe.2 o ho).trans (rg_congr rfl o)⟩
  rw [canvasAt, hframe.vid]
  exact setCanvas_canvas i c d

/-- Settles O34: a pass ends by `publish` or by `abortPass`, goes on by `writeBand`, and a switch ends where its carry has. -/
theorem passesPublishOrAbort : Obligations.PassesPublishOrAbort := by
  intro t i c s d hd hc
  have hswitch := exec_switchDone hd hc
  refine ⟨fun p hp => ?_, exec_passRows_idle hd hc, fun hs hk => ?_, fun hno => ?_⟩
  · have hend := exec_passComplete_running hd hc hp
    have hlate := exec_underrun_running hd hc hp
    have hband := exec_bandWritten_running hd hc hp
    refine ⟨fun hb hdue => ?_, fun hno => ?_, fun hdue => ?_, fun hdue => ?_, fun hb => ⟨?_, ?_⟩, fun hb bad => ?_⟩
    · rw [if_pos ⟨hb, hdue⟩] at hend
      obtain ⟨hplain, hsch⟩ := publish_rest i c p d
      exact ⟨_, hend, publish_canvas i c p d, by rw [publish_counts, min1_toNat], hplain, hsch⟩
    · rwa [if_neg hno] at hend
    · rw [if_pos hdue] at hlate
      obtain ⟨⟨u, hu⟩, hcount, hsys⟩ := abort_all i c p d none
      exact ⟨_, u, hlate, hu, hcount, hsys⟩
    · rwa [if_neg (Int.not_lt.mpr hdue)] at hlate
    · have hbad := hband true
      rw [if_neg (Nat.not_le.mpr hb), if_pos rfl] at hbad
      obtain ⟨⟨u, hu⟩, hcount, -⟩ := abort_all i c p (spmLost 0x70000 262144 d) none
      exact ⟨_, u, hbad, hu, by rw [hcount, spmLost_aborts]⟩
    · have hgood := hband false
      rw [if_neg (Nat.not_le.mpr hb), if_neg Bool.false_ne_true] at hgood
      obtain ⟨q, hq, hnext, hframe, hlayers, hsys⟩ := bandDone_shows i c p (some p.band) d
      exact ⟨_, q, hgood, hq, hnext, hframe, hlayers, hsys⟩
    · have hover := hband bad
      rwa [if_pos hb] at hover
  · rw [if_pos ⟨hs, hk⟩] at hswitch
    exact ⟨_, hswitch, switchDone_shows _ _ _ _⟩
  · rwa [if_neg fun ⟨hs, hk⟩ => hno.elim (fun h => by simp [hs] at h) (fun h => h hk)] at hswitch

end Sys2Proof.Machine
end

section
/-! SUPPORT. RETIME (R149, R150): the code that a failed check answers, and the timing that an admitted one stages. -/

namespace Sys2Proof.Machine

theorem retimeBoundary_none {c : Canvas} (h : c.regrid = none) : retimeBoundary c = c.nextN := by simp only [retimeBoundary, h]

theorem retimeBoundary_waiting {c : Canvas} {y : Regrid} (h : c.regrid = some y) (hw : y.waiting = true) : retimeBoundary c = y.boundary := by
  simp only [retimeBoundary, h, hw, if_true]

/-- The DATA of a RETIME: the instant of the first presentation under the new timing, counted from its boundary (R150). -/
def retimeData (d : Dev) (c : Canvas) (g : Timing) : List Byte :=
  timeBytes (g.at_ (g.after (phiOf d c) (tickAt d c (retimeBoundary c)) + (g.lead : Int)) + phiOf d c)

theorem retimeStage_data (i : Nat) (c : Canvas) (g : Timing) (rs : List (List Byte)) (all : List (Nat × List (Nat × Nat))) (d : Dev) :
    (retimeStage i c g rs all d).2 = retimeData d c g := rfl

theorem OutOnly.vid {d e : Dev} (h : OutOnly d e) : e.vid = d.vid := by
  unfold OutOnly at h
  exact congrArg (·.vid) h

/-- The new timing waits on the canvas, at its boundary; the timing in force stays (R149). -/
theorem retimeStage_canvas (i : Nat) (c : Canvas) (g : Timing) (rs : List (List Byte)) (all : List (Nat × List (Nat × Nat))) (d : Dev) :
    ∃ x : Regrid, canvasAt (retimeStage i c g rs all d).1 i = some { c with regrid := some x } ∧ x.timing = some g ∧
      x.boundary = retimeBoundary c := by
  unfold retimeStage
  extract_lets b phi a data x charged aborted
  refine ⟨x, ?_, rfl, rfl⟩
  rw [canvasAt, (tellRates_outOnly i _).vid]
  exact setCanvas_canvas i _ aborted

section
variable {h : CmdHdr} {handle : Word} {b : List Byte} {d : Dev} {c : Canvas} (hk : hKind handle = 5) (ho : (objOf d handle).isSome = true)
  (hc : canvasAt d (hIndex handle) = some c)
include hk ho hc

theorem retimeBody_refused {x : Refuse} (hx : retimeCheck d h (hIndex handle) c b = .error x) :
    retimeBody h handle b d = (countRefusal x d, failed handle x) := by
  rw [retimeBody, onHandle_ok hk ho]
  simp only [hc, hx]

theorem retimeBody_admitted {g : Timing} {rs : List (List Byte)} {all : List (Nat × List (Nat × Nat))}
    (hx : retimeCheck d h (hIndex handle) c b = .ok (g, rs, all)) :
    retimeBody h handle b d = ((retimeStage (hIndex handle) c g rs all d).1, done handle (retimeData d c g)) := by
  rw [retimeBody, onHandle_ok hk ho]
  simp only [hc, hx, retimeStage_data]

end

/-- Settles O37: a RETIME is refused by its handle or its checks, or staged by `retimeStage`. -/
theorem retimeIsStaged : Obligations.RetimeIsStaged := by
  intro t h handle b s d c hd hs
  refine ⟨fun hbad => row_fails (fun _ => rfl) hd hs (onHandle_bad hbad), fun hk ho hc => ⟨fun x hx => ?_, fun g rs all hx => ?_⟩⟩
  · exact ⟨_, row_fails (fun _ => rfl) hd hs (retimeBody_refused hk ho hc hx), countRefusal_shows x d⟩
  · obtain ⟨x, hcanvas, htiming, hboundary⟩ := retimeStage_canvas (hIndex handle) c g rs all d
    exact ⟨_, x, row_answers (fun _ => rfl) hd hs (retimeBody_admitted hk ho hc hx), hcanvas, htiming, hboundary,
      fun hnone => hboundary.trans (retimeBoundary_none hnone), fun y hy hw => hboundary.trans (retimeBoundary_waiting hy hw)⟩

end Sys2Proof.Machine
end

section
/-! SUPPORT. Input universes (R161, R162, R164): what each row of R161 does with a datagram, and how a source and a universe end. -/

namespace Sys2Proof.Machine

/-! What the three rows run -/

/-- Before CONFIGURE, and on a port that is not a fixture port, nothing is received. -/
theorem exec_e131PacketRx_deaf {t : Time} {port : Nat} (p : E131Pkt) {s : State} {d : Dev} (hd : AtTime t s d)
    (h : timeRuns d = false ∨ 16 ≤ port) : Completes (.e131PacketRx t port p) s d := by
  subst hd
  refine onDev_eq (f := runE131PacketRx t port p) ?_
  simp only [runE131PacketRx, Bool.and_eq_true, decide_eq_true_eq]
  rw [if_neg]
  rintro ⟨hrun, hport⟩
  rcases h with h | h
  · simp [hrun] at h
  · omega

section
variable {t : Time} {i : Nat} {u : Input} {s : State} {d : Dev} (hd : AtTime t s d) (hu : inputAt d i = some u)
include hd hu

theorem exec_sourceLost {pos : Nat} {x : ESource} (hx : tget u.srcs pos = some x) :
    Completes (.sourceLost t i pos) s (if x.heard + ms 2500 ≤ inNow d u then allOverrides (loseSource i pos d) else d) := by
  subst hd
  refine onDev_eq (f := runSourceLost t i pos) ?_
  simp only [runSourceLost, hu, hx]

theorem exec_inputReleased :
    Completes (.inputReleased t i) s (if releaseDue d u then allOverrides (releaseInput i d) else d) := by
  subst hd
  refine onDev_eq (f := runInputReleased t i) ?_
  simp only [runInputReleased, hu]

end

/-! The rows of R161, in their order -/

section
variable {port : Nat} {p : E131Pkt} {d : Dev}

theorem e131Rx_bad_length (h : p.lenOk = false) : e131Rx port p d = bump R.PKT_RX_LEN_DROPS d := by simp [e131Rx, h]

theorem e131Rx_other_kind (hlen : p.lenOk = true) (h : p.kind ≠ .data) : e131Rx port p d = bump R.PKT_RX_IGNORED d := by
  simp [e131Rx, hlen, h]

theorem e131Rx_unmatched (hlen : p.lenOk = true) (hkind : p.kind = .data) (h : inputFor d port p = none) :
    e131Rx port p d = bump R.PKT_RX_UNMATCHED d := by
  simp [e131Rx, hlen, hkind, h]

end

section
variable {port : Nat} {p : E131Pkt} {i : Nat} {u : Input} {d : Dev} (hlen : p.lenOk = true) (hkind : p.kind = .data)
  (hfor : inputFor d port p = some (i, u))
include hlen hkind hfor

theorem e131Rx_high_priority (h : 200 < p.priority) : e131Rx port p d = bump R.PKT_RX_PRIO_DROPS d := by
  simp [e131Rx, hlen, hkind, hfor, h]

section
variable (hprio : p.priority ≤ 200)
include hprio

theorem e131Rx_preview (h : p.preview = true) : e131Rx port p d = bump R.PKT_RX_PREVIEW d := by
  simp [e131Rx, hlen, hkind, hfor, hprio.not_gt, h]

section
variable (hprev : p.preview = false)
include hprev

theorem e131Rx_terminated_tracked (h : p.terminated = true) {pos : Nat} (hpos : u.posOf p.cid = some pos) :
    e131Rx port p d = loseSource i pos (setInput i { u with terminated := sat (u.terminated + 1) } d) := by
  simp [e131Rx, hlen, hkind, hfor, hprio.not_gt, hprev, h, hpos]

theorem e131Rx_terminated_untracked (h : p.terminated = true) (hpos : u.posOf p.cid = none) :
    e131Rx port p d = setInput i { u with terminated := sat (u.terminated + 1) } d := by
  simp [e131Rx, hlen, hkind, hfor, hprio.not_gt, hprev, h, hpos]

section
variable (hterm : p.terminated = false)
include hterm

theorem e131Rx_other_startCode (h : p.startCode ≠ 0) : e131Rx port p d = bump R.PKT_RX_OTHER_SC d := by
  simp [e131Rx, hlen, hkind, hfor, hprio.not_gt, hprev, hterm, h]

section
variable (hstart : p.startCode = 0)
include hstart

theorem e131Rx_overflow (hpos : u.posOf p.cid = none) (hfree : u.freePos = none) :
    e131Rx port p d = setInput i { u with overflow := sat (u.overflow + 1) } d := by
  simp [e131Rx, hlen, hkind, hfor, hprio.not_gt, hprev, hterm, hstart, hpos, hfree]

theorem e131Rx_old_sequence {pos : Nat} {x : ESource} (hpos : u.posOf p.cid = some pos) (hx : tget u.srcs pos = some x)
    (hold : -19 ≤ seqDiff p.seq x.seq ∧ seqDiff p.seq x.seq ≤ 0) :
    e131Rx port p d = setInput i { u with seqDrops := sat (u.seqDrops + 1) } d := by
  simp [e131Rx, hlen, hkind, hfor, hprio.not_gt, hprev, hterm, hstart, hpos, hx, hold]

/-- The last row: a new CID with a free position, or a tracked one whose sequence moves on, is accepted, but for HOLD (R40). -/
theorem e131Rx_accepted {pos : Nat}
    (h : (u.posOf p.cid = none ∧ u.freePos = some pos) ∨
      (u.posOf p.cid = some pos ∧ ∃ x, tget u.srcs pos = some x ∧ ¬(-19 ≤ seqDiff p.seq x.seq ∧ seqDiff p.seq x.seq ≤ 0))) :
    e131Rx port p d = if d.sys.mode = .hold then bump R.SYS_HOLD_DROPS d else acceptE131 i pos p d := by
  rcases h with ⟨hpos, hfree⟩ | ⟨hpos, x, hx, hnew⟩
  · simp [e131Rx, hlen, hkind, hfor, hprio.not_gt, hprev, hterm, hstart, hpos, hfree]
  · simp [e131Rx, hlen, hkind, hfor, hprio.not_gt, hprev, hterm, hstart, hpos, hx, -not_and, hnew]

end
end
end
end

/-- Stream_Terminated counts, and its source, where it is tracked, is lost at once (R161, R164). -/
theorem e131Rx_terminated (hprio : p.priority ≤ 200) (hprev : p.preview = false) (h : p.terminated = true) :
    ∃ v, inputAt (e131Rx port p d) i = some v ∧ v.terminated = sat (u.terminated + 1) ∧
      (∀ pos, u.posOf p.cid = some pos → v.srcs = tdel u.srcs pos) ∧ (u.posOf p.cid = none → v.srcs = u.srcs) := by
  have hset := inputAt_setInput i { u with terminated := sat (u.terminated + 1) } d
  cases hpos : u.posOf p.cid with
  | none =>
    rw [e131Rx_terminated_untracked hlen hkind hfor hprio hprev h hpos]
    exact ⟨_, hset, rfl, nofun, fun _ => rfl⟩
  | some pos =>
    rw [e131Rx_terminated_tracked hlen hkind hfor hprio hprev h hpos]
    obtain ⟨v, hv, hsrcs, -⟩ := loseSource_spec i pos _ _ hset
    refine ⟨v, hv, loseSource_terminated i pos _ _ v hset hv, fun _ hq => ?_, nofun⟩
    cases hq
    exact hsrcs

end

/-- Settles O38: a datagram is the row of R161 that `e131Rx` finds first, and a loss and a release are `loseSource` and `releaseInput`. -/
theorem inputsFollowTheTable : Obligations.InputsFollowTheTable := by
  intro t port p s d hd counts
  refine ⟨exec_e131PacketRx_deaf p hd, fun hrun hport => ?_, fun i u hu => ⟨fun pos x hx => ?_, fun hdue => ?_, fun hno => ?_⟩⟩
  · have hrx : Completes (.e131PacketRx t port p) s (allOverrides (e131Rx port p d)) := by
      subst hd
      exact runE131 hrun hport rfl
    have hcounts : ∀ o, o ∉ postCounters → e131Rx port p d = bump o d → counts o := fun o ho h => ⟨_, hrx, h ▸ bumpIn o d ho⟩
    have hinput : ∀ i v, inputAt (e131Rx port p d) i = some v → ∃ e, Completes (.e131PacketRx t port p) s e ∧ inputAt e i = some v :=
      fun i v h => ⟨_, hrx, (allOverrides_inputs _ i).trans h⟩
    refine ⟨fun hlen => ?_, fun hlen hkind => ?_, fun hlen hkind hfor => ?_, fun i u hlen hkind hfor hu => ⟨fun hprio => ?_, fun hprio hprev => ?_,
      fun hprio hprev hterm => ?_, fun hprio hprev hterm => ⟨fun hsc => ?_, fun hsc => ⟨fun hpos hfree => hinput i _ ?_,
      fun pos x hpos hx hlow hhigh => hinput i _ ?_, fun pos htake => ?_⟩⟩⟩⟩
    · exact hcounts _ (by decide) (e131Rx_bad_length hlen)
    · exact hcounts _ (by decide) (e131Rx_other_kind hlen hkind)
    · exact hcounts _ (by decide) (e131Rx_unmatched hlen hkind hfor)
    · exact hcounts _ (by decide) (e131Rx_high_priority hlen hkind hfor hprio)
    · exact hcounts _ (by decide) (e131Rx_preview hlen hkind hfor hprio hprev)
    · obtain ⟨v, hv, hcount, htracked, huntracked⟩ := e131Rx_terminated hlen hkind hfor hprio hprev hterm
      obtain ⟨e, he, hev⟩ := hinput i v hv
      refine ⟨e, v, he, hev, hcount, ?_⟩
      cases hpos : u.posOf p.cid with
      | none => exact huntracked hpos
      | some pos => exact htracked pos hpos
    · exact hcounts _ (by decide) (e131Rx_other_startCode hlen hkind hfor hprio hprev hterm hsc)
    · rw [e131Rx_overflow hlen hkind hfor hprio hprev hterm hsc hpos hfree]
      exact inputAt_setInput i _ d
    · rw [e131Rx_old_sequence hlen hkind hfor hprio hprev hterm hsc hpos hx ⟨hlow, hhigh⟩]
      exact inputAt_setInput i _ d
    · have haccept := e131Rx_accepted hlen hkind hfor hprio hprev hterm hsc htake
      refine ⟨fun hnew => ?_, fun hhold => hcounts _ (by decide) (haccept.trans (if_pos hhold)), fun hhold => ?_⟩
      · rcases htake with ⟨-, hfree⟩ | ⟨hpos, -⟩
        · exact freePos_lowest hfree
        · simp [hnew] at hpos
      · obtain ⟨v, x, hv, hshows⟩ := acceptE131_spec i pos p d u hu
        obtain ⟨e, he, hev⟩ := hinput i v (by rw [haccept, if_neg hhold, hv])
        exact ⟨e, v, x, he, hev, hshows⟩
  · have hloss := exec_sourceLost hd hu hx
    refine ⟨fun hearly => ?_, fun hlate => ?_⟩
    · rwa [if_neg (Nat.not_le.mpr hearly)] at hloss
    · rw [if_pos hlate] at hloss
      obtain ⟨v, hv, hshows⟩ := loseSource_spec i pos d u hu
      exact ⟨_, v, hloss, (allOverrides_inputs _ i).trans hv, hshows⟩
  · have hend := exec_inputReleased hd hu
    rw [if_pos hdue] at hend
    exact ⟨_, hend, (allOverrides_inputs _ i).trans (releaseInput_spec i d u hu)⟩
  · have hend := exec_inputReleased hd hu
    rwa [hno, if_neg Bool.false_ne_true] at hend

end Sys2Proof.Machine
end

section
/-! SUPPORT. The DMX lines (R201-R204): what each row of a line runs, how a request ends, and what a write of the mailbox or of DISC does. -/

namespace Sys2Proof.Machine

/-! What the rows of a line run -/

section
variable {t : Time} {n : Nat} {s : State} {d : Dev} (hd : AtTime t s d)
include hd

theorem exec_dmxBreak_unassigned (hu : lineUniv d n = none) : Completes (.dmxBreak t n) s d := by
  subst hd
  exact onDev_eq (f := runDmxBreak t n) (by simp only [runDmxBreak, hu])

theorem exec_rdmRequestStart_unassigned (h : lineUniv d n = none ∨ rdmNext d n = none) : Completes (.rdmRequestStart t n) s d := by
  subst hd
  refine onDev_eq (f := runRdmRequestStart t n) ?_
  simp only [runRdmRequestStart]
  split
  · next hu hr => rcases h with h | h <;> simp_all
  · rfl

/-- With no request in progress, or a broadcast that nothing answers, neither a response nor a timeout does anything. -/
theorem exec_rdm_unasked (h : (lineAt d n).req = none ∨ ∃ r, (lineAt d n).req = some r ∧ r.serves = 3) :
    Completes (.rdmTimeout t n) s d ∧ ∀ x, Completes (.rdmResponseRx t n x) s d := by
  subst hd
  refine ⟨onDev_eq (f := runRdmTimeout t n) ?_, fun x => onDev_eq (f := runRdmResponseRx t n x) ?_⟩
  · rcases h with h | ⟨r, h, h3⟩
    · simp only [runRdmTimeout, h]
    · simp [runRdmTimeout, h, h3]
  · rcases h with h | ⟨r, h, h3⟩
    · simp only [runRdmResponseRx, h]
    · simp [runRdmResponseRx, h, h3]

section
variable (hn : n < 2)
include hn

theorem exec_dmxBreak {i : Nat} {u : Univ} (hu : lineUniv d n = some (i, u)) :
    Completes (.dmxBreak t n) s (if lineSends d n = true ∧ breakDue d n u = true then dmxSend n i u d else d) := by
  subst hd
  exact onDev_eq (f := runDmxBreak t n) (by simp only [runDmxBreak, hu, hn, true_and])

theorem exec_rdmRequestStart {i : Nat} {u : Univ} {r : RdmReq} (hu : lineUniv d n = some (i, u)) (hr : rdmNext d n = some r) :
    Completes (.rdmRequestStart t n) s
      (if d.sys.mode = .active ∧ lineSends d n = true ∧ lineBusy d n = false ∧ rdmFits d n u r = true then rdmStart n r d else d) := by
  subst hd
  exact onDev_eq (f := runRdmRequestStart t n) (by simp only [runRdmRequestStart, hu, hr, hn, true_and, Bool.not_eq_true'])

theorem exec_discoveryInterval :
    Completes (.discoveryInterval t n) s (if d.sys.mode = .active ∧ fld d (F.DMX_LINE_DISC_INTERVAL_S n) ≠ 0 ∧ (lineAt d n).discDone = true ∧
      (lineAt d n).discFrom + sec (fld d (F.DMX_LINE_DISC_INTERVAL_S n)) ≤ d.raw then discStart n d else d) := by
  subst hd
  exact onDev_eq (f := runDiscoveryInterval t n) (by simp only [runDiscoveryInterval, hn, true_and])

theorem exec_discGo (v : Word) : Completes (.discGo t n v) s (if canWrite d (R.DMX_LINE_DISC n) then writeDisc n v d else d) := by
  subst hd
  exact onDev_eq (f := runDiscGo t n v) (by simp only [runDiscGo, hn, true_and])

theorem exec_mailboxGo (v : Word) : Completes (.mailboxGo t n v) s (if canWrite d (R.DMX_LINE_MB_CTRL n) then writeMailbox n v d else d) := by
  subst hd
  exact onDev_eq (f := runMailboxGo t n v) (by simp only [runMailboxGo, hn, true_and])

section
variable {r : RdmReq} (hr : (lineAt d n).req = some r)
include hr

theorem exec_rdmResponseRx_collision {x : RdmResp} (h2 : r.serves = 2) (hp : r.pid = 1) (hx : x.collision = true) :
    Completes (.rdmResponseRx t n x) s (modDisc n Disc.split (modLine n (fun l => { l with req := none }) d)) := by
  subst hd
  exact onDev_eq (f := runRdmResponseRx t n x) (by simp [runRdmResponseRx, hr, hn, h2, hp, hx])

theorem exec_rdmTimeout (hs : r.serves < 3) :
    Completes (.rdmTimeout t n) s (if r.ends + us 2800 ≤ d.raw then rdmRetry n r 4 (bump (R.DMX_LINE_RDM_TIMEOUTS n) d) else d) := by
  subst hd
  exact onDev_eq (f := runRdmTimeout t n) (by simp only [runRdmTimeout, hr, hn, hs.ne, ne_eq, not_false_eq_true, true_and])

section
variable {x : RdmResp} (hs : r.serves < 3) (hc : ¬(r.serves = 2 ∧ r.pid = 1 ∧ x.collision = true))
include hs hc

theorem exec_rdmResponseRx_checked (hok : x.checksumOk = true) : Completes (.rdmResponseRx t n x) s (rdmAnswer n r x d) := by
  subst hd
  refine onDev_eq (f := runRdmResponseRx t n x) ?_
  simp only [runRdmResponseRx, hr, hn, hs.ne, ne_eq, not_false_eq_true, and_self, if_true, if_neg hc, hok, Bool.not_true,
    Bool.false_eq_true, if_false]

theorem exec_rdmResponseRx_faulty (hbad : x.checksumOk = false) :
    Completes (.rdmResponseRx t n x) s (rdmRetry n r 5 (bump (R.DMX_LINE_RDM_CHECKSUM n) d)) := by
  subst hd
  refine onDev_eq (f := runRdmResponseRx t n x) ?_
  simp only [runRdmResponseRx, hr, hn, hs.ne, ne_eq, not_false_eq_true, and_self, if_true, if_neg hc, hbad, Bool.not_false]

end
end
end
end

/-! A packet's instant (R201) -/

theorem breakDue_spec {d : Dev} {n : Nat} {u : Univ} (h : breakDue d n u = true) :
    (lineAt d n).tick < (u.tickK : Int) ∧ lineBusy d n = false ∧ ∀ b, (lineAt d n).lastBreak = some b → b + us 1204 ≤ d.raw := by
  simp only [breakDue, Bool.and_eq_true, decide_eq_true_eq, Bool.not_eq_true'] at h
  obtain ⟨⟨⟨htick, -⟩, hidle⟩, hlast⟩ := h
  refine ⟨htick, hidle, fun b hb => ?_⟩
  simp only [hb, Bool.and_eq_true, decide_eq_true_eq] at hlast
  exact hlast.1

/-! How a request ends (R202) -/

theorem modLine_site (n : Nat) (f : Line → Line) (d : Dev) : (modLine n f d).site = d.site := by
  unfold modLine setLine
  split <;> rfl

theorem rdmAnswer_host {r : RdmReq} (h0 : r.serves = 0) {x : RdmResp} (hx : x.respType < 4) (n : Nat) (d : Dev) :
    (lineAt (rdmAnswer n r x d) n).req = none ∧ bitOf (rdmAnswer n r x d) (F.DMX_LINE_MB_CTRL_BUSY n) = false ∧
      bitOf (rdmAnswer n r x d) (F.DMX_LINE_MB_CTRL_DONE n) = true ∧ fld (rdmAnswer n r x d) (F.DMX_LINE_MB_CTRL_STATUS n) = x.respType := by
  unfold rdmAnswer
  rw [h0]
  obtain ⟨hbusy, hdone, hstatus, hdmx⟩ := mailboxDone_spec n x.respType (if x.respType = 1 ∨ x.respType = 2 then beAt x.data 0 2 else 0)
    (x.data.take 231) (modLine n (fun l => { l with req := none }) d) (by omega)
  exact ⟨(congrArg Line.req (lineAt_congr hdmx n)).trans (congrArg Line.req (modLine_line _ _ _)), hbusy, hdone, hstatus⟩

/-- A poll that is answered with anything but ACK counts as failed. -/
theorem rdmAnswer_poll {r : RdmReq} (h1 : r.serves = 1) {x : RdmResp} (hx : x.respType ≠ 0) (n : Nat) (d : Dev) :
    (lineAt (rdmAnswer n r x d) n).req = none ∧ (rdmAnswer n r x d).site = d.site ∧
      (rg (rdmAnswer n r x d) R.SITE_RDM_POLL_FAILS).toNat = min ((rg d R.SITE_RDM_POLL_FAILS).toNat + 1) 0xFFFFFFFF := by
  have hfails : rdmAnswer n r x d = bump R.SITE_RDM_POLL_FAILS (modLine n (fun l => { l with req := none }) d) := by
    simp only [rdmAnswer, h1, rdmSensor, if_pos hx]
  rw [hfails]
  refine ⟨congrArg Line.req (modLine_line _ _ _), modLine_site _ _ _, ?_⟩
  rw [rg_bump_self, rg_congr (modLine_regs _ _ _), min1_toNat]

/-- What a checked answer of a responder does to the discovery: the UID that was muted is found, or the UID that answered is muted next (R203). -/
def Disc.answered (uid : Nat) (c : Disc) : Disc :=
  match c.mute with
  | some u => { c with mute := none, found := if c.found.contains u then c.found else c.found ++ [u] }
  | none => { c with mute := some uid }

theorem Disc.answered_muted {c : Disc} {u : Nat} (h : c.mute = some u) (uid : Nat) :
    c.answered uid = { c with mute := none, found := if c.found.contains u then c.found else c.found ++ [u] } := by
  simp only [Disc.answered, h]

theorem Disc.answered_branch {c : Disc} (h : c.mute = none) (uid : Nat) : c.answered uid = { c with mute := some uid } := by
  simp only [Disc.answered, h]

theorem rdmAnswer_discovery {r : RdmReq} (h2 : r.serves = 2) (x : RdmResp) (n : Nat) (d : Dev) :
    rdmAnswer n r x d = modDisc n (Disc.answered x.uid) (modLine n (fun l => { l with req := none }) d) := by
  simp only [rdmAnswer, h2]
  rfl

/-- The request over, the discovery goes on as `f` leaves it, where something is left of it. -/
theorem modDisc_after_request {n : Nat} {d : Dev} {c c' : Disc} (hc : (lineAt d n).disc = some c) {f : Disc → Disc} (hf : f c = c')
    (hleft : c'.fresh = true ∨ c'.mute ≠ none ∨ c'.branches ≠ []) :
    (lineAt (modDisc n f (modLine n (fun l => { l with req := none }) d)) n).req = none ∧
      (lineAt (modDisc n f (modLine n (fun l => { l with req := none }) d)) n).disc = some c' := by
  subst hf
  have hline := modLine_line n (fun l => { l with req := none }) d
  rw [modDisc_stays n f _ c ((congrArg Line.disc hline).trans hc) hleft, hline]
  exact ⟨rfl, rfl⟩

theorem Disc.split_halves {c : Disc} {a b : Nat} {q : List (Nat × Nat)} (hb : c.branches = (a, b) :: q) (hab : a < b) :
    c.split = { c with mute := none, branches := (a, (a + b) / 2) :: ((a + b) / 2 + 1, b) :: q } := by
  simp only [Disc.split, hb, if_pos hab]

/-- A request that fails is kept for its repeat, and its fault counted. -/
theorem rdmRetry_counted {r : RdmReq} (h : r.sent < 3) (n why o : Nat) (d : Dev) :
    (lineAt (rdmRetry n r why (bump o d)) n).req = none ∧ tget (lineAt (rdmRetry n r why (bump o d)) n).again r.serves = some r ∧
      (rg (rdmRetry n r why (bump o d)) o).toNat = min ((rg d o).toNat + 1) 0xFFFFFFFF := by
  obtain ⟨hreq, hagain, hregs⟩ := rdmRetry_again n r why (bump o d) h
  exact ⟨hreq, hagain, by rw [rg_congr hregs, rg_bump_self, min1_toNat]⟩

/-! Discovery starts (R203) -/

/-- A line on which a full discovery starts at an instant. -/
def Line.searching (l : Line) (now : Time) : Line :=
  { l with disc := some { fresh := true, branches := [(0, 0xFFFFFFFFFFFE)], mute := none, found := [] }, discFrom := now, discDone := true }

theorem discStart_line (n : Nat) (d : Dev) :
    lineAt (discStart n d) n = if (lineAt d n).disc = none then (lineAt d n).searching d.raw else lineAt d n := by
  rw [discStart, modLine_line]
  cases (lineAt d n).disc <;> rfl

theorem writeDisc_line (n : Nat) (v : Word) (d : Dev) :
    lineAt (writeDisc n v d) n =
      if v.getLsbD 16 = true ∧ (lineAt d n).disc = none then (lineAt d n).searching d.raw else lineAt d n := by
  have hstored : lineAt (storeReg (R.DMX_LINE_DISC n) v d) n = lineAt d n := lineAt_congr (storeReg_dmx _ _ _) n
  simp only [writeDisc, word_bit, ite_and]
  split
  · rw [discStart_line, hstored, storeReg_raw]
  · exact hstored

/-! The mailbox (R204); `w` is the device with the written value stored -/

section
variable {n : Nat} {v : Word} {d w : Dev} (hw : w = storeReg (R.DMX_LINE_MB_CTRL n) v d)
include hw

theorem writeMailbox_ignored (h : v.getLsbD 0 = false ∨ bitOf w (F.DMX_LINE_MB_CTRL_BUSY n) = true) : writeMailbox n v d = w := by
  subst hw
  rcases h with h | h
  · simp only [writeMailbox, word_bit, h, Bool.not_false, Bool.true_or, if_true]
  · simp only [writeMailbox, h, Bool.or_true, if_true]

/-- A GO on a mailbox that is not BUSY: an invalid request and one for a silent line complete at once, any other waits on the line. -/
theorem writeMailbox_go (hgo : v.getLsbD 0 = true) (hidle : bitOf w (F.DMX_LINE_MB_CTRL_BUSY n) = false) :
    writeMailbox n v d =
      if (fld w (F.DMX_LINE_MB_REQ_CC n) ≠ 0x20 ∧ fld w (F.DMX_LINE_MB_REQ_CC n) ≠ 0x30) ∨ 231 < fld w (F.DMX_LINE_MB_REQ_PDL n) then
        mailboxDone n 7 0 [] w
      else if lineSends w n = false then mailboxDone n 6 0 [] w
      else modLine n (fun l => { l with mailbox := some (mbReq w n) }) (setBit (F.DMX_LINE_MB_CTRL_BUSY n) true w) := by
  subst hw
  simp only [writeMailbox, word_bit, hgo, hidle, Bool.not_true, Bool.or_self, Bool.false_eq_true, if_false, Bool.not_eq_true']
  rfl

end

/-- The host's request waits on its line, BUSY. -/
theorem mailbox_waits (n : Nat) (r : RdmReq) (w : Dev) :
    bitOf (modLine n (fun l => { l with mailbox := some r }) (setBit (F.DMX_LINE_MB_CTRL_BUSY n) true w)) (F.DMX_LINE_MB_CTRL_BUSY n) = true ∧
      lineAt (modLine n (fun l => { l with mailbox := some r }) (setBit (F.DMX_LINE_MB_CTRL_BUSY n) true w)) n =
        { lineAt w n with mailbox := some r } := by
  refine ⟨?_, modLine_line _ _ _⟩
  rw [bitOf_congr (modLine_regs _ _ _)]
  exact bitOf_setBit_self _ _ _ (by simp [Fld.Fits]) rfl

/-- Settles O43: a packet is `dmxSend`, a request `rdmStart`, and it ends by `rdmAnswer`, `rdmRetry` or, in a collision, `Disc.split`. That a
broadcast of the host completes at its start (log 35), and a request's bytes and the first branch (log 18), are the model's reading. -/
theorem dmxLinesAndRdm : Obligations.DmxLinesAndRdm := by
  intro t n s d hd hn l
  refine ⟨fun i u hu => ?_, exec_rdmRequestStart_unassigned hd, exec_dmxBreak_unassigned hd, fun r hr hserves => ?_,
    exec_rdm_unasked hd, fun hmode hevery hdone hdue hnone => ?_, fun hno => ?_, fun v => ?_, fun v => ?_⟩
  · have hbreak := exec_dmxBreak hd hn hu
    refine ⟨fun hsends hdue => ?_, fun hno => ?_, fun r hr hmode hsends hidle hfits => ?_, fun r hr hno => ?_⟩
    · rw [if_pos ⟨hsends, hdue⟩] at hbreak
      obtain ⟨htick, hidle, hlast⟩ := breakDue_spec hdue
      obtain ⟨hout, hline, -⟩ := dmxSend_spec n i u d
      exact ⟨htick, hidle, hlast, _, hbreak, hout, congrArg Line.tick hline, congrArg Line.lastBreak hline⟩
    · rwa [if_neg (by rintro ⟨hsends, hdue⟩; simp [hsends, hdue] at hno)] at hbreak
    · have hstart := exec_rdmRequestStart hd hn hu hr
      rw [if_pos ⟨hmode, hsends, hidle, hfits⟩] at hstart
      refine ⟨fun hanswered => ?_, fun hall hhost => ⟨_, hstart, rdmStart_broadcast n r d ⟨hall, hhost⟩⟩⟩
      obtain ⟨hout, htn, hreq, -⟩ := rdmStart_spec n r d (not_and_or.mpr hanswered)
      exact ⟨_, hstart, hout, htn, hreq⟩
    · have hstart := exec_rdmRequestStart hd hn hu hr
      rwa [if_neg (by rintro ⟨hmode, hsends, hidle, hfits⟩; simp [hmode, hsends, hidle, hfits] at hno)] at hstart
  · refine ⟨fun x hx => ⟨fun hok => ⟨fun hhost htype => ?_, fun hpoll htype => ?_, fun c u hdisc hc hmute hleft => ?_,
      fun c hdisc hc hmute => ?_⟩, fun hbad => ⟨fun hsent => ?_, fun hsent hhost => ?_⟩⟩,
      fun x c a b q hdisc hpid hx hc hbranches hab => ?_, fun hearly => ?_, fun hlate => ?_⟩
    · exact ⟨_, exec_rdmResponseRx_checked hd hn hr hserves hx hok, rdmAnswer_host hhost htype n d⟩
    · exact ⟨_, exec_rdmResponseRx_checked hd hn hr hserves hx hok, rdmAnswer_poll hpoll htype n d⟩
    · have hrx := exec_rdmResponseRx_checked hd hn hr hserves hx hok
      rw [rdmAnswer_discovery hdisc] at hrx
      exact ⟨_, hrx, modDisc_after_request hc (Disc.answered_muted hmute _) (.inr (.inr hleft))⟩
    · have hrx := exec_rdmResponseRx_checked hd hn hr hserves hx hok
      rw [rdmAnswer_discovery hdisc] at hrx
      exact ⟨_, hrx, modDisc_after_request hc (Disc.answered_branch hmute _) (.inr (.inl (Option.some_ne_none _)))⟩
    · exact ⟨_, exec_rdmResponseRx_faulty hd hn hr hserves hx hbad, rdmRetry_counted hsent n 5 _ d⟩
    · exact ⟨_, exec_rdmResponseRx_faulty hd hn hr hserves hx hbad, rdmRetry_host n r 5 _ hsent hhost (by decide)⟩
    · exact ⟨_, exec_rdmResponseRx_collision hd hn hr hdisc hpid hx,
        modDisc_after_request hc (Disc.split_halves hbranches hab) (.inr (.inr (List.cons_ne_nil _ _)))⟩
    · have hout := exec_rdmTimeout hd hn hr hserves
      rwa [if_neg (Nat.not_le.mpr hearly)] at hout
    · have hout := exec_rdmTimeout hd hn hr hserves
      rw [if_pos hlate] at hout
      exact ⟨fun hsent => ⟨_, hout, rdmRetry_counted hsent n 4 _ d⟩,
        fun hsent hhost => ⟨_, hout, rdmRetry_host n r 4 _ hsent hhost (by decide)⟩⟩
  · have hdisc := exec_discoveryInterval hd hn
    rw [if_pos ⟨hmode, hevery, hdone, hdue⟩] at hdisc
    exact ⟨_, hdisc, modLine_regs _ _ _, (discStart_line n d).trans (if_pos hnone)⟩
  · have hdisc := exec_discoveryInterval hd hn
    rwa [if_neg fun ⟨hmode, hevery, _, hdue⟩ => hno.elim (· hmode) (·.elim hevery (Nat.not_lt.mpr hdue))] at hdisc
  · have hgo := exec_discGo hd hn v
    refine ⟨fun hbar => ?_, fun hopen => ?_⟩
    · rwa [hbar, if_neg Bool.false_ne_true] at hgo
    · rw [if_pos hopen] at hgo
      exact ⟨_, hgo, writeDisc_line n v d⟩
  · have hwrite := exec_mailboxGo hd hn v
    refine ⟨fun hbar => ?_, fun hopen w hw => ?_⟩
    · rwa [hbar, if_neg Bool.false_ne_true] at hwrite
    rw [if_pos hopen] at hwrite
    have hdmx : w.dmx = d.dmx := hw ▸ storeReg_dmx _ _ _
    refine ⟨fun h => ?_, fun hgo hidle => ?_⟩
    · rwa [writeMailbox_ignored hw h] at hwrite
    rw [writeMailbox_go hw hgo hidle] at hwrite
    refine ⟨fun hbad => ?_, fun hcc hpdl => ?_⟩
    · rw [if_pos hbad] at hwrite
      obtain ⟨-, hdone, hstatus, hkept⟩ := mailboxDone_spec n 7 0 [] w (by decide)
      exact ⟨_, hwrite, hdone, hstatus, hkept.trans hdmx⟩
    rw [if_neg (by omega)] at hwrite
    refine ⟨fun hsilent => ?_, fun hsends => ?_⟩
    · rw [if_pos hsilent] at hwrite
      obtain ⟨-, hdone, hstatus, hkept⟩ := mailboxDone_spec n 6 0 [] w (by decide)
      exact ⟨_, hwrite, hdone, hstatus, hkept.trans hdmx⟩
    · rw [if_neg (by simp [hsends])] at hwrite
      obtain ⟨hbusy, hwaits⟩ := mailbox_waits n (mbReq w n) w
      rw [lineAt_congr hdmx] at hwaits
      exact ⟨_, mbReq w n, hwrite, hbusy, hwaits, rfl, rfl, rfl, rfl⟩

end Sys2Proof.Machine
end

section
/-! SUPPORT. The links of the network ports (R241, R243, R247, R248): what a link that goes down or shows a mismatch, a verification
that ends, and a partner's word leave, and what each row of a port runs. -/

namespace Sys2Proof.Machine

/-! What the events of a link make of the device -/

/-- The link shows a mismatch (R241). -/
def linkMismatched (n : Nat) (d : Dev) : Dev := postPort n 4 0x03 0 (modPort n (fun p => { p with link := 3 }) d)

/-- The link is lost: dropped, counted and reported (R243). -/
def linkLost (n : Nat) (d : Dev) : Dev := postPort n 4 0x02 0 (cntAdd n cLinkDowns 1 (dropLink n d))

/-- A respond ends verification (R247). -/
def verifySucceeded (n : Nat) (d : Dev) : Dev := postPort n 4 0x04 0 (setPort n { portAt d n with verify := 3 } d)

/-- The last verify stayed unanswered (R247). -/
def verifyFailed (n : Nat) (d : Dev) : Dev := postPort n 4 0x05 0 (cntAdd n cVerifyFails 1 (setPort n { portAt d n with verify := 4 } d))

/-- A port that keeps its partner's word, in the modes that negotiate (R243). -/
def Port.advertised (w : Nat) (p : Port) : Port :=
  { p with lpAbility := if (p.rec_.mode = 1 ∧ p.rec_.an) ∨ p.rec_.mode = 2 ∨ p.rec_.mode = 5 then w % 65536 else 0 }

theorem postPort_frame (n typ code low : Nat) (d : Dev) : PostFrame d (postPort n typ code low d) := postCode_frame _ _ _ _ _

theorem linkMismatched_shows (n : Nat) (d : Dev) : (portAt (linkMismatched n d) n).link = 3 ∧ (linkMismatched n d).sys = d.sys ∧
    ∀ o, o ∉ postCounters → rg (linkMismatched n d) o = rg d o := by
  have hpost := postPort_frame n 4 0x03 0 (modPort n (fun p => { p with link := 3 }) d)
  refine ⟨?_, hpost.sys, hpost.2⟩
  rw [linkMismatched, postPort_port, portAt_modPort]

theorem linkLost_shows (n : Nat) (d : Dev) : (portAt (linkLost n d) n).link = 1 ∧ (portAt (linkLost n d) n).queue = [] ∧
    (portAt (linkLost n d) n).express = [] ∧ (portAt (linkLost n d) n).wire = none ∧ (portAt (linkLost n d) n).pauseEnd = none ∧
      (portAt (linkLost n d) n).count cLinkDowns = ((portAt d n).count cLinkDowns + 1) % 2 ^ 64 := by
  obtain ⟨hlink, hqueue, hexpress, hwire, -, hpause, -, -, hdowns⟩ := dropLink_spec n d
  rw [linkLost, postPort_port, cnt_drop, hdowns, cntAdd, portAt_modPort]
  exact ⟨hlink, hqueue, hexpress, hwire, hpause, rfl⟩

theorem verifySucceeded_shows (n : Nat) (d : Dev) :
    (portAt (verifySucceeded n d) n).verify = 3 ∧ (verifySucceeded n d).sys = d.sys := by
  refine ⟨?_, (postPort_frame _ _ _ _ _).sys⟩
  rw [verifySucceeded, postPort_port, portAt_setPort]

theorem verifyFailed_shows (n : Nat) (d : Dev) : (portAt (verifyFailed n d) n).verify = 4 ∧
    (portAt (verifyFailed n d) n).count cVerifyFails = ((portAt d n).count cVerifyFails + 1) % 2 ^ 64 := by
  rw [verifyFailed, postPort_port, cnt_drop, cntAdd, portAt_modPort, portAt_setPort]
  exact ⟨rfl, rfl⟩

theorem Port.advertised_lpAbility {p : Port} (h : p.rec_.mode = 2) (w : Nat) : (p.advertised w).lpAbility = w % 65536 :=
  if_pos (.inr (.inl h))

/-- The partner's word restarts a link that shows a mismatch. -/
theorem restartAn_advertised_shows (n w : Nat) (d : Dev) :
    (portAt (restartAn n (modPort n (Port.advertised w) d)) n).link = (if (portAt d n).link = 3 then 1 else (portAt d n).link) ∧
      ((portAt d n).rec_.mode = 2 → (portAt (restartAn n (modPort n (Port.advertised w) d)) n).lpAbility = w % 65536) := by
  rw [(restartAn_spec n _).2, portAt_modPort, apply_ite Port.link, apply_ite Port.lpAbility, ite_self]
  exact ⟨rfl, fun hmode => Port.advertised_lpAbility hmode w⟩

/-! What the rows of a port run -/

section
variable {t : Time} {n : Nat} {s : State} {d : Dev} (hd : AtTime t s d)
include hd

theorem exec_linkUp : Completes (.linkUp t n) s (if portsRun d = true ∧ (portAt d n).link = 1 then linkUp n d else d) := by
  subst hd
  exact onDev_eq (f := runLinkUp t n) (by simp only [runLinkUp, Bool.and_eq_true, beq_iff_eq])

theorem exec_linkMismatch : Completes (.linkMismatch t n) s
    (if portsRun d = true ∧ (portAt d n).link = 1 then linkMismatched n d else d) := by
  subst hd
  exact onDev_eq (f := runLinkMismatch t n) (by simp only [linkMismatched, runLinkMismatch, Bool.and_eq_true, beq_iff_eq])

theorem exec_linkDown : Completes (.linkDown t n) s
    (if (portAt d n).link = 2 then linkLost n d else d) := by
  subst hd
  exact onDev_eq (f := runLinkDown t n) (by simp only [linkLost, runLinkDown, beq_iff_eq])

/-- AN_RESTART, PAUSE_EN_WRITE and VERIFY_RESTART are one write of MACn.CTRL. -/
theorem exec_macCtrlWrite (v : Word) {e : Dev} (he : e = if n < 17 ∧ canWrite d (R.MAC_CTRL n) = true then writeMacCtrl n v d else d) :
    Completes (.anRestart t n v) s e ∧ Completes (.pauseEnWrite t n v) s e ∧ Completes (.verifyRestart t n v) s e := by
  subst hd he
  exact ⟨onDev_eq (f := runAnRestart t n v) rfl, onDev_eq (f := runPauseEnWrite t n v) rfl, onDev_eq (f := runVerifyRestart t n v) rfl⟩

theorem exec_verifyTimeout : Completes (.verifyTimeout t n) s
    (if (portAt d n).verify = 2 ∧ (portAt d n).verifyAt + ms (portAt d n).rec_.verifyMs ≤ d.raw then
      if (portAt d n).attempts < 3 then
        emit (.mpacket n false) (setPort n { portAt d n with attempts := (portAt d n).attempts + 1, verifyAt := d.raw } d)
      else verifyFailed n d
    else d) := by
  subst hd
  exact onDev_eq (f := runVerifyTimeout t n) rfl

theorem exec_mpacketRx (respond : Bool) : Completes (.mpacketRx t n respond) s
    (if (portAt d n).link ≠ 2 ∨ (portAt d n).verify = 0 then d
    else if respond then if (portAt d n).verify = 2 then verifySucceeded n d else d
    else emit (.mpacket n true) d) := by
  subst hd
  exact onDev_eq (f := runMpacketRx t n respond) rfl

theorem exec_pauseEnd {x : Time} (hx : (portAt d n).pauseEnd = some x) :
    Completes (.pauseEnd t n) s (if x ≤ d.raw then endPause n x d else d) := by
  subst hd
  exact onDev_eq (f := runPauseEnd t n) (by simp only [runPauseEnd, hx])

theorem exec_pauseEnd_unpaused (hx : (portAt d n).pauseEnd = none) : Completes (.pauseEnd t n) s d := by
  subst hd
  exact onDev_eq (f := runPauseEnd t n) (by simp only [runPauseEnd, hx])

theorem exec_partnerAdvertisementChange (w : Nat) :
    Completes (.partnerAdvertisementChange t n w) s
      (if portsRun d = true ∧ portOn d n = true then restartAn n (modPort n (Port.advertised w) d) else d) := by
  subst hd
  refine onDev_eq (f := runPartnerAdvertisementChange t n w) ?_
  simp only [runPartnerAdvertisementChange, Bool.and_eq_true]
  rfl

end

/-- Settles O40: the rows of a port run `linkUp`, `dropLink`, `writeMacCtrl`, `endPause` and `restartAn`, each with its own lemma. -/
theorem linksComeUpAndGoDown : Obligations.LinksComeUpAndGoDown := by
  intro t n s d hd
  refine ⟨fun hrun hlink => ⟨?_, ?_⟩, fun hno => ⟨?_, ?_⟩, fun hup => ?_, fun hnot => ?_, fun v hn hopen => ?_, fun v hbar => ?_,
    fun hverify hdue => ⟨fun hfew => ?_, fun hthree => ?_⟩, fun hno => ?_, fun hup hverify => ?_, fun hup hverify => ?_, fun hno b => ?_,
    fun x hx => ⟨fun hdue => ?_, fun hearly => ?_⟩, exec_pauseEnd_unpaused hd, fun w hno => ?_, fun w hrun hon => ?_⟩
  · have hout := exec_linkUp (n := n) hd
    rw [if_pos ⟨hrun, hlink⟩] at hout
    obtain ⟨hup, hrec, -, hverify, -⟩ := linkUp_spec n d
    exact ⟨_, hout, hup, hrec, hverify⟩
  · have hout := exec_linkMismatch (n := n) hd
    rw [if_pos ⟨hrun, hlink⟩] at hout
    exact ⟨_, hout, linkMismatched_shows n d⟩
  · have hout := exec_linkUp (n := n) hd
    rwa [if_neg (by rintro ⟨hrun, hlink⟩; simp [hrun, hlink] at hno)] at hout
  · have hout := exec_linkMismatch (n := n) hd
    rwa [if_neg (by rintro ⟨hrun, hlink⟩; simp [hrun, hlink] at hno)] at hout
  · have hout := exec_linkDown (n := n) hd
    rw [if_pos hup] at hout
    exact ⟨_, hout, linkLost_shows n d⟩
  · have hout := exec_linkDown (n := n) hd
    rwa [if_neg hnot] at hout
  · obtain ⟨han, hpause, hverify⟩ := exec_macCtrlWrite hd v (if_pos ⟨hn, hopen⟩).symm
    obtain ⟨hbit, hends, hacquires, hkept, hrestarts, hinitial⟩ := writeMacCtrl_spec n v d
    simp only [word_bit] at hbit hends hacquires hkept hrestarts hinitial
    exact ⟨⟨_, han, hacquires, hkept⟩, ⟨_, hpause, hbit, hends⟩, _, hverify, fun hgo hdone => ⟨hrestarts hgo hdone, hinitial hgo hdone⟩⟩
  · exact exec_macCtrlWrite hd v (if_neg (by simp [hbar])).symm
  · have hout := exec_verifyTimeout (n := n) hd
    rw [if_pos ⟨hverify, hdue⟩, if_pos hfew] at hout
    exact ⟨_, hout, rfl, portAt_setPort _ _ _⟩
  · have hout := exec_verifyTimeout (n := n) hd
    rw [if_pos ⟨hverify, hdue⟩, if_neg (Nat.not_lt.mpr hthree)] at hout
    exact ⟨_, hout, verifyFailed_shows n d⟩
  · have hout := exec_verifyTimeout (n := n) hd
    rwa [if_neg fun ⟨hverify, hdue⟩ => hno.elim (· hverify) (Nat.not_lt.mpr hdue)] at hout
  · have hout := exec_mpacketRx (n := n) hd false
    rwa [if_neg (by simp [hup, hverify]), if_neg Bool.false_ne_true] at hout
  · have hout := exec_mpacketRx (n := n) hd true
    rw [if_neg (by simp [hup, hverify]), if_pos rfl, if_pos hverify] at hout
    exact ⟨_, hout, verifySucceeded_shows n d⟩
  · have hout := exec_mpacketRx (n := n) hd b
    rwa [if_pos hno] at hout
  · have hout := exec_pauseEnd hd hx
    rw [if_pos hdue] at hout
    obtain ⟨hended, -, -, -, -, -, hregs⟩ := endPause_spec n x d
    exact ⟨_, hout, hended, hregs⟩
  · have hout := exec_pauseEnd hd hx
    rwa [if_neg (Nat.not_le.mpr hearly)] at hout
  · have hout := exec_partnerAdvertisementChange (n := n) hd w
    rwa [if_neg (by rintro ⟨hrun, hon⟩; simp [hrun, hon] at hno)] at hout
  · have hout := exec_partnerAdvertisementChange (n := n) hd w
    rw [if_pos ⟨hrun, hon⟩] at hout
    obtain ⟨hlink, hword⟩ := restartAn_advertised_shows n w d
    exact ⟨_, hout, hlink, rfl, hword⟩

end Sys2Proof.Machine
end

section
/-! SUPPORT. The references of the time domains (R258, R259, R271, R276, R279): what each row of the time unit runs, and what the loss of
SREF0, the latch, HOLDOVER and the pulse leave. -/

namespace Sys2Proof.Machine

/-! What the rows make of the device -/

/-- SREF0 is lost: the bit and its event, and the item (R259). -/
def srefLost (d : Dev) : Dev := postTim 2 0x07 0 0 (setBit F.TIM_STATUS_SREF_EVENT true (setBit F.TIM_STATUS_SREF_LOST true d))

/-- PPS_OUT has risen, and its fall is due 100 ms later (R279). -/
def ppsRisen (d : Dev) : Dev := drivePin 4 true { d with tim.pps := some (d.raw + ms 100) }

/-- A domain has entered HOLDOVER, and the choice of a master has run (R271). -/
def heldOver (k : Nat) (d : Dev) : Dev := selectMaster k (enterHoldover k d)

theorem timStatus_not_posted : R.TIM_STATUS ∉ postCounters := timCounter (by decide)

theorem srefLost_lost (d : Dev) : bitOf (srefLost d) F.TIM_STATUS_SREF_LOST = true := by
  rw [srefLost, (postTim_frame _ _ _ _ _).bitOf _ timStatus_not_posted, bitOf_setBit_disjoint _ _ _ _ (by decide) (by decide)]
  exact bitOf_setBit_self _ _ _ (by decide) rfl

theorem srefLost_event (d : Dev) : bitOf (srefLost d) F.TIM_STATUS_SREF_EVENT = true := by
  rw [srefLost, (postTim_frame _ _ _ _ _).bitOf _ timStatus_not_posted]
  exact bitOf_setBit_self _ _ _ (by decide) rfl

theorem srefLost_tim (d : Dev) : (srefLost d).tim = d.tim := (postTim_frame _ _ _ _ _).tim

theorem srefLost_keepsReg {o : Nat} (hp : o ∉ postCounters) (ho : o ≠ R.TIM_STATUS) (d : Dev) : rg (srefLost d) o = rg d o := by
  rw [srefLost, rg_postTim _ _ _ _ _ _ hp, rg_setBit_ne _ _ _ ho, rg_setBit_ne _ _ _ ho]

theorem heldOver_shows (k : Nat) (d : Dev) : (domAt (heldOver k d) k).servo = 3 ∧ (domAt (heldOver k d) k).holdFrom = some d.raw ∧
    (rg (heldOver k d) (R.TIM_DOM_HOLDOVERS k)).toNat = min ((rg d (R.TIM_DOM_HOLDOVERS k)).toNat + 1) 0xFFFFFFFF := by
  obtain ⟨hservo, hfrom, hcount⟩ := enterHoldover_spec k d
  obtain ⟨hservo', hfrom', hregs, -⟩ := selectMaster_holds k (enterHoldover k d) hservo
  exact ⟨hservo', hfrom'.trans hfrom, by rw [heldOver, rg_congr hregs, hcount, min1_toNat]⟩

theorem refEdge_untracked {k : Nat} {d : Dev} (h : (domAt d k).rec_.tickRef = 0) : refEdge k d = d := by simp [refEdge, h]

/-! What the rows run -/

section
variable {t : Time} {s : State} {d : Dev} (hd : AtTime t s d)
include hd

theorem exec_refLost : Completes (.refLost t) s (if awake d = true ∧ bitOf d F.TIM_STATUS_SREF_LOST = false then srefLost d else d) := by
  subst hd
  exact onDev_eq (f := runRefLost t) (by simp only [srefLost, runRefLost, Bool.and_eq_true, Bool.not_eq_true'])

theorem exec_sref0Return : Completes (.sref0Return t) s (if awake d = true then setBit F.TIM_STATUS_SREF_LOST false d else d) := by
  subst hd
  exact onDev_eq (f := runSref0Return t) rfl

theorem exec_timLatch (v : Word) : Completes (.timLatch t v) s
    (if (pcieUp d = true ∧ bar0Writable d R.TIM_LATCH = true) ∧ v.getLsbD 0 = true then latchTime d else d) := by
  subst hd
  exact onDev_eq (f := runTimLatch t v) (by simp only [runTimLatch, Bool.and_eq_true, word_bit])

theorem exec_holdoverEnter (k : Nat) : Completes (.holdoverEnter t k) s
    (if k < 2 ∧ (domAt d k).rec_.source = 1 ∧ ((domAt d k).servo = 1 ∨ (domAt d k).servo = 2) ∧ (bestMaster (domAt d k) d.raw).isNone = true then
      heldOver k d else d) := by
  subst hd
  exact onDev_eq (f := runHoldoverEnter t k) rfl

theorem exec_tickRefEdge (k : Nat) : Completes (.tickRefEdge t k) s (if k < 2 then refEdge k d else d) := by
  subst hd
  exact onDev_eq (f := runTickRefEdge t k) rfl

theorem exec_tickLost (k : Nat) : Completes (.tickLost t k) s (if k < 2 then refLost k d else d) := by
  subst hd
  exact onDev_eq (f := runTickLost t k) rfl

theorem exec_ppsOutPulse : Completes (.ppsOutPulse t) s (if timeRuns d = true then ppsRisen d else d) := by
  subst hd
  exact onDev_eq (f := runPpsOutPulse t) rfl

end

/-- Settles O45: each row runs one operation of the time unit under its own condition, and the operations' lemmas say what that leaves. -/
theorem timeFollowsItsReferences : Obligations.TimeFollowsItsReferences := by
  intro t s d hd
  refine ⟨fun hup hfirst => ?_, fun hno => ?_, fun hup => ?_, fun hoff => ?_, fun v => ⟨fun hpcie hopen hgo => ?_, fun hno => ?_⟩,
    fun k hk hptp hservo hnone => ?_, fun k hno => ?_, fun k hno => ?_, fun k hk href => ⟨fun hlocked => ?_, fun hdrift hedges => ?_,
    fun run hacquiring hrun hagree hlen => ?_⟩, fun k v hk htick hlast => ⟨fun hdue => ?_, fun hearly => ?_⟩, fun k hno => ?_, fun hrun => ?_,
    fun hstill => ?_⟩
  · have hout := exec_refLost hd
    rw [if_pos ⟨hup, hfirst⟩] at hout
    exact ⟨_, hout, srefLost_lost d, srefLost_event d, srefLost_tim d, fun o hp ho => srefLost_keepsReg hp ho d⟩
  · have hout := exec_refLost hd
    rwa [if_neg (by rintro ⟨hup, hfirst⟩; simp [hup, hfirst] at hno)] at hout
  · have hout := exec_sref0Return hd
    rw [if_pos hup] at hout
    exact ⟨_, hout, bitOf_setBit_self _ _ _ (by decide) rfl, bitOf_setBit_disjoint _ _ _ _ (by decide) (by decide), rfl,
      fun o ho => rg_setBit_ne _ _ _ ho⟩
  · have hout := exec_sref0Return hd
    rwa [hoff, if_neg Bool.false_ne_true] at hout
  · have hout := exec_timLatch hd v
    rw [if_pos ⟨⟨hpcie, hopen⟩, hgo⟩] at hout
    obtain ⟨hraw0, hraw1, hraw2, hdoms⟩ := latchTime_spec d
    exact ⟨_, hout, hraw0, hraw1, hraw2, latchTime_beside d, hdoms⟩
  · have hout := exec_timLatch hd v
    rwa [if_neg (by rintro ⟨⟨hpcie, hopen⟩, hgo⟩; rw [hpcie, hopen, hgo] at hno; simp at hno)] at hout
  · have hout := exec_holdoverEnter hd k
    rw [if_pos ⟨hk, hptp, hservo, by rw [hnone]; rfl⟩] at hout
    exact ⟨_, hout, heldOver_shows k d⟩
  · have hout := exec_holdoverEnter hd k
    rwa [if_neg (by
      rintro ⟨hk, hptp, hservo, hnone⟩
      simp only [Option.isNone_iff_eq_none.mp hnone, Option.isSome_none, Bool.false_eq_true, or_false] at hno
      omega)] at hout
  · have hout := exec_tickRefEdge hd k
    rcases hno with hk | hnone
    · rwa [if_neg (Nat.not_lt.mpr hk)] at hout
    · rwa [refEdge_untracked hnone, ite_self] at hout
  · have hout := exec_tickRefEdge hd k
    rw [if_pos hk] at hout
    obtain ⟨hphi, hgoal, -, htick⟩ := (refEdge_spec k d href).1 hlocked
    exact ⟨_, hout, hphi, hgoal, htick⟩
  · have hout := exec_tickRefEdge hd k
    rw [if_pos hk] at hout
    exact ⟨_, hout, (refEdge_spec k d href).2.1 hdrift hedges⟩
  · have hout := exec_tickRefEdge hd k
    rw [if_pos hk] at hout
    subst hrun
    exact ⟨_, hout, (refEdge_spec k d href).2.2 hacquiring hagree hlen⟩
  · have hout := exec_tickLost hd k
    rw [if_pos hk] at hout
    exact ⟨_, hout, (refLost_spec k d).2.2 v htick hlast hdue⟩
  · have hout := exec_tickLost hd k
    rwa [(refLost_spec k d).2.1 v hlast hearly, ite_self] at hout
  · have hout := exec_tickLost hd k
    rcases hno with hk | htick
    · rwa [if_neg (Nat.not_lt.mpr hk)] at hout
    · rwa [(refLost_spec k d).1 htick, ite_self] at hout
  · have hout := exec_ppsOutPulse hd
    rw [if_pos hrun] at hout
    exact ⟨_, hout, rfl, rfl, rfl⟩
  · have hout := exec_ppsOutPulse hd
    rwa [hstill, if_neg Bool.false_ne_true] at hout

end Sys2Proof.Machine
end

section
/-! SUPPORT. PTP on the ports of a domain (R268, R269, R270, R271): a message of domain A leaves domain B alone, so that it is taken by the one
domain that runs on its port; what it leaves there, and what the three rows of sending run. -/

namespace Sys2Proof.Machine

/-! One domain takes a message -/

theorem announceRx_domB (q : PtpPort) (m : PtpMsg) (d : Dev) : domAt (announceRx 0 q m d) 1 = domAt d 1 :=
  (domAt_one (selectMaster_domB _)).trans (setPtp_one _ _ _)

theorem delayReqRx_tim (k : Nat) (m : PtpMsg) (d : Dev) : (delayReqRx k m d).tim = d.tim := queueFrame_tim _ _ _

theorem ptpRx_domB (m : PtpMsg) (d : Dev) : domAt (ptpRx 0 m d) 1 = domAt d 1 := by
  unfold ptpRx
  extract_lets x t2
  split
  · rfl
  next q hq =>
    split
    · rfl
    split
    · split
      · rfl
      · exact announceRx_domB q m d
    split
    · split
      · exact domAt_congr (delayReqRx_tim 0 m d) 1
      · rfl
    split
    · rfl
    split
    · split
      · rfl
      · split
        · exact setPtp_one _ _ _
        · exact syncDone_one _ _ _ _ _ q hq
    split
    · split
      · split
        · exact syncDone_one _ _ _ _ _ q hq
        · rfl
      · rfl
    split
    · split
      · split
        · exact (setPtp_one _ _ _).trans (domAt_setDom_ne _ _ (by decide))
        · rfl
      · rfl
    · rfl

/-- A port that runs in one domain alone gives its messages to that domain. -/
theorem ptpRx_alone {k : Nat} (hk : k < 2) {m : PtpMsg} {d : Dev} (hother : tget (domAt d (1 - k)).ports m.port = none) :
    ptpRx 1 m (ptpRx 0 m d) = ptpRx k m d := by
  obtain rfl | rfl : k = 0 ∨ k = 1 := by omega
  · exact ptpRx_ignored (.inl (by rwa [ptpRx_domB]))
  · rw [ptpRx_ignored (k := 0) (.inl hother)]

/-! What a message leaves -/

theorem setPtp_port (k p : Nat) (q : PtpPort) (d : Dev) : tget (domAt (setPtp k p q d) k).ports p = some q := by
  rw [setPtp_dom]
  exact tget_tput_self _ _ _

theorem delayReqRx_answers {k : Nat} {m : PtpMsg} {d : Dev} (hup : (portAt d m.port).link = 2) (hp : m.port < 16) :
    ∃ f, f.tag = .control ∧ (portAt (delayReqRx k m d) m.port).queue = (portAt d m.port).queue ++ [f] ∧
      (delayReqRx k m d).tim = d.tim ∧ (delayReqRx k m d).regs = d.regs :=
  ⟨_, rfl, (queueFrame_queues m.port _ d hup (Nat.ne_of_lt hp)).2 rfl, delayReqRx_tim k m d, (queueFrame_regs _ _ _).1⟩

/-- The sender's dataset heads the masters that the port has heard, whatever the choice of a master makes of the port. -/
theorem announceRx_keeps (k : Nat) (q : PtpPort) (m : PtpMsg) (d : Dev) : ∃ y, tget (domAt (announceRx k q m d) k).ports m.port = some y ∧
    ∃ a n, y.foreign.head? = some (a, d.raw, n) ∧ a.gmId = m.gmId ∧ a.priority1 = m.priority1 ∧ a.srcClock = m.srcClock := by
  unfold announceRx
  extract_lets x a mine run
  obtain ⟨y, hy, hforeign⟩ := selectMaster_ports k m.port _ _
    (setPtp_port k m.port { q with foreign := (a, d.raw, min run 2) :: q.foreign.filter fun e => !mine e } d)
  exact ⟨y, hy, a, min run 2, by rw [hforeign]; rfl, rfl, rfl, rfl⟩

section
variable {k p : Nat} {d : Dev} {q : PtpPort} (hq : tget (domAt d k).ports p = some q)
include hq

theorem syncDone_steps (hfree : (domAt d k).servo = 0) (t1 t2 cs : Int) : (domAt (syncDone k p t1 t2 cs d) k).servo = 1 ∧
    (domAt (syncDone k p t1 t2 cs d) k).off = (domAt d k).off - (t2 - t1 - cs) := by
  rw [syncDone_spec k p t1 t2 cs d q hq, if_pos hfree, sub_zero]
  have hstep := (servoOffset_spec (ns 100) (us 1) k (t2 - t1 - cs)
    (setPtp k p { q with t1 := t1, t2 := t2, cs := cs, have12 := true, sync := none } d)).1
  rw [setPtp_dom] at hstep
  exact hstep hfree

variable {t1 t2 cs off : Int} (hoff : off = t2 - t1 - cs - ((domAt d k).meanPath + asymOf d p)) (hsmall : off.natAbs ≤ us (domAt d k).rec_.stepUs)
include hoff hsmall

theorem syncDone_locks (hservo : (domAt d k).servo = 1) (hgood : (domAt d k).good = 15) (hnear : off.natAbs ≤ ns 100) :
    (domAt (syncDone k p t1 t2 cs d) k).servo = 2 := by
  rw [syncDone_spec k p t1 t2 cs d q hq, if_neg (by omega), ← hoff]
  have hlock := (servoOffset_spec (ns 100) (us 1) k off
    (setPtp k p { q with t1 := t1, t2 := t2, cs := cs, have12 := true, sync := none } d)).2.1
  rw [setPtp_dom] at hlock
  exact (hlock hservo hgood hnear hsmall).1

theorem syncDone_unlocks (hservo : (domAt d k).servo = 2) (hbad : (domAt d k).bad = 3) (hfar : us 1 < off.natAbs) :
    (domAt (syncDone k p t1 t2 cs d) k).servo = 1 ∧
      (rg (syncDone k p t1 t2 cs d) (R.TIM_DOM_LOCK_LOSSES k)).toNat = min ((rg d (R.TIM_DOM_LOCK_LOSSES k)).toNat + 1) 0xFFFFFFFF := by
  rw [syncDone_spec k p t1 t2 cs d q hq, if_neg (by omega), ← hoff]
  have hunlock := (servoOffset_spec (ns 100) (us 1) k off
    (setPtp k p { q with t1 := t1, t2 := t2, cs := cs, have12 := true, sync := none } d)).2.2
  rw [setPtp_dom, rg_congr (setPtp_regs _ _ _ _)] at hunlock
  obtain ⟨hservo', hlosses⟩ := hunlock hservo hbad hfar hsmall
  exact ⟨hservo', by rw [hlosses, min1_toNat]⟩

end

/-! What the rows run -/

section
variable {t : Time} {s : State} {d : Dev} (hd : AtTime t s d)
include hd

theorem exec_ptpMessageRx (m : PtpMsg) : Completes (.ptpMessageRx t m) s
    (if timeRuns d = true ∧ (portAt d m.port).link = 2 then ptpRx 1 m (ptpRx 0 m d) else d) := by
  subst hd
  exact onDev_eq (f := runPtpMessageRx t m) (by simp only [runPtpMessageRx, Bool.and_eq_true, beq_iff_eq])

theorem exec_ptpMessageRx_taken {k : Nat} {m : PtpMsg} (hrun : timeRuns d = true) (hup : (portAt d m.port).link = 2) (hk : k < 2)
    (hother : tget (domAt d (1 - k)).ports m.port = none) : Completes (.ptpMessageRx t m) s (ptpRx k m d) := by
  have hout := exec_ptpMessageRx hd m
  rwa [if_pos ⟨hrun, hup⟩, ptpRx_alone hk hother] at hout

variable {p k : Nat}

/-- SYNC_SEND and ANNOUNCE_SEND act on a MASTER port alone. -/
theorem exec_ptpMasterSends_out (h : ptpIn d p k 1 = none) : Completes (.ptpSyncSend t p k) s d ∧ Completes (.ptpAnnounceSend t p k) s d := by
  subst hd
  exact ⟨onDev_eq (f := runPtpSyncSend t p k) (by simp only [runPtpSyncSend, h]),
    onDev_eq (f := runPtpAnnounceSend t p k) (by simp only [runPtpAnnounceSend, h])⟩

/-- DELAY_REQ_SEND acts on a SLAVE port alone. -/
theorem exec_ptpDelayReqSend_out (h : ptpIn d p k 3 = none) : Completes (.ptpDelayReqSend t p k) s d := by
  subst hd
  exact onDev_eq (f := runPtpDelayReqSend t p k) (by simp only [runPtpDelayReqSend, h])

variable {q : PtpPort}

theorem exec_ptpSyncSend (h : ptpIn d p k 1 = some q) : Completes (.ptpSyncSend t p k) s
    (if elapsed d q.syncAt (logTime (domAt d k).rec_.logSync) = true then sendSync p k q d else d) := by
  subst hd
  exact onDev_eq (f := runPtpSyncSend t p k) (by simp only [runPtpSyncSend, h])

theorem exec_ptpAnnounceSend (h : ptpIn d p k 1 = some q) : Completes (.ptpAnnounceSend t p k) s
    (if elapsed d q.annAt (logTime (domAt d k).rec_.logAnnounce) = true then sendAnnounce p k q d else d) := by
  subst hd
  exact onDev_eq (f := runPtpAnnounceSend t p k) (by simp only [runPtpAnnounceSend, h])

theorem exec_ptpDelayReqSend (h : ptpIn d p k 3 = some q) : Completes (.ptpDelayReqSend t p k) s
    (if elapsed d q.reqAt (logTime (domAt d k).rec_.logDelay) = true then sendDelayReq p k q d else d) := by
  subst hd
  exact onDev_eq (f := runPtpDelayReqSend t p k) (by simp only [runPtpDelayReqSend, h])

end

/-- Settles O46: a message is `ptpRx` in the one domain that runs on its port, by the message's type, and a row of sending queues its frame once
the interval is over and the port is in the row's state. -/
theorem ptpRunsOnItsPorts : Obligations.PtpRunsOnItsPorts := by
  intro t s d hd
  refine ⟨fun m hno => ?_, fun m hrun hup => ⟨fun hnone => ?_, fun k q hk hq hsource hnumber hother => ?_⟩,
    fun p k q hp hk hrun hup hq => ⟨fun hmaster => ?_, fun hslave => ?_⟩, fun p k hno => ?_⟩
  · have hout := exec_ptpMessageRx hd m
    rwa [if_neg (by rintro ⟨hrun, hup⟩; simp [hrun, hup] at hno)] at hout
  · have hout := exec_ptpMessageRx hd m
    rwa [if_pos ⟨hrun, hup⟩, ptpRx_ignored (hnone 0 (by decide)), ptpRx_ignored (hnone 1 (by decide))] at hout
  · intro x t2
    have hout := exec_ptpMessageRx_taken hd hrun hup hk hother
    obtain ⟨hannounce, hdelayReq, hdeaf, hsync, hdelayResp⟩ := ptpRx_cases k m d q hq hsource hnumber
    refine ⟨fun htype hstate hp => ?_, fun htype hstate => ?_, fun hnotAnn hnotReq hstate => ?_,
      fun htype hstate hfrom => ⟨fun htwo => ?_, fun hone hfree => ?_, fun off hone hoff hsmall => ⟨fun hservo hgood hnear => ?_,
        fun hservo hbad hfar => ?_⟩⟩, fun t3 htype hstate hreq hclock hport hhave => ?_, fun htype honly => ?_, fun htype hmay => ?_⟩
    · rw [hdelayReq htype, if_pos hstate] at hout
      obtain ⟨f, hanswer⟩ := delayReqRx_answers (k := k) hup hp
      exact ⟨_, f, hout, hanswer⟩
    · rwa [hdelayReq htype, if_neg hstate] at hout
    · rwa [hdeaf hnotAnn hnotReq hstate] at hout
    · rw [hsync htype hstate hfrom, if_pos htwo] at hout
      exact ⟨_, hout, setPtp_port _ _ _ _, setPtp_regs _ _ _ _⟩
    · rw [hsync htype hstate hfrom, hone, if_neg Bool.false_ne_true] at hout
      exact ⟨_, hout, syncDone_steps hq hfree _ _ _⟩
    · rw [hsync htype hstate hfrom, hone, if_neg Bool.false_ne_true] at hout
      exact ⟨_, hout, syncDone_locks hq hoff hsmall hservo hgood hnear⟩
    · rw [hsync htype hstate hfrom, hone, if_neg Bool.false_ne_true] at hout
      exact ⟨_, hout, syncDone_unlocks hq hoff hsmall hservo hbad hfar⟩
    · rw [hdelayResp t3 htype hstate hreq hclock hport hhave] at hout
      exact ⟨_, hout, by rw [setPtp_dom, domAt_setDom], setPtp_port _ _ _ _, (setPtp_regs _ _ _ _).trans (setDom_regs _ _ _)⟩
    · rwa [hannounce htype, if_pos honly] at hout
    · rw [hannounce htype, hmay, if_neg Bool.false_ne_true] at hout
      obtain ⟨y, hy, hheard⟩ := announceRx_keeps k q m d
      exact ⟨_, y, hout, hy, hheard⟩
  · have hin := ptpIn_some hk hrun hup hq hmaster
    have hne := Nat.ne_of_lt hp
    refine ⟨fun hdue => ?_, fun hearly => ?_, fun hdue => ?_, fun hearly => ?_, exec_ptpDelayReqSend_out hd (ptpIn_state hq (by omega))⟩
    · have hout := exec_ptpSyncSend hd hin
      rw [if_pos hdue] at hout
      obtain ⟨f, hsent⟩ := sendSync_queues p k q d hup hne
      exact ⟨_, f, hout, hsent⟩
    · have hout := exec_ptpSyncSend hd hin
      rwa [hearly, if_neg Bool.false_ne_true] at hout
    · have hout := exec_ptpAnnounceSend hd hin
      rw [if_pos hdue] at hout
      obtain ⟨f, hsent⟩ := sendAnnounce_queues p k q d hup hne
      exact ⟨_, f, hout, hsent⟩
    · have hout := exec_ptpAnnounceSend hd hin
      rwa [hearly, if_neg Bool.false_ne_true] at hout
  · have hin := ptpIn_some hk hrun hup hq hslave
    obtain ⟨hsyncOut, hannOut⟩ := exec_ptpMasterSends_out hd (ptpIn_state hq (show q.state ≠ 1 by omega))
    refine ⟨fun hdue => ?_, fun hearly => ?_, hsyncOut, hannOut⟩
    · have hout := exec_ptpDelayReqSend hd hin
      rw [if_pos hdue] at hout
      obtain ⟨f, hsent⟩ := sendDelayReq_queues p k q d hup (Nat.ne_of_lt hp)
      exact ⟨_, f, hout, hsent⟩
    · have hout := exec_ptpDelayReqSend hd hin
      rwa [hearly, if_neg Bool.false_ne_true] at hout
  · obtain ⟨hsyncOut, hannOut⟩ := exec_ptpMasterSends_out hd (ptpIn_none hno)
    exact ⟨hsyncOut, hannOut, exec_ptpDelayReqSend_out hd (ptpIn_none hno)⟩

end Sys2Proof.Machine
end

section
/-! SUPPORT. Triggers and time actions (R263, R281, R283, R284, R285, R287, R289): what each row of the event unit runs, and what a fire, a
pulse's end, an edge, a read of a capture and the three commands leave. -/

namespace Sys2Proof.Machine

/-! Timecode (R281) -/

/-- A decoder. -/
abbrev ltcAt (d : Dev) (j : Nat) : Ltc := if j = 0 then d.tim.ltc0 else d.tim.ltc1

/-- A decoder has lost its lock (R281). -/
def ltcUnlocked (j : Nat) (d : Dev) : Dev :=
  postEvt 1 0x05 j 0 (setBit (F.EVT_LTC_STATUS_LOCKED j) false (setLtc j { ltcAt d j with run := 0 } d))

theorem ltcFrame_off {d : Dev} {j : Nat} (h : ltcOn d j = false) (f : Option Nat) : ltcFrame j f d = d := by simp [ltcFrame, h]

theorem ltcFrame_bad_shows {d : Dev} {j : Nat} {f : Option Nat} (hon : ltcOn d j = true)
    (hf : f = none ∨ ∃ v, f = some v ∧ v / 2 ^ 64 % 2 ^ 16 ≠ 0xBFFC) :
    (rg (ltcFrame j f d) (R.EVT_LTC_ERRORS j)).toNat = min ((rg d (R.EVT_LTC_ERRORS j)).toNat + 1) 0xFFFFFFFF ∧
      (ltcAt (ltcFrame j f d) j).run = 0 := by
  rw [ltcFrame_bad j f d hon hf]
  obtain ⟨hdecoder, hregs⟩ := setLtc_at j { ltcAt d j with run := 0 } d
  exact ⟨by rw [rg_bump_self, min1_toNat, rg_congr hregs], congrArg Ltc.run hdecoder⟩

theorem ltcUnlocked_unlocked (j : Nat) (d : Dev) : bitOf (ltcUnlocked j d) (F.EVT_LTC_STATUS_LOCKED j) = false := by
  rw [ltcUnlocked, (postEvt_frame _ _ _ _ _).bitOf _ (timCounter (by simp only; omega))]
  exact bitOf_setBit_self _ _ _ (by simp [Fld.Fits]) rfl

/-! Actions (R284) -/

theorem fireAction_pin_shows {i : Nat} {a : Action} {x : Sched} {d : Dev} (ha : tget d.tim.actions i = some a) (hx : a.sched = some x)
    (hpin : a.target = 0) :
    tget (fireAction i d).tim.actions i =
        some { a with fires := sat (a.fires + 1), sched := x.advance d a, pulse := some (d.raw + ns a.width) } ∧
      (fireAction i d).out = (if pinsLive d then [.pin a.pin (!a.invert)] else []) ++ d.out ∧ (fireAction i d).regs = d.regs := by
  rw [fireAction_pin i a x d ha hx hpin]
  cases pinsLive d <;> exact ⟨tget_tput_self _ _ _, rfl, rfl⟩

theorem fireAction_item_shows {i : Nat} {a : Action} {x : Sched} {d : Dev} (ha : tget d.tim.actions i = some a) (hx : a.sched = some x)
    (hitem : a.target = 2) :
    tget (fireAction i d).tim.actions i = some { a with fires := sat (a.fires + 1), sched := x.advance d a } ∧
      ∀ o, o ∉ postCounters → rg (fireAction i d) o = rg d o := by
  rw [fireAction_item i a x d ha hx hitem]
  exact ⟨by rw [(postEvt_frame _ _ _ _ _).tim]; exact tget_tput_self _ _ _, fun o ho => rg_postEvt _ _ _ _ _ _ ho⟩

/-- The pin of an action is idle again (R284). -/
def pulseEnded (i : Nat) (a : Action) (d : Dev) : Dev := drivePin a.pin a.invert (setAction i { a with pulse := none } d)

theorem pulseEnd_pending {i : Nat} {a : Action} {v : Time} {d : Dev} (ha : tget d.tim.actions i = some a) (hv : a.pulse = some v) :
    pulseEnd i d = if v ≤ d.raw then pulseEnded i a d else d := by
  simp only [pulseEnd, ha, hv, Option.bind_some, Option.map_some]
  rfl

theorem pulseEnd_idle {i : Nat} {a : Action} {d : Dev} (ha : tget d.tim.actions i = some a) (hv : a.pulse = none) (ho : d.tim.orphans = []) :
    pulseEnd i d = d := by
  simp only [pulseEnd, ha, hv, ho, Option.bind_some, Option.map_none, List.find?_nil]

/-! Captures (R287) -/

/-- Does an edge of an input enter its FIFO: the input is on, takes this edge, and is not the pin of decoder 1? -/
def edgeTaken (d : Dev) (i : Nat) (fall : Bool) : Bool :=
  let g := fld d (F.EVT_CAP_CFG_EDGE i)
  timeRuns d && bitOf d (F.EVT_CAP_CFG_EN i) && (g == 3 || (g == 1 && !fall) || (g == 2 && fall)) && !(i == 3 && d.tim.ltcOnCap3)

/-- The stamp of an edge: the time of the input's domain. -/
def edgeStamp (d : Dev) (i : Nat) (fall : Bool) : Stamp :=
  let x := domTime d (fld d (F.EVT_CAP_CFG_DOMAIN i))
  ⟨unsgn 32 (secsOf x), nanosOf x, fall⟩

/-- An edge's stamp has entered the FIFO of its input. -/
def edgeKept (i : Nat) (fall : Bool) (d : Dev) : Dev := { d with tim.caps := tput d.tim.caps i (capsOf d i ++ [edgeStamp d i fall]) }

theorem captureEdge_eq (i : Nat) (fall : Bool) (d : Dev) : captureEdge i fall d =
    if 8 ≤ i ∨ edgeTaken d i fall = false then d
    else if 16 ≤ (capsOf d i).length then bump (R.EVT_CAP_OVF i) d
    else if bitOf d (F.EVT_CAP_CFG_POST i) then postEvt 3 0x03 i (edgeStamp d i fall).ns_ (edgeKept i fall d)
    else edgeKept i fall d := by
  unfold captureEdge
  dsimp only
  rw [capture_guard]
  simp only [decide_eq_true_eq]
  rfl

theorem captureEdge_ignored {d : Dev} {i : Nat} {fall : Bool} (h : 8 ≤ i ∨ edgeTaken d i fall = false) : captureEdge i fall d = d := by
  rw [captureEdge_eq, if_pos h]

section
variable {d : Dev} {i : Nat} {fall : Bool} (hi : i < 8) (hon : edgeTaken d i fall = true)
include hi hon

theorem captureEdge_full (hfull : 16 ≤ (capsOf d i).length) : captureEdge i fall d = bump (R.EVT_CAP_OVF i) d := by
  rw [captureEdge_eq, if_neg (by simp [hon, hi]), if_pos hfull]

theorem captureEdge_taken (hroom : (capsOf d i).length < 16) : PostFrame (edgeKept i fall d) (captureEdge i fall d) := by
  rw [captureEdge_eq, if_neg (by simp [hon, hi]), if_neg (Nat.not_le.mpr hroom)]
  split
  · exact postEvt_frame _ _ _ _ _
  · exact .refl _

theorem captureEdge_keeps (hroom : (capsOf d i).length < 16) : capsOf (captureEdge i fall d) i = capsOf d i ++ [edgeStamp d i fall] := by
  rw [capsOf_congr (congrArg (·.caps) (captureEdge_taken hi hon hroom).tim), capsOf, edgeKept, tget_tput_self]
  rfl

end

theorem capNsRead_takes (i : Nat) (d : Dev) : capsOf (capNsRead i d).1 i = (capsOf d i).tail := by
  by_cases h : (capsOf d i).length ≤ 1
  · have hrest : (capsOf d i).tail = [] := List.length_eq_zero_iff.mp (by rw [List.length_tail]; omega)
    rw [hrest, capNsRead, if_pos h, capsOf, tget_tdel_self]
    rfl
  · rw [capNsRead, if_neg h, capsOf, tget_tput_self]
    rfl

/-- A read of CAPi_NS has answered the oldest entry and taken it (R287). -/
def capNsShown (i : Nat) (d : Dev) : Dev := emit (.readData (leBytes 4 (capNsWord d i).toNat)) (capNsRead i d).1

theorem adcDone_idle {d : Dev} (h : d.tim.adc = none) (l : List Nat) : adcDone l d = d := by simp [adcDone, h]

/-! What the rows run -/

section
variable {t : Time} {s : State} {d : Dev} (hd : AtTime t s d)
include hd

theorem exec_ltcFrame (j : Nat) (f : Option Nat) : Completes (.ltcFrame t j f) s (ltcFrame j f d) := by
  subst hd
  exact onDev_eq (f := runLtcFrame t j f) rfl

theorem exec_ltcLost (j : Nat) : Completes (.ltcLost t j) s
    (if (ltcOn d j = true ∧ bitOf d (F.EVT_LTC_STATUS_LOCKED j) = true) ∧ (ltcAt d j).last + ms 100 ≤ d.raw then ltcUnlocked j d else d) := by
  subst hd
  exact onDev_eq (f := runLtcLost t j) (by simp only [ltcUnlocked, runLtcLost, Bool.and_eq_true, decide_eq_true_eq])

theorem exec_actionFired_unused {i : Nat} (h : tget d.tim.actions i = none) : Completes (.actionFired t i) s d := by
  subst hd
  exact onDev_eq (f := runActionFired t i) (by simp only [runActionFired, h])

theorem exec_actionFired_waits {i : Nat} {a : Action} (ha : tget d.tim.actions i = some a) (hno : a.sched = none ∨ a.device.isSome = true ∨
    actionsRun d = false ∨ ∃ x, a.sched = some x ∧ clockNow d a + 5 * 65536 < x.next) : Completes (.actionFired t i) s d := by
  subst hd
  refine onDev_eq (f := runActionFired t i) ?_
  cases hx : a.sched with
  | none => simp only [runActionFired, ha, hx]
  | some x =>
    have hnot : ¬((a.device.isNone = true ∧ actionsRun (upTo t s.toDev) = true) ∧ x.next ≤ clockNow (upTo t s.toDev) a + 5 * 65536) := by
      rintro ⟨⟨hdev, hrun⟩, hdue⟩
      rcases hno with h | h | h | ⟨y, hy, h⟩
      · rw [hx] at h; cases h
      · rw [Option.isNone_iff_eq_none.mp hdev] at h; cases h
      · rw [hrun] at h; cases h
      · rw [hx] at hy; cases hy; omega
    simp only [runActionFired, ha, hx, Bool.and_eq_true, decide_eq_true_eq, if_neg hnot]

theorem exec_pulseEnd (i : Nat) : Completes (.pulseEnd t i) s (pulseEnd i d) := by
  subst hd
  exact onDev_eq (f := runPulseEnd t i) rfl

theorem exec_capture (i : Nat) (fall : Bool) : Completes (.capture t i fall) s (captureEdge i fall d) := by
  subst hd
  exact onDev_eq (f := runCapture t i fall) rfl

theorem exec_capNsRead_nowhere {i : Nat} (h : pcieUp d = false ∨ 8 ≤ i) : Completes (.capNsRead t i) s d := by
  subst hd
  refine onDev_eq (f := runCapNsRead t i) ?_
  rcases h with h | h <;> simp [runCapNsRead, h]

theorem exec_capNsRead {i : Nat} (hup : pcieUp d = true) (hi : i < 8) (hopen : bar0Up d (R.EVT_CAP_NS i) = true) :
    Completes (.capNsRead t i) s (capNsShown i d) := by
  subst hd
  refine onDev_eq (f := runCapNsRead t i) ?_
  simp only [runCapNsRead, hup, hopen, Nat.not_le.mpr hi]
  rfl

theorem exec_adcResult (l : List Nat) : Completes (.adcResult t l) s (adcDone l d) := by
  subst hd
  exact onDev_eq (f := runAdcResult t l) rfl

end

/-! The commands on an action's handle (R283) -/

section
variable {x : Word} {d : Dev} {a : Action} (hk : hKind x = 0xB) (ho : (objOf d x).isSome = true) (ha : tget d.tim.actions (hIndex x) = some a)
include hk ho ha

theorem armBody_refused {b : List Byte} {r : Refuse} (hr : armSched d a b = .error r) : armBody x b d = (d, failed x r) := by
  rw [armBody, onHandle_ok hk ho]
  simp only [armAction, ha, hr, answer]

theorem armBody_installs {b : List Byte} {y : Sched} (hy : armSched d a b = .ok y) (hnext : clockNow d a ≤ y.next) :
    armBody x b d = (setAction (hIndex x) { a with sched := some y } d, done x (timeBytes y.next ++ leBytes 4 0)) := by
  rw [armBody, onHandle_ok hk ho, armAction_ok ha hy hnext]
  rfl

/-- R285: a ONCE whose instant is past fires at once under FIRE_NOW. -/
theorem armBody_fires_late {b : List Byte} {y : Sched} (hy : armSched d a b = .ok y) (hpast : y.next < clockNow d a) (hp : a.policy = 0)
    (hm : y.mode = 0) : ∃ e late z, armBody x b d = (e, done x (timeBytes y.next ++ leBytes 4 late)) ∧
      tget e.tim.actions (hIndex x) = some z ∧ z.fires = sat (a.fires + 1) ∧ z.lateFires = sat (a.lateFires + 1) := by
  obtain ⟨e, late, z, harm, hfired⟩ := armAction_late ha hy hpast hp hm
  exact ⟨e, late, z, by rw [armBody, onHandle_ok hk ho, harm]; rfl, hfired⟩

theorem cancelBody_removes : cancelBody x d = (setAction (hIndex x) { a with sched := none } d, done x (leBytes 4 a.fires)) := by
  rw [cancelBody, onHandle_ok hk ho]
  simp only [cancelAction, ha]

end

/-! DOMAIN_SWITCH (R263) -/

section
variable {x : Word} {b : List Byte} {d : Dev}

theorem switchBody_bad_handle (h0 : x ≠ 0) (hbad : hKind x ≠ 5 ∨ objOf d x = none) : switchBody x b d = (d, fails x rcBadHandle) := by
  have hno : (hKind x == 5 && (objOf d x).isSome) = false := by rcases hbad with h | h <;> simp [h]
  unfold switchBody
  extract_lets dest flags ppm at' named cs moves data step s'
  rw [if_pos ⟨h0, by rw [hno]; rfl⟩]

theorem switchBody_out_of_range (hx : x = 0 ∨ (hKind x = 5 ∧ (objOf d x).isSome = true))
    (hr : 1 < at_ b 0 1 ∨ 1 < at_ b 1 1 ∨ 10 < at_ b 2 1 ∨ at_ b 3 5 ≠ 0) : switchBody x b d = (d, fails x rcOutOfRange) := by
  unfold switchBody
  extract_lets dest flags ppm at' named cs moves data step s'
  rw [if_neg, if_pos hr]
  rintro ⟨h0, hno⟩
  rcases hx with h | ⟨hk, ho⟩
  · exact h0 h
  · rw [hk, ho] at hno
    exact absurd hno (by decide)

/-- The switch that DOMAIN_SWITCH's arguments ask of a canvas. -/
def switchAsked (d : Dev) (b : List Byte) (c : Canvas) : Canvas :=
  { c with switch := some { dest := at_ b 0 1, step := at_ b 1 1 == 1, ppm := if at_ b 2 1 = 0 then 10 else at_ b 2 1,
                            tick := switchTick d c (timeOf (at_ b 8 8) (at_ b 16 4)) } }

variable {c : Canvas} (h0 : x ≠ 0) (hk : hKind x = 5) (ho : (objOf d x).isSome = true) (hc : canvasAt d (hIndex x) = some c)
  (h1 : at_ b 0 1 ≤ 1) (h2 : at_ b 1 1 ≤ 1) (h3 : at_ b 2 1 ≤ 10) (h4 : at_ b 3 5 = 0)
include h0 hk ho hc h1 h2 h3 h4

/-- A canvas already on the domain stays as it is where STEP is clear. -/
theorem switchBody_stays (hdest : c.domain = at_ b 0 1) (hslew : at_ b 1 1 = 0) :
    switchBody x b d = (d, done x (switchData d c (at_ b 0 1) (switchTick d c (timeOf (at_ b 8 8) (at_ b 16 4))))) := by
  rw [switchBody_named x b d c h0 hk ho hc h1 h2 h3 h4]
  simp [hdest, hslew, switchAgrees]

variable (hdest : c.domain ≠ at_ b 0 1)
include hdest

theorem switchBody_conflict (hno : (switchAgrees d (at_ b 0 1) [hIndex x] &&
    commensurate (domAt d (at_ b 0 1)).rec_ c.timing.rateNum c.timing.rateDen) = false) : switchBody x b d = (d, fails x rcConflict) := by
  rw [switchBody_named x b d c h0 hk ho hc h1 h2 h3 h4]
  simp only [bne_iff_ne.mpr hdest, if_true, List.all_cons, List.all_nil, Bool.and_true, hno, Bool.not_false]

theorem switchBody_stages (hyes : (switchAgrees d (at_ b 0 1) [hIndex x] &&
    commensurate (domAt d (at_ b 0 1)).rec_ c.timing.rateNum c.timing.rateDen) = true) :
    switchBody x b d = (setCanvas (hIndex x) (switchAsked d b c) d,
      done x (switchData d c (at_ b 0 1) (switchTick d c (timeOf (at_ b 8 8) (at_ b 16 4))))) := by
  rw [switchBody_named x b d c h0 hk ho hc h1 h2 h3 h4]
  simp only [bne_iff_ne.mpr hdest, if_true, List.all_cons, List.all_nil, Bool.and_true, hyes, Bool.not_true, Bool.false_eq_true, if_false, hdest,
    false_and]
  rfl

end

/-- Settles O47: each row runs one operation of the event unit under its own condition, and each command is its body on the handle it names. -/
theorem triggersAndActions : Obligations.TriggersAndActions := by
  intro t s d hd plus
  refine ⟨fun j f => ⟨fun hoff => ?_, fun hon => ⟨fun hbad => ?_, fun v hv hsync => ?_, fun hlocked hold => ?_, fun hno => ?_⟩⟩,
    fun i hnone => exec_actionFired_unused hd hnone,
    fun i a ha => ⟨exec_actionFired_waits hd ha, fun x b hx hdev hrun hdue hb => ⟨fun hpin => ?_, fun hadc => ?_, fun hitem => ?_⟩,
      fun v hv => ⟨fun hearly => ?_, fun hdue => ?_⟩, fun hidle horphans => ?_⟩,
    fun i fall => ?_, fun i => ⟨exec_capNsRead_nowhere hd, fun hup hi hopen => ?_⟩, fun l => ⟨fun hidle => ?_, fun i n x m hbusy => ?_⟩,
    fun h handle b hs => ⟨fun hbad => row_fails (fun _ => rfl) hd hs (onHandle_bad hbad), fun a hk ho ha => ⟨fun r hr => ?_,
      fun x hx => ⟨fun hnext => ?_, fun hpast hpolicy hmode => ?_⟩⟩⟩,
    fun h handle hs => ⟨fun hbad => row_fails (fun _ => rfl) hd hs (onHandle_bad hbad), fun a hk ho ha => ?_⟩,
    fun h handle b hs => ⟨fun h0 hbad => row_fails (fun _ => rfl) hd hs (switchBody_bad_handle h0 hbad), fun hx =>
      ⟨fun hrange => row_fails (fun _ => rfl) hd hs (switchBody_out_of_range hx hrange), fun c h0 hc h1 h2 h3 h4 => ?_⟩⟩⟩
  · have hframe := exec_ltcFrame hd j f
    have hlost := exec_ltcLost hd j
    rw [ltcFrame_off hoff] at hframe
    rw [hoff, if_neg (by simp)] at hlost
    exact ⟨hframe, hlost⟩
  · exact ⟨_, exec_ltcFrame hd j f, ltcFrame_bad_shows hon hbad⟩
  · subst hv
    exact ⟨_, exec_ltcFrame hd j (some v), ltcFrame_spec j v d hon hsync⟩
  · have hout := exec_ltcLost hd j
    rw [if_pos ⟨⟨hon, hlocked⟩, hold⟩] at hout
    exact ⟨_, hout, ltcUnlocked_unlocked j d⟩
  · have hout := exec_ltcLost hd j
    rwa [if_neg (by
      rintro ⟨⟨-, hlocked⟩, hold⟩
      rcases hno with h | h
      · rw [hlocked] at h; cases h
      · exact absurd hold (Nat.not_le.mpr h))] at hout
  · subst hb
    exact ⟨_, fireAction_run hd.symm ha hx hdev hrun hdue, fireAction_pin_shows ha hx hpin⟩
  · subst hb
    obtain ⟨hstarts, hoverruns, haction⟩ := fireAction_adc i a x d ha hx hadc
    refine ⟨_, fireAction_run hd.symm ha hx hdev hrun hdue, haction, hstarts, fun y hy => ?_⟩
    obtain ⟨hkept, hcount⟩ := hoverruns y hy
    exact ⟨hkept, (congrArg BitVec.toNat hcount).trans (min1_toNat _)⟩
  · subst hb
    exact ⟨_, fireAction_run hd.symm ha hx hdev hrun hdue, fireAction_item_shows ha hx hitem⟩
  · have hout := exec_pulseEnd hd i
    rwa [pulseEnd_pending ha hv, if_neg (Nat.not_le.mpr hearly)] at hout
  · have hout := exec_pulseEnd hd i
    rw [pulseEnd_pending ha hv, if_pos hdue] at hout
    exact ⟨_, hout, tget_tput_self _ _ _, rfl, rfl⟩
  · have hout := exec_pulseEnd hd i
    rwa [pulseEnd_idle ha hidle horphans] at hout
  · intro g on
    have hout := exec_capture hd i fall
    refine ⟨fun hno => ?_, fun hi hon hroom => ⟨_, hout, captureEdge_keeps hi hon hroom⟩, fun hi hon hfull => ?_⟩
    · rwa [captureEdge_ignored hno] at hout
    · rw [captureEdge_full hi hon hfull] at hout
      exact ⟨_, hout, rfl, (congrArg BitVec.toNat (rg_bump_self _ _)).trans (min1_toNat _)⟩
  · refine ⟨_, exec_capNsRead hd hup hi hopen, capNsRead_takes i d, rfl, ?_⟩
    show Emit.readData (leBytes 4 (capNsWord d i).toNat) :: d.out = _
    unfold capNsWord
    cases capsOf d i <;> rfl
  · have hout := exec_adcResult hd l
    rwa [adcDone_idle hidle] at hout
  · obtain ⟨htim, hresult01, hresult23, hcount⟩ := adcDone_spec l d i n m x hbusy
    exact ⟨_, exec_adcResult hd l, htim, (congrArg BitVec.toNat hcount).trans (min1_toNat _), hresult01, hresult23⟩
  · exact row_fails (fun _ => rfl) hd hs (armBody_refused hk ho ha hr)
  · exact ⟨_, row_answers (fun _ => rfl) hd hs (armBody_installs hk ho ha hx hnext), tget_tput_self _ _ _, rfl⟩
  · obtain ⟨e, late, y, harm, hfired⟩ := armBody_fires_late hk ho ha hx hpast hpolicy hmode
    exact ⟨e, late, y, row_answers (fun _ => rfl) hd hs harm, hfired⟩
  · exact ⟨_, row_answers (fun _ => rfl) hd hs (cancelBody_removes hk ho ha), tget_tput_self _ _ _, rfl⟩
  · obtain ⟨hk, ho⟩ := hx.resolve_left h0
    refine ⟨fun hdest hslew => ?_, fun hdest hno => ?_, fun hdest hyes => ?_⟩
    · exact ⟨_, row_answers (fun _ => rfl) hd hs (switchBody_stays h0 hk ho hc h1 h2 h3 h4 hdest hslew)⟩
    · exact row_fails (fun _ => rfl) hd hs (switchBody_conflict h0 hk ho hc h1 h2 h3 h4 hdest hno)
    · intro n
      exact ⟨_, row_answers (fun _ => rfl) hd hs (switchBody_stages h0 hk ho hc h1 h2 h3 h4 hdest hyes), rfl, tget_tput_self _ _ _⟩

end Sys2Proof.Machine
end

section
/-! SUPPORT. Site policy (R295, R296, R298, R299, R300, R305, R306): what each row of the site engine runs, which row of R296 a datagram meets
and what a report that is taken leaves, and what CYCLE, a trigger and EXPIRY make of a zone. -/

namespace Sys2Proof.Machine

/-! Telemetry: the rows of R296, in their order -/

/-- A datagram reaches a port that the site record names, at its own address (R295). -/
abbrev telHeard (d : Dev) (port ip : Nat) : Prop :=
  port < 16 ∧ bit (fld d F.SITE_TEL_PORTS_PORTS) port = true ∧ ip = (portAt d port).rec_.ipv4

/-- The sequence number is one of the last 33 of its source, by the third row of R296. -/
abbrev telAgain (d : Dev) (b : List Byte) : Prop :=
  ∃ last, tget d.site.seqs (at_ b 4 8) = some last ∧ -32 ≤ sgn 16 (at_ b 2 2 + 65536 - last) ∧ sgn 16 (at_ b 2 2 + 65536 - last) ≤ 0

/-- The sensor of a source and channel: RUNNING or HELD, and so is its zone. -/
abbrev telSensor (d : Dev) (source channel : Nat) : Option (Nat × Sensor) :=
  d.site.sensors.find? fun e =>
    !e.2.rdm && e.2.ident == source && e.2.channel == channel && isLive d (okey 9 e.1) && isLive d (okey 8 e.2.zone)

/-- A datagram's sequence number is its source's last. -/
def seqTaken (b : List Byte) (d : Dev) : Dev := { d with site.seqs := tput d.site.seqs (at_ b 4 8) (at_ b 2 2) }

/-- A counter has counted one event. -/
theorem bump_toNat (o : Nat) (d : Dev) : (rg (bump o d) o).toNat = min ((rg d o).toNat + 1) 0xFFFFFFFF := by
  rw [rg_bump_self, min1_toNat]

/-- A dropped datagram counts, and nothing else changes. -/
theorem bump_alone (o : Nat) (d : Dev) :
    (bump o d).site = d.site ∧ (bump o d).sch = d.sch ∧ (bump o d).out = d.out ∧ ∀ q, q ≠ o → rg (bump o d) q = rg d q :=
  ⟨bump_site o d, bump_sch o d, bump_out o d, fun _ hq => rg_bump_ne d hq⟩

section
variable {b : List Byte} {d : Dev}

theorem telDatagram_bad_length (h : b.length ≠ 12 + 8 * at_ b 1 1 ∨ at_ b 1 1 = 0) : telDatagram b d = bump R.SITE_TEL_LEN_DROPS d := by
  unfold telDatagram
  exact if_pos h

section
variable (hlen : b.length = 12 + 8 * at_ b 1 1) (hcount : at_ b 1 1 ≠ 0)
include hlen hcount

theorem telDatagram_bad_version (h : at_ b 0 1 ≠ 1) : telDatagram b d = bump R.SITE_TEL_BAD d := by
  unfold telDatagram
  rw [if_neg (by simp [hlen, hcount]), if_pos h]

section
variable (hversion : at_ b 0 1 = 1)
include hversion

theorem telDatagram_again (h : telAgain d b) : telDatagram b d = bump R.SITE_TEL_SEQ_DROPS d := by
  obtain ⟨last, hlast, hold⟩ := h
  unfold telDatagram
  rw [if_neg (by simp [hlen, hcount]), if_neg (by simp [hversion])]
  simp only [hlast, hold, and_self, decide_true, if_true]

/-- A datagram that no row drops is kept as its source's last, and its reports are taken in their order. -/
theorem telDatagram_accepted (h : ¬ telAgain d b) : telDatagram b d = (List.range (at_ b 1 1)).foldl
    (fun s i => telReport (at_ b 4 8) (at_ b (12 + 8 * i) 1) (at_ b (13 + 8 * i) 1) (at_ b (16 + 8 * i) 4) s) (seqTaken b d) := by
  unfold telDatagram
  rw [if_neg (by simp [hlen, hcount]), if_neg (by simp [hversion])]
  cases hlast : tget d.site.seqs (at_ b 4 8) with
  | none => rfl
  | some last =>
    have hnew : ¬ (-32 ≤ sgn 16 (at_ b 2 2 + 65536 - last) ∧ sgn 16 (at_ b 2 2 + 65536 - last) ≤ 0) := fun hold => h ⟨last, hlast, hold⟩
    simp only [hnew, decide_false, Bool.false_eq_true, if_false]
    rfl

theorem telDatagram_seqs (h : ¬ telAgain d b) : tget (telDatagram b d).site.seqs (at_ b 4 8) = some (at_ b 2 2) := by
  rw [telDatagram_accepted hlen hcount hversion h, reports_seqs]
  exact tget_tput_self _ _ _

theorem telDatagram_one (h : ¬ telAgain d b) (hone : at_ b 1 1 = 1) :
    telDatagram b d = telReport (at_ b 4 8) (at_ b 12 1) (at_ b 13 1) (at_ b 16 4) (seqTaken b d) := by
  rw [telDatagram_accepted hlen hcount hversion h, hone]
  rfl

end
end
end

/-! Telemetry: a report that is taken -/

/-- A value has been taken of a sensor's bucket and is its last one. -/
def Sensor.taken (x : Sensor) (v : Nat) (now : Time) : Sensor :=
  { x with credit := x.tokens now - sec 1, creditAt := now, value := v % 2 ^ 32, heard := some now }

/-- A sensor has taken a value, which is not yet pushed to its zone. -/
def sensorTaken (i : Nat) (x : Sensor) (v : Nat) (d : Dev) : Dev := { d with site.sensors := tput d.site.sensors i (x.taken v d.raw) }

/-- A report that is taken counts, is its sensor's last value and enters the inbox of its zone's task where a push is granted. -/
theorem telReport_taken {source typ channel v i : Nat} {x : Sensor} {d : Dev} (hfound : telSensor d source channel = some (i, x))
    (htype : typ = if x.daylight then 2 else 1) (htokens : sec 1 ≤ x.tokens d.raw) :
    let e := telReport source typ channel v d
    (rg e R.SITE_TEL_REPORTS).toNat = min ((rg d R.SITE_TEL_REPORTS).toNat + 1) 0xFFFFFFFF ∧
      tget e.site.sensors i = some (x.taken v d.raw) ∧ e.site.zones = d.site.zones ∧
      ∀ k, tget d.sch.tasks (36864 + x.zone) = some k → (pushRoom d k && waitsAt d (36864 + x.zone) == []) = true →
        ∃ k', tget e.sch.tasks (36864 + x.zone) = some k' ∧ k'.flags % 2 = 1 ∧
          k'.inbox = k.inbox ++ [(i * 2 ^ 32 + v % 2 ^ 32) % 2 ^ 48 + (if k.grouped then (groupAt d k.group).issue else 0) * 2 ^ 48] := by
  intro e
  have he : e = bump R.SITE_TEL_REPORTS (pushItem (36864 + x.zone) (i * 2 ^ 32 + v % 2 ^ 32) (sensorTaken i x v d)) :=
    ((telReport_spec source typ channel v d).2 i x hfound).2.2 htype htokens
  have hsite : e.site = (sensorTaken i x v d).site := by rw [he, bump_site, pushItem_site]
  refine ⟨?_, ?_, ?_, fun k hk hroom => ?_⟩
  · rw [he, bump_toNat, pushItem_rg _ _ _ (by decide) (by decide) (by decide)]
    rfl
  · rw [hsite]
    exact tget_tput_self _ _ _
  · rw [hsite]
    rfl
  · obtain ⟨k', hk', hinbox, hflag⟩ := pushItem_room (36864 + x.zone) (i * 2 ^ 32 + v % 2 ^ 32) (sensorTaken i x v d) k hk hroom
    exact ⟨k', by rw [he, bump_sch, hk'], hflag, hinbox⟩

/-! The zone's timers -/

/-- The hold of an OCCUPIED zone has ended (R298). -/
def holdOver (d : Dev) (x : Zone) : Bool := x.st == 1 && (match x.holdEnd with | some v => decide (v ≤ d.raw) | none => false)

/-- The fade down of a FADING zone has reached VAC_LEVEL (R299). -/
def fadeOver (d : Dev) (x : Zone) : Bool := x.st == 2 && decide (x.p.at_ + x.p.dur ≤ d.raw)

/-- A zone has stayed VACANT for H (R299). -/
def stayOver (d : Dev) (x : Zone) : Bool :=
  x.st == 0 && (match x.vacantFrom with | some v => decide (v + sec x.holdS ≤ d.raw) | none => false)

theorem holdOver_iff {d : Dev} {x : Zone} : holdOver d x = true ↔ x.st = 1 ∧ ∃ v, x.holdEnd = some v ∧ v ≤ d.raw := by
  unfold holdOver
  cases x.holdEnd <;> simp

theorem fadeOver_iff {d : Dev} {x : Zone} : fadeOver d x = true ↔ x.st = 2 ∧ x.p.at_ + x.p.dur ≤ d.raw := by
  simp [fadeOver]

theorem stayOver_iff {d : Dev} {x : Zone} : stayOver d x = true ↔ x.st = 0 ∧ ∃ v, x.vacantFrom = some v ∧ v + sec x.holdS ≤ d.raw := by
  unfold stayOver
  cases x.vacantFrom <;> simp

/-- FADING has ended in VACANT, which is posted (R299, R306). -/
def zoneEmptied (z : Nat) (x : Zone) (d : Dev) : Dev :=
  postSite 1 0x02 z 0xFFFF (setZone z { x with st := 0, vacantFrom := some (x.p.at_ + x.p.dur) } d)

/-- h is H again after a stay in VACANT (R299). -/
def holdRestored (z : Nat) (x : Zone) (d : Dev) : Dev := setZone z { x with h := x.holdS * 1000, vacantFrom := none } d

theorem zoneEmptied_shows (z : Nat) (x : Zone) (d : Dev) :
    zoneAt (zoneEmptied z x d) z = some { x with st := 0, vacantFrom := some (x.p.at_ + x.p.dur) } ∧
      ∀ q, q ∉ postCounters → rg (zoneEmptied z x d) q = rg d q :=
  ⟨(zoneAt_congr (postSite_frame _ _ _ _ _).site z).trans (zoneAt_setZone _ _ _), (postSite_frame _ _ _ _ _).2⟩

/-- Posted flags are set in the task under the mask it has; the site engine's tables stay. -/
theorem postFlags_spec (n flags : Nat) (d : Dev) : (postFlags n flags d).site = d.site ∧
    ∀ k, tget d.sch.tasks n = some k →
      ∃ k', tget (postFlags n flags d).sch.tasks n = some k' ∧ k'.mask = k.mask ∧ k'.flags = k.flags ||| flags / 2 * 2 := by
  unfold postFlags
  cases hk : tget d.sch.tasks n with
  | none => exact ⟨rfl, nofun⟩
  | some k =>
    have hplaced := makeReady_placed n (setTask n { k with flags := k.flags ||| flags / 2 * 2 } d)
    obtain ⟨q, w, htask⟩ := hplaced.tasks n
    rw [setTask_tasks, tget_tput_self] at htask
    refine ⟨hplaced.site, fun j hj => ?_⟩
    cases hj
    exact ⟨_, htask, rfl, rfl⟩

/-! CYCLE (R298, R79) -/

section
variable {z : Nat} {x : Zone} {o : HObj} {d : Dev} (hx : zoneAt d z = some x) (ho : objAt d (okey 8 z) = some o)
include hx ho

theorem zoneCycle_early (h : domTime d 0 < x.nextCycle * (ms x.cycleMs : Nat)) :
    zoneCycle z d = setZone z { x with nextCycle := min x.nextCycle (cycleAfter d x.cycleMs) } d := by
  simp only [zoneCycle, hx, ho, if_pos h]

section
variable (hdue : x.nextCycle * (ms x.cycleMs : Nat) ≤ domTime d 0)
include hdue

theorem zoneCycle_not_started (h : o.state ≠ 2 ∨ x.nextCycle * (ms x.cycleMs : Nat) < (o.startAt : Int)) :
    zoneCycle z d = setZone z { x with nextCycle := cycleAfter d x.cycleMs } d := by
  have hno : ¬ (o.state = 2 ∧ (o.startAt : Int) ≤ x.nextCycle * (ms x.cycleMs : Nat)) := by
    rintro ⟨hstate, hstart⟩
    exact h.elim (· hstate) (Int.not_lt.mpr hstart)
  simp only [zoneCycle, hx, ho, if_neg (Int.not_lt.mpr hdue), if_neg hno]

/-- A CYCLE of a RUNNING zone from its first start on takes the kept level away, lets the task run and posts flag 1. -/
theorem zoneCycle_runs (hstate : o.state = 2) (hstart : (o.startAt : Int) ≤ x.nextCycle * (ms x.cycleMs : Nat)) :
    ∃ w, zoneAt w z = some { x with nextCycle := cycleAfter d x.cycleMs, keep := none } ∧ w.sch = d.sch ∧
      zoneCycle z d = postFlags (36864 + z) 2 (setMask (36864 + z) 7 (zoneOverride z w)) := by
  refine ⟨if x.keep.isSome then setZone z { x with nextCycle := cycleAfter d x.cycleMs, keep := none }
      (setZone z { x with nextCycle := cycleAfter d x.cycleMs } d) else setZone z { x with nextCycle := cycleAfter d x.cycleMs } d, ?_, ?_, ?_⟩
  · cases hkeep : x.keep with
    | none => rw [if_neg (by simp), zoneAt_setZone, ← hkeep]
    | some v => rw [if_pos (by simp), zoneAt_setZone]
  · split <;> rfl
  · simp only [zoneCycle, hx, ho, if_neg (Int.not_lt.mpr hdue), hstate, hstart, and_self, if_true]

theorem zoneCycle_posts (hstate : o.state = 2) (hstart : (o.startAt : Int) ≤ x.nextCycle * (ms x.cycleMs : Nat)) :
    (∃ y, zoneAt (zoneCycle z d) z = some y ∧ y.nextCycle = cycleAfter d x.cycleMs ∧ y.keep = none) ∧
      ∀ k, tget d.sch.tasks (36864 + z) = some k →
        ∃ k', tget (zoneCycle z d).sch.tasks (36864 + z) = some k' ∧ k'.mask = 7 ∧ k'.flags = k.flags ||| 2 := by
  obtain ⟨w, hzone, hsch, hcycle⟩ := zoneCycle_runs hx ho hdue hstate hstart
  obtain ⟨⟨y, hy, hnext, hkeep⟩, hover⟩ := zoneOverride_spec z w _ hzone
  obtain ⟨hsite, htask⟩ := postFlags_setMask (36864 + z) 7 2 (zoneOverride z w)
  rw [hover, hsch] at htask
  rw [hcycle]
  exact ⟨⟨y, (zoneAt_congr hsite z).trans hy, hnext, hkeep⟩, htask⟩

end
end

/-! The table of R299 -/

section
variable {z : Nat} {x : Zone} {d : Dev} (hx : zoneAt d z = some x)
include hx

theorem zoneTrigger_vacant (h : x.st = 0) (sensor : Nat) : zoneAt (zoneTrigger z sensor d) z =
    some { x.fadeTo (siteNow d) x.occ with st := 1, holdEnd := some (siteNow d + ms x.h), vacantFrom := none } := by
  simp only [zoneTrigger, hx, h]
  exact (zoneAt_congr (postSite_frame _ _ _ _ _).site z).trans (zoneAt_setZone _ _ _)

theorem zoneTrigger_occupied (h : x.st = 1) (sensor : Nat) :
    zoneTrigger z sensor d = setZone z { x with holdEnd := some (siteNow d + ms x.h) } d := by
  simp only [zoneTrigger, hx, h]

/-- A trigger in FADING extends the hold, which counts. -/
theorem zoneTrigger_fading (h : x.st = 2) (sensor : Nat) :
    let hold := min (x.h * 3 / 2) (4 * (x.holdS * 1000))
    zoneAt (zoneTrigger z sensor d) z =
        some { x.fadeTo (siteNow d) x.occ with st := 1, h := hold, holdEnd := some (siteNow d + ms hold) } ∧
      rg (zoneTrigger z sensor d) R.SITE_HOLD_EXTENSIONS = BitVec.ofNat 32 (min ((rg d R.SITE_HOLD_EXTENSIONS).toNat + 1) 0xFFFFFFFF) := by
  intro hold
  simp only [zoneTrigger, hx, h]
  have hpost := postSite_frame 1 0x03 z sensor (bump R.SITE_HOLD_EXTENSIONS
    (setZone z { x.fadeTo (siteNow d) x.occ with st := 1, h := hold, holdEnd := some (siteNow d + ms hold) } d))
  exact ⟨(zoneAt_congr hpost.site z).trans (zoneAt_setZone _ _ _), (hpost.2 _ (by decide)).trans (rg_bump_self _ _)⟩

theorem zoneExpiry_fades (h : x.st = 1) {v : Time} (hv : x.holdEnd = some v) (hdue : v ≤ siteNow d) :
    zoneAt (zoneExpiry z d) z = some { x.fadeTo (siteNow d) x.vac with st := 2, holdEnd := none } := by
  simp [zoneExpiry, hx, h, hv, hdue]

theorem zoneExpiry_waits (h : x.st ≠ 1 ∨ ∀ v, x.holdEnd = some v → siteNow d < v) : zoneExpiry z d = d := by
  simp only [zoneExpiry, hx]
  refine if_neg ?_
  rcases h with h | h
  · simp [h]
  · cases hv : x.holdEnd with
    | none => simp
    | some v => simp [h v hv]

end

/-! What the rows run -/

section
variable {t : Time} {s : State} {d : Dev} (hd : AtTime t s d)
include hd

theorem exec_telemetry_unheard {port ip : Nat} (h : ¬ telHeard d port ip) (b : List Byte) : Completes (.telemetryDatagramRx t port ip b) s d := by
  subst hd
  exact onDev_eq (f := runTelemetryDatagramRx t port ip b) (congrArg _ (if_neg h))

theorem exec_telemetry_heard {port ip : Nat} (h : telHeard d port ip) (b : List Byte) : Completes (.telemetryDatagramRx t port ip b) s
    (if d.sys.mode = .hold then bump R.SYS_HOLD_DROPS d else if siteRuns d then telDatagram b d else d) := by
  subst hd
  exact onDev_eq (f := runTelemetryDatagramRx t port ip b) (congrArg _ (if_pos h))

theorem exec_zoneCycle (z : Nat) : Completes (.zoneCycle t z) s (if siteRuns d then zoneCycle z d else d) := by
  subst hd
  exact onDev_eq (f := runZoneCycle t z) rfl

/-- Without the zone, or while the site engine stands, the four rows of a zone change nothing (R305). -/
theorem exec_zone_idle {z : Nat} (h : zoneAt d z = none ∨ siteRuns d = false) : Completes (.zoneCycle t z) s d ∧
    Completes (.holdExpiry t z) s d ∧ Completes (.zoneVacant t z) s d ∧ Completes (.zoneHoldReset t z) s d := by
  have hcycle := exec_zoneCycle hd z
  subst hd
  rcases h with h | h
  · have hskip : zoneCycle z (upTo t s.toDev) = upTo t s.toDev := by simp only [zoneCycle, h]
    rw [hskip, ite_self] at hcycle
    exact ⟨hcycle, onDev_eq (f := runHoldExpiry t z) (by simp only [runHoldExpiry, h]),
      onDev_eq (f := runZoneVacant t z) (by simp only [runZoneVacant, h]), onDev_eq (f := runZoneHoldReset t z) (by simp only [runZoneHoldReset, h])⟩
  · rw [if_neg (by simp [h])] at hcycle
    refine ⟨hcycle, onDev_eq (f := runHoldExpiry t z) ?_, onDev_eq (f := runZoneVacant t z) ?_, onDev_eq (f := runZoneHoldReset t z) ?_⟩
    · cases hz : zoneAt (upTo t s.toDev) z <;> simp [runHoldExpiry, hz, h]
    · cases hz : zoneAt (upTo t s.toDev) z <;> simp [runZoneVacant, hz, h]
    · cases hz : zoneAt (upTo t s.toDev) z <;> simp [runZoneHoldReset, hz, h]

section
variable {z : Nat} {x : Zone} (hx : zoneAt d z = some x) (hrun : siteRuns d = true)
include hx hrun

theorem exec_holdExpiry : Completes (.holdExpiry t z) s (if holdOver d x then postFlags (36864 + z) 4 d else d) := by
  subst hd
  refine onDev_eq (f := runHoldExpiry t z) ?_
  simp only [runHoldExpiry, hx, hrun, Bool.true_and]
  rfl

theorem exec_zoneVacant : Completes (.zoneVacant t z) s (if fadeOver d x then zoneEmptied z x d else d) := by
  subst hd
  refine onDev_eq (f := runZoneVacant t z) ?_
  simp only [runZoneVacant, hx, hrun, Bool.true_and]
  rfl

theorem exec_zoneHoldReset : Completes (.zoneHoldReset t z) s (if stayOver d x then holdRestored z x d else d) := by
  subst hd
  refine onDev_eq (f := runZoneHoldReset t z) ?_
  simp only [runZoneHoldReset, hx, hrun, Bool.true_and]
  rfl

end
end

/-- Settles O48: a datagram meets the row of R296 that `telDatagram` finds first, each timer of a zone runs under its own condition, and the
table of R299 is `zoneTrigger` and `zoneExpiry`. -/
theorem zonesFollowTheirSensors : Obligations.ZonesFollowTheirSensors := by
  intro t s d hd plus rest
  have hcounts : ∀ o, plus (bump o d) o ∧ rest (bump o d) o := fun o => ⟨bump_toNat o d, bump_alone o d⟩
  refine ⟨fun port ip b => ?_, fun z hidle => exec_zone_idle hd hidle, fun z x hx hrun => ?_, fun f z sensor x hx => ?_⟩
  · intro heard again
    refine ⟨fun hno => exec_telemetry_unheard hd hno b, fun hheard hhold => ?_, fun hheard hhold hstop => ?_, fun hheard hrun => ?_⟩
    · have hrx := exec_telemetry_heard hd hheard b
      rw [if_pos hhold] at hrx
      exact ⟨_, hrx, hcounts _⟩
    · have hrx := exec_telemetry_heard hd hheard b
      rwa [if_neg hhold, if_neg (by simp [hstop])] at hrx
    · have hactive : d.sys.mode ≠ .hold := fun hhold => by simp [siteRuns, hhold] at hrun
      have hrx := exec_telemetry_heard hd hheard b
      rw [if_neg hactive, if_pos hrun] at hrx
      refine ⟨fun hbad => ?_, fun hlen hcount => ⟨fun hbad => ?_, fun hversion hagain => ?_, fun hversion hnew => ⟨⟨_, hrx, ?_⟩, fun hone => ?_⟩⟩⟩
      · rw [telDatagram_bad_length hbad] at hrx
        exact ⟨_, hrx, hcounts _⟩
      · rw [telDatagram_bad_version hlen hcount hbad] at hrx
        exact ⟨_, hrx, hcounts _⟩
      · rw [telDatagram_again hlen hcount hversion hagain] at hrx
        exact ⟨_, hrx, hcounts _⟩
      · exact telDatagram_seqs hlen hcount hversion hnew
      · rw [telDatagram_one hlen hcount hversion hnew hone] at hrx
        obtain ⟨hunmatched, hmatched⟩ := telReport_spec (at_ b 4 8) (at_ b 12 1) (at_ b 13 1) (at_ b 16 4) (seqTaken b d)
        intro found
        refine ⟨fun hnone => ?_, fun i x hfound => ?_⟩
        · rw [hunmatched hnone] at hrx
          exact ⟨_, hrx, bump_toNat _ _, rfl, rfl⟩
        · obtain ⟨hwrong, hempty, -⟩ := hmatched i x hfound
          refine ⟨fun htype => ?_, fun htype htokens => ?_, fun htype htokens => ?_⟩
          · rw [hwrong htype] at hrx
            exact ⟨_, hrx, bump_toNat _ _, rfl, rfl⟩
          · rw [hempty htype htokens] at hrx
            exact ⟨_, hrx, bump_toNat _ _, rfl, rfl⟩
          · obtain ⟨hreports, hsensor, hzones, hinbox⟩ := telReport_taken (d := seqTaken b d) (v := at_ b 16 4) hfound htype htokens
            exact ⟨_, _, hrx, hreports, hsensor, rfl, rfl, rfl, hzones, hinbox⟩
  · refine ⟨fun o ho => ?_, ?_⟩
    · intro at'
      have hcycle := exec_zoneCycle hd z
      rw [if_pos hrun] at hcycle
      refine ⟨fun hearly => ?_, fun hdue hno => ?_, fun hdue hstate hstart => ?_⟩
      · rw [zoneCycle_early hx ho hearly] at hcycle
        exact ⟨_, hcycle, zoneAt_setZone _ _ _, rfl, rfl⟩
      · rw [zoneCycle_not_started hx ho hdue hno] at hcycle
        exact ⟨_, hcycle, zoneAt_setZone _ _ _, rfl, rfl⟩
      · obtain ⟨⟨y, hy, hnext, hkeep⟩, htask⟩ := zoneCycle_posts hx ho hdue hstate hstart
        exact ⟨_, y, hcycle, hy, hnext, hkeep, htask⟩
    · have hexpiry := exec_holdExpiry hd hx hrun
      have hvacant := exec_zoneVacant hd hx hrun
      have hreset := exec_zoneHoldReset hd hx hrun
      refine ⟨⟨fun hno => ?_, fun hended => ?_⟩, fun hno => ?_, fun hst hfaded => ?_, ⟨fun hno => ?_, fun hstayed => ?_⟩⟩
      · rwa [if_neg (mt holdOver_iff.mp hno)] at hexpiry
      · rw [if_pos (holdOver_iff.mpr hended)] at hexpiry
        exact ⟨_, hexpiry, postFlags_spec (36864 + z) 4 d⟩
      · rwa [if_neg (mt fadeOver_iff.mp hno)] at hvacant
      · rw [if_pos (fadeOver_iff.mpr ⟨hst, hfaded⟩)] at hvacant
        exact ⟨_, hvacant, zoneEmptied_shows z x d⟩
      · rwa [if_neg (mt stayOver_iff.mp hno)] at hreset
      · rw [if_pos (stayOver_iff.mpr hstayed)] at hreset
        exact ⟨_, hreset, zoneAt_setZone _ _ _, rfl, rfl⟩
  · refine ⟨fun hst => ⟨_, zoneTrigger_vacant hx hst sensor, rfl, rfl, rfl, rfl, rfl⟩, fun hst => zoneTrigger_occupied hx hst sensor, fun hst => ?_,
      fun v hst hv hdue => ⟨_, zoneExpiry_fades hx hst hv hdue, rfl, rfl, rfl⟩, zoneExpiry_waits hx⟩
    obtain ⟨hzone, hcount⟩ := zoneTrigger_fading hx hst sensor
    exact ⟨_, hzone, rfl, rfl, rfl, rfl, rfl, hcount⟩

end Sys2Proof.Machine
end

section
/-! SUPPORT. What a step takes from the queue, and that the queue stays in order. -/

namespace Sys2Proof.Machine

/-- Settles O58: a step is the front command's `exec`, or `idle` where none waits. -/
theorem stepRunsFront : Obligations.StepRunsFront :=
  ⟨fun _ _ _ h => step_cons h, fun _ h => step_empty h⟩

/-- A step takes at most the front command from the queue, and adds none. -/
theorem step_pending {s s' : State} (h : step s = .next s') : s'.pending = s.pending.tail := by
  cases hp : s.pending with
  | nil =>
    rw [step_empty hp] at h
    obtain rfl := Host.Outcome.next.inj h
    exact hp
  | cons c r =>
    rw [step_cons hp] at h
    exact exec_pending h

theorem queueOk_nil : QueueOk [] := ⟨fun _ hc => absurd hc List.not_mem_nil, .nil⟩

theorem QueueOk.tail {q : List Instr} (h : QueueOk q) : QueueOk q.tail :=
  ⟨fun c hc => h.1 c (List.mem_of_mem_tail hc), h.2.sublist (List.tail_sublist q)⟩

/-- Settles O59: the queue of reset is empty, and a step leaves the tail of the one it meets. -/
theorem queueStaysOrdered : Obligations.QueueStaysOrdered :=
  ⟨queueOk_nil, fun _ _ hq hs => step_pending hs ▸ hq.tail⟩

end Sys2Proof.Machine
end

section
/-! SUPPORT. The test access port (R422): what its instructions capture, and when they take the pins. -/

namespace Sys2Proof.Machine

/-! The bits that are shifted out -/

/-- FUSE_READ begins with the UID. -/
theorem fuseBits_uid (f : Fuses) {i : Nat} (h : i < 64) : (fuseBits f)[i]? = some (Nat.testBit (fuseUid f) i) := by
  simp only [fuseBits, List.append_assoc]
  rw [List.getElem?_append_left (by rwa [bitsOf_length]), bitsOf_get _ _ _ h]

/-- Eight lot characters make FUSE_READ 192 bits long. -/
theorem fuseBits_length {f : Fuses} (h : f.lot.length = 8) : (fuseBits f).length = 192 := by
  have hlot : (f.lot.flatMap fun c => bitsOf 8 (lotChar c)).length = 64 := by
    simp [List.length_flatMap, bitsOf_length, h]
  simp only [fuseBits, List.length_append, bitsOf_length, hlot]

theorem sampled_length (n : Nat) (d : Dev) : (sampled n d).2.length = n := by simp [sampled]

/-! The rows -/

section
variable {t : Time} {s : State} {d : Dev} (hd : AtTime t s d)
include hd

theorem exec_extest (cells : List Bool) :
    Completes (.extest t cells) s (if tapTakes d then emit (.cells (some cells)) (tapScan 0 cells d) else tapBypass d) := by
  subst hd
  exact onDev_eq (f := runExtest t cells) rfl

theorem exec_highz :
    Completes (.highz t) s (if tapTakes d then emit (.tdo [false]) (emit (.cells none) { d with jtag.ir := 4 }) else tapBypass d) := by
  subst hd
  exact onDev_eq (f := runHighz t) rfl

theorem exec_clamp : Completes (.clamp t) s
    (if tapTakes d then emit (.tdo [false]) (emit (.cells (some d.jtag.cells)) { d with jtag.ir := 5 }) else tapBypass d) := by
  subst hd
  exact onDev_eq (f := runClamp t) rfl

theorem exec_samplePreload (cells : List Bool) : Completes (.samplePreload t cells) s (tapScan 2 cells d) := by
  subst hd
  exact onDev_eq (f := runSamplePreload t cells) rfl

theorem exec_bypass : Completes (.bypass t) s (tapBypass d) := by
  subst hd
  exact onDev_eq (f := runBypass t) rfl

theorem exec_idcode : Completes (.idcode t) s (emit (.tdo (bitsOf 32 0xB9400C5B)) { d with jtag.ir := 1 }) := by
  subst hd
  exact onDev_eq (f := runIdcode t) rfl

theorem exec_fuseRead : Completes (.fuseRead t) s (emit (.tdo (fuseBits d.fuses)) { d with jtag.ir := 0x30 }) := by
  subst hd
  exact onDev_eq (f := runFuseRead t) rfl

end

/-- Settles O28: EXTEST, HIGHZ and CLAMP act by `tapTakes`, and the other rows shift out their own bits in every mode. -/
theorem testAccessPortActs : Obligations.TestAccessPortActs := by
  intro t cells s d hd
  have hextest := exec_extest hd cells
  have hhighz := exec_highz hd
  have hclamp := exec_clamp hd
  refine ⟨fun hmode hpin => ?_, fun hno => ?_, ⟨_, sampled_length cells.length d, exec_samplePreload hd cells⟩, exec_bypass hd,
    ⟨_, fun i hi => bitsOf_get _ _ _ hi, bitsOf_length _ _, exec_idcode hd⟩,
    ⟨_, fun i hi => fuseBits_uid _ hi, fuseBits_length, exec_fuseRead hd⟩⟩
  · rw [tapTakes_of hmode hpin, if_pos rfl] at hextest hhighz hclamp
    exact ⟨⟨_, sampled_length cells.length d, hextest⟩, hhighz, hclamp⟩
  · rw [tapTakes_not hno, if_neg Bool.false_ne_true] at hextest hhighz hclamp
    exact ⟨hextest, hhighz, hclamp⟩

end Sys2Proof.Machine
end

section
/-! SUPPORT. The supply's thresholds (R397, R40, R41): what VMON below and above them sets, counts and clears, and when HOLD begins and ends. -/

namespace Sys2Proof.Machine

/-! VMON_STOP -/

theorem vlowStop_sys (mv : Nat) (d : Dev) : (vlowStop mv d).sys = d.sys := by
  unfold vlowStop
  split
  · rfl
  · exact (norSuspend_regs _).2.trans (postSup_frame _ _ _).sys

/-- Below VMON_STOP the bit stands, set now or before. -/
theorem vlowStop_low {mv : Nat} {d : Dev} (h : mv < fld d F.SUP_VMON_STOP_MV) : bitOf (vlowStop mv d) F.SYS_STATUS_VLOW_STOP = true := by
  cases hset : bitOf d F.SYS_STATUS_VLOW_STOP with
  | false => exact (vlowStop_shows mv d hset h).2.1
  | true => simp [vlowStop, hset]

/-- The STOP bits cleared and posted, before the store's operation goes on. -/
def stopCleared (mv : Nat) (d : Dev) : Dev := postSup 0x02 mv (setBit F.SUP_STATUS_STOP false (setBit F.SYS_STATUS_VLOW_STOP false d))

theorem stopCleared_shows (mv : Nat) (d : Dev) : (stopCleared mv d).sys = d.sys ∧ bitOf (stopCleared mv d) F.SYS_STATUS_VLOW_STOP = false ∧
    bitOf (stopCleared mv d) F.SUP_STATUS_STOP = false := by
  have hpost := postSup_frame 0x02 mv (setBit F.SUP_STATUS_STOP false (setBit F.SYS_STATUS_VLOW_STOP false d))
  refine ⟨hpost.sys, ?_, ?_⟩
  · rw [stopCleared, hpost.bitOf _ (by decide), bitOf_setBit_off _ _ _ _ (by decide), bitOf_setBit_self _ _ _ (by decide) rfl]
  · rw [stopCleared, hpost.bitOf _ (by decide), bitOf_setBit_self _ _ _ (by decide) rfl]

theorem vlowStopClear_high {mv : Nat} {d : Dev} (hset : bitOf d F.SYS_STATUS_VLOW_STOP = true) (h : 51 * fld d F.SUP_VMON_STOP_MV ≤ 50 * mv) :
    vlowStopClear mv d = norBegin (stopCleared mv d) := if_pos (by simp [hset, clearOf, h])

/-! VMON_HOLD -/

/-- The HOLD bits set, counted and posted, before the mode changes. -/
def holdNoted (mv : Nat) (d : Dev) : Dev :=
  postSup 0x03 mv <| bump R.SUP_HOLD_EVENTS <| setBit F.SUP_STATUS_HOLD true <| setBit F.SYS_STATUS_VLOW_HOLD true d

theorem holdNoted_shows (mv : Nat) (d : Dev) : (holdNoted mv d).sys = d.sys ∧ bitOf (holdNoted mv d) F.SYS_STATUS_VLOW_HOLD = true ∧
    bitOf (holdNoted mv d) F.SUP_STATUS_HOLD = true ∧ bitOf (holdNoted mv d) F.SYS_STATUS_VLOW_STOP = bitOf d F.SYS_STATUS_VLOW_STOP ∧
    rg (holdNoted mv d) R.SYS_HOLD_ENTRIES = rg d R.SYS_HOLD_ENTRIES := by
  have hpost := postSup_frame 0x03 mv (bump R.SUP_HOLD_EVENTS <| setBit F.SUP_STATUS_HOLD true <| setBit F.SYS_STATUS_VLOW_HOLD true d)
  refine ⟨hpost.sys, ?_, ?_, ?_, ?_⟩
  · rw [holdNoted, hpost.bitOf _ (by decide), bitOf_bump_off _ _ _ (by decide), bitOf_setBit_off _ _ _ _ (by decide),
      bitOf_setBit_self _ _ _ (by decide) rfl]
  · rw [holdNoted, hpost.bitOf _ (by decide), bitOf_bump_off _ _ _ (by decide), bitOf_setBit_self _ _ _ (by decide) rfl]
  · rw [holdNoted, hpost.bitOf _ (by decide), bitOf_bump_off _ _ _ (by decide), bitOf_setBit_off _ _ _ _ (by decide),
      bitOf_setBit_disjoint _ _ _ _ (by decide) (by decide)]
  · rw [holdNoted, hpost.2 _ (by decide), rg_bump_ne _ (by decide), rg_setBit_ne _ _ _ (by decide), rg_setBit_ne _ _ _ (by decide)]

theorem vlowHold_low {mv : Nat} {d : Dev} (hset : bitOf d F.SYS_STATUS_VLOW_HOLD = false) (h : mv < fld d F.SUP_VMON_HOLD_MV) :
    vlowHold mv d = if d.sys.mode = .active ∨ d.sys.mode = .standby then enterHold (holdNoted mv (vlowStop mv d)) else holdNoted mv (vlowStop mv d) := by
  have hsys : (holdNoted mv (vlowStop mv d)).sys = d.sys := (holdNoted_shows _ _).1.trans (vlowStop_sys _ _)
  rw [← hsys]
  exact if_neg (by simp [hset, below, h])

/-- The HOLD bits cleared and posted, before the mode changes. -/
def holdCleared (mv : Nat) (d : Dev) : Dev := postSup 0x04 mv (setBit F.SUP_STATUS_HOLD false (setBit F.SYS_STATUS_VLOW_HOLD false d))

theorem holdCleared_shows (mv : Nat) (d : Dev) : (holdCleared mv d).sys = d.sys ∧ (holdCleared mv d).red = d.red ∧
    bitOf (holdCleared mv d) F.SYS_STATUS_VLOW_HOLD = false ∧ bitOf (holdCleared mv d) F.SUP_STATUS_HOLD = false := by
  have hpost := postSup_frame 0x04 mv (setBit F.SUP_STATUS_HOLD false (setBit F.SYS_STATUS_VLOW_HOLD false d))
  refine ⟨hpost.sys, hpost.red, ?_, ?_⟩
  · rw [holdCleared, hpost.bitOf _ (by decide), bitOf_setBit_off _ _ _ _ (by decide), bitOf_setBit_self _ _ _ (by decide) rfl]
  · rw [holdCleared, hpost.bitOf _ (by decide), bitOf_setBit_self _ _ _ (by decide) rfl]

theorem vlowHoldClear_high {mv : Nat} {d : Dev} (hset : bitOf d F.SYS_STATUS_VLOW_HOLD = true) (h : 51 * fld d F.SUP_VMON_HOLD_MV ≤ 50 * mv) :
    vlowHoldClear mv d = if d.sys.mode = .hold then leaveHold (holdCleared mv d) else holdCleared mv d := by
  rw [← (holdCleared_shows mv d).1]
  exact if_pos (by simp [hset, clearOf, h])

/-! The rows -/

section
variable {t : Time} {s : State} {d : Dev} (hd : AtTime t s d) (hup : d.sys.mode ≠ .reset)
include hd hup

theorem exec_vlowStop (mv : Nat) : Completes (.vlowStop t mv) s (vlowStop mv d) := by
  subst hd
  exact onDev_eq (f := runVlowStop t mv) (congrArg _ (if_pos (guarded_of hup)))

theorem exec_vlowStopClear (mv : Nat) : Completes (.vlowStopClear t mv) s (vlowStopClear mv d) := by
  subst hd
  exact onDev_eq (f := runVlowStopClear t mv) (congrArg _ (if_pos (guarded_of hup)))

theorem exec_vlowHold (mv : Nat) : Completes (.vlowHold t mv) s (vlowHold mv d) := by
  subst hd
  exact onDev_eq (f := runVlowHold t mv) (congrArg _ (if_pos (guarded_of hup)))

theorem exec_vlowHoldClear (mv : Nat) : Completes (.vlowHoldClear t mv) s (vlowHoldClear mv d) := by
  subst hd
  exact onDev_eq (f := runVlowHoldClear t mv) (congrArg _ (if_pos (guarded_of hup)))

end

/-- Settles O4: below a threshold the bits are set and HOLD is entered by `enterHold`, 2 % above they are clear and HOLD ends by `leaveHold`. -/
theorem supplyStopsAndHolds : Obligations.SupplyStopsAndHolds := by
  intro t mv s d hd hup
  refine ⟨fun hset hlow => ⟨_, exec_vlowStop hd hup mv, vlowStop_shows mv d hset hlow⟩, fun hset hhigh => ?_, fun hset hlow => ?_,
    fun hset hhigh => ?_⟩
  · have hc := exec_vlowStopClear hd hup mv
    rw [vlowStopClear_high hset hhigh] at hc
    obtain ⟨hregs, hsys⟩ := norBegin_regs (stopCleared mv d)
    obtain ⟨hsys', hvlow, hstop⟩ := stopCleared_shows mv d
    exact ⟨_, hc, hsys.trans hsys', (bitOf_congr hregs _).trans hvlow, (bitOf_congr hregs _).trans hstop⟩
  · have hc := exec_vlowHold hd hup mv
    rw [vlowHold_low hset hlow] at hc
    obtain ⟨hsys, hvlow, hhold, hstop, hentries⟩ := holdNoted_shows mv (vlowStop mv d)
    rw [vlowStop_sys] at hsys
    by_cases hmode : d.sys.mode = .active ∨ d.sys.mode = .standby
    · rw [if_pos hmode] at hc
      obtain ⟨emode, efrom, efault, ecount, estatus, esup⟩ := enterHold_shows (holdNoted mv (vlowStop mv d))
      refine ⟨_, hc, (keepsReg_bitOf F.SYS_STATUS_VLOW_HOLD estatus).trans hvlow, (keepsReg_bitOf F.SUP_STATUS_HOLD esup).trans hhold, fun hlow' => ?_, fun _ => ?_,
        fun hna hns => absurd hmode (by simp [hna, hns])⟩
      · exact (keepsReg_bitOf F.SYS_STATUS_VLOW_STOP estatus).trans (hstop.trans (vlowStop_low hlow'))
      · rw [hsys] at efrom
        rw [hentries, vlowStop_keepsReg mv d (by decide) (by decide) (by decide) (by decide)] at ecount
        exact ⟨emode, efrom, efault, ecount⟩
    · rw [if_neg hmode] at hc
      exact ⟨_, hc, hvlow, hhold, fun hlow' => hstop.trans (vlowStop_low hlow'), fun h => absurd h hmode, fun _ _ => hsys⟩
  · have hc := exec_vlowHoldClear hd hup mv
    rw [vlowHoldClear_high hset hhigh] at hc
    obtain ⟨hsys, hred, hvlow, hhold⟩ := holdCleared_shows mv d
    obtain ⟨hlost, hkept⟩ := leaveHold_shows (holdCleared mv d)
    rw [hsys, hred] at hlost hkept
    by_cases hmode : d.sys.mode = .hold
    · rw [if_pos hmode] at hc
      refine ⟨_, hc, fun hno => ?_, fun h => hlost h.2, fun _ hno => (hkept fun h => hno ⟨hmode, h⟩).1, fun h => absurd hmode h⟩
      obtain ⟨-, hstatus, hsup⟩ := hkept fun h => hno ⟨hmode, h⟩
      exact ⟨(keepsReg_bitOf F.SYS_STATUS_VLOW_HOLD hstatus).trans hvlow, (keepsReg_bitOf F.SUP_STATUS_HOLD hsup).trans hhold⟩
    · rw [if_neg hmode] at hc
      exact ⟨_, hc, fun _ => ⟨hvlow, hhold⟩, fun h => absurd h.1 hmode, fun h => absurd h hmode, fun _ => hsys⟩

end Sys2Proof.Machine
end

section
/-! SUPPORT. The liveness timeout of the control cores (R337) and first light (R32). -/

namespace Sys2Proof.Machine

/-- The control cores are silent: the interlock is released, in every mode. -/
def coresSilent (d : Dev) : Dev := ilkRelease { d with red.silent := true }

theorem coresSilent_shows (d : Dev) : (coresSilent d).sys = d.sys ∧ (coresSilent d).red.silent = true ∧ (coresSilent d).red.ilk = false := by
  obtain ⟨hsys, hred, -⟩ := ilkRelease_shows { d with red.silent := true }
  exact ⟨hsys, congrArg (·.silent) hred, congrArg (·.ilk) hred⟩

/-- A HOLD that will end in STANDBY: the outputs are silent already. -/
def holdEndsStandby (d : Dev) : Dev := { silence d with sys.heldFrom := .standby }

theorem holdEndsStandby_shows (d : Dev) : (holdEndsStandby d).sys = { d.sys with heldFrom := .standby } ∧
    (holdEndsStandby d).red.silent = d.red.silent ∧ (holdEndsStandby d).red.ilk = d.red.ilk := by
  have hpair := silence_pair d
  exact ⟨congrArg (fun y : Sys => { y with heldFrom := .standby }) hpair.sys, congrArg (·.silent) hpair.red, congrArg (·.ilk) hpair.red⟩

/-- The first instant at which the device is noted as lit. -/
def lightNoted (d : Dev) : Dev := startDue (firstMilestone R.SYS_T_LIGHT { d with sys.lit := true })

theorem lightNoted_shows (d : Dev) : (lightNoted d).sys = { d.sys with lit := true } ∧ rg (lightNoted d) R.SYS_T_LIGHT =
    if rg d R.SYS_T_LIGHT = 0 then BitVec.ofNat 32 ((d.raw - d.sys.tEnd) / us 1) else rg d R.SYS_T_LIGHT := by
  obtain ⟨hregs, hsys⟩ := startDue_regs (firstMilestone R.SYS_T_LIGHT { d with sys.lit := true })
  obtain ⟨hmsys, -, hlight⟩ := firstMilestone_shows R.SYS_T_LIGHT { d with sys.lit := true }
  exact ⟨hsys.trans hmsys, (rg_congr hregs _).trans hlight⟩

section
variable {t : Time} {s : State} {d : Dev} (hd : AtTime t s d)
include hd

theorem exec_livenessTimeout (hrun : timeRuns d = true) (hloud : d.red.silent = false) : Completes (.livenessTimeout t) s
    (if d.sys.mode = .active then enterStandby (coresSilent d) else if d.sys.mode = .hold then holdEndsStandby (coresSilent d) else coresSilent d) := by
  subst hd
  rw [← (coresSilent_shows (upTo t s.toDev)).1]
  exact onDev_eq (f := runLivenessTimeout t) (congrArg _ (if_pos (by rw [hrun, hloud]; rfl)))

theorem exec_firstLight (hmode : d.sys.mode = .active) (hdark : d.sys.lit = false)
    (hshown : d.vid.canvases = [] ∨ ∃ c ∈ d.vid.canvases, shownFirst d c.2 = true) : Completes (.firstLight t) s (lightNoted d) := by
  subst hd
  refine onDev_eq (f := runFirstLight t) (congrArg _ (if_pos ⟨hmode, by rw [hdark]; rfl, ?_⟩))
  rwa [List.isEmpty_iff, List.any_eq_true]

end

/-- Settles O9: the timeout leaves `coresSilent` and what the mode makes of it, and first light is `lightNoted`. -/
theorem livenessAndFirstLight : Obligations.LivenessAndFirstLight := by
  intro t s d hd
  refine ⟨fun hrun hloud => ?_, fun hmode hdark hshown => ?_⟩
  · have hc := exec_livenessTimeout hd hrun hloud
    obtain ⟨hsys, hsilent, hilk⟩ := coresSilent_shows d
    by_cases hactive : d.sys.mode = .active
    · rw [if_pos hactive] at hc
      obtain ⟨eilk, esilent, -⟩ := enterStandby_red (coresSilent d)
      exact ⟨_, hc, esilent.trans hsilent, eilk, fun _ => (enterStandby_spec _).1, fun h => by simp [hactive] at h, fun h => absurd hactive h⟩
    · rw [if_neg hactive] at hc
      by_cases hhold : d.sys.mode = .hold
      · rw [if_pos hhold] at hc
        obtain ⟨esys, esilent, eilk⟩ := holdEndsStandby_shows (coresSilent d)
        exact ⟨_, hc, esilent.trans hsilent, eilk.trans hilk, fun h => absurd h hactive, fun _ => hsys ▸ esys, fun _ h => absurd hhold h⟩
      · rw [if_neg hhold] at hc
        exact ⟨_, hc, hsilent, hilk, fun h => absurd h hactive, fun h => absurd h hhold, fun _ _ => hsys⟩
  · obtain ⟨hsys, hlight⟩ := lightNoted_shows d
    exact ⟨_, exec_firstLight hd hmode hdark hshown, hsys, fun h => hlight.trans (if_pos h), fun h => hlight.trans (if_neg h)⟩

end Sys2Proof.Machine
end

section
/-! SUPPORT. The supply's readings (R399, R400): what a reading of the rails and of the temperature shows. -/

namespace Sys2Proof.Machine

/-! A temperature (R400) -/

/-- The reading shown, and the highest one kept. -/
def tempShown (x : Int) (d : Dev) : Dev := setFld F.SUP_TEMP_NOW (unsgn 16 x) (setFld F.SUP_TEMP_MAX (unsgn 16 (max x (sgn 16 (fld d F.SUP_TEMP_MAX)))) d)

theorem sgn16_range (v : Nat) : -32768 ≤ sgn 16 v ∧ sgn 16 v < 32768 := by
  unfold sgn
  split <;> omega

theorem tempShown_now (x : Int) (d : Dev) (h1 : -32768 ≤ x) (h2 : x < 32768) : sgn 16 (fld (tempShown x d) F.SUP_TEMP_NOW) = x := by
  rw [tempShown, fld_setFld_self _ _ _ (by decide)]
  exact sgn_unsgn16 x h1 h2

theorem tempShown_max (x : Int) (d : Dev) (h1 : -32768 ≤ x) (h2 : x < 32768) :
    sgn 16 (fld (tempShown x d) F.SUP_TEMP_MAX) = max x (sgn 16 (fld d F.SUP_TEMP_MAX)) := by
  obtain ⟨m1, m2⟩ := sgn16_range (fld d F.SUP_TEMP_MAX)
  rw [tempShown, fld_setFld_disjoint _ _ _ _ (by decide) (by decide), fld_setFld_self _ _ _ (by decide)]
  exact sgn_unsgn16 _ (by omega) (by omega)

theorem tempShown_high (x : Int) (d : Dev) : bitOf (tempShown x d) F.SUP_STATUS_TEMP_HIGH = bitOf d F.SUP_STATUS_TEMP_HIGH := by
  rw [tempShown, bitOf_setFld_off _ _ _ _ (by decide), bitOf_setFld_off _ _ _ _ (by decide)]

/-- TEMP_HIGH set or cleared, and posted. -/
def tempPosted (code : Nat) (high : Bool) (x : Int) (d : Dev) : Dev := postSup code (unsgn 32 (x / 8)) (setBit F.SUP_STATUS_TEMP_HIGH high d)

theorem tempPosted_shows (code : Nat) (high : Bool) (x : Int) (d : Dev) : (tempPosted code high x d).sys = d.sys ∧
    fld (tempPosted code high x d) F.SUP_TEMP_NOW = fld d F.SUP_TEMP_NOW ∧ fld (tempPosted code high x d) F.SUP_TEMP_MAX = fld d F.SUP_TEMP_MAX ∧
    bitOf (tempPosted code high x d) F.SUP_STATUS_TEMP_HIGH = high := by
  have hpost := postSup_frame code (unsgn 32 (x / 8)) (setBit F.SUP_STATUS_TEMP_HIGH high d)
  refine ⟨hpost.sys, ?_, ?_, ?_⟩
  · rw [tempPosted, hpost.fld _ (by decide), fld_setBit_off _ _ _ _ (by decide)]
  · rw [tempPosted, hpost.fld _ (by decide), fld_setBit_off _ _ _ _ (by decide)]
  · rw [tempPosted, hpost.bitOf _ (by decide), bitOf_setBit_self _ _ _ (by decide) rfl]

theorem tempReading_trips {x : Int} (h : 1000 ≤ x) {d : Dev} (hcool : d.sys.tripped = false) :
    tempReading x d = resetBy 16 { d with sys.tripped := true } := by
  rw [tempReading, if_pos h, hcool, if_neg Bool.false_ne_true]

theorem tempReading_untrips {x : Int} (h : x < 920) {d : Dev} (hmode : d.sys.mode = .reset) :
    tempReading x d = { d with sys.tripped := false } := by
  rw [tempReading, if_neg (by omega), if_pos hmode, if_pos h]

/-- Outside RESET a reading is shown, and TEMP_HIGH follows it with 5 °C between setting and clearing. -/
theorem tempReading_shown {x : Int} (h : x < 1000) {d : Dev} (hmode : d.sys.mode ≠ .reset) :
    tempReading x d =
      if bitOf d F.SUP_STATUS_TEMP_HIGH = false ∧ 8 * (fld d F.SUP_TEMP_WARN_C : Int) ≤ x then tempPosted 0x05 true x (tempShown x d)
      else if bitOf d F.SUP_STATUS_TEMP_HIGH = true ∧ x ≤ 8 * (fld d F.SUP_TEMP_WARN_C : Int) - 40 then tempPosted 0x06 false x (tempShown x d)
      else tempShown x d := by
  rw [tempReading, if_neg (by omega), if_neg hmode, ← tempShown_high x d]
  simp only [Bool.and_eq_true, Bool.not_eq_true', decide_eq_true_eq]
  rfl

/-! The rows -/

section
variable {t : Time} {s : State} {d : Dev} (hd : AtTime t s d)
include hd

theorem exec_railRead {mvs : List Nat} (hmode : d.sys.mode ≠ .reset) (hlen : mvs.length = 9) : Completes (.railRead t mvs) s
    ((List.range 9).foldl (fun s r =>
      let v := min (mvs.getD r 0) 65535
      setFld (F.SUP_RAIL_MV r) v (setFld (F.SUP_RAIL_MIN_MV r) (min v (fld s (F.SUP_RAIL_MIN_MV r))) s)) d) := by
  subst hd
  have hrun : (guarded (upTo t s.toDev) && mvs.length == 9) = true := by rw [guarded_of hmode, hlen]; rfl
  refine onDev_eq (f := runRailRead t mvs) ?_
  unfold runRailRead
  dsimp only
  rw [if_pos hrun]

theorem exec_tempReading (x : Int) : Completes (.tempReading t x) s (tempReading x d) := by
  subst hd
  exact onDev_eq (f := runTempReading t x) rfl

end

/-- Settles O32: the rails are shown one by one (`foldl_rails`), and a temperature trips, untrips or is shown by `tempReading`. -/
theorem supplyReadingsShow : Obligations.SupplyReadingsShow := by
  intro t s d hd
  refine ⟨fun mvs hmode hlen => ?_, fun x hhot hcool => ?_, fun x hmode hcool => ?_, fun x hmode hlo hhi => ?_⟩
  · obtain ⟨hsys, hplain, -, hrails⟩ := foldl_rails mvs (List.range 9) (fun r => List.mem_range.mp) List.nodup_range d
    exact ⟨_, exec_railRead hd hmode hlen, hsys, hplain, fun r hr => hrails r (List.mem_range.mpr hr)⟩
  · have hc := exec_tempReading hd x
    rw [tempReading_trips hhot hcool] at hc
    exact ⟨_, hc, resetBy_held 16 { d with sys.tripped := true }, rfl⟩
  · have hc := exec_tempReading hd x
    rwa [tempReading_untrips hcool hmode] at hc
  · have hc := exec_tempReading hd x
    rw [tempReading_shown hhi hmode] at hc
    have hnow := tempShown_now x d hlo (by omega)
    have hmax := tempShown_max x d hlo (by omega)
    have hhigh := tempShown_high x d
    split at hc
    next h =>
      obtain ⟨esys, enow, emax, ehigh⟩ := tempPosted_shows 0x05 true x (tempShown x d)
      exact ⟨_, hc, esys, enow ▸ hnow, emax ▸ hmax, fun _ => ehigh, fun hlow => by omega, fun _ hlow => by omega⟩
    next hset =>
      split at hc
      next h =>
        obtain ⟨esys, enow, emax, ehigh⟩ := tempPosted_shows 0x06 false x (tempShown x d)
        exact ⟨_, hc, esys, enow ▸ hnow, emax ▸ hmax, fun hover => by omega, fun _ => ehigh, fun hover _ => by omega⟩
      next hclear =>
        refine ⟨_, hc, rfl, hnow, hmax, fun hover => ?_, fun hlow => ?_, fun _ _ => hhigh⟩
        · rw [hhigh]
          exact Bool.eq_true_of_not_eq_false fun hf => hset ⟨hf, hover⟩
        · rw [hhigh]
          exact Bool.eq_false_of_not_eq_true fun ht => hclear ⟨ht, hlow⟩

end Sys2Proof.Machine
end

section
/-! SUPPORT. The firmware sources in LOAD (R365, R366): the PCIe image's GO, and the loader's datagrams over MGT. -/

namespace Sys2Proof.Machine

/-! GO of the PCIe image (R365) -/

section
variable {d : Dev} (hmode : d.sys.mode = .load) (hsrc : sourceOn d 0 = true) (h1 : fld d F.BOOT_FW_STATUS_WINNER ≠ 1)
  (h2 : fld d F.BOOT_FW_STATUS_WINNER ≠ 2)
include hmode hsrc h1 h2

theorem fwGo_out_of_range (hlen : fld d F.BOOT_FW_LEN_LEN < 4096 ∨ 16777216 < fld d F.BOOT_FW_LEN_LEN) :
    fwGo d = setFld F.BOOT_FW_STATUS_RESULT rcOutOfRange d := by
  simp [fwGo, h1, h2, hmode, hsrc, hlen]

theorem fwGo_offers (hmin : 4096 ≤ fld d F.BOOT_FW_LEN_LEN) (hmax : fld d F.BOOT_FW_LEN_LEN ≤ 16777216) (hnew : ∀ x ∈ d.boot.auth, x.1 ≠ 0) :
    fwGo d = setFld F.BOOT_FW_STATUS_STATE 1 { d with boot.auth := d.boot.auth ++ [(0, fld d F.BOOT_FW_LEN_LEN)] } := by
  have hnone : d.boot.auth.any (·.1 == 0) = false := by simpa using hnew
  have hin : ¬(fld d F.BOOT_FW_LEN_LEN < 4096 ∨ 16777216 < fld d F.BOOT_FW_LEN_LEN) := by omega
  simp [fwGo, h1, h2, hmode, hsrc, hin, hnone]

end

/-! The loader (R366) -/

theorem loaderSend_bare (ip port op session arg : Nat) (d : Dev) : loaderSend ip port op session arg [] d =
    emit (.mgt ip port 49730 (leBytes 1 op ++ [0] ++ leBytes 2 session ++ leBytes 4 arg)) d := by
  rw [loaderSend, List.append_nil]

/-- The session that an accepted OFFER opens. -/
def sessionOpened (ip port len : Nat) (d : Dev) : Dev :=
  { d with
    boot.sessions := d.boot.sessions + 1
    boot.loader := some { ip := ip, port := port, id := (d.boot.sessions + 1) % 65536, len := len, next := 0, dataAt := d.raw, ackAt := d.raw,
                          acked := 0, data := [] } }

section
variable {d : Dev} {b : List Byte} (hmode : d.sys.mode = .load) (hnone : d.boot.loader = none) (hlen : b.length = 8) (hop : at_ b 0 1 = 2)
include hmode hnone hlen hop

theorem loaderRx_refuses (harg : at_ b 4 4 < 4096 ∨ 16777216 < at_ b 4 4) (ip port : Nat) :
    loaderRx ip port b d = loaderSend ip port 7 0 rcOutOfRange [] d := by
  simp [loaderRx, hlen, hop, hnone, hmode, harg]

theorem loaderRx_accepts (hmin : 4096 ≤ at_ b 4 4) (hmax : at_ b 4 4 ≤ 16777216) (ip port : Nat) : loaderRx ip port b d =
    setFld F.BOOT_LOADER_RECEIVED 0 (loaderSend ip port 3 ((d.boot.sessions + 1) % 65536) 0 [] (sessionOpened ip port (at_ b 4 4) d)) := by
  have hin : ¬(at_ b 4 4 < 4096 ∨ 16777216 < at_ b 4 4) := by omega
  simp [loaderRx, hlen, hop, hnone, hmode, hin, sessionOpened]

end

/-- The payload of HELLO: the UID, the step, the straps. -/
def helloPayload (d : Dev) : List Byte :=
  leBytes 8 (fuseUid d.fuses) ++ leBytes 1 d.fuses.step ++ leBytes 1 (fld d F.SYS_STRAPS_BOOT) ++ List.replicate 6 0

/-- HELLO's 24 bytes. -/
def helloBytes (d : Dev) : List Byte := leBytes 1 1 ++ [0] ++ leBytes 2 0 ++ leBytes 4 0 ++ helloPayload d

theorem helloBytes_head (d : Dev) : (helloBytes d).take 8 = [1, 0, 0, 0, 0, 0, 0, 0] := rfl

theorem helloBytes_length (d : Dev) : (helloBytes d).length = 24 := by simp [helloBytes, helloPayload, leBytes_length]

/-- The session abandoned. -/
def sessionDropped (d : Dev) : Dev := setFld F.BOOT_LOADER_RECEIVED 0 { d with boot.loader := none }

/-! The rows -/

section
variable {t : Time} {s : State} {d : Dev} (hd : AtTime t s d) (hmode : d.sys.mode = .load)
include hd hmode

theorem exec_fwCtrlGo {v : Word} (hpin : d.sys.perstLow = false) (hgo : bit v.toNat 0 = true) : Completes (.fwCtrlGo t v) s (fwGo d) := by
  subst hd
  have hup := pcieUp_load hmode hpin
  exact onDev_eq (f := runFwCtrlGo t v) (congrArg _ (if_pos (by rw [hup, bar0Writable_sys hup (by decide), hgo]; rfl)))

omit hmode in
theorem exec_loaderDatagramRx (ip port : Nat) (b : List Byte) (hup : loaderUp d = true) :
    Completes (.loaderDatagramRx t ip port b) s (loaderRx ip port b d) := by
  subst hd
  exact onDev_eq (f := runLoaderDatagramRx t ip port b) (congrArg _ (if_pos hup))

theorem exec_loaderHello (hup : loaderUp d = true) (hnone : d.boot.loader = none) (hdue : ∀ v, d.boot.helloAt = some v → v + sec 1 ≤ d.raw) :
    Completes (.loaderHello t) s (emit (.mgt (mgtBroadcast d) 49730 49730 (helloBytes d)) { d with boot.helloAt := some d.raw }) := by
  subst hd
  refine onDev_eq (f := runLoaderHello t) (congrArg _ (if_pos ?_))
  rw [hup, hmode, hnone]
  cases hh : (upTo t s.toDev).boot.helloAt with
  | none => rfl
  | some v => simpa using hdue v hh

theorem exec_loaderAck {l : Loader} (hl : d.boot.loader = some l) (hdue : l.ackAt + ms 10 ≤ d.raw) : Completes (.loaderAck t) s (loaderAck l d) := by
  subst hd
  refine onDev_eq (f := runLoaderAck t) ?_
  simp only [runLoaderAck, hl]
  rw [if_pos ⟨hmode, hdue⟩]

theorem exec_loaderSessionTimeout {l : Loader} (hl : d.boot.loader = some l) (hopen : l.next < l.len) (hdue : l.dataAt + sec 1 ≤ d.raw) :
    Completes (.loaderSessionTimeout t) s (sessionDropped d) := by
  subst hd
  refine onDev_eq (f := runLoaderSessionTimeout t) ?_
  simp only [runLoaderSessionTimeout, hl]
  rw [if_pos ⟨hmode, hopen, hdue⟩]
  rfl

end

/-- Settles O5: a GO is `fwGo`, an OFFER `loaderRx`, and each timer's row acts once it is due. That a session is kept by address, port and
number is the model's choice (log 22). -/
theorem firmwareSourcesInLoad : Obligations.FirmwareSourcesInLoad := by
  intro t value ip port bytes s d hd hmode
  refine ⟨fun hpin hgo hsrc h1 h2 => ?_, fun hup hnone hlen hop => ?_, fun hup hnone hdue => ?_, fun l hl => ⟨fun hdue => ?_, fun hopen hdue => ?_⟩⟩
  · refine ⟨_, exec_fwCtrlGo hd hmode hpin hgo, fwGo_out_of_range hmode hsrc h1 h2, fun hmin hmax hnew => ?_⟩
    rw [fwGo_offers hmode hsrc h1 h2 hmin hmax hnew]
    exact ⟨rfl, fld_setFld_self _ _ _ (by decide)⟩
  · refine ⟨_, exec_loaderDatagramRx hd ip port bytes hup, fun hmin hmax => ?_, fun harg => ?_⟩
    · rw [loaderRx_accepts hmode hnone hlen hop hmin hmax, loaderSend_bare]
      exact ⟨fld_setFld_self _ _ _ (by decide), ⟨_, rfl, rfl, rfl, rfl, rfl, rfl⟩, rfl⟩
    · rw [loaderRx_refuses hmode hnone hlen hop harg, loaderSend_bare]
  · exact ⟨_, _, exec_loaderHello hd hmode hup hnone hdue, rfl, rfl, hnone, helloBytes_head d, helloBytes_length d⟩
  · refine ⟨_, exec_loaderAck hd hmode hl hdue, ?_, rfl⟩
    rw [loaderAck, loaderSend_bare]
    rfl
  · exact ⟨_, exec_loaderSessionTimeout hd hmode hl hopen hdue, rfl, fld_setFld_self _ _ _ (by decide)⟩

end Sys2Proof.Machine
end

section
/-! SUPPORT. The end of a scan (R395, R396): with its result, at an uncorrectable word, or by ABORT. -/

namespace Sys2Proof.Machine

/-! Where a scan stands still, goes on or ends -/

section
variable {d : Dev} {n : Nat} {j : ChkJob} {x : Scan} (hj : tget d.chk.jobs n = some j) (hx : j.scan = some x)
include hj hx

theorem scanEnd_paused (hp : chkPaused d = true) (bad : Option Nat) : scanEnd n bad d = d := by
  simp [scanEnd, hj, hx, hp]

/-- The word that a scan has met shows as uncorrectable, once. -/
def badFound (x : Scan) (i : Nat) (d : Dev) : Dev :=
  match (scanWord d x i).filter fun w => !d.pln.poisoned.contains w with
  | some w => plnUncorr w d
  | none => if x.source = 2 then spmUncorr ((x.start + i) / 8) d else d

omit hj hx in
theorem badFound_chk (x : Scan) (i : Nat) (d : Dev) : (badFound x i d).chk = d.chk := by
  unfold badFound
  split
  · exact plnUncorr_chk _ _
  · split
    · exact spmUncorr_chk _ _
    · rfl

variable (hrun : chkPaused d = false) (hnor : x.source = 3 → norPrograms d = false)
include hrun hnor

omit hj hx in
theorem scan_goes_on : (chkPaused d || (x.source == 3 && norPrograms d)) = false := by
  by_cases h : x.source = 3
  · simp [hrun, hnor h]
  · simp [hrun, h]

variable (hclean : scanPoison d x = none)
include hclean

theorem scanEnd_early (hearly : d.raw < x.began + ns x.len) : scanEnd n none d = d := by
  simp [scanEnd, hj, hx, scan_goes_on hrun hnor, hclean, hearly]

theorem scanEnd_whole (hover : x.began + ns x.len ≤ d.raw) {f : Dev} {v : Nat} (hval : scanValue d j.alg x x.len = (f, v)) :
    scanEnd n none d = chkEnd n rcDone x.len (some v) (leBytes 8 v ++ leBytes 8 x.len) f := by
  simp [scanEnd, hj, hx, scan_goes_on hrun hnor, hclean, Nat.not_lt.mpr hover, hval]

theorem scanEnd_uncorrectable {i : Nat} (hi : i < x.len) {f : Dev} {v : Nat} (hval : scanValue d j.alg x i = (f, v)) :
    scanEnd n (some i) d = chkEnd n rcMediaError i none (leBytes 8 v ++ leBytes 8 i) (badFound x i f) := by
  have hstop : (some i).filter (fun i => decide (i < x.len)) = some i := by simp [Option.filter, hi]
  simp only [scanEnd, hj, hx, scan_goes_on hrun hnor, hclean, hstop, hval]
  rfl

end

/-! ABORT (R396) -/

theorem chkCtrl_writeIndexed {n : Nat} (hn : n < 8) {v : Word} (hv : v.getLsbD 0 = true) (d : Dev) :
    writeIndexed (R.CHK_CH_CTRL n) v d = some (chkCut n rcAborted d) := by
  have hbit : bit v.toNat 0 = true := (word_bit v 0).trans hv
  have hrow : R.CHK_CH_CTRL 0 ≤ R.CHK_CH_CTRL n ∧ R.CHK_CH_CTRL n < R.CHK_CH_CTRL 8 ∧ R.CHK_CH_CTRL n % 0x10000 % 0x20 = 0x14 := by
    simp only [R.CHK_CH_CTRL]
    omega
  have hchan : R.CHK_CH_CTRL n % 0x10000 / 0x20 = n := by
    simp only [R.CHK_CH_CTRL]
    omega
  simp only [writeIndexed]
  rw [if_pos hrow, if_pos hbit, hchan]

theorem chkCtrl_not_special {n : Nat} (hn : n < 8) : R.CHK_CH_CTRL n ∉ writeSpecial := by
  have hall : ∀ n : Fin 8, R.CHK_CH_CTRL n.val ∉ writeSpecial := by decide
  exact hall ⟨n, hn⟩

theorem chkCut_eq {n : Nat} {d : Dev} {j : ChkJob} {x : Scan} (hj : tget d.chk.jobs n = some j) (hx : j.scan = some x) (code : Nat) :
    chkCut n code d = chkEnd n code (scanDone d x) none (leBytes 8 0 ++ leBytes 8 (scanDone d x)) d := by
  simp [chkCut, hj, hx]

/-! The rows -/

section
variable {t : Time} {s : State} {d : Dev} (hd : AtTime t s d)
include hd

theorem exec_chkScanDone (n : Nat) (bad : Option Nat) : Completes (.chkScanDone t n bad) s (pump (scanEnd n bad d)) := by
  subst hd
  exact onDev_eq (f := runChkScanDone t n bad) rfl

theorem exec_chkAbort {n : Nat} {v : Word} (hn : n < 8) (hup : pcieUp d = true) (hw : bar0Writable d (R.CHK_CH_CTRL n) = true)
    (hv : v.getLsbD 0 = true) : Completes (.chkAbort t n v) s (pump (chkCut n rcAborted d)) := by
  subst hd
  refine onDev_eq (f := runChkAbort t n v) (congrArg _ ((if_pos ⟨hn, hup, hw⟩).trans (congrArg pump ?_)))
  rw [writeReg_plain hw (chkCtrl_not_special hn), chkCtrl_writeIndexed hn hv]
  rfl

end

/-- Settles O30: SCAN_DONE is `scanEnd` and ABORT is `chkCut`, and each ends the scan by `chkEnd`. -/
theorem scansEndWithTheirResult : Obligations.ScansEndWithTheirResult := by
  intro t n s d j x hd hj hx
  refine ⟨fun hp bad => ?_, fun hrun hnor => ⟨fun hclean hearly => ?_, fun hclean hover => ?_, fun i hclean hi => ?_⟩, fun v hn hup hw hv => ?_⟩
  · have hc := exec_chkScanDone hd n bad
    rwa [scanEnd_paused hj hx hp] at hc
  · have hc := exec_chkScanDone hd n none
    rwa [scanEnd_early hj hx hrun hnor hclean hearly] at hc
  · have hc := exec_chkScanDone hd n none
    obtain ⟨k, v, hval, hplain, hkey, hnorv⟩ := scanValue_spec d j.alg x x.len
    rw [scanEnd_whole hj hx hrun hnor hclean hover hval, chkEnd_eq (d := { d with free := k }) hj hx] at hc
    obtain ⟨eplain, esys, ecmd, ejobs, eshows, eregs⟩ := chk_frame d k (tput d.chk.jobs n { j with scan := none })
      (tput d.chk.shows n { ((tget d.chk.shows n).getD {}) with pos := x.len, result := v }) R.CHK_SCANS
    refine ⟨_, v, hc, hplain, hkey, hnorv, ?_, ?_, eplain, esys, ecmd, eregs⟩
    · exact (congrArg (fun m => (tget m n).bind (·.scan)) ejobs).trans (by rw [tget_tput_self])
    · exact (congrArg (fun m => (tget m n).map (·.result)) eshows).trans (by rw [tget_tput_self])
  · have hc := exec_chkScanDone hd n (some i)
    obtain ⟨k, v, hval, hplain, -, -⟩ := scanValue_spec d j.alg x i
    have hjob : tget (badFound x i { d with free := k }).chk.jobs n = some j := by rw [badFound_chk]; exact hj
    rw [scanEnd_uncorrectable hj hx hrun hnor hclean hi hval, chkEnd_eq hjob hx] at hc
    exact ⟨_, v, hc, hplain, by rw [bump_chk, tget_tput_self]; rfl⟩
  · have hc := exec_chkAbort hd hn hup hw hv
    rw [chkCut_eq hj hx, chkEnd_eq hj hx] at hc
    exact ⟨_, _, hc, Nat.min_le_left _ _, by rw [bump_chk, tget_tput_self]; rfl, rfl, rfl, fun o ho => rg_bump_ne _ ho⟩

end Sys2Proof.Machine
end

section
/-! SUPPORT. RECALIBRATE and the built-in tests (R389, R390): what they answer and what they leave. -/

namespace Sys2Proof.Machine

/-! RECALIBRATE -/

theorem recalibrate_outside {item inst : Nat} (h : calPick item inst = none) (rs : List (Nat × Nat × Nat × Nat)) (d : Dev) :
    recalibrate item inst rs d = (d, fails 0 rcOutOfRange) := by simp only [recalibrate, h]

theorem recalibrate_answers {item inst : Nat} {l : List (Nat × Nat)} (h : calPick item inst = some l) (rs : List (Nat × Nat × Nat × Nat)) (d : Dev) :
    ∃ e b, recalibrate item inst rs d = (e, done 0 (leBytes 2 l.length ++ leBytes 2 b)) ∧ b ≤ l.length := by
  simp only [recalibrate, h]
  exact ⟨_, _, rfl, List.length_filter_le _ _⟩

theorem calPick_none_iff {item inst : Nat} (hitem : item ≠ 0xFF) (hinst : inst ≠ 0xFF) : calPick item inst = none ↔ calCount item ≤ inst := by
  rw [calPick_one item inst hitem hinst]
  split <;> simp <;> omega

/-! The built-in tests -/

theorem bistSpm_clean (d : Dev) : bistSpm [] d = (d, done 0 (leBytes 4 0)) := by
  show (({ d with red.spmDefect := d.red.spmDefect || false } : Dev), _) = _
  rw [Bool.or_false]
  rfl

theorem bistSpm_defects {l : List Nat} (h : l ≠ []) (d : Dev) : ∃ e, bistSpm l d = (e, done 0 (leBytes 4 l.length)) ∧
    e.red.spmDefect = true ∧ e.sys = d.sys ∧ e.pln.retired = d.pln.retired := by
  obtain ⟨hretired, hbeside, -⟩ := postBist_retired 0 l.length { d with red.spmDefect := d.red.spmDefect || l != [] }
  have hdefect : (d.red.spmDefect || l != []) = true := by simp [h]
  exact ⟨_, rfl, (congrArg (·.red.spmDefect) hbeside).trans hdefect, congrArg (·.sys) hbeside, hretired⟩

theorem bistPlain_taken {p : Nat} {d : Dev} (h : segHas d.pln.free p = false) : bistPlain [p] d = (d, done 0 (leBytes 4 0)) := by
  simp only [bistPlain, segHas_none h]
  rfl

theorem bistPlain_free {p : Nat} {d : Dev} (h : segHas d.pln.free p = true) : ∃ e, bistPlain [p] d = (e, done 0 (leBytes 4 1)) ∧
    e.pln.retired = d.pln.retired ++ [p] ∧ e.sys = d.sys ∧ (rg e R.PLN_RETIRED).toNat = min ((rg d R.PLN_RETIRED).toNat + 1) 0xFFFFFFFF := by
  obtain ⟨hretired, hbeside, hregs⟩ := postBist_retired 1 1 (retireFree p d)
  obtain ⟨rretired, rsys, rcount⟩ := retireFree_shows p d h
  have hl : [p].eraseDups.filter (fun q => segHas d.pln.free q) = [p] := by simp [eraseDups_one, h]
  refine ⟨postBist 1 1 (retireFree p d), by simp only [bistPlain, hl]; rfl, hretired.trans rretired, (congrArg (·.sys) hbeside).trans rsys, ?_⟩
  rwa [hregs _ (by decide)]

/-- Settles O31: each row is its body, and each body answers what it finds. -/
theorem serviceTestsAnswerTheirFindings : Obligations.ServiceTestsAnswerTheirFindings := by
  intro t h s d hd
  refine ⟨fun item inst rs hs => ⟨fun hnone => ?_, calPick_none_iff, fun l hl => ?_, ?_⟩, fun hs => ⟨?_, fun l hl => ?_, fun p hp => ?_, fun p hp => ?_,
    fun n pin hn hpin => ?_⟩⟩
  · exact row_fails (fun _ => rfl) hd hs (recalibrate_outside hnone rs d)
  · obtain ⟨e, b, hbody, hle⟩ := recalibrate_answers hl rs d
    exact ⟨e, b, row_answers (fun _ => rfl) hd hs hbody, hle⟩
  · rintro a b hone h5 h7 rfl
    obtain ⟨e, hbody, hinst, hsys⟩ := recal_one item inst a b d hone h5 h7
    exact ⟨e, row_answers (fun _ => rfl) hd hs hbody, hinst, hsys⟩
  · exact row_answers (fun _ => rfl) hd hs (bistSpm_clean d)
  · obtain ⟨e, hbody, hshows⟩ := bistSpm_defects hl d
    exact ⟨e, row_answers (fun _ => rfl) hd hs hbody, hshows⟩
  · exact row_answers (fun _ => rfl) hd hs (bistPlain_taken hp)
  · obtain ⟨e, hbody, hshows⟩ := bistPlain_free hp
    exact ⟨e, row_answers (fun _ => rfl) hd hs hbody, hshows⟩
  · obtain ⟨e, hbody, hshows⟩ := bistPins_one n pin hn hpin d
    exact ⟨e, row_answers (fun _ => rfl) hd hs hbody, hshows⟩

end Sys2Proof.Machine
end

section
/-! SUPPORT. The valley's links and members (R309 to R329): the states of a link, the updates of a member, and the passes that follow them. -/

namespace Sys2Proof.Machine

/-! What a HELLO makes of its link (R310) -/

/-- The state in which a HELLO that is examined leaves its link. -/
def helloVerdict (h : HelloMsg) (d : Dev) : Nat :=
  if loadingSelf d = true ∨ h.mode ≤ 2 then 6 else if d.val.recorded = false then 3
  else if h.major ≠ fld d F.CTL_FW_PROTO_VP_MAJOR ∨ h.valleyId ≠ d.val.valleyId then 5 else 4

theorem examine_link (l : Nat) (h : HelloMsg) (d : Dev) : linkAt (examine l h d) l = { linkAt d l with state := helloVerdict h d } := by
  obtain ⟨hload, hunrecorded, hother, hours⟩ := examine_spec l h d
  unfold helloVerdict
  split
  next hl => exact hload hl
  next hl =>
    obtain ⟨hself, hmode⟩ := not_or.mp hl
    have hself := Bool.eq_false_of_not_eq_true hself
    have hmode := Nat.lt_of_not_le hmode
    split
    next hr => exact hunrecorded hself hmode hr
    next hr =>
      have hr := Bool.eq_true_of_not_eq_false hr
      split
      next ho => exact hother hself hmode hr ho
      next ho =>
        obtain ⟨hmajor, hvalley⟩ := not_or.mp ho
        exact hours hself hmode hr (not_not.mp hmajor) (not_not.mp hvalley)

/-- The HELLO of a neighbour kept at its link. -/
def helloKept (l : Nat) (h : HelloMsg) (d : Dev) : Dev := setLink l { linkAt d l with hello := some h } d

/-- A link that waits for a HELLO again. -/
def linkWaits (l : Nat) (d : Dev) : Dev := modLink l (fun x => { x with state := 3 }) d

theorem helloRx_unheard {l : Nat} {h : HelloMsg} {d : Dev} (hno : linkOn d l = false ∨ (linkAt d l).state ≤ 2 ∨ 7 ≤ (linkAt d l).state ∨
    (((linkAt d l).state = 5 ∨ (linkAt d l).state = 6) ∧ (linkAt d l).hello = some h)) : helloRx l h d = d := by
  unfold helloRx
  dsimp only
  by_cases hon : linkOn d l = true
  · rw [if_neg (by simp [hon])]
    rcases hno with hoff | hlow | hhigh | ⟨hstate, hsame⟩
    · simp [hon] at hoff
    · rw [if_neg (by omega), if_neg (by omega), if_neg (by omega)]
    · rw [if_neg (by omega), if_neg (by omega), if_neg (by omega)]
    · rw [if_neg (by omega), if_pos hstate, if_pos hsame]
  · exact if_pos (by simp [hon])

theorem helloRx_up {l : Nat} {d : Dev} (hon : linkOn d l = true) (hstate : (linkAt d l).state = 4) (h : HelloMsg) :
    helloRx l h d = helloKept l h d := by
  simp [helloRx, hon, hstate, helloKept]

theorem helloRx_awaited {l : Nat} {d : Dev} (hon : linkOn d l = true) (hstate : (linkAt d l).state = 3) (h : HelloMsg) :
    helloRx l h d = examine l h (helloKept l h d) := by
  simp [helloRx, hon, hstate, helloKept]

theorem helloRx_changed {l : Nat} {h : HelloMsg} {d : Dev} (hon : linkOn d l = true) (hstate : (linkAt d l).state = 5 ∨ (linkAt d l).state = 6)
    (hnew : (linkAt d l).hello ≠ some h) : helloRx l h d = examine l h (linkWaits l (helloKept l h d)) := by
  have hnot : (linkAt d l).state ≠ 3 := by omega
  simp [helloRx, hon, hstate, hnew, hnot, helloKept, linkWaits]

/-- A HELLO that is examined decides its link's state, and no other link and no member changes. -/
theorem helloRx_examined {l : Nat} {h : HelloMsg} {d : Dev} (hon : linkOn d l = true)
    (hstate : (linkAt d l).state = 3 ∨ (((linkAt d l).state = 5 ∨ (linkAt d l).state = 6) ∧ (linkAt d l).hello ≠ some h)) :
    linkAt (helloRx l h d) l = { linkAt d l with hello := some h, state := helloVerdict h d } ∧ LinkOnly l d (helloRx l h d) := by
  have hkept : LinkOnly l d (helloKept l h d) := .set _ _ _
  rcases hstate with hstate | ⟨hstate, hnew⟩
  · rw [helloRx_awaited hon hstate, examine_link, helloKept, linkAt_setLink]
    exact ⟨rfl, hkept.trans (examine_only _ _ _)⟩
  · rw [helloRx_changed hon hstate hnew, examine_link, linkWaits, modLink, linkAt_setLink, helloKept, linkAt_setLink]
    exact ⟨rfl, (hkept.trans (.set _ _ _)).trans (examine_only _ _ _)⟩

/-! A member's update (R313) -/

theorem sendUpdate_alone {d : Dev} (h : isMember d = false) : sendUpdate d = d := by
  rw [sendUpdate, h, if_neg Bool.false_ne_true]

theorem valFlood_regs (typ cls : Nat) (m : VMsg) (d : Dev) : (valFlood typ cls m d).regs = d.regs := foldl_regs _ (fun _ _ => (vOut_regs _ _ _).1) _ _

/-- A flooded message leaves on every link that is up, for every member. -/
theorem valFlood_sends (typ cls : Nat) (m : VMsg) {d : Dev} {l : Nat} (hup : (linkAt d l).state = 4) :
    ∃ p, .valley l p ∈ (valFlood typ cls m d).out ∧ p.body = m ∧ at_ p.header 2 1 = 255 :=
  ⟨_, (flood_out (fun a => ⟨vHead typ cls 255 a 15 0 (vLen typ m) 0 0 0, vLen typ m, true, m⟩) l (upLinks d) d hup).1 (linkAt_mem hup), rfl,
    vHead_dst _ _ _ _ _ _ _ _ _ _ (by decide)⟩

theorem sendUpdate_floods {d : Dev} (h : isMember d = true) :
    sendUpdate d = valFlood 4 4 (.member (ownInfo d)) { d with val.updated := d.raw } := if_pos h

/-! A member that leaves, and the passes (R313, R317, R319) -/

theorem memberLeft_shows {uid : Nat} {d : Dev} {m : Member} (h : tget d.val.members uid = some m) :
    (memberLeft uid d).val.members = tdel d.val.members uid ∧ (memberLeft uid d).val.links = d.val.links := by
  obtain ⟨hmembers, -, hlinks⟩ := dropMember_spec uid d m h
  obtain ⟨amembers, alinks⟩ := abortMigs_val (fun x => x.target == m.info.addr) (dropMember uid d)
  simp only [memberLeft, h]
  exact ⟨amembers.trans hmembers, alinks.trans hlinks⟩

/-- The passes installed and counted, before the charges follow them. -/
def passesInstalled (d : Dev) : Dev := bump R.VAL_REROUTES { d with val.passes := passesNow d }

/-- A reroute installs the pass table that the updates give. -/
def rerouted (d : Dev) : Dev := moveCharges (postVal 7 0x0A 0 (rg (passesInstalled d) R.VAL_REROUTES).toNat (passesInstalled d))

theorem rerouted_val (d : Dev) : (rerouted d).val.passes = passesNow d ∧ (rerouted d).val.links = d.val.links ∧
    (rerouted d).val.members = d.val.members := by
  have hmoved := (moveCharges_moved (postVal 7 0x0A 0 (rg (passesInstalled d) R.VAL_REROUTES).toNat (passesInstalled d))).val
  rw [(postVal_frame _ _ _ _ _).val] at hmoved
  exact ⟨congrArg (·.passes) hmoved, congrArg (·.links) hmoved, congrArg (·.members) hmoved⟩

theorem rerouted_keepsReg {o : Nat} (hstatus : o ≠ R.VAL_STATUS) (hpost : o ∉ postCounters) (d : Dev) : rg (rerouted d) o = rg (passesInstalled d) o :=
  ((moveCharges_moved _).regs o hstatus hpost).trans ((postVal_frame _ _ _ _ _).2 o hpost)

/-! The rows -/

section
variable {t : Time} {s : State} {d : Dev} (hd : AtTime t s d)
include hd

theorem exec_valleySignalDetect (l : Nat) : Completes (.valleySignalDetect t l) s
    (if d.sys.mode ≠ .reset ∧ linkOn d l = true ∧ (linkAt d l).state = 1 then setLink l { state := 2, since := d.raw } d else d) := by
  subst hd
  exact onDev_eq (f := runValleySignalDetect t l) rfl

theorem exec_valleyLinkLock (l : Nat) : Completes (.valleyLinkLock t l) s
    (if linkOn d l = true ∧ (linkAt d l).state = 2 ∧ (linkAt d l).since + ms 1 ≤ d.raw then emit (.hello l) (setLink l { linkAt d l with state := 3 } d)
      else d) := by
  subst hd
  exact onDev_eq (f := runValleyLinkLock t l) rfl

theorem exec_valleyHelloRx (l : Nat) (h : HelloMsg) : Completes (.valleyHelloRx t l h) s (helloRx l h d) := by
  subst hd
  exact onDev_eq (f := runValleyHelloRx t l h) rfl

theorem exec_linkControlSend (l : Nat) : Completes (.linkControlSend t l) s
    (if ((linkAt d l).state = 3 ∨ (linkAt d l).state = 4) ∧ elapsed d (linkAt d l).sentAt (us 10) = true then
      emit (.linkControl l) (setLink l { linkAt d l with sentAt := some d.raw } d) else d) := by
  subst hd
  exact onDev_eq (f := runLinkControlSend t l) rfl

theorem exec_valleyLinkDown (l : Nat) : Completes (.valleyLinkDown t l) s (if 3 ≤ (linkAt d l).state then linkFail l d else d) := by
  subst hd
  exact onDev_eq (f := runValleyLinkDown t l) rfl

theorem exec_membershipUpdateSend : Completes (.membershipUpdateSend t) s (if d.val.updated + ms 100 ≤ d.raw then sendUpdate d else d) := by
  subst hd
  exact onDev_eq (f := runMembershipUpdateSend t) rfl

theorem exec_memberLeave_unknown {uid : Nat} (h : tget d.val.members uid = none) : Completes (.memberLeave t uid) s d := by
  subst hd
  refine onDev_eq (f := runMemberLeave t uid) ?_
  simp only [runMemberLeave, h]

theorem exec_memberLeave {uid : Nat} {m : Member} (h : tget d.val.members uid = some m) :
    Completes (.memberLeave t uid) s (if memberGone d m = true then memberLeft uid d else d) := by
  subst hd
  refine onDev_eq (f := runMemberLeave t uid) ?_
  simp only [runMemberLeave, h]

theorem exec_reroute : Completes (.reroute t) s (if passesNow d = d.val.passes then d else rerouted d) := by
  subst hd
  exact onDev_eq (f := runReroute t) rfl

end

/-- Settles O49: each row runs one operation of the valley under its own condition, and the operations' lemmas say what that leaves. -/
theorem valleyLinksAndMembers : Obligations.ValleyLinksAndMembers := by
  intro t s d hd
  refine ⟨fun l => ⟨fun hno => ?_, fun hmode hon hstate => ?_, fun hno => ?_, fun hon hstate hdue => ?_,
      fun h => ⟨fun hno => ?_, fun hon hstate => ?_, fun hon hstate => ?_⟩, fun hno => ?_, fun hstate hdue => ?_, fun hlow => ?_, fun hhigh => ?_⟩,
    fun hno => ?_, fun hdue hmember => ?_, fun uid => ⟨fun hnone => ?_, fun m hm hstays => ?_, fun m hm hgone => ?_⟩, fun hsame => ?_, fun hnew => ?_⟩
  · have hc := exec_valleySignalDetect hd l
    rwa [if_neg hno] at hc
  · have hc := exec_valleySignalDetect hd l
    rw [if_pos ⟨hmode, hon, hstate⟩] at hc
    exact ⟨_, hc, linkAt_setLink _ _ _, rfl, rfl, fun k hk => linkAt_setLink_ne hk _ _⟩
  · have hc := exec_valleyLinkLock hd l
    rwa [if_neg hno] at hc
  · have hc := exec_valleyLinkLock hd l
    rw [if_pos ⟨hon, hstate, hdue⟩] at hc
    exact ⟨_, hc, linkAt_setLink _ _ _, rfl, rfl, fun k hk => linkAt_setLink_ne hk _ _⟩
  · have hc := exec_valleyHelloRx hd l h
    rwa [helloRx_unheard hno] at hc
  · have hc := exec_valleyHelloRx hd l h
    rw [helloRx_up hon hstate] at hc
    exact ⟨_, hc, linkAt_setLink _ _ _, rfl, rfl⟩
  · obtain ⟨hlink, honly⟩ := helloRx_examined hon hstate
    exact ⟨_, exec_valleyHelloRx hd l h, hlink, honly.others, honly.members⟩
  · have hc := exec_linkControlSend hd l
    rwa [if_neg (by rintro ⟨hstate, hdue⟩; simp [hdue] at hno; omega)] at hc
  · have hc := exec_linkControlSend hd l
    rw [if_pos ⟨hstate, hdue⟩] at hc
    exact ⟨_, hc, linkAt_setLink _ _ _, rfl, rfl, fun k hk => linkAt_setLink_ne hk _ _⟩
  · have hc := exec_valleyLinkDown hd l
    rwa [if_neg (Nat.not_le.mpr hlow)] at hc
  · have hc := exec_valleyLinkDown hd l
    rw [if_pos hhigh] at hc
    have honly := linkFail_only l d
    exact ⟨_, hc, linkFail_spec l d hhigh, honly.others, honly.members⟩
  · have hc := exec_membershipUpdateSend hd
    rcases hno with hearly | halone
    · rwa [if_neg (Nat.not_le.mpr hearly)] at hc
    · rwa [sendUpdate_alone halone, ite_self] at hc
  · have hc := exec_membershipUpdateSend hd
    rw [if_pos hdue, sendUpdate_floods hmember] at hc
    exact ⟨_, hc, valFlood_val _ _ _ _, valFlood_regs _ _ _ _, fun l hup => valFlood_sends 4 4 _ hup⟩
  · exact exec_memberLeave_unknown hd hnone
  · have hc := exec_memberLeave hd hm
    rwa [hstays, if_neg Bool.false_ne_true] at hc
  · have hc := exec_memberLeave hd hm
    rw [if_pos hgone] at hc
    exact ⟨_, hc, memberLeft_shows hm⟩
  · have hc := exec_reroute hd
    rwa [if_pos hsame] at hc
  · have hc := exec_reroute hd
    rw [if_neg hnew] at hc
    obtain ⟨hpasses, hlinks, hmembers⟩ := rerouted_val d
    refine ⟨_, hc, hpasses, hlinks, hmembers, ?_, fun o ho hstatus hpost => (rerouted_keepsReg hstatus hpost d).trans (rg_bump_ne _ ho)⟩
    rw [rerouted_keepsReg (by decide) (by decide)]
    exact bump_toNat _ _

end Sys2Proof.Machine
end

section
/-! SUPPORT. Heartbeats, the interlock line and takeover (R335 to R343). -/

namespace Sys2Proof.Machine

/-- A word on the queue stays there when a packet goes out beside it. -/
theorem mem_out_valSend {x : Emit} {s : Dev} (hx : x ∈ s.out) (typ cls dst epoch handle frame aux : Nat) (odd : Bool) (m : VMsg) :
    x ∈ (valSend typ cls dst epoch handle frame aux odd m s).out := by
  unfold valSend
  split
  · rw [vOut_out]
    exact List.mem_append_right _ hx
  · exact hx

/-- R336: what a heartbeat leaves of both paths and of the interlock, before the pair's modes are compared. -/
theorem beat_paths (path w : Nat) (d : Dev) (x : Path) (hp : path = 1 ∨ path = 2) :
    pathAt (beat path w d x) path =
      { x with up := x.up || decide (9 ≤ x.run), seq := some (hbSeq (w % 2 ^ 64)), at_ := d.raw, missAt := d.raw, run := x.run + 1 } ∧
    pathAt (beat path w d x) (3 - path) = pathAt d (3 - path) ∧ (beat path w d x).red.ilk = d.red.ilk := by
  unfold beat
  split
  · rename_i h
    obtain ⟨hdown, hrun⟩ : x.up = false ∧ 9 ≤ x.run := by simpa using h
    obtain ⟨hred, -, -⟩ := postRed_pair 6 0x02 path
      (setPath path { pathAt (setPath path { x with seq := some (hbSeq (w % 2 ^ 64)), at_ := d.raw, missAt := d.raw, run := x.run + 1 } { d with red.word := w % 2 ^ 64 }) path with up := true }
        { setPath path { x with seq := some (hbSeq (w % 2 ^ 64)), at_ := d.raw, missAt := d.raw, run := x.run + 1 } { d with red.word := w % 2 ^ 64 } with red.saidUnreachable := false })
    rw [pathAt_congr (congrArg Red.valley hred) (congrArg Red.wire hred), pathAt_congr (congrArg Red.valley hred) (congrArg Red.wire hred), hred]
    refine ⟨?_, ?_, ?_⟩
    · simp [hdown, hrun]
    · rcases hp with rfl | rfl <;> rfl
    · rcases hp with rfl | rfl <;> rfl
  · rename_i h
    have hup : (x.up || decide (9 ≤ x.run)) = x.up := by
      cases hx : x.up <;> simp [hx] at h ⊢
      omega
    rw [hup]
    refine ⟨pathAt_setPath _ _ _, ?_, ?_⟩
    · rcases hp with rfl | rfl <;> rfl
    · rcases hp with rfl | rfl <;> rfl

/-! Two units in ACTIVE (R341) -/

theorem dualActive_peace (before : Nat) (s : Dev) (h : ¬ (s.sys.mode = .active ∧ hbMode s.red.word = 4 ∧ hbHolds s.red.word = true)) : dualActive before s = s := by
  unfold dualActive
  dsimp only
  rw [if_neg]
  simp only [Bool.and_eq_true, decide_eq_true_eq, beq_iff_eq]
  exact fun ⟨⟨hmode, hword⟩, _⟩ => h ⟨hmode, hword⟩

section
variable {before : Nat} {s : Dev} (hmode : s.sys.mode = .active) (hactive : hbMode s.red.word = 4) (hholds : hbHolds s.red.word = true)
include hmode hactive hholds

theorem dualActive_secondary (hrole : s.red.role = 1) : (dualActive before s).sys.mode = .standby ∧ (dualActive before s).red.handover = none := by
  have hstandby : dualActive before s = enterStandby (postRed 2 0x09 0 (bump R.RED_DUAL_ACTIVE s)) := by
    unfold dualActive
    dsimp only
    have hrole' : (postRed 2 0x09 0 (bump R.RED_DUAL_ACTIVE s)).red.role = 1 := by rw [(postRed_pair _ _ _ _).1]; exact hrole
    rw [if_pos (by simp [hmode, hactive, hholds, hrole]), if_pos hrole']
  rw [hstandby]
  exact ⟨(enterStandby_spec _).1, (enterStandby_spec _).2.1⟩

theorem dualActive_primary (hrole : s.red.role = 0) (hfirst : ¬ (hbMode before = 4 ∧ hbHolds before = true)) :
    dualActive before s = postRed 2 0x09 0 (bump R.RED_DUAL_ACTIVE s) := by
  unfold dualActive
  dsimp only
  have hrole' : (postRed 2 0x09 0 (bump R.RED_DUAL_ACTIVE s)).red.role ≠ 1 := by
    rw [(postRed_pair _ _ _ _).1]
    exact fun h => absurd (hrole.symm.trans h) (by decide)
  rw [if_pos (by simpa [hmode, hactive, hholds, hrole, Decidable.imp_iff_not_or] using hfirst), if_neg hrole']

end

/-! The rows' events, each as what it leaves -/

section
variable {t : Time} {s : State} {d : Dev} (hd : AtTime t s d)
include hd

/-- The device with the next heartbeat counted. -/
theorem exec_heartbeatSend : Completes (.heartbeatSend t) s (if hbRuns d = true ∧ elapsed d d.red.sentAt (us 100) = true then
    (let x := { d with red.seq := d.red.seq + 1, red.sentAt := some d.raw }
     valSend 4 0 x.red.partner 0 0 0 0 false (.heartbeat (hbWord x) x.red.health) (emit (.heartbeat (hbWord x)) x)) else d) := by
  subst hd
  refine onDev_eq (f := runHeartbeatSend t) ?_
  unfold runHeartbeatSend
  simp only [Bool.and_eq_true]

theorem exec_heartbeatRx (path w : Nat) : Completes (.heartbeatRx t path w) s
    (if (path = 1 ∨ path = 2) ∧ (hbRuns d = true ∨ d.sys.mode = .configure) then hbRx path (w % 2 ^ 64) d else d) := by
  subst hd
  refine onDev_eq (f := runHeartbeatRx t path w) ?_
  unfold runHeartbeatRx
  simp only [Bool.and_eq_true, Bool.or_eq_true, beq_iff_eq]

theorem exec_heartbeatMiss (path : Nat) : Completes (.heartbeatMiss t path) s
    (if hbRuns d = true ∧ (path = 1 ∨ path = 2) ∧ max (pathAt d path).at_ (pathAt d path).missAt + us 100 ≤ d.raw then
      bump (if path = 1 then R.RED_HB_MISS_V else R.RED_HB_MISS_W) (setPath path { pathAt d path with missAt := d.raw, run := 0 } d) else d) := by
  subst hd
  refine onDev_eq (f := runHeartbeatMiss t path) ?_
  unfold runHeartbeatMiss
  simp only [Bool.and_eq_true, Bool.or_eq_true, beq_iff_eq, decide_eq_true_eq, and_assoc]

theorem exec_pathDegraded (path : Nat) : Completes (.pathDegraded t path) s
    (if hbRuns d = true ∧ (path = 1 ∨ path = 2) ∧ (pathAt d path).up = true ∧ (pathAt d path).at_ + ms 1 ≤ d.raw then losePath path d else d) := by
  subst hd
  refine onDev_eq (f := runPathDegraded t path) ?_
  unfold runPathDegraded
  simp only [Bool.and_eq_true, Bool.or_eq_true, beq_iff_eq, decide_eq_true_eq, and_assoc]

theorem exec_ilkBreath (low : Bool) : Completes (.ilkBreath t low) s (if (d.red.ilk && !d.red.silent && low) = true then
    (let u := bump R.RED_BREATH_LOW d
     if elapsed u u.red.breathAt (sec 1) then postRed 2 0x06 (rg u R.RED_BREATH_LOW).toNat { u with red.breathAt := some u.raw } else u) else d) := by
  subst hd
  exact onDev_eq (f := runIlkBreath t low) rfl

theorem exec_ilkLineClass (c : Nat) : Completes (.ilkLineClass t c) s (if timeRuns d = true ∧ d.red.ilk = false ∧ c ≤ 2 then
    { d with red.line := c, red.saidStuck := d.red.saidStuck && c == 2, red.saidSevered := d.red.saidSevered && c == 0 } else d) := by
  subst hd
  refine onDev_eq (f := runIlkLineClass t c) ?_
  unfold runIlkLineClass
  simp only [Bool.and_eq_true, Bool.not_eq_true', decide_eq_true_eq, and_assoc]

theorem exec_claimEvaluation : Completes (.claimEvaluation t) s
    (if d.red.paired = true ∧ d.sys.mode = .standby ∧ d.red.silent = false ∧ d.red.claim = none ∧ handingOver d = false then claimEvaluation d else d) := by
  subst hd
  refine onDev_eq (f := runClaimEvaluation t) ?_
  unfold runClaimEvaluation
  simp only [Bool.and_eq_true, Bool.not_eq_true', beq_iff_eq, Option.isNone_iff_eq_none, and_assoc]

theorem exec_claimRelease : Completes (.claimRelease t) s (match d.red.claim with
    | some c => if c.step = 1 ∧ c.at_ + us (if d.red.role = 0 then 40 else 20) ≤ d.raw then
        emit (.ilk false) { d with red.claim := some { c with step := 2, at_ := d.raw } } else d
    | none => d) := by
  subst hd
  exact onDev_eq (f := runClaimRelease t) rfl

theorem exec_claimSample (high : Bool) : Completes (.claimSample t high) s (match d.red.claim with
    | some c => if c.step = 2 ∧ c.at_ + us 2 ≤ d.raw then
        (if high = true ∧ d.sys.mode = .standby ∧ d.red.silent = false then takeover c.unwitnessed { d with red.claim := none, red.line := 1 }
          else bump R.RED_CLAIMS_LOST { d with red.claim := none, red.line := 1 }) else d
    | none => d) := by
  subst hd
  refine onDev_eq (f := runClaimSample t high) ?_
  unfold runClaimSample
  simp only [Bool.not_eq_true'] <;> rfl

theorem exec_witnessAnswerTimeout : Completes (.witnessAnswerTimeout t) s (match d.red.asked with
    | some v => if d.red.answer = none ∧ v + us 400 ≤ d.raw then unreachable { d with red.asked := none } else d
    | none => d) := by
  subst hd
  refine onDev_eq (f := runWitnessAnswerTimeout t) ?_
  unfold runWitnessAnswerTimeout
  simp only [Option.isNone_iff_eq_none] <;> rfl

/-- R343: the probes that go unanswered are gone, and what the unit answers for them leaves alone. -/
theorem exec_witnessProbeTimeout : ∃ e, Completes (.witnessProbeTimeout t) s e ∧
    e.red = { d.red with probes := d.red.probes.filter fun p => !decide (p.2.2 + us 300 ≤ d.raw) } ∧ e.regs = d.regs ∧ e.sys = d.sys := by
  subst hd
  refine ⟨_, onDev_eq (f := runWitnessProbeTimeout t) rfl, ?_, ?_, ?_⟩
  · exact (foldl_outOnly _ (fun x p => by split <;> [exact valSend_outOnly _ _ _ _ _ _ _ _ _ _; rfl]) _ _).red
  · exact foldl_regs _ (fun x p => by split <;> [exact valSend_regs _ _ _ _ _ _ _ _ _ _; rfl]) _ _
  · exact (foldl_outOnly _ (fun x p => by split <;> [exact valSend_outOnly _ _ _ _ _ _ _ _ _ _; rfl]) _ _).sys

end

/-- A heartbeat's MODE lies in the low bits that the word keeps. -/
theorem hbMode_word (w : Nat) : hbMode (w % 2 ^ 64) = hbMode w := Nat.mod_mod_of_dvd w (by decide)

section
variable {t : Time} {s : State} {d : Dev} (hd : AtTime t s d) {path w : Nat} (hp : path = 1 ∨ path = 2) (hrun : hbRuns d = true)
  (hseq : (pathAt d path).seq ≠ some (hbSeq (w % 2 ^ 64))) (hhand : d.red.handover = none)
include hd hp hrun hseq

/-- R336: a new heartbeat that does not say HOLD or a first STANDBY is taken, then compared with the unit's own mode. -/
theorem exec_heartbeatRx_new (hnot6 : hbMode w ≠ 6) (hnot5 : hbMode w = 5 → hbMode d.red.word = 5) :
    Completes (.heartbeatRx t path w) s (handoverSeen (dualActive d.red.word (beat path w d (pathAt d path)))) := by
  have hc := exec_heartbeatRx hd path w
  rwa [if_pos ⟨hp, .inl hrun⟩, beat6 path w d _ rfl hseq hrun (hbMode_word w) hnot6 hnot5] at hc

include hhand

/-- R336: nothing else follows while the two units are not both ACTIVE. -/
theorem heartbeatRx_peace (hnot6 : hbMode w ≠ 6) (hnot5 : hbMode w = 5 → hbMode d.red.word = 5)
    (hpeace : ¬ (d.sys.mode = .active ∧ hbMode w = 4 ∧ hbHolds (w % 2 ^ 64) = true)) :
    Completes (.heartbeatRx t path w) s (beat path w d (pathAt d path)) := by
  have hc := exec_heartbeatRx_new hd hp hrun hseq hnot6 hnot5
  obtain ⟨hsys, hword, -, hnone, -⟩ := beat6_keeps path w d (pathAt d path) hhand
  rwa [dualActive_peace _ _ (by rwa [hsys, hword, hbMode_word]), handoverSeen_none _ hnone] at hc

variable (hmode : d.sys.mode = .active) (hactive : hbMode w = 4) (hholds : hbHolds (w % 2 ^ 64) = true)
include hmode hactive hholds

/-- R341: a secondary gives way. -/
theorem heartbeatRx_secondary (hrole : d.red.role = 1) : ∃ e, Completes (.heartbeatRx t path w) s e ∧ e.sys.mode = .standby := by
  have hc := exec_heartbeatRx_new hd hp hrun hseq (by omega) (by omega)
  obtain ⟨hsys, hword, hsame, -, -⟩ := beat6_keeps path w d (pathAt d path) hhand
  obtain ⟨hstandby, hnone⟩ := dualActive_secondary (before := d.red.word) (hsys ▸ hmode) (by rw [hword, hbMode_word, hactive]) (by rw [hword, hholds]) (hsame.trans hrole)
  rw [handoverSeen_none _ hnone] at hc
  exact ⟨_, hc, hstandby⟩

/-- R341: a primary stays ACTIVE and counts the clash once. -/
theorem heartbeatRx_primary (hrole : d.red.role = 0) (hfirst : ¬ (hbMode d.red.word = 4 ∧ hbHolds d.red.word = true)) :
    ∃ e, Completes (.heartbeatRx t path w) s e ∧ e.sys = d.sys ∧ (rg e R.RED_DUAL_ACTIVE).toNat = min ((rg d R.RED_DUAL_ACTIVE).toNat + 1) 0xFFFFFFFF := by
  have hc := exec_heartbeatRx_new hd hp hrun hseq (by omega) (by omega)
  obtain ⟨hsys, hword, hsame, hnone, hregs⟩ := beat6_keeps path w d (pathAt d path) hhand
  obtain ⟨pred, psys, pregs⟩ := postRed_pair 2 0x09 0 (bump R.RED_DUAL_ACTIVE (beat path w d (pathAt d path)))
  rw [dualActive_primary (by rwa [hsys]) (by rwa [hword, hbMode_word]) (by rwa [hword]) (hsame.trans hrole) hfirst,
    handoverSeen_none _ (by rw [pred]; exact hnone)] at hc
  refine ⟨_, hc, psys.trans hsys, ?_⟩
  rw [pregs _ (by decide), bump_toNat, hregs _ (by decide)]

end

/-- R340: the pulse begins, and nothing else is asked. -/
theorem startClaim_shows (u : Bool) (d : Dev) : (startClaim u d).red = { d.red with claim := some ⟨1, d.raw, u⟩, asked := none, answer := none } ∧
    (startClaim u d).sys = d.sys ∧ (startClaim u d).regs = d.regs ∧ (startClaim u d).out = .ilk true :: d.out := ⟨rfl, rfl, rfl, rfl⟩

section
variable {d : Dev} {v : Time}

theorem askWitness_waits (hasked : d.red.asked.isSome = true) (hans : d.red.answer = none) : askWitness d = d := by
  obtain ⟨v, hv⟩ := Option.isSome_iff_exists.mp hasked
  unfold askWitness
  rw [hv, hans]

theorem askWitness_answered {a : Nat} (hasked : d.red.asked.isSome = true) (hans : d.red.answer = some a) :
    askWitness d = if a = 2 then severed { d with red.asked := none, red.answer := none } else startClaim false { d with red.asked := none, red.answer := none } := by
  obtain ⟨v, hv⟩ := Option.isSome_iff_exists.mp hasked
  unfold askWitness
  rw [hv, hans]

/-- R343: the question goes to the witness and is counted. -/
theorem askWitness_asks {w : Nat} (hasked : d.red.asked = none) (hw : witnessOf d = some w) : (askWitness d).red = { d.red with asked := some d.raw } ∧
    (rg (askWitness d) R.RED_WITNESS_QUERIES).toNat = min ((rg d R.RED_WITNESS_QUERIES).toNat + 1) 0xFFFFFFFF := by
  have hask : askWitness d = valSend 4 0 w 0 0 0 0 false (.witnessAsk d.red.partner) (bump R.RED_WITNESS_QUERIES { d with red.asked := some d.raw }) := by
    unfold askWitness
    rw [hasked, hw]
  rw [hask]
  refine ⟨(valSend_outOnly _ _ _ _ _ _ _ _ _ _).red, ?_⟩
  rw [rg_congr (valSend_regs _ _ _ _ _ _ _ _ _ _), bump_toNat]
  rfl

theorem askWitness_alone (hasked : d.red.asked = none) (hw : witnessOf d = none) : askWitness d = unreachable d := by
  unfold askWitness
  rw [hasked, hw]

end

/-- Settles O51: each event leaves what its `exec_` lemma says; the rows of R342 are `claimEvaluation_bars`, `claimEvaluation_free` and
the four cases of `askWitness`. -/
theorem heartbeatsAndTheInterlock : Obligations.HeartbeatsAndTheInterlock := by
  intro t s d hd plus claims
  refine ⟨fun hidle => ?_, fun hrun hdue => ?_, fun path w => ?_, fun path => ?_, fun low => ?_, fun c => ?_, ?_, fun high hnone => ?_, fun c high hclaim => ?_,
    exec_witnessProbeTimeout hd, ?_⟩
  · have hc := exec_heartbeatSend hd
    rwa [if_neg (fun h => by rcases hidle with hi | hi <;> simp [hi] at h)] at hc
  · have hc := exec_heartbeatSend hd
    rw [if_pos ⟨hrun, hdue⟩] at hc
    exact ⟨_, hc, (valSend_outOnly _ _ _ _ _ _ _ _ _ _).red, valSend_regs _ _ _ _ _ _ _ _ _ _, (valSend_outOnly _ _ _ _ _ _ _ _ _ _).sys,
      mem_out_valSend (List.mem_cons_self ..) _ _ _ _ _ _ _ _ _⟩
  · intro x
    refine ⟨fun hnot => ?_, fun hp hrun hseq hhand => ⟨fun hnot6 hnot5 hpeace => ?_, heartbeatRx_secondary hd hp hrun hseq hhand, heartbeatRx_primary hd hp hrun hseq hhand⟩⟩
    · have hc := exec_heartbeatRx hd path w
      rcases hnot with hpath | ⟨hstop, hmode⟩ | hseq
      · rwa [if_neg (fun h => hpath h.1)] at hc
      · rwa [if_neg (fun h => h.2.elim (by simp [hstop]) hmode)] at hc
      · have hold : hbRx path (w % 2 ^ 64) d = d := if_pos hseq
        rwa [hold, ite_self] at hc
    · obtain ⟨hsys, hword, -, -, hregs⟩ := beat6_keeps path w d x hhand
      obtain ⟨hpath, hother, hilk⟩ := beat_paths path w d x hp
      exact ⟨_, heartbeatRx_peace hd hp hrun hseq hhand hnot6 hnot5 hpeace, hpath, hword, hother, hilk, hsys, hregs⟩
  · intro x missed lost
    refine ⟨fun h => ?_, fun h => ?_, fun h => ?_, fun h hhand => ?_⟩
    · have hc := exec_heartbeatMiss hd path
      rwa [if_neg h] at hc
    · have hc := exec_heartbeatMiss hd path
      rw [if_pos h] at hc
      obtain ⟨hsys, hregs, hout, -⟩ := setPath_keeps path { x with missAt := d.raw, run := 0 } d
      refine ⟨_, hc, ?_, ?_, ?_, hout, hsys⟩
      · exact pathAt_setPath path _ d
      · exact (bump_toNat _ _).trans (by rw [rg_congr hregs])
      · exact pathAt_other path _ d h.2.1
    · have hc := exec_pathDegraded hd path
      rwa [if_neg h] at hc
    · have hc := exec_pathDegraded hd path
      rw [if_pos h] at hc
      obtain ⟨hpath, hother, hilk, hsys, hcount, hsaid⟩ := losePath_spec path d h.2.1 hhand
      exact ⟨_, hc, hpath, hother, hilk, hsys, (congrArg BitVec.toNat hcount).trans (min1_toNat _), hsaid⟩
  · refine ⟨fun h => ?_, fun h => ?_⟩
    · have hc := exec_ilkBreath hd low
      rwa [if_neg (by rw [h]; decide)] at hc
    · have hc := exec_ilkBreath hd low
      rw [if_pos h] at hc
      obtain ⟨hcount, hsys, hred⟩ := breathLow_spec d
      exact ⟨_, hc, (congrArg BitVec.toNat hcount).trans (min1_toNat _), hsys, hred⟩
  · refine ⟨fun h => ?_, fun hrun hfree hc3 => ?_⟩
    · have hc := exec_ilkLineClass hd c
      rwa [if_neg (fun g => by obtain ⟨g1, g2, g3⟩ := g; exact h.elim (by simp [g1]) (Or.rec (by simp [g2]) (by omega)))] at hc
    · have hc := exec_ilkLineClass hd c
      rw [if_pos ⟨hrun, hfree, hc3⟩] at hc
      exact ⟨_, hc, rfl, rfl, rfl, rfl⟩
  · intro may
    have hrow : may → Completes (.claimEvaluation t) s (claimEvaluation d) := fun h => by
      have hc := exec_claimEvaluation hd
      rwa [if_pos h] at hc
    refine ⟨fun h => ?_, fun h hbar => ?_, fun h hopen hline => ?_⟩
    · have hc := exec_claimEvaluation hd
      rwa [if_neg h] at hc
    · have hc := hrow h
      obtain ⟨-, -, -, hclaim, -⟩ := h
      exact ⟨_, hc, claimEvaluation_bars d hclaim hbar⟩
    · obtain ⟨hheard, halone, hask⟩ := claimEvaluation_free d hopen hline
      refine ⟨fun hany hholds => ⟨_, hheard hany hholds ▸ hrow h, startClaim_shows false d⟩, fun hany hneed => ⟨_, halone hany hneed ▸ hrow h, startClaim_shows true d⟩,
        fun hany hneed => ?_⟩
      have hc := hask hany hneed ▸ hrow h
      refine ⟨fun hasked hans => ?_, fun a hasked hans ha => ?_, fun hasked hans => ?_, fun w hasked hw => ⟨_, hc, askWitness_asks hasked hw⟩, fun hasked hw => ?_⟩
      · rwa [askWitness_waits hasked hans] at hc
      · rw [askWitness_answered hasked hans, if_neg ha] at hc
        exact ⟨_, hc, startClaim_shows false { d with red.asked := none, red.answer := none }⟩
      · rw [askWitness_answered hasked hans, if_pos rfl] at hc
        obtain ⟨-, -, -, hclaim, -⟩ := h
        have hred := severed_red { d with red.asked := none, red.answer := none }
        exact ⟨_, hc, (congrArg Red.claim hred).trans hclaim, congrArg Red.asked hred, congrArg Red.saidSevered hred⟩
      · rw [askWitness_alone hasked hw] at hc
        exact ⟨_, hc, (unreachable_spec d).1⟩
  · have hrel := exec_claimRelease hd
    have hsample := exec_claimSample hd high
    rw [hnone] at hrel hsample
    exact ⟨hrel, hsample⟩
  · have hrel := exec_claimRelease hd
    have hsample := exec_claimSample hd high
    rw [hclaim] at hrel hsample
    dsimp only at hrel hsample
    refine ⟨⟨fun h => by rwa [if_neg h] at hrel, fun h => ?_⟩, fun h => by rwa [if_neg h] at hsample, fun hstep hdue => ?_⟩
    · rw [if_pos h] at hrel
      exact ⟨_, hrel, rfl, rfl, rfl, rfl⟩
    · rw [if_pos ⟨hstep, hdue⟩] at hsample
      refine ⟨fun hlose => ?_, fun hhigh hmode hloud => ?_⟩
      · rw [if_neg (fun g => by obtain ⟨g1, g2, g3⟩ := g; exact hlose.elim (by simp [g1]) (Or.rec (fun hl => hl g2) (by simp [g3])))] at hsample
        exact ⟨_, hsample, rfl, bump_toNat _ _, rfl, rfl⟩
      · rw [if_pos ⟨hhigh, hmode, hloud⟩] at hsample
        obtain ⟨hactive, hat, hilk, hcl, hhand, hwon, htake⟩ := takeover_spec c.unwitnessed { d with red.claim := none, red.line := 1 }
        exact ⟨_, hsample, hactive, hat, hilk, hcl, hhand, (congrArg BitVec.toNat hwon).trans (min1_toNat _), (congrArg BitVec.toNat htake).trans (min1_toNat _)⟩
  · intro late
    have hc := exec_witnessAnswerTimeout hd
    refine ⟨fun h => ?_, fun h => ?_⟩
    · cases hasked : d.red.asked with
      | none => rwa [hasked] at hc
      | some v =>
        rw [hasked] at hc
        dsimp only at hc
        rwa [if_neg (fun g => h ⟨g.1, v, hasked, g.2⟩)] at hc
    · obtain ⟨hans, v, hasked, hv⟩ := h
      rw [hasked] at hc
      dsimp only at hc
      rw [if_pos ⟨hans, hv⟩] at hc
      obtain ⟨hred, hsys, -⟩ := unreachable_spec { d with red.asked := none }
      exact ⟨_, hc, hred, hsys⟩

end Sys2Proof.Machine
end

section
/-! SUPPORT. Checkpoints and the handover (R345 to R353). -/

namespace Sys2Proof.Machine

/-- A checkpoint with these chunks is the whole of what its trailer announces (R347). -/
def WholeCkpt (b : List Byte) (c : CkptIn) : Prop :=
  c.num = at_ b 0 8 ∧ c.chunks.length = 16 * at_ b 8 4 ∧ crc32c (c.chunks.flatMap fun e => e.2.2.2) = at_ b 12 4

/-- R347: a refused checkpoint leaves the one applied before, and the grounds stand as they were found. -/
def CkptRefused (d e : Dev) : Prop :=
  e.red.applied = d.red.applied ∧ e.red.stage = none ∧ e.red.refused = true ∧ (rg e R.RED_CKPT_REFUSED).toNat = min ((rg d R.RED_CKPT_REFUSED).toNat + 1) 0xFFFFFFFF

theorem refuseCkpt_refuses {d f : Dev} (happlied : f.red.applied = d.red.applied) (hregs : f.regs = d.regs) (num : Nat) :
    CkptRefused d (withHealth (refuseCkpt num f)) := by
  obtain ⟨happ, hstage, hrefused, -, -, hcount⟩ := refuseCkpt_spec num f
  exact ⟨happ.trans happlied, hstage, hrefused, by rw [hcount, min1_toNat, rg_congr hregs]⟩

/-- R352 step 4: the old active has let go, and tells its partner. -/
def released (x : Handover) (d : Dev) : Dev := tellHandover 3 false x.nh 0 { d with red.handover := some { x with step := 4 } }

theorem released_shows (x : Handover) {d : Dev} (hmode : d.sys.mode = .standby) (hilk : d.red.ilk = false) :
    (released x d).sys.mode = .standby ∧ (released x d).red.ilk = false ∧ (released x d).red.handover = some { x with step := 4 } := by
  obtain ⟨hsys, hsame, hhand⟩ := release_spec { x with step := 4 } x.nh d
  exact ⟨(congrArg Sys.mode hsys).trans hmode, hsame.trans hilk, hhand⟩

section
variable {t : Time} {s : State} {d : Dev} (hd : AtTime t s d)
include hd

theorem exec_checkpointTrailerRx (b : List Byte) : Completes (.checkpointTrailerRx t b) s
    (if b.length = 32 then ckptTrailer (at_ b 0 8) (at_ b 8 4) (at_ b 12 4) d else d) := by
  subst hd
  exact onDev_eq (f := runCheckpointTrailerRx t b) rfl

theorem exec_checkpointAckTimeout : Completes (.checkpointAckTimeout t) s (match d.red.out with
    | some o => if ∃ v, o.trailer = some v ∧ v + ms 10 ≤ d.raw then ckptLost d else d
    | none => d) := by
  subst hd
  refine onDev_eq (f := runCheckpointAckTimeout t) ?_
  unfold runCheckpointAckTimeout
  simp only [Option.any_eq_true, decide_eq_true_eq] <;> rfl

theorem exec_checkpointTick : Completes (.checkpointTick t) s (if pacing d = none then ckptTick (lastLatched d) d else d) := by
  subst hd
  refine onDev_eq (f := runCheckpointTick t) ?_
  unfold runCheckpointTick
  simp only [Option.isNone_iff_eq_none]

theorem exec_handoverRelease : Completes (.handoverRelease t) s (match d.red.handover with
    | some x => if x.giving = true ∧ x.step = 3 ∧ d.sys.mode = .active ∧ d.red.out = none ∧ showWaiting d = false then
        released x (enterStandby d) else d
    | none => d) := by
  subst hd
  refine onDev_eq (f := runHandoverRelease t) ?_
  unfold runHandoverRelease released
  simp only [Option.isNone_iff_eq_none, Bool.not_eq_true'] <;> rfl

theorem exec_healthReport_early (f n : Nat) (hearly : ¬ (d.red.paired = true ∧ d.sys.mode = .standby ∧ d.red.healthAt + sec 1 ≤ d.raw)) :
    Completes (.healthReport t f n) s d := by
  subst hd
  refine onDev_eq (f := runHealthReport t f n) (congrArg _ (if_neg ?_))
  rwa [Bool.and_eq_true, Bool.and_eq_true, beq_iff_eq, decide_eq_true_eq, and_assoc]

/-! The trailer of a checkpoint -/

section
variable {b : List Byte} (hlen : b.length = 32) (htakes : ckptTakes d = true)
include hlen htakes

theorem trailer_without_stage (hstage : (d.red.stage.bind fun c => c.snap.map fun x => (c, x)) = none) :
    ∃ e, Completes (.checkpointTrailerRx t b) s e ∧ CkptRefused d e := by
  have hc := exec_checkpointTrailerRx hd b
  have hrow : ckptTrailer (at_ b 0 8) (at_ b 8 4) (at_ b 12 4) d = withHealth (refuseCkpt (at_ b 0 8) { d with red.offered := true }) := by
    unfold ckptTrailer
    rw [if_neg (by rw [htakes]; decide)]
    dsimp only
    rw [hstage]
  rw [if_pos hlen, hrow] at hc
  exact ⟨_, hc, refuseCkpt_refuses rfl rfl _⟩

variable {c : CkptIn} {x : Snapshot} (hstage : d.red.stage = some c) (hsnap : c.snap = some x)
include hstage hsnap

theorem trailer_broken (hbroken : ¬ WholeCkpt b c) : ∃ e, Completes (.checkpointTrailerRx t b) s e ∧ CkptRefused d e := by
  have hc := exec_checkpointTrailerRx hd b
  obtain ⟨fin, hrow, -⟩ := ckptTrailer_staged (at_ b 0 8) (at_ b 8 4) (at_ b 12 4) d c x htakes hstage hsnap
  rw [if_pos (by unfold WholeCkpt at hbroken; tauto)] at hrow
  rw [if_pos hlen, hrow] at hc
  exact ⟨_, hc, refuseCkpt_refuses rfl rfl _⟩

variable (hwhole : WholeCkpt b c)
include hwhole

/-- R348: the grounds that bar the unit stand, and are counted with the refusal. -/
theorem trailer_barred (hbar : (ckptGrounds x d).1 = true ∨ (ckptGrounds x d).2 = true) :
    ∃ e, Completes (.checkpointTrailerRx t b) s e ∧ CkptRefused d e ∧ e.red.cpBad = (ckptGrounds x d).1 ∧ e.red.capShort = (ckptGrounds x d).2 := by
  have hc := exec_checkpointTrailerRx hd b
  obtain ⟨fin, hrow, -⟩ := ckptTrailer_staged (at_ b 0 8) (at_ b 8 4) (at_ b 12 4) d c x htakes hstage hsnap
  rw [if_neg (by unfold WholeCkpt at hwhole; tauto), if_pos ((Bool.or_eq_true _ _).mpr hbar)] at hrow
  rw [if_pos hlen, hrow] at hc
  obtain ⟨-, -, -, hbad, hshort, -⟩ :=
    refuseCkpt_spec (at_ b 0 8) { d with red.offered := true, red.cpBad := (ckptGrounds x d).1, red.capShort := (ckptGrounds x d).2 }
  exact ⟨_, hc, refuseCkpt_refuses rfl rfl _, hbad, hshort⟩

theorem trailer_applied (hbad : (ckptGrounds x d).1 = false) (hshort : (ckptGrounds x d).2 = false) :
    ∃ e, Completes (.checkpointTrailerRx t b) s e ∧ e.red.applied = some { c with chunks := [] } ∧ e.red.stage = none ∧ e.red.saidBlocked = false := by
  have hc := exec_checkpointTrailerRx hd b
  obtain ⟨fin, hrow, happlied, hnone, hsaid⟩ := ckptTrailer_staged (at_ b 0 8) (at_ b 8 4) (at_ b 12 4) d c x htakes hstage hsnap
  rw [if_neg (by unfold WholeCkpt at hwhole; tauto), if_neg (by rw [hbad, hshort]; decide)] at hrow
  rw [if_pos hlen, hrow] at hc
  have hred := (valSend_outOnly 3 2 fin.red.partner 0 0 0 0 false (.ckptAck (at_ b 0 8)) (withHealth fin)).red
  exact ⟨_, hc, (congrArg Red.applied hred).trans happlied, (congrArg Red.stage hred).trans hnone, (congrArg Red.saidBlocked hred).trans hsaid⟩

end

end

/-- R345: a checkpoint without an acknowledgement is given up, its pages are dirty again and a handover goes back a step. -/
theorem ckptLost_shows {d : Dev} {o : CkptOut} (hout : d.red.out = some o) : (ckptLost d).red.out = none ∧ (ckptLost d).regs = d.regs ∧ (ckptLost d).sys = d.sys ∧
    (ckptLost d).pln.ptes = o.pages.foldl (fun p k => tmod p k fun y => { y with d := true }) d.pln.ptes ∧
    ∀ x, d.red.handover = some x → (ckptLost d).red.handover = some (if x.giving = true ∧ x.step = 3 then { x with step := 2 } else x) := by
  unfold ckptLost
  rw [ckptAbandon_some { d with red.full := d.red.full || d.red.ackNum == 0 } o hout]
  dsimp only
  cases hhand : d.red.handover with
  | none => exact ⟨rfl, rfl, rfl, rfl, fun _ h => by cases h⟩
  | some x =>
    dsimp only
    by_cases hgoes : x.giving = true ∧ x.step = 3
    · rw [if_pos hgoes]
      exact ⟨rfl, rfl, rfl, rfl, fun y hy => by obtain rfl := Option.some.inj hy; rw [if_pos hgoes]⟩
    · rw [if_neg hgoes]
      exact ⟨rfl, rfl, rfl, rfl, fun y hy => by obtain rfl := Option.some.inj hy; rw [if_neg hgoes]⟩

/-! HANDOVER START and CANCEL (R351) -/

/-- The rows of R351's table that turn a START away, as propositions. -/
theorem handoverBarred_eq (force : Bool) (d : Dev) : handoverBarred force d =
    if d.red.paired = false ∨ (hbMode d.red.word ≠ 4 ∧ hbMode d.red.word ≠ 5) ∨ hbMode d.red.word = d.sys.mode.code then some rcConflict
    else if standbyHealthy d = false ∧ force = false then some rcConflict
    else if standbyBlocked d = true then some rcIncompatible
    else if d.red.valley.up = false ∨ d.red.handover.isSome = true then some rcBusy else none := by
  unfold handoverBarred
  dsimp only
  simp only [Bool.or_eq_true, Bool.and_eq_true, Bool.not_eq_true', Bool.or_eq_false_iff, beq_eq_false_iff_ne, beq_iff_eq, or_assoc, ne_eq]

theorem tellHandover_outOnly (op : Nat) (force : Bool) (nh : Int) (code : Nat) (d : Dev) : OutOnly d (tellHandover op force nh code d) := valTell_outOnly _ _ _ _

theorem tellHandover_regs (op : Nat) (force : Bool) (nh : Int) (code : Nat) (d : Dev) : (tellHandover op force nh code d).regs = d.regs :=
  valSend_regs _ _ _ _ _ _ _ _ _ _

section
variable {h : CmdHdr} {b : List Byte} {d : Dev}

theorem handoverStart_misformed (hbad : 1 < at_ b 1 1 ∨ at_ b 2 6 ≠ 0) : handoverStart h b d = (d, fails 0 rcOutOfRange) := by
  refine if_neg ?_
  rw [Bool.and_eq_true, decide_eq_true_eq, beq_iff_eq]
  omega

variable (hforce : at_ b 1 1 ≤ 1) (hzero : at_ b 2 6 = 0)
include hforce hzero

theorem handoverStart_guard : (decide (at_ b 1 1 ≤ 1) && at_ b 2 6 == 0) = true := by
  rw [Bool.and_eq_true, decide_eq_true_eq, beq_iff_eq]
  exact ⟨hforce, hzero⟩

theorem handoverStart_barred {c : Nat} (hbar : handoverBarred (bit (at_ b 1 1) 0) d = some c) : handoverStart h b d = (d, fails 0 c) := by
  refine (if_pos (handoverStart_guard hforce hzero)).trans ?_
  rw [hbar]

variable (hopen : handoverBarred (bit (at_ b 1 1) 0) d = none)
include hopen

/-- The active unit answers with the N_h in force. -/
theorem handoverStart_active (hmode : d.sys.mode = .active) : handoverStart h b d =
    (tellHandover 0 (bit (at_ b 1 1) 0) (max (at_ b 8 8) (leastNh d)) 0
      { d with red.handover := some { nh := max (at_ b 8 8) (leastNh d), step := 1, asked := none, giving := true } },
      done 0 (leBytes 8 (unsgn 64 (max (at_ b 8 8) (leastNh d))))) := by
  refine (if_pos (handoverStart_guard hforce hzero)).trans ?_
  rw [hopen]
  exact if_pos hmode

/-- The other unit passes the START on and answers later. -/
theorem handoverStart_passedOn (hmode : d.sys.mode ≠ .active) : handoverStart h b d =
    (tellHandover 0 (bit (at_ b 1 1) 0) (at_ b 8 8) 0 { d with red.handover := some { nh := at_ b 8 8, step := 0, asked := some h, giving := false } }, .later) := by
  refine (if_pos (handoverStart_guard hforce hzero)).trans ?_
  rw [hopen]
  exact if_neg hmode

end

/-- A handover that ends answers the command that asked for it, and no mode changes. -/
theorem endHandover_shows {d : Dev} {x : Handover} (hx : d.red.handover = some x) (code : Nat) :
    (endHandover code d).red = { d.red with handover := none } ∧ (endHandover code d).sys = d.sys := by
  unfold endHandover
  rw [hx]
  dsimp only
  split
  · exact ⟨by rw [complete_rest], complete_sys _ _ _ _ _ _⟩
  · exact ⟨rfl, rfl⟩

/-- Settles O52: the trailer by its four cases, the timeout by `ckptLost_shows`, the tick by `sendCkpt_spec` and `ckptTick_stretch`, and
HANDOVER by the bodies of its two commands. -/
theorem checkpointsAndHandover : Obligations.CheckpointsAndHandover := by
  intro t s d hd plus
  refine ⟨fun b => ⟨fun hnot => ?_, fun hlen htakes => ?_⟩, ?_, fun hnot => ?_, fun hpace hmay => ?_,
    ?_, fun f n => ?_, fun h b hs => ?_, fun h hs => ?_⟩
  · have hc := exec_checkpointTrailerRx hd b
    rcases hnot with hlen | htakes
    · rwa [if_neg hlen] at hc
    · have hstays : ckptTrailer (at_ b 0 8) (at_ b 8 4) (at_ b 12 4) d = d := if_pos (by rw [htakes]; rfl)
      rwa [hstays, ite_self] at hc
  · intro whole
    refine ⟨trailer_without_stage hd hlen htakes, fun c x hstage hsnap =>
      ⟨trailer_broken hd hlen htakes hstage hsnap, fun hwhole hbar => ?_, trailer_applied hd hlen htakes hstage hsnap⟩⟩
    obtain ⟨e, hc, ⟨happlied, hnone, -, hcount⟩, hbad, hshort⟩ := trailer_barred hd hlen htakes hstage hsnap hwhole hbar
    exact ⟨e, hc, happlied, hnone, hbad, hshort, hcount⟩
  · intro lost
    have hc := exec_checkpointAckTimeout hd
    refine ⟨fun hnone => ?_, fun o ho hlost => ?_⟩
    · cases ho : d.red.out with
      | none => rwa [ho] at hc
      | some o =>
        rw [ho] at hc
        dsimp only at hc
        rwa [if_neg (hnone o ho)] at hc
    · rw [ho] at hc
      dsimp only at hc
      rw [if_pos hlost] at hc
      exact ⟨_, hc, ckptLost_shows ho⟩
  · have hc := exec_checkpointTick hd
    rcases hnot with hpace | hmay
    · rwa [if_neg (fun h => by simp [h] at hpace)] at hc
    · have hstays : ckptTick (lastLatched d) d = d := if_pos (by rw [hmay]; rfl)
      rwa [hstays, ite_self] at hc
  · have hc := exec_checkpointTick hd
    rw [if_pos hpace] at hc
    refine ⟨fun hout => ?_, fun hout => ?_⟩
    · have hsend : ckptTick (lastLatched d) d = sendCkpt (lastLatched d) d :=
        (if_neg (by rw [hmay]; decide)).trans (if_pos (by rw [hout]; rfl))
      rw [hsend] at hc
      exact ⟨_, hc, sendCkpt_spec (lastLatched d) d⟩
    · obtain ⟨hnum, hsame, hcount⟩ := ckptTick_stretch (lastLatched d) d hmay hout
      exact ⟨_, hc, hnum, hsame, (congrArg BitVec.toNat hcount).trans (min1_toNat _)⟩
  · intro ready
    have hc := exec_handoverRelease hd
    refine ⟨fun hnot => ?_, fun hready => ?_⟩
    · cases hx : d.red.handover with
      | none => rwa [hx] at hc
      | some x =>
        rw [hx] at hc
        dsimp only at hc
        rwa [if_neg (fun h => hnot ⟨x, hx, h⟩)] at hc
    · obtain ⟨x, hx, hgo⟩ := hready
      rw [hx] at hc
      dsimp only at hc
      rw [if_pos hgo] at hc
      exact ⟨_, x, hc, hx, released_shows x (enterStandby_spec d).1 (enterStandby_red d).1⟩
  · intro due
    exact ⟨exec_healthReport_early hd f n, fun ⟨hpaired, hmode, hdue⟩ => healthReport_spec t f n s d hd.symm (by rw [hpaired, hmode, decide_eq_true hdue]; rfl)⟩
  · intro force m bar n
    have hbar : bar = handoverBarred force d := (handoverBarred_eq force d).symm
    clear_value bar
    subst hbar
    refine ⟨fun hbad => row_fails (fun _ => rfl) hd hs (handoverStart_misformed hbad), fun hforce hzero => ⟨fun c hc => ?_, fun hopen hmode => ?_, fun hopen hmode => ?_⟩⟩
    · exact row_fails (fun _ => rfl) hd hs (handoverStart_barred hforce hzero hc)
    · exact ⟨_, row_answers (fun _ => rfl) hd hs (handoverStart_active hforce hzero hopen hmode), tellHandover_regs _ _ _ _ _,
        (tellHandover_outOnly _ _ _ _ _).sys, (tellHandover_outOnly _ _ _ _ _).red⟩
    · exact ⟨_, row_pends (fun _ => rfl) hd hs (handoverStart_passedOn hforce hzero hopen hmode), tellHandover_regs _ _ _ _ _,
        (tellHandover_outOnly _ _ _ _ _).sys, (tellHandover_outOnly _ _ _ _ _).red⟩
  · refine ⟨fun hnone => ?_, fun x hx hlate => ?_, fun x hx hearly => ?_⟩
    · exact row_answers (fun _ => rfl) hd hs (body := handoverCancel) (by unfold handoverCancel; rw [hnone])
    · exact row_fails (fun _ => rfl) hd hs (body := handoverCancel) (by unfold handoverCancel; rw [hx]; exact if_pos hlate)
    · have hbody : handoverCancel d = (tellHandover 1 false 0 0 (endHandover rcAborted d), done 0 []) := by
        unfold handoverCancel
        rw [hx]
        exact if_neg (by omega)
      obtain ⟨hred, hsys⟩ := endHandover_shows hx rcAborted
      exact ⟨_, row_answers (fun _ => rfl) hd hs (body := handoverCancel) hbody, (tellHandover_outOnly _ _ _ _ _).red.trans hred, (tellHandover_outOnly _ _ _ _ _).sys.trans hsys⟩

end Sys2Proof.Machine
end
